-- ==== Sys2Proof/Word.lean ====
section
/-! DEFINITION. The machine word and byte, and the sparse-map type that holds keyed storage. -/

namespace Sys2Proof

/-- A 32-bit instruction word or register (R26, R35). -/
abbrev Word := BitVec 32

/-- One byte of storage. -/
abbrev Byte := BitVec 8

/-- Keyed storage in one canonical form: keys strictly rising, no entry equal to what an unlisted key reads as. -/
abbrev SMap (α : Type) := List (Nat × α)

end Sys2Proof
end

