-- ==== Sys2Proof/Config.lean ====
section
/-! DEFINITION. What one part fixes and the manual leaves open, and the free values. A constant declared `opaque` has no
body: nothing can be proved about its value, so a statement about it holds whatever it is. -/

namespace Sys2Proof.Config

/-- Whether the next step performs the oldest work in flight (true), or issues a chain or ends the cycle (false), at the given reading of
the free-value counter. Consulted only where there is work in flight (assumption 3). -/
opaque workFirst : Nat → Bool

/-- How often in a row the work in flight may be put off: every store is performed in the end (R160; assumption 3). -/
opaque maxDefer : Nat

/-- The operand from which on `RSQ`, `EXP2`, `LOG2` or `TANH` (function codes 1, 3, 4, 5) gives at least the result with a place in the order of
F32 values, where R109 gives a bound and no value; one part gives one value for one operand (assumption 10). -/
opaque sfuFrom : Nat → Nat → Nat

/-- How far fabric time has run on, in ns, while a peg held the package (R366, R390; assumption 48). -/
opaque peggedNs : Nat → Nat

/-- Byte k of the n-th reply of a peer package's published window: outside the package (assumption 11). -/
opaque peerByte : Nat → Nat → Byte

/-- Which copies the caches give up in a cycle, as places in the lists of L1 sectors, fabric sectors and translations one after the other: the manual gives
no rule of replacement (R180, R330; assumption 17). -/
opaque evictions : Nat → List Nat

/-- Whether a remote write that timed out, was lost or was cut short by a save took effect at its target; "it may or may
not have been performed" (R141, R361; assumption 12). -/
opaque lateWrite : Nat → Bool

/-- How the target of a remote access answers, modulo 3: it performs it, refuses its offset or permission, or is silent. The arguments are
the tick, the node and the number or location of what is asked (R130, R141, R363; assumption 12). -/
opaque targetAnswer : Nat → Nat → Nat → Nat

/-- The word a scheduler tags at random in the n-th sampling interval, as a position in the interval (R393; assumption 13). -/
opaque sampleDraw : Nat → Nat

/-- Which word of a chain that issues at the tagged place is the tagged one (R393; assumption 13). -/
opaque sampleWord : Nat → Nat

/-- Which of the levels of the memory side served a tagged word's access: the slice, the memory-side cache or HBM (R393; assumption 13). -/
opaque sampleLevel : Nat → Nat

/-- Whether the memory-side cache of its stack, and not the HBM array, served the granule at a location at a tick (R18; assumption 13). -/
opaque fromMemCache : Nat → Nat → Bool

/-- Whether a line of its home slice's own array, of which the die scratchpad leaves half or more, served a local granule at a tick (R17; assumption 66). -/
opaque fromSlice : Nat → Nat → Bool

/-- The cycle counts of one sample record, from bit 48 upward (R393; assumption 13). -/
opaque sampleStages : Nat → BitVec 80

/-- One 32-byte piece of the scan path at the given scan address and reading of the counter: the scan map is part of the
firmware (R386; assumption 14). -/
opaque scanBytes : Nat → Nat → BitVec 256

/-- What the poison mark of a register that `ACCRD` read from a poisoned tile says: address, syndrome and path tag, which the manual
does not give (R206; assumption 20). -/
opaque tilePoison : Nat → BitVec 144

/-- The signature of an attestation report over M, the fused identity, the nonce and the current record of the journal as its five fields: the
device key never leaves the boot ROM (R397; assumption 15). -/
opaque attestSignature : BitVec 384 → BitVec 384 → BitVec 384 → List Nat → BitVec 768

/-- The identity fused in the package (R397). -/
opaque fusedIdentity : BitVec 384

/-- SHA-384 of a measurement followed by a digest, and the digest of a flash copy of the management firmware (R396, R397): the firmware is
outside the manual (assumption 15). -/
opaque sha384 : BitVec 768 → BitVec 384
@[inherit_doc sha384] opaque stageDigest : Nat → BitVec 384

/-- The fabric time in ns that step 12 of a start sets, beside a time that began at the start (R366, R398; assumption 48). -/
opaque startSync : Nat → Int

/-- The ways of a slice that fail the array test where a start does not say (R398; assumption 66). -/
opaque failingWays : Nat → Nat

/-- The fabric address at which a successful `CREATE` answers the queue pages (R343), which the manual does not give (assumption 16). -/
opaque queuePagesFabric : BitVec 64

/-- The firmware context's page-table root, trap base, fault record queue (its base, and the power of two of its size) and remote timeout in µs, as step 13 of
the start sets them (R42, R398). They are part of the firmware, which the manual does not give (assumption 23). -/
opaque firmwareRoot : Nat
@[inherit_doc firmwareRoot] opaque firmwareTrapb : BitVec 64
@[inherit_doc firmwareRoot] opaque firmwareFrqb : BitVec 64
@[inherit_doc firmwareRoot] opaque firmwareFrqn : Nat
@[inherit_doc firmwareRoot] opaque firmwareRto : Nat

/-- The latency bound of a home round trip by the number of die boundaries crossed (R186). -/
def homeRoundTrip : Nat → Nat
  | 0 => 300
  | 1 => 550
  | _ => 800

/-- Ticks of one microsecond, at 2.4 GHz (R7). -/
def ticksPerUs : Nat := 2400

end Sys2Proof.Config
end

