-- ==== Sys2Proof/Syntax.lean ====
section
/-! DEFINITION. The instructions and events of the CX4: one constructor of `Instr` for each row of the opcode table.
A row with an encoding carries the fields of its format; a row without one is a step of a unit, a host command or a
debug-port operation, and carries what identifies the object it acts on. -/

namespace Sys2Proof

/-- The fields of format H: the clause header (Table 2.1). -/
structure FH where
  wait : BitVec 12
  flagA : BitVec 4
  flagB : BitVec 4
  len : BitVec 4
  hold : Bool
  deriving DecidableEq, Repr

/-- The fields of format J with an offset (Table 4.5). -/
structure FJ where
  ch : Bool
  pred : BitVec 3
  off : BitVec 20
  deriving DecidableEq, Repr

/-- The fields of format J of `SEAM`, unguarded (R39). -/
structure FSeam where
  ch : Bool
  off : BitVec 20
  deriving DecidableEq, Repr

/-- The fields of format J of `BRX` and `CALLX` (R39). -/
structure FJX where
  ch : Bool
  pred : BitVec 3
  a : BitVec 7
  deriving DecidableEq, Repr

/-- The fields of a guarded word without operands. -/
structure FP where
  ch : Bool
  pred : BitVec 3
  deriving DecidableEq, Repr

/-- The fields of format X of `TRAP` (R92). -/
structure FTrap where
  ch : Bool
  pred : BitVec 3
  code : BitVec 8
  deriving DecidableEq, Repr

/-- The fields of a word without guard or operands. -/
structure FC where
  ch : Bool
  deriving DecidableEq, Repr

/-- The fields of format X of `MON` (R92). -/
structure FMon where
  ch : Bool
  pred : BitVec 3
  a : BitVec 7
  deriving DecidableEq, Repr

/-- The fields of format X of `FENCE` (R39). -/
structure FFence where
  ch : Bool
  pred : BitVec 3
  kind : BitVec 2
  scope : BitVec 3
  deriving DecidableEq, Repr

/-- The fields of format V3 with two sources (Table 5.1). -/
structure F3 where
  ch : Bool
  dst : BitVec 6
  a : BitVec 7
  b : BitVec 7
  pred : BitVec 3
  deriving DecidableEq, Repr

/-- The fields of format V3 with `b` reserved. -/
structure F2 where
  ch : Bool
  dst : BitVec 6
  a : BitVec 7
  pred : BitVec 3
  deriving DecidableEq, Repr

/-- The fields of format V4 (Table 5.4). -/
structure F4 where
  ch : Bool
  dst : BitVec 6
  a : BitVec 7
  b : BitVec 7
  c : BitVec 6
  deriving DecidableEq, Repr

/-- The fields of format C (Table 5.7). -/
structure FSetp where
  ch : Bool
  pdst : BitVec 3
  a : BitVec 7
  b : BitVec 7
  cond : BitVec 3
  type : BitVec 3
  cpred : BitVec 3
  deriving DecidableEq, Repr

/-- The fields of format K (Table 5.11). -/
structure FCvt where
  ch : Bool
  dst : BitVec 6
  a : BitVec 7
  stype : BitVec 4
  dtype : BitVec 4
  rnd : BitVec 2
  sat : Bool
  deriving DecidableEq, Repr

/-- The fields of format K, the source being the slot format (R39). -/
structure FCvtSS where
  ch : Bool
  dst : BitVec 6
  a : BitVec 7
  dtype : BitVec 4
  slot : BitVec 3
  deriving DecidableEq, Repr

/-- The fields of format K, the destination being the slot format (R39). -/
structure FCvtSD where
  ch : Bool
  dst : BitVec 6
  a : BitVec 7
  stype : BitVec 4
  slot : BitVec 3
  deriving DecidableEq, Repr

/-- The fields of format I16 (Table 5.12). -/
structure FI16 where
  ch : Bool
  dst : BitVec 6
  imm : BitVec 16
  deriving DecidableEq, Repr

/-- The fields of format I (Table 5.12). -/
structure FI where
  ch : Bool
  dst : BitVec 6
  a : BitVec 7
  imm : BitVec 10
  deriving DecidableEq, Repr

/-- The fields of format V3 of `BCAST`: `b` is the lane constant (R115). -/
structure FBcast where
  ch : Bool
  dst : BitVec 6
  a : BitVec 7
  n : BitVec 7
  pred : BitVec 3
  deriving DecidableEq, Repr

/-- The fields of format V3 with `a` and `b` reserved (R116). -/
structure FD where
  ch : Bool
  dst : BitVec 6
  pred : BitVec 3
  deriving DecidableEq, Repr

/-- The fields of format V3 of `WRSP`: `dst` holds the register number (R39). -/
structure FWrsp where
  ch : Bool
  num : BitVec 6
  a : BitVec 7
  pred : BitVec 3
  deriving DecidableEq, Repr

/-- The fields of format V3 of major 19, `pred` fixed at 7 (R119). -/
structure FU where
  ch : Bool
  dst : BitVec 6
  a : BitVec 7
  b : BitVec 7
  deriving DecidableEq, Repr

/-- The fields of format M of majors 20-23, loads and stores (Table 6.3). -/
structure FM where
  ch : Bool
  pred : BitVec 3
  w : BitVec 3
  fb : Bool
  data : BitVec 6
  a : BitVec 7
  mod : BitVec 4
  deriving DecidableEq, Repr

/-- The fields of format M of the atomics, `wide` being `.B64` (R44). -/
structure FA where
  ch : Bool
  pred : BitVec 3
  wide : Bool
  fb : Bool
  data : BitVec 6
  a : BitVec 7
  aop : BitVec 4
  deriving DecidableEq, Repr

/-- The fields of format M with a request type (Table 2.9). -/
structure FG where
  ch : Bool
  pred : BitVec 3
  w : BitVec 3
  fb : Bool
  data : BitVec 6
  a : BitVec 7
  rtype : BitVec 2
  deriving DecidableEq, Repr

/-- The fields of format M of `PFG` (R140). -/
structure FPfg where
  ch : Bool
  pred : BitVec 3
  fb : Bool
  a : BitVec 7
  level : BitVec 2
  deriving DecidableEq, Repr

/-- The fields of format M of `LDF` (Table 2.9). -/
structure FLdf where
  ch : Bool
  pred : BitVec 3
  w : BitVec 3
  fb : Bool
  data : BitVec 6
  a : BitVec 7
  rtype : BitVec 2
  asplit : Bool
  deriving DecidableEq, Repr

/-- The fields of format M of `PUBF`. -/
structure FPubf where
  ch : Bool
  pred : BitVec 3
  fb : Bool
  data : BitVec 6
  a : BitVec 7
  deriving DecidableEq, Repr

/-- The fields of format Y (Table 14.2). -/
structure FY where
  ch : Bool
  fb : Bool
  tok : BitVec 6
  d : BitVec 7
  bar : BitVec 7
  deriving DecidableEq, Repr

/-- The fields of format Y of `CPYS`, `tok` reserved. -/
structure FYS where
  ch : Bool
  fb : Bool
  d : BitVec 7
  bar : BitVec 7
  deriving DecidableEq, Repr

/-- The fields of format Q of `MMA` (Table 15.4). -/
structure FMma where
  ch : Bool
  fb : Bool
  acc : BitVec 4
  slot : BitVec 3
  shape : BitVec 2
  rep : BitVec 3
  desc : BitVec 6
  ra : Bool
  rb : Bool
  deriving DecidableEq, Repr

/-- The fields of format Q of `ACCZ` and `ACCNORM`. -/
structure FAcc where
  ch : Bool
  fb : Bool
  acc : BitVec 4
  slot : BitVec 3
  deriving DecidableEq, Repr

/-- The fields of format Q of `ACCRD` and `ACCWR`. -/
structure FAccRW where
  ch : Bool
  fb : Bool
  acc : BitVec 4
  slot : BitVec 3
  desc : BitVec 6
  ra : Bool
  rb : Bool
  deriving DecidableEq, Repr

/-- The fields of format BA of `BINIT` and `BEXP` (Table 12.2). -/
structure FB2 where
  ch : Bool
  pred : BitVec 3
  sp : Bool
  a : BitVec 7
  b : BitVec 7
  deriving DecidableEq, Repr

/-- The fields of format BA of `BARV` and `BRETIRE`. -/
structure FB1 where
  ch : Bool
  pred : BitVec 3
  sp : Bool
  a : BitVec 7
  deriving DecidableEq, Repr

/-- The fields of format BA of `BWAIT` and `BTEST`. -/
structure FB3 where
  ch : Bool
  pred : BitVec 3
  sp : Bool
  a : BitVec 7
  b : BitVec 7
  pd : BitVec 3
  deriving DecidableEq, Repr

/-- The fields of format G with `dst` reserved. -/
structure FG1 where
  ch : Bool
  a : BitVec 7
  deriving DecidableEq, Repr

/-- The fields of format G of `GINFO` and `FABCLR`. -/
structure FG2 where
  ch : Bool
  dst : BitVec 6
  a : BitVec 7
  deriving DecidableEq, Repr

/-- The fields of format S (Table 17.6). -/
structure FS where
  ch : Bool
  pred : BitVec 3
  fb : Bool
  dst : BitVec 6
  seq : BitVec 5
  b : BitVec 7
  deriving DecidableEq, Repr

/-- The fields of format S of `SQPUB`. -/
structure FSPub where
  ch : Bool
  pred : BitVec 3
  fb : Bool
  seq : BitVec 5
  b : BitVec 7
  deriving DecidableEq, Repr

/-- The fields of format S of `SQACQ`. -/
structure FSAcq where
  ch : Bool
  pred : BitVec 3
  fb : Bool
  dst : BitVec 6
  seq : BitVec 5
  b : BitVec 7
  snap : Bool
  deriving DecidableEq, Repr

/-- The fields of format S of `PRESS` (Table 8.7). -/
structure FPress where
  ch : Bool
  pred : BitVec 3
  fb : Bool
  region : BitVec 5
  deriving DecidableEq, Repr

/-- The fields of format Z (Table 20.4). -/
structure FZ where
  ch : Bool
  pred : BitVec 3
  fb : Bool
  dst : BitVec 6
  a : BitVec 7
  deriving DecidableEq, Repr

/-- The fields of format Z of `PGPREF`. -/
structure FZP where
  ch : Bool
  pred : BitVec 3
  fb : Bool
  a : BitVec 7
  deriving DecidableEq, Repr

/-- The fields of format Z of `SYSRD`, its peek and `SYSWR` (Table 26.3). -/
structure FZS where
  ch : Bool
  pred : BitVec 3
  fb : Bool
  dst : BitVec 6
  a : BitVec 6
  deriving DecidableEq, Repr

/-- The data and stamps an owner sends home (R179): `wb` marks the answer "written back", which carries no data. `tags` holds the hops of the
granules that an engine brings, and none for the others (R208). -/
structure SecImg where
  wb   : Bool
  wts  : Nat
  rts  : Nat
  data : List Byte
  syn  : List (BitVec 16)
  tags : List (Option (BitVec 64)) := []
  deriving DecidableEq, Repr

/-- One chunk of a publication arriving at this package as a subscriber (R368, R369): the publisher's package and number, the
receive window, where the whole publication and its counter lie in the window, the chunk's place, bytes and syndromes, and the
deadline in ns of fabric time. -/
structure PubChunk where
  ctx       : Nat
  rwin      : Nat
  publisher : Nat
  number    : Nat
  doff      : Nat
  voff      : Nat
  len       : Nat
  place     : Nat
  bytes     : List Byte
  syn       : List (BitVec 16)
  deadline  : Nat
  deriving DecidableEq, Repr

/-- A 16-byte command of the page or the context command port (Tables 22.4, 23.2): `host` is the sending host node, or
none when firmware sent it with `SYSWR`. `record` is the content found at the fabric address of `CREATE` or `REGION`. -/
structure PortCmd where
  host   : Option Nat
  w      : BitVec 128
  record : List Byte
  deriving DecidableEq, Repr

/-- A 64-byte debug-port command (Table 27.4). `host` is the sending host node, or none for the management
microcontroller and firmware. -/
structure DbgCmd where
  host : Option Nat
  data : List Byte
  addr : BitVec 64
  team : BitVec 32
  slot : Nat
  ctx  : Nat
  idx  : Nat
  mask : BitVec 32
  rsvd : Bool
  deriving DecidableEq, Repr

/-- What goes wrong in one start (R398-R400). -/
structure Mishaps where
  /-- The attempts that fail, as step, unit and form: form 0 for a loss of power in the first attempt at the step, 3 and 4 for one in its first and
  second form, and 256 + m for the mask m of ways or lanes found bad. -/
  bad  : List (Nat × Nat × Nat)
  /-- The hem faults reported meanwhile: step, path tag, location and syndrome of each. -/
  hems : List (Nat × BitVec 64 × Nat × BitVec 16)
  deriving DecidableEq, Repr

/-- The fate of a malformed word, in the order of Table 2.11. -/
inductive DecodeFate where
  | illegalClause
  | illegalChain
  | illegalInstruction
  | illegalEncoding
  deriving DecidableEq, Repr

/-- One constructor for each row of the opcode table. Those that only the outside world starts stand last. -/
inductive Instr where
  | clause (f : FH)
  | bra (f : FJ)
  | braNegated (f : FJ)
  | call (f : FJ)
  | seam (f : FSeam)
  | brx (f : FJX)
  | callx (f : FJX)
  | ret (f : FP)
  | nop (f : FP)
  | yield (f : FP)
  | exit (f : FP)
  | trap (f : FTrap)
  | rft (f : FC)
  | mon (f : FMon)
  | mwait (f : FP)
  | fence (f : FFence)
  | bkpt (f : FP)
  | add (f : F3)
  | sub (f : F3)
  | mullo (f : F3)
  | mulhiI (f : F3)
  | mulhiN (f : F3)
  | minI (f : F3)
  | maxI (f : F3)
  | minN (f : F3)
  | maxN (f : F3)
  | and (f : F3)
  | or (f : F3)
  | xor (f : F3)
  | andn (f : F3)
  | shl (f : F3)
  | shr (f : F3)
  | sar (f : F3)
  | adds (f : F3)
  | subs (f : F3)
  | shrr (f : F3)
  | popc (f : F2)
  | clz (f : F2)
  | bfe (f : F3)
  | addw (f : F3)
  | mulw (f : F3)
  | ffmaF32 (f : F4)
  | ffmaF16x2 (f : F4)
  | ffmaBf16x2 (f : F4)
  | madI32 (f : F4)
  | dot2I16 (f : F4)
  | dot4I8 (f : F4)
  | faddF32 (f : F3)
  | fmulF32 (f : F3)
  | fminF32 (f : F3)
  | fmaxF32 (f : F3)
  | faddF16x2 (f : F3)
  | fmulF16x2 (f : F3)
  | faddBf16x2 (f : F3)
  | fmulBf16x2 (f : F3)
  | setp (f : FSetp)
  | rcp (f : F2)
  | rsq (f : F2)
  | sqrt (f : F2)
  | exp2 (f : F2)
  | log2 (f : F2)
  | tanh (f : F2)
  | cvt (f : FCvt)
  | cvtSlotSource (f : FCvtSS)
  | cvtSlotDest (f : FCvtSD)
  | movi (f : FI16)
  | movhi (f : FI16)
  | addi (f : FI)
  | andi (f : FI)
  | ori (f : FI)
  | xori (f : FI)
  | shli (f : FI)
  | shri (f : FI)
  | slide (f : F3)
  | slideh (f : F3)
  | shfl (f : F3)
  | bcast (f : FBcast)
  | ballot (f : FD)
  | actmask (f : FD)
  | redadd (f : F2)
  | redmax (f : F2)
  | mov (f : F2)
  | sel (f : F3)
  | movsv (f : F2)
  | movvs (f : F2)
  | rdsp (f : F2)
  | wrsp (f : FWrsp)
  | sadd (f : FU)
  | ssub (f : FU)
  | smul (f : FU)
  | sand (f : FU)
  | sor (f : FU)
  | sxor (f : FU)
  | sshl (f : FU)
  | sshr (f : FU)
  | ldp (f : FM)
  | stp (f : FM)
  | ldsc (f : FM)
  | stsc (f : FM)
  | atsc (f : FA)
  | ldcl (f : FM)
  | stcl (f : FM)
  | atcl (f : FA)
  | ldds (f : FM)
  | stds (f : FM)
  | atds (f : FA)
  | ldg (f : FG)
  | stg (f : FG)
  | atg (f : FA)
  | pfg (f : FPfg)
  | ldf (f : FLdf)
  | stf (f : FG)
  | atf (f : FA)
  | pubf (f : FPubf)
  | cpy (f : FY)
  | cpyt (f : FY)
  | cpyx (f : FY)
  | cpys (f : FYS)
  | mma (f : FMma)
  | accz (f : FAcc)
  | accrd (f : FAccRW)
  | accwr (f : FAccRW)
  | accnorm (f : FAcc)
  | mfence (f : FC)
  | binit (f : FB2)
  | barv (f : FB1)
  | bexp (f : FB2)
  | bwait (f : FB3)
  | btest (f : FB3)
  | bretire (f : FB1)
  | gbar (f : FC)
  | tbar (f : FC)
  | gjoin (f : FG1)
  | ginfo (f : FG2)
  | fabclr (f : FG2)
  | wspill (f : FG1)
  | wfill (f : FG1)
  | sqclaim (f : FS)
  | sqpub (f : FSPub)
  | sqacq (f : FSAcq)
  | sqret (f : FS)
  | sqinfo (f : FS)
  | press (f : FPress)
  | launch (f : FZ)
  | pgprobe (f : FZ)
  | pgpref (f : FZP)
  | sysrd (f : FZS)
  | sysrdPeek (f : FZS)
  | syswr (f : FZS)
  | pegarm (f : FZ)
  | driftStep
  | loadReturn (op : Nat)
  | storeAck (op : Nat)
  | atomicReturn (op : Nat)
  | sfuResult (op : Nat)
  | homeLoadRequest (op : Nat)
  | homeWriteThrough (op : Nat)
  | homeOwnedRequest (op : Nat)
  | ownedGrant (op : Nat)
  | grantAcknowledge (sec agent : Nat)
  | forwardReceive (sec agent : Nat)
  | recallReceive (sec agent : Nat)
  | ownerAnswer (sec agent : Nat) (img : SecImg)
  | writeBackReceive (sec agent : Nat) (img : SecImg)
  | writeBackAck (sec agent wts : Nat)
  | fillReply (op : Nat)
  | writeThroughAck (op : Nat)
  | requestRefusedResend (op : Nat)
  | packageRebase
  | floorMessage (core ctx region floor : Nat)
  | mwaitWake (uid wts : Nat)
  | mwaitTimeout (uid : Nat)
  | remoteTimeout (op : Nat)
  | lateReplyDrop (port : Nat)
  | fairnessOverdue (path : Nat)
  | gangDemotion (path : Nat)
  | parkedPathTakeover (path : Nat)
  | noProgress (gid : Nat)
  | urgencyEvaluation (team : Nat)
  | swapOut (gout gin : Nat)
  | forcedSwap (gout gin : Nat)
  | freePositionSwapIn (gid : Nat)
  | swapComplete (gid : Nat)
  | collectiveAccept (team bar : Nat)
  | granuleLand (item : Nat)
  | matrixPassGrant (cluster : Nat)
  | matrixPassEnd (cluster : Nat)
  | tileOpApply (op : Nat)
  | sqclaimRequest (op : Nat)
  | sqpubRequest (op : Nat)
  | sqacqRequest (op : Nat)
  | sqretRequest (op : Nat)
  | sqinfoRequest (op : Nat)
  | sqacqReply (op : Nat)
  | sequenceReply (op : Nat)
  | sequenceResend (op : Nat)
  | pageWalk (ctx core : Nat) (va : BitVec 64) (by_ : Option (Nat × BitVec 32 × Nat))
  | pageRequestRetry (uid : Nat)
  | launchHeadRead (q : Nat)
  | dispatchSlotTake (cls : Nat)
  | launchDispatch (launch : Nat)
  | teamPlace (launch : Nat)
  | launchStampWrite (launch : Nat)
  | hostProdWrite (host q : Nat) (value : BitVec 32)
  | flitReceive (port : Nat) (crcOk : Bool) (op : Nat)
  | flitResend (port op : Nat)
  | linkTrainingDone (port lanes : Nat)
  | retrainLimitExpiry (port : Nat)
  | linkStateReport (node port : Nat) (up pub : Bool)
  | linkReroute (port : Nat)
  | lostWrite (op : Nat)
  | exportRead (off : BitVec 48) (size reply : Nat)
  | pubChunkReceive (c : PubChunk)
  | pubRefusedReturn (op sub chunk node : Nat)
  | pubAckReceive (op sub : Nat) (taken : Bool)
  | pubDeadline (op : Nat)
  | ptpSync (adjust : Int)
  | preemptRemoteBound (ctx : Nat)
  | teardownNodeAck (ctx node : Nat)
  | teardownBound (ctx : Nat)
  | create (c : PortCmd)
  | start (c : PortCmd)
  | preempt (c : PortCmd)
  | resume (c : PortCmd)
  | teardown (c : PortCmd)
  | qenable (c : PortCmd)
  | qdrain (c : PortCmd)
  | qclear (c : PortCmd)
  | dgrant (c : PortCmd)
  | drevoke (c : PortCmd)
  | region (c : PortCmd)
  | invalidate (c : PortCmd)
  | resolve (c : PortCmd)
  | pegStop
  | sampleTag (sched : Nat)
  | histogramThreshold (unit : Nat)
  | abortWrite (op : Nat)
  | windowLengthWrite (op : Nat)
  | retrainLimitWrite (op : Nat)
  | fabricTableInstall (op : Nat)
  | dieScratchpadContribWrite (op : Nat)
  | systemRegisterWrite (op : Nat)
  | hemFaultReport (tag : BitVec 64) (loc : Nat) (syn : BitVec 16)
  | malformedWord (cause : DecodeFate) (pkt : Word) (word : Nat)
  | halt (c : DbgCmd)
  | debugResume (c : DbgCmd)
  | staterd (c : DbgCmd)
  | edit (c : DbgCmd)
  | memrd (c : DbgCmd)
  | memwr (c : DbgCmd)
  | commit (c : DbgCmd)
  | discard (c : DbgCmd)
  | breakSet (c : DbgCmd)
  | watch (c : DbgCmd)
  | trace (c : DbgCmd)
  | sample (c : DbgCmd)
  | histo (c : DbgCmd)
  | trigger (c : DbgCmd)
  | peg (c : DbgCmd)
  | scan (c : DbgCmd)
  | go (c : DbgCmd)
  | startSequence (m : Mishaps)
  | attestationRequest (host : Nat) (nonce : BitVec 384)
  | issueSlotWithheld (matrix : Bool) (unit : Nat)
  | firmwareQueuePost (record : BitVec 1024)
  | linkTrainingStart (port : Nat)
  | bufferDefect (port groups : Nat)
  | granuleCorruption (loc : Nat) (flip : BitVec 256)
  | powerLoss
  | failureCountClear (step unit : Nat)
  deriving DecidableEq, Repr

end Sys2Proof
end

