-- ==== Sys2Proof/Machine/State.lean ====
section
/-! DEFINITION. The state of one CX4 package as plain data, the reasons a step can stop, and the state after reset. -/

namespace Sys2Proof.Machine

/-! ### Threads -/

/-- Thread states (Table 4.1). A TRAP-MODE thread has `trapMode` set; a PARKED one stands on a path without an entry. -/
inductive TState where
  | runnable | waiting | held | stitchWait | exiting | exited
  deriving DecidableEq, Repr

/-- The clause a thread is in: its two completion flags and the packet after its last one (R30, R33). -/
structure Clause where
  flagA : Nat
  flagB : Nat
  stop  : Word
  deriving DecidableEq, Repr

/-- A place in a program: a word of a packet, and the clause it is executed in. -/
structure Pos where
  pkt    : Word
  word   : Nat
  clause : Option Clause
  deriving DecidableEq, Repr

/-- What the words of a chain read of a thread and of its group, as they stood before the chain (R29). -/
structure Before where
  regs  : SMap Word
  preds : BitVec 7
  depth : Nat
  spill : Nat
  lt    : Nat
  fabst : Word
  sregs : SMap Word
  fmode : BitVec 4
  deriving DecidableEq, Repr

/-- What a WAITING thread waits for (Table 4.1). The waits from `clause` to `group` end by issuing again; the position of a thread
in one of `mwait`, `slot`, `gbar` and `tbar` is already that of the next word. A wait on a slot or a monitor keeps the
position of its word, at which a save lets the thread issue again, and a wait on a slot what the word's chain read (R241, R374); a
scoreboard wait names physical registers, predicates and `FSTAT` (R34). -/
inductive Wait where
  | none
  | clause (mask : BitVec 12)
  | score (regs preds : List Nat) (fstat : Bool)
  | flagFull
  | token (regs : List Nat)
  | engine
  | fence
  | order
  | group
  | mwait (at_ : Pos)
  | slot (loc phase : Nat) (pd : BitVec 3) (at_ : Pos) (was : Before)
  | gbar
  | tbar
  | page (die req acc : Nat)
  | pageFull (acc : Nat)
  deriving DecidableEq, Repr

/-- A seam entry (R78). -/
structure Seam where
  pkt   : Word
  depth : Nat
  tag   : Nat
  deriving DecidableEq, Repr

/-- A failed hem check: the register it poisoned, the space and address, syndrome and path tag (R203, R204). -/
structure Poison where
  reg   : Nat
  space : Nat
  addr  : BitVec 64
  syn   : BitVec 16
  tag   : BitVec 64
  deriving DecidableEq, Repr

/-- The partial-store fault a thread owes (R137): the store's point, the tick of its issue, and the check that failed. -/
structure OwedFault where
  pkt    : Word
  word   : Nat
  since  : Nat
  poison : Poison
  deriving DecidableEq, Repr

/-- A thread's monitor (R145, R146). -/
structure Monitor where
  sec     : Nat
  fired   : Bool
  wts     : Nat
  refused : Bool
  since   : Option Nat
  deriving DecidableEq, Repr

/-- A registered wait that a save has ended: the word that issues again, where its chain had taken the thread, what the chain had read
(none: what stands there now), and whether the thread was in trap mode (R241, R374). -/
structure Again where
  at_  : Pos
  on   : Pos
  was  : Option Before
  trap : Bool
  deriving DecidableEq, Repr

/-- A `TRAP` or `BKPT` that has executed and not been taken yet: cause, code and the lanes that executed it (R96). -/
structure DueTrap where
  cause : Nat
  kind  : Nat
  mask  : BitVec 32
  deriving DecidableEq, Repr

/-- One thread. `fromPkt` and `fromWord` are the instruction that last transferred control (R31), `resumed` says that `RFT` set
a word 0 which may be a header (R381), `entered` that a trap entry set the position, so that no seam holds the thread there
(R81), and `broke` that it stands at a breakpoint that has already halted it (R387). `again` holds
the waits that a save has ended, one at most for each mode. `old` holds the sources as they stood before the chain now issuing (R29),
`trapAt` the resume point and `trapSeams` the seam entries at the trap's entry (R381), and `due` a trap that waits for the end of a wait
of its own chain (R96). `rel` is the logical time that its last release of scope `.CLUSTER` or wider
had reached, `got` the greatest such time of a release whose value it has read outside global memory, `relSys` and `gotSys` are the same
for fabric memory, which only `.SYSTEM` orders, and `cut` the operation from which
on a release that stalls has nothing to wait for (R149-R152). -/
structure Thread where
  uid      : Nat
  tid      : Nat
  lid      : Nat
  slot     : Nat
  state    : TState
  wait     : Wait
  trapMode : Bool
  pkt      : Word
  word     : Nat
  clause   : Option Clause
  fromPkt  : Word
  fromWord : Nat
  resumed  : Bool
  entered  : Bool
  broke    : Bool
  regs     : SMap Word
  pois     : List Poison
  preds    : BitVec 7
  flags    : SMap Nat
  fstat    : BitVec 6
  depth    : Nat
  spill    : Nat
  links    : SMap Word
  seams    : List Seam
  trap     : SMap Word
  trapAt   : Option Pos
  trapSeams : List Seam
  old      : Option Before
  pendV    : List Nat
  pendP    : List Nat
  pendF    : Nat
  outs     : Nat
  acqOut   : Nat
  mon      : Option Monitor
  owed     : List OwedFault
  wdDue    : Bool
  path     : Nat
  again    : List Again
  due      : Option DueTrap
  rel      : Nat
  got      : Nat
  relSys   : Nat
  gotSys   : Nat
  cut      : Option Nat
  deriving DecidableEq, Repr

/-! ### Groups, paths, teams -/

/-- Where a group stands (Table 11.1); `saving` says that a PREEMPT has stopped it and its image is not yet written. RUNNING, SPLIT,
SINGLE-STITCH and TRAPPED are read off its threads. -/
inductive GPlace where
  | forming | active | pending | halted | saving | saved
  deriving DecidableEq, Repr

/-- One group in its slot number (R213, R214). `toks` lists the s registers whose token count may still fall (R254),
`fabNow` holds the statuses that have arisen in the cycle that now runs (R228), and `haltDue` says that the group is to be HALTED as soon as it
is in the active or the pending set (Table 11.2). -/
structure Group where
  gid      : Nat
  tid      : Nat
  slot     : Nat
  place    : GPlace
  sched    : Nat
  sregs    : SMap Word
  pois     : List Poison
  toks     : List Nat
  fmode    : BitVec 4
  fabst    : Word
  fabNow   : Word
  turn     : Option Nat
  entered  : Nat
  swapAt   : Option Nat
  wd       : Nat
  progress : Bool
  retired  : List Nat
  edited   : Bool
  haltDue  : Bool
  deriving DecidableEq, Repr

/-- One instruction-buffer entry and the gang that holds it (R87, R88), with its fairness count (R245), its run of slots
(R224) and the siblings its `YIELD` waits for (R94). `parked` gives the tick from which the path waits for an entry, and `ran` says that the
gang has issued in the cycle that now runs. -/
structure Path where
  id      : Nat
  sched   : Nat
  tid     : Nat
  age     : Nat
  granted : Nat
  parked  : Option Nat
  fair    : Nat
  overdue : Option Nat
  run     : Nat
  bar     : List Nat
  ran     : Bool
  deriving DecidableEq, Repr

/-- A team placed on a core or saved (R68, R124, R125, R313); `marks` keeps a saved team's barrier slots, by their place in its
scratch allocation, and `rels` the logical times left there. -/
structure Team where
  tid      : Nat
  lid      : Nat
  ctx      : Nat
  index    : Nat
  core     : Nat
  resident : Bool
  base     : Nat
  scrBase  : Nat
  scrSize  : Nat
  privBase : Nat
  privSize : Nat
  dieSpace : Nat
  pages    : List (BitVec 64)
  laggard  : Option Nat
  retired  : Bool
  marks    : List Nat
  rels     : SMap (Nat × Nat)
  deriving DecidableEq, Repr

/-- A tile of a team (R61, R258): elements keyed by 128·row + column, unlisted ones being 0. -/
structure Tile where
  tid    : Nat
  acc    : Nat
  elems  : SMap (Int × Bool)
  e      : Int
  poison : Bool
  deriving DecidableEq, Repr

/-! ### Launches and queues -/

/-- Launch states (Table 20.2). -/
inductive LState where
  | posted | waiting | dispatching | running | draining | done | faulted
  deriving DecidableEq, Repr

/-- One launch: the dispatcher's copy of its record (R308), its queue and number, the LT kept with the entry (R315), the dispatch
slot it holds (R323), the order of dispatch (R324), the tick from which the dispatcher tries again what is held up, the page request that
holds it up (R335), the pages per team and the teams that its placement map lists (R309), whether its queue has been enabled anew since
it was posted (R317), and the priority that its queue had when it took its slot (R323). -/
structure Launch where
  lid     : Nat
  ctx     : Nat
  queue   : Nat
  number  : Nat
  lt      : Nat
  record  : BitVec 1024
  state   : LState
  placed  : Nat
  slot    : Bool
  stamped : Bool
  order   : Nat
  wake    : Nat
  page    : Option Nat
  map     : Option (Nat × Nat)
  stale   : Bool
  qprio   : Nat
  deriving DecidableEq, Repr

/-- Queue states (Table 21.1, `STATE`). -/
inductive QState where
  | disabled | idle | active | blocked | draining | faulted
  deriving DecidableEq, Repr

/-- One queue block (Table 21.1) with the LT values the dispatcher keeps beside its entries (R189, R315). -/
structure Queue where
  q      : Nat
  ctx    : Option Nat
  base   : BitVec 64
  faultN : Nat
  ret    : Nat
  feed   : Bool
  nsz    : Nat
  prio   : Nat
  state  : QState
  cons   : Nat
  prod   : Nat
  lts    : SMap Nat
  deriving DecidableEq, Repr

/-! ### Contexts -/

/-- Context states (Table 23.3). -/
inductive CState where
  | free | created | running | preempting | saved | faulted | tearing
  deriving DecidableEq, Repr

/-- A press region entry (Table 8.6). -/
structure Region where
  v     : Bool
  base  : BitVec 48
  size  : BitVec 32
  floor : Nat
  deriving DecidableEq, Repr

/-- An image in a context's save area: its directory entry, its team, its slot number (none for a team image), and where it lies
from `SAVEB` (R346). -/
structure SaveEnt where
  idx  : Nat
  tid  : Nat
  slot : Option Nat
  off  : Nat
  len  : Nat
  deriving DecidableEq, Repr

/-- One context (Tables 23.1, 23.3) with its fabric tables (R363-R365), breakpoints and watches (R387, R388), debug right
(R349), fault-queue accounting (R350; `told` says that the host has had its notice of a drop since a record was last written) and drain
accounting (R348; `used` lists the scratchpad allocations that its teams have had, by location and size). -/
structure Ctx where
  num     : Nat
  state   : CState
  root    : Nat
  part    : BitVec 256
  lease   : Nat
  drift   : Nat
  rto     : Nat
  trapb   : BitVec 64
  saveb   : BitVec 64
  saven   : Nat
  frqb    : BitVec 64
  frqn    : Nat
  pfh     : Bool
  host    : Nat
  dbg     : Option Nat
  regions : List Region
  exprts  : SMap (BitVec 256)
  rwins   : SMap (BitVec 256)
  subs    : SMap (BitVec 64)
  breaks  : SMap (BitVec 34 × Bool)
  watches : SMap (BitVec 128)
  lost    : Nat
  lostNow : Bool
  told    : Bool
  asked   : List Nat
  used    : List (Nat × Nat)
  downAt  : Option Nat
  preAt   : Option Nat
  saves   : List SaveEnt
  deriving DecidableEq, Repr

/-! ### Coherence -/

/-- L1 sector states (Table 8.2); I is the absence of an entry. -/
inductive L1State where
  | V | P | O | RD | IV | VV | VO | IO | OI
  deriving DecidableEq, Repr

/-- One L1 sector. `pend` pairs each pending 32-bit word with the store it waits for (R180); `stored` marks the bytes
of an RD copy that were stored to and `region` its press region; `dirty` marks an owned copy written since its grant, `stale` one whose
other words the home may have replaced since (R153), and `lag` one that a laggard's load brought (R222). `drop` says that an acquire or a
wake has given the copy up, and how many of the accesses in `held` were waiting for it then (R146, R147). -/
structure L1Sec where
  core   : Nat
  sec    : Nat
  ctx    : Nat
  st     : L1State
  wts    : Nat
  rts    : Nat
  si     : Bool
  dirty  : Bool
  keep   : Bool
  drop   : Option Nat
  stale  : Bool
  lag    : Bool
  data   : List Byte
  syn    : List (BitVec 16)
  pend   : List (Nat × Nat)
  stored : BitVec 64
  held   : List Nat
  region : Option Nat
  deriving DecidableEq, Repr

/-- A fabric sector kept by a core's L1 (R135), with the time that a release had left with its bytes as they were read. -/
structure FabSec where
  core : Nat
  ctx  : Nat
  sec  : Nat
  data : List Byte
  syn  : List (BitVec 16)
  rel  : Nat
  deriving DecidableEq, Repr

/-- Home sector states (Table 8.3). -/
inductive HState where
  | S
  | O (c : Nat)
  | G (c : Nat)
  | F (c op : Nat)
  | C (c : Nat)
  | W (c : Nat) (d : Option Nat) (acked : Bool)
  deriving DecidableEq, Repr

/-- One sector at its home with its stamps and waiting requests (R176, R181, R182). -/
structure HomeSec where
  sec   : Nat
  st    : HState
  wts   : Nat
  rts   : Nat
  queue : List Nat
  deriving DecidableEq, Repr

/-! ### Operations in flight -/

/-- The kinds of outstanding operation (Table 2.2). -/
inductive OpKind where
  | load | store | atomic | sfu | pfg | mon | press | sqclaim | sqpub | sqacq | sqret | sqinfo
  | tileZ | tileNorm | tileRd | tileWr | mma | copy | pubf | sysw | dbgRead
  | engWrite | engOwn
  deriving DecidableEq, Repr

/-- The coherence request that an operation stands for at a home (Table 8.4); an upgrade and a renewal carry a `wts` too. -/
inductive Req where
  | none | load | write | atomic | own
  deriving DecidableEq, Repr

/-- One outstanding operation of one thread (or of an engine, with `uid` 0): where it acts, what it writes back and the
coherence message it stands for. `data` and `mask` are the bytes stored, `fill` the bytes a reply brought, `waits` the thread
operations that one merged request completes (R136), `sent` the tick at which its request left for its home and `refused` that the home has
had no room for it and it has not come in since (R182), `due` the tick at which it times out and `again` the tick at which a refused
request is sent again. `via` lists the ports that it has been sent on (R372), and `origin` is the team index and the slot of a publication
whose thread goes on (R370). Fields not used by its kind are 0 or empty. -/
structure Op where
  id     : Nat
  kind   : OpKind
  uid    : Nat
  tid    : Nat
  gid    : Nat
  agent  : Nat
  ctx    : Nat
  sel    : Nat
  space  : Nat
  loc    : Nat
  addr   : BitVec 64
  size   : Nat
  rtype  : Nat
  req    : Req
  aop    : Nat
  regs   : List Nat
  preg   : Option Nat
  args   : List Word
  data   : List Byte
  mask   : BitVec 64
  syn    : List (BitVec 16)
  fill   : List Byte
  waits  : List Nat
  lt     : Nat
  wts    : Nat
  rts    : Nat
  carry  : Option Nat
  pkt    : Word
  word   : Nat
  issued : Nat
  sent   : Nat
  due    : Option Nat
  refused : Bool
  again  : Option Nat
  port   : Nat
  region : Option Nat
  poison : Option Poison
  via    : List Nat
  origin : Option (Nat × Nat)
  done   : Bool
  deriving DecidableEq, Repr

/-! ### Engines -/

/-- One copy item (R247-R257): its descriptor, origin and progress. `landed` and `acked` count granules, `wake` is the tick from which
the engine tries its next granule, `page` the page request that holds it up (R335), `due` the end of a remote access that is not answered,
`paused` says that a peg holds it (R389), `late` that the bound on its group's save has passed, so that no node answers it any more (R345), `got` holds each source granule that has been read: its number, bytes, syndrome and tag, and
`after` the stores that its reads wait for (R161). -/
structure CopyItem where
  id       : Nat
  cluster  : Nat
  tid      : Nat
  gid      : Nat
  ctx      : Nat
  uid      : Nat
  slot     : Nat
  pkt      : Word
  fn       : Nat
  descOff  : Nat
  desc     : List Byte
  bar      : Nat
  tok      : Nat
  posted   : Nat
  total    : Nat
  accepted : Bool
  counted  : Bool
  landed   : Nat
  acked    : Nat
  lt       : Nat
  wake     : Nat
  page     : Option Nat
  due      : Option Nat
  paused   : Bool
  late     : Bool
  got      : List (Nat × List Byte × BitVec 16 × BitVec 64)
  after    : List Nat
  deriving DecidableEq, Repr

/-- One entry of a matrix engine's reservation table (R258, R268): its passes so far are `next` of `rep` + 1, `ra` and `rb` the 512
words of a register operand, and `owners` the teams that the addresses of a withdrawn request lie in, as offsets (R277). -/
structure MReq where
  id      : Nat
  cluster : Nat
  tid     : Nat
  gid     : Nat
  ctx     : Nat
  slot    : Nat
  pkt     : Word
  cls     : Nat
  acc     : Nat
  fmt     : BitVec 64
  shape   : Nat
  rep     : Nat
  desc    : List Word
  ra      : Option (List Word)
  rb      : Option (List Word)
  next    : Nat
  word    : Word
  owners  : List (Option Nat)
  deriving DecidableEq, Repr

/-- The pass an engine runs: the request and the exact products fetched for it (R62, R268). -/
structure MPass where
  cluster : Nat
  req     : Nat
  r       : Nat
  xs      : List (Nat × Option (Int × Int))
  ends    : Nat
  deriving DecidableEq, Repr

/-! ### Pages, links, debug, start -/

/-- A cached translation (R330): `level` 0 is a core's L1 TLB, 1 a die TLB, 2 a die's walk cache; `size` is the bytes it
maps and `depth` the table level it came from. -/
structure TlbEnt where
  level : Nat
  unit  : Nat
  ctx   : Nat
  va    : Nat
  size  : Nat
  depth : Nat
  entry : BitVec 64
  deriving DecidableEq, Repr

/-- An open page request (R333). -/
structure PageReq where
  die  : Nat
  num  : Nat
  ctx  : Nat
  lo   : Nat
  len  : Nat
  kind : Nat
  deriving DecidableEq, Repr

/-- Link states (Table 24.2). -/
inductive LinkState where
  | down | training | up | degraded | retraining | failed
  deriving DecidableEq, Repr

/-- One fabric port's link and status register (R355-R358). `since` is the tick of its last change of state and `limit` the retrain limit, in
ms, that bounds the wait which began then (R383). -/
structure Link where
  state  : LinkState
  lanes  : Nat
  bufCut : Nat
  crce   : Nat
  late   : Nat
  rply   : Nat
  fails  : SMap Nat
  recent : List Nat
  pubs   : Bool
  since  : Nat
  limit  : Nat
  deriving DecidableEq, Repr

/-- A publication arriving at this package (R369): what it says, the places of the chunks taken, the bytes landed, its LT, and once it is over
the tick and the answer, if one was sent (R359). -/
structure InPub where
  publisher : Nat
  number    : Nat
  ctx       : Nat
  rwin      : Nat
  seen      : List Nat
  got       : Nat
  lt        : Nat
  closed    : Option (Nat × Option Bool)
  deriving DecidableEq, Repr

/-- A trace or sample record (R385, R389, R393). -/
structure TraceRec where
  die  : Nat
  ctx  : Nat
  tick : Nat
  data : BitVec 256
  deriving DecidableEq, Repr

/-- A staged debugger edit (R386). -/
structure Edit where
  ctx  : Nat
  gid  : Option Nat
  addr : BitVec 64
  data : List Byte
  mask : BitVec 32
  deriving DecidableEq, Repr

/-- A debug-port response (R386). -/
structure DbgResp where
  data   : List Byte
  status : Nat
  tick   : Nat
  deriving DecidableEq, Repr

/-- A histogram trigger (R395): its percentile, its action, and the bucket B that the last threshold gave it. -/
structure Trigger where
  p      : Nat
  action : Nat
  bucket : Option Nat
  deriving DecidableEq, Repr

/-- A tagged word that has issued and not retired (R393): its place, its gang, the level its accesses have reached, the units that serve it,
and its outstanding operations. -/
structure Tagged where
  tick  : Nat
  die   : Nat
  ctx   : Nat
  pkt   : Word
  word  : Nat
  pipe  : Nat
  core  : Nat
  sched : Nat
  mask  : BitVec 32
  level : Nat
  units : List Nat
  uids  : List Nat
  ops   : List Nat
  mode  : Bool
  deriving DecidableEq, Repr

/-- A start journal record (R399). -/
structure JRec where
  step    : Nat
  form    : Nat
  outcome : Nat
  tick    : Nat
  unit    : Nat
  deriving DecidableEq, Repr

/-- What the package sends out: command answers, notices, readiness, exported reads, publications and attestation reports. A chunk names its
subscribers: the subscription entry, the subscriber's port at the nodes, its context and its receive window (R365). -/
inductive OutMsg where
  | answer (host : Option Nat) (ok : Bool) (value : BitVec 64)
  | notice (host ctx : Nat)
  | ready (fenced : List (Nat × Nat)) (parts : List (Nat × Nat × Nat))
  | readReply (reply : Nat) (refused : Bool) (bytes : List Byte) (syn : List (BitVec 16))
  | pubAnswer (publisher number : Nat) (taken : Bool)
  | pubChunk (node : Nat) (subs : List (Nat × Nat × Nat × Nat)) (op chunk doff voff : Nat) (bytes : List Byte) (syn : List (BitVec 16))
  | report (host : Nat) (m identity nonce : BitVec 384) (rec : Option JRec) (signature : BitVec 768)
  | linkMark (port : Nat)
  | askReturn (ctx node : Nat)
  deriving DecidableEq, Repr

/-- The state of the package. `issued` holds the gang as a chain issued with it, where a page fault has parked some of its threads and the
others now perform (R76, R332); it is empty otherwise. `kept` are the schedulers whose slot the power limit has withheld in this cycle,
`took` those that have used theirs, and `deferred` counts how
often the oldest work in flight has been put off. `ots` holds, for each core, the logical time of what its threads have acquired through
memory that keeps no stamps, `pegArmed` is the tick of the last `PEGARM` (R391), `cmdsAt` the ticks at which the commands in `cmds` reached the context port (R345), and `bankRel` what has been left there by 16-byte units: by values written after a release, and by reads
after one (R151, R157, assumption 62). `fenced` and `reduced`
list start steps with their units: those fenced out, and those that run in a second form; `parts` has with a step and a unit the mask of its
ways or lanes that are fenced (R25, R398). -/
structure State where
  tick      : Nat
  freeCtr   : Nat
  nextId    : Nat
  dues      : List Instr
  agenda    : List Instr
  gang      : List Nat
  issued    : List Nat
  cursor    : Nat
  kept      : List Nat
  took      : List Nat
  deferred  : Nat
  trapped   : Nat
  mem       : List Host.Cell
  syn       : SMap (BitVec 16)
  gtag      : SMap (BitVec 64)
  slots     : List Nat
  lts       : SMap Nat
  ots       : SMap Nat
  bankRel   : SMap (Nat × Nat)
  threads   : List Thread
  groups    : List Group
  paths     : List Path
  teams     : List Team
  tiles     : List Tile
  launches  : List Launch
  queues    : List Queue
  rr        : SMap Nat
  lagRun    : SMap Nat
  ctxs      : List Ctx
  fwCtx     : Option Ctx
  l1        : List L1Sec
  l1Base    : SMap Nat
  floors    : SMap Nat
  fab       : List FabSec
  home      : List HomeSec
  homeBase  : SMap Nat
  ops       : List Op
  stall     : List Nat
  seqWait   : List Nat
  items     : List CopyItem
  mreqs     : List MReq
  mpass     : List MPass
  wItems    : List CopyItem
  wReqs     : List MReq
  grantNo   : SMap Nat
  tlb       : List TlbEnt
  pageReqs  : List PageReq
  links     : SMap Link
  nodeMode  : SMap Nat
  peerPub   : SMap Bool
  inPubs    : List InPub
  pageCmd   : SMap Word
  ctxCmd    : SMap Word
  window    : Nat
  windowNew : Option Nat
  retrain   : Nat
  fabSel    : BitVec 13
  fabStage  : SMap Word
  contrib   : SMap Nat
  rebases   : Nat
  fabTime   : Int
  cmds      : List PortCmd
  cmdsAt    : List Nat
  pcmds     : List PortCmd
  pwait     : Option (List Nat)
  outbox    : List OutMsg
  trace     : List TraceRec
  dbgOut    : List DbgResp
  edits     : List Edit
  peg       : Option Nat
  pegArmed  : Option Nat
  stopped   : Bool
  sampleN   : Nat
  sampleDies : List Nat
  tags      : SMap Nat
  tagged    : List Tagged
  filter    : Option Nat
  histo     : SMap Nat
  trig      : SMap (Option Trigger)
  frozen    : List Nat
  withheld  : List (Bool × Nat)
  hopCount  : List (Nat × Nat)
  retiredH  : List Nat
  journal   : List JRec
  fuses     : SMap Nat
  fenced    : List (Nat × Nat)
  reduced   : List (Nat × Nat)
  parts     : List (Nat × Nat × Nat)
  meas      : BitVec 384
  power     : Bool
  startStop : Option Nat
  deriving DecidableEq, Repr

/-- Why the machine stops. -/
inductive Fault where
  /-- Raised by every step after `POWER_LOSS` until a start sequence runs: the package is without power (R399). Safe: the
  hardware does nothing either. -/
  | powerOff
  /-- Raised by every step after a required start step has failed in both its forms: the package stops at that step and
  answers only status requests (R396, R398). Safe: nothing else can happen on the hardware. -/
  | startStopped (step : Nat)
  deriving DecidableEq, Repr

/-- Why the model gives no meaning. -/
inductive Refusal where
  /-- Raised by an arm of `exec` whose instruction has no meaning yet. Safe: nothing is claimed of it. -/
  | notModelled (mnemonic : String)
  deriving DecidableEq, Repr

/-- The firmware context as step 13 of the start sets it: outside the 64 tenants, with no partition, save area or owning host (R42). -/
def Ctx.firmware : Ctx where
  num := 64
  state := .running
  root := Config.firmwareRoot
  part := 0
  lease := 32
  drift := 64
  rto := Config.firmwareRto
  trapb := Config.firmwareTrapb
  saveb := 0
  saven := 0
  frqb := Config.firmwareFrqb
  frqn := Config.firmwareFrqn
  pfh := true
  host := 0
  dbg := none
  regions := []
  exprts := []
  rwins := []
  subs := []
  breaks := []
  watches := []
  lost := 0
  lostNow := false
  told := false
  asked := []
  used := []
  downAt := none
  preAt := none
  saves := []

/-- The package right after the start sequence of Table 28.1, no link trained: no tenant's context, no launch, every queue DISABLED, every field at
the value its map gives, the fabric window 2 µs and the retrain limit 4 ms (R355, R366). Fields the manual gives no reset
value hold the values assumption 4 names. -/
def State.reset : State where
  tick      := 0
  freeCtr   := 0
  nextId    := 1
  dues      := []
  agenda    := []
  gang      := []
  issued    := []
  cursor    := 0
  kept      := []
  took      := []
  deferred  := 0
  trapped   := 0
  mem       := []
  syn       := []
  gtag      := []
  slots     := []
  lts       := []
  ots       := []
  bankRel   := []
  threads   := []
  groups    := []
  paths     := []
  teams     := []
  tiles     := []
  launches  := []
  queues    := []
  rr        := []
  lagRun    := []
  ctxs      := []
  fwCtx     := some Ctx.firmware
  l1        := []
  l1Base    := []
  floors    := []
  fab       := []
  home      := []
  homeBase  := []
  ops       := []
  stall     := []
  seqWait   := []
  items     := []
  mreqs     := []
  mpass     := []
  wItems    := []
  wReqs     := []
  grantNo   := []
  tlb       := []
  pageReqs  := []
  links     := []
  nodeMode  := []
  peerPub   := []
  inPubs    := []
  pageCmd   := []
  ctxCmd    := []
  window    := 2000
  windowNew := none
  retrain   := 4
  fabSel    := 0
  fabStage  := []
  contrib   := []
  rebases   := 0
  fabTime   := 0
  cmds      := []
  cmdsAt    := []
  pcmds     := []
  pwait     := none
  outbox    := []
  trace     := []
  dbgOut    := []
  edits     := []
  peg       := none
  pegArmed  := none
  stopped   := false
  sampleN   := 10
  sampleDies := []
  tags      := []
  tagged    := []
  filter    := none
  histo     := []
  trig      := []
  frozen    := []
  withheld  := []
  hopCount  := []
  retiredH  := []
  journal   := []
  fuses     := []
  fenced    := []
  reduced   := []
  parts     := []
  meas      := Config.sha384 (0#384 ++ Config.stageDigest 1)
  power     := true
  startStop := none

end Sys2Proof.Machine
end

