-- ==== Sys2Proof/Machine/Sparse.lean ====
section
/-! DEFINITION. Keyed storage in canonical form, and the bytes of every memory of the package over coded locations. -/

namespace Sys2Proof.Machine

/-! ### Sparse maps -/

/-- What key k reads as; `d` is what an unlisted key reads as. -/
def SMap.get {α : Type} (d : α) : SMap α → Nat → α
  | [], _ => d
  | (k', v) :: r, k => if k' = k then v else SMap.get d r k

/-- Insert a key before the first greater one. -/
def SMap.ins {α : Type} (k : Nat) (v : α) : SMap α → SMap α
  | [] => [(k, v)]
  | (k', v') :: r => if k < k' then (k, v) :: (k', v') :: r else (k', v') :: SMap.ins k v r

/-- Take key k out of the list. -/
def SMap.del {α : Type} (k : Nat) (m : SMap α) : SMap α := m.filter fun e => e.1 != k

/-- Write v at key k; writing what an unlisted key reads as removes the entry. -/
def SMap.put {α : Type} [DecidableEq α] (d : α) (k : Nat) (v : α) (m : SMap α) : SMap α :=
  if v = d then SMap.del k m else SMap.ins k v (SMap.del k m)

/-- The keys rise strictly and no entry holds the default. -/
def SMap.wf {α : Type} [DecidableEq α] (d : α) : SMap α → Bool
  | [] => true
  | (_, v) :: [] => v != d
  | (k, v) :: (k', v') :: r => k < k' && v != d && SMap.wf d ((k', v') :: r)

/-! ### Memory

One list of cells holds every memory of the package and of the nodes it reaches, each in a window of locations of its own.
What an unlisted location reads as is `emptyByte` (assumption 1). -/

/-- What a byte that nothing has written reads as (assumption 1). -/
def emptyByte : Byte := 0

/-- Core scratchpads start here: 2^40 + core · 2^22 + physical offset (R14). -/
def scratchLoc (core off : Nat) : Nat := 2 ^ 40 + core * 2 ^ 22 + off % 2 ^ 22

/-- Die-scratchpad contributions: 2^41 + package slice · 2^20 + offset in the contribution (R17). -/
def dieLoc (slice off : Nat) : Nat := 2 ^ 41 + slice * 2 ^ 20 + off % 2 ^ 20

/-- Pool node n: 2^60 + n · 2^52 + offset; the frame of a page may lie at any 52-bit offset (R24, R329). -/
def poolLoc (n off : Nat) : Nat := 2 ^ 60 + n * 2 ^ 52 + off % 2 ^ 52

/-- Host node n: 2^61 + n · 2^52 + offset (R24, R329). -/
def hostLoc (n off : Nat) : Nat := 2 ^ 61 + n * 2 ^ 52 + off % 2 ^ 52

/-- HBM locations are physical addresses below 2^40 (R328). -/
def isHbm (loc : Nat) : Bool := loc < 2 ^ 40

/-- A core scratchpad location. -/
def isScratch (loc : Nat) : Bool := 2 ^ 40 ≤ loc && loc < 2 ^ 41

/-- A pool or host location. -/
def isRemote (loc : Nat) : Bool := 2 ^ 60 ≤ loc

/-- A host location: host memory stores no hems (Table 9.1). -/
def isHost (loc : Nat) : Bool := 2 ^ 61 ≤ loc

/-- Memory lists no byte twice, rises, and lists no byte that reads as an unlisted one. -/
def Memory.wf (m : List Host.Cell) : Bool := SMap.wf emptyByte m

/-- One byte. -/
def State.byte (s : State) (loc : Nat) : Byte := SMap.get emptyByte s.mem loc

/-- Write one byte. -/
def State.setByte (s : State) (loc : Nat) (v : Byte) : State := { s with mem := SMap.put emptyByte loc v s.mem }

/-- n bytes from a location upward. -/
def State.bytes (s : State) (loc n : Nat) : List Byte := (List.range n).map fun i => s.byte (loc + i)

/-- Write bytes from a location upward. -/
def State.setBytes (s : State) : Nat → List Byte → State
  | _, [] => s
  | loc, b :: r => State.setBytes (s.setByte loc b) (loc + 1) r

/-! ### Little-endian values (R3) -/

/-- The number of bytes stored lowest first. -/
def leNat : List Byte → Nat
  | [] => 0
  | b :: r => b.toNat + 256 * leNat r

/-- The lowest n bytes of a number, lowest first. -/
def natLe : Nat → Nat → List Byte
  | 0, _ => []
  | n + 1, v => BitVec.ofNat 8 v :: natLe n (v / 256)

/-- The words of a byte list, lowest first (R131). -/
def wordsOf (bs : List Byte) : List Word :=
  (List.range ((bs.length + 3) / 4)).map fun i => BitVec.ofNat 32 (leNat ((bs.drop (4 * i)).take 4))

/-- The bytes of words, lowest first. -/
def bytesOf (ws : List Word) : List Byte := ws.flatMap fun w => natLe 4 w.toNat

/-- A number of n bytes read from memory. -/
def State.nat (s : State) (loc n : Nat) : Nat := leNat (s.bytes loc n)

/-- Write a number as n bytes. -/
def State.setNat (s : State) (loc n v : Nat) : State := s.setBytes loc (natLe n v)

/-- Bits hi:lo of a number. -/
def bits (v hi lo : Nat) : Nat := v / 2 ^ lo % 2 ^ (hi + 1 - lo)

/-- Round up to a multiple of m. -/
def roundUp (v m : Nat) : Nat := (v + m - 1) / m * m

/-- The sign-extended value of the low n bits. -/
def sext (v n : Nat) : Int := if v % 2 ^ n < 2 ^ (n - 1) then (v % 2 ^ n : Nat) else (v % 2 ^ n : Nat) - (2 ^ n : Nat)

/-- Insert by a key, before the first entry with a greater one. -/
def insertBy {α : Type} (key : α → Nat) (x : α) : List α → List α
  | [] => [x]
  | y :: r => if key x < key y then x :: y :: r else y :: insertBy key x r

/-- Sort by a key, keeping the order of equal keys. -/
def sortBy {α : Type} (key : α → Nat) (l : List α) : List α := l.foldr (fun x r => insertBy' x r) []
where
  insertBy' (x : α) : List α → List α
    | [] => [x]
    | y :: r => if key x ≤ key y then x :: y :: r else y :: insertBy' x r

/-- The list without its repeats, the first of each kept. -/
def dedup : List Nat → List Nat
  | [] => []
  | x :: r => x :: (dedup r).filter (· != x)

/-- The least number below the bound that meets a condition. -/
def leastBelow (p : Nat → Bool) (bound : Nat) : Option Nat := (List.range bound).find? p

/-- The entry with the least key, the first of equals. -/
def minBy {α : Type} (key : α → Nat) : List α → Option α
  | [] => none
  | x :: r => match minBy key r with
    | none => some x
    | some y => if key x ≤ key y then some x else some y

end Sys2Proof.Machine
end

