-- ==== Sys2Proof/Machine/Fields.lean ====
section
/-! DEFINITION. The fields of the records and tables the machine reads: launch records, format slots, table entries,
contexts, and the numbering of dies, cores, slices and frames. -/

namespace Sys2Proof.Machine

/-- Bits hi:lo of a bit vector, as a number. -/
def field {n : Nat} (w : BitVec n) (hi lo : Nat) : Nat := (w.extractLsb' lo (hi + 1 - lo)).toNat

/-- The bit vector of n bits that a byte list stores, lowest byte first (R3). -/
def ofBytes (n : Nat) (bs : List Byte) : BitVec n := BitVec.ofNat n (leNat bs)

/-! ### Launch record (Table 20.1) -/

/-- Global address of the completion stamp. -/
def recStampa (r : BitVec 1024) : Nat := field r 959 896
/-- Second dependence. -/
def recDep1 (r : BitVec 1024) : Nat := field r 895 864
/-- First dependence. -/
def recDep0 (r : BitVec 1024) : Nat := field r 863 832
/-- Format slot k. -/
def recSlot (r : BitVec 1024) (k : Nat) : BitVec 64 := r.extractLsb' (64 * k + 320) 64
/-- Parameter block address. -/
def recParam (r : BitVec 1024) : Nat := field r 319 256
/-- Placement map address. -/
def recPmap (r : BitVec 1024) : Nat := field r 255 192
/-- Requested priority class. -/
def recPrio (r : BitVec 1024) : Nat := field r 191 184
/-- Tiles per team. -/
def recAccs (r : BitVec 1024) : Nat := field r 183 176
/-- Bytes P of lane-own space per thread. -/
def recPriv (r : BitVec 1024) : Nat := field r 175 160
/-- Scratch bytes per team. -/
def recScr (r : BitVec 1024) : Nat := field r 159 128
/-- Hem-check policy. -/
def recHcp (r : BitVec 1024) : Nat := field r 126 125
/-- FT = 2^(FTX + 4). -/
def recFt (r : BitVec 1024) : Nat := 2 ^ (field r 124 121 + 4)
/-- Progress promise. -/
def recPp (r : BitVec 1024) : Bool := r.getLsbD 120
/-- Window count W. -/
def recWin (r : BitVec 1024) : Nat := field r 119 112
/-- Threads per team. -/
def recTsize (r : BitVec 1024) : Nat := field r 111 96
/-- Teams. -/
def recTcount (r : BitVec 1024) : Nat := field r 95 64
/-- Kernel base. -/
def recEntry (r : BitVec 1024) : BitVec 64 := r.extractLsb' 0 64

/-! ### Copy descriptors (Table 14.1) -/

/-- A field of n bytes of a descriptor. -/
def CopyItem.get (x : CopyItem) (off n : Nat) : Nat := leNat ((x.desc.drop off).take n)
/-- `NSLICE`. -/
def CopyItem.nslice (x : CopyItem) : Nat := x.get 45 1
/-- `SRC`. -/
def CopyItem.src (x : CopyItem) : Nat := x.get 0 8
/-- `DST`. -/
def CopyItem.dst (x : CopyItem) : Nat := x.get 8 8
/-- `ROWB`. -/
def CopyItem.rowb (x : CopyItem) : Nat := x.get 16 4
/-- `NROW`. -/
def CopyItem.nrow (x : CopyItem) : Nat := x.get 20 4
/-- `NPLANE`. -/
def CopyItem.nplane (x : CopyItem) : Nat := x.get 24 4
/-- `SPR`. -/
def CopyItem.spr (x : CopyItem) : Nat := x.get 28 4
/-- `DPR`. -/
def CopyItem.dpr (x : CopyItem) : Nat := x.get 32 4
/-- `SPP`. -/
def CopyItem.spp (x : CopyItem) : Nat := x.get 36 4
/-- `DPP`. -/
def CopyItem.dpp (x : CopyItem) : Nat := x.get 40 4
/-- `SSP`. -/
def CopyItem.ssp (x : CopyItem) : Nat := x.get 44 1 % 8
/-- `DSP`. -/
def CopyItem.dsp (x : CopyItem) : Nat := x.get 44 1 / 8 % 8
/-- Element width e in bits. -/
def CopyItem.elem (x : CopyItem) : Nat := 4 * 2 ^ (x.get 44 1 / 64)
/-- `SIDX`. -/
def CopyItem.sidx (x : CopyItem) : Nat := x.get 46 1
/-- `STAMPA`. -/
def CopyItem.stampa (x : CopyItem) : Nat := x.get 48 8

/-- Bytes of a destination row. -/
def CopyItem.rowLen (x : CopyItem) : Nat :=
  match x.fn with | 1 => x.nrow * x.elem / 8 | 2 => 128 | _ => x.rowb

/-- Destination rows of a plane. -/
def CopyItem.rows (x : CopyItem) : Nat :=
  match x.fn with | 1 => x.rowb * 8 / x.elem | 2 => 128 | _ => x.nrow

/-- The total T of Table 14.3. -/
def CopyItem.bytes (x : CopyItem) : Nat := if x.fn == 2 then 16384 else x.rowb * x.nrow * x.nplane

/-- T as a slot counts it: 0 where it is out of range (R236). -/
def CopyItem.slotBytes (x : CopyItem) : Nat := if 32 ≤ x.bytes && x.bytes ≤ 2 ^ 22 then x.bytes else 0

/-- Address, plane, destination row and granule in the row of destination granule n, in item order (R253). -/
def CopyItem.dest (x : CopyItem) (n : Nat) : Nat × Nat × Nat × Nat :=
  let g := max 1 (x.rowLen / 32)
  let k := n % g
  let j := n / g % max 1 x.rows
  let p := n / (g * max 1 x.rows)
  (x.dst + p * x.dpp + j * x.dpr + 32 * k, p, j, k)

/-- Granules of an item. -/
def CopyItem.count (x : CopyItem) : Nat := x.bytes / 32

/-- The end of an extent that begins at `base` (R252). -/
def extentEnd (base planes pp rows pr len : Nat) : Nat := base + (planes - 1) * pp + (rows - 1) * pr + len

/-- The extent of a source. -/
def CopyItem.srcEnd (x : CopyItem) : Nat :=
  if x.fn == 2 then x.src + x.rowb else extentEnd x.src x.nplane x.spp x.nrow x.spr x.rowb

/-- The extent of a destination. -/
def CopyItem.dstEnd (x : CopyItem) : Nat := extentEnd x.dst x.nplane x.dpp x.rows x.dpr x.rowLen

/-- No slot. -/
def noSlot : Nat := 0xFFFFFFFF

/-! ### Format slots (Table 3.5) -/

/-- A element format: 0 E4M3, 1 INT8, 2 BF16, 3 FP16. -/
def slotAfmt (w : BitVec 64) : Nat := field w 3 0
/-- B element format. -/
def slotBfmt (w : BitVec 64) : Nat := field w 7 4
/-- A scale kind. -/
def slotAscale (w : BitVec 64) : Nat := field w 9 8
/-- B scale kind. -/
def slotBscale (w : BitVec 64) : Nat := field w 11 10
/-- B storage: 0 plain, 1 wrung. -/
def slotBstore (w : BitVec 64) : Nat := field w 13 12
/-- Output format: 0 FP32, 1 BF16, 2 FP16. -/
def slotOutfmt (w : BitVec 64) : Nat := field w 15 14
/-- Initial tile exponent. -/
def slotInitexp (w : BitVec 64) : Int := sext (field w 23 16) 8

/-- The validity conditions of R67. -/
def slotValid (w : BitVec 64) : Bool :=
  field w 63 24 == 0 && slotOutfmt w ≤ 2 && slotBstore w ≤ 1 && slotBscale w ≤ 1 && slotAscale w ≤ 1 &&
  slotBfmt w ≤ 3 && slotAfmt w == slotBfmt w && (slotBstore w == 0 || slotBfmt w == 0)

/-- K of a pass (R67). -/
def slotK (w : BitVec 64) : Nat := if slotAfmt w ≤ 1 then 128 else 64

/-- Bytes of one operand element. -/
def slotElem (w : BitVec 64) : Nat := if slotAfmt w ≤ 1 then 1 else 2

/-! ### Table entries (Table 22.2) -/

/-- Valid. -/
def pteV (e : BitVec 64) : Bool := e.getLsbD 0
/-- Leaf. -/
def pteL (e : BitVec 64) : Bool := e.getLsbD 2
/-- Writable. -/
def pteW (e : BitVec 64) : Bool := e.getLsbD 3
/-- 0 local HBM, 1 pool, 2 host. -/
def pteKind (e : BitVec 64) : Nat := field e 5 4
/-- Wrung-allowed. -/
def pteWa (e : BitVec 64) : Bool := e.getLsbD 6
/-- Migrating. -/
def pteMig (e : BitVec 64) : Bool := e.getLsbD 7
/-- Partition-checked. -/
def ptePc (e : BitVec 64) : Bool := e.getLsbD 8
/-- The frame's or next table's address. -/
def pteAddr (e : BitVec 64) : Nat := field e 51 12 * 2 ^ 12
/-- Pool or host node. -/
def pteNode (e : BitVec 64) : Nat := field e 59 52

/-- First index bit of a level (Table 22.1). -/
def levelShift : Nat → Nat
  | 0 => 39
  | 1 => 30
  | 2 => 21
  | _ => 16

/-- Entries of a level's table (Table 22.1). -/
def levelEntries : Nat → Nat
  | 0 => 8192
  | 1 => 512
  | 2 => 512
  | _ => 32

/-- A valid entry that R328 calls malformed. -/
def pteMalformed (level : Nat) (e : BitVec 64) : Bool :=
  if pteL e then
    field e 63 60 != 0 || field e 11 9 != 0 || e.getLsbD 1 || pteKind e == 3 || level == 0 ||
    pteAddr e % 2 ^ levelShift level != 0 ||
    (match pteKind e with | 0 => pteNode e != 0 | 1 => pteNode e ≥ 32 | _ => pteNode e ≥ 16) ||
    (pteKind e == 0 && !ptePc e && pteW e)
  else
    field e 63 60 != 0 || field e 11 9 != 0 || e.getLsbD 1 || field e 8 3 != 0 || level == 3 || pteNode e != 0 ||
    pteAddr e % 2 ^ 12 != 0

/-! ### Numbering (R13, R16, R342) -/

/-- The die of a core. -/
def coreDie (core : Nat) : Nat := core / 96
/-- The package cluster of a core. -/
def coreCluster (core : Nat) : Nat := core / 4
/-- The die of a cluster. -/
def clusterDie (c : Nat) : Nat := c / 24
/-- The die of a slice. -/
def sliceDie (s : Nat) : Nat := s / 64
/-- 48 GiB, the size of a stack. -/
def stackBytes : Nat := 48 * 2 ^ 30
/-- Bytes of local HBM in the package. -/
def hbmBytes : Nat := 16 * stackBytes

/-- The stack of a local-HBM physical address (R342). -/
def paStack (a : Nat) : Nat := a / stackBytes
/-- The home slice of a local-HBM physical address (R342). -/
def paSlice (a : Nat) : Nat := 64 * (paStack a / 4) + 16 * (paStack a % 4) + a % stackBytes / 65536 % 16
/-- The boundaries between two dies (R12). -/
def crossings (d e : Nat) : Nat := if d == e then 0 else if d ^^^ e == 3 then 2 else 1

/-- The HBM channel of its stack that a local location lies in (R342). -/
def paChannel (a : Nat) : Nat := 32 * paStack a + 2 * (a % stackBytes / 65536 % 16) + a % stackBytes / 256 % 2

/-- The `BND` bits of a path from one die to another (R12, Table 9.3): bit 0 is 0–1, 1 is 1–3, 2 is 3–2 and 3 is 2–0. Diagonal traffic
passes through the die whose number differs in bit 0, or through the other one where that die is fenced (R25). -/
def boundaryBits (src dst : Nat) (fenced : Nat → Bool) : Nat :=
  let edge (a b : Nat) : Nat := match min a b, max a b with | 0, 1 => 1 | 1, 3 => 2 | 2, 3 => 4 | 0, 2 => 8 | _, _ => 0
  let via := if fenced (src ^^^ 1) then src ^^^ 2 else src ^^^ 1
  if crossings src dst == 2 then edge src via ||| edge via dst else edge src dst

end Sys2Proof.Machine
end

