-- ==== Sys2Proof/Machine/Threads.lean ====
section
/-! DEFINITION. Finding and updating threads, groups, teams, launches and contexts; registers through the window; flags and
outstanding operations; logical time; the agenda. -/

namespace Sys2Proof.Machine

/-! ### Finding and updating records -/

/-- Home lane (R68). -/
def Thread.lane (t : Thread) : Nat := t.lid % 32

/-- The thread with a uid. -/
def State.thread (s : State) (u : Nat) : Option Thread := s.threads.find? fun t => t.uid == u

/-- Update one thread. -/
def State.modThread (s : State) (u : Nat) (f : Thread → Thread) : State :=
  { s with threads := s.threads.map fun t => if t.uid == u then f t else t }

/-- Update several threads. -/
def State.modThreads (s : State) (us : List Nat) (f : Thread → Thread) : State :=
  { s with threads := s.threads.map fun t => if us.contains t.uid then f t else t }

/-- The issuing gang in ascending home lane. -/
def State.gangThreads (s : State) : List Thread :=
  sortBy Thread.lane (s.threads.filter fun t => s.gang.contains t.uid)

/-- The uids of a list of threads. -/
def uids (ts : List Thread) : List Nat := ts.map Thread.uid

/-- The lanes of a list of threads as a mask. -/
def laneMask (ts : List Thread) : BitVec 32 := ts.foldl (fun m t => m ||| 1#32 <<< t.lane) 0

/-- The group of a thread: its team's group of its slot number (R213). -/
def State.groupOf (s : State) (t : Thread) : Option Group := s.groups.find? fun g => g.tid == t.tid && g.slot == t.slot

/-- The slot number of an EXITED thread whose group is gone. -/
def noGroup : Nat := 32

/-- The group with an id. -/
def State.group (s : State) (gid : Nat) : Option Group := s.groups.find? fun g => g.gid == gid

/-- The id of a thread's group, 0 for none. -/
def State.gidOf (s : State) (t : Thread) : Nat := match s.groupOf t with | some g => g.gid | none => 0

/-- Update one group. -/
def State.modGroup (s : State) (gid : Nat) (f : Group → Group) : State :=
  { s with groups := s.groups.map fun g => if g.gid == gid then f g else g }

/-- The threads of a group. -/
def State.members (s : State) (g : Group) : List Thread := s.threads.filter fun t => t.tid == g.tid && t.slot == g.slot

/-- The members that have not retired. -/
def State.live (s : State) (g : Group) : List Thread := (s.members g).filter fun t => t.state != .exited

/-- The group ids of a list of threads, each once, in order of first appearance. -/
def State.gids (s : State) (ts : List Thread) : List Nat := dedup (ts.map s.gidOf)

/-- The team with an id. -/
def State.team (s : State) (tid : Nat) : Option Team := s.teams.find? fun x => x.tid == tid

/-- Update one team. -/
def State.modTeam (s : State) (tid : Nat) (f : Team → Team) : State :=
  { s with teams := s.teams.map fun x => if x.tid == tid then f x else x }

/-- The threads of a team. -/
def State.teamThreads (s : State) (tid : Nat) : List Thread := s.threads.filter fun t => t.tid == tid

/-- The launch with an id. -/
def State.launch (s : State) (lid : Nat) : Option Launch := s.launches.find? fun l => l.lid == lid

/-- Update one launch. -/
def State.modLaunch (s : State) (lid : Nat) (f : Launch → Launch) : State :=
  { s with launches := s.launches.map fun l => if l.lid == lid then f l else l }

/-- The firmware context's number: outside the 64 tenant contexts (R42). -/
def fwNum : Nat := 64

/-- The context with a number. -/
def State.ctx (s : State) (n : Nat) : Option Ctx := if n == fwNum then s.fwCtx else s.ctxs.find? fun c => c.num == n

/-- Update one context. -/
def State.modCtx (s : State) (n : Nat) (f : Ctx → Ctx) : State :=
  if n == fwNum then { s with fwCtx := s.fwCtx.map f }
  else { s with ctxs := s.ctxs.map fun c => if c.num == n then f c else c }

/-- The launch of a thread's team. -/
def State.launchOf (s : State) (tid : Nat) : Option Launch := (s.team tid).bind fun x => s.launch x.lid

/-- The launch record of a team. -/
def State.recordOf (s : State) (tid : Nat) : BitVec 1024 := match s.launchOf tid with | some l => l.record | none => 0

/-- The context number of a team. -/
def State.ctxOf (s : State) (tid : Nat) : Nat := match s.team tid with | some x => x.ctx | none => 0

/-- The core of a team's placement. -/
def State.coreOf (s : State) (tid : Nat) : Nat := match s.team tid with | some x => x.core | none => 0

/-- The window count W of a team's launch (R71). -/
def State.win (s : State) (tid : Nat) : Nat := recWin (s.recordOf tid)

/-- The index of a team in its launch (special register TEAM). -/
def State.teamIndex (s : State) (tid : Nat) : Nat := match s.team tid with | some x => x.index | none => 0

/-- A thread is in firmware mode exactly when its launch belongs to the firmware context (R42). -/
def State.firmware (s : State) (t : Thread) : Bool := s.ctxOf t.tid == fwNum

/-- The group's threads take turns: single-stitch mode (R84). -/
def State.single (s : State) (t : Thread) : Bool := match s.groupOf t with | some g => g.turn.isSome | none => false

/-! ### Allocations (R310) -/

/-- An item lands in the scratch allocation of a team, or on a slot there (R310). -/
def CopyItem.landsIn (x : CopyItem) (m : Team) : Bool :=
  x.accepted && ((x.tid == m.tid && (x.dsp == 2 || x.bar != noSlot)) ||
    (x.dsp == 3 && 4 * x.cluster + x.dst / 2 ^ 22 % 4 == m.core &&
      x.dst % 2 ^ 22 < m.scrBase + m.scrSize && m.scrBase < x.dst % 2 ^ 22 + (x.dstEnd - x.dst)))

/-- A team's scratch and lane-own regions are its own: it has not retired, or an item still lands there (R310). -/
def State.allocated (s : State) (m : Team) : Bool := m.resident && (!m.retired || s.items.any fun x => x.landsIn m)

/-! ### Registers through the window -/

/-- Physical register of `vk` at a window depth (R71). -/
def physReg (W depth k : Nat) : Nat := (48 * depth + k) % (48 * W + 16)

/-- The v register k as the word's sources see it: from before the chain now issuing (R29). -/
def Thread.v (W : Nat) (t : Thread) (k : Nat) : Word :=
  match t.old with
  | some o => SMap.get 0 o.regs (physReg W o.depth k)
  | none => SMap.get 0 t.regs (physReg W t.depth k)

/-- Write v register k, clearing its poison mark (R204). -/
def Thread.setV (W k : Nat) (x : Word) (t : Thread) : Thread :=
  { t with regs := SMap.put 0 (physReg W t.depth k) x t.regs,
           pois := t.pois.filter fun q => q.reg != physReg W t.depth k }

/-- Write a physical register, clearing its poison mark. -/
def Thread.setPhys (n : Nat) (x : Word) (t : Thread) : Thread :=
  { t with regs := SMap.put 0 n x t.regs, pois := t.pois.filter fun q => q.reg != n }

/-- Write consecutive physical registers named by a list. -/
def Thread.setPhysList : List Nat → List Word → Thread → Thread
  | n :: ns, x :: xs, t => Thread.setPhysList ns xs (t.setPhys n x)
  | _, _, t => t

/-- A predicate as the word's sources see it; code 7 is always true (Table 2.3). -/
def Thread.p (t : Thread) (i : BitVec 3) : Bool :=
  i == 7 || (match t.old with | some o => o.preds | none => t.preds).getLsbD i.toNat

/-- Write a predicate; code 7 names none. -/
def Thread.setP (i : BitVec 3) (b : Bool) (t : Thread) : Thread :=
  if i == 7 then t
  else { t with preds := (t.preds &&& ~~~(1#7 <<< i.toNat)) ||| (if b then 1#7 <<< i.toNat else 0) }

/-- An s register of a group. -/
def Group.sv (g : Group) (k : Nat) : Word := SMap.get 0 g.sregs k

/-- Write an s register, clearing its poison mark. -/
def Group.setS (k : Nat) (x : Word) (g : Group) : Group :=
  { g with sregs := SMap.put 0 k x g.sregs, pois := g.pois.filter fun q => q.reg != k }

/-- OR flags into `FSTAT` (R58). -/
def Thread.orFlags (f : BitVec 6) (t : Thread) : Thread := { t with fstat := t.fstat ||| f }

/-- The wait is on a monitor. -/
def Wait.onMon : Wait → Bool
  | .mwait _ => true
  | _ => false

/-! ### Position -/

/-- Where a thread stands. -/
def Thread.at_ (t : Thread) : Pos := { pkt := t.pkt, word := t.word, clause := t.clause }

/-- The next word of the clause, or the next packet when the clause ends here (R90). -/
def Thread.next (t : Thread) : Thread :=
  if t.word < 2 then { t with word := t.word + 1 }
  else match t.clause with
    | some c =>
      if t.pkt + 1 == c.stop then
        { t with pkt := t.pkt + 1, word := 0, clause := none, fromPkt := t.pkt, fromWord := 2 }
      else { t with pkt := t.pkt + 1, word := 0 }
    | none => { t with pkt := t.pkt + 1, word := 0, fromPkt := t.pkt, fromWord := 2 }

/-- Transfer control to a packet: the thread leaves its clause (R90). -/
def Thread.jump (p : Word) (t : Thread) : Thread :=
  { t with pkt := p, word := 0, clause := none, fromPkt := t.pkt, fromWord := t.word }

/-- Every thread of the gang goes on at its next word. -/
def State.advance (s : State) : State := s.modThreads s.gang Thread.next

/-! ### Progress (R226) -/

/-- A word that an operation brings back counts as progress where it changes the register (R226). -/
def Thread.wouldChange (t : Thread) (regs : List Nat) (ws : List Word) : Bool :=
  (regs.zip ws).any fun e => SMap.get 0 t.regs e.1 != e.2

/-- Mark progress of a thread's group. -/
def State.groupProgress (s : State) (t : Thread) : State := s.modGroup (s.gidOf t) fun g => { g with progress := true }

/-! ### Flags and outstanding operations -/

/-- The count of a completion flag (R33). -/
def Thread.count (t : Thread) (i : Nat) : Nat := SMap.get 0 t.flags i

/-- The flag the `B` bit selects in the thread's clause; 15 for none (R33). -/
def Thread.sel (t : Thread) (fb : Bool) : Nat :=
  match t.clause with | some c => if fb then c.flagB else c.flagA | none => 15

/-- Count one more operation of the thread on a flag. -/
def Thread.begin (sel : Nat) (t : Thread) : Thread :=
  { t with outs := t.outs + 1, flags := if sel < 12 then SMap.put 0 sel (t.count sel + 1) t.flags else t.flags }

/-- One operation of the thread counted on a flag has completed. -/
def Thread.finish (sel : Nat) (t : Thread) : Thread :=
  { t with outs := t.outs - 1, flags := if sel < 12 then SMap.put 0 sel (t.count sel - 1) t.flags else t.flags }

/-- An operation with every field 0 or empty. -/
def Op.blank : Op where
  id := 0
  kind := .load
  uid := 0
  tid := 0
  gid := 0
  agent := 0
  ctx := 0
  sel := 15
  space := 0
  loc := 0
  addr := 0
  size := 0
  rtype := 0
  req := .none
  aop := 0
  regs := []
  preg := none
  args := []
  data := []
  mask := 0
  syn := []
  fill := []
  waits := []
  lt := 0
  wts := 0
  rts := 0
  carry := none
  pkt := 0
  word := 0
  issued := 0
  sent := 0
  due := none
  refused := false
  again := none
  port := 0
  region := none
  poison := none
  via := []
  origin := none
  done := false

/-- An operation of a thread at its current word, counted on a flag. -/
def State.opOf (s : State) (t : Thread) (k : OpKind) (sel : Nat) : Op :=
  { Op.blank with kind := k, uid := t.uid, tid := t.tid, gid := s.gidOf t, agent := s.coreOf t.tid, ctx := s.ctxOf t.tid,
                  sel := sel, pkt := t.pkt, word := t.word, issued := s.tick }

/-- Put an operation in flight: its thread counts it and the scoreboard holds its registers (R33, R34). -/
def State.begin (s : State) (o : Op) : State :=
  let s := s.modThread o.uid fun t =>
    let t := t.begin o.sel
    { t with pendV := o.regs ++ t.pendV, pendP := o.preg.toList ++ t.pendP,
             pendF := if o.kind == .sfu then t.pendF + 1 else t.pendF,
             acqOut := if o.kind == .sqacq then t.acqOut + 1 else t.acqOut }
  { s with ops := s.ops ++ [{ o with id := s.nextId }], nextId := s.nextId + 1 }

/-- The operation with an id. -/
def State.op (s : State) (id : Nat) : Option Op := s.ops.find? fun o => o.id == id

/-- Update one operation. -/
def State.modOp (s : State) (id : Nat) (f : Op → Op) : State :=
  { s with ops := s.ops.map fun o => if o.id == id then f o else o }

/-- The operation is complete for its thread: its flag falls and the scoreboard lets its registers go (R33, R34). -/
def State.finish (s : State) (o : Op) : State :=
  let s := s.modThread o.uid fun t =>
    let t := t.finish o.sel
    { t with pendV := t.pendV.diff o.regs, pendP := t.pendP.diff o.preg.toList,
             pendF := if o.kind == .sfu then t.pendF - 1 else t.pendF,
             acqOut := if o.kind == .sqacq then t.acqOut - 1 else t.acqOut }
  { s with ops := s.ops.filter fun x => x.id != o.id }

/-- Take an operation out without completing it for its thread (withdrawn work). -/
def State.dropOp (s : State) (id : Nat) : State := { s with ops := s.ops.filter fun x => x.id != id }

/-- Append work to the agenda. -/
def State.post (s : State) (es : List Instr) : State := { s with agenda := s.agenda ++ es }

/-- Put an operation in flight and post the event built from its id. -/
def State.send (s : State) (o : Op) (ev : Nat → Instr) : State :=
  let id := s.nextId
  (s.begin o).post [ev id]

/-- One reading of the free-value counter. -/
def State.draw (s : State) : State := { s with freeCtr := s.freeCtr + 1 }

/-! ### Logical time (R171) -/

/-- A core's LT. -/
def State.lt (s : State) (core : Nat) : Nat := SMap.get 0 s.lts core

/-- LT := max(LT, v). -/
def State.raiseLt (s : State) (core v : Nat) : State :=
  { s with lts := SMap.put 0 core (max (s.lt core) v) s.lts }

/-- LT := LT + v. -/
def State.addLt (s : State) (core v : Nat) : State := { s with lts := SMap.put 0 core (s.lt core + v) s.lts }

end Sys2Proof.Machine
end

