-- ==== Sys2Proof/Machine/Fresh.lean ====
section
/-! DEFINITION. Records as they begin: a placed team's threads and groups (R68, R314), launches, contexts and links. -/

namespace Sys2Proof.Machine

/-- A thread of a placed team at packet 0 of its kernel (R68). -/
def Thread.fresh (uid tid lid path : Nat) : Thread where
  uid := uid
  tid := tid
  lid := lid
  slot := lid / 32
  state := .runnable
  wait := .none
  trapMode := false
  pkt := 0
  word := 0
  clause := none
  fromPkt := 0
  fromWord := 0
  resumed := false
  entered := false
  broke := false
  regs := []
  pois := []
  preds := 0
  flags := []
  fstat := 0
  depth := 0
  spill := 0
  links := []
  seams := []
  trap := []
  trapAt := none
  trapSeams := []
  old := none
  pendV := []
  pendP := []
  pendF := 0
  outs := 0
  acqOut := 0
  mon := none
  owed := []
  wdDue := false
  path := path
  again := []
  due := none
  rel := 0
  got := 0
  relSys := 0
  gotSys := 0
  cut := none

/-- A group that has just been created, with its uniform registers and `FMODE` (R214, R215, R314). -/
def Group.fresh (gid tid slot sched : Nat) (sregs : SMap Word) (fmode : BitVec 4) : Group where
  gid := gid
  tid := tid
  slot := slot
  place := .forming
  sched := sched
  sregs := sregs
  pois := []
  toks := []
  fmode := fmode
  fabst := 0
  fabNow := 0
  turn := none
  entered := 0
  swapAt := none
  wd := 0
  progress := false
  retired := []
  edited := false
  haltDue := false

/-- The uniform registers of a placed team's groups (R314). -/
def startSregs (r : BitVec 1024) (team : Nat) : SMap Word :=
  let p := recParam r
  SMap.put 0 0 (BitVec.ofNat 32 p) (SMap.put 0 1 (BitVec.ofNat 32 (p / 2 ^ 32))
    (SMap.put 0 2 (BitVec.ofNat 32 team) (SMap.put 0 3 (BitVec.ofNat 32 (recTcount r)) [])))

/-- A path that holds its entry from the tick given. -/
def Path.fresh (id sched tid tick : Nat) : Path where
  id := id
  sched := sched
  tid := tid
  age := id
  granted := tick
  parked := none
  fair := 0
  overdue := none
  run := 0
  bar := []
  ran := false

/-- A team on a core (R68, R313). -/
def Team.fresh (tid lid ctx index core : Nat) : Team where
  tid := tid
  lid := lid
  ctx := ctx
  index := index
  core := core
  resident := true
  base := 0
  scrBase := 0
  scrSize := 0
  privBase := 0
  privSize := 0
  dieSpace := coreDie core
  pages := []
  laggard := none
  retired := false
  marks := []
  rels := []

/-- A launch that has just been posted (R310). -/
def Launch.fresh (lid ctx queue number lt order : Nat) : Launch where
  lid := lid
  ctx := ctx
  queue := queue
  number := number
  lt := lt
  record := 0
  state := .posted
  placed := 0
  slot := false
  stamped := false
  order := order
  wake := 0
  page := none
  map := none
  stale := false
  qprio := 0

/-- A region entry that matches nothing. -/
def Region.none : Region where
  v := false
  base := 0
  size := 0
  floor := 0

/-- A context without a record (Table 23.3, FREE). -/
def Ctx.fresh (n : Nat) : Ctx where
  num := n
  state := .free
  root := 0
  part := 0
  lease := 32
  drift := 64
  rto := 4
  trapb := 0
  saveb := 0
  saven := 0
  frqb := 0
  frqn := 4
  pfh := false
  host := 0
  dbg := Option.none
  regions := []
  exprts := []
  rwins := []
  subs := []
  breaks := []
  watches := []
  lost := 0
  lostNow := false
  told := false
  asked := []
  used := []
  downAt := Option.none
  preAt := Option.none
  saves := []

end Sys2Proof.Machine
end

