-- ==== Sys2Proof/Machine/Float.lean ====
section
/-! DEFINITION. Floating-point formats, exact values and rounding (R52-R54, R59-R60). A finite value is a sign and m · 2^e
with a natural m; a result is rounded once from an exact value and a sticky remainder. -/

namespace Sys2Proof.Machine

/-- A floating-point format (Table 3.1). -/
structure Fmt where
  ebits : Nat
  mbits : Nat
  bias  : Nat
  inf   : Bool
  deriving DecidableEq, Repr

/-- Binary32. -/
def F32 : Fmt := { ebits := 8, mbits := 23, bias := 127, inf := true }
/-- Binary16. -/
def F16 : Fmt := { ebits := 5, mbits := 10, bias := 15, inf := true }
/-- Bfloat16. -/
def BF16 : Fmt := { ebits := 8, mbits := 7, bias := 127, inf := true }
/-- E4M3: no infinity, and one NaN magnitude. -/
def E4M3 : Fmt := { ebits := 4, mbits := 3, bias := 7, inf := false }

/-- A value read from a format: a NaN (signalling or not), an infinity by sign, or (−1)^neg · m · 2^e. -/
inductive FVal where
  | nan (signalling : Bool)
  | inf (neg : Bool)
  | fin (neg : Bool) (m : Nat) (e : Int)
  deriving DecidableEq, Repr

/-- The sign bit's weight. -/
def Fmt.signBit (f : Fmt) : Nat := 2 ^ (f.ebits + f.mbits)
/-- The code of infinity, or the NaN code of E4M3. -/
def Fmt.top (f : Fmt) : Nat := if f.inf then (2 ^ f.ebits - 1) * 2 ^ f.mbits else f.signBit - 1
/-- Largest finite code. -/
def Fmt.maxFin (f : Fmt) : Nat := f.top - 1
/-- Canonical NaN (R53). -/
def Fmt.qnan (f : Fmt) : Nat := if f.inf then f.top + 2 ^ (f.mbits - 1) else f.top
/-- The exponent of one unit in a subnormal's last place. -/
def Fmt.emin (f : Fmt) : Int := 1 - (f.bias : Int) - f.mbits

/-- Read a code (R52). -/
def Fmt.read (f : Fmt) (c : Nat) : FVal :=
  let neg := c / f.signBit % 2 == 1
  let mag := c % f.signBit
  let ef := mag / 2 ^ f.mbits
  let fr := mag % 2 ^ f.mbits
  if f.inf && ef == 2 ^ f.ebits - 1 then
    if fr == 0 then .inf neg else .nan (fr < 2 ^ (f.mbits - 1))
  else if !f.inf && mag == f.top then .nan false
  else if ef == 0 then .fin neg fr f.emin
  else .fin neg (fr + 2 ^ f.mbits) (f.emin + ((ef - 1 : Nat) : Int))

/-- The code is a subnormal number. -/
def Fmt.subnormal (f : Fmt) (c : Nat) : Bool := c % f.signBit != 0 && c % f.signBit < 2 ^ f.mbits

/-- A zero of a sign. -/
def Fmt.zero (f : Fmt) (neg : Bool) : Nat := if neg then f.signBit else 0

/-- A code with a sign. -/
def Fmt.signed (f : Fmt) (neg : Bool) (mag : Nat) : Nat := f.zero neg + mag

/-- Read an operand with subnormals flushed where `ftz` holds (R59). -/
def Fmt.readFtz (f : Fmt) (ftz : Bool) (c : Nat) : FVal :=
  if ftz && f.subnormal c then .fin (c / f.signBit % 2 == 1) 0 f.emin else f.read c

/-! ### Flags (Table 3.3) -/

/-- Invalid. -/
def fNV : BitVec 6 := 1
/-- Division by zero. -/
def fDZ : BitVec 6 := 2
/-- Overflow. -/
def fOF : BitVec 6 := 4
/-- Underflow. -/
def fUF : BitVec 6 := 8
/-- Inexact. -/
def fNX : BitVec 6 := 16
/-- Saturated. -/
def fSAT : BitVec 6 := 32

/-! ### Rounding -/

/-- Whether a magnitude rounds up: `half` compares the discarded part with half a unit (0 below, 1 equal, 2 above), `rm` is
0 RNE, 1 RZ, 2 RUP or 3 RDN. -/
def roundsUp (rm : Nat) (neg odd exact : Bool) (half : Nat) : Bool :=
  if exact then false
  else match rm with
    | 0 => half == 2 || (half == 1 && odd)
    | 1 => false
    | 2 => !neg
    | _ => neg

/-- m / 2^d rounded to an integer, and whether it was inexact; `sticky` says that a nonzero remainder lies below m. -/
def shiftRound (rm : Nat) (neg : Bool) (m d : Nat) (sticky : Bool) : Nat × Bool :=
  let n := m / 2 ^ d
  let r := m % 2 ^ d
  let exact := r == 0 && !sticky
  let half :=
    if d == 0 then 0
    else if r < 2 ^ (d - 1) then 0
    else if r == 2 ^ (d - 1) && !sticky then 1
    else 2
  (if roundsUp rm neg (n % 2 == 1) exact half then n + 1 else n, !exact)

/-- m · 2^e on the grid of 2^q, rounded, and whether it was inexact. A sticky remainder needs q above e. -/
def onGrid (rm : Nat) (neg : Bool) (m : Nat) (e q : Int) (sticky : Bool) : Nat × Bool :=
  if q ≤ e then (m * 2 ^ (e - q).toNat, sticky) else shiftRound rm neg m (q - e).toNat sticky

/-- The overflow code of a mode (IEEE 754; Table 3.4). -/
def Fmt.overflow (f : Fmt) (rm : Nat) (neg : Bool) : Nat :=
  if !f.inf then f.qnan
  else match rm with
    | 0 => f.signed neg f.top
    | 1 => f.signed neg f.maxFin
    | 2 => f.signed neg (if neg then f.maxFin else f.top)
    | _ => f.signed neg (if neg then f.top else f.maxFin)

/-- Round an exact magnitude m · 2^e to a format, with its flags. Tininess is detected after rounding (R58); `ftz` replaces
a subnormal result by zero with `UF` and `NX` (R59). -/
def Fmt.round (f : Fmt) (rm : Nat) (ftz : Bool) (neg : Bool) (m : Nat) (e : Int) (sticky : Bool) : Nat × BitVec 6 :=
  if m == 0 then (f.zero neg, 0)
  else
    let top : Int := e + (Nat.log2 m : Nat)
    let free := top - f.mbits
    let q := max free f.emin
    let r := onGrid rm neg m e q sticky
    let code := (q - f.emin).toNat * 2 ^ f.mbits + r.1
    if f.maxFin < code then (f.overflow rm neg, fOF ||| fNX)
    else
      let tiny := top < f.emin + f.mbits &&
        !(top == f.emin + f.mbits - 1 && (onGrid rm neg m e free sticky).1 == 2 ^ (f.mbits + 1))
      if ftz && code != 0 && code < 2 ^ f.mbits then (f.zero neg, fUF ||| fNX)
      else (f.signed neg code, (if r.2 then fNX else 0) ||| (if r.2 && tiny then fUF else 0))

/-- The exact value as an integer on the grid of 2^q, for q at or below e. -/
def scaled (neg : Bool) (m : Nat) (e q : Int) : Int :=
  let v : Int := (m * 2 ^ (e - q).toNat : Nat)
  if neg then -v else v

/-- Whether an operand is a signalling NaN. -/
def FVal.snan : FVal → Bool
  | .nan true => true
  | _ => false

/-- Whether an operand is a NaN. -/
def FVal.isNan : FVal → Bool
  | .nan _ => true
  | _ => false

/-- The sum of two exact values rounded once (R54). -/
def Fmt.sum (f : Fmt) (rm : Nat) (ftz : Bool) (na : Bool) (ma : Nat) (ea : Int) (nb : Bool) (mb : Nat) (eb : Int) :
    Nat × BitVec 6 :=
  let q := min ea eb
  let v := scaled na ma ea q + scaled nb mb eb q
  if v == 0 then
    (f.zero (if ma == 0 && mb == 0 && na == nb then na else rm == 3), 0)
  else f.round rm ftz (v < 0) v.natAbs q false

/-- IEEE addition (R54, R59). -/
def Fmt.add (f : Fmt) (rm : Nat) (ftz : Bool) (a b : Nat) : Nat × BitVec 6 :=
  let x := f.readFtz ftz a
  let y := f.readFtz ftz b
  let nv := if x.snan || y.snan then fNV else 0
  match x, y with
  | .nan _, _ => (f.qnan, nv)
  | _, .nan _ => (f.qnan, nv)
  | .inf p, .inf q => if p == q then (f.signed p f.top, 0) else (f.qnan, fNV)
  | .inf p, _ => (f.signed p f.top, 0)
  | _, .inf q => (f.signed q f.top, 0)
  | .fin p m e, .fin q n d => f.sum rm ftz p m e q n d

/-- IEEE multiplication (R54, R59). -/
def Fmt.mul (f : Fmt) (rm : Nat) (ftz : Bool) (a b : Nat) : Nat × BitVec 6 :=
  let x := f.readFtz ftz a
  let y := f.readFtz ftz b
  let nv := if x.snan || y.snan then fNV else 0
  match x, y with
  | .nan _, _ => (f.qnan, nv)
  | _, .nan _ => (f.qnan, nv)
  | .inf p, .inf q => (f.signed (p != q) f.top, 0)
  | .inf p, .fin q n _ => if n == 0 then (f.qnan, fNV) else (f.signed (p != q) f.top, 0)
  | .fin p m _, .inf q => if m == 0 then (f.qnan, fNV) else (f.signed (p != q) f.top, 0)
  | .fin p m e, .fin q n d => f.round rm ftz (p != q) (m * n) (e + d) false

/-- a · b + c with one rounding; 0 · ∞ raises `NV` whatever c is (R54, R106). -/
def Fmt.fma (f : Fmt) (rm : Nat) (ftz : Bool) (a b c : Nat) : Nat × BitVec 6 :=
  let x := f.readFtz ftz a
  let y := f.readFtz ftz b
  let z := f.readFtz ftz c
  let invalid := match x, y with
    | .inf _, .fin _ n _ => n == 0
    | .fin _ m _, .inf _ => m == 0
    | _, _ => false
  let nv := if x.snan || y.snan || z.snan || invalid then fNV else 0
  if invalid || x.isNan || y.isNan || z.isNan then (f.qnan, nv)
  else match x, y, z with
    | .fin p m e, .fin q n d, .fin r k g => f.sum rm ftz (p != q) (m * n) (e + d) r k g
    | .fin _ _ _, .fin _ _ _, .inf r => (f.signed r f.top, 0)
    | x, y, z =>
      let sx := match x with | .inf p => p | .fin p _ _ => p | .nan _ => false
      let sy := match y with | .inf p => p | .fin p _ _ => p | .nan _ => false
      match z with
      | .inf r => if r == (sx != sy) then (f.signed r f.top, 0) else (f.qnan, fNV)
      | _ => (f.signed (sx != sy) f.top, 0)

/-- The order of two values that are not NaN: less, equal or greater, −0 equal to +0. -/
def FVal.cmp : FVal → FVal → Ordering
  | .inf p, .inf q => if p == q then .eq else if p then .lt else .gt
  | .inf p, _ => if p then .lt else .gt
  | _, .inf q => if q then .gt else .lt
  | .fin p m e, .fin q n d => compare (scaled p m e (min e d)) (scaled q n d (min e d))
  | _, _ => .eq

/-- Minimum (`lower`) or maximum by `NANM`, −0 below +0 (R54, R107). -/
def Fmt.pick (f : Fmt) (lower nanm ftz : Bool) (a b : Nat) : Nat × BitVec 6 :=
  let x := f.readFtz ftz a
  let y := f.readFtz ftz b
  let keep (c : Nat) : Nat := if ftz && f.subnormal c then f.zero (c / f.signBit % 2 == 1) else c
  if x.snan || y.snan then (f.qnan, fNV)
  else if x.isNan && y.isNan then (f.qnan, 0)
  else if x.isNan then (if nanm then f.qnan else keep b, 0)
  else if y.isNan then (if nanm then f.qnan else keep a, 0)
  else
    let less := match x.cmp y with
      | .lt => true
      | .gt => false
      | .eq => a / f.signBit % 2 == 1
    (if less == lower then keep a else keep b, 0)

/-! ### Conversions (Table 3.4) -/

/-- An integer to a float format, and whether the magnitude overflowed. -/
def Fmt.ofInt (f : Fmt) (rm : Nat) (v : Int) : Nat × BitVec 6 := f.round rm false (v < 0) v.natAbs 0 false

/-- A finite value rounded to an integer, and whether it was inexact. -/
def toIntRound (rm : Nat) (neg : Bool) (m : Nat) (e : Int) : Int × Bool :=
  let r := onGrid rm neg m e 0 false
  (if neg then -(r.1 : Int) else r.1, r.2)

end Sys2Proof.Machine
end

