-- ==== Sys2Proof/Machine/Links.lean ====
section
/-! DEFINITION. Fabric ports as the rest of the package sees them: which links carry a request (R353, R355), the fabric status of a
group (R227, R228), and the trace buffers (R385). -/

namespace Sys2Proof.Machine

/-! ### Ports -/

/-- A link as its status register comes out of reset (Table 24.4). -/
def Link.down : Link where
  state := .down
  lanes := 0
  bufCut := 0
  crce := 0
  late := 0
  rply := 0
  fails := []
  recent := []
  pubs := false
  since := 0
  limit := 0

/-- The link of a port. -/
def State.link (s : State) (p : Nat) : Link := SMap.get Link.down s.links p

/-- Update the link of a port. -/
def State.modLink (s : State) (p : Nat) (f : Link → Link) : State :=
  { s with links := SMap.put Link.down p (f (s.link p)) s.links }

/-- A die that the start has fenced out (R25). -/
def State.fencedDie (s : State) (d : Nat) : Bool := s.fenced.contains (5, d)

/-- The die of a port. -/
def portDie (p : Nat) : Nat := p % 32 / 8

/-- The link carries requests: none goes by a port of a fenced die (R25). -/
def State.carries (s : State) (p : Nat) : Bool :=
  ((s.link p).state == .up || (s.link p).state == .degraded) && !s.fencedDie (portDie p)

/-- The first port from `p` on, in ascending cyclic order, that carries requests. -/
def State.portFrom (s : State) (p : Nat) : Option Nat := ((List.range 32).map fun i => (p + i) % 32).find? s.carries

/-- The port that a request takes to a target (Table 24.1): kind 0 pool, 1 package, 2 host. -/
def State.portTo (s : State) (kind node off : Nat) : Option Nat :=
  if kind == 0 then (if s.carries node then some node else none) else s.portFrom ((node + off / 4096 % 256) % 32)

/-- The port that a request to a remote location takes. -/
def State.portOf (s : State) (loc : Nat) : Option Nat :=
  s.portTo (if isHost loc then 2 else 0) (loc / 2 ^ 52 % 64) (loc % 2 ^ 52)

/-- The code of a link's state (Table 24.4). -/
def LinkState.code : LinkState → Nat
  | .down => 0
  | .training => 1
  | .up => 2
  | .degraded => 3
  | .retraining => 4
  | .failed => 5

/-- The link status register (Table 24.4). -/
def Link.word (l : Link) : BitVec 64 :=
  BitVec.ofNat 16 l.crce ++ BitVec.ofNat 16 l.late ++ BitVec.ofNat 16 l.rply ++ BitVec.ofNat 8 l.lanes ++ BitVec.ofBool l.pubs ++ 0#3 ++
  BitVec.ofNat 4 l.state.code

/-- A link after a write of its status register, which takes the counters alone (Table 24.4). -/
def Link.wrote (w : BitVec 64) (l : Link) : Link := { l with crce := field w 63 48, late := field w 47 32, rply := field w 31 16 }

/-- A counter of a link status register saturates (R358). -/
def satLink (n : Nat) : Nat := min 65535 (n + 1)

/-! ### Fabric status (R227, R228) -/

/-- OR bits into the `FABST` of the group that holds a thread now. -/
def State.noteFabst (s : State) (uid : Nat) (bits : Word) : State :=
  match s.thread uid with
  | none => s
  | some t => s.modGroup (s.gidOf t) fun g => { g with fabst := g.fabst ||| bits, fabNow := g.fabNow ||| bits }

/-- A fabric status with one more timeout: `TIMEOUT`, and `TCOUNT` one higher, saturating at 255. -/
def fabTick (w : Word) : Word :=
  let n : Nat := min 255 (w.toNat / 256 % 256 + 1)
  (w &&& 0xFFFF00FF) ||| 1 ||| BitVec.ofNat 32 (256 * n)

/-- A remote timeout of a thread: `TIMEOUT`, and `TCOUNT` rises, saturating at 255 (R141). -/
def State.noteTimeout (s : State) (uid : Nat) : State :=
  match s.thread uid with
  | none => s
  | some t => s.modGroup (s.gidOf t) fun g => { g with fabst := fabTick g.fabst, fabNow := fabTick g.fabNow }

/-- `POISON-SEEN`. -/
def fabPoison : Word := 2
/-- `LINK-LOST`. -/
def fabLinkLost : Word := 4
/-- `PUB-PARTIAL`. -/
def fabPubPartial : Word := 8
/-- `LOST-WRITE`. -/
def fabLostWrite : Word := 16

/-- The operations that a request stands for: itself, or the threads' operations it completes. -/
def State.standsFor (s : State) (o : Op) : List Op := if o.waits.isEmpty then [o] else o.waits.filterMap s.op

/-- The groups of a request's threads get a status. -/
def State.noteOp (s : State) (o : Op) (bits : Word) : State :=
  (s.standsFor o).foldl (fun s x => s.noteFabst x.uid bits) s

/-! ### Histograms and triggers (R394, R395) -/

/-- The key of a unit: kind 0 copy engine, 1 matrix engine, 2 expander, 3 slice group, 4 fabric port, and its number (Table 27.5). -/
def unitKey (kind n : Nat) : Nat := kind * 2 ^ 16 + n

/-- The die of a unit. -/
def unitDie (u : Nat) : Nat :=
  let n := u % 2 ^ 16
  match u / 2 ^ 16 with
  | 0 | 1 | 2 => clusterDie n
  | 3 => n / 4
  | _ => n / 8

/-- The bucket of a latency in cycles (R394). -/
def bucketOf (c : Nat) : Nat := if c ≤ 1 then 0 else min 31 (Nat.log2 c)

/-- The key of a bucket. -/
def bucketKey (u b : Nat) : Nat := 32 * u + b

/-- The key of a unit's count of counted requests. -/
def countKey (u : Nat) : Nat := 2 ^ 40 + u

/-- The key under which a die's trace buffer is frozen, beside those of the units (R395). -/
def frozenDie (die : Nat) : Nat := 2 ^ 24 + die

/-- Apply the action of a trigger that fires (R395). -/
def State.fire (s : State) (u action : Nat) : State :=
  let d := unitDie u
  match action with
  | 1 => { s with sampleDies := insertBy id d (s.sampleDies.filter (· != d)) }
  | 2 => { s with sampleDies := s.sampleDies.filter (· != d) }
  | 3 => { s with filter := some u }
  | 4 => { s with frozen := dedup (u :: frozenDie d :: s.frozen) }
  | 5 => { s with peg := some (s.tick + 64) }
  | _ => s

/-- A unit counts a request of a latency: the trigger fires on a late one, and every 4,096th recomputes its bucket (R394, R395). -/
def State.countLatency (s : State) (u c : Nat) : State :=
  if s.frozen.contains u then s
  else
    let k := bucketKey u (bucketOf c)
    let n := SMap.get 0 s.histo (countKey u) + 1
    let late := match SMap.get none s.trig u with
      | some t => (match t.bucket with | some b => decide (2 ^ (b + 1) ≤ c) | none => false)
      | none => false
    let s := { s with histo := SMap.put 0 (countKey u) n (SMap.put 0 k (min (2 ^ 32 - 1) (SMap.get 0 s.histo k + 1)) s.histo) }
    let s := if late then (match SMap.get none s.trig u with | some t => s.fire u t.action | none => s) else s
    if n % 4096 == 0 then s.post [.histogramThreshold u] else s

/-- A request of an operation that a home or a port has answered counts in the histogram of its slice group or port. -/
def State.countOp (s : State) (o : Op) (slice : Nat) : State :=
  s.countLatency (if o.space == 1 || isRemote o.loc then unitKey 4 (o.port % 32) else unitKey 3 (slice / 16)) (s.tick - o.issued)

/-! ### Hem faults (R209) -/

/-- The key of a hop: kind 1 an HBM row, 2 a slice, 3 a die boundary, 4 a fabric port, 5 a scratchpad row. -/
def hopKey (kind n : Nat) : Nat := kind * 2 ^ 64 + n

/-- The good lanes of a port without the lane that a retirement has disabled, the lowest of them. -/
def State.lanesLeft (s : State) (port lanes : Nat) : Nat :=
  if s.retiredH.contains (hopKey 4 port) then
    match (List.range 8).find? fun i => lanes.testBit i with | some i => lanes - 2 ^ i | none => lanes
  else lanes

/-- A failed check reaches the management microcontroller; syndrome 0x0001 is not counted. -/
def State.hemFault (s : State) (tag : BitVec 64) (loc : Nat) (syn : BitVec 16) : State :=
  if syn == 0 || syn == 1 then s else s.post [.hemFaultReport tag loc syn]

/-! ### Trace buffers (R385) -/

/-- Write a record into a die's trace buffer, which keeps the last 2,048. -/
def State.traceRec (s : State) (die c : Nat) (data : BitVec 256) : State :=
  if s.frozen.contains (frozenDie die) then s
  else
    let s := if (s.trace.filter fun r => r.die == die).length < 2048 then s
      else match s.trace.find? fun r => r.die == die with | some o => { s with trace := s.trace.erase o } | none => s
    { s with trace := s.trace ++ [{ die := die, ctx := c, tick := s.tick, data := data }] }

/-- What a watched access was made by. -/
structure Origin where
  ctx  : Nat
  team : Nat
  gid  : Nat
  slot : Nat
  pkt  : Word
  die  : Nat
  live : Bool
  deriving DecidableEq, Repr

/-- A watch record (R389); the places of its fields after the tick are assumption 18. -/
def watchRecord (tick : Nat) (o : Origin) (addr kind : Nat) : BitVec 256 :=
  BitVec.ofNat 64 tick ++ BitVec.ofNat 64 addr ++ o.pkt ++ BitVec.ofNat 32 o.team ++ BitVec.ofNat 5 o.slot ++
  BitVec.ofNat 6 o.ctx ++ BitVec.ofNat 2 kind ++ (if o.live then 0#1 else 1#1) ++ 0#50

/-- The watches of a context that match an access: kind 1 a read, 2 a write, 3 an atomic (R388). -/
def State.watchesOn (s : State) (c va size kind : Nat) : List (BitVec 128) :=
  match s.ctx c with
  | none => []
  | some x => (x.watches.map fun e => e.2).filter fun w =>
      w.getLsbD 0 && field w 25 24 &&& kind != 0 && va < field w 127 64 + field w 63 32 && field w 127 64 < va + size

/-- A group halts before its next issue: where it is neither active nor SWAPPED-OUT, as soon as it is (Table 11.2). -/
def Group.halt (g : Group) : Group :=
  match g.place with
  | .active | .pending => { g with place := .halted, swapAt := none }
  | .halted => g
  | .forming | .saving | .saved => { g with haltDue := true }

/-- The watches hit by an access: records, halts of the origin's group, a peg 64 ticks on (R389). The second answer says that
an engine's item pauses. -/
def State.watchHit (s : State) (o : Origin) (va size kind : Nat) : State × Bool :=
  (s.watchesOn o.ctx va size kind).foldl (fun r w =>
    let s := r.1.traceRec o.die o.ctx (watchRecord r.1.tick o va kind)
    match field w 23 22 with
    | 1 => (if o.live then s.modGroup o.gid Group.halt else s, r.2)
    | 2 => ({ s with peg := some (s.tick + 64) }, true)
    | _ => (s, r.2)) (s, false)

/-- The origin of a thread's access. -/
def State.originOf (s : State) (t : Thread) : Origin where
  ctx := s.ctxOf t.tid
  team := s.teamIndex t.tid
  gid := s.gidOf t
  slot := t.slot
  pkt := t.pkt
  die := coreDie (s.coreOf t.tid)
  live := true

end Sys2Proof.Machine
end

