-- ==== Sys2Proof/Machine/Operands.lean ====
section
/-! DEFINITION. Every operand form an instruction word has (R36, R38) and the shapes of issue over a gang. -/

namespace Sys2Proof.Machine

/-- What a meaning answers. -/
abbrev Out : Type := Host.Outcome State Fault Refusal

/-- Group s register k as a thread reads it: from before the chain now issuing (R29, R36). -/
def State.sreg (s : State) (t : Thread) (k : Nat) : Word :=
  match t.old with
  | some o => SMap.get 0 o.sregs k
  | none => match s.groupOf t with | some g => g.sv k | none => 0

/-- A 7-bit source field (Table 2.4). -/
def State.src (s : State) (t : Thread) (a : BitVec 7) : Word :=
  if a.toNat < 64 then t.v (s.win t.tid) a.toNat else s.sreg t (a.toNat - 64)

/-- An even source pair, the even register low (R36). -/
def State.srcPair (s : State) (t : Thread) (a : BitVec 7) : BitVec 64 := s.src t (a + 1) ++ s.src t a

/-- A v register named by a 6-bit field. -/
def State.vreg (s : State) (t : Thread) (r : BitVec 6) : Word := t.v (s.win t.tid) r.toNat

/-- Write v registers from number k upward in the thread's window. -/
def State.putV (s : State) (k : Nat) : List Word → Thread → Thread
  | [], t => t
  | x :: xs, t => State.putV s (k + 1) xs (t.setV (s.win t.tid) k x)

/-- The physical registers of n v registers from number k in the thread's current window. -/
def State.phys (s : State) (t : Thread) (k n : Nat) : List Nat :=
  (List.range n).map fun i => physReg (s.win t.tid) t.depth (k + i)

/-- The threads of the gang whose guard is true, in ascending home lane (R38). -/
def State.executing (s : State) (pred : BitVec 3) : List Thread := s.gangThreads.filter fun t => t.p pred

/-- One issue in which each active thread for which `run` holds is changed by f, and every active thread goes on. -/
def State.each (s : State) (run : Thread → Bool) (f : Thread → Thread) : State :=
  { s with threads := s.threads.map fun t =>
      if s.gang.contains t.uid then (if run t then f t else t).next else t }

/-- A guarded instruction that writes one v register. -/
def State.writeV (s : State) (pred : BitVec 3) (dst : BitVec 6) (f : Thread → Word) : State :=
  s.each (fun t => t.p pred) fun t => t.setV (s.win t.tid) dst.toNat (f t)

/-- An instruction that writes one v register of every active thread. -/
def State.writeAll (s : State) (dst : BitVec 6) (f : Thread → Word) : State :=
  s.each (fun _ => true) fun t => t.setV (s.win t.tid) dst.toNat (f t)

/-- A guarded instruction that writes one v register and ORs flags into `FSTAT`. -/
def State.writeVF (s : State) (run : Thread → Bool) (dst : BitVec 6) (f : Thread → Word × BitVec 6) : State :=
  s.each run fun t => ((t.setV (s.win t.tid) dst.toNat (f t).1).orFlags (f t).2)

/-- The lowest-lane thread of a list in a group. -/
def State.lowest (s : State) (ts : List Thread) (gid : Nat) : Option Thread := ts.find? fun t => s.gidOf t == gid

/-- Change each group that has a thread in `ts` by f of that group and its lowest-lane thread there. -/
def State.eachGroup (s : State) (ts : List Thread) (f : Group → Thread → Group) : State :=
  { s with groups := s.groups.map fun g => match s.lowest ts g.gid with | some t => f g t | none => g }

end Sys2Proof.Machine
end

