-- ==== Sys2Proof/WellFormed.lean ====
section
/-! DEFINITION. Which field values an instruction word may hold (R36, R38, R39, R43, R44 and each instruction's chapter).
A word that breaks one of these raises ILLEGAL-ENCODING; `Instr.wf` is the whole check for each constructor. -/

namespace Sys2Proof

/-- An even register number in a 7-bit source field names a v or s pair (R36). -/
def evenPair (a : BitVec 7) : Bool := a.getLsbD 0 == false

/-- An even register number in a 6-bit field names a v pair (R36). -/
def evenReg (d : BitVec 6) : Bool := d.getLsbD 0 == false

/-- The source field names an s register (Table 2.4). -/
def isS (a : BitVec 7) : Bool := a.getLsbD 6

/-- A flag field names f0 to f11 or none (Table 2.1). -/
def flagOk (x : BitVec 4) : Bool := x.toNat < 12 || x == 15

/-- The width code is listed and the data register is aligned to it (R36, R43, R131). -/
def dataOk (w : BitVec 3) (data : BitVec 6) : Bool :=
  match w.toNat with
  | 0 | 1 | 2 => true
  | 3 => evenReg data
  | 4 => data.toNat % 4 == 0
  | _ => false

/-- The atomic code exists at the width, the data registers are aligned and a `CAS` stays within v63 (R44, R138). -/
def atomicOk (wide : Bool) (aop : BitVec 4) (data : BitVec 6) : Bool :=
  (if wide then aop.toNat ≤ 9 && evenReg data else aop.toNat ≤ 11) &&
  (aop != 9 || (if wide then data.toNat ≤ 60 else data.toNat ≤ 62))

/-- The `SETP` type is a float type: F32, F16 or BF16 (R39). -/
def isFloatCmp (t : BitVec 3) : Bool := t == 2 || t == 3 || t == 4

/-- The conversion is one whose `rnd` must be 0: integer to integer, into a type that holds every source value, or into
E4M3 (R112). Type codes as in R39. -/
def exactOrFixed (s d : BitVec 4) : Bool :=
  match d.toNat with
  | 6 => s != 2 && s != 5
  | 7 => s == 0 || s == 3 || s == 7 || s == 9
  | 8 => s == 0 || s == 3 || s == 8 || s == 9
  | 9 => true
  | _ => s.toNat ≤ 5

/-- The field values of the instruction are ones its word may hold. A debug-port command's data block is 32 bytes (R386);
the other steps of units and commands have no encoding and are always well-formed. -/
def Instr.wf : Instr → Bool
  | .clause f => flagOk f.flagA && flagOk f.flagB
  | .bra _ => true
  | .braNegated f => f.pred != 7
  | .call _ => true
  | .seam _ => true
  | .brx _ => true
  | .callx _ => true
  | .ret _ => true
  | .nop _ => true
  | .yield _ => true
  | .exit _ => true
  | .trap _ => true
  | .rft _ => true
  | .mon f => evenPair f.a
  | .mwait _ => true
  | .fence f => f.kind != 0 && f.scope.toNat ≤ 4
  | .bkpt _ => true
  | .add _ => true
  | .sub _ => true
  | .mullo _ => true
  | .mulhiI _ => true
  | .mulhiN _ => true
  | .minI _ => true
  | .maxI _ => true
  | .minN _ => true
  | .maxN _ => true
  | .and _ => true
  | .or _ => true
  | .xor _ => true
  | .andn _ => true
  | .shl _ => true
  | .shr _ => true
  | .sar _ => true
  | .adds _ => true
  | .subs _ => true
  | .shrr _ => true
  | .popc _ => true
  | .clz _ => true
  | .bfe _ => true
  | .addw f => evenReg f.dst && evenPair f.a && evenPair f.b
  | .mulw f => evenReg f.dst
  | .ffmaF32 _ => true
  | .ffmaF16x2 _ => true
  | .ffmaBf16x2 _ => true
  | .madI32 _ => true
  | .dot2I16 _ => true
  | .dot4I8 _ => true
  | .faddF32 _ => true
  | .fmulF32 _ => true
  | .fminF32 _ => true
  | .fmaxF32 _ => true
  | .faddF16x2 _ => true
  | .fmulF16x2 _ => true
  | .faddBf16x2 _ => true
  | .fmulBf16x2 _ => true
  | .setp f => f.pdst != 7 && f.type.toNat ≤ 5 && (f.cond.toNat < 6 || isFloatCmp f.type)
  | .rcp _ => true
  | .rsq _ => true
  | .sqrt _ => true
  | .exp2 _ => true
  | .log2 _ => true
  | .tanh _ => true
  | .cvt f => f.stype.toNat ≤ 9 && f.dtype.toNat ≤ 9 && (f.rnd == 0 || !exactOrFixed f.stype f.dtype)
  | .cvtSlotSource f => f.dtype.toNat ≤ 9
  | .cvtSlotDest f => f.stype.toNat ≤ 9
  | .movi _ => true
  | .movhi _ => true
  | .addi _ => true
  | .andi _ => true
  | .ori _ => true
  | .xori _ => true
  | .shli f => f.imm.toNat < 32
  | .shri f => f.imm.toNat < 32
  | .slide _ => true
  | .slideh f => isS f.b
  | .shfl _ => true
  | .bcast f => f.n.toNat < 32
  | .ballot _ => true
  | .actmask _ => true
  | .redadd _ => true
  | .redmax _ => true
  | .mov _ => true
  | .sel _ => true
  | .movsv f => isS f.a
  | .movvs _ => true
  | .rdsp f => f.a.toNat < 16 && (!(f.a == 8 || f.a == 9) || evenReg f.dst)
  | .wrsp f => f.num == 10 || f.num == 11
  | .sadd f => isS f.a && isS f.b
  | .ssub f => isS f.a && isS f.b
  | .smul f => isS f.a && isS f.b
  | .sand f => isS f.a && isS f.b
  | .sor f => isS f.a && isS f.b
  | .sxor f => isS f.a && isS f.b
  | .sshl f => isS f.a && isS f.b
  | .sshr f => isS f.a && isS f.b
  | .ldp f => dataOk f.w f.data
  | .stp f => dataOk f.w f.data
  | .ldsc f => dataOk f.w f.data
  | .stsc f => dataOk f.w f.data
  | .atsc f => atomicOk f.wide f.aop f.data
  | .ldcl f => dataOk f.w f.data
  | .stcl f => dataOk f.w f.data
  | .atcl f => atomicOk f.wide f.aop f.data
  | .ldds f => dataOk f.w f.data
  | .stds f => dataOk f.w f.data
  | .atds f => atomicOk f.wide f.aop f.data
  | .ldg f => dataOk f.w f.data && evenPair f.a
  | .stg f => dataOk f.w f.data && evenPair f.a
  | .atg f => atomicOk f.wide f.aop f.data && evenPair f.a
  | .pfg f => evenPair f.a && f.level != 3
  | .ldf f => dataOk f.w f.data && evenPair f.a
  | .stf f => dataOk f.w f.data && evenPair f.a
  | .atf f => atomicOk f.wide f.aop f.data && evenPair f.a
  | .pubf f => evenPair f.a
  | .cpy f => isS f.d && isS f.bar
  | .cpyt f => isS f.d && isS f.bar
  | .cpyx f => isS f.d && isS f.bar
  | .cpys f => isS f.d && isS f.bar
  | .mma f => f.desc.getLsbD 0 == false && f.desc.toNat ≤ 58 && !(f.ra && (f.shape == 0 || f.shape == 2)) && !(f.rb && (f.shape == 0 || f.shape == 1)) && (f.rep == 0 || !(f.ra || f.rb))
  | .accz _ => true
  | .accrd f => f.ra != f.rb
  | .accwr f => f.ra != f.rb
  | .accnorm _ => true
  | .mfence _ => true
  | .binit _ => true
  | .barv _ => true
  | .bexp _ => true
  | .bwait _ => true
  | .btest f => f.pd != 7
  | .bretire _ => true
  | .gbar _ => true
  | .tbar _ => true
  | .gjoin _ => true
  | .ginfo _ => true
  | .fabclr _ => true
  | .wspill _ => true
  | .wfill _ => true
  | .sqclaim f => evenReg f.dst
  | .sqpub f => evenPair f.b
  | .sqacq f => evenReg f.dst && evenPair f.b
  | .sqret _ => true
  | .sqinfo f => f.dst.toNat % 4 == 0
  | .press f => f.region.toNat < 16
  | .launch f => evenPair f.a && f.a.toNat % 64 ≤ 60
  | .pgprobe f => evenReg f.dst && evenPair f.a
  | .pgpref f => evenPair f.a
  | .sysrd _ => true
  | .sysrdPeek _ => true
  | .syswr _ => true
  | .pegarm f => evenPair f.a
  | .driftStep => true
  | .loadReturn _ => true
  | .storeAck _ => true
  | .atomicReturn _ => true
  | .sfuResult _ => true
  | .homeLoadRequest _ => true
  | .homeWriteThrough _ => true
  | .homeOwnedRequest _ => true
  | .ownedGrant _ => true
  | .grantAcknowledge _ _ => true
  | .forwardReceive _ _ => true
  | .recallReceive _ _ => true
  | .ownerAnswer _ _ _ => true
  | .writeBackReceive _ _ _ => true
  | .writeBackAck _ _ _ => true
  | .fillReply _ => true
  | .writeThroughAck _ => true
  | .requestRefusedResend _ => true
  | .packageRebase => true
  | .floorMessage _ _ _ _ => true
  | .mwaitWake _ _ => true
  | .mwaitTimeout _ => true
  | .remoteTimeout _ => true
  | .lateReplyDrop _ => true
  | .fairnessOverdue _ => true
  | .gangDemotion _ => true
  | .parkedPathTakeover _ => true
  | .noProgress _ => true
  | .urgencyEvaluation _ => true
  | .swapOut _ _ => true
  | .forcedSwap _ _ => true
  | .freePositionSwapIn _ => true
  | .swapComplete _ => true
  | .collectiveAccept _ _ => true
  | .granuleLand _ => true
  | .matrixPassGrant _ => true
  | .matrixPassEnd _ => true
  | .tileOpApply _ => true
  | .sqclaimRequest _ => true
  | .sqpubRequest _ => true
  | .sqacqRequest _ => true
  | .sqretRequest _ => true
  | .sqinfoRequest _ => true
  | .sqacqReply _ => true
  | .sequenceReply _ => true
  | .sequenceResend _ => true
  | .pageWalk _ _ _ _ => true
  | .pageRequestRetry _ => true
  | .launchHeadRead _ => true
  | .dispatchSlotTake _ => true
  | .launchDispatch _ => true
  | .teamPlace _ => true
  | .launchStampWrite _ => true
  | .hostProdWrite _ _ _ => true
  | .flitReceive _ _ _ => true
  | .flitResend _ _ => true
  | .linkTrainingDone _ _ => true
  | .retrainLimitExpiry _ => true
  | .linkStateReport _ _ _ _ => true
  | .linkReroute _ => true
  | .lostWrite _ => true
  | .exportRead _ _ _ => true
  | .pubChunkReceive _ => true
  | .pubRefusedReturn _ _ _ _ => true
  | .pubAckReceive _ _ _ => true
  | .pubDeadline _ => true
  | .ptpSync _ => true
  | .preemptRemoteBound _ => true
  | .teardownNodeAck _ _ => true
  | .teardownBound _ => true
  | .create _ => true
  | .start _ => true
  | .preempt _ => true
  | .resume _ => true
  | .teardown _ => true
  | .qenable _ => true
  | .qdrain _ => true
  | .qclear _ => true
  | .dgrant _ => true
  | .drevoke _ => true
  | .region _ => true
  | .invalidate _ => true
  | .resolve _ => true
  | .halt c => c.data.length == 32
  | .debugResume c => c.data.length == 32
  | .staterd c => c.data.length == 32
  | .edit c => c.data.length == 32
  | .memrd c => c.data.length == 32
  | .memwr c => c.data.length == 32
  | .commit c => c.data.length == 32
  | .discard c => c.data.length == 32
  | .breakSet c => c.data.length == 32
  | .watch c => c.data.length == 32
  | .trace c => c.data.length == 32
  | .sample c => c.data.length == 32
  | .histo c => c.data.length == 32
  | .trigger c => c.data.length == 32
  | .peg c => c.data.length == 32
  | .scan c => c.data.length == 32
  | .go c => c.data.length == 32
  | .pegStop => true
  | .sampleTag _ => true
  | .histogramThreshold _ => true
  | .abortWrite _ => true
  | .windowLengthWrite _ => true
  | .retrainLimitWrite _ => true
  | .fabricTableInstall _ => true
  | .dieScratchpadContribWrite _ => true
  | .systemRegisterWrite _ => true
  | .hemFaultReport _ _ _ => true
  | .startSequence _ => true
  | .attestationRequest _ _ => true
  | .malformedWord _ _ _ => true
  | .issueSlotWithheld _ _ => true
  | .firmwareQueuePost _ => true
  | .linkTrainingStart _ => true
  | .bufferDefect _ _ => true
  | .granuleCorruption _ _ => true
  | .powerLoss => true
  | .failureCountClear _ _ => true

end Sys2Proof
end

