-- ==== Sys2Proof/Machine/Flags.lean ====
section
/-! DEFINITION. Every result that comes with flags: saturating arithmetic (R50), the float operations under a group's `FMODE`
(R54, R55, R59), comparison (R108), conversion (R60, R111) and the special functions (R109, R110). -/

namespace Sys2Proof.Machine

/-! ### Integers -/

/-- Clamp an exact value to I32, with `SAT` where it was clamped (R50). -/
def satI32 (v : Int) : Word × BitVec 6 :=
  if v < -(2 ^ 31 : Nat) then (0x80000000, fSAT)
  else if ((2 ^ 31 : Nat) : Int) ≤ v then (0x7FFFFFFF, fSAT)
  else (BitVec.ofInt 32 v, 0)

/-- The rounding arithmetic shift (R51). -/
def shiftRoundRight (a b : Word) : Word :=
  let n := b.toNat % 32
  if n == 0 then a else BitVec.ofInt 32 ((a.toInt + (2 ^ (n - 1) : Nat)) / (2 ^ n : Nat))

/-- Leading zero bits of the low n bits. -/
def leadingZeros : Nat → Nat → Nat
  | 0, _ => 0
  | n + 1, v => if v / 2 ^ n % 2 == 1 then 0 else leadingZeros n v + 1

/-- The number of 1 bits among the low n. -/
def popCount : Nat → Nat → Nat
  | 0, _ => 0
  | n + 1, v => v / 2 ^ n % 2 + popCount n v

/-- The extracted field of `BFE` (R104). -/
def bitField (a b : Word) : Word :=
  let n := field b 13 8
  let f := a.toNat / 2 ^ field b 4 0 % 2 ^ min n 32
  if b.getLsbD 15 && 1 ≤ n && n ≤ 31 then BitVec.ofInt 32 (sext f n) else BitVec.ofNat 32 f

/-- A shift amount is the whole of b (R102). -/
def shiftLeft (a b : Word) : Word := if b.toNat < 32 then a <<< b.toNat else 0
/-- Logical shift by the whole of b (R102). -/
def shiftRight (a b : Word) : Word := if b.toNat < 32 then a >>> b.toNat else 0
/-- Arithmetic shift by the whole of b (R102). -/
def shiftArith (a b : Word) : Word := a.sshiftRight (min b.toNat 32)

/-- Signed minimum. -/
def minI (a b : Word) : Word := if a.toInt ≤ b.toInt then a else b
/-- Signed maximum. -/
def maxI (a b : Word) : Word := if a.toInt ≤ b.toInt then b else a
/-- Unsigned minimum. -/
def minN (a b : Word) : Word := if a.toNat ≤ b.toNat then a else b
/-- Unsigned maximum. -/
def maxN (a b : Word) : Word := if a.toNat ≤ b.toNat then b else a

/-- High half of the signed product. -/
def mulHiI (a b : Word) : Word := BitVec.ofInt 32 (a.toInt * b.toInt / (2 ^ 32 : Nat))
/-- High half of the unsigned product. -/
def mulHiN (a b : Word) : Word := BitVec.ofNat 32 (a.toNat * b.toNat / 2 ^ 32)

/-- Halfword i of a register (R48). -/
def half (w : Word) (i : Nat) : BitVec 16 := w.extractLsb' (16 * i) 16
/-- Byte i of a register (R48). -/
def byteOf (w : Word) (i : Nat) : BitVec 8 := w.extractLsb' (8 * i) 8

/-- The exact sum of `DOT2.I16` (R50). -/
def dot2 (a b c : Word) : Int :=
  c.toInt + (half a 0).toInt * (half b 0).toInt + (half a 1).toInt * (half b 1).toInt
/-- The exact sum of `DOT4.I8` (R50). -/
def dot4 (a b c : Word) : Int :=
  c.toInt + (byteOf a 0).toInt * (byteOf b 0).toInt + (byteOf a 1).toInt * (byteOf b 1).toInt
    + (byteOf a 2).toInt * (byteOf b 2).toInt + (byteOf a 3).toInt * (byteOf b 3).toInt

/-! ### Float operations under a mode -/

/-- Rounding mode of `FMODE` (Table 3.2). -/
def modeRm (m : BitVec 4) : Nat := field m 1 0
/-- `FTZ` of `FMODE`. -/
def modeFtz (m : BitVec 4) : Bool := m.getLsbD 2
/-- `NANM` of `FMODE`. -/
def modeNanm (m : BitVec 4) : Bool := m.getLsbD 3

/-- The `FMODE` a thread's word works under: its own group's, from before the chain now issuing (R29, R55). -/
def State.mode (s : State) (t : Thread) : BitVec 4 :=
  match t.old with
  | some o => o.fmode
  | none => match s.groupOf t with | some g => g.fmode | none => 0

/-- A code and flags as a word and flags. -/
def word32 (r : Nat × BitVec 6) : Word × BitVec 6 := (BitVec.ofNat 32 r.1, r.2)

/-- A packed operation on two halfword elements, its flags the OR of both (R48). -/
def packed (op : Nat → Nat → Nat → Nat × BitVec 6) (a b c : Word) : Word × BitVec 6 :=
  let lo := op (half a 0).toNat (half b 0).toNat (half c 0).toNat
  let hi := op (half a 1).toNat (half b 1).toNat (half c 1).toNat
  (BitVec.ofNat 16 hi.1 ++ BitVec.ofNat 16 lo.1, lo.2 ||| hi.2)

/-- F16 is never flushed (R59). -/
def ftzOf (f : Fmt) (m : BitVec 4) : Bool := f.ebits == 8 && modeFtz m

/-- F32 addition under a mode. -/
def fadd32 (m : BitVec 4) (a b : Word) : Word × BitVec 6 := word32 (F32.add (modeRm m) (modeFtz m) a.toNat b.toNat)
/-- F32 multiplication under a mode. -/
def fmul32 (m : BitVec 4) (a b : Word) : Word × BitVec 6 := word32 (F32.mul (modeRm m) (modeFtz m) a.toNat b.toNat)
/-- F32 minimum or maximum under a mode. -/
def fpick32 (lower : Bool) (m : BitVec 4) (a b : Word) : Word × BitVec 6 :=
  word32 (F32.pick lower (modeNanm m) (modeFtz m) a.toNat b.toNat)
/-- F32 fused multiply-add under a mode. -/
def ffma32 (m : BitVec 4) (a b c : Word) : Word × BitVec 6 :=
  word32 (F32.fma (modeRm m) (modeFtz m) a.toNat b.toNat c.toNat)
/-- Packed addition. -/
def faddPacked (f : Fmt) (m : BitVec 4) (a b : Word) : Word × BitVec 6 :=
  packed (fun x y _ => f.add (modeRm m) (ftzOf f m) x y) a b 0
/-- Packed multiplication. -/
def fmulPacked (f : Fmt) (m : BitVec 4) (a b : Word) : Word × BitVec 6 :=
  packed (fun x y _ => f.mul (modeRm m) (ftzOf f m) x y) a b 0
/-- Packed fused multiply-add. -/
def ffmaPacked (f : Fmt) (m : BitVec 4) (a b c : Word) : Word × BitVec 6 :=
  packed (fun x y z => f.fma (modeRm m) (ftzOf f m) x y z) a b c

/-! ### Comparison (R39, R108) -/

/-- The relation of an order result: `cond` bits 2:1 select EQ, LT, LE or UN and bit 0 negates. -/
def relation (cond : BitVec 3) (o : Option Ordering) : Bool :=
  let r := match field cond 2 1 with
    | 0 => o == some .eq
    | 1 => o == some .lt
    | 2 => o == some .lt || o == some .eq
    | _ => o == none
  r != cond.getLsbD 0

/-- The order of two codes of a float format, none where either is a NaN, and whether either is signalling. -/
def Fmt.order (f : Fmt) (ftz : Bool) (a b : Nat) : Option Ordering × Bool :=
  let x := f.readFtz ftz a
  let y := f.readFtz ftz b
  (if x.isNan || y.isNan then none else some (x.cmp y), x.snan || y.snan)

/-- The comparison of `SETP` by type: 0 I32, 1 N32, 2 F32, 3 F16, 4 BF16, 5 I16. -/
def compareAs (m : BitVec 4) (type : BitVec 3) (a b : Word) : Option Ordering × Bool :=
  match type.toNat with
  | 0 => (some (compare a.toInt b.toInt), false)
  | 1 => (some (compare a.toNat b.toNat), false)
  | 2 => F32.order (modeFtz m) a.toNat b.toNat
  | 3 => F16.order false (half a 0).toNat (half b 0).toNat
  | 4 => BF16.order (modeFtz m) (half a 0).toNat (half b 0).toNat
  | _ => (some (compare (half a 0).toInt (half b 0).toInt), false)

/-! ### Conversion (R60, R111) -/

/-- The float format of a type code, none for an integer type (R39). -/
def cvtFmt : Nat → Option Fmt
  | 6 => some F32
  | 7 => some F16
  | 8 => some BF16
  | 9 => some E4M3
  | _ => none

/-- The bits of an integer type code. -/
def cvtBits (t : Nat) : Nat := match t % 3 with | 0 => 8 | 1 => 16 | _ => 32
/-- An integer type code is signed. -/
def cvtSigned (t : Nat) : Bool := t < 3
/-- Least value of an integer type. -/
def cvtLo (t : Nat) : Int := if cvtSigned t then -(2 ^ (cvtBits t - 1) : Nat) else 0
/-- Greatest value of an integer type. -/
def cvtHi (t : Nat) : Int := if cvtSigned t then (2 ^ (cvtBits t - 1) : Nat) - 1 else (2 ^ cvtBits t : Nat) - 1
/-- The integer a source holds. -/
def cvtInt (t : Nat) (x : Word) : Int :=
  if cvtSigned t then sext x.toNat (cvtBits t) else (x.toNat % 2 ^ cvtBits t : Nat)
/-- The register an integer result is written as: sign-extended for signed types, zero-extended for natural ones. -/
def cvtOut (t : Nat) (v : Int) : Word :=
  cvtIntWord (v % (2 ^ cvtBits t : Nat)).toNat
where
  cvtIntWord (n : Nat) : Word := if cvtSigned t then BitVec.ofInt 32 (sext n (cvtBits t)) else BitVec.ofNat 32 n

/-- A result of a float destination that overflowed is clamped under `.SAT`, with `SAT` and `NX` instead of `OF`. -/
def satFloat (f : Fmt) (sat neg : Bool) (r : Nat × BitVec 6) : Nat × BitVec 6 :=
  if sat && (r.2 &&& fOF != 0) then (f.signed neg f.maxFin, fSAT ||| fNX) else r

/-- An infinite source for a narrower destination (Table 3.4). -/
def cvtInf (f : Fmt) (exact sat neg : Bool) : Nat × BitVec 6 :=
  if exact then (f.signed neg f.top, 0)
  else if sat then (f.signed neg f.maxFin, fSAT ||| fNX)
  else if f.inf then (f.signed neg f.top, 0)
  else (f.qnan, fOF ||| fNX)

/-- One conversion: source and destination type codes, rounding, saturation and the group's `FTZ`. -/
def convert (ftz : Bool) (st dt rnd : Nat) (sat : Bool) (x : Word) : Word × BitVec 6 :=
  match cvtFmt st, cvtFmt dt with
  | none, none =>
    let v := cvtInt st x
    if sat && v < cvtLo dt then (cvtOut dt (cvtLo dt), fSAT)
    else if sat && cvtHi dt < v then (cvtOut dt (cvtHi dt), fSAT)
    else (cvtOut dt v, 0)
  | none, some f =>
    let v := cvtInt st x
    word32 (satFloat f sat (v < 0) (f.ofInt rnd v))
  | some g, none =>
    let clamp (v : Int) : Word × BitVec 6 := (cvtOut dt v, fNV ||| (if sat then fSAT else 0))
    match g.read (x.toNat % (2 * g.signBit)) with
    | .nan _ => (0, fNV ||| (if sat then fSAT else 0))
    | .inf neg => clamp (if neg then cvtLo dt else cvtHi dt)
    | .fin neg m e =>
      let r := toIntRound rnd neg m e
      if r.1 < cvtLo dt then clamp (cvtLo dt)
      else if cvtHi dt < r.1 then clamp (cvtHi dt)
      else (cvtOut dt r.1, if r.2 then fNX else 0)
  | some g, some f =>
    let flush := ftz && f.ebits == 8
    let exact := exactOrFixed (BitVec.ofNat 4 st) (BitVec.ofNat 4 dt) && dt != 9
    match g.readFtz (flush && g.ebits == 8) (x.toNat % (2 * g.signBit)) with
    | .nan sig => word32 (f.qnan, if sig then fNV else 0)
    | .inf neg => word32 (cvtInf f exact sat neg)
    | .fin neg m e => word32 (satFloat f sat neg (f.round rnd flush neg m e false))

/-- The type code that a slot's A element format stands for (R111). -/
def slotType (w : BitVec 64) : Nat :=
  match slotAfmt w with | 0 => 9 | 1 => 0 | 2 => 8 | _ => 7

/-! ### Special functions (R109, R110) -/

/-- The integer part of a square root, found bit by bit from bit n down. -/
def isqrt : Nat → Nat → Nat → Nat
  | 0, _, r => r
  | n + 1, v, r => if (r + 2 ^ n) * (r + 2 ^ n) ≤ v then isqrt n v (r + 2 ^ n) else isqrt n v r

/-- 1/x of a nonzero finite value, correctly rounded (RNE). -/
def rcpFin (ftz neg : Bool) (m : Nat) (e : Int) : Nat × BitVec 6 :=
  let k := Nat.log2 m + 40
  F32.round 0 ftz neg (2 ^ k / m) (-(k : Int) - e) (2 ^ k % m != 0)

/-- √x of a positive finite value, correctly rounded (RNE). -/
def sqrtFin (ftz : Bool) (m : Nat) (e : Int) : Nat × BitVec 6 :=
  let p : Nat := if e % 2 == 0 then 60 else 61
  let v := m * 2 ^ p
  let r := isqrt 64 v 0
  F32.round 0 ftz false r ((e - p) / 2) (r * r != v)

/-- How far above a code of significand n an exact result may lie that is N units off, in half units: an ulp is the spacing at the exact result,
so units above the next power of two are double (R109). -/
def above (N n : Nat) : Nat := if 2 ^ 24 ≤ n + N then 4 * N else 2 * N

/-- How far below the code n · 2^d an exact result may lie, in half units: units below the power of two that begins the code's own binade are
half as large. -/
def below (N n : Nat) (d : Int) : Nat :=
  if d ≤ F32.emin || 2 ^ 23 + N ≤ n then 2 * N else if 2 * n < 2 ^ 24 + N then N else 2 * n - 2 ^ 24

/-- The code meets R109's bound of one unit for 1/√x: (v − ulp)² · x ≤ 1 ≤ (v + ulp)² · x, in half units of the code. -/
def rsqOk (m : Nat) (e : Int) (c : Nat) : Bool :=
  match F32.read c with
  | .fin false n d =>
    let lo := (2 * n - below 1 n d) * (2 * n - below 1 n d) * m
    let hi := (2 * n + above 1 n) * (2 * n + above 1 n) * m
    let ex := d + d + e - 2
    n != 0 && lo * 2 ^ ex.toNat ≤ 2 ^ (-ex).toNat && 2 ^ (-ex).toNat ≤ hi * 2 ^ ex.toNat
  | _ => false

/-- Whether 2^(a/2^k) ≤ m · 2^e, compared exactly: 2^a ≤ (m · 2^e)^(2^k). -/
def exp2Le (a : Int) (k m : Nat) (e : Int) : Bool :=
  let p := a - e * (2 ^ k : Nat)
  2 ^ p.toNat ≤ m ^ 2 ^ k * 2 ^ (-p).toNat

/-- Whether m · 2^e ≤ 2^(a/2^k), compared exactly: (m · 2^e)^(2^k) ≤ 2^a. -/
def exp2Ge (a : Int) (k m : Nat) (e : Int) : Bool :=
  let p := a - e * (2 ^ k : Nat)
  m ^ 2 ^ k * 2 ^ (-p).toNat ≤ 2 ^ p.toNat

/-- The code of a power of two that F32 holds. -/
def powCode (k : Int) : Nat := (F32.round 0 false false 1 k false).1

/-- The code meets R109's bound of two units for 2^x, x = ±m · 2^e, and lies between the exact results at the integers about x. -/
def exp2Ok (neg : Bool) (m : Nat) (e : Int) (c : Nat) : Bool :=
  let q := min e 0
  let a := scaled neg m e q
  let k := (-q).toNat
  match F32.read c with
  | .fin false n d =>
    exp2Le a k (2 * n + above 2 n) (d - 1) && (2 * n ≤ below 2 n d || exp2Ge a k (2 * n - below 2 n d) (d - 1)) &&
    (a / (2 ^ k : Nat) < -149 || powCode (a / (2 ^ k : Nat)) ≤ c) && (127 ≤ a / (2 ^ k : Nat) || c ≤ powCode (a / (2 ^ k : Nat) + 1))
  | _ => false

/-- The place of a code in the ascending order of F32 values. -/
def f32Place (c : Nat) : Nat := if c < F32.signBit then F32.signBit + c else 2 * F32.signBit - 1 - c

/-- The code at a place. -/
def f32At (o : Nat) : Nat := if o < F32.signBit then 2 * F32.signBit - 1 - o else o - F32.signBit

/-- The F32 code of an integer. -/
def intCode (v : Int) : Nat := (F32.ofInt 0 v).1

/-- The code meets R109's bound for log₂ x, x = m · 2^e: absolute 2^−22 for 0.5 ≤ x ≤ 2, else two units; it lies between the exact results at
the powers of two about x. -/
def log2Ok (m : Nat) (e : Int) (c : Nat) : Bool :=
  match F32.read c with
  | .fin neg n d =>
    let top : Int := e + (Nat.log2 m : Nat)
    let near := -1 ≤ top && top ≤ 0
    let q := if near then min (d - 1) (-22) else d - 1
    let tol (up : Bool) : Int := if near then (2 ^ (-22 - q).toNat : Nat) else if up then (above 2 n : Nat) else (below 2 n d : Nat)
    let y := scaled neg n d q
    let k := (-q).toNat
    let at_ (v : Int) : Int := if q < 0 then v else v * (2 ^ q.toNat : Nat)
    exp2Le (at_ (y - tol neg)) k m e && exp2Ge (at_ (y + tol !neg)) k m e &&
    f32Place (intCode top) ≤ f32Place c && f32Place c ≤ f32Place (intCode (top + 1))
  | _ => false

/-- e^(y/F) in units of 1/F, by its series: n terms from the k-th on. -/
def expSeries (F y : Nat) : Nat → Nat → Nat → Nat
  | 0, _, _ => 0
  | n + 1, k, term => term + expSeries F y n (k + 1) (term * y / ((k + 1) * F))

/-- tanh x for 0 < x < 10, x = m · 2^e, as a fraction that is off by less than one part in 2^64: x − x³/3 below 2^−16, else from the
series of e^(2x). -/
def tanhFrac (m : Nat) (e : Int) : Nat × Nat :=
  if e + (Nat.log2 m : Nat) < -16 then
    let q := 2 ^ (-e).toNat
    (m * (3 * q * q - m * m), 3 * q * q * q)
  else
    let F := 2 ^ 256
    let E := expSeries F (m * 2 ^ (257 + e).toNat) 200 0 F
    (E - F, E + F)

/-- How far apart two numbers are. -/
def natDist (a b : Nat) : Nat := max a b - min a b

/-- The greatest F32 value whose tanh is below 2^−b, for b from 1 to 3, as a significand and an exponent: above it a unit is twice as large. -/
def tanhTurn : Nat → Nat × Int
  | 1 => (9215827, -24)
  | 2 => (8570231, -25)
  | _ => (8432712, -26)

/-- The code meets R109's bound for tanh x, x = m · 2^e positive and below 10: two units from 2^−3 on, and a relative error of 2^−21 below; it
does not pass 1, and it lies where the smaller and the greater operands leave room for it: not below what an operand with half the unit must
give, and below 2^−3 not above what 2^−3 itself may give. -/
def tanhOk (m : Nat) (e : Int) (c : Nat) : Bool :=
  match F32.read c with
  | .fin false n d =>
    let (p, q) := tanhFrac m e
    let s := 2 ^ (-d).toNat
    let b : Nat := if q ≤ 2 * p then 1 else if q ≤ 4 * p then 2 else if q ≤ 8 * p then 3 else 4
    c ≤ intCode 1 &&
    if -3 ≤ e + (Nat.log2 m : Nat) then
      let t := tanhFrac (tanhTurn b).1 (tanhTurn b).2
      natDist (n * q) (p * s) * 2 ^ (22 + b) ≤ q * s && (b == 4 || t.1 * s * 2 ^ (23 + b) ≤ (n * t.2) * 2 ^ (23 + b) + s * t.2)
    else
      let t := tanhFrac 1 (-3)
      natDist (n * q) (p * s) * 2 ^ 21 ≤ p * s && n * t.2 * 2 ^ 26 ≤ s * (t.1 * 2 ^ 26 + t.2)
  | _ => false

/-- The result that a part gives where a bound leaves a choice: of the codes that the bound admits, the greatest whose operands begin no later
than this one, else the least (a zero where there were none). So the results rise with `key`. -/
def chosen (fn key : Nat) (ok : Nat → Bool) : Nat :=
  let os := (List.range (2 * F32.signBit)).filter fun o => ok (f32At o)
  f32At (os.foldl (fun r o => if Config.sfuFrom fn o ≤ key then o else r) (os.headD F32.signBit))

/-- An SFU result that is subnormal is flushed without a flag where `FTZ` is set (R59, R109). -/
def sfuFlush (ftz : Bool) (c : Nat) : Nat := if ftz && F32.subnormal c then F32.zero (c / F32.signBit % 2 == 1) else c

/-- The SFU keeps only `NV`, `DZ` and `OF` (R109). -/
def sfuFlags (f : BitVec 6) : BitVec 6 := f &&& (fNV ||| fDZ ||| fOF)

/-- `RCP` (Tables 5.9, 5.10). -/
def sfuRcp (ftz : Bool) (x : Word) : Word × BitVec 6 :=
  match F32.readFtz ftz x.toNat with
  | .nan sig => word32 (F32.qnan, if sig then fNV else 0)
  | .inf neg => word32 (F32.zero neg, 0)
  | .fin neg 0 _ => word32 (F32.signed neg F32.top, fDZ)
  | .fin neg m e => let r := rcpFin ftz neg m e; word32 (r.1, sfuFlags r.2)

/-- `SQRT` (Tables 5.9, 5.10). -/
def sfuSqrt (ftz : Bool) (x : Word) : Word × BitVec 6 :=
  match F32.readFtz ftz x.toNat with
  | .nan sig => word32 (F32.qnan, if sig then fNV else 0)
  | .inf neg => word32 (if neg then (F32.qnan, fNV) else (F32.top, 0))
  | .fin neg 0 _ => word32 (F32.zero neg, 0)
  | .fin true _ _ => word32 (F32.qnan, fNV)
  | .fin false m e => let r := sqrtFin ftz m e; word32 (r.1, sfuFlags r.2)

/-- `RSQ`: what the bound leaves open is free, and falls as x rises (assumption 10). -/
def sfuRsq (ftz : Bool) (x : Word) : Word × BitVec 6 :=
  match F32.readFtz ftz x.toNat with
  | .nan sig => word32 (F32.qnan, if sig then fNV else 0)
  | .inf neg => word32 (if neg then (F32.qnan, fNV) else (F32.zero false, 0))
  | .fin neg 0 _ => word32 (F32.signed neg F32.top, fDZ)
  | .fin true _ _ => word32 (F32.qnan, fNV)
  | .fin false m e => word32 (chosen 1 (F32.signBit - x.toNat) (rsqOk m e), 0)

/-- `EXP2`: what the bound leaves open is free, and rises with x (assumption 10). -/
def sfuExp2 (ftz : Bool) (x : Word) : Word × BitVec 6 :=
  match F32.readFtz ftz x.toNat with
  | .nan sig => word32 (F32.qnan, if sig then fNV else 0)
  | .inf neg => word32 (if neg then F32.zero false else F32.top, 0)
  | .fin _ 0 _ => word32 (intCode 1, 0)
  | .fin neg m e =>
    let r := toIntRound 1 neg m e
    if !neg && 128 ≤ r.1 then word32 (F32.top, fOF)
    else if neg && (r.1 < -150 || (r.1 == -150 && r.2)) then word32 (F32.zero false, 0)
    else if !r.2 && -149 ≤ r.1 then word32 (sfuFlush ftz (powCode r.1), 0)
    else word32 (sfuFlush ftz (chosen 3 (f32Place x.toNat) (exp2Ok neg m e)), 0)

/-- `LOG2`: what the bound leaves open is free, and rises with x (assumption 10). -/
def sfuLog2 (ftz : Bool) (x : Word) : Word × BitVec 6 :=
  match F32.readFtz ftz x.toNat with
  | .nan sig => word32 (F32.qnan, if sig then fNV else 0)
  | .inf neg => word32 (if neg then (F32.qnan, fNV) else (F32.top, 0))
  | .fin _ 0 _ => word32 (F32.signed true F32.top, fDZ)
  | .fin true _ _ => word32 (F32.qnan, fNV)
  | .fin false m e =>
    if m == 2 ^ Nat.log2 m then word32 (intCode (e + (Nat.log2 m : Nat)), 0)
    else word32 (sfuFlush ftz (chosen 4 x.toNat (log2Ok m e)), 0)

/-- `TANH`: odd, never above 1 in magnitude, and ±1 from 10 on; elsewhere the bound leaves a choice, which is free (assumption 10). -/
def sfuTanh (ftz : Bool) (x : Word) : Word × BitVec 6 :=
  match F32.readFtz ftz x.toNat with
  | .nan sig => word32 (F32.qnan, if sig then fNV else 0)
  | .inf neg => word32 (F32.signed neg (intCode 1), 0)
  | .fin neg 0 _ => word32 (F32.zero neg, 0)
  | .fin neg m e =>
    if 10 ≤ (toIntRound 1 false m e).1 then word32 (F32.signed neg (intCode 1), 0)
    else word32 (sfuFlush ftz (F32.signed neg (chosen 5 (x.toNat % F32.signBit) (tanhOk m e))), 0)

end Sys2Proof.Machine
end

