-- ==== Sys2Proof/Machine/Arith.lean ====
section
/-! DEFINITION. The arithmetic families: integer (majors 3 to 5), fused (6 to 11), float (12), compare (13), convert (15),
immediate (16), and the special functions (14). -/

namespace Sys2Proof.Machine

/-- A guarded two-source word that writes one register (R99-R101). -/
def State.alu2 (s : State) (f : F3) (op : Word → Word → Word) : State :=
  s.writeV f.pred f.dst fun t => op (s.src t f.a) (s.src t f.b)

/-- A guarded two-source word that writes one register and sets flags. -/
def State.alu2F (s : State) (f : F3) (op : BitVec 4 → Word → Word → Word × BitVec 6) : State :=
  s.writeVF (fun t => t.p f.pred) f.dst fun t => op (s.mode t) (s.src t f.a) (s.src t f.b)

/-- An unguarded three-source word (R106). -/
def State.alu3F (s : State) (f : F4) (op : BitVec 4 → Word → Word → Word → Word × BitVec 6) : State :=
  s.writeVF (fun _ => true) f.dst fun t => op (s.mode t) (s.src t f.a) (s.src t f.b) (s.vreg t f.c)

/-- An immediate word (R113). -/
def State.aluI (s : State) (f : FI) (op : Word → BitVec 10 → Word) : State :=
  s.writeAll f.dst fun t => op (s.src t f.a) f.imm

/-- `ADD` (R101). -/
def execAdd (f : F3) (s : State) : Out :=
  .next (s.alu2 f fun x y => x + y)

/-- `SUB` (R101). -/
def execSub (f : F3) (s : State) : Out :=
  .next (s.alu2 f fun x y => x - y)

/-- `MULLO` (R101). -/
def execMullo (f : F3) (s : State) : Out :=
  .next (s.alu2 f fun x y => x * y)

/-- `MULHI.I` (R101). -/
def execMulhiI (f : F3) (s : State) : Out :=
  .next (s.alu2 f fun x y => mulHiI x y)

/-- `MULHI.N` (R101). -/
def execMulhiN (f : F3) (s : State) : Out :=
  .next (s.alu2 f fun x y => mulHiN x y)

/-- `MIN.I` (R101). -/
def execMinI (f : F3) (s : State) : Out :=
  .next (s.alu2 f fun x y => minI x y)

/-- `MAX.I` (R101). -/
def execMaxI (f : F3) (s : State) : Out :=
  .next (s.alu2 f fun x y => maxI x y)

/-- `MIN.N` (R101). -/
def execMinN (f : F3) (s : State) : Out :=
  .next (s.alu2 f fun x y => minN x y)

/-- `MAX.N` (R101). -/
def execMaxN (f : F3) (s : State) : Out :=
  .next (s.alu2 f fun x y => maxN x y)

/-- `AND` (R101). -/
def execAnd (f : F3) (s : State) : Out :=
  .next (s.alu2 f fun x y => x &&& y)

/-- `OR` (R101). -/
def execOr (f : F3) (s : State) : Out :=
  .next (s.alu2 f fun x y => x ||| y)

/-- `XOR` (R101). -/
def execXor (f : F3) (s : State) : Out :=
  .next (s.alu2 f fun x y => x ^^^ y)

/-- `ANDN` (R101). -/
def execAndn (f : F3) (s : State) : Out :=
  .next (s.alu2 f fun x y => x &&& ~~~y)

/-- `SHL` (R101, R102). -/
def execShl (f : F3) (s : State) : Out :=
  .next (s.alu2 f fun x y => shiftLeft x y)

/-- `SHR` (R101, R102). -/
def execShr (f : F3) (s : State) : Out :=
  .next (s.alu2 f fun x y => shiftRight x y)

/-- `SAR` (R101, R102). -/
def execSar (f : F3) (s : State) : Out :=
  .next (s.alu2 f fun x y => shiftArith x y)

/-- `ADDS` (R50, R103). -/
def execAdds (f : F3) (s : State) : Out :=
  .next (s.alu2F f fun _ x y => satI32 (x.toInt + y.toInt))

/-- `SUBS` (R50, R103). -/
def execSubs (f : F3) (s : State) : Out :=
  .next (s.alu2F f fun _ x y => satI32 (x.toInt - y.toInt))

/-- `SHRR` (R51, R103). -/
def execShrr (f : F3) (s : State) : Out :=
  .next (s.alu2 f shiftRoundRight)

/-- `POPC` (R103). -/
def execPopc (f : F2) (s : State) : Out :=
  .next (s.writeV f.pred f.dst fun t => BitVec.ofNat 32 (popCount 32 (s.src t f.a).toNat))

/-- `CLZ` (R103). -/
def execClz (f : F2) (s : State) : Out :=
  .next (s.writeV f.pred f.dst fun t => BitVec.ofNat 32 (leadingZeros 32 (s.src t f.a).toNat))

/-- `BFE` (R104). -/
def execBfe (f : F3) (s : State) : Out :=
  .next (s.alu2 f bitField)

/-- The two words of a 64-bit result, low first. -/
def pairWords (x : BitVec 64) : List Word := [x.extractLsb' 0 32, x.extractLsb' 32 32]

/-- `ADDW` on register pairs (R103, R105). -/
def execAddw (f : F3) (s : State) : Out :=
  .next (s.each (fun t => t.p f.pred) fun t =>
    s.putV f.dst.toNat (pairWords (s.srcPair t f.a + s.srcPair t f.b)) t)

/-- `MULW`, the full 64-bit product (R103, R105). -/
def execMulw (f : F3) (s : State) : Out :=
  .next (s.each (fun t => t.p f.pred) fun t =>
    s.putV f.dst.toNat (pairWords ((s.src t f.a).setWidth 64 * (s.src t f.b).setWidth 64)) t)

/-- `FFMA.F32` (R106). -/
def execFfmaF32 (f : F4) (s : State) : Out :=
  .next (s.alu3F f ffma32)

/-- `FFMA.F16X2` (R106). -/
def execFfmaF16x2 (f : F4) (s : State) : Out :=
  .next (s.alu3F f (ffmaPacked F16))

/-- `FFMA.BF16X2` (R106). -/
def execFfmaBf16x2 (f : F4) (s : State) : Out :=
  .next (s.alu3F f (ffmaPacked BF16))

/-- `MAD.I32` (R106). -/
def execMadI32 (f : F4) (s : State) : Out :=
  .next (s.alu3F f fun _ x y z => (x * y + z, 0))

/-- `DOT2.I16` (R50, R106). -/
def execDot2I16 (f : F4) (s : State) : Out :=
  .next (s.alu3F f fun _ x y z => satI32 (dot2 x y z))

/-- `DOT4.I8` (R50, R106). -/
def execDot4I8 (f : F4) (s : State) : Out :=
  .next (s.alu3F f fun _ x y z => satI32 (dot4 x y z))

/-- `FADD.F32` (R107). -/
def execFaddF32 (f : F3) (s : State) : Out :=
  .next (s.alu2F f fadd32)

/-- `FMUL.F32` (R107). -/
def execFmulF32 (f : F3) (s : State) : Out :=
  .next (s.alu2F f fmul32)

/-- `FMIN.F32` (R107). -/
def execFminF32 (f : F3) (s : State) : Out :=
  .next (s.alu2F f (fpick32 true))

/-- `FMAX.F32` (R107). -/
def execFmaxF32 (f : F3) (s : State) : Out :=
  .next (s.alu2F f (fpick32 false))

/-- `FADD.F16X2` (R107). -/
def execFaddF16x2 (f : F3) (s : State) : Out :=
  .next (s.alu2F f (faddPacked F16))

/-- `FMUL.F16X2` (R107). -/
def execFmulF16x2 (f : F3) (s : State) : Out :=
  .next (s.alu2F f (fmulPacked F16))

/-- `FADD.BF16X2` (R107). -/
def execFaddBf16x2 (f : F3) (s : State) : Out :=
  .next (s.alu2F f (faddPacked BF16))

/-- `FMUL.BF16X2` (R107). -/
def execFmulBf16x2 (f : F3) (s : State) : Out :=
  .next (s.alu2F f (fmulPacked BF16))

/-- `SETP`: p(pdst) := relation and p(cpred), with `NV` for a signalling NaN (R39, R108). -/
def execSetp (f : FSetp) (s : State) : Out :=
  .next (s.each (fun _ => true) fun t =>
    let r := compareAs (s.mode t) f.type (s.src t f.a) (s.src t f.b)
    (t.setP f.pdst (relation f.cond r.1 && t.p f.cpred)).orFlags (if r.2 then fNV else 0))

/-- Convert for every active thread with the types, rounding and saturation that `spec` gives the thread (R60, R111). -/
def State.convertAll (s : State) (dst : BitVec 6) (a : BitVec 7) (spec : Thread → Nat × Nat × Nat × Bool) : State :=
  s.writeVF (fun _ => true) dst fun t =>
    convert (modeFtz (s.mode t)) (spec t).1 (spec t).2.1 (spec t).2.2.1 (spec t).2.2.2 (s.src t a)

/-- `CVT` (R60, R111). -/
def execCvt (f : FCvt) (s : State) : Out :=
  .next (s.convertAll f.dst f.a fun _ => (f.stype.toNat, f.dtype.toNat, f.rnd.toNat, f.sat))

/-- `CVT` from the named slot's A element format: RNE and saturating (R39, R111). -/
def execCvtSlotSource (f : FCvtSS) (s : State) : Out :=
  .next (s.convertAll f.dst f.a fun t => (slotType (recSlot (s.recordOf t.tid) f.slot.toNat), f.dtype.toNat, 0, true))

/-- `CVT` to the named slot's A element format: RNE and saturating (R39, R111). -/
def execCvtSlotDest (f : FCvtSD) (s : State) : Out :=
  .next (s.convertAll f.dst f.a fun t => (f.stype.toNat, slotType (recSlot (s.recordOf t.tid) f.slot.toNat), 0, true))

/-- `MOVI` (R113). -/
def execMovi (f : FI16) (s : State) : Out :=
  .next (s.writeAll f.dst fun _ => f.imm.signExtend 32)

/-- `MOVHI` reads its own destination (R113). -/
def execMovhi (f : FI16) (s : State) : Out :=
  .next (s.writeAll f.dst fun t => f.imm ++ (s.vreg t f.dst).extractLsb' 0 16)

/-- `ADDI` (R113). -/
def execAddi (f : FI) (s : State) : Out :=
  .next (s.aluI f fun x i => x + i.signExtend 32)

/-- `ANDI` (R113). -/
def execAndi (f : FI) (s : State) : Out :=
  .next (s.aluI f fun x i => x &&& i.signExtend 32)

/-- `ORI` (R113). -/
def execOri (f : FI) (s : State) : Out :=
  .next (s.aluI f fun x i => x ||| i.signExtend 32)

/-- `XORI` (R113). -/
def execXori (f : FI) (s : State) : Out :=
  .next (s.aluI f fun x i => x ^^^ i.signExtend 32)

/-- `SHLI` (R113). -/
def execShli (f : FI) (s : State) : Out :=
  .next (s.aluI f fun x i => shiftLeft x (i.setWidth 32))

/-- `SHRI` (R113). -/
def execShri (f : FI) (s : State) : Out :=
  .next (s.aluI f fun x i => shiftRight x (i.setWidth 32))

/-- Start a special function: each executing thread reads its operand now, and its result and flags are written later by
`SFU_RESULT` (R34, R109). -/
def State.startSfu (s : State) (f : F2) (fn : Bool → Word → Word × BitVec 6) : State :=
  ((s.executing f.pred).foldl (fun s' t =>
    let r := fn (modeFtz (s.mode t)) (s.src t f.a)
    s'.send { s.opOf t .sfu 15 with regs := s.phys t f.dst.toNat 1, args := [r.1], aop := r.2.toNat } .sfuResult) s).advance

/-- `RCP` (R109, R110). -/
def execRcp (f : F2) (s : State) : Out :=
  .next (s.startSfu f sfuRcp)

/-- `RSQ` (R109, R110). -/
def execRsq (f : F2) (s : State) : Out :=
  .next (s.startSfu f sfuRsq)

/-- `SQRT` (R109, R110). -/
def execSqrt (f : F2) (s : State) : Out :=
  .next (s.startSfu f sfuSqrt)

/-- `EXP2` (R109, R110). -/
def execExp2 (f : F2) (s : State) : Out :=
  .next (s.startSfu f sfuExp2)

/-- `LOG2` (R109, R110). -/
def execLog2 (f : F2) (s : State) : Out :=
  .next (s.startSfu f sfuLog2)

/-- `TANH` (R109, R110). -/
def execTanh (f : F2) (s : State) : Out :=
  .next (s.startSfu f sfuTanh)

/-- `SFU_RESULT`: the result is written and its flags are ORed into `FSTAT` in the same cycle; a register that changes is progress of the
thread's group (R109, R226). -/
def execSfuResult (op : Nat) (s : State) : Out :=
  match s.op op with
  | none => .next s
  | some o =>
    let s := match s.thread o.uid with
      | some t => if t.wouldChange o.regs o.args then s.groupProgress t else s
      | none => s
    let s := s.modThread o.uid fun t => (t.setPhysList o.regs o.args).orFlags (BitVec.ofNat 6 o.aop)
    .next (s.finish o)

end Sys2Proof.Machine
end

