-- ==== Sys2Proof/Decode.lean ====
section
/-! DEFINITION. Decoding a word, with every rejection named by its fate (Tables 2.6 to 2.11), and then the encoder written
from the same tables. -/

namespace Sys2Proof

/-- The fixed field `lo..lo+n-1` of the word holds v (R38). -/
def Decode.fixed (w : Word) (lo n : Nat) (v : BitVec n) : Bool := w.extractLsb' lo n == v

/-- An instruction as its fields stand in a word, and whether its reserved fields hold what they must and its own fields are well-formed
(R38). -/
def Decode.checked (ok : Bool) (i : Instr) : Except DecodeFate (Bool × Instr) := .ok (ok && i.wf, i)

/-- A word whose fields fail their checks is ILLEGAL-ENCODING (Table 2.11). -/
def Decode.accept : Except DecodeFate (Bool × Instr) → Except DecodeFate Instr
  | .ok (ok, i) => if ok then .ok i else .error .illegalEncoding
  | .error d => .error d

/-- Major 0, Clause header (Table 2.8). -/
def Decode.major0 (w : Word) : Except DecodeFate (Bool × Instr) :=
  if w.getLsbD 31 then .error .illegalChain else
  Decode.checked (Decode.fixed w 0 1 0) (.clause { wait := w.extractLsb' 14 12, flagA := w.extractLsb' 10 4, flagB := w.extractLsb' 6 4, len := w.extractLsb' 2 4, hold := w.getLsbD 1 })

/-- Major 1, Branch (Table 2.8). -/
def Decode.major1 (w : Word) : Except DecodeFate (Bool × Instr) :=
  match (w.extractLsb' 20 3).toNat with
  | 0 => Decode.checked (true) (.bra { ch := w.getLsbD 31, pred := w.extractLsb' 23 3, off := w.extractLsb' 0 20 })
  | 1 => Decode.checked (true) (.braNegated { ch := w.getLsbD 31, pred := w.extractLsb' 23 3, off := w.extractLsb' 0 20 })
  | 2 => Decode.checked (true) (.call { ch := w.getLsbD 31, pred := w.extractLsb' 23 3, off := w.extractLsb' 0 20 })
  | 3 => Decode.checked (Decode.fixed w 23 3 7) (.seam { ch := w.getLsbD 31, off := w.extractLsb' 0 20 })
  | 4 => Decode.checked (Decode.fixed w 0 13 0) (.brx { ch := w.getLsbD 31, pred := w.extractLsb' 23 3, a := w.extractLsb' 13 7 })
  | 5 => Decode.checked (Decode.fixed w 0 13 0) (.callx { ch := w.getLsbD 31, pred := w.extractLsb' 23 3, a := w.extractLsb' 13 7 })
  | 6 => Decode.checked (Decode.fixed w 0 20 0) (.ret { ch := w.getLsbD 31, pred := w.extractLsb' 23 3 })
  | _ => .error .illegalInstruction

/-- Major 2, Control (Table 2.8). -/
def Decode.major2 (w : Word) : Except DecodeFate (Bool × Instr) :=
  match (w.extractLsb' 19 4).toNat with
  | 0 => Decode.checked (Decode.fixed w 0 19 0) (.nop { ch := w.getLsbD 31, pred := w.extractLsb' 23 3 })
  | 1 => Decode.checked (Decode.fixed w 0 19 0) (.yield { ch := w.getLsbD 31, pred := w.extractLsb' 23 3 })
  | 2 => Decode.checked (Decode.fixed w 0 19 0) (.exit { ch := w.getLsbD 31, pred := w.extractLsb' 23 3 })
  | 3 => Decode.checked (Decode.fixed w 0 11 0) (.trap { ch := w.getLsbD 31, pred := w.extractLsb' 23 3, code := w.extractLsb' 11 8 })
  | 4 => Decode.checked (Decode.fixed w 23 3 7 && Decode.fixed w 0 19 0) (.rft { ch := w.getLsbD 31 })
  | 5 => Decode.checked (Decode.fixed w 0 12 0) (.mon { ch := w.getLsbD 31, pred := w.extractLsb' 23 3, a := w.extractLsb' 12 7 })
  | 6 => Decode.checked (Decode.fixed w 0 19 0) (.mwait { ch := w.getLsbD 31, pred := w.extractLsb' 23 3 })
  | 7 => Decode.checked (Decode.fixed w 0 14 0) (.fence { ch := w.getLsbD 31, pred := w.extractLsb' 23 3, kind := w.extractLsb' 17 2, scope := w.extractLsb' 14 3 })
  | 8 => Decode.checked (Decode.fixed w 0 19 0) (.bkpt { ch := w.getLsbD 31, pred := w.extractLsb' 23 3 })
  | _ => .error .illegalInstruction

/-- Major 3, Integer A (Table 2.8). -/
def Decode.major3 (w : Word) : Except DecodeFate (Bool × Instr) :=
  match (w.extractLsb' 0 3).toNat with
  | 0 => Decode.checked (true) (.add { ch := w.getLsbD 31, dst := w.extractLsb' 20 6, a := w.extractLsb' 13 7, b := w.extractLsb' 6 7, pred := w.extractLsb' 3 3 })
  | 1 => Decode.checked (true) (.sub { ch := w.getLsbD 31, dst := w.extractLsb' 20 6, a := w.extractLsb' 13 7, b := w.extractLsb' 6 7, pred := w.extractLsb' 3 3 })
  | 2 => Decode.checked (true) (.mullo { ch := w.getLsbD 31, dst := w.extractLsb' 20 6, a := w.extractLsb' 13 7, b := w.extractLsb' 6 7, pred := w.extractLsb' 3 3 })
  | 3 => Decode.checked (true) (.mulhiI { ch := w.getLsbD 31, dst := w.extractLsb' 20 6, a := w.extractLsb' 13 7, b := w.extractLsb' 6 7, pred := w.extractLsb' 3 3 })
  | 4 => Decode.checked (true) (.mulhiN { ch := w.getLsbD 31, dst := w.extractLsb' 20 6, a := w.extractLsb' 13 7, b := w.extractLsb' 6 7, pred := w.extractLsb' 3 3 })
  | 5 => Decode.checked (true) (.minI { ch := w.getLsbD 31, dst := w.extractLsb' 20 6, a := w.extractLsb' 13 7, b := w.extractLsb' 6 7, pred := w.extractLsb' 3 3 })
  | 6 => Decode.checked (true) (.maxI { ch := w.getLsbD 31, dst := w.extractLsb' 20 6, a := w.extractLsb' 13 7, b := w.extractLsb' 6 7, pred := w.extractLsb' 3 3 })
  | 7 => Decode.checked (true) (.minN { ch := w.getLsbD 31, dst := w.extractLsb' 20 6, a := w.extractLsb' 13 7, b := w.extractLsb' 6 7, pred := w.extractLsb' 3 3 })
  | _ => .error .illegalInstruction

/-- Major 4, Integer B (Table 2.8). -/
def Decode.major4 (w : Word) : Except DecodeFate (Bool × Instr) :=
  match (w.extractLsb' 0 3).toNat with
  | 0 => Decode.checked (true) (.maxN { ch := w.getLsbD 31, dst := w.extractLsb' 20 6, a := w.extractLsb' 13 7, b := w.extractLsb' 6 7, pred := w.extractLsb' 3 3 })
  | 1 => Decode.checked (true) (.and { ch := w.getLsbD 31, dst := w.extractLsb' 20 6, a := w.extractLsb' 13 7, b := w.extractLsb' 6 7, pred := w.extractLsb' 3 3 })
  | 2 => Decode.checked (true) (.or { ch := w.getLsbD 31, dst := w.extractLsb' 20 6, a := w.extractLsb' 13 7, b := w.extractLsb' 6 7, pred := w.extractLsb' 3 3 })
  | 3 => Decode.checked (true) (.xor { ch := w.getLsbD 31, dst := w.extractLsb' 20 6, a := w.extractLsb' 13 7, b := w.extractLsb' 6 7, pred := w.extractLsb' 3 3 })
  | 4 => Decode.checked (true) (.andn { ch := w.getLsbD 31, dst := w.extractLsb' 20 6, a := w.extractLsb' 13 7, b := w.extractLsb' 6 7, pred := w.extractLsb' 3 3 })
  | 5 => Decode.checked (true) (.shl { ch := w.getLsbD 31, dst := w.extractLsb' 20 6, a := w.extractLsb' 13 7, b := w.extractLsb' 6 7, pred := w.extractLsb' 3 3 })
  | 6 => Decode.checked (true) (.shr { ch := w.getLsbD 31, dst := w.extractLsb' 20 6, a := w.extractLsb' 13 7, b := w.extractLsb' 6 7, pred := w.extractLsb' 3 3 })
  | 7 => Decode.checked (true) (.sar { ch := w.getLsbD 31, dst := w.extractLsb' 20 6, a := w.extractLsb' 13 7, b := w.extractLsb' 6 7, pred := w.extractLsb' 3 3 })
  | _ => .error .illegalInstruction

/-- Major 5, Integer C (Table 2.8). -/
def Decode.major5 (w : Word) : Except DecodeFate (Bool × Instr) :=
  match (w.extractLsb' 0 3).toNat with
  | 0 => Decode.checked (true) (.adds { ch := w.getLsbD 31, dst := w.extractLsb' 20 6, a := w.extractLsb' 13 7, b := w.extractLsb' 6 7, pred := w.extractLsb' 3 3 })
  | 1 => Decode.checked (true) (.subs { ch := w.getLsbD 31, dst := w.extractLsb' 20 6, a := w.extractLsb' 13 7, b := w.extractLsb' 6 7, pred := w.extractLsb' 3 3 })
  | 2 => Decode.checked (true) (.shrr { ch := w.getLsbD 31, dst := w.extractLsb' 20 6, a := w.extractLsb' 13 7, b := w.extractLsb' 6 7, pred := w.extractLsb' 3 3 })
  | 3 => Decode.checked (Decode.fixed w 6 7 0) (.popc { ch := w.getLsbD 31, dst := w.extractLsb' 20 6, a := w.extractLsb' 13 7, pred := w.extractLsb' 3 3 })
  | 4 => Decode.checked (Decode.fixed w 6 7 0) (.clz { ch := w.getLsbD 31, dst := w.extractLsb' 20 6, a := w.extractLsb' 13 7, pred := w.extractLsb' 3 3 })
  | 5 => Decode.checked (true) (.bfe { ch := w.getLsbD 31, dst := w.extractLsb' 20 6, a := w.extractLsb' 13 7, b := w.extractLsb' 6 7, pred := w.extractLsb' 3 3 })
  | 6 => Decode.checked (true) (.addw { ch := w.getLsbD 31, dst := w.extractLsb' 20 6, a := w.extractLsb' 13 7, b := w.extractLsb' 6 7, pred := w.extractLsb' 3 3 })
  | 7 => Decode.checked (true) (.mulw { ch := w.getLsbD 31, dst := w.extractLsb' 20 6, a := w.extractLsb' 13 7, b := w.extractLsb' 6 7, pred := w.extractLsb' 3 3 })
  | _ => .error .illegalInstruction

/-- Major 6, Fused (Table 2.8). -/
def Decode.major6 (w : Word) : Except DecodeFate (Bool × Instr) :=
  Decode.checked (true) (.ffmaF32 { ch := w.getLsbD 31, dst := w.extractLsb' 20 6, a := w.extractLsb' 13 7, b := w.extractLsb' 6 7, c := w.extractLsb' 0 6 })

/-- Major 7, Fused (Table 2.8). -/
def Decode.major7 (w : Word) : Except DecodeFate (Bool × Instr) :=
  Decode.checked (true) (.ffmaF16x2 { ch := w.getLsbD 31, dst := w.extractLsb' 20 6, a := w.extractLsb' 13 7, b := w.extractLsb' 6 7, c := w.extractLsb' 0 6 })

/-- Major 8, Fused (Table 2.8). -/
def Decode.major8 (w : Word) : Except DecodeFate (Bool × Instr) :=
  Decode.checked (true) (.ffmaBf16x2 { ch := w.getLsbD 31, dst := w.extractLsb' 20 6, a := w.extractLsb' 13 7, b := w.extractLsb' 6 7, c := w.extractLsb' 0 6 })

/-- Major 9, Fused (Table 2.8). -/
def Decode.major9 (w : Word) : Except DecodeFate (Bool × Instr) :=
  Decode.checked (true) (.madI32 { ch := w.getLsbD 31, dst := w.extractLsb' 20 6, a := w.extractLsb' 13 7, b := w.extractLsb' 6 7, c := w.extractLsb' 0 6 })

/-- Major 10, Fused (Table 2.8). -/
def Decode.major10 (w : Word) : Except DecodeFate (Bool × Instr) :=
  Decode.checked (true) (.dot2I16 { ch := w.getLsbD 31, dst := w.extractLsb' 20 6, a := w.extractLsb' 13 7, b := w.extractLsb' 6 7, c := w.extractLsb' 0 6 })

/-- Major 11, Fused (Table 2.8). -/
def Decode.major11 (w : Word) : Except DecodeFate (Bool × Instr) :=
  Decode.checked (true) (.dot4I8 { ch := w.getLsbD 31, dst := w.extractLsb' 20 6, a := w.extractLsb' 13 7, b := w.extractLsb' 6 7, c := w.extractLsb' 0 6 })

/-- Major 12, Float (Table 2.8). -/
def Decode.major12 (w : Word) : Except DecodeFate (Bool × Instr) :=
  match (w.extractLsb' 0 3).toNat with
  | 0 => Decode.checked (true) (.faddF32 { ch := w.getLsbD 31, dst := w.extractLsb' 20 6, a := w.extractLsb' 13 7, b := w.extractLsb' 6 7, pred := w.extractLsb' 3 3 })
  | 1 => Decode.checked (true) (.fmulF32 { ch := w.getLsbD 31, dst := w.extractLsb' 20 6, a := w.extractLsb' 13 7, b := w.extractLsb' 6 7, pred := w.extractLsb' 3 3 })
  | 2 => Decode.checked (true) (.fminF32 { ch := w.getLsbD 31, dst := w.extractLsb' 20 6, a := w.extractLsb' 13 7, b := w.extractLsb' 6 7, pred := w.extractLsb' 3 3 })
  | 3 => Decode.checked (true) (.fmaxF32 { ch := w.getLsbD 31, dst := w.extractLsb' 20 6, a := w.extractLsb' 13 7, b := w.extractLsb' 6 7, pred := w.extractLsb' 3 3 })
  | 4 => Decode.checked (true) (.faddF16x2 { ch := w.getLsbD 31, dst := w.extractLsb' 20 6, a := w.extractLsb' 13 7, b := w.extractLsb' 6 7, pred := w.extractLsb' 3 3 })
  | 5 => Decode.checked (true) (.fmulF16x2 { ch := w.getLsbD 31, dst := w.extractLsb' 20 6, a := w.extractLsb' 13 7, b := w.extractLsb' 6 7, pred := w.extractLsb' 3 3 })
  | 6 => Decode.checked (true) (.faddBf16x2 { ch := w.getLsbD 31, dst := w.extractLsb' 20 6, a := w.extractLsb' 13 7, b := w.extractLsb' 6 7, pred := w.extractLsb' 3 3 })
  | 7 => Decode.checked (true) (.fmulBf16x2 { ch := w.getLsbD 31, dst := w.extractLsb' 20 6, a := w.extractLsb' 13 7, b := w.extractLsb' 6 7, pred := w.extractLsb' 3 3 })
  | _ => .error .illegalInstruction

/-- Major 13, Compare (Table 2.8). -/
def Decode.major13 (w : Word) : Except DecodeFate (Bool × Instr) :=
  Decode.checked (true) (.setp { ch := w.getLsbD 31, pdst := w.extractLsb' 23 3, a := w.extractLsb' 16 7, b := w.extractLsb' 9 7, cond := w.extractLsb' 6 3, type := w.extractLsb' 3 3, cpred := w.extractLsb' 0 3 })

/-- Major 14, SFU (Table 2.8). -/
def Decode.major14 (w : Word) : Except DecodeFate (Bool × Instr) :=
  match (w.extractLsb' 0 3).toNat with
  | 0 => Decode.checked (Decode.fixed w 6 7 0) (.rcp { ch := w.getLsbD 31, dst := w.extractLsb' 20 6, a := w.extractLsb' 13 7, pred := w.extractLsb' 3 3 })
  | 1 => Decode.checked (Decode.fixed w 6 7 0) (.rsq { ch := w.getLsbD 31, dst := w.extractLsb' 20 6, a := w.extractLsb' 13 7, pred := w.extractLsb' 3 3 })
  | 2 => Decode.checked (Decode.fixed w 6 7 0) (.sqrt { ch := w.getLsbD 31, dst := w.extractLsb' 20 6, a := w.extractLsb' 13 7, pred := w.extractLsb' 3 3 })
  | 3 => Decode.checked (Decode.fixed w 6 7 0) (.exp2 { ch := w.getLsbD 31, dst := w.extractLsb' 20 6, a := w.extractLsb' 13 7, pred := w.extractLsb' 3 3 })
  | 4 => Decode.checked (Decode.fixed w 6 7 0) (.log2 { ch := w.getLsbD 31, dst := w.extractLsb' 20 6, a := w.extractLsb' 13 7, pred := w.extractLsb' 3 3 })
  | 5 => Decode.checked (Decode.fixed w 6 7 0) (.tanh { ch := w.getLsbD 31, dst := w.extractLsb' 20 6, a := w.extractLsb' 13 7, pred := w.extractLsb' 3 3 })
  | _ => .error .illegalInstruction

/-- Major 15, Convert (Table 2.8). -/
def Decode.major15 (w : Word) : Except DecodeFate (Bool × Instr) :=
  if w.extractLsb' 9 4 == 15#4 then
    Decode.checked (Decode.fixed w 0 2 0) (.cvtSlotSource { ch := w.getLsbD 31, dst := w.extractLsb' 20 6, a := w.extractLsb' 13 7, dtype := w.extractLsb' 5 4, slot := w.extractLsb' 2 3 })
  else if w.extractLsb' 5 4 == 15#4 then
    Decode.checked (Decode.fixed w 0 2 0) (.cvtSlotDest { ch := w.getLsbD 31, dst := w.extractLsb' 20 6, a := w.extractLsb' 13 7, stype := w.extractLsb' 9 4, slot := w.extractLsb' 2 3 })
  else
    Decode.checked (Decode.fixed w 0 2 0) (.cvt { ch := w.getLsbD 31, dst := w.extractLsb' 20 6, a := w.extractLsb' 13 7, stype := w.extractLsb' 9 4, dtype := w.extractLsb' 5 4, rnd := w.extractLsb' 3 2, sat := w.getLsbD 2 })

/-- Major 16, Immediate (Table 2.8). -/
def Decode.major16 (w : Word) : Except DecodeFate (Bool × Instr) :=
  match (w.extractLsb' 0 3).toNat with
  | 0 => Decode.checked (Decode.fixed w 19 1 0) (.movi { ch := w.getLsbD 31, dst := w.extractLsb' 20 6, imm := w.extractLsb' 3 16 })
  | 1 => Decode.checked (Decode.fixed w 19 1 0) (.movhi { ch := w.getLsbD 31, dst := w.extractLsb' 20 6, imm := w.extractLsb' 3 16 })
  | 2 => Decode.checked (true) (.addi { ch := w.getLsbD 31, dst := w.extractLsb' 20 6, a := w.extractLsb' 13 7, imm := w.extractLsb' 3 10 })
  | 3 => Decode.checked (true) (.andi { ch := w.getLsbD 31, dst := w.extractLsb' 20 6, a := w.extractLsb' 13 7, imm := w.extractLsb' 3 10 })
  | 4 => Decode.checked (true) (.ori { ch := w.getLsbD 31, dst := w.extractLsb' 20 6, a := w.extractLsb' 13 7, imm := w.extractLsb' 3 10 })
  | 5 => Decode.checked (true) (.xori { ch := w.getLsbD 31, dst := w.extractLsb' 20 6, a := w.extractLsb' 13 7, imm := w.extractLsb' 3 10 })
  | 6 => Decode.checked (true) (.shli { ch := w.getLsbD 31, dst := w.extractLsb' 20 6, a := w.extractLsb' 13 7, imm := w.extractLsb' 3 10 })
  | 7 => Decode.checked (true) (.shri { ch := w.getLsbD 31, dst := w.extractLsb' 20 6, a := w.extractLsb' 13 7, imm := w.extractLsb' 3 10 })
  | _ => .error .illegalInstruction

/-- Major 17, Lane (Table 2.8). -/
def Decode.major17 (w : Word) : Except DecodeFate (Bool × Instr) :=
  match (w.extractLsb' 0 3).toNat with
  | 0 => Decode.checked (true) (.slide { ch := w.getLsbD 31, dst := w.extractLsb' 20 6, a := w.extractLsb' 13 7, b := w.extractLsb' 6 7, pred := w.extractLsb' 3 3 })
  | 1 => Decode.checked (true) (.slideh { ch := w.getLsbD 31, dst := w.extractLsb' 20 6, a := w.extractLsb' 13 7, b := w.extractLsb' 6 7, pred := w.extractLsb' 3 3 })
  | 2 => Decode.checked (true) (.shfl { ch := w.getLsbD 31, dst := w.extractLsb' 20 6, a := w.extractLsb' 13 7, b := w.extractLsb' 6 7, pred := w.extractLsb' 3 3 })
  | 3 => Decode.checked (true) (.bcast { ch := w.getLsbD 31, dst := w.extractLsb' 20 6, a := w.extractLsb' 13 7, n := w.extractLsb' 6 7, pred := w.extractLsb' 3 3 })
  | 4 => Decode.checked (Decode.fixed w 6 14 0) (.ballot { ch := w.getLsbD 31, dst := w.extractLsb' 20 6, pred := w.extractLsb' 3 3 })
  | 5 => Decode.checked (Decode.fixed w 6 14 0) (.actmask { ch := w.getLsbD 31, dst := w.extractLsb' 20 6, pred := w.extractLsb' 3 3 })
  | 6 => Decode.checked (Decode.fixed w 6 7 0) (.redadd { ch := w.getLsbD 31, dst := w.extractLsb' 20 6, a := w.extractLsb' 13 7, pred := w.extractLsb' 3 3 })
  | 7 => Decode.checked (Decode.fixed w 6 7 0) (.redmax { ch := w.getLsbD 31, dst := w.extractLsb' 20 6, a := w.extractLsb' 13 7, pred := w.extractLsb' 3 3 })
  | _ => .error .illegalInstruction

/-- Major 18, Move (Table 2.8). -/
def Decode.major18 (w : Word) : Except DecodeFate (Bool × Instr) :=
  match (w.extractLsb' 0 3).toNat with
  | 0 => Decode.checked (Decode.fixed w 6 7 0) (.mov { ch := w.getLsbD 31, dst := w.extractLsb' 20 6, a := w.extractLsb' 13 7, pred := w.extractLsb' 3 3 })
  | 1 => Decode.checked (true) (.sel { ch := w.getLsbD 31, dst := w.extractLsb' 20 6, a := w.extractLsb' 13 7, b := w.extractLsb' 6 7, pred := w.extractLsb' 3 3 })
  | 2 => Decode.checked (Decode.fixed w 6 7 0) (.movsv { ch := w.getLsbD 31, dst := w.extractLsb' 20 6, a := w.extractLsb' 13 7, pred := w.extractLsb' 3 3 })
  | 3 => Decode.checked (Decode.fixed w 6 7 0) (.movvs { ch := w.getLsbD 31, dst := w.extractLsb' 20 6, a := w.extractLsb' 13 7, pred := w.extractLsb' 3 3 })
  | 4 => Decode.checked (Decode.fixed w 6 7 0) (.rdsp { ch := w.getLsbD 31, dst := w.extractLsb' 20 6, a := w.extractLsb' 13 7, pred := w.extractLsb' 3 3 })
  | 5 => Decode.checked (Decode.fixed w 6 7 0) (.wrsp { ch := w.getLsbD 31, num := w.extractLsb' 20 6, a := w.extractLsb' 13 7, pred := w.extractLsb' 3 3 })
  | _ => .error .illegalInstruction

/-- Major 19, Uniform (Table 2.8). -/
def Decode.major19 (w : Word) : Except DecodeFate (Bool × Instr) :=
  match (w.extractLsb' 0 3).toNat with
  | 0 => Decode.checked (Decode.fixed w 3 3 7) (.sadd { ch := w.getLsbD 31, dst := w.extractLsb' 20 6, a := w.extractLsb' 13 7, b := w.extractLsb' 6 7 })
  | 1 => Decode.checked (Decode.fixed w 3 3 7) (.ssub { ch := w.getLsbD 31, dst := w.extractLsb' 20 6, a := w.extractLsb' 13 7, b := w.extractLsb' 6 7 })
  | 2 => Decode.checked (Decode.fixed w 3 3 7) (.smul { ch := w.getLsbD 31, dst := w.extractLsb' 20 6, a := w.extractLsb' 13 7, b := w.extractLsb' 6 7 })
  | 3 => Decode.checked (Decode.fixed w 3 3 7) (.sand { ch := w.getLsbD 31, dst := w.extractLsb' 20 6, a := w.extractLsb' 13 7, b := w.extractLsb' 6 7 })
  | 4 => Decode.checked (Decode.fixed w 3 3 7) (.sor { ch := w.getLsbD 31, dst := w.extractLsb' 20 6, a := w.extractLsb' 13 7, b := w.extractLsb' 6 7 })
  | 5 => Decode.checked (Decode.fixed w 3 3 7) (.sxor { ch := w.getLsbD 31, dst := w.extractLsb' 20 6, a := w.extractLsb' 13 7, b := w.extractLsb' 6 7 })
  | 6 => Decode.checked (Decode.fixed w 3 3 7) (.sshl { ch := w.getLsbD 31, dst := w.extractLsb' 20 6, a := w.extractLsb' 13 7, b := w.extractLsb' 6 7 })
  | 7 => Decode.checked (Decode.fixed w 3 3 7) (.sshr { ch := w.getLsbD 31, dst := w.extractLsb' 20 6, a := w.extractLsb' 13 7, b := w.extractLsb' 6 7 })
  | _ => .error .illegalInstruction

/-- Major 20, Lane-own space (Table 2.8). -/
def Decode.major20 (w : Word) : Except DecodeFate (Bool × Instr) :=
  match (w.extractLsb' 21 2).toNat with
  | 0 => Decode.checked (true) (.ldp { ch := w.getLsbD 31, pred := w.extractLsb' 23 3, w := w.extractLsb' 18 3, fb := w.getLsbD 17, data := w.extractLsb' 11 6, a := w.extractLsb' 4 7, mod := w.extractLsb' 0 4 })
  | 1 => Decode.checked (true) (.stp { ch := w.getLsbD 31, pred := w.extractLsb' 23 3, w := w.extractLsb' 18 3, fb := w.getLsbD 17, data := w.extractLsb' 11 6, a := w.extractLsb' 4 7, mod := w.extractLsb' 0 4 })
  | _ => .error .illegalInstruction

/-- Major 21, Scratch (Table 2.8). -/
def Decode.major21 (w : Word) : Except DecodeFate (Bool × Instr) :=
  match (w.extractLsb' 21 2).toNat with
  | 0 => Decode.checked (true) (.ldsc { ch := w.getLsbD 31, pred := w.extractLsb' 23 3, w := w.extractLsb' 18 3, fb := w.getLsbD 17, data := w.extractLsb' 11 6, a := w.extractLsb' 4 7, mod := w.extractLsb' 0 4 })
  | 1 => Decode.checked (true) (.stsc { ch := w.getLsbD 31, pred := w.extractLsb' 23 3, w := w.extractLsb' 18 3, fb := w.getLsbD 17, data := w.extractLsb' 11 6, a := w.extractLsb' 4 7, mod := w.extractLsb' 0 4 })
  | 2 => Decode.checked (Decode.fixed w 19 2 1) (.atsc { ch := w.getLsbD 31, pred := w.extractLsb' 23 3, wide := w.getLsbD 18, fb := w.getLsbD 17, data := w.extractLsb' 11 6, a := w.extractLsb' 4 7, aop := w.extractLsb' 0 4 })
  | _ => .error .illegalInstruction

/-- Major 22, Cluster (Table 2.8). -/
def Decode.major22 (w : Word) : Except DecodeFate (Bool × Instr) :=
  match (w.extractLsb' 21 2).toNat with
  | 0 => Decode.checked (true) (.ldcl { ch := w.getLsbD 31, pred := w.extractLsb' 23 3, w := w.extractLsb' 18 3, fb := w.getLsbD 17, data := w.extractLsb' 11 6, a := w.extractLsb' 4 7, mod := w.extractLsb' 0 4 })
  | 1 => Decode.checked (true) (.stcl { ch := w.getLsbD 31, pred := w.extractLsb' 23 3, w := w.extractLsb' 18 3, fb := w.getLsbD 17, data := w.extractLsb' 11 6, a := w.extractLsb' 4 7, mod := w.extractLsb' 0 4 })
  | 2 => Decode.checked (Decode.fixed w 19 2 1) (.atcl { ch := w.getLsbD 31, pred := w.extractLsb' 23 3, wide := w.getLsbD 18, fb := w.getLsbD 17, data := w.extractLsb' 11 6, a := w.extractLsb' 4 7, aop := w.extractLsb' 0 4 })
  | _ => .error .illegalInstruction

/-- Major 23, Die (Table 2.8). -/
def Decode.major23 (w : Word) : Except DecodeFate (Bool × Instr) :=
  match (w.extractLsb' 21 2).toNat with
  | 0 => Decode.checked (true) (.ldds { ch := w.getLsbD 31, pred := w.extractLsb' 23 3, w := w.extractLsb' 18 3, fb := w.getLsbD 17, data := w.extractLsb' 11 6, a := w.extractLsb' 4 7, mod := w.extractLsb' 0 4 })
  | 1 => Decode.checked (true) (.stds { ch := w.getLsbD 31, pred := w.extractLsb' 23 3, w := w.extractLsb' 18 3, fb := w.getLsbD 17, data := w.extractLsb' 11 6, a := w.extractLsb' 4 7, mod := w.extractLsb' 0 4 })
  | 2 => Decode.checked (Decode.fixed w 19 2 1) (.atds { ch := w.getLsbD 31, pred := w.extractLsb' 23 3, wide := w.getLsbD 18, fb := w.getLsbD 17, data := w.extractLsb' 11 6, a := w.extractLsb' 4 7, aop := w.extractLsb' 0 4 })
  | _ => .error .illegalInstruction

/-- Major 24, Global (Table 2.8). -/
def Decode.major24 (w : Word) : Except DecodeFate (Bool × Instr) :=
  match (w.extractLsb' 21 2).toNat with
  | 0 => Decode.checked (Decode.fixed w 0 2 0) (.ldg { ch := w.getLsbD 31, pred := w.extractLsb' 23 3, w := w.extractLsb' 18 3, fb := w.getLsbD 17, data := w.extractLsb' 11 6, a := w.extractLsb' 4 7, rtype := w.extractLsb' 2 2 })
  | 1 => Decode.checked (Decode.fixed w 0 2 0) (.stg { ch := w.getLsbD 31, pred := w.extractLsb' 23 3, w := w.extractLsb' 18 3, fb := w.getLsbD 17, data := w.extractLsb' 11 6, a := w.extractLsb' 4 7, rtype := w.extractLsb' 2 2 })
  | 2 => Decode.checked (Decode.fixed w 19 2 1) (.atg { ch := w.getLsbD 31, pred := w.extractLsb' 23 3, wide := w.getLsbD 18, fb := w.getLsbD 17, data := w.extractLsb' 11 6, a := w.extractLsb' 4 7, aop := w.extractLsb' 0 4 })
  | 3 => Decode.checked (Decode.fixed w 18 3 0 && Decode.fixed w 11 6 0 && Decode.fixed w 0 2 0) (.pfg { ch := w.getLsbD 31, pred := w.extractLsb' 23 3, fb := w.getLsbD 17, a := w.extractLsb' 4 7, level := w.extractLsb' 2 2 })
  | _ => .error .illegalInstruction

/-- Major 25, Fabric (Table 2.8). -/
def Decode.major25 (w : Word) : Except DecodeFate (Bool × Instr) :=
  match (w.extractLsb' 21 2).toNat with
  | 0 => Decode.checked (Decode.fixed w 0 1 0) (.ldf { ch := w.getLsbD 31, pred := w.extractLsb' 23 3, w := w.extractLsb' 18 3, fb := w.getLsbD 17, data := w.extractLsb' 11 6, a := w.extractLsb' 4 7, rtype := w.extractLsb' 2 2, asplit := w.getLsbD 1 })
  | 1 => Decode.checked (Decode.fixed w 0 2 0) (.stf { ch := w.getLsbD 31, pred := w.extractLsb' 23 3, w := w.extractLsb' 18 3, fb := w.getLsbD 17, data := w.extractLsb' 11 6, a := w.extractLsb' 4 7, rtype := w.extractLsb' 2 2 })
  | 2 => Decode.checked (Decode.fixed w 19 2 1) (.atf { ch := w.getLsbD 31, pred := w.extractLsb' 23 3, wide := w.getLsbD 18, fb := w.getLsbD 17, data := w.extractLsb' 11 6, a := w.extractLsb' 4 7, aop := w.extractLsb' 0 4 })
  | 3 => Decode.checked (Decode.fixed w 18 3 0 && Decode.fixed w 0 4 0) (.pubf { ch := w.getLsbD 31, pred := w.extractLsb' 23 3, fb := w.getLsbD 17, data := w.extractLsb' 11 6, a := w.extractLsb' 4 7 })
  | _ => .error .illegalInstruction

/-- Major 26, Copy (Table 2.8). -/
def Decode.major26 (w : Word) : Except DecodeFate (Bool × Instr) :=
  match (w.extractLsb' 24 2).toNat with
  | 0 => Decode.checked (Decode.fixed w 0 3 0) (.cpy { ch := w.getLsbD 31, fb := w.getLsbD 23, tok := w.extractLsb' 17 6, d := w.extractLsb' 10 7, bar := w.extractLsb' 3 7 })
  | 1 => Decode.checked (Decode.fixed w 0 3 0) (.cpyt { ch := w.getLsbD 31, fb := w.getLsbD 23, tok := w.extractLsb' 17 6, d := w.extractLsb' 10 7, bar := w.extractLsb' 3 7 })
  | 2 => Decode.checked (Decode.fixed w 0 3 0) (.cpyx { ch := w.getLsbD 31, fb := w.getLsbD 23, tok := w.extractLsb' 17 6, d := w.extractLsb' 10 7, bar := w.extractLsb' 3 7 })
  | 3 => Decode.checked (Decode.fixed w 17 6 0 && Decode.fixed w 0 3 0) (.cpys { ch := w.getLsbD 31, fb := w.getLsbD 23, d := w.extractLsb' 10 7, bar := w.extractLsb' 3 7 })
  | _ => .error .illegalInstruction

/-- Major 27, Matrix (Table 2.8). -/
def Decode.major27 (w : Word) : Except DecodeFate (Bool × Instr) :=
  match (w.extractLsb' 23 3).toNat with
  | 0 => Decode.checked (Decode.fixed w 0 2 0) (.mma { ch := w.getLsbD 31, fb := w.getLsbD 22, acc := w.extractLsb' 18 4, slot := w.extractLsb' 15 3, shape := w.extractLsb' 13 2, rep := w.extractLsb' 10 3, desc := w.extractLsb' 4 6, ra := w.getLsbD 3, rb := w.getLsbD 2 })
  | 1 => Decode.checked (Decode.fixed w 0 15 0) (.accz { ch := w.getLsbD 31, fb := w.getLsbD 22, acc := w.extractLsb' 18 4, slot := w.extractLsb' 15 3 })
  | 2 => Decode.checked (Decode.fixed w 10 5 0 && Decode.fixed w 0 2 0) (.accrd { ch := w.getLsbD 31, fb := w.getLsbD 22, acc := w.extractLsb' 18 4, slot := w.extractLsb' 15 3, desc := w.extractLsb' 4 6, ra := w.getLsbD 3, rb := w.getLsbD 2 })
  | 3 => Decode.checked (Decode.fixed w 10 5 0 && Decode.fixed w 0 2 0) (.accwr { ch := w.getLsbD 31, fb := w.getLsbD 22, acc := w.extractLsb' 18 4, slot := w.extractLsb' 15 3, desc := w.extractLsb' 4 6, ra := w.getLsbD 3, rb := w.getLsbD 2 })
  | 4 => Decode.checked (Decode.fixed w 0 15 0) (.accnorm { ch := w.getLsbD 31, fb := w.getLsbD 22, acc := w.extractLsb' 18 4, slot := w.extractLsb' 15 3 })
  | 5 => Decode.checked (Decode.fixed w 0 23 0) (.mfence { ch := w.getLsbD 31 })
  | _ => .error .illegalInstruction

/-- Major 28, Barrier (Table 2.8). -/
def Decode.major28 (w : Word) : Except DecodeFate (Bool × Instr) :=
  match (w.extractLsb' 23 3).toNat with
  | 0 => Decode.checked (Decode.fixed w 0 5 0) (.binit { ch := w.getLsbD 31, pred := w.extractLsb' 20 3, sp := w.getLsbD 19, a := w.extractLsb' 12 7, b := w.extractLsb' 5 7 })
  | 1 => Decode.checked (Decode.fixed w 0 12 0) (.barv { ch := w.getLsbD 31, pred := w.extractLsb' 20 3, sp := w.getLsbD 19, a := w.extractLsb' 12 7 })
  | 2 => Decode.checked (Decode.fixed w 0 5 0) (.bexp { ch := w.getLsbD 31, pred := w.extractLsb' 20 3, sp := w.getLsbD 19, a := w.extractLsb' 12 7, b := w.extractLsb' 5 7 })
  | 3 => Decode.checked (Decode.fixed w 0 2 0) (.bwait { ch := w.getLsbD 31, pred := w.extractLsb' 20 3, sp := w.getLsbD 19, a := w.extractLsb' 12 7, b := w.extractLsb' 5 7, pd := w.extractLsb' 2 3 })
  | 4 => Decode.checked (Decode.fixed w 0 2 0) (.btest { ch := w.getLsbD 31, pred := w.extractLsb' 20 3, sp := w.getLsbD 19, a := w.extractLsb' 12 7, b := w.extractLsb' 5 7, pd := w.extractLsb' 2 3 })
  | 5 => Decode.checked (Decode.fixed w 0 12 0) (.bretire { ch := w.getLsbD 31, pred := w.extractLsb' 20 3, sp := w.getLsbD 19, a := w.extractLsb' 12 7 })
  | 6 => Decode.checked (Decode.fixed w 0 23 7340032) (.gbar { ch := w.getLsbD 31 })
  | 7 => Decode.checked (Decode.fixed w 0 23 7340032) (.tbar { ch := w.getLsbD 31 })
  | _ => .error .illegalInstruction

/-- Major 29, Group and window (Table 2.8). -/
def Decode.major29 (w : Word) : Except DecodeFate (Bool × Instr) :=
  match (w.extractLsb' 23 3).toNat with
  | 0 => Decode.checked (Decode.fixed w 17 6 0 && Decode.fixed w 0 10 0) (.gjoin { ch := w.getLsbD 31, a := w.extractLsb' 10 7 })
  | 1 => Decode.checked (Decode.fixed w 0 10 0) (.ginfo { ch := w.getLsbD 31, dst := w.extractLsb' 17 6, a := w.extractLsb' 10 7 })
  | 2 => Decode.checked (Decode.fixed w 0 10 0) (.fabclr { ch := w.getLsbD 31, dst := w.extractLsb' 17 6, a := w.extractLsb' 10 7 })
  | 3 => Decode.checked (Decode.fixed w 17 6 0 && Decode.fixed w 0 10 0) (.wspill { ch := w.getLsbD 31, a := w.extractLsb' 10 7 })
  | 4 => Decode.checked (Decode.fixed w 17 6 0 && Decode.fixed w 0 10 0) (.wfill { ch := w.getLsbD 31, a := w.extractLsb' 10 7 })
  | _ => .error .illegalInstruction

/-- Major 30, Sequence and press (Table 2.8). -/
def Decode.major30 (w : Word) : Except DecodeFate (Bool × Instr) :=
  match (w.extractLsb' 23 3).toNat with
  | 0 => Decode.checked (Decode.fixed w 0 1 0) (.sqclaim { ch := w.getLsbD 31, pred := w.extractLsb' 20 3, fb := w.getLsbD 19, dst := w.extractLsb' 13 6, seq := w.extractLsb' 8 5, b := w.extractLsb' 1 7 })
  | 1 => Decode.checked (Decode.fixed w 13 6 0 && Decode.fixed w 0 1 0) (.sqpub { ch := w.getLsbD 31, pred := w.extractLsb' 20 3, fb := w.getLsbD 19, seq := w.extractLsb' 8 5, b := w.extractLsb' 1 7 })
  | 2 => Decode.checked (true) (.sqacq { ch := w.getLsbD 31, pred := w.extractLsb' 20 3, fb := w.getLsbD 19, dst := w.extractLsb' 13 6, seq := w.extractLsb' 8 5, b := w.extractLsb' 1 7, snap := w.getLsbD 0 })
  | 3 => Decode.checked (Decode.fixed w 0 1 0) (.sqret { ch := w.getLsbD 31, pred := w.extractLsb' 20 3, fb := w.getLsbD 19, dst := w.extractLsb' 13 6, seq := w.extractLsb' 8 5, b := w.extractLsb' 1 7 })
  | 4 => Decode.checked (Decode.fixed w 0 1 0) (.sqinfo { ch := w.getLsbD 31, pred := w.extractLsb' 20 3, fb := w.getLsbD 19, dst := w.extractLsb' 13 6, seq := w.extractLsb' 8 5, b := w.extractLsb' 1 7 })
  | 5 => Decode.checked (Decode.fixed w 13 6 0 && Decode.fixed w 0 8 0) (.press { ch := w.getLsbD 31, pred := w.extractLsb' 20 3, fb := w.getLsbD 19, region := w.extractLsb' 8 5 })
  | _ => .error .illegalInstruction

/-- Major 31, System (Table 2.8). -/
def Decode.major31 (w : Word) : Except DecodeFate (Bool × Instr) :=
  match (w.extractLsb' 23 3).toNat with
  | 0 => Decode.checked (Decode.fixed w 0 6 0) (.launch { ch := w.getLsbD 31, pred := w.extractLsb' 20 3, fb := w.getLsbD 19, dst := w.extractLsb' 13 6, a := w.extractLsb' 6 7 })
  | 1 => Decode.checked (Decode.fixed w 0 6 0) (.pgprobe { ch := w.getLsbD 31, pred := w.extractLsb' 20 3, fb := w.getLsbD 19, dst := w.extractLsb' 13 6, a := w.extractLsb' 6 7 })
  | 2 => Decode.checked (Decode.fixed w 13 6 0 && Decode.fixed w 0 6 0) (.pgpref { ch := w.getLsbD 31, pred := w.extractLsb' 20 3, fb := w.getLsbD 19, a := w.extractLsb' 6 7 })
  | 3 =>
    if w.getLsbD 12 then Decode.checked (Decode.fixed w 0 6 0) (.sysrdPeek { ch := w.getLsbD 31, pred := w.extractLsb' 20 3, fb := w.getLsbD 19, dst := w.extractLsb' 13 6, a := w.extractLsb' 6 6 })
    else Decode.checked (Decode.fixed w 0 6 0) (.sysrd { ch := w.getLsbD 31, pred := w.extractLsb' 20 3, fb := w.getLsbD 19, dst := w.extractLsb' 13 6, a := w.extractLsb' 6 6 })
  | 4 => Decode.checked (Decode.fixed w 12 1 0 && Decode.fixed w 0 6 0) (.syswr { ch := w.getLsbD 31, pred := w.extractLsb' 20 3, fb := w.getLsbD 19, dst := w.extractLsb' 13 6, a := w.extractLsb' 6 6 })
  | 5 => Decode.checked (Decode.fixed w 0 6 0) (.pegarm { ch := w.getLsbD 31, pred := w.extractLsb' 20 3, fb := w.getLsbD 19, dst := w.extractLsb' 13 6, a := w.extractLsb' 6 7 })
  | _ => .error .illegalInstruction

/-- The instruction that a word's codes name (R26, Table 2.8). A reserved function code is ILLEGAL-INSTRUCTION; a header with C = 1 is
ILLEGAL-CHAIN. -/
def Decode.read (w : Word) : Except DecodeFate (Bool × Instr) :=
  match (w.extractLsb' 26 5).toNat with
  | 0 => Decode.major0 w
  | 1 => Decode.major1 w
  | 2 => Decode.major2 w
  | 3 => Decode.major3 w
  | 4 => Decode.major4 w
  | 5 => Decode.major5 w
  | 6 => Decode.major6 w
  | 7 => Decode.major7 w
  | 8 => Decode.major8 w
  | 9 => Decode.major9 w
  | 10 => Decode.major10 w
  | 11 => Decode.major11 w
  | 12 => Decode.major12 w
  | 13 => Decode.major13 w
  | 14 => Decode.major14 w
  | 15 => Decode.major15 w
  | 16 => Decode.major16 w
  | 17 => Decode.major17 w
  | 18 => Decode.major18 w
  | 19 => Decode.major19 w
  | 20 => Decode.major20 w
  | 21 => Decode.major21 w
  | 22 => Decode.major22 w
  | 23 => Decode.major23 w
  | 24 => Decode.major24 w
  | 25 => Decode.major25 w
  | 26 => Decode.major26 w
  | 27 => Decode.major27 w
  | 28 => Decode.major28 w
  | 29 => Decode.major29 w
  | 30 => Decode.major30 w
  | _ => Decode.major31 w

/-- Decode one word. -/
def decodeWord (w : Word) : Except DecodeFate Instr := Decode.accept (Decode.read w)

/-- A one-bit field. -/
abbrev bit (b : Bool) : BitVec 1 := BitVec.ofBool b

/-- The word of an instruction, its fields laid out from bit 31 down by Tables 2.1, 2.6, 2.7 and 2.8; none for a step of a
unit or a command, which has no word. -/
def encode : Instr → Option Word
  | .clause f => some (0#1 ++ 0#5 ++ f.wait ++ f.flagA ++ f.flagB ++ f.len ++ bit f.hold ++ 0#1)
  | .bra f => some (bit f.ch ++ 1#5 ++ f.pred ++ 0#3 ++ f.off)
  | .braNegated f => some (bit f.ch ++ 1#5 ++ f.pred ++ 1#3 ++ f.off)
  | .call f => some (bit f.ch ++ 1#5 ++ f.pred ++ 2#3 ++ f.off)
  | .seam f => some (bit f.ch ++ 1#5 ++ 59#6 ++ f.off)
  | .brx f => some (bit f.ch ++ 1#5 ++ f.pred ++ 4#3 ++ f.a ++ 0#13)
  | .callx f => some (bit f.ch ++ 1#5 ++ f.pred ++ 5#3 ++ f.a ++ 0#13)
  | .ret f => some (bit f.ch ++ 1#5 ++ f.pred ++ 6291456#23)
  | .nop f => some (bit f.ch ++ 2#5 ++ f.pred ++ 0#23)
  | .yield f => some (bit f.ch ++ 2#5 ++ f.pred ++ 524288#23)
  | .exit f => some (bit f.ch ++ 2#5 ++ f.pred ++ 1048576#23)
  | .trap f => some (bit f.ch ++ 2#5 ++ f.pred ++ 3#4 ++ f.code ++ 0#11)
  | .rft f => some (bit f.ch ++ 2#5 ++ 60817408#26)
  | .mon f => some (bit f.ch ++ 2#5 ++ f.pred ++ 5#4 ++ f.a ++ 0#12)
  | .mwait f => some (bit f.ch ++ 2#5 ++ f.pred ++ 3145728#23)
  | .fence f => some (bit f.ch ++ 2#5 ++ f.pred ++ 7#4 ++ f.kind ++ f.scope ++ 0#14)
  | .bkpt f => some (bit f.ch ++ 2#5 ++ f.pred ++ 4194304#23)
  | .add f => some (bit f.ch ++ 3#5 ++ f.dst ++ f.a ++ f.b ++ f.pred ++ 0#3)
  | .sub f => some (bit f.ch ++ 3#5 ++ f.dst ++ f.a ++ f.b ++ f.pred ++ 1#3)
  | .mullo f => some (bit f.ch ++ 3#5 ++ f.dst ++ f.a ++ f.b ++ f.pred ++ 2#3)
  | .mulhiI f => some (bit f.ch ++ 3#5 ++ f.dst ++ f.a ++ f.b ++ f.pred ++ 3#3)
  | .mulhiN f => some (bit f.ch ++ 3#5 ++ f.dst ++ f.a ++ f.b ++ f.pred ++ 4#3)
  | .minI f => some (bit f.ch ++ 3#5 ++ f.dst ++ f.a ++ f.b ++ f.pred ++ 5#3)
  | .maxI f => some (bit f.ch ++ 3#5 ++ f.dst ++ f.a ++ f.b ++ f.pred ++ 6#3)
  | .minN f => some (bit f.ch ++ 3#5 ++ f.dst ++ f.a ++ f.b ++ f.pred ++ 7#3)
  | .maxN f => some (bit f.ch ++ 4#5 ++ f.dst ++ f.a ++ f.b ++ f.pred ++ 0#3)
  | .and f => some (bit f.ch ++ 4#5 ++ f.dst ++ f.a ++ f.b ++ f.pred ++ 1#3)
  | .or f => some (bit f.ch ++ 4#5 ++ f.dst ++ f.a ++ f.b ++ f.pred ++ 2#3)
  | .xor f => some (bit f.ch ++ 4#5 ++ f.dst ++ f.a ++ f.b ++ f.pred ++ 3#3)
  | .andn f => some (bit f.ch ++ 4#5 ++ f.dst ++ f.a ++ f.b ++ f.pred ++ 4#3)
  | .shl f => some (bit f.ch ++ 4#5 ++ f.dst ++ f.a ++ f.b ++ f.pred ++ 5#3)
  | .shr f => some (bit f.ch ++ 4#5 ++ f.dst ++ f.a ++ f.b ++ f.pred ++ 6#3)
  | .sar f => some (bit f.ch ++ 4#5 ++ f.dst ++ f.a ++ f.b ++ f.pred ++ 7#3)
  | .adds f => some (bit f.ch ++ 5#5 ++ f.dst ++ f.a ++ f.b ++ f.pred ++ 0#3)
  | .subs f => some (bit f.ch ++ 5#5 ++ f.dst ++ f.a ++ f.b ++ f.pred ++ 1#3)
  | .shrr f => some (bit f.ch ++ 5#5 ++ f.dst ++ f.a ++ f.b ++ f.pred ++ 2#3)
  | .popc f => some (bit f.ch ++ 5#5 ++ f.dst ++ f.a ++ 0#7 ++ f.pred ++ 3#3)
  | .clz f => some (bit f.ch ++ 5#5 ++ f.dst ++ f.a ++ 0#7 ++ f.pred ++ 4#3)
  | .bfe f => some (bit f.ch ++ 5#5 ++ f.dst ++ f.a ++ f.b ++ f.pred ++ 5#3)
  | .addw f => some (bit f.ch ++ 5#5 ++ f.dst ++ f.a ++ f.b ++ f.pred ++ 6#3)
  | .mulw f => some (bit f.ch ++ 5#5 ++ f.dst ++ f.a ++ f.b ++ f.pred ++ 7#3)
  | .ffmaF32 f => some (bit f.ch ++ 6#5 ++ f.dst ++ f.a ++ f.b ++ f.c)
  | .ffmaF16x2 f => some (bit f.ch ++ 7#5 ++ f.dst ++ f.a ++ f.b ++ f.c)
  | .ffmaBf16x2 f => some (bit f.ch ++ 8#5 ++ f.dst ++ f.a ++ f.b ++ f.c)
  | .madI32 f => some (bit f.ch ++ 9#5 ++ f.dst ++ f.a ++ f.b ++ f.c)
  | .dot2I16 f => some (bit f.ch ++ 10#5 ++ f.dst ++ f.a ++ f.b ++ f.c)
  | .dot4I8 f => some (bit f.ch ++ 11#5 ++ f.dst ++ f.a ++ f.b ++ f.c)
  | .faddF32 f => some (bit f.ch ++ 12#5 ++ f.dst ++ f.a ++ f.b ++ f.pred ++ 0#3)
  | .fmulF32 f => some (bit f.ch ++ 12#5 ++ f.dst ++ f.a ++ f.b ++ f.pred ++ 1#3)
  | .fminF32 f => some (bit f.ch ++ 12#5 ++ f.dst ++ f.a ++ f.b ++ f.pred ++ 2#3)
  | .fmaxF32 f => some (bit f.ch ++ 12#5 ++ f.dst ++ f.a ++ f.b ++ f.pred ++ 3#3)
  | .faddF16x2 f => some (bit f.ch ++ 12#5 ++ f.dst ++ f.a ++ f.b ++ f.pred ++ 4#3)
  | .fmulF16x2 f => some (bit f.ch ++ 12#5 ++ f.dst ++ f.a ++ f.b ++ f.pred ++ 5#3)
  | .faddBf16x2 f => some (bit f.ch ++ 12#5 ++ f.dst ++ f.a ++ f.b ++ f.pred ++ 6#3)
  | .fmulBf16x2 f => some (bit f.ch ++ 12#5 ++ f.dst ++ f.a ++ f.b ++ f.pred ++ 7#3)
  | .setp f => some (bit f.ch ++ 13#5 ++ f.pdst ++ f.a ++ f.b ++ f.cond ++ f.type ++ f.cpred)
  | .rcp f => some (bit f.ch ++ 14#5 ++ f.dst ++ f.a ++ 0#7 ++ f.pred ++ 0#3)
  | .rsq f => some (bit f.ch ++ 14#5 ++ f.dst ++ f.a ++ 0#7 ++ f.pred ++ 1#3)
  | .sqrt f => some (bit f.ch ++ 14#5 ++ f.dst ++ f.a ++ 0#7 ++ f.pred ++ 2#3)
  | .exp2 f => some (bit f.ch ++ 14#5 ++ f.dst ++ f.a ++ 0#7 ++ f.pred ++ 3#3)
  | .log2 f => some (bit f.ch ++ 14#5 ++ f.dst ++ f.a ++ 0#7 ++ f.pred ++ 4#3)
  | .tanh f => some (bit f.ch ++ 14#5 ++ f.dst ++ f.a ++ 0#7 ++ f.pred ++ 5#3)
  | .cvt f => some (bit f.ch ++ 15#5 ++ f.dst ++ f.a ++ f.stype ++ f.dtype ++ f.rnd ++ bit f.sat ++ 0#2)
  | .cvtSlotSource f => some (bit f.ch ++ 15#5 ++ f.dst ++ f.a ++ 15#4 ++ f.dtype ++ f.slot ++ 0#2)
  | .cvtSlotDest f => some (bit f.ch ++ 15#5 ++ f.dst ++ f.a ++ f.stype ++ 15#4 ++ f.slot ++ 0#2)
  | .movi f => some (bit f.ch ++ 16#5 ++ f.dst ++ 0#1 ++ f.imm ++ 0#3)
  | .movhi f => some (bit f.ch ++ 16#5 ++ f.dst ++ 0#1 ++ f.imm ++ 1#3)
  | .addi f => some (bit f.ch ++ 16#5 ++ f.dst ++ f.a ++ f.imm ++ 2#3)
  | .andi f => some (bit f.ch ++ 16#5 ++ f.dst ++ f.a ++ f.imm ++ 3#3)
  | .ori f => some (bit f.ch ++ 16#5 ++ f.dst ++ f.a ++ f.imm ++ 4#3)
  | .xori f => some (bit f.ch ++ 16#5 ++ f.dst ++ f.a ++ f.imm ++ 5#3)
  | .shli f => some (bit f.ch ++ 16#5 ++ f.dst ++ f.a ++ f.imm ++ 6#3)
  | .shri f => some (bit f.ch ++ 16#5 ++ f.dst ++ f.a ++ f.imm ++ 7#3)
  | .slide f => some (bit f.ch ++ 17#5 ++ f.dst ++ f.a ++ f.b ++ f.pred ++ 0#3)
  | .slideh f => some (bit f.ch ++ 17#5 ++ f.dst ++ f.a ++ f.b ++ f.pred ++ 1#3)
  | .shfl f => some (bit f.ch ++ 17#5 ++ f.dst ++ f.a ++ f.b ++ f.pred ++ 2#3)
  | .bcast f => some (bit f.ch ++ 17#5 ++ f.dst ++ f.a ++ f.n ++ f.pred ++ 3#3)
  | .ballot f => some (bit f.ch ++ 17#5 ++ f.dst ++ 0#14 ++ f.pred ++ 4#3)
  | .actmask f => some (bit f.ch ++ 17#5 ++ f.dst ++ 0#14 ++ f.pred ++ 5#3)
  | .redadd f => some (bit f.ch ++ 17#5 ++ f.dst ++ f.a ++ 0#7 ++ f.pred ++ 6#3)
  | .redmax f => some (bit f.ch ++ 17#5 ++ f.dst ++ f.a ++ 0#7 ++ f.pred ++ 7#3)
  | .mov f => some (bit f.ch ++ 18#5 ++ f.dst ++ f.a ++ 0#7 ++ f.pred ++ 0#3)
  | .sel f => some (bit f.ch ++ 18#5 ++ f.dst ++ f.a ++ f.b ++ f.pred ++ 1#3)
  | .movsv f => some (bit f.ch ++ 18#5 ++ f.dst ++ f.a ++ 0#7 ++ f.pred ++ 2#3)
  | .movvs f => some (bit f.ch ++ 18#5 ++ f.dst ++ f.a ++ 0#7 ++ f.pred ++ 3#3)
  | .rdsp f => some (bit f.ch ++ 18#5 ++ f.dst ++ f.a ++ 0#7 ++ f.pred ++ 4#3)
  | .wrsp f => some (bit f.ch ++ 18#5 ++ f.num ++ f.a ++ 0#7 ++ f.pred ++ 5#3)
  | .sadd f => some (bit f.ch ++ 19#5 ++ f.dst ++ f.a ++ f.b ++ 56#6)
  | .ssub f => some (bit f.ch ++ 19#5 ++ f.dst ++ f.a ++ f.b ++ 57#6)
  | .smul f => some (bit f.ch ++ 19#5 ++ f.dst ++ f.a ++ f.b ++ 58#6)
  | .sand f => some (bit f.ch ++ 19#5 ++ f.dst ++ f.a ++ f.b ++ 59#6)
  | .sor f => some (bit f.ch ++ 19#5 ++ f.dst ++ f.a ++ f.b ++ 60#6)
  | .sxor f => some (bit f.ch ++ 19#5 ++ f.dst ++ f.a ++ f.b ++ 61#6)
  | .sshl f => some (bit f.ch ++ 19#5 ++ f.dst ++ f.a ++ f.b ++ 62#6)
  | .sshr f => some (bit f.ch ++ 19#5 ++ f.dst ++ f.a ++ f.b ++ 63#6)
  | .ldp f => some (bit f.ch ++ 20#5 ++ f.pred ++ 0#2 ++ f.w ++ bit f.fb ++ f.data ++ f.a ++ f.mod)
  | .stp f => some (bit f.ch ++ 20#5 ++ f.pred ++ 1#2 ++ f.w ++ bit f.fb ++ f.data ++ f.a ++ f.mod)
  | .ldsc f => some (bit f.ch ++ 21#5 ++ f.pred ++ 0#2 ++ f.w ++ bit f.fb ++ f.data ++ f.a ++ f.mod)
  | .stsc f => some (bit f.ch ++ 21#5 ++ f.pred ++ 1#2 ++ f.w ++ bit f.fb ++ f.data ++ f.a ++ f.mod)
  | .atsc f => some (bit f.ch ++ 21#5 ++ f.pred ++ 9#4 ++ bit f.wide ++ bit f.fb ++ f.data ++ f.a ++ f.aop)
  | .ldcl f => some (bit f.ch ++ 22#5 ++ f.pred ++ 0#2 ++ f.w ++ bit f.fb ++ f.data ++ f.a ++ f.mod)
  | .stcl f => some (bit f.ch ++ 22#5 ++ f.pred ++ 1#2 ++ f.w ++ bit f.fb ++ f.data ++ f.a ++ f.mod)
  | .atcl f => some (bit f.ch ++ 22#5 ++ f.pred ++ 9#4 ++ bit f.wide ++ bit f.fb ++ f.data ++ f.a ++ f.aop)
  | .ldds f => some (bit f.ch ++ 23#5 ++ f.pred ++ 0#2 ++ f.w ++ bit f.fb ++ f.data ++ f.a ++ f.mod)
  | .stds f => some (bit f.ch ++ 23#5 ++ f.pred ++ 1#2 ++ f.w ++ bit f.fb ++ f.data ++ f.a ++ f.mod)
  | .atds f => some (bit f.ch ++ 23#5 ++ f.pred ++ 9#4 ++ bit f.wide ++ bit f.fb ++ f.data ++ f.a ++ f.aop)
  | .ldg f => some (bit f.ch ++ 24#5 ++ f.pred ++ 0#2 ++ f.w ++ bit f.fb ++ f.data ++ f.a ++ f.rtype ++ 0#2)
  | .stg f => some (bit f.ch ++ 24#5 ++ f.pred ++ 1#2 ++ f.w ++ bit f.fb ++ f.data ++ f.a ++ f.rtype ++ 0#2)
  | .atg f => some (bit f.ch ++ 24#5 ++ f.pred ++ 9#4 ++ bit f.wide ++ bit f.fb ++ f.data ++ f.a ++ f.aop)
  | .pfg f => some (bit f.ch ++ 24#5 ++ f.pred ++ 24#5 ++ bit f.fb ++ 0#6 ++ f.a ++ f.level ++ 0#2)
  | .ldf f => some (bit f.ch ++ 25#5 ++ f.pred ++ 0#2 ++ f.w ++ bit f.fb ++ f.data ++ f.a ++ f.rtype ++ bit f.asplit ++ 0#1)
  | .stf f => some (bit f.ch ++ 25#5 ++ f.pred ++ 1#2 ++ f.w ++ bit f.fb ++ f.data ++ f.a ++ f.rtype ++ 0#2)
  | .atf f => some (bit f.ch ++ 25#5 ++ f.pred ++ 9#4 ++ bit f.wide ++ bit f.fb ++ f.data ++ f.a ++ f.aop)
  | .pubf f => some (bit f.ch ++ 25#5 ++ f.pred ++ 24#5 ++ bit f.fb ++ f.data ++ f.a ++ 0#4)
  | .cpy f => some (bit f.ch ++ 26#5 ++ 0#2 ++ bit f.fb ++ f.tok ++ f.d ++ f.bar ++ 0#3)
  | .cpyt f => some (bit f.ch ++ 26#5 ++ 1#2 ++ bit f.fb ++ f.tok ++ f.d ++ f.bar ++ 0#3)
  | .cpyx f => some (bit f.ch ++ 26#5 ++ 2#2 ++ bit f.fb ++ f.tok ++ f.d ++ f.bar ++ 0#3)
  | .cpys f => some (bit f.ch ++ 26#5 ++ 3#2 ++ bit f.fb ++ 0#6 ++ f.d ++ f.bar ++ 0#3)
  | .mma f => some (bit f.ch ++ 27#5 ++ 0#3 ++ bit f.fb ++ f.acc ++ f.slot ++ f.shape ++ f.rep ++ f.desc ++ bit f.ra ++ bit f.rb ++ 0#2)
  | .accz f => some (bit f.ch ++ 27#5 ++ 1#3 ++ bit f.fb ++ f.acc ++ f.slot ++ 0#15)
  | .accrd f => some (bit f.ch ++ 27#5 ++ 2#3 ++ bit f.fb ++ f.acc ++ f.slot ++ 0#5 ++ f.desc ++ bit f.ra ++ bit f.rb ++ 0#2)
  | .accwr f => some (bit f.ch ++ 27#5 ++ 3#3 ++ bit f.fb ++ f.acc ++ f.slot ++ 0#5 ++ f.desc ++ bit f.ra ++ bit f.rb ++ 0#2)
  | .accnorm f => some (bit f.ch ++ 27#5 ++ 4#3 ++ bit f.fb ++ f.acc ++ f.slot ++ 0#15)
  | .mfence f => some (bit f.ch ++ 27#5 ++ 41943040#26)
  | .binit f => some (bit f.ch ++ 28#5 ++ 0#3 ++ f.pred ++ bit f.sp ++ f.a ++ f.b ++ 0#5)
  | .barv f => some (bit f.ch ++ 28#5 ++ 1#3 ++ f.pred ++ bit f.sp ++ f.a ++ 0#12)
  | .bexp f => some (bit f.ch ++ 28#5 ++ 2#3 ++ f.pred ++ bit f.sp ++ f.a ++ f.b ++ 0#5)
  | .bwait f => some (bit f.ch ++ 28#5 ++ 3#3 ++ f.pred ++ bit f.sp ++ f.a ++ f.b ++ f.pd ++ 0#2)
  | .btest f => some (bit f.ch ++ 28#5 ++ 4#3 ++ f.pred ++ bit f.sp ++ f.a ++ f.b ++ f.pd ++ 0#2)
  | .bretire f => some (bit f.ch ++ 28#5 ++ 5#3 ++ f.pred ++ bit f.sp ++ f.a ++ 0#12)
  | .gbar f => some (bit f.ch ++ 28#5 ++ 57671680#26)
  | .tbar f => some (bit f.ch ++ 28#5 ++ 66060288#26)
  | .gjoin f => some (bit f.ch ++ 29#5 ++ 0#9 ++ f.a ++ 0#10)
  | .ginfo f => some (bit f.ch ++ 29#5 ++ 1#3 ++ f.dst ++ f.a ++ 0#10)
  | .fabclr f => some (bit f.ch ++ 29#5 ++ 2#3 ++ f.dst ++ f.a ++ 0#10)
  | .wspill f => some (bit f.ch ++ 29#5 ++ 192#9 ++ f.a ++ 0#10)
  | .wfill f => some (bit f.ch ++ 29#5 ++ 256#9 ++ f.a ++ 0#10)
  | .sqclaim f => some (bit f.ch ++ 30#5 ++ 0#3 ++ f.pred ++ bit f.fb ++ f.dst ++ f.seq ++ f.b ++ 0#1)
  | .sqpub f => some (bit f.ch ++ 30#5 ++ 1#3 ++ f.pred ++ bit f.fb ++ 0#6 ++ f.seq ++ f.b ++ 0#1)
  | .sqacq f => some (bit f.ch ++ 30#5 ++ 2#3 ++ f.pred ++ bit f.fb ++ f.dst ++ f.seq ++ f.b ++ bit f.snap)
  | .sqret f => some (bit f.ch ++ 30#5 ++ 3#3 ++ f.pred ++ bit f.fb ++ f.dst ++ f.seq ++ f.b ++ 0#1)
  | .sqinfo f => some (bit f.ch ++ 30#5 ++ 4#3 ++ f.pred ++ bit f.fb ++ f.dst ++ f.seq ++ f.b ++ 0#1)
  | .press f => some (bit f.ch ++ 30#5 ++ 5#3 ++ f.pred ++ bit f.fb ++ 0#6 ++ f.region ++ 0#8)
  | .launch f => some (bit f.ch ++ 31#5 ++ 0#3 ++ f.pred ++ bit f.fb ++ f.dst ++ f.a ++ 0#6)
  | .pgprobe f => some (bit f.ch ++ 31#5 ++ 1#3 ++ f.pred ++ bit f.fb ++ f.dst ++ f.a ++ 0#6)
  | .pgpref f => some (bit f.ch ++ 31#5 ++ 2#3 ++ f.pred ++ bit f.fb ++ 0#6 ++ f.a ++ 0#6)
  | .sysrd f => some (bit f.ch ++ 31#5 ++ 3#3 ++ f.pred ++ bit f.fb ++ f.dst ++ 0#1 ++ f.a ++ 0#6)
  | .sysrdPeek f => some (bit f.ch ++ 31#5 ++ 3#3 ++ f.pred ++ bit f.fb ++ f.dst ++ 1#1 ++ f.a ++ 0#6)
  | .syswr f => some (bit f.ch ++ 31#5 ++ 4#3 ++ f.pred ++ bit f.fb ++ f.dst ++ 0#1 ++ f.a ++ 0#6)
  | .pegarm f => some (bit f.ch ++ 31#5 ++ 5#3 ++ f.pred ++ bit f.fb ++ f.dst ++ f.a ++ 0#6)
  | .driftStep => none
  | .loadReturn _ => none
  | .storeAck _ => none
  | .atomicReturn _ => none
  | .sfuResult _ => none
  | .homeLoadRequest _ => none
  | .homeWriteThrough _ => none
  | .homeOwnedRequest _ => none
  | .ownedGrant _ => none
  | .grantAcknowledge _ _ => none
  | .forwardReceive _ _ => none
  | .recallReceive _ _ => none
  | .ownerAnswer _ _ _ => none
  | .writeBackReceive _ _ _ => none
  | .writeBackAck _ _ _ => none
  | .fillReply _ => none
  | .writeThroughAck _ => none
  | .requestRefusedResend _ => none
  | .packageRebase => none
  | .floorMessage _ _ _ _ => none
  | .mwaitWake _ _ => none
  | .mwaitTimeout _ => none
  | .remoteTimeout _ => none
  | .lateReplyDrop _ => none
  | .fairnessOverdue _ => none
  | .gangDemotion _ => none
  | .parkedPathTakeover _ => none
  | .noProgress _ => none
  | .urgencyEvaluation _ => none
  | .swapOut _ _ => none
  | .forcedSwap _ _ => none
  | .freePositionSwapIn _ => none
  | .swapComplete _ => none
  | .collectiveAccept _ _ => none
  | .granuleLand _ => none
  | .matrixPassGrant _ => none
  | .matrixPassEnd _ => none
  | .tileOpApply _ => none
  | .sqclaimRequest _ => none
  | .sqpubRequest _ => none
  | .sqacqRequest _ => none
  | .sqretRequest _ => none
  | .sqinfoRequest _ => none
  | .sqacqReply _ => none
  | .sequenceReply _ => none
  | .sequenceResend _ => none
  | .pageWalk _ _ _ _ => none
  | .pageRequestRetry _ => none
  | .launchHeadRead _ => none
  | .dispatchSlotTake _ => none
  | .launchDispatch _ => none
  | .teamPlace _ => none
  | .launchStampWrite _ => none
  | .hostProdWrite _ _ _ => none
  | .flitReceive _ _ _ => none
  | .flitResend _ _ => none
  | .linkTrainingDone _ _ => none
  | .retrainLimitExpiry _ => none
  | .linkStateReport _ _ _ _ => none
  | .linkReroute _ => none
  | .lostWrite _ => none
  | .exportRead _ _ _ => none
  | .pubChunkReceive _ => none
  | .pubRefusedReturn _ _ _ _ => none
  | .pubAckReceive _ _ _ => none
  | .pubDeadline _ => none
  | .ptpSync _ => none
  | .preemptRemoteBound _ => none
  | .teardownNodeAck _ _ => none
  | .teardownBound _ => none
  | .create _ => none
  | .start _ => none
  | .preempt _ => none
  | .resume _ => none
  | .teardown _ => none
  | .qenable _ => none
  | .qdrain _ => none
  | .qclear _ => none
  | .dgrant _ => none
  | .drevoke _ => none
  | .region _ => none
  | .invalidate _ => none
  | .resolve _ => none
  | .halt _ => none
  | .debugResume _ => none
  | .staterd _ => none
  | .edit _ => none
  | .memrd _ => none
  | .memwr _ => none
  | .commit _ => none
  | .discard _ => none
  | .breakSet _ => none
  | .watch _ => none
  | .trace _ => none
  | .sample _ => none
  | .histo _ => none
  | .trigger _ => none
  | .peg _ => none
  | .scan _ => none
  | .go _ => none
  | .pegStop => none
  | .sampleTag _ => none
  | .histogramThreshold _ => none
  | .abortWrite _ => none
  | .windowLengthWrite _ => none
  | .retrainLimitWrite _ => none
  | .fabricTableInstall _ => none
  | .dieScratchpadContribWrite _ => none
  | .systemRegisterWrite _ => none
  | .hemFaultReport _ _ _ => none
  | .startSequence _ => none
  | .attestationRequest _ _ => none
  | .malformedWord _ _ _ => none
  | .issueSlotWithheld _ _ => none
  | .firmwareQueuePost _ => none
  | .linkTrainingStart _ => none
  | .bufferDefect _ _ => none
  | .granuleCorruption _ _ => none
  | .powerLoss => none
  | .failureCountClear _ _ => none

/-- The bytes of an instruction as the hardware stores them: one word, little-endian (R3, R26). -/
def wordBytes (w : Word) : List Byte :=
  [w.extractLsb' 0 8, w.extractLsb' 8 8, w.extractLsb' 16 8, w.extractLsb' 24 8]

/-- The word of four bytes stored lowest first (R3). -/
def wordOfBytes (b0 b1 b2 b3 : Byte) : Word := b3 ++ b2 ++ b1 ++ b0

/-- Decode the instruction stored in the bytes, and what follows it; none where the word is rejected or cut short. -/
def decodeBytes : List Byte → Option (Instr × List Byte)
  | b0 :: b1 :: b2 :: b3 :: rest =>
    match decodeWord (wordOfBytes b0 b1 b2 b3) with
    | .ok i => some (i, rest)
    | .error _ => none
  | _ => none

/-- The instruction the decoder reads from one word numbered as the opcode table numbers its bits; every instruction is one
32-bit word. -/
def decodeTableWord (nbits w : Nat) : Option Instr :=
  (decodeBytes (wordBytes (BitVec.ofNat 32 (w % 2 ^ nbits)))).map Prod.fst

end Sys2Proof
end

