-- ==== Sys2Proof/Machine/Lane.lean ====
section
/-! DEFINITION. Lane instructions (major 17), moves and special registers (major 18) and uniform instructions (major 19). -/

namespace Sys2Proof.Machine

/-! ### Lane instructions (R114-R116) -/

/-- The active threads of the gang as issued, those that another word of the chain has parked among them (R76, R114, R332). -/
def State.laneThreads (s : State) : List Thread := if s.issued.isEmpty then s.gangThreads else { s with gang := s.issued }.gangThreads

/-- Those whose predicate is true. -/
def State.laneExecuting (s : State) (pred : BitVec 3) : List Thread := s.laneThreads.filter fun t => t.p pred

/-- A(j): the source read by the gang's thread on lane j, none where no active thread stands there (R114). -/
def State.laneValue (s : State) (a : BitVec 7) (j : Nat) : Option Word :=
  (s.laneThreads.find? fun t => t.lane == j).map fun t => s.src t a

/-- A(j), or 0 where lane j has no active thread. -/
def State.laneOr0 (s : State) (a : BitVec 7) (j : Nat) : Word := (s.laneValue a j).getD 0

/-- `SLIDE` (Table 5.14). -/
def execSlide (f : F3) (s : State) : Out :=
  .next (s.writeV f.pred f.dst fun t =>
    let j : Int := t.lane + (s.src t f.b).toInt
    if 0 ≤ j && j ≤ 31 then s.laneOr0 f.a j.toNat else 0)

/-- One halfword of `SLIDEH`: halfword h of the gang, or the fill (Table 5.14). -/
def State.slideHalf (s : State) (a : BitVec 7) (fill : BitVec 16) (h : Int) : BitVec 16 :=
  if 0 ≤ h && h ≤ 63 then
    match s.laneValue a (h.toNat / 2) with
    | some w => half w (h.toNat % 2)
    | none => fill
  else fill

/-- `SLIDEH`: each thread reads its step and fill from its own group's s register (Table 5.14, R115). -/
def execSlideh (f : F3) (s : State) : Out :=
  .next (s.writeV f.pred f.dst fun t =>
    let b := s.src t f.b
    let base : Int := 2 * (t.lane : Int) + (half b 1).toInt
    s.slideHalf f.a (half b 0) (base + 1) ++ s.slideHalf f.a (half b 0) base)

/-- `SHFL` (Table 5.14). -/
def execShfl (f : F3) (s : State) : Out :=
  .next (s.writeV f.pred f.dst fun t =>
    let j := (s.src t f.b).toNat
    if j ≤ 31 then s.laneOr0 f.a j else 0)

/-- `BCAST` (Table 5.14). -/
def execBcast (f : FBcast) (s : State) : Out :=
  .next (s.writeV f.pred f.dst fun _ => s.laneOr0 f.a f.n.toNat)

/-- `BALLOT`: `pred` is the balloted predicate, and every active thread is written (Table 5.15). -/
def execBallot (f : FD) (s : State) : Out :=
  .next (s.writeAll f.dst fun _ => laneMask (s.laneExecuting f.pred))

/-- `ACTMASK` (Table 5.15). -/
def execActmask (f : FD) (s : State) : Out :=
  .next (s.writeV f.pred f.dst fun t => laneMask (s.laneThreads.filter fun u => u.tid == t.tid && u.slot == t.slot))

/-- `REDADD` over the lanes of the executing threads (Table 5.15). -/
def execRedadd (f : F2) (s : State) : Out :=
  .next (s.writeV f.pred f.dst fun _ => (s.laneExecuting f.pred).foldl (fun x u => x + s.src u f.a) 0)

/-- `REDMAX` over the lanes of the executing threads, as I32 (Table 5.15). -/
def execRedmax (f : F2) (s : State) : Out :=
  .next (s.writeV f.pred f.dst fun _ => (s.laneExecuting f.pred).foldl (fun x u => maxI x (s.src u f.a)) 0x80000000)

/-! ### Moves and special registers (R117, R118) -/

/-- `MOV` (Table 5.16). -/
def execMov (f : F2) (s : State) : Out := .next (s.writeV f.pred f.dst fun t => s.src t f.a)

/-- `SEL`: `pred` selects and does not guard (Table 5.16). -/
def execSel (f : F3) (s : State) : Out :=
  .next (s.writeAll f.dst fun t => if t.p f.pred then s.src t f.a else s.src t f.b)

/-- `MOVSV` (Table 5.16). -/
def execMovsv (f : F2) (s : State) : Out := .next (s.writeV f.pred f.dst fun t => s.src t f.a)

/-- `MOVVS`: each group takes the value of its lowest-lane executing thread of the gang as issued (R76, Table 5.16). -/
def execMovvs (f : F2) (s : State) : Out :=
  .next (s.eachGroup (s.laneExecuting f.pred) fun g t => g.setS f.dst.toNat (s.src t f.a)).advance

/-- `WDEPTH` of a thread (Table 4.2). -/
def Thread.wdepth (t : Thread) : Word := BitVec.ofNat 16 t.spill ++ BitVec.ofNat 16 t.depth

/-- What the words of a chain read of a thread and its group: as kept for the chain now issuing, else what stands there (R29). -/
def State.wasOf (s : State) (t : Thread) : Before :=
  let of {α : Type} (d : α) (f : Group → α) : α := match s.groupOf t with | some g => f g | none => d
  t.old.getD { regs := t.regs, preds := t.preds, depth := t.depth, spill := t.spill, lt := s.lt (s.coreOf t.tid),
               fabst := of 0 Group.fabst, sregs := of [] Group.sregs, fmode := of 0 Group.fmode }

/-- `SEAMD` of a thread; `ss` says that its group is in single-stitch mode (Table 4.4). -/
def Thread.seamd (t : Thread) (ss : Bool) : Word :=
  BitVec.ofNat 16 (match t.seams with | e :: _ => e.tag | [] => 0) ++ bit ss ++ 0#9 ++ BitVec.ofNat 6 t.seams.length

/-- The special registers a thread reads by number (Table 2.5). -/
def State.special (s : State) (t : Thread) (n : Nat) : BitVec 64 :=
  match n with
  | 0 => BitVec.ofNat 64 ((s.teamIndex t.tid * recTsize (s.recordOf t.tid) + t.lid) % 2 ^ 32)
  | 1 => BitVec.ofNat 64 t.lid
  | 2 => BitVec.ofNat 64 t.lane
  | 3 => BitVec.ofNat 64 t.slot
  | 4 => BitVec.ofNat 64 (s.teamIndex t.tid)
  | 5 => BitVec.ofNat 64 (s.coreOf t.tid)
  | 6 => BitVec.ofNat 64 (coreCluster (s.coreOf t.tid))
  | 7 => BitVec.ofNat 64 (coreDie (s.coreOf t.tid))
  | 8 => BitVec.ofNat 64 ((s.wasOf t).lt % 2 ^ 48)
  | 9 => BitVec.ofNat 64 s.tick
  | 10 => t.fstat.setWidth 64
  | 11 => (s.mode t).setWidth 64
  | 12 => (s.wasOf t).fabst.setWidth 64
  | 13 => (t.seamd (s.single t)).setWidth 64
  | 14 => ({ t with depth := (s.wasOf t).depth, spill := (s.wasOf t).spill }.wdepth).setWidth 64
  | _ => (laneMask s.laneThreads).setWidth 64

/-- The special register is 64 bits wide (Table 2.5). -/
def specialWide (n : Nat) : Bool := n == 8 || n == 9

/-- `RDSP` (R118). -/
def execRdsp (f : F2) (s : State) : Out :=
  .next (s.each (fun t => t.p f.pred) fun t =>
    let x := s.special t f.a.toNat
    s.putV f.dst.toNat (if specialWide f.a.toNat then [x.extractLsb' 0 32, x.extractLsb' 32 32] else [x.extractLsb' 0 32]) t)

/-- `WRSP` of `FSTAT` (number 10) in each executing thread, or of `FMODE` (number 11) in each group from its lowest-lane
executing thread (R56, R58, R118). -/
def execWrsp (f : FWrsp) (s : State) : Out :=
  if f.num == 10 then
    .next (s.each (fun t => t.p f.pred) fun t => { t with fstat := (s.src t f.a).extractLsb' 0 6 })
  else
    .next (s.eachGroup (s.executing f.pred) fun g t => { g with fmode := (s.src t f.a).extractLsb' 0 4 }).advance

/-! ### Uniform instructions (R119) -/

/-- Compute once for each group with an active thread: s(dst) := op of two of its s registers (R119). -/
def State.uniform (s : State) (f : FU) (op : Word → Word → Word) : State :=
  (s.eachGroup s.gangThreads fun g t => g.setS f.dst.toNat (op (s.sreg t (f.a.toNat - 64)) (s.sreg t (f.b.toNat - 64)))).advance

/-- `SADD` (Table 5.17). -/
def execSadd (f : FU) (s : State) : Out := .next (s.uniform f fun x y => x + y)
/-- `SSUB` (Table 5.17). -/
def execSsub (f : FU) (s : State) : Out := .next (s.uniform f fun x y => x - y)
/-- `SMUL` (Table 5.17). -/
def execSmul (f : FU) (s : State) : Out := .next (s.uniform f fun x y => x * y)
/-- `SAND` (Table 5.17). -/
def execSand (f : FU) (s : State) : Out := .next (s.uniform f fun x y => x &&& y)
/-- `SOR` (Table 5.17). -/
def execSor (f : FU) (s : State) : Out := .next (s.uniform f fun x y => x ||| y)
/-- `SXOR` (Table 5.17). -/
def execSxor (f : FU) (s : State) : Out := .next (s.uniform f fun x y => x ^^^ y)
/-- `SSHL` (R102, Table 5.17). -/
def execSshl (f : FU) (s : State) : Out := .next (s.uniform f shiftLeft)
/-- `SSHR` (R102, Table 5.17). -/
def execSshr (f : FU) (s : State) : Out := .next (s.uniform f shiftRight)

end Sys2Proof.Machine
end

