-- ==== Sys2Proof/Machine/Homes.lean ====
section
/-! DEFINITION. Hems, path tags, sectors in the L1s and at their homes, and the accesses of engines and units that the home
performs in one step (R174-R195, R196-R208). -/

namespace Sys2Proof.Machine

/-! ### Hems (R196, R202) -/

/-- One bit of the CRC. -/
def crcBit (c : BitVec 16) : BitVec 16 := if c.getLsbD 15 then (c <<< 1) ^^^ 0x8BB7 else c <<< 1

/-- Apply a function n times. -/
def times {α : Type} (f : α → α) : Nat → α → α
  | 0, x => x
  | n + 1, x => times f n (f x)

/-- The hem of a granule's bytes, lowest address first (R196). -/
def crc16 (bs : List Byte) : BitVec 16 :=
  bs.foldl (fun c b => times crcBit 8 (c ^^^ ((b.setWidth 16 : BitVec 16) <<< 8))) 0xFFFF

/-- The syndrome of the granule holding a location: its hem XOR the CRC of its bytes; 0 is good (R202). A host's interface generates the
hem as it reads host memory, so a granule there is good (R197). -/
def State.synAt (s : State) (loc : Nat) : BitVec 16 := if isHost loc then 0 else SMap.get 0 s.syn (loc / 32)

/-- Set the syndrome of the granule holding a location. -/
def State.setSyn (s : State) (loc : Nat) (v : BitVec 16) : State := { s with syn := SMap.put 0 (loc / 32) v s.syn }

/-- The path tag kept with a stored granule: the hops of the copies it came through (R208). -/
def State.tagAt (s : State) (loc : Nat) : BitVec 64 := let t := SMap.get 0 s.gtag (loc / 32); if t == 0 then 0xFF000000FF800000#64 else t

/-- Set the path tag kept with a granule. -/
def State.setTag (s : State) (loc : Nat) (v : BitVec 64) : State := { s with gtag := SMap.put 0 (loc / 32) v s.gtag }

/-- Write whole granules with the syndromes given for them. -/
def State.setGranules (s : State) (loc : Nat) (bs : List Byte) (syns : List (BitVec 16)) : State :=
  let s := s.setBytes loc bs
  ((List.range syns.length).zip syns).foldl (fun s p => s.setSyn (loc + 32 * p.1) p.2) s

/-- The syndromes of the granules that n bytes at a granule-aligned location span. -/
def State.syns (s : State) (loc n : Nat) : List (BitVec 16) := (List.range ((n + 31) / 32)).map fun i => s.synAt (loc + 32 * i)

/-- Whether every granule that a byte range touches passes its check. -/
def State.clean (s : State) (loc n : Nat) : Bool :=
  (List.range (n + 32)).all fun i => if i < n then s.synAt (loc + i) == 0 else true

/-! ### Fenced units (R25) -/

/-- A stack that failed its training or its cache test. -/
def State.fencedStack (s : State) (k : Nat) : Bool := s.fenced.contains (6, k) || s.fenced.contains (7, k) || s.fencedDie (k / 4)
/-- A core. -/
def State.fencedCore (s : State) (k : Nat) : Bool := s.fenced.contains (9, k) || s.fencedDie (coreDie k)
/-- A slice, with its stack. -/
def State.fencedSlice (s : State) (sl : Nat) : Bool := s.fenced.contains (8, sl) || s.fencedStack (sl / 16)

/-! ### Homing (R16, R329) -/

/-- The slices of a context's partition in ascending number; all that are not fenced for the firmware context (R25,
R42). -/
def State.partition (s : State) (c : Nat) : List Nat :=
  match s.ctx c with
  | some x => (List.range 256).filter fun i => if c == fwNum then !s.fencedSlice i else x.part.getLsbD i
  | none => []

/-- The node number of a remote location. -/
def remoteNode (loc : Nat) : Nat := loc / 2 ^ 52 % 64

/-- The offset of a remote location in its node. -/
def remoteOff (loc : Nat) : Nat := loc % 2 ^ 52

/-- The home slice of a global location for a context (R16, R329, R342). -/
def State.homeSlice (s : State) (c loc : Nat) : Nat :=
  if isRemote loc then
    let p := s.partition c
    (p[(remoteOff loc / 65536 + remoteNode loc) % max 1 p.length]?).getD 0
  else paSlice loc

/-- The key of a 64-byte sector: remote frames have a home of their own in each context (R329). -/
def sectorKey (c loc : Nat) : Nat := if isRemote loc then 2 ^ 60 * (c + 1) + loc / 64 else loc / 64

/-- The first location of a sector. -/
def sectorLoc (sec : Nat) : Nat := sec % 2 ^ 60 * 64

/-- The union of two journeys' hops: where both name one unit, the later journey's stands (R208). -/
def tagJoin (a b : BitVec 64) : BitVec 64 :=
  let pick (mask : BitVec 64) (has : Bool) : BitVec 64 := (if has then a else b) &&& mask
  pick 0xFF00000000000000#64 (field a 63 56 != 0xFF) ||| ((a ||| b) &&& 0x00F0000000000000#64) |||
  pick 0x000FC00000000000#64 (a.getLsbD 51) ||| pick 0x00003F8000000000#64 (a.getLsbD 45) |||
  pick 0x0000007C00000000#64 (a.getLsbD 38) ||| ((a ||| b) &&& 0x0000000300000000#64) |||
  pick 0x00000000FF800000#64 (field a 31 23 != 0x1FF) ||| (a &&& 0x0000000000700000#64)

/-- A tag that names no hop. -/
def noTag : BitVec 64 := 0xFF000000FF800000#64

/-- The `BND` field of a journey from one die to another (R12, R25). -/
def State.bndBits (s : State) (src dst : Nat) : BitVec 64 := BitVec.ofNat 64 (boundaryBits src dst s.fencedDie * 2 ^ 52)

/-- The fields of a tag that name no slice and no scratchpad, with a checker's code. -/
def tagBase (cons : Nat) : BitVec 64 := noTag ||| BitVec.ofNat 64 (cons * 2 ^ 20)

/-- A tag that names a slice. -/
def sliceTag (sl : Nat) (t : BitVec 64) : BitVec 64 := ((t.setWidth 56).setWidth 64) ||| BitVec.ofNat 64 (sl * 2 ^ 56)

/-- The fields of a tag that name a remote location's node. -/
def nodeBits (loc : Nat) : BitVec 64 := BitVec.ofNat 64 (2 ^ 45 + (if isHost loc then 2 ^ 44 else 0) + remoteNode loc % 32 * 2 ^ 39)

/-- The fields of a tag that name a port. -/
def portBits (p : Nat) : BitVec 64 := BitVec.ofNat 64 (2 ^ 51 + p % 32 * 2 ^ 46)

/-- The hops of a remote location's side: its node, and the port that its replies come in by. -/
def State.nodeTag (s : State) (loc : Nat) : BitVec 64 :=
  nodeBits loc ||| (match s.portOf loc with | some p => portBits p | none => 0)

/-- The hops of a local location's stack: none where a line of the home slice's own array serves it, the memory-side cache, or the HBM array
(R17, R18, assumptions 13, 66); a stack whose cache is disabled is served uncached. -/
def State.stackTag (s : State) (loc : Nat) : BitVec 64 :=
  let cached := Config.fromMemCache s.tick loc && !s.reduced.contains (7, paStack loc)
  if Config.fromSlice s.tick loc then 0 else BitVec.ofNat 64 (2 ^ 38 + paStack loc * 2 ^ 34 + (if cached then 2 ^ 33 else 2 ^ 32))

/-- The path tag of a granule that travels from its home to a die (Table 9.3). -/
def State.homeTag (s : State) (c loc die cons : Nat) : BitVec 64 :=
  let sl := s.homeSlice c loc
  let far := if isRemote loc then
      s.nodeTag loc ||| (match s.portOf loc with | some p => s.bndBits (portDie p) (sliceDie sl) | none => 0)
    else s.stackTag loc
  tagJoin (sliceTag sl (tagBase cons) ||| s.bndBits (sliceDie sl) die ||| far) (s.tagAt loc)

/-- An agent number above the cores: a copy engine (R182). -/
def isEngine (agent : Nat) : Bool := 384 ≤ agent

/-- The die of an agent. -/
def agentDie (agent : Nat) : Nat := if isEngine agent then (agent - 384) / 24 else coreDie agent

/-- A tag as it stays with a granule: its hops without the checker, 0 where it names none. -/
def keptTag (t : BitVec 64) : BitVec 64 := if t &&& ~~~0x700000#64 == noTag then 0 else t &&& ~~~0x700000#64

/-- The slice of a sector's home. -/
def State.secSlice (s : State) (sec : Nat) : Nat := s.homeSlice (sec / 2 ^ 60 - 1) (sectorLoc sec)

/-- The boundaries that a granule crosses from a die to the home of a sector, and from there to the port of a remote one (R12, R208). -/
def State.bndHome (s : State) (sec src : Nat) : BitVec 64 :=
  let home := sliceDie (s.secSlice sec)
  s.bndBits src home ||| (if isRemote (sectorLoc sec) then match s.portOf (sectorLoc sec) with | some p => s.bndBits home (portDie p) | none => 0
    else 0)

/-- The tag kept with a granule that a die has sent to a sector's home: the hops it had, 0 for none, and those of this journey (R208). -/
def State.sentTag (s : State) (sec src : Nat) (old : BitVec 64) : BitVec 64 :=
  keptTag (tagJoin (noTag ||| s.bndHome sec src) (if old == 0 then noTag else old))

/-- The path tag of a granule that travels from its home to a core. -/
def State.globalTag (s : State) (c loc core cons : Nat) : BitVec 64 := s.homeTag c loc (coreDie core) cons

/-- The path tag of a granule that an atomic unit checks at its home. -/
def State.atomicTag (s : State) (c loc : Nat) : BitVec 64 := s.homeTag c loc (sliceDie (s.homeSlice c loc)) 3

/-- The path tag of a granule checked at a scratchpad bank, or read from it or from a die scratchpad by a core (Table 9.3). -/
def State.bankTag (s : State) (core loc cons : Nat) : BitVec 64 :=
  let sl := (loc - 2 ^ 41) / 2 ^ 20 % 256
  let die := if cons == 3 then sliceDie sl else coreDie core
  tagJoin (if isScratch loc then BitVec.ofNat 64 (0xFF * 2 ^ 56 + (loc - 2 ^ 40) / 2 ^ 22 * 2 ^ 23 + cons * 2 ^ 20)
    else sliceTag sl (tagBase cons) ||| s.bndBits (sliceDie sl) die) (s.tagAt loc)

/-! ### L1 sectors -/

/-- A core's copy of a sector. -/
def State.l1Of (s : State) (core sec : Nat) : Option L1Sec := s.l1.find? fun e => e.core == core && e.sec == sec

/-- Take a core's copy away. -/
def State.dropL1 (s : State) (core sec : Nat) : State :=
  { s with l1 := s.l1.filter fun e => !(e.core == core && e.sec == sec) }

/-- Install a copy in place of any the core holds. -/
def State.putL1 (s : State) (e : L1Sec) : State := { (s.dropL1 e.core e.sec) with l1 := (s.dropL1 e.core e.sec).l1 ++ [e] }

/-- Update a core's copy. -/
def State.modL1 (s : State) (core sec : Nat) (f : L1Sec → L1Sec) : State :=
  { s with l1 := s.l1.map fun e => if e.core == core && e.sec == sec then f e else e }

/-- A new entry without data. -/
def L1Sec.fresh (core sec c : Nat) (st : L1State) : L1Sec where
  core := core
  sec := sec
  ctx := c
  st := st
  wts := 0
  rts := 0
  si := false
  dirty := false
  keep := false
  drop := none
  stale := false
  lag := false
  data := []
  syn := []
  pend := []
  stored := 0
  held := []
  region := none

/-- Overwrite a run of a byte list from an offset. -/
def overlay (base : List Byte) (off : Nat) (bs : List Byte) : List Byte :=
  base.take off ++ bs ++ base.drop (off + bs.length)

/-- Take the bytes of `new` where the mask has a bit, else those of `base`. -/
def maskBytes (mask : BitVec 64) (new base : List Byte) : List Byte :=
  (List.range 64).map fun i => if mask.getLsbD i then new.getD i 0 else base.getD i 0

/-- The mask touches granule g only in part. -/
def maskPartial (mask : BitVec 64) (g : Nat) : Bool :=
  let m := mask.extractLsb' (32 * g) 32
  m != 0 && m != BitVec.allOnes 32

/-- The mask covers some granule in part, so the store merges (R136). -/
def maskMerges (mask : BitVec 64) : Bool := maskPartial mask 0 || maskPartial mask 1

/-- The bits of a mask in the granules that a merge may write: a part of a granule whose hem failed is not written (R137). -/
def maskAllowed (mask : BitVec 64) (syn : List (BitVec 16)) : BitVec 64 :=
  let drop (g : Nat) : BitVec 64 :=
    if maskPartial mask g && syn.getD g 0 != 0 then (BitVec.allOnes 32).setWidth 64 <<< (32 * g) else 0
  mask &&& ~~~(drop 0 ||| drop 1)

/-- Syndromes after a merged store: a granule covered whole gets a fresh hem (R136). -/
def maskSyn (mask : BitVec 64) (syn : List (BitVec 16)) : List (BitVec 16) :=
  (List.range 2).map fun g => if mask.extractLsb' (32 * g) 32 == BitVec.allOnes 32 then 0 else syn.getD g 0

/-! ### Sectors at their homes -/

/-- A slice's base (R176). -/
def State.sliceBase (s : State) (sec : Nat) : Nat := SMap.get 0 s.homeBase (s.secSlice sec)

/-- A sector that its home has never served stands in S with stamps at the slice's base (assumption 5). -/
def State.homeOf (s : State) (sec : Nat) : HomeSec :=
  match s.home.find? fun h => h.sec == sec with
  | some h => h
  | none => { sec := sec, st := .S, wts := s.sliceBase sec, rts := s.sliceBase sec, queue := [] }

/-- Record a sector at its home. -/
def State.putHome (s : State) (h : HomeSec) : State :=
  { s with home := insertBy HomeSec.sec h (s.home.filter fun x => x.sec != h.sec) }

/-- The smallest base, a multiple of 2^19 above the old one, under which a stamp fits its 20-bit offset (R188). -/
def rebased (base v : Nat) : Nat := if v < base + 2 ^ 20 then base else base + roundUp (v + 1 - (base + 2 ^ 20)) (2 ^ 19)

/-- The slice of a sector records a stamp: it raises its base where the stamp does not fit, and its sectors' stamps with it (R188). -/
def State.noteHome (s : State) (sec v : Nat) : State :=
  let b' := rebased (s.sliceBase sec) v
  if b' == s.sliceBase sec then s
  else { s with
    homeBase := SMap.put 0 (s.secSlice sec) b' s.homeBase,
    home := s.home.map fun h => if s.secSlice h.sec == s.secSlice sec then { h with wts := max h.wts b', rts := max h.rts b' } else h }

/-- An L1 records a stamp: expired copies in V are dropped, other stamps raised to the new base (R188). -/
def State.noteL1 (s : State) (core v : Nat) : State :=
  let b := SMap.get 0 s.l1Base core
  let b' := rebased b v
  if b' == b then s
  else { s with
    l1Base := SMap.put 0 core b' s.l1Base,
    l1 := (s.l1.filter fun e => !(e.core == core && e.st == .V && e.rts < b')).map fun e =>
      if e.core == core then { e with wts := max e.wts b', rts := max e.rts b' } else e }

/-- A stamp as an L1 can hold it: not below its base (R176, R188). -/
def State.l1Stamp (s : State) (core v : Nat) : Nat := max v (SMap.get 0 s.l1Base core)

/-- The threads whose armed monitor stands on a sector are woken by a write ordered there (R146). -/
def State.wakeMonitors (s : State) (sec wts : Nat) : State :=
  s.post ((s.threads.filter fun t => match t.mon with | some m => m.sec == sec && !m.refused && !m.fired | none => false).map
    fun t => .mwaitWake t.uid wts)

/-- The 64 bytes of a sector as its home holds them. -/
def State.homeData (s : State) (sec : Nat) : List Byte := s.bytes (sectorLoc sec) 64

/-- The syndromes of a sector as its home holds them. -/
def State.homeSyn (s : State) (sec : Nat) : List (BitVec 16) := s.syns (sectorLoc sec) 64

/-- The lease of a context (R175). -/
def State.lease (s : State) (c : Nat) : Nat := match s.ctx c with | some x => x.lease | none => 32

/-- Record a request of a context toward a node (R348). -/
def State.askNode (s : State) (c node : Nat) : State :=
  s.modCtx c fun x => if x.asked.contains node then x else { x with asked := x.asked ++ [node] }

/-! ### Accesses performed at the home in one step

Walkers, the dispatcher, the record writer, sequence homes and the debug port reach global memory here. An owner gives its
data up first, keeping a V copy, as a recall makes it do (Table 8.3). -/

/-- What an owner sends home (R179). -/
def L1Sec.answer (e : L1Sec) : SecImg :=
  { wb := false, wts := e.wts, rts := e.rts, data := if e.dirty then e.data else [], syn := if e.dirty then e.syn else [] }

/-- The answer "written back" (R180, R184). -/
def writtenBack : SecImg := { wb := true, wts := 0, rts := 0, data := [], syn := [] }

/-- A host's interface reports the granules that fail its check as it writes them into host memory, with the hops that have brought them (R197,
R208, assumption 50). -/
def State.hostCheck (s : State) (loc : Nat) (way : BitVec 64) (syns : List (BitVec 16)) : State :=
  if isHost loc then
    ((List.range syns.length).zip syns).foldl (fun s p => s.hemFault (tagJoin (s.nodeTag loc ||| noTag) way) (loc + 32 * p.1) p.2) s
  else s

/-- The hops of a granule that a die sends to a sector's home, its earlier hops with them (R208). -/
def State.wayHome (s : State) (sec src : Nat) (old : BitVec 64) : BitVec 64 :=
  tagJoin (sliceTag (s.secSlice sec) noTag ||| s.bndHome sec src) (if old == 0 then noTag else old)

/-- Whole granules come from a die in place of what stands at a sector's home: one whose bytes they change has a hem of its own, so its hops
are those of this journey, and one that an engine has landed those before it too (R208). -/
def State.takeGranules (s : State) (sec src : Nat) (img : SecImg) : State :=
  let loc := sectorLoc sec
  let made := (List.range img.syn.length).filter fun i =>
    (img.tags.getD i none).isSome || (img.data.drop (32 * i)).take 32 != s.bytes (loc + 32 * i) 32
  let old (i : Nat) : BitVec 64 := (img.tags.getD i none).getD 0
  let s := made.foldl (fun s i => s.hostCheck (loc + 32 * i) (s.wayHome sec src (old i)) [img.syn.getD i 0]) s
  made.foldl (fun s i => s.setTag (loc + 32 * i) (s.sentTag sec src (old i))) (s.setGranules loc img.data img.syn)

/-- The home takes an owner's data, if dirty, and its stamps; those below its base are raised to it (R179, R188). -/
def State.takeImg (s : State) (h : HomeSec) (agent : Nat) (img : SecImg) : State :=
  let s := if img.data.isEmpty then s else s.takeGranules h.sec (agentDie agent) img
  let r := max h.rts img.rts
  let s := s.noteHome h.sec (max img.wts r)
  s.putHome { h with wts := max img.wts (s.sliceBase h.sec), rts := max r (s.sliceBase h.sec) }

/-- Messages that are not to arrive any more. -/
def State.unpost (s : State) (is : List Instr) : State := { s with agenda := s.agenda.filter fun i => !is.contains i }

/-- The owner's data on its way home from an L1: what it answers, and whether its answer to a forward or recall is still to come. -/
def State.inFlight (s : State) (sec c : Nat) : Option (Instr × SecImg × Bool) :=
  s.agenda.findSome? fun i => match i with
    | .writeBackReceive k a img => if k == sec && a == c then some (i, img, true) else none
    | .ownerAnswer k a img => if k == sec && a == c && !img.wb then some (i, img, false) else none
    | _ => none

/-- Bring the data of a sector that an L1 owns home at once: `give` says that the L1 keeps no copy. The second answer says that the L1 has
written back of itself, and will say so to a forward or recall (R184). -/
def State.bringHome (s : State) (sec c : Nat) (give : Bool) : Option (State × Bool) :=
  let h := s.homeOf sec
  match (s.l1Of c sec).filter fun e => e.st == .O with
  | some e =>
    let s := (s.unpost [.forwardReceive sec c, .recallReceive sec c, .grantAcknowledge sec c]).takeImg h c e.answer
    some (if give then s.dropL1 c sec else s.modL1 c sec fun e => { e with st := .V, dirty := false }, false)
  | none => (s.inFlight sec c).map fun (i, img, wb) =>
      let s := if wb then { s with agenda := s.agenda.map fun x => if x == i then Instr.writeBackAck sec c img.wts else x } else s.unpost [i]
      (s.takeImg h c img, wb)

/-- No core: what a home sends itself to serve what waits there. -/
def noAgent : Nat := 2 ^ 20

/-- A sector whose data has come home stands in S, or waits in W for its last owner's answer, and serves what waits there next. -/
def State.settleHome (s : State) (sec c : Nat) (wb : Bool) (queue : List Nat) : State :=
  (s.putHome { s.homeOf sec with st := if wb then .W c none false else .S, queue := queue }).post [.ownerAnswer sec noAgent writtenBack]

/-- Bring a sector's data home for a unit: the transaction that has begun there is done first, as far as it carries data. An owner keeps a V
copy, but where the sector is forwarded (Table 8.3, R179, R180). -/
def State.pull (s : State) (sec : Nat) : State :=
  let h := s.homeOf sec
  match h.st with
  | .S => s
  | .O c => match s.bringHome sec c false with
    | some (s, _) => s.settleHome sec c false h.queue
    | none => s
  | .G c =>
    if s.agenda.contains (.grantAcknowledge sec c) then
      (match s.bringHome sec c false with
       | some (s, _) => s.settleHome sec c false h.queue
       | none => s)
    else s
  | .F c d => match s.bringHome sec c true with
    | some (s, wb) => s.settleHome sec c wb (d :: h.queue)
    | none => s
  | .C c => match s.bringHome sec c false with
    | some (s, wb) => s.settleHome sec c wb h.queue
    | none => s
  | .W c d _ => match d.bind fun d => s.bringHome sec d false with
    | some (s, _) => s.settleHome sec c true h.queue
    | none => s

/-- Bring home every sector that a byte range touches. -/
def State.pullRange (s : State) (c loc n : Nat) : State :=
  (List.range ((loc % 64 + n + 63) / 64)).foldl (fun s i => s.pull (sectorKey c (loc / 64 * 64 + 64 * i))) s

/-- A `.UC` read of n bytes at their homes, with whether every granule passed its check. -/
def State.ucRead (s : State) (c loc n : Nat) : State × List Byte × Bool :=
  let s := s.pullRange c loc n
  (s, s.bytes loc n, s.clean loc n)

/-- A unit that consumes n bytes reports each granule of them that fails its check (Table 9.2, R209): `core` is the unit's place, `cons` its
code in Table 9.3. -/
def State.reportBad (s : State) (c loc n core cons : Nat) : State :=
  ((List.range ((loc % 32 + n + 31) / 32)).map fun i => loc / 32 * 32 + 32 * i).foldl
    (fun s g => s.hemFault (s.globalTag c g core cons) g (s.synAt g)) s

/-- The first granule of a range that fails its check. -/
def State.badGranuleAt (s : State) (loc n : Nat) : Option Nat :=
  ((List.range ((loc % 32 + n + 31) / 32)).map fun i => loc / 32 * 32 + 32 * i).find? fun g => s.synAt g != 0

/-- What the record of a failed check carries of it beside its other fields: the syndrome and the path tag (R208, assumption 13). -/
def State.badDetail (s : State) (g : Nat) (tag : BitVec 64) : List Byte := natLe 2 (s.synAt g).toNat ++ natLe 8 tag.toNat

/-- A `.UC` read by a walker, the dispatcher or the restore unit of a die, which checks what it reads. -/
def State.sysRead (s : State) (c die loc n : Nat) : State × List Byte × Bool :=
  let r := s.ucRead c loc n
  (if r.2.2 then r.1 else r.1.reportBad c loc n (96 * die) 7, r.2)

/-- Order a write to a sector at its home: wts := max(lt, rts + 1), rts := wts, and the monitors on it fire (R178, R146). -/
def State.orderWrite (s : State) (sec lt : Nat) : State × Nat :=
  let h := s.homeOf sec
  let w := max lt (h.rts + 1)
  let s := s.putHome { h with wts := w, rts := w }
  ((s.noteHome sec w).wakeMonitors sec w, w)

/-- A grant on its way to an agent carries the bytes written after it was sent, and a later stamp (Table 8.3, states G and W). -/
def State.patchGrants (s : State) (sec : Nat) : State :=
  let who : Option Nat := match (s.homeOf sec).st with | .G c => some c | .W _ d _ => d | _ => none
  { s with ops := s.ops.map fun o =>
      if who == some o.agent && o.req == .own && sectorKey o.ctx o.loc == sec then
        { o with fill := s.homeData sec, syn := s.homeSyn sec, wts := max o.wts ((s.homeOf sec).rts + 1) } else o }

/-- A write-through of bytes within one sector, with a fresh hem where a whole granule is covered (R178); false where a
merge would meet a bad granule (R137). -/
def State.homeWrite (s : State) (c loc : Nat) (bs : List Byte) (lt : Nat) : State × Nat × Bool :=
  let sec := sectorKey c loc
  let s := s.pull sec
  let whole := loc % 32 == 0 && bs.length % 32 == 0
  if !whole && !s.clean loc bs.length then (s, lt, false)
  else
    let r := s.orderWrite sec lt
    let s := r.1.setBytes loc bs
    let s := if whole then (List.range (bs.length / 32)).foldl (fun s i => s.setSyn (loc + 32 * i) 0) s else s
    let s := (List.range ((loc % 32 + bs.length + 31) / 32)).foldl (fun s i => s.setTag (loc + 32 * i) 0) s
    (s.patchGrants sec, r.2, true)

/-- A write-through of bytes anywhere, sector by sector in ascending address. -/
def State.ucWrite (s : State) (c loc : Nat) (bs : List Byte) (lt : Nat) : State × Nat × Bool :=
  (List.range ((loc % 64 + bs.length + 63) / 64)).foldl (fun (r : State × Nat × Bool) i =>
    let lo := if i == 0 then loc else loc / 64 * 64 + 64 * i
    let hi := min (loc + bs.length) (loc / 64 * 64 + 64 * (i + 1))
    let w := r.1.homeWrite c lo ((bs.drop (lo - loc)).take (hi - lo)) lt
    (w.1, max r.2.1 w.2.1, r.2.2 && w.2.2)) (s, lt, true)

end Sys2Proof.Machine
end

