-- ==== Sys2Proof/Machine/Pages.lean ====
section
/-! DEFINITION. The page walk and its caches, fault records, page requests and their parked threads (R326-R335, R350). -/

namespace Sys2Proof.Machine

/-- What a translation gives: a location with its PTE and level, or a page fault with the range of its request. -/
inductive Xlate where
  | ok (loc : Nat) (pte : BitVec 64) (level : Nat)
  | fault (kind level lo len : Nat)
  deriving DecidableEq, Repr

/-- How a target answers: 0 it performs what is asked, 1 it refuses, 2 it is silent. One that the state does not list decides for itself
(R130, R141; assumption 12). -/
def State.answerOf (s : State) (key what : Nat) : Nat :=
  match SMap.get 3 s.nodeMode key with
  | 3 => Config.targetAnswer s.tick key what % 3
  | m => m

/-- The number of a remote location's node: hosts lie above 64. -/
def nodeKey (loc : Nat) : Nat := remoteNode loc + (if isHost loc then 64 else 0)

/-- How the node of a remote location answers a unit of the package. -/
def State.nodeState (s : State) (loc : Nat) : Nat := s.answerOf (nodeKey loc) loc

/-- A location that a link reaches and its node serves now; local locations always are. -/
def State.reachable (s : State) (loc : Nat) : Bool := !isRemote loc || ((s.portOf loc).isSome && s.nodeState loc == 0)

/-- The slice is there and lies in no partition (R25, R341). -/
def State.systemSlice (s : State) (slice : Nat) : Bool :=
  !s.fencedSlice slice && s.ctxs.all fun c => c.state == .free || !c.part.getLsbD slice

/-- The slices that the leaf's page lies on: one for 64 KiB, the stack's sixteen above (R342). -/
def pageSlices (level pa : Nat) : List Nat :=
  if level == 3 then [paSlice pa] else (List.range 16).map fun i => paSlice pa / 16 * 16 + i

/-- The partition check of a local-HBM leaf (R329). -/
def State.partitionOk (s : State) (c level : Nat) (e : BitVec 64) : Bool :=
  let pa := pteAddr e
  pa < hbmBytes && (pageSlices level pa).all fun sl =>
    c == fwNum || (s.partition c).contains sl || (!ptePc e && s.systemSlice sl)

/-- The checks of a leaf in the order of Table 22.3, and the location it gives. -/
def State.leaf (s : State) (c level : Nat) (e : BitVec 64) (va : Nat) (write : Bool) : Xlate :=
  let size := 2 ^ levelShift level
  let lo := va / size * size
  if pteMig e then .fault 5 level lo size
  else if pteKind e == 0 && !s.partitionOk c level e then .fault 4 level lo size
  else if write && !pteW e then .fault 2 level lo size
  else
    let off := pteAddr e + va % size
    .ok (match pteKind e with | 0 => off | 1 => poolLoc (pteNode e) off | _ => hostLoc (pteNode e) off) e level

/-- Cache a translation, dropping the oldest entry of a full cache (R330; the replacement is assumption 17). -/
def State.cache (s : State) (t : TlbEnt) (cap : Nat) : State :=
  let mine := s.tlb.filter fun x => x.level == t.level && x.unit == t.unit
  let s := if mine.length < cap then s
    else match mine.head? with | some o => { s with tlb := s.tlb.erase o } | none => s
  { s with tlb := s.tlb ++ [t] }

/-- A cached entry that covers the address. -/
def State.cached (s : State) (level unit c va : Nat) (depth : Option Nat) : Option TlbEnt :=
  s.tlb.find? fun x => x.level == level && x.unit == unit && x.ctx == c && x.va ≤ va && va < x.va + x.size &&
    (match depth with | some d => x.depth == d | none => true)

/-- Walk from a table at a level: `n` levels remain (R326-R331). Pointers come from the die's walk cache where it holds them. -/
def State.walk (s : State) (c die va : Nat) (write : Bool) : Nat → Nat → Nat → State × Xlate
  | 0, level, _ => (s, .fault 3 level va 65536)
  | n + 1, level, table =>
    let size := 2 ^ levelShift level
    let lo := va / size * size
    let at_ := table + 8 * (va / size % levelEntries level)
    match s.cached 2 die c va (some level) with
    | some t => State.walk s c die va write n (level + 1) (pteAddr t.entry)
    | none =>
      let r := s.sysRead c die at_ 8
      let s := r.1
      let e : BitVec 64 := ofBytes 64 r.2.1
      if !r.2.2 then (s, .fault 6 level lo size)
      else if !pteV e then (s, .fault 1 level lo size)
      else if pteMalformed level e then (s, .fault 3 level lo size)
      else if pteL e then (s, s.leaf c level e va write)
      else
        let s := s.cache { level := 2, unit := die, ctx := c, va := lo, size := size, depth := level, entry := e } 1024
        State.walk s c die va write n (level + 1) (pteAddr e)

/-- Translate a virtual address of a context: through the core's TLB (where a core asks), the die's TLB, then a walk that
fills them (R330). -/
def State.translate (s : State) (c : Nat) (core : Option Nat) (die va : Nat) (write : Bool) : State × Xlate :=
  if 2 ^ 52 ≤ va then (s, .fault 7 0 (va / 65536 * 65536) 65536)
  else
    let hit := match core.bind fun k => s.cached 0 k c va none with
      | some t => some t
      | none => s.cached 1 die c va none
    match hit with
    | some t => (s, s.leaf c t.depth t.entry va write)
    | none =>
      let root := match s.ctx c with | some x => x.root | none => 0
      let r := s.walk c die va write 4 0 root
      match r.2 with
      | .ok _ e level =>
        let size := 2 ^ levelShift level
        let ent (lv u : Nat) : TlbEnt :=
          { level := lv, unit := u, ctx := c, va := va / size * size, size := size, depth := level, entry := e }
        let s := r.1.cache (ent 1 die) 16384
        (match core with | some k => s.cache (ent 0 k) 256 | none => s, r.2)
      | .fault .. => r

/-- The location of an address for a unit that needs no more than it, none where translation fails. -/
def State.locate (s : State) (c die va : Nat) (write : Bool) : State × Option Nat :=
  let r := s.translate c none die va write
  match r.2 with
  | .ok loc _ _ => (r.1, if s.reachable loc then some loc else none)
  | .fault .. => (r.1, none)

/-! ### Fault records (R350, Table 23.6) -/

/-- What a fault record holds besides its flags; `detail` is 32 bytes. -/
structure FRec where
  cls    : Nat
  kind   : Nat
  team   : Nat
  addr   : Nat
  pc     : Nat
  slot   : Nat
  die    : Nat
  unit   : Nat
  detail : List Byte
  deriving DecidableEq, Repr

/-- A record with every field 0 and no origin team. -/
def FRec.blank (cls kind : Nat) : FRec where
  cls := cls
  kind := kind
  team := 2 ^ 32 - 1
  addr := 0
  pc := 0
  slot := 0
  die := 0
  unit := 0
  detail := []

/-- The 64 bytes of a record (Table 23.6). -/
def FRec.bytes (r : FRec) (lost : Bool) (tick : Nat) : List Byte :=
  natLe 1 r.cls ++ natLe 1 r.kind ++ natLe 2 (if lost then 1 else 0) ++ natLe 4 r.team ++ natLe 8 tick ++ natLe 8 r.addr ++
  natLe 4 r.pc ++ natLe 1 r.slot ++ natLe 1 r.die ++ natLe 2 r.unit ++
  ((r.detail ++ List.replicate 32 0).take 32)

/-- A record of a context that cannot reach its queue is dropped and counted; the first such drop since a record was last written sends a
notice, where the context has a host (R350). -/
def State.dropRecord (s : State) (c : Nat) : State :=
  match s.ctx c with
  | none => s
  | some x =>
    let s := s.modCtx c fun x => { x with lost := x.lost + 1, lostNow := true, told := true }
    if !x.told && c != fwNum then { s with outbox := s.outbox ++ [.notice x.host c] } else s

/-- Write a fault record to the context's queue; a full queue counts it in `LOST` (R350). -/
def State.record (s : State) (c : Nat) (r : FRec) : State :=
  match s.ctx c with
  | none => s
  | some x =>
    let base := x.frqb.toNat
    let hl := s.locate c r.die base true
    match hl.2 with
    | none => hl.1.dropRecord c
    | some h =>
      let hd := hl.1.ucRead c h 64
      let s := hd.1
      let prod := leNat (hd.2.1.take 4)
      let cons := leNat ((hd.2.1.drop 4).take 4)
      let lost := leNat ((hd.2.1.drop 8).take 4)
      let n := 2 ^ x.frqn
      if (prod + 2 ^ 32 - cons) % 2 ^ 32 == n then
        let w := s.homeWrite c (h + 8) (natLe 4 (min (2 ^ 32 - 1) (lost + 1 + x.lost))) 0
        if w.2.2 then w.1.modCtx c fun x => { x with lost := 0, lostNow := true } else w.1.dropRecord c
      else
        let rl := s.locate c r.die (base + 64 + 64 * (prod % n)) true
        match rl.2 with
        | none => rl.1.dropRecord c
        | some p =>
          let s := (rl.1.ucWrite c p (r.bytes x.lostNow rl.1.tick) 0).1
          let head := natLe 4 ((prod + 1) % 2 ^ 32) ++ (hd.2.1.drop 4).take 4
            ++ natLe 4 (min (2 ^ 32 - 1) (lost + x.lost)) ++ List.replicate 52 0
          let s := (s.homeWrite c h head 0).1
          let s := s.modCtx c fun x => { x with lost := 0, lostNow := false, told := false }
          if prod == cons && c != fwNum then { s with outbox := s.outbox ++ [.notice x.host c] } else s

/-- The origin fields of a record for a thread at its word. -/
def State.recOf (s : State) (t : Thread) (cls kind : Nat) : FRec :=
  { FRec.blank cls kind with
    team := s.teamIndex t.tid, pc := t.pkt.toNat, slot := t.slot, die := coreDie (s.coreOf t.tid), unit := s.coreOf t.tid }

/-! ### Page requests (R333) -/

/-- The granule of a table entry that fails the walk of an address (Table 22.3, kind 6). -/
def State.badEntry (s : State) (c die va : Nat) : Nat → Nat → Nat → Option Nat
  | 0, _, _ => none
  | n + 1, level, table =>
    let at_ := table + 8 * (va / 2 ^ levelShift level % levelEntries level)
    match s.cached 2 die c va (some level) with
    | some t => State.badEntry s c die va n (level + 1) (pteAddr t.entry)
    | none =>
      if s.synAt at_ != 0 then some (at_ / 32 * 32)
      else State.badEntry s c die va n (level + 1) (pteAddr (ofBytes 64 (s.bytes at_ 8)))

/-- What a class-3 record of kind 6 adds: syndrome and path tag of the failed granule (R208). -/
def State.walkDetail (s : State) (c die va kind : Nat) : List Byte :=
  if kind != 6 then []
  else match s.badEntry c die va 4 0 (match s.ctx c with | some x => x.root | none => 0) with
    | some g => s.badDetail g (s.homeTag c g die 7)
    | none => []

/-- A request of a die as one number. -/
def pageKey (die n : Nat) : Nat := 256 * die + n

/-- Open a request for a range, or join an open one of the same die and context that overlaps it; none where the table is
full. A new request writes one class-3 record. -/
def State.pageRequest (s : State) (die c kind lo len acc : Nat) (r : FRec) : State × Option Nat :=
  match s.pageReqs.find? fun q => q.die == die && q.ctx == c && q.lo < lo + len && lo < q.lo + q.len with
  | some q => (s, some q.num)
  | none =>
    match leastBelow (fun n => s.pageReqs.all fun q => !(q.die == die && q.num == n)) 256 with
    | none => (s, none)
    | some n =>
      let q : PageReq := { die := die, num := n, ctx := c, lo := lo, len := len, kind := kind }
      let s := { s with pageReqs := s.pageReqs ++ [q] }
      let d := natLe 4 n ++ natLe 8 len ++ natLe 4 acc ++ s.walkDetail c die lo kind
      (s.record c { r with cls := 3, kind := kind, addr := lo, die := die, detail := d }, some n)

/-- Park threads on a page fault: each waits for its request, or retries every 64 cycles where the table is full. The
request number's high part marks the die, so that a resolve finds its threads (R332, R333). -/
def State.parkThreads (s : State) (ts : List Thread) (kind lo len acc : Nat) : State :=
  match ts with
  | [] => s
  | t :: _ =>
    let die := coreDie (s.coreOf t.tid)
    let r := s.pageRequest die (s.ctxOf t.tid) kind lo len acc (s.recOf t 3 kind)
    match r.2 with
    | some n => r.1.modThreads (uids ts) fun t => { t with state := .waiting, wait := .page die n acc }
    | none => r.1.modThreads (uids ts) fun t => { t with state := .waiting, wait := .pageFull acc }

end Sys2Proof.Machine
end

