-- ==== Sys2Proof/Machine/Queues.lean ====
section
/-! DEFINITION. The hardware work queues: their blocks in the queue pages, their states, and what a launch that becomes FAULTED does to
its queue (R317-R325). -/

namespace Sys2Proof.Machine

/-! ### Queue blocks (R317, Table 21.1) -/

/-- A queue out of reset: DISABLED, every field 0. -/
def Queue.fresh (q : Nat) : Queue where
  q := q
  ctx := none
  base := 0
  faultN := 0
  ret := 0
  feed := false
  nsz := 0
  prio := 0
  state := .disabled
  cons := 0
  prod := 0
  lts := []

/-- The queue with a number. -/
def State.queue (s : State) (q : Nat) : Queue := (s.queues.find? fun x => x.q == q).getD (Queue.fresh q)

/-- The code of a queue state. -/
def QState.code : QState → Nat
  | .disabled => 0
  | .idle => 1
  | .active => 2
  | .blocked => 3
  | .draining => 4
  | .faulted => 5

/-- The 32 bytes of a queue block. -/
def Queue.block (x : Queue) : List Byte :=
  natLe 4 x.prod ++
  natLe 4 (x.cons + x.state.code * 2 ^ 21 + x.prio * 2 ^ 24 + x.nsz * 2 ^ 27 + x.feed.toNat * 2 ^ 31) ++
  natLe 4 x.ret ++ natLe 4 x.faultN ++ natLe 8 x.base.toNat ++ natLe 8 0

/-- Arithmetic on launch numbers is modulo 2^21 (R318). -/
def numSub (a b : Nat) : Nat := (a + 2 ^ 21 - b % 2 ^ 21) % 2 ^ 21

/-- Entries of a queue's array. -/
def Queue.size (x : Queue) : Nat := 2 ^ (x.nsz + 4)

/-- Entries in use. -/
def Queue.used (x : Queue) : Nat := numSub x.prod x.cons

/-- The global address of the entry of a launch number. -/
def Queue.entry (x : Queue) (n : Nat) : Nat := x.base.toNat + 128 * (n % x.size)

/-- Physical base of the queue pages: firmware places them in a frame of a system-set slice (R317, R341), here the last frame of the highest slice
that is not fenced (R25, assumption 16). -/
def State.queuePages (s : State) : Nat :=
  let sl := (((List.range 256).reverse).find? fun i => !s.fencedSlice i).getD 255
  stackBytes * (sl / 16 + 1) - 65536 * (16 - sl % 16)

/-- The states that a queue moves to of itself (Table 21.2). -/
def Queue.settled (x : Queue) : Queue :=
  match x.state with
  | .idle => if x.prod != x.cons then { x with state := .active } else x
  | .active => if x.prod == x.cons then { x with state := .idle } else x
  | .draining => if x.ret == x.prod then { x with state := .disabled } else x
  | _ => x

/-- Store a queue, settled, and its block in the queue pages, where device threads read it. -/
def State.putQueue (s : State) (x : Queue) : State :=
  let x := x.settled
  let s := { s with queues := insertBy Queue.q x (s.queues.filter fun y => y.q != x.q) }
  (s.ucWrite fwNum (s.queuePages + 32 * x.q) x.block 0).1

/-- What firmware's stores have left in a queue's block: a DISABLED queue's RWP fields take it, and everything else stands (R317, Table 21.1).
A granule that fails its check says nothing. -/
def State.rereadQueue (s : State) (q : Nat) : State :=
  let x := s.queue q
  let loc := s.queuePages + 32 * q
  let b := s.bytes loc 32
  if b == x.block || s.synAt loc != 0 then s
  else
    let w := leNat ((b.drop 4).take 4)
    s.putQueue (if x.state == .disabled then
      { x with base := ofBytes 64 ((b.drop 16).take 8), feed := w.testBit 31, nsz := bits w 30 27, prio := bits w 26 24 }
    else x)

/-- The queues whose blocks may differ from what their queue pages hold. -/
def State.blocksHeld (s : State) : List Nat :=
  let cells := s.mem.filter fun (c : Host.Cell) => s.queuePages ≤ c.1 && c.1 < s.queuePages + 32768
  dedup (cells.map (fun (c : Host.Cell) => (c.1 - s.queuePages) / 32) ++ s.queues.map Queue.q)

/-- Stores into the queue pages act on the queues (R42, R317). -/
def State.rereadQueues (s : State) : State := s.blocksHeld.foldl State.rereadQueue s

/-- Update a queue. -/
def State.modQueue (s : State) (q : Nat) (f : Queue → Queue) : State := s.putQueue (f (s.queue q))

/-- The number under which launches of the firmware queue are kept: it is none of the 1024 (R42). -/
def fwQueue : Nat := 1024

/-- A launch's class: the smaller of its record's priority and that of its queue, as the queue had it when the launch took its slot; the firmware
queue has none of its own (R323). -/
def Launch.cls (l : Launch) : Nat := if l.queue == fwQueue then recPrio l.record else min (recPrio l.record) l.qprio

/-- A record of class 5 (R325). -/
def State.queueRecord (s : State) (c kind q number : Nat) : State :=
  s.record c { FRec.blank 5 kind with unit := q, detail := natLe 4 q ++ natLe 4 number }

/-! ### Launches that fault (R310, R320) -/

/-- The launch's teams have been stopped, or it has ended. -/
def LState.over : LState → Bool
  | .done | .faulted => true
  | _ => false

/-- A launch of the queue has reached FAULTED: the queue is FAULTED too, with a record (Table 21.3, kind 2 or 3). What has not left
WAITING gives its slot up (R323, assumption 77). A launch from before the queue was last enabled is none of its own. -/
def State.faultQueue (s : State) (l : Launch) (kind : Nat) : State :=
  if l.queue == fwQueue || l.stale || (s.queue l.queue).state == .disabled then s
  else
    let s := { s with launches := s.launches.map fun (x : Launch) =>
      if x.queue == l.queue && (x.state == LState.posted || x.state == LState.waiting) then { x with slot := false } else x }
    (s.modQueue l.queue fun x => { x with state := .faulted, faultN := l.number }).queueRecord l.ctx kind l.queue l.number

/-- A launch becomes FAULTED with one class-6 record; its teams issue nothing from here on (R310, R384). -/
def State.faultLaunch (s : State) (lid kind : Nat) (r : FRec) : State :=
  match s.launch lid with
  | none => s
  | some l =>
    if l.state.over then s
    else
      let s := s.modLaunch lid fun l => { l with state := .faulted, slot := false }
      let s := s.record l.ctx { r with cls := 6, kind := kind, unit := l.queue,
                                       detail := natLe 4 l.queue ++ natLe 4 l.number ++ r.detail }
      s.faultQueue l 3

/-- A launch whose array entry cannot be read: FAULTED with its queue, and the queue's record of kind 2 (Table 21.3). -/
def State.faultUnread (s : State) (l : Launch) : State :=
  (s.modLaunch l.lid fun l => { l with state := .faulted, slot := false }).faultQueue l 2

end Sys2Proof.Machine
end

