-- ==== Sys2Proof/Machine/Ops.lean ====
section
/-! DEFINITION. Taking a trap and returning from one (R377-R381), and the checks that guard an issue. -/

namespace Sys2Proof.Machine

/-! ### Code -/

/-- Bytes as the newest copy holds them, an owner's before its home's. -/
def State.fresh (s : State) (c loc n : Nat) : List Byte :=
  (List.range n).map fun i =>
    let sec := sectorKey c (loc + i)
    match (s.home.find? fun h => h.sec == sec).bind fun h => match h.st with | .O k => s.l1Of k sec | _ => none with
    | some e => if e.dirty then e.data.getD ((loc + i) % 64) 0 else s.byte (loc + i)
    | none => s.byte (loc + i)

/-- The base a thread's packets count from: the trap base in trap mode, else the kernel base (R27, R377). -/
def State.codeBase (s : State) (t : Thread) : Nat :=
  if t.trapMode then (match s.ctx (s.ctxOf t.tid) with | some c => c.trapb.toNat | none => 0)
  else (recEntry (s.recordOf t.tid)).toNat

/-- The clause that holds a packet of the code of a thread's mode: that of the nearest header before it or in it, where it reaches so far
(R30). No translation is kept. -/
def State.clauseAt (s : State) (t : Thread) (pkt : Word) : Option Clause :=
  let core := s.coreOf t.tid
  let c := s.ctxOf t.tid
  let header (k : Nat) : Option (Nat × FH) :=
    if pkt.toNat < k then none
    else match (s.translate c (some core) (coreDie core) ((s.codeBase t + 12 * (pkt.toNat - k)) % 2 ^ 64) false).2 with
      | .ok loc _ _ => match decodeWord (BitVec.ofNat 32 (leNat (s.fresh c loc 4))) with
        | .ok (.clause f) => some (k, f)
        | _ => none
      | .fault .. => none
  match (List.range 16).findSome? header with
  | some (k, f) =>
    if k ≤ f.len.toNat then
      some { flagA := f.flagA.toNat, flagB := f.flagB.toNat, stop := pkt - BitVec.ofNat 32 k + f.len.setWidth 32 + 1 }
    else none
  | none => none

/-! ### Traps (R375-R380) -/

/-- What raised a trap: the cause and kind of Table 26.1, the lanes that failed (none: the gang's mask stands for them), the
failing access, whether the resume point lies after the word (R378), and the packet of the store that a deferred fault comes from (R137). -/
structure TrapReq where
  cause : Nat
  kind  : Nat
  mask  : Option (BitVec 32)
  addr  : BitVec 64
  space : Nat
  reg   : Nat
  syn   : BitVec 16
  tag   : BitVec 64
  after : Bool
  origin : Word
  deriving DecidableEq, Repr

/-- A trap of a cause with nothing else to say. -/
def TrapReq.of (cause : Nat) : TrapReq where
  cause := cause
  kind := 0
  mask := none
  addr := 0
  space := 0xFF
  reg := 0
  syn := 0
  tag := 0
  after := false
  origin := 0

/-- The seam register in the format of R84. -/
def Thread.seamReg (t : Thread) : BitVec 64 :=
  match t.seams with
  | e :: _ => BitVec.ofNat 16 e.tag ++ BitVec.ofNat 16 e.depth ++ e.pkt
  | [] => 0

/-- The resume point of a trap (R378). -/
def TrapReq.resume (q : TrapReq) (t : Thread) : Pos := if q.after then t.next.at_ else t.at_

/-- `TADDR` of a thread's trap. R31 wants the record of `ILLEGAL-CLAUSE` to give the instruction that transferred control, and Table 26.2
has no field of its own for it: its packet stands in bits 31:0 and its word in bits 33:32 (assumption 58). -/
def TrapReq.taddr (q : TrapReq) (t : Thread) : BitVec 64 :=
  if q.cause == 0x01 then BitVec.ofNat 30 0 ++ BitVec.ofNat 2 t.fromWord ++ t.fromPkt else q.addr

/-- Word 15 of a thread's trap registers, which Table 26.2 reserves: the packet of the store that R137 wants the record to give, and for
`ILLEGAL-CONVERGENCE` the lanes of the thread's group (R259, assumption 58). -/
def State.trapExtra (s : State) (q : TrapReq) (t : Thread) : Word :=
  if q.cause == 0x0B then (match s.groupOf t with | some g => laneMask (s.live g) | none => 0) else q.origin

/-- The trap registers saved at entry, as 24 words (Table 26.2). -/
def State.trapWords (s : State) (q : TrapReq) (t : Thread) : List Word :=
  let gang := laneMask s.gangThreads
  let mask := q.mask.getD gang
  let p := q.resume t
  [ p.pkt,
    BitVec.ofNat 8 q.kind ++ 0#7 ++ bit (mask.getLsbD t.lane) ++ BitVec.ofNat 8 q.cause ++ 0#6 ++ BitVec.ofNat 2 p.word,
    (q.taddr t).extractLsb' 0 32, (q.taddr t).extractLsb' 32 32,
    q.tag.extractLsb' 0 32, q.tag.extractLsb' 32 32,
    mask,
    BitVec.ofNat 8 q.space ++ BitVec.ofNat 8 q.reg ++ q.syn,
    gang,
    t.seamd (s.single t),
    t.seamReg.extractLsb' 0 32, t.seamReg.extractLsb' 32 32,
    t.wdepth,
    t.preds.setWidth 32,
    t.fstat.setWidth 32,
    s.trapExtra q t ] ++ (List.range 8).map fun i => SMap.get 0 t.regs (physReg (s.win t.tid) t.depth (56 + i))

/-- A list of words as numbered registers. -/
def wordMap (ws : List Word) : SMap Word := ((List.range ws.length).zip ws).filter fun e => e.2 != 0

/-- One thread enters trap mode at packet 0 of the trap base (R377). -/
def State.enterTrap (s : State) (q : TrapReq) (t : Thread) : Thread :=
  { t with trap := wordMap (s.trapWords q t), trapMode := true, trapAt := some (q.resume t), trapSeams := t.seams, clause := none,
           fromPkt := t.pkt, fromWord := t.word, pkt := 0, word := 0, resumed := false, entered := true,
           state := .runnable, wait := .none, due := none }

/-- The word of a thread's saved trap registers. -/
def Thread.trapWord (t : Thread) (i : Nat) : Word := SMap.get 0 t.trap i

/-- A trap of a gang already in trap mode: the launch is FAULTED, the trap registers stand (R380). -/
def State.fatalTrap (s : State) (q : TrapReq) (t : Thread) : State :=
  let p := q.resume t
  let w1 := t.trapWord 1
  match s.team t.tid with
  | none => s
  | some x =>
    let d := natLe 1 q.cause ++ natLe 4 p.pkt.toNat ++ natLe 1 p.word ++ natLe 1 (field w1 15 8) ++ natLe 4 (t.trapWord 0).toNat
      ++ natLe 1 (field w1 1 0)
    s.faultLaunch x.lid 6 { s.recOf t 6 6 with detail := d }

/-- TAKING A TRAP: every thread of the gang saves its trap registers, enters trap mode and stands at packet 0 of the
context's trap base; in trap mode already, the trap is fatal (R377-R380). -/
def State.takeTrap (s : State) (q : TrapReq) : State :=
  let s := { s with trapped := s.trapped + 1 }
  match s.gangThreads with
  | [] => s
  | t :: _ =>
    if t.trapMode then s.fatalTrap q t
    else
      let gids := s.gids s.gangThreads
      let s' := s.modThreads s.gang (s.enterTrap q)
      { s' with groups := s'.groups.map fun g =>
          if gids.contains g.gid then { g with wd := if q.cause == 0x30 then 0 else g.wd, progress := true } else g }

/-- A trap answered as the next state. -/
def State.trapOut (s : State) (q : TrapReq) : Out := .next (s.takeTrap q)

/-- A trap of a cause alone. -/
def State.trapCause (s : State) (cause : Nat) : Out := s.trapOut (TrapReq.of cause)

/-- `PRIVILEGE` (R41). -/
def cPrivilege : Nat := 0x05

/-- Every thread of the gang may run a privileged instruction: trap mode or firmware mode (R41, R42). -/
def State.privileged (s : State) : Bool := s.gangThreads.all fun t => t.trapMode || s.firmware t

/-- Every thread of the gang may arm a peg: in firmware mode, or where its context's debug right is held (R41). -/
def State.mayPeg (s : State) : Bool :=
  s.gangThreads.all fun t => s.firmware t || (match s.ctx (s.ctxOf t.tid) with | some c => c.dbg.isSome | none => false)

/-! ### Return from a trap (R381) -/

/-- The seam entries after a return: those above `TSEAMD.LEVEL` are discarded, and the innermost of the rest is `TSEAM`. Below it stands
what the thread still holds, or, where the handler has dropped an entry, that entry as it stood at the trap's entry (R381, assumption 59). -/
def Thread.returnSeams (t : Thread) : List Seam :=
  let level := field (t.trapWord 9) 5 0
  let kept := t.seams.drop (t.seams.length - level)
  let lost := (t.trapSeams.take (t.trapSeams.length - kept.length)).drop (t.trapSeams.length - level)
  match lost ++ kept with
  | [] => []
  | _ :: r => { pkt := t.trapWord 10, depth := field (t.trapWord 11) 15 0, tag := field (t.trapWord 11) 31 16 } :: r

/-- The clause in which a thread resumes: where the handler has left the resume point as the trap set it, that in which the thread trapped.
Where it has not, that which holds the packet it resumes at; in code that has none there, the trapped one stays (R27, R381, assumption
69). -/
def State.resumeClause (s : State) (t : Thread) : Option Clause :=
  match t.trapAt with
  | some p =>
    if p.pkt == t.trapWord 0 && p.word == field (t.trapWord 1) 1 0 then p.clause
    else (s.clauseAt { t with trapMode := false } (t.trapWord 0)).or p.clause
  | none => s.clauseAt { t with trapMode := false } (t.trapWord 0)

/-- Restore one thread from its trap registers and resume it. -/
def State.leaveTrap (s : State) (t : Thread) : Thread :=
  let W := s.win t.tid
  let t1 := (List.range 8).foldl (fun (t : Thread) i => t.setPhys (physReg W t.depth (56 + i)) (t.trapWord (16 + i))) t
  let w := field (t.trapWord 1) 1 0
  { t1 with preds := (t.trapWord 13).extractLsb' 0 7, fstat := (t.trapWord 14).extractLsb' 0 6, seams := t.returnSeams,
            trapMode := false, fromPkt := t.pkt, fromWord := t.word, pkt := t.trapWord 0, word := w,
            clause := s.resumeClause t, resumed := w == 0, trapAt := none, trapSeams := [] }

/-- RETURN FROM A TRAP for every thread of the gang; a depth that changed is fatal with the cause `ILLEGAL-RETURN`. -/
def State.returnFromTrap (s : State) : Out :=
  if s.gangThreads.any fun t => !t.trapMode then s.trapCause cPrivilege
  else match s.gangThreads.find? fun t => t.depth != field (t.trapWord 12) 15 0 with
    | some t => .next ({ s with trapped := s.trapped + 1 }.fatalTrap (TrapReq.of 0x13) t)
    | none => .next (s.modThreads s.gang s.leaveTrap)

end Sys2Proof.Machine
end

