-- ==== Sys2Proof/Machine/Tiles.lean ====
section
/-! DEFINITION. Accumulator tiles and their exact arithmetic (R61-R65), and what a matrix word is checked for at issue (R260, R263,
R265, R275). -/

namespace Sys2Proof.Machine

/-! ### Exact values

A dyadic number is a pair (n, q) with value n · 2^q; none stands for a NaN or an infinity. -/

/-- The exact value of a code. -/
def Fmt.exact (f : Fmt) (c : Nat) : Option (Int × Int) :=
  match f.read c with
  | .fin neg m e => some (if neg then -(m : Int) else m, e)
  | _ => none

/-- An element of a format code: 0 E4M3, 1 INT8, 2 BF16, 3 FP16. -/
def elemExact (fmt c : Nat) : Option (Int × Int) :=
  match fmt with
  | 0 => E4M3.exact c
  | 1 => some (sext c 8, 0)
  | 2 => BF16.exact c
  | _ => F16.exact c

/-- The sum of two dyadic numbers. -/
def dyAdd (a b : Int × Int) : Int × Int :=
  if a.1 == 0 then b else if b.1 == 0 then a
  else
    let q := min a.2 b.2
    (a.1 * 2 ^ (a.2 - q).toNat + b.1 * 2 ^ (b.2 - q).toNat, q)

/-- Their product. -/
def dyMul (a b : Int × Int) : Int × Int := (a.1 * b.1, a.2 + b.2)

/-- The sum over k of products, none where an element is a NaN or an infinity (R62). -/
def dotExact (a b : List (Option (Int × Int))) : Option (Int × Int) :=
  (a.zip b).foldl (fun acc p => match acc, p.1, p.2 with
    | some s, some x, some y => some (dyAdd s (dyMul x y))
    | _, _, _ => none) (some (0, 0))

/-- rne(n · 2^q): the nearest integer, ties to even (R63). -/
def rneDy (x : Int × Int) : Int :=
  if 0 ≤ x.2 then x.1 * 2 ^ x.2.toNat
  else
    let d : Int := 2 ^ (-x.2).toNat
    let f := x.1 / d
    let r := x.1 % d
    if 2 * r > d || (2 * r == d && f % 2 != 0) then f + 1 else f

/-! ### Tiles (R61) -/

/-- A tile as a placed team finds it (R258). -/
def Tile.fresh (tid acc : Nat) : Tile where
  tid := tid
  acc := acc
  elems := []
  e := 0
  poison := false

/-- An element. -/
def Tile.at_ (t : Tile) (k : Nat) : Int × Bool := SMap.get (0, false) t.elems k

/-- The tile `acc` of a team; one without a record is as placed. -/
def State.tile (s : State) (tid acc : Nat) : Tile :=
  match s.tiles.find? fun x => x.tid == tid && x.acc == acc with
  | some x => x
  | none => Tile.fresh tid acc

/-- Record a tile; one that is as placed needs no record. -/
def State.putTile (s : State) (t : Tile) : State :=
  let rest := s.tiles.filter fun x => !(x.tid == t.tid && x.acc == t.acc)
  { s with tiles := if t == Tile.fresh t.tid t.acc then rest else rest ++ [t] }

/-- 2^46, the bound of |m|. -/
def tileBound : Int := 2 ^ 46

/-- The exponent step k of R63: the least from `k` on that fits every live updated element, given as its m and x, or the last. -/
def renorm (e : Int) (us : List (Int × (Int × Int))) : Nat → Nat → Nat
  | 0, k => k
  | n + 1, k =>
    if (k : Int) < 32767 - e && us.any fun u =>
        tileBound ≤ (rneDy (u.1, -(k : Int)) + rneDy (u.2.1, u.2.2 - (e + k))).natAbs
    then renorm e us n (k + 1) else k

/-- Add a pass's products into a tile (R63): each updated element with its exact product; none marks its `nan`. -/
def Tile.add (t : Tile) (xs : List (Nat × Option (Int × Int))) : Tile :=
  let marked := (xs.filter fun x => x.2.isNone).foldl (fun m x => SMap.put (0, false) x.1 ((SMap.get (0, false) m x.1).1, true) m) t.elems
  let live := xs.filterMap fun x => match x.2 with
    | some v => let old := SMap.get (0, false) marked x.1; if old.2 then none else some (x.1, old.1, v)
    | none => none
  let k := renorm t.e (live.map fun u => (u.2.1, u.2.2)) 65536 0
  let rest := (marked.map fun m => (m.1, if m.2.2 then m.2 else (rneDy (m.2.1, -(k : Int)), false))).filter fun m => m.2 != (0, false)
  let elems := live.foldl (fun m u =>
    let v := rneDy (u.2.1, -(k : Int)) + rneDy (u.2.2.1, u.2.2.2 - (t.e + k))
    SMap.put (0, false) u.1 (v, decide (tileBound ≤ v.natAbs)) m) rest
  { t with elems := elems, e := t.e + k }

/-- `ACCZ` (R64, R274). -/
def Tile.zero (t : Tile) (slot : BitVec 64) : Tile := { t with elems := [], e := slotInitexp slot, poison := false }

/-- The largest j from `n` down to 0 under which every |m| · 2^j stays below 2^46 and e - j stays at least -32768. -/
def normStep (e : Int) (big : Nat) : Nat → Nat
  | 0 => 0
  | n + 1 => if big * 2 ^ (n + 1) < 2 ^ 46 && -32768 ≤ e - ((n + 1 : Nat) : Int) then n + 1 else normStep e big n

/-- `ACCNORM` (R64, R274). -/
def Tile.norm (t : Tile) (slot : BitVec 64) : Tile :=
  let big := t.elems.foldl (fun b m => if m.2.2 then b else max b m.2.1.natAbs) 0
  if big == 0 then { t with e := slotInitexp slot }
  else
    let j := normStep t.e big 46
    { t with elems := t.elems.map fun m => (m.1, if m.2.2 then m.2 else (m.2.1 * 2 ^ j, false)), e := t.e - j }

/-- `ACCWR`: the written values as a pass over elements whose old m is 0 and whose `nan` is clear (R64). -/
def Tile.write (t : Tile) (xs : List (Nat × Option (Int × Int))) : Tile :=
  { t with elems := t.elems.filter fun m => !(xs.any fun x => x.1 == m.1) }.add xs

/-- The output format of a slot. -/
def slotOut (slot : BitVec 64) : Fmt := match slotOutfmt slot with | 0 => F32 | 1 => BF16 | _ => F16

/-- An element as `ACCRD` reads it (R64). -/
def Tile.read (t : Tile) (slot : BitVec 64) (k : Nat) : Nat :=
  let f := slotOut slot
  let x := t.at_ k
  if x.2 then f.qnan else (f.round 0 false (x.1 < 0) x.1.natAbs t.e false).1

/-! ### Blocks of `ACCRD` and `ACCWR` (R275) -/

/-- Rows of a block. -/
def blockRows (slot : BitVec 64) : Nat := if slotOutfmt slot == 0 then 4 else 8

/-- The elements that register j of the block holds for a lane, lowest first. -/
def blockElems (slot : BitVec 64) (fr lane j : Nat) : List Nat :=
  if slotOutfmt slot == 0 then [128 * (fr + lane / 8) + 16 * (lane % 8) + j]
  else let k := 128 * (fr + lane / 4) + 32 * (lane % 4) + 2 * j; [k, k + 1]

/-- The value of register j for a lane. -/
def Tile.blockWord (t : Tile) (slot : BitVec 64) (fr lane j : Nat) : Word :=
  match blockElems slot fr lane j with
  | [k] => BitVec.ofNat 32 (t.read slot k)
  | [k, m] => BitVec.ofNat 32 (t.read slot k + 65536 * t.read slot m)
  | _ => 0

/-- The values that a word written by `ACCWR` gives its elements. -/
def blockValues (slot : BitVec 64) (fr lane j : Nat) (w : Word) : List (Nat × Option (Int × Int)) :=
  match blockElems slot fr lane j with
  | [k] => [(k, F32.exact w.toNat)]
  | [k, m] => [(k, (slotOut slot).exact (w.toNat % 65536)), (m, (slotOut slot).exact (w.toNat / 65536))]
  | _ => []

/-! ### Checks at issue (R260) -/

/-- Format slot k of the gang's launch. -/
def State.slotFmt (s : State) (t : Thread) (k : BitVec 3) : BitVec 64 := recSlot (s.recordOf t.tid) k.toNat

/-- `RPITCH` of a pitch register (Table 15.3). -/
def pitchRow (w : Word) : Nat := field w 11 0
/-- `TPITCH`. -/
def pitchPass (w : Word) : Nat := field w 23 12
/-- Row block q of s(n + 1). -/
def pitchQ (w : Word) : Nat := field w 29 28
/-- Column block c of s(n + 3). -/
def pitchC (w : Word) : Nat := field w 30 28

/-- Rows that a shape updates. -/
def shapeM (shape : Nat) : Nat := if shape % 2 == 0 then 64 else 16
/-- Columns that a shape updates. -/
def shapeN (shape : Nat) : Nat := if shape < 2 then 128 else 16

/-- A cluster address of the descriptor is usable (R265). -/
def descAddr (w : Word) (align : Nat) : Bool := w.toNat < 2 ^ 24 && w.toNat % align == 0

/-- The descriptor passes R265. -/
def descriptorOk (fmt : BitVec 64) (shape : Nat) (ra rb : Bool) (d : List Word) : Bool :=
  let r (k : Nat) : Word := d.getD k 0
  let wrung := slotBstore fmt == 1
  field (r 1) 31 30 == 0 && (shapeM shape == 16 || pitchQ (r 1) == 0) && (r 3).getLsbD 31 == false && (shapeN shape == 16 || pitchC (r 3) == 0) &&
  (ra || (descAddr (r 0) 32 && 4 ≤ pitchRow (r 1))) &&
  (rb || (descAddr (r 2) 32 && (if wrung then pitchRow (r 3) != 0 else 4 ≤ pitchRow (r 3)))) &&
  (slotAscale fmt == 0 || descAddr (r 4) 4) && (slotBscale fmt == 0 || wrung || descAddr (r 5) 4)

/-- The six descriptor registers of a thread's group. -/
def State.descRegs (s : State) (t : Thread) (desc : BitVec 6) : List Word := (List.range 6).map fun i => s.sreg t (desc.toNat + i)

/-- The tile number or the first row is out of range. -/
def State.accRange (s : State) (t : Thread) (acc : BitVec 4) (row : Option (BitVec 3 × BitVec 6)) : Bool :=
  recAccs (s.recordOf t.tid) ≤ acc.toNat ||
  (match row with
   | some (slot, desc) => let fr := (s.sreg t desc.toNat).toNat; fr % blockRows (s.slotFmt t slot) != 0 || 64 ≤ fr
   | none => false)

/-- `ACCUMULATOR-RANGE` or `MATRIX-DESCRIPTOR` of a matrix word for the gang, none where it passes. -/
def State.matrixCause (s : State) (i : Instr) : Option Nat :=
  match s.gangThreads with
  | [] => none
  | t :: _ =>
    match i with
    | .mma f =>
      if s.accRange t f.acc none then some 0x0C
      else if descriptorOk (s.slotFmt t f.slot) f.shape.toNat f.ra f.rb (s.descRegs t f.desc) then none else some 0x0D
    | .accz f => if s.accRange t f.acc none then some 0x0C else none
    | .accnorm f => if s.accRange t f.acc none then some 0x0C else none
    | .accrd f => if s.accRange t f.acc (some (f.slot, f.desc)) then some 0x0C else none
    | .accwr f => if s.accRange t f.acc (some (f.slot, f.desc)) then some 0x0C else none
    | _ => none

/-- An `MMA` takes B from registers under a slot with wrung storage: `ILLEGAL-ENCODING` (R263). -/
def State.badSlotRead (s : State) (i : Instr) : Bool :=
  match i, s.gangThreads with
  | .mma f, t :: _ => f.rb && slotBstore (s.slotFmt t f.slot) == 1
  | _, _ => false

end Sys2Proof.Machine
end

