-- ==== Sys2Proof/Machine/Uses.lean ====
section
/-! DEFINITION. What each word reads and writes, its pipe and its counting bit: what the chain rules, the scoreboard and the
poison check ask of a word (R28, R33, R34, R204). -/

namespace Sys2Proof.Machine

/-- What a word uses. Registers are numbered 0-63 for v and 64-127 for s. `lanes` are sources that it reads in every active
thread, whatever its guard (R114). -/
structure Uses where
  pipe   : Nat
  guard  : BitVec 3
  reads  : List Nat
  readsP : List Nat
  writes : List Nat
  writeP : Option Nat
  acc    : Option Nat
  counts : Option Bool
  lanes  : List Nat
  fstat  : Bool
  deriving DecidableEq, Repr

/-- A word of a pipe that uses nothing else. -/
def Uses.of (pipe : Nat) : Uses where
  pipe := pipe
  guard := 7
  reads := []
  readsP := []
  writes := []
  writeP := none
  acc := none
  counts := none
  lanes := []
  fstat := false

/-- n registers from number k upward. -/
def regRun (k n : Nat) : List Nat := (List.range n).map fun i => k + i

/-- A 7-bit source. -/
def r1 (a : BitVec 7) : List Nat := [a.toNat]
/-- A 7-bit source pair. -/
def r2 (a : BitVec 7) : List Nat := regRun a.toNat 2
/-- Registers of an access width (R131). -/
def widthRegs (w : BitVec 3) : Nat := match w.toNat with | 3 => 2 | 4 => 4 | _ => 1
/-- A predicate destination; code 7 names none. -/
def predOf (p : BitVec 3) : Option Nat := if p == 7 then none else some p.toNat

/-- What each word uses; a step of a unit or a command uses nothing. -/
def uses : Instr → Uses
  | .clause _ => Uses.of 5
  | .bra f => { Uses.of 0 with guard := f.pred }
  | .braNegated f => { Uses.of 0 with guard := f.pred }
  | .call f => { Uses.of 0 with guard := f.pred }
  | .seam _ => Uses.of 0
  | .brx f => { Uses.of 0 with guard := f.pred, reads := r1 f.a }
  | .callx f => { Uses.of 0 with guard := f.pred, reads := r1 f.a }
  | .ret f => { Uses.of 0 with guard := f.pred }
  | .nop f => { Uses.of 0 with guard := f.pred }
  | .yield f => { Uses.of 0 with guard := f.pred }
  | .exit f => { Uses.of 0 with guard := f.pred }
  | .trap f => { Uses.of 0 with guard := f.pred }
  | .rft _ => { Uses.of 0 with readsP := List.range 7, fstat := true }
  | .mon f => { Uses.of 0 with guard := f.pred, reads := r2 f.a }
  | .mwait f => { Uses.of 0 with guard := f.pred }
  | .fence f => { Uses.of 0 with guard := f.pred }
  | .bkpt f => { Uses.of 0 with guard := f.pred }
  | .add f => { Uses.of 1 with guard := f.pred, reads := r1 f.a ++ r1 f.b, writes := [f.dst.toNat] }
  | .sub f => { Uses.of 1 with guard := f.pred, reads := r1 f.a ++ r1 f.b, writes := [f.dst.toNat] }
  | .mullo f => { Uses.of 1 with guard := f.pred, reads := r1 f.a ++ r1 f.b, writes := [f.dst.toNat] }
  | .mulhiI f => { Uses.of 1 with guard := f.pred, reads := r1 f.a ++ r1 f.b, writes := [f.dst.toNat] }
  | .mulhiN f => { Uses.of 1 with guard := f.pred, reads := r1 f.a ++ r1 f.b, writes := [f.dst.toNat] }
  | .minI f => { Uses.of 1 with guard := f.pred, reads := r1 f.a ++ r1 f.b, writes := [f.dst.toNat] }
  | .maxI f => { Uses.of 1 with guard := f.pred, reads := r1 f.a ++ r1 f.b, writes := [f.dst.toNat] }
  | .minN f => { Uses.of 1 with guard := f.pred, reads := r1 f.a ++ r1 f.b, writes := [f.dst.toNat] }
  | .maxN f => { Uses.of 1 with guard := f.pred, reads := r1 f.a ++ r1 f.b, writes := [f.dst.toNat] }
  | .and f => { Uses.of 1 with guard := f.pred, reads := r1 f.a ++ r1 f.b, writes := [f.dst.toNat] }
  | .or f => { Uses.of 1 with guard := f.pred, reads := r1 f.a ++ r1 f.b, writes := [f.dst.toNat] }
  | .xor f => { Uses.of 1 with guard := f.pred, reads := r1 f.a ++ r1 f.b, writes := [f.dst.toNat] }
  | .andn f => { Uses.of 1 with guard := f.pred, reads := r1 f.a ++ r1 f.b, writes := [f.dst.toNat] }
  | .shl f => { Uses.of 1 with guard := f.pred, reads := r1 f.a ++ r1 f.b, writes := [f.dst.toNat] }
  | .shr f => { Uses.of 1 with guard := f.pred, reads := r1 f.a ++ r1 f.b, writes := [f.dst.toNat] }
  | .sar f => { Uses.of 1 with guard := f.pred, reads := r1 f.a ++ r1 f.b, writes := [f.dst.toNat] }
  | .adds f => { Uses.of 1 with guard := f.pred, reads := r1 f.a ++ r1 f.b, writes := [f.dst.toNat] }
  | .subs f => { Uses.of 1 with guard := f.pred, reads := r1 f.a ++ r1 f.b, writes := [f.dst.toNat] }
  | .shrr f => { Uses.of 1 with guard := f.pred, reads := r1 f.a ++ r1 f.b, writes := [f.dst.toNat] }
  | .popc f => { Uses.of 1 with guard := f.pred, reads := r1 f.a, writes := [f.dst.toNat] }
  | .clz f => { Uses.of 1 with guard := f.pred, reads := r1 f.a, writes := [f.dst.toNat] }
  | .bfe f => { Uses.of 1 with guard := f.pred, reads := r1 f.a ++ r1 f.b, writes := [f.dst.toNat] }
  | .addw f => { Uses.of 1 with guard := f.pred, reads := r2 f.a ++ r2 f.b, writes := regRun f.dst.toNat 2 }
  | .mulw f => { Uses.of 1 with guard := f.pred, reads := r1 f.a ++ r1 f.b, writes := regRun f.dst.toNat 2 }
  | .ffmaF32 f => { Uses.of 1 with reads := r1 f.a ++ r1 f.b ++ [f.c.toNat], writes := [f.dst.toNat] }
  | .ffmaF16x2 f => { Uses.of 1 with reads := r1 f.a ++ r1 f.b ++ [f.c.toNat], writes := [f.dst.toNat] }
  | .ffmaBf16x2 f => { Uses.of 1 with reads := r1 f.a ++ r1 f.b ++ [f.c.toNat], writes := [f.dst.toNat] }
  | .madI32 f => { Uses.of 1 with reads := r1 f.a ++ r1 f.b ++ [f.c.toNat], writes := [f.dst.toNat] }
  | .dot2I16 f => { Uses.of 1 with reads := r1 f.a ++ r1 f.b ++ [f.c.toNat], writes := [f.dst.toNat] }
  | .dot4I8 f => { Uses.of 1 with reads := r1 f.a ++ r1 f.b ++ [f.c.toNat], writes := [f.dst.toNat] }
  | .faddF32 f => { Uses.of 1 with guard := f.pred, reads := r1 f.a ++ r1 f.b, writes := [f.dst.toNat] }
  | .fmulF32 f => { Uses.of 1 with guard := f.pred, reads := r1 f.a ++ r1 f.b, writes := [f.dst.toNat] }
  | .fminF32 f => { Uses.of 1 with guard := f.pred, reads := r1 f.a ++ r1 f.b, writes := [f.dst.toNat] }
  | .fmaxF32 f => { Uses.of 1 with guard := f.pred, reads := r1 f.a ++ r1 f.b, writes := [f.dst.toNat] }
  | .faddF16x2 f => { Uses.of 1 with guard := f.pred, reads := r1 f.a ++ r1 f.b, writes := [f.dst.toNat] }
  | .fmulF16x2 f => { Uses.of 1 with guard := f.pred, reads := r1 f.a ++ r1 f.b, writes := [f.dst.toNat] }
  | .faddBf16x2 f => { Uses.of 1 with guard := f.pred, reads := r1 f.a ++ r1 f.b, writes := [f.dst.toNat] }
  | .fmulBf16x2 f => { Uses.of 1 with guard := f.pred, reads := r1 f.a ++ r1 f.b, writes := [f.dst.toNat] }
  | .setp f => { Uses.of 1 with reads := r1 f.a ++ r1 f.b, writeP := predOf f.pdst, readsP := [f.cpred.toNat] }
  | .rcp f => { Uses.of 2 with guard := f.pred, reads := r1 f.a, writes := [f.dst.toNat] }
  | .rsq f => { Uses.of 2 with guard := f.pred, reads := r1 f.a, writes := [f.dst.toNat] }
  | .sqrt f => { Uses.of 2 with guard := f.pred, reads := r1 f.a, writes := [f.dst.toNat] }
  | .exp2 f => { Uses.of 2 with guard := f.pred, reads := r1 f.a, writes := [f.dst.toNat] }
  | .log2 f => { Uses.of 2 with guard := f.pred, reads := r1 f.a, writes := [f.dst.toNat] }
  | .tanh f => { Uses.of 2 with guard := f.pred, reads := r1 f.a, writes := [f.dst.toNat] }
  | .cvt f => { Uses.of 1 with reads := r1 f.a, writes := [f.dst.toNat] }
  | .cvtSlotSource f => { Uses.of 1 with reads := r1 f.a, writes := [f.dst.toNat] }
  | .cvtSlotDest f => { Uses.of 1 with reads := r1 f.a, writes := [f.dst.toNat] }
  | .movi f => { Uses.of 1 with writes := [f.dst.toNat] }
  | .movhi f => { Uses.of 1 with writes := [f.dst.toNat], reads := [f.dst.toNat] }
  | .addi f => { Uses.of 1 with reads := r1 f.a, writes := [f.dst.toNat] }
  | .andi f => { Uses.of 1 with reads := r1 f.a, writes := [f.dst.toNat] }
  | .ori f => { Uses.of 1 with reads := r1 f.a, writes := [f.dst.toNat] }
  | .xori f => { Uses.of 1 with reads := r1 f.a, writes := [f.dst.toNat] }
  | .shli f => { Uses.of 1 with reads := r1 f.a, writes := [f.dst.toNat] }
  | .shri f => { Uses.of 1 with reads := r1 f.a, writes := [f.dst.toNat] }
  | .slide f => { Uses.of 1 with guard := f.pred, reads := r1 f.b, writes := [f.dst.toNat], lanes := r1 f.a }
  | .slideh f => { Uses.of 1 with guard := f.pred, reads := r1 f.b, writes := [f.dst.toNat], lanes := r1 f.a }
  | .shfl f => { Uses.of 1 with guard := f.pred, reads := r1 f.b, writes := [f.dst.toNat], lanes := r1 f.a }
  | .bcast f => { Uses.of 1 with guard := f.pred, writes := [f.dst.toNat], lanes := r1 f.a }
  | .ballot f => { Uses.of 1 with guard := 7, readsP := [f.pred.toNat], writes := [f.dst.toNat] }
  | .actmask f => { Uses.of 1 with guard := f.pred, writes := [f.dst.toNat] }
  | .redadd f => { Uses.of 1 with guard := f.pred, writes := [f.dst.toNat], lanes := r1 f.a }
  | .redmax f => { Uses.of 1 with guard := f.pred, writes := [f.dst.toNat], lanes := r1 f.a }
  | .mov f => { Uses.of 1 with guard := f.pred, reads := r1 f.a, writes := [f.dst.toNat] }
  | .sel f => { Uses.of 1 with guard := 7, reads := r1 f.a ++ r1 f.b, writes := [f.dst.toNat], readsP := [f.pred.toNat] }
  | .movsv f => { Uses.of 1 with guard := f.pred, reads := r1 f.a, writes := [f.dst.toNat] }
  | .movvs f => { Uses.of 1 with guard := f.pred, reads := r1 f.a, writes := [64 + f.dst.toNat] }
  | .rdsp f => { Uses.of 1 with guard := f.pred, reads := [], writes := regRun f.dst.toNat (if specialWide f.a.toNat then 2 else 1), fstat := f.a == 10 }
  | .wrsp f => { Uses.of 1 with guard := f.pred, reads := r1 f.a, fstat := f.num == 10 }
  | .sadd f => { Uses.of 1 with reads := r1 f.a ++ r1 f.b, writes := [64 + f.dst.toNat] }
  | .ssub f => { Uses.of 1 with reads := r1 f.a ++ r1 f.b, writes := [64 + f.dst.toNat] }
  | .smul f => { Uses.of 1 with reads := r1 f.a ++ r1 f.b, writes := [64 + f.dst.toNat] }
  | .sand f => { Uses.of 1 with reads := r1 f.a ++ r1 f.b, writes := [64 + f.dst.toNat] }
  | .sor f => { Uses.of 1 with reads := r1 f.a ++ r1 f.b, writes := [64 + f.dst.toNat] }
  | .sxor f => { Uses.of 1 with reads := r1 f.a ++ r1 f.b, writes := [64 + f.dst.toNat] }
  | .sshl f => { Uses.of 1 with reads := r1 f.a ++ r1 f.b, writes := [64 + f.dst.toNat] }
  | .sshr f => { Uses.of 1 with reads := r1 f.a ++ r1 f.b, writes := [64 + f.dst.toNat] }
  | .ldp f => { Uses.of 3 with guard := f.pred, counts := some f.fb, reads := r1 f.a, writes := regRun f.data.toNat (widthRegs f.w) }
  | .stp f => { Uses.of 3 with guard := f.pred, counts := some f.fb, reads := r1 f.a ++ regRun f.data.toNat (widthRegs f.w) }
  | .ldsc f => { Uses.of 3 with guard := f.pred, counts := some f.fb, reads := r1 f.a, writes := regRun f.data.toNat (widthRegs f.w) }
  | .stsc f => { Uses.of 3 with guard := f.pred, counts := some f.fb, reads := r1 f.a ++ regRun f.data.toNat (widthRegs f.w) }
  | .atsc f => { Uses.of 3 with guard := f.pred, counts := some f.fb, reads := r1 f.a ++ regRun f.data.toNat (if f.aop == 9 then 2 * (if f.wide then 2 else 1) else (if f.wide then 2 else 1)), writes := regRun f.data.toNat (if f.wide then 2 else 1) }
  | .ldcl f => { Uses.of 3 with guard := f.pred, counts := some f.fb, reads := r1 f.a, writes := regRun f.data.toNat (widthRegs f.w) }
  | .stcl f => { Uses.of 3 with guard := f.pred, counts := some f.fb, reads := r1 f.a ++ regRun f.data.toNat (widthRegs f.w) }
  | .atcl f => { Uses.of 3 with guard := f.pred, counts := some f.fb, reads := r1 f.a ++ regRun f.data.toNat (if f.aop == 9 then 2 * (if f.wide then 2 else 1) else (if f.wide then 2 else 1)), writes := regRun f.data.toNat (if f.wide then 2 else 1) }
  | .ldds f => { Uses.of 3 with guard := f.pred, counts := some f.fb, reads := r1 f.a, writes := regRun f.data.toNat (widthRegs f.w) }
  | .stds f => { Uses.of 3 with guard := f.pred, counts := some f.fb, reads := r1 f.a ++ regRun f.data.toNat (widthRegs f.w) }
  | .atds f => { Uses.of 3 with guard := f.pred, counts := some f.fb, reads := r1 f.a ++ regRun f.data.toNat (if f.aop == 9 then 2 * (if f.wide then 2 else 1) else (if f.wide then 2 else 1)), writes := regRun f.data.toNat (if f.wide then 2 else 1) }
  | .ldg f => { Uses.of 3 with guard := f.pred, counts := some f.fb, reads := r2 f.a, writes := regRun f.data.toNat (widthRegs f.w) }
  | .stg f => { Uses.of 3 with guard := f.pred, counts := some f.fb, reads := r2 f.a ++ regRun f.data.toNat (widthRegs f.w) }
  | .atg f => { Uses.of 3 with guard := f.pred, counts := some f.fb, reads := r2 f.a ++ regRun f.data.toNat (if f.aop == 9 then 2 * (if f.wide then 2 else 1) else (if f.wide then 2 else 1)), writes := regRun f.data.toNat (if f.wide then 2 else 1) }
  | .pfg f => { Uses.of 3 with guard := f.pred, counts := some f.fb, reads := r2 f.a }
  | .ldf f => { Uses.of 3 with guard := f.pred, counts := some f.fb, reads := r2 f.a, writes := regRun f.data.toNat (widthRegs f.w) }
  | .stf f => { Uses.of 3 with guard := f.pred, counts := some f.fb, reads := r2 f.a ++ regRun f.data.toNat (widthRegs f.w) }
  | .atf f => { Uses.of 3 with guard := f.pred, counts := some f.fb, reads := r2 f.a ++ regRun f.data.toNat (if f.aop == 9 then 2 * (if f.wide then 2 else 1) else (if f.wide then 2 else 1)), writes := regRun f.data.toNat (if f.wide then 2 else 1) }
  | .pubf f => { Uses.of 3 with guard := f.pred, counts := some f.fb, reads := r2 f.a, writes := [f.data.toNat] }
  | .cpy f => { Uses.of 3 with counts := some f.fb, reads := r1 f.d ++ r1 f.bar, writes := [64 + f.tok.toNat] }
  | .cpyt f => { Uses.of 3 with counts := some f.fb, reads := r1 f.d ++ r1 f.bar, writes := [64 + f.tok.toNat] }
  | .cpyx f => { Uses.of 3 with counts := some f.fb, reads := r1 f.d ++ r1 f.bar, writes := [64 + f.tok.toNat] }
  | .cpys f => { Uses.of 3 with counts := some f.fb, reads := r1 f.d ++ r1 f.bar }
  | .mma f => { Uses.of 4 with counts := some f.fb, reads := regRun (64 + f.desc.toNat) 6 ++ (if f.ra then regRun 16 16 else []) ++ (if f.rb then regRun 32 16 else []), acc := some f.acc.toNat }
  | .accz f => { Uses.of 4 with counts := some f.fb, acc := some f.acc.toNat }
  | .accrd f => { Uses.of 4 with counts := some f.fb, reads := [64 + f.desc.toNat], writes := regRun (if f.ra then 16 else 32) 16, acc := some f.acc.toNat }
  | .accwr f => { Uses.of 4 with counts := some f.fb, reads := [64 + f.desc.toNat] ++ regRun (if f.ra then 16 else 32) 16, acc := some f.acc.toNat }
  | .accnorm f => { Uses.of 4 with counts := some f.fb, acc := some f.acc.toNat }
  | .mfence _ => Uses.of 4
  | .binit f => { Uses.of 3 with guard := f.pred, reads := r1 f.a ++ r1 f.b }
  | .barv f => { Uses.of 3 with guard := f.pred, reads := r1 f.a }
  | .bexp f => { Uses.of 3 with guard := f.pred, reads := r1 f.a ++ r1 f.b }
  | .bwait f => { Uses.of 3 with guard := f.pred, reads := r1 f.a ++ r1 f.b, writeP := predOf f.pd }
  | .btest f => { Uses.of 3 with guard := f.pred, reads := r1 f.a ++ r1 f.b, writeP := predOf f.pd }
  | .bretire f => { Uses.of 3 with guard := f.pred, reads := r1 f.a }
  | .gbar _ => Uses.of 3
  | .tbar _ => Uses.of 3
  | .gjoin f => { Uses.of 0 with reads := r1 f.a }
  | .ginfo f => { Uses.of 0 with reads := r1 f.a, writes := [f.dst.toNat] }
  | .fabclr f => { Uses.of 0 with reads := r1 f.a, writes := [f.dst.toNat] }
  | .wspill f => { Uses.of 0 with reads := r1 f.a }
  | .wfill f => { Uses.of 0 with reads := r1 f.a }
  | .sqclaim f => { Uses.of 3 with guard := 7, counts := some f.fb, reads := regRun (64 + 2 * f.seq.toNat) 2 ++ r1 f.b, writes := regRun f.dst.toNat 2, writeP := predOf f.pred }
  | .sqpub f => { Uses.of 3 with guard := f.pred, counts := some f.fb, reads := regRun (64 + 2 * f.seq.toNat) 2 ++ r2 f.b }
  | .sqacq f => { Uses.of 3 with guard := f.pred, counts := some f.fb, reads := regRun (64 + 2 * f.seq.toNat) 2 ++ r2 f.b, writes := regRun f.dst.toNat 2 }
  | .sqret f => { Uses.of 3 with guard := f.pred, counts := some f.fb, reads := regRun (64 + 2 * f.seq.toNat) 2 ++ r1 f.b, writes := [f.dst.toNat] }
  | .sqinfo f => { Uses.of 3 with guard := f.pred, counts := some f.fb, reads := regRun (64 + 2 * f.seq.toNat) 2 ++ r1 f.b, writes := regRun f.dst.toNat 4 }
  | .press f => { Uses.of 3 with guard := f.pred, counts := some f.fb }
  | .launch f => { Uses.of 3 with guard := f.pred, counts := some f.fb, reads := regRun f.a.toNat 3, writes := [f.dst.toNat] }
  | .pgprobe f => { Uses.of 3 with guard := f.pred, counts := some f.fb, reads := r2 f.a, writes := regRun f.dst.toNat 2 }
  | .pgpref f => { Uses.of 3 with guard := f.pred, counts := some f.fb, reads := r2 f.a }
  | .sysrd f => { Uses.of 3 with guard := f.pred, counts := some f.fb, reads := [f.a.toNat], writes := [f.dst.toNat] }
  | .sysrdPeek f => { Uses.of 3 with guard := f.pred, counts := some f.fb, writes := [f.dst.toNat] }
  | .syswr f => { Uses.of 3 with guard := f.pred, counts := some f.fb, reads := [f.a.toNat, f.dst.toNat] }
  | .pegarm f => { Uses.of 3 with guard := f.pred, counts := some f.fb, reads := r2 f.a, writes := [f.dst.toNat] }
  | .driftStep => Uses.of 5
  | .loadReturn _ => Uses.of 5
  | .storeAck _ => Uses.of 5
  | .atomicReturn _ => Uses.of 5
  | .sfuResult _ => Uses.of 5
  | .homeLoadRequest _ => Uses.of 5
  | .homeWriteThrough _ => Uses.of 5
  | .homeOwnedRequest _ => Uses.of 5
  | .ownedGrant _ => Uses.of 5
  | .grantAcknowledge _ _ => Uses.of 5
  | .forwardReceive _ _ => Uses.of 5
  | .recallReceive _ _ => Uses.of 5
  | .ownerAnswer _ _ _ => Uses.of 5
  | .writeBackReceive _ _ _ => Uses.of 5
  | .writeBackAck _ _ _ => Uses.of 5
  | .fillReply _ => Uses.of 5
  | .writeThroughAck _ => Uses.of 5
  | .requestRefusedResend _ => Uses.of 5
  | .packageRebase => Uses.of 5
  | .floorMessage _ _ _ _ => Uses.of 5
  | .mwaitWake _ _ => Uses.of 5
  | .mwaitTimeout _ => Uses.of 5
  | .remoteTimeout _ => Uses.of 5
  | .lateReplyDrop _ => Uses.of 5
  | .fairnessOverdue _ => Uses.of 5
  | .gangDemotion _ => Uses.of 5
  | .parkedPathTakeover _ => Uses.of 5
  | .noProgress _ => Uses.of 5
  | .urgencyEvaluation _ => Uses.of 5
  | .swapOut _ _ => Uses.of 5
  | .forcedSwap _ _ => Uses.of 5
  | .freePositionSwapIn _ => Uses.of 5
  | .swapComplete _ => Uses.of 5
  | .collectiveAccept _ _ => Uses.of 5
  | .granuleLand _ => Uses.of 5
  | .matrixPassGrant _ => Uses.of 5
  | .matrixPassEnd _ => Uses.of 5
  | .tileOpApply _ => Uses.of 5
  | .sqclaimRequest _ => Uses.of 5
  | .sqpubRequest _ => Uses.of 5
  | .sqacqRequest _ => Uses.of 5
  | .sqretRequest _ => Uses.of 5
  | .sqinfoRequest _ => Uses.of 5
  | .sqacqReply _ => Uses.of 5
  | .sequenceReply _ => Uses.of 5
  | .sequenceResend _ => Uses.of 5
  | .pageWalk _ _ _ _ => Uses.of 5
  | .pageRequestRetry _ => Uses.of 5
  | .launchHeadRead _ => Uses.of 5
  | .dispatchSlotTake _ => Uses.of 5
  | .launchDispatch _ => Uses.of 5
  | .teamPlace _ => Uses.of 5
  | .launchStampWrite _ => Uses.of 5
  | .hostProdWrite _ _ _ => Uses.of 5
  | .flitReceive _ _ _ => Uses.of 5
  | .flitResend _ _ => Uses.of 5
  | .linkTrainingDone _ _ => Uses.of 5
  | .retrainLimitExpiry _ => Uses.of 5
  | .linkStateReport _ _ _ _ => Uses.of 5
  | .linkReroute _ => Uses.of 5
  | .lostWrite _ => Uses.of 5
  | .exportRead _ _ _ => Uses.of 5
  | .pubChunkReceive _ => Uses.of 5
  | .pubRefusedReturn _ _ _ _ => Uses.of 5
  | .pubAckReceive _ _ _ => Uses.of 5
  | .pubDeadline _ => Uses.of 5
  | .ptpSync _ => Uses.of 5
  | .preemptRemoteBound _ => Uses.of 5
  | .teardownNodeAck _ _ => Uses.of 5
  | .teardownBound _ => Uses.of 5
  | .create _ => Uses.of 5
  | .start _ => Uses.of 5
  | .preempt _ => Uses.of 5
  | .resume _ => Uses.of 5
  | .teardown _ => Uses.of 5
  | .qenable _ => Uses.of 5
  | .qdrain _ => Uses.of 5
  | .qclear _ => Uses.of 5
  | .dgrant _ => Uses.of 5
  | .drevoke _ => Uses.of 5
  | .region _ => Uses.of 5
  | .invalidate _ => Uses.of 5
  | .resolve _ => Uses.of 5
  | .halt _ => Uses.of 5
  | .debugResume _ => Uses.of 5
  | .staterd _ => Uses.of 5
  | .edit _ => Uses.of 5
  | .memrd _ => Uses.of 5
  | .memwr _ => Uses.of 5
  | .commit _ => Uses.of 5
  | .discard _ => Uses.of 5
  | .breakSet _ => Uses.of 5
  | .watch _ => Uses.of 5
  | .trace _ => Uses.of 5
  | .sample _ => Uses.of 5
  | .histo _ => Uses.of 5
  | .trigger _ => Uses.of 5
  | .peg _ => Uses.of 5
  | .scan _ => Uses.of 5
  | .go _ => Uses.of 5
  | .pegStop => Uses.of 5
  | .sampleTag _ => Uses.of 5
  | .histogramThreshold _ => Uses.of 5
  | .abortWrite _ => Uses.of 5
  | .windowLengthWrite _ => Uses.of 5
  | .retrainLimitWrite _ => Uses.of 5
  | .fabricTableInstall _ => Uses.of 5
  | .dieScratchpadContribWrite _ => Uses.of 5
  | .systemRegisterWrite _ => Uses.of 5
  | .hemFaultReport _ _ _ => Uses.of 5
  | .startSequence _ => Uses.of 5
  | .attestationRequest _ _ => Uses.of 5
  | .malformedWord _ _ _ => Uses.of 5
  | .issueSlotWithheld _ _ => Uses.of 5
  | .firmwareQueuePost _ => Uses.of 5
  | .linkTrainingStart _ => Uses.of 5
  | .bufferDefect _ _ => Uses.of 5
  | .granuleCorruption _ _ => Uses.of 5
  | .powerLoss => Uses.of 5
  | .failureCountClear _ _ => Uses.of 5

/-- The pipe of a word by its major (Table 2.8): 0 CTL, 1 ALU, 2 SFU, 3 MEM, 4 MAT, 5 none. -/
def majorPipe (m : Nat) : Nat :=
  if m == 0 then 5
  else if m == 1 || m == 2 || m == 29 then 0
  else if m == 14 then 2
  else if m == 27 then 4
  else if (20 ≤ m && m ≤ 26) || m == 28 || m == 30 || m == 31 then 3
  else 1

end Sys2Proof.Machine
end

