-- ==== Sys2Proof/Machine/Issue.lean ====
section
/-! DEFINITION. Gangs and what may issue: long waits, the choice of a gang (R75-R77, R219-R226), the fetch of its next word, and
the checks between fetch and issue in the order of R376. -/

namespace Sys2Proof.Machine

/-! ### Long waits (R219, Table 11.4) -/

/-- The items that an engine holds under a key, posted and not yet accepted. -/
def State.heldItems (s : State) (tid bar : Nat) : List CopyItem :=
  s.items.filter fun x => x.tid == tid && x.bar == bar && !x.accepted

/-- Enough items are there for the collective to be accepted. -/
def collectiveFull (c : List CopyItem) : Bool :=
  match c with | [] => false | x :: _ => c.length == x.nslice

/-- The collectives that the items held under one key form, in the order of their posting: each ends with the posting that completes it
(R251). The last one may still wait for items. -/
def collectives (held : List CopyItem) : List (List CopyItem) :=
  held.foldl (fun cs x => match cs.getLast? with
    | some c => if collectiveFull c then cs ++ [[x]] else cs.dropLast ++ [c ++ [x]]
    | none => [[x]]) []

/-- The items under a key that still wait for the rest of their collective. -/
def openItems (held : List CopyItem) : List CopyItem :=
  match (collectives held).getLast? with
  | some c => if collectiveFull c then [] else c
  | none => []

/-- The time the machine expects an operation to take, 0 for one that is never long. -/
def State.expected (s : State) (o : Op) : Nat :=
  let home : Nat :=
    if isRemote o.loc then 4000
    else Config.homeRoundTrip (crossings (coreDie o.agent) (sliceDie (s.homeSlice o.ctx o.loc)))
  match o.kind with
  | .load | .atomic | .mon => if o.space == 1 then 4000 else if o.space == 0 && o.fill.isEmpty then home else 0
  | .store | .pubf => if o.space == 1 then 4000 else 0
  | .sqclaim | .sqret | .sqinfo => home
  | .sqpub => if s.stall.contains o.id then 2 ^ 64 else home
  | .sqacq => if o.aop == 1 then home else 2 ^ 64
  | .copy => match s.items.find? fun x => x.id == o.aop with
    | some x => if x.bar != noSlot && (openItems (s.heldItems x.tid x.bar)).any fun y => y.id == x.id then 2 ^ 64 else 0
    | none => 0
  | .mma => if s.mreqs.any fun m => m.id == o.aop && m.next ≤ m.rep then 2 ^ 64 else 0
  | _ => 0

/-- An operation whose wait is long. -/
def State.opLong (s : State) (o : Op) : Bool := 64 < s.expected o - (s.tick - o.issued)

/-- A WAITING thread's wait is long (Table 11.4). Waits for which the table has no row are not: a full flag, a full engine, a fence, a `GJOIN` to
a group that does not run (assumption 83). -/
def State.waitLong (s : State) (t : Thread) : Bool :=
  let of (p : Op → Bool) : Bool := s.ops.any fun o => o.uid == t.uid && p o && s.opLong o
  match t.wait with
  | .clause mask => of fun o => o.sel < 12 && mask.getLsbD o.sel
  | .score regs preds _ => of fun o => o.regs.any regs.contains || o.preg.any preds.contains
  | .order => of fun o => o.kind == .sqacq
  | .token _ | .mwait _ | .slot .. | .gbar | .tbar | .page .. | .pageFull _ => true
  | _ => false

/-! ### Gangs -/

/-- The thread holds an instruction-buffer entry: it may issue or it waits. -/
def Thread.stands (t : Thread) : Bool := t.state == .runnable || t.state == .waiting

/-- A launch's teams run until it is over; those of one made FAULTED until every accepted item of theirs has ended (R384). -/
def State.teamsRun (s : State) (l : Launch) : Bool :=
  !l.state.over || (l.state == .faulted && s.items.any fun x => x.accepted && (match s.team x.tid with | some m => m.lid == l.lid | none => false))

/-- The thread's group is active and no swap holds it, its launch's teams and its context run. -/
def State.canRun (s : State) (t : Thread) : Bool :=
  (match s.groupOf t with | some g => g.place == .active && g.swapAt.isNone | none => false) &&
  (match s.launchOf t.tid with | some l => s.teamsRun l | none => false) &&
  (match s.ctx (s.ctxOf t.tid) with | some c => c.state == .running | none => false)

/-- The threads of a path that stand at its word. -/
def State.pathThreads (s : State) (p : Path) : List Thread :=
  s.threads.filter fun t => t.path == p.id && t.stands && s.canRun t

/-- The number of a path's scheduler in the package. -/
def State.pathKey (s : State) (p : Path) : Nat := 4 * s.coreOf p.tid + p.sched

/-- No member of the thread's group but itself may have the turn (R85). -/
def State.hasTurn (s : State) (t : Thread) : Bool :=
  match (s.groupOf t).bind Group.turn with | some u => u == t.uid | none => true

/-- Every thread of the gang is RUNNABLE, no `YIELD` bars it and it has its entry (R221). A gang that has an unmet wait is WAITING, as
`State.rest` leaves it. -/
def State.issuable (s : State) (p : Path) : Bool :=
  let ts := s.pathThreads p
  p.parked.isNone && p.bar.isEmpty && !ts.isEmpty && ts.all fun t => t.state == .runnable && s.hasTurn t

/-- The gang may still issue in the cycle that now runs: it has neither issued in it nor been formed in it (R82, R221, R242). -/
def State.eligible (s : State) (p : Path) : Bool := s.issuable p && !p.ran

/-- Every thread of the gang is WAITING and one of the waits is long (R219). -/
def State.gangLong (s : State) (p : Path) : Bool :=
  let ts := s.pathThreads p
  ts.all (fun t => t.state == .waiting) && ts.any s.waitLong

/-- Two paths hold threads of one group. -/
def State.siblings (s : State) (p q : Path) : Bool :=
  p.id != q.id && (s.gids (s.pathThreads p)).any fun g => (s.gids (s.pathThreads q)).contains g

/-- No older sibling keeps the turn of a group of the gang (R221). -/
def State.turnOk (s : State) (p : Path) : Bool :=
  s.paths.all fun q =>
    !(q.age < p.age && s.siblings p q && q.parked.isNone && q.bar.isEmpty && !s.gangLong q)

/-- The progress promise of a path's launch (R223). -/
def State.promise (s : State) (p : Path) : Bool := recPp (s.recordOf p.tid)

/-- The gang holds a thread of its team's laggard group (R222). -/
def State.lags (s : State) (p : Path) : Bool :=
  match (s.team p.tid).bind fun x => x.laggard with
  | some g => (s.pathThreads p).any fun t => t.slot == g
  | none => false

/-- The gang a scheduler issues, with its count of contended slots (R221, R222, R224). -/
def State.choose (s : State) (key : Nat) : Option (Path × Nat) :=
  let ps := s.paths.filter fun p => s.pathKey p == key && s.eligible p
  let late := ps.filter fun p => p.overdue.isSome && s.promise p
  match minBy (fun p : Path => p.overdue.getD 0) late with
  | some q => (minBy Path.age (late.filter fun p => p.overdue == q.overdue)).map fun p => (p, 0)
  | none =>
    let el := ps.filter s.turnOk
    let lag := el.filter s.lags
    let run := SMap.get 0 s.lagRun key
    if !lag.isEmpty && lag.length < el.length then
      (minBy Path.age (if run < 2 then lag else el)).map fun p => (p, (run + 1) % 3)
    else (minBy Path.age el).map fun p => (p, 0)

/-- The next scheduler of this cycle's round that has a gang to issue: the lowest from the cursor on. -/
def State.nextKey (s : State) : Option Nat :=
  let keys := sortBy id (dedup ((s.paths.filter s.eligible).map s.pathKey))
  keys.find? fun k => s.cursor ≤ k && (s.choose k).isSome

/-- The threads that join a gang: RUNNABLE, of its team, scheduler, mode and position, on lanes it does not use, the lower slot
first (R75, R76). -/
def State.joiners (s : State) (p : Path) (base : List Thread) : List Thread :=
  match base with
  | [] => []
  | b :: _ =>
    let free := s.threads.filter fun t =>
      t.path != p.id && t.state == .runnable && t.tid == b.tid && t.pkt == b.pkt && t.word == b.word &&
      t.trapMode == b.trapMode && s.canRun t && !s.single t && !s.single b &&
      (match s.paths.find? fun q => q.id == t.path with | some q => q.parked.isNone && !q.ran && q.sched == p.sched | none => false)
    (sortBy Thread.slot free).foldl (fun (acc : List Thread) t =>
      if base.any (fun u => u.lane == t.lane) || acc.any (fun u => u.lane == t.lane) then acc else acc ++ [t]) []

/-- Form the gang of a path, joiners included. -/
def State.formGang (s : State) (p : Path) : State :=
  let base := s.pathThreads p
  let add := uids (s.joiners p base)
  let s := s.modThreads add fun t => { t with path := p.id }
  { s with gang := uids base ++ add }

/-! ### Fetch -/

/-- What a fetch gives. -/
inductive Fetch where
  | word (w : Word)
  | fault (kind lo len : Nat)
  deriving DecidableEq, Repr

/-- Fetch one word of the packet a thread stands at. -/
def State.fetch (s : State) (t : Thread) (k : Nat) : State × Fetch :=
  let core := s.coreOf t.tid
  let c := s.ctxOf t.tid
  let va := (s.codeBase t + 12 * t.pkt.toNat + 4 * k) % 2 ^ 64
  let r := s.translate c (some core) (coreDie core) va false
  match r.2 with
  | .ok loc _ _ => (r.1, .word (BitVec.ofNat 32 (leNat (r.1.fresh c loc 4))))
  | .fault kind _ lo len => (r.1, .fault kind lo len)

/-! ### Checks -/

/-- What becomes of the gang: it has been stopped, stalled or parked, or words issue. -/
inductive Verdict where
  | done (s : State)
  | run (s : State) (ws : List Instr)

/-- The gang at a word of its packet (the trapping word of a chain, R378). -/
def State.atWord (s : State) (k : Nat) : State := s.modThreads s.gang fun t => { t with word := k }

/-- The wait that a save has ended, where the thread stands at its word: the rest of the chain has taken effect for it (R241, R374). -/
def Thread.redo (t : Thread) : Option Again :=
  t.again.find? fun a => a.trap == t.trapMode && a.at_.pkt == t.pkt && a.at_.word == t.word

/-- The thread issues such a word again. -/
def Thread.reissues (t : Thread) : Bool := t.redo.isSome

/-- The gang as it executes word j of the chain at which it stands: a reissued `BWAIT`'s threads execute the first word alone. -/
def State.forWord (s : State) (j : Nat) : State :=
  if j == 0 then s else { s with gang := uids (s.gangThreads.filter fun t => !t.reissues) }

/-- The gang waits. -/
def State.stallGang (s : State) (w : Wait) : State :=
  s.modThreads s.gang fun t => { t with state := .waiting, wait := w }

/-- The gang's groups become HALTED (R387, R389). -/
def State.haltGang (s : State) : State :=
  let gids := s.gids s.gangThreads
  let s := s.modThreads s.gang fun t => { t with broke := true }
  { s with groups := s.groups.map fun g => if gids.contains g.gid then g.halt else g }

/-- A breakpoint stands at word k of the gang's packet, and has not halted the gang there already (R387). -/
def State.breakAt (s : State) (t : Thread) (k : Nat) : Bool :=
  match s.ctx (s.ctxOf t.tid) with
  | some c => (s.gangThreads.any fun u => !u.broke) &&
      c.breaks.any fun e => e.2.2 && e.2.1 == BitVec.ofNat 2 k ++ t.pkt
  | none => false

/-- A trap on an owed partial-store fault: the record gives the store's packet, and no register is poisoned (R137, assumptions 58 and
60). -/
def TrapReq.owed (lanes : BitVec 32) (o : OwedFault) : TrapReq :=
  { TrapReq.of 0x20 with mask := some lanes, addr := o.poison.addr, space := o.poison.space, reg := o.poison.reg,
                         syn := o.poison.syn, tag := o.poison.tag, origin := o.pkt }

/-- A fault that the same issue of a store owes. -/
def OwedFault.like (o x : OwedFault) : Bool := x.pkt == o.pkt && x.word == o.word && x.since == o.since

/-- Take the first trap a gang owes. The threads that owe one for the same store fail with it, and owe it no more. -/
def State.owedTrap (s : State) (owing : List Thread) : Option State :=
  match owing.head?.bind fun t => t.owed.head? with
  | some o =>
    let ts := owing.filter fun t => t.owed.any o.like
    some ((s.takeTrap (TrapReq.owed (laneMask ts) o)).modThreads (uids ts) fun t => { t with owed := t.owed.filter fun x => !o.like x })
  | none => none

/-- A trap on a poison mark. `num` is the register as the words name it (R204, Table 26.2). -/
def TrapReq.poisoned (lanes : BitVec 32) (num : Nat) (q : Poison) : TrapReq :=
  { TrapReq.of 0x20 with mask := some lanes, addr := q.addr, space := q.space, reg := num, syn := q.syn, tag := q.tag }

/-- The number in the current window of a physical register. -/
def State.regNum (s : State) (t : Thread) (r : Nat) : Nat :=
  ((List.range 64).find? fun k => physReg (s.win t.tid) t.depth k == r).getD (r % 64)

/-- The poison mark on register n (0-63 v, 64-127 s) as a thread reads it. -/
def State.poisonOf (s : State) (t : Thread) (n : Nat) : Option Poison :=
  if n < 64 then t.pois.find? fun q => q.reg == physReg (s.win t.tid) t.depth n
  else (s.groupOf t).bind fun g => g.pois.find? fun q => q.reg == n - 64

/-- The sources that a word reads in an active thread: its own where its guard is true, and those of a lane word whatever the guard
(R38, R114). -/
def Uses.readsOf (u : Uses) (t : Thread) : List Nat := u.lanes ++ (if t.p u.guard then u.reads else [])

/-- The registers that a word reads or writes in an active thread. -/
def Uses.touches (u : Uses) (t : Thread) : List Nat := u.readsOf t ++ (if t.p u.guard then u.writes else [])

/-- The first poison mark a word reads, with the lanes that read one (R204). -/
def State.poisonHit (s : State) (i : Instr) : Option TrapReq :=
  let u := uses i
  let marked (t : Thread) : Option Nat := (u.readsOf t).find? fun n => (s.poisonOf t n).isSome
  let bad := s.gangThreads.filter fun t => (marked t).isSome
  bad.head?.bind fun t => (marked t).bind fun n => (s.poisonOf t n).map fun q => TrapReq.poisoned (laneMask bad) n q

/-- The physical registers that a word reaches without naming them: those a call clears, the window that `WSPILL` or `WFILL` moves, and
those that `RFT` restores (R90, R98, R381). -/
def State.otherRegs (s : State) (t : Thread) : Instr → List Nat
  | .call _ | .callx _ => (regRun 16 48).map (physReg (s.win t.tid) (t.depth + 1))
  | .rft _ => (regRun 56 8).map (physReg (s.win t.tid) t.depth)
  | .wspill _ => if t.depth - t.spill + 1 == s.win t.tid then (regRun 0 48).map (physReg (s.win t.tid) t.spill) else []
  | .wfill _ => if 0 < t.spill && t.spill == t.depth then (regRun 0 48).map (physReg (s.win t.tid) (t.spill - 1)) else []
  | _ => []

/-- The physical registers of a word that an outstanding write holds, for one thread (R34). -/
def State.busyRegs (s : State) (i : Instr) (t : Thread) : List Nat :=
  ((((uses i).touches t).filter (· < 64)).map (physReg (s.win t.tid) t.depth) ++
    (if t.p (uses i).guard then s.otherRegs t i else [])).filter t.pendV.contains

/-- The predicates of a word that an outstanding write holds. -/
def busyPreds (u : Uses) (t : Thread) : List Nat := (u.guard.toNat :: u.readsP ++ u.writeP.toList).filter t.pendP.contains

/-- The token registers of the word that still count (R254). -/
def State.busyTokens (s : State) (u : Uses) (t : Thread) : List Nat :=
  match s.groupOf t with
  | some g => ((u.touches t).filter fun n => 64 ≤ n && g.toks.contains (n - 64)).map (· - 64)
  | none => []

/-- The flag on which a word counts a thread: none where it counts on none, or does not execute (R33). -/
def Uses.flag (u : Uses) (t : Thread) : Option Nat :=
  match u.counts with
  | some fb => if t.sel fb < 12 && t.p u.guard then some (t.sel fb) else none
  | none => none

/-- A flag that the words of a chain count on would pass 63 (R33). -/
def flagFull (is : List Instr) (t : Thread) : Bool :=
  let fs := is.filterMap fun i => (uses i).flag t
  fs.any fun k => 63 < t.count k + fs.count k

/-- Memory accesses, which wait for a thread's outstanding acquire (R305). -/
def awaitsAcquire : Instr → Bool
  | .ldp _ | .stp _ | .ldsc _ | .stsc _ | .atsc _ | .ldcl _ | .stcl _ | .atcl _ | .ldds _ | .stds _ | .atds _ | .ldg _ | .stg _
  | .atg _ | .pfg _ | .ldf _ | .stf _ | .atf _ | .pubf _ | .mon _ | .cpy _ | .cpyt _ | .cpyx _ | .cpys _ | .binit _ | .barv _
  | .bexp _ | .bwait _ | .btest _ | .bretire _ | .gbar _ | .tbar _ | .sqclaim _ | .sqpub _ | .sqacq _ | .sqret _ | .sqinfo _
  | .press _ | .launch _ | .wspill _ | .wfill _ => true
  | _ => false

/-- A write of a system register that a thread has issued has not taken effect (R382). -/
def State.writesSystem (s : State) (t : Thread) : Bool := s.ops.any fun o => o.uid == t.uid && o.kind == .sysw && o.port == 1

/-- Words that read what a `SYSWR` may have written: they wait for it (R34, R382). -/
def awaitsSystem : Instr → Bool
  | .sysrd _ | .rft _ => true
  | _ => false

/-- What a word of a chain stalls on, none if nothing. -/
def State.stallOf (s : State) (i : Instr) : Option Wait :=
  let u := uses i
  let ts := s.gangThreads
  let regs := dedup (ts.flatMap fun t => s.busyRegs i t)
  let preds := dedup (ts.flatMap (busyPreds u))
  let fstat := u.fstat && (s.executing u.guard).any fun t => 0 < t.pendF
  if !regs.isEmpty || !preds.isEmpty || fstat then some (.score regs preds fstat)
  else if ts.any fun t => !(s.busyTokens u t).isEmpty then some (.token (dedup (ts.flatMap (s.busyTokens u))))
  else if awaitsAcquire i && (s.executing u.guard).any fun t => 0 < t.acqOut then some .order
  else if awaitsSystem i && s.gangThreads.any s.writesSystem then some .order
  else none

/-- The major opcode of a word. -/
def majorOf (w : Word) : Nat := field w 30 26

/-- The words of the chain that starts at word k, as fetched (R28): up to word 2. -/
def chainOf : List Word → List Word
  | [] => []
  | w :: r => if w.getLsbD 31 then w :: chainOf r else [w]

/-- The registers of a run that exist: a misaligned pair or quad at the end of a file names none of the other (R28, Table 2.11). -/
def inFile (run : List Nat) : List Nat :=
  match run with
  | [] => []
  | n :: _ => if n < 64 then run.filter (· < 64) else run.filter (· < 128)

/-- The destinations a word names: v and s registers, predicates, accumulators. -/
def destinations (i : Instr) : List Nat :=
  let u := uses i
  inFile u.writes ++ u.writeP.toList.map (· + 128) ++ u.acc.toList.map (· + 160)

/-- Word j of a chain of words from word k breaks a rule of R28. Of two words that clash, the later one fails: it is the first that does not
fit what stands before it (assumption 68). -/
def badChain (k : Nat) (ws : List Word) (j : Nat) : Bool :=
  match ws[j]? with
  | none => false
  | some w =>
    (k + j == 2 && w.getLsbD 31) ||
    ((majorOf w == 1 || majorOf w == 2) && j + 1 < ws.length) ||
    (List.range j).any fun i => match ws[i]? with
      | none => false
      | some v => majorPipe (majorOf v) == majorPipe (majorOf w) ||
        (match Decode.read v, Decode.read w with
         | .ok (_, a), .ok (_, b) => (destinations a).any (destinations b).contains
         | _, _ => false)

/-- The word is ILLEGAL-ENCODING, as it stands or for the format slot that it names (R260, Table 2.11). -/
def State.badFields (s : State) (w : Word) : Bool :=
  match decodeWord w with | .error _ => true | .ok i => s.badSlotRead i

/-- The first word of a chain that fails a check of Table 2.11, with its fate. -/
def State.chainFate (s : State) (k : Nat) (ws : List Word) : Option (DecodeFate × Nat) :=
  let idx := List.range ws.length
  let fate (d : DecodeFate) (p : Nat → Bool) : Option (DecodeFate × Nat) := (idx.find? p).map fun j => (d, k + j)
  let at_ (j : Nat) : Word := ws.getD j 0
  (fate .illegalClause fun j => majorOf (at_ j) == 0).or
  ((fate .illegalChain (badChain k ws)).or
  ((fate .illegalInstruction fun j => decodeWord (at_ j) == .error .illegalInstruction).or
   (fate .illegalEncoding fun j => s.badFields (at_ j))))

/-- Some of the threads that execute a `SYSWR` run outside trap and firmware mode, and write another register than `ABORT` (R41, R382). -/
def State.userWrites (s : State) (ts : List Thread) (a : BitVec 6) : Bool :=
  ts.any fun t => !t.trapMode && !s.firmware t && (s.src t (a.setWidth 7)).toNat != 0x20

/-- A privileged word in a gang outside its mode (R41). `SYSWR` reads its number once the scoreboard allows it. What mode a register needs
beyond that is judged by the meanings of `SYSRD` and `SYSWR`. -/
def State.unprivileged (s : State) : Instr → Bool
  | .rft _ | .wspill _ | .wfill _ => !s.privileged
  | .pegarm _ => !s.mayPeg
  | .syswr f => (s.stallOf (.syswr f)).isNone && s.userWrites (s.executing f.pred) f.a
  | _ => false

/-- The gang is exactly one whole group of 32 threads (R77). -/
def State.whole (s : State) : Bool :=
  let ts := s.gangThreads
  ts.length == 32 && laneMask ts == BitVec.allOnes 32 && (s.gids ts).length == 1 &&
  (match ts.head?.bind s.groupOf with | some g => (s.live g).length == 32 | none => false)

/-- `FENCE` or `EXIT`, where an owed fault falls due (R137), with its guard. -/
def duePoint : Instr → Option (BitVec 3)
  | .fence f => some f.pred
  | .exit f => some f.pred
  | _ => none

/-- The checks of a chain that has decoded, in the order of R376, and then its stalls and poisoned sources. -/
def State.checkChain (s : State) (k : Nat) (is : List Instr) : Verdict :=
  let idx := (List.range is.length).zip is
  let alone (e : Nat × Instr) : Verdict := .run ((s.forWord e.1).atWord (k + e.1)) [e.2]
  match idx.find? fun e => (s.forWord e.1).unprivileged e.2 with
  | some e => alone e
  | none =>
    match idx.find? fun e => (uses e.2).pipe == 4 && !(s.forWord e.1).whole with
    | some e => alone e
    | none =>
      match (idx.findSome? fun e => (s.forWord e.1).stallOf e.2).or (if s.gangThreads.any (flagFull is) then some .flagFull else none) with
      | some w => .done (s.stallGang w)
      | none =>
       match idx.find? fun e => ((s.forWord e.1).matrixCause e.2).isSome with
       | some e => alone e
       | none =>
        match idx.findSome? fun e => ((s.forWord e.1).poisonHit e.2).map fun q => (e.1, q) with
        | some (j, q) => .done (((s.forWord j).atWord (k + j)).takeTrap q)
        | none => .run s is

/-- The threads of the gang whose `TRAP` or `BKPT` has waited for the end of a wait of its chain (R96). -/
def State.trapsDue (s : State) : List Thread := s.gangThreads.filter fun t => t.due.isSome && !t.reissues

/-- The trap that some threads of the gang still have to take, before the gang issues again (R96). -/
def State.dueTrap (s : State) : Option State :=
  match s.trapsDue with
  | [] => none
  | t :: r => t.due.map fun d => { s with gang := uids (t :: r) }.takeTrap { TrapReq.of d.cause with kind := d.kind, mask := some d.mask }

/-- The chain at word k, fetched as `ws`. -/
def State.checkWords (s : State) (t : Thread) (k : Nat) (ws : List Word) : Verdict :=
  let ws := if s.gangThreads.all Thread.reissues then ws.take 1 else ws
  let is := ws.map decodeWord |>.filterMap fun r => match r with | .ok i => some i | .error _ => none
  if (List.range ws.length).any fun j => s.breakAt t (k + j) then .done s.haltGang
  else if s.gangThreads.any Thread.wdDue then .run s [.noProgress (s.gidOf t)]
  else
    let owing (j : Nat) : List Thread := match ((ws[j]?).bind fun w => (decodeWord w).toOption).bind duePoint with
      | some g => (s.executing g).filter fun t => !t.owed.isEmpty
      | none => []
    match (List.range ws.length).findSome? fun j => (s.atWord (k + j)).owedTrap (owing j) with
    | some s' => .done s'
    | none =>
      match s.chainFate k ws with
      | some (d, j) => .run s [.malformedWord d t.pkt j]
      | none => s.checkChain k is

/-- The lowest poisoned thread of the gang, for policy 1 of R204. -/
def State.policyTrap (s : State) : Option TrapReq :=
  let bad := s.gangThreads.filter fun t => !t.pois.isEmpty && recHcp (s.recordOf t.tid) == 1
  bad.head?.bind fun t => t.pois.head?.map fun q => TrapReq.poisoned (laneMask bad) (s.regNum t q.reg) q

/-- The flags a header waits for that are not clear in every thread of the gang (R32). -/
def State.unclear (s : State) (mask : BitVec 12) : Bool :=
  s.gangThreads.any fun t => (List.range 12).any fun i => mask.getLsbD i && t.count i != 0

/-- A gang that arrives at word 0 of a packet, fetched as `w` (R30-R32). -/
def State.checkHeader (s : State) (t : Thread) (w : Word) : Verdict :=
  if s.breakAt t 0 then .done s.haltGang
  else if s.gangThreads.any Thread.wdDue then .run s [.noProgress (s.gidOf t)]
  else match s.owedTrap (s.gangThreads.filter fun t => !t.owed.isEmpty) with
  | some s' => .done s'
  | none =>
    match s.policyTrap with
    | some q => .done (s.takeTrap q)
    | none =>
      if majorOf w != 0 then .run s [.malformedWord .illegalClause t.pkt 0]
      else if w.getLsbD 31 then .run s [.malformedWord .illegalChain t.pkt 0]
      else match decodeWord w with
        | .ok (.clause f) => if s.unclear f.wait then .done (s.stallGang (.clause f.wait)) else .run s [.clause f]
        | .ok _ => .run s [.malformedWord .illegalClause t.pkt 0]
        | .error d => .run s [.malformedWord d t.pkt 0]

/-- Threads of the gang that `RFT` sent to a header where their innermost seam ends are held there, as an arrival (R81, R381). -/
def State.holdResumed (s : State) : State :=
  let held := s.gangThreads.filter fun t => t.resumed &&
    (match t.seams with | e :: _ => e.pkt == t.pkt && e.depth == t.depth | [] => false)
  let s := s.modThreads (uids held) fun t => { t with state := .held, resumed := false }
  { s with gang := s.gang.filter fun u => !(uids held).contains u }

/-- A fetch of the gang has failed: the gang parks on the page request, or the context faults where the entry to its trap base
failed (R332, R344). -/
def State.fetchFault (s : State) (t : Thread) (kind lo len : Nat) : State :=
  if t.trapMode && t.entered then s.modCtx (s.ctxOf t.tid) fun c => { c with state := .faulted }
  else s.parkThreads s.gangThreads kind lo len 2

/-- Fetch words k to 2 of the gang's packet as far as their chain reaches. -/
def State.fetchChain (s : State) (t : Thread) : Nat → Nat → State × Except Fetch (List Word)
  | 0, _ => (s, .ok [])
  | n + 1, k =>
    let r := s.fetch t k
    match r.2 with
    | .fault kind lo len => (r.1, .error (.fault kind lo len))
    | .word w =>
      if w.getLsbD 31 && majorOf w != 0 then
        let q := State.fetchChain r.1 t n (k + 1)
        (q.1, match q.2 with | .ok ws => .ok (w :: ws) | .error e => .error e)
      else (r.1, .ok [w])

/-- What issues for the gang now formed. A thread that arrives at word 0 stands before a header; one inside a clause, or sent there by
`RFT`, may stand before a word of it (R31, R381). -/
def State.verdict (s : State) : Verdict :=
  match s.gangThreads with
  | [] => .done s
  | t :: _ =>
   match s.dueTrap with
   | some s' => .done s'
   | none =>
    if 2 < t.word then
      if s.gangThreads.any Thread.wdDue then .run s [.noProgress (s.gidOf t)] else .run s [.malformedWord .illegalClause t.pkt t.word]
    else
      let r := s.fetchChain t (3 - t.word) t.word
      match r.2 with
      | .error (.fault kind lo len) => .done (r.1.fetchFault t kind lo len)
      | .error _ => .done r.1
      | .ok ws =>
        let w := ws.headD 0
        let arrives := s.gangThreads.any fun t => t.clause.isNone && !t.resumed
        let starts := s.gangThreads.all fun t => t.clause.isNone || t.resumed
        if t.word == 0 && (if majorOf w == 0 then starts else arrives) then
          let s1 := r.1.holdResumed
          match s1.gangThreads with
          | [] => .done s1
          | t1 :: _ => s1.checkHeader t1 w
        else r.1.checkWords t t.word ws

end Sys2Proof.Machine
end

