-- ==== Sys2Proof/Machine/Control.lean ====
section
/-! DEFINITION. The clause header, transfers of control (major 1) and the control instructions of major 2 that touch no memory
(R30-R32, R89-R97, R381). -/

namespace Sys2Proof.Machine

/-! ### The clause header -/

/-- A thread enters the clause of a header. -/
def Thread.open_ (f : FH) (t : Thread) : Thread :=
  { t with clause := some { flagA := f.flagA.toNat, flagB := f.flagB.toNat, stop := t.pkt + f.len.setWidth 32 + 1 },
           word := 1 }

/-- `CLAUSE`: the gang waits until the named flags are clear in every thread, then starts the clause (R32). -/
def execClause (f : FH) (s : State) : Out :=
  if s.unclear f.wait then .next (s.stallGang (.clause f.wait))
  else .next (s.modThreads s.gang (Thread.open_ f))

/-! ### Transfers (R89-R91) -/

/-- One issue of a transfer: threads for which `run` holds are moved by f, the others go on. -/
def State.transfer (s : State) (run : Thread → Bool) (f : Thread → Thread) : State :=
  { s with threads := s.threads.map fun t =>
      if s.gang.contains t.uid then (if run t then f t else t.next) else t }

/-- The packet a signed offset away (R39). -/
def Thread.target (t : Thread) (off : BitVec 20) : Word := t.pkt + off.signExtend 32

/-- `BRA` (R90). -/
def execBra (f : FJ) (s : State) : Out := .next (s.transfer (fun t => t.p f.pred) fun t => t.jump (t.target f.off))

/-- `BRA` with the predicate negated (R90). -/
def execBraNegated (f : FJ) (s : State) : Out :=
  .next (s.transfer (fun t => !t.p f.pred) fun t => t.jump (t.target f.off))

/-- `BRX` (R90). -/
def execBrx (f : FJX) (s : State) : Out := .next (s.transfer (fun t => t.p f.pred) fun t => t.jump (s.src t f.a))

/-- Window d + 1 opens: its `v16`-`v63` are 0, its link is the next packet (R90). -/
def Thread.enter (W : Nat) (target : Word) (t : Thread) : Thread :=
  let t := { t with depth := t.depth + 1, links := SMap.put 0 (t.depth + 1) (t.pkt + 1) t.links }
  let t := (List.range 48).foldl (fun (t : Thread) i => t.setPhys (physReg W t.depth (16 + i)) 0) t
  t.jump target

/-- A resident window more would be one too many (R71, R91). -/
def State.windowsFull (s : State) (t : Thread) : Bool := t.depth - t.spill + 1 == s.win t.tid

/-- A call of the executing threads: `WINDOW-LIMIT`, then `SPILL`, then the transfer (R91). -/
def State.callOut (s : State) (run : Thread → Bool) (target : Thread → Word) : Out :=
  let ts := s.gangThreads.filter run
  if ts.any fun t => t.depth == 65535 then s.trapCause 0x12
  else if ts.any s.windowsFull then s.trapCause 0x10
  else .next (s.transfer run fun t => t.enter (s.win t.tid) (target t))

/-- `CALL` (R90, R91). -/
def execCall (f : FJ) (s : State) : Out := s.callOut (fun t => t.p f.pred) fun t => t.target f.off

/-- `CALLX` (R90, R91). -/
def execCallx (f : FJX) (s : State) : Out := s.callOut (fun t => t.p f.pred) fun t => s.src t f.a

/-- Leave the current window for its link; its seam entries are discarded (R83, R90). -/
def Thread.leave (t : Thread) : Thread :=
  let link := SMap.get 0 t.links t.depth
  { t with seams := t.seams.filter (fun e => e.depth != t.depth), depth := t.depth - 1,
           links := SMap.put 0 t.depth 0 t.links }.jump link

/-- `RET`: `ILLEGAL-RETURN` at depth 0, `FILL` where the caller's window is spilled (R90, R91). -/
def execRet (f : FP) (s : State) : Out :=
  let ts := s.executing f.pred
  if ts.any fun t => t.depth == 0 then s.trapCause 0x13
  else if ts.any fun t => t.spill == t.depth then s.trapCause 0x11
  else .next (s.transfer (fun t => t.p f.pred) Thread.leave)

/-! ### The lane store stage (R136, R137) -/

/-- A failed check at a location, as a poison mark for a core's access at an address of a space. -/
def State.bankPoison (s : State) (core space ea loc cons : Nat) : Poison :=
  { reg := 0, space := space, addr := BitVec.ofNat 64 ea, syn := s.synAt loc, tag := s.bankTag core loc cons }

/-- A thread owes a fault for a store at its point, issued at a tick, that could not merge: one for each such issue (R137). -/
def State.owe (s : State) (p : Poison) (since : Nat) (t : Thread) : State :=
  let o : OwedFault := { pkt := t.pkt, word := t.word, since := since, poison := p }
  s.modThread t.uid fun u => if u.owed.any o.like then u else { u with owed := u.owed ++ [o] }

/-- The bytes that one issue stores into a granule: location, value, thread. -/
abbrev StoreBytes := List (Nat × Byte × Thread)

/-- They cover the granule. -/
def StoreBytes.whole (all : StoreBytes) (g : Nat) : Bool :=
  (List.range 32).all fun i => all.any fun e => e.1 == 32 * g + i

/-- The store is not performed in a granule: it covers it in part, and its old hem has failed its check. -/
def State.refuses (s : State) (all : StoreBytes) (g : Nat) : Bool := !all.whole g && s.synAt (32 * g) != 0

/-- Merge the bytes that one issue stores into one granule: whole, they make its hem; in part, only where the old hem is good. -/
def State.mergeGranule (space : Nat) (ea : Thread → Nat) (all : StoreBytes) (s : State) (g : Nat) : State :=
  let mine := all.filter fun e => e.1 / 32 == g
  if s.refuses all g then
    let us := dedup (mine.map fun e => e.2.2.uid)
    let core := (mine.head?.map fun e => s.coreOf e.2.2.tid).getD 0
    let s := s.hemFault (s.bankTag core (32 * g) 6) (32 * g) (s.synAt (32 * g))
    us.foldl (fun s u => match s.thread u with
      | some t => s.owe (s.bankPoison core space (ea t) (32 * g) 6) s.tick t
      | none => s) s
  else
    let s := mine.foldl (fun s e => s.setByte e.1 e.2.1) s
    if all.whole g then (s.setSyn (32 * g) 0).setTag (32 * g) 0 else s.setTag (32 * g) 0

/-- The granules that a store touches. -/
def StoreBytes.granules (all : StoreBytes) : List Nat := dedup (all.map fun e => e.1 / 32)

/-! ### SEAM (R78, R79, R84) -/

/-- The lowest tags that no entry of a team's threads holds, n of them. -/
def State.freeTags (s : State) (tid n : Nat) : List Nat :=
  let used := (s.teamThreads tid).flatMap fun t => t.seams.map Seam.tag
  (((List.range (used.length + n)).map (· + 1)).filter fun k => !used.contains k).take n

/-- The lane-own byte offset of the entry of a level above 8 (R84). -/
def overflowOff (P level : Nat) : Nat := P - 256 + 8 * (level - 9)

/-- The location of a lane-own byte of a thread (R124). -/
def State.laneOwnLoc (s : State) (t : Thread) (o : Nat) : Nat :=
  match s.team t.tid with
  | some x => scratchLoc x.core (x.privBase + 4 * (recTsize (s.recordOf t.tid) * (o / 4) + t.lid) + o % 4)
  | none => 0

/-- Bytes to be stored from a lane-own offset of a thread on, each with its location. -/
def State.laneOwnBytes (s : State) (t : Thread) (o : Nat) (bs : List Byte) : StoreBytes :=
  ((List.range bs.length).zip bs).map fun e => (s.laneOwnLoc t (o + e.1), e.2, t)

/-- Lane-own bytes of a thread. -/
def State.laneOwn (s : State) (t : Thread) (o n : Nat) : List Byte :=
  (List.range n).map fun i => s.byte (s.laneOwnLoc t (o + i))

/-- The lane-own offset at which a thread's next entry goes (R84). -/
def State.nextSeamOff (s : State) (t : Thread) : Nat := overflowOff (recPriv (s.recordOf t.tid)) (t.seams.length + 1)

/-- The lane-own bytes of a thread's next entry, where its level is above 8. -/
def State.seamBytes (s : State) (t : Thread) (e : Seam) : StoreBytes :=
  if t.seams.length < 8 then []
  else s.laneOwnBytes t (s.nextSeamOff t) (natLe 4 e.pkt.toNat ++ natLe 2 e.depth ++ natLe 2 e.tag)

/-- Push one seam entry on a thread; the ninth puts its group into single-stitch mode. -/
def State.pushSeam (s : State) (t : Thread) (e : Seam) : State :=
  let s := s.modThread t.uid fun t => { t with seams := e :: t.seams }
  if t.seams.length == 8 then s.modGroup (s.gidOf t) fun g => { g with turn := some (g.turn.getD 0) } else s

/-- `SEAM`: one tag for each window depth among the gang's threads (R79, R90, R91). -/
def execSeam (f : FSeam) (s : State) : Out :=
  let ts := s.gangThreads
  if ts.any fun t => t.seams.length == 40 || (8 ≤ t.seams.length && recPriv (s.recordOf t.tid) < 256) then s.trapCause 0x14
  else
    let depths := dedup (ts.map Thread.depth)
    let tags := s.freeTags ((ts.head?.map Thread.tid).getD 0) depths.length
    let tag (d : Nat) : Nat := (((depths.zip tags).find? fun e => e.1 == d).map fun e => e.2).getD 0
    let entry (t : Thread) : Seam := { pkt := t.target f.off, depth := t.depth, tag := tag t.depth }
    let all : StoreBytes := ts.flatMap fun t => s.seamBytes t (entry t)
    let s' := ts.foldl (fun s t => s.pushSeam t (entry t)) s
    .next (all.granules.foldl (State.mergeGranule 5 s.nextSeamOff all) s').advance

/-! ### Major 2 -/

/-- `NOP` (R93). -/
def execNop (_f : FP) (s : State) : Out := .next s.advance

/-- The paths of the gang's threads. -/
def State.gangPaths (s : State) : List Nat := dedup (s.gangThreads.map Thread.path)

/-- Bar a path until each of its siblings that is issuable now has issued or ceased to be (R94). -/
def State.barPath (s : State) (pid : Nat) : State :=
  match s.paths.find? fun p => p.id == pid with
  | none => s
  | some p =>
    let sib := (s.paths.filter fun q => s.siblings p q && s.issuable q).map Path.id
    { s with paths := s.paths.map fun q => if q.id == pid then { q with bar := sib, fair := 0, overdue := none, run := 0 } else q }

/-- `YIELD` (R94). -/
def execYield (f : FP) (s : State) : Out :=
  match s.executing f.pred with
  | [] => .next s.advance
  | t :: _ =>
    let s := s.gangPaths.foldl State.barPath s
    .next (s.addLt (s.coreOf t.tid) (s.lease (s.ctxOf t.tid))).advance

/-- `EXIT`: seam entries and trap registers are discarded; the thread is EXITED once its operations have completed (R95, R379). -/
def execExit (f : FP) (s : State) : Out :=
  .next (s.transfer (fun t => t.p f.pred) fun t => { t with seams := [], trap := [], trapMode := false, state := .exiting })

/-- A trap behind the word, taken after the rest of the chain. Where another word of the chain holds threads at a barrier or a monitor, that
stays its effect: the gang takes the trap as its threads go on, before they issue again (R96, assumption 70). -/
def State.trapAfter (s : State) (q : TrapReq) : Out :=
  if s.gangThreads.any fun t => t.state == .waiting then
    .next (s.advance.modThreads s.gang fun t => { t with due := some { cause := q.cause, kind := q.kind, mask := q.mask.getD 0 } })
  else s.trapOut { q with after := true }

/-- `TRAP` (R96). -/
def execTrap (f : FTrap) (s : State) : Out :=
  match s.executing f.pred with
  | [] => .next s.advance
  | ts => s.trapAfter { TrapReq.of 0x38 with kind := f.code.toNat, mask := some (laneMask ts) }

/-- `BKPT` (R96): a trap, or a halt of the gang's groups where a debugger holds the context's right. -/
def execBkpt (f : FP) (s : State) : Out :=
  match s.executing f.pred with
  | [] => .next s.advance
  | t :: r =>
    match (s.ctx (s.ctxOf t.tid)).bind Ctx.dbg with
    | some _ => .next s.advance.haltGang
    | none => s.trapAfter { TrapReq.of 0x39 with mask := some (laneMask (t :: r)) }

/-- `RFT` (R97, R381). -/
def execRft (_f : FC) (s : State) : Out := s.returnFromTrap

/-- The trap cause of a malformed word (Table 2.11, Table 26.1). -/
def fateCause : DecodeFate → Nat
  | .illegalClause => 0x01
  | .illegalChain => 0x02
  | .illegalInstruction => 0x03
  | .illegalEncoding => 0x04

/-- `MALFORMED_WORD`: its decode trap, at the word (R45). -/
def execMalformedWord (cause : DecodeFate) (pkt : Word) (word : Nat) (s : State) : Out :=
  (s.modThreads s.gang fun t => { t with pkt := pkt, word := word }).trapCause (fateCause cause)

/-! ### WSPILL and WFILL (R74, R98, R205, R239) -/

/-- The thread needs a spill. -/
def State.needsSpill (s : State) (t : Thread) : Bool := s.windowsFull t

/-- The thread needs a fill. -/
def Thread.needsFill (t : Thread) : Bool := 0 < t.spill && t.spill == t.depth

/-- The image offset a source gives: bits 7:0 cleared. -/
def State.imageOff (s : State) (t : Thread) (a : BitVec 7) : Nat := (s.src t a).toNat / 256 * 256

/-- The checks of both instructions over the threads that need one: `PRIVILEGE`, `SCRATCH-BOUND`, `BARRIER-MISUSE` kind 1. -/
def State.imageTrap (s : State) (need : Thread → Bool) (a : BitVec 7) : Option TrapReq :=
  let ts := s.gangThreads.filter need
  let req (cause kind : Nat) (bad : List Thread) : Option TrapReq := bad.head?.map fun t =>
    { TrapReq.of cause with kind := kind, mask := some (laneMask bad), space := 5, addr := BitVec.ofNat 64 (s.imageOff t a) }
  if !s.privileged then some (TrapReq.of cPrivilege)
  else
    (req 0x07 0 (ts.filter fun t => recPriv (s.recordOf t.tid) < s.imageOff t a + 512)).or
    (req 0x0E 1 (ts.filter fun t => (List.range 64).any fun i =>
      s.slots.contains (s.laneOwnLoc t (s.imageOff t a + 4 * i) / 16)))

/-- The syndrome of the granule of a lane-own byte of a thread, and its failed check as a poison mark. -/
def State.laneOwnPoison (s : State) (t : Thread) (o reg : Nat) : Option Poison :=
  let loc := s.laneOwnLoc t o
  if s.synAt loc == 0 then none
  else some { reg := reg, space := 5, addr := BitVec.ofNat 64 o, syn := s.synAt loc, tag := s.bankTag (s.coreOf t.tid) loc 0 }

/-- The bytes of the oldest resident window of a thread, at their places in its image. -/
def State.spillBytes (s : State) (a : BitVec 7) (t : Thread) : StoreBytes :=
  let words := (List.range 48).map fun k => SMap.get 0 t.regs (physReg (s.win t.tid) t.spill k)
  s.laneOwnBytes t (s.imageOff t a) (bytesOf words ++ natLe 4 (SMap.get 0 t.links t.spill).toNat ++ List.replicate 60 0)

/-- The granules that hold a poisoned register of that window. -/
def State.spillBad (s : State) (a : BitVec 7) (t : Thread) : List Nat :=
  ((List.range 48).filter fun k => t.pois.any fun q => q.reg == physReg (s.win t.tid) t.spill k).map fun k =>
    s.laneOwnLoc t (s.imageOff t a + 4 * k) / 32

/-- Store one granule of the windows that some threads spill; one that holds a poisoned register keeps syndrome 0x0001 (R205). -/
def State.spillGranule (a : BitVec 7) (bad : List Nat) (all : StoreBytes) (s : State) (g : Nat) : State :=
  let s' := State.mergeGranule 5 (s.imageOff · a) all s g
  if bad.contains g && !s.refuses all g then s'.setSyn (32 * g) 1 else s'

/-- The oldest resident windows of some threads are spilled. -/
def State.spill (s : State) (a : BitVec 7) (ts : List Thread) : State :=
  let all : StoreBytes := ts.flatMap (s.spillBytes a)
  (all.granules.foldl (State.spillGranule a (ts.flatMap (s.spillBad a)) all) s).modThreads (uids ts) fun t => { t with spill := t.spill + 1 }

/-- Restore the youngest spilled window of a thread; a register whose granule fails its check is poisoned (R98). -/
def State.fillOne (s : State) (a : BitVec 7) (t : Thread) : State :=
  let W := s.win t.tid
  let o := s.imageOff t a
  let w := t.spill - 1
  let words := wordsOf (s.laneOwn t o 196)
  let bad := (List.range 48).filterMap fun k => s.laneOwnPoison t (o + 4 * k) (physReg W w k)
  s.modThread t.uid fun t =>
    let t := t.setPhysList ((List.range 48).map (physReg W w)) (words.take 48)
    { t with links := SMap.put 0 w (words.getD 48 0) t.links, spill := w, pois := bad ++ t.pois }

/-- The granules that an access by several threads of a gang takes bytes from: each is checked once for all of them (Table 9.2). -/
def State.checkOnce (s : State) (core cons : Nat) (locs : List Nat) : State :=
  (dedup (locs.map fun l => l / 32)).foldl (fun s g => s.hemFault (s.bankTag core (32 * g) cons) (32 * g) (s.synAt (32 * g))) s

/-- The core of the gang. -/
def State.gangCore (s : State) : Nat := (s.gangThreads.head?.map fun t => s.coreOf t.tid).getD 0

/-- The locations of the registers of a thread's window image. -/
def State.fillLocs (s : State) (a : BitVec 7) (t : Thread) : List Nat := (List.range 48).map fun k => s.laneOwnLoc t (s.imageOff t a + 4 * k)

/-- `WSPILL`. -/
def execWspill (f : FG1) (s : State) : Out :=
  match s.imageTrap s.needsSpill f.a with
  | some q => s.trapOut q
  | none => .next (s.spill f.a (s.gangThreads.filter s.needsSpill)).advance

/-- `WFILL`. -/
def execWfill (f : FG1) (s : State) : Out :=
  match s.imageTrap Thread.needsFill f.a with
  | some q => s.trapOut q
  | none =>
    let ts := s.gangThreads.filter Thread.needsFill
    .next (ts.foldl (State.fillOne · f.a) (s.checkOnce s.gangCore 0 (ts.flatMap (s.fillLocs f.a)))).advance

end Sys2Proof.Machine
end

