-- ==== Sys2Proof/Machine/Order.lean ====
section
/-! DEFINITION. What a release orders before it and what an acquire takes from it (R147, R149-R152, Tables 6.6 and 7.1). Global memory
carries the order in its stamps; memory that keeps none carries the logical time of the release beside its bytes (assumption 62). -/

namespace Sys2Proof.Machine

/-! ### What a release waits for -/

/-- The request that carries a thread's store. -/
def State.carrier (s : State) (o : Op) : Option Op := s.ops.find? fun r => r.waits.contains o.id

/-- A store, an atomic or a publication has not reached the point that Table 6.6 gives for a scope. -/
def State.storeOpen (s : State) (scope : Nat) (o : Op) : Bool :=
  match o.kind with
  | .store =>
    if o.space == 1 then scope == 4
    else if o.space == 0 && scope ≤ 1 && o.rtype != 3 then
      (match s.carrier o with | some r => r.req != .write | none => false)
    else true
  | .atomic => o.space != 1 || scope == 4
  | .pubf => scope == 4
  | _ => false

/-- A load has not taken effect: fabric ones are ordered at `.SYSTEM` only (R170). -/
def loadOpen (scope : Nat) (o : Op) : Bool := (o.kind == .load || o.kind == .mon) && (o.space != 1 || scope == 4)

/-- A release at a scope waits for this access of the threads that it orders (R149). -/
def State.accessOpen (s : State) (scope : Nat) (o : Op) : Bool := s.storeOpen scope o || loadOpen scope o

/-- A release from `.CLUSTER` on waits for this global store or atomic of its core too, whichever thread issued it: a barrier or a read
on the core may have put it before the release (R152, assumption 62). -/
def State.coreOpen (s : State) (core ctx scope : Nat) (o : Op) : Bool :=
  2 ≤ scope && o.uid != 0 && o.agent == core && o.ctx == ctx && o.space == 0 && s.storeOpen scope o

/-- A release at a scope that orders the accesses of some threads of one core has what it waits for, of the operations before `cut`. -/
def State.ordered (s : State) (own : List Nat) (core ctx scope cut : Nat) : Bool :=
  s.ops.all fun o => !(o.id < cut && ((own.contains o.uid && s.accessOpen scope o) || s.coreOpen core ctx scope o))

/-- The first operation that a release of the gang's word has no concern with: what is issued after the word first stalled. -/
def State.gangCut (s : State) : Nat := (s.gangThreads.head?.bind Thread.cut).getD s.nextId

/-- The release of one thread at a scope has what it waits for. -/
def State.threadOrdered (s : State) (scope : Nat) (t : Thread) : Bool :=
  s.ordered [t.uid] (s.coreOf t.tid) (s.ctxOf t.tid) scope s.gangCut

/-- The gang waits for what a fence or another release wants. -/
def State.stallFence (s : State) : State :=
  s.modThreads s.gang fun t => { t with state := .waiting, wait := .fence, cut := some (t.cut.getD s.nextId) }

/-- A thread's arrival at a barrier of its group or team releases at `.GROUP` or `.CORE` scope: its own accesses have come that far
(R149, R158). -/
def State.barrierReady (s : State) (w : Wait) (t : Thread) : Bool :=
  s.ops.all fun o => !(o.uid == t.uid && s.accessOpen (if w == .gbar then 0 else 1) o)

/-! ### The logical time of a release -/

/-- What the threads of a core have acquired through memory that keeps no stamps. -/
def State.ot (s : State) (core : Nat) : Nat := SMap.get 0 s.ots core

/-- The logical time that a leased copy must reach to be read on a core: its LT, and what was acquired there (R151, R177). -/
def State.orderTime (s : State) (core : Nat) : Nat := max (s.lt core) (s.ot core)

/-- An acquire on a core takes a release's time. -/
def State.raiseOt (s : State) (core v : Nat) : State := { s with ots := SMap.put 0 core (max (s.ot core) v) s.ots }

/-- What has been left at a location. -/
def State.markAt (s : State) (loc : Nat) : Nat × Nat := SMap.get (0, 0) s.bankRel (loc / 16)

/-- The greatest time that releases have left with values written at some locations. -/
def State.relAt (s : State) (locs : List Nat) : Nat := locs.foldl (fun m l => max m (s.markAt l).1) 0

/-- The greatest time that reads after a release have left at some locations. -/
def State.readAt (s : State) (locs : List Nat) : Nat := locs.foldl (fun m l => max m (s.markAt l).2) 0

/-- Leave times at some locations. -/
def State.leave (s : State) (w r : Nat) (locs : List Nat) : State :=
  { s with bankRel := locs.foldl (fun m l =>
      let a := SMap.get (0, 0) m (l / 16)
      SMap.put (0, 0) (l / 16) (max w a.1, max r a.2) m) s.bankRel }

/-- A value written after a release carries its time. -/
def State.leaveRel (s : State) (v : Nat) (locs : List Nat) : State := s.leave v 0 locs

/-- A read after a release leaves its time: what is written over the value read comes after it (R157). -/
def State.leaveRead (s : State) (v : Nat) (locs : List Nat) : State := s.leave 0 v locs

/-- A thread has read values that carry a time, or written over values read at one: its next acquire takes it. -/
def Thread.take (v : Nat) (t : Thread) : Thread := { t with got := max t.got v }

/-- The same in fabric memory. -/
def Thread.takeSys (v : Nat) (t : Thread) : Thread := { t with gotSys := max t.gotSys v }

/-- The logical time that a request for an operation carries: the core's LT, and for a store or an atomic what the last releases of its
threads had reached (R151, R177, assumption 62). -/
def State.carried (s : State) (o : Op) : Nat :=
  match o.kind with
  | .store | .atomic => (s.standsFor o).foldl (fun m x => max m (match s.thread x.uid with | some t => t.rel | none => 0)) (s.lt o.agent)
  | _ => s.lt o.agent

end Sys2Proof.Machine
end

