-- ==== Sys2Proof/Machine/Banks.lean ====
section
/-! DEFINITION. The lane-own, scratch, cluster and die spaces (majors 20-23): addresses, bounds, loads, merged stores and
atomics (R121-R128, R131-R139, R239). -/

namespace Sys2Proof.Machine

/-! ### Effective addresses and bounds -/

/-- Bytes of an access width (R43). -/
def widthBytes (w : BitVec 3) : Nat := 2 ^ w.toNat

/-- The effective address of a thread in a space: 2 scratch, 3 cluster, 4 die, 5 lane-own (Table 6.1). -/
def State.bankEa (s : State) (_space : Nat) (t : Thread) (a : BitVec 7) (off : Nat) : Nat := (s.src t a).toNat + off

/-- The die share of a team: the slices of its context's partition on its die-space die that give capacity, and the smallest
contribution among them in bytes (R128). -/
def State.dieShare (s : State) (tid : Nat) : List Nat × Nat :=
  match s.team tid with
  | none => ([], 0)
  | some x =>
    let code (sl : Nat) : Nat := SMap.get 0 s.contrib sl
    let sls := (s.partition x.ctx).filter fun sl => sliceDie sl == x.dieSpace && 0 < code sl
    (sls, (sls.foldl (fun m sl => min m (code sl)) 3) * 262144)

/-- The location of a die-space byte (R128). -/
def dieByte (share : List Nat × Nat) (o : Nat) : Nat :=
  let n := share.1.length
  dieLoc (share.1.getD (o / 256 % max 1 n) 0) (o / (256 * max 1 n) * 256 + o % 256)

/-- The byte lies in the scratch allocation of a team of a launch on a core (R127). -/
def State.inLaunch (s : State) (lid core o : Nat) : Bool :=
  s.teams.any fun x => x.lid == lid && x.core == core && x.scrBase ≤ o && o < x.scrBase + x.scrSize && s.allocated x

/-- The locations of the bytes of an access, none where it passes the bound of its space (R122). -/
def State.bankLocs (s : State) (space : Nat) (t : Thread) (a : BitVec 7) (off size : Nat) : Option (List Nat) :=
  let src := (s.src t a).toNat
  let ea := src + off
  match s.team t.tid with
  | none => none
  | some x =>
    match space with
    | 5 =>
      let P := recPriv (s.recordOf t.tid)
      if ea + size ≤ (if 256 ≤ P then P - 256 else P) then some ((List.range size).map fun i => s.laneOwnLoc t (ea + i)) else none
    | 2 => if ea + size ≤ x.scrSize then some ((List.range size).map fun i => scratchLoc x.core (x.scrBase + ea + i)) else none
    | 3 =>
      let core := 4 * coreCluster x.core + src / 2 ^ 22 % 4
      let o := src % 2 ^ 22 + off
      if src < 2 ^ 24 && o + size ≤ 3145728 && (List.range size).all fun i => s.inLaunch x.lid core (o + i)
      then some ((List.range size).map fun i => scratchLoc core (o + i)) else none
    | _ =>
      let share := s.dieShare t.tid
      if ea + size ≤ share.1.length * share.2 then some ((List.range size).map fun i => dieByte share (ea + i)) else none

/-- A trap of an access by some threads of the gang, told by the first of them. -/
def State.bankReq (s : State) (space : Nat) (a : BitVec 7) (off : Nat) (bad : List Thread) (cause : Thread → Nat) (kind : Nat) :
    Option TrapReq :=
  bad.head?.map fun t =>
    { TrapReq.of (cause t) with
      kind := kind, mask := some (laneMask bad), space := space, addr := BitVec.ofNat 64 (s.bankEa space t a off) }

/-- Alignment first, then the bound, for each executing thread (R122). -/
def State.boundTrap (s : State) (space : Nat) (ts : List Thread) (a : BitVec 7) (off size : Nat) : Option TrapReq :=
  let low (t : Thread) : Nat := if space == 3 then s.bankEa space t a off % 2 ^ 22 else s.bankEa space t a off
  let cause (t : Thread) : Nat :=
    if low t % size != 0 then 0x06 else if (s.bankLocs space t a off size).isNone then 0x07 else 0
  s.bankReq space a off (ts.filter fun t => cause t != 0) cause 0

/-- The checks of one issue: alignment and bound, and then that no byte lies in a barrier slot (R122, R239). -/
def State.bankTrap (s : State) (space : Nat) (ts : List Thread) (a : BitVec 7) (off size : Nat) : Option TrapReq :=
  (s.boundTrap space ts a off size).or
    (s.bankReq space a off
      (ts.filter fun t => ((s.bankLocs space t a off size).getD []).any fun l => s.slots.contains (l / 16)) (fun _ => 0x0E) 1)

/-- The bytes at a list of locations. -/
def State.gather (s : State) (locs : List Nat) : List Byte := locs.map s.byte

/-- The first location of a list whose granule fails its check. -/
def State.firstBad (s : State) (locs : List Nat) : Option Nat := locs.find? fun l => s.synAt l != 0

/-! ### Loads -/

/-- One thread's load: its bytes are read at issue and come back as `LOAD_RETURN`; the thread takes the time of a release that they
carry, and leaves its own (R151, R157, assumption 62). -/
def State.bankLoad (space : Nat) (f : FM) (off size : Nat) (s : State) (t : Thread) : State :=
  let locs := (s.bankLocs space t f.a off size).getD []
  let o := { s.opOf t .load (t.sel f.fb) with
    space := space, size := size, regs := s.phys t f.data.toNat (widthRegs f.w), addr := BitVec.ofNat 64 (s.bankEa space t f.a off),
    fill := s.gather locs, poison := (s.firstBad locs).map fun l => s.bankPoison (s.coreOf t.tid) space (s.bankEa space t f.a off) l 0 }
  ((s.leaveRead t.rel locs).modThread t.uid (Thread.take (s.relAt locs))).send o .loadReturn

/-- A load of majors 20-23 (R132). -/
def State.bankLoads (s : State) (space : Nat) (f : FM) : Out :=
  let size := widthBytes f.w
  let off := f.mod.toNat * size
  let ts := s.executing f.pred
  match s.bankTrap space ts f.a off size with
  | some q => s.trapOut q
  | none =>
    .next (ts.foldl (State.bankLoad space f off size) (s.checkOnce s.gangCore 0 (ts.flatMap fun t => (s.bankLocs space t f.a off size).getD []))).advance

/-! ### Stores (R132, R136, R137) -/

/-- The bytes that an access of a width stores from v registers, lowest first. -/
def State.storeBytes (s : State) (t : Thread) (data : BitVec 6) (size : Nat) : List Byte :=
  (bytesOf ((List.range ((size + 3) / 4)).map fun i => t.v (s.win t.tid) (data.toNat + i))).take size

/-- The stores of one issue, byte by byte: location, value, thread. Later entries are of higher home lanes. -/
def State.bankBytes (s : State) (space : Nat) (ts : List Thread) (f : FM) (off size : Nat) : StoreBytes :=
  ts.flatMap fun t =>
    (((s.bankLocs space t f.a off size).getD []).zip (s.storeBytes t f.data size)).map fun e => (e.1, e.2, t)

/-- A store of majors 20-23: the issue's bytes merge granule by granule; each thread is acknowledged (R132, R136).
The bytes change at issue (assumption 67). -/
def State.bankStores (s : State) (space : Nat) (f : FM) : Out :=
  let size := widthBytes f.w
  let off := f.mod.toNat * size
  let ts := s.executing f.pred
  match s.bankTrap space ts f.a off size with
  | some q => s.trapOut q
  | none =>
    let all := s.bankBytes space ts f off size
    let ea (t : Thread) : Nat := s.bankEa space t f.a off
    let s := all.granules.foldl (State.mergeGranule space ea all) s
    let s := ts.foldl (fun s t =>
      let locs := (s.bankLocs space t f.a off size).getD []
      (s.leaveRel t.rel locs).modThread t.uid (Thread.take (s.readAt locs))) s
    .next (ts.foldl (fun s t => s.send { s.opOf t .store (t.sel f.fb) with space := space, size := size } .storeAck) s).advance

/-! ### Atomics (R44, R138, R139) -/

/-- The new value of an atomic but `CAS` at width n (Table 2.10). The float forms round RNE and keep subnormals. -/
def atomicNew (aop n : Nat) (old op : Nat) : Nat :=
  let m := 2 ^ n
  let low : BitVec 64 := BitVec.ofNat 64 old
  let o : BitVec 64 := BitVec.ofNat 64 op
  match aop with
  | 0 => (old + op) % m
  | 1 => if sext old n ≤ sext op n then old else op
  | 2 => if sext old n ≤ sext op n then op else old
  | 3 => min old op
  | 4 => max old op
  | 5 => (low &&& o).toNat
  | 6 => (low ||| o).toNat
  | 7 => (low ^^^ o).toNat
  | 8 => op
  | 10 => (fadd32 0 (BitVec.ofNat 32 old) (BitVec.ofNat 32 op)).1.toNat
  | 11 => (faddPacked BF16 0 (BitVec.ofNat 32 old) (BitVec.ofNat 32 op)).1.toNat
  | _ => old

/-- What an atomic stores in place of `old`, given its operand registers, lowest first (R139). -/
def atomicResult (aop n old : Nat) (args : List Word) : Nat :=
  let k := n / 32
  let arg (i : Nat) : Nat := leNat (bytesOf ((args.drop (k * i)).take k))
  if aop == 9 then (if old == arg 0 then arg 1 else old) else atomicNew aop n old (arg 0)

/-- The v registers an atomic reads (R44). -/
def State.atomicArgs (s : State) (t : Thread) (f : FA) : List Word :=
  let k := (if f.wide then 2 else 1) * (if f.aop == 9 then 2 else 1)
  (List.range k).map fun i => t.v (s.win t.tid) (f.data.toNat + i)

/-- The width of an atomic in bytes. -/
def atomicBytes (f : FA) : Nat := if f.wide then 8 else 4

/-- One thread's atomic at the unit that holds the granule: a bad granule stays as it is (R138, R139). -/
def State.bankAtomic (space cons : Nat) (f : FA) (s : State) (t : Thread) : State :=
  let locs := (s.bankLocs space t f.a 0 (atomicBytes f)).getD []
  let old := s.gather locs
  let bad := s.firstBad locs
  let new := natLe (atomicBytes f) (atomicResult f.aop.toNat (8 * (atomicBytes f)) (leNat old) (s.atomicArgs t f))
  let o := { s.opOf t .atomic (t.sel f.fb) with
    space := space, size := (atomicBytes f), regs := s.phys t f.data.toNat ((atomicBytes f) / 4), addr := BitVec.ofNat 64 (s.bankEa space t f.a 0),
    fill := old, poison := bad.map fun l => s.bankPoison (s.coreOf t.tid) space (s.bankEa space t f.a 0) l cons }
  let s := match bad with
    | some l => s.hemFault (s.bankTag (s.coreOf t.tid) l cons) l (s.synAt l)
    | none => ((locs.zip new).foldl (fun (s : State) (e : Nat × Byte) => s.setByte e.1 e.2) s).setTag (locs.headD 0) 0
  let seen := max (s.relAt locs) (s.readAt locs)
  ((s.leave t.rel t.rel locs).modThread t.uid (Thread.take seen)).send o .atomicReturn

/-- An atomic of majors 21-23, in ascending home lane (R139). -/
def State.bankAtomics (s : State) (space cons : Nat) (f : FA) : Out :=
  let ts := s.executing f.pred
  match s.bankTrap space ts f.a 0 (atomicBytes f) with
  | some q => s.trapOut q
  | none => .next (ts.foldl (State.bankAtomic space cons f) s).advance

/-! ### The meanings -/

/-- `LDP` (R132). -/
def execLdp (f : FM) (s : State) : Out := s.bankLoads 5 f

/-- `LDSC` (R132). -/
def execLdsc (f : FM) (s : State) : Out := s.bankLoads 2 f

/-- `LDCL` (R132). -/
def execLdcl (f : FM) (s : State) : Out := s.bankLoads 3 f

/-- `LDDS` (R132). -/
def execLdds (f : FM) (s : State) : Out := s.bankLoads 4 f

/-- `STP` (R132). -/
def execStp (f : FM) (s : State) : Out := s.bankStores 5 f

/-- `STSC` (R132). -/
def execStsc (f : FM) (s : State) : Out := s.bankStores 2 f

/-- `STCL` (R132). -/
def execStcl (f : FM) (s : State) : Out := s.bankStores 3 f

/-- `STDS` (R132). -/
def execStds (f : FM) (s : State) : Out := s.bankStores 4 f

/-- `ATSC` (R139). -/
def execAtsc (f : FA) (s : State) : Out := s.bankAtomics 2 4 f

/-- `ATCL` (R139). -/
def execAtcl (f : FA) (s : State) : Out := s.bankAtomics 3 4 f

/-- `ATDS` (R139). -/
def execAtds (f : FA) (s : State) : Out := s.bankAtomics 4 3 f

/-! ### Completions (R33, R203) -/

/-- Another lane of the operation's gang has the same granule still to bring back, which is checked once for all of them (Table 9.2). -/
def State.twin (s : State) (o : Op) : Bool :=
  o.kind == .load && s.ops.any fun x =>
    x.id != o.id && x.kind == .load && x.tid == o.tid && x.pkt == o.pkt && x.word == o.word && x.issued == o.issued && x.space == o.space &&
    x.loc / 32 == o.loc / 32 && (x.poison.isSome || x.fill.isEmpty) && (s.group x.gid).map Group.sched == (s.group o.gid).map Group.sched

/-- Write the words an operation brought into its registers, poisoning them where its check failed, and complete it; a
remote reply that failed is noted in `FABST` (R203, R227). Checks of the banked spaces and of sequences were reported as they failed. -/
def State.complete (s : State) (o : Op) (ws : List Word) : State :=
  let s := match s.thread o.uid with
    | some t => if t.wouldChange o.regs ws then s.groupProgress t else s
    | none => s
  let s := if o.poison.isSome && (o.space == 1 || (o.space == 0 && isRemote o.loc)) then s.noteFabst o.uid fabPoison else s
  let s := match o.poison with
    | some q => if q.space == 0xFF || 2 ≤ o.space || s.twin o then s else s.hemFault q.tag o.loc q.syn
    | none => s
  let marks : List Poison := match o.poison with | some q => o.regs.map fun r => { q with reg := r } | none => []
  let s := s.modThread o.uid fun t =>
    let t := t.setPhysList o.regs ws
    { t with pois := marks ++ t.pois }
  s.finish o

/-- The words of an access of a size, zero-extended (R132). -/
def accessWords (bs : List Byte) : List Word := wordsOf bs

/-- `LOAD_RETURN`: the data, checked per granule, reaches the registers (R203). -/
def execLoadReturn (op : Nat) (s : State) : Out :=
  match s.op op with
  | some o => .next (s.complete o (accessWords (o.fill.take o.size)))
  | none => .next s

/-- `STORE_ACK`: the thread's flag falls (R33). -/
def execStoreAck (op : Nat) (s : State) : Out :=
  match s.op op with
  | some o => .next (s.finish o)
  | none => .next s

/-- `ATOMIC_RETURN`: the old value reaches the registers (R139). -/
def execAtomicReturn (op : Nat) (s : State) : Out :=
  match s.op op with
  | some o => .next (s.complete o (accessWords (o.fill.take o.size)))
  | none => .next s

end Sys2Proof.Machine
end

