-- ==== Sys2Proof/Machine/Barriers.lean ====
section
/-! DEFINITION. Slot barriers in scratch and cluster memory, and the hardware barriers of a group and a team (R231-R243). -/

namespace Sys2Proof.Machine

/-! ### The slot (Table 12.1) -/

/-- The fields of a barrier slot. -/
structure Slot where
  owner    : Nat
  landed   : Nat
  target   : Nat
  inflight : Nat
  fault    : Bool
  st       : Nat
  pending  : Nat
  phase    : Nat
  expect   : Nat
  deriving DecidableEq, Repr

/-- The fields that 128 bits hold. -/
def slotOf (w : BitVec 128) : Slot where
  owner := field w 127 113
  landed := field w 112 85
  target := field w 84 58
  inflight := field w 57 51
  fault := w.getLsbD 50
  st := field w 49 48
  pending := field w 47 32
  phase := field w 31 16
  expect := field w 15 0

/-- The 128 bits of a slot. -/
def slotBits (x : Slot) : BitVec 128 :=
  BitVec.ofNat 15 x.owner ++ BitVec.ofNat 28 x.landed ++ BitVec.ofNat 27 x.target ++ BitVec.ofNat 7 x.inflight ++
  (if x.fault then 1#1 else 0#1) ++ BitVec.ofNat 2 x.st ++ BitVec.ofNat 16 x.pending ++ BitVec.ofNat 16 x.phase ++
  BitVec.ofNat 16 x.expect

/-- The slot at a location; one without a marker is FREE whatever its bytes (R232). -/
def State.slotAt (s : State) (loc : Nat) : Slot :=
  if s.slots.contains (loc / 16) then slotOf (ofBytes 128 (s.bytes loc 16)) else slotOf 0

/-- Write a slot and its marker: a FREE slot has all its bytes zero and no marker (R232). -/
def State.putSlot (s : State) (loc : Nat) (x : Slot) : State :=
  let rest := s.slots.filter (· != loc / 16)
  let s := s.setTag loc 0
  if x.st == 0 then { s.setNat loc 16 0 with slots := rest }
  else { s.setNat loc 16 (slotBits x).toNat with slots := insertBy id (loc / 16) rest }

/-- The slot's granule fails its check: a unit that would change the slot leaves it and reports the fault (R207, R233). -/
def State.slotBad (s : State) (loc : Nat) : Option State :=
  if s.synAt loc == 0 then none else some (s.hemFault (s.bankTag 0 loc 4) (loc / 32 * 32) (s.synAt loc))

/-- A released waiter goes on, with the outcome of its `BWAIT` in its predicate (R237). -/
def Thread.pass (pd : BitVec 3) (okay : Bool) (t : Thread) : Thread := { t.setP pd okay with state := .runnable, wait := .none }

/-- A thread acquires at a slot what the arrivals there have released (Table 7.1). -/
def State.acquireSlot (s : State) (loc : Nat) (t : Thread) : State := s.raiseOt (s.coreOf t.tid) (s.relAt [loc])

/-- A thread whose phase has completed goes on; a predicate that changes is progress of its group (R226). -/
def State.passPhase (s : State) (loc : Nat) (okay : Bool) (t : Thread) : State :=
  match t.wait with
  | .slot _ _ pd _ _ =>
    let s := s.acquireSlot loc t
    let s := if pd == 7 || t.p pd == okay then s else s.groupProgress t
    s.modThread t.uid (Thread.pass pd okay)
  | _ => s

/-- A thread is registered for a phase of a slot. -/
def Thread.awaitsPhase (loc phase : Nat) (t : Thread) : Bool :=
  t.state == .waiting && (match t.wait with | .slot l k .. => l == loc && k == phase | _ => false)

/-- Let go every thread that waits for a phase of a slot. -/
def State.releasePhase (s : State) (loc phase : Nat) (okay : Bool) : State :=
  (s.threads.filter (Thread.awaitsPhase loc phase)).foldl (fun s t => s.passPhase loc okay t) s

/-- Complete the current phase where its arrivals are in and its bytes have landed (R235). -/
def State.settleSlot (s : State) (loc : Nat) : State :=
  let x := s.slotAt loc
  if x.st == 1 && x.pending == 0 && x.target ≤ x.landed then
    let s := s.putSlot loc { x with landed := x.landed - x.target, target := 0, phase := (x.phase + 1) % 2 ^ 16, pending := x.expect }
    s.releasePhase loc x.phase (!x.fault)
  else s

/-- An engine lands n bytes on a slot (R235). -/
def State.landOn (s : State) (loc n : Nat) : State :=
  match s.slotBad loc with
  | some s => s
  | none => (s.putSlot loc { s.slotAt loc with landed := (s.slotAt loc).landed + n }).settleSlot loc

/-- Phase k of a slot has completed (R237). -/
def Slot.completed (x : Slot) (k : Nat) : Bool :=
  let d := (x.phase + 2 ^ 16 - k % 2 ^ 16) % 2 ^ 16
  1 ≤ d && d ≤ 32768

/-! ### One issue at the bank (R233) -/

/-- The space that `sp` selects. -/
def slotSpace (sp : Bool) : Nat := if sp then 3 else 2

/-- The location of a thread's slot, 0 where it has none. -/
def State.slotLoc (s : State) (sp : Bool) (t : Thread) (a : BitVec 7) : Nat :=
  ((s.bankLocs (slotSpace sp) t a 0 16).getD []).headD 0

/-- Perform a slot operation for each executing thread in ascending home lane. `op` gives the new state or a misuse kind. A thread
that fails changes nothing and is gathered with its kind. -/
def slotFold (op : State → Thread → Nat → Except Nat State) (loc : Thread → Nat) :
    List Thread → State → State × List (Thread × Nat)
  | [], s => (s, [])
  | t :: r, s =>
    match op s t (loc t) with
    | .ok s' => slotFold op loc r s'
    | .error k => let x := slotFold op loc r s; (x.1, (t, k) :: x.2)

/-- One issue of a barrier instruction: address checks, the hem of each slot, then all or nothing (R233, R240). -/
def State.slotIssue (s : State) (sp : Bool) (ts : List Thread) (a : BitVec 7) (op : State → Thread → Nat → Except Nat State) : Out :=
  let space := slotSpace sp
  match s.boundTrap space ts a 0 16 with
  | some q => s.trapOut q
  | none =>
    let bad := ts.filter fun t => s.synAt (s.slotLoc sp t a) != 0
    match bad with
    | t :: _ =>
      let loc := s.slotLoc sp t a
      (s.checkOnce s.gangCore 4 (bad.map fun t => s.slotLoc sp t a)).trapOut {
        TrapReq.of 0x20 with mask := some (laneMask bad), space := space, addr := BitVec.ofNat 64 (s.bankEa space t a 0),
                                       syn := s.synAt loc, tag := s.bankTag s.gangCore loc 4 }
    | [] =>
      let r := slotFold op (fun t => s.slotLoc sp t a) ts s
      match r.2 with
      | [] => .next r.1.advance
      | (t, k) :: f =>
        let lanes := laneMask (((t, k) :: f).map fun e => e.1)
        s.trapOut { TrapReq.of 0x0E with kind := k, mask := some lanes, space := space, addr := BitVec.ofNat 64 (s.bankEa space t a 0) }

/-- Arm a slot (R234). -/
def State.arm (s0 : State) (ts : List Thread) (f : FB2) (s : State) (t : Thread) (loc : Nat) : Except Nat State :=
  let n := (s0.src t f.b).toNat
  if s.slots.contains (loc / 16) || (ts.any fun u => u.uid != t.uid && s0.slotLoc f.sp u f.a == loc) then .error 2
  else if n == 0 || 65535 < n then .error 3
  else .ok (s.putSlot loc { owner := s0.teamIndex t.tid % 2 ^ 15, landed := 0, target := 0, inflight := 0, fault := false, st := 1,
                            pending := n, phase := 0, expect := n })

/-- `BINIT`. -/
def execBinit (f : FB2) (s : State) : Out := s.slotIssue f.sp (s.executing f.pred) f.a (s.arm (s.executing f.pred) f)

/-- One arrival with a number of bytes to expect (R235). -/
def State.arriveAt (bytes : Nat) (s : State) (loc : Nat) : Except Nat State :=
  let x := s.slotAt loc
  if x.st != 1 then .error 4
  else if x.pending == 0 then .error 5
  else if 2 ^ 27 - 1 < x.target + bytes then .error 8
  else .ok ((s.putSlot loc { x with pending := x.pending - 1, target := x.target + bytes }).settleSlot loc)

/-- One issue of an arrival, a release at `.CLUSTER`: the gang stalls until the earlier accesses of each executing thread are ordered
(R149); each arrival carries the time it releases. -/
def State.arrivals (s : State) (sp : Bool) (ts : List Thread) (a : BitVec 7) (bytes : Thread → Nat) : Out :=
  if ts.all (s.threadOrdered 2) then
    s.slotIssue sp ts a fun s' t loc => (s'.leaveRel (s'.orderTime (s'.coreOf t.tid)) [loc]).arriveAt (bytes t) loc
  else .next s.stallFence

/-- `BARV`. -/
def execBarv (f : FB1) (s : State) : Out := s.arrivals f.sp (s.executing f.pred) f.a fun _ => 0

/-- `BEXP`. -/
def execBexp (f : FB2) (s : State) : Out := s.arrivals f.sp (s.executing f.pred) f.a fun t => (s.src t f.b).toNat

/-- The phase that a thread names. -/
def State.phaseOf (s : State) (t : Thread) (b : BitVec 7) : Nat := (s.src t b).toNat % 2 ^ 16

/-- Wait for a phase: pass at once, or be registered at the bank (R237). -/
def State.waitAt (s0 : State) (f : FB3) (s : State) (t : Thread) (loc : Nat) : Except Nat State :=
  let x := s.slotAt loc
  let k := s0.phaseOf t f.b
  if x.st == 0 || x.st == 3 then .error 4
  else if x.completed k then .ok ((s.acquireSlot loc t).modThread t.uid (Thread.setP f.pd (!x.fault)))
  else .ok (s.modThread t.uid fun u => { u with state := .waiting, wait := .slot loc k f.pd t.at_ (s0.wasOf t) })

/-- `BWAIT`. -/
def execBwait (f : FB3) (s : State) : Out := s.slotIssue f.sp (s.executing f.pred) f.a (s.waitAt f)

/-- `BTEST`. -/
def execBtest (f : FB3) (s : State) : Out :=
  s.slotIssue f.sp (s.executing f.pred) f.a fun s' t loc =>
    let x := s'.slotAt loc
    if x.st == 0 || x.st == 3 then .error 4
    else if x.completed (s.phaseOf t f.b) then .ok ((s'.acquireSlot loc t).modThread t.uid (Thread.setP f.pd true))
    else .ok (s'.modThread t.uid (Thread.setP f.pd false))

/-- A thread is registered as waiting on a slot. -/
def State.waitedOn (s : State) (loc : Nat) : Bool :=
  s.threads.any fun t => t.state == .waiting && (match t.wait with | .slot l .. => l == loc | _ => false)

/-- `BRETIRE` (R238). -/
def execBretire (f : FB1) (s : State) : Out :=
  s.slotIssue f.sp (s.executing f.pred) f.a fun s' t loc =>
    let x := s'.slotAt loc
    if x.st != 1 then .error 4
    else if s.teamIndex t.tid % 2 ^ 15 != x.owner || x.pending != x.expect || x.target != 0 || x.landed != 0 || s'.waitedOn loc
    then .error 6
    else .ok (s'.putSlot loc { x with st := if x.inflight == 0 then 0 else 3 })

/-! ### GBAR and TBAR (R242) -/

/-- Every thread of the gang arrives at a hardware barrier, and waits behind the word. -/
def State.arriveAll (s : State) (w : Wait) : State :=
  s.advance.modThreads s.gang fun t => { t with state := .waiting, wait := w }

/-- `GBAR`; the release is `State.settleGbar`. -/
def execGbar (_f : FC) (s : State) : Out := .next (s.arriveAll .gbar)

/-- `TBAR`; the release is `State.settleTbar`. -/
def execTbar (_f : FC) (s : State) : Out := .next (s.arriveAll .tbar)

end Sys2Proof.Machine
end

