-- ==== Sys2Proof/Machine/Coherence.lean ====
section
/-! DEFINITION. Timestamp coherence: what an L1 does with an access (Tables 8.2 and 8.4), what a home does with a request
(Table 8.3), and the messages between them (R177-R185, R210-R212). -/

namespace Sys2Proof.Machine

/-! ### Requests to a home -/

/-- The sector an operation acts on. -/
def Op.sec (o : Op) : Nat := sectorKey o.ctx o.loc

/-- The message that carries a request to the home. -/
def Req.message : Req → Nat → List Instr
  | .none, _ => []
  | .load, id => [.homeLoadRequest id]
  | .write, id => [.homeWriteThrough id]
  | .atomic, id => [.homeWriteThrough id]
  | .own, id => [.homeOwnedRequest id]

/-- Send an operation to its home with the core's LT; an upgrade or a renewal carries the copy's `wts`. -/
def State.request (s : State) (o : Op) (r : Req) (carry : Option Nat) : State :=
  let s := s.modOp o.id fun x => { x with req := r, carry := carry, lt := s.carried o, sent := s.tick }
  s.post (r.message o.id)

/-- An operation waits for its sector's entry in the L1. -/
def State.holdOp (s : State) (o : Op) (st : L1State) : State :=
  s.modL1 o.agent o.sec fun e => { e with st := st, held := e.held ++ [o.id] }

/-- A thread of its team's laggard has issued the operation (R222). -/
def State.laggards (s : State) (o : Op) : Bool :=
  match s.thread o.uid, (s.team o.tid).bind Team.laggard with | some t, some g => t.slot == g | _, _ => false

/-- A new entry for which an operation waits. -/
def State.openEntry (s : State) (o : Op) (st : L1State) : State :=
  s.putL1 { L1Sec.fresh o.agent o.sec o.ctx st with held := [o.id], lag := o.kind == .load && s.laggards o }

/-! ### Serving loads from a copy -/

/-- The first granule of an access, within its sector, whose check fails. On the reply of a remote access the marker of a timeout over all
ones is accepted (R202). -/
def badGranule (reply : Bool) (off size : Nat) (data : List Byte) (syn : List (BitVec 16)) : Option Nat :=
  [off / 32, (off + size - 1) / 32].find? fun g =>
    syn.getD g 0 != 0 && !(reply && syn.getD g 0 == 0xA5A5 && ((data.drop (32 * g)).take 32).all (· == 0xFF))

/-- The failed check of an access to sector data at its core, as a poison mark (R203). -/
def State.sectorPoison (s : State) (o : Op) (data : List Byte) (syn : List (BitVec 16)) : Option Poison :=
  (badGranule (isRemote o.loc && o.req != .none) (o.loc % 64) o.size data syn).map fun g =>
    { reg := 0, space := 0, addr := o.addr, syn := syn.getD g 0, tag := s.globalTag o.ctx (sectorLoc o.sec + 32 * g) o.agent 0 }

/-- The failed check of an atomic's old value, at its home or in the L1 that owns the sector (R138). -/
def State.atomicPoison (s : State) (o : Op) (home : Bool) (syn : List (BitVec 16)) : Option Poison :=
  (badGranule false (o.loc % 64) o.size [] syn).map fun g =>
    let loc := sectorLoc o.sec + 32 * g
    { reg := 0, space := 0, addr := o.addr, syn := syn.getD g 0,
      tag := if home then s.atomicTag o.ctx loc else s.globalTag o.ctx loc o.agent 3 }

/-- A load is served with sector data of a write time: LT rises to it, and the data returns to the thread (R177). A fill that a press
store has asked for raises LT as any other; a prefetch does not (R140, R174). -/
def State.serveLoad (s : State) (o : Op) (data : List Byte) (syn : List (BitVec 16)) (wts : Nat) : State :=
  match o.kind with
  | .load =>
    let s := s.raiseLt o.agent wts
    let s := s.modOp o.id fun x => { x with fill := (data.drop (o.loc % 64)).take o.size, poison := s.sectorPoison o data syn }
    s.post [.loadReturn o.id]
  | .mon => (s.raiseLt o.agent wts).finish o
  | _ => (if o.region.isSome then s.raiseLt o.agent wts else s).dropOp o.id

/-- The press floor that a core has accepted for a region of a context (R193). -/
def State.floorOf (s : State) (core c : Nat) (region : Option Nat) : Nat :=
  match region with
  | some r => SMap.get 0 s.floors ((core * 65 + c) * 16 + r)
  | none => 0

/-- Every 32-bit word an access reads is pending in the copy (R180). -/
def L1Sec.pendingAll (e : L1Sec) (off size : Nat) : Bool :=
  (List.range ((size + 3) / 4)).all fun i => e.pend.any fun p => p.1 == off / 4 + i

/-- The copy serves a load at this logical time (R177, R180); one to be dropped serves only its pending words (R146). -/
def L1Sec.hits (e : L1Sec) (lt floor off size : Nat) : Bool :=
  (e.st == .P && e.pendingAll off size) || (!(e.st == .P && e.drop.isSome) && lt ≤ e.rts && floor ≤ e.rts)

/-- The bytes of an access, as a mask of its sector. -/
def Op.span (o : Op) : BitVec 64 := BitVec.ofNat 64 ((2 ^ o.size - 1) * 2 ^ (o.loc % 64))

/-- The whole granules that a mask touches. -/
def wholeGranules (mask : BitVec 64) : BitVec 64 :=
  (if mask.extractLsb' 0 32 != 0 then (BitVec.allOnes 32).setWidth 64 else 0) |||
  (if mask.extractLsb' 32 32 != 0 then (BitVec.allOnes 32).setWidth 64 <<< 32 else 0)

/-- The request op that writes an RD sector back to its home: the granules that were stored to (R192, R193). -/
def State.pressOut (s : State) (e : L1Sec) : State :=
  let o := { Op.blank with id := s.nextId, kind := .press, agent := e.core, ctx := e.ctx, loc := sectorLoc e.sec, size := 64,
                           rtype := 1, data := e.data, syn := e.syn, mask := wholeGranules e.stored,
                           issued := s.tick, region := e.region }
  let s := { s with ops := s.ops ++ [o], nextId := s.nextId + 1 }
  let s := s.modL1 e.core e.sec fun e => { e with st := .V, stored := 0, dirty := false }
  s.request o .write none

/-- An RD copy serves a load of bytes that the core has stored in the phase, and any load where its other bytes are not older than the
region's floor (R166, R192; assumption 63). -/
def State.pressHits (s : State) (e : L1Sec) (o : Op) : Bool :=
  o.span &&& ~~~e.stored == 0 || s.floorOf o.agent o.ctx o.region ≤ e.rts

/-- A copy that a `.SI` load has used carries the mark (Table 6.4). -/
def State.markSi (s : State) (o : Op) : State :=
  if o.rtype == 2 then s.modL1 o.agent o.sec fun e => { e with si := true } else s

/-- Write an owned sector back: the entry waits in OI for the acknowledgement, and then stays in V where `keep` (Table 8.4). -/
def State.writeBack (s : State) (core sec : Nat) (keep : Bool) : State :=
  match s.l1Of core sec with
  | none => s
  | some e =>
    let img : SecImg := { wb := false, wts := e.wts, rts := e.rts, data := if e.dirty then e.data else [],
                          syn := if e.dirty then e.syn else [] }
    let s := s.modL1 core sec fun e => { e with st := .OI, keep := keep }
    s.post [.writeBackReceive sec core img]

/-- An access that waits for the entry is of a thread of this operation, and meets its bytes: the two keep their order (R133). -/
def State.ownHeld (s : State) (e : L1Sec) (o : Op) (bytes : BitVec 64) : Bool :=
  let us := (s.standsFor o).map Op.uid
  e.held.any fun id => match s.op id with
    | some x => x.span &&& bytes != 0 && (s.standsFor x).any fun y => us.contains y.uid
    | none => false

/-- One global load, `MON` read or prefetch at the issuing core's L1 (Table 8.4, R192). A `.UC` load bypasses an entry that is on its way,
but for a store of its own thread that waits there (R133). An owned sector keeps no mark of an `.SI` access that it has served (R134, assumption
73). -/
def State.l1Load (s : State) (o : Op) : State :=
  match s.l1Of o.agent o.sec with
  | none =>
    if o.rtype == 3 then s.request o .load none
    else if o.rtype == 0 then (s.openEntry o .IO).request o .own none
    else (s.openEntry o .IV).request o .load none
  | some e =>
    match e.st with
    | .O =>
      if o.rtype == 3 then (s.holdOp o .O).writeBack o.agent o.sec false
      else
        let s := (s.modL1 o.agent o.sec fun e => { e with rts := max e.rts (s.lt o.agent) }).noteL1 o.agent (s.lt o.agent)
        s.serveLoad o e.data e.syn e.wts
    | .RD =>
      if s.pressHits e o then s.serveLoad o e.data e.syn e.wts
      else ((s.pressOut e).openEntry o .IV).request o .load none
    | .V | .P =>
      if o.rtype == 3 then s.request o .load none
      else if o.rtype == 0 then (s.holdOp o .VO).request o .own (some e.wts)
      else if e.hits (s.orderTime o.agent) (s.floorOf o.agent o.ctx o.region) (o.loc % 64) o.size then
        (s.markSi o).serveLoad o e.data e.syn e.wts
      else if e.rts < s.floorOf o.agent o.ctx o.region then (s.openEntry o .IV).request o .load none
      else (s.holdOp o .VV).request o .load (some e.wts)
    | _ => if o.rtype == 3 && !s.ownHeld e o o.span then s.request o .load none else s.holdOp o e.st

/-! ### Stores -/

/-- Every thread operation that one merged request stands for is acknowledged (R136). -/
def State.ackAll (s : State) (o : Op) : State := (s.post (o.waits.map Instr.storeAck)).dropOp o.id

/-- Threads whose part of a merge met a bad granule owe a fault (R137); the check of a granule is reported once. -/
def State.oweMerge (s : State) (o : Op) (syn : List (BitVec 16)) : State :=
  let bad := [0, 1].filter fun g => maskPartial o.mask g && syn.getD g 0 != 0
  let tag (g : Nat) : BitVec 64 := s.globalTag o.ctx (sectorLoc o.sec + 32 * g) o.agent 6
  let s := bad.foldl (fun s g => s.hemFault (tag g) (sectorLoc o.sec + 32 * g) (syn.getD g 0)) s
  o.waits.foldl (fun s w =>
    match s.op w with
    | none => s
    | some x =>
      match bad.find? fun g => g == x.loc % 64 / 32 || g == (x.loc % 64 + x.size - 1) / 32, s.thread x.uid with
      | some g, some t =>
        s.owe { reg := 0, space := 0, addr := x.addr, syn := syn.getD g 0, tag := tag g } x.issued { t with pkt := x.pkt, word := x.word }
      | _, _ => s) s

/-- Merge a store into the copy a core holds, with the stamps, dirt and state given. -/
def State.mergeCopy (s : State) (o : Op) (f : L1Sec → L1Sec) : State :=
  match s.l1Of o.agent o.sec with
  | none => s
  | some e =>
    let m := maskAllowed o.mask e.syn
    let s := s.oweMerge o e.syn
    s.modL1 o.agent o.sec fun e => f { e with data := maskBytes m o.data e.data, syn := maskSyn m e.syn }

/-- The 32-bit words of a sector that a mask touches. -/
def maskWords (mask : BitVec 64) : List Nat := (List.range 16).filter fun i => mask.extractLsb' (4 * i) 4 != 0

/-- A write into an owned copy takes the core's LT as both stamps (R179). -/
def State.writeOwned (s : State) (o : Op) : State :=
  let v := s.l1Stamp o.agent (s.carried o)
  (s.mergeCopy o fun e => { e with wts := v, rts := v, dirty := true }).noteL1 o.agent v

/-- A press store is written into the copy, which becomes RD (R192). An owned copy has gone home before (assumption 63). -/
def State.writePress (s : State) (o : Op) : State :=
  let s := s.mergeCopy o fun e => { e with st := .RD, stored := e.stored ||| maskAllowed o.mask e.syn, region := o.region }
  s.ackAll o

/-- A whole-granule `.WT` or `.SI` store updates the copy, its words pending until the acknowledgement (R178, R180). -/
def State.writePending (s : State) (o : Op) : State :=
  let s := s.mergeCopy o fun e => { e with st := if e.st == .VV then .VV else .P, si := e.si || o.rtype == 2,
                                           pend := (e.pend.filter fun p => !(maskWords o.mask).contains p.1) ++
                                             (maskWords o.mask).map fun w => (w, o.id) }
  s.request o .write none

/-- A press store without a copy: the sector is fetched as a `.WT` fill would be (R192). -/
def State.fetchPress (s : State) (o : Op) : State :=
  let s := s.openEntry o .IV
  let fill := { Op.blank with id := s.nextId, kind := .pfg, agent := o.agent, ctx := o.ctx, loc := o.loc / 64 * 64, size := 64,
                              rtype := 1, region := o.region, issued := s.tick, due := o.due }
  { s with ops := s.ops ++ [fill], nextId := s.nextId + 1 }.request fill .load none

/-- A store to an owned sector that covers a granule in part, with `.WT`, `.SI` or `.UC`: merged, written back at once, and acknowledged
with the write-back; the L1 keeps a copy but for `.UC` (Table 8.4). -/
def State.mergeAndReturn (s : State) (o : Op) : State :=
  let s := (s.writeOwned o).markSi o
  ((s.modOp o.id fun x => { x with done := true }).holdOp o .O).writeBack o.agent o.sec (o.rtype != 3)

/-- A write-through waits for the entry: those of a core reach the home in issue order (R178). -/
def State.writesHeld (s : State) (e : L1Sec) : Bool :=
  e.held.any fun id => match s.op id with | some x => x.kind == .store && x.rtype != 0 | none => false

/-- Operations that wait for a copy under renewal keep their place before a store: an earlier write-through, and an access of one of its own
threads to bytes that it writes (R133, R178, assumption 63). -/
def State.before (s : State) (e : L1Sec) (o : Op) : Bool := s.writesHeld e || s.ownHeld e o o.mask

/-- One merged global store at the issuing core's L1 (Table 8.4, R192). A press store takes a copy below its region's floor for none and sends
an owned one home first; another store waits for an entry in IV, and for one in VV where `State.before` says so (assumption 63). -/
def State.l1Store (s : State) (o : Op) : State :=
  let part := maskMerges o.mask
  match s.l1Of o.agent o.sec with
  | none =>
    if o.region.isSome then s.fetchPress o
    else if o.rtype == 0 || part then (s.openEntry o .IO).request o .own none
    else s.request o .write none
  | some e =>
    match e.st with
    | .O =>
      if o.region.isSome then (s.holdOp o .O).writeBack o.agent o.sec true
      else if part && o.rtype != 0 then s.mergeAndReturn o
      else if o.rtype == 3 then (s.holdOp o .O).writeBack o.agent o.sec false
      else (s.writeOwned o).ackAll o
    | .RD => s.writePress o
    | .V | .P =>
      if o.region.isSome then
        if e.st == .V && e.rts < s.floorOf o.agent o.ctx o.region then s.fetchPress o else s.writePress o
      else if o.rtype == 0 || part then (s.holdOp o .VO).request o .own (some e.wts)
      else if o.rtype == 3 then (s.dropL1 o.agent o.sec).request o .write none
      else s.writePending o
    | .VV =>
      if o.region.isSome || part || o.rtype == 0 || o.rtype == 3 || s.before e o then s.holdOp o .VV else s.writePending o
    | _ => s.holdOp o e.st

/-! ### Atomics -/

/-- The bytes of sector data after an atomic, with the old bytes. -/
def atomicOn (o : Op) (data : List Byte) : List Byte × List Byte :=
  let off := o.loc % 64
  let old := (data.drop off).take o.size
  (overlay data off (natLe o.size (atomicResult o.aop (8 * o.size) (leNat old) o.args)), old)

/-- One global atomic at the issuing core's L1: performed there where the sector is owned, else at the home (R138, Table 8.4). A leased copy
is given up first, and one on its way serves only what waits for it already, so that a later load of the core meets the atomic's result; an
access of the atomic's own thread to its bytes that waits for the entry goes first (R133). -/
def State.l1Atomic (s : State) (o : Op) : State :=
  match s.l1Of o.agent o.sec with
  | none => s.request o .atomic none
  | some e =>
    match e.st with
    | .O =>
      if o.region.isSome then (s.holdOp o .O).writeBack o.agent o.sec false
      else
        let r := atomicOn o e.data
        let v := s.l1Stamp o.agent (s.carried o)
        let bad := s.atomicPoison o false e.syn
        let s := s.modOp o.id fun x => { x with fill := r.2, poison := bad }
        let s := s.modL1 o.agent o.sec fun e =>
          if bad.isSome then e else { e with data := r.1, dirty := true, wts := v, rts := v }
        (s.noteL1 o.agent v).post [.atomicReturn o.id]
    | .V | .P => (s.dropL1 o.agent o.sec).request o .atomic none
    | _ =>
      if s.ownHeld e o o.span then s.holdOp o e.st
      else (s.modL1 o.agent o.sec fun e => { e with drop := e.drop.orElse fun _ => some e.held.length }).request o .atomic none

/-- An operation at its core's L1, at issue or when what it waited for has come. -/
def State.l1Access (s : State) (o : Op) : State :=
  match o.kind with
  | .store => s.l1Store o
  | .atomic =>
    match s.l1Of o.agent o.sec with
    | some e => if e.st == .RD then ((s.pressOut e).dropL1 e.core e.sec).request o .atomic none else s.l1Atomic o
    | none => s.l1Atomic o
  | _ => s.l1Load o

/-- Serve again the operations that waited for an entry, in their order. -/
def State.replay (s : State) (ids : List Nat) : State :=
  ids.foldl (fun s id => match s.op id with | none => s | some o => s.l1Access o) s

/-! ### The home (Table 8.3) -/

/-- Grant a sector in S to an agent: with data, but where an upgrade's `wts` is the home's (R179, R183). The monitors on it
fire (R146). -/
def State.grant (s : State) (h : HomeSec) (o : Op) : State :=
  let w := max o.lt (h.rts + 1)
  let bare := o.carry == some h.wts
  let s := s.putHome { h with st := .G o.agent }
  let s := (s.noteHome h.sec w).wakeMonitors h.sec w
  let s := s.modOp o.id fun x => { x with wts := w, fill := if bare then [] else s.homeData h.sec,
                                          syn := if bare then [] else s.homeSyn h.sec }
  s.post [.ownedGrant o.id]

/-- A load at its home in S (R177). -/
def State.loadAtHome (s : State) (h : HomeSec) (o : Op) : State :=
  let r := if o.rtype == 3 then max h.rts (max o.lt h.wts) else max h.rts (o.lt + s.lease o.ctx)
  let bare := o.carry == some h.wts
  let s := s.putHome { h with rts := r }
  let s := s.noteHome h.sec r
  let s := s.modOp o.id fun x => { x with wts := h.wts, rts := r, data := if bare then [] else s.homeData h.sec,
                                          syn := if bare then [] else s.homeSyn h.sec }
  s.post [.fillReply o.id]

/-- A write-through at its home in S (R178). Its granules are whole and bring their syndromes. The acknowledgement says beside `wts` which
the home had before (R153, assumption 63). -/
def State.writeAtHome (s : State) (h : HomeSec) (o : Op) : State :=
  let r := s.orderWrite h.sec o.lt
  let sent : List (BitVec 16) := (List.range 2).map fun g => if o.mask.extractLsb' (32 * g) 32 != 0 then o.syn.getD g 0 else 0
  let src := agentDie o.agent
  let s := (r.1.hostCheck (sectorLoc h.sec) (r.1.wayHome h.sec src 0) sent).setBytes (sectorLoc h.sec)
    (maskBytes o.mask o.data (r.1.homeData h.sec))
  let s := (List.range 2).foldl (fun s g =>
    if o.mask.extractLsb' (32 * g) 32 != 0 then (s.setSyn (sectorLoc h.sec + 32 * g) (o.syn.getD g 0)).setTag
      (sectorLoc h.sec + 32 * g) (s.sentTag h.sec src 0) else s) s
  (s.modOp o.id fun x => { x with wts := r.2, rts := h.wts }).post [.writeThroughAck o.id]

/-- An atomic at its home in S: a bad granule stays as it is (R138, R139). -/
def State.atomicAtHome (s : State) (h : HomeSec) (o : Op) : State :=
  let r := s.orderWrite h.sec o.lt
  let s := r.1
  let a := atomicOn o (s.homeData h.sec)
  let bad := s.atomicPoison o true (s.homeSyn h.sec)
  let s := if bad.isSome then s else (s.setBytes (sectorLoc h.sec) a.1).setTag o.loc 0
  (s.modOp o.id fun x => { x with wts := r.2, rts := h.wts, fill := a.2, poison := bad }).post [.writeThroughAck o.id]

/-- A remote access completes as a timed-out one would, without waiting (R130). -/
def State.refuseOp (s : State) (o : Op) : State :=
  (s.modOp o.id fun x => { x with done := true }).post [.remoteTimeout o.id]

/-- What a home does with a request to a remote frame that its target does not serve: one that no link reaches, or that the target
refuses, is refused (R130, R360); a silent target leaves the request to its timeout (R141). -/
def State.remoteAtHome (s : State) (o : Op) : Option State :=
  if !isRemote o.loc then none
  else match s.portOf o.loc with
    | none => some ((s.noteOp o fabLinkLost).refuseOp o)
    | some p => match s.answerOf (nodeKey o.loc) o.id with
      | 0 => none
      | 1 => some (s.refuseOp o)
      | _ => some (s.modOp o.id fun x => { x with port := p, via := p :: x.via })

/-- Perform one request against a sector in S. -/
def State.serveOne (s : State) (h : HomeSec) (o : Op) : State :=
  match s.remoteAtHome o with
  | some s' => s'
  | none =>
    match o.req with
    | .load => s.loadAtHome h o
    | .write => s.writeAtHome h o
    | .atomic => s.atomicAtHome h o
    | .own => s.grant h o
    | .none => s

/-- Serve a sector's waiting requests one at a time while its state is stable: in S each is performed; in O an owned request
sends a forward, any other a recall (Table 8.3). -/
def State.serveHome : Nat → State → Nat → State
  | 0, s, _ => s
  | n + 1, s, sec =>
    let h := s.homeOf sec
    match h.st, h.queue with
    | .S, id :: r =>
      let h := { h with queue := r }
      let s := s.putHome h
      match s.op id with
      | none => State.serveHome n s sec
      | some o => State.serveHome n (s.serveOne h o) sec
    | .O c, id :: r =>
      match s.op id with
      | none => State.serveHome n (s.putHome { h with queue := r }) sec
      | some o =>
        if o.req == .own then (s.putHome { h with st := .F c id, queue := r }).post [.forwardReceive sec c]
        else (s.putHome { h with st := .C c }).post [.recallReceive sec c]
    | _, _ => s

/-- Serve a sector as far as it goes. -/
def State.serve (s : State) (sec : Nat) : State := State.serveHome ((s.homeOf sec).queue.length + 1) s sec

/-- The requests that wait at a slice. -/
def State.waitingAt (s : State) (slice : Nat) : Nat :=
  (s.home.filter fun h => s.secSlice h.sec == slice).foldl (fun n h => n + h.queue.length) 0

/-- A request arrives at its home: served at once where the sector is stable, else queued, or refused by a full slice (R182). A request
stays behind an earlier refused one of its agent and sector (R133).
An upgrade that waits is an owned read from then on (R183). -/
def State.arrive (s : State) (o : Op) : State :=
  let h := s.homeOf o.sec
  let stable := (match h.st with | .S | .O _ => true | _ => false) && h.queue.isEmpty
  let behind := s.ops.any fun x => x.agent == o.agent && x.sec == o.sec && x.space == 0 && x.refused && x.id < o.id
  if behind || (!stable && 512 ≤ s.waitingAt (s.homeSlice o.ctx o.loc)) then
    s.modOp o.id fun x => { x with refused := true, again := some (s.tick + 64) }
  else
    let s := s.modOp o.id fun x => { x with refused := false }
    let s := if h.st == .S && stable then s
      else s.modOp o.id fun x => { x with carry := if x.req == .own then none else x.carry }
    (s.putHome { h with queue := h.queue ++ [o.id] }).serve o.sec

/-- `HOME_LOAD_REQUEST` (R177, R181). -/
def execHomeLoadRequest (op : Nat) (s : State) : Out :=
  match s.op op with
  | some o => .next (s.arrive o)
  | none => .next s

/-- `HOME_WRITE_THROUGH` (R178, R181). -/
def execHomeWriteThrough (op : Nat) (s : State) : Out :=
  match s.op op with
  | some o => .next (s.arrive o)
  | none => .next s

/-- `HOME_OWNED_REQUEST` (R181, R183). -/
def execHomeOwnedRequest (op : Nat) (s : State) : Out :=
  match s.op op with
  | some o => .next (s.arrive o)
  | none => .next s

/-- `REQUEST_REFUSED_RESEND`: the same request leaves once more (R182). -/
def execRequestRefusedResend (op : Nat) (s : State) : Out :=
  match s.op op with
  | some o => .next ((s.modOp op fun x => { x with again := none, sent := s.tick }).post (o.req.message op))
  | none => .next s

/-! ### Grants, forwards, recalls, write-backs -/

/-- Serve again what waited for a grant: the load that asked for it meets the reply itself, in which a remote access may find a timeout's
marker (R202). -/
def State.replayGrant (s : State) (o : Op) (ids : List Nat) : State :=
  ids.foldl (fun s id => match s.op id with
    | none => s
    | some x => s.l1Access (if id == o.id && x.kind == .load then { x with req := .own } else x)) s

/-- `OWNED_GRANT`: the sector is installed owned, LT rises, and what waited for it is served (R179); a sector of which an atomic of the core
has gone to the home meanwhile follows it there (R138). An engine notes that the
sector is its own, and its item's LT rises (R187). -/
def execOwnedGrant (op : Nat) (s : State) : Out :=
  match s.op op with
  | none => .next s
  | some o =>
    let s := s.countOp o (s.homeSlice o.ctx o.loc)
    if isEngine o.agent then
      let s := { s with items := s.items.map fun (x : CopyItem) => if x.id == o.aop then { x with lt := max x.lt o.wts } else x }
      .next ((s.modOp op fun x => { x with done := true, req := .none }).post [.grantAcknowledge o.sec o.agent])
    else
      match s.l1Of o.agent o.sec with
      | none => .next s
      | some e =>
        let data := if o.fill.isEmpty then e.data else o.fill
        let syn := if o.fill.isEmpty then e.syn else o.syn
        let s := s.modOp op fun x => { x with fill := [], syn := [], req := .none }
        let s := (s.raiseLt o.agent o.wts).noteL1 o.agent o.wts
        let v := s.l1Stamp o.agent o.wts
        let s := (s.putL1 { L1Sec.fresh o.agent o.sec o.ctx .O with wts := v, rts := v, data := data, syn := syn }).post
          [.grantAcknowledge o.sec o.agent]
        match e.drop with
        | none => .next (s.replayGrant o e.held)
        | some n => .next (((s.replayGrant o (e.held.take n)).writeBack o.agent o.sec false).replay (e.held.drop n))

/-- `GRANT_ACKNOWLEDGE` (Table 8.3). -/
def execGrantAcknowledge (sec agent : Nat) (s : State) : Out :=
  let h := s.homeOf sec
  match h.st with
  | .G c => if c == agent then .next ((s.putHome { h with st := .O c }).serve sec) else .next s
  | .W c (some d) acked =>
    if d != agent then .next s
    else if acked then .next ((s.putHome { h with st := .O d }).serve sec)
    else .next (s.putHome { h with st := .W c (some d) true })
  | _ => .next s

/-- The engine's operation that owns a sector and has not yet written it (R187). -/
def State.engineOwn (s : State) (sec agent : Nat) : Option Op :=
  s.ops.find? fun o => o.kind == .engOwn && o.done && o.agent == agent && o.sec == sec

/-- `FORWARD_RECEIVE`: the owner gives the sector up; an engine first writes it (R180, R187). -/
def execForwardReceive (sec agent : Nat) (s : State) : Out :=
  if isEngine agent && (s.engineOwn sec agent).isSome then
    .next (s.modOp ((s.engineOwn sec agent).map Op.id |>.getD 0) fun x => { x with waits := [1] })
  else match s.l1Of agent sec with
    | some e =>
      if e.st == .O then .next ((s.dropL1 agent sec).post [.ownerAnswer sec agent e.answer])
      else .next (s.post [.ownerAnswer sec agent writtenBack])
    | none => .next (s.post [.ownerAnswer sec agent writtenBack])

/-- `RECALL_RECEIVE`: the owner keeps a V copy with its own stamps (R180). -/
def execRecallReceive (sec agent : Nat) (s : State) : Out :=
  if isEngine agent && (s.engineOwn sec agent).isSome then
    .next (s.modOp ((s.engineOwn sec agent).map Op.id |>.getD 0) fun x => { x with waits := [1] })
  else match s.l1Of agent sec with
    | some e =>
      if e.st == .O then
        .next ((s.modL1 agent sec fun e => { e with st := .V, dirty := false }).post [.ownerAnswer sec agent e.answer])
      else .next (s.post [.ownerAnswer sec agent writtenBack])
    | none => .next (s.post [.ownerAnswer sec agent writtenBack])

/-- Grant a sector whose owner has answered to the agent of operation d, leaving the home in the state given. -/
def State.grantNext (s : State) (sec d : Nat) (st : Nat → HState) : State :=
  match s.op d with
  | none => (s.putHome { s.homeOf sec with st := .S }).serve sec
  | some o =>
    let s := s.grant { s.homeOf sec with st := .S } o
    s.putHome { s.homeOf sec with st := st o.agent }

/-- `OWNER_ANSWER` (Table 8.3, R184). A sector that a unit has brought home serves what waits there. -/
def execOwnerAnswer (sec agent : Nat) (img : SecImg) (s : State) : Out :=
  let h := s.homeOf sec
  match h.st with
  | .F c d => if c == agent && !img.wb then .next ((s.takeImg h agent img).grantNext sec d HState.G) else .next s
  | .C c =>
    if c == agent && !img.wb then
      let s := s.takeImg h agent img
      .next ((s.putHome { s.homeOf sec with st := .S }).serve sec)
    else .next s
  | .W c d acked =>
    if c == agent && img.wb then
      match d with
      | none => .next ((s.putHome { h with st := .S }).serve sec)
      | some d =>
        if acked then .next ((s.putHome { h with st := .O d }).serve sec) else .next (s.putHome { h with st := .W c (some d) true })
    else .next s
  | .S => .next (s.serve sec)
  | _ => .next s

/-- `WRITE_BACK_RECEIVE`: the data is taken and acknowledged in every state; in F and C it is the owner's answer too (R184,
R210). -/
def execWriteBackReceive (sec agent : Nat) (img : SecImg) (s : State) : Out :=
  let h := s.homeOf sec
  match h.st with
  | .O c =>
    if c == agent then
      let s := (s.takeImg h agent img).post [.writeBackAck sec agent img.wts]
      .next ((s.putHome { s.homeOf sec with st := .S }).serve sec)
    else .next s
  | .F c d =>
    if c == agent then
      .next (((s.takeImg h agent img).post [.writeBackAck sec agent img.wts]).grantNext sec d fun a => .W c (some a) false)
    else .next s
  | .C c =>
    if c == agent then
      let s := (s.takeImg h agent img).post [.writeBackAck sec agent img.wts]
      .next (s.putHome { s.homeOf sec with st := .W c none false })
    else .next s
  | .W c (some d) true =>
    if d == agent then
      let s := (s.takeImg h agent img).post [.writeBackAck sec agent img.wts]
      .next (s.putHome { s.homeOf sec with st := .W c none false })
    else .next s
  | _ => .next s

/-- A sector that an engine wrote is acknowledged: its granules count for the item and for the slot it names (R253). -/
def State.engineAck (s : State) (sec agent : Nat) : State :=
  match s.ops.find? fun o => o.kind == .engWrite && o.agent == agent && o.sec == sec with
  | none => s
  | some o =>
    let s := { (s.dropOp o.id) with items := s.items.map fun (x : CopyItem) => if x.id == o.aop then { x with acked := x.acked + o.rtype } else x }
    match s.items.find? fun x => x.id == o.aop && x.counted, s.team o.tid with
    | some x, some m => s.landOn (scratchLoc m.core (m.scrBase + x.bar)) (32 * o.rtype)
    | _, _ => s

/-- `WRITE_BACK_ACK`: the L1 leaves OI; LT rises; what waited is served, a `.UC` request leaving with the LT it has now (R211). -/
def execWriteBackAck (sec agent wts : Nat) (s : State) : Out :=
  if isEngine agent then .next (s.engineAck sec agent) else
  let s := s.raiseLt agent wts
  match s.l1Of agent sec with
  | none => .next s
  | some e =>
    if e.st != .OI then .next s
    else
      let s := if e.keep then s.modL1 agent sec fun e => { e with st := .V, held := [], dirty := false, keep := false }
        else s.dropL1 agent sec
      let done := e.held.filter fun id => match s.op id with | some o => o.done | none => false
      let s := done.foldl (fun s id => match s.op id with | some o => s.ackAll o | none => s) s
      .next (s.replay (e.held.filter fun id => !done.contains id))

/-- Lay a copy's pending words over returned data (R180). -/
def L1Sec.overPending (e : L1Sec) (data : List Byte) : List Byte :=
  (List.range 64).map fun i => if e.pend.any fun p => p.1 == i / 4 then e.data.getD i 0 else data.getD i 0

/-- The copy after a fill or a renewal: data where the home sent it, else the lease alone (R177). -/
def L1Sec.refilled (e : L1Sec) (o : Op) : L1Sec :=
  let st : L1State := if e.pend.isEmpty then .V else .P
  if o.data.isEmpty then { e with st := st, rts := max e.rts o.rts, si := e.si || o.rtype == 2, held := [] }
  else { e with st := st, wts := o.wts, rts := o.rts, si := o.rtype == 2, stale := false, data := e.overPending o.data, syn := o.syn,
                held := [] }

/-- A copy that is to be dropped goes; while words of it are pending, or a reply is outstanding, it waits (R146, R147). -/
def State.dropMarked (s : State) (core sec : Nat) : State :=
  match s.l1Of core sec with
  | some e => if e.st == .V then s.dropL1 core sec else s.modL1 core sec fun e => { e with drop := some e.held.length }
  | none => s

/-- `FILL_REPLY`: the copy is installed or its lease extended, LT rises, and the waiting accesses are served: the load that asked,
and others where the lease covers their LT (R177, R180). What came to wait after an acquire had given the copy up does not see it,
and a copy whose lease ends below the base of the L1 has expired (R188). A `.UC` reply fills nothing. -/
def execFillReply (op : Nat) (s : State) : Out :=
  match s.op op with
  | none => .next s
  | some o =>
    let s := s.countOp o (s.homeSlice o.ctx o.loc)
    let s := s.modOp op fun x => { x with req := .none, data := [], syn := [] }
    if o.rtype == 3 then .next (s.serveLoad o o.data o.syn o.wts)
    else match s.l1Of o.agent o.sec with
      | none => .next (s.serveLoad o o.data o.syn o.wts)
      | some e =>
        let e' := e.refilled o
        let s := s.noteL1 o.agent o.rts
        let late := e'.st == .V && e'.rts < s.l1Stamp o.agent 0
        let s := s.putL1 { e' with wts := s.l1Stamp o.agent e'.wts, rts := s.l1Stamp o.agent e'.rts }
        let s := s.serveLoad o e'.data e'.syn e'.wts
        match (if late then some 0 else e.drop) with
        | none => .next (s.replay (e.held.filter (· != op)))
        | some n =>
          let s := (s.replay ((e.held.take n).filter (· != op))).dropMarked o.agent o.sec
          .next (s.replay ((e.held.drop n).filter (· != op)))

/-- A copy with pending words, of which one store has been acknowledged at write time w where the home's had been `prev`: its other words are
as the home has them only where the home's last write before was one that the copy shows (R153, assumption 63). -/
def L1Sec.acked (e : L1Sec) (op prev w : Nat) : L1Sec :=
  let ok := !e.stale && (w ≤ e.wts || e.wts == prev)
  { e with pend := e.pend.filter fun p => p.2 != op, stale := !ok, wts := if ok then max e.wts w else e.wts }

/-- `WRITE_THROUGH_ACK`: LT rises, the copy's pending words of this store are so no longer, and the threads are acknowledged; an
atomic's old value returns (R178, R180). With its last pending word the copy goes to V, or goes where it is stale or to be dropped. -/
def execWriteThroughAck (op : Nat) (s : State) : Out :=
  match s.op op with
  | none => .next s
  | some o =>
    let s := s.countOp o (s.homeSlice o.ctx o.loc)
    let s := (s.raiseLt o.agent o.wts).noteL1 o.agent o.wts
    let s : State := match s.l1Of o.agent o.sec with
      | none => s
      | some e =>
        if e.pend.isEmpty then s
        else
          let e' := e.acked op o.rts o.wts
          if e.st != .P || !e'.pend.isEmpty then s.putL1 e'
          else if e.drop.isSome || e'.stale || o.wts < s.l1Stamp o.agent 0 then s.dropL1 o.agent o.sec
          else s.putL1 { e' with st := .V, wts := o.wts, rts := o.wts }
    match o.kind with
    | .atomic => .next ((s.modOp op fun x => { x with req := .none }).post [.atomicReturn op])
    | .press => .next (s.dropOp op)
    | _ => .next (s.ackAll o)

/-! ### Eviction (Table 8.2, R135, R192, R330) -/

/-- A copy that its L1 may give up: nothing waits for it and none of its words is pending. -/
def L1Sec.evictable (e : L1Sec) : Bool :=
  e.held.isEmpty && e.pend.isEmpty && (match e.st with | .V | .O | .RD => true | _ => false)

/-- Give up one copy: an owned one and one of a press region go home first. -/
def State.evictSector (s : State) (e : L1Sec) : State :=
  if !e.evictable then s
  else match e.st with
    | .O => s.writeBack e.core e.sec false
    | .RD => s.pressOut e
    | _ => s.dropL1 e.core e.sec

/-- The entries of a list whose place, counted from `k`, is among those given. -/
def placesIn {α : Type} (ns : List Nat) (k : Nat) (l : List α) : List α :=
  ((List.range l.length).zip l).filterMap fun e => if ns.contains (k + e.1) then some e.2 else none

/-- The lines of an L1: 1,024 of four sectors (R14). -/
def l1Lines : Nat := 1024

/-- The line of a copy: 256 bytes (R176). -/
def L1Sec.line (e : L1Sec) : Nat := sectorLoc e.sec / 256 + e.sec / 2 ^ 60 * 2 ^ 60

/-- The line of a copy of a fabric sector. -/
def FabSec.line (e : FabSec) : Nat := e.sec / 4 + e.ctx * 2 ^ 60

/-- The lines of fabric sectors in a core's L1, the oldest first (R135). -/
def State.fabLines (s : State) (core : Nat) : List Nat := dedup ((s.fab.filter fun e => e.core == core).map FabSec.line)

/-- What a core's L1 gives up for want of lines: its oldest lines that it may, as many as it holds too many, lines of fabric sectors after
other ones. Those that a laggard's loads filled go last (R14, R135, R222; assumption 17). -/
def State.overfull (s : State) (core : Nat) : List L1Sec × List FabSec :=
  let mine := s.l1.filter fun e => e.core == core
  let lines := dedup (mine.map L1Sec.line)
  let fabs := s.fabLines core
  let excess := lines.length + fabs.length - l1Lines
  let free (n : Nat) : Bool := mine.all fun e => e.line != n || e.evictable
  let lags (n : Nat) : Bool := mine.any fun e => e.line == n && e.lag
  let plain := lines.filter fun n => free n && !lags n
  let fabGo := fabs.take (excess - plain.length)
  let go := plain.take excess ++ (lines.filter fun n => free n && lags n).take (excess - plain.length - fabs.length)
  (mine.filter fun e => go.contains e.line, s.fab.filter fun e => e.core == core && fabGo.contains e.line)

/-- A laggard's copy stays while its L1 has another to give up (R222). -/
def State.spared (s : State) (e : L1Sec) : Bool := e.lag && s.l1.any fun x => x.core == e.core && !x.lag && x.evictable

/-- The copies that the caches of the package give up in a cycle. -/
def State.evict (s : State) : State :=
  if s.fab.isEmpty && s.tlb.isEmpty && !s.l1.any L1Sec.evictable then s
  else
    let ns := Config.evictions s.freeCtr
    let fab := placesIn ns s.l1.length s.fab
    let tlb := placesIn ns (s.l1.length + s.fab.length) s.tlb
    let s' := ((placesIn ns 0 s.l1).filter fun e => !s.spared e).foldl State.evictSector s.draw
    let given := (dedup (s'.l1.map L1Sec.core ++ s'.fab.map FabSec.core)).map s'.overfull
    let s' := (given.flatMap fun x => x.1).foldl State.evictSector s'
    let fab := fab ++ given.flatMap fun x => x.2
    { s' with fab := s.fab.filter (!fab.contains ·), tlb := s.tlb.filter (!tlb.contains ·) }

end Sys2Proof.Machine
end

