-- ==== Sys2Proof/Machine/Settle.lean ====
section
/-! DEFINITION. What comes about of itself after a step: holds and releases at seams (R81, R82), turns in single-stitch mode
(R85, R86), barrier releases (R242), retirement (R95, R214, R310), and the instruction-buffer entries of the paths (R87). -/

namespace Sys2Proof.Machine

/-! ### Retirement of threads -/

/-- EXITING threads whose operations have all completed become EXITED (R95). -/
def State.settleExits (s : State) : State :=
  { s with threads := s.threads.map fun t =>
      if t.state == .exiting && t.outs == 0 then { t with state := .exited } else t }

/-! ### Paths of released threads -/

/-- What sets the threads of one path apart: scheduler, position, mode, page request or
registered wait, single-stitch, active set. -/
def State.partKey (s : State) (t : Thread) : List Nat :=
  let g := s.groupOf t
  let page := match t.state, t.wait with
    | .waiting, .page die n _ => 2 + 256 * die + n
    | .waiting, .pageFull _ => 1
    | .waiting, .slot .. | .waiting, .mwait _ | .waiting, .gbar | .waiting, .tbar => 2 ^ 32
    | _, _ => 0
  [ (g.map Group.sched).getD 0, t.pkt.toNat, t.word, t.trapMode.toNat, page,
    (if s.single t then t.uid + 1 else 0), (if (g.map Group.place) == some .active then 1 else 0) ]

/-- Insert into a list of distinct keys in ascending order. -/
def insertKey (k : List Nat) : List (List Nat) → List (List Nat)
  | [] => [k]
  | x :: r => if k == x then x :: r else if k < x then k :: x :: r else x :: insertKey k r

/-- The distinct keys of some threads, in ascending order. -/
def keysOf (key : Thread → List Nat) (ts : List Thread) : List (List Nat) := ts.foldl (fun ks t => insertKey (key t) ks) []

/-- The same of one path's threads: scheduler, then target. -/
def State.partKeys (s : State) (ts : List Thread) : List (List Nat) := keysOf s.partKey ts

/-- The key of a thread among released ones: threads of one home lane form different gangs, the lower slot the first (R75, R76). -/
def State.gangKey (s : State) (ts : List Thread) (t : Thread) : List Nat :=
  s.partKey t ++ [(ts.filter fun u => u.lane == t.lane && u.slot < t.slot && s.partKey u == s.partKey t).length]

/-- Put threads on a new path of a scheduler, of the age given, which waits for an entry and issues no earlier than the next cycle. -/
def State.onPath (s : State) (us : List Nat) (sched tid age : Nat) : State :=
  let p : Path := { Path.fresh s.nextId sched tid s.tick with age := age, parked := some s.tick, ran := true }
  let s := s.modThreads us fun t => { t with path := p.id }
  { s with paths := s.paths ++ [p], nextId := s.nextId + 1 }

/-- Released threads form a path for each place where they stand and each thread of a home lane there, of the age of the oldest gang in which
one of them arrived (R75, R87). -/
def State.formPaths (s : State) (us : List Nat) : State :=
  let ts := s.threads.filter fun t => us.contains t.uid
  (keysOf (s.gangKey ts) ts).foldl (fun s' k =>
    let part := ts.filter fun t => s.gangKey ts t == k
    let old := part.map Thread.path
    let age := ((minBy Path.age (s.paths.filter fun p => old.contains p.id)).map Path.age).getD s'.nextId
    s'.onPath (uids part) (k.getD 0 0) ((part.head?.map Thread.tid).getD 0) age) s

/-! ### GBAR and TBAR (R242) -/

/-- The thread counts as arrived at a barrier of its group or team: it waits there, and what its arrival releases is ordered (R149,
R158), or it is EXITED. -/
def State.arrived (s : State) (w : Wait) (t : Thread) : Bool :=
  t.state == .exited || (t.state == .waiting && t.wait == w && s.barrierReady w t)

/-- Some of the threads wait at a barrier, and all of them have arrived. -/
def State.gathered (s : State) (w : Wait) (ts : List Thread) : Bool :=
  ts.any (fun t => t.state == .waiting && t.wait == w) && ts.all (s.arrived w)

/-- Let go the threads that wait at a barrier, all of which have arrived. -/
def State.passBarrier (s : State) (w : Wait) (ts : List Thread) : State :=
  let us := uids (ts.filter fun t => t.state == .waiting && t.wait == w)
  (s.modThreads us fun t => { t with state := .runnable, wait := .none }).formPaths us

/-- Release every group whose members have all arrived at `GBAR`. -/
def State.settleGbar (s : State) : State :=
  s.groups.foldl (fun s g => if s.gathered .gbar (s.members g) then s.passBarrier .gbar (s.members g) else s) s

/-- Release every team whose threads have all arrived at `TBAR`. -/
def State.settleTbar (s : State) : State :=
  s.teams.foldl (fun s x => if s.gathered .tbar (s.teamThreads x.tid) then s.passBarrier .tbar (s.teamThreads x.tid) else s) s

/-! ### Seams -/

/-- The thread has arrived at the packet where its innermost seam ends, at that seam's depth (R81). A thread that steps on into that packet
inside an open clause has not arrived there (assumption 65). -/
def Thread.atSeam (t : Thread) : Bool :=
  t.state == .runnable && t.word == 0 && t.clause.isNone && !t.resumed && !t.entered &&
  (match t.seams with | e :: _ => e.pkt == t.pkt && e.depth == t.depth | [] => false)

/-- Hold every thread that has arrived at its seam. -/
def State.settleArrivals (s : State) : State :=
  { s with threads := s.threads.map fun t => if t.atSeam then { t with state := .held } else t }

/-- The thread is held on an innermost entry with tag T. -/
def Thread.heldOn (T : Nat) (t : Thread) : Bool :=
  t.state == .held && (match t.seams with | e :: _ => e.tag == T | [] => false)

/-- The tag on which a group can be released: every member that carries it is held on it (R80, R82). -/
def State.releasable (s : State) (g : Group) : Option Nat :=
  let ms := s.members g
  (ms.filterMap fun t => if t.state == .held then t.seams.head?.map Seam.tag else none).find? fun T =>
    ms.all fun t => t.heldOn T || !(t.seams.any fun e => e.tag == T)

/-- Release a group's threads held on a tag: each pops its entry, and they form one gang (R82, R87). -/
def State.release (s : State) (g : Group) (T : Nat) : State :=
  let us := uids ((s.members g).filter (Thread.heldOn T))
  let s := (s.modThreads us fun t => { t with state := .runnable, seams := t.seams.drop 1 }).formPaths us
  s.modGroup g.gid fun g => { g with progress := true, turn := g.turn.map fun _ => 0 }

/-- Hold and release until nothing more happens; a release may complete another at the same packet. -/
def State.settleSeams : Nat → State → State
  | 0, s => s.settleArrivals
  | n + 1, s =>
    let s := s.settleArrivals
    match s.groups.findSome? fun g => (s.releasable g).map fun T => (g, T) with
    | some (g, T) => State.settleSeams n (s.release g T)
    | none => s

/-- As many releases as there are seam entries can happen. -/
def State.seamCount (s : State) : Nat := (s.threads.map fun t => t.seams.length).foldl (· + ·) 0

/-! ### Single-stitch turns (R85, R86) -/

/-- The thread may take the turn. -/
def Thread.turnable (t : Thread) : Bool :=
  t.state != .held && t.state != .exited && t.state != .exiting && t.wait != .gbar && t.wait != .tbar

/-- The member that has the turn after the holder on a lane: the next higher lane, else the lowest. -/
def nextTurn (ms : List Thread) (lane : Nat) : Option Nat :=
  let ok := sortBy Thread.lane (ms.filter Thread.turnable)
  ((ok.find? fun t => lane < t.lane).or ok.head?).map Thread.uid

/-- Single-stitch groups whose turn's holder has arrived at a barrier: the arrival ends its turn, though it completes the barrier (R243). -/
def State.turnsEnded (s : State) : List Nat :=
  (s.groups.filter fun g => match g.turn.bind s.thread with
    | some t => t.state == .waiting && (t.wait == .gbar || t.wait == .tbar)
    | none => false).map Group.gid

/-- Settle the turn of one single-stitch group. `trapped` says that the step took a trap, and `ended` names groups whose turn is over. A
holder that has exited or left passes the turn on from its own lane (R85). -/
def State.settleTurn (s : State) (trapped : Bool) (ended : List Nat) (g : Group) : State :=
  match g.turn with
  | none => s
  | some h =>
    let ms := s.live g
    if ms.all fun t => t.seams.length ≤ 8 then
      let s := s.modGroup g.gid fun g => { g with turn := none }
      s.modThreads (uids ms) fun t => if t.state == .stitchWait then { t with state := .runnable } else t
    else
      let ends (t : Thread) : Bool :=
        ended.contains g.gid || !t.turnable || !(uids ms).contains h || (trapped && t.entered && s.gang.contains h)
      let next := match s.thread h with
        | none => (sortBy Thread.lane (ms.filter Thread.turnable)).head?.map Thread.uid
        | some t => if ends t then nextTurn ms t.lane else some h
      let turn := next.getD h
      let s := s.modGroup g.gid fun g => { g with turn := some turn }
      s.modThreads (uids ms) fun t =>
        if t.uid == turn then (if t.state == .stitchWait then { t with state := .runnable } else t)
        else if t.state == .runnable then { t with state := .stitchWait } else t

/-- Settle every single-stitch group. -/
def State.settleTurns (s : State) (trapped : Bool) (ended : List Nat) : State := s.groups.foldl (fun s g => s.settleTurn trapped ended g) s

/-! ### Groups, teams and launches -/

/-- The active positions of a scheduler in use: those of the active groups, and that which a swap is filling (R220). -/
def State.positions (s : State) (core sched : Nat) : Nat :=
  (s.groups.filter fun x => (x.place == .active || x.swapAt.isSome) && x.sched == sched && s.coreOf x.tid == core).length

/-- A group that was created in the cycle that ends enters the active set where a position is free, else the pending set; one that is to halt is
HALTED there (Table 11.2). -/
def State.settleForming (s : State) : State :=
  s.groups.foldl (fun s g =>
    if g.place == .forming then
      let busy := s.positions (s.coreOf g.tid) g.sched
      s.modGroup g.gid fun g => { g with place := if g.haltDue then .halted else if busy < 8 then .active else .pending, haltDue := false, entered := s.tick }
    else s) s

/-- Groups without a live member become EMPTY, but for SAVED ones (Table 11.2). Their EXITED members are in no group any more: a status of
theirs is dropped (R228). -/
def State.settleGroups (s : State) : State :=
  let gone := s.groups.filter fun g => g.place != .saved && (s.live g).isEmpty
  let us := uids (gone.flatMap s.members)
  { s.modThreads us fun t => { t with slot := noGroup } with groups := s.groups.filter fun g => gone.all fun h => h.gid != g.gid }

/-- Work of a team that its launch waits for: an item counts from the posting that completes its collective on (R310, R384). -/
def State.owes (s : State) (tid : Nat) : Bool :=
  (s.items.any fun x => x.tid == tid && (x.accepted || (openItems (s.heldItems x.tid x.bar)).all fun y => y.id != x.id)) || (s.mreqs.any fun m => m.tid == tid) ||
  (s.ops.any fun o => o.tid == tid && o.kind != .copy)

/-- A team all of whose threads have EXITED retires: its threads and tiles go, and its launch's LT rises to its core's time (R169,
R310, assumption 62). -/
def State.settleTeams (s : State) : State :=
  let gone := s.teams.filter fun x => x.resident && !x.retired && (s.teamThreads x.tid).all fun t => t.state == .exited
  let tids := gone.map Team.tid
  if tids.isEmpty then s
  else { s with
    launches := gone.foldl (fun ls x => ls.map fun l => if l.lid == x.lid then { l with lt := max l.lt (s.orderTime x.core) } else l) s.launches,
    teams := s.teams.map fun x => if tids.contains x.tid then { x with retired := true } else x,
    threads := s.threads.filter fun t => !tids.contains t.tid,
    tiles := s.tiles.filter fun x => !tids.contains x.tid,
    groups := s.groups.filter fun g => !tids.contains g.tid }

/-- The teams of FAULTED launches, which have stopped, are over once nothing they had posted is left (R310, R384). -/
def State.settleFaulted (s : State) : State :=
  let dead := s.teams.filter fun x => !x.retired && !s.owes x.tid &&
    (match s.launch x.lid with | some l => l.state == .faulted && !s.teamsRun l | none => true)
  let tids := dead.map Team.tid
  if tids.isEmpty then s
  else { s with
    teams := s.teams.map fun x => if tids.contains x.tid then { x with retired := true } else x,
    threads := s.threads.filter fun t => !tids.contains t.tid,
    tiles := s.tiles.filter fun x => !tids.contains x.tid,
    groups := s.groups.filter fun g => !tids.contains g.tid,
    wItems := s.wItems.filter fun x => !tids.contains x.tid,
    wReqs := s.wReqs.filter fun m => !tids.contains m.tid,
    items := s.items.filter fun x => !tids.contains x.tid,
    ops := s.ops.filter fun o => !tids.contains o.tid }

/-- Retired teams with nothing left in flight or landing are over: their record goes. -/
def State.settleFrees (s : State) : State :=
  { s with teams := s.teams.filter fun x => !x.retired || s.owes x.tid || s.allocated x }

/-- A launch whose last team has been placed drains once every team has retired (R310). -/
def State.settleLaunches (s : State) : State :=
  { s with launches := s.launches.map fun l =>
      if l.state == .running && l.placed == recTcount l.record && (s.teams.filter fun x => x.lid == l.lid).all Team.retired
      then { l with state := LState.draining } else l }

/-! ### Paths and instruction-buffer entries (R87) -/

/-- Split one path by where its threads stand. The part at `keep`, the next word, keeps the entry and the age; where a seam holds that
part, the others are younger paths all the same (R87). Where no part continues there, the one with the lowest target keeps them
(assumption 61). -/
def State.splitPath (keep : Word × Nat) (s : State) (p : Path) : State :=
  let mine := s.threads.filter fun t => t.path == p.id
  let ts := mine.filter Thread.stands
  let keys := s.partKeys ts
  let falls (k : List Nat) : Bool := k.getD 0 0 == p.sched && k.getD 1 0 == keep.1.toNat && k.getD 2 0 == keep.2
  let held := mine.any fun t => t.state == .held && s.gang.contains t.uid && t.pkt == keep.1 && t.word == keep.2
  let main := (keys.find? falls).or (if held then none else (keys.find? fun k => k.getD 0 0 == p.sched).or keys.head?)
  let s := match main with
    | some k => { s with paths := s.paths.map fun q => if q.id == p.id then { q with sched := k.getD 0 0 } else q }
    | none => s
  (keys.filter fun k => some k != main).foldl (fun s k =>
    s.onPath (uids (ts.filter fun t => s.partKey t == k)) (k.getD 0 0) p.tid s.nextId) s

/-- Paths that no thread names any more are gone. -/
def State.prunePaths (s : State) : State :=
  { s with paths := s.paths.filter fun p => s.threads.any fun t => t.path == p.id && t.state != .exited }

/-- A path none of whose threads fetches, issues or waits holds no entry (R87): it wants one from when a thread of it does again. -/
def State.freeIdle (s : State) : State :=
  { s with paths := s.paths.map fun p => if (s.pathThreads p).isEmpty then { p with parked := some s.tick } else p }

/-- The entries of a scheduler's pool in use. -/
def State.entries (s : State) (key : Nat) : Nat := (s.paths.filter fun p => s.pathKey p == key && p.parked.isNone).length

/-- Freed entries go to parked paths in the order they parked (R87). -/
def State.grantEntries : Nat → State → State
  | 0, s => s
  | n + 1, s =>
    let want := s.paths.filter fun p => p.parked.isSome && !(s.pathThreads p).isEmpty && s.entries (s.pathKey p) < 24
    match minBy (fun p : Path => p.parked.getD 0) want with
    | none => s
    | some p => State.grantEntries n { s with paths := s.paths.map fun q =>
        if q.id == p.id then { q with parked := none, granted := s.tick } else q }

/-- A `YIELD` waits only for siblings that are still issuable (R94). -/
def State.settleBars (s : State) : State :=
  let open_ (p : Path) (b : Nat) : Bool := s.paths.any fun q => q.id == b && q.id != p.id && s.issuable { q with bar := [] }
  { s with paths := s.paths.map fun p => { p with bar := p.bar.filter (open_ p) } }

/-- Paths that are over go, entries that are free are given, and `YIELD`s that have nothing to wait for end. -/
def State.settlePaths (s : State) : State :=
  let s := s.prunePaths.freeIdle
  (State.grantEntries s.paths.length s).settleBars

/-! ### Everything -/

/-- The next word of a gang's first thread, n words on: where a path that does not branch continues. -/
def State.fallThrough (s : State) (n : Nat) : Word × Nat :=
  match s.gangThreads with
  | [] => (0, 0)
  | t :: _ => let t := times Thread.next n t; (t.pkt, t.word)

/-- Settle the state after a step that began with `trapped` traps taken and whose gang falls through to `keep`. -/
def State.settle (s : State) (trapped : Nat) (keep : Word × Nat) : State :=
  let s := s.settleExits
  let ended := s.turnsEnded
  let s := s.settleGbar.settleTbar
  let s := State.settleSeams s.seamCount s
  let s := s.settleTurns (trapped < s.trapped) ended
  let s := s.settleGroups.settleTeams.settleFaulted.settleFrees.settleLaunches
  (s.paths.foldl (State.splitPath keep) s).settlePaths

end Sys2Proof.Machine
end

