-- ==== Sys2Proof/Machine/Clock.lean ====
section
/-! DEFINITION. What elapsed cycles do: fairness, demotion, the watchdog and the urgency predictor (R222, R224, R226, R244,
R245), and the steps that fall due at a tick. -/

namespace Sys2Proof.Machine

/-! ### What slots and cycles count -/

/-- A wait that ends by issuing again. -/
def Wait.retries : Wait → Bool
  | .clause _ | .score .. | .flagFull | .token _ | .engine | .fence | .order | .group => true
  | _ => false

/-- Words that are progress whatever they write (R226). -/
def progressive : Instr → Bool
  | .exit _ | .stp _ | .stsc _ | .stcl _ | .stds _ | .stg _ | .stf _ | .atsc _ | .atcl _ | .atds _ | .atg _ | .atf _
  | .pubf _ | .cpy _ | .cpyt _ | .cpyx _ | .cpys _ | .mma _ | .accz _ | .accrd _ | .accwr _ | .accnorm _ | .mfence _
  | .barv _ | .bexp _ | .gbar _ | .tbar _ | .gjoin _ | .sqclaim _ | .sqpub _ | .sqacq _ | .sqret _ | .sqinfo _ | .press _
  | .launch _ => true
  | _ => false

/-- Some thread of a group in the gang executes a progressive word. -/
def State.serves (s : State) (gid : Nat) (i : Instr) : Bool :=
  progressive i && s.gangThreads.any fun t => s.gidOf t == gid && t.p (uses i).guard

/-- Mark the groups of the gang whose registers or predicates a step has changed, or which a progressive word has served. Words that hold
their gang, and words that a trap has taken the place of, have not retired. -/
def State.markProgress (s before : State) (ws : List Instr) : State :=
  let gids := before.gids before.gangThreads
  let held := before.trapped < s.trapped || s.threads.any fun t => before.gang.contains t.uid && t.state == .waiting && t.wait.retries
  let moved (g : Group) : Bool :=
    ws.any (before.serves g.gid) ||
    (match before.group g.gid with | some b => b.sregs != g.sregs | none => false) ||
    before.gangThreads.any fun b => before.gidOf b == g.gid &&
      (match s.thread b.uid with | some t => t.regs != b.regs || t.preds != b.preds | none => true)
  if held then s
  else { s with groups := s.groups.map fun g =>
      if gids.contains g.gid then
        { g with progress := g.progress || moved g,
                 retired := List.replicate ws.length s.tick ++ g.retired.filter (s.tick < · + 1024) }
      else g }

/-- The watchdog counts this cycle of the group: it is in the active set, and not every thread of it is EXITED or in a gang in a long wait
(R226). -/
def State.watches (s : State) (g : Group) : Bool :=
  let long (t : Thread) : Bool := t.state == .waiting && s.paths.any fun p => p.id == t.path && s.gangLong p
  g.place == .active && (s.live g).any fun t => !long t

/-- The end of a cycle for a group's watchdog: progress sets the count to 0 (R244). -/
def State.countWatchdog (s : State) (g : Group) : Group :=
  if g.progress then { g with wd := 0, progress := false }
  else if s.watches g && g.wd < 2 ^ 20 then { g with wd := g.wd + 1 } else g

/-- The end of a cycle for a path's fairness count (R245). -/
def State.countFair (s : State) (p : Path) : Path := if s.eligible p then { p with fair := p.fair + 1 } else p

/-- The number of a group's scheduler in the package. -/
def State.groupKey (s : State) (g : Group) : Nat := 4 * s.coreOf g.tid + g.sched

/-- A cycle that counts for no timer of a group: what it measures from moves with the tick (R221). -/
def Group.hold (g : Group) : Group :=
  { g with entered := g.entered + 1, swapAt := g.swapAt.map (· + 1), retired := g.retired.map (· + 1) }

/-- The same of a path. -/
def Path.hold (p : Path) : Path := { p with parked := p.parked.map (· + 1) }

/-- The end of a cycle: what its groups and paths count, but for those of a scheduler whose slot was withheld; a scheduler that has used no
slot has no contention in it (R222); then every scheduler's turn comes again (R221, R224, R226). -/
def State.countCycle (s : State) : State :=
  { s with
    groups := s.groups.map fun g => { (if s.kept.contains (s.groupKey g) then g.hold else s.countWatchdog g) with fabNow := 0 },
    paths := s.paths.map fun p => { (if s.kept.contains (s.pathKey p) then p.hold else s.countFair p) with ran := false },
    lagRun := s.lagRun.filter fun e => s.kept.contains e.1 || s.took.contains e.1,
    kept := [], took := [], cursor := 0 }

/-- A scheduler's slot in which one path has issued: its fairness and demotion counts (R224, R245), and the `YIELD`s that waited for it
(R94). `ready` are the paths that were issuable. -/
def State.countSlot (s : State) (key pid : Nat) (ready : List Nat) (run : Nat) : State :=
  let rival (p : Path) : Bool := ready.any fun q => q != p.id && s.paths.any fun x => x.id == q && s.siblings p x
  let s := { s with lagRun := SMap.put 0 key run s.lagRun, took := key :: s.took, cursor := key + 1 }
  { s with paths := s.paths.map fun p =>
      let p := { p with bar := p.bar.filter (· != pid) }
      if p.id == pid then { p with fair := 0, overdue := none, ran := true, run := if rival p then p.run + 1 else 0 }
      else
        let sib := s.paths.any fun x => x.id == pid && s.siblings p x
        { p with run := if sib then 0 else p.run } }

/-- The power limit withholds a scheduler's slot (R23, R221). -/
def State.withhold (s : State) (key : Nat) : State :=
  { s with withheld := s.withheld.erase (false, key), kept := key :: s.kept, cursor := key + 1 }

/-! ### Swaps (R220) -/

/-- A pending group that could issue: some member is RUNNABLE, as `State.retry` leaves one whose wait has cleared. -/
def State.readyGroup (s : State) (g : Group) : Bool :=
  g.place == .pending && g.swapAt.isNone && (s.live g).any fun t => t.state == .runnable

/-- Every gang that holds a thread of an active group is in a long wait; a PARKED path is no gang (R219). -/
def State.idleGroup (s : State) (g : Group) : Bool :=
  g.place == .active && g.swapAt.isNone &&
  s.paths.all fun p => p.parked.isSome || !(s.gids (s.pathThreads p)).contains g.gid || s.gangLong p

/-- The swap that a scheduler starts now, if any. Of several groups that could go, the one longest in the active set does (assumption
71). -/
def State.swapDue (s : State) (core sched : Nat) : Option Instr :=
  let gs := s.groups.filter fun g => s.coreOf g.tid == core && g.sched == sched
  if gs.any fun g => g.swapAt.isSome then none
  else
    match minBy Group.entered (gs.filter s.readyGroup) with
    | none => none
    | some r =>
      if s.positions core sched < 8 then some (.freePositionSwapIn r.gid)
      else match minBy Group.entered (gs.filter s.idleGroup) with
        | some o => some (.swapOut o.gid r.gid)
        | none =>
          if r.entered + 16384 ≤ s.tick then
            let trapped (g : Group) : Bool := (s.live g).any Thread.trapMode
            (minBy Group.entered (gs.filter fun g => g.place == .active && !trapped g)).map fun o => .forcedSwap o.gid r.gid
          else none

/-- The swaps of every scheduler that holds a pending group. -/
def State.swapsDue (s : State) : List Instr :=
  let keys := dedup ((s.groups.filter fun g => g.place == .pending).map fun g => 4 * s.coreOf g.tid + g.sched)
  (keys.filterMap fun k => s.swapDue (k / 4) (k % 4)) ++
  (s.groups.filterMap fun g => match g.swapAt with
    | some d => if d ≤ s.tick then some (.swapComplete g.gid) else none
    | none => none)

/-! ### Steps that fall due -/

/-- The tick has come. -/
def cameDue (tick : Nat) : Option Nat → Bool
  | some d => d ≤ tick
  | none => false

/-- Steps of operations: timeouts, publications' deadlines, and requests sent again. -/
def State.opsDue (s : State) : List Instr :=
  s.ops.flatMap fun o =>
    (if cameDue s.tick o.due then
      [match o.kind with | .pubf => Instr.pubDeadline o.id | _ => Instr.remoteTimeout o.id] else []) ++
    (if cameDue s.tick o.again then
      [match o.space with
       | 6 => Instr.sequenceResend o.id
       | 1 => Instr.lostWrite o.id
       | _ => Instr.requestRefusedResend o.id] else [])

/-- The thread waits for room in a page request table. -/
def Wait.onFull : Wait → Bool
  | .pageFull _ => true
  | _ => false

/-- Steps of threads: monitors that time out, page requests tried again. -/
def State.threadsDue (s : State) : List Instr :=
  s.threads.flatMap fun t =>
    let c := s.ctx (s.ctxOf t.tid)
    let slow := match c with | some c => c.lease * c.drift | none => 2 ^ 16
    (match t.state, t.wait, t.mon with
     | .waiting, .mwait _, some m => match m.since with
       | some d => if d + (if m.refused then min slow (2 ^ 16) else 2 ^ 16) ≤ s.tick then [Instr.mwaitTimeout t.uid] else []
       | none => []
     | _, _, _ => []) ++
    (if t.state == .waiting && t.wait.onFull && s.tick % 64 == 0 then [Instr.pageRequestRetry t.uid] else [])

/-- Steps of paths and groups: fairness, demotion, takeover of an entry, the watchdog. -/
def State.pathsDue (s : State) : List Instr :=
  (s.paths.flatMap fun p =>
    let r := s.recordOf p.tid
    if !recPp r then []
    else
      (if p.overdue.isNone && recFt r ≤ p.fair then [Instr.fairnessOverdue p.id] else []) ++
      (if 2048 ≤ p.run then [Instr.gangDemotion p.id] else []) ++
      (match p.parked with
       | some d => if d + recFt r ≤ s.tick && !(s.pathThreads p).isEmpty then [Instr.parkedPathTakeover p.id] else []
       | none => [])) ++
  (s.groups.filterMap fun g => if g.wd == 2 ^ 20 && (s.live g).any fun t => !t.wdDue then some (Instr.noProgress g.gid) else none)

/-- Ticks of a number of milliseconds. -/
def msTicks (ms : Nat) : Nat := ms * 1000 * Config.ticksPerUs

/-- Steps of contexts and links: bounds of pre-emption, counted from when its PREEMPT, the head of the commands, reached the port (R345), of
teardown, and of training. -/
def State.boundsDue (s : State) : List Instr :=
  (s.ctxs.flatMap fun c =>
    (match c.preAt, s.cmdsAt.head? with
     | some d, some a => if max (a + msTicks 40) (d + 1) == s.tick then [Instr.preemptRemoteBound c.num] else []
     | _, _ => []) ++
    (match c.downAt with | some d => if d + msTicks 64 ≤ s.tick then [Instr.teardownBound c.num] else [] | none => [])) ++
  (s.links.filterMap fun e =>
    if (e.2.state == .training || e.2.state == .retraining) && e.2.since + msTicks e.2.limit ≤ s.tick then some (Instr.retrainLimitExpiry e.1) else none)

/-- The schedulers of the dies on which words are sampled. -/
def State.sampledScheds (s : State) : List Nat :=
  if s.sampleDies.isEmpty then [] else (List.range 1536).filter fun k => s.sampleDies.contains (coreDie (k / 4))

/-- Every step that falls due at the tick the package has reached. -/
def State.dueNow (s : State) : List Instr :=
  (if cameDue s.tick s.peg then [Instr.pegStop] else []) ++
  (if s.tick % 64 == 0 || s.ctxs.any fun c => c.state != .free && 0 < c.drift && s.tick % c.drift == 0 then [Instr.driftStep] else []) ++
  (if s.lts.any fun e => 2 ^ 47 ≤ e.2 then [Instr.packageRebase] else []) ++
  s.opsDue ++ s.threadsDue ++ s.pathsDue ++ s.swapsDue ++ s.boundsDue ++
  (if s.tick % 64 == 0 then (s.teams.filter Team.resident).map fun x => Instr.urgencyEvaluation x.tid else []) ++
  (if s.tick % 2 ^ s.sampleN == 0 then s.sampledScheds.map Instr.sampleTag else [])

/-- Fabric time in ns at a tick: 5/12 ns a tick, adjusted by synchronisation (R366). -/
def State.fabNs (s : State) (tick : Nat) : Int := (tick * 5 / 12 : Nat) + s.fabTime

/-- The window that a tick lies in (R366). -/
def State.windowAt (s : State) (tick : Nat) : Int := s.fabNs tick / (max 1 s.window : Nat)

/-- The first tick at or after a fabric time in ns. -/
def State.tickOfNs (s : State) (ns : Int) : Nat := ((12 * (ns - s.fabTime) + 4) / 5).toNat

/-- Fabric time moves against the ticks, and with it the ticks of the publication deadlines kept (R366). -/
def State.shiftFabric (s : State) (d : Int) : State :=
  let s := { s with fabTime := s.fabTime + d }
  { s with ops := s.ops.map fun o => if o.kind == .pubf && o.due.isSome then { o with due := some (s.tickOfNs o.wts) } else o }

/-- The package runs on after a peg: the ticks have stood still and fabric time has not, so a new window length may have come into
force meanwhile (R366, R383, R390; how long is assumption 48). -/
def State.unpeg (s : State) : State :=
  let t := s.draw.shiftFabric (Config.peggedNs s.freeCtr)
  match t.windowNew with
  | some w => if s.windowAt s.tick == t.windowAt t.tick then t else { t with window := w, windowNew := none }
  | none => t

/-- The next tick, with a new window length from the next boundary on (R383). -/
def State.nextTick (s : State) : State :=
  let s := { s with tick := s.tick + 1 }
  match s.windowNew with
  | some w => if s.windowAt (s.tick - 1) == s.windowAt s.tick then s else { s with window := w, windowNew := none }
  | none => s

/-- Put down the steps that fall due at the tick reached. -/
def State.putDues (s : State) : State := { s with dues := s.dues ++ s.dueNow }

/-- What a thread stalled on has cleared, as far as the thread shows it. -/
def State.cleared (s : State) (t : Thread) : Bool :=
  match t.wait with
  | .clause mask => (List.range 12).all fun i => !mask.getLsbD i || t.count i == 0
  | .score regs preds fstat => !regs.any t.pendV.contains && !preds.any t.pendP.contains && !(fstat && 0 < t.pendF)
  | .token regs => match s.groupOf t with | some g => !regs.any g.toks.contains | none => true
  | _ => true

/-- A thread waits only for replies of an `LDF.ASPLIT` of which another reply has arrived, and whose gang has not been split yet (R142). -/
def State.splitsOn (s : State) (regs : List Nat) (t : Thread) : Bool :=
  (t.pendV.filter regs.contains).all fun r => s.ops.any fun o =>
    o.uid == t.uid && o.kind == .load && o.space == 1 && o.aop == 1 && o.regs.contains r &&
    (s.ops.filter fun x => x.kind == .load && x.space == 1 && x.tid == o.tid && x.pkt == o.pkt && x.word == o.word && x.issued == o.issued).length
      < (o.args.headD 0).toNat

/-- Split a gang that reads the destination of an `LDF.ASPLIT` when the first reply has arrived: those whose replies are there go on, the
others take a path of their own, on which they wait for all that they still want (R142). -/
def State.splitReplies (s : State) (p : Path) : State :=
  let ts := s.threads.filter fun t => t.path == p.id && t.state == .waiting
  let regs := match ts.head?.map Thread.wait with | some (.score regs ..) => regs | _ => []
  let held := ts.filter fun t => !s.cleared t
  if regs.isEmpty || held.isEmpty || held.length == ts.length || !held.all (s.splitsOn regs) then s
  else
    let us := uids held
    let whole (o : Op) : Op := if us.contains o.uid && o.kind == .load && o.space == 1 && o.regs.any regs.contains then { o with aop := 0 } else o
    { s with ops := s.ops.map whole }.onPath us p.sched p.tid s.nextId

/-- The threads of a path that wait to issue again, none while something that one of them waits for has not cleared. -/
def State.stuck (s : State) (p : Path) : List Thread :=
  let ts := s.threads.filter fun t => t.path == p.id && t.state == .waiting && t.wait.retries
  if ts.all s.cleared then ts else []

end Sys2Proof.Machine
end

