-- ==== Sys2Proof/Machine/Global.lean ====
section
/-! DEFINITION. Global memory (major 24), monitors, fences and presses: `LDG`, `STG`, `ATG`, `PFG`, `MON`, `MWAIT`, `FENCE`,
`PRESS` (R129-R140, R145-R147, R191-R195), and the steps of logical time (R174, R189) and of page walks (R330, R333). -/

namespace Sys2Proof.Machine

/-! ### Reaching memory -/

/-- The index of the valid press region of a context that covers an address (R191, R192). -/
def State.regionOf (s : State) (c va : Nat) : Option Nat :=
  match s.ctx c with
  | none => none
  | some x => (List.range 16).find? fun i => match x.regions[i]? with
      | some e => e.v && e.base.toNat * 65536 ≤ va && va < (e.base.toNat + e.size.toNat) * 65536
      | none => false

/-- Translate for each thread: those that fault park on a page request, the others reach a location (R129, R332). -/
def State.reach (write : Bool) (va : Thread → Nat) : State → List Thread → State × List (Thread × Nat)
  | s, [] => (s, [])
  | s, t :: r =>
    let core := s.coreOf t.tid
    let x := s.translate (s.ctxOf t.tid) (some core) (coreDie core) (va t) write
    match x.2 with
    | .ok loc _ _ => let q := State.reach write va x.1 r; (q.1, (t, loc) :: q.2)
    | .fault kind _ lo len => State.reach write va (x.1.parkThreads [t] kind lo len (if write then 1 else 0)) r

/-- The thread waits on a page request. -/
def Thread.onPage (t : Thread) : Bool :=
  t.state == .waiting && (match t.wait with | .page .. | .pageFull _ => true | _ => false)

/-- Every thread of the gang goes on but those parked on a page (R332). -/
def State.advanceRest (s : State) : State := s.modThreads s.gang fun t => if t.onPage then t else t.next

/-- The virtual address a thread's pair gives. -/
def State.pairNat (s : State) (t : Thread) (a : BitVec 7) : Nat := (s.srcPair t a).toNat

/-- `MISALIGNED` over the executing threads of a pair-addressed access (R122). -/
def State.pairTrap (s : State) (space : Nat) (ts : List Thread) (a : BitVec 7) (size : Nat) : Option TrapReq :=
  let bad := ts.filter fun t => s.pairNat t a % size != 0
  bad.head?.map fun t => { TrapReq.of 0x06 with mask := some (laneMask bad), space := space, addr := s.srcPair t a }

/-- The tick at which a remote access of a context times out (R141). -/
def State.remoteDue (s : State) (c : Nat) : Nat :=
  s.tick + Config.ticksPerUs * (match s.ctx c with | some x => x.rto | none => 4)

/-- A thread's global operation at the location it reached: press accesses go as `.WT` (R192), remote frames run a timeout. -/
def State.globalOp (s : State) (k : OpKind) (fb : Bool) (a : BitVec 7) (size rtype : Nat) (p : Thread × Nat) : Op :=
  let va := s.srcPair p.1 a
  let c := s.ctxOf p.1.tid
  let region := s.regionOf c va.toNat
  { s.opOf p.1 k (p.1.sel fb) with
    loc := p.2, addr := va, size := size, region := region, rtype := if region.isSome then 1 else rtype,
    due := if isRemote p.2 then some (s.remoteDue c) else none, port := if isRemote p.2 then (s.portOf p.2).getD 255 else 0 }

/-- A watched access of a thread (R388, R389). -/
def State.watchAccess (s : State) (t : Thread) (va size kind : Nat) : State := (s.watchHit (s.originOf t) va size kind).1

/-- A context's request toward a remote location's node is recorded (R348). -/
def State.noteRemote (s : State) (c loc : Nat) : State := if isRemote loc then s.askNode c (nodeKey loc) else s

/-- Put an operation of a thread in flight and take it to the core's L1. -/
def State.access (s : State) (o : Op) (kind : Nat) : State :=
  let id := s.nextId
  let s := (s.begin o).noteRemote o.ctx o.loc
  let s := match s.thread o.uid with | some t => s.watchAccess { t with pkt := o.pkt } o.addr.toNat o.size kind | none => s
  s.l1Access { o with id := id }

/-! ### Loads and stores (R132, R134) -/

/-- `LDG`. -/
def execLdg (f : FG) (s : State) : Out :=
  let size := widthBytes f.w
  let ts := s.executing f.pred
  match s.pairTrap 0 ts f.a size with
  | some q => s.trapOut q
  | none =>
    let r := s.reach false (fun t => s.pairNat t f.a) ts
    .next (r.2.foldl (fun s p =>
      s.access { s.globalOp .load f.fb f.a size f.rtype.toNat p with regs := s.phys p.1 f.data.toNat (widthRegs f.w) } 1)
      r.1).advanceRest

/-- The merged request of one issue for one sector: every byte its threads store there, the higher home lane's where they meet,
each thread's operation completed with it (R132, R136). -/
def mergeOps (ops : List Op) : Option Op :=
  ops.head?.map fun o =>
    let base := o.loc / 64 * 64
    let bytes := ops.foldl (fun (bs : List Byte) x => overlay bs (x.loc - base) x.data) (List.replicate 64 0)
    let mask := ops.foldl (fun (m : BitVec 64) x =>
      m ||| BitVec.ofNat 64 ((2 ^ x.size - 1) * 2 ^ (x.loc - base))) 0
    { o with uid := 0, sel := 15, loc := base, size := 64, data := bytes, mask := mask, syn := [0, 0], waits := ops.map Op.id }

/-- Put stores of one issue in flight: one operation a thread, and one request a sector in the order given by `send`. -/
def State.sendStores (send : State → Op → State) (s : State) (ops : List Op) : State :=
  let ids := (List.range ops.length).map fun i => s.nextId + i
  let ops := (ops.zip ids).map fun p => { p.1 with id := p.2 }
  let s := ops.foldl (fun s o => s.begin { o with data := [], due := none }) s
  (dedup (ops.map Op.sec)).foldl (fun s sec =>
    match mergeOps (ops.filter fun o => o.sec == sec) with
    | none => s
    | some o =>
      let o := { o with id := s.nextId }
      send { s with ops := s.ops ++ [o], nextId := s.nextId + 1 } o) s

/-- `STG`. -/
def execStg (f : FG) (s : State) : Out :=
  let size := widthBytes f.w
  let ts := s.executing f.pred
  match s.pairTrap 0 ts f.a size with
  | some q => s.trapOut q
  | none =>
    let r := s.reach true (fun t => s.pairNat t f.a) ts
    let ops := r.2.map fun p =>
      { s.globalOp .store f.fb f.a size f.rtype.toNat p with data := s.storeBytes p.1 f.data size }
    let s := ops.foldl (fun s o => s.noteRemote o.ctx o.loc) r.1
    let s := r.2.foldl (fun s p => s.watchAccess p.1 (s.pairNat p.1 f.a) size 2) s
    .next (s.sendStores State.l1Store ops).advanceRest

/-- `ATG`, in ascending home lane (R138, R139). -/
def execAtg (f : FA) (s : State) : Out :=
  let ts := s.executing f.pred
  match s.pairTrap 0 ts f.a (atomicBytes f) with
  | some q => s.trapOut q
  | none =>
    let r := s.reach true (fun t => s.pairNat t f.a) ts
    .next (r.2.foldl (fun s p =>
      s.access { s.globalOp .atomic f.fb f.a (atomicBytes f) 1 p with
        aop := f.aop.toNat, args := s.atomicArgs p.1 f, regs := s.phys p.1 f.data.toNat (atomicBytes f / 4) } 3)
      r.1).advanceRest

/-! ### Prefetch (R140) -/

/-- A prefetch of one sector into a core's L1, as a `.WT` load would fetch it. -/
def State.prefetchSector (s : State) (core c loc : Nat) : State :=
  let o := { Op.blank with id := s.nextId, kind := .pfg, agent := core, ctx := c, loc := loc / 64 * 64, size := 64, rtype := 1,
                           issued := s.tick, due := if isRemote loc then some (s.remoteDue c) else none }
  let s := ({ s with ops := s.ops ++ [o], nextId := s.nextId + 1 }.noteRemote c loc)
  s.l1Load o

/-- The prefetch of one thread: a page that does not translate makes it do nothing; what it brings into a slice or a memory-side
cache changes no state that a program sees. -/
def State.prefetch (f : FPfg) (s : State) (t : Thread) : State :=
  let core := s.coreOf t.tid
  let c := s.ctxOf t.tid
  let x := s.translate c (some core) (coreDie core) (s.pairNat t f.a / 256 * 256) false
  match x.2 with
  | .ok loc _ _ => if f.level == 0 then (List.range 4).foldl (fun s i => s.prefetchSector core c (loc + 64 * i)) x.1 else x.1
  | .fault .. => x.1

/-- `PFG`: complete as soon as the L1 has it (Table 2.2). -/
def execPfg (f : FPfg) (s : State) : Out := .next ((s.executing f.pred).foldl (State.prefetch f) s).advance

/-! ### Monitors (R145, R146) -/

/-- The armed monitors registered at a slice. -/
def State.registered (s : State) (slice : Nat) : Nat :=
  (s.threads.filter fun t => match t.mon with
    | some m => !m.refused && s.homeSlice (s.ctxOf t.tid) (sectorLoc m.sec) == slice
    | none => false).length

/-- `MON`: a `.WT` read of the sector that writes no register arms the thread's monitor, registered where its home has room. -/
def execMon (f : FMon) (s : State) : Out :=
  let ts := s.executing f.pred
  let r := s.reach false (fun t => s.pairNat t f.a / 64 * 64) ts
  .next (r.2.foldl (fun s p =>
    let o := { s.globalOp .mon false f.a 64 1 p with sel := 15, loc := p.2 / 64 * 64, addr := s.srcPair p.1 f.a &&& ~~~63#64 }
    let m : Monitor := { sec := o.sec, fired := false, wts := 0, refused := 1024 ≤ s.registered (s.homeSlice o.ctx o.loc), since := none }
    (s.modThread p.1.uid fun t => { t with mon := some m }).access o 1) r.1).advanceRest

/-- Wake a thread from its monitor: the copy goes by its state, and LT rises (R146). -/
def State.wakeUp (s : State) (t : Thread) (m : Monitor) (wts : Nat) : State :=
  let core := s.coreOf t.tid
  let s := s.modThread t.uid fun t =>
    if t.state == .waiting && t.wait.onMon then { t with mon := none, state := .runnable, wait := .none } else { t with mon := none }
  match s.l1Of core m.sec with
  | none => s.raiseLt core wts
  | some e =>
    let s := s.raiseLt core (max (e.rts + 1) wts)
    match e.st with
    | .V => s.dropL1 core m.sec
    | .P | .IV | .VV => s.modL1 core m.sec fun e => { e with drop := e.drop.orElse fun _ => some e.held.length }
    | _ => s

/-- `MWAIT`: threads without a monitor pass, those whose monitor has fired wake at once, the others wait behind the word. -/
def execMwait (f : FP) (s : State) : Out :=
  let ts := s.executing f.pred
  let s' := s.advance
  .next (ts.foldl (fun s t => match t.mon with
    | none => s
    | some m =>
      if m.fired then s.wakeUp t m m.wts
      else s.modThread t.uid fun u => { u with state := .waiting, wait := .mwait t.at_, mon := some { m with since := some s.tick } }) s')

/-- `MWAIT_WAKE`: a write ordered to the sector is recorded, and wakes the thread if it waits (R146). -/
def execMwaitWake (uid wts : Nat) (s : State) : Out :=
  match s.thread uid with
  | none => .next s
  | some t => match t.mon with
    | none => .next s
    | some m =>
      if t.state == .waiting && t.wait.onMon then .next (s.wakeUp t m wts)
      else .next (s.modThread uid fun t => { t with mon := some { m with fired := true, wts := max m.wts wts } })

/-- `MWAIT_TIMEOUT` (R146). -/
def execMwaitTimeout (uid : Nat) (s : State) : Out :=
  match s.thread uid with
  | none => .next s
  | some t => match t.mon with
    | some m => if t.state == .waiting && t.wait.onMon then .next (s.wakeUp t m 0) else .next s
    | none => .next s

/-! ### Fences (R147, Table 6.6) -/

/-- A parked access of the group counts as issued and outstanding (R332); a parked fetch is none. -/
def Thread.parkedAccess (t : Thread) : Bool :=
  t.state == .waiting && (match t.wait with | .page _ _ acc => acc != 2 | .pageFull acc => acc != 2 | _ => false)

/-- The release of a group at a scope has what it waits for: every access that a thread of the group issued before it (R149). -/
def State.released (s : State) (g : Group) (scope : Nat) : Bool :=
  (s.members g).all (fun t => !t.parkedAccess) &&
  s.ordered (uids (s.members g)) (s.coreOf g.tid) (s.ctxOf g.tid) scope s.gangCut

/-- The acquire of a group has what it waits for: its loads and atomics have written their registers. -/
def State.acquired (s : State) (g : Group) : Bool :=
  let us := uids (s.members g)
  (s.members g).all (fun t => !t.parkedAccess) &&
  s.ops.all fun o => !(o.id < s.gangCut && us.contains o.uid && (o.kind == .load || o.kind == .atomic))

/-- A copy is self-invalidating, or a `.SI` fill of it is outstanding. -/
def State.selfInvalidating (s : State) (e : L1Sec) : Bool :=
  e.si || s.ops.any fun o => o.agent == e.core && o.sec == e.sec && o.req == .load && o.rtype == 2

/-- A copy that an acquire drops, if it stays for a while: marked, with the accesses that wait for it now (R147). -/
def L1Sec.giveUp (e : L1Sec) : Option L1Sec :=
  match e.st with
  | .V => none
  | .P | .IV | .VV => some { e with drop := e.drop.orElse fun _ => some e.held.length }
  | _ => some e

/-- Copies that an acquire drops: self-invalidating ones from `.DEVICE` on, fabric ones at `.SYSTEM` (R147). -/
def State.acquireDrop (s : State) (core scope : Nat) : State :=
  let s := if scope < 3 then s else
    { s with l1 := s.l1.filterMap fun e => if e.core == core && s.selfInvalidating e then e.giveUp else some e }
  if scope == 4 then { s with fab := s.fab.filter fun e => e.core != core } else s

/-- Writes of a group toward a link that does not carry them: the fence's wait on them is bounded by the retrain limit (R371). -/
def State.boundHeld (s : State) (g : Group) : State :=
  let us := uids (s.members g)
  let ids := (s.ops.filter fun o => us.contains o.uid && o.space == 1 && (o.kind == .store || o.kind == .atomic)).map Op.id
  { s with ops := s.ops.map fun o =>
      if (ids.contains o.id || o.waits.any ids.contains) && o.again.isNone && !o.done && !s.carries o.port &&
          (o.kind == .atomic || !o.waits.isEmpty)
      then { o with again := some (s.tick + s.retrain * 1000 * Config.ticksPerUs) } else o }

/-- The groups with an executing thread. -/
def State.fenceGroups (s : State) (pred : BitVec 3) : List Group := (s.gids (s.executing pred)).filterMap s.group

/-- What a release of some threads of a core leaves at `.CLUSTER` or wider: what the threads write from now on carries the core's time, into
fabric memory only after one at `.SYSTEM` (R151, R170, assumption 62). -/
def State.leaveTime (s : State) (core scope : Nat) (us : List Nat) : State :=
  s.modThreads us fun t =>
    { t with rel := s.orderTime core, relSys := if scope == 4 then s.orderTime core else t.relSys }

/-- What an acquire of a thread takes at `.CLUSTER` or wider: the time of the releases whose values it has read, in fabric memory only at
`.SYSTEM`. -/
def State.takeTime (s : State) (scope : Nat) (t : Thread) : State :=
  s.raiseOt (s.coreOf t.tid) (if scope == 4 then max t.got t.gotSys else t.got)

/-- What a fence does once it has what it waits for. -/
def State.passFence (s : State) (pred : BitVec 3) (rel acq : Bool) (scope : Nat) : State :=
  let gs := s.fenceGroups pred
  let ts := s.executing pred
  let s := if rel && 2 ≤ scope then gs.foldl (fun s g => s.leaveTime (s.coreOf g.tid) scope (uids (ts.filter fun t => s.gidOf t == g.gid))) s else s
  if acq then
    let s := if 2 ≤ scope then ts.foldl (fun s t => s.takeTime scope t) s else s
    gs.foldl (fun s g => s.acquireDrop (s.coreOf g.tid) scope) s
  else s

/-- `FENCE`: kind 1 release, 2 acquire, 3 both; the gang stalls until its conditions hold (R39, R147). -/
def execFence (f : FFence) (s : State) : Out :=
  let gs := s.fenceGroups f.pred
  let scope := f.scope.toNat
  let rel := f.kind == 1 || f.kind == 3
  let acq := f.kind == 2 || f.kind == 3
  if gs.any fun g => (rel && !s.released g scope) || (acq && !s.acquired g) then
    let s := if rel && scope == 4 then gs.foldl State.boundHeld s else s
    .next s.stallFence
  else .next (s.passFence f.pred rel acq scope).advance

/-! ### Presses (R191-R195) -/

/-- The operation that stands for a core's press: it has no data of its own, and `port` counts its stage from 1 on. -/
def Op.isPress (o : Op) : Bool := o.kind == .press && o.uid == 0 && o.size == 0

/-- A press waits for the core's earlier one, and for the stores into its region that the core issued before it and has not written into its
copy (R195, assumption 21). -/
def State.pressHeld (s : State) (core c region : Nat) : Bool :=
  s.ops.any fun x => x.agent == core &&
    (x.isPress || (x.kind == .store && x.uid != 0 && x.ctx == c && x.region == some region && x.id < s.gangCut))

/-- Start a press: the core's RD sectors of the region are written back (R193). -/
def State.startPress (s : State) (o : Op) : State :=
  (s.l1.filter fun e => e.core == o.agent && e.ctx == o.ctx && e.st == .RD && e.region == o.region).foldl State.pressOut s

/-- `PRESS`: a trap where the entry is invalid; else once for the core, each executing thread counting it (R193). The gang stalls until the
press can start, so that no later store is covered by it (R195). -/
def execPress (f : FPress) (s : State) : Out :=
  match s.executing f.pred with
  | [] => .next s.advance
  | t :: r =>
    let c := s.ctxOf t.tid
    let valid := match (s.ctx c).bind fun x => x.regions[f.region.toNat]? with | some e => e.v | none => false
    if !valid then s.trapCause 0x0F
    else if s.pressHeld (s.coreOf t.tid) c f.region.toNat then .next s.stallFence
    else
      let ids := (List.range (r.length + 1)).map fun i => s.nextId + i
      let s := (t :: r).foldl (fun s t => s.begin (s.opOf t .press (t.sel f.fb))) s
      let o := { s.opOf t .press 15 with id := s.nextId, uid := 0, region := some f.region.toNat, waits := ids, port := 1 }
      .next (State.startPress { s with ops := s.ops ++ [o], nextId := s.nextId + 1 } o).advance

/-- The cores on which teams of a context stand. -/
def State.coresOf (s : State) (c : Nat) : List Nat :=
  dedup ((s.teams.filter fun x => x.ctx == c && x.resident).map Team.core)

/-- Every write-back of the phase is acknowledged: the floor rises, LT with it, and travels to every core of the context. -/
def State.raiseFloor (s : State) (o : Op) : State :=
  let r := o.region.getD 0
  let old := match (s.ctx o.ctx).bind fun x => x.regions[r]? with | some e => e.floor | none => 0
  let f := max old (s.lt o.agent + 1)
  let s := s.modCtx o.ctx fun x => { x with regions := x.regions.modify r fun e => { e with floor := f } }
  let s := (s.raiseLt o.agent f).modOp o.id fun x => { x with port := 2, wts := f }
  s.post ((s.coresOf o.ctx).map fun k => .floorMessage k o.ctx r f)

/-- What a press can do now: raise the floor, complete (R193, R195). -/
def State.goPress (s : State) (o : Op) : State :=
  if o.port == 1 then
    if s.ops.any fun x => x.kind == .press && x.size == 64 && x.agent == o.agent && x.ctx == o.ctx && x.region == o.region then s
    else s.raiseFloor o
  else if (s.coresOf o.ctx).all fun k => o.wts ≤ s.floorOf k o.ctx o.region then
    (o.waits.foldl (fun s id => match s.op id with | some x => s.finish x | none => s) s).dropOp o.id
  else s

/-- `FLOOR_MESSAGE`: a core accepts a region's floor (R193). -/
def execFloorMessage (core ctx region floor : Nat) (s : State) : Out :=
  let k := (core * 65 + ctx) * 16 + region
  .next { s with floors := SMap.put 0 k (max floor (SMap.get 0 s.floors k)) s.floors }

/-- A core that begins to run a context takes its copy of the region table (R191). -/
def State.seedFloors (s : State) (core c : Nat) : State :=
  match s.ctx c with
  | none => s
  | some x => (List.range 16).foldl (fun s r => match x.regions[r]? with
      | some e => { s with floors := SMap.put 0 ((core * 65 + c) * 16 + r) e.floor s.floors }
      | none => s) s

/-! ### Logical time (R174, R175, R189) -/

/-- The drift period of a core: the smallest among its teams' contexts, 64 where no team stands. -/
def State.driftOf (s : State) (core : Nat) : Nat :=
  let ds := (s.teams.filter fun x => x.core == core && x.resident).filterMap fun x => (s.ctx x.ctx).map Ctx.drift
  match ds with
  | [] => 64
  | d :: r => r.foldl min d

/-- `DRIFT_STEP`: every core whose period divides the tick steps its LT. -/
def execDriftStep (s : State) : Out :=
  .next { s with lts := (List.range 384).filterMap fun k =>
    let v := s.lt k + (if s.tick % max 1 (s.driftOf k) == 0 then 1 else 0)
    if v == 0 then none else some (k, v) }

/-- 2^46 less, but not below 0. -/
def lowered (v : Nat) : Nat := v - 2 ^ 46

/-- Lower every value of a sparse map. -/
def lowerMap (m : SMap Nat) : SMap Nat := (m.map fun e => (e.1, lowered e.2)).filter fun e => e.2 != 0

/-- The same of a map of pairs. -/
def lowerMarks (m : SMap (Nat × Nat)) : SMap (Nat × Nat) := (m.map fun e => (e.1, lowered e.2.1, lowered e.2.2)).filter fun e => e.2 != (0, 0)

/-- A stamp under a lowered base keeps its offset. -/
def lowerStamp (base v : Nat) : Nat := lowered base + (v - base)

/-- Some coherence message is in flight. -/
def State.messages (s : State) : Bool :=
  s.agenda.any fun i => match i with
    | .homeLoadRequest _ | .homeWriteThrough _ | .homeOwnedRequest _ | .ownedGrant _ | .grantAcknowledge .. | .forwardReceive ..
    | .recallReceive .. | .ownerAnswer .. | .writeBackReceive .. | .writeBackAck .. | .fillReply _ | .writeThroughAck _
    | .floorMessage .. | .mwaitWake .. => true
    | _ => false

/-- `PACKAGE_REBASE`: once no coherence message is in flight, every LT, base, floor and kept LT is lowered by 2^46, offsets
unchanged, and every L1 drops its copies in V and those of fabric sectors (R135, R189). The `wts` of a `PUBF` is its deadline, that of a `SQACQ` its generation. -/
def execPackageRebase (s : State) : Out :=
  if s.messages then .next s
  else
    let low (core v : Nat) : Nat := lowerStamp (SMap.get 0 s.l1Base core) v
    let atHome (h : HomeSec) (v : Nat) : Nat := lowerStamp (SMap.get 0 s.homeBase (s.homeSlice (h.sec / 2 ^ 60 - 1) (sectorLoc h.sec))) v
    let regions (c : Ctx) : Ctx := { c with regions := c.regions.map fun e => { e with floor := lowered e.floor } }
    .next { s with
      lts := lowerMap s.lts, ots := lowerMap s.ots, bankRel := lowerMarks s.bankRel, floors := lowerMap s.floors,
      rebases := (s.rebases + 1) % 256, fab := [],
      teams := s.teams.map fun x => { x with rels := lowerMarks x.rels },
      l1Base := lowerMap s.l1Base, homeBase := lowerMap s.homeBase,
      l1 := (s.l1.filter fun e => e.st != .V).map fun e => { e with wts := low e.core e.wts, rts := low e.core e.rts },
      home := s.home.map fun h => { h with wts := atHome h h.wts, rts := atHome h h.rts },
      ctxs := s.ctxs.map regions, fwCtx := s.fwCtx.map regions,
      items := s.items.map fun x => { x with lt := lowered x.lt },
      ops := s.ops.map fun o =>
        { o with lt := lowered o.lt, wts := if o.kind == .pubf || o.kind == .sqacq then o.wts else lowered o.wts, rts := lowered o.rts },
      inPubs := s.inPubs.map fun p => { p with lt := lowered p.lt },
      launches := s.launches.map fun l => { l with lt := lowered l.lt },
      queues := s.queues.map fun q => { q with lts := lowerMap q.lts },
      threads := s.threads.map fun t =>
        { t with mon := t.mon.map fun m => { m with wts := lowered m.wts }, rel := lowered t.rel, got := lowered t.got,
                 relSys := lowered t.relSys, gotSys := lowered t.gotSys } }

/-! ### Page walks (R330, R333) -/

/-- `PAGE_WALK`: the translation fills the TLBs; where it fails with kind 1 and a request was asked for, one is opened or joined with
no thread parked, for the team, packet and slot given (R333, R339). -/
def execPageWalk (ctx core : Nat) (va : BitVec 64) (by_ : Option (Nat × BitVec 32 × Nat)) (s : State) : Out :=
  let die := coreDie core
  let r := s.translate ctx (some core) die va.toNat false
  match r.2 with
  | .fault 1 _ lo len => match by_ with
    | some (team, pc, slot) =>
      .next (r.1.pageRequest die ctx 1 lo len 0 { FRec.blank 3 1 with team := team, pc := pc.toNat, slot := slot, die := die, unit := core }).1
    | none => .next r.1
  | _ => .next r.1

/-- `PAGE_REQUEST_RETRY`: the thread issues its access again, which finds a request or a free number or parks once more (R333). -/
def execPageRequestRetry (uid : Nat) (s : State) : Out :=
  .next (s.modThread uid fun t => if t.state == .waiting && t.wait.onFull then { t with state := .runnable, wait := .none } else t)

end Sys2Proof.Machine
end

