-- ==== Sys2Proof/Machine/Fabric.lean ====
section
/-! DEFINITION. Fabric memory (major 25), the links under it, timeouts, publications and exports (R130, R135, R141, R143, R144,
R352-R372). -/

namespace Sys2Proof.Machine

/-! ### Fabric addresses (R130) -/

/-- Kind of a fabric address. -/
def fabKind (a : BitVec 64) : Nat := field a 63 56
/-- Node of a fabric address. -/
def fabNode (a : BitVec 64) : Nat := field a 55 48
/-- Offset of a fabric address. -/
def fabOff (a : BitVec 64) : Nat := field a 47 0

/-- A load may name the address (Table 6.2). -/
def fabLoadOk (a : BitVec 64) : Bool :=
  (fabKind a == 0 && fabNode a < 32) || (fabKind a == 1 && fabNode a < 128) || (fabKind a == 2 && fabNode a < 16)

/-- A store or atomic may name the address. -/
def fabStoreOk (a : BitVec 64) : Bool := fabLoadOk a && fabKind a != 1

/-- The location of a pool or host address; a peer's windows have locations of their own that hold nothing. -/
def fabLoc (a : BitVec 64) : Nat :=
  match fabKind a with
  | 0 => poolLoc (fabNode a) (fabOff a)
  | 2 => hostLoc (fabNode a) (fabOff a)
  | _ => 2 ^ 62 + fabNode a * 2 ^ 52 + fabOff a

/-- The number under which a target's manner of answering is kept: pool n, 64 + host n, 128 + package n. -/
def fabNodeKey (a : BitVec 64) : Nat := fabNode a + (match fabKind a with | 0 => 0 | 2 => 64 | _ => 128)

/-- The checks of a fabric access, alignment first (R122, R130). -/
def State.fabTrap (s : State) (ts : List Thread) (a : BitVec 7) (size : Nat) (okay : BitVec 64 → Bool) : Option TrapReq :=
  let cause (t : Thread) : Nat := if s.pairNat t a % size != 0 then 0x06 else if okay (s.srcPair t a) then 0 else 0x08
  let bad := ts.filter fun t => cause t != 0
  bad.head?.map fun t => { TrapReq.of (cause t) with mask := some (laneMask bad), space := 1, addr := s.srcPair t a }

/-! ### Copies in the L1 (R135) -/

/-- The number of the sector of a fabric address. -/
def fabSec (a : BitVec 64) : Nat := a.toNat / 64

/-- A core's copy of a fabric sector, for the context that fetched it. -/
def State.fabOf (s : State) (core c sec : Nat) : Option FabSec := s.fab.find? fun e => e.core == core && e.ctx == c && e.sec == sec

/-- Lay the bytes of a core's stores over its copy of a sector, if it holds one. -/
def State.fabPatch (s : State) (o : Op) : State :=
  { s with fab := s.fab.map fun e =>
      if e.core == o.agent && e.ctx == o.ctx && e.sec == fabSec o.addr then
        { e with data := maskBytes (maskAllowed o.mask e.syn) o.data e.data, syn := maskSyn o.mask e.syn } else e }

/-- Drop a core's copy of a sector. -/
def State.fabDrop (s : State) (core c sec : Nat) : State :=
  { s with fab := s.fab.filter fun e => !(e.core == core && e.ctx == c && e.sec == sec) }

/-- Keep a copy of a sector as its target holds it, with the core's own stores still on their way laid over it (R133); none
where an atomic of the core is on its way. -/
def State.fabKeep (s : State) (o : Op) (data : List Byte) (syn : List (BitVec 16)) : State :=
  let mine := s.ops.filter fun x => x.space == 1 && x.agent == o.agent && fabSec x.addr == fabSec o.addr
  if mine.any fun x => x.kind == .atomic then s
  else
    let s := s.fabDrop o.agent o.ctx (fabSec o.addr)
    let locs := (List.range 4).map fun i => o.loc / 64 * 64 + 16 * i
    let copy : FabSec := { core := o.agent, ctx := o.ctx, sec := fabSec o.addr, data := data, syn := syn, rel := s.relAt locs }
    let s := { s with fab := s.fab ++ [copy] }
    (mine.filter fun x => x.kind == .store && !x.waits.isEmpty).foldl State.fabPatch s

/-! ### Sending (R353, R360) -/

/-- A fabric request leaves on the port it takes; one that no port reaches is refused (R353, R360). -/
def State.fabSend (s : State) (o : Op) : State :=
  let s := s.askNode o.ctx (fabNodeKey o.addr)
  match s.portTo (fabKind o.addr) (fabNode o.addr) (fabOff o.addr) with
  | none => (s.noteOp o fabLinkLost).refuseOp o
  | some p => (s.modOp o.id fun x => { x with port := p, via := p :: x.via }).post [.flitReceive p true o.id]

/-- A thread's fabric operation. -/
def State.fabOp (s : State) (k : OpKind) (fb : Bool) (a : BitVec 7) (size rtype : Nat) (t : Thread) : Op :=
  let x := s.srcPair t a
  { s.opOf t k (t.sel fb) with
    space := 1, loc := fabLoc x, addr := x, size := size, rtype := rtype, lt := t.relSys, due := some (s.remoteDue (s.ctxOf t.tid)) }

/-- The fields of a tag that name the node of a pool or host address. -/
def fabNodeBits (a : BitVec 64) : BitVec 64 := if fabKind a == 1 then 0 else nodeBits (fabLoc a)

/-- The hops of a granule on its way from a fabric address to a die (Table 9.3). -/
def State.fabWay (s : State) (a : BitVec 64) (die : Nat) : BitVec 64 :=
  fabNodeBits a ||| (match s.portTo (fabKind a) (fabNode a) (fabOff a) with
    | some p => portBits p ||| s.bndBits (portDie p) die
    | none => 0)

/-- The first failed granule of an access to a fabric sector, as a poison mark: checked at the core, where a timeout's marker may stand in a
reply but not in a copy (R202), or by the atomic unit of the node. -/
def State.fabPoisonOf (s : State) (o : Op) (reply : Bool) (data : List Byte) (syn : List (BitVec 16)) : Option Poison :=
  let hops := if o.kind == .atomic then tagBase 3 ||| fabNodeBits o.addr else tagBase 0 ||| s.fabWay o.addr (coreDie o.agent)
  (badGranule reply (o.loc % 64) o.size data syn).map fun g =>
    { reg := 0, space := 1, addr := o.addr, syn := syn.getD g 0, tag := tagJoin hops (s.tagAt (o.loc / 64 * 64 + 32 * g)) }

/-- One thread's fabric load: from the core's copy, or from the target. -/
def State.fabLoad (s : State) (o : Op) : State :=
  let o := { o with id := s.nextId }
  let s := s.begin o
  match (if o.rtype == 3 then none else s.fabOf o.agent o.ctx (fabSec o.addr)) with
  | some e =>
    let s := s.modOp o.id fun x => { x with fill := (e.data.drop (o.loc % 64)).take o.size, poison := s.fabPoisonOf o false e.data e.syn }
    let s := (s.leaveRead o.lt [o.loc]).modThread o.uid (Thread.takeSys e.rel)
    s.post [.loadReturn o.id]
  | none => s.fabSend o

/-- `LDF` (R132, R135); `.ASPLIT` and the number of threads are kept with the operation (R142). -/
def execLdf (f : FLdf) (s : State) : Out :=
  let size := widthBytes f.w
  let ts := s.executing f.pred
  match s.fabTrap ts f.a size fabLoadOk with
  | some q => s.trapOut q
  | none => .next (ts.foldl (fun s t => s.fabLoad
      { s.fabOp .load f.fb f.a size f.rtype.toNat t with
        regs := s.phys t f.data.toNat (widthRegs f.w), aop := f.asplit.toNat, args := [BitVec.ofNat 32 ts.length] }) s).advance

/-- One merged fabric store: the core's copy takes it at once, and it writes through to its target (R135). -/
def State.fabStore (s : State) (o : Op) : State := (s.fabPatch o).fabSend o

/-- `STF` (R132, R135). -/
def execStf (f : FG) (s : State) : Out :=
  let size := widthBytes f.w
  let ts := s.executing f.pred
  match s.fabTrap ts f.a size fabStoreOk with
  | some q => s.trapOut q
  | none =>
    let ops := ts.map fun t => { s.fabOp .store f.fb f.a size f.rtype.toNat t with data := s.storeBytes t f.data size }
    .next (s.sendStores State.fabStore ops).advance

/-- `ATF`, in ascending home lane; the core's copy of the sector goes (R138, R139; R135 says nothing of atomics, assumption 82). -/
def execAtf (f : FA) (s : State) : Out :=
  let ts := s.executing f.pred
  match s.fabTrap ts f.a (atomicBytes f) fabStoreOk with
  | some q => s.trapOut q
  | none => .next (ts.foldl (fun s t =>
      let o := { s.fabOp .atomic f.fb f.a (atomicBytes f) 3 t with
        id := s.nextId, aop := f.aop.toNat, args := s.atomicArgs t f, regs := s.phys t f.data.toNat (atomicBytes f / 4) }
      ((s.begin o).fabDrop o.agent o.ctx (fabSec o.addr)).fabSend o) s).advance

/-! ### At the target (R138, R197, R359) -/

/-- The 64 bytes of the sector of a fabric request; a peer's published bytes come from outside (R363). -/
def State.targetData (s : State) (o : Op) : State × List Byte × List (BitVec 16) :=
  let base := o.loc / 64 * 64
  if fabKind o.addr == 1 then (s.draw, (List.range 64).map (Config.peerByte s.freeCtr), [0, 0])
  else (s, s.bytes base 64, s.syns base 64)

/-- A merged store at its target: a granule covered in part is written only where the old one is good (R136, R137). -/
def State.targetStore (s : State) (o : Op) : State :=
  let base := o.loc / 64 * 64
  let syn := s.syns base 64
  let m := maskAllowed o.mask syn
  let s := s.oweMerge o syn
  let s := s.setBytes base (maskBytes m o.data (s.bytes base 64))
  (List.range 2).foldl (fun s g => if o.mask.extractLsb' (32 * g) 32 == BitVec.allOnes 32 then
      (s.setSyn (base + 32 * g) 0).setTag (base + 32 * g) 0 else s) s

/-- An atomic at its target: the old bytes, and the state with the new ones. -/
def State.targetAtomic (s : State) (o : Op) : State × List Byte × Option Poison :=
  let base := o.loc / 64 * 64
  let r := atomicOn o (s.bytes base 64)
  match s.fabPoisonOf o false (s.bytes base 64) (s.syns base 64) with
  | some q => (s, r.2, some q)
  | none => ((s.setBytes base r.1).setTag o.loc 0, r.2, none)

/-- The bytes that an operation reaches at its target: of a merged store those of its mask, by 16-byte units. -/
def Op.units (o : Op) : List Nat :=
  if o.kind == .store then ((List.range 4).filter fun i => o.mask.extractLsb' (16 * i) 16 != 0).map fun i => o.loc / 64 * 64 + 16 * i
  else [o.loc]

/-- The last `.SYSTEM` releases on a core, whatever thread's. -/
def State.coreSys (s : State) (core : Nat) : Nat :=
  s.threads.foldl (fun m t => if s.coreOf t.tid == core then max m t.relSys else m) 0

/-- What an operation takes from fabric memory and leaves there in the order of `.SYSTEM` releases and acquires (R151, R157, R170,
assumption 62). A copy that an L1 keeps serves all of its core. -/
def State.passSys (s : State) (o : Op) : State :=
  let locs := o.units
  let us := (s.standsFor o).map Op.uid
  match o.kind with
  | .store => (s.leaveRel o.lt locs).modThreads us (Thread.takeSys (s.readAt locs))
  | .atomic => (s.leave o.lt o.lt locs).modThreads us (Thread.takeSys (max (s.relAt locs) (s.readAt locs)))
  | .load => (s.leaveRead (if o.rtype == 3 then o.lt else s.coreSys o.agent) locs).modThreads us (Thread.takeSys (s.relAt locs))
  | _ => s

/-- A request reaches a target that answers, is performed there and its reply comes back. -/
def State.perform (s : State) (o : Op) : State :=
  let s := (s.countOp o 0).passSys o
  match o.kind with
  | .store => (s.targetStore o).ackAll o
  | .atomic =>
    let r := s.targetAtomic o
    (r.1.modOp o.id fun x => { x with fill := r.2.1, poison := r.2.2, again := none }).post [.atomicReturn o.id]
  | .load =>
    let r := s.targetData o
    let s := if o.rtype == 3 then r.1 else r.1.fabKeep o r.2.1 r.2.2
    (s.modOp o.id fun x => { x with fill := (r.2.1.drop (o.loc % 64)).take o.size, poison := s.fabPoisonOf o true r.2.1 r.2.2 }).post
      [.loadReturn o.id]
  | _ => s

/-- The reply of an operation is already on its way to its core. -/
def State.answered (s : State) (id : Nat) : Bool :=
  s.agenda.any fun i => match i with
    | .loadReturn k | .atomicReturn k | .storeAck k | .ownedGrant k | .fillReply k | .writeThroughAck k => k == id
    | _ => false

/-! ### Publication chunks on their way (R365, R368) -/

/-- The subscription entry i of a context (Table 24.6). -/
def State.subEntry (s : State) (c i : Nat) : BitVec 64 := match s.ctx c with | some x => SMap.get 0 x.subs i | none => 0

/-- A node's port toward a subscriber (R352). -/
def subPort (e : BitVec 64) : Nat := if e.getLsbD 62 then 128 + field e 61 55 else field e 61 55

/-- A node serves a subscriber: the package's link to it and its link to the subscriber carry PUB (R368). -/
def State.nodeServes (s : State) (c node i : Nat) : Bool :=
  s.carries node && !(s.link node).pubs && SMap.get true s.peerPub (node * 256 + subPort (s.subEntry c i))

/-- The nodes in the order of Table 24.1 for a chunk, from a number on. -/
def nodesFrom (n : Nat) : List Nat := (List.range 32).map fun i => (n + i) % 32

/-- `DOFF` and `VOFF` of a publication's record, kept with its operation behind `SUBS`. -/
def Op.pubDoff (o : Op) : Nat := leNat (bytesOf ((o.args.drop 1).take 2))
/-- See `pubDoff`. -/
def Op.pubVoff (o : Op) : Nat := leNat (bytesOf ((o.args.drop 3).take 2))

/-- A subscriber as a chunk names it: the entry, its port at the nodes, `TCTX` and `RWIN` (Table 24.6). -/
def State.target (s : State) (c i : Nat) : Nat × Nat × Nat × Nat :=
  let e := s.subEntry c i
  (i, subPort e, field e 54 49, field e 48 45)

/-- Send one chunk to subscribers: through one node that serves them all, else each through the first that serves it (R368). -/
def State.sendChunk (s : State) (o : Op) (subs : List Nat) (k from_ : Nat) : State :=
  let bs := (o.data.drop (4096 * k)).take 4096
  let ys := (o.syn.drop (128 * k)).take 128
  let out (e : Nat × List Nat) : OutMsg := .pubChunk e.1 (e.2.map (s.target o.ctx)) o.id k o.pubDoff o.pubVoff bs ys
  let to_ : List (Nat × List Nat) := match (nodesFrom from_).find? fun n => subs.all fun i => s.nodeServes o.ctx n i with
    | some n => [(n, subs)]
    | none => subs.filterMap fun i => ((nodesFrom from_).find? fun n => s.nodeServes o.ctx n i).map fun n => (n, [i])
  { s with outbox := s.outbox ++ to_.map out }.modOp o.id fun x => { x with via := to_.map Prod.fst ++ x.via }

/-- The subscribers that a publication has acknowledged, and those that have answered: bits 31:0 and 63:32 of `mask`. -/
def Op.pubAcked (o : Op) : Word := o.mask.extractLsb' 0 32
/-- See `pubAcked`. -/
def Op.pubAnswered (o : Op) : Word := o.mask.extractLsb' 32 32

/-! ### Links (R354-R358, R360) -/

/-- Requests that a port still owes: the fabric's, and those that homes have sent to pool and host frames. -/
def State.owedOn (s : State) (p : Nat) : List Op :=
  s.ops.filter fun o => o.port == p && o.via.contains p && !o.done && (o.uid == 0 || o.kind != .store || o.space == 0) && o.kind != .pubf
    && !s.answered o.id

/-- A request's target is pool memory (Table 24.1). -/
def Op.toPool (o : Op) : Bool := if o.space == 1 then fabKind o.addr == 0 else !isHost o.loc

/-- The port that a request now takes. -/
def State.portNow (s : State) (o : Op) : Option Nat :=
  if o.space == 1 then s.portTo (fabKind o.addr) (fabNode o.addr) (fabOff o.addr) else s.portOf o.loc

/-- A request goes out again on a port, in place of the one on its way: a home's, from its home (R359, R360). -/
def State.resend (s : State) (o : Op) (p : Nat) : State :=
  let s := s.modOp o.id fun x => { x with port := p, via := p :: x.via, again := none, sent := s.tick }
  { s with agenda := s.agenda.filter fun i => match i with | .flitReceive _ _ k | .flitResend _ k => k != o.id | _ => true }.post
    (if o.space == 1 then [.flitReceive p true o.id] else o.req.message o.id)

/-- The chunks that the package has sent to a node and that have subscribers which have not answered go to the next nodes (R360, R368). -/
def State.resendChunks (s : State) (p : Nat) : State :=
  s.outbox.foldl (fun s m => match m with
    | .pubChunk n to_ op k _ _ _ _ =>
      (match s.op op with
       | some o =>
         let left := (to_.map fun e => e.1).filter fun i => !o.pubAnswered.getLsbD i
         if n == p && o.kind == .pubf && !o.done && !left.isEmpty then s.sendChunk o left k ((p + 1) % 32) else s
       | none => s)
    | _ => s) s

/-- The requests that a port owes go to the ports that R353 now gives; those of a pool node stay in its replay buffer (R360). -/
def State.reroute (s : State) (p : Nat) : State :=
  if s.carries p then s
  else
    let s := (s.owedOn p).foldl (fun s o =>
      if o.toPool then s
      else match s.portNow o with
        | some q => s.resend o q
        | none => s) s
    s.resendChunks p

/-- `LINK_REROUTE` (R360). -/
def execLinkReroute (port : Nat) (s : State) : Out := .next (s.reroute port)

/-- The groups with a request sent on a link that has failed (R372). -/
def State.linkLost (s : State) (p : Nat) : State :=
  (s.ops.filter fun o => o.via.contains p && !o.done).foldl (fun s o => s.noteOp o fabLinkLost) s

/-- A link leaves UP or DEGRADED: its owed requests move before anything else is sent (R355, R360). -/
def State.leaveUp (s : State) (p : Nat) (st : LinkState) : State :=
  let s := s.modLink p fun l => { l with state := st, since := s.tick, limit := s.retrain, fails := [], recent := [] }
  let s := if st == .failed then s.linkLost p else s
  { s with dues := .linkReroute p :: s.dues }

/-- A flit has failed its CRC: counted, and where it is its eighth failure in a row, or the link's sixteenth within a millisecond, the
link retrains (R354). -/
def State.badFlit (s : State) (p op : Nat) : State :=
  let recent := s.tick :: ((s.link p).recent.filter fun t => s.tick < t + 1000 * Config.ticksPerUs)
  let n := SMap.get 0 (s.link p).fails op + 1
  let s := s.modLink p fun l => { l with crce := satLink l.crce, fails := SMap.put 0 op n l.fails, recent := recent }
  if s.carries p && (n == 8 || 16 ≤ recent.length) then s.leaveUp p .retraining else s

/-- `FLIT_RECEIVE`: a good flit brings its request to its target, once (R359); a bad one is asked for again (R354). A flit of a
link that does not carry requests stays in its replay buffer (R360). -/
def execFlitReceive (port : Nat) (crcOk : Bool) (op : Nat) (s : State) : Out :=
  if !crcOk then
    let s := s.badFlit port op
    .next { s with agenda := .flitResend port op :: s.agenda }
  else
    let s := s.modLink port fun l => { l with fails := SMap.put 0 op 0 l.fails }
    match s.op op with
    | none => .next (s.post [.lateReplyDrop port])
    | some o =>
      if o.space != 1 || o.done || o.port != port || !s.carries port || s.answered op then .next s
      else match s.answerOf (fabNodeKey o.addr) op with
        | 0 => .next (s.perform o)
        | 1 => .next (s.refuseOp o)
        | _ => .next s

/-- `FLIT_RESEND`: from the link replay buffer, ahead of what was sent after it (R354, R362). -/
def execFlitResend (port op : Nat) (s : State) : Out :=
  let s := s.modLink port fun l => { l with rply := satLink l.rply }
  .next { s with agenda := .flitReceive port true op :: s.agenda }

/-- `LATE_REPLY_DROP` (R361). -/
def execLateReplyDrop (port : Nat) (s : State) : Out :=
  .next (s.modLink port fun l => { l with late := satLink l.late })

/-- Lanes in use: all eight, or the lowest four or two of the good ones (R356; which ones is assumption 19). -/
def lanesInUse (good : Nat) : Nat :=
  let l := (List.range 8).filter fun i => good / 2 ^ i % 2 == 1
  let n := if l.length == 8 then 8 else if 4 ≤ l.length then 4 else if 2 ≤ l.length then 2 else 0
  (l.take n).foldl (fun m i => m + 2 ^ i) 0

/-- Flits of a receive buffer, 32 for each lane in use, less what defects have taken (R356, R357). -/
def Link.buffer (l : Link) : Nat := 32 * popCount 8 l.lanes - l.bufCut

/-- The two tests of R357: PUB suspended, and then the link failed. -/
def State.testBuffer (s : State) (p : Nat) : State :=
  let s := s.modLink p fun l => { l with pubs := l.buffer < 88 }
  if (s.link p).buffer < 56 then s.leaveUp p .failed else s

/-- `LINK_TRAINING_START` (Table 24.2). -/
def execLinkTrainingStart (port : Nat) (s : State) : Out :=
  match (s.link port).state with
  | .down | .failed =>
    .next (if s.fencedDie (portDie port) then s
      else s.modLink port fun l => { l with state := .training, since := s.tick, limit := s.retrain, lanes := 0, bufCut := 0, pubs := false })
  | _ => .next s

/-- Requests held for a link go out again once it carries them, or other ports do. -/
def State.release24 (s : State) (p : Nat) : State :=
  let s := (s.owedOn p).foldl (fun s o => s.resend o p) s
  (List.range 32).foldl (fun s q => if q == p || s.carries q then s else s.reroute q) s

/-- `LINK_TRAINING_DONE`, with the good lanes as a mask (Table 24.2, R356, R357). -/
def execLinkTrainingDone (port lanes : Nat) (s : State) : Out :=
  match (s.link port).state with
  | .training | .retraining =>
    let lanes := s.lanesLeft port lanes
    let good := popCount 8 lanes
    if good < 2 then .next (s.leaveUp port .failed)
    else
      let s := s.modLink port fun l => { l with state := if good == 8 then .up else .degraded, lanes := lanesInUse lanes, since := s.tick }
      let s := s.testBuffer port
      .next (if s.carries port then s.release24 port else s)
  | _ => .next s

/-- `RETRAIN_LIMIT_EXPIRY` (Table 24.2). -/
def execRetrainLimitExpiry (port : Nat) (s : State) : Out :=
  match (s.link port).state with
  | .training | .retraining => .next (s.leaveUp port .failed)
  | _ => .next s

/-- `BUFFER_DEFECT`: 32 flits less for each lane group lost, and the tests again (R357). -/
def execBufferDefect (port groups : Nat) (s : State) : Out :=
  let s := s.modLink port fun l => { l with bufCut := l.bufCut + 32 * groups }
  match (s.link port).state with
  | .up | .degraded | .retraining => .next (s.testBuffer port)
  | _ => .next s

/-- `LINK_STATE_REPORT`: whether the link at a node's port carries publications (R358, R368). -/
def execLinkStateReport (node port : Nat) (up pub : Bool) (s : State) : Out :=
  .next { s with peerPub := SMap.put true (node * 256 + port) (up && pub) s.peerPub }

/-! ### Timeouts and lost writes (R141, R361, R371) -/

/-- A class-7 record of an operation. -/
def State.fabRecord (s : State) (x : Op) (kind : Nat) (detail : List Byte) : State :=
  let from_ := x.origin.getD (s.teamIndex x.tid, match s.thread x.uid with | some t => t.slot | none => 0)
  s.record x.ctx { FRec.blank 7 kind with
    team := from_.1, addr := x.addr.toNat, pc := x.pkt.toNat, die := coreDie x.agent, unit := x.agent, slot := from_.2, detail := detail }

/-- What a timed-out access of a thread leaves: a load or atomic all ones with the marker hem, a store no acknowledgement (R141). -/
def State.timedOut (s : State) (x : Op) : State :=
  match x.kind with
  | .load | .atomic => s.complete { x with poison := none } (x.regs.map fun _ => BitVec.allOnes 32)
  | _ => s.finish x

/-- A write that was not answered may have been performed (R141, R361). -/
def State.perhaps (s : State) (o : Op) : State :=
  if isHbm o.loc || !(o.kind == .store || o.kind == .atomic) || (o.space == 1 && fabKind o.addr == 1) then s
  else if Config.lateWrite s.freeCtr then
    (if o.kind == .store then s.draw.targetStore { o with waits := [] } else (s.draw.targetAtomic o).1)
  else s.draw

/-- Take a global request out of the entry that waits for it: what waited behind it is served anew. -/
def State.abandon (s : State) (o : Op) : State :=
  match s.l1Of o.agent o.sec with
  | none => s
  | some e =>
    if !e.held.contains o.id then s
    else
      let rest := e.held.filter (· != o.id)
      if o.req == .none then s.modL1 o.agent o.sec fun e => { e with held := rest }
      else
        let s := match e.st with
          | .VV | .VO => s.modL1 o.agent o.sec fun e => { e with st := if e.pend.isEmpty then .V else .P, held := [] }
          | .IV | .IO => s.dropL1 o.agent o.sec
          | _ => s.modL1 o.agent o.sec fun e => { e with held := [] }
        s.replay rest

/-- End an access that got no reply: one record and one count of timeouts for each thread's access (R141, R130). -/
def State.giveUp (s : State) (o : Op) (kind : Nat) (note : State → Nat → State) : State :=
  let xs := (s.standsFor o).filter fun x => x.uid != 0
  let s := s.dropOp o.id
  let s := if o.space == 0 then s.abandon o else s
  let s := { s with l1 := s.l1.map fun e => { e with pend := e.pend.filter fun (p : Nat × Nat) => p.2 != o.id } }
  xs.foldl (fun s x => (note (s.fabRecord x kind []) x.uid).timedOut x) s

/-- `REMOTE_TIMEOUT`: a timed-out or refused access completes; a reply already on its way is awaited (R130, R141). -/
def execRemoteTimeout (op : Nat) (s : State) : Out :=
  match s.op op with
  | none => .next s
  | some o =>
    if s.answered op then .next (s.modOp op fun x => { x with due := none })
    else if o.done then .next (s.giveUp o 2 State.noteTimeout)
    else .next ((s.perhaps o).giveUp o 1 State.noteTimeout)

/-- `LOST_WRITE`: the write is declared lost (R371). -/
def execLostWrite (op : Nat) (s : State) : Out :=
  match s.op op with
  | none => .next s
  | some o =>
    if s.answered op then .next (s.modOp op fun x => { x with again := none })
    else .next ((s.perhaps o).giveUp o 3 fun s u => s.noteFabst u fabLostWrite)

/-! ### Exports (R363) -/

/-- `V` of an export or receive window entry (Table 24.5). -/
def winV (e : BitVec 256) : Bool := e.getLsbD 0
/-- `BASE` of a window entry as an address. -/
def winBase (e : BitVec 256) : Nat := field e 63 16 * 65536
/-- `SIZE` of a window entry in bytes. -/
def winSize (e : BitVec 256) : Nat := field e 95 64 * 65536
/-- `PUBN` of a receive window. -/
def winPubn (e : BitVec 256) : Nat := field e 103 96

/-- One sector read as a `.UC` load at its home, for a core, by a requester with an LT: its `rts` rises (R177). A copy in RD of that core
gives the bytes stored there. -/
def State.sectorRead (s : State) (c core lt loc : Nat) : State × List Byte × List (BitVec 16) :=
  let sec := sectorKey c loc
  let s := s.pull sec
  let h := s.homeOf sec
  let r := max h.rts (max lt h.wts)
  let s := (s.putHome { h with rts := r }).noteHome sec r
  match (s.l1Of core sec).filter fun e => e.st == .RD with
  | some e => (s, maskBytes e.stored e.data (s.homeData sec),
      (List.range 2).map fun g => if e.stored.extractLsb' (32 * g) 32 != 0 then e.syn.getD g 0 else (s.homeSyn sec).getD g 0)
  | none => (s, s.homeData sec, s.homeSyn sec)

/-- One sector of a `.UC` load, after which a core's LT is at least the data's `wts`. -/
def State.ucSector (s : State) (c core lt loc : Nat) : State × List Byte × List (BitVec 16) :=
  let r := s.sectorRead c core lt loc
  (r.1.raiseLt core (r.1.homeOf (sectorKey c loc)).wts, r.2)

/-- A `.UC` load of n bytes within one page, sector by sector: the bytes, and the syndromes of the granules that they lie in. -/
def State.ucLoad (read : State → Nat → State × List Byte × List (BitVec 16)) (s : State) (loc n : Nat) : State × List Byte × List (BitVec 16) :=
  let r := (List.range ((loc % 64 + n + 63) / 64)).foldl (fun (r : State × List Byte × List (BitVec 16)) i =>
    let x := read r.1 (loc / 64 * 64 + 64 * i)
    (x.1, r.2.1 ++ x.2.1, r.2.2 ++ x.2.2)) (s, [], [])
  (r.1, (r.2.1.drop (loc % 64)).take n, (r.2.2.drop (loc % 64 / 32)).take ((loc % 32 + n + 31) / 32))

/-- `EXPORT_READ`: a `.UC` read at the home slices with a requester LT of 0, or a refusal (R363); the hems travel with the bytes
(R198). -/
def execExportRead (off : BitVec 48) (size reply : Nat) (s : State) : Out :=
  let c := field off 47 42
  let e := match s.ctx c with | some x => SMap.get 0 x.exprts (field off 41 38) | none => 0
  let at_ := field off 37 0
  let answer (s : State) (refused : Bool) (bs : List Byte) (ys : List (BitVec 16)) : Out :=
    .next { s with outbox := s.outbox ++ [.readReply reply refused bs ys] }
  if !winV e || winSize e < at_ + size then answer s true [] []
  else
    let r := s.locate c 0 (winBase e + at_) false
    match r.2 with
    | none => answer r.1 true [] []
    | some loc => let x := State.ucLoad (·.sectorRead c noAgent 0) r.1 loc size; answer x.1 false x.2.1 x.2.2

/-! ### Publications, at the publisher (R143, R144, R368, R370) -/

/-- `SRC` of a publication record (Table 6.5). -/
def pubSrc (r : List Byte) : Nat := leNat (r.take 8)
/-- `LEN`. -/
def pubLen (r : List Byte) : Nat := leNat ((r.drop 8).take 4)
/-- `SUBS`. -/
def pubSubs (r : List Byte) : BitVec 32 := BitVec.ofNat 32 (leNat ((r.drop 12).take 4))

/-- `DOFF`. -/
def pubDoff (r : List Byte) : Nat := leNat ((r.drop 16).take 8)
/-- `VOFF`. -/
def pubVoff (r : List Byte) : Nat := leNat ((r.drop 24).take 8)

/-- The record's checks (R144). -/
def pubBad (r : List Byte) : Bool :=
  leNat (r.drop 32) != 0 || pubSrc r % 32 != 0 || pubLen r % 32 != 0 || pubLen r < 32 || 2 ^ 22 < pubLen r || pubSubs r == 0

/-- The pages of a range: each page's first address within the range and the bytes there. -/
def pageSpans (va len : Nat) : List (Nat × Nat) :=
  (List.range ((va % 65536 + len + 65535) / 65536)).map fun i =>
    let lo := if i == 0 then va else va / 65536 * 65536 + 65536 * i
    (lo, min (va + len) (va / 65536 * 65536 + 65536 * (i + 1)) - lo)

/-- A `.UC` load of a core from a page, whose target may not answer: then it gives all ones with the marker, one record and one count of
timeouts (R130, R141). -/
def State.pubLoad (s : State) (t : Thread) (lt va loc n : Nat) : State × List Byte × List (BitVec 16) :=
  let c := s.ctxOf t.tid
  if s.reachable loc then State.ucLoad (·.ucSector c (s.coreOf t.tid) lt) s loc n
  else
    let kind := if (s.portOf loc).isNone || s.nodeState loc == 1 then 2 else 1
    let s := if (s.portOf loc).isNone then s.noteFabst t.uid fabLinkLost else s
    ((s.record c { s.recOf t 7 kind with addr := va }).noteTimeout t.uid, List.replicate n 0xFF,
     List.replicate ((loc % 32 + n + 31) / 32) 0xA5A5)

/-- Read a range as `.UC` loads with its syndromes, or the first page fault. -/
def State.readRange (t : Thread) (lt : Nat) : List (Nat × Nat) → State → State × Except Xlate (List Byte × List (BitVec 16))
  | [], s => (s, .ok ([], []))
  | (va, n) :: r, s =>
    let core := s.coreOf t.tid
    let x := s.translate (s.ctxOf t.tid) (some core) (coreDie core) va false
    match x.2 with
    | .fault kind level lo len => (x.1, .error (.fault kind level lo len))
    | .ok loc _ _ =>
      let b := x.1.pubLoad t lt va loc n
      let q := State.readRange t lt r b.1
      (q.1, match q.2 with | .ok (bs, ys) => .ok (b.2.1 ++ bs, b.2.2 ++ ys) | .error e => .error e)

/-- Write the delivery mask of a publication; it stays known until every answer has come (R370). -/
def State.finishPub (s : State) (o : Op) : State :=
  let subs := o.args.headD 0
  let s := if o.pubAcked != subs then s.noteFabst o.uid fabPubPartial else s
  let s := s.complete o [o.pubAcked]
  if o.pubAnswered == subs then s
  else
    let from_ := (s.thread o.uid).map fun t => (s.teamIndex o.tid, t.slot)
    let o' : Op := { o with uid := 0, tid := 0, gid := 0, sel := 15, regs := [], data := [], syn := [], due := none, origin := from_, done := true }
    { s with ops := s.ops ++ [o'] }

/-- Note a subscriber's answer, and finish once every one has answered. -/
def State.pubAnswer (s : State) (o : Op) (sub : Nat) (taken : Bool) : State :=
  let o := { o with mask := o.mask ||| ((1#64 <<< sub) <<< 32) ||| (if taken then 1#64 <<< sub else 0) }
  let s := s.modOp o.id fun _ => o
  if o.pubAnswered == o.args.headD 0 then (if o.done then s.dropOp o.id else s.finishPub o) else s

/-- A publication of one thread begins: its bytes leave, chunk by chunk, and its deadline is set (R144, R368, R370). -/
def State.startPub (f : FPubf) (s : State) (t : Thread) (r : List Byte) (data : List Byte) (syn : List (BitVec 16)) : State :=
  let c := s.ctxOf t.tid
  let subs := pubSubs r
  let sel := (List.range 32).filter fun i => subs.getLsbD i && (s.subEntry c i).getLsbD 63
  let off := (List.range 32).filter fun i => subs.getLsbD i && !(s.subEntry c i).getLsbD 63
  let deadline : Int := (s.windowAt s.tick + 2) * (max 1 s.window : Nat)
  let o := { s.opOf t .pubf (t.sel f.fb) with
    id := s.nextId, space := 1, addr := s.srcPair t f.a, regs := s.phys t f.data.toNat 1,
    args := subs :: wordsOf (natLe 8 (pubDoff r) ++ natLe 8 (pubVoff r)), data := data, syn := syn,
    wts := deadline.toNat, due := some (s.tickOfNs deadline) }
  let s := s.begin o
  let s := (sel.map fun i => subPort (s.subEntry c i)).foldl (fun s p =>
    s.askNode c (if 128 ≤ p then 64 + (p - 128) else 128 + p)) s
  let s := (List.range ((data.length + 4095) / 4096)).foldl (fun s k => if sel.isEmpty then s else s.sendChunk o sel k (k % 32)) s
  off.foldl (fun s i => match s.op o.id with | some x => s.pubAnswer x i false | none => s) s

/-- The publication of one thread, whose record lies at a location (R144). A record that fails its own check counts as malformed
(assumption 29). -/
def State.publish (f : FPubf) (s : State) (p : Thread × Nat) : State :=
  let t := p.1
  let c := s.ctxOf t.tid
  let core := s.coreOf t.tid
  let lt := s.orderTime core
  let va := (s.srcPair t f.a).toNat
  let rec_ := s.pubLoad t lt va p.2 64
  let r := rec_.2.1
  let s := rec_.1
  if rec_.2.2.any (· != 0) || pubBad r then
    let s := if isRemote p.2 then s else s.reportBad c p.2 64 core 0
    let s := s.modThread t.uid fun t => t.setV (s.win t.tid) f.data.toNat 0
    s.record c { s.recOf t 7 2 with addr := va }
  else
    let x := State.readRange t lt (pageSpans (pubSrc r) (pubLen r)) s
    match x.2 with
    | .error (.fault kind _ lo len) => x.1.parkThreads [t] kind lo len 0
    | .error _ => x.1
    | .ok (data, syn) => State.startPub f x.1 t r data syn

/-- `PUBF`: a release at `.DEVICE` for the threads' groups, then each executing thread publishes (R144). -/
def execPubf (f : FPubf) (s : State) : Out :=
  let ts := s.executing f.pred
  match s.pairTrap 0 ts f.a 64 with
  | some q => s.trapOut q
  | none =>
    if (s.fenceGroups f.pred).any fun g => !s.released g 3 then .next s.stallFence
    else
      let s := s.passFence f.pred true false 3
      let r := s.reach false (fun t => s.pairNat t f.a) ts
      .next (r.2.foldl (State.publish f) r.1).advanceRest

/-- `PUB_REFUSED_RETURN`: the chunk goes to the next node for that subscriber (R368). -/
def execPubRefusedReturn (op sub chunk node : Nat) (s : State) : Out :=
  match s.op op with
  | some o => if o.kind == .pubf && !o.done then .next (s.sendChunk o [sub] chunk ((node + 1) % 32)) else .next s
  | none => .next s

/-- `PUB_ACK_RECEIVE`: before the mask is written the answer counts; after it, an acknowledgement is late (R370). -/
def execPubAckReceive (op sub : Nat) (taken : Bool) (s : State) : Out :=
  match s.op op with
  | none => .next s
  | some o =>
    if o.kind != .pubf then .next s
    else
      let s := if o.done && taken then
          (s.modLink (sub % 32) fun l => { l with late := satLink l.late }).fabRecord o 5
            (natLe 1 sub ++ natLe 1 (field (s.subEntry o.ctx sub) 48 45))
        else s
      .next (s.pubAnswer o sub taken)

/-- `PUB_DEADLINE` (R370). -/
def execPubDeadline (op : Nat) (s : State) : Out :=
  match s.op op with
  | some o => if o.kind == .pubf && !o.done then .next (s.finishPub o) else .next s
  | none => .next s

/-! ### Publications, at a subscriber (R364, R369) -/

/-- The window's checks of a publication. -/
def State.pubAllowed (s : State) (p : PubChunk) : Bool :=
  let e := match s.ctx p.ctx with | some x => SMap.get 0 x.rwins p.rwin | none => 0
  winV e && (winPubn e == 0xFF || winPubn e == p.publisher) && p.doff + p.len ≤ winSize e && p.voff + 8 ≤ winSize e &&
  (p.voff + 8 ≤ p.doff || p.doff + p.len ≤ p.voff)

/-- Write bytes of a publication within one page at their home as a write-through (R369). They keep their granule's syndrome: a granule that
they fill takes it, and bad bytes spoil those that they fill in part (assumption 79). None on a page fault, on a page outside local HBM
(R364), and where a merge meets a bad granule. -/
def State.landPart (s : State) (c va : Nat) (bs : List Byte) (syn : BitVec 16) (lt : Nat) : State × Option Nat :=
  let r := s.locate c 0 va true
  match r.2.filter isHbm with
  | none => (r.1, none)
  | some loc =>
    let w := r.1.ucWrite c loc bs lt
    let whole := loc % 32 == 0 && bs.length == 32
    let gs := (List.range ((loc % 32 + bs.length + 31) / 32)).map fun i => loc / 32 * 32 + 32 * i
    if !w.2.2 then (w.1, none)
    else if !whole && syn == 0 then (w.1, some w.2.1)
    else (gs.foldl (fun s g => (s.setSyn g syn).patchGrants (sectorKey c g)) w.1, some w.2.1)

/-- Write one granule of a publication: at a place that is no multiple of 32 it may lie on two pages. -/
def State.landGranule (s : State) (c va : Nat) (bs : List Byte) (syn : BitVec 16) (lt : Nat) : State × Option Nat :=
  (pageSpans va bs.length).foldl (fun (r : State × Option Nat) p =>
    match r.2 with
    | none => r
    | some lt => r.1.landPart c p.1 ((bs.drop (p.1 - va)).take p.2) syn lt) (s, some lt)

/-- Land a chunk's granules in ascending order, LT rising with each acknowledgement. -/
def State.landChunk (s : State) (c va : Nat) (bs : List Byte) (syn : List (BitVec 16)) (lt : Nat) : State × Option Nat :=
  (List.range ((bs.length + 31) / 32)).foldl (fun (r : State × Option Nat) i =>
    match r.2 with
    | none => r
    | some lt => r.1.landGranule c (va + 32 * i) ((bs.drop (32 * i)).take 32) (syn.getD i 0) lt) (s, some lt)

/-- Raise a publication's counter by 1, an atomic at its home with the publication's LT: false where its page faults, lies outside local HBM
(R364), or its granule fails its check, which stops the counter (R138, R369). -/
def State.raiseCounter (s : State) (c va lt : Nat) : State × Bool :=
  let r := s.locate c 0 va true
  match r.2.filter isHbm with
  | none => (r.1, false)
  | some loc =>
    let b := r.1.ucRead c loc 8
    if b.2.2 then ((b.1.ucWrite c loc (natLe 8 (leNat b.2.1 + 1)) lt).1, true)
    else (b.1.reportBad c loc 8 0 3, false)

/-- A publication's number at its publisher. -/
def InPub.is (p : PubChunk) (x : InPub) : Bool := x.publisher == p.publisher && x.number == p.number

/-- Replace what is known of a publication. -/
def State.putPub (s : State) (p : PubChunk) (x : InPub) : State := { s with inPubs := (s.inPubs.filter fun y => !InPub.is p y) ++ [x] }

/-- A subscriber's class-7 record. -/
def State.pubRecord (s : State) (p : PubChunk) (kind : Nat) : State :=
  s.record p.ctx { FRec.blank 7 kind with addr := p.doff, detail := natLe 1 0 ++ natLe 1 p.rwin }

/-- Answer the publisher. -/
def State.answerPub (s : State) (p : PubChunk) (taken : Bool) : State := { s with outbox := s.outbox ++ [.pubAnswer p.publisher p.number taken] }

/-- Answer the publisher; the answer is remembered for as long as a packet of the publication may live (R359). -/
def State.closePub (s : State) (p : PubChunk) (x : InPub) (taken : Bool) : State :=
  (s.putPub p { x with closed := some (s.tick, some taken) }).answerPub p taken

/-- Ticks for which a tag is remembered, 64 ms (R359). -/
def tagTicks : Nat := 64000 * Config.ticksPerUs

/-- `PUB_CHUNK_RECEIVE` (R369): the check, the bytes, and with the last byte the counter, if the deadline has not come. A chunk that has been
taken is not taken again, and one of a publication that is over is answered as that was (R359). -/
def execPubChunkReceive (p : PubChunk) (s : State) : Out :=
  let s := { s with inPubs := s.inPubs.filter fun x => match x.closed with | some o => s.tick < o.1 + tagTicks | none => true }
  let x := (s.inPubs.find? (InPub.is p)).getD
    { publisher := p.publisher, number := p.number, ctx := p.ctx, rwin := p.rwin, seen := [], got := 0, lt := 0, closed := none }
  match x.closed with
  | some o => .next (match o.2 with | some taken => s.answerPub p taken | none => s)
  | none =>
    if x.seen.contains p.place then .next s
    else if !s.pubAllowed p then .next ((s.pubRecord p 2).closePub p x false)
    else
      let base := match s.ctx p.ctx with | some c => winBase (SMap.get 0 c.rwins p.rwin) | none => 0
      let w := s.landChunk p.ctx (base + p.doff + p.place) p.bytes p.syn x.lt
      let y := { x with seen := p.place :: x.seen, got := x.got + p.bytes.length }
      match w.2 with
      | none => .next ((w.1.pubRecord p 2).putPub p { y with closed := some (s.tick, none) })
      | some lt =>
        if y.got < p.len then .next (w.1.putPub p { y with lt := lt })
        else if w.1.fabNs w.1.tick < p.deadline then
          let z := w.1.raiseCounter p.ctx (base + p.voff) lt
          .next (if z.2 then z.1.closePub p y true else (z.1.pubRecord p 2).closePub p y false)
        else .next ((w.1.pubRecord p 1).closePub p y false)

/-- `PTP_SYNC`: fabric time is adjusted, and with it the ticks of the deadlines kept (R366). -/
def execPtpSync (adjust : Int) (s : State) : Out := .next (s.shiftFabric adjust)

end Sys2Proof.Machine
end

