-- ==== Sys2Proof/Machine/Wrung.lean ====
section
/-! DEFINITION. Wrung weight blocks: the header, the row offset table and the decoding of a row (R279-R284). -/

namespace Sys2Proof.Machine

/-- A field of n bytes of a block. -/
def wrungField (b : List Byte) (off n : Nat) : Nat := leNat ((b.drop off).take n)

/-- Code lengths of the sixteen exponents. -/
def wrungLens (b : List Byte) : List Nat := (List.range 16).map fun x => wrungField b 8 8 / 16 ^ x % 16

/-- `ROWTAB`. -/
def wrungTab (b : List Byte) : Nat := wrungField b 16 2

/-- `PLEN`. -/
def wrungPlen (b : List Byte) : Nat := wrungField b 20 4

/-- The payload's offset P. -/
def wrungPay (b : List Byte) : Nat := wrungTab b + 256

/-- `ROFF` of a row. -/
def wrungRoff (b : List Byte) (i : Nat) : Nat := wrungField b (wrungTab b + 2 * i) 2

/-- The end of a row in the payload (R280). -/
def wrungEnd (b : List Byte) (i : Nat) : Nat := if i < 127 then wrungRoff b (i + 1) else wrungPlen b

/-- The first granule of a byte range whose check fails. -/
def badIn (syn : List (BitVec 16)) (lo n : Nat) : Option Nat :=
  ((List.range (if n == 0 then 0 else (lo % 32 + n + 31) / 32)).map (lo / 32 + ·)).find? fun g => syn.getD g 0 != 0

/-- The granules that a byte range touches all pass their checks. -/
def granulesGood (syn : List (BitVec 16)) (lo n : Nat) : Bool := (badIn syn lo n).isNone

/-- All bytes of a range are 0. -/
def zeroBytes (b : List Byte) (lo hi : Nat) : Bool := ((b.drop lo).take (hi - lo)).all (· == 0)

/-- Checks 1 to 4 of Table 16.3: the header's failure kind. `L` is the stored length. -/
def wrungHeader (b : List Byte) (syn : List (BitVec 16)) (L : Nat) : Option Nat :=
  if !granulesGood syn 0 64 || (crc16 (b.take 62)).toNat != wrungField b 62 2 then some 6
  else if wrungField b 0 1 != 0x57 || wrungField b 1 1 != 1 || !zeroBytes b 2 4 || !zeroBytes b 18 20 || !zeroBytes b 24 62 then some 1
  else if (wrungLens b).any (fun l => l == 0 || 8 < l) || ((wrungLens b).map fun l => 2 ^ (8 - l)).foldl (· + ·) 0 != 256 then some 2
  else if wrungTab b % 32 != 0 || wrungTab b < 64 || L < wrungPay b + wrungPlen b || 32768 < L || L % 32 != 0 then some 3
  else none

/-- All rows of a block, as the first row and how many. -/
def allRows : Nat × Nat := (0, 128)

/-- The bytes of the row offset table that a decode of some rows needs: their own entries and the next row's (R284). -/
def wrungEntries (b : List Byte) (part : Nat × Nat) : Nat × Nat :=
  (wrungTab b + 2 * part.1, 2 * (min 128 (part.1 + part.2 + 1) - part.1))

/-- Zero bytes of a block from `lo` to `hi`: kind 5 where one is not 0, kind 6 where a granule of them fails its check, which Table 16.3
does not list (R286, assumption 64). -/
def wrungZeros (b : List Byte) (syn : List (BitVec 16)) (lo hi : Nat) : Option Nat :=
  if !zeroBytes b lo hi then some 5 else if !granulesGood syn lo (hi - lo) then some 6 else none

/-- Checks 1 to 5: the failure kind of the header and of the bytes up to the row offset table. -/
def wrungStart (b : List Byte) (syn : List (BitVec 16)) (L : Nat) : Option Nat :=
  (wrungHeader b syn L).or (wrungZeros b syn 64 (wrungTab b))

/-- Checks 1 to 6: the failure kind of what precedes the rows, for a decode of some of them. -/
def wrungFront (b : List Byte) (syn : List (BitVec 16)) (L : Nat) (part : Nat × Nat) : Option Nat :=
  let t := wrungEntries b part
  (wrungStart b syn L).or (if !granulesGood syn t.1 t.2 then some 6 else none)

/-- Check 7: where row i lies in the payload. -/
def wrungPlaced (b : List Byte) (i : Nat) : Bool :=
  (i != 0 || wrungRoff b 0 == 0) && wrungRoff b i + 8 ≤ wrungEnd b i && wrungEnd b i ≤ wrungPlen b

/-- How many bytes of a block must have been read to decide row i. -/
def wrungNeed (b : List Byte) (syn : List (BitVec 16)) (L i : Nat) : Nat :=
  if b.length < 64 || (wrungHeader b syn L).isSome then 64
  else if b.length < wrungPay b || (wrungFront b syn L allRows).isSome then wrungPay b
  else if !wrungPlaced b i then wrungPay b
  else wrungPay b + wrungEnd b i

/-- The canonical codes: length, code and exponent, in their order (R281). -/
def wrungCodes (lens : List Nat) : List (Nat × Nat × Nat) :=
  let order := sortBy (fun x => 16 * lens.getD x 0 + x) (List.range 16)
  (order.foldl (fun (acc : List (Nat × Nat × Nat) × Option (Nat × Nat)) x =>
    let l := lens.getD x 0
    let c := match acc.2 with | none => 0 | some (pl, pc) => (pc + 1) * 2 ^ (l - pl)
    (acc.1 ++ [(l, c, x)], some (l, c))) ([], none)).1

/-- The bits of a stream, most significant first. -/
def streamBits (bs : List Byte) : List Bool := bs.flatMap fun b => (List.range 8).map fun i => b.getLsbD (7 - i)

/-- Read bits until they form a code. -/
def readCode (codes : List (Nat × Nat × Nat)) : Nat → Nat → List Bool → Option (Nat × List Bool)
  | _, _, [] => none
  | l, c, x :: r =>
    match codes.find? fun e => e.1 == l + 1 && e.2.1 == 2 * c + x.toNat with
    | some e => some (e.2.2, r)
    | none => readCode codes (l + 1) (2 * c + x.toNat) r

/-- Decode n elements and then check what is left (R282). -/
def readElems (codes : List (Nat × Nat × Nat)) : Nat → List Bool → Except Nat (List Byte)
  | 0, r => if 8 ≤ r.length then .error 4 else if r.any id then .error 5 else .ok []
  | n + 1, s :: a :: b :: c :: r =>
    match readCode codes 0 0 r with
    | none => .error 4
    | some (x, r) =>
      match readElems codes n r with
      | .ok es => .ok (BitVec.ofNat 8 (128 * s.toNat + 8 * x + 4 * a.toNat + 2 * b.toNat + c.toNat) :: es)
      | .error k => .error k
  | _ + 1, _ => .error 4

/-- Row i of a block in a decode of some rows: its 128 elements and the 8 bytes of its four hems, or a kind of Table 16.3 with the row it
names. -/
def wrungRow (b : List Byte) (syn : List (BitVec 16)) (L : Nat) (part : Nat × Nat) (i : Nat) : Except (Nat × Nat) (List Byte × List Byte) :=
  match wrungFront b syn L part with
  | some k => .error (k, 0xFF)
  | none =>
    let lo := wrungPay b + wrungRoff b i
    let hi := wrungPay b + wrungEnd b i
    if !wrungPlaced b i then .error (3, i)
    else if !granulesGood syn lo (hi - lo) then .error (6, i)
    else
      let row := (b.drop lo).take (hi - lo)
      match readElems (wrungCodes (wrungLens b)) 128 (streamBits (row.take (row.length - 8))) with
      | .error k => .error (k, i)
      | .ok es => .ok (es, row.drop (row.length - 8))

/-- Check 11: the failure kind of the bytes after the payload. -/
def wrungTail (b : List Byte) (syn : List (BitVec 16)) (L : Nat) : Option Nat := wrungZeros b syn (wrungPay b + wrungPlen b) L

/-- The granule whose failed check is behind a failure of kind 6, in the row named or, with 0xFF, outside the rows (R209). -/
def wrungSuspect (b : List Byte) (syn : List (BitVec 16)) (L : Nat) (part : Nat × Nat) (row : Nat) : Option Nat :=
  let t := wrungEntries b part
  if row < 128 then badIn syn (wrungPay b + wrungRoff b row) (wrungEnd b row - wrungRoff b row)
  else (badIn syn 0 64).or (if (wrungHeader b syn L).isSome then none
    else (badIn syn 64 (wrungTab b - 64)).or ((badIn syn t.1 t.2).or (badIn syn (wrungPay b + wrungPlen b) (L - (wrungPay b + wrungPlen b)))))

/-- The syndromes of a decoded row against the hems that came with it (R200). -/
def rowSyns (row hems : List Byte) : List (BitVec 16) :=
  (List.range 4).map fun g => crc16 ((row.drop (32 * g)).take 32) ^^^ BitVec.ofNat 16 (leNat ((hems.drop (2 * g)).take 2))

end Sys2Proof.Machine
end

