-- ==== Sys2Proof/Machine/Copy.lean ====
section
/-! DEFINITION. The copy engines: descriptors, posting, collectives, landing, tokens, slots, stamps and failures (R187, R247-R257). -/

namespace Sys2Proof.Machine

/-! ### Descriptors (R247, R248, Table 14.3) -/

/-- An address of the scratch, cluster or die space occupies the low 32 bits. -/
def localAddr (space a : Nat) : Bool := space < 2 || a < 2 ^ 32

/-- The spaces, element width and stamp fields that Table 14.3 allows. -/
def CopyItem.allowed (x : CopyItem) : Bool :=
  (match x.fn with
   | 0 => x.ssp ≤ 4 && (x.dsp == 2 || x.dsp == 3)
   | 1 => x.ssp ≤ 4 && (x.dsp == 2 || x.dsp == 3)
   | 2 => x.ssp ≤ 1 && (x.dsp == 2 || x.dsp == 3)
   | _ => (x.ssp == 0 || (2 ≤ x.ssp && x.ssp ≤ 4)) && x.dsp ≤ 1) &&
  (x.fn == 1 || x.elem == 4) &&
  (if x.fn == 3 then x.stampa % 8 == 0 && (List.range x.count).all fun n => (x.dest n).1 / 32 != x.stampa / 32
   else x.stampa == 0 && x.get 56 8 == 0)

/-- The descriptor is well formed (R248). -/
def CopyItem.wellFormed (x : CopyItem) : Bool :=
  x.get 47 1 == 0 && localAddr x.ssp x.src && localAddr x.dsp x.dst &&
  [x.src, x.dst, x.rowb, x.spr, x.dpr, x.spp, x.dpp].all (· % 32 == 0) &&
  1 ≤ x.nrow && x.nrow ≤ 65536 && 1 ≤ x.nplane && x.nplane ≤ 65536 &&
  x.rowLen % 32 == 0 && (x.fn != 1 || x.nrow * x.elem % 256 == 0) && x.bytes % 32 == 0 && 32 ≤ x.bytes && x.bytes ≤ 2 ^ 22 &&
  (x.rows ≤ 1 || x.rowLen ≤ x.dpr) && (x.nplane ≤ 1 || x.rows * x.dpr ≤ x.dpp) &&
  (x.fn != 2 || (x.nrow == 1 && x.nplane == 1 && x.spr == 0 && x.spp == 0 && x.dpp == 0)) && x.allowed

/-! ### Items -/

/-- Update one item. -/
def State.modItem (s : State) (id : Nat) (f : CopyItem → CopyItem) : State :=
  { s with items := s.items.map fun x => if x.id == id then f x else x }

/-- The location of a byte of the scratch, cluster or die space as an item of a team addresses it. -/
def State.itemLoc (s : State) (x : CopyItem) (space a : Nat) : Nat :=
  match s.team x.tid with
  | none => 0
  | some m =>
    match space with
    | 2 => scratchLoc m.core (m.scrBase + a)
    | 3 => scratchLoc (4 * x.cluster + a / 2 ^ 22 % 4) (a % 2 ^ 22)
    | _ => dieByte (s.dieShare x.tid) a

/-- The location of the slot that an item names. -/
def State.itemSlot (s : State) (x : CopyItem) : Nat := s.itemLoc x 2 x.bar

/-- An item's flag counts fall: it has been accepted, or has failed at posting (Table 2.2). -/
def State.finishCopyOps (s : State) (id : Nat) : State :=
  (s.ops.filter fun o => o.kind == .copy && o.aop == id).foldl State.finish s

/-- Set the token of an item, which counts no more once its count is 0 (R254); the token of an EMPTY group is discarded. -/
def State.setToken (s : State) (x : CopyItem) (f : Word → Word) : State :=
  if x.fn == 3 then s
  else s.modGroup x.gid fun g =>
    let v := f (SMap.get 0 g.sregs x.tok)
    { g with sregs := SMap.put 0 x.tok v g.sregs, progress := true,
             toks := if field v 22 0 == 0 then g.toks.filter (· != x.tok) else g.toks }

/-- The location of a byte of an item's source. -/
def State.itemAt (s : State) (x : CopyItem) (va : Nat) : Nat :=
  match x.ssp with
  | 0 => (match (s.translate x.ctx none (clusterDie x.cluster) va false).2 with | .ok loc _ _ => loc | _ => va)
  | 1 => fabLoc (BitVec.ofNat 64 va)
  | sp => s.itemLoc x sp va

/-- The location of the granule that has failed an item: of its source, or of its stamp. -/
def State.badAt (s : State) (x : CopyItem) (va : Nat) : Nat :=
  if x.fn != 3 then s.itemAt x va
  else if x.dsp == 1 then fabLoc (BitVec.ofNat 64 va)
  else match (s.translate x.ctx none (clusterDie x.cluster) va false).2 with | .ok loc _ _ => loc | _ => va

/-- Change the slot that an item names, unless its granule fails its check (R199, R207). -/
def State.modSlot (s : State) (loc : Nat) (f : Slot → Slot) : State :=
  match s.slotBad loc with
  | some s => s
  | none => s.putSlot loc (f (s.slotAt loc))

/-- An item that named a slot is over: `INFLIGHT` falls, and a RETIRING slot without items becomes FREE (R232, R236); a slot whose granule fails
its check stays as it is (R207). -/
def State.slotDone (s : State) (x : CopyItem) (failed : Bool) : State :=
  if !x.counted then s
  else
    let loc := s.itemSlot x
    let s := s.modSlot loc fun y =>
      let y := { y with fault := y.fault || failed, inflight := y.inflight - 1 }
      let y := if failed then { y with landed := y.landed + (x.slotBytes - 32 * x.acked) } else y
      if y.st == 3 && y.inflight == 0 then { y with st := 0 } else y
    if failed && (s.slotBad loc).isNone then s.settleSlot loc else s

/-- The launch's stamp will be written after what the item wrote: the launch's LT rises to the item's (R169, R312). -/
def State.raiseLaunch (s : State) (tid lt : Nat) : State :=
  match s.team tid with
  | some m => s.modLaunch m.lid fun l => { l with lt := max l.lt lt }
  | none => s

/-- Take an item out of its engine. -/
def State.removeItem (s : State) (x : CopyItem) : State :=
  let c := s.tick - x.posted
  let s := s.countLatency (unitKey 0 x.cluster) c
  let s := if x.fn == 2 then s.countLatency (unitKey 2 x.cluster) c else s
  { (s.raiseLaunch x.tid x.lt) with items := s.items.filter fun y => y.id != x.id }

/-- An item has completed. -/
def State.completeItem (s : State) (x : CopyItem) : State := (s.slotDone x false).removeItem x

/-! ### Destination sectors in global memory (R163, R187, R192) -/

/-- The agent number of a cluster's copy engine. -/
def engineAgent (cluster : Nat) : Nat := 384 + cluster

/-- A sector's operation of an item. -/
def State.sectorOp (s : State) (x : CopyItem) (va : Nat) : Option Op :=
  s.ops.find? fun o => o.kind == .engOwn && o.aop == x.id && o.addr.toNat / 64 == va / 64

/-- The bytes of an item for one of its sectors are all in the engine. -/
def Op.sectorFull (o : Op) : Bool := popCount 64 o.mask.toNat == 32 * o.rtype

/-- An item's sector that it has given up and not asked for again (R337). -/
def Op.unplaced (o : Op) : Bool := o.kind == .engOwn && !o.done && o.req == .none

/-- Ask for a destination sector owned, with the item LT; a sector of a press region is written at its home instead (R192). -/
def State.ownSector (s : State) (x : CopyItem) (va loc : Nat) : State :=
  let n := ((List.range x.count).filter fun i => (x.dest i).1 / 64 == va / 64).length
  let region := s.regionOf x.ctx va
  let o := { Op.blank with
    id := s.nextId, kind := .engOwn, tid := x.tid, gid := x.gid, agent := engineAgent x.cluster, ctx := x.ctx, loc := loc / 64 * 64,
    addr := BitVec.ofNat 64 (va / 64 * 64), size := 64, rtype := n, aop := x.id, data := List.replicate 64 0, syn := [0, 0], lt := x.lt,
    req := if region.isSome then .none else .own, region := region, done := region.isSome, pkt := x.pkt, issued := s.tick }
  let s := { s with ops := s.ops ++ [o], nextId := s.nextId + 1 }
  if region.isSome then s else s.post [.homeOwnedRequest o.id]

/-- The tags that travel with the two granules of a sector, kept with its operation; 0 names no hop. -/
def Op.tags (o : Op) (g : Nat) : BitVec 64 := BitVec.ofNat 64 (leNat (bytesOf ((o.args.drop (2 * g)).take 2)))

/-- The engine's copy of a sector as it goes home, with the tags of its landed granules: the landed granules over what the home holds. -/
def State.engineImg (s : State) (o : Op) (lt : Nat) : SecImg :=
  { wb := false, wts := lt, rts := lt, data := maskBytes o.mask o.data (s.homeData o.sec),
    syn := (List.range 2).map fun g => if o.mask.getLsbD (32 * g) then o.syn.getD g 0 else (s.homeSyn o.sec).getD g 0,
    tags := (List.range 2).map fun g => if o.mask.getLsbD (32 * g) then some (o.tags g) else none }

/-- Write an owned sector back with the item LT; where its home waits for it, the image is the owner's answer. -/
def State.writeSector (s : State) (o : Op) (lt : Nat) : State :=
  let img := s.engineImg o lt
  let s := s.modOp o.id fun y => { y with kind := .engWrite }
  if o.waits.isEmpty then s.post [.writeBackReceive o.sec o.agent img]
  else s.post [.ownerAnswer o.sec o.agent img, .writeBackAck o.sec o.agent lt]

/-- A granted sector goes back to its home unchanged, with its grant stamps (R187). -/
def State.sendBack (s : State) (o : Op) : State :=
  let img : SecImg := { wb := false, wts := o.wts, rts := o.wts, data := [], syn := [] }
  s.post [if o.waits.isEmpty then .writeBackReceive o.sec o.agent img else .ownerAnswer o.sec o.agent img]

/-- Give a sector up, at once or as soon as it is granted (R187). -/
def State.releaseSector (s : State) (o : Op) : State :=
  if o.region.isSome || o.unplaced then s.dropOp o.id
  else if !o.done then s.modOp o.id fun y => { y with aop := 0, tid := 0 }
  else (s.dropOp o.id).sendBack o

/-- An item that a page request holds up gives a sector up and keeps what has landed in it, until its granules land again (R187, R337,
assumption 78). -/
def State.unplace (s : State) (o : Op) : State :=
  if !o.done then s
  else (if o.region.isSome then s else s.sendBack o).modOp o.id fun y => { y with done := false, req := .none, waits := [] }

/-- Ask again for a sector that was given up, where its page lies now. -/
def State.replace (s : State) (x : CopyItem) (o : Op) (loc : Nat) : State :=
  let s := s.modOp o.id fun y =>
    { y with loc := loc / 64 * 64, lt := x.lt, done := y.region.isSome, req := if y.region.isSome then .none else .own }
  if o.region.isSome then s else s.post [.homeOwnedRequest o.id]

/-- Sectors granted to an item that has failed meanwhile go back. -/
def State.releaseLate (s : State) : State :=
  (s.ops.filter fun o => o.kind == .engOwn && o.aop == 0 && o.done).foldl State.releaseSector s

/-- The home of a sector can be read or written for an item now: no ownership is on the move. -/
def State.homeReady (s : State) (x : CopyItem) (sec : Nat) : Bool :=
  match (s.homeOf sec).st with
  | .S => true
  | .O k => if isEngine k then s.ops.any fun o => o.kind == .engOwn && o.aop == x.id && o.sec == sec
      else (match s.l1Of k sec with | some e => e.st == .O | none => false)
  | _ => false

/-- Write granules of a sector at their home in one step, as `.UC` writes with the item LT (R192). -/
def State.writeHome (s : State) (x : CopyItem) (o : Op) : State :=
  let s := s.pull o.sec
  let img := s.engineImg o 0
  let r := s.orderWrite o.sec x.lt
  let s := (r.1.takeGranules o.sec (agentDie o.agent) img).patchGrants o.sec
  let s := (s.dropOp o.id).modItem x.id fun y => { y with acked := y.acked + o.rtype, lt := max y.lt r.2 }
  if x.counted then s.landOn (s.itemSlot x) (32 * o.rtype) else s

/-! ### Failure (R256, Table 14.5) -/

/-- An item fails: the prefix stands in what has been written, the sectors that are not complete go back unchanged (R187), and one record
is written. -/
def State.failItem (s : State) (x : CopyItem) (kind addr : Nat) (more : List Byte) : State :=
  let s := s.setToken x fun _ => 0x80000000
  let s := if kind == 8 then s.hemFault (ofBytes 64 (more.drop 2)) (s.badAt x addr) (ofBytes 16 (more.take 2)) else s
  let s := s.slotDone x true
  let mine := s.ops.filter fun o => o.kind == .engOwn && o.aop == x.id
  let s := mine.foldl State.releaseSector s
  let s := s.record x.ctx { FRec.blank 1 kind with
    team := s.teamIndex x.tid, addr := addr, pc := x.pkt.toNat, slot := x.slot, die := clusterDie x.cluster, unit := x.cluster,
    detail := natLe 4 x.descOff ++ natLe 1 x.sidx ++ natLe 4 (32 * x.landed) ++ more }
  s.removeItem x

/-! ### Posting (R249, R251) -/

/-- The collective fields of a posting conflict (R251). -/
def State.postConflict (s : State) (x : CopyItem) : Bool :=
  let held := if x.bar == noSlot then [] else openItems (s.heldItems x.tid x.bar)
  x.nslice ≤ x.sidx || x.nslice == 0 || 32 < x.nslice || (1 < x.nslice && x.bar == noSlot) ||
  held.any (fun y => y.nslice != x.nslice) || held.any fun y => y.sidx == x.sidx

/-- The engine takes a posted item, or fails it with kind 2. -/
def State.postItem (s : State) (x : CopyItem) : State :=
  if s.postConflict x then (s.finishCopyOps x.id).failItem x 2 0 []
  else { s with items := s.items ++ [x] }

/-- Items that an engine holds. -/
def State.engineItems (s : State) (cluster : Nat) : Nat := (s.items.filter fun x => x.cluster == cluster).length

/-- The withdrawn items of a group, in their original order. -/
def State.itemsOf (s : State) (gid : Nat) : List CopyItem := sortBy CopyItem.id (s.wItems.filter fun x => x.gid == gid)

/-- The group is saved, or being saved. -/
def State.savedGid (s : State) (gid : Nat) : Bool :=
  match s.group gid with | some g => g.place == .saving || g.place == .saved | none => false

/-- Post a withdrawn item again to its group's engine, if that has an entry free (R257). -/
def State.repostItem (s : State) (x : CopyItem) : State :=
  let cluster := coreCluster (s.coreOf x.tid)
  if 64 ≤ s.engineItems cluster then s
  else { s with wItems := s.wItems.filter fun y => y.id != x.id }.postItem { x with cluster := cluster }

/-- Post again what items of restored groups find room for. -/
def State.repostItems (s : State) : State :=
  (sortBy CopyItem.id (s.wItems.filter fun x => !s.savedGid x.gid)).foldl State.repostItem s

/-- The active threads of the issue that belong to one group, in ascending home lane. -/
def State.ofGroup (s : State) (gid : Nat) : List Thread := s.gangThreads.filter fun t => s.gidOf t == gid

/-- The checks of one group of an issue, in the order of R249. A misuse reports the descriptor's own offset, whichever of its 16-byte parts lies
in the slot (assumption 76). -/
def State.copyTrap (s : State) (d bar : BitVec 7) (gid : Nat) : Option TrapReq :=
  let ts := s.ofGroup gid
  match ts with
  | [] => none
  | t :: _ =>
    let size := match s.team t.tid with | some m => m.scrSize | none => 0
    let req (cause kind : Nat) (lanes : List Thread) (a : Nat) : TrapReq :=
      { TrapReq.of cause with kind := kind, mask := some (laneMask lanes), space := 2, addr := BitVec.ofNat 64 a }
    let o := (s.src t d).toNat
    let b := (s.src t bar).toNat
    let at_ (a : Nat) : Nat := match s.team t.tid with | some m => scratchLoc m.core (m.scrBase + a) | none => 0
    if o % 64 != 0 then some (req 0x06 0 ts o)
    else if size < o + 64 then some (req 0x07 0 ts o)
    else if b != noSlot && b % 16 != 0 then some (req 0x06 0 ts b)
    else if b != noSlot && size < b + 16 then some (req 0x07 0 ts b)
    else if (List.range 4).any fun i => s.slots.contains (at_ (o + 16 * i) / 16) then some (req 0x0E 1 [t] o)
    else match [0, 32].find? fun i => s.synAt (at_ (o + i)) != 0 with
      | some i => some { req 0x20 0 [t] (o + i) with syn := s.synAt (at_ (o + i)), tag := s.bankTag (s.coreOf t.tid) (at_ (o + i)) 0 }
      | none => none

/-- The stores and atomics that a copy releases toward its engine's reads (R161, Table 7.1): those that its group has issued to its source's
space, and to global memory those of the core, which a barrier may have put before it (R152, assumption 62). -/
def State.sourceStores (s : State) (t : Thread) (space : Nat) : List Nat :=
  let us := match s.groupOf t with | some g => uids (s.members g) | none => [t.uid]
  let core := s.coreOf t.tid
  let c := s.ctxOf t.tid
  (s.ops.filter fun o => (o.kind == .store || o.kind == .atomic) && o.space == space && o.uid != 0 &&
    (us.contains o.uid || (space == 0 && o.agent == core && o.ctx == c))).map Op.id

/-- Post the item of one group: its token is written, and its active threads count the issue (R249). -/
def State.copyPost (s0 : State) (fn : Nat) (fb : Bool) (tok : Nat) (d bar : BitVec 7) (s : State) (gid : Nat) : State :=
  match s0.ofGroup gid with
  | [] => s
  | t :: r =>
    match s0.team t.tid with
    | none => s
    | some m =>
      let o := (s0.src t d).toNat
      let x : CopyItem := {
        id := s.nextId, cluster := coreCluster m.core, tid := t.tid, gid := gid, ctx := m.ctx, uid := t.uid, slot := t.slot,
        pkt := t.pkt, fn := fn, descOff := o, desc := s0.bytes (scratchLoc m.core (m.scrBase + o)) 64,
        bar := (s0.src t bar).toNat, tok := tok, posted := s0.tick, total := 0, accepted := false, counted := false, landed := 0, acked := 0,
        lt := 0, wake := 0, page := none, due := none, paused := false, late := false, got := [], after := [] }
      let x := { x with total := x.bytes, after := if x.ssp < 2 then s0.sourceStores t x.ssp else [] }
      let s := { s with nextId := s.nextId + 1 }
      let s := if fn == 3 then s
        else s.modGroup gid fun g =>
          let g := g.setS tok (BitVec.ofNat 32 (x.total % 2 ^ 23))
          { g with toks := if x.total % 2 ^ 23 == 0 then g.toks else tok :: g.toks.filter (· != tok) }
      let s := (t :: r).foldl (fun s u => s.begin { s0.opOf u .copy (u.sel fb) with aop := x.id }) s
      s.postItem x

/-- One issue of a copy instruction; where several groups of it fail their checks, the trap carries what the first of them reports (R249,
assumption 76). -/
def State.copyIssue (s : State) (fn : Nat) (fb : Bool) (tok : Nat) (d bar : BitVec 7) : Out :=
  let gids := s.gids s.gangThreads
  match gids.findSome? (s.copyTrap d bar) with
  | some q =>
    let at_ := match s.gangThreads.head?.bind fun t => s.team t.tid with | some m => scratchLoc m.core (m.scrBase + q.addr.toNat) | none => 0
    (s.hemFault q.tag at_ q.syn).trapOut q
  | none =>
    let cluster := match s.gangThreads.head? with | some t => coreCluster (s.coreOf t.tid) | none => 0
    if 64 < s.engineItems cluster + gids.length || gids.any fun g => !(s.itemsOf g).isEmpty then .next (s.stallGang .engine)
    else .next (gids.foldl (State.copyPost s fn fb tok d bar) s).advance

/-- `CPY`. -/
def execCpy (f : FY) (s : State) : Out := s.copyIssue 0 f.fb f.tok.toNat f.d f.bar
/-- `CPYT`. -/
def execCpyt (f : FY) (s : State) : Out := s.copyIssue 1 f.fb f.tok.toNat f.d f.bar
/-- `CPYX`. -/
def execCpyx (f : FY) (s : State) : Out := s.copyIssue 2 f.fb f.tok.toNat f.d f.bar
/-- `CPYS`. -/
def execCpys (f : FYS) (s : State) : Out := s.copyIssue 3 f.fb 0 f.d f.bar

/-! ### Acceptance (R251, R252, R236) -/

/-- An extent of a local space lies within its bound (R122, R127, R128, R252). -/
def State.extentOk (s : State) (x : CopyItem) (space lo hi : Nat) : Bool :=
  match s.team x.tid with
  | none => false
  | some m =>
    match space with
    | 0 | 1 => true
    | 2 => hi ≤ m.scrSize
    | 3 =>
      let o := lo % 2 ^ 22
      let core := 4 * x.cluster + lo / 2 ^ 22 % 4
      lo < 2 ^ 24 && o + (hi - lo) ≤ 3145728 && (List.range ((hi - lo + 31) / 32)).all fun i =>
        s.inLaunch m.lid core (o + 32 * i) && s.inLaunch m.lid core (o + 32 * i + 31)
    | _ => let share := s.dieShare x.tid; hi ≤ share.1.length * share.2

/-- The slot refuses an item (R236). -/
def State.slotRefuses (s : State) (x : CopyItem) : Bool :=
  let y := s.slotAt (s.itemSlot x)
  let open_ := (s.items.filter fun z => z.counted && z.tid == x.tid && z.bar == x.bar).foldl (fun n z => n + (z.slotBytes - 32 * z.acked)) 0
  y.st != 1 || 2 ^ 28 - 1 < y.landed + open_ + x.slotBytes

/-- Ask for every destination sector in ascending address; one that does not translate fails when its granule is due. -/
def State.ownAll (s : State) (x : CopyItem) : State :=
  let vas := sortBy id (dedup ((List.range x.count).map fun n => (x.dest n).1 / 64 * 64))
  vas.foldl (fun s va =>
    let r := s.locate x.ctx (clusterDie x.cluster) va true
    match r.2 with
    | some loc => r.1.ownSector x va loc
    | none => r.1) s

/-- Accept one item of a complete collective. A slot whose granule fails its check refuses the item (assumption 64). -/
def State.acceptItem (s : State) (x : CopyItem) : State :=
  let s := s.finishCopyOps x.id
  let x := { x with accepted := true, lt := s.orderTime (s.coreOf x.tid) }
  let named := x.bar != noSlot
  match (if named then s.slotBad (s.itemSlot x) else none) with
  | some s => s.failItem x 3 0 []
  | none =>
  if named && s.slotRefuses x then s.failItem x 3 0 []
  else
    let x := { x with counted := named }
    let s := s.modItem x.id fun _ => x
    let s := if named then s.modSlot (s.itemSlot x) fun y => { y with inflight := y.inflight + 1 } else s
    if !x.wellFormed then s.failItem x 1 0 []
    else if !s.extentOk x x.ssp x.src x.srcEnd then s.failItem x 4 x.src []
    else if !s.extentOk x x.dsp x.dst x.dstEnd then s.failItem x 4 x.dst []
    else if x.ssp == x.dsp && x.src < x.dstEnd && x.dst < x.srcEnd then s.failItem x 5 x.dst []
    else if x.dsp == 0 then s.ownAll x else s

/-- `COLLECTIVE_ACCEPT`: the oldest complete collective under a key. An item without a slot is one of its own. -/
def execCollectiveAccept (team bar : Nat) (s : State) : Out :=
  match (collectives (s.heldItems team bar)).find? collectiveFull with
  | some c => .next ((sortBy CopyItem.sidx c).foldl State.acceptItem s)
  | none => .next s

/-! ### Reading sources (R161, R250) -/

/-- What an engine's attempt at one granule gives. -/
inductive Try where
  | go
  | wait (till : Nat)
  | fail (kind addr : Nat)
  deriving DecidableEq, Repr

/-- An access of an item to a node: unreachable, refused, silent until its timeout, or answered (R130, R141, R256); past the bound of a save it
ends as timed out (R345). -/
def State.nodeGate (s : State) (x : CopyItem) (va key : Nat) (port : Option Nat) : State × Try :=
  match port with
  | none => (s.noteFabst x.uid fabLinkLost, .fail 7 va)
  | some _ =>
    if x.late then ((s.askNode x.ctx key).noteTimeout x.uid, .fail 7 va)
    else match s.answerOf key va with
    | 0 => ((s.askNode x.ctx key).modItem x.id fun y => { y with due := none }, .go)
    | 1 => ((s.askNode x.ctx key).noteTimeout x.uid, .fail 7 va)
    | _ =>
      let s := s.askNode x.ctx key
      match x.due with
      | none => let d := s.remoteDue x.ctx; (s.modItem x.id fun y => { y with due := some d }, .wait d)
      | some d => if d ≤ s.tick then (s.noteTimeout x.uid, .fail 7 va) else (s, .wait d)

/-- Translate for an item: a migrating page pauses it on a page request, any other fault fails it (R335), as does a wrung block on a page
that does not allow one (R331). -/
def State.itemPage (s : State) (x : CopyItem) (va : Nat) (write : Bool) : State × Except Try Nat :=
  let die := clusterDie x.cluster
  let r := s.translate x.ctx none die va write
  match r.2 with
  | .ok loc e _ =>
    if x.fn == 2 && !write && !pteWa e then (r.1, .error (.fail 6 va))
    else if isRemote loc then
      let g := r.1.nodeGate x va (nodeKey loc) (r.1.portOf loc)
      (g.1, match g.2 with | .go => .ok loc | t => .error t)
    else (r.1, .ok loc)
  | .fault kind _ lo len =>
    if kind == 5 then
      let q := r.1.pageRequest die x.ctx 5 lo len (if write then 1 else 0) { FRec.blank 3 5 with
        team := s.teamIndex x.tid, pc := x.pkt.toNat, slot := x.slot, die := die, unit := x.cluster }
      match q.2 with
      | some n => (q.1.modItem x.id fun y => { y with page := some (pageKey die n) }, .error (.wait s.tick))
      | none => (q.1, .error (.wait (s.tick + 64)))
    else (r.1, .error (.fail 6 va))

/-- The origin of an item's accesses. -/
def State.itemOrigin (s : State) (x : CopyItem) : Origin where
  ctx := x.ctx
  team := s.teamIndex x.tid
  gid := x.gid
  slot := x.slot
  pkt := x.pkt
  die := clusterDie x.cluster
  live := (s.group x.gid).isSome

/-- A watched access of an item (R389). -/
def State.watchItem (s : State) (x : CopyItem) (va n kind : Nat) : State :=
  let r := s.watchHit (s.itemOrigin x) va n kind
  if r.2 then r.1.modItem x.id fun y => { y with paused := true } else r.1

/-- Keep a source granule that has been read. -/
def State.gotGranule (s : State) (x : CopyItem) (va : Nat) (bs : List Byte) (syn : BitVec 16) (tag : BitVec 64) : State :=
  s.modItem x.id fun y => { y with got := y.got ++ [(va / 32, bs, syn, tag)] }

/-- The checker of the granules that an item reads (Table 9.3): the transposing buffer, the expander; a plain copy has none. -/
def CopyItem.checker (x : CopyItem) : Nat := match x.fn with | 1 => 5 | 2 => 2 | _ => 0

/-- A store that a copy has released toward its engine's reads is still on its way (R161). -/
def State.awaitsStores (s : State) (x : CopyItem) : Bool := x.after.any fun id => (s.op id).isSome

/-- A core's write-back of a press region's sector is on its way (R192). -/
def State.pressing (s : State) (core sec : Nat) : Bool :=
  s.ops.any fun o => o.kind == .press && o.agent == core && o.size == 64 && o.sec == sec

/-- Read one source granule of an item. A global one is read at its home as a `.UC` load with the item LT, which rises to the data's
`wts` (R250); what the core holds in RD of it, or has just written back, is the issuing group's own (R161, R192). A source that lies in a
non-FREE barrier slot is read like any other bytes (R239, assumption 75). -/
def State.readSrc (s : State) (x : CopyItem) (va : Nat) : State × Try :=
  match x.ssp with
  | 0 =>
    let r := s.itemPage x va false
    match r.2 with
    | .error t => (r.1, t)
    | .ok loc =>
      let s := r.1
      let sec := sectorKey x.ctx loc
      if s.awaitsStores x || s.pressing (s.coreOf x.tid) sec || !s.homeReady x sec then (s, .wait (s.tick + 1))
      else
        let d := (s.watchItem x va 32 1).sectorRead x.ctx (s.coreOf x.tid) x.lt loc
        let s := d.1.modItem x.id fun y => { y with lt := max y.lt (d.1.homeOf sec).wts }
        (s.gotGranule x va ((d.2.1.drop (loc % 64)).take 32) (d.2.2.getD (loc % 64 / 32) 0)
          (s.homeTag x.ctx loc (clusterDie x.cluster) x.checker), .go)
  | 1 =>
    let a := BitVec.ofNat 64 va
    if !fabLoadOk a then (s, .fail 7 va)
    else if s.awaitsStores x then (s, .wait (s.tick + 1))
    else
      let g := s.nodeGate x va (fabNodeKey a) (s.portTo (fabKind a) (fabNode a) (fabOff a))
      match g.2 with
      | .go =>
        let s := g.1
        let d := s.targetData { Op.blank with addr := a, loc := fabLoc a }
        let tag := tagJoin (tagBase x.checker ||| s.fabWay a (clusterDie x.cluster)) (s.tagAt (fabLoc a))
        (d.1.gotGranule x va ((d.2.1.drop (va % 64)).take 32) (d.2.2.getD (va % 64 / 32) 0) tag, .go)
      | t => (g.1, t)
  | sp =>
    let loc := s.itemLoc x sp va
    (s.gotGranule x va (s.bytes loc 32) (s.synAt loc) (s.bankTag (4 * x.cluster) loc x.checker), .go)

/-- A source granule already read. -/
def CopyItem.have (x : CopyItem) (va : Nat) : Option (List Byte × BitVec 16 × BitVec 64) :=
  (x.got.find? fun e => e.1 == va / 32).map fun e => e.2

/-- Read the source granules that are still wanted, in order, as far as it goes; an item that a hit has paused reads no further (R389). -/
def State.readAll (id : Nat) : List Nat → State → State × Try
  | [], s => (s, .go)
  | va :: r, s =>
    match s.items.find? fun x => x.id == id with
    | none => (s, .go)
    | some x =>
      if (x.have va).isSome then State.readAll id r s
      else if x.paused then (s, .wait (s.tick + 1))
      else
        let q := s.readSrc x va
        match q.2 with
        | .go => State.readAll id r q.1
        | t => (q.1, t)

/-- The source granules of destination granule n but for a wrung block's. -/
def CopyItem.sources (x : CopyItem) (n : Nat) : List Nat :=
  let d := x.dest n
  let p := d.2.1
  let j := d.2.2.1
  let k := d.2.2.2
  if x.fn == 1 then
    dedup ((List.range (256 / x.elem)).map fun i =>
      (x.src + p * x.spp + (k * (256 / x.elem) + i) * x.spr + j * x.elem / 8) / 32 * 32)
  else [x.src + p * x.spp + j * x.spr + 32 * k]

/-- Element j of source row i of a plane, from the granules read. -/
def CopyItem.element (x : CopyItem) (p i j : Nat) : Nat :=
  let a := x.src + p * x.spp + i * x.spr + j * x.elem / 8
  let bs := match x.have a with | some e => e.1 | none => []
  let v := leNat ((bs.drop (a % 32)).take (max 1 (x.elem / 8)))
  if x.elem == 4 then v / 16 ^ (j % 2) % 16 else v

/-- The transposed granule of a destination (R250). -/
def CopyItem.transposed (x : CopyItem) (n : Nat) : List Byte :=
  let d := x.dest n
  let m := 256 / x.elem
  natLe 32 ((List.range m).foldr (fun i acc => x.element d.2.1 (d.2.2.2 * m + i) d.2.2.1 + acc * 2 ^ x.elem) 0)

/-- The bytes of a wrung block read so far, with their syndromes. -/
def CopyItem.block (x : CopyItem) : List Byte × List (BitVec 16) := (x.got.flatMap fun e => e.2.1, x.got.map fun e => e.2.2.1)

/-- Read a wrung block as far as row i needs it; a block grows by what its header and table say. -/
def State.readBlock (id i : Nat) : Nat → State → State × Try
  | 0, s => (s, .go)
  | n + 1, s =>
    match s.items.find? fun x => x.id == id with
    | none => (s, .go)
    | some x =>
      let b := x.block
      let need := wrungNeed b.1 b.2 x.rowb i
      if need ≤ b.1.length then (s, .go)
      else if x.paused then (s, .wait (s.tick + 1))
      else
        let q := s.readSrc x (x.src + b.1.length)
        match q.2 with
        | .go => State.readBlock id i n q.1
        | t => (q.1, t)

/-- A failed check of a granule of a wrung block is the expander's (R209). -/
def State.streamFault (s : State) (x : CopyItem) (row : Nat) : State :=
  match (wrungSuspect x.block.1 x.block.2 x.rowb allRows row).bind fun g => x.got[g]? with
  | some e => s.hemFault e.2.2.2 (s.itemAt x (32 * e.1)) e.2.2.1
  | none => s

/-- The hops of the granule in which a row of a wrung block begins (R208). -/
def CopyItem.rowTag (x : CopyItem) (i : Nat) : BitVec 64 :=
  match x.got[(wrungPay x.block.1 + wrungRoff x.block.1 i) / 32]? with | some e => e.2.2.2 | none => noTag

/-! ### Landing (R253) -/

/-- A granule as it lands: data, syndrome and tag; or the failure, with what its record adds. Its source is read now, when it is due to land
(R161, assumption 67). -/
def State.makeGranule (s : State) (x : CopyItem) : State × Except (Try × List Byte) (List Byte × BitVec 16 × BitVec 64) :=
  let n := x.landed
  match x.fn with
  | 2 =>
    let r := State.readBlock x.id (n / 4) 1100 s
    match r.2, r.1.items.find? fun y => y.id == x.id with
    | .go, some y =>
      match wrungRow y.block.1 y.block.2 y.rowb allRows (n / 4) with
      | .error (k, row) => (if k == 6 then r.1.streamFault y row else r.1, .error (.fail 9 x.src, natLe 1 k ++ natLe 1 row))
      | .ok (es, hems) => (r.1, .ok ((es.drop (32 * (n % 4))).take 32, (rowSyns es hems).getD (n % 4) 0, y.rowTag (n / 4)))
    | t, _ => (r.1, .error (t, []))
  | 1 =>
    let as := x.sources n
    let r := State.readAll x.id as s
    match r.2, r.1.items.find? fun y => y.id == x.id with
    | .go, some y =>
      (r.1, match as.find? fun a => match y.have a with | some e => e.2.1 != 0 | none => false with
        | some a =>
          let e := (y.have a).getD ([], 0, 0)
          .error (.fail 8 a, natLe 2 e.2.1.toNat ++ natLe 8 e.2.2.toNat)
        | none => .ok (y.transposed n, 0, noTag))
    | t, _ => (r.1, .error (t, []))
  | _ =>
    let a := (x.sources n).headD 0
    let r := State.readAll x.id [a] s
    match r.2, r.1.items.find? fun y => y.id == x.id with
    | .go, some y => (r.1, match y.have a with | some e => .ok e | none => .error (.wait (s.tick + 1), []))
    | t, _ => (r.1, .error (t, []))

/-- Store a granule with its syndrome and the tag kept with it. -/
def State.storeGranule (s : State) (loc : Nat) (e : List Byte × BitVec 16 × BitVec 64) : State :=
  (((s.hostCheck loc e.2.2 [e.2.1]).setBytes loc e.1).setSyn loc e.2.1).setTag loc (keptTag e.2.2)

/-- A granule lands in scratch or cluster memory: bytes and hem, token and slot in one step. -/
def State.landLocal (s : State) (x : CopyItem) (loc : Nat) (e : List Byte × BitVec 16 × BitVec 64) : State :=
  let s := (s.storeGranule loc e).setToken x fun v => v - 32
  let s := s.modItem x.id fun y => { y with landed := y.landed + 1, acked := y.acked + 1 }
  if x.counted then s.landOn (s.itemSlot x) 32 else s

/-- A granule lands in an owned sector, which is written back with its last one. -/
def State.landOwned (s : State) (x : CopyItem) (o : Op) (va : Nat) (e : List Byte × BitVec 16 × BitVec 64) : State :=
  let off := va % 64
  let m := o.mask ||| ((BitVec.allOnes 32).setWidth 64 <<< off)
  let tags := (List.range 2).flatMap fun g => natLe 8 (if g == off / 32 then keptTag e.2.2 else o.tags g).toNat
  let o := { o with data := overlay o.data off e.1, mask := m, syn := o.syn.set (off / 32) e.2.1, args := wordsOf tags }
  let x := { x with landed := x.landed + 1, lt := max x.lt o.wts }
  let s := s.watchItem x va 32 2
  let s := (s.modOp o.id fun _ => o).modItem x.id fun y => { y with landed := x.landed, lt := x.lt }
  if !o.sectorFull then s else if o.region.isSome then s.writeHome x o else s.writeSector o x.lt

/-- A core gives up the RD copy that a write into a press region meets; false while its write-back is on the way (R192). -/
def State.pressClear (s : State) (x : CopyItem) (sec : Nat) : State × Bool :=
  let core := s.coreOf x.tid
  match s.l1Of core sec with
  | some e => if e.st == .RD then (s.pressOut e, false)
      else (s, !s.pressing core sec)
  | none => (s, true)

/-- A granule lands in global memory, through the translation under which its sector was asked for. -/
def State.landGlobal (s : State) (x : CopyItem) (va : Nat) (e : List Byte × BitVec 16 × BitVec 64) : State × Try :=
  match (s.sectorOp x va).filter fun o => !o.unplaced with
  | none =>
    let r := s.itemPage x va true
    match r.2 with
    | .error t => (r.1, t)
    | .ok loc =>
      (match s.sectorOp x va with | some o => r.1.replace x o loc | none => r.1.ownSector x va loc, .wait (s.tick + 1))
  | some o =>
    let g := if isRemote o.loc then s.nodeGate x va (nodeKey o.loc) (s.portOf o.loc) else (s, .go)
    match g.2 with
    | .go =>
      if !o.done then (g.1, .wait (s.tick + 1))
      else if o.region.isSome then
        let p := g.1.pressClear x o.sec
        if !p.2 || !p.1.homeReady x o.sec then (p.1, .wait (s.tick + 1)) else (p.1.landOwned x o va e, .go)
      else (g.1.landOwned x o va e, .go)
    | t => (g.1, t)

/-- A granule's hops with the boundaries that it crosses from a die to the port of a fabric address (R12, R208). -/
def State.portWay (s : State) (a : BitVec 64) (die : Nat) (tag : BitVec 64) : BitVec 64 :=
  tag ||| (match s.portTo (fabKind a) (fabNode a) (fabOff a) with | some p => s.bndBits die (portDie p) | none => 0)

/-- A granule lands in pool or host memory. -/
def State.landFabric (s : State) (x : CopyItem) (va : Nat) (e : List Byte × BitVec 16 × BitVec 64) : State × Try :=
  let a := BitVec.ofNat 64 va
  if !fabStoreOk a then (s, .fail 7 va)
  else
    let g := s.nodeGate x va (fabNodeKey a) (s.portTo (fabKind a) (fabNode a) (fabOff a))
    let e := (e.1, e.2.1, s.portWay a (clusterDie x.cluster) e.2.2)
    match g.2 with
    | .go =>
      let s := (g.1.storeGranule (fabLoc a) e).modItem x.id fun y => { y with landed := y.landed + 1, acked := y.acked + 1 }
      (if x.counted then s.landOn (s.itemSlot x) 32 else s, .go)
    | .fail k b =>
      -- A write that timed out may have been performed (R141).
      (if x.due.isNone && !x.late then g.1 else if Config.lateWrite g.1.freeCtr then g.1.draw.storeGranule (fabLoc a) e else g.1.draw, .fail k b)
    | t => (g.1, t)

/-- The stamp of a `CPYS`: one 8-byte write with a hem made by the engine, after every payload byte (R187, R250). A granule that fails its
check takes no part of a stamp (R207, assumption 64). -/
def State.writeStamp (s : State) (x : CopyItem) : State × Try × List Byte :=
  let bs := (x.desc.drop 56).take 8
  let put (s : State) (loc : Nat) (tag : BitVec 64) (kept : BitVec 64) : State × Try × List Byte :=
    if s.synAt loc != 0 then (s, .fail 8 x.stampa, natLe 2 (s.synAt loc).toNat ++ natLe 8 tag.toNat)
    else ((s.setBytes loc bs).setTag loc kept, .go, [])
  let die := clusterDie x.cluster
  if x.dsp == 1 then
    let a := BitVec.ofNat 64 x.stampa
    if !fabStoreOk a then (s, .fail 7 x.stampa, [])
    else
      let g := s.nodeGate x x.stampa (fabNodeKey a) (s.portTo (fabKind a) (fabNode a) (fabOff a))
      match g.2 with
      | .go => put g.1 (fabLoc a) (tagJoin (tagBase 6 ||| s.fabWay a die) (s.tagAt (fabLoc a))) (keptTag (s.portWay a die noTag))
      | t => (g.1, t, [])
  else
    let r := s.itemPage x x.stampa true
    match r.2 with
    | .error t => (r.1, t, [])
    | .ok loc =>
      let sec := sectorKey x.ctx loc
      let p := if (s.regionOf x.ctx x.stampa).isSome then r.1.pressClear x sec else (r.1, true)
      if !p.2 || !p.1.homeReady x sec then (p.1, .wait (s.tick + 1), [])
      else
        let s := (p.1.watchItem x x.stampa 8 2).pull sec
        let tag := s.homeTag x.ctx loc die 6
        if s.synAt loc != 0 then put s loc tag 0
        else
          let w := s.orderWrite sec x.lt
          put (w.1.modItem x.id fun y => { y with lt := max y.lt w.2 }) loc tag (w.1.sentTag sec die 0)

/-- An item that has landed all its granules ends: a wrung block's tail is checked, a `CPYS` writes its stamp once its sectors have
been acknowledged. -/
def State.endItem (s : State) (x : CopyItem) : State :=
  match x.fn with
  | 3 =>
    if s.ops.any fun o => o.aop == x.id && (o.kind == .engOwn || o.kind == .engWrite) then s.modItem x.id fun y => { y with wake := s.tick + 1 }
    else
      let r := s.writeStamp x
      match r.2.1, r.1.items.find? fun y => y.id == x.id with
      | .go, some y => r.1.completeItem y
      | .wait d, _ => r.1.modItem x.id fun y => { y with wake := d }
      | .fail k a, some y => r.1.failItem y k a r.2.2
      | _, none => r.1
  | 2 =>
    let need := x.rowb
    let r := State.readAll x.id ((List.range (need / 32)).map fun i => x.src + 32 * i) s
    match r.2, r.1.items.find? fun y => y.id == x.id with
    | .go, some y =>
      (match wrungTail y.block.1 y.block.2 y.rowb with
       | none => r.1.completeItem y
       | some k => (if k == 6 then r.1.streamFault y 0xFF else r.1).failItem y 9 x.src (natLe 1 k ++ [0xFF]))
    | .wait d, _ => r.1.modItem x.id fun y => { y with wake := d }
    | .fail k a, some y => r.1.failItem y k a []
    | _, none => r.1
  | _ => s.completeItem x

/-- Land the next granule of an item. -/
def State.landNext (s : State) (x : CopyItem) : State :=
  let va := (x.dest x.landed).1
  let loc := s.itemLoc x x.dsp va
  let r := s.makeGranule x
  match r.2, r.1.items.find? fun y => y.id == x.id with
  | .error (.wait d, _), _ => r.1.modItem x.id fun y => { y with wake := d }
  | .error (.fail k a, more), some y => r.1.failItem y k a more
  | .ok e, some y =>
    if 2 ≤ x.dsp then
      if r.1.slots.contains (loc / 16) || r.1.slots.contains (loc / 16 + 1) then r.1.failItem y 10 va []
      else r.1.landLocal y loc e
    else
      let q := if x.dsp == 0 then r.1.landGlobal y va e else r.1.landFabric y va e
      match q.2, q.1.items.find? fun z => z.id == x.id with
      | .wait d, _ => q.1.modItem x.id fun z => { z with wake := d }
      | .fail k a, some z => q.1.failItem z k a []
      | _, _ => q.1
  | _, _ => r.1

/-- `GRANULE_LAND`: an item that a hit has paused goes no further, its stamp included (R389). -/
def execGranuleLand (item : Nat) (s : State) : Out :=
  match s.items.find? fun x => x.id == item && x.accepted && x.page.isNone with
  | none => .next s
  | some x =>
    let s := s.modItem item fun y => { y with paused := false }
    let x := { x with paused := false }
    let s := if x.landed < x.count then s.landNext x else s
    match s.items.find? fun y => y.id == item with
    | some y => if y.landed == y.count && y.wake ≤ s.tick && y.page.isNone && !y.paused then .next (s.endItem y) else .next s
    | none => .next s

/-! ### What engines do next -/

/-- Collectives to accept and granules to land. -/
def State.copyWork (s : State) : List Instr :=
  let keys := (s.items.filter fun x => !x.accepted).map fun x => (x.tid, x.bar)
  let full := keys.filter fun k => (collectives (s.heldItems k.1 k.2)).any collectiveFull
  (full.map fun k => Instr.collectiveAccept k.1 k.2) ++
  (s.items.filter fun x => x.accepted && x.wake ≤ s.tick && x.page.isNone && (!x.paused || s.peg.isNone)).map fun x => Instr.granuleLand x.id

end Sys2Proof.Machine
end

