-- ==== Sys2Proof/Machine/Launches.lean ====
section
/-! DEFINITION. Launches: `LAUNCH`, `PGPROBE`, `PGPREF` (R315, R339), the dispatcher (R308-R313, R319-R324), the placing of teams
(R313, R314, R316) and completion stamps (R312). -/

namespace Sys2Proof.Machine

/-! ### What system and page instructions answer -/

/-- A system or page instruction's operation, which writes n registers. -/
def State.systemOp (s : State) (fb : Bool) (t : Thread) (dst n : Nat) : Op :=
  { s.opOf t .sysw (t.sel fb) with regs := s.phys t dst n, size := 4 * n }

/-- The result of such an operation is on its way to its registers. -/
def State.replyWith (s : State) (o : Op) (ws : List Word) : State := s.send { o with fill := bytesOf ws } Instr.loadReturn

/-! ### LAUNCH (R315) -/

/-- Write the granules of a record at their homes, hems and tags carried unchanged. -/
def State.putRecord (s : State) (c die loc lt : Nat) (bs : List Byte) (syns : List (BitVec 16)) (tags : List (BitVec 64)) : State :=
  (List.range (bs.length / 64)).foldl (fun s i =>
    let at_ := loc + 64 * i
    let sec := sectorKey c at_
    let ys := (syns.drop (2 * i)).take 2
    let kept := (List.range 2).map fun g => some (tags.getD (2 * i + g) 0)
    let img : SecImg := { wb := false, wts := 0, rts := 0, data := (bs.drop (64 * i)).take 64, syn := ys, tags := kept }
    let s := ((s.pull sec).orderWrite sec lt).1.takeGranules sec die img
    s.patchGrants sec) s

/-- The 128 bytes of a record in memory with its hems; a node that does not serve them leaves all ones, as a load would get (R130, R141). -/
def State.readRecord (s : State) (t : Thread) (o : Op) (loc : Nat) : State × List Byte × List (BitVec 16) × List (BitVec 64) :=
  if s.reachable loc then
    let s := s.noteRemote o.ctx loc
    let r := s.ucRead o.ctx loc 128
    (r.1, r.2.1, r.1.syns loc 128, (List.range 4).map fun i => SMap.get 0 r.1.gtag (loc / 32 + i))
  else
    let kind := if (s.portOf loc).isNone || s.nodeState loc == 1 then 2 else 1
    ((s.fabRecord { o with addr := BitVec.ofNat 64 loc } kind []).noteTimeout t.uid,
     List.replicate 128 0xFF, List.replicate 4 0, List.replicate 4 0)

/-- One thread's append (R315): its release, refusals, then the array entry, then the record. -/
def State.launchOne (f : FZ) (s : State) (t : Thread) : State :=
  let c := s.ctxOf t.tid
  let core := s.coreOf t.tid
  let s := s.leaveTime core 3 [t.uid]
  let lt := s.orderTime core
  let die := coreDie core
  let q := field (s.src t (f.a + 2)) 9 0
  let x := s.queue q
  let o := s.systemOp f.fb t f.dst.toNat 1
  let shut := match x.state with | .disabled | .draining | .faulted => true | _ => false
  if x.ctx != some c || shut then s.replyWith o [0xFFFFFFFE]
  else if !x.feed || x.size ≤ x.used then s.replyWith o [0xFFFFFFFF]
  else
    let e := s.translate c (some core) die (x.entry x.prod) true
    let refuse (s : State) : State := (s.queueRecord c 5 q x.prod).replyWith o [0xFFFFFFFE]
    match e.2 with
    | .fault 5 _ lo len => e.1.parkThreads [t] 5 lo len 1
    | .fault .. => refuse e.1
    | .ok d _ _ =>
      if !e.1.reachable d then refuse e.1
      else
        let r := e.1.translate c (some core) die (s.pairNat t f.a) false
        match r.2 with
        | .fault kind _ lo len => r.1.parkThreads [t] kind lo len 0
        | .ok loc _ _ =>
          let b := r.1.readRecord t o loc
          let s := (b.1.noteRemote c d).putRecord c die d lt b.2.1 b.2.2.1 b.2.2.2
          let s := s.modQueue q fun x => { x with prod := (x.prod + 1) % 2 ^ 21, lts := SMap.put 0 x.prod lt x.lts }
          s.replyWith o [BitVec.ofNat 32 x.prod]

/-- `LAUNCH`. -/
def execLaunch (f : FZ) (s : State) : Out :=
  let ts := s.executing f.pred
  match s.pairTrap 0 ts f.a 128 with
  | some q => s.trapOut q
  | none =>
    if ts.any fun t => !s.threadOrdered 3 t then .next s.stallFence
    else .next (ts.foldl (State.launchOne f) s).advanceRest

/-! ### PGPROBE and PGPREF (R339) -/

/-- What a probe writes: the PTE with the level in bits 11:9, or the fault kind and level. -/
def probeResult : Xlate → BitVec 64
  | .ok _ e level => (e &&& ~~~0xE00#64) ||| BitVec.ofNat 64 ((3 - level) * 2 ^ 9)
  | .fault kind level _ _ => BitVec.ofNat 64 (kind * 2 ^ 12 + level * 2 ^ 9)

/-- One thread's probe. -/
def State.probe (f : FZ) (s : State) (t : Thread) : State :=
  let core := s.coreOf t.tid
  let r := s.translate (s.ctxOf t.tid) (some core) (coreDie core) (s.pairNat t f.a) false
  let x := probeResult r.2
  r.1.replyWith (s.systemOp f.fb t f.dst.toNat 2) [x.extractLsb' 0 32, x.extractLsb' 32 32]

/-- `PGPROBE`. -/
def execPgprobe (f : FZ) (s : State) : Out := .next ((s.executing f.pred).foldl (State.probe f) s).advance

/-- `PGPREF`: complete when its walk has ended or its request is open. -/
def execPgpref (f : FZP) (s : State) : Out :=
  .next ((s.executing f.pred).foldl (fun s t =>
    let id := s.nextId
    (s.begin (s.systemOp f.fb t 0 0)).post [.pageWalk (s.ctxOf t.tid) (s.coreOf t.tid) (s.srcPair t f.a) (some (s.teamIndex t.tid, t.pkt, t.slot)), .storeAck id]) s).advance

/-! ### Dispatch slots (R321, R323) -/

/-- The launch of a queue that is POSTED in a slot, or WAITING: its head. -/
def State.head (s : State) (q : Nat) : Option Launch :=
  s.launches.find? fun l => l.queue == q && (l.state == .posted || l.state == .waiting)

/-- The context may have launches dispatched. -/
def State.dispatches (s : State) (c : Nat) : Bool := match s.ctx c with | some x => x.state == .running | none => false

/-- How a dependence stands (R322). -/
inductive DepState where
  | met | failed | unmet
  deriving DecidableEq, Repr

/-- Judge one dependence of a head. -/
def State.judge (s : State) (l : Launch) (d : Nat) : DepState :=
  if d < 2 ^ 31 then .met
  else
    let x := s.queue (bits d 30 21)
    let n := bits d 20 0
    if x.ctx.isSome && x.ctx != some l.ctx then .met
    else if 2 ^ 20 ≤ numSub n x.ret then .met
    else if x.state == .faulted || (x.q == l.queue && numSub n l.number < 2 ^ 20) then .failed
    else .unmet

/-- Both dependences of a head, the worse of them first: a failed one decides (R310). -/
def State.judgeAll (s : State) (l : Launch) : DepState :=
  let a := s.judge l (recDep0 l.record)
  let b := s.judge l (recDep1 l.record)
  if a == .failed || b == .failed then .failed else if a == .unmet || b == .unmet then .unmet else .met

/-- The queue lets its launches leave POSTED and WAITING (R320). -/
def Queue.flows (x : Queue) : Bool := x.state == .active || x.state == .draining || x.state == .blocked

/-- The queue waits for a slot of its class. -/
def State.wantsSlot (s : State) (x : Queue) : Bool :=
  (match x.ctx with | some c => s.dispatches c | none => false) &&
  (match s.head x.q with
   | some l => l.state == .waiting && !l.slot && (x.state == .active || x.state == .draining) && s.judgeAll l == .met
   | none => (x.state == .active || x.state == .draining) && x.prod != x.cons)

/-- Slots of a class in use: 16 exist. -/
def State.slotsUsed (s : State) (cls : Nat) : Nat :=
  (s.launches.filter fun l => l.slot && l.queue != fwQueue && l.qprio == cls).length

/-- The queue that a free slot of a class goes to: round robin after the last one served. -/
def State.nextQueue (s : State) (cls : Nat) : Option Queue :=
  if 16 ≤ s.slotsUsed cls then none
  else
    let r := SMap.get 0 s.rr cls
    minBy (fun x : Queue => (x.q + 1024 - r) % 1024) (s.queues.filter fun x => x.prio == cls && s.wantsSlot x)

/-- `DISPATCH_SLOT_TAKE`: the queue's next launch is read, or its head, whose dependences have been met, is judged again (R323). -/
def execDispatchSlotTake (cls : Nat) (s : State) : Out :=
  match s.nextQueue cls with
  | none => .next s
  | some x =>
    let s := { s with rr := SMap.put 0 cls ((x.q + 1) % 1024) s.rr }
    match s.head x.q with
    | some l => .next (s.modLaunch l.lid fun l => { l with slot := true, qprio := cls })
    | none =>
      let l := Launch.fresh s.nextId (x.ctx.getD 0) x.q x.cons (SMap.get 0 x.lts x.cons) 0
      .next { s with launches := s.launches ++ [{ l with slot := true, qprio := cls }], nextId := s.nextId + 1 }

/-- Leave WAITING: the entry is free (R318). -/
def State.leaveWaiting (s : State) (l : Launch) : State :=
  s.modQueue l.queue fun x => { x with cons := (x.cons + 1) % 2 ^ 21, lts := SMap.del l.number x.lts }

/-- The unit a dispatcher's page request names. -/
def launchRec (l : Launch) : FRec := { FRec.blank 3 5 with unit := l.queue }

/-- A migrating page holds a step of a launch up until its request is resolved (R335); a full table is asked again (R333). -/
def State.holdLaunch (s : State) (l : Launch) (lo len acc : Nat) : State :=
  let r := s.pageRequest 0 l.ctx 5 lo len acc (launchRec l)
  r.1.modLaunch l.lid fun l => match r.2 with
    | some n => { l with page := some (pageKey 0 n) }
    | none => { l with wake := s.tick + 64 }

/-- Nothing holds a step of a launch up. -/
def State.unheld (s : State) (l : Launch) : Bool := l.page.isNone && l.wake ≤ s.tick

/-- The greatest `wts` of the sectors of n bytes at their homes. -/
def State.wtsAt (s : State) (c loc n : Nat) : Nat :=
  ((List.range ((loc % 64 + n + 63) / 64)).map fun i => (s.homeOf (sectorKey c (loc / 64 * 64 + 64 * i))).wts).foldl max 0

/-- The launch was posted by a host (R319). -/
def State.hostPosted (s : State) (l : Launch) : Bool := l.queue != fwQueue && !(s.queue l.queue).feed

/-- `LAUNCH_HEAD_READ`: the whole record is read once, as the head enters WAITING (R308); one that cannot be read faults the launch
(Table 21.3, kind 2), one whose hem fails leaves WAITING at once (Table 20.3, kind 4). A host-posted launch keeps the logical time of the
record that the dispatcher has read (R316, assumption 62). -/
def execLaunchHeadRead (q : Nat) (s : State) : Out :=
  match s.head q with
  | none => .next s
  | some l =>
    if l.state != .posted || !(s.queue q).flows || !s.unheld l then .next s
    else
      let r := s.translate l.ctx none 0 ((s.queue q).entry l.number) false
      match r.2 with
      | .fault 5 _ lo len => .next (r.1.holdLaunch l lo len 0)
      | .fault .. => .next ((r.1.leaveWaiting l).faultUnread l)
      | .ok loc _ _ =>
        let s := r.1
        if !s.reachable loc then .next ((s.leaveWaiting l).faultUnread l)
        else
          let s := s.noteRemote l.ctx loc
          let b := s.sysRead l.ctx 0 loc 128
          let lt := if s.hostPosted l then max l.lt (b.1.wtsAt l.ctx loc 128) else l.lt
          let s := b.1.modLaunch l.lid fun l => { l with record := ofBytes 1024 b.2.1, state := .waiting, lt := lt }
          .next (if b.2.2 then s else (s.leaveWaiting l).faultLaunch l.lid 4
            { FRec.blank 6 4 with detail := (b.1.badGranuleAt loc 128).elim [] fun g => b.1.badDetail g (b.1.homeTag l.ctx g 0 7) })

/-! ### The checks of R311 -/

/-- Eight bytes at a global address, none where they cannot be read or fail their check (R309). -/
def State.read8 (s : State) (c va : Nat) : State × Option Nat :=
  let r := s.locate c 0 va false
  match r.2 with
  | none => (r.1, none)
  | some loc =>
    let b := r.1.sysRead c 0 loc 8
    (b.1, if b.2.2 then some (leNat b.2.1) else none)

/-- The header of a placement map: none for no map, else K and M, K being 0 where the header is malformed (R309). -/
def State.mapHeader (s : State) (l : Launch) : State × Option (Nat × Nat) :=
  if recPmap l.record == 0 || recPmap l.record % 8 != 0 then (s, none)
  else
    let r := s.read8 l.ctx (recPmap l.record)
    (r.1, r.2.map fun h => if bits h 63 48 != 0 || 64 < bits h 15 0 then (0, 0) else (bits h 15 0, bits h 47 16))

/-- Register blocks of a team (R72). -/
def recBlocks (r : BitVec 1024) : Nat := recTsize r / 32 * (3 * recWin r + 1)

/-- Bytes of a team's scratch allocation and of its lane-own region. -/
def recSizes (r : BitVec 1024) : Nat × Nat := (roundUp (recScr r) 16384, roundUp (recTsize r * recPriv r) 16384)

/-- The fields of Table 20.1 are in range and its reserved bits 0. -/
def recFieldsOk (r : BitVec 1024) : Bool :=
  field r 1023 960 == 0 && !r.getLsbD 127 && recStampa r % 8 == 0 && recPmap r % 8 == 0 && recPrio r ≤ 7 && recAccs r ≤ 16 &&
  recPriv r % 16 == 0 && recScr r ≤ 3145728 && recHcp r ≤ 1 && field r 124 121 ≤ 12 && 2 ≤ recWin r && recWin r ≤ 16 &&
  32 ≤ recTsize r && recTsize r ≤ 1024 && recTsize r % 32 == 0 && 1 ≤ recTcount r && recTcount r * recTsize r ≤ 2 ^ 32 &&
  (recEntry r).toNat % 256 == 0

/-- One team fits an empty core (Table 20.3, kind 3). -/
def recFits (r : BitVec 1024) : Bool := recBlocks r ≤ 768 && (recSizes r).1 + (recSizes r).2 ≤ 3145728

/-- A dependence names a queue of another context. -/
def State.foreign (s : State) (l : Launch) (d : Nat) : Bool :=
  2 ^ 31 ≤ d && (match (s.queue (bits d 30 21)).ctx with | some c => c != l.ctx | none => false)

/-- The kind of the first check that fails (R311), none where all pass. -/
def State.launchCheck (s : State) (l : Launch) (map : Option (Nat × Nat)) : Option Nat :=
  if !recFieldsOk l.record || (match map with | some (0, _) => true | _ => false) then some 1
  else if (List.range 8).any fun k => !slotValid (recSlot l.record k) then some 2
  else if !recFits l.record then some 3
  else if s.foreign l (recDep0 l.record) || s.foreign l (recDep1 l.record) then some 5
  else none

/-- `LAUNCH_DISPATCH`: a head is judged by R322 and, its dependences met, checked by R311 (R310, R323). In a context that dispatches no launches
only the queue moves between ACTIVE and BLOCKED (R320). -/
def execLaunchDispatch (launch : Nat) (s : State) : Out :=
  match s.launch launch with
  | none => .next s
  | some l =>
    if l.state != .waiting || !(s.queue l.queue).flows then .next s
    else match s.judgeAll l with
      | .failed => .next (if s.dispatches l.ctx then (s.leaveWaiting l).faultLaunch launch 8 (FRec.blank 6 8)
          else s.modQueue l.queue fun x => if x.state == .blocked then { x with state := .active } else x)
      | .unmet => .next ((s.modLaunch launch fun l => { l with slot := false }).modQueue l.queue fun x =>
          if x.state == .active then { x with state := .blocked } else x)
      | .met =>
        if !l.slot || !s.dispatches l.ctx then .next (s.modQueue l.queue fun x => if x.state == .blocked then { x with state := .active } else x)
        else
          let m := s.mapHeader l
          match m.1.launchCheck l m.2 with
          | some k => .next ((m.1.leaveWaiting l).faultLaunch launch k (FRec.blank 6 k))
          | none =>
            let s := (m.1.leaveWaiting l).modLaunch launch fun l => { l with state := .dispatching, order := m.1.nextId, map := m.2 }
            .next { s with nextId := s.nextId + 1 }

/-! ### Placing teams (R313) -/

/-- The pages that a launch's map lists for a team (R309). -/
def State.teamPages (s : State) (l : Launch) (index : Nat) : State × List (BitVec 64) :=
  match l.map with
  | none => (s, [])
  | some (k, m) =>
    if m ≤ index then (s, [])
    else (List.range k).foldl (fun (r : State × List (BitVec 64)) j =>
      let q := r.1.read8 l.ctx (recPmap l.record + 8 + 8 * (k * index + j))
      (q.1, match q.2 with | some a => if a == 0 then r.2 else r.2 ++ [BitVec.ofNat 64 a] | none => r.2)) (s, [])

/-- Count the pages that lie in stacks of each die. -/
def State.pageDies (s : State) (c : Nat) (pages : List (BitVec 64)) : State × List Nat :=
  pages.foldl (fun (r : State × List Nat) a =>
    let x := r.1.translate c none 0 a.toNat false
    match x.2 with
    | .ok loc _ _ => if isRemote loc || x.1.fencedStack (paStack loc) then (x.1, r.2)
        else (x.1, r.2.modify (paStack loc / 4) (· + 1))
    | .fault .. => (x.1, r.2)) (s, [0, 0, 0, 0])

/-- The die a team goes to: the most pages, then the fewest teams of the launch, then the lowest. -/
def State.teamDie (s : State) (lid : Nat) (counts : List Nat) : Nat :=
  let held (d : Nat) : Nat := (s.teams.filter fun x => x.lid == lid && x.resident && !x.retired && coreDie x.core == d).length
  (minBy (fun d => (64 - counts.getD d 0) * 2 ^ 40 + held d) ((List.range 4).filter fun d => !s.fencedDie d)).getD 0

/-- The regions in use on a core's scratchpad. -/
def State.regionsOn (s : State) (core : Nat) : List (Nat × Nat) :=
  (s.teams.filter fun x => x.core == core && s.allocated x).flatMap fun x => [(x.scrBase, x.scrSize), (x.privBase, x.privSize)]

/-- The lowest multiple of 16 KiB at which n bytes fit beside the regions in use. -/
def firstFit (used : List (Nat × Nat)) (n : Nat) : Option Nat :=
  ((List.range 192).map (· * 16384)).find? fun a =>
    a + n ≤ 3145728 && used.all fun u => a + n ≤ u.1 || u.1 + u.2 ≤ a || u.2 == 0 || n == 0

/-- The lowest base under which every group of a team, named by its slot number, finds a spare core group slot on its scheduler
(R213). -/
def State.groupBase (s : State) (core : Nat) (slots : List Nat) : Option Nat :=
  (List.range 4).find? fun b => (List.range 4).all fun k =>
    let spare := 32 - (s.groups.filter fun g => g.place != .saved && g.sched == k && s.coreOf g.tid == core).length
    (slots.filter fun g => (g + b) % 4 == k).length ≤ spare

/-- Where a team with groups in the slots given would stand on a core: base, scratch and lane-own region; none where something is not
free. -/
def State.fitOn (s : State) (r : BitVec 1024) (slots : List Nat) (core : Nat) : Option (Nat × Nat × Nat) :=
  let here := s.teams.filter fun x => x.core == core && x.resident && !x.retired
  let total (f : BitVec 1024 → Nat) (ts : List Team) : Nat := (ts.map fun x => f (s.recordOf x.tid)).foldl (· + ·) 0
  let mates := s.teams.filter fun x => coreCluster x.core == coreCluster core && x.resident && !x.retired
  if s.fencedCore core || 4096 < total recTsize here + recTsize r || 768 < total recBlocks here + recBlocks r ||
     64 < total recAccs mates + recAccs r then none
  else do
    let b ← s.groupBase core slots
    let used := s.regionsOn core
    let a ← firstFit used (recSizes r).1
    let p ← firstFit ((a, (recSizes r).1) :: used) (recSizes r).2
    return (b, a, p)

/-- The lowest core of a die on which a team fits. -/
def State.corePlace (s : State) (r : BitVec 1024) (slots : List Nat) (die : Nat) : Option (Nat × Nat × Nat × Nat) :=
  ((List.range 96).map (· + 96 * die)).findSome? fun k => (s.fitOn r slots k).map fun x => (k, x)

/-- Where the next team of a launch goes now, with its pages. -/
def State.nextPlace (s : State) (l : Launch) : State × List (BitVec 64) × Option (Nat × Nat × Nat × Nat) :=
  let p := s.teamPages l l.placed
  let d := p.1.pageDies l.ctx p.2
  (d.1, p.2, d.1.corePlace l.record (List.range (recTsize l.record / 32)) (d.1.teamDie l.lid d.2))

/-- Barrier markers of a part of a core's scratchpad are taken away, and what releases have left there. -/
def State.clearSlots (s : State) (core base size : Nat) : State :=
  let lo := scratchLoc core base / 16
  let out (g : Nat) : Bool := !(lo ≤ g && g < lo + size / 16)
  { s with slots := s.slots.filter out, bankRel := s.bankRel.filter fun e => out e.1 }

/-- A team of a context takes these scratchpad allocations: a TEARDOWN will zero them (R348). -/
def State.noteUsed (s : State) (c : Nat) (as : List (Nat × Nat)) : State :=
  s.modCtx c fun x => { x with used := x.used ++ as.filter fun a => !x.used.contains a }

/-- Team `tid` of a launch stands on its core with its groups and threads as they start (R68, R314, R316). What a host posted synchronises at
`.SYSTEM` scope (R169). -/
def State.placeTeam (s : State) (l : Launch) (pages : List (BitVec 64)) (at_ : Nat × Nat × Nat × Nat) : State :=
  let core := at_.1
  let b := at_.2.1
  let r := l.record
  let tid := s.nextId
  let ng := recTsize r / 32
  let team : Team := { Team.fresh tid l.lid l.ctx l.placed core with
    base := b, scrBase := at_.2.2.1, scrSize := (recSizes r).1, privBase := at_.2.2.2, privSize := (recSizes r).2, pages := pages }
  let group (i : Nat) : Group := { Group.fresh (tid + 1 + i) tid i ((i + b) % 4) (startSregs r l.placed) 0 with entered := s.tick }
  let path (i : Nat) : Path := { Path.fresh (tid + 1 + ng + i) ((i + b) % 4) tid s.tick with parked := some s.tick }
  let thread (i : Nat) : Thread := Thread.fresh (tid + 1 + 2 * ng + i) tid i (tid + 1 + ng + i / 32)
  let s := (((s.raiseLt core l.lt).acquireDrop core (if s.hostPosted l then 4 else 3)).seedFloors core l.ctx)
  let s := (s.clearSlots core team.scrBase team.scrSize).clearSlots core team.privBase team.privSize
  let s := s.noteUsed l.ctx [(scratchLoc core team.scrBase, team.scrSize), (scratchLoc core team.privBase, team.privSize)]
  { s with
    teams := s.teams ++ [team], groups := s.groups ++ (List.range ng).map group, paths := s.paths ++ (List.range ng).map path,
    threads := s.threads ++ (List.range (recTsize r)).map thread, nextId := tid + 1 + 2 * ng + recTsize r }

/-- A launch with teams still to place. -/
def Launch.placing (l : Launch) : Bool :=
  (l.state == .dispatching || l.state == .running) && l.placed < recTcount l.record

/-- The launches that wait for resources, in the order in which they are offered them (R324). -/
def State.offered (s : State) : List Launch :=
  sortBy (fun l => (7 - l.cls) * 2 ^ 64 + l.order) (s.launches.filter fun l => l.placing && s.dispatches l.ctx)

/-- `TEAM_PLACE`: the next team of a launch is placed, if it fits now (R313, R314). -/
def execTeamPlace (launch : Nat) (s : State) : Out :=
  match s.launch launch with
  | none => .next s
  | some l =>
    if !l.placing || !s.dispatches l.ctx then .next s
    else
      let p := s.nextPlace l
      match p.2.2 with
      | none => .next p.1
      | some at_ =>
        .next ((p.1.placeTeam l p.2.1 at_).modLaunch launch fun l =>
          { l with state := .running, placed := l.placed + 1, slot := l.slot && l.placed + 1 != recTcount l.record })

/-! ### Completion (R312, R317) -/

/-- No ownership of a sector is on the move. -/
def State.homeStill (s : State) (sec : Nat) : Bool :=
  match (s.homeOf sec).st with
  | .S => true
  | .O k => !isEngine k && (match s.l1Of k sec with | some e => e.st == .O | none => false)
  | _ => false

/-- `RET` passes every launch that is DONE; their records go (Table 21.1). -/
def State.advanceRet : Nat → Nat → State → State
  | 0, _, s => s
  | n + 1, q, s =>
    match s.launches.find? fun l => l.queue == q && l.state == .done && l.number == (s.queue q).ret with
    | none => s
    | some l =>
      let s := { s with launches := s.launches.filter fun x => x.lid != l.lid }
      State.advanceRet n q (s.modQueue q fun x => { x with ret := (x.ret + 1) % 2 ^ 21 })

/-- A launch has written its stamp or cannot: it is DONE, or stays FAULTED and its record goes; so does one that its queue has been cleared of
or enabled anew since (R317, assumption 37). -/
def State.endLaunch (s : State) (l : Launch) : State :=
  let old := l.stale || 2 ^ 20 ≤ numSub l.number (s.queue l.queue).ret
  if l.state == .faulted || l.queue == fwQueue || old then { s with launches := s.launches.filter fun x => x.lid != l.lid }
  else
    let s := s.modLaunch l.lid fun l => { l with state := .done, stamped := true }
    State.advanceRet s.launches.length l.queue s

/-- A launch whose stamp may be written now: all that its teams had accepted is over. -/
def State.stampDue (s : State) (l : Launch) : Bool :=
  (l.state == .draining || l.state == .faulted) && !l.stamped && s.unheld l && s.teams.all fun x => x.lid != l.lid

/-- `LAUNCH_STAMP_WRITE` (R312): one 8-byte write of the tick; a migrating page is waited for, any other failure leaves a record of
kind 9. The dispatcher makes the granule's hem anew, but not over bytes that fail their check (R207, assumption 64). -/
def execLaunchStampWrite (launch : Nat) (s : State) : Out :=
  match s.launch launch with
  | none => .next s
  | some l =>
    if !s.stampDue l then .next s
    else if recStampa l.record == 0 then .next (s.endLaunch l)
    else
      let va := recStampa l.record
      let fail (more : List Byte) (s : State) : State :=
        (s.record l.ctx { FRec.blank 6 9 with unit := l.queue, addr := va, detail := natLe 4 l.queue ++ natLe 4 l.number ++ more }).endLaunch l
      if va % 8 != 0 then .next (fail [] s)
      else
        let r := s.translate l.ctx none 0 va true
        match r.2 with
        | .fault 5 _ lo len => .next (r.1.holdLaunch l lo len 1)
        | .fault .. => .next (fail [] r.1)
        | .ok loc _ _ =>
          let s := r.1
          let sec := sectorKey l.ctx loc
          if !s.reachable loc then .next (fail [] s)
          else if !s.homeStill sec then .next (s.modLaunch launch fun l => { l with wake := s.tick + 1 })
          else
            let s := (s.noteRemote l.ctx loc).pull sec
            if s.synAt loc != 0 then
              let tag := s.homeTag l.ctx loc 0 7
              .next (fail (s.badDetail loc tag) (s.hemFault tag loc (s.synAt loc)))
            else
              let v := s.tick % 2 ^ 63 + (if l.state == .faulted then 2 ^ 63 else 0)
              .next ((((s.orderWrite sec l.lt).1.setNat loc 8 v).patchGrants sec).endLaunch l)

/-! ### HOST_PROD_WRITE (R319) -/

/-- `HOST_PROD_WRITE`: the control word is reached by the owning host alone. -/
def execHostProdWrite (host q : Nat) (value : BitVec 32) (s : State) : Out :=
  let x := s.queue q
  match x.ctx with
  | none => .next s
  | some c =>
    if !(match s.ctx c with | some y => y.host == host && y.state != .free | none => false) then .next s
    else
      let v := field value 20 0
      let d := numSub v x.prod
      let fits := 1 ≤ d && d ≤ x.size - x.used
      if d == 0 || (fits && field value 31 21 != 0) then .next s
      else if x.feed || !(x.state == .idle || x.state == .active || x.state == .blocked) then .next (s.queueRecord c 4 q x.prod)
      else if fits then .next (s.modQueue q fun x => { x with prod := v })
      else .next (s.queueRecord c 1 q x.prod)

/-! ### FIRMWARE_QUEUE_POST (R42) -/

/-- `FIRMWARE_QUEUE_POST`: a launch of the firmware context, which holds no entry of a work queue and waits for nothing. -/
def execFirmwareQueuePost (record : BitVec 1024) (s : State) : Out :=
  match s.fwCtx with
  | none => .next s
  | some _ =>
    let n := s.nextId
    let l : Launch := { Launch.fresh n fwNum fwQueue n 0 n with record := record, state := .waiting }
    let s := { s with launches := s.launches ++ [l], nextId := n + 1 }
    let m := s.mapHeader l
    match m.1.launchCheck { l with record := record &&& ~~~(BitVec.ofNat 1024 ((2 ^ 64 - 1) * 2 ^ 832)) } m.2 with
    | some k => .next (m.1.faultLaunch n k (FRec.blank 6 k))
    | none => .next (m.1.modLaunch n fun l => { l with state := .dispatching, map := m.2 })

/-! ### What the dispatcher does next -/

/-- Slots to take, heads to read and judge, teams to place and stamps to write, each only where it can act now. -/
def State.launchWork (s : State) : List Instr :=
  if s.launches.isEmpty && s.queues.isEmpty then []
  else
    let heads := s.launches.filter fun l => l.queue != fwQueue && (s.queue l.queue).flows && s.unheld l
    (heads.filter fun l => l.state == .posted && s.dispatches l.ctx).map (fun l => Instr.launchHeadRead l.queue) ++
    (heads.filter fun l => l.state == .waiting && (match s.judgeAll l with
      | .failed => s.dispatches l.ctx || (s.queue l.queue).state == .blocked
      | .unmet => l.slot || (s.queue l.queue).state == .active
      | .met => (l.slot && s.dispatches l.ctx) || (s.queue l.queue).state == .blocked)).map (fun l => Instr.launchDispatch l.lid) ++
    ((List.range 8).filter fun c => (s.nextQueue c).isSome).map Instr.dispatchSlotTake ++
    ((s.offered.find? fun l => (s.nextPlace l).2.2.isSome).toList.map fun l => Instr.teamPlace l.lid) ++
    (s.launches.filter s.stampDue).map fun l => Instr.launchStampWrite l.lid

end Sys2Proof.Machine
end

