-- ==== Sys2Proof/Machine/Matrix.lean ====
section
/-! DEFINITION. The matrix engines: posting, the arbiter, operand fetches, passes, tile operations and `MFENCE` (R206, R258-R277). -/

namespace Sys2Proof.Machine

/-! ### Issue (R259, R260, R266, R268) -/

/-- The checks of a matrix word, in the order of R260. -/
def State.matrixTrap (s : State) (i : Instr) : Option TrapReq :=
  if s.badSlotRead i then some (TrapReq.of 0x04)
  else if !s.whole then some (TrapReq.of 0x0B)
  else (s.matrixCause i).map TrapReq.of

/-- The 512 words of a register operand: row by row, 32 words a row (R266). -/
def State.registerOperand (s : State) (base : Nat) : List Word :=
  (List.range 512).map fun i =>
    match s.gangThreads.find? fun t => t.lane == 2 * (i / 32) + i % 32 / 16 with
    | some t => t.v (s.win t.tid) (base + i % 16)
    | none => 0

/-- The class of a team's launch (R323). -/
def State.classOf (s : State) (tid : Nat) : Nat :=
  match s.launchOf tid with
  | some l => l.cls
  | none => 0

/-- Requests that an engine holds. -/
def State.reserved (s : State) (cluster : Nat) : Nat := (s.mreqs.filter fun m => m.cluster == cluster).length

/-- The withdrawn requests of a group, in their original order. -/
def State.reqsOf (s : State) (gid : Nat) : List MReq := sortBy MReq.id (s.wReqs.filter fun m => m.gid == gid)

/-- A tile operation of the gang: one operation for each thread, told apart by the first one's id. It does not pass a request of its group that
is still to be posted again (R271, R277). -/
def State.tileIssue (s : State) (i : Instr) (k : OpKind) (fb : Bool) (acc : BitVec 4) (slot : BitVec 3)
    (mk : Thread → Op → Op) : Out :=
  match s.matrixTrap i, s.gangThreads with
  | some q, _ => s.trapOut q
  | none, [] => .next s
  | none, t :: r =>
    let id := s.nextId
    if !(s.reqsOf (s.gidOf t)).isEmpty then .next (s.stallGang .engine)
    else .next ((t :: r).foldl (fun (s : State) u =>
      s.begin (mk u { s.opOf u k (u.sel fb) with aop := id, loc := acc.toNat, addr := s.slotFmt u slot, rtype := u.lane })) s).advance

/-- `ACCZ`. -/
def execAccz (f : FAcc) (s : State) : Out := s.tileIssue (.accz f) .tileZ f.fb f.acc f.slot fun _ o => o

/-- `ACCNORM`. -/
def execAccnorm (f : FAcc) (s : State) : Out := s.tileIssue (.accnorm f) .tileNorm f.fb f.acc f.slot fun _ o => o

/-- The first register of a block. -/
def blockBase (f : FAccRW) : Nat := if f.ra then 16 else 32

/-- `ACCRD`. -/
def execAccrd (f : FAccRW) (s : State) : Out :=
  s.tileIssue (.accrd f) .tileRd f.fb f.acc f.slot fun t o =>
    { o with size := (s.sreg t f.desc.toNat).toNat, regs := s.phys t (blockBase f) 16 }

/-- `ACCWR`: the block is read now (R275). -/
def execAccwr (f : FAccRW) (s : State) : Out :=
  s.tileIssue (.accwr f) .tileWr f.fb f.acc f.slot fun t o =>
    { o with size := (s.sreg t f.desc.toNat).toNat, args := (List.range 16).map fun i => t.v (s.win t.tid) (blockBase f + i) }

/-- An operation that a group's `MFENCE` waits for: a matrix word that the group issued, or a bank's store or atomic of one of its threads
(R273). -/
def fencedByMatrix (gid : Nat) (us : List Nat) (o : Op) : Bool :=
  match o.kind with
  | .mma | .tileZ | .tileNorm | .tileRd | .tileWr => o.gid == gid
  | .store | .atomic => us.contains o.uid && 2 ≤ o.space
  | _ => false

/-- `MFENCE`. -/
def execMfence (f : FC) (s : State) : Out :=
  match s.matrixTrap (.mfence f), s.gangThreads with
  | some q, _ => s.trapOut q
  | none, [] => .next s
  | none, t :: _ =>
    let us := match s.groupOf t with | some g => uids (s.members g) | none => []
    if s.ops.any fun o => o.id < s.gangCut && fencedByMatrix (s.gidOf t) us o then .next s.stallFence else .next s.advance

/-! ### Operand fetches (R264, R267, R272, R276) -/

/-- Why a pass is not applied: kind of Table 15.7, cluster address, expander's kind and row (R283); and where a check of a granule has
failed, its location, syndrome and path tag. -/
structure MFail where
  kind : Nat
  addr : Nat
  loc  : Nat
  syn  : BitVec 16
  tag  : BitVec 64
  exp  : Nat
  row  : Nat
  deriving DecidableEq, Repr

/-- A failure without a hem. -/
def MFail.of (kind addr : Nat) : MFail := { kind := kind, addr := addr, loc := 0, syn := 0, tag := 0, exp := 0, row := 0 }

/-- An offset stays within bits 21:0 of a cluster address (R264). -/
def clusterOff (off : Nat) : Nat := off % 2 ^ 22

/-- A cluster address from its position and its offset. -/
def clusterAddr (pos off : Nat) : Nat := pos * 2 ^ 22 + clusterOff off

/-- Bytes within one granule of cluster memory lie within the launch's allocations and in no barrier slot (R127, R239). -/
def State.mBound (s : State) (m : MReq) (pos off n : Nat) : Option MFail :=
  let off := clusterOff off
  let core := 4 * m.cluster + pos
  let lid := match s.team m.tid with | some x => x.lid | none => 0
  let addr := clusterAddr pos off
  if 3145728 < off + n || !s.inLaunch lid core off || !s.inLaunch lid core (off + n - 1) then some (MFail.of 1 addr)
  else if s.slots.contains (scratchLoc core off / 16) || s.slots.contains (scratchLoc core (off + n - 1) / 16) then some (MFail.of 3 addr)
  else none

/-- Fetch n bytes within one granule. -/
def State.mGranule (s : State) (m : MReq) (pos off n : Nat) : Except MFail (List Byte) :=
  match s.mBound m pos off n with
  | some e => .error e
  | none =>
    let loc := scratchLoc (4 * m.cluster + pos) (clusterOff off)
    if s.synAt loc != 0 then
      .error { MFail.of 2 (clusterAddr pos off) with loc := loc, syn := s.synAt loc, tag := s.bankTag (4 * m.cluster) loc 1 }
    else .ok (s.bytes loc n)

/-- Fetch the granules of a range, in order. -/
def State.mRange (s : State) (m : MReq) (pos off : Nat) : Nat → Except MFail (List Byte)
  | 0 => .ok []
  | n + 1 =>
    match s.mGranule m pos off 32, State.mRange s m pos (off + 32) n with
    | .ok a, .ok b => .ok (a ++ b)
    | .error e, _ => .error e
    | _, .error e => .error e

/-- Fetch operand rows of 128 bytes at a pitch. -/
def State.mRows (s : State) (m : MReq) (pos off pitch : Nat) : Nat → Except MFail (List (List Byte))
  | 0 => .ok []
  | n + 1 =>
    match s.mRange m pos off 4, State.mRows s m pos (off + pitch) pitch n with
    | .ok a, .ok b => .ok (a :: b)
    | .error e, _ => .error e
    | _, .error e => .error e

/-- Fetch n FP32 scales from an offset upward. -/
def State.mScales (s : State) (m : MReq) (pos off : Nat) : Nat → Except MFail (List (Option (Int × Int)))
  | 0 => .ok []
  | n + 1 =>
    match s.mGranule m pos off 4, State.mScales s m pos (off + 4) n with
    | .ok a, .ok b => .ok (F32.exact (leNat a) :: b)
    | .error e, _ => .error e
    | _, .error e => .error e

/-- Rows of a register operand. -/
def operandRows (ws : List Word) : List (List Byte) := (List.range 16).map fun i => bytesOf ((ws.drop (32 * i)).take 32)

/-- Register k of a request's descriptor. -/
def MReq.reg (m : MReq) (k : Nat) : Word := m.desc.getD k 0

/-- Position and offset of a descriptor address, moved on to pass r; the offset stays within bits 21:0 (R264, assumption 33). -/
def MReq.at_ (m : MReq) (k r step : Nat) : Nat × Nat := (field (m.reg k) 23 22, clusterOff (field (m.reg k) 21 0 + step * r))

/-- Bounds and slots over the granules of a range of a wrung block. -/
def State.mSpan (s : State) (m : MReq) (pos off lo hi : Nat) : Option MFail :=
  (List.range (if hi ≤ lo then 0 else (lo % 32 + (hi - lo) + 31) / 32)).findSome? fun i => s.mBound m pos (off + lo / 32 * 32 + 32 * i) 32

/-- The wrung block that a pass decodes: its address, bytes, syndromes, stored length and the rows that are decoded. -/
structure MBlock where
  pos   : Nat
  off   : Nat
  bytes : List Byte
  syn   : List (BitVec 16)
  len   : Nat
  part  : Nat × Nat
  deriving DecidableEq, Repr

/-- The location of a block. -/
def MBlock.loc (x : MBlock) (m : MReq) : Nat := scratchLoc (4 * m.cluster + x.pos) x.off

/-- The expander fails with a kind and a row; a failed check of a granule is its own (R209, R283). -/
def State.mMalformed (s : State) (m : MReq) (x : MBlock) (k row : Nat) : MFail :=
  let e := { MFail.of 4 (clusterAddr x.pos x.off) with exp := k, row := row }
  match (if k == 6 then wrungSuspect x.bytes x.syn x.len x.part row else none) with
  | some g => { e with loc := x.loc m + 32 * g, syn := x.syn.getD g 0, tag := s.bankTag (4 * m.cluster) (x.loc m + 32 * g) 2 }
  | none => e

/-- Decode rows of a wrung block for a pass: the rows named, with their decoded-row hems checked at the fetch (R200, R267, R284). A row's
place is judged before it is read (Table 16.3). -/
def State.mWrungRows (s : State) (m : MReq) (x : MBlock) : List Nat → Except MFail (List (List Byte))
  | [] => .ok []
  | i :: r =>
    let b := x.bytes
    let lo := wrungPay b + wrungRoff b i
    match (if wrungPlaced b i then s.mSpan m x.pos x.off lo (wrungPay b + wrungEnd b i) else none) with
    | some e => .error e
    | none =>
      match wrungRow b x.syn x.len x.part i with
      | .error (k, row) => .error (s.mMalformed m x k row)
      | .ok (es, hems) =>
        match (rowSyns es hems).find? (· != 0) with
        | some y =>
          let loc := x.loc m + lo / 32 * 32
          .error { MFail.of 2 (clusterAddr x.pos x.off) with loc := loc, syn := y, tag := s.bankTag (4 * m.cluster) loc 1 }
        | none =>
          match State.mWrungRows s m x r with
          | .ok rows => .ok (es :: rows)
          | .error e => .error e

/-- The B rows and tile scale of a wrung block at an address. Each part of the block is read only where it lies within bounds, and judged as
it is read (R276, R283, R286). -/
def State.mWrung (s : State) (m : MReq) (pos off : Nat) (rows : List Nat) : Except MFail (List (List Byte) × Nat) := do
  let L := 32 * pitchRow (m.reg 3)
  let loc := scratchLoc (4 * m.cluster + pos) off
  let n := max L 64
  let b := s.bytes loc n
  let x : MBlock := { pos := pos, off := off, bytes := b, syn := s.syns loc n, len := L, part := (rows.headD 0, rows.length) }
  let reach (lo hi : Nat) : Except MFail Unit := match s.mSpan m pos off lo hi with | some e => .error e | none => .ok ()
  let judge (k : Option Nat) : Except MFail Unit := match k with | some k => .error (s.mMalformed m x k 0xFF) | none => .ok ()
  reach 0 64
  judge (wrungHeader b x.syn L)
  reach 64 (wrungTab b)
  judge (wrungStart b x.syn L)
  let t := wrungEntries b x.part
  reach t.1 (t.1 + t.2)
  judge (wrungFront b x.syn L x.part)
  let rs ← s.mWrungRows m x rows
  if rows.length == 128 then
    reach (wrungPay b + wrungPlen b) L
    judge (wrungTail b x.syn L)
  .ok (rs, leNat ((b.drop 4).take 4))

/-- The elements of an operand row. -/
def rowElems (fmt : BitVec 64) (row : List Byte) : List (Option (Int × Int)) :=
  let n := slotElem fmt
  (List.range (slotK fmt)).map fun k => elemExact (slotAfmt fmt) (leNat ((row.drop (n * k)).take n))

/-- What a pass has fetched: A rows, B rows, row scales and tile scale. -/
structure MOperands where
  arows : List (List Byte)
  brows : List (List Byte)
  sa    : List (Option (Int × Int))
  sb    : Option (Int × Int)
  deriving DecidableEq, Repr

/-- One. -/
def dyOne : Option (Int × Int) := some (1, 0)

/-- Fetch the operands and scales of pass r: A, then B, then the scales of A and of B. -/
def State.mFetch (s : State) (m : MReq) (r : Nat) : Except MFail MOperands := do
  let M := shapeM m.shape
  let N := shapeN m.shape
  let a := m.at_ 0 r (1024 * pitchPass (m.reg 1))
  let b := m.at_ 2 r (1024 * pitchPass (m.reg 3))
  let c := pitchC (m.reg 3)
  let arows ← match m.ra with
    | some ws => Except.ok (operandRows ws)
    | none => s.mRows m a.1 a.2 (32 * pitchRow (m.reg 1)) M
  let wrung := m.rb.isNone && slotBstore m.fmt == 1
  let brows ← match m.rb with
    | some ws => Except.ok (operandRows ws, 0)
    | none =>
      if wrung then s.mWrung m b.1 b.2 (if N == 16 then (List.range 16).map fun j => 16 * c + j else List.range 128)
      else match s.mRows m b.1 b.2 (32 * pitchRow (m.reg 3)) N with
        | .ok rows => Except.ok (rows, 0)
        | .error e => Except.error e
  let x := m.at_ 4 r (4 * M)
  let sa ← if slotAscale m.fmt == 0 then Except.ok (List.replicate M dyOne) else s.mScales m x.1 x.2 M
  let y := m.at_ 5 r 4
  let sb ← if slotBscale m.fmt == 0 then Except.ok [dyOne]
    else if wrung then Except.ok [F32.exact brows.2] else s.mScales m y.1 y.2 1
  Except.ok { arows := arows, brows := brows.1, sa := sa, sb := sb.headD none }

/-- The exact products of a pass by element (R62, R268). -/
def MReq.products (m : MReq) (x : MOperands) : List (Nat × Option (Int × Int)) :=
  let q := if shapeM m.shape == 16 then pitchQ (m.reg 1) else 0
  let c := if shapeN m.shape == 16 then pitchC (m.reg 3) else 0
  let as := x.arows.map (rowElems m.fmt)
  let bs := x.brows.map (rowElems m.fmt)
  let row (i : Nat) (a : List (Option (Int × Int))) : List (Nat × Option (Int × Int)) :=
    ((List.range bs.length).zip bs).map fun p =>
      (128 * (16 * q + i) + 16 * c + p.1,
       match dotExact a p.2, x.sa.getD i none, x.sb with
       | some d, some u, some v => some (dyMul (dyMul d u) v)
       | _, _, _ => none)
  ((List.range as.length).zip as).flatMap fun p => row p.1 p.2

/-- Bytes that a pass fetches but for a wrung block's: operands and scales (R261). -/
def MReq.fetchBytes (m : MReq) : Nat :=
  let wrung := slotBstore m.fmt == 1
  (if m.ra.isSome then 0 else 128 * shapeM m.shape) + (if m.rb.isSome || wrung then 0 else 128 * shapeN m.shape) +
  (if slotAscale m.fmt == 0 then 0 else 4 * shapeM m.shape) + (if slotBscale m.fmt == 0 || wrung then 0 else 4)

/-- Cycles of a pass: the larger of its compute time (Table 15.1), its fetch time at 1,024 bytes a cycle (R261), and a wrung block's decoding
at two cycles a row after 8 for its header and table (R285). -/
def MReq.cycles (m : MReq) : Nat :=
  let compute := (match m.shape with | 0 => 32 | 1 => 8 | 2 => 8 | _ => 2) * (if slotAfmt m.fmt ≤ 1 then 1 else 2)
  max (max compute ((m.fetchBytes + 1023) / 1024)) (if slotBstore m.fmt == 1 && m.rb.isNone then 8 + 2 * shapeN m.shape else 0)

/-! ### Completion and failure (R276) -/

/-- A request's flag counts fall and its entry frees. -/
def State.finishRequest (s : State) (m : MReq) : State :=
  let mine := s.ops.filter fun o => o.kind == .mma && o.aop == m.id
  let c := s.tick - (match mine.head? with | some o => o.issued | none => s.tick)
  let s := (mine.foldl State.finish s).countLatency (unitKey 1 m.cluster) c
  { s with mreqs := s.mreqs.filter fun x => x.id != m.id }

/-- A request ends at pass r with one record. -/
def State.endRequest (s : State) (m : MReq) (r : Nat) (e : MFail) : State :=
  let s := (if e.kind == 2 then s.putTile { s.tile m.tid m.acc with poison := true } else s).hemFault e.tag e.loc e.syn
  let syn := if e.kind == 2 then e.syn else 0
  let tag := if e.kind == 2 then e.tag else 0
  let s := s.record m.ctx { FRec.blank 2 e.kind with
    team := s.teamIndex m.tid, addr := e.addr, pc := m.pkt.toNat, slot := m.slot, die := clusterDie m.cluster, unit := m.cluster,
    detail := natLe 1 m.acc ++ natLe 1 r ++ natLe 2 syn.toNat ++ natLe 8 tag.toNat ++ natLe 1 e.exp ++ natLe 1 e.row }
  s.finishRequest m

/-- The request enters a poisoned tile: no pass of it has been granted, and no older `ACCZ` is to clear the mark (R206, R268). -/
def State.intoPoison (s : State) (m : MReq) : Bool :=
  (s.tile m.tid m.acc).poison && m.next == 0 &&
  s.ops.all fun o => !(o.kind == .tileZ && o.tid == m.tid && o.loc == m.acc && o.id < m.id)

/-- Requests into a tile that is poisoned are discarded at once, each with a record of kind 6 (R206, R268). -/
def State.discard (s : State) (tid acc : Nat) : State :=
  (s.mreqs.filter fun m => m.tid == tid && m.acc == acc).foldl
    (fun s m => if s.intoPoison m then s.endRequest m m.next (MFail.of 6 0) else s) s

/-- A request fails at pass r; the tile that it poisons takes no other. -/
def State.failRequest (s : State) (m : MReq) (r : Nat) (e : MFail) : State := (s.endRequest m r e).discard m.tid m.acc

/-- `MMA`: an entry of the reservation table, or a wait for one, and for the group's withdrawn requests to be posted again; one into a poisoned tile
is discarded at once (R206, R258, R268, R277). -/
def execMma (f : FMma) (s : State) : Out :=
  match s.matrixTrap (.mma f), s.gangThreads with
  | some q, _ => s.trapOut q
  | none, [] => .next s
  | none, t :: _ =>
    let core := s.coreOf t.tid
    if 32 ≤ s.reserved (coreCluster core) || !(s.reqsOf (s.gidOf t)).isEmpty then .next (s.stallGang .engine)
    else
      let m : MReq := {
        id := s.nextId, cluster := coreCluster core, tid := t.tid, gid := s.gidOf t, ctx := s.ctxOf t.tid, slot := t.slot, pkt := t.pkt,
        cls := s.classOf t.tid, acc := f.acc.toNat, fmt := s.slotFmt t f.slot, shape := f.shape.toNat, rep := f.rep.toNat,
        desc := s.descRegs t f.desc, ra := if f.ra then some (s.registerOperand 16) else none,
        rb := if f.rb then some (s.registerOperand 32) else none, next := 0, word := (encode (.mma f)).getD 0, owners := [] }
      let s := { s with nextId := s.nextId + 1, mreqs := s.mreqs ++ [m] }
      .next ((s.gangThreads.foldl (fun s u => s.begin { s.opOf u .mma (u.sel f.fb) with aop := m.id }) s).advance.discard m.tid m.acc)

/-! ### Withdrawn requests come back (R277) -/

/-- Register k of a request that is posted again on a cluster: its address on the current base of its team's allocation, or else the offset
where the team has none there. -/
def State.rebase (s : State) (m : MReq) (cluster k : Nat) : Except Nat Word :=
  match m.owners.getD k none with
  | none => .ok (m.reg k)
  | some tid =>
    match (s.team tid).filter fun x => x.resident && coreCluster x.core == cluster with
    | some x => .ok (BitVec.ofNat 32 (x.core % 4 * 2 ^ 22 + x.scrBase + (m.reg k).toNat))
    | none => .error (m.reg k).toNat

/-- A withdrawn request is posted again: it is the newest of its engine (R269). -/
def State.renumber (s : State) (m : MReq) : State :=
  let id := s.nextId
  { s with
    nextId := id + 1, mreqs := s.mreqs ++ [{ m with id := id }],
    ops := s.ops.map fun o => if o.kind == .mma && o.aop == m.id then { o with aop := id } else o }

/-- Post a withdrawn request again, if its new engine has an entry free; one whose operand's team is gone fails. -/
def State.repostReq (s : State) (m : MReq) : State :=
  let cluster := coreCluster (s.coreOf m.tid)
  if 32 ≤ s.reserved cluster then s
  else
    let s := { s with wReqs := s.wReqs.filter fun x => x.id != m.id }
    let m' := { m with cluster := cluster, owners := [] }
    if m.rep < m.next then s.finishRequest m'
    else match (List.range 6).mapM (s.rebase m cluster) with
    | .ok desc => (s.renumber { m' with desc := desc }).discard m.tid m.acc
    | .error a => s.failRequest m' m.next (MFail.of 5 a)

/-- Post again what requests of restored groups find room for. -/
def State.repostReqs (s : State) : State :=
  (sortBy MReq.id (s.wReqs.filter fun m => !s.savedGid m.gid)).foldl State.repostReq s

/-! ### The arbiter (R269-R271) -/

/-- The requests on a tile, those that wait to be posted again included. -/
def State.reqsOn (s : State) (tid acc : Nat) : List MReq := (s.mreqs ++ s.wReqs).filter fun m => m.tid == tid && m.acc == acc

/-- The request has had some but not all of its passes granted. -/
def MReq.begun (m : MReq) : Bool := 0 < m.next && m.next ≤ m.rep

/-- A pass is running on an engine. -/
def State.busyEngine (s : State) (cluster : Nat) : Bool := s.mpass.any fun p => p.cluster == cluster

/-- The running pass of a request is its last, whose product is not yet in the tile. -/
def State.inPass (s : State) (m : MReq) : Bool := s.mpass.any fun p => p.req == m.id

/-- A tile operation that stands for the whole gang's. -/
def isTileOp (o : Op) : Bool :=
  match o.kind with
  | .tileZ | .tileNorm | .tileRd | .tileWr => o.id == o.aop
  | _ => false

/-- A tile operation that may be applied now: its engine is at a boundary, older operations on the tile have been applied, and but
for `ACCRD` no request on the tile is under way (R271). -/
def State.tileOpReady (s : State) (o : Op) : Bool :=
  isTileOp o && !s.busyEngine (coreCluster (s.coreOf o.tid)) &&
  (s.ops.all fun x => !(isTileOp x && x.tid == o.tid && x.loc == o.loc && x.id < o.id)) &&
  (o.kind == .tileRd || (s.reqsOn o.tid o.loc).all fun m => !m.begun)

/-- A request may be granted a pass (R270). -/
def State.mayPass (s : State) (m : MReq) : Bool :=
  m.next ≤ m.rep && !s.inPass m &&
  ((s.reqsOn m.tid m.acc).all fun x => x.id == m.id ||
    !(x.begun || (x.shape == m.shape && x.id < m.id && x.next ≤ x.rep))) &&
  s.ops.all fun o => !(isTileOp o && o.kind != .tileRd && o.tid == m.tid && o.loc == m.acc && o.id < m.id)

/-- The request that an engine's next grant goes to (R269). -/
def State.nextGrant (s : State) (cluster : Nat) : Option MReq :=
  let es := s.mreqs.filter fun m => m.cluster == cluster && s.mayPass m
  if SMap.get 0 s.grantNo cluster % 4 == 3 then minBy MReq.id es
  else minBy (fun m : MReq => (7 - m.cls) * 2 ^ 64 + m.id) es

/-- `MATRIX_PASS_GRANT`: at a boundary with no tile operation to apply, the next pass is granted and its operands are fetched. -/
def execMatrixPassGrant (cluster : Nat) (s : State) : Out :=
  if s.withheld.contains (true, cluster) then .next { s with withheld := s.withheld.erase (true, cluster) }
  else if s.busyEngine cluster || s.ops.any fun o => s.tileOpReady o && coreCluster (s.coreOf o.tid) == cluster then .next s
  else match s.nextGrant cluster with
    | none => .next s
    | some m =>
      if s.intoPoison m then .next (s.discard m.tid m.acc)
      else
        let s := { s with grantNo := SMap.put 0 cluster (SMap.get 0 s.grantNo cluster + 1) s.grantNo }
        match s.mFetch m m.next with
        | .error e => .next (s.failRequest m m.next e)
        | .ok x =>
          let s := if slotBstore m.fmt == 1 then s.countLatency (unitKey 2 cluster) m.cycles else s
          let s := { s with mreqs := s.mreqs.map fun (y : MReq) => if y.id == m.id then { y with next := y.next + 1 } else y }
          .next { s with mpass := s.mpass ++ [{ cluster := cluster, req := m.id, r := m.next, xs := m.products x, ends := s.tick + m.cycles }] }

/-- `MATRIX_PASS_END`: the products enter the tile; after the last pass the request completes (R63, R268). -/
def execMatrixPassEnd (cluster : Nat) (s : State) : Out :=
  match s.mpass.find? fun p => p.cluster == cluster with
  | none => .next s
  | some p =>
    if s.tick < p.ends then .next s
    else
      let s := { s with mpass := s.mpass.filter fun x => x.cluster != cluster }
      match s.mreqs.find? fun m => m.id == p.req with
      | none => .next s
      | some m =>
        let s := s.putTile ((s.tile m.tid m.acc).add p.xs)
        .next (if m.rep < m.next then s.finishRequest m else s)

/-- One thread's part of a tile operation completes: `ACCRD`'s registers are written, poisoned where the tile is (R206;
what such a mark says of an address, syndrome and tag is open). -/
def State.endTileOp (t : Tile) (s : State) (o : Op) : State :=
  if o.kind == .tileRd then
    let ws := (List.range 16).map fun j => t.blockWord o.addr o.size o.rtype j
    let i := Config.tilePoison s.freeCtr
    let q : Poison := { reg := 0, space := 0xFF, addr := i.extractLsb' 0 64, syn := i.extractLsb' 64 16, tag := i.extractLsb' 80 64 }
    if t.poison then s.draw.complete { o with poison := some q } ws else s.complete { o with poison := none } ws
  else s.finish o

/-- `TILE_OP_APPLY` (R271). -/
def execTileOpApply (op : Nat) (s : State) : Out :=
  match s.op op with
  | none => .next s
  | some o =>
    if !s.tileOpReady o then .next s
    else
      let t := s.tile o.tid o.loc
      let all := s.ops.filter fun x => x.aop == op && x.kind == o.kind
      let t' := match o.kind with
        | .tileZ => t.zero o.addr
        | .tileNorm => t.norm o.addr
        | .tileWr => t.write (all.flatMap fun x =>
            ((List.range 16).zip x.args).flatMap fun p => blockValues x.addr x.size x.rtype p.1 p.2)
        | _ => t
      .next (all.foldl (State.endTileOp t) (s.putTile t'))

/-- What the matrix engines do next. -/
def State.matrixWork (s : State) : List Instr :=
  let ops := (s.ops.filter s.tileOpReady).map fun o => Instr.tileOpApply o.id
  let cs := dedup (s.mreqs.map MReq.cluster)
  ops ++ ((s.mpass.filter fun p => p.ends ≤ s.tick).map fun p => Instr.matrixPassEnd p.cluster) ++
  (cs.filter fun c => !s.busyEngine c && (s.nextGrant c).isSome &&
    !(s.ops.any fun o => s.tileOpReady o && coreCluster (s.coreOf o.tid) == c)).map Instr.matrixPassGrant

end Sys2Proof.Machine
end

