-- ==== Sys2Proof/Machine/Sequences.lean ====
section
/-! DEFINITION. Sequences: claims, publications, acquires and retractions at the home of a descriptor (R287-R305). -/

namespace Sys2Proof.Machine

/-! ### The structures (Tables 17.1-17.3) -/

/-- The fields of a sequence descriptor that a request uses, and those of its pool's header. -/
structure Desc where
  head   : Nat
  layers : Nat
  cap    : Nat
  ppb    : Nat
  pool   : Nat
  list   : Nat
  fronts : Nat
  gen    : Nat
  rbc    : Nat
  ltb    : Nat
  nblk   : Nat
  free   : Nat
  pcap   : Nat
  deriving DecidableEq, Repr

/-- A field of n bytes at an offset. -/
def fieldAt (bs : List Byte) (off n : Nat) : Nat := leNat ((bs.drop off).take n)

/-- The descriptor that 256 bytes hold, with the pool's header. -/
def descOf (bs header : List Byte) : Desc where
  head := fieldAt bs 0 4
  layers := fieldAt bs 4 2
  cap := fieldAt bs 8 4
  ppb := fieldAt bs 12 4
  pool := fieldAt bs 16 8
  list := fieldAt bs 24 8
  fronts := fieldAt bs 32 8
  gen := fieldAt bs 40 4
  rbc := fieldAt bs 45 1
  ltb := fieldAt bs 48 6
  nblk := fieldAt bs 56 4
  free := fieldAt header 0 4
  pcap := fieldAt header 4 4

/-- Division rounded up. -/
def ceilDiv (a b : Nat) : Nat := (a + b - 1) / b

/-- The descriptor is well-formed (Table 17.4, kind 2). -/
def descOk (bs : List Byte) : Bool :=
  let d := descOf bs []
  fieldAt bs 6 1 == 16 && fieldAt bs 7 1 == 0 && fieldAt bs 44 1 == 0 && fieldAt bs 46 2 == 0 && fieldAt bs 54 2 == 0 &&
  fieldAt bs 60 196 == 0 && 1 ≤ d.layers && d.layers ≤ 256 && 1 ≤ d.cap && d.cap ≤ 0x7FFFFFFF &&
  ((List.range 17).any fun i => d.ppb == 2 ^ i) && d.pool % 16 == 0 && d.list % 8 == 0 && d.fronts % 16 == 0 &&
  d.head ≤ d.cap && d.nblk ≤ ceilDiv d.cap d.ppb

/-- A frontier record. -/
structure Front where
  front : Nat
  plt   : Nat
  map   : Nat
  deriving DecidableEq, Repr

/-! ### Steps at the home, all or nothing (R290, R291): each gives the new state and a value, or a fault kind of Table 17.4 with its address -/

/-- Where a request works: its context, the home's die, and the descriptor's address. -/
structure SqAt where
  ctx : Nat
  die : Nat
  va  : Nat
  deriving DecidableEq, Repr

/-- The location of a structure's byte: writable local HBM, or fault 1. -/
def State.sqLoc (s : State) (a : SqAt) (va : Nat) : Except (Nat × Nat) (State × Nat) :=
  let r := s.translate a.ctx none a.die va true
  match r.2 with
  | .ok loc e _ => if pteKind e == 0 then .ok (r.1, loc) else .error (1, va)
  | .fault .. => .error (1, va)

/-- The first byte of a run, and its first byte on each later page. -/
def pageStarts (va n : Nat) : List Nat :=
  va :: (List.range ((va % 65536 + n - 1) / 65536)).map fun i => (va / 65536 + 1 + i) * 65536

/-- Every page of a run is writable local HBM. -/
def State.sqReach (s : State) (a : SqAt) (va n : Nat) : Except (Nat × Nat) State :=
  (pageStarts va n).foldlM (fun s v => do let (s, _) ← s.sqLoc a v; .ok s) s

/-- Every granule of a run passes its hem check; fault 3 at the first that fails. -/
def State.sqSound (s : State) (a : SqAt) (va n : Nat) : Except (Nat × Nat) State :=
  (List.range (if n == 0 then 0 else (va % 32 + n + 31) / 32)).foldlM (fun s i => do
    let (s, loc) ← s.sqLoc a (va / 32 * 32 + 32 * i)
    let s := s.pull (sectorKey a.ctx loc)
    if s.synAt loc == 0 then .ok s else .error (3, va / 32 * 32 + 32 * i)) s

/-- Read n bytes of a structure. -/
def State.sqGet (s : State) (a : SqAt) (va n : Nat) : Except (Nat × Nat) (State × List Byte) := do
  let (s, loc) ← s.sqLoc a va
  let r := s.ucRead a.ctx loc n
  .ok (r.1, r.2.1)

/-- Write a number of n bytes into a structure; fault 3 where the old words' hem fails. -/
def State.sqPut (s : State) (a : SqAt) (va n v : Nat) : Except (Nat × Nat) State := do
  let (s, loc) ← s.sqLoc a va
  let r := s.ucWrite a.ctx loc (natLe n v) 0
  if r.2.2 then .ok r.1 else .error (3, va)

/-- Read the descriptor and the pool's header, and check what every request checks, in the order of Table 17.4: the pages of the descriptor,
the frontier array, the list and the pool; the descriptor's fields; the hems of the descriptor and of the frontier records (R291,
assumption 22). -/
def State.sqDesc (s : State) (a : SqAt) : Except (Nat × Nat) (State × Desc) := do
  let (s, bs) ← s.sqGet a a.va 256
  let d := descOf bs []
  let s ← s.sqReach a d.fronts (16 * d.layers)
  let s ← s.sqReach a d.list (8 * ceilDiv d.cap d.ppb)
  let (s, header) ← s.sqGet a d.pool 16
  let d := descOf bs header
  let s ← s.sqReach a d.pool (16 + 8 * d.pcap)
  if !descOk bs then .error (2, a.va)
  else
    let s ← s.sqSound a a.va 256
    let s ← s.sqSound a d.fronts (16 * d.layers)
    .ok (s, d)

/-- Read the record of a layer; fault 4 where the sequence has no such layer. -/
def State.sqFront (s : State) (a : SqAt) (d : Desc) (l : Nat) : Except (Nat × Nat) (State × Front) := do
  if d.layers ≤ l then .error (4, a.va)
  else
    let (s, bs) ← s.sqGet a (d.fronts + 16 * l) 16
    .ok (s, { front := fieldAt bs 0 4, plt := fieldAt bs 4 4, map := fieldAt bs 8 8 })

/-- Write the record of a layer. -/
def State.sqPutFront (s : State) (a : SqAt) (d : Desc) (l : Nat) (r : Front) : Except (Nat × Nat) State :=
  s.sqPut a (d.fronts + 16 * l) 16 (r.front + r.plt * 2 ^ 32 + r.map * 2 ^ 64)

/-- Bring the LT base to the current rebase count (R190, R292). -/
def State.sqRebase (s : State) (a : SqAt) (d : Desc) : Except (Nat × Nat) (State × Desc) := do
  let n := (s.rebases + 256 - d.rbc) % 256
  if n == 0 then .ok (s, d)
  else
    let d := { d with ltb := d.ltb - n * 2 ^ 46, rbc := s.rebases }
    let s ← s.sqPut a (a.va + 45) 1 d.rbc
    let s ← s.sqPut a (a.va + 48) 6 d.ltb
    .ok (s, d)

/-- Make room for a publish LT x: where its offset would not fit, the base rises and every record's offset falls with it (R292). -/
def State.sqRoom (s : State) (a : SqAt) (d : Desc) (x : Nat) : Except (Nat × Nat) (State × Desc) := do
  if x < d.ltb + 2 ^ 32 then .ok (s, d)
  else
    let ltb := x - 2 ^ 31
    let s ← (List.range d.layers).foldlM (fun (s : State) l => do
      let (s, r) ← s.sqFront a d l
      s.sqPutFront a d l { r with plt := r.plt - (ltb - d.ltb) }) s
    let s ← s.sqPut a (a.va + 48) 6 ltb
    .ok (s, { d with ltb := ltb })

/-! ### The requests -/

/-- What a request comes to. -/
inductive SqRes where
  | reply (regs : List Word) (okay : Bool) (lt : Nat)
  | waits (gen : Nat)
  | holds
  deriving DecidableEq, Repr

/-- Every entry of a run is an address of a block, and not 0 where `held`. -/
def State.sqEntries (s : State) (a : SqAt) (va n : Nat) (held : Bool) : Except (Nat × Nat) State :=
  (List.range n).foldlM (fun s i => do
    let (s, e) ← s.sqGet a (va + 8 * i) 8
    if leNat e % 65536 != 0 || (held && leNat e == 0) then .error (7, a.va) else .ok s) s

/-- The hems of the held list entries and of the pool, with `take` more of the one and `give` more of the other, which are to be written. -/
def State.sqHems (s : State) (a : SqAt) (d : Desc) (take give : Nat) : Except (Nat × Nat) State := do
  let s ← s.sqSound a d.list (8 * (d.nblk + take))
  s.sqSound a d.pool (16 + 8 * (min d.free d.pcap + give))

/-- The pool and the list are well-formed (Table 17.4, kind 7). -/
def State.sqWell (s : State) (a : SqAt) (d : Desc) : Except (Nat × Nat) State := do
  if d.pcap < d.free then .error (7, a.va)
  else
    let s ← s.sqEntries a (d.pool + 16) d.free false
    s.sqEntries a d.list d.nblk true

/-- The checks of list and pool of a request that takes blocks from the pool or gives blocks back. -/
def State.sqPool (s : State) (a : SqAt) (d : Desc) (take give : Nat) : Except (Nat × Nat) State := do
  let s ← s.sqHems a d take give
  s.sqWell a d

/-- Take blocks from the pool into list entries k upward (R289, R297). -/
def State.sqTake (a : SqAt) (d : Desc) : Nat → Nat → Nat → State → Except (Nat × Nat) State
  | 0, _, free, s => s.sqPut a d.pool 4 free
  | n + 1, k, free, s => do
    let (s, e) ← s.sqGet a (d.pool + 16 + 8 * (free - 1)) 8
    let s ← s.sqPut a (d.list + 8 * k) 8 (leNat e)
    State.sqTake a d n (k + 1) (free - 1) s

/-- Blocks that a claim of n positions has to take: none for a claim of none, nor for one beyond the capacity. -/
def Desc.need (d : Desc) (n : Nat) : Nat := if n == 0 || d.cap - d.head < n then 0 else ceilDiv (d.head + n) d.ppb - d.nblk

/-- `SQCLAIM` (R297). -/
def State.sqClaim (s : State) (a : SqAt) (n : Nat) : Except (Nat × Nat) (State × SqRes) := do
  let (s, d) ← s.sqDesc a
  let need := d.need n
  let s ← s.sqPool a d (if need ≤ d.free then need else 0) 0
  let gen := BitVec.ofNat 32 d.gen
  if d.cap - d.head < n then .ok (s, .reply [0xFFFFFFFE, gen] false 0)
  else if d.free < need then .ok (s, .reply [0xFFFFFFFF, gen] false 0)
  else if n == 0 then .ok (s, .reply [BitVec.ofNat 32 d.head, gen] true 0)
  else
    let s ← if need == 0 then Except.ok s else do
      let s ← State.sqTake a d need d.nblk d.free s
      s.sqPut a (a.va + 56) 4 (d.nblk + need)
    let s ← s.sqPut a a.va 4 (d.head + n)
    .ok (s, .reply [BitVec.ofNat 32 d.head, gen] true 0)

/-- Layer of a layer word (Table 17.8). -/
def lwLayer (w : Word) : Nat := field w 7 0
/-- Count of a layer word. -/
def lwCount (w : Word) : Nat := field w 14 8
/-- Generation of a layer word. -/
def lwGen (w : Word) : Nat := field w 31 16

/-- Advance a frontier over the settled positions (R298). -/
def Front.settled : Nat → Front → Front
  | 0, r => r
  | n + 1, r => if r.map % 2 == 1 then Front.settled n { r with front := r.front + 1, map := r.map / 2 } else r

/-- `SQPUB` at the home (R298). -/
def State.sqPublish (s : State) (a : SqAt) (p : Nat) (w : Word) (lt : Nat) : Except (Nat × Nat) (State × SqRes) := do
  let (s, d) ← s.sqDesc a
  let s ← s.sqHems a d 0 0
  let l := lwLayer w
  let n := lwCount w
  let (s, _) ← s.sqFront a d l
  if lwGen w != d.gen % 2 ^ 16 then .error (6, a.va)
  else if 64 < n || d.head < p + n then .error (5, a.va)
  else
    let s ← s.sqWell a d
    let (s, d) ← s.sqRebase a d
    let (s, d) ← s.sqRoom a d lt
    let (s, r) ← s.sqFront a d l
    let r := { r with plt := max r.plt (lt - d.ltb) }
    if r.front + 64 < p + n then
      let s ← s.sqPutFront a d l r
      .ok (s, .holds)
    else
      let set := (List.range n).foldl (fun m i => if r.front ≤ p + i then m ||| 2 ^ (p + i - r.front) else m) r.map
      let s ← s.sqPutFront a d l (Front.settled 64 { r with map := set })
      .ok (s, .reply [] true 0)

/-- `SQACQ` at the home: `gen` is the generation a registered wait began under (R300). -/
def State.sqAcquire (s : State) (a : SqAt) (snap : Bool) (want : Nat) (w : Word) (gen : Option Nat) : Except (Nat × Nat) (State × SqRes) := do
  let (s, d) ← s.sqDesc a
  let s ← s.sqHems a d 0 0
  let (s, r) ← s.sqFront a d (lwLayer w)
  let s ← s.sqWell a d
  if !snap && r.front < want && gen.getD d.gen == d.gen then .ok (s, .waits d.gen)
  else
    let (s, d) ← s.sqRebase a d
    .ok (s, .reply [BitVec.ofNat 32 r.front, BitVec.ofNat 32 d.gen] true (d.ltb + r.plt))

/-- Return n list entries from k downward to the pool (R301). -/
def State.sqGive (a : SqAt) (d : Desc) : Nat → Nat → Nat → State → Except (Nat × Nat) State
  | 0, _, free, s => s.sqPut a d.pool 4 free
  | n + 1, k, free, s => do
    let (s, e) ← s.sqGet a (d.list + 8 * k) 8
    let s ← s.sqPut a (d.pool + 16 + 8 * free) 8 (leNat e)
    let s ← s.sqPut a (d.list + 8 * k) 8 0
    State.sqGive a d n (k - 1) (free + 1) s

/-- A frontier record cut back to a head (R301). -/
def Front.cut (h : Nat) (r : Front) : Front :=
  if h < r.front then { r with front := h, map := 0 } else { r with map := r.map % 2 ^ min 64 (h - r.front) }

/-- `SQRET` (R301): `freed` is a difference, below 0 where the sequence held fewer blocks than its positions want. -/
def State.sqRetract (s : State) (a : SqAt) (h : Nat) : Except (Nat × Nat) (State × SqRes) := do
  let (s, d) ← s.sqDesc a
  let keep := ceilDiv h d.ppb
  let freed := if d.head ≤ h then 0 else d.nblk - keep
  let s ← s.sqPool a d 0 freed
  if d.head ≤ h then .ok (s, .reply [0] true 0)
  else
    let s ← (List.range d.layers).foldlM (fun (s : State) l => do
      let (s, r) ← s.sqFront a d l
      s.sqPutFront a d l (r.cut h)) s
    let s ← if freed == 0 then Except.ok s else State.sqGive a d freed (d.nblk - 1) d.free s
    let s ← s.sqPut a a.va 4 h
    let s ← s.sqPut a (a.va + 40) 4 ((d.gen + 1) % 2 ^ 32)
    let s ← s.sqPut a (a.va + 56) 4 keep
    .ok (s, .reply [BitVec.ofInt 32 (d.nblk - keep : Int)] true 0)

/-- `SQINFO` (R302). -/
def State.sqRead (s : State) (a : SqAt) (l : Nat) : Except (Nat × Nat) (State × SqRes) := do
  let (s, d) ← s.sqDesc a
  let s ← s.sqHems a d 0 0
  let (s, r) ← s.sqFront a d l
  let s ← s.sqWell a d
  .ok (s, .reply [BitVec.ofNat 32 d.head, BitVec.ofNat 32 d.gen, BitVec.ofNat 32 r.front, BitVec.ofNat 32 d.nblk] true 0)

/-! ### Requests and replies -/

/-- Where a request works. -/
def Op.sqAt (o : Op) : SqAt := { ctx := o.ctx, die := sliceDie (paSlice o.loc), va := o.addr.toNat }

/-- Perform an operation's request on the state. -/
def State.sqDo (s : State) (o : Op) (gen : Option Nat) : Except (Nat × Nat) (State × SqRes) :=
  let a := o.sqAt
  let x := o.args.headD 0
  let w := o.args.getD 1 0
  match o.kind with
  | .sqclaim => s.sqClaim a x.toNat
  | .sqpub => s.sqPublish a x.toNat w o.lt
  | .sqacq => s.sqAcquire a (o.aop == 1) x.toNat w gen
  | .sqret => s.sqRetract a x.toNat
  | _ => s.sqRead a x.toNat

/-- Bytes of a thread record in a save area (Table 23.5). -/
def recordLen (W : Nat) : Nat := 640 + 192 * W

/-- Where the record of a thread whose group is saved lies in its context's save area (Table 23.4). -/
def State.savedRecord (s : State) (t : Thread) : Option Nat :=
  match s.groupOf t, s.ctx (s.ctxOf t.tid) with
  | some g, some x =>
    if g.place != .saved then none
    else (x.saves.find? fun e => e.tid == t.tid && e.slot == some g.slot).map fun e => x.saveb.toNat + e.off + 1024 + t.lane * recordLen (s.win t.tid)
  | _, _ => none

/-- A flag of a thread whose group is saved falls in its record (R299). -/
def State.lowerSaved (s : State) (uid sel : Nat) : State :=
  match s.thread uid with
  | none => s
  | some t =>
    match s.savedRecord t with
    | none => s
    | some va =>
      let c := s.ctxOf t.tid
      let r := s.locate c 0 (va + 8 + sel) true
      match r.2 with
      | none => r.1
      | some loc =>
        let b := r.1.ucRead c loc 1
        (b.1.ucWrite c loc (natLe 1 (leNat b.2.1 - 1)) 0).1

/-- The operation's count on its flag falls now (Table 2.2). -/
def State.uncount (s : State) (o : Op) : State :=
  let s := s.modThread o.uid fun t => { t with flags := if o.sel < 12 then SMap.put 0 o.sel (t.count o.sel - 1) t.flags else t.flags }
  s.modOp o.id fun x => { x with sel := 15 }

/-- The request is over at the home: its reply leaves, or a publication completes; an acquire's reply waits for the thread's earlier
loads (R300, Table 2.2). -/
def State.sqReply (s : State) (o : Op) (regs : List Word) (okay : Bool) (lt : Nat) : State :=
  let s := { s with stall := s.stall.filter (· != o.id), seqWait := s.seqWait.filter (· != o.id) }
  match o.kind with
  | .sqpub => (if o.sel < 12 then s.lowerSaved o.uid o.sel else s).finish o
  | .sqacq => s.modOp o.id fun x => { x with args := regs, rtype := okay.toNat, lt := lt, done := true }
  | _ =>
    let s := if o.kind == .sqret then s.uncount o else s
    (s.modOp o.id fun x => { x with args := regs, rtype := okay.toNat, done := true }).post [.sequenceReply o.id]

/-- The check of a structure's granule at an address has failed: it is reported (R204, R209). -/
def State.sqBad (s : State) (o : Op) (va : Nat) : State × Option Poison :=
  match s.sqLoc o.sqAt va with
  | .error _ => (s, none)
  | .ok (s, loc) =>
    let g := loc / 32 * 32
    let tag := s.atomicTag o.ctx g
    (s.hemFault tag g (s.synAt g), some { reg := 0, space := 0, addr := BitVec.ofNat 64 va, syn := s.synAt g, tag := tag })

/-- Where a request comes from, for a record of it. -/
def State.sqRec (s : State) (o : Op) (cls kind : Nat) : FRec :=
  { FRec.blank cls kind with
    team := s.teamIndex o.tid, pc := o.pkt.toNat, unit := o.agent, slot := (match s.thread o.uid with | some t => t.slot | none => 0) }

/-- A request that the home cannot perform: one record, its registers as its entry states, poisoned after fault 3 (R291). -/
def State.sqFault (s : State) (o : Op) (kind addr : Nat) : State :=
  let x := if kind == 3 then s.sqBad o addr else (s, none)
  let s := x.1.record o.ctx { s.sqRec o 4 kind with
    addr := addr, die := sliceDie (paSlice o.loc),
    detail := (match x.2 with | some q => natLe 2 q.syn.toNat ++ natLe 8 q.tag.toNat | none => []) }
  let s := s.modOp o.id fun y => { y with poison := x.2 }
  s.sqReply o (o.regs.map fun _ => 0xFFFFFFFD) false 0

/-- A slice's held publishes, or its waiting acquires. -/
def State.atSlice (s : State) (ids : List Nat) (loc : Nat) : Nat :=
  (ids.filter fun id => match s.op id with | some o => paSlice o.loc == paSlice loc | none => false).length

/-- Send a refused request again 64 cycles later (R299, R300). -/
def State.sqRefuse (s : State) (o : Op) : State := s.modOp o.id fun x => { x with again := some (s.tick + 64) }

/-- Perform one request at its home. -/
def State.sqOne (s : State) (o : Op) (gen : Option Nat) : State :=
  match s.sqDo o gen with
  | .error (k, addr) => s.sqFault o k addr
  | .ok (s', .reply regs okay lt) => s'.sqReply o regs okay lt
  | .ok (s', .waits g) =>
    if s.seqWait.contains o.id then s'
    else if 1024 ≤ s.atSlice s.seqWait o.loc then s.sqRefuse o
    else { s'.modOp o.id fun x => { x with wts := g } with seqWait := s.seqWait ++ [o.id] }
  | .ok (s', .holds) =>
    if s.stall.contains o.id then s'
    else if 64 ≤ s.atSlice s.stall o.loc then s.sqRefuse o
    else { s' with stall := s.stall ++ [o.id] }

/-- Check every other acquire that waits on the sequence against the state that a request has left (R300, R303). -/
def State.sqWaiters (s : State) (self loc : Nat) : State :=
  (s.seqWait.filter fun id => id != self && (match s.op id with | some o => o.loc == loc | none => false)).foldl
    (fun s id => match s.op id with | some o => s.sqOne o (some o.wts) | none => s) s

/-- The home performs a request, and then whatever waits for the state that it leaves. A wait that has been sent again goes on under the
generation that it began under. -/
def State.sqPerform (s : State) (o : Op) : State := (s.sqOne o o.carry).sqWaiters o.id o.loc

/-- Retry held publishes of a sequence, of one layer or of all, in arrival order, for as long as one is performed (R299). -/
def State.sqRetry (loc : Nat) (layer : Option Nat) : Nat → State → State
  | 0, s => s
  | n + 1, s =>
    let before := s.stall.length
    let mine := s.stall.filter fun id => match s.op id with
      | some o => o.loc == loc && (match layer with | some l => lwLayer (o.args.getD 1 0) == l | none => true)
      | none => false
    let s := mine.foldl (fun s id => match s.op id with | some o => s.sqPerform o | none => s) s
    if s.stall.length < before then State.sqRetry loc layer n s else s

/-- A request arrives at its home, behind any earlier refused one of its core to the sequence (R182, R290, R303). A retraction wakes the
acquires before the held publishes are retried (R301). A publish that is held or refused moves no frontier. -/
def State.sqArrive (s : State) (o : Op) : State :=
  if s.ops.any fun x => x.agent == o.agent && x.loc == o.loc && x.again.isSome && x.id < o.id && x.space == 6 then s.sqRefuse o
  else
    let s := s.sqPerform o
    let n := s.stall.length
    match o.kind with
    | .sqpub => if (s.op o.id).isSome then s else State.sqRetry o.loc (some (lwLayer (o.args.getD 1 0))) n s
    | .sqret => State.sqRetry o.loc none n s
    | _ => s

/-- Perform the request of an operation, if it is still in flight. -/
def State.sqRequest (s : State) (op : Nat) : Out :=
  match s.op op with
  | some o => if o.done then .next s else .next (s.sqArrive o)
  | none => .next s

/-- `SQCLAIM_REQUEST`. -/
def execSqclaimRequest (op : Nat) (s : State) : Out := s.sqRequest op
/-- `SQPUB_REQUEST`. -/
def execSqpubRequest (op : Nat) (s : State) : Out := s.sqRequest op
/-- `SQACQ_REQUEST`. -/
def execSqacqRequest (op : Nat) (s : State) : Out := s.sqRequest op
/-- `SQRET_REQUEST`. -/
def execSqretRequest (op : Nat) (s : State) : Out := s.sqRequest op
/-- `SQINFO_REQUEST`. -/
def execSqinfoRequest (op : Nat) (s : State) : Out := s.sqRequest op

/-- The message that brings an operation's request to its home. -/
def Op.sqMessage (o : Op) : List Instr :=
  match o.kind with
  | .sqclaim => [.sqclaimRequest o.id]
  | .sqpub => [.sqpubRequest o.id]
  | .sqacq => [.sqacqRequest o.id]
  | .sqret => [.sqretRequest o.id]
  | _ => [.sqinfoRequest o.id]

/-- Send a request to the home that the pages now give its descriptor. While its page cannot be used it is tried every 64 cycles, and a page
request stands open for it (R337, assumption 78). -/
def State.sqSend (s : State) (o : Op) : State :=
  let die := coreDie o.agent
  let r := s.translate o.ctx (some o.agent) die o.addr.toNat false
  match r.2 with
  | .ok loc _ _ => (r.1.modOp o.id fun x => { x with loc := loc, again := none }).post o.sqMessage
  | .fault kind _ lo len => (r.1.pageRequest die o.ctx kind lo len 0 (s.sqRec o 3 kind)).1.sqRefuse o

/-- `SEQUENCE_RESEND` (R299). -/
def execSequenceResend (op : Nat) (s : State) : Out :=
  match s.op op with
  | some o => .next (s.sqSend o)
  | none => .next s

/-! ### Pages that are taken away (R337) -/

/-- Requests that only wait at their homes leave them and are sent again: a registered acquire keeps its generation (R337, assumption 78). -/
def State.sendAway (s : State) (ids : List Nat) : State :=
  { s with
    seqWait := s.seqWait.filter fun k => !ids.contains k,
    stall := s.stall.filter fun k => !ids.contains k,
    ops := s.ops.map fun (o : Op) =>
      if ids.contains o.id then { o with again := some (s.tick + 64), carry := if o.kind == .sqacq then some o.wts else none } else o }

/-- `SEQUENCE_REPLY`: the registers, and a claim's predicate, are written (R297). -/
def execSequenceReply (op : Nat) (s : State) : Out :=
  match s.op op with
  | none => .next s
  | some o =>
    let s := s.countOp o (s.homeSlice o.ctx o.loc)
    let s := match o.preg, s.thread o.uid with
      | some p, some t =>
        let b := o.rtype == 1
        let s := if t.preds.getLsbD p != b then s.groupProgress t else s
        s.modThread o.uid (Thread.setP (BitVec.ofNat 3 p) b)
      | _, _ => s
    .next (s.complete o o.args)

/-- The thread's loads and atomics issued before the operation have written their registers. -/
def State.loadsDone (s : State) (o : Op) : Bool :=
  s.ops.all fun x => !(x.uid == o.uid && x.id < o.id && (x.kind == .load || x.kind == .atomic))

/-- The acquire of a reply: LT rises to the publish LT, then as for `FENCE.ACQ.DEVICE` (R300). -/
def State.acquireAt (s : State) (o : Op) : State :=
  let s := s.raiseLt o.agent o.lt
  (match s.thread o.uid with | some t => s.takeTime 3 t | none => s).acquireDrop o.agent 3

/-- `SQACQ_REPLY`: LT rises to the publish LT, and the thread acquires at `.DEVICE`, unless the home failed the request (R300). -/
def execSqacqReply (op : Nat) (s : State) : Out :=
  match s.op op with
  | none => .next s
  | some o =>
    if !o.done || !s.loadsDone o then .next s
    else .next ((if o.rtype == 1 then s.acquireAt o else s).complete o o.args)

/-! ### Issue (R296, R298, R304) -/

/-- The descriptor's address as a thread reads it: its group's pair. -/
def State.seqPair (s : State) (t : Thread) (seq : BitVec 5) : BitVec 64 :=
  s.sreg t (2 * seq.toNat + 1) ++ s.sreg t (2 * seq.toNat)

/-- Issue one request for each executing thread whose descriptor's page translates. -/
def State.seqIssue (s : State) (ts : List Thread) (seq : BitVec 5) (mk : Thread → Op) (send : Bool) : Out :=
  let bad := ts.filter fun t => (s.seqPair t seq).toNat % 256 != 0
  match bad with
  | t :: _ => s.trapOut { TrapReq.of 0x06 with mask := some (laneMask bad), space := 0, addr := s.seqPair t seq }
  | [] =>
    let r := s.reach false (fun t => (s.seqPair t seq).toNat) ts
    .next (r.2.foldl (fun s p =>
      let o := { mk p.1 with id := s.nextId, space := 6, loc := p.2, addr := s.seqPair p.1 seq }
      let s := s.begin o
      if send then s.post o.sqMessage else s) r.1).advanceRest

/-- `SQCLAIM`: every active thread executes; `pred` is written (R297). -/
def execSqclaim (f : FS) (s : State) : Out :=
  s.seqIssue s.gangThreads f.seq (fun t => { s.opOf t .sqclaim (t.sel f.fb) with
    args := [s.src t f.b], regs := s.phys t f.dst.toNat 2, preg := predOf f.pred }) true

/-- `SQPUB`: the requests leave the core as their threads' release waits end (R304). -/
def execSqpub (f : FSPub) (s : State) : Out :=
  s.seqIssue (s.executing f.pred) f.seq (fun t => { s.opOf t .sqpub (t.sel f.fb) with
    args := [s.src t f.b, s.src t (f.b + 1)] }) false

/-- `SQACQ`. -/
def execSqacq (f : FSAcq) (s : State) : Out :=
  s.seqIssue (s.executing f.pred) f.seq (fun t => { s.opOf t .sqacq (t.sel f.fb) with
    args := [s.src t f.b, s.src t (f.b + 1)], regs := s.phys t f.dst.toNat 2, aop := f.snap.toNat }) true

/-- `SQRET`. -/
def execSqret (f : FS) (s : State) : Out :=
  s.seqIssue (s.executing f.pred) f.seq (fun t => { s.opOf t .sqret (t.sel f.fb) with
    args := [s.src t f.b], regs := s.phys t f.dst.toNat 1 }) true

/-- `SQINFO`. -/
def execSqinfo (f : FS) (s : State) : Out :=
  s.seqIssue (s.executing f.pred) f.seq (fun t => { s.opOf t .sqinfo (t.sel f.fb) with
    args := [s.src t f.b], regs := s.phys t f.dst.toNat 4 }) true

/-- An unsent publication may leave: what its thread issued before it has reached the `.DEVICE` point, and its earlier publications have
left, and so have its core's stores (R149, R298, R304; assumption 62). -/
def State.pubReady (s : State) (o : Op) : Bool :=
  o.kind == .sqpub && o.port == 0 && s.ordered [o.uid] o.agent o.ctx 3 o.id &&
  s.ops.all fun x => !(x.uid == o.uid && x.id < o.id && x.kind == .sqpub && x.port == 0)

/-- Send the publications that may leave, each a release of its thread, with the LT their core has then. -/
def State.sendPubs (s : State) : State :=
  s.ops.foldl (fun s o =>
    if s.pubReady o then
      let s := s.leaveTime o.agent 3 [o.uid]
      (s.modOp o.id fun x => { x with port := 1, lt := s.orderTime x.agent }).post o.sqMessage
    else s) s

end Sys2Proof.Machine
end

