-- ==== Sys2Proof/Machine/Images.lean ====
section
/-! DEFINITION. The save area: its directory, group images, thread records and team images, written and read back (R205, R257, R277,
R346, Tables 23.4 and 23.5). -/

namespace Sys2Proof.Machine

/-! ### Reaching the save area -/

/-- Write whole sectors at a global address with the syndromes given; false where a page does not translate. -/
def State.vaPut (s : State) (c lt va : Nat) (bs : List Byte) (syns : List (BitVec 16)) : State × Bool :=
  (List.range (bs.length / 64)).foldl (fun (r : State × Bool) i =>
    let x := r.1.locate c 0 (va + 64 * i) true
    match x.2 with
    | some loc => (x.1.putRecord c (sliceDie (x.1.homeSlice c loc)) loc lt ((bs.drop (64 * i)).take 64) ((syns.drop (2 * i)).take 2) [], r.2)
    | none => (x.1, false)) (s, true)

/-- Read whole sectors at a global address with their syndromes; none where a page does not translate. -/
def State.vaGet (s : State) (c va n : Nat) : State × Option (List Byte × List (BitVec 16)) :=
  (List.range (n / 64)).foldl (fun (r : State × Option (List Byte × List (BitVec 16))) i =>
    let x := r.1.locate c 0 (va + 64 * i) false
    match x.2, r.2 with
    | some loc, some (bs, ys) =>
      let b := x.1.ucRead c loc 64
      (b.1, some (bs ++ b.2.1, ys ++ b.1.syns loc 64))
    | _, _ => (x.1, none)) (s, some ([], []))

/-- The restore unit reports the granules of n bytes of an image that fail its check. -/
def State.vaCheck (s : State) (c va n : Nat) : State :=
  (List.range (n / 64)).foldl (fun s i =>
    match (s.locate c 0 (va + 64 * i) false).2 with
    | some loc => s.reportBad c loc 64 0 7
    | none => s) s

/-- Bytes followed by zeros, n in all. -/
def padTo (n : Nat) (bs : List Byte) : List Byte := (bs ++ List.replicate (n - bs.length) 0).take n

/-- A number of n bytes at a place in a byte list. -/
def numAt (bs : List Byte) (off n : Nat) : Nat := leNat ((bs.drop off).take n)

/-- One syndrome for each granule of n bytes: 1 where `bad` names the granule (R205). -/
def markSyns (n : Nat) (bad : List Nat) : List (BitVec 16) := (List.range (n / 32)).map fun g => if bad.contains g then 1 else 0

/-! ### Thread records (Table 23.5) -/

/-- The code of a thread's state, in the order of Table 4.1. -/
def State.stateCode (s : State) (t : Thread) : Nat :=
  match t.state with
  | .held => 2
  | .stitchWait => 3
  | .exiting => 6
  | .exited => 7
  | .waiting => 1
  | .runnable => if (s.paths.any fun p => p.id == t.path && p.parked.isSome) then 4 else if t.trapMode then 5 else 0

/-- An acquire of a thread has been withdrawn from its home. -/
def State.withdrawnAcq (s : State) (o : Op) : Bool :=
  o.kind == .sqacq && !o.done && !s.seqWait.contains o.id && o.again.isNone &&
  s.agenda.all fun i => match i with | .sqacqRequest k => k != o.id | _ => true

/-- The entries of levels 8 down to 1, in the format of R84. -/
def Thread.seamBytes (t : Thread) : List Byte :=
  padTo 64 ((t.seams.drop (t.seams.length - 8)).flatMap fun e => natLe 4 e.pkt.toNat ++ natLe 2 e.depth ++ natLe 2 e.tag)

/-- The links of the resident windows, each at the place of its window (Table 23.5). -/
def Thread.linkBytes (t : Thread) : List Byte :=
  (List.range 16).flatMap fun k =>
    match ((List.range (t.depth + 1 - t.spill)).map (· + t.spill)).find? fun d => d % 16 == k with
    | some d => natLe 4 (SMap.get 0 t.links d).toNat
    | none => natLe 4 0

/-- The record of a thread. `park` says that it reissues a parked access. -/
def State.threadBytes (s : State) (t : Thread) (park : Bool) : List Byte :=
  let W := s.win t.tid
  let n := 48 * W + 16
  let acq := s.ops.any fun o => o.uid == t.uid && s.withdrawnAcq o
  natLe 4 t.pkt.toNat ++ natLe 1 (s.stateCode t) ++ natLe 1 t.preds.toNat ++
  natLe 1 (t.trapMode.toNat + 2 * park.toNat + 4 * (t.reissues || acq).toNat) ++ natLe 1 0 ++
  ((List.range 12).flatMap fun i => natLe 1 (t.count i)) ++
  natLe 4 t.fstat.toNat ++ natLe 4 t.wdepth.toNat ++ natLe 4 (t.seamd (s.single t)).toNat ++
  t.seamBytes ++ t.linkBytes ++ ((List.range 24).flatMap fun i => natLe 4 (t.trapWord i).toNat) ++
  natLe 128 ((List.range n).foldl (fun m r => if t.pois.any fun q => q.reg == r then m + 2 ^ r else m) 0) ++
  List.replicate 192 0 ++ ((List.range n).flatMap fun r => natLe 4 (SMap.get 0 t.regs r).toNat)

/-- The granules of a thread record that hold a poisoned register. -/
def Thread.badGranules (t : Thread) : List Nat := t.pois.map fun q => (576 + 4 * q.reg) / 32

/-- A register's poison mark after a restore: what the restore unit has found in the image (R205). -/
def State.poisonBack (s : State) (c reg addr : Nat) (syn : BitVec 16) : Poison :=
  { reg := reg, space := 0, addr := BitVec.ofNat 64 addr, syn := syn,
    tag := match (s.locate c 0 addr false).2 with | some loc => s.globalTag c loc 0 7 | none => noTag }

/-- A thread in the state that a code names (Table 4.1). One set RUNNABLE leaves what it waited for, and one set WAITING that waits for nothing
looks at its next word again (assumption 81). -/
def Thread.coded (code : Nat) (t : Thread) : Thread :=
  match code with
  | 0 | 4 | 5 => { t with state := .runnable, wait := .none }
  | 1 => if t.state == .waiting then t else { t with state := .runnable, wait := .none }
  | 2 => { t with state := .held, wait := .none }
  | 3 => { t with state := .stitchWait, wait := .none }
  | 6 => { t with state := .exiting, wait := .none }
  | 7 => { t with state := .exited, wait := .none }
  | _ => t

/-- The seam entry of a level above 8 in a thread's private space (R84). -/
def State.deepSeam (s : State) (t : Thread) (level : Nat) : Seam :=
  let b := s.laneOwn t (overflowOff (recPriv (s.recordOf t.tid)) level) 8
  { pkt := BitVec.ofNat 32 (numAt b 0 4), depth := numAt b 4 2, tag := numAt b 6 2 }

/-- The seam entries that a record gives, innermost first: `LEVEL` of them, of which the record holds the lowest eight. -/
def seamsBack (b : List Byte) (deep : Nat → Seam) (old : List Seam) : List Seam :=
  let level := min 40 (numAt b 28 4 % 64)
  let low := (List.range (min 8 level)).map fun i =>
    ({ pkt := BitVec.ofNat 32 (numAt b (32 + 8 * i) 4), depth := numAt b (36 + 8 * i) 2, tag := numAt b (38 + 8 * i) 2 } : Seam)
  let high := (List.range (level - 8)).map fun i =>
    let l := level - i
    if l ≤ old.length then old.getD (old.length - l) (deep l) else deep l
  high ++ low

/-- A thread as its record at a global address gives it back (Table 23.5): `found` makes the mark of a register from its address and syndrome,
`deep` gives the seam entries that no record holds. A register is poisoned by its mark, or by a syndrome of its granule that no mark has made
(R205). At a packet set anew it stands at word 0. -/
def Thread.restore (W va : Nat) (found : Nat → Nat → BitVec 16 → Poison) (deep : Nat → Seam) (b : List Byte) (y : List (BitVec 16)) (t : Thread) : Thread :=
  let n := 48 * W + 16
  let wd := numAt b 24 4
  let marks := numAt b 256 128
  let six := numAt b 6 1
  let trap := six.testBit 0
  let links := ((List.range (wd % 65536 + 1 - wd / 65536)).map (· + wd / 65536)).foldl
    (fun (m : SMap Word) d => SMap.put 0 d (BitVec.ofNat 32 (numAt b (96 + 4 * (d % 16)) 4)) m) t.links
  let bad := (List.range n).filter fun r =>
    let z := y.getD ((576 + 4 * r) / 32) 0
    marks.testBit r || (z != 0 && z != 1)
  let pkt := BitVec.ofNat 32 (numAt b 0 4)
  let u := { t.coded (numAt b 4 1) with
    pkt := pkt, word := if pkt == t.pkt then t.word else 0, clause := if pkt == t.pkt then t.clause else none,
    preds := BitVec.ofNat 7 (numAt b 5 1), trapMode := trap,
    again := if six.testBit 2 then t.again else t.again.filter fun a => a.trap != trap,
    flags := (List.range 12).foldl (fun (m : SMap Nat) i => SMap.put 0 i (numAt b (8 + i) 1) m) [], fstat := BitVec.ofNat 6 (numAt b 20 4),
    depth := wd % 65536, spill := wd / 65536, seams := seamsBack b deep t.seams, links := links }
  { u with
    trap := wordMap ((List.range 24).map fun i => BitVec.ofNat 32 (numAt b (160 + 4 * i) 4)),
    regs := (List.range n).foldl (fun (m : SMap Word) r => SMap.put 0 r (BitVec.ofNat 32 (numAt b (576 + 4 * r) 4)) m) [],
    pois := bad.map fun r => found r (va + 576 + 4 * r) (y.getD ((576 + 4 * r) / 32) 0) }

/-! ### Group images (Table 23.4) -/

/-- Lanes of a group's members for which a condition holds. -/
def State.lanesWhere (s : State) (g : Group) (p : Thread → Bool) : Nat := (laneMask ((s.live g).filter p)).toNat

/-- A withdrawn copy item in 128 bytes. -/
def State.itemBytes (s : State) (x : CopyItem) : List Byte :=
  let count := match s.group x.gid with | some g => (SMap.get 0 g.sregs x.tok).toNat | none => 0
  padTo 128 (x.desc ++ natLe 4 x.fn ++ natLe 4 x.bar ++ natLe 4 x.tok ++ natLe 4 count ++ natLe 4 (s.teamIndex x.tid) ++
    natLe 4 x.slot ++ natLe 4 x.pkt.toNat)

/-- A withdrawn matrix request in 4,352 bytes. -/
def State.reqBytes (s : State) (m : MReq) : List Byte :=
  let team (k : Nat) : Nat := match m.owners.getD k none with | some x => s.teamIndex x | none => 2 ^ 32 - 1
  let ops (o : Option (List Word)) : List Byte := padTo 2048 (bytesOf (o.getD []))
  padTo 256 (natLe 4 m.word.toNat ++ ((List.range 6).flatMap fun k => natLe 4 (team k) ++ natLe 4 (m.reg k).toNat) ++
    natLe 4 (m.rep + 1 - m.next) ++ natLe 4 m.next) ++ ops m.ra ++ ops m.rb

/-- A withdrawn item as its 128 bytes give it back; its team stays its group's. -/
def CopyItem.back (b : List Byte) (x : CopyItem) : CopyItem :=
  { x with desc := b.take 64, fn := numAt b 64 4 % 4, bar := numAt b 68 4, tok := numAt b 72 4 % 64, slot := numAt b 84 4,
           pkt := BitVec.ofNat 32 (numAt b 88 4) }

/-- A withdrawn request as its 4,352 bytes give it back: `team` finds the team of an index, `fmt` the format that an `MMA` word names. One with
no pass left has had its last. -/
def MReq.back (team : Nat → Option Nat) (fmt : FMma → BitVec 64) (b : List Byte) (m : MReq) : MReq :=
  let w := BitVec.ofNat 32 (numAt b 0 4)
  let m := match decodeTableWord 32 w.toNat with
    | some (.mma f) => { m with word := w, acc := f.acc.toNat, shape := f.shape.toNat, fmt := fmt f }
    | _ => m
  let left := numAt b 52 4
  let next := numAt b 56 4
  { m with
    owners := (List.range 6).map fun k => team (numAt b (4 + 8 * k) 4),
    desc := (List.range 6).map fun k => BitVec.ofNat 32 (numAt b (8 + 8 * k) 4),
    next := if left == 0 then next + 1 else next, rep := next + (left - 1),
    ra := m.ra.map fun _ => wordsOf ((b.drop 256).take 2048), rb := m.rb.map fun _ => wordsOf ((b.drop 2304).take 2048) }

/-- The withdrawn items of a group come back from their bytes. A saved count that has been edited is the token's (R257, R386). -/
def State.itemsBack (s : State) (g : Group) (b : List Byte) : State :=
  let xs := s.itemsOf g.gid
  ((List.range xs.length).zip xs).foldl (fun s p =>
    let e := (b.drop (128 * p.1)).take 128
    let y := p.2.back e
    let n := BitVec.ofNat 32 (numAt e 76 4)
    let s := { s with wItems := s.wItems.map fun x => if x.id == y.id then y else x }
    if n == SMap.get 0 g.sregs p.2.tok then s else s.modGroup g.gid fun h => { h with sregs := SMap.put 0 y.tok n h.sregs }) s

/-- The withdrawn requests of a group come back from their bytes (R277, R386). -/
def State.reqsBack (s : State) (g : Group) (b : List Byte) : State :=
  let lid := match s.team g.tid with | some x => x.lid | none => 0
  let team (i : Nat) : Option Nat := (s.teams.find? fun x => x.lid == lid && s.teamIndex x.tid == i).map Team.tid
  let fmt (f : FMma) : BitVec 64 := recSlot (s.recordOf g.tid) f.slot.toNat
  let ms := s.reqsOf g.gid
  ((List.range ms.length).zip ms).foldl (fun s p =>
    let m := p.2.back team fmt ((b.drop (4352 * p.1)).take 4352)
    { s with wReqs := s.wReqs.map fun x => if x.id == m.id then m else x }) s

/-- The header and uniform registers of a group image, 1,024 bytes. -/
def State.groupHead (s : State) (g : Group) : List Byte :=
  let turn := match g.turn with | some u => (match s.thread u with | some t => t.lane | none => 255) | none => 255
  let head := natLe 4 (s.teamIndex g.tid) ++ natLe 1 g.slot ++ natLe 1 (s.win g.tid) ++ natLe 1 s.rebases ++ natLe 1 turn ++
    natLe 6 (s.lt (s.coreOf g.tid)) ++ natLe 2 0 ++ natLe 4 (s.lanesWhere g fun _ => true) ++ natLe 4 g.fmode.toNat ++
    natLe 4 g.fabst.toNat ++ natLe 4 (s.lanesWhere g fun t => t.state == .waiting && t.wait == .gbar) ++
    natLe 4 (s.lanesWhere g fun t => t.state == .waiting && t.wait == .tbar) ++
    natLe 1 (s.itemsOf g.gid).length ++ natLe 1 (s.reqsOf g.gid).length
  padTo 1024 (padTo 64 head ++ (List.range 64).flatMap fun k => natLe 4 (SMap.get 0 g.sregs k).toNat)

/-- The pieces of a group image: where each lies, its bytes and its syndromes. `parked` are the threads that reissue a parked access. -/
def State.groupPieces (s : State) (g : Group) (parked : List Nat) : List (Nat × List Byte × List (BitVec 16)) :=
  let z := recordLen (s.win g.tid)
  let items := s.itemsOf g.gid
  let plain (off : Nat) (bs : List Byte) : Nat × List Byte × List (BitVec 16) := (off, bs, List.replicate (bs.length / 32) 0)
  let piece (t : Thread) : Nat × List Byte × List (BitVec 16) :=
    (1024 + t.lane * z, s.threadBytes t (parked.contains t.uid), markSyns z t.badGranules)
  [(0, s.groupHead g, markSyns 1024 (g.pois.map fun q => (64 + 4 * q.reg) / 32))] ++ (s.live g).map piece ++
  [plain (1024 + 32 * z) (items.flatMap s.itemBytes),
   plain (1024 + 32 * z + 128 * items.length) ((s.reqsOf g.gid).flatMap s.reqBytes)]

/-- Bytes of a group image. -/
def State.groupLen (s : State) (g : Group) : Nat :=
  1024 + 32 * recordLen (s.win g.tid) + 128 * (s.itemsOf g.gid).length + 4352 * (s.reqsOf g.gid).length

/-! ### Team images (R277, R346) -/

/-- A two's-complement number of n bytes. -/
def intLe (n : Nat) (v : Int) : List Byte := natLe n (v % (2 ^ (8 * n) : Int)).toNat

/-- A tile's image. -/
def Tile.bytes (t : Tile) : List Byte :=
  ((List.range 8192).flatMap fun k => intLe 6 (t.at_ k).1) ++
  ((List.range 1024).flatMap fun i => natLe 1 ((List.range 8).foldl (fun m b => if (t.at_ (8 * i + b)).2 then m + 2 ^ b else m) 0)) ++
  intLe 2 t.e ++ natLe 1 t.poison.toNat ++ List.replicate 61 0

/-- A tile from its image. -/
def Tile.ofBytes (tid acc : Nat) (b : List Byte) : Tile where
  tid := tid
  acc := acc
  elems := (List.range 8192).foldl (fun (m : SMap (Int × Bool)) k =>
    SMap.put (0, false) k (sext (numAt b (6 * k) 6) 48, (numAt b (49152 + k / 8) 1).testBit (k % 8)) m) []
  e := sext (numAt b 50176 2) 16
  poison := (numAt b 50178 1).testBit 0

/-- Bytes of a tile image. -/
def tileLen : Nat := 50240

/-- The slots of a team's scratch allocation, by their place in it in units of 16 bytes. -/
def State.slotMarks (s : State) (x : Team) : List Nat :=
  let base := scratchLoc x.core x.scrBase / 16
  (s.slots.filter fun k => base ≤ k && k < base + x.scrSize / 16).map (· - base)

/-- The bitmap of barrier markers, one bit for each granule of the scratch allocation. -/
def markBytes (marks : List Nat) (size : Nat) : List Byte :=
  (List.range (size / 256)).map fun i => BitVec.ofNat 8
    ((List.range 8).foldl (fun m b => if marks.any fun k => k / 2 == 8 * i + b then m + 2 ^ b else m) 0)

/-- Bytes of a team image. -/
def State.teamLen (s : State) (x : Team) : Nat :=
  256 + recAccs (s.recordOf x.tid) * tileLen + x.scrSize + x.privSize + x.scrSize / 256

/-- The pieces of a team image; scratch and lane-own bytes carry their hems. -/
def State.teamPieces (s : State) (x : Team) : List (Nat × List Byte × List (BitVec 16)) :=
  let accs := recAccs (s.recordOf x.tid)
  let head := padTo 256 (natLe 4 x.index ++ natLe 1 accs ++ natLe 1 x.dieSpace ++ natLe 2 0 ++ natLe 4 x.scrSize ++ natLe 4 x.privSize)
  let at_ := 256 + accs * tileLen
  let scr := scratchLoc x.core x.scrBase
  let priv := scratchLoc x.core x.privBase
  let marks := markBytes (s.slotMarks x) x.scrSize
  [(0, head, markSyns 256 [])] ++
  ((List.range accs).map fun k => (256 + k * tileLen, (s.tile x.tid k).bytes, markSyns tileLen [])) ++
  [(at_, s.bytes scr x.scrSize, s.syns scr x.scrSize),
   (at_ + x.scrSize, s.bytes priv x.privSize, s.syns priv x.privSize),
   (at_ + x.scrSize + x.privSize, marks, markSyns marks.length [])]

/-! ### The directory -/

/-- The lowest multiple of 64 from `from_` on at which n bytes meet no image. -/
def imageFit (saves : List SaveEnt) (from_ n : Nat) : Nat :=
  let ends := from_ :: saves.map fun e => roundUp (e.off + e.len) 64
  let free (a : Nat) : Bool := from_ ≤ a && saves.all fun e => a + n ≤ e.off || e.off + e.len ≤ a
  (minBy id (ends.filter free)).getD from_

/-- The 16 bytes of a directory entry. -/
def dirBytes (team slot kind : Nat) (edited : Bool) (off : Nat) : List Byte :=
  natLe 4 team ++ natLe 1 slot ++ natLe 1 kind ++ natLe 1 edited.toNat ++ natLe 1 0 ++ natLe 8 off

/-- Write a directory entry, within its granule; false where that cannot be done. -/
def State.putDir (s : State) (x : Ctx) (idx : Nat) (bs : List Byte) : State × Bool :=
  let r := s.locate x.num 0 (x.saveb.toNat + 16 * idx) true
  match r.2 with
  | none => (r.1, false)
  | some loc => let w := r.1.ucWrite x.num loc bs 0; (w.1, w.2.2)

/-- The context's save area cannot be used: it is FAULTED, where Table 23.3 lets it be. One that is PREEMPTING goes on to SAVED, and its RESUME
finds what could not be written (assumption 80). -/
def State.breakCtx (s : State) (c : Nat) : State :=
  s.modCtx c fun x => if x.state == .created || x.state == .running || x.state == .saved then { x with state := .faulted } else x

/-- Write the pieces of one image and enter it in the directory. -/
def State.putImage (s : State) (x : Ctx) (tid lt : Nat) (slot : Option Nat) (edited : Bool) (len : Nat)
    (pieces : List (Nat × List Byte × List (BitVec 16))) : State :=
  let off := imageFit x.saves (roundUp (16 * x.saven) 64) len
  let idx := (leastBelow (fun i => x.saves.all fun e => e.idx != i) x.saven).getD 0
  let r := pieces.foldl (fun (r : State × Bool) p =>
    let w := r.1.vaPut x.num lt (x.saveb.toNat + off + p.1) p.2.1 p.2.2
    (w.1, r.2 && w.2)) (s, true)
  let kind := match slot with | some _ => 1 | none => 2
  let d := r.1.putDir x idx (dirBytes (s.teamIndex tid) (slot.getD 0) kind edited off)
  let s := d.1.modCtx x.num fun x => { x with saves := x.saves ++ [{ idx := idx, tid := tid, slot := slot, off := off, len := len }] }
  if r.2 && d.2 then s else s.breakCtx x.num

/-- The directory holds what it must for an image: its bytes pass their check and name the image. -/
def State.dirOk (s : State) (x : Ctx) (e : SaveEnt) : State × Bool :=
  let r := s.locate x.num 0 (x.saveb.toNat + 16 * e.idx) false
  match r.2 with
  | none => (r.1, false)
  | some loc =>
    let b := r.1.sysRead x.num 0 loc 16
    let kind := match e.slot with | some _ => 1 | none => 2
    let want (edited : Bool) : List Byte := dirBytes (s.teamIndex e.tid) (e.slot.getD 0) kind edited e.off
    (b.1, b.2.2 && (b.2.1 == want false || b.2.1 == want true))

/-- An image has been restored: its entry is empty. -/
def State.dropImage (s : State) (x : Ctx) (e : SaveEnt) : State :=
  (s.putDir x e.idx (List.replicate 16 0)).1.modCtx x.num fun x => { x with saves := x.saves.filter fun y => y.idx != e.idx }

end Sys2Proof.Machine
end

