-- ==== Sys2Proof/Machine/Saves.lean ====
section
/-! DEFINITION. Saving groups and teams, and restoring them (R172, R195, R213, R241, R257, R277, R299, R313, R335, R345-R347, R373,
R374). -/

namespace Sys2Proof.Machine

/-! ### Matrix requests (R277) -/

/-- The team of the request's launch whose scratch allocation holds a cluster address, with the offset into it. -/
def State.ownerOf (s : State) (m : MReq) (w : Word) : Option (Nat × Nat) :=
  let core := 4 * m.cluster + field w 23 22
  let off := field w 21 0
  let lid := match s.team m.tid with | some x => x.lid | none => 0
  (s.teams.find? fun x => x.lid == lid && x.resident && x.core == core && x.scrBase ≤ off && off < x.scrBase + x.scrSize).map
    fun x => (x.tid, off - x.scrBase)

/-- The descriptor registers of a request that hold addresses (R265). -/
def MReq.addrRegs (m : MReq) : List Nat :=
  (if m.ra.isNone then [0] else []) ++ (if m.rb.isNone then [2] else []) ++ (if slotAscale m.fmt == 0 then [] else [4]) ++
  (if slotBscale m.fmt == 0 || slotBstore m.fmt == 1 then [] else [5])

/-- Withdraw a request: each address becomes its team and an offset. -/
def State.withdrawReq (s : State) (m : MReq) : State :=
  let own (k : Nat) : Option (Nat × Nat) := if m.addrRegs.contains k then s.ownerOf m (m.reg k) else none
  let desc := (List.range 6).map fun k => match own k with | some p => BitVec.ofNat 32 p.2 | none => m.reg k
  { s with mreqs := s.mreqs.filter fun x => x.id != m.id,
           wReqs := s.wReqs ++ [{ m with owners := (List.range 6).map fun k => (own k).map fun p => p.1, desc := desc }] }

/-! ### What a save waits for (R172, R345) -/

/-- An operation of a thread that a save does not wait for: the posting of an item that is withdrawn, a withdrawn request, an acquire,
and a publication that its home holds or has refused (R299). -/
def State.saveLeaves (s : State) (o : Op) : Bool :=
  match o.kind with
  | .copy => true
  | .mma => s.wReqs.any fun m => m.id == o.aop
  | .sqacq => !o.done
  | .sqpub => s.stall.contains o.id || o.again.isSome
  | _ => false

/-- The work in flight of a group is settled, the presses of its context on the core among it (R195). So are the stores of the core that a
barrier or a read may have put before the save, as a `FENCE.REL.SYSTEM` waits for them (R152, R172, R173, assumption 62). -/
def State.saveSettled (s : State) (g : Group) : Bool :=
  let us := uids (s.members g)
  let core := s.coreOf g.tid
  let c := s.ctxOf g.tid
  s.items.all (fun x => !(x.gid == g.gid && x.accepted)) && s.mreqs.all (fun m => m.gid != g.gid) &&
  let since := ((s.ctx c).bind Ctx.preAt).getD s.tick
  s.ops.all fun o => !(o.kind == .press && o.agent == core && o.ctx == c) && (!us.contains o.uid || s.saveLeaves o) &&
    !(s.coreOpen core c 4 o && o.issued ≤ since)

/-! ### Saving -/

/-- A thread goes back to a word that issues again. -/
def Thread.backTo (p : Pos) (was : Option Before) (t : Thread) : Thread :=
  { t with pkt := p.pkt, word := p.word, clause := p.clause, state := .runnable, wait := .none,
           again := { at_ := p, on := t.at_, was := was, trap := t.trapMode } :: t.again.filter fun a => a.trap != t.trapMode }

/-- A wait on a slot or a monitor ends at its `BWAIT` or `MWAIT`, which issues again (R146, R241, Table 23.5). -/
def Thread.unregister (t : Thread) : Thread :=
  match t.state, t.wait with
  | .waiting, .slot _ _ _ p was => t.backTo p (some was)
  | .waiting, .mwait p => t.backTo p none
  | _, _ => t

/-- Waits that do not outlive a save: a parked access, a monitor and whatever issues again (R146, R335). -/
def Thread.standDown (t : Thread) : Thread :=
  let t := { t with mon := none }
  match t.state, t.wait with
  | .waiting, .gbar | .waiting, .tbar => t
  | .waiting, _ => { t with state := .runnable, wait := .none }
  | _, _ => t

/-- Take the acquires of some threads back from their homes. -/
def State.withdrawAcqs (s : State) (us : List Nat) : State :=
  let ids := (s.ops.filter fun o => us.contains o.uid && o.kind == .sqacq && !o.done).map Op.id
  { s with
    seqWait := s.seqWait.filter fun k => !ids.contains k,
    agenda := s.agenda.filter fun i => match i with | .sqacqRequest k => !ids.contains k | _ => true,
    ops := s.ops.map fun o => if ids.contains o.id then { o with again := none, carry := none } else o }

/-- The logical times left in a team's scratch allocation, by their place in it in units of 16 bytes. -/
def State.relsOf (s : State) (m : Team) : SMap (Nat × Nat) :=
  let base := scratchLoc m.core m.scrBase / 16
  (s.bankRel.filter fun e => base ≤ e.1 && e.1 < base + m.scrSize / 16).map fun e => (e.1 - base, e.2)

/-- The last resident group of a team has been saved: the team's image, and its core resources are free. Waits of other teams on its
slots are unregistered (R241). -/
def State.saveTeam (s : State) (c tid : Nat) : State :=
  match s.team tid, s.ctx c with
  | some m, some x =>
    let marks := s.slotMarks m
    let rels := s.relsOf m
    let s := s.putImage x tid (s.lt m.core) none false (s.teamLen m) (s.teamPieces m)
    let lo := scratchLoc m.core m.scrBase
    let onOurs (t : Thread) : Bool := match t.wait with | .slot l .. => lo ≤ l && l < lo + m.scrSize | _ => false
    let s := { s with threads := s.threads.map fun t => if onOurs t then t.unregister else t }
    let s := (s.clearSlots m.core m.scrBase m.scrSize).modTeam tid fun m =>
      { m with resident := false, marks := marks, rels := rels, laggard := none }
    { s with tiles := s.tiles.filter fun t => t.tid != tid }
  | _, _ => s

/-- Some threads take the times of the releases whose values they have read, at `.SYSTEM`. -/
def State.acquireAll (s : State) (us : List Nat) : State := (s.threads.filter fun t => us.contains t.uid).foldl (fun s t => s.takeTime 4 t) s

/-- What `FENCE.AR.SYSTEM` does for some threads of a core once all they wait for has happened: a save acts as one, and a resumption as its
acquire (R172). -/
def State.fenceSystem (s : State) (core : Nat) (us : List Nat) : State :=
  ((s.leaveTime core 4 us).acquireAll us).acquireDrop core 4

/-- Save a group whose work is settled: its unaccepted items and its acquires are withdrawn, its image written. -/
def State.saveGroup (s : State) (g : Group) : State :=
  let us := uids (s.live g)
  let c := s.ctxOf g.tid
  let core := s.coreOf g.tid
  let parked := uids ((s.live g).filter Thread.onPage)
  let s := { s with items := s.items.filter fun x => x.gid != g.gid, wItems := s.wItems ++ s.items.filter fun (x : CopyItem) => x.gid == g.gid }
  let s := ((s.withdrawAcqs us).modThreads us Thread.unregister).fenceSystem core us
  match s.ctx c with
  | none => s
  | some x =>
    let s := s.putImage x g.tid (s.lt core) (some g.slot) g.edited (s.groupLen g) (s.groupPieces g parked)
    let s := (s.modThreads us Thread.standDown).modGroup g.gid fun (g : Group) => { g with place := .saved, swapAt := none }
    if s.groups.any fun h => h.tid == g.tid && h.place != GPlace.saved then s else s.saveTeam c g.tid

/-- What the save of a group can do now: withdraw requests between passes, write the core's RD sectors back, save. -/
def State.saveStep (s : State) (gid : Nat) : State :=
  match s.group gid with
  | none => s
  | some g =>
    if g.place != .saving then s
    else
      let s := (s.mreqs.filter fun m => m.gid == gid && m.next ≤ m.rep && !s.inPass m).foldl State.withdrawReq s
      if !s.saveSettled g then s
      else
        let rd := s.l1.filter fun e => e.core == s.coreOf g.tid && e.ctx == s.ctxOf g.tid && e.st == .RD
        if rd.isEmpty then s.saveGroup g else rd.foldl State.pressOut s

/-- The groups of a context that a save has stopped. -/
def State.savingOf (s : State) (c : Nat) : List Group := s.groups.filter fun g => g.place == .saving && s.ctxOf g.tid == c

/-- A save begins: the groups of a context on a core, or all of them, stop at their instruction boundaries; none where the directory
has too few free entries for the groups and for the teams that will have none left (R345). -/
def State.startSave (s : State) (x : Ctx) (core : Nat) : Option State :=
  let mine := s.groups.filter fun g => s.ctxOf g.tid == x.num && g.place != .saved && (core == 0xFFFF || s.coreOf g.tid == core)
  let ids := mine.map Group.gid
  let left := s.groups.filter fun g => s.ctxOf g.tid == x.num && g.place != .saved && !ids.contains g.gid
  let teams := (dedup (mine.map Group.tid)).filter fun t => left.all fun g => g.tid != t
  if x.saven < x.saves.length + mine.length + teams.length then none
  else
    let s := { s with groups := s.groups.map fun (g : Group) => if ids.contains g.gid then { g with place := .saving, swapAt := none } else g }
    some (s.modCtx x.num fun x => { x with preAt := some s.tick, state := if left.isEmpty then .preempting else x.state })

/-! ### Restoring -/

/-- Go on with n bytes of an image; a save area that cannot be read makes the context FAULTED. -/
def State.fromImage (s : State) (c va n : Nat) (k : State → List Byte → List (BitVec 16) → State) : State :=
  let r := s.vaGet c va n
  match r.2 with
  | some (b, y) => k r.1 b y
  | none => r.1.breakCtx c

/-- The same for bytes that the restore unit checks, which reports each granule that fails (Table 9.2). -/
def State.fromChecked (s : State) (c va n : Nat) (k : State → List Byte → List (BitVec 16) → State) : State :=
  s.fromImage c va n fun s b y => k (if y.any (· != 0) then s.vaCheck c va n else s) b y

/-- Bytes of a scratchpad come back with their hems. -/
def State.putScratch (s : State) (loc : Nat) (b : List Byte) (y : List (BitVec 16)) : State :=
  let s := s.setGranules loc b y
  { s with gtag := s.gtag.filter fun e => !(loc / 32 ≤ e.1 && e.1 < loc / 32 + b.length / 32) }

/-- A team takes its place on a core: tiles, scratch, lane-own region and barrier markers come from its image at a global address.
A tile whose image fails a check is poisoned. -/
def State.restoreTeam (s : State) (m : Team) (at_ : Nat × Nat × Nat × Nat) (va : Nat) : State :=
  let core := at_.1
  let r := s.recordOf m.tid
  let s := s.modTeam m.tid fun m =>
    { m with core := core, base := at_.2.1, scrBase := at_.2.2.1, privBase := at_.2.2.2, resident := true, marks := [], rels := [] }
  let s := (s.clearSlots core at_.2.2.1 m.scrSize).clearSlots core at_.2.2.2 m.privSize
  let s := s.noteUsed m.ctx [(scratchLoc core at_.2.2.1, m.scrSize), (scratchLoc core at_.2.2.2, m.privSize)]
  let s := (List.range (recAccs r)).foldl (fun s k => s.fromChecked m.ctx (va + 256 + k * tileLen) tileLen fun s b y =>
    let t := Tile.ofBytes m.tid k b
    s.putTile { t with poison := t.poison || y.any (· != 0) }) s
  let at_' := va + 256 + recAccs r * tileLen
  let s := s.fromImage m.ctx at_' m.scrSize fun s b y => s.putScratch (scratchLoc core at_.2.2.1) b y
  let s := s.fromImage m.ctx (at_' + m.scrSize) m.privSize fun s b y => s.putScratch (scratchLoc core at_.2.2.2) b y
  let s := s.fromChecked m.ctx (at_' + m.scrSize + m.privSize) (m.scrSize / 256) fun s b _ =>
    let lo := scratchLoc core at_.2.2.1 / 16
    let set := m.marks.filter fun k => (numAt b (k / 16) 1).testBit (k / 2 % 8)
    { s with slots := set.foldl (fun l k => insertBy id (lo + k) l) s.slots }
  let lo := scratchLoc core at_.2.2.1 / 16
  let s := { s with bankRel := m.rels.foldl (fun (r : SMap (Nat × Nat)) (e : Nat × Nat × Nat) => SMap.put (0, 0) (lo + e.1) e.2 r) s.bankRel }
  s.seedFloors core m.ctx

/-- The uniform registers of a group image, with those that come back poisoned (R205). -/
def uniformsBack (found : Nat → Nat → BitVec 16 → Poison) (g : Group) (va : Nat) (b : List Byte) (y : List (BitVec 16)) : SMap Word × List Poison :=
  let syn (k : Nat) : BitVec 16 := y.getD ((64 + 4 * k) / 32) 0
  let bad := (List.range 64).filter fun k => syn k != 0 && (syn k != 1 || g.pois.any fun q => q.reg == k)
  ((List.range 64).foldl (fun (m : SMap Word) k => SMap.put 0 k (BitVec.ofNat 32 (numAt b (64 + 4 * k) 4)) m) [],
   bad.map fun k => found k (va + 64 + 4 * k) (syn k))

/-- `FABST` without its reserved bits (Table 11.6). -/
def fabstOf (n : Nat) : Word := BitVec.ofNat 32 n &&& 0xFF1F

/-- A thread whose record does not ask for its acquire again has none (Table 23.5). -/
def State.dropAcqs (s : State) (uid : Nat) : State :=
  (s.ops.filter fun o => o.uid == uid && o.kind == .sqacq && !o.done).foldl (fun s o => s.finish { o with sel := 15 }) s

/-- A thread of a group comes back from its record at a global address, on a path. -/
def State.restoreThread (s : State) (c W path a : Nat) (t : Thread) (b : List Byte) (y : List (BitVec 16)) : State :=
  let deep := s.deepSeam t
  let s := s.modThread t.uid fun t => { t.restore W a (s.poisonBack c) deep b y with path := path }
  if (numAt b 6 1).testBit 2 then s else s.dropAcqs t.uid

/-- The withdrawn work of a restored group goes to its new core and cluster: acquires are sent, items and requests posted again. -/
def State.repost (s : State) (g : Group) : State :=
  let us := uids (s.live g)
  let core := s.coreOf g.tid
  let s := { s with ops := s.ops.map fun (o : Op) => if us.contains o.uid then { o with agent := core } else o }
  let acqs := s.ops.filter fun o => us.contains o.uid && o.kind == .sqacq && !o.done
  (acqs.foldl State.sqSend s).repostItems.repostReqs

/-- Restore a group from its image: SWAPPED-OUT, on a path of its own until its threads' positions part it (R347, R172). Its no-progress count
starts at 0, for the image has no place for it (assumption 74). -/
def State.restoreGroup (s : State) (g : Group) (va : Nat) : State :=
  let c := s.ctxOf g.tid
  let core := s.coreOf g.tid
  let W := s.win g.tid
  let items := va + 1024 + 32 * recordLen W
  let len := 128 * (s.itemsOf g.gid).length
  s.fromChecked c va 1024 fun s b y =>
    let sched := (g.slot + (match s.team g.tid with | some x => x.base | none => 0)) % 4
    let lt := numAt b 8 6 - (s.rebases + 256 - numAt b 6 1) % 256 * 2 ^ 46
    let u := uniformsBack (s.poisonBack c) g va b y
    let p : Path := { Path.fresh s.nextId sched g.tid s.tick with parked := some s.tick }
    let s := s.modGroup g.gid fun g =>
      { g with place := if g.haltDue then .halted else .pending, haltDue := false, sched := sched, sregs := u.1, pois := u.2, fmode := BitVec.ofNat 4 (numAt b 20 4),
               fabst := fabstOf (numAt b 24 4), entered := s.tick, swapAt := none, wd := 0 }
    let s := { s with paths := s.paths ++ [p], nextId := s.nextId + 1 }
    let s := (s.live g).foldl (fun s t =>
      let a := va + 1024 + t.lane * recordLen W
      s.fromChecked c a (recordLen W) fun s b y => s.restoreThread c W p.id a t b y) s
    let s := s.fromChecked c items len fun s b _ => s.itemsBack g b
    let s := s.fromChecked c (items + len) (4352 * (s.reqsOf g.gid).length) fun s b _ => s.reqsBack g b
    (((s.raiseLt core lt).acquireAll (uids (s.live g))).acquireDrop core 4).repost g

/-- Restore a team and its groups, in ascending slot number, and empty their directory entries. -/
def State.restore (s : State) (x : Ctx) (m : Team) (at_ : Nat × Nat × Nat × Nat) : State :=
  let ents := x.saves.filter fun e => e.tid == m.tid
  let va (e : SaveEnt) : Nat := x.saveb.toNat + e.off
  let s := match ents.find? fun e => e.slot.isNone with
    | some e => s.restoreTeam m at_ (va e)
    | none => s
  let groups := sortBy (fun e => e.slot.getD 0) (ents.filter fun e => e.slot.isSome)
  let s := groups.foldl (fun s e =>
    match s.groups.find? fun g => g.tid == m.tid && some g.slot == e.slot with
    | some g => s.restoreGroup g (va e)
    | none => s) s
  ents.foldl (fun s e => s.dropImage x e) s

/-- Resume saved teams in order as far as they find room (R313, R347): true where none is left waiting. Images of a team that its
launch has lost meanwhile are dropped; a corrupted directory makes the context FAULTED (Table 23.3). -/
def State.resumeTeams (c : Nat) : List Nat → State → State × Bool
  | [], s => (s, true)
  | tid :: r, s =>
    match s.ctx c with
    | none => (s, true)
    | some x =>
      let ents := x.saves.filter fun e => e.tid == tid
      match s.team tid with
      | none => State.resumeTeams c r (ents.foldl (fun s e => s.dropImage x e) s)
      | some m =>
        if x.state == .faulted then (s, true)
        else if m.retired then State.resumeTeams c r (ents.foldl (fun s e => s.dropImage x e) s)
        else
          let ok := ents.foldl (fun (q : State × Bool) e => let k := q.1.dirOk x e; (k.1, q.2 && k.2)) (s, true)
          if !ok.2 then (ok.1.breakCtx c, true)
          else
            let d := ok.1.pageDies c m.pages
            let slots := ents.filterMap fun e => e.slot
            match d.1.corePlace (s.recordOf tid) slots (d.1.teamDie m.lid d.2) with
            | none => (d.1, false)
            | some at_ => State.resumeTeams c r (d.1.restore x m at_)

/-- The saved teams of a context in ascending team index. -/
def State.savedTeams (s : State) (x : Ctx) : List Nat := sortBy s.teamIndex (dedup (x.saves.map SaveEnt.tid))

/-! ### The bound on remote work (R345) -/

/-- What a thread's operation stands in: itself, or the merged request that carries it. -/
def Op.carries (us : List Nat) (ids : List Nat) (o : Op) : Bool := us.contains o.uid || o.waits.any ids.contains

/-- The steps that end the remote accesses of groups being saved: held writes are lost, the rest time out. -/
def State.boundOps (s : State) (us : List Nat) : List Instr :=
  let ids := (s.ops.filter fun o => us.contains o.uid).map Op.id
  (s.ops.filter fun o => o.carries us ids).filterMap fun o =>
    if o.kind == .pubf then (if o.done then none else some (.pubDeadline o.id))
    else if o.due.isNone then none
    else if o.space == 1 && !s.carries o.port && (o.kind == .atomic || !o.waits.isEmpty) then some (.lostWrite o.id)
    else some (.remoteTimeout o.id)

/-- `PREEMPT_REMOTE_BOUND`: from now on no node answers an accepted item of a group that is being saved (R345). -/
def execPreemptRemoteBound (ctx : Nat) (s : State) : Out :=
  let gs := s.savingOf ctx
  let us := gs.flatMap fun g => uids (s.members g)
  let ends (x : CopyItem) : Bool := x.accepted && gs.any fun g => g.gid == x.gid
  .next { s with
    items := s.items.map fun x => if ends x then { x with late := true, wake := if x.due.isSome then s.tick else x.wake } else x,
    dues := s.dues ++ s.boundOps us }

end Sys2Proof.Machine
end

