-- ==== Sys2Proof/Machine/Contexts.lean ====
section
/-! DEFINITION. Context and page commands and the ports that perform them (R334, R336, R337, R340-R349), and the teardown of a context
(R344, R348). -/

namespace Sys2Proof.Machine

/-! ### Commands (Tables 22.4, 23.2) -/

/-- Field `OP` of a context command. -/
def cmdOp (c : PortCmd) : Nat := field c.w 3 0
/-- Field `CTX`. -/
def cmdCtx (c : PortCmd) : Nat := field c.w 15 10
/-- Field `RIDX`. -/
def cmdRidx (c : PortCmd) : Nat := field c.w 29 26
/-- Field `FEED`. -/
def cmdFeed (c : PortCmd) : Bool := c.w.getLsbD 30
/-- Field `QPRIO`. -/
def cmdQprio (c : PortCmd) : Nat := field c.w 33 31
/-- Field `NSZ`. -/
def cmdNsz (c : PortCmd) : Nat := field c.w 37 34
/-- Field `QN`. -/
def cmdQn (c : PortCmd) : Nat := field c.w 47 38
/-- Field `CORE`. -/
def cmdCore (c : PortCmd) : Nat := field c.w 63 48
/-- Field `ARG`. -/
def cmdArg (c : PortCmd) : BitVec 64 := c.w.extractLsb' 64 64

/-- The command with its operation code, which its row of the opcode table names. -/
def cmdWithOp (c : PortCmd) (n code : Nat) : PortCmd :=
  { c with w := (c.w &&& ~~~(BitVec.ofNat 128 (2 ^ n - 1))) ||| BitVec.ofNat 128 code }

/-- The reserved bits of a context command are 0. -/
def cmdClean (c : PortCmd) : Bool := field c.w 25 16 == 0 && field c.w 9 4 == 0

/-- The reserved bits of a page command are 0. -/
def cmdPageClean (c : PortCmd) : Bool := field c.w 39 32 == 0 && field c.w 20 16 == 0 && field c.w 9 2 == 0

/-- The sender may command a context: firmware, or the owning host (R343; for page commands too, by inference). -/
def cmdFrom (c : PortCmd) (x : Ctx) : Bool := match c.host with | none => true | some h => h == x.host

/-- What a command comes to. -/
inductive Done where
  | ok (value : BitVec 64)
  | error
  | waits
  deriving DecidableEq, Repr

/-! ### CREATE (R340, R341, R343) -/

/-- Whether every bit of n bytes from an offset on is 0. -/
def zeroAt (b : List Byte) (off n : Nat) : Bool := numAt b off n == 0

/-- The floor bytes of a 32-byte region entry (Table 8.6). -/
def floorBytes (e : List Byte) : Nat := numAt e 16 6

/-- A region entry as it is installed, with the floor given: one that a check of R191 refuses has V = 0. The second answer says whether it
is refused. -/
def regionOf32 (e : List Byte) (floor : Nat) : Region × Bool :=
  let v := numAt e 0 2
  let bad := v / 2 != 0 || !zeroAt e 12 4 || !zeroAt e 22 10 || (v % 2 == 1 && zeroAt e 8 4)
  ({ v := v % 2 == 1 && !bad, base := BitVec.ofNat 48 (numAt e 2 6), size := BitVec.ofNat 32 (numAt e 8 4), floor := floor }, bad)

/-- Two valid entries overlap. -/
def Region.meets (a b : Region) : Bool :=
  a.v && b.v && a.base.toNat < b.base.toNat + b.size.toNat && b.base.toNat < a.base.toNat + a.size.toNat

/-- The 16 entries of a record, checked against one another before any is installed, with the numbers of the refused ones (R191). -/
def regionsOf (record : List Byte) : List Region × List Nat :=
  let rs := (List.range 16).map fun i => regionOf32 ((record.drop (128 + 32 * i)).take 32) 0
  let clash (i : Nat) : Bool := (List.range 16).any fun j =>
    j != i && (match rs[i]?, rs[j]? with | some a, some b => a.1.meets b.1 | _, _ => false)
  ((List.range 16).map fun i => match rs[i]? with
     | some a => if clash i then { a.1 with v := false } else a.1
     | none => Region.none,
   (List.range 16).filter fun i => clash i || (match rs[i]? with | some a => a.2 | none => false))

/-- The fields of a context record are in range and its reserved bits 0 (Table 23.1). -/
def recordOk (b : List Byte) : Bool :=
  b.length == 1024 &&
  numAt b 0 8 % 65536 == 0 && numAt b 0 8 < hbmBytes &&
  8 ≤ numAt b 40 2 && numAt b 40 2 ≤ 256 && 16 ≤ numAt b 42 2 && numAt b 42 2 ≤ 4096 && 4 ≤ numAt b 44 4 && numAt b 44 4 ≤ 65000 &&
  numAt b 48 8 % 256 == 0 && numAt b 56 8 % 65536 == 0 && 1 ≤ numAt b 64 4 && numAt b 64 4 ≤ 2 ^ 20 && zeroAt b 68 4 &&
  numAt b 72 8 % 64 == 0 && 4 ≤ numAt b 80 1 && numAt b 80 1 ≤ 16 && numAt b 81 1 < 4 && numAt b 82 1 < 16 && zeroAt b 83 45 &&
  zeroAt b 640 384 && (List.range 16).all fun i => floorBytes ((b.drop (128 + 32 * i)).take 32) == 0

/-- The context that a record makes. -/
def ctxFromRecord (n : Nat) (b : List Byte) : Ctx :=
  { Ctx.fresh n with
    state := .created, root := numAt b 0 8, part := BitVec.ofNat 256 (numAt b 8 32), lease := numAt b 40 2, drift := numAt b 42 2,
    rto := numAt b 44 4, trapb := BitVec.ofNat 64 (numAt b 48 8), saveb := BitVec.ofNat 64 (numAt b 56 8), saven := numAt b 64 4,
    frqb := BitVec.ofNat 64 (numAt b 72 8), frqn := numAt b 80 1, pfh := (numAt b 81 1).testBit 0, host := numAt b 82 1,
    dbg := if (numAt b 81 1).testBit 1 then some (numAt b 82 1) else none, regions := (regionsOf b).1 }

/-- One configuration record for each refused entry (R351). -/
def State.configRecords (s : State) (c kind : Nat) (entries : List Nat) : State :=
  entries.foldl (fun s i => s.record c { FRec.blank 8 kind with detail := natLe 4 i }) s

/-- `CREATE`: the number is FREE, no partition meets another, a fenced slice, or the slice of the queue pages (R25, R341,
assumption 16). -/
def State.doCreate (s : State) (c : PortCmd) : State × Done :=
  let b := c.record
  let part := BitVec.ofNat 256 (numAt b 8 32)
  let taken := s.ctxs.any fun x => x.num == (cmdCtx c) || x.part &&& part != 0
  let fenced := part.getLsbD (paSlice s.queuePages) || (List.range 256).any fun i => part.getLsbD i && s.fencedSlice i
  if !recordOk b || taken || fenced || !(match c.host with | none => true | some h => h == numAt b 82 1) then (s, .error)
  else
    let s := { s with ctxs := insertBy Ctx.num (ctxFromRecord (cmdCtx c) b) s.ctxs }
    (s.configRecords (cmdCtx c) 1 (regionsOf b).2, .ok Config.queuePagesFabric)

/-! ### Queues (R320, R343) -/

/-- The queue is DISABLED. -/
def Queue.off (x : Queue) : Bool := x.state == .disabled

/-- `QENABLE`. -/
def State.doQenable (s : State) (x : Ctx) (c : PortCmd) : State × Done :=
  let q := s.queue (cmdQn c)
  if x.state == .tearing || !q.off || !(q.ctx == none || q.ctx == some x.num) || (cmdArg c).toNat % 128 != 0 || 12 < (cmdNsz c) then (s, .error)
  else
    let s := { s with launches := s.launches.map fun (l : Launch) => if l.queue == q.q then { l with stale := true } else l }
    (s.putQueue { q with ctx := some x.num, base := (cmdArg c), feed := (cmdFeed c), nsz := (cmdNsz c), prio := (cmdQprio c), state := .idle,
                         prod := 0, cons := 0, ret := 0, lts := [] }, .ok 0)

/-- `QDRAIN`. -/
def State.doQdrain (s : State) (x : Ctx) (c : PortCmd) : State × Done :=
  let q := s.queue (cmdQn c)
  if q.ctx == some x.num && (q.state == .idle || q.state == .active || q.state == .blocked) then
    (s.putQueue { q with state := .draining }, .ok 0)
  else (s, .error)

/-- `QCLEAR`: the POSTED launches and the head in WAITING are dropped without stamps. -/
def State.doQclear (s : State) (x : Ctx) (c : PortCmd) : State × Done :=
  let q := s.queue (cmdQn c)
  if q.ctx == some x.num && q.state == .faulted then
    let gone (l : Launch) : Bool := l.queue == q.q && (l.state == .posted || l.state == .waiting || l.state == .done)
    ({ s with launches := s.launches.filter fun l => !gone l }.putQueue
      { q with state := .idle, cons := q.prod, ret := q.prod, lts := [] }, .ok 0)
  else (s, .error)

/-! ### Debug rights (R349) -/

/-- A HALTED group resumes as SWAPPED-OUT, and one that is to halt need not (Table 11.2). -/
def Group.resume (tick : Nat) (g : Group) : Group :=
  if g.place == .halted then { g with place := .pending, entered := tick } else { g with haltDue := false }

/-- Halted groups resume. -/
def State.resumeHalted (s : State) (p : Group → Bool) : State :=
  { s with groups := s.groups.map fun g => if p g then g.resume s.tick else g }

/-- The context's debug right is taken away. -/
def State.revoke (s : State) (c : Nat) : State :=
  let s := s.resumeHalted fun g => s.ctxOf g.tid == c
  { s.modCtx c fun x => { x with dbg := none, breaks := [], watches := [] } with edits := s.edits.filter fun e => e.ctx != c }

/-! ### REGION (R191, R343) -/

/-- `REGION`: the entry keeps the floor held for its number. -/
def State.doRegion (s : State) (x : Ctx) (c : PortCmd) : State × Done :=
  let e := c.record.take 32
  if !(x.state == .created || x.state == .saved) || e.length != 32 || floorBytes e != 0 then (s, .error)
  else
    let floor := match x.regions[(cmdRidx c)]? with | some r => r.floor | none => 0
    let r := regionOf32 e floor
    let clash := (List.range 16).any fun i => i != (cmdRidx c) && (match x.regions[i]? with | some o => r.1.meets o | none => false)
    let s := s.modCtx x.num fun x => { x with regions := x.regions.set (cmdRidx c) { r.1 with v := r.1.v && !clash } }
    (s.configRecords x.num 1 (if r.2 || clash then [(cmdRidx c)] else []), .ok 0)

/-! ### TEARDOWN (R348) -/

/-- Keys of a sparse map in a range of locations are dropped: the bytes read as zero, with good hems and no tag. -/
def State.wipe (s : State) (loc n : Nat) : State :=
  let out (k : Nat) : Bool := !(loc ≤ k && k < loc + n)
  let outG (k : Nat) : Bool := !(loc / 32 ≤ k && k < (loc + n) / 32)
  { s with mem := s.mem.filter fun e => out e.1, syn := s.syn.filter fun e => outG e.1, gtag := s.gtag.filter fun e => outG e.1 }

/-- A thread's access toward the fabric or a remote frame. -/
def Op.remote (o : Op) : Bool :=
  (match o.kind with | .load | .store | .atomic | .pubf | .mon => true | _ => false) && (o.space == 1 || (o.space == 0 && isRemote o.loc))

/-- Every outstanding fabric request of a context is cancelled: a write may have been performed, and each access and each item that
awaits an answer leaves one record. -/
def State.cancelRemote (s : State) (c : Nat) : State :=
  let mine := s.ops.filter fun o => o.ctx == c && o.remote && !(o.kind == .pubf && o.done)
  let s := (mine.filter fun o => o.uid == 0 || o.kind == .atomic).foldl State.perhaps s
  let s := (mine.filter fun o => o.uid != 0).foldl (fun s o => s.fabRecord o 4 []) s
  (s.items.filter fun x => x.ctx == c && x.due.isSome).foldl (fun s x => s.record c { FRec.blank 7 4 with
    team := s.teamIndex x.tid, addr := (x.dest x.landed).1, pc := x.pkt.toNat, slot := x.slot, die := clusterDie x.cluster,
    unit := x.cluster }) s

/-- Stores and atomics of a context to local HBM that are in flight are performed at their homes, in the order of their issue. -/
def State.finishLocal (s : State) (c : Nat) : State :=
  (s.ops.filter fun o => o.ctx == c && o.space == 0 && isHbm o.loc).foldl (fun s o =>
    if o.kind == .store && !o.waits.isEmpty then s.targetStore { o with waits := [] }
    else if o.kind == .atomic && !s.answered o.id then (s.targetAtomic o).1
    else if o.kind == .press && o.size == 64 then s.targetStore o
    else s) s

/-- The context's lines in the L1s and on their way home are written back. -/
def State.flushLines (s : State) (c : Nat) : State :=
  let s := (s.l1.filter fun e => e.ctx == c).foldl (fun s e =>
    if e.st == .RD then (s.pressOut e)
    else if (e.st == .O || e.st == .OI) && e.dirty then s.setGranules (sectorLoc e.sec) e.data e.syn else s) s
  let part := s.partition c
  let ours (sec : Nat) : Bool := sec / 2 ^ 60 == c + 1 || (sec < 2 ^ 60 && part.contains (paSlice (sectorLoc sec)))
  let sent := s.agenda.filterMap fun i => match i with
    | .ownerAnswer sec _ img | .writeBackReceive sec _ img => some (sec, img)
    | _ => none
  sent.foldl (fun s p => if p.2.data.isEmpty || !ours p.1 then s else s.setGranules (sectorLoc p.1) p.2.data p.2.syn) s

/-- The context's operations, entries and lines go. -/
def State.dropCtx (s : State) (c : Nat) : State :=
  let tids := (s.teams.filter fun x => x.ctx == c).map Team.tid
  let reqs := (s.mreqs.filter fun m => m.ctx == c).map MReq.id
  let part := s.partition c
  let s := { s with
    threads := s.threads.filter fun t => !tids.contains t.tid,
    groups := s.groups.filter fun g => !tids.contains g.tid,
    paths := s.paths.filter fun p => !tids.contains p.tid,
    teams := s.teams.filter fun x => x.ctx != c,
    tiles := s.tiles.filter fun x => !tids.contains x.tid,
    launches := s.launches.filter fun l => l.ctx != c,
    items := s.items.filter fun x => x.ctx != c,
    mreqs := s.mreqs.filter fun m => m.ctx != c,
    mpass := s.mpass.filter fun p => !reqs.contains p.req,
    wItems := s.wItems.filter fun x => x.ctx != c,
    wReqs := s.wReqs.filter fun m => m.ctx != c,
    ops := s.ops.filter fun o => o.ctx != c,
    l1 := s.l1.filter fun e => e.ctx != c,
    fab := s.fab.filter fun e => e.ctx != c,
    tlb := s.tlb.filter fun e => e.ctx != c,
    pageReqs := s.pageReqs.filter fun q => q.ctx != c,
    inPubs := s.inPubs.filter fun p => p.ctx != c,
    edits := s.edits.filter fun e => e.ctx != c }
  let ids := s.ops.map Op.id
  let used (h : HomeSec) : Bool := s.l1.any (fun e => e.sec == h.sec) || s.ops.any fun o => o.sec == h.sec
  { s with
    seqWait := s.seqWait.filter ids.contains, stall := s.stall.filter ids.contains,
    home := s.home.filter fun h => used h || !(h.sec / 2 ^ 60 == c + 1 || (h.sec < 2 ^ 60 && part.contains (paSlice (sectorLoc h.sec)))) }

/-- The context no longer exists: its number is FREE. -/
def State.freeCtx (s : State) (c : Nat) : State := { s with ctxs := s.ctxs.filter fun x => x.num != c }

/-- The scratchpad allocations that a context's teams have had are zeroed, but for what teams of other contexts hold now (R348). -/
def State.wipeUsed (s : State) (c : Nat) : State :=
  let theirs := (s.teams.filter fun m => m.ctx != c && m.resident).flatMap fun m =>
    [(scratchLoc m.core m.scrBase, m.scrSize), (scratchLoc m.core m.privBase, m.privSize)]
  let within (l : List (Nat × Nat)) (k : Nat) : Bool := l.any fun e => e.1 ≤ k && k < e.1 + e.2
  let mine := match s.ctx c with | some x => x.used | none => []
  let out (k : Nat) : Bool := !within mine k || within theirs k
  { s with mem := s.mem.filter fun e => out e.1, syn := s.syn.filter fun e => out (32 * e.1), gtag := s.gtag.filter fun e => out (32 * e.1),
           slots := s.slots.filter fun g => out (16 * g), bankRel := s.bankRel.filter fun e => out (16 * e.1) }

/-- `TEARDOWN`: discard, cancel, write back, drop, zero, and ask the pool nodes that the context has used. One of a context that is TEARING-DOWN
changes nothing (Table 23.3, assumption 80). -/
def State.doTeardown (s : State) (x : Ctx) : State × Done :=
  if x.state == .tearing then (s, .ok 0)
  else
    let c := x.num
    let s := ((s.cancelRemote c).flushLines c).finishLocal c
    let s := s.dropCtx c
    let s := (s.queues.filter fun q => q.ctx == some c).foldl (fun s q => s.putQueue { q with state := .disabled, ctx := none, lts := [] }) s
    let s := s.wipeUsed c
    let s := (s.partition c).foldl (fun s sl => s.wipe (dieLoc sl 0) (2 ^ 20)) s
    let nodes := match s.ctx c with | some x => x.asked.filter (· < 64) | none => []
    let s := { s with outbox := s.outbox ++ nodes.map fun n => OutMsg.askReturn c n }
    let s := s.modCtx c fun x =>
      { x with state := .tearing, downAt := some s.tick, asked := nodes, saves := [], dbg := none, breaks := [], watches := [],
               preAt := none }
    (if nodes.isEmpty then s.freeCtx c else s, .ok 0)

/-- `TEARDOWN_NODE_ACK`: a node whose link carries nothing cannot acknowledge. -/
def execTeardownNodeAck (ctx node : Nat) (s : State) : Out :=
  match s.ctxs.find? fun x => x.num == ctx with
  | none => .next s
  | some x =>
    if x.state != .tearing || (s.portTo 0 node 0).isNone then .next s
    else
      let left := x.asked.filter (· != node)
      let s := s.modCtx ctx fun x => { x with asked := left }
      .next (if left.isEmpty then s.freeCtx ctx else s)

/-- `TEARDOWN_BOUND`: the context is FREE whatever its nodes have answered. -/
def execTeardownBound (ctx : Nat) (s : State) : Out :=
  match s.ctxs.find? fun x => x.num == ctx with
  | some x => .next (if x.state == .tearing then s.freeCtx ctx else s)
  | none => .next s

/-! ### PREEMPT and RESUME (R344, R345, R347) -/

/-- `PREEMPT`: complete when every save has completed. -/
def State.doPreempt (s : State) (x : Ctx) (c : PortCmd) : State × Done :=
  if x.preAt.isSome then
    if !(s.savingOf x.num).isEmpty then (s, .waits)
    else (s.modCtx x.num fun x => { x with preAt := none, state := if x.state == .preempting then .saved else x.state },
          if x.state == .faulted then .error else .ok 0)
  else if x.state != .running || !((cmdCore c) < 384 || (cmdCore c) == 0xFFFF) then (s, .error)
  else match s.startSave x (cmdCore c) with
    | some s' => (s', .waits)
    | none => (s, .error)

/-- `RESUME`: complete when no saved team is left. -/
def State.doResume (s : State) (x : Ctx) : State × Done :=
  if !(x.state == .saved || x.state == .running) then (s, .error)
  else
    let s := s.modCtx x.num fun x => { x with state := .running }
    let r := State.resumeTeams x.num (s.savedTeams x) s
    match r.1.ctx x.num with
    | some y => (r.1, if y.state == .faulted then .error else if r.2 then .ok 0 else .waits)
    | none => (r.1, .error)

/-! ### The context port (R343) -/

/-- Perform one context command as far as it goes now. -/
def State.doCommand (s : State) (c : PortCmd) : State × Done :=
  if !(cmdClean c) then (s, .error)
  else if (cmdOp c) == 1 then s.doCreate c
  else match s.ctxs.find? fun x => x.num == (cmdCtx c) with
    | none => (s, .error)
    | some x =>
      if !cmdFrom c x then (s, .error)
      else match (cmdOp c) with
        | 2 => if x.state == .created then (s.modCtx x.num fun x => { x with state := .running }, .ok 0) else (s, .error)
        | 3 => s.doPreempt x c
        | 4 => s.doResume x
        | 5 => s.doTeardown x
        | 6 => s.doQenable x c
        | 7 => s.doQdrain x c
        | 8 => s.doQclear x c
        | 9 => if x.state == .tearing then (s, .error)
            else (s.modCtx x.num fun x => { x with dbg := some (field (cmdArg c) 3 0) }, .ok 0)
        | 10 => if x.state == .tearing then (s, .error) else (s.revoke x.num, .ok 0)
        | 11 => s.doRegion x c
        | _ => (s, .error)

/-- Answer a command on the path it came by: a message to its host, or the answer register `SYSRD` reads (Table 26.4). -/
def State.answer (s : State) (c : PortCmd) (d : Done) (page : Bool) : State :=
  let value : BitVec 64 := match d with | .ok v => v | _ => 0
  let okay := match d with | .ok _ => true | _ => false
  match c.host with
  | some h => { s with outbox := s.outbox ++ [.answer (some h) okay value] }
  | none =>
    let code : Word := if okay then 1 else 2
    if page then { s with pageCmd := SMap.put 0 4 code s.pageCmd } else { s with ctxCmd := SMap.put 0 4 code s.ctxCmd }

/-- The context port performs its commands in arrival order, as far as it can go. -/
def State.ctxPort : Nat → State → State
  | 0, s => s
  | n + 1, s =>
    match s.cmds with
    | [] => s
    | c :: r =>
      let d := s.doCommand c
      match d.2 with
      | .waits => d.1
      | v => State.ctxPort n ({ d.1 with cmds := r, cmdsAt := s.cmdsAt.tail }.answer c v false)

/-- A context command arrives. -/
def State.command (s : State) (c : PortCmd) : Out :=
  .next (State.ctxPort (s.cmds.length + 1) { s with cmds := s.cmds ++ [c], cmdsAt := s.cmdsAt ++ [s.tick] })

/-- A DREVOKE of the context has reached its port (R349). -/
def State.revoking (s : State) (c : Nat) : Bool :=
  match s.ctxs.find? fun x => x.num == c with
  | some x => s.cmds.any fun q => cmdClean q && cmdOp q == 10 && cmdCtx q == c && cmdFrom q x
  | none => false

/-- `CREATE`. -/
def execCreate (c : PortCmd) (s : State) : Out := s.command (cmdWithOp c 4 1)
/-- `START`. -/
def execStart (c : PortCmd) (s : State) : Out := s.command (cmdWithOp c 4 2)
/-- `PREEMPT`. -/
def execPreempt (c : PortCmd) (s : State) : Out := s.command (cmdWithOp c 4 3)
/-- `RESUME`. -/
def execResume (c : PortCmd) (s : State) : Out := s.command (cmdWithOp c 4 4)
/-- `TEARDOWN`. -/
def execTeardown (c : PortCmd) (s : State) : Out := s.command (cmdWithOp c 4 5)
/-- `QENABLE`. -/
def execQenable (c : PortCmd) (s : State) : Out := s.command (cmdWithOp c 4 6)
/-- `QDRAIN`. -/
def execQdrain (c : PortCmd) (s : State) : Out := s.command (cmdWithOp c 4 7)
/-- `QCLEAR`. -/
def execQclear (c : PortCmd) (s : State) : Out := s.command (cmdWithOp c 4 8)
/-- `DGRANT`. -/
def execDgrant (c : PortCmd) (s : State) : Out := s.command (cmdWithOp c 4 9)
/-- `DREVOKE`. -/
def execDrevoke (c : PortCmd) (s : State) : Out := s.command (cmdWithOp c 4 10)
/-- `REGION`. -/
def execRegion (c : PortCmd) (s : State) : Out := s.command (cmdWithOp c 4 11)

/-! ### The page port (R334, R336, R337) -/

/-- An address range is met by `n` bytes. -/
def inRange (lo hi va n : Nat) : Bool := va < hi && lo < va + n

/-- The range of an INVALIDATE. -/
def cmdRange (c : PortCmd) : Nat × Nat :=
  let n := field c.w 63 40
  if n == 0 then (0, 2 ^ 64) else ((cmdArg c).toNat, (cmdArg c).toNat + 65536 * n)

/-- What an INVALIDATE waits for: accesses, copy granules and sequence requests that were translated in its range and are under way (R337). One
that is to be sent again will be translated then. -/
def Op.holdsPage (o : Op) : Bool :=
  match o.kind with
  | .load | .store | .atomic | .mon => !o.done
  | .engWrite => true
  | .engOwn => !o.unplaced
  | .sqclaim | .sqpub | .sqacq | .sqret | .sqinfo => !o.done && o.again.isNone
  | _ => false

/-- The operations of a context that were translated in a range and are under way. -/
def State.usersOf (s : State) (c lo hi : Nat) : List Nat :=
  (s.ops.filter fun o => o.ctx == c && (o.space == 0 || o.space == 6) && inRange lo hi o.addr.toNat (max 1 o.size) && o.holdsPage).map Op.id

/-- Of some operations, those that only wait leave their homes: requests that a sequence's home has registered or holds, and sectors of items
that a page request holds up (R338). -/
def State.yieldPages (s : State) (ids : List Nat) : State :=
  let held := ids.filter fun k => s.seqWait.contains k || s.stall.contains k
  let idle (o : Op) : Bool := o.kind == .engOwn && ids.contains o.id && s.items.any fun x => x.id == o.aop && x.page.isSome
  (s.ops.filter idle).foldl State.unplace (s.sendAway held)

/-- Those that still hold the pages of a range, once what only waits has left. -/
def State.pageUsers (s : State) (ids : List Nat) : State × List Nat :=
  let s := s.yieldPages ids
  (s, ids.filter fun k => match s.op k with | some o => o.holdsPage | none => false)

/-- `INVALIDATE`: drop the translations, then wait for those that used them. -/
def State.doInvalidate (s : State) (c : PortCmd) : State × Done :=
  let r := (cmdRange c)
  match s.pwait with
  | none =>
    if (cmdArg c).toNat % 65536 != 0 then (s, .error)
    else
      let u := s.pageUsers (s.usersOf (cmdCtx c) r.1 r.2)
      let s := { u.1 with tlb := u.1.tlb.filter fun e => !(e.ctx == (cmdCtx c) && inRange r.1 r.2 e.va e.size) }
      if u.2.isEmpty then (s, .ok 0) else ({ s with pwait := some u.2 }, .waits)
  | some ids =>
    let u := s.pageUsers ids
    if u.2.isEmpty then ({ u.1 with pwait := none }, .ok 0) else ({ u.1 with pwait := some u.2 }, .waits)

/-- A thread parked on a request. -/
def Thread.parkedOn (q : PageReq) (t : Thread) : Bool :=
  t.state == .waiting && (match t.wait with | .page d n _ => d == q.die && n == q.num | _ => false)

/-- The paths parked on a request trap with `PAGE-FAULT` at their words (R334). They stay the step's gang: a trap ends a turn (R85). -/
def State.failParked (s : State) (q : PageReq) : State :=
  let ts := s.threads.filter (Thread.parkedOn q)
  let s := (dedup (ts.map Thread.path)).foldl (fun (s : State) p =>
    { s with gang := uids (ts.filter fun t => t.path == p) }.takeTrap
      { TrapReq.of 0x28 with kind := q.kind, space := 0, addr := BitVec.ofNat 64 q.lo }) s
  { s with gang := uids ts }

/-- `RESOLVE`: parked threads issue again, or trap; paused items and launches try again. -/
def State.doResolve (s : State) (c : PortCmd) : State × Done :=
  match s.pageReqs.find? fun q => q.die == field c.w 23 22 && q.num == field c.w 31 24 && q.ctx == (cmdCtx c) with
  | none => (s, .error)
  | some q =>
    let s := { s with pageReqs := s.pageReqs.filter (· != q) }
    let s := if c.w.getLsbD 21 then s.failParked q
      else s.modThreads (uids (s.threads.filter (Thread.parkedOn q))) fun t => { t with state := .runnable, wait := .none }
    let held := some (pageKey q.die q.num)
    ({ s with items := s.items.map fun (x : CopyItem) => if x.page == held then { x with page := none } else x,
              launches := s.launches.map fun (l : Launch) => if l.page == held then { l with page := none } else l }, .ok 0)

/-- Perform one page command as far as it goes now. -/
def State.doPageCommand (s : State) (c : PortCmd) : State × Done :=
  if !(cmdPageClean c) then (s, .error)
  else match s.ctxs.find? fun x => x.num == (cmdCtx c) with
    | none => ({ s with pwait := none }, .error)
    | some x =>
      if !cmdFrom c x then (s, .error)
      else match field c.w 1 0 with
        | 1 => s.doInvalidate c
        | 2 => s.doResolve c
        | _ => (s, .error)

/-- The page port performs its commands in arrival order, as far as it can go. -/
def State.pagePort : Nat → State → State
  | 0, s => s
  | n + 1, s =>
    match s.pcmds with
    | [] => s
    | c :: r =>
      let d := s.doPageCommand c
      match d.2 with
      | .waits => d.1
      | v => State.pagePort n ({ d.1 with pcmds := r }.answer c v true)

/-- A page command arrives. -/
def State.pageCommand (s : State) (c : PortCmd) : Out :=
  .next (State.pagePort (s.pcmds.length + 1) { s with pcmds := s.pcmds ++ [c] })

/-- `INVALIDATE`. -/
def execInvalidate (c : PortCmd) (s : State) : Out := s.pageCommand (cmdWithOp c 2 1)
/-- `RESOLVE`. -/
def execResolve (c : PortCmd) (s : State) : Out := s.pageCommand (cmdWithOp c 2 2)

end Sys2Proof.Machine
end

