-- ==== Sys2Proof/Machine/System.lean ====
section
/-! DEFINITION. System registers (R255, R363-R365, R380, R382, R383) and pegs armed by a program (R391, R392). -/

namespace Sys2Proof.Machine

/-! ### Table 26.4 -/

/-- The mode that a system register needs. -/
inductive SysMode where
  | any | trap | firmware
  deriving DecidableEq, Repr

/-- The mode that a read of a number needs, none where the table lists no read of it. -/
def sysReadMode (n : Nat) : Option SysMode :=
  if n ≤ 0x17 then some .trap
  else if n == 0x20 then some .any
  else if (0x100 ≤ n && n ≤ 0x104) || (0x108 ≤ n && n ≤ 0x10C) || n == 0x110 || n == 0x111 || (0x120 ≤ n && n ≤ 0x128) ||
      (0x200 ≤ n && n ≤ 0x2FF) then some .firmware
  else none

/-- The mode that a write of a number needs, none where the table lists no write of it. -/
def sysWriteMode (n : Nat) : Option SysMode :=
  if n == 0x104 || n == 0x10C then none
  else if n == 0x129 then some .firmware
  else sysReadMode n

/-- A thread is in a mode that suffices: trap mode or firmware mode, or firmware mode alone. -/
def State.modeOk (s : State) (t : Thread) : SysMode → Bool
  | .any => true
  | .trap => t.trapMode || s.firmware t
  | .firmware => s.firmware t

/-- The checks of R382 on the executing threads: an unlisted number, then a mode too low. -/
def State.sysTrap (s : State) (mode : Nat → Option SysMode) (ts : List Thread) (a : BitVec 7) : Option TrapReq :=
  let m (t : Thread) : Option SysMode := mode (s.src t a).toNat
  if ts.any fun t => (m t).isNone then some (TrapReq.of 0x04)
  else if ts.any fun t => match m t with | some k => !s.modeOk t k | none => false then some (TrapReq.of cPrivilege)
  else none

/-! ### Fabric table entries (Tables 24.5, 24.6) -/

/-- The context that 0x120 selects. -/
def State.selCtx (s : State) : Nat := field s.fabSel 5 0
/-- The table that 0x120 selects. -/
def State.selTable (s : State) : Nat := field s.fabSel 7 6
/-- The entry that 0x120 selects. -/
def State.selEntry (s : State) : Nat := field s.fabSel 12 8

/-- The installed entry that is selected. -/
def State.selected (s : State) : BitVec 256 :=
  match s.ctx s.selCtx with
  | none => 0
  | some x => match s.selTable with
    | 0 => SMap.get 0 x.exprts s.selEntry
    | 1 => SMap.get 0 x.rwins s.selEntry
    | _ => (SMap.get 0 x.subs s.selEntry).setWidth 256

/-- A write of 0x120 is not reserved: table 0, 1 or 2, an entry the table has, every other bit 0. -/
def selectOk (w : Word) : Bool := field w 31 13 == 0 && field w 7 6 ≤ 2 && (field w 7 6 == 2 || field w 12 8 ≤ 15)

/-- The entry that the staged words make. -/
def State.staged (s : State) : BitVec 256 :=
  BitVec.ofNat 256 (leNat (bytesOf ((List.range 8).map fun i => SMap.get 0 s.fabStage i)))

/-- Two window entries share an address. -/
def winMeets (a b : BitVec 256) : Bool :=
  winV a && winV b && winBase a < winBase b + winSize b && winBase b < winBase a + winSize a

/-- A window entry that the fabric refuses: reserved bits, no size, a publisher that does not exist, or addresses of another entry. -/
def winBad (receive : Bool) (i : Nat) (others : SMap (BitVec 256)) (e : BitVec 256) : Bool :=
  field e 255 104 != 0 || field e 15 1 != 0 || (winV e && winSize e == 0) ||
  (if receive then !(winPubn e < 128 || winPubn e == 0xFF) else winPubn e != 0) ||
  others.any fun o => o.1 != i && winMeets o.2 e

/-- A subscription entry that the fabric refuses; the staged words above its eight bytes are no part of it (R383). -/
def subBad (e : BitVec 256) : Bool :=
  field e 44 0 != 0 || (e.getLsbD 62 && 15 < field e 61 55)

/-- The fields of a window entry; its reserved bits read 0 (R8). -/
def winFields (e : BitVec 256) : BitVec 256 := e &&& (((BitVec.allOnes 104).setWidth 256) &&& ~~~0xFFFE#256)

/-- The fields of a subscription entry. -/
def subFields (e : BitVec 256) : BitVec 64 := e.setWidth 64 &&& ((BitVec.allOnes 19).setWidth 64 <<< 45)

/-- Install the staged entry; an invalid one takes V = 0 and leaves one class-8 record (R351, R383). -/
def State.install (s : State) : State :=
  let c := s.selCtx
  let i := s.selEntry
  let e := s.staged
  match s.ctx c with
  | none => s
  | some x =>
    let w := winFields e
    let noV := w &&& ~~~1#256
    match s.selTable with
    | 0 =>
      let bad := winBad false i x.exprts e
      (s.modCtx c fun x => { x with exprts := SMap.put 0 i (if bad then noV else w) x.exprts }).configRecords c 2 (if bad then [i] else [])
    | 1 =>
      let bad := winBad true i x.rwins e
      (s.modCtx c fun x => { x with rwins := SMap.put 0 i (if bad then noV else w) x.rwins }).configRecords c 3 (if bad then [i] else [])
    | _ =>
      let bad := subBad e
      let v := subFields e
      (s.modCtx c fun x => { x with subs := SMap.put 0 i (if bad then v &&& ~~~(1#64 <<< 63) else v) x.subs }).configRecords c 4
        (if bad then [i] else [])

/-! ### Reading -/

/-- What a read of a system register answers one thread; the staged command words are write-only and read 0 (R8). -/
def State.sysValue (s : State) (t : Thread) (n : Nat) : Word :=
  if n ≤ 0x17 then t.trapWord n
  else if n == 0x104 then SMap.get 0 s.pageCmd 4
  else if n == 0x10C then SMap.get 0 s.ctxCmd 4
  else if n == 0x110 then BitVec.ofNat 32 s.window
  else if n == 0x111 then BitVec.ofNat 32 s.retrain
  else if n == 0x120 then s.fabSel.setWidth 32
  else if 0x121 ≤ n && n ≤ 0x128 then s.selected.extractLsb' (32 * (n - 0x121)) 32
  else if 0x200 ≤ n then BitVec.ofNat 32 (SMap.get 0 s.contrib (n - 0x200))
  else 0

/-- `SYSRD` of a system register. -/
def execSysrd (f : FZS) (s : State) : Out :=
  let ts := s.executing f.pred
  let a : BitVec 7 := f.a.setWidth 7
  match s.sysTrap sysReadMode ts a with
  | some q => s.trapOut q
  | none => .next (ts.foldl (fun s' t =>
      s'.replyWith (s.systemOp f.fb t f.dst.toNat 1) [s.sysValue t (s.src t a).toNat]) s).advance

/-- The poison mark of a uniform register, as a trap of the threads of its group. -/
def State.peekTrap (s : State) (ts : List Thread) (k : Nat) : Option TrapReq :=
  let bad := ts.filter fun t => (s.poisonOf t (64 + k)).isSome
  bad.head?.bind fun t => (s.poisonOf t (64 + k)).map fun q => TrapReq.poisoned (laneMask bad) (64 + k) q

/-- The token peek: `SYSRD` of an s register, without a wait for its count (R255). -/
def execSysrdPeek (f : FZS) (s : State) : Out :=
  let ts := s.executing f.pred
  match s.peekTrap ts f.a.toNat with
  | some q => s.trapOut q
  | none => .next (ts.foldl (fun s' t =>
      s'.replyWith (s.systemOp f.fb t f.dst.toNat 1) [s.sreg t f.a.toNat]) s).advance

/-! ### Writing -/

/-- The step in which a write of a system register takes effect. -/
def sysWriteStep (n op : Nat) : Instr :=
  if n == 0x20 then .abortWrite op
  else if n == 0x110 then .windowLengthWrite op
  else if n == 0x111 then .retrainLimitWrite op
  else if n == 0x129 then .fabricTableInstall op
  else if 0x200 ≤ n then .dieScratchpadContribWrite op
  else .systemRegisterWrite op

/-- `SYSWR`. -/
def execSyswr (f : FZS) (s : State) : Out :=
  let ts := s.executing f.pred
  let a : BitVec 7 := f.a.setWidth 7
  match (if s.userWrites ts f.a then some (TrapReq.of cPrivilege) else s.sysTrap sysWriteMode ts a) with
  | some q => s.trapOut q
  | none => .next (ts.foldl (fun s' t =>
      let n := (s.src t a).toNat
      let o := { s.systemOp f.fb t 0 0 with regs := [], size := 0, addr := BitVec.ofNat 64 n, args := [s.src t (f.dst.setWidth 7)], port := 1 }
      s'.send o (sysWriteStep n)) s).advance

/-- The number that an operation of `SYSWR` writes. -/
def Op.sysNum (o : Op) : Nat := o.addr.toNat
/-- The value that it writes. -/
def Op.sysVal (o : Op) : Word := o.args.headD 0

/-- A write has taken effect. -/
def State.sysDone (s : State) (op : Nat) (f : Op → State → Out) : Out :=
  match s.op op with
  | none => .next s
  | some o => f o (s.finish o)

/-- `ABORT_WRITE`: bit 0 makes the thread's launch FAULTED, with a class-6 record of kind 7 (R380). -/
def execAbortWrite (op : Nat) (s : State) : Out :=
  s.sysDone op fun o s =>
    if !o.sysVal.getLsbD 0 then .next s
    else match s.team o.tid, s.thread o.uid with
      | some x, some t => .next (s.faultLaunch x.lid 7 (s.recOf { t with pkt := o.pkt, word := o.word } 6 7))
      | _, _ => .next s

/-- `WINDOW_LENGTH_WRITE`: a value in range takes effect at the next window boundary (R383). -/
def execWindowLengthWrite (op : Nat) (s : State) : Out :=
  s.sysDone op fun o s =>
    let v := o.sysVal.toNat
    .next (if 500 ≤ v && v ≤ 8000 then { s with windowNew := some v } else s)

/-- `RETRAIN_LIMIT_WRITE` (R383). -/
def execRetrainLimitWrite (op : Nat) (s : State) : Out :=
  s.sysDone op fun o s =>
    let v := o.sysVal.toNat
    .next (if 1 ≤ v && v ≤ 16 then { s with retrain := v } else s)

/-- `FABRIC_TABLE_INSTALL` (R383). -/
def execFabricTableInstall (op : Nat) (s : State) : Out := s.sysDone op fun _ s => .next s.install

/-- `DIE_SCRATCHPAD_CONTRIB_WRITE`: ignored while a context whose partition holds the slice is RUNNING (R17, R383).
Every byte keeps its value at its location, whatever the new share makes of it (assumption 66). -/
def execDieScratchpadContribWrite (op : Nat) (s : State) : Out :=
  s.sysDone op fun o s =>
    let sl := o.sysNum - 0x200
    if s.ctxs.any fun x => x.state == .running && x.part.getLsbD sl then .next s
    else .next { s with contrib := SMap.put 0 sl (field o.sysVal 1 0) s.contrib }

/-- What a write of a trap word leaves in it: the RWP fields take the value, the others stand (Table 26.2). -/
def trapField (i : Nat) (old v : Word) : Word :=
  if i == 0 || i == 14 || 16 ≤ i then v
  else if i == 1 then (old &&& ~~~3#32) ||| (v &&& 3#32)
  else if i == 13 then v &&& 0x7F#32
  else old

/-- The record that a command's ARG names by its fabric address (Table 23.2), empty where nothing lies there. -/
def State.commandRecord (s : State) (w : BitVec 128) : List Byte :=
  let a : BitVec 64 := w.extractLsb' 64 64
  let n := match field w 3 0 with | 1 => 1024 | 11 => 32 | _ => 0
  if n == 0 || !fabLoadOk a || (s.portTo (fabKind a) (fabNode a) (fabOff a)).isNone then [] else s.bytes (fabLoc a) n

/-- The 128 bits of staged command words. -/
def cmdWords (m : SMap Word) : BitVec 128 := SMap.get 0 m 3 ++ SMap.get 0 m 2 ++ SMap.get 0 m 1 ++ SMap.get 0 m 0

/-- `SYSTEM_REGISTER_WRITE`: trap words, staged commands and their submission, the fabric table select and its staged words (R382,
R383). -/
def execSystemRegisterWrite (op : Nat) (s : State) : Out :=
  s.sysDone op fun o s =>
    let n := o.sysNum
    let v := o.sysVal
    if n ≤ 0x17 then
      .next (s.modThread o.uid fun t => { t with trap := SMap.put 0 n (trapField n (t.trapWord n) v) t.trap })
    else if 0x100 ≤ n && n ≤ 0x103 then
      let s := { s with pageCmd := SMap.put 0 (n - 0x100) v s.pageCmd }
      if n == 0x103 then
        { s with pageCmd := SMap.put 0 4 0 s.pageCmd }.pageCommand { host := none, w := cmdWords s.pageCmd, record := [] }
      else .next s
    else if 0x108 ≤ n && n ≤ 0x10B then
      let s := { s with ctxCmd := SMap.put 0 (n - 0x108) v s.ctxCmd }
      if n == 0x10B then
        let w := cmdWords s.ctxCmd
        { s with ctxCmd := SMap.put 0 4 0 s.ctxCmd }.command { host := none, w := w, record := s.commandRecord w }
      else .next s
    else if n == 0x120 then .next (if selectOk v then { s with fabSel := v.setWidth 13 } else s)
    else if 0x121 ≤ n && n ≤ 0x128 then .next { s with fabStage := SMap.put 0 (n - 0x121) v s.fabStage }
    else .next s

/-! ### PEGARM (R391, R392) -/

/-- What one thread's `PEGARM` does to the peg, and the result it answers. -/
def armPeg (tick T : Nat) (peg : Option Nat) : Option Nat × Word :=
  if T == 0 then (none, 0) else if T ≤ tick + 16 then (peg, 1) else (some T, 0)

/-- `PEGARM`: privileged but for a context whose debug right is held. -/
def execPegarm (f : FZ) (s : State) : Out :=
  if !s.mayPeg then s.trapCause cPrivilege
  else .next ((s.executing f.pred).foldl (fun s' t =>
      let r := armPeg s.tick (s.srcPair t f.a).toNat s'.peg
      let armed := if r.2 == 0 then some s.tick else s'.pegArmed
      { s' with peg := r.1, pegArmed := armed }.replyWith (s.systemOp f.fb t f.dst.toNat 1) [r.2]) s).advance

/-- `PEG_STOP`: every clock domain stops, and the peg has been taken (R390). -/
def execPegStop (s : State) : Out := .next { s with stopped := true, peg := none }

/-! ### Sampling and triggers (R393, R395) -/

/-- `SAMPLE_TAG`: a scheduler draws the place of its tagged word in the interval that begins (assumption 13). -/
def execSampleTag (sched : Nat) (s : State) : Out :=
  .next { s.draw with tags := SMap.ins sched (s.tick + Config.sampleDraw s.freeCtr % 2 ^ s.sampleN) (SMap.del sched s.tags) }

/-- The smallest bucket whose cumulative count reaches P / 256 of the total. -/
def State.thresholdBucket (s : State) (u p : Nat) : Nat :=
  let n (b : Nat) : Nat := SMap.get 0 s.histo (bucketKey u b)
  let upTo (b : Nat) : Nat := (List.range (b + 1)).foldl (fun k i => k + n i) 0
  ((List.range 32).find? fun b => p * upTo 31 ≤ 256 * upTo b).getD 31

/-- `HISTOGRAM_THRESHOLD`. -/
def execHistogramThreshold (unit : Nat) (s : State) : Out :=
  match SMap.get none s.trig unit with
  | none => .next s
  | some t => .next { s with trig := SMap.put none unit (some { t with bucket := some (s.thresholdBucket unit t.p) }) s.trig }

end Sys2Proof.Machine
end

