-- ==== Sys2Proof/Machine/Debug.lean ====
section
/-! DEFINITION. The debug port (R385-R391, R393-R395, Tables 27.4 to 27.6). -/

namespace Sys2Proof.Machine

/-! ### Authority and responses (R386) -/

/-- The sender holds the debug right of the command's context (R349). -/
def State.hasRight (s : State) (host : Option Nat) (c : Nat) : Bool :=
  match host, s.ctxs.find? fun x => x.num == c with
  | some h, some x => x.dbg == some h
  | _, _ => false

/-- The sender is the management microcontroller or firmware, or holds the right of every context. -/
def State.hasPackage (s : State) (host : Option Nat) : Bool :=
  match host with
  | none => true
  | some h => s.ctxs.all fun x => x.dbg == some h

/-- Answer a command: 32 bytes of data, a status, the tick. -/
def State.respond (s : State) (status : Nat) (data : List Byte) : State :=
  { s with dbgOut := s.dbgOut ++ [{ data := padTo 32 data, status := status, tick := s.tick }] }

/-- A command under its authority, with no reserved value: else status 1 or 3, and nothing changes. -/
def State.guarded (s : State) (may bad : Bool) (k : State → State) : Out :=
  .next (if !may then s.respond 1 [] else if bad then s.respond 3 [] else k s)

/-- A command that needs the right of its context. -/
def State.withRight (s : State) (c : DbgCmd) (bad : Bool) (k : State → State) : Out :=
  s.guarded (s.hasRight c.host c.ctx) (bad || c.rsvd) k

/-- A command that needs the package. -/
def State.withPackage (s : State) (c : DbgCmd) (bad : Bool) (k : State → State) : Out :=
  s.guarded (s.hasPackage c.host) (bad || c.rsvd) k

/-! ### Groups -/

/-- The command names every group of its context. -/
def dbgAll (c : DbgCmd) : Bool := c.team == 0xFFFFFFFF#32

/-- A group that a command selects. -/
def State.selects (s : State) (c : DbgCmd) (g : Group) : Bool :=
  s.ctxOf g.tid == c.ctx && (dbgAll c || (s.teamIndex g.tid == c.team.toNat && g.slot == c.slot))

/-- The slot number of a command that names one group is none. -/
def dbgBadSlot (c : DbgCmd) : Bool := !dbgAll c && 31 < c.slot

/-- The group can be halted; a FORMING one is, once it has formed (Table 11.2). -/
def Group.halts (g : Group) : Bool := g.place == .active || g.place == .pending || g.place == .forming

/-- `HALT`: before their next issue. -/
def execHalt (c : DbgCmd) (s : State) : Out :=
  s.withRight c (dbgBadSlot c) fun s =>
    if s.groups.any fun g => s.selects c g && g.halts then
      { s with groups := s.groups.map fun g => if s.selects c g && g.halts then g.halt else g }.respond 0 []
    else s.respond 2 []

/-- `RESUME`: each selected HALTED group is SWAPPED-OUT. -/
def execDebugResume (c : DbgCmd) (s : State) : Out :=
  s.withRight c (dbgBadSlot c) fun s =>
    if s.groups.any fun g => s.selects c g && g.place == .halted then (s.resumeHalted (s.selects c)).respond 0 []
    else s.respond 2 []

/-! ### Images -/

/-- Whether byte j of a group's image comes from an edit, and the byte: `a` is the offset the edit was staged for. -/
def Edit.byteAt (e : Edit) (j : Nat) : Option Byte :=
  let a := e.addr.toNat
  if a ≤ j && j < a + 32 && e.mask.getLsbD (j - a) then some (e.data.getD (j - a) 0) else none

/-- Bytes that lie from an offset on, as an edit leaves them. -/
def Edit.over (e : Edit) (off : Nat) (bs : List Byte) : List Byte :=
  ((List.range bs.length).zip bs).map fun p => (e.byteAt (off + p.1)).getD p.2

/-- The 32 bytes at an offset of a live image; what no piece holds reads as zero. -/
def State.liveBytes (s : State) (g : Group) (off : Nat) : List Byte :=
  let ps := s.groupPieces g []
  (List.range 32).map fun i =>
    match ps.find? fun p => p.1 ≤ off + i && off + i < p.1 + p.2.1.length with
    | some p => p.2.1.getD (off + i - p.1) 0
    | none => 0

/-- The directory entry of a saved group. -/
def Ctx.imageOf (x : Ctx) (g : Group) : Option SaveEnt := x.saves.find? fun e => e.tid == g.tid && e.slot == some g.slot

/-- The sectors that hold the 32 bytes at an offset of a saved image: where they begin, and how many bytes they are. -/
def imageSectors (x : Ctx) (e : SaveEnt) (off : Nat) : Nat × Nat :=
  let a := x.saveb.toNat + e.off + off
  (a / 64 * 64, if a % 64 ≤ 32 then 64 else 128)

/-- The group that a command names and the image it has: live, saved, or neither. -/
def State.imaged (s : State) (c : DbgCmd) : Option (Group × Option SaveEnt) :=
  match s.groups.find? (s.selects c) with
  | none => none
  | some g =>
    if g.place == .halted then some (g, none)
    else if g.place == .saved then ((s.ctx c.ctx).bind fun x => x.imageOf g).map fun e => (g, some e)
    else none

/-- The page kind for which a range of a context cannot be used, as status 5 gives it (Table 27.6). -/
def State.vaKind (s : State) (c va n : Nat) (write : Bool) : List Byte :=
  ((List.range (n / 64)).findSome? fun i => match (s.translate c none 0 (va + 64 * i) write).2 with
    | .fault kind .. => some (BitVec.ofNat 8 kind)
    | .ok .. => none).toList

/-- `STATERD`: read live for a HALTED group, from the save area for a SAVED one. -/
def execStaterd (c : DbgCmd) (s : State) : Out :=
  s.withRight c (dbgAll c || dbgBadSlot c) fun s =>
    let off := c.addr.toNat
    match s.imaged c, s.ctx c.ctx with
    | some (g, none), _ => s.respond 0 (s.liveBytes g off)
    | some (_, some e), some x =>
      if e.len ≤ off then s.respond 0 []
      else
        let r := imageSectors x e off
        let q := s.vaGet c.ctx r.1 r.2
        match q.2 with
        | some (b, _) => q.1.respond 0 (((b.drop ((x.saveb.toNat + e.off + off) - r.1)).take 32).take (e.len - off))
        | none => q.1.respond 5 (q.1.vaKind c.ctx r.1 r.2 false)
    | _, _ => s.respond 2 []

/-! ### Staging -/

/-- The staged edits of a context. -/
def State.stagedOf (s : State) (c : Nat) : List Edit := s.edits.filter fun e => e.ctx == c

/-- Stage an edit; a 65th of its context answers status 2. -/
def State.stage (s : State) (e : Edit) : State :=
  if 64 ≤ (s.stagedOf e.ctx).length then s.respond 2 [] else { s with edits := s.edits ++ [e] }.respond 0 []

/-- A byte of the image that cannot be edited (Table 27.5). -/
def fixedByte (j : Nat) : Bool := j < 20 || (28 ≤ j && j < 64)

/-- `EDIT`. -/
def execEdit (c : DbgCmd) (s : State) : Out :=
  let fixed := (List.range 32).any fun i => c.mask.getLsbD i && fixedByte (c.addr.toNat + i)
  s.withRight c (dbgAll c || dbgBadSlot c || fixed) fun s =>
    match s.imaged c with
    | some (g, _) => s.stage { ctx := c.ctx, gid := some g.gid, addr := c.addr, data := c.data, mask := c.mask }
    | none => s.respond 2 []

/-- `MEMRD`: the granule as `.UC` loads read it, with its hem checked; one that no node serves reads as all ones (R141). -/
def execMemrd (c : DbgCmd) (s : State) : Out :=
  s.withRight c (c.addr.toNat % 32 != 0) fun s =>
    let r := s.translate c.ctx none 0 c.addr.toNat false
    match r.2 with
    | .fault kind _ _ _ => r.1.respond 5 [BitVec.ofNat 8 kind]
    | .ok loc _ _ =>
      let s := r.1.noteRemote c.ctx loc
      if !s.reachable loc then s.respond 0 (List.replicate 32 0xFF) else
      let b := s.ucRead c.ctx loc 32
      let syn := b.1.synAt loc
      if syn == 0 then b.1.respond 0 b.2.1 else (b.1.hemFault (b.1.globalTag c.ctx loc 0 7) loc syn).respond 4 (natLe 2 syn.toNat)

/-- `MEMWR`. -/
def execMemwr (c : DbgCmd) (s : State) : Out :=
  s.withRight c (c.addr.toNat % 32 != 0) fun s =>
    s.stage { ctx := c.ctx, gid := none, addr := c.addr, data := c.data, mask := c.mask }

/-- `DISCARD`. -/
def execDiscard (c : DbgCmd) (s : State) : Out :=
  s.withRight c false fun s => { s with edits := s.edits.filter fun e => e.ctx != c.ctx }.respond 0 []

/-! ### COMMIT -/

/-- The mark of a register after an edit: the one it has, or a new one, as of a register stored with its mark (R205). -/
def keptPoison (old : List Poison) (reg addr : Nat) (syn : BitVec 16) : Poison :=
  (old.find? fun q => q.reg == reg).getD
    { reg := reg, space := 0, addr := BitVec.ofNat 64 addr, syn := if syn == 0 then 1 else syn, tag := noTag }

/-- Apply an edit to the live state of a HALTED group: header, records, and what of its withdrawn work is still to be posted again. -/
def State.editLive (s : State) (g : Group) (e : Edit) : State :=
  let W := s.win g.tid
  let z := recordLen W
  let head := e.over 0 (s.groupHead g)
  let y := markSyns 1024 (g.pois.map fun q => (64 + 4 * q.reg) / 32)
  let u := uniformsBack (keptPoison g.pois) g 0 head y
  let members := s.live g
  let items := (s.itemsOf g.gid).flatMap s.itemBytes
  let reqs := (s.reqsOf g.gid).flatMap s.reqBytes
  let s := s.modGroup g.gid fun g =>
    { g with sregs := u.1, pois := u.2, fmode := BitVec.ofNat 4 (numAt head 20 4), fabst := fabstOf (numAt head 24 4), edited := true }
  let s := members.foldl (fun s t =>
    let b := s.threadBytes t false
    let b' := e.over (1024 + t.lane * z) b
    if b == b' then s else s.modThread t.uid (Thread.restore W 0 (keptPoison t.pois) (s.deepSeam t) b' (markSyns z t.badGranules))) s
  (s.itemsBack g (e.over (1024 + 32 * z) items)).reqsBack g (e.over (1024 + 32 * z + items.length) reqs)

/-- Apply an edit to the image of a SAVED group, and mark its directory entry. -/
def State.editSaved (s : State) (x : Ctx) (g : Group) (i : SaveEnt) (e : Edit) : State × Nat × List Byte :=
  let r := imageSectors x i e.addr.toNat
  let q := s.vaGet x.num r.1 r.2
  match q.2 with
  | none => (q.1, 5, q.1.vaKind x.num r.1 r.2 false)
  | some (b, y) =>
    let base := x.saveb.toNat + i.off
    let b' := ((List.range b.length).zip b).map fun p =>
      let at_ := r.1 + p.1
      if base ≤ at_ && at_ < base + i.len then (e.byteAt (at_ - base)).getD p.2 else p.2
    let w := q.1.vaPut x.num 0 r.1 b' y
    let d := w.1.putDir x i.idx (dirBytes (s.teamIndex g.tid) g.slot 1 true i.off)
    (d.1.modGroup g.gid fun g => { g with edited := true }, if w.2 && d.2 then 0 else 5,
     if w.2 && d.2 then [] else s.vaKind x.num r.1 r.2 true ++ s.vaKind x.num (x.saveb.toNat + 16 * i.idx / 64 * 64) 64 true)

/-- Perform a staged memory write as a `.UC` store: a partial granule is merged where its old hem is good (R136, R137); a write that no node
serves is lost. -/
def State.editMemory (s : State) (index : Nat) (e : Edit) : State × Nat × List Byte :=
  let r := s.translate e.ctx none 0 e.addr.toNat true
  match r.2 with
  | .fault kind _ _ _ => (r.1, 5, [BitVec.ofNat 8 kind])
  | .ok loc _ _ =>
    let s := r.1.noteRemote e.ctx loc
    if !s.reachable loc then (s, 0, []) else
    let b := s.ucRead e.ctx loc 32
    let syn := b.1.synAt loc
    if e.mask == 0 then (b.1, 0, [])
    else if e.mask != BitVec.allOnes 32 && syn != 0 then
      (b.1.hemFault (b.1.globalTag e.ctx loc 0 6) loc syn, 4, natLe 2 syn.toNat ++ natLe 1 index)
    else
      let bs := ((List.range 32).zip b.2.1).map fun p => if e.mask.getLsbD p.1 then e.data.getD p.1 0 else p.2
      ((b.1.ucWrite e.ctx loc bs 0).1, 0, [])

/-- Apply one staged edit: its status, and the data of that status. -/
def State.applyEdit (s : State) (index : Nat) (e : Edit) : State × Nat × List Byte :=
  match e.gid with
  | none => s.editMemory index e
  | some gid => match s.group gid, s.ctx e.ctx with
    | some g, some x =>
      if g.place == .halted then (s.editLive g e, 0, [])
      else if g.place == .saved then (match x.imageOf g with | some i => s.editSaved x g i e | none => (s, 2, []))
      else (s, 2, [])
    | _, _ => (s, 2, [])

/-- Apply edits in staging order; the first one that could not be applied gives the answer. -/
def State.applyEdits : Nat → List Edit → State × Nat × List Byte → State × Nat × List Byte
  | _, [], r => r
  | i, e :: es, r =>
    let q := r.1.applyEdit i e
    State.applyEdits (i + 1) es (q.1, if r.2.1 == 0 then q.2 else r.2)

/-- `COMMIT`: not once a DREVOKE has reached the context port (R349). -/
def execCommit (c : DbgCmd) (s : State) : Out :=
  s.guarded (s.hasRight c.host c.ctx && !s.revoking c.ctx) c.rsvd fun s =>
    let r := State.applyEdits 0 (s.stagedOf c.ctx) (s, 0, [])
    { r.1 with edits := r.1.edits.filter fun e => e.ctx != c.ctx }.respond r.2.1 r.2.2

/-! ### Breakpoints and watches (R387, R388) -/

/-- `BREAK`. -/
def execBreakSet (c : DbgCmd) (s : State) : Out :=
  s.withRight c (15 < c.idx || field c.addr 33 32 == 3) fun s =>
    let v := (c.data.getD 0 0).getLsbD 0
    let e : BitVec 34 × Bool := if v then (c.addr.extractLsb' 0 34, true) else (0, false)
    (s.modCtx c.ctx fun x => { x with breaks := SMap.put (0, false) c.idx e x.breaks }).respond 0 []

/-- A watch entry as `WATCH` sets it, with its context forced and an entry of no length not valid (Table 27.1). -/
def watchOf (c : DbgCmd) : BitVec 128 :=
  let w : BitVec 128 := ofBytes 128 (c.data.take 16)
  let w := (w &&& ~~~(0xFC000000 : BitVec 128)) ||| BitVec.ofNat 128 (c.ctx % 64 * 2 ^ 26)
  if field w 63 32 == 0 then w &&& ~~~(1 : BitVec 128) else w

/-- A watch with a reserved value. -/
def watchBad (w : BitVec 128) : Bool :=
  field w 21 1 != 0 || field w 25 24 == 0 || field w 23 22 == 3

/-- `WATCH`. -/
def execWatch (c : DbgCmd) (s : State) : Out :=
  s.withRight c (7 < c.idx || watchBad (watchOf c)) fun s =>
    (s.modCtx c.ctx fun x => { x with watches := SMap.put 0 c.idx (watchOf c) x.watches }).respond 0 []

/-! ### Trace, sampling, histograms, triggers (R385, R393-R395) -/

/-- `TRACE`: the oldest unread record of a die whose context's right the sender holds. -/
def execTrace (c : DbgCmd) (s : State) : Out :=
  s.guarded true (3 < c.idx || c.rsvd) fun s =>
    match s.trace.find? fun r => r.die == c.idx && s.hasRight c.host r.ctx with
    | some r => { s with trace := s.trace.erase r }.respond 0 (natLe 32 r.data.toNat)
    | none => s.respond 6 []

/-- `SAMPLE`: the interval, and sampling on every die or on none. -/
def execSample (c : DbgCmd) (s : State) : Out :=
  let n := (c.data.getD 0 0).toNat % 32
  s.withPackage c (n < 10 || 20 < n) fun s =>
    let on := (c.data.getD 1 0).getLsbD 0
    { s with sampleN := n, sampleDies := if on then [0, 1, 2, 3] else [], tags := [] }.respond 0 []

/-- The units of a kind. -/
def unitCount : Nat → Nat
  | 0 | 1 | 2 => 96
  | 3 => 16
  | 4 => 32
  | _ => 0

/-- The unit that a command selects. -/
def dbgUnit (c : DbgCmd) : Nat := unitKey (field c.addr 15 8) (field c.addr 31 16)

/-- The selected unit does not exist. -/
def dbgNoUnit (c : DbgCmd) : Bool := unitCount (field c.addr 15 8) ≤ field c.addr 31 16

/-- `HISTO`: eight buckets of one histogram. -/
def execHisto (c : DbgCmd) (s : State) : Out :=
  s.withPackage c (dbgNoUnit c) fun s =>
    let k := field c.addr 1 0
    s.respond 0 ((List.range 8).flatMap fun i => natLe 4 (SMap.get 0 s.histo (bucketKey (dbgUnit c) (8 * k + i))))

/-- `TRIGGER`: the percentile and the action; what the unit's last trigger froze or filtered goes on. -/
def execTrigger (c : DbgCmd) (s : State) : Out :=
  let p := (c.data.getD 0 0).toNat
  let action := (c.data.getD 1 0).toNat % 8
  let u := dbgUnit c
  s.withPackage c (dbgNoUnit c || 5 < action || (action != 0 && p == 0)) fun s =>
    let held := s.frozen.contains u
    { s with trig := SMap.put none u (if action == 0 then none else some { p := p, action := action, bucket := none }) s.trig,
             frozen := if held then s.frozen.filter fun k => k != u && k != frozenDie (unitDie u) else s.frozen,
             filter := if s.filter == some u then none else s.filter }.respond 0 []

/-! ### Pegs and the scan path (R390, R391) -/

/-- `PEG`: where a `PEGARM` has armed a peg in the same cycle, that one has come after it (R391). -/
def execPeg (c : DbgCmd) (s : State) : Out :=
  s.withPackage c false fun s =>
    (if s.pegArmed == some s.tick then s else { s with peg := if c.addr == 0 then none else some c.addr.toNat }).respond 0 []

/-- `SCAN`: only while a peg has stopped the package. -/
def execScan (c : DbgCmd) (s : State) : Out :=
  s.withPackage c false fun s =>
    if s.stopped then s.draw.respond 0 (natLe 32 (Config.scanBytes c.addr.toNat s.freeCtr).toNat) else s.respond 2 []

/-- `GO`: the package resumes at the tick where it stopped, fabric time having run on. -/
def execGo (c : DbgCmd) (s : State) : Out :=
  s.withPackage c false fun s => if s.stopped then { s.unpeg with stopped := false }.respond 0 [] else s.respond 2 []

end Sys2Proof.Machine
end

