-- ==== Sys2Proof/Machine/Groups.lean ====
section
/-! DEFINITION. Groups and their scheduling: `GJOIN`, `GINFO`, `FABCLR` (R215-R217, R229, R230), fairness, demotion and takeover
(R88, R224), the watchdog (R226), urgency (R222) and swaps (R220). -/

namespace Sys2Proof.Machine

/-! ### GJOIN (R215, R216) -/

/-- The target slot of a thread. -/
def State.joinTo (s : State) (a : BitVec 7) (t : Thread) : Nat := (s.src t a).toNat

/-- The threads that move. -/
def State.movers (s : State) (a : BitVec 7) : List Thread := s.gangThreads.filter fun t => s.joinTo a t != t.slot

/-- The group of a team in a slot number. -/
def State.slotGroup (s : State) (tid n : Nat) : Option Group := s.groups.find? fun g => g.tid == tid && g.slot == n

/-- The scheduler that holds a slot number of a team (R213). -/
def State.slotSched (s : State) (tid n : Nat) : Nat := (n + (match s.team tid with | some x => x.base | none => 0)) % 4

/-- Spare core group slots of a scheduler of a core: of its 32, those no group occupies (R213). -/
def State.spare (s : State) (core sched : Nat) : Nat :=
  32 - (s.groups.filter fun g => g.place != .saved && g.sched == sched && s.coreOf g.tid == core).length

/-- The checks of `GJOIN` in their order. Their traps name no lane (Table 26.2). -/
def State.joinTrap (s : State) (a : BitVec 7) (tid : Nat) : Option TrapReq :=
  let J := s.movers a
  let dest := s.joinTo a
  let names := dedup (J.map dest)
  let moves (t : Thread) : Bool := (uids J).contains t.uid
  let keep (n : Nat) : List Thread := (s.teamThreads tid).filter fun t => t.slot == n && t.state != .exited && !moves t
  let clash := J.filter fun t => (keep (dest t)).any fun u => u.lane == t.lane
  let need (k : Nat) : List Nat := names.filter fun n => (s.slotGroup tid n).isNone && s.slotSched tid n == k
  let left (k : Nat) : Nat := (s.groups.filter fun g =>
    g.tid == tid && g.sched == k && (keep g.slot).isEmpty && !names.contains g.slot).length
  let full := (List.range 4).filter fun k => s.spare (s.coreOf tid) k + left k < (need k).length
  if !clash.isEmpty then some (TrapReq.of 0x09) else if full.isEmpty then none else some (TrapReq.of 0x0A)

/-- Create the group of an EMPTY slot with the uniform registers and `FMODE` that the first thread's group had before this issue. -/
def State.createGroup (s : State) (t : Thread) (n : Nat) : State :=
  let base := s.wasOf t
  let pois := match s.groupOf t with | some g => g.pois | none => []
  let g := { Group.fresh s.nextId t.tid n (s.slotSched t.tid n) base.sregs base.fmode with pois := pois, progress := true }
  { s with groups := s.groups ++ [g], nextId := s.nextId + 1 }

/-- Move the threads, and put a group that a thread of level 9 or more joins into single-stitch mode (Table 11.2). -/
def State.moveThreads (s : State) (a : BitVec 7) (tid : Nat) : State :=
  let J := s.movers a
  let dest := s.joinTo a
  let s' := (dedup (J.map dest)).foldl (fun s' n =>
    if (s.slotGroup tid n).isSome then s'
    else match J.find? fun t => dest t == n with | some t => s'.createGroup t n | none => s') s
  let s' := J.foldl (fun s' t => s'.modThread t.uid fun u => { u with slot := dest t }) s'
  let deep := (J.filter fun t => 9 ≤ t.seams.length).map dest
  { s' with groups := s'.groups.map fun g => if g.tid == tid && deep.contains g.slot then { g with turn := some (g.turn.getD 0) } else g }

/-- `GJOIN`. -/
def execGjoin (f : FG1) (s : State) : Out :=
  match s.gangThreads with
  | [] => .next s
  | t :: _ =>
    if s.gangThreads.any fun t => 31 < s.joinTo f.a t then s.trapCause 0x0A
    else if (s.movers f.a).any fun t => match s.slotGroup t.tid (s.joinTo f.a t) with
        | some g => g.place == .halted || g.place == .saved
        | none => false
    then .next (s.stallGang .group)
    else match s.joinTrap f.a t.tid with
      | some q => s.trapOut q
      | none => .next (s.moveThreads f.a t.tid).advance

/-! ### FABCLR and GINFO -/

/-- OR of the masks of a group's executing threads. -/
def State.clearMask (s : State) (a : BitVec 7) (g : Group) : Word :=
  (s.gangThreads.filter fun t => s.gidOf t == g.gid).foldl (fun m t => m ||| s.src t a) 0

/-- `FABST` after a clear: what has arisen in the same cycle, `now`, is applied after it (R228, R229). -/
def fabCleared (old now m : Word) : Word :=
  let low := old &&& ~~~(m &&& 31) ||| (now &&& 31)
  if field m 15 8 != 0 then low &&& 0xFFFF00FF ||| (now &&& 0xFF00) else low

/-- `FABCLR`. -/
def execFabclr (f : FG2) (s : State) : Out :=
  let gids := s.gids s.gangThreads
  let s' := s.writeAll f.dst fun t => match s.groupOf t with | some g => g.fabst | none => 0
  .next { s' with groups := s'.groups.map fun g =>
    if gids.contains g.gid then { g with fabst := fabCleared g.fabst g.fabNow (s.clearMask f.a g) } else g }

/-- The items of `GINFO` (Table 11.7). -/
def State.ginfo (s : State) (t : Thread) (item : Nat) : Word :=
  match s.team t.tid with
  | none => 0
  | some x =>
    match item with
    | 0 => BitVec.ofNat 32 (x.core % 4 * 2 ^ 22 + x.scrBase)
    | 1 => BitVec.ofNat 32 x.scrSize
    | 2 => laneMask ((s.teamThreads t.tid).filter fun u => u.slot == t.slot && u.state != .exited)
    | 3 => (s.groups.filter fun g => g.tid == t.tid).foldl (fun m g => m ||| 1#32 <<< g.slot) 0
    | 4 => bit (recPp (s.recordOf t.tid)) ++ BitVec.ofNat 31 (recFt (s.recordOf t.tid))
    | 5 => BitVec.ofNat 32 x.dieSpace
    | _ => 0

/-- `GINFO` (R230). -/
def execGinfo (f : FG2) (s : State) : Out := .next (s.writeAll f.dst fun t => s.ginfo t (s.src t f.a).toNat)

/-! ### Fairness (R88, R224, R245) -/

/-- Update one path. -/
def State.modPath (s : State) (pid : Nat) (f : Path → Path) : State :=
  { s with paths := s.paths.map fun p => if p.id == pid then f p else p }

/-- `FAIRNESS_OVERDUE`. -/
def execFairnessOverdue (path : Nat) (s : State) : Out :=
  .next (s.modPath path fun p => if p.overdue.isNone then { p with overdue := some s.tick } else p)

/-- `GANG_DEMOTION`: as `YIELD`, without the LT advance. -/
def execGangDemotion (path : Nat) (s : State) : Out := .next (s.barPath path)

/-- `PARKED_PATH_TAKEOVER`: the sibling that has held an entry longest parks in its place (R88). -/
def execParkedPathTakeover (path : Nat) (s : State) : Out :=
  match s.paths.find? fun p => p.id == path && p.parked.isSome with
  | none => .next s
  | some p =>
    match minBy Path.granted (s.paths.filter fun q => q.parked.isNone && s.siblings p q && s.pathKey q == s.pathKey p) with
    | none => .next s
    | some q =>
      let s := s.modPath q.id fun q => { q with parked := some s.tick }
      .next (s.modPath path fun p => { p with parked := none, granted := s.tick })

/-! ### The watchdog (R226, R244) -/

/-- `NO_PROGRESS`: as a step, every gang of the group is to trap at its next issue; as what a gang issues, that trap, before its
chain takes effect. A thread that a seam holds then traps once it is released (assumption 74). -/
def execNoProgress (gid : Nat) (s : State) : Out :=
  if s.gang.isEmpty then
    match s.group gid with
    | none => .next s
    | some g => .next (s.modThreads (uids (s.live g)) fun t => { t with wdDue := true })
  else
    let gang := s.gang
    .next ((s.takeTrap (TrapReq.of 0x30)).modThreads gang fun t => { t with wdDue := false })

/-! ### Urgency (R222) -/

/-- Words a group has retired in the last 1,024 cycles. -/
def State.retiredWords (s : State) (g : Group) : Nat := (g.retired.filter fun t => s.tick < t + 1024).length

/-- `URGENCY_EVALUATION`: the laggard of a team is chosen again. -/
def execUrgencyEvaluation (team : Nat) (s : State) : Out :=
  let gs := s.groups.filter fun g => g.tid == team
  let open_ := (s.teamThreads team).any fun t => t.state == .waiting && t.wait == .tbar
  let cand := if open_ then gs.filter fun g => (s.live g).any fun t => !s.arrived .tbar t else gs
  let lag := (minBy (fun g : Group => s.retiredWords g * 32 + g.slot) cand).map Group.slot
  .next (s.modTeam team fun x => { x with laggard := lag })

/-! ### Swaps (R220) -/

/-- A group leaves the active set: the entries its paths held are free (R220). -/
def State.freeEntries (s : State) (g : Group) : State :=
  let mine := (s.members g).filter Thread.stands
  (dedup (mine.map Thread.path)).foldl (fun s pid =>
    match s.paths.find? fun p => p.id == pid with
    | none => s
    | some p =>
      let ours := uids (mine.filter fun t => t.path == pid)
      if (s.threads.filter fun t => t.path == pid && t.stands).all fun t => ours.contains t.uid then
        s.modPath pid fun p => { p with parked := some s.tick }
      else
        let q := { p with id := s.nextId, parked := some s.tick, fair := 0, overdue := none }
        { s.modThreads ours fun t => { t with path := q.id } with paths := s.paths ++ [q], nextId := s.nextId + 1 }) s

/-- The outgoing group enters the pending set, and the incoming one will be active four cycles on. -/
def State.swap (s : State) (gout gin : Nat) : State :=
  match s.group gout, s.group gin with
  | some o, some i =>
    if o.place == .active && i.place == .pending && i.swapAt.isNone then
      let s := s.modGroup gout fun g => { g with place := .pending, entered := s.tick, swapAt := none }
      let s := s.freeEntries o
      s.modGroup gin fun g => { g with swapAt := some (s.tick + 4) }
    else s
  | _, _ => s

/-- `SWAP_OUT`. -/
def execSwapOut (gout gin : Nat) (s : State) : Out := .next (s.swap gout gin)

/-- `FORCED_SWAP`. -/
def execForcedSwap (gout gin : Nat) (s : State) : Out := .next (s.swap gout gin)

/-- `FREE_POSITION_SWAP_IN`. -/
def execFreePositionSwapIn (gid : Nat) (s : State) : Out :=
  .next (s.modGroup gid fun g => if g.place == .pending && g.swapAt.isNone then { g with swapAt := some (s.tick + 4) } else g)

/-- `SWAP_COMPLETE`: the incoming group is active and may issue. -/
def execSwapComplete (gid : Nat) (s : State) : Out :=
  .next (s.modGroup gid fun g =>
    if g.place == .pending && g.swapAt.isSome then { g with place := .active, entered := s.tick, swapAt := none } else g)

end Sys2Proof.Machine
end

