-- ==== Sys2Proof/Machine/Health.lean ====
section
/-! DEFINITION. Start-up, attestation, the journal, lasting hops, power and the failures that come from outside (R23, R207, R209,
R396-R400). -/

namespace Sys2Proof.Machine

/-! ### Lasting hops (R209, R400) -/

/-- The hops that a path tag names; an HBM row is counted by its channel and 1 KiB of that channel's lines (R342, assumption 50). -/
def hopsOf (tag : BitVec 64) (loc : Nat) : List Nat :=
  (if tag.getLsbD 38 then [hopKey 1 (paChannel loc * 2 ^ 40 + loc / 2048)] else []) ++
  (if field tag 63 56 == 0xFF then [] else [hopKey 2 (field tag 63 56)]) ++
  ((List.range 4).filter fun i => tag.getLsbD (52 + i)).map (hopKey 3) ++
  (if tag.getLsbD 51 then [hopKey 4 (field tag 50 46)] else []) ++
  (if field tag 31 23 == 0x1FF then [] else [hopKey 5 (field tag 31 23 * 2 ^ 22 + loc % 2 ^ 22 / 32)])

/-- Ticks of 24 hours. -/
def dayTicks : Nat := 86400 * 1000000 * Config.ticksPerUs

/-- Retire a hop, and journal it; a port's link retrains without the lane. -/
def State.retire (s : State) (h : Nat) : State :=
  let s := { s with retiredH := s.retiredH ++ [h], journal := s.journal ++ [{ step := 10, form := 1, outcome := 1, tick := s.tick, unit := h }] }
  if h / 2 ^ 64 == 4 && s.carries (h % 2 ^ 64) then s.leaveUp (h % 2 ^ 64) .retraining else s

/-- The hops that the journal says have been retired (R400). -/
def State.journalled (s : State) : List Nat := dedup ((s.journal.filter fun r => r.step == 10 && r.form == 1 && 2 ^ 64 ≤ r.unit).map JRec.unit)

/-- Count one fault against one hop. -/
def State.countHop (s : State) (h : Nat) : State :=
  if s.retiredH.contains h then s
  else
    let s := { s with hopCount := (h, s.tick) :: s.hopCount.filter fun e => s.tick < e.2 + dayTicks }
    if 3 ≤ (s.hopCount.filter fun e => e.1 == h).length then s.retire h else s

/-- `HEM_FAULT_REPORT`: syndrome 0x0001 marks data that was known bad, and counts against no hop. -/
def execHemFaultReport (tag : BitVec 64) (loc : Nat) (syn : BitVec 16) (s : State) : Out :=
  .next (if syn == 1 then s else (hopsOf tag loc).foldl State.countHop s)

/-! ### Starts (R398, R399) -/

/-- The units of a start step. -/
def startUnits : Nat → Nat
  | 5 => 4
  | 6 | 7 => 16
  | 8 => 256
  | 9 => 384
  | 11 => 32
  | _ => 1

/-- The step has a second form (Table 28.1). -/
def hasSecondForm (step : Nat) : Bool := !(step == 1 || step == 10 || step == 12 || step == 13 || step == 14)

/-- The key of a step's or unit's failure count. -/
def fuseKey (step unit : Nat) : Nat := step * 65536 + unit

/-- The failure count of a step or unit. -/
def State.failures (s : State) (step unit : Nat) : Nat := SMap.get 0 s.fuses (fuseKey step unit)

/-- A failure is counted, up to 3. -/
def State.addFailure (s : State) (step unit : Nat) : State :=
  { s with fuses := SMap.put 0 (fuseKey step unit) (min 3 (s.failures step unit + 1)) s.fuses }

/-- Write the journal record of an attempt. -/
def State.journalIt (s : State) (step form outcome unit : Nat) : State :=
  { s with journal := s.journal ++ [{ step := step, form := form, outcome := outcome, tick := s.tick, unit := unit }] }

/-- One attempt at a step of a unit: true done, false failed, none where the power is lost and the record stays at begun. -/
def State.attempt (bad : List (Nat × Nat × Nat)) (s : State) (step unit form : Nat) : State × Option Bool :=
  if bad.contains (step, unit, 0) || bad.contains (step, unit, 2 + form) then ({ s.journalIt step form 0 unit with power := false }, none)
  else if bad.contains (step, unit, form) then ((s.journalIt step form 2 unit).addFailure step unit, some false)
  else (s.journalIt step form 1 unit, some true)

/-- The mask of the ways or lanes of a unit that a start finds bad. -/
def badPart (bad : List (Nat × Nat × Nat)) (step unit : Nat) : Option Nat :=
  (bad.find? fun e => e.1 == step && e.2.1 == unit && 256 ≤ e.2.2).map fun e => e.2.2 - 256

/-- Fabric link training with every lane good but those found bad. -/
def State.trainPort (s : State) (p bad : Nat) : State :=
  match execLinkTrainingDone p (0xFF - bad % 256) (s.modLink p fun _ => { Link.down with state := .training, since := s.tick }) with
  | .next t => t
  | _ => s

/-- The unit is fenced out already, with its die or its stack: its number is absent (R25). -/
def State.absent (s : State) (step unit : Nat) : Bool :=
  match step with
  | 6 => s.fencedDie (unit / 4)
  | 7 => s.fencedStack unit
  | 8 => s.fencedStack (unit / 16)
  | 9 => s.fencedDie (coreDie unit)
  | 11 => s.fencedDie (portDie unit)
  | _ => false

/-- The units that a ready notice reports by number: those fenced out, links left DOWN, and stacks whose cache part is disabled (R25). -/
def State.reported (s : State) : List (Nat × Nat) :=
  s.fenced ++ ((List.range 32).filter fun p => !s.carries p && !s.fencedDie (portDie p)).map (fun p => (11, p)) ++ s.reduced.filter fun e => e.1 == 7

/-- What a step that is done has done. -/
def State.stepDone (bad : List (Nat × Nat × Nat)) (s : State) (step unit form : Nat) : State :=
  let s := if form == 2 && 5 ≤ step && step ≤ 9 then { s with reduced := s.reduced ++ [(step, unit)] } else s
  match step with
  | 2 => { s with meas := Config.sha384 (0#384 ++ Config.stageDigest form) }
  | 3 => if form == 2 then { s with journal := s.journal.drop (s.journal.length - 1) } else s
  | 8 => if form == 2 then { s with parts := s.parts ++ [(8, unit, (badPart bad 8 unit).getD (Config.failingWays unit))] } else s
  | 10 => { s with retiredH := s.journalled }
  | 11 =>
    if form == 2 then s
    else
      let s := s.trainPort unit ((badPart bad 11 unit).getD 0)
      let out := 255 - (s.link unit).lanes
      if s.carries unit && out != 0 then { s with parts := s.parts ++ [(11, unit, out)] } else s
  | 12 => if (List.range 32).any s.carries then { s.draw with fabTime := Config.startSync s.freeCtr } else s
  | 13 => { s with fwCtx := some Ctx.firmware }
  | 14 => { s with outbox := s.outbox ++ [.ready s.reported s.parts] }
  | _ => s

/-- What a step that failed in both its forms does: its unit is fenced, a link stays DOWN, or the start stops there. -/
def State.stepFailed (s : State) (step unit : Nat) : State × Bool :=
  if 5 ≤ step && step ≤ 9 then ({ s with fenced := s.fenced ++ [(step, unit)] }, true)
  else if step == 11 || (step == 12 && (List.range 32).all fun p => !s.carries p) then (s, true)
  else ({ s with startStop := some step }, false)

/-- Run a step of a unit; false where the start goes no further. -/
def State.runUnit (bad : List (Nat × Nat × Nat)) (step unit : Nat) (s : State) : State × Bool :=
  if s.fenced.contains (step, unit) || s.absent step unit then (s, true)
  else
    let form := if hasSecondForm step && 0 < s.failures step unit then 2 else 1
    let r := s.attempt bad step unit form
    match r.2 with
    | none => (r.1, false)
    | some true => (State.stepDone bad r.1 step unit form, true)
    | some false =>
      if form == 2 || !hasSecondForm step then r.1.stepFailed step unit
      else
        let q := r.1.attempt bad step unit 2
        match q.2 with
        | none => (q.1, false)
        | some true => (State.stepDone bad q.1 step unit 2, true)
        | some false => q.1.stepFailed step unit

/-- Hem faults reported in a step of a start: from step 10 on they count, before it the journal keeps each hop that they name (R400). -/
def State.startFaults (hems : List (Nat × BitVec 64 × Nat × BitVec 16)) (step : Nat) (s : State) : State :=
  (hems.filter fun e => e.1 == step && e.2.2.2 != 1).foldl (fun s e =>
    let hops := hopsOf e.2.1 e.2.2.1
    if 10 ≤ step then hops.foldl State.countHop s else hops.foldl (fun s h => s.journalIt step 0 2 h) s) s

/-- Run steps in order as far as the start goes; a step's hem faults come once its last unit is done. -/
def State.runSteps (bad : List (Nat × Nat × Nat)) (hems : List (Nat × BitVec 64 × Nat × BitVec 16)) : List (Nat × Nat) → State → State
  | [], s => s
  | (step, unit) :: r, s =>
    let q := s.runUnit bad step unit
    let t := if (r.head?.map Prod.fst) == some step then q.1 else q.1.startFaults hems step
    if q.2 then State.runSteps bad hems r t else t

/-- The steps and units of a start, in order. -/
def startPlan : List (Nat × Nat) := (List.range 14).flatMap fun i => (List.range (startUnits (i + 1))).map fun u => (i + 1, u)

/-- Records left at begun count as failed; a unit left so in its second form is fenced. -/
def State.closeBegun (s : State) : State :=
  let begun := s.journal.filter fun r => r.outcome == 0
  let s := begun.foldl (fun s r =>
    let s := s.addFailure r.step r.unit
    if r.form == 2 && 5 ≤ r.step && r.step ≤ 9 && !s.fenced.contains (r.step, r.unit) then { s with fenced := s.fenced ++ [(r.step, r.unit)] } else s) s
  { s with journal := s.journal.map fun (r : JRec) => if r.outcome == 0 then { r with outcome := 2 } else r }

/-- What a start begins from: the state after reset, with the journal, the fuses, the fences whose count stands, and what lies
outside the package; M is 0. -/
def State.coldStart (s : State) : State :=
  let s := s.closeBegun
  { State.reset with
    freeCtr := s.freeCtr, fwCtx := none, journal := s.journal, fuses := s.fuses, fenced := s.fenced.filter fun e => s.failures e.1 e.2 != 0,
    meas := 0, nodeMode := s.nodeMode, peerPub := s.peerPub,
    mem := s.mem.filter fun e => isRemote e.1, syn := s.syn.filter fun e => isRemote (32 * e.1), gtag := s.gtag.filter fun e => isRemote (32 * e.1) }

/-- `START_SEQUENCE`: a cold start of the package (R398-R400). -/
def execStartSequence (m : Mishaps) (s : State) : Out := .next (State.runSteps m.bad m.hems startPlan s.coldStart)

/-- The five fields of a journal record (R399). -/
def JRec.fields (r : JRec) : List Nat := [r.step, r.form, r.outcome, r.tick, r.unit]

/-- `ATTESTATION_REQUEST` (R397). -/
def execAttestationRequest (host : Nat) (nonce : BitVec 384) (s : State) : Out :=
  .next { s with outbox := s.outbox ++
    [.report host s.meas Config.fusedIdentity nonce s.journal.getLast?
      (Config.attestSignature s.meas Config.fusedIdentity nonce (s.journal.getLast?.elim [] JRec.fields))] }

/-- `FAILURE_COUNT_CLEAR`: the unit runs its first form at the next start (R399). -/
def execFailureCountClear (step unit : Nat) (s : State) : Out :=
  .next { s with fuses := SMap.put 0 (fuseKey step unit) 0 s.fuses }

/-- `POWER_LOSS` (R399). -/
def execPowerLoss (s : State) : Out := .next { s with power := false }

/-! ### From outside (R23, R207) -/

/-- `ISSUE_SLOT_WITHHELD`: the unit's next slot issues nothing; `matrix` tells a matrix engine from a scheduler (R23). -/
def execIssueSlotWithheld (matrix : Bool) (unit : Nat) (s : State) : Out := .next { s with withheld := s.withheld ++ [(matrix, unit)] }

/-- `GRANULE_CORRUPTION`: bits of a granule flip, and its hem stays (R207). -/
def execGranuleCorruption (loc : Nat) (flip : BitVec 256) (s : State) : Out :=
  let at_ := loc / 32 * 32
  let old := s.bytes at_ 32
  let new := ((List.range 32).zip old).map fun p => p.2 ^^^ flip.extractLsb' (8 * p.1) 8
  .next ((s.setBytes at_ new).setSyn at_ (s.synAt at_ ^^^ crc16 old ^^^ crc16 new))

end Sys2Proof.Machine
end

