-- ==== Sys2Proof/Machine/Dispatch.lean ====
section
/-! DEFINITION. Every instruction and event has one arm: one direct call of its meaning. -/

namespace Sys2Proof.Machine

/-- One step of the machine, word or event. -/
def exec (i : Instr) (s : State) : Host.Outcome State Fault Refusal :=
  match i with
  | .clause f => Sys2Proof.Machine.execClause f s
  | .bra f => Sys2Proof.Machine.execBra f s
  | .braNegated f => Sys2Proof.Machine.execBraNegated f s
  | .call f => Sys2Proof.Machine.execCall f s
  | .seam f => Sys2Proof.Machine.execSeam f s
  | .brx f => Sys2Proof.Machine.execBrx f s
  | .callx f => Sys2Proof.Machine.execCallx f s
  | .ret f => Sys2Proof.Machine.execRet f s
  | .nop f => Sys2Proof.Machine.execNop f s
  | .yield f => Sys2Proof.Machine.execYield f s
  | .exit f => Sys2Proof.Machine.execExit f s
  | .trap f => Sys2Proof.Machine.execTrap f s
  | .rft f => Sys2Proof.Machine.execRft f s
  | .mon f => Sys2Proof.Machine.execMon f s
  | .mwait f => Sys2Proof.Machine.execMwait f s
  | .fence f => Sys2Proof.Machine.execFence f s
  | .bkpt f => Sys2Proof.Machine.execBkpt f s
  | .add f => Sys2Proof.Machine.execAdd f s
  | .sub f => Sys2Proof.Machine.execSub f s
  | .mullo f => Sys2Proof.Machine.execMullo f s
  | .mulhiI f => Sys2Proof.Machine.execMulhiI f s
  | .mulhiN f => Sys2Proof.Machine.execMulhiN f s
  | .minI f => Sys2Proof.Machine.execMinI f s
  | .maxI f => Sys2Proof.Machine.execMaxI f s
  | .minN f => Sys2Proof.Machine.execMinN f s
  | .maxN f => Sys2Proof.Machine.execMaxN f s
  | .and f => Sys2Proof.Machine.execAnd f s
  | .or f => Sys2Proof.Machine.execOr f s
  | .xor f => Sys2Proof.Machine.execXor f s
  | .andn f => Sys2Proof.Machine.execAndn f s
  | .shl f => Sys2Proof.Machine.execShl f s
  | .shr f => Sys2Proof.Machine.execShr f s
  | .sar f => Sys2Proof.Machine.execSar f s
  | .adds f => Sys2Proof.Machine.execAdds f s
  | .subs f => Sys2Proof.Machine.execSubs f s
  | .shrr f => Sys2Proof.Machine.execShrr f s
  | .popc f => Sys2Proof.Machine.execPopc f s
  | .clz f => Sys2Proof.Machine.execClz f s
  | .bfe f => Sys2Proof.Machine.execBfe f s
  | .addw f => Sys2Proof.Machine.execAddw f s
  | .mulw f => Sys2Proof.Machine.execMulw f s
  | .ffmaF32 f => Sys2Proof.Machine.execFfmaF32 f s
  | .ffmaF16x2 f => Sys2Proof.Machine.execFfmaF16x2 f s
  | .ffmaBf16x2 f => Sys2Proof.Machine.execFfmaBf16x2 f s
  | .madI32 f => Sys2Proof.Machine.execMadI32 f s
  | .dot2I16 f => Sys2Proof.Machine.execDot2I16 f s
  | .dot4I8 f => Sys2Proof.Machine.execDot4I8 f s
  | .faddF32 f => Sys2Proof.Machine.execFaddF32 f s
  | .fmulF32 f => Sys2Proof.Machine.execFmulF32 f s
  | .fminF32 f => Sys2Proof.Machine.execFminF32 f s
  | .fmaxF32 f => Sys2Proof.Machine.execFmaxF32 f s
  | .faddF16x2 f => Sys2Proof.Machine.execFaddF16x2 f s
  | .fmulF16x2 f => Sys2Proof.Machine.execFmulF16x2 f s
  | .faddBf16x2 f => Sys2Proof.Machine.execFaddBf16x2 f s
  | .fmulBf16x2 f => Sys2Proof.Machine.execFmulBf16x2 f s
  | .setp f => Sys2Proof.Machine.execSetp f s
  | .rcp f => Sys2Proof.Machine.execRcp f s
  | .rsq f => Sys2Proof.Machine.execRsq f s
  | .sqrt f => Sys2Proof.Machine.execSqrt f s
  | .exp2 f => Sys2Proof.Machine.execExp2 f s
  | .log2 f => Sys2Proof.Machine.execLog2 f s
  | .tanh f => Sys2Proof.Machine.execTanh f s
  | .cvt f => Sys2Proof.Machine.execCvt f s
  | .cvtSlotSource f => Sys2Proof.Machine.execCvtSlotSource f s
  | .cvtSlotDest f => Sys2Proof.Machine.execCvtSlotDest f s
  | .movi f => Sys2Proof.Machine.execMovi f s
  | .movhi f => Sys2Proof.Machine.execMovhi f s
  | .addi f => Sys2Proof.Machine.execAddi f s
  | .andi f => Sys2Proof.Machine.execAndi f s
  | .ori f => Sys2Proof.Machine.execOri f s
  | .xori f => Sys2Proof.Machine.execXori f s
  | .shli f => Sys2Proof.Machine.execShli f s
  | .shri f => Sys2Proof.Machine.execShri f s
  | .slide f => Sys2Proof.Machine.execSlide f s
  | .slideh f => Sys2Proof.Machine.execSlideh f s
  | .shfl f => Sys2Proof.Machine.execShfl f s
  | .bcast f => Sys2Proof.Machine.execBcast f s
  | .ballot f => Sys2Proof.Machine.execBallot f s
  | .actmask f => Sys2Proof.Machine.execActmask f s
  | .redadd f => Sys2Proof.Machine.execRedadd f s
  | .redmax f => Sys2Proof.Machine.execRedmax f s
  | .mov f => Sys2Proof.Machine.execMov f s
  | .sel f => Sys2Proof.Machine.execSel f s
  | .movsv f => Sys2Proof.Machine.execMovsv f s
  | .movvs f => Sys2Proof.Machine.execMovvs f s
  | .rdsp f => Sys2Proof.Machine.execRdsp f s
  | .wrsp f => Sys2Proof.Machine.execWrsp f s
  | .sadd f => Sys2Proof.Machine.execSadd f s
  | .ssub f => Sys2Proof.Machine.execSsub f s
  | .smul f => Sys2Proof.Machine.execSmul f s
  | .sand f => Sys2Proof.Machine.execSand f s
  | .sor f => Sys2Proof.Machine.execSor f s
  | .sxor f => Sys2Proof.Machine.execSxor f s
  | .sshl f => Sys2Proof.Machine.execSshl f s
  | .sshr f => Sys2Proof.Machine.execSshr f s
  | .ldp f => Sys2Proof.Machine.execLdp f s
  | .stp f => Sys2Proof.Machine.execStp f s
  | .ldsc f => Sys2Proof.Machine.execLdsc f s
  | .stsc f => Sys2Proof.Machine.execStsc f s
  | .atsc f => Sys2Proof.Machine.execAtsc f s
  | .ldcl f => Sys2Proof.Machine.execLdcl f s
  | .stcl f => Sys2Proof.Machine.execStcl f s
  | .atcl f => Sys2Proof.Machine.execAtcl f s
  | .ldds f => Sys2Proof.Machine.execLdds f s
  | .stds f => Sys2Proof.Machine.execStds f s
  | .atds f => Sys2Proof.Machine.execAtds f s
  | .ldg f => Sys2Proof.Machine.execLdg f s
  | .stg f => Sys2Proof.Machine.execStg f s
  | .atg f => Sys2Proof.Machine.execAtg f s
  | .pfg f => Sys2Proof.Machine.execPfg f s
  | .ldf f => Sys2Proof.Machine.execLdf f s
  | .stf f => Sys2Proof.Machine.execStf f s
  | .atf f => Sys2Proof.Machine.execAtf f s
  | .pubf f => Sys2Proof.Machine.execPubf f s
  | .cpy f => Sys2Proof.Machine.execCpy f s
  | .cpyt f => Sys2Proof.Machine.execCpyt f s
  | .cpyx f => Sys2Proof.Machine.execCpyx f s
  | .cpys f => Sys2Proof.Machine.execCpys f s
  | .mma f => Sys2Proof.Machine.execMma f s
  | .accz f => Sys2Proof.Machine.execAccz f s
  | .accrd f => Sys2Proof.Machine.execAccrd f s
  | .accwr f => Sys2Proof.Machine.execAccwr f s
  | .accnorm f => Sys2Proof.Machine.execAccnorm f s
  | .mfence f => Sys2Proof.Machine.execMfence f s
  | .binit f => Sys2Proof.Machine.execBinit f s
  | .barv f => Sys2Proof.Machine.execBarv f s
  | .bexp f => Sys2Proof.Machine.execBexp f s
  | .bwait f => Sys2Proof.Machine.execBwait f s
  | .btest f => Sys2Proof.Machine.execBtest f s
  | .bretire f => Sys2Proof.Machine.execBretire f s
  | .gbar f => Sys2Proof.Machine.execGbar f s
  | .tbar f => Sys2Proof.Machine.execTbar f s
  | .gjoin f => Sys2Proof.Machine.execGjoin f s
  | .ginfo f => Sys2Proof.Machine.execGinfo f s
  | .fabclr f => Sys2Proof.Machine.execFabclr f s
  | .wspill f => Sys2Proof.Machine.execWspill f s
  | .wfill f => Sys2Proof.Machine.execWfill f s
  | .sqclaim f => Sys2Proof.Machine.execSqclaim f s
  | .sqpub f => Sys2Proof.Machine.execSqpub f s
  | .sqacq f => Sys2Proof.Machine.execSqacq f s
  | .sqret f => Sys2Proof.Machine.execSqret f s
  | .sqinfo f => Sys2Proof.Machine.execSqinfo f s
  | .press f => Sys2Proof.Machine.execPress f s
  | .launch f => Sys2Proof.Machine.execLaunch f s
  | .pgprobe f => Sys2Proof.Machine.execPgprobe f s
  | .pgpref f => Sys2Proof.Machine.execPgpref f s
  | .sysrd f => Sys2Proof.Machine.execSysrd f s
  | .sysrdPeek f => Sys2Proof.Machine.execSysrdPeek f s
  | .syswr f => Sys2Proof.Machine.execSyswr f s
  | .pegarm f => Sys2Proof.Machine.execPegarm f s
  | .driftStep => Sys2Proof.Machine.execDriftStep s
  | .loadReturn f => Sys2Proof.Machine.execLoadReturn f s
  | .storeAck f => Sys2Proof.Machine.execStoreAck f s
  | .atomicReturn f => Sys2Proof.Machine.execAtomicReturn f s
  | .sfuResult f => Sys2Proof.Machine.execSfuResult f s
  | .homeLoadRequest f => Sys2Proof.Machine.execHomeLoadRequest f s
  | .homeWriteThrough f => Sys2Proof.Machine.execHomeWriteThrough f s
  | .homeOwnedRequest f => Sys2Proof.Machine.execHomeOwnedRequest f s
  | .ownedGrant f => Sys2Proof.Machine.execOwnedGrant f s
  | .grantAcknowledge a b => Sys2Proof.Machine.execGrantAcknowledge a b s
  | .forwardReceive a b => Sys2Proof.Machine.execForwardReceive a b s
  | .recallReceive a b => Sys2Proof.Machine.execRecallReceive a b s
  | .ownerAnswer a b c => Sys2Proof.Machine.execOwnerAnswer a b c s
  | .writeBackReceive a b c => Sys2Proof.Machine.execWriteBackReceive a b c s
  | .writeBackAck a b c => Sys2Proof.Machine.execWriteBackAck a b c s
  | .fillReply f => Sys2Proof.Machine.execFillReply f s
  | .writeThroughAck f => Sys2Proof.Machine.execWriteThroughAck f s
  | .requestRefusedResend f => Sys2Proof.Machine.execRequestRefusedResend f s
  | .packageRebase => Sys2Proof.Machine.execPackageRebase s
  | .floorMessage a b c d => Sys2Proof.Machine.execFloorMessage a b c d s
  | .mwaitWake a b => Sys2Proof.Machine.execMwaitWake a b s
  | .mwaitTimeout f => Sys2Proof.Machine.execMwaitTimeout f s
  | .remoteTimeout f => Sys2Proof.Machine.execRemoteTimeout f s
  | .lateReplyDrop f => Sys2Proof.Machine.execLateReplyDrop f s
  | .fairnessOverdue f => Sys2Proof.Machine.execFairnessOverdue f s
  | .gangDemotion f => Sys2Proof.Machine.execGangDemotion f s
  | .parkedPathTakeover f => Sys2Proof.Machine.execParkedPathTakeover f s
  | .noProgress f => Sys2Proof.Machine.execNoProgress f s
  | .urgencyEvaluation f => Sys2Proof.Machine.execUrgencyEvaluation f s
  | .swapOut a b => Sys2Proof.Machine.execSwapOut a b s
  | .forcedSwap a b => Sys2Proof.Machine.execForcedSwap a b s
  | .freePositionSwapIn f => Sys2Proof.Machine.execFreePositionSwapIn f s
  | .swapComplete f => Sys2Proof.Machine.execSwapComplete f s
  | .collectiveAccept a b => Sys2Proof.Machine.execCollectiveAccept a b s
  | .granuleLand f => Sys2Proof.Machine.execGranuleLand f s
  | .matrixPassGrant f => Sys2Proof.Machine.execMatrixPassGrant f s
  | .matrixPassEnd f => Sys2Proof.Machine.execMatrixPassEnd f s
  | .tileOpApply f => Sys2Proof.Machine.execTileOpApply f s
  | .sqclaimRequest f => Sys2Proof.Machine.execSqclaimRequest f s
  | .sqpubRequest f => Sys2Proof.Machine.execSqpubRequest f s
  | .sqacqRequest f => Sys2Proof.Machine.execSqacqRequest f s
  | .sqretRequest f => Sys2Proof.Machine.execSqretRequest f s
  | .sqinfoRequest f => Sys2Proof.Machine.execSqinfoRequest f s
  | .sqacqReply f => Sys2Proof.Machine.execSqacqReply f s
  | .sequenceReply f => Sys2Proof.Machine.execSequenceReply f s
  | .sequenceResend f => Sys2Proof.Machine.execSequenceResend f s
  | .pageWalk a b c d => Sys2Proof.Machine.execPageWalk a b c d s
  | .pageRequestRetry f => Sys2Proof.Machine.execPageRequestRetry f s
  | .launchHeadRead f => Sys2Proof.Machine.execLaunchHeadRead f s
  | .dispatchSlotTake f => Sys2Proof.Machine.execDispatchSlotTake f s
  | .launchDispatch f => Sys2Proof.Machine.execLaunchDispatch f s
  | .teamPlace f => Sys2Proof.Machine.execTeamPlace f s
  | .launchStampWrite f => Sys2Proof.Machine.execLaunchStampWrite f s
  | .hostProdWrite a b c => Sys2Proof.Machine.execHostProdWrite a b c s
  | .flitReceive a b c => Sys2Proof.Machine.execFlitReceive a b c s
  | .flitResend a b => Sys2Proof.Machine.execFlitResend a b s
  | .linkTrainingDone a b => Sys2Proof.Machine.execLinkTrainingDone a b s
  | .retrainLimitExpiry f => Sys2Proof.Machine.execRetrainLimitExpiry f s
  | .linkStateReport a b c d => Sys2Proof.Machine.execLinkStateReport a b c d s
  | .linkReroute f => Sys2Proof.Machine.execLinkReroute f s
  | .lostWrite f => Sys2Proof.Machine.execLostWrite f s
  | .exportRead a b c => Sys2Proof.Machine.execExportRead a b c s
  | .pubChunkReceive f => Sys2Proof.Machine.execPubChunkReceive f s
  | .pubRefusedReturn a b c d => Sys2Proof.Machine.execPubRefusedReturn a b c d s
  | .pubAckReceive a b c => Sys2Proof.Machine.execPubAckReceive a b c s
  | .pubDeadline f => Sys2Proof.Machine.execPubDeadline f s
  | .ptpSync f => Sys2Proof.Machine.execPtpSync f s
  | .preemptRemoteBound f => Sys2Proof.Machine.execPreemptRemoteBound f s
  | .teardownNodeAck a b => Sys2Proof.Machine.execTeardownNodeAck a b s
  | .teardownBound f => Sys2Proof.Machine.execTeardownBound f s
  | .create f => Sys2Proof.Machine.execCreate f s
  | .start f => Sys2Proof.Machine.execStart f s
  | .preempt f => Sys2Proof.Machine.execPreempt f s
  | .resume f => Sys2Proof.Machine.execResume f s
  | .teardown f => Sys2Proof.Machine.execTeardown f s
  | .qenable f => Sys2Proof.Machine.execQenable f s
  | .qdrain f => Sys2Proof.Machine.execQdrain f s
  | .qclear f => Sys2Proof.Machine.execQclear f s
  | .dgrant f => Sys2Proof.Machine.execDgrant f s
  | .drevoke f => Sys2Proof.Machine.execDrevoke f s
  | .region f => Sys2Proof.Machine.execRegion f s
  | .invalidate f => Sys2Proof.Machine.execInvalidate f s
  | .resolve f => Sys2Proof.Machine.execResolve f s
  | .pegStop => Sys2Proof.Machine.execPegStop s
  | .sampleTag f => Sys2Proof.Machine.execSampleTag f s
  | .histogramThreshold f => Sys2Proof.Machine.execHistogramThreshold f s
  | .abortWrite f => Sys2Proof.Machine.execAbortWrite f s
  | .windowLengthWrite f => Sys2Proof.Machine.execWindowLengthWrite f s
  | .retrainLimitWrite f => Sys2Proof.Machine.execRetrainLimitWrite f s
  | .fabricTableInstall f => Sys2Proof.Machine.execFabricTableInstall f s
  | .dieScratchpadContribWrite f => Sys2Proof.Machine.execDieScratchpadContribWrite f s
  | .systemRegisterWrite f => Sys2Proof.Machine.execSystemRegisterWrite f s
  | .hemFaultReport a b c => Sys2Proof.Machine.execHemFaultReport a b c s
  | .malformedWord a b c => Sys2Proof.Machine.execMalformedWord a b c s
  | .halt f => Sys2Proof.Machine.execHalt f s
  | .debugResume f => Sys2Proof.Machine.execDebugResume f s
  | .staterd f => Sys2Proof.Machine.execStaterd f s
  | .edit f => Sys2Proof.Machine.execEdit f s
  | .memrd f => Sys2Proof.Machine.execMemrd f s
  | .memwr f => Sys2Proof.Machine.execMemwr f s
  | .commit f => Sys2Proof.Machine.execCommit f s
  | .discard f => Sys2Proof.Machine.execDiscard f s
  | .breakSet f => Sys2Proof.Machine.execBreakSet f s
  | .watch f => Sys2Proof.Machine.execWatch f s
  | .trace f => Sys2Proof.Machine.execTrace f s
  | .sample f => Sys2Proof.Machine.execSample f s
  | .histo f => Sys2Proof.Machine.execHisto f s
  | .trigger f => Sys2Proof.Machine.execTrigger f s
  | .peg f => Sys2Proof.Machine.execPeg f s
  | .scan f => Sys2Proof.Machine.execScan f s
  | .go f => Sys2Proof.Machine.execGo f s
  | .startSequence f => Sys2Proof.Machine.execStartSequence f s
  | .attestationRequest a b => Sys2Proof.Machine.execAttestationRequest a b s
  | .issueSlotWithheld a b => Sys2Proof.Machine.execIssueSlotWithheld a b s
  | .firmwareQueuePost f => Sys2Proof.Machine.execFirmwareQueuePost f s
  | .linkTrainingStart f => Sys2Proof.Machine.execLinkTrainingStart f s
  | .bufferDefect a b => Sys2Proof.Machine.execBufferDefect a b s
  | .granuleCorruption a b => Sys2Proof.Machine.execGranuleCorruption a b s
  | .powerLoss => Sys2Proof.Machine.execPowerLoss s
  | .failureCountClear a b => Sys2Proof.Machine.execFailureCountClear a b s

end Sys2Proof.Machine
end

