-- ==== Sys2Proof/Machine/Kick.lean ====
section
/-! DEFINITION. The steps that units start of themselves as soon as they can, and the words that sampling follows. -/

namespace Sys2Proof.Machine

/-! ### Tagged words (R393, Table 27.3) -/

/-- The request that a thread's access goes out in: its own, or for a store the merged one that completes it, none once that has gone or where
the L1 has taken the store (R136). -/
def State.carrierOf (s : State) (o : Op) : Option Op :=
  if o.kind == .store && o.uid != 0 then s.ops.find? fun x => x.waits.contains o.id else some o

/-- The deepest level that an access has reached: none while its request has not left, the L1 where none is needed. -/
def State.levelOf (s : State) (o : Op) : Nat :=
  match o.space, s.carrierOf o with
  | 1, some x => if x.via.isEmpty then (if x.fill.isEmpty then 0 else 1) else match fabKind o.addr with | 0 => 6 | 1 => 7 | _ => 8
  | 0, some x => if x.req == .none then (if x.fill.isEmpty then 0 else 1) else beyond
  | 0, none | 1, none => 1
  | 6, _ => beyond
  | _, _ => 0
where
  beyond : Nat :=
    if isRemote o.loc then (if isHost o.loc then 8 else 6)
    else
      let slice := if sliceDie (s.homeSlice o.ctx o.loc) == coreDie o.agent then 2 else 3
      match Config.sampleLevel o.id % 3 with
      | 0 => slice
      | 1 => if s.reduced.contains (7, paStack o.loc) then 5 else 4
      | _ => 5

/-- The unit that serves an operation (R395). -/
def State.unitOf (s : State) (o : Op) : List Nat :=
  match o.kind with
  | .copy => match s.items.find? fun x => x.id == o.aop with
    | some x => unitKey 0 x.cluster :: (if x.fn == 2 then [unitKey 2 x.cluster] else [])
    | none => []
  | .mma => match s.mreqs.find? fun m => m.id == o.aop with
    | some m => unitKey 1 m.cluster :: (if slotBstore m.fmt == 1 then [unitKey 2 m.cluster] else [])
    | none => []
  | _ =>
    if s.levelOf o < 2 then []
    else if o.space == 1 || isRemote o.loc then ((s.carrierOf o).map fun x => unitKey 4 (x.port % 32)).toList
    else [unitKey 3 (s.homeSlice o.ctx o.loc / 16)]

/-- The record of a tagged word. -/
def Tagged.record (x : Tagged) (level : Nat) (stages : BitVec 80) : BitVec 256 :=
  BitVec.ofNat 64 x.tick ++ x.pkt ++ BitVec.ofNat 2 x.word ++ BitVec.ofNat 3 x.pipe ++ BitVec.ofNat 4 level ++ 0#7 ++
  BitVec.ofNat 9 x.core ++ BitVec.ofNat 2 x.sched ++ 0#5 ++ stages ++ x.mask ++ BitVec.ofNat 6 x.ctx ++ 0#10

/-- Write the record of a tagged word, where sampling is on and no filter shuts it out. -/
def State.writeTagged (s : State) (x : Tagged) (level : Nat) : State :=
  let wanted := match s.filter with | some u => x.units.contains u | none => true
  if s.sampleDies.contains x.die && wanted then
    s.draw.traceRec x.die x.ctx (x.record level (Config.sampleStages s.freeCtr))
  else s

/-- A tagged word with the level that its accesses have now reached, and the units that serve them. -/
def State.follow (s : State) (x : Tagged) : Tagged :=
  let ops := s.ops.filter fun o => x.ops.contains o.id
  { x with level := ops.foldl (fun m o => max m (s.levelOf o)) x.level, units := dedup (x.units ++ ops.flatMap s.unitOf) }

/-- A word of the chain that issues first in a slot of a scheduler from its drawn place on is tagged, whichever of them is drawn; `pipes` are the
pipes of its words, and `t` is the state after it. -/
def State.tagWord (t before : State) (key : Nat) (pipes : List Nat) : State :=
  if t.tags.all fun e => !(e.1 == key && e.2 ≤ before.tick) then t
  else
    let j := Config.sampleWord t.freeCtr % max 1 pipes.length
    match pipes[j]?, before.gangThreads with
    | some pipe, u :: r =>
      let us := uids (u :: r)
      let ops := t.ops.filter fun o => before.nextId ≤ o.id && us.contains o.uid && o.word == u.word + j
      let x : Tagged := {
        tick := before.tick, die := coreDie (key / 4), ctx := before.ctxOf u.tid, pkt := u.pkt, word := u.word + j,
        pipe := if pipe ≤ 4 then pipe else 0, core := key / 4, sched := key % 4, mask := laneMask (u :: r), level := 0, units := [],
        uids := us, ops := ops.map Op.id, mode := u.trapMode }
      let x := t.follow x
      let t := { t.draw with tags := SMap.del key t.tags }
      if before.trapped < t.trapped then t.writeTagged x 0 else { t with tagged := t.tagged ++ [x] }
    | _, _ => t

/-- The gang of a tagged word has trapped or has been saved. -/
def State.cutShort (s : State) (x : Tagged) : Bool :=
  s.threads.any fun t => x.uids.contains t.uid &&
    ((t.trapMode && !x.mode) || (match s.groupOf t with | some g => g.place == .saved | none => false))

/-- Tagged words that retire, or never will, leave their records. -/
def State.settleTags (s : State) : State :=
  s.tagged.foldl (fun s x =>
    let gone : State := { s with tagged := s.tagged.erase x }
    if s.cutShort x then gone.writeTagged x 0
    else if s.ops.all fun o => !x.ops.contains o.id then gone.writeTagged x x.level
    else { s with tagged := s.tagged.map fun y => if y == x then s.follow x else y }) s

/-! ### Everything -/

/-- Post steps that are not on the agenda already. -/
def State.postNew (s : State) (is : List Instr) : State :=
  is.foldl (fun s i => if s.agenda.contains i then s else s.post [i]) s

/-- Acquires whose reply has come and which wait for nothing more. -/
def State.acqWork (s : State) : List Instr :=
  (s.ops.filter fun o => o.kind == .sqacq && o.done && s.loadsDone o).map fun o => .sqacqReply o.id

/-- The presses go on. -/
def State.pressWork (s : State) : State := (s.ops.filter Op.isPress).foldl (fun s o => match s.op o.id with | some x => s.goPress x | none => s) s

/-- The saves go on. -/
def State.saveWork (s : State) : State :=
  ((s.groups.filter fun g => g.place == .saving).map Group.gid).foldl State.saveStep s

/-- Post what the units now have to do. -/
def State.kick (s : State) : State :=
  let s := s.rereadQueues.releaseLate.pressWork.sendPubs.saveWork.settleTags
  let s := State.ctxPort (s.cmds.length + 1) s
  let s := State.pagePort (s.pcmds.length + 1) s
  ((s.postNew s.acqWork).postNew s.copyWork).postNew (s.matrixWork ++ s.launchWork)

end Sys2Proof.Machine
end

