-- ==== Sys2Proof/Machine/Run.lean ====
section
/-! DEFINITION. One step's work around `exec`: the words of a chain issued together (R28, R29), a scheduler's slot, an event, the end
of a cycle. -/

namespace Sys2Proof.Machine

/-! ### Chains -/

/-- The gang's threads keep what its words read: a word that issues again reads what its chain read (R29, R241, R374). -/
def State.snapshot (s : State) : State :=
  s.modThreads s.gang fun t => { t with old := some ((t.redo.bind Again.was).getD (s.wasOf t)) }

/-- The chain has issued. -/
def State.unsnapshot (s : State) : State := { s with issued := [], threads := s.threads.map fun t => { t with old := none } }

/-- Change the next state, if that is the answer. -/
def onNext (f : State → State) : Out → Out
  | .next t => .next (f t)
  | .fault e => .fault e
  | .refused e => .refused e

/-- `TRAP` and `BKPT` act after the rest of their chain (R96). -/
def trapsAfter : Instr → Bool
  | .trap _ | .bkpt _ => true
  | _ => false

/-- Words that move threads between groups take effect last in their chain, so that the others read the old group. -/
def regroups : Instr → Bool
  | .gjoin _ => true
  | _ => false

/-- The words of a chain with their places in it. -/
def numbered (ws : List Instr) : List (Nat × Instr) := (List.range ws.length).zip ws

/-- The first word that traps, alone before the chain that begins at word k, with its answer (R29, R376). -/
def firstTrap (s : State) (k : Nat) : List (Nat × Instr) → Option Out
  | [] => none
  | (j, i) :: r =>
    match exec i ((s.forWord j).atWord (k + j)) with
    | .next t => if !trapsAfter i && s.trapped < t.trapped then some (.next t) else firstTrap s k r
    | .fault e => some (.fault e)
    | .refused e => some (.refused e)

/-- The wait in which a word holds its gang, if it does. -/
def State.heldBy (s : State) : Option Thread := s.gangThreads.find? fun u => u.state == .waiting && u.wait.retries

/-- The first word that holds the gang, with the state in which all of it waits. -/
def firstHold (s : State) (k : Nat) : List (Nat × Instr) → Option State
  | [] => none
  | (j, i) :: r =>
    match exec i ((s.forWord j).atWord (k + j)) with
    | .next t => match t.heldBy with
      | some u => some (({ t with gang := s.gang }.atWord k).modThreads s.gang fun v => { v with state := .waiting, wait := u.wait, cut := u.cut })
      | none => firstHold s k r
    | _ => firstHold s k r

/-- The word and the threads that a page fault parks (R332). -/
def firstPark (s : State) (k : Nat) : List (Nat × Instr) → Option (Nat × Instr × List Nat)
  | [] => none
  | (j, i) :: r =>
    match exec i ((s.forWord j).atWord (k + j)) with
    | .next t =>
      let us := uids (t.gangThreads.filter Thread.onPage)
      if us.isEmpty then firstPark s k r else some (j, i, us)
    | _ => firstPark s k r

/-- Perform words one after the other, each at its place and for the threads that execute it. -/
def performAll (k : Nat) : List (Nat × Instr) → State → Out
  | [], s => .next s
  | (j, i) :: r, s =>
    match exec i ((s.forWord j).atWord (k + j)) with
    | .next t => performAll k r { t with gang := s.gang }
    | .fault e => .fault e
    | .refused e => .refused e

/-- The gang's threads stand where they stood in another state. -/
def State.placedAs (s before : State) : State :=
  s.modThreads s.gang fun t => match before.thread t.uid with
    | some b => { t with pkt := b.pkt, word := b.word, clause := b.clause, fromPkt := b.fromPkt, fromWord := b.fromWord }
    | none => t

/-- Threads whose word has issued again go on where its chain had taken them (R241, R374). -/
def State.landAgain (s before : State) : State :=
  if before.trapped < s.trapped then s
  else s.modThreads (uids (before.gangThreads.filter Thread.reissues)) fun t =>
    match (before.thread t.uid).bind Thread.redo with
    | some a => { t with pkt := a.on.pkt, word := a.on.word, clause := a.on.clause, again := t.again.filter fun x => x.trap != a.trap }
    | none => t

/-- A global access whose requests leave after a monitor's `.WT` read of the same chain (R185). -/
def afterMon : Instr → Bool
  | .ldg f | .stg f => f.rtype == 0 || f.rtype == 2
  | _ => false

/-- Perform the words that do not regroup: in word order, but for a `MON`, the last of its chain, whose request leaves before those of an
`.SI` or `.OWN` word (R185). -/
def performWords (k : Nat) (ws : List (Nat × Instr)) (s : State) : Out :=
  match ws.getLast? with
  | some (j, .mon f) =>
    if ws.any fun e => afterMon e.2 then
      match performAll k [(j, .mon f)] s with
      | .next t => onNext (fun u => u.placedAs t) (performAll k ws.dropLast t)
      | o => o
    else performAll k ws s
  | _ => performAll k ws s

/-- Every word of the chain takes effect on what stood before the chain. Words that regroup come last, and do not move the gang unless they
end the chain. An `RFT` acts after the flags of the words before it, which its `TFSTAT` replaces (R58, assumption 72). -/
def performChain (k : Nat) (ws : List (Nat × Instr)) (s : State) : Out :=
  match performWords k (ws.filter fun e => !regroups e.2) s.snapshot with
  | .next t =>
    let ends := (ws.getLast?.map fun e => regroups e.2) == some true
    onNext (fun u => ((if ends then u else u.placedAs t).unsnapshot).landAgain s) (performAll k (ws.filter fun e => regroups e.2) t)
  | o => o

/-- Issue a chain of several words from word k of the gang's packet. The threads that one word parks on a page fault issue the chain again;
the others perform it, as part of the gang that has issued it (R76, R332). -/
def issueChain (k : Nat) (ws : List (Nat × Instr)) (s : State) : Out :=
  match firstTrap s.snapshot k ws with
  | some o => onNext State.unsnapshot o
  | none =>
    match firstHold s k ws with
    | some t => .next t
    | none =>
      match firstPark s k ws with
      | none => performChain k ws s
      | some (j, i, us) =>
        match exec i ({ s with gang := us }.atWord (k + j)) with
        | .next t =>
          let rest := s.gang.filter fun u => !us.contains u
          let t := t.modThreads us fun u => { u with word := k }
          if rest.isEmpty then .next t else performChain k ws { t with gang := rest, issued := s.gang }
        | o => o

/-- Issue the words of a chain from word k of the gang's packet. -/
def issueWords (k : Nat) (ws : List Instr) (s : State) : Out :=
  match ws with
  | [i] => if s.gangThreads.any Thread.reissues then performChain k [(0, i)] s else exec i s
  | _ => issueChain k (numbered ws) s

/-! ### Waiting gangs (R219-R221) -/

/-- The word of its packet that a gang stands at. -/
def State.gangWord (s : State) : Nat := match s.gangThreads with | t :: _ => t.word | [] => 0

/-- The gang about to issue leaves the marks of its arrival, and of a word to issue again at which it no longer stands. -/
def State.ready (s : State) : State :=
  s.modThreads s.gang fun t =>
    { t with resumed := false, entered := false,
             again := t.again.filter fun a => t.redo == some a || (t.trapMode && !a.trap) }

/-- A header without `hold` takes no slot of its own (R32). -/
def freeOfSlot : List Instr → Bool
  | [.clause f] => !f.hold
  | _ => false

/-- The state in which the gang now formed waits, where what it would issue in a slot has an unmet wait: its next chain, or at a header
without `hold` the first chain of the clause (R32). That it is to trap with `NO-PROGRESS` does not end a wait (R221, R244). -/
def State.unmet (s : State) : Option State :=
  let waits (v : Verdict) : Option State := match v with
    | .done t => if t.heldBy.isSome then some t else none
    | .run g ws => firstHold g.ready g.gangWord (numbered ws)
  match (s.modThreads s.gang fun t => { t with wdDue := false }).verdict with
  | .run g ws =>
    if freeOfSlot ws then match issueWords g.gangWord ws g.ready with
      | .next t => if t.heldBy.isSome then some t else waits t.verdict
      | _ => none
    else waits (.run g ws)
  | v => waits v

/-- The threads of a path that hold its entry, in a group that is not stopped. -/
def State.standing (s : State) (p : Path) : List Thread :=
  s.threads.filter fun t => t.path == p.id && t.stands &&
    (match s.groupOf t with | some g => g.place == .active || g.place == .pending | none => false)

/-- A gang all of whose threads are RUNNABLE waits where its next chain has an unmet wait (R221); a fence that waits bounds the wait for
writes that a link holds (R371). -/
def State.rest (s : State) (p : Path) : State :=
  let ts := s.standing p
  if ts.isEmpty || ts.any fun t => t.state != .runnable then s
  else match { s with gang := uids ts }.unmet with
    | none => s
    | some w =>
      let s := s.modThreads (uids ts) fun t => match w.thread t.uid with
        | some v => { t with state := v.state, wait := v.wait, cut := v.cut }
        | none => t
      { s with ops := s.ops.map fun o => match w.op o.id with | some x => { o with again := x.again } | none => o }

/-- A stalled gang whose wait has cleared, as far as its threads show it, is RUNNABLE again; without the turn it waits for that (R85). -/
def State.wake (s : State) (p : Path) : State :=
  s.modThreads (uids ((s.stuck p).filter fun t => (s.standing p).any fun u => u.uid == t.uid)) fun t =>
    { t with state := if s.hasTurn t then .runnable else .stitchWait, wait := .none }

/-- Stalled gangs look again at what they wait for. -/
def State.retry (s : State) : State :=
  let s := s.paths.foldl State.splitReplies s
  s.paths.foldl (fun s p => (s.wake p).rest p) s

/-! ### Steps -/

/-- A gang that has moved on stands at no breakpoint that halted it, and at no release that stalled it. -/
def State.passBreaks (s before : State) : State :=
  s.modThreads before.gang fun t => match before.thread t.uid with
    | some b => if b.pkt == t.pkt && b.word == t.word && b.trapMode == t.trapMode then t else { t with broke := false, cut := none }
    | none => t

/-- After an event: what it started is settled, and units go on. -/
def State.afterEvent (s : State) (trapped : Nat) : State := (s.settle trapped (0, 0)).kick

/-- Perform one event. -/
def State.event (s : State) (i : Instr) : Out :=
  match exec i { s with gang := [] } with
  | .next t => .next (t.afterEvent s.trapped)
  | .fault e => .fault e
  | .refused e => .refused e

/-- After words have issued in a slot of scheduler `key`, as its path `pid`. -/
def State.afterIssue (t s : State) (key pid run : Nat) (ready : List Nat) (ws : List Instr) : State :=
  let keep := s.fallThrough ws.length
  let t := ((t.passBreaks s).markProgress s ws).tagWord s key (ws.map fun i => (uses i).pipe)
  let t := (t.settle s.trapped keep).kick
  if freeOfSlot ws then t else t.countSlot key pid ready run

/-- The pipes of the words at which a gang stands: one where they cannot be fetched. -/
def State.nextPipes (s : State) : List Nat :=
  match s.gangThreads with
  | t :: _ => match (s.fetchChain t (3 - t.word) t.word).2 with
    | .ok ws => ws.map fun w => majorPipe (majorOf w)
    | .error _ => [0]
  | [] => []

/-- After a gang has been stopped before its word: a trap takes the slot, and a tag. -/
def State.afterStop (t s : State) (key pid run : Nat) (ready : List Nat) : State :=
  let t := if s.trapped < t.trapped then t.tagWord s key s.nextPipes else t
  let u := (t.settle s.trapped (s.fallThrough 0)).kick
  if s.trapped < t.trapped then u.countSlot key pid ready run else u

/-- A slot of scheduler `key`. -/
def State.slot (s : State) (key : Nat) : Out :=
  match s.choose key with
  | none => .next s
  | some (p, run) =>
    if s.withheld.contains (false, key) then .next (s.withhold key)
    else
      let ready := (s.paths.filter fun q => s.pathKey q == key && s.issuable q).map Path.id
      match (s.formGang p).verdict with
      | .done t => .next (t.afterStop (s.formGang p) key p.id run ready)
      | .run g ws =>
        match issueWords g.gangWord ws g.ready with
        | .next t => .next (t.afterIssue g.ready key p.id run ready ws)
        | .fault e => .fault e
        | .refused e => .refused e

/-- The end of a cycle: no scheduler has a gang left to issue in it. -/
def State.endCycle (s : State) : State :=
  s.countCycle.settleForming.settlePaths.nextTick.evict.repostItems.repostReqs.retry.putDues.kick

/-- A start reaches a package that stands still for good. -/
def isStart : Instr → Bool
  | .startSequence .. => true
  | _ => false

/-- What a package without power, or stopped in its start, does: a start, if one has come. -/
def State.restart (s : State) (f : Fault) : Out :=
  match s.agenda.find? isStart with
  | some i => State.event { s with agenda := s.agenda.erase i } i
  | none => .fault f

/-- LT values near their end hold every issue until the package rebases them (R189). -/
def State.rebaseDue (s : State) : Bool := s.lts.any fun e => 2 ^ 47 ≤ e.2

/-- The scheduler that issues next in this cycle. -/
def State.issueKey (s : State) : Option Nat := if s.rebaseDue then none else s.nextKey

/-- Debug-port commands, a start, the power's loss and what the management microcontroller does reach a package that a peg has stopped; fabric
time runs on (R390). -/
def reachesPegged : Instr → Bool
  | .halt _ | .debugResume _ | .staterd _ | .edit _ | .memrd _ | .memwr _ | .commit _ | .discard _ | .breakSet _ | .watch _
  | .trace _ | .sample _ | .histo _ | .trigger _ | .peg _ | .scan _ | .go _ | .powerLoss | .startSequence ..
  | .attestationRequest .. | .failureCountClear .. | .ptpSync _ | .hemFaultReport .. => true
  | _ => false

/-- A package stopped by a peg performs nothing but what reaches it from outside. -/
def State.pegged (s : State) : Out :=
  match s.agenda.find? reachesPegged with
  | some i => State.event { s with agenda := s.agenda.erase i } i
  | none => .next s

/-- The operation that a message brings to a home. -/
def requestOp : Instr → Option Nat
  | .homeLoadRequest k | .homeWriteThrough k | .homeOwnedRequest k => some k
  | _ => none

/-- The work that is done where `i` stands first: of the requests for one sector that have left in the same cycle the lowest die's comes
first, then the lowest core's, each core's in the order in which it sent them (R178, R182, R212). -/
def State.firstWork (s : State) (i : Instr) (r : List Instr) : Instr :=
  match (requestOp i).bind s.op with
  | none => i
  | some o =>
    let same (x : Instr) : Option Op := ((requestOp x).bind s.op).filter fun q => sectorKey q.ctx q.loc == sectorKey o.ctx o.loc && q.sent == o.sent
    (minBy (fun x => (same x).elim (2 ^ 32) fun q => agentDie q.agent * 2 ^ 16 + q.agent) (i :: r)).getD i

/-- A slot of the scheduler that issues next, or the end of the cycle. -/
def State.turn (s : State) : Out :=
  match s.issueKey with
  | none => .next s.endCycle
  | some k => s.slot k

/-- Work in flight is done now, not put off: it has been put off often enough, or comes of itself. -/
def State.workNow (s : State) : Bool := Config.maxDefer ≤ s.deferred || Config.workFirst s.freeCtr

/-- An engine's bytes land: the banks apply them after the issues of the same cycle (R233). -/
def landing : Instr → Bool
  | .granuleLand _ => true
  | _ => false

/-- Perform one step of the work in flight: a landing once every scheduler has had its slot, and none has one after it in this cycle. -/
def State.perform1 (s : State) (x : Instr) (rest : List Instr) : Out :=
  if landing x then
    if s.issueKey.isSome then s.turn else State.event { s.draw with agenda := rest, deferred := 0, cursor := 2 ^ 32 } x
  else State.event { s.draw with agenda := rest, deferred := 0 } x

/-- What the package does next. -/
def State.work (s : State) : Out :=
  if s.stopped then s.pegged
  else match s.dues with
  | i :: r => State.event { s with dues := r } i
  | [] =>
    match s.agenda with
    | [] => s.turn
    | i :: r =>
      if s.workNow then
        let x := s.firstWork i r
        s.perform1 x ((i :: r).erase x)
      else State.turn { s.draw with deferred := s.deferred + 1 }

end Sys2Proof.Machine
end

