-- ==== Sys2Proof/Machine/Stops.lean ====
section
/-! DEFINITION. When the whole package stands still. -/

namespace Sys2Proof.Machine

/-- The package stops: without power (R399), or at a start step that failed in both its forms (R398). -/
def State.stop (s : State) : Option Fault := if !s.power then some .powerOff else s.startStop.map Fault.startStopped

end Sys2Proof.Machine
end

