-- ==== Sys2Proof/Machine/Step.lean ====
section
/-! DEFINITION. The step of the machine, and the placing of one word where the next step fetches. -/

namespace Sys2Proof.Machine

/-- One step: an event, a scheduler's slot, or an idle cycle. -/
def step (s : State) : Host.Outcome State Fault Refusal :=
  match s.stop with
  | some f => s.restart f
  | none => s.work

/-- `s` with one launch of one team of 32 threads in context 0, whose next word is the instruction given. Context 0 holds every
slice, and its page table maps the first GiB of its addresses on the first GiB of HBM; the kernel lies at address 4096. A clause
header stands at word 0 of packet 0; any other instruction at word 1, in the clause that a header at word 0 has opened. -/
def State.withFetchWord (s : State) (_nbits w : Nat) : State :=
  let header := w / 2 ^ 26 % 32 == 0
  let root := 2 ^ 31
  let ctx : Ctx := { Ctx.fresh 0 with state := .running, root := root, part := BitVec.allOnes 256 }
  let record : BitVec 1024 :=
    BitVec.ofNat 1024 (4096 + 2 ^ 64 + 32 * 2 ^ 96 + 2 * 2 ^ 112 + 2 ^ 120 + 4 * 2 ^ 121 + 1024 * 2 ^ 128 + 1024 * 2 ^ 160 + 4 * 2 ^ 176)
  let launch : Launch := { Launch.fresh 1 0 0 0 0 0 with record := record, state := .running, placed := 1 }
  let team : Team := { Team.fresh 1 1 0 0 0 with scrSize := 16384, privBase := 16384, privSize := 32768 }
  let group : Group := { Group.fresh 1 1 0 0 (startSregs record 0) 0 with place := .active }
  let thread (i : Nat) : Thread :=
    let t := Thread.fresh (i + 1) 1 i 1
    if header then t else { t with word := 1, clause := some { flagA := 15, flagB := 15, stop := 1 } }
  let s := { s with
    nextId := 64, ctxs := [ctx], launches := [launch], teams := [team], groups := [group],
    threads := (List.range 32).map thread, paths := [Path.fresh 1 0 1 s.tick],
    tlb := [], dues := [], agenda := [], ops := [], gang := [] }
  let s := s.setNat root 8 (1 + root + 65536)
  let s := s.setNat (root + 65536) 8 269
  if header then s.setNat 4096 4 w else (s.setNat 4096 4 0x3FC0).setNat 4100 8 (w + 0x0B800000 * 2 ^ 32)

end Sys2Proof.Machine
end

