-- ==== Sys2Proof/Certificates/Slice0/Shapes.lean ====
section
/-! DEFINITION. The shapes in which the statements say what an instruction changes and that it changes nothing else. -/

namespace Sys2Proof.Says

open Sys2Proof.Machine

/-- A physical register of a thread as it stands now. -/
def reg (t : Thread) (n : Nat) : Word := SMap.get 0 t.regs n

/-- The physical register of `v(d)` in a thread's current window. -/
def vAt (s : State) (t : Thread) (d : BitVec 6) : Nat := physReg (s.win t.tid) t.depth d.toNat

/-- Of the whole package only threads differ: every byte of memory, every group, launch, queue, context and unit is as before. -/
def OnlyThreads (s t : State) : Prop := t = { s with threads := t.threads }

/-- Each thread of the issuing gang is related to itself afterwards by `R`; every other thread is unchanged. -/
def EachThread (s t : State) (R : Thread → Thread → Prop) : Prop :=
  List.Forall₂ (fun a b => if a.uid ∈ s.gang then R a b else b = a) s.threads t.threads

/-- Thread `a` has passed to its next word as `b` with `x` in physical register `n`, whose poison mark is gone, and flags `fl` ORed into
`FSTAT`. Every other register, predicate, flag count and field is as it was. -/
structure Wrote (n : Nat) (x : Word) (fl : BitVec 6) (a b : Thread) : Prop where
  value  : reg b n = x
  others : ∀ m, m ≠ n → reg b m = reg a m
  marks  : b.pois = a.pois.filter fun q => q.reg != n
  rest   : b = { a.next with regs := b.regs, pois := b.pois, fstat := a.fstat ||| fl }

/-- The instruction answers a next state in which every thread of the gang for which `run` holds has written `v(dst)` and passed
on, every other thread of the gang has only passed on, and nothing else of the package differs. -/
def WritesV (i : Instr) (s : State) (run : Thread → Bool) (dst : BitVec 6) (val : Thread → Word)
    (fl : Thread → BitVec 6 := fun _ => 0) : Prop :=
  ∃ t, exec i s = .next t ∧ OnlyThreads s t ∧
    EachThread s t fun a b => if run a then Wrote (vAt s a dst) (val a) (fl a) a b else b = a.next

/-- As `Wrote`, with the even-odd pair of registers `n` and `m` holding a 64-bit value, the low word in `n`. -/
structure WrotePair (n m : Nat) (x : BitVec 64) (a b : Thread) : Prop where
  low    : reg b n = x.extractLsb' 0 32
  high   : reg b m = x.extractLsb' 32 32
  others : ∀ k, k ≠ n → k ≠ m → reg b k = reg a k
  marks  : b.pois = a.pois.filter fun q => q.reg != n && q.reg != m
  rest   : b = { a.next with regs := b.regs, pois := b.pois }

/-- As `WritesV`, for a 64-bit result in `v(dst):v(dst + 1)`. -/
def WritesPair (i : Instr) (s : State) (run : Thread → Bool) (dst : BitVec 6) (val : Thread → BitVec 64) : Prop :=
  ∃ t, exec i s = .next t ∧ OnlyThreads s t ∧
    EachThread s t fun a b => if run a then WrotePair (vAt s a dst) (vAt s a (dst + 1)) (val a) a b else b = a.next

/-- The instruction answers a next state in which each thread of the gang is changed by `f`, and nothing else differs. -/
def MovesThreads (i : Instr) (s : State) (f : Thread → Thread) : Prop :=
  ∃ t, exec i s = .next t ∧ OnlyThreads s t ∧ EachThread s t fun a b => b = f a

/-- Guarded by `p(pred)` in each thread (R38). -/
def guarded (pred : BitVec 3) (t : Thread) : Bool := t.p pred

/-- Executed by every active thread (R38). -/
def always (_ : Thread) : Bool := true

/-- A signed exact value as a register of two's complement, clamped to I32, with `FSTAT.SAT` where it was clamped (R50). -/
def clamp (v : Int) : Word × BitVec 6 :=
  if v < -2147483648 then (0x80000000, 0b100000)
  else if 2147483647 < v then (0x7FFFFFFF, 0b100000)
  else (BitVec.ofInt 32 v, 0)

/-- Table 5.2 and R102: the results of majors 3 and 4, with the constructor of each row. -/
def table52 : List ((F3 → Instr) × (Word → Word → Word)) :=
  [ (.add,    fun a b => a + b),
    (.sub,    fun a b => a - b),
    (.mullo,  fun a b => a * b),
    (.mulhiI, fun a b => (a.signExtend 64 * b.signExtend 64).extractLsb' 32 32),
    (.mulhiN, fun a b => (a.setWidth 64 * b.setWidth 64).extractLsb' 32 32),
    (.minI,   fun a b => if a.slt b then a else b),
    (.maxI,   fun a b => if a.slt b then b else a),
    (.minN,   fun a b => if a < b then a else b),
    (.maxN,   fun a b => if a < b then b else a),
    (.and,    fun a b => a &&& b),
    (.or,     fun a b => a ||| b),
    (.xor,    fun a b => a ^^^ b),
    (.andn,   fun a b => a &&& ~~~b),
    (.shl,    fun a b => if b.toNat < 32 then a <<< b.toNat else 0),
    (.shr,    fun a b => if b.toNat < 32 then a >>> b.toNat else 0),
    (.sar,    fun a b => if b.toNat < 32 then a.sshiftRight b.toNat else if a.msb then BitVec.allOnes 32 else 0) ]

/-- R51: the rounding arithmetic shift on 33 bits. -/
def roundedShift (a b : Word) : Word :=
  if b.toNat % 32 = 0 then a
  else ((a.signExtend 33 + 1#33 <<< (b.toNat % 32 - 1)).sshiftRight (b.toNat % 32)).setWidth 32

/-- R104: the field that `BFE` extracts. -/
def extracted (a b : Word) : Word :=
  let p := (b.extractLsb' 0 5).toNat
  let n := (b.extractLsb' 8 6).toNat
  let f := a >>> p
  let low := if 32 ≤ n then f else f &&& (1#32 <<< n - 1)
  if b.getLsbD 15 && 1 ≤ n && n ≤ 31 && f.getLsbD (n - 1) then low ||| (BitVec.allOnes 32 <<< n) else low

/-- Halfword i of a register as a signed number (R48). -/
def sHalf (a : Word) (i : Nat) : Int := (a.extractLsb' (16 * i) 16).toInt

/-- Byte i of a register as a signed number (R48). -/
def sByte (a : Word) (i : Nat) : Int := (a.extractLsb' (8 * i) 8).toInt

/-- Table 5.13: the results of the immediate words that read `a`, with the constructor of each row. -/
def table513 : List ((FI → Instr) × (Word → BitVec 10 → Word)) :=
  [ (.addi, fun a i => a + i.signExtend 32),
    (.andi, fun a i => a &&& i.signExtend 32),
    (.ori,  fun a i => a ||| i.signExtend 32),
    (.xori, fun a i => a ^^^ i.signExtend 32),
    (.shli, fun a i => if i.toNat < 32 then a <<< i.toNat else 0),
    (.shri, fun a i => if i.toNat < 32 then a >>> i.toNat else 0) ]

/-- Table 5.17: the results of major 19, with the constructor of each row. -/
def table517 : List ((FU → Instr) × (Word → Word → Word)) :=
  [ (.sadd, fun a b => a + b),
    (.ssub, fun a b => a - b),
    (.smul, fun a b => a * b),
    (.sand, fun a b => a &&& b),
    (.sor,  fun a b => a ||| b),
    (.sxor, fun a b => a ^^^ b),
    (.sshl, fun a b => if b.toNat < 32 then a <<< b.toNat else 0),
    (.sshr, fun a b => if b.toNat < 32 then a >>> b.toNat else 0) ]

/-- Only threads and groups differ. -/
def OnlyThreadsGroups (s t : State) : Prop := t = { s with threads := t.threads, groups := t.groups }

/-- Every thread of the gang has only passed on. -/
def PassOn (s t : State) : Prop := EachThread s t fun a b => b = a.next

/-- `t` is a thread of group `gid` that stands on the lowest home lane among those of `ts` (R56, R117). -/
def IsLowest (s : State) (ts : List Thread) (gid : Nat) (t : Thread) : Prop :=
  t ∈ ts ∧ s.gidOf t = gid ∧ ∀ u ∈ ts, s.gidOf u = gid → t.lane ≤ u.lane

/-- Group `g` has become `h`, with `x` in s register `n`, whose poison mark is gone. -/
structure WroteS (n : Nat) (x : Word) (g h : Group) : Prop where
  value  : SMap.get 0 h.sregs n = x
  others : ∀ m, m ≠ n → SMap.get 0 h.sregs m = SMap.get 0 g.sregs m
  marks  : h.pois = g.pois.filter fun q => q.reg != n
  rest   : h = { g with sregs := h.sregs, pois := h.pois }

/-- Each group that has a thread among `ts` is related by `R`, with its lowest-lane thread there, to itself afterwards; every other
group is unchanged. -/
def EachGroup (s t : State) (ts : List Thread) (R : Group → Thread → Group → Prop) : Prop :=
  List.Forall₂ (fun g h => match s.lowest ts g.gid with | some u => R g u h | none => h = g) s.groups t.groups

/-- The lanes on which the threads of a list stand, as a mask (Tables 2.5, 5.15). -/
def lanes (ts : List Thread) : Word :=
  (BitVec.ofBoolListLE ((List.range 32).map fun j => ts.any fun t => t.lane == j)).setWidth 32

/-- The active threads of the gang as it issued: those that another word of the chain has parked on a page are among them (R76, R114, R332). -/
def asIssued (s : State) : List Thread := if s.issued = [] then s.gangThreads else { s with gang := s.issued }.gangThreads

/-- Halfword e of a thread on lane L after sliding: h = 2L + e + k, read from the gang's lane h div 2, or the fill (Table 5.14). -/
def slid (s : State) (a : BitVec 7) (t : Thread) (b : Word) (e : Nat) : BitVec 16 :=
  let h : Int := 2 * (t.lane : Int) + e + sHalf b 1
  if 0 ≤ h ∧ h ≤ 63 then
    match s.laneValue a (h.toNat / 2) with
    | some w => w.extractLsb' (16 * (h.toNat % 2)) 16
    | none => b.extractLsb' 0 16
  else b.extractLsb' 0 16

/-- What a thread's sources are read from: from before the chain now issuing, else as it all stands (R29). -/
def before (s : State) (t : Thread) : Before :=
  match t.old with
  | some b => b
  | none => { regs := t.regs, preds := t.preds, depth := t.depth, spill := t.spill, lt := s.lt (s.coreOf t.tid),
              fabst := match s.groupOf t with | some g => g.fabst | none => 0
              sregs := match s.groupOf t with | some g => g.sregs | none => []
              fmode := match s.groupOf t with | some g => g.fmode | none => 0 }

/-- The special registers of Table 2.5 that hold no more than 32 bits, by number, as a thread of the gang reads them. -/
def special32 (s : State) (t : Thread) : Nat → Word
  | 0 => BitVec.ofNat 32 (s.teamIndex t.tid * recTsize (s.recordOf t.tid) + t.lid)
  | 1 => BitVec.ofNat 32 t.lid
  | 2 => BitVec.ofNat 32 (t.lid % 32)
  | 3 => BitVec.ofNat 32 t.slot
  | 4 => BitVec.ofNat 32 (s.teamIndex t.tid)
  | 5 => BitVec.ofNat 32 (s.coreOf t.tid)
  | 6 => BitVec.ofNat 32 (s.coreOf t.tid / 4)
  | 7 => BitVec.ofNat 32 (s.coreOf t.tid / 96)
  | 10 => t.fstat.setWidth 32
  | 11 => (s.mode t).setWidth 32
  | 12 => (before s t).fabst
  | 13 => t.seamd (s.single t)
  | 14 => BitVec.ofNat 16 (before s t).spill ++ BitVec.ofNat 16 (before s t).depth
  | _ => lanes (asIssued s)

/-- Table 5.6: the float words of two sources, with the operation of each row under an `FMODE`. -/
def float2 : List ((F3 → Instr) × (BitVec 4 → Word → Word → Word × BitVec 6)) :=
  [ (.faddF32,    fadd32),
    (.fmulF32,    fmul32),
    (.fminF32,    fpick32 true),
    (.fmaxF32,    fpick32 false),
    (.faddF16x2,  faddPacked F16),
    (.fmulF16x2,  fmulPacked F16),
    (.faddBf16x2, faddPacked BF16),
    (.fmulBf16x2, fmulPacked BF16) ]

/-- Majors 6 to 8 of Table 5.5, with the operation of each row under an `FMODE`. -/
def float3 : List ((F4 → Instr) × (BitVec 4 → Word → Word → Word → Word × BitVec 6)) :=
  [ (.ffmaF32,    ffma32),
    (.ffmaF16x2,  ffmaPacked F16),
    (.ffmaBf16x2, ffmaPacked BF16) ]

/-- Table 5.9: the special functions, with the result and flags of each row under `FTZ`. -/
def table59 : List ((F2 → Instr) × (Bool → Word → Word × BitVec 6)) :=
  [ (.rcp, sfuRcp), (.rsq, sfuRsq), (.sqrt, sfuSqrt), (.exp2, sfuExp2), (.log2, sfuLog2), (.tanh, sfuTanh) ]

/-- The order of two sources of `SETP` by type code, none where a NaN leaves them unordered, and whether one is a signalling NaN. The
16-bit types compare the low halves (R39, R108). -/
def ordered (type : BitVec 3) (mode : BitVec 4) (x y : Word) : Option Ordering × Bool :=
  match type.toNat with
  | 0 => (some (compare x.toInt y.toInt), false)
  | 1 => (some (compare x.toNat y.toNat), false)
  | 2 => F32.order (mode.getLsbD 2) x.toNat y.toNat
  | 3 => F16.order false (x.toNat % 65536) (y.toNat % 65536)
  | 4 => BF16.order (mode.getLsbD 2) (x.toNat % 65536) (y.toNat % 65536)
  | _ => (some (compare (sHalf x 0) (sHalf y 0)), false)

/-- The comparisons that the `cond` codes give (R39). -/
def related (cond : BitVec 3) (o : Option Ordering) : Bool :=
  match cond.toNat with
  | 0 => o = some .eq
  | 1 => o ≠ some .eq
  | 2 => o = some .lt
  | 3 => o ≠ some .lt
  | 4 => o = some .lt ∨ o = some .eq
  | 5 => ¬ (o = some .lt ∨ o = some .eq)
  | 6 => o = none
  | _ => o ≠ none

/-! ### Real values (R52-R54, R58-R60) -/

/-- The sign bit of a code. -/
def negative (f : Fmt) (c : Nat) : Bool := c / 2 ^ (f.ebits + f.mbits) % 2 = 1

/-- The exponent field of a code. -/
def expField (f : Fmt) (c : Nat) : Nat := c / 2 ^ f.mbits % 2 ^ f.ebits

/-- The mantissa field of a code. -/
def manField (f : Fmt) (c : Nat) : Nat := c % 2 ^ f.mbits

/-- The code is a NaN (Table 3.1). -/
def isNan (f : Fmt) (c : Nat) : Prop :=
  expField f c = 2 ^ f.ebits - 1 ∧ if f.inf then manField f c ≠ 0 else manField f c = 2 ^ f.mbits - 1

/-- The code is a signalling NaN (R53). -/
def isSignalling (f : Fmt) (c : Nat) : Prop := f.inf = true ∧ isNan f c ∧ manField f c < 2 ^ (f.mbits - 1)

/-- The code is an infinity. -/
def isInf (f : Fmt) (c : Nat) : Prop := f.inf = true ∧ expField f c = 2 ^ f.ebits - 1 ∧ manField f c = 0

/-- The code is a subnormal number. -/
def isSubnormal (f : Fmt) (c : Nat) : Prop := expField f c = 0 ∧ manField f c ≠ 0

/-- The finite code `c` of a format has the value `x`: (−1)^S · 2^(E − bias) · 1.M, or with E = 0 (−1)^S · 2^(1 − bias) · 0.M (R52). -/
def IsValue (f : Fmt) (c : Nat) (x : ℝ) : Prop :=
  ¬ isNan f c ∧ ¬ isInf f c ∧
  x = (if negative f c then -1 else 1) *
    if expField f c = 0 then (manField f c : ℝ) * 2 ^ (1 - (f.bias : Int) - f.mbits)
    else ((2 ^ f.mbits + manField f c : Nat) : ℝ) * 2 ^ ((expField f c : Int) - f.bias - f.mbits)

/-- The value of an operand, a subnormal one read as a zero where it is flushed (R59). -/
def IsOperand (f : Fmt) (ftz : Bool) (c : Nat) (x : ℝ) : Prop :=
  (ftz = true ∧ isSubnormal f c → x = 0) ∧ (¬ (ftz = true ∧ isSubnormal f c) → IsValue f c x)

/-- The code of a zero of a sign. -/
def zeroOf (f : Fmt) (neg : Bool) : Nat := if neg then 2 ^ (f.ebits + f.mbits) else 0

/-- The code of the largest finite number of a sign. -/
def maxOf (f : Fmt) (neg : Bool) : Nat := zeroOf f neg + 2 ^ (f.ebits + f.mbits) - 1 - if f.inf then 2 ^ f.mbits else 1

/-- The code that follows it: an infinity, or the NaN of E4M3. -/
def infOf (f : Fmt) (neg : Bool) : Nat := maxOf f neg + 1

/-- The canonical NaN (Table 3.1). -/
def nanOf (f : Fmt) : Nat := infOf f false + if f.inf then 2 ^ (f.mbits - 1) else 0

/-- The largest finite magnitude. -/
def IsMax (f : Fmt) (x : ℝ) : Prop := IsValue f (maxOf f false) x

/-- The spacing of the largest numbers of a format. -/
def IsTopUnit (f : Fmt) (x : ℝ) : Prop := x = 2 ^ ((2 ^ f.ebits - (if f.inf then 2 else 1) : Nat) - (f.bias : Int) - f.mbits)

/-- The code `c` is the rounding of `v` to a finite number: to the nearest, an even code in a tie (0 RNE), toward zero (1), up (2), down (3);
a zero has the sign of `v`. -/
def IsRounding (f : Fmt) (rm : Nat) (v : ℝ) (c : Nat) : Prop :=
  c < 2 * 2 ^ (f.ebits + f.mbits) ∧ negative f c = decide (v < 0) ∧ ∃ w, IsValue f c w ∧
    ∀ c' w', IsValue f c' w' → match rm with
      | 0 => |v - w| ≤ |v - w'| ∧ (w' ≠ w → |v - w| = |v - w'| → c % 2 = 0)
      | 1 => |w| ≤ |v| ∧ (|w'| ≤ |v| → |w'| ≤ |w|)
      | 2 => v ≤ w ∧ (v ≤ w' → w ≤ w')
      | _ => w ≤ v ∧ (w' ≤ v → w' ≤ w)

/-- `v` rounds beyond the largest finite magnitude, in a format without a bound on its exponent (R58, Table 3.4). -/
def Overflows (f : Fmt) (rm : Nat) (v : ℝ) : Prop :=
  ∃ m u, IsMax f m ∧ IsTopUnit f u ∧ match rm with
    | 0 => if maxOf f false % 2 = 1 then m + u / 2 ≤ |v| else m + u / 2 < |v|
    | 1 => m + u ≤ |v|
    | 2 => if v < 0 then m + u ≤ |v| else m < v
    | _ => if v < 0 then m < -v else m + u ≤ v

/-- What an overflow gives: an infinity or the largest finite number, by mode and sign; E4M3 gives its NaN. -/
def overflowOf (f : Fmt) (rm : Nat) (neg : Bool) : Nat :=
  if f.inf = false then nanOf f
  else match rm with
    | 0 => infOf f neg
    | 1 => maxOf f neg
    | 2 => if neg then maxOf f neg else infOf f neg
    | _ => if neg then infOf f neg else maxOf f neg

/-- `v` is tiny: rounded without a bound on its exponent it stays below the smallest normal number (R58). -/
def IsTiny (f : Fmt) (rm : Nat) (v : ℝ) : Prop :=
  let least : ℝ := 2 ^ (1 - (f.bias : Int))
  let u : ℝ := 2 ^ (1 - (f.bias : Int) - f.mbits)
  |v| < least ∧ ¬ match rm with
    | 0 => least - u / 4 ≤ |v|
    | 1 => False
    | 2 => least - u / 2 < v
    | _ => least - u / 2 < -v

/-- A result and its flags are those of the exact value `v`, which is not 0, rounded once (R54, R58, R59). -/
def RoundsTo (f : Fmt) (rm : Nat) (ftz : Bool) (v : ℝ) (r : Nat × BitVec 6) : Prop :=
  (Overflows f rm v → r = (overflowOf f rm (decide (v < 0)), 0b010100)) ∧
  (¬ Overflows f rm v → ∃ c, IsRounding f rm v c ∧
    (ftz = true ∧ isSubnormal f c → r = (zeroOf f (decide (v < 0)), 0b011000)) ∧
    (¬ (ftz = true ∧ isSubnormal f c) → r.1 = c ∧
      (IsValue f c v → r.2 = 0) ∧
      (¬ IsValue f c v → (IsTiny f rm v → r.2 = 0b011000) ∧ (¬ IsTiny f rm v → r.2 = 0b010000))))

/-- The integer `n` is `v` rounded in a mode. -/
def RoundsToInt (rm : Nat) (v : ℝ) (n : Int) : Prop :=
  match rm with
  | 0 => |v - n| ≤ 1 / 2 ∧ (|v - n| = 1 / 2 → n % 2 = 0)
  | 1 => n = if 0 ≤ v then ⌊v⌋ else ⌈v⌉
  | 2 => n = ⌈v⌉
  | _ => n = ⌊v⌋

/-- The spacing of F32 values at `y` (R109). -/
def IsUlp (y u : ℝ) : Prop := ∃ k : Int, u = 2 ^ k ∧ -149 ≤ k ∧ |y| < 2 ^ (k + 24) ∧ (k = -149 ∨ 2 ^ (k + 23) ≤ |y|)

/-- The value of a dyadic number (n, q), n · 2^q. -/
def dy (v : Int × Int) : ℚ := v.1 * 2 ^ v.2

/-- The operations of a list that are a thread's own. -/
def opsOf (os : List Op) (a : Thread) : List Op := os.filter fun o => o.uid == a.uid

/-- Each operation of a list has been counted once for its thread, on the completion flag that it names, and on no other (R33). -/
def Counts (os : List Op) (a b : Thread) : Prop :=
  b.outs = a.outs + (opsOf os a).length ∧
  ∀ i, b.count i = a.count i + if i < 12 then ((opsOf os a).filter fun o => o.sel == i).length else 0

/-- A word has put one operation in flight for each thread of `us`, in their order: `mk` says what each is, `ev` is the event posted
for it. Nothing but the threads' positions, their marks of work in flight and the times they have read has changed otherwise. -/
structure Sends (s t : State) (us : List Thread) (mk : Thread → Op) (ev : Nat → Instr) : Prop where
  ops    : t.ops = s.ops ++ us.mapIdx fun i u => { mk u with id := s.nextId + i }
  agenda : t.agenda = s.agenda ++ (List.range us.length).map fun i => ev (s.nextId + i)
  nextId : t.nextId = s.nextId + us.length
  passed : EachThread s t fun a b => (∃ fl pv pp pf n q,
    b = { a.next with flags := fl, pendV := pv, pendP := pp, pendF := pf, outs := n, acqOut := q, got := b.got }) ∧ Counts (us.map mk) a b
  held   : ∀ u ∈ us, ∀ b ∈ t.threads, b.uid = u.uid → ∀ r ∈ (mk u).regs, r ∈ b.pendV
  rest   : t = { s with ops := t.ops, agenda := t.agenda, nextId := t.nextId, threads := t.threads }

/-- A thread stands at word 0 of packet `p`, out of its clause (R90). -/
def goTo (p : Word) (a : Thread) : Thread :=
  { a with pkt := p, word := 0, clause := none, fromPkt := a.pkt, fromWord := a.word }

/-- Every thread of the gang has an identity of its own: uids are given once (`State.nextId`), and a gang lists threads. -/
def Distinct (s : State) : Prop := (s.threads.map Thread.uid).Nodup

/-- The threads of a list stand in one window, whose registers from `v16` up are cleared for a callee: what a call makes of a thread
that goes to packet `p` (R90). -/
structure Called (W : Nat) (p : Word) (a b : Thread) : Prop where
  depth  : b.depth = a.depth + 1
  link   : SMap.get 0 b.links (a.depth + 1) = a.pkt + 1
  links  : ∀ d, d ≠ a.depth + 1 → SMap.get 0 b.links d = SMap.get 0 a.links d
  zero   : ∀ k, 16 ≤ k → k < 64 → reg b (physReg W (a.depth + 1) k) = 0
  others : ∀ n, (∀ k, 16 ≤ k → k < 64 → n ≠ physReg W (a.depth + 1) k) → reg b n = reg a n
  rest   : b = { goTo p a with depth := b.depth, links := b.links, regs := b.regs, pois := b.pois }

/-- What `RET` makes of a thread: back in the caller's window at the link, the seam entries of the left depth gone (R83, R90). -/
def returned (a : Thread) : Thread :=
  { goTo (SMap.get 0 a.links a.depth) a with
    depth := a.depth - 1, links := SMap.put 0 a.depth 0 a.links, seams := a.seams.filter fun e => e.depth != a.depth }

/-- Thread `a` of the gang has entered trap mode as `b` (R377) with the trap registers of Table 26.2: `mask` failed or executed, `gang` is
the trapping gang, (`p`, `w`) the resume point. The place of what R31, R137 and R259 want a record to give is the model's choice (assumption 58). -/
structure Trapped (s : State) (q : TrapReq) (mask gang : Word) (p : Word) (w : Nat) (a b : Thread) : Prop where
  rest   : b = { a with
    trap := b.trap, trapMode := true, trapAt := some (q.resume a), trapSeams := a.seams, clause := none, fromPkt := a.pkt, fromWord := a.word,
    pkt := 0, word := 0, resumed := false, entered := true, state := .runnable, wait := .none, due := none, wdDue := b.wdDue }
  due    : b.wdDue = true → a.wdDue = true
  tpc    : b.trapWord 0 = p
  word   : field (b.trapWord 1) 1 0 = w
  cause  : field (b.trapWord 1) 15 8 = q.cause % 256
  inside : (b.trapWord 1).getLsbD 16 = mask.getLsbD a.lane
  kind   : field (b.trapWord 1) 31 24 = q.kind % 256
  addr   : q.cause ≠ 1 → b.trapWord 3 ++ b.trapWord 2 = q.addr
  source : q.cause = 1 → b.trapWord 2 = a.fromPkt ∧ b.trapWord 3 = BitVec.ofNat 32 (a.fromWord % 4)
  tag    : b.trapWord 5 ++ b.trapWord 4 = q.tag
  mask   : b.trapWord 6 = mask
  place  : b.trapWord 7 = BitVec.ofNat 8 q.space ++ BitVec.ofNat 8 q.reg ++ q.syn
  tgang  : b.trapWord 8 = gang
  seamd  : b.trapWord 9 = a.seamd (s.single a)
  tseam  : match a.seams with
    | e :: _ => b.trapWord 10 = e.pkt ∧ b.trapWord 11 = BitVec.ofNat 16 e.tag ++ BitVec.ofNat 16 e.depth
    | [] => b.trapWord 10 = 0 ∧ b.trapWord 11 = 0
  depths : b.trapWord 12 = BitVec.ofNat 16 a.spill ++ BitVec.ofNat 16 a.depth
  tpred  : b.trapWord 13 = a.preds.setWidth 32
  tfstat : b.trapWord 14 = a.fstat.setWidth 32
  origin : q.cause ≠ 0x0B → b.trapWord 15 = q.origin
  group  : q.cause = 0x0B → ∀ g, s.groupOf a = some g → b.trapWord 15 = lanes (s.live g)
  tv     : ∀ i < 8, b.trapWord (16 + i) = reg a (physReg (s.win a.tid) a.depth (56 + i))

/-- The gang of `s` has taken a precise trap `q` on lanes `mask` (those of the gang where the cause checks none): every thread of the gang has
entered trap mode with its resume point, its groups note the trap, and no other thread, no byte of memory and no operation in flight has changed
(R29, R377). -/
def TookTrap (s t : State) (q : TrapReq) (mask : Word) (after : Bool) : Prop :=
  t = { s with threads := t.threads, groups := t.groups, trapped := s.trapped + 1 } ∧
    List.Forall₂ (fun g h => h = { g with wd := h.wd, progress := h.progress }) s.groups t.groups ∧
    EachThread s t fun a b =>
      Trapped s q mask (lanes s.gangThreads) (if after then a.next.pkt else a.pkt) (if after then a.next.word % 4 else a.word % 4) a b

/-- The instruction makes the gang take that trap. -/
def TakesTrap (i : Instr) (s : State) (q : TrapReq) (mask : Word) (after : Bool) : Prop :=
  ∃ t, exec i s = .next t ∧ TookTrap s t q mask after

/-- No thread of the gang is in trap mode, and the gang is not empty. -/
def OutsideTrap (s : State) : Prop := s.gangThreads ≠ [] ∧ ∀ t ∈ s.gangThreads, t.trapMode = false

/-- Threads to which a banked access of `size` bytes can be made: the address is aligned, the bytes at `locs` lie in the space's bound
and in no barrier slot (R122, R239). -/
structure Access (s : State) (space : Nat) (a : BitVec 7) (off size : Nat) (u : Thread) (locs : List Nat) : Prop where
  aligned : ((s.src u a).toNat + off) % size = 0
  bound   : s.bankLocs space u a off size = some locs
  free    : ∀ l ∈ locs, l / 16 ∉ s.slots

/-- The words of a register run of a thread from `v(k)` up. -/
def run (s : State) (t : Thread) (k n : Nat) : List Nat := (List.range n).map fun i => physReg (s.win t.tid) t.depth (k + i)

/-- Registers written by a width (R43, R131). -/
def regsOf (size : Nat) : Nat := if size ≤ 4 then 1 else size / 4

/-- The last value that a list of stores gives to a location, the later the higher lane; what was there where none does. -/
def lastOf (l : Nat) (old : Byte) (st : List (Nat × Byte)) : Byte := match (st.filter fun e => e.1 == l).getLast? with | some e => e.2 | none => old

/-- The words of the loads of majors 20 to 23, each with its space. -/
def bankLoadWords : List ((FM → Instr) × Nat) := [(.ldp, 5), (.ldsc, 2), (.ldcl, 3), (.ldds, 4)]

/-- The words of the stores of majors 20 to 23, each with its space. -/
def bankStoreWords : List ((FM → Instr) × Nat) := [(.stp, 5), (.stsc, 2), (.stcl, 3), (.stds, 4)]

/-- The words of the atomics of majors 21 to 23, each with its space. -/
def bankAtomicWords : List ((FA → Instr) × Nat) := [(.atsc, 2), (.atcl, 3), (.atds, 4)]

/-- The new value of an atomic of width n (Table 2.10). -/
def atomicTo (n aop : Nat) (old op : BitVec n) : BitVec n :=
  match aop with
  | 0 => old + op
  | 1 => if old.sle op then old else op
  | 2 => if old.sle op then op else old
  | 3 => if old ≤ op then old else op
  | 4 => if old ≤ op then op else old
  | 5 => old &&& op
  | 6 => old ||| op
  | 7 => old ^^^ op
  | _ => op

/-- The bytes an atomic of one thread puts at its locations. -/
def atomicStores (s : State) (f : FA) (locs : List Nat) (args : List Word) : List (Nat × Byte) :=
  let n := if f.wide then 8 else 4
  locs.zip (natLe n (atomicResult f.aop.toNat (8 * n) (leNat (locs.map s.byte)) args))

/-- Memory after a list of bytes has been put in it. -/
def put (s : State) (st : List (Nat × Byte)) : State := st.foldl (fun s e => s.setByte e.1 e.2) s

/-- One guarded thread `u` of the gang names the good slot at location `l` (R233). -/
structure OneSlot (s : State) (pred : BitVec 3) (sp : Bool) (a : BitVec 7) (u : Thread) (l : Nat) : Prop where
  alone   : s.executing pred = [u]
  aligned : (s.src u a).toNat % 16 = 0
  bound   : ∃ locs, s.bankLocs (if sp then 3 else 2) u a 0 16 = some (l :: locs)
  good    : s.synAt l = 0

/-- Slot `l` has become `x`, by an issue in which every thread has passed on; only the slot's 16 bytes, its marker, its granule's path tag and the release time
beside it differ, and threads that `R` relates. -/
structure SlotTo (s t : State) (l : Nat) (x : Slot) (R : Thread → Thread → Prop) : Prop where
  slot    : t.slotAt l = x
  bytes   : ∀ a, ¬ (l ≤ a ∧ a < l + 16) → t.byte a = s.byte a
  marker  : ∀ n, n ∈ t.slots ↔ if n = l / 16 then x.st ≠ 0 else n ∈ s.slots
  times   : ∀ n, n ≠ l / 16 → SMap.get (0, 0) t.bankRel n = SMap.get (0, 0) s.bankRel n
  threads : List.Forall₂ (fun a b => if a.uid ∈ s.gang then R a b else b = a) s.threads t.threads
  rest    : t = { s with mem := t.mem, gtag := t.gtag, slots := t.slots, threads := t.threads, bankRel := t.bankRel }

/-- One guarded thread `u` of the gang makes a global access at `loc` of its context's memory: the address is aligned and translates (with
`r` the state after the walk), no press region and no watch covers it, and it is not remote. -/
structure OneAccess (s r : State) (write : Bool) (pred : BitVec 3) (a : BitVec 7) (size : Nat) (u : Thread) (loc : Nat) : Prop where
  alone   : s.executing pred = [u]
  aligned : (s.srcPair u a).toNat % size = 0
  reached : s.reach write (fun t => s.pairNat t a) [u] = (r, [(u, loc)])
  place   : isRemote loc = false
  region  : s.regionOf (s.ctxOf u.tid) (s.srcPair u a).toNat = none
  unwatched : ∀ k, r.watchesOn (s.ctxOf u.tid) (s.srcPair u a).toNat size k = []
  distinct : (r.threads.map Thread.uid).Nodup
  newId   : ∀ o ∈ r.ops, o.id < r.nextId

/-- Operation `o` (number `id`) stands at its home, whose sector `h` is in state `st` with the requests `q` waiting; it is local, no
earlier request of its agent to the sector is refused, and its slice has room. -/
structure AtHome (s : State) (id : Nat) (o : Op) (h : HomeSec) : Prop where
  op    : s.op id = some o
  home  : s.homeOf o.sec = h
  place : isRemote o.loc = false
  first : ∀ x ∈ s.ops, x.refused = false
  room  : s.waitingAt (s.homeSlice o.ctx o.loc) < 512

/-- A stamp that the home slice of a sector can record under its base (R188). -/
def Fits (s : State) (sec v : Nat) : Prop := v < s.sliceBase sec + 2 ^ 20

/-- A stamp that a core's L1 can record under its base (R188). -/
def FitsL1 (s : State) (core v : Nat) : Prop := v < SMap.get 0 s.l1Base core + 2 ^ 20

/-- A stamp that the L1 of a core need not raise to its base (R176). -/
def AtL1 (s : State) (core v : Nat) : Prop := SMap.get 0 s.l1Base core ≤ v ∧ FitsL1 s core v

/-- The same for the home slice of a sector. -/
def AtBase (s : State) (sec v : Nat) : Prop := s.sliceBase sec ≤ v ∧ Fits s sec v

/-- The logical time that a thread's write carries: its core's LT, and the time that its last release had reached (R151, assumption 62). -/
def writeTime (s : State) (u : Thread) : Nat := max (s.lt (s.coreOf u.tid)) u.rel

/-- Every armed monitor on a sector is told of a write ordered there (R146). -/
def WakesMonitors (s t : State) (sec w : Nat) : Prop :=
  ∀ v ∈ s.threads, ∀ m, v.mon = some m → m.sec = sec → m.refused = false → m.fired = false → .mwaitWake v.uid w ∈ t.agenda

/-- One guarded thread `u` of the gang makes a fabric access of `size` bytes: the gang's threads and the operations in flight have numbers of
their own. -/
structure OneFabric (s : State) (pred : BitVec 3) (a : BitVec 7) (size : Nat) (u : Thread) : Prop where
  alone    : s.executing pred = [u]
  aligned  : (s.srcPair u a).toNat % size = 0
  distinct : Distinct s
  newId    : ∀ o ∈ s.ops, o.id < s.nextId

/-- One operation `o` of the gang's thread has been put in flight and `ev` posted for it; the gang has passed on, and the registers the
operation will write are held. Of the rest only the L1's fabric copies, the nodes asked and the time that the thread has read from fabric memory,
now at least `sys`, may differ. -/
structure SendsOff (s t : State) (o : Op) (ev : Instr) (sys : Nat := 0) : Prop where
  ops    : t.ops = s.ops ++ [o]
  agenda : t.agenda = s.agenda ++ [ev]
  nextId : t.nextId = s.nextId + 1
  passed : EachThread s t fun a b => (∃ fl pv n, b = { a.next with
    flags := fl, pendV := pv, outs := n, gotSys := if a.uid = o.uid then max a.gotSys sys else a.gotSys }) ∧ Counts [o] a b
  held   : ∀ b ∈ t.threads, b.uid = o.uid → ∀ r ∈ o.regs, r ∈ b.pendV
  rest   : t = { s with
    ops := t.ops, agenda := t.agenda, nextId := t.nextId, threads := t.threads, fab := t.fab, ctxs := t.ctxs, fwCtx := t.fwCtx }

/-- Every granule of the sector of an operation is good at its fabric target. -/
def GoodTarget (s : State) (o : Op) : Prop := ∀ g, (s.syns (o.loc / 64 * 64) 64).getD g 0 = 0

/-- The bytes outside the 64 bytes at `base` are as before. -/
def KeepsOutside (s t : State) (base n : Nat) : Prop := ∀ l, ¬ (base ≤ l ∧ l < base + n) → t.byte l = s.byte l

/-- Thread `uid` has lost operation `o`: each register of `o` reads as `x`, its counts have fallen; every other thread is unchanged. -/
def Completed (s t : State) (o : Op) (x : Word) : Prop :=
  List.Forall₂ (fun a b => if a.uid = o.uid then
      (∀ n ∈ o.regs, reg b n = x) ∧ (∀ n, n ∉ o.regs → reg b n = reg a n) ∧ b.outs = a.outs - 1 ∧
      (∀ i, b.count i = a.count i - if i = o.sel ∧ i < 12 then 1 else 0) ∧
      b.preds = a.preds ∧ b.fstat = a.fstat ∧ b.pkt = a.pkt ∧ b.word = a.word
    else b = a) s.threads t.threads

/-- `FABST` of every group with number `gid` is changed by `f`, of no other (R227). -/
def FabstOf (s t : State) (gid : Nat) (f : Word → Word) : Prop :=
  List.Forall₂ (fun g h => h.gid = g.gid ∧ h.fabst = if g.gid = gid then f g.fabst else g.fabst) s.groups t.groups

/-- A word has put one operation in flight for each thread of `us`, in their order, and posted nothing: `mk` says what each is. Nothing but the
threads' positions and their marks of work in flight has changed otherwise. -/
structure Holds (s t : State) (us : List Thread) (mk : Thread → Op) : Prop where
  ops    : t.ops = s.ops ++ us.mapIdx fun i u => { mk u with id := s.nextId + i }
  passed : EachThread s t fun a b => (∃ fl pv n, b = { a.next with flags := fl, pendV := pv, outs := n }) ∧ Counts (us.map mk) a b
  held   : ∀ u ∈ us, ∀ b ∈ t.threads, b.uid = u.uid → ∀ r ∈ (mk u).regs, r ∈ b.pendV
  rest   : t = { s with ops := t.ops, nextId := s.nextId + us.length, threads := t.threads }

/-- The gang waits, each thread at its word, and nothing else has changed. -/
def Waits (i : Instr) (s : State) (w : Wait) : Prop := MovesThreads i s fun a => { a with state := .waiting, wait := w }

/-- The gang waits at a release for what that orders, which is what was issued before it first did (R149). -/
def WaitsOrder (i : Instr) (s : State) : Prop :=
  MovesThreads i s fun a => { a with state := .waiting, wait := .fence, cut := some (a.cut.getD s.nextId) }

/-- Nothing is outstanding that a release of some threads of one core at a scope waits for (R147, R149): none of their accesses, and from
`.CLUSTER` on no global store or atomic of the core. -/
def Quiet (s : State) (own : List Nat) (core scope : Nat) : Prop :=
  ∀ o ∈ s.ops, o.uid ∉ own ∧ (2 ≤ scope → o.agent = core → ¬ (o.space = 0 ∧ (o.kind = .store ∨ o.kind = .atomic ∨ o.kind = .pubf)))

/-- What an issue of `PUBF` finds: one thread `u` publishes, whose group has nothing outstanding that a release at `.DEVICE` waits for; `r` is the
state after that release and the walk to the record at `loc`. -/
structure OnePublication (f : FPubf) (s r : State) (u : Thread) (loc : Nat) : Prop where
  alone    : s.executing f.pred = [u]
  aligned  : (s.srcPair u f.a).toNat % 64 = 0
  standing : ∀ g ∈ s.fenceGroups f.pred, ∀ v ∈ s.members g, v.parkedAccess = false
  quiet    : ∀ g ∈ s.fenceGroups f.pred, Quiet s (uids (s.members g)) (s.coreOf g.tid) 3
  reached  : (s.passFence f.pred true false 3).reach false (fun t => s.pairNat t f.a) [u] = (r, [(u, loc)])

/-- A unit of 16 bytes is one of those that some threads access. -/
def touched (us : List Thread) (locs : Thread → List Nat) (n : Nat) : Prop := ∃ u ∈ us, ∃ l ∈ locs u, l / 16 = n

/-- The gang of a copy word is the threads of one group, the first of them `u`, with identities of their own; `o` is its descriptor's offset in its
team's allocation and `b` its slot's, or none: they pass the checks of R249, and the engine has room. -/
structure CopyIssue (s : State) (d bar : BitVec 7) (u : Thread) (m : Team) (o b : Nat) : Prop where
  first    : ∃ r, s.gangThreads = u :: r
  oneGroup : ∀ v ∈ s.gangThreads, s.gidOf v = s.gidOf u
  team     : s.team u.tid = some m
  desc     : (s.src u d).toNat = o ∧ o % 64 = 0 ∧ o + 64 ≤ m.scrSize
  slot     : (s.src u bar).toNat = b ∧ (b = noSlot ∨ b % 16 = 0 ∧ b + 16 ≤ m.scrSize)
  free     : ∀ i < 4, scratchLoc m.core (m.scrBase + (o + 16 * i)) / 16 ∉ s.slots
  good     : s.synAt (scratchLoc m.core (m.scrBase + o)) = 0 ∧ s.synAt (scratchLoc m.core (m.scrBase + (o + 32))) = 0
  room     : s.engineItems (coreCluster m.core) < 64
  settled  : s.itemsOf (s.gidOf u) = []
  core     : s.coreOf u.tid = m.core

/-- The collective fields of a posted item join what its engine holds under its key of a collective that is not complete (R251). -/
def Joins (s : State) (x : CopyItem) : Prop :=
  x.sidx < x.nslice ∧ x.nslice ≤ 32 ∧ (x.bar = noSlot → x.nslice = 1) ∧
    (x.bar ≠ noSlot → ∀ y ∈ openItems (s.heldItems x.tid x.bar), y.nslice = x.nslice ∧ y.sidx ≠ x.sidx)

/-- The item that a copy word posts: its descriptor copied, its origin, nothing landed. -/
def Posted (s : State) (u : Thread) (m : Team) (fn tok o b : Nat) (x : CopyItem) : Prop :=
  x.fn = fn ∧ x.desc = s.bytes (scratchLoc m.core (m.scrBase + o)) 64 ∧ x.descOff = o ∧ x.bar = b ∧ x.tok = tok ∧ x.tid = u.tid ∧ x.gid = s.gidOf u ∧
    x.slot = u.slot ∧ x.pkt = u.pkt ∧ x.cluster = m.core / 4 ∧ x.ctx = m.ctx ∧ x.accepted = false ∧ x.landed = 0 ∧ x.acked = 0 ∧ x.total = x.bytes

/-- An accepted item that is ready to go on, nothing of its source read ahead. -/
structure EngineItem (s : State) (id : Nat) (x : CopyItem) : Prop where
  item  : s.items.find? (fun y => y.id == id && y.accepted) = some x
  only  : ∀ y ∈ s.items, y.id = id → y = x
  ready : x.got = [] ∧ x.wake ≤ s.tick ∧ x.page = none ∧ x.paused = false ∧ x.late = false

/-- Such an item between scratch and cluster memory whose next granule lands at `loc`, in no barrier slot. -/
structure LocalGranule (s : State) (id : Nat) (x : CopyItem) (loc : Nat) : Prop extends EngineItem s id x where
  more  : x.landed < x.count
  kind  : 2 ≤ x.ssp ∧ x.ssp ≤ 3 ∧ 2 ≤ x.dsp ∧ x.dsp ≤ 3
  lands : s.itemLoc x x.dsp (x.dest x.landed).1 = loc
  bound : loc % 32 = 0 ∧ isRemote loc = false
  free  : loc / 16 ∉ s.slots ∧ loc / 16 + 1 ∉ s.slots

/-- The source address of the granule of a plain copy that lands at destination granule n (R250). -/
def sourceOf (x : CopyItem) (n : Nat) : Nat :=
  let d := x.dest n
  x.src + d.2.1 * x.spp + d.2.2.1 * x.spr + 32 * d.2.2.2

/-- The token of an item has become what `f` makes of it, and no other s register has changed. -/
def TokenTo (s t : State) (x : CopyItem) (f : Word → Word) : Prop :=
  List.Forall₂ (fun g h => ∀ n, SMap.get 0 h.sregs n = if g.gid = x.gid ∧ n = x.tok then f (SMap.get 0 g.sregs n) else SMap.get 0 g.sregs n)
    s.groups t.groups

/-- An item goes on to its next granule, or is over with its last. -/
def GoesOn (s t : State) (id : Nat) (x : CopyItem) : Prop :=
  (x.landed + 1 < x.count → ∃ y ∈ t.items, y.id = id ∧ y.landed = x.landed + 1 ∧ y.acked = x.acked + 1) ∧
  (x.landed + 1 = x.count → t.items = s.items.filter fun y => y.id != id)

/-- An item has failed with a kind of Table 14.5 (R256): it is over, its token is 0x80000000, its slot counts the rest as landed and is marked, and
one record with its origin, descriptor, `SIDX`, prefix and address is written. -/
structure ItemFails (s t : State) (x : CopyItem) (kind addr : Nat) (more : List Byte) : Prop where
  gone   : t.items = s.items.filter fun y => y.id != x.id
  token  : x.fn ≠ 3 → TokenTo s t x fun _ => 0x80000000
  record : ∃ r : State, t.mem = (r.record x.ctx { FRec.blank 1 kind with
      team := s.teamIndex x.tid, addr := addr, pc := x.pkt.toNat, slot := x.slot, die := clusterDie x.cluster, unit := x.cluster,
      detail := natLe 4 x.descOff ++ natLe 1 x.sidx ++ natLe 4 (32 * x.landed) ++ more }).mem ∧
    r = { s with mem := r.mem, gtag := r.gtag, slots := r.slots, groups := r.groups, threads := r.threads, agenda := r.agenda, items := r.items,
                 ops := r.ops, ots := r.ots } ∧
    (x.counted = false → r.mem = s.mem) ∧
    (x.counted = true → let l := s.itemSlot x; let y := s.slotAt l
      l % 16 = 0 → s.synAt l = 0 → y.st = 1 → 1 ≤ y.inflight → y.landed + x.slotBytes < 2 ^ 28 → y.pending ≠ 0 →
        (∀ a, ¬ (l ≤ a ∧ a < l + 16) → r.byte a = s.byte a) ∧
        r.slotAt l = { y with fault := true, inflight := y.inflight - 1, landed := y.landed + (x.slotBytes - 32 * x.acked) })

/-- The code of an exponent as bits, most significant first, by a table of lengths and codes (R281). -/
def codeBits (codes : List (Nat × Nat × Nat)) (x : Nat) : List Bool :=
  match codes.find? fun e => e.2.2 == x with
  | some e => (List.range e.1).map fun i => e.2.1.testBit (e.1 - 1 - i)
  | none => []

/-- An element as its stream bits: sign, the three mantissa bits, the code of its exponent (R281). -/
def elementBits (codes : List (Nat × Nat × Nat)) (e : Byte) : List Bool :=
  [e.getLsbD 7, e.getLsbD 2, e.getLsbD 1, e.getLsbD 0] ++ codeBits codes (e.toNat / 8 % 16)

/-- A request of the matrix engine as `MMA` posts it (R268). -/
def Reserved (s : State) (u : Thread) (f : FMma) (m : MReq) : Prop :=
  m.id = s.nextId ∧ m.tid = u.tid ∧ m.gid = s.gidOf u ∧ m.ctx = s.ctxOf u.tid ∧ m.slot = u.slot ∧ m.pkt = u.pkt ∧ m.cluster = s.coreOf u.tid / 4 ∧
    m.acc = f.acc.toNat ∧ m.shape = f.shape.toNat ∧ m.rep = f.rep.toNat ∧ m.next = 0 ∧ m.owners = [] ∧
    m.fmt = recSlot (s.recordOf u.tid) f.slot.toNat ∧ m.desc = (List.range 6).map fun i => s.sreg u (f.desc.toNat + i)

/-- A register operand of 16 rows of 128 bytes (R266): word j of the block of the thread on lane L is word 16 · (L mod 2) + j of row L div 2. -/
def OperandOf (s : State) (base : Nat) (ws : List Word) : Prop :=
  ws.length = 512 ∧ ∀ v ∈ s.gangThreads, ∀ j < 16, ws.getD (32 * (v.lane / 2) + 16 * (v.lane % 2) + j) 0 = v.v (s.win v.tid) (base + j)

/-- The threads of a list hold the slot numbers of a mask (R230). -/
def slotMask (s : State) (tid : Nat) : Word :=
  (BitVec.ofBoolListLE ((List.range 32).map fun j => s.groups.any fun g => g.tid == tid && g.slot == j)).setWidth 32

/-- The items of `GINFO` (Table 11.7). -/
def table117 (s : State) (t : Thread) (x : Team) : Nat → Word
  | 0 => BitVec.ofNat 32 (x.core % 4 * 4194304 + x.scrBase)
  | 1 => BitVec.ofNat 32 x.scrSize
  | 2 => lanes (s.threads.filter fun u => u.tid == t.tid && u.slot == t.slot && u.state != .exited)
  | 3 => slotMask s t.tid
  | 4 => (if recPp (s.recordOf t.tid) then 1#1 else 0#1) ++ BitVec.ofNat 31 (recFt (s.recordOf t.tid))
  | 5 => BitVec.ofNat 32 x.dieSpace
  | _ => 0

/-- One thread `u` issues a sequence request whose descriptor's page translates to `loc`, with `r` the state after the walk. -/
structure OneRequest (s r : State) (ts : List Thread) (seq : BitVec 5) (u : Thread) (loc : Nat) : Prop where
  alone    : ts = [u]
  aligned  : (s.seqPair u seq).toNat % 256 = 0
  reached  : s.reach false (fun t => (s.seqPair t seq).toNat) [u] = (r, [(u, loc)])
  standing : ∀ a ∈ r.threads, a.uid ∈ r.gang → a.onPage = false

/-- A sequence request `o` stands at its home, where no other waits on the sequence and no request is refused; its descriptor reads as `d`. -/
structure AtSequence (s : State) (id : Nat) (o : Op) (s1 : State) (d : Desc) : Prop where
  op     : s.op id = some o ∧ o.done = false
  first  : ∀ x ∈ s.ops, x.again = none
  alone  : ∀ k ∈ s.seqWait ++ s.stall, ∀ x, s.op k = some x → x.loc ≠ o.loc
  reads  : s.sqDesc o.sqAt = .ok (s1, d)

/-- What a publish finds at its home that passes its checks, in their order (Table 17.4): the state `t` and descriptor `e` with its base brought to date
and room for the publish LT, and the record `r` of its layer there. -/
def PublishPasses (s : State) (o : Op) (d : Desc) (t : State) (e : Desc) (r : Front) : Prop :=
  let p := (o.args.headD 0).toNat
  let w := o.args.getD 1 0
  ∃ s2 s3 s4 s5 s6 d1 r0, s.sqHems o.sqAt d 0 0 = .ok s2 ∧ s2.sqFront o.sqAt d (lwLayer w) = .ok (s3, r0) ∧ lwGen w = d.gen % 65536 ∧
    lwCount w ≤ 64 ∧ p + lwCount w ≤ d.head ∧ s3.sqWell o.sqAt d = .ok s4 ∧ s4.sqRebase o.sqAt d = .ok (s5, d1) ∧
    s5.sqRoom o.sqAt d1 o.lt = .ok (s6, e) ∧ s6.sqFront o.sqAt e (lwLayer w) = .ok (t, r)

/-- The home has answered request `id` with registers `regs` and outcome `okay`: they wait for the reply. -/
def Answered (t : State) (id : Nat) (o : Op) (regs : List Word) (okay : Bool) : Prop :=
  (∃ x, t.op id = some x ∧ x.args = regs ∧ x.rtype = okay.toNat ∧ x.done = true ∧ x.regs = o.regs ∧ x.preg = o.preg) ∧ .sequenceReply id ∈ t.agenda

/-- Registers `rs` hold the words `ws` in thread `b`, and every other register is as in `a`. -/
def HoldsWords (rs : List Nat) (ws : List Word) (a b : Thread) : Prop :=
  (∀ (i n : Nat) (x : Word), rs[i]? = some n → ws[i]? = some x → reg b n = x) ∧ ∀ n, n ∉ rs → reg b n = reg a n

/-- The operation by which a system, page or launch instruction of thread `u` answers the words `ws` in the registers from `v(dst)` up. -/
def answer (s : State) (u : Thread) (fb : Bool) (dst : BitVec 6) (ws : List Word) : Op :=
  { s.opOf u .sysw (u.sel fb) with regs := run s u dst.toNat ws.length, size := 4 * ws.length, fill := bytesOf ws }

/-- No thread of the gang waits on a page. -/
def Standing (s : State) : Prop := ∀ a ∈ s.threads, a.uid ∈ s.gang → a.onPage = false

/-- A queue is open to the appends of a context and has room (R315). -/
def OpenTo (x : Queue) (c : Nat) : Prop := x.ctx = some c ∧ (x.state = .idle ∨ x.state = .active ∨ x.state = .blocked)

/-- `n` bytes at a location touch none of the queue pages (R317). -/
def OutsideQueues (s : State) (loc n : Nat) : Prop := loc + n ≤ s.queuePages ∨ s.queuePages + 32768 ≤ loc

/-- `l` is the one launch with its number in the package, and the head of its queue, which lets launches go on (R320, R321). -/
structure HeadOf (s : State) (l : Launch) (st : LState) : Prop where
  launch : s.launch l.lid = some l
  only   : ∀ x ∈ s.launches, x.lid = l.lid → x = l
  head   : s.head l.queue = some l
  state  : l.state = st
  flows  : (s.queue l.queue).flows = true
  named  : l.queue < 1024

/-- The system registers that may be read in trap mode, those that may be read in any mode, and those for firmware mode (Table 26.4). -/
def readable (trap firmware : Bool) (n : Nat) : Prop :=
  n = 0x20 ∨ n ≤ 0x17 ∧ (trap = true ∨ firmware = true) ∨
    ((0x100 ≤ n ∧ n ≤ 0x104) ∨ (0x108 ≤ n ∧ n ≤ 0x10C) ∨ n = 0x110 ∨ n = 0x111 ∨ (0x120 ≤ n ∧ n ≤ 0x128) ∨ (0x200 ≤ n ∧ n ≤ 0x2FF)) ∧ firmware = true

/-- The same for writes. -/
def writable (trap firmware : Bool) (n : Nat) : Prop := n = 0x129 ∧ firmware = true ∨ n ≠ 0x104 ∧ n ≠ 0x10C ∧ readable trap firmware n

/-- A number that Table 26.4 lists for reading. -/
def listedRead (n : Nat) : Prop := readable true true n

/-- A number that Table 26.4 lists for writing. -/
def listedWrite (n : Nat) : Prop := writable true true n

/-- What a system register reads as (Table 26.4, R383). -/
def systemValue (s : State) (t : Thread) (n : Nat) : Word :=
  if n ≤ 0x17 then t.trapWord n
  else if n = 0x104 then SMap.get 0 s.pageCmd 4
  else if n = 0x10C then SMap.get 0 s.ctxCmd 4
  else if n < 0x110 then 0
  else if n = 0x110 then BitVec.ofNat 32 s.window
  else if n = 0x111 then BitVec.ofNat 32 s.retrain
  else if n = 0x120 then s.fabSel.setWidth 32
  else if n ≤ 0x128 then s.selected.extractLsb' (32 * (n - 0x121)) 32
  else BitVec.ofNat 32 (SMap.get 0 s.contrib (n - 0x200))

/-- The step in which a write of a system register takes effect. -/
def systemStep (n : Nat) (id : Nat) : Instr :=
  if n = 0x20 then .abortWrite id else if n = 0x110 then .windowLengthWrite id else if n = 0x111 then .retrainLimitWrite id
  else if n = 0x129 then .fabricTableInstall id else if 0x200 ≤ n then .dieScratchpadContribWrite id else .systemRegisterWrite id

/-- Write `o`, number `id`, of value `v` to system register `n` is in flight. -/
structure SystemWrite (s : State) (id : Nat) (o : Op) (n : Nat) (v : Word) : Prop where
  op   : s.op id = some o
  kind : o.kind = .sysw
  num  : o.addr = BitVec.ofNat 64 n ∧ n < 1024
  val  : o.args = [v]
  none : o.regs = [] ∧ o.preg = none

/-- The write is over, and besides its count on its flag only what `f` does to the state has changed. -/
def WriteOver (s t : State) (id : Nat) (o : Op) (f : State → State) : Prop :=
  t.op id = none ∧ ∃ ts, t = f { s with ops := s.ops.filter (fun x => x.id != id), threads := ts } ∧
    List.Forall₂ (fun a b => b = if a.uid = o.uid then a.finish o.sel else a) s.threads ts

/-- What a context command that is answered leaves: the answer goes back on the path the command came by (R343). -/
def replied (c : PortCmd) (okay : Bool) (value : BitVec 64) (s : State) : State :=
  match c.host with
  | some h => { s with outbox := s.outbox ++ [.answer (some h) okay value] }
  | none => { s with ctxCmd := SMap.put 0 4 (if okay then 1 else 2) s.ctxCmd }

/-- The same for a page command (R336). -/
def repliedPage (c : PortCmd) (okay : Bool) (s : State) : State :=
  match c.host with
  | some h => { s with outbox := s.outbox ++ [.answer (some h) okay 0] }
  | none => { s with pageCmd := SMap.put 0 4 (if okay then 1 else 2) s.pageCmd }

/-- A context command has been answered, and the port is idle. -/
def told (c : PortCmd) (okay : Bool) (t : State) : Prop :=
  t.cmds = [] ∧ t.cmdsAt = [] ∧ match c.host with
    | some h => .answer (some h) okay 0 ∈ t.outbox
    | none => SMap.get 0 t.ctxCmd 4 = if okay then 1 else 2

/-- A context command that may be performed for context `x` reaches an idle port: no reserved bit, from firmware or from the owning host. -/
structure Commands (s : State) (c : PortCmd) (x : Ctx) : Prop where
  idle  : s.cmds = [] ∧ s.cmdsAt = []
  clean : field c.w 25 16 = 0 ∧ field c.w 9 4 = 0
  ctx   : s.ctxs.find? (fun y => y.num == field c.w 15 10) = some x
  sender : c.host = none ∨ c.host = some x.host

/-- The same for a page command (Table 22.4). -/
structure PageCommands (s : State) (c : PortCmd) (x : Ctx) : Prop where
  idle  : s.pcmds = []
  clean : field c.w 39 32 = 0 ∧ field c.w 20 16 = 0 ∧ field c.w 9 2 = 0
  ctx   : s.ctxs.find? (fun y => y.num == field c.w 15 10) = some x
  sender : c.host = none ∨ c.host = some x.host

/-- One context is changed by `f`. -/
def changed (s : State) (n : Nat) (f : Ctx → Ctx) : State := { s with ctxs := s.ctxs.map fun y => if y.num = n then f y else y }

/-- What a port does with a command, which stands at its head meanwhile. -/
def serving (s : State) (k : PortCmd) (f : State → State) : State :=
  { f { s with cmds := [k], cmdsAt := [s.tick] } with cmds := [], cmdsAt := [] }

/-- The ranges of a context record's fields and its reserved bits (Table 23.1). -/
def goodRecord (b : List Byte) : Prop :=
  b.length = 1024 ∧ numAt b 0 8 % 65536 = 0 ∧ numAt b 0 8 < hbmBytes ∧ (8 ≤ numAt b 40 2 ∧ numAt b 40 2 ≤ 256) ∧
  (16 ≤ numAt b 42 2 ∧ numAt b 42 2 ≤ 4096) ∧ (4 ≤ numAt b 44 4 ∧ numAt b 44 4 ≤ 65000) ∧ numAt b 48 8 % 256 = 0 ∧ numAt b 56 8 % 65536 = 0 ∧
  (1 ≤ numAt b 64 4 ∧ numAt b 64 4 ≤ 2 ^ 20) ∧ numAt b 68 4 = 0 ∧ numAt b 72 8 % 64 = 0 ∧ (4 ≤ numAt b 80 1 ∧ numAt b 80 1 ≤ 16) ∧ numAt b 81 1 < 4 ∧
  numAt b 82 1 < 16 ∧ numAt b 83 45 = 0 ∧ numAt b 640 384 = 0 ∧ ∀ i < 16, numAt b (128 + 32 * i + 16) 6 = 0

/-- A 32-byte region entry with V = 1 that passes the checks on itself: no reserved bit, a length (R191). -/
def goodRegion (e : List Byte) : Prop := numAt e 0 2 = 1 ∧ numAt e 12 4 = 0 ∧ numAt e 22 10 = 0 ∧ numAt e 8 4 ≠ 0

/-- Two region entries cover a 64 KiB unit in common. -/
def overlapping (b₁ n₁ b₂ n₂ : Nat) : Prop := b₁ < b₂ + n₂ ∧ b₂ < b₁ + n₁

/-- What the debug port answers (R386). -/
def debugAnswer (s : State) (status : Nat) (data : List Byte) (t : State) : State :=
  { t with dbgOut := t.dbgOut ++ [{ data := padTo 32 data, status := status, tick := s.tick }] }

/-- A debug command with the right of its context and no reserved value in it (R386). -/
def Entitled (s : State) (c : DbgCmd) : Prop :=
  c.rsvd = false ∧ ∃ h x, c.host = some h ∧ s.ctxs.find? (fun y => y.num == c.ctx) = some x ∧ x.dbg = some h

/-- A debug command with the authority over the package, and no reserved value in it (R386). -/
def Empowered (s : State) (c : DbgCmd) : Prop :=
  c.rsvd = false ∧ ∀ h, c.host = some h → ∀ x ∈ s.ctxs, x.dbg = some h

/-- Group `g` is selected by a debug command (Table 27.5). -/
def selected (s : State) (c : DbgCmd) (g : Group) : Prop :=
  s.ctxOf g.tid = c.ctx ∧ (c.team = 0xFFFFFFFF#32 ∨ s.teamIndex g.tid = c.team.toNat ∧ g.slot = c.slot)

/-- The one group that a debug command names is `g`. -/
def Names (s : State) (c : DbgCmd) (g : Group) : Prop :=
  c.team ≠ 0xFFFFFFFF#32 ∧ c.slot < 32 ∧ selected s c g ∧ ∃ a b, s.groups = a ++ g :: b ∧ ∀ y ∈ a, ¬ selected s c y

/-- Scheduler `key` issues for path `p` next: the package has power, its start is done and no peg has stopped it, nothing falls due, and the
scheduler's work comes before the events that have been posted, as it does before a landing (R233). `s'` is the state in which it does. -/
structure Issues (s s' : State) (key : Nat) (p : Path) (run : Nat) : Prop where
  power   : s.power = true ∧ s.startStop = none ∧ s.stopped = false ∧ s.dues = []
  turn    : s.agenda = [] ∧ s' = s ∨ s.agenda ≠ [] ∧ s.workNow = false ∧ s' = { s with freeCtr := s.freeCtr + 1, deferred := s.deferred + 1 } ∨
    s.workNow = true ∧ s' = s ∧ ∃ i is k, s.agenda = i :: is ∧ s.firstWork i is = .granuleLand k
  chosen  : s'.issueKey = some key
  path    : s'.choose key = some (p, run)
  granted : (false, key) ∉ s'.withheld

/-- The gang of state `g`, with first thread `u`, stands at word `k` of a packet, in its clause; the four bytes there, which `r` is the state after
translating, are those of `w`. -/
structure Stands (g r : State) (u : Thread) (k : Nat) (w : Word) : Prop where
  first : ∃ us, g.gangThreads = u :: us
  word  : u.word = k ∧ 1 ≤ k ∧ k ≤ 2
  plain : ∀ t ∈ g.gangThreads, t.again = []
  bytes : ∃ loc e l, g.translate (g.ctxOf u.tid) (some (g.coreOf u.tid)) (coreDie (g.coreOf u.tid))
    ((g.codeBase u + 12 * u.pkt.toNat + 4 * k) % 2 ^ 64) false = (r, .ok loc e l) ∧ r.fresh (g.ctxOf u.tid) loc 4 = wordBytes w

/-- Nothing stops the gang of `r` before instruction `i`, the word at `k`, reads its sources, in the order of R376: no breakpoint, no watchdog, no owed
fault, no cause that R376 puts before issue, no scoreboard. -/
structure Unstopped (r : State) (u : Thread) (k : Nat) (i : Instr) : Prop where
  breaks : r.breakAt u k = false
  watchdog : ∀ t ∈ r.gangThreads, t.wdDue = false
  owed   : ∀ t ∈ r.gangThreads, t.owed = []
  slot   : r.badSlotRead i = false
  mode   : r.unprivileged i = false
  whole  : (uses i).pipe = 4 → r.whole = true
  stall  : r.stallOf i = none
  flags  : ∀ t ∈ r.gangThreads, flagFull [i] t = false
  matrix : r.matrixCause i = none
  due    : ∀ t ∈ r.gangThreads, t.due = none

/-- Nothing keeps instruction `i` from issuing: it reads no poisoned source either. -/
structure Unhindered (r : State) (u : Thread) (k : Nat) (i : Instr) : Prop extends Unstopped r u k i where
  poison : r.poisonHit i = none

/-- As `Stands`, for a chain of words from word `k` on, all but the last with bit 31 set: each is fetched in the state that the one before it leaves. -/
structure StandsChain (g r : State) (u : Thread) (k : Nat) (ws : List Word) : Prop where
  first : ∃ us, g.gangThreads = u :: us
  word  : u.word = k ∧ 1 ≤ k ∧ 2 ≤ ws.length ∧ k + ws.length ≤ 3
  plain : ∀ t ∈ g.gangThreads, t.again = [] ∧ t.due = none
  chain : ∀ (j : Nat) (w : Word), ws[j]? = some w → field w 30 26 ≠ 0 ∧ (w.getLsbD 31 = true ↔ j + 1 < ws.length)
  bytes : ∃ z : Nat → State, z 0 = g ∧ z ws.length = r ∧ ∀ (j : Nat) (w : Word), ws[j]? = some w → ∃ loc e l,
    (z j).translate (g.ctxOf u.tid) (some (g.coreOf u.tid)) (coreDie (g.coreOf u.tid)) ((g.codeBase u + 12 * u.pkt.toNat + 4 * (k + j)) % 2 ^ 64) false =
      (z (j + 1), .ok loc e l) ∧ (z (j + 1)).fresh (g.ctxOf u.tid) loc 4 = wordBytes w ∧
    (z (j + 1)).teams = g.teams ∧ (z (j + 1)).launches = g.launches ∧ (z (j + 1)).ctxs = g.ctxs ∧ (z (j + 1)).fwCtx = g.fwCtx

/-- Nothing stops the gang of `r` before a chain of instructions from word `k` on, `ws` decoded, in the order of R376. -/
structure ChainUnhindered (r : State) (u : Thread) (k : Nat) (ws : List Word) (is : List Instr) : Prop where
  breaks : ∀ j < ws.length, r.breakAt u (k + j) = false
  watchdog : ∀ t ∈ r.gangThreads, t.wdDue = false
  owed   : ∀ t ∈ r.gangThreads, t.owed = []
  fate   : r.chainFate k ws = none
  flags  : ∀ t ∈ r.gangThreads, flagFull is t = false
  each   : ∀ j i, is[j]? = some i → let z := r.forWord j
    z.unprivileged i = false ∧ ((uses i).pipe = 4 → z.whole = true) ∧ z.stallOf i = none ∧ z.matrixCause i = none ∧ z.poisonHit i = none

/-- The pipe of a word by its major (Table 2.8). -/
def pipeOf (m : Nat) : Nat :=
  if m ∈ [1, 2, 29] then 0 else if m = 14 then 2 else if m = 27 then 4 else if m ∈ [20, 21, 22, 23, 24, 25, 26, 28, 30, 31] then 3 else 1

end Sys2Proof.Says
end

