-- ==== Sys2Proof/Certificates/Slice0/Obligations.lean ====
section
/-! DEFINITION. The statements for the provers. -/

open Sys2Proof Sys2Proof.Machine Sys2Proof.Says

/-! ### Operands and the register window -/

/-- R36, Table 2.4: what a 7-bit source field reads. Outside a chain (no value kept from before it) these are the registers as they
stand: a v register of the thread's own window, or an s register of its own group. -/
def Claims.SourceFieldReads : Prop :=
  ∀ (s : State) (t : Thread) (g : Group) (a : BitVec 7), t.old = none → s.groupOf t = some g →
    (a.toNat < 64 → s.src t a = SMap.get 0 t.regs ((48 * t.depth + a.toNat) % (48 * s.win t.tid + 16))) ∧
    (64 ≤ a.toNat → s.src t a = SMap.get 0 g.sregs (a.toNat - 64))

/-- R29: inside a chain a word reads the v registers, predicates, s registers and special registers as they stood before the chain. -/
def Claims.ChainReadsOldValues : Prop :=
  ∀ (s : State) (t : Thread) (b : Before) (a : BitVec 7) (i : BitVec 3), t.old = some b →
    (a.toNat < 64 → s.src t a = SMap.get 0 b.regs ((48 * b.depth + a.toNat) % (48 * s.win t.tid + 16))) ∧
    (64 ≤ a.toNat → s.src t a = SMap.get 0 b.sregs (a.toNat - 64)) ∧
    t.p i = (i == 7 || b.preds.getLsbD i.toNat) ∧ s.mode t = b.fmode ∧
    s.special t 8 = BitVec.ofNat 64 (b.lt % 2 ^ 48) ∧ s.special t 12 = b.fabst.setWidth 64 ∧
    s.special t 14 = (BitVec.ofNat 16 b.spill ++ BitVec.ofNat 16 b.depth).setWidth 64

/-- R29, R241, R374: the chain begins by keeping those values for the threads of its gang, and keeps them to its end; a thread whose wait a save has
ended, and which stands at the word that issues again, reads what that word's chain read. -/
def Claims.ChainKeepsOldValues : Prop :=
  ∀ (s : State), (∀ u ∈ s.threads, u.old = none) → s.issued = [] →
    s.snapshot = { s with threads := s.snapshot.threads } ∧
    List.Forall₂ (fun a b => if a.uid ∈ s.gang then
        (a.again = [] → b = { a with old := some (before s a) }) ∧
        (∀ x w, a.again = [x] → x.trap = a.trapMode → x.at_.pkt = a.pkt → x.at_.word = a.word → x.was = some w → b = { a with old := some w })
      else b = a) s.threads s.snapshot.threads ∧
    s.snapshot.unsnapshot = s

/-- R71: in resident windows the 64 registers of a window are distinct physical registers, the callee's `v0`-`v15` are the caller's
`v48`-`v63`, and the registers of all resident windows that are no such overlap are distinct. -/
def Claims.WindowRegisters : Prop :=
  ∀ (W d e k j : Nat), 2 ≤ W → W ≤ 16 → k < 64 → j < 64 →
    (physReg W d k = physReg W d j → k = j) ∧
    (k < 16 → physReg W (d + 1) k = physReg W d (48 + k)) ∧
    (d ≤ e → e < d + W → physReg W d k = physReg W e j → 48 * d + k = 48 * e + j) ∧
    physReg W d k < 48 * W + 16

/-! ### Integer words -/

/-- R101, Table 5.2, with the shifts by the whole of b. -/
def Claims.IntegerResults : Prop :=
  ∀ e ∈ table52, ∀ (f : F3) (s : State),
    WritesV (e.1 f) s (guarded f.pred) f.dst fun t => e.2 (s.src t f.a) (s.src t f.b)

/-- R51: `SHRR` rounds with ties toward +∞ and sets no flag. -/
def Claims.RoundingShift : Prop :=
  ∀ (f : F3) (s : State), WritesV (.shrr f) s (guarded f.pred) f.dst fun t => roundedShift (s.src t f.a) (s.src t f.b)

/-- R104: `BFE` extracts the field that b describes. -/
def Claims.BitFieldExtract : Prop :=
  ∀ (f : F3) (s : State), WritesV (.bfe f) s (guarded f.pred) f.dst fun t => extracted (s.src t f.a) (s.src t f.b)

/-- R103, Table 5.3: `POPC` counts the 1 bits of a, `CLZ` the 0 bits above its highest 1. -/
def Claims.BitCounts : Prop :=
  ∀ (f : F2) (s : State),
    WritesV (.popc f) s (guarded f.pred) f.dst (fun t =>
      BitVec.ofNat 32 ((List.range 32).countP fun i => (s.src t f.a).getLsbD i)) ∧
    WritesV (.clz f) s (guarded f.pred) f.dst (fun t =>
      if s.src t f.a = 0 then 32 else BitVec.ofNat 32 (31 - Nat.log2 (s.src t f.a).toNat))

/-- R50: each saturating word forms its result exactly, clamps it once and sets `FSTAT.SAT` exactly where it clamped. -/
def Claims.SaturatingWords : Prop :=
  ∀ (f : F3) (h : F4) (s : State),
    WritesV (.adds f) s (guarded f.pred) f.dst
      (fun t => (clamp ((s.src t f.a).toInt + (s.src t f.b).toInt)).1)
      (fun t => (clamp ((s.src t f.a).toInt + (s.src t f.b).toInt)).2) ∧
    WritesV (.subs f) s (guarded f.pred) f.dst
      (fun t => (clamp ((s.src t f.a).toInt - (s.src t f.b).toInt)).1)
      (fun t => (clamp ((s.src t f.a).toInt - (s.src t f.b).toInt)).2) ∧
    (let v (t : Thread) : Int := (s.vreg t h.c).toInt + sHalf (s.src t h.a) 0 * sHalf (s.src t h.b) 0
        + sHalf (s.src t h.a) 1 * sHalf (s.src t h.b) 1;
      WritesV (.dot2I16 h) s always h.dst (fun t => (clamp (v t)).1) (fun t => (clamp (v t)).2)) ∧
    (let v (t : Thread) : Int := (s.vreg t h.c).toInt + sByte (s.src t h.a) 0 * sByte (s.src t h.b) 0
        + sByte (s.src t h.a) 1 * sByte (s.src t h.b) 1 + sByte (s.src t h.a) 2 * sByte (s.src t h.b) 2
        + sByte (s.src t h.a) 3 * sByte (s.src t h.b) 3;
      WritesV (.dot4I8 h) s always h.dst (fun t => (clamp (v t)).1) (fun t => (clamp (v t)).2))

/-- R106: `MAD.I32` multiplies and adds modulo 2^32 for every active thread and sets no flag. -/
def Claims.MultiplyAdd : Prop :=
  ∀ (h : F4) (s : State),
    WritesV (.madI32 h) s always h.dst fun t => s.src t h.a * s.src t h.b + s.vreg t h.c

/-- R103, R105: the 64-bit results of `ADDW` and `MULW` in an even pair, the low word in the even register. -/
def Claims.WidePairs : Prop :=
  ∀ (f : F3) (s : State),
    ((Instr.addw f).wf → WritesPair (.addw f) s (guarded f.pred) f.dst fun t =>
      s.src t (f.a + 1) ++ s.src t f.a + (s.src t (f.b + 1) ++ s.src t f.b)) ∧
    ((Instr.mulw f).wf → WritesPair (.mulw f) s (guarded f.pred) f.dst fun t =>
      (s.src t f.a).setWidth 64 * (s.src t f.b).setWidth 64)

/-- R113, Table 5.13: the immediate words write every active thread; `MOVHI` keeps the low half of its destination. -/
def Claims.ImmediateResults : Prop :=
  (∀ e ∈ table513, ∀ (f : FI) (s : State), WritesV (e.1 f) s always f.dst fun t => e.2 (s.src t f.a) f.imm) ∧
  (∀ (f : FI16) (s : State),
    WritesV (.movi f) s always f.dst (fun _ => f.imm.signExtend 32) ∧
    WritesV (.movhi f) s always f.dst (fun t => f.imm ++ (s.vreg t f.dst).setWidth 16))

/-! ### Float words -/

/-- R54, R55, R106, R107: every float word writes the result of its operation under the `FMODE` of the thread's own group and ORs its
flags into the thread's `FSTAT`; the packed forms treat the halves apart. -/
def Claims.FloatWords : Prop :=
  (∀ e ∈ float2, ∀ (f : F3) (s : State), WritesV (e.1 f) s (guarded f.pred) f.dst
      (fun t => (e.2 (s.mode t) (s.src t f.a) (s.src t f.b)).1) (fun t => (e.2 (s.mode t) (s.src t f.a) (s.src t f.b)).2)) ∧
  (∀ e ∈ float3, ∀ (f : F4) (s : State), WritesV (e.1 f) s always f.dst
      (fun t => (e.2 (s.mode t) (s.src t f.a) (s.src t f.b) (s.vreg t f.c)).1)
      (fun t => (e.2 (s.mode t) (s.src t f.a) (s.src t f.b) (s.vreg t f.c)).2))

/-- R53, R54, R58: what the IEEE operations give for NaN operands (the canonical NaN, `NV` only for a signalling one), for opposite
infinities, for 0 · ∞ and for equal zeros, in every format, rounding mode and flushing. -/
def Claims.FloatSpecialOperands : Prop :=
  ∀ f ∈ [F32, F16, BF16], ∀ (rm : Nat) (ftz : Bool) (a b c : Nat),
    (∀ x, f.read a = .nan x ∨ f.read b = .nan x →
      (f.add rm ftz a b).1 = f.qnan ∧ (f.mul rm ftz a b).1 = f.qnan ∧ (f.fma rm ftz a b c).1 = f.qnan ∧ (f.fma rm ftz c a b).1 = f.qnan) ∧
    ((f.read a = .nan true ∨ f.read b = .nan true) →
      (f.add rm ftz a b).2 = 1 ∧ (f.mul rm ftz a b).2 = 1 ∧ (f.fma rm ftz a b c).2 = 1) ∧
    (f.read a = .nan false → f.read b ≠ .nan true → (f.add rm ftz a b).2 = 0 ∧ (f.mul rm ftz a b).2 = 0) ∧
    (∀ p, f.read a = .inf p → f.read b = .inf (!p) → f.add rm ftz a b = (f.qnan, 1)) ∧
    (∀ p q e, f.read a = .inf p → f.read b = .fin q 0 e →
      f.mul rm ftz a b = (f.qnan, 1) ∧ f.fma rm ftz a b c = (f.qnan, 1)) ∧
    (∀ p q e, f.read a = .fin p 0 e → f.read b = .fin q 0 e →
      f.add rm ftz a b = (if p = q then f.zero p else f.zero (rm == 3), 0))

/-- R48, R54, R55, R59: the words work under the mode's `RM` and `FTZ`, F16 never flushing; a packed form works on each half for itself and raises the
flags of both. -/
def Claims.FloatModes : Prop :=
  ∀ (m : BitVec 4) (a b c : Word),
    let rm := m.toNat % 4
    let ftz := m.getLsbD 2
    let out (r : Nat × BitVec 6) : Word × BitVec 6 := (BitVec.ofNat 32 r.1, r.2)
    let lo (w : Word) : Nat := w.toNat % 65536
    let hi (w : Word) : Nat := w.toNat / 65536
    let both (p q : Nat × BitVec 6) : Word × BitVec 6 := (BitVec.ofNat 16 q.1 ++ BitVec.ofNat 16 p.1, p.2 ||| q.2)
    fadd32 m a b = out (F32.add rm ftz a.toNat b.toNat) ∧ fmul32 m a b = out (F32.mul rm ftz a.toNat b.toNat) ∧
    ffma32 m a b c = out (F32.fma rm ftz a.toNat b.toNat c.toNat) ∧
    (∀ lower, fpick32 lower m a b = out (F32.pick lower (m.getLsbD 3) ftz a.toNat b.toNat)) ∧
    ∀ e ∈ [(F16, false), (BF16, ftz)],
      faddPacked e.1 m a b = both (e.1.add rm e.2 (lo a) (lo b)) (e.1.add rm e.2 (hi a) (hi b)) ∧
      fmulPacked e.1 m a b = both (e.1.mul rm e.2 (lo a) (lo b)) (e.1.mul rm e.2 (hi a) (hi b)) ∧
      ffmaPacked e.1 m a b c = both (e.1.fma rm e.2 (lo a) (lo b) (lo c)) (e.1.fma rm e.2 (hi a) (hi b) (hi c))

/-- R54, R58, R59: finite sums, products and fused results are the exact value rounded once, with its flags; a sum that is zero is −0 where both
addends are, or in RDN where they are not both zeros of one sign. -/
def Claims.FloatExact : Prop :=
  ∀ f ∈ [F32, F16, BF16], ∀ (rm : Nat) (ftz : Bool) (a b c : Nat) (x y z : ℝ), rm < 4 →
    IsOperand f ftz a x → IsOperand f ftz b y → IsOperand f ftz c z →
    let p := negative f a != negative f b
    let sumZero (m n : Bool) (zeros : Prop) (r : Nat × BitVec 6) : Prop :=
      (zeros ∧ m = n → r = (zeroOf f m, 0)) ∧ (¬ (zeros ∧ m = n) → r = (zeroOf f (rm == 3), 0))
    (x + y ≠ 0 → RoundsTo f rm ftz (x + y) (f.add rm ftz a b)) ∧
    (x + y = 0 → sumZero (negative f a) (negative f b) (x = 0 ∧ y = 0) (f.add rm ftz a b)) ∧
    (x * y ≠ 0 → RoundsTo f rm ftz (x * y) (f.mul rm ftz a b)) ∧
    (x * y = 0 → f.mul rm ftz a b = (zeroOf f p, 0)) ∧
    (x * y + z ≠ 0 → RoundsTo f rm ftz (x * y + z) (f.fma rm ftz a b c)) ∧
    (x * y + z = 0 → sumZero p (negative f c) (x * y = 0 ∧ z = 0) (f.fma rm ftz a b c))

/-- R54: infinities in sums, products and fused results, where they give no NaN. -/
def Claims.FloatInfinities : Prop :=
  ∀ f ∈ [F32, F16, BF16], ∀ (rm : Nat) (ftz : Bool) (a b c : Nat) (x y : ℝ), isInf f a →
    (IsOperand f ftz b y ∨ isInf f b ∧ negative f b = negative f a →
      f.add rm ftz a b = (infOf f (negative f a), 0) ∧ f.add rm ftz b a = (infOf f (negative f a), 0)) ∧
    (IsOperand f ftz b y ∧ y ≠ 0 ∨ isInf f b →
      let p := negative f a != negative f b
      f.mul rm ftz a b = (infOf f p, 0) ∧ f.mul rm ftz b a = (infOf f p, 0) ∧
      (IsOperand f ftz c x ∨ isInf f c ∧ negative f c = p →
        f.fma rm ftz a b c = (infOf f p, 0) ∧ f.fma rm ftz b a c = (infOf f p, 0)) ∧
      (isInf f c ∧ negative f c ≠ p → f.fma rm ftz a b c = (nanOf f, 1) ∧ f.fma rm ftz b a c = (nanOf f, 1))) ∧
    (IsOperand f ftz b x → IsOperand f ftz c y → f.fma rm ftz b c a = (infOf f (negative f a), 0))

/-- R54, R107: `FMIN` and `FMAX`: a signalling NaN gives the canonical NaN and `NV`, one quiet NaN the other operand or the NaN by `NANM`; of two
numbers the lesser or the greater, −0 below +0, with its bits unchanged but for the flushing of a subnormal. -/
def Claims.FloatMinMax : Prop :=
  ∀ (lower nanm ftz : Bool) (a b : Word),
    let keep (c : Nat) : Nat := if ftz && expField F32 c == 0 then zeroOf F32 (negative F32 c) else c
    let place (c : Nat) : Int := if negative F32 c then -((c % 2 ^ 31 : Nat) : Int) - 1 else ((c % 2 ^ 31 : Nat) : Int)
    let x := a.toNat
    let y := b.toNat
    let r := F32.pick lower nanm ftz x y
    (isSignalling F32 x ∨ isSignalling F32 y → r = (nanOf F32, 1)) ∧
    (¬ isSignalling F32 x → ¬ isSignalling F32 y →
      r.2 = 0 ∧ (isNan F32 x → isNan F32 y → r.1 = nanOf F32) ∧
      (isNan F32 x → ¬ isNan F32 y → r.1 = if nanm then nanOf F32 else keep y) ∧
      (¬ isNan F32 x → isNan F32 y → r.1 = if nanm then nanOf F32 else keep x) ∧
      (¬ isNan F32 x → ¬ isNan F32 y → (r.1 = keep x ∨ r.1 = keep y) ∧
        if lower then place r.1 ≤ place (keep x) ∧ place r.1 ≤ place (keep y) else place (keep x) ≤ place r.1 ∧ place (keep y) ≤ place r.1))

/-- R54: a finite value that a format holds is rounded to its own code without a flag, in every mode. -/
def Claims.RoundingKeepsRepresentable : Prop :=
  ∀ f ∈ [F32, F16, BF16, E4M3], ∀ (rm c m : Nat) (neg : Bool) (e : Int), c < 2 * f.signBit → f.read c = .fin neg m e →
    f.round rm false neg m e false = (c, 0)

/-- R54, Table 3.2: how a magnitude m / 2^d becomes an integer in the modes RNE, RZ, RUP and RDN. -/
def Claims.RoundingModes : Prop :=
  ∀ (neg : Bool) (m d : Nat),
    let up := (m + 2 ^ d - 1) / 2 ^ d
    (let n := (shiftRound 0 neg m d false).1;
      (2 * m ≤ (2 * n + 1) * 2 ^ d ∧ 2 * n * 2 ^ d ≤ 2 * m + 2 ^ d) ∧
      (2 * m = (2 * n + 1) * 2 ^ d ∨ 2 * n * 2 ^ d = 2 * m + 2 ^ d → n % 2 = 0)) ∧
    (shiftRound 1 neg m d false).1 = m / 2 ^ d ∧
    (shiftRound 2 neg m d false).1 = (if neg then m / 2 ^ d else up) ∧
    (shiftRound 3 neg m d false).1 = (if neg then up else m / 2 ^ d) ∧
    ∀ rm, (shiftRound rm neg m d false).2 = decide (m % 2 ^ d ≠ 0)

/-- R39, R108: `SETP` compares in every active thread, ANDs with `p(cpred)`, sets `NV` only for a signalling NaN and changes no other
predicate or flag. -/
def Claims.ComparePredicate : Prop :=
  ∀ (f : FSetp) (s : State), (Instr.setp f).wf → ∃ t, exec (.setp f) s = .next t ∧ OnlyThreads s t ∧ EachThread s t fun a b =>
    let o := ordered f.type (s.mode a) (s.src a f.a) (s.src a f.b)
    (∀ i < 7, b.preds.getLsbD i =
      if i = f.pdst.toNat then related f.cond o.1 && a.p f.cpred else a.preds.getLsbD i) ∧
    b = { a.next with preds := b.preds, fstat := a.fstat ||| (if o.2 then 1 else 0) }

/-- R59, R108: the order of two float operands: none where one is a NaN, whether one is signalling, by value between numbers, and infinities outside
all of them. -/
def Claims.FloatOrder : Prop :=
  ∀ f ∈ [F32, F16, BF16], ∀ (ftz : Bool) (a b : Nat),
    let o := f.order ftz a b
    (o.1 = none ↔ isNan f a ∨ isNan f b) ∧ (o.2 = true ↔ isSignalling f a ∨ isSignalling f b) ∧
    (∀ x y, IsOperand f ftz a x → IsOperand f ftz b y →
      (x < y → o.1 = some .lt) ∧ (x = y → o.1 = some .eq) ∧ (y < x → o.1 = some .gt)) ∧
    (isInf f a → isInf f b → o.1 = some (if negative f a = negative f b then .eq else if negative f a then .lt else .gt)) ∧
    (∀ y, isInf f a → IsOperand f ftz b y → o.1 = some (if negative f a then .lt else .gt)) ∧
    (∀ x, IsOperand f ftz a x → isInf f b → o.1 = some (if negative f b then .gt else .lt))

/-- R60, R111: `CVT` converts for every active thread with its own `rnd` and `.SAT`, and with a slot named, as if rounding to nearest and
saturating, from or to the slot's A element format. -/
def Claims.Conversions : Prop :=
  (∀ (f : FCvt) (s : State), WritesV (.cvt f) s always f.dst
    (fun t => (convert ((s.mode t).getLsbD 2) f.stype.toNat f.dtype.toNat f.rnd.toNat f.sat (s.src t f.a)).1)
    (fun t => (convert ((s.mode t).getLsbD 2) f.stype.toNat f.dtype.toNat f.rnd.toNat f.sat (s.src t f.a)).2)) ∧
  (∀ (f : FCvtSS) (s : State),
    let ty (t : Thread) := slotType (recSlot (s.recordOf t.tid) f.slot.toNat)
    WritesV (.cvtSlotSource f) s always f.dst
    (fun t => (convert ((s.mode t).getLsbD 2) (ty t) f.dtype.toNat 0 true (s.src t f.a)).1)
    (fun t => (convert ((s.mode t).getLsbD 2) (ty t) f.dtype.toNat 0 true (s.src t f.a)).2)) ∧
  (∀ (f : FCvtSD) (s : State),
    let ty (t : Thread) := slotType (recSlot (s.recordOf t.tid) f.slot.toNat)
    WritesV (.cvtSlotDest f) s always f.dst
    (fun t => (convert ((s.mode t).getLsbD 2) f.stype.toNat (ty t) 0 true (s.src t f.a)).1)
    (fun t => (convert ((s.mode t).getLsbD 2) f.stype.toNat (ty t) 0 true (s.src t f.a)).2))

/-- R60, Table 3.4: integer to integer keeps the low bits without `.SAT` and clamps with it, setting `SAT` exactly where it clamped;
I8 and I16 results are sign-extended, N8 and N16 results zero-extended (R111). -/
def Claims.IntegerConversion : Prop :=
  ∀ (ftz sat : Bool) (st dt rnd : Nat) (x : Word), st < 6 → dt < 6 →
    let w := [8, 16, 32].getD (dt % 3) 32
    let v : Int := if st < 3 then (x.setWidth ([8, 16, 32].getD (st % 3) 32)).toInt else (x.setWidth ([8, 16, 32].getD (st % 3) 32)).toNat
    let lo : Int := if dt < 3 then -(2 ^ (w - 1)) else 0
    let hi : Int := if dt < 3 then 2 ^ (w - 1) - 1 else 2 ^ w - 1
    let put (n : Int) : Word := if dt < 3 then (BitVec.ofInt w n).signExtend 32 else (BitVec.ofInt w n).setWidth 32
    convert ftz st dt rnd sat x =
      if sat ∧ v < lo then (put lo, 0b100000) else if sat ∧ hi < v then (put hi, 0b100000) else (put v, 0)

/-- R59, R60, R111, Table 3.4: the float rows of the table: to an integer rounded and clamped, from one rounded, and from float to float rounded once;
NaNs, infinities and overflows with and without `.SAT`. -/
def Claims.FloatConversions : Prop :=
  ∀ (ftz sat : Bool) (rnd : Nat) (w : Word), rnd < 4 →
    let fmts : List (Nat × Fmt) := [(6, F32), (7, F16), (8, BF16), (9, E4M3)]
    let code (g : Fmt) : Nat := w.toNat % 2 ^ (g.ebits + g.mbits + 1)
    let out (r : Nat × BitVec 6) : Word × BitVec 6 := (BitVec.ofNat 32 r.1, r.2)
    let orSat (fl : BitVec 6) : BitVec 6 := if sat then fl ||| 0b100000 else fl
    let width (t : Nat) : Nat := [8, 16, 32].getD (t % 3) 32
    let lo (t : Nat) : Int := if t < 3 then -(2 ^ (width t - 1)) else 0
    let hi (t : Nat) : Int := if t < 3 then 2 ^ (width t - 1) - 1 else 2 ^ width t - 1
    let put (t : Nat) (n : Int) : Word := if t < 3 then (BitVec.ofInt (width t) n).signExtend 32 else (BitVec.ofInt (width t) n).setWidth 32
    let narrowed (f : Fmt) (flush : Bool) (v : ℝ) (r : Word × BitVec 6) : Prop :=
      ∃ q, RoundsTo f rnd flush v q ∧
        r = if sat = true ∧ q.2.getLsbD 2 = true then out (maxOf f (decide (v < 0)), 0b110000) else out q
    (∀ g ∈ fmts, ∀ t < 6,
      let r := convert ftz g.1 t rnd sat w
      (isNan g.2 (code g.2) → r = (0, orSat 1)) ∧
      (isInf g.2 (code g.2) → r = (put t (if negative g.2 (code g.2) then lo t else hi t), orSat 1)) ∧
      ∀ x n, IsValue g.2 (code g.2) x → RoundsToInt rnd x n →
        (n < lo t → r = (put t (lo t), orSat 1)) ∧ (hi t < n → r = (put t (hi t), orSat 1)) ∧
        (lo t ≤ n → n ≤ hi t → r.1 = put t n ∧ (x = n → r.2 = 0) ∧ (x ≠ n → r.2 = 0b010000))) ∧
    (∀ t < 6, ∀ f ∈ fmts, f.1 = 9 → rnd = 0 →
      let v : Int := if t < 3 then (w.setWidth (width t)).toInt else (w.setWidth (width t)).toNat
      (v = 0 → convert ftz t f.1 rnd sat w = (0, 0)) ∧ (v ≠ 0 → narrowed f.2 false v (convert ftz t f.1 rnd sat w))) ∧
    (∀ t < 6, ∀ f ∈ fmts, f.1 ≠ 9 →
      let v : Int := if t < 3 then (w.setWidth (width t)).toInt else (w.setWidth (width t)).toNat
      (v = 0 → convert ftz t f.1 rnd sat w = (0, 0)) ∧ (v ≠ 0 → narrowed f.2 false v (convert ftz t f.1 rnd sat w))) ∧
    ∀ g ∈ fmts, ∀ f ∈ fmts, (f.1 = 9 → rnd = 0) →
      let r := convert ftz g.1 f.1 rnd sat w
      let c := code g.2
      let flush := ftz && (f.1 == 6 || f.1 == 8)
      let full := g.1 = f.1 ∨ f.1 = 6
      (isNan g.2 c → (isSignalling g.2 c → r = out (nanOf f.2, 1)) ∧ (¬ isSignalling g.2 c → r = out (nanOf f.2, 0))) ∧
      (isInf g.2 c →
        (f.1 ≠ 9 → full ∨ sat = false → r = out (infOf f.2 (negative g.2 c), 0)) ∧
        (f.1 = 9 ∨ ¬ full → sat = true → r = out (maxOf f.2 (negative g.2 c), 0b110000)) ∧
        (f.1 = 9 → sat = false → r = out (nanOf f.2, 0b010100))) ∧
      ∀ x, IsOperand g.2 (flush && (g.1 == 6 || g.1 == 8)) c x →
        (x = 0 → r = out (zeroOf f.2 (negative g.2 c), 0)) ∧ (x ≠ 0 → narrowed f.2 flush x r)

/-! ### Lanes, moves, special registers -/

/-- R76, R114, R115, Table 5.14: lane movement reads every lane of the gang as it issued before it writes; a lane without an active thread gives 0 or
the fill. -/
def Claims.LaneMovement : Prop :=
  ∀ (f : F3) (h : FBcast) (s : State),
    (∀ (a : BitVec 7) (j : Nat) (u : Thread), (∃ x y, asIssued s = x ++ u :: y ∧ ∀ v ∈ x, v.lane ≠ j) → u.lane = j → s.laneValue a j = some (s.src u a)) ∧
    (∀ (a : BitVec 7) (j : Nat), (∀ u ∈ asIssued s, u.lane ≠ j) → s.laneValue a j = none) ∧
    WritesV (.slide f) s (guarded f.pred) f.dst (fun t =>
      let j : Int := t.lane + (s.src t f.b).toInt
      if 0 ≤ j ∧ j ≤ 31 then (s.laneValue f.a j.toNat).getD 0 else 0) ∧
    WritesV (.slideh f) s (guarded f.pred) f.dst (fun t => slid s f.a t (s.src t f.b) 1 ++ slid s f.a t (s.src t f.b) 0) ∧
    WritesV (.shfl f) s (guarded f.pred) f.dst (fun t =>
      if (s.src t f.b).toNat ≤ 31 then (s.laneValue f.a (s.src t f.b).toNat).getD 0 else 0) ∧
    WritesV (.bcast h) s (guarded h.pred) h.dst (fun _ => (s.laneValue h.a h.n.toNat).getD 0)

/-- R116, Table 5.15: the gathering words. `BALLOT` writes every active thread, the others only executing ones. -/
def Claims.LaneGathering : Prop :=
  ∀ (f : FD) (h : F2) (s : State),
    WritesV (.ballot f) s always f.dst (fun _ => lanes ((asIssued s).filter (guarded f.pred))) ∧
    WritesV (.actmask f) s (guarded f.pred) f.dst (fun t =>
      lanes ((asIssued s).filter fun u => u.tid == t.tid && u.slot == t.slot)) ∧
    WritesV (.redadd h) s (guarded h.pred) h.dst (fun _ =>
      (((asIssued s).filter (guarded h.pred)).map fun u => s.src u h.a).sum) ∧
    (∀ v : Word, (∃ u ∈ asIssued s, u.p h.pred ∧ s.src u h.a = v) →
      (∀ u ∈ asIssued s, u.p h.pred → (s.src u h.a).toInt ≤ v.toInt) →
      WritesV (.redmax h) s (guarded h.pred) h.dst (fun _ => v)) ∧
    ((∀ u ∈ asIssued s, u.p h.pred = false) → ∀ v, WritesV (.redmax h) s (guarded h.pred) h.dst (fun _ => v))

/-- R117: `MOV`, `SEL` and `MOVSV`. -/
def Claims.Moves : Prop :=
  ∀ (f : F2) (h : F3) (s : State),
    WritesV (.mov f) s (guarded f.pred) f.dst (fun t => s.src t f.a) ∧
    WritesV (.sel h) s always h.dst (fun t => if t.p h.pred then s.src t h.a else s.src t h.b) ∧
    WritesV (.movsv f) s (guarded f.pred) f.dst (fun t => s.src t f.a)

/-- R117: `MOVVS` gives each group the value of its lowest-lane executing thread and changes no v register. -/
def Claims.MoveToUniform : Prop :=
  ∀ (f : F2) (s : State), ∃ t, exec (.movvs f) s = .next t ∧ OnlyThreadsGroups s t ∧ PassOn s t ∧
    EachGroup s t ((asIssued s).filter (guarded f.pred)) fun g u h => WroteS f.dst.toNat (s.src u f.a) g h

/-- R119, Table 5.17: major 19 computes once in each group with an active thread. -/
def Claims.UniformResults : Prop :=
  ∀ e ∈ table517, ∀ (f : FU) (s : State), ∃ t, exec (e.1 f) s = .next t ∧ OnlyThreadsGroups s t ∧ PassOn s t ∧
    EachGroup s t s.gangThreads fun g u h =>
      WroteS f.dst.toNat (e.2 (s.sreg u (f.a.toNat - 64)) (s.sreg u (f.b.toNat - 64))) g h

/-- R56, R117: the thread that a word takes a group's value from is the group's executing thread on the lowest home lane. -/
def Claims.LowestLaneThread : Prop :=
  ∀ (s : State) (pred : BitVec 3) (gid : Nat),
    (∀ u, s.lowest (s.executing pred) gid = some u → IsLowest s (s.executing pred) gid u) ∧
    (s.lowest (s.executing pred) gid = none ↔ ∀ u ∈ s.executing pred, s.gidOf u ≠ gid) ∧
    (∀ u, s.lowest s.gangThreads gid = some u → IsLowest s s.gangThreads gid u) ∧
    (∀ u, s.lowest ((asIssued s).filter (guarded pred)) gid = some u → IsLowest s ((asIssued s).filter (guarded pred)) gid u) ∧
    (∀ u, u ∈ s.executing pred ↔ u ∈ s.threads ∧ u.uid ∈ s.gang ∧ u.p pred) ∧
    (s.issued ≠ [] → ∀ u, u ∈ asIssued s ↔ u ∈ s.threads ∧ u.uid ∈ s.issued)

/-- R118, Tables 2.5, 4.2 and 4.4: `RDSP` writes the special register it names, `LT` and `TICK` into a pair. -/
def Claims.ReadSpecial : Prop :=
  ∀ (f : F2) (s : State), (Instr.rdsp f).wf →
    (f.a.toNat ≠ 8 → f.a.toNat ≠ 9 → WritesV (.rdsp f) s (guarded f.pred) f.dst fun t => special32 s t f.a.toNat) ∧
    (f.a.toNat = 8 → WritesPair (.rdsp f) s (guarded f.pred) f.dst fun t => BitVec.ofNat 64 ((before s t).lt % 2 ^ 48)) ∧
    (f.a.toNat = 9 → WritesPair (.rdsp f) s (guarded f.pred) f.dst fun _ => BitVec.ofNat 64 s.tick)

/-- R56, R58, R118: `WRSP` of `FSTAT` replaces the six flags of each executing thread; `WRSP` of `FMODE` replaces the mode of each group
by the value of its lowest-lane executing thread. Reserved bits are ignored. -/
def Claims.WriteSpecial : Prop :=
  ∀ (f : FWrsp) (s : State),
    (f.num = 10 → MovesThreads (.wrsp f) s fun a =>
      if a.p f.pred then { a.next with fstat := (s.src a f.a).setWidth 6 } else a.next) ∧
    (f.num = 11 → ∃ t, exec (.wrsp f) s = .next t ∧ OnlyThreadsGroups s t ∧ PassOn s t ∧
      EachGroup s t (s.executing f.pred) fun g u h => h = { g with fmode := (s.src u f.a).setWidth 4 })

/-- R34, R109: a special function reads its operand at issue and writes no register and no flag yet. Each executing thread has one
operation in flight, which carries the result and the flags for its destination register, and the register is held. -/
def Claims.SpecialFunctionIssue : Prop :=
  ∀ e ∈ table59, ∀ (f : F2) (s : State), ∃ t, exec (e.1 f) s = .next t ∧
    Sends s t (s.executing f.pred) (fun u =>
      let r := e.2 ((s.mode u).getLsbD 2) (s.src u f.a)
      { s.opOf u .sfu 15 with regs := [vAt s u f.dst], args := [r.1], aop := r.2.toNat }) .sfuResult

/-- R109, R226: `SFU_RESULT` writes the register and ORs the flags into `FSTAT` in one step, and the operation is over; a register that changes is
progress of the thread's group. -/
def Claims.SpecialFunctionResult : Prop :=
  ∀ (id n fl : Nat) (x : Word) (o : Op) (s : State), s.op id = some o → o.kind = .sfu → o.regs = [n] → o.args = [x] → o.aop = fl →
    ∃ t, exec (.sfuResult id) s = .next t ∧ t.op id = none ∧ t = { s with threads := t.threads, ops := t.ops, groups := t.groups } ∧
      (∀ j, j ≠ id → t.op j = s.op j) ∧
      List.Forall₂ (fun g h => (∃ v, h = { g with progress := v }) ∧
        (h.progress = true ↔ g.progress = true ∨ ∃ u, s.thread o.uid = some u ∧ s.gidOf u = g.gid ∧ reg u n ≠ x)) s.groups t.groups ∧
      List.Forall₂ (fun a b => if a.uid = o.uid then
          reg b n = x ∧ (∀ m, m ≠ n → reg b m = reg a m) ∧ b.fstat = a.fstat ||| BitVec.ofNat 6 fl ∧ b.preds = a.preds ∧
            b.pkt = a.pkt ∧ b.word = a.word ∧ b.outs = a.outs - 1 ∧ b.pendF = a.pendF - 1
        else b = a) s.threads t.threads

/-- R110, Table 5.10: the special operands of the six functions, without flushing. -/
def Claims.SpecialFunctionOperands : Prop :=
  [sfuRcp, sfuRsq, sfuSqrt, sfuExp2, sfuLog2, sfuTanh].map (fun g => [0xFF800000, 0x80000000, 0x00000000, 0x7F800000].map (g false)) =
    [ [(0x80000000, 0), (0xFF800000, 2), (0x7F800000, 2), (0, 0)],
      [(0x7FC00000, 1), (0xFF800000, 2), (0x7F800000, 2), (0, 0)],
      [(0x7FC00000, 1), (0x80000000, 0), (0x00000000, 0), (0x7F800000, 0)],
      [(0x00000000, 0), (0x3F800000, 0), (0x3F800000, 0), (0x7F800000, 0)],
      [(0x7FC00000, 1), (0xFF800000, 2), (0xFF800000, 2), (0x7F800000, 0)],
      [(0xBF800000, 0), (0x80000000, 0), (0x00000000, 0), (0x3F800000, 0)] ]

/-- R109, R110: for every operand, a NaN gives the canonical NaN, with `NV` only where it is signalling; the functions raise only `NV`,
`DZ` and `OF`; negative operands of `RSQ`, `SQRT` and `LOG2` are invalid; `TANH` never exceeds 1 in magnitude. -/
def Claims.SpecialFunctionBounds : Prop :=
  ∀ (ftz : Bool) (x : Word),
    (∀ g ∈ [sfuRcp, sfuRsq, sfuSqrt, sfuExp2, sfuLog2, sfuTanh],
      (∀ b, F32.read x.toNat = .nan b → g ftz x = (0x7FC00000, if b then 1 else 0)) ∧ (g ftz x).2 &&& 0b111000 = 0) ∧
    (∀ m e, F32.readFtz ftz x.toNat = .fin true (m + 1) e →
      ∀ g ∈ [sfuRsq, sfuSqrt, sfuLog2], g ftz x = (0x7FC00000, 1)) ∧
    ((∀ b, F32.read x.toNat ≠ .nan b) → ((sfuTanh ftz x).1 &&& 0x7FFFFFFF).toNat ≤ 0x3F800000)

/-- R59, R109, R110, Table 5.9: `RCP` and `SQRT` are correctly rounded, raising at most `OF`; `RSQ` is within one unit. -/
def Claims.RootsAndReciprocals : Prop :=
  ∀ (ftz : Bool) (w : Word) (x : ℝ), IsOperand F32 ftz w.toNat x → x ≠ 0 →
    let exactly (v : ℝ) (r : Word × BitVec 6) : Prop := ∃ q, RoundsTo F32 0 ftz v q ∧ r = (BitVec.ofNat 32 q.1, q.2 &&& 0b000111)
    exactly (1 / x) (sfuRcp ftz w) ∧ (0 < x → exactly (Real.sqrt x) (sfuSqrt ftz w)) ∧
    (0 < x → (sfuRsq ftz w).2 = 0 ∧ ∃ y, IsValue F32 (sfuRsq ftz w).1.toNat y ∧ ∀ u, IsUlp (1 / Real.sqrt x) u → |y - 1 / Real.sqrt x| ≤ u)

/-- R109, R110, Tables 5.9 and 5.10: `EXP2` beyond its range, and exact at integers; `LOG2` exact at powers of two; `TANH` odd, at most 1 in magnitude,
and ±1 from 10 on. -/
def Claims.SpecialFunctionExact : Prop :=
  ∀ (ftz : Bool) (w : Word) (x : ℝ), IsOperand F32 ftz w.toNat x →
    let flushed (c : Nat) : Nat := if ftz && expField F32 c == 0 then zeroOf F32 (negative F32 c) else c
    (128 ≤ x → sfuExp2 ftz w = (0x7F800000, 4)) ∧ (x < -150 → sfuExp2 ftz w = (0, 0)) ∧
    (∀ n : Int, x = n → -149 ≤ n → n ≤ 127 →
      ∃ c, IsValue F32 c (2 ^ n) ∧ negative F32 c = false ∧ sfuExp2 ftz w = (BitVec.ofNat 32 (flushed c), 0)) ∧
    (∀ n : Int, x = 2 ^ n → ∃ c, IsValue F32 c n ∧ (n = 0 → c = 0) ∧ c < 2 ^ 32 ∧ sfuLog2 ftz w = (BitVec.ofNat 32 c, 0)) ∧
    (10 ≤ x → sfuTanh ftz w = (0x3F800000, 0)) ∧
    (sfuTanh ftz (w ^^^ 0x80000000)).1 = (sfuTanh ftz w).1 ^^^ 0x80000000

/-- R109, Table 5.9: the accuracy of `EXP2`, `LOG2` and `TANH`. The bounds of `TANH` are stated with a slack of one part in 2^30, as the model
compares with an approximation (assumption 10). -/
def Claims.SpecialFunctionAccuracy : Prop :=
  ∀ (ftz : Bool) (w : Word) (x : ℝ), IsOperand F32 ftz w.toNat x →
    let gives (r : Word × BitVec 6) (good : ℝ → Prop) : Prop := r.2 = 0 ∧ ∃ c y, IsValue F32 c y ∧ c < 2 ^ 32 ∧ good y ∧
      r.1.toNat = if ftz && expField F32 c == 0 then zeroOf F32 (negative F32 c) else c
    (x ≠ 0 → -150 ≤ x → x < 128 → gives (sfuExp2 ftz w) fun y => ∀ u, IsUlp (2 ^ x) u → |y - 2 ^ x| ≤ 2 * u) ∧
    (0 < x → gives (sfuLog2 ftz w) fun y =>
      (1 / 2 ≤ x → x ≤ 2 → |y - Real.logb 2 x| ≤ 2 ^ (-22 : Int)) ∧
      (¬ (1 / 2 ≤ x ∧ x ≤ 2) → ∀ u, IsUlp (Real.logb 2 x) u → |y - Real.logb 2 x| ≤ 2 * u)) ∧
    (x ≠ 0 → |x| < 10 → gives (sfuTanh ftz w) fun y =>
      (2 ^ (-3 : Int) ≤ |x| → ∀ u, IsUlp (Real.tanh x) u → |y - Real.tanh x| ≤ (2 + 2 ^ (-30 : Int)) * u) ∧
      (|x| < 2 ^ (-3 : Int) → |y - Real.tanh x| ≤ (2 ^ (-21 : Int) + 2 ^ (-50 : Int)) * |Real.tanh x|))

/-- R109: every function is monotonic wherever the exact one is. -/
def Claims.SpecialFunctionOrder : Prop :=
  ∀ (ftz : Bool) (v w : Word) (x y p q : ℝ), IsOperand F32 ftz v.toNat x → IsOperand F32 ftz w.toNat y → x < y →
    let rises (g : Bool → Word → Word × BitVec 6) : Prop := IsValue F32 (g ftz v).1.toNat p → IsValue F32 (g ftz w).1.toNat q → p ≤ q
    let falls (g : Bool → Word → Word × BitVec 6) : Prop := IsValue F32 (g ftz v).1.toNat p → IsValue F32 (g ftz w).1.toNat q → q ≤ p
    rises sfuExp2 ∧ rises sfuTanh ∧ (0 ≤ x → rises sfuSqrt ∧ rises sfuLog2 ∧ falls sfuRsq) ∧ (0 < x * y → falls sfuRcp)

/-! ### Clauses and control -/

/-- R30, R32: a header whose named flags are clear in every thread of the gang starts the clause at word 1; otherwise the whole gang waits,
whichever thread counts. -/
def Claims.ClauseHeader : Prop :=
  ∀ (f : FH) (s : State),
    ((∀ t ∈ s.gangThreads, ∀ i < 12, f.wait.getLsbD i → t.count i = 0) → MovesThreads (.clause f) s fun a =>
      { a with clause := some { flagA := f.flagA.toNat, flagB := f.flagB.toNat, stop := a.pkt + f.len.setWidth 32 + 1 }, word := 1 }) ∧
    ((∃ t ∈ s.gangThreads, ∃ i < 12, f.wait.getLsbD i ∧ t.count i ≠ 0) → MovesThreads (.clause f) s fun a =>
      { a with state := .waiting, wait := .clause f.wait })

/-- R90: `BRA` in both senses and `BRX` move the threads they take to word 0 of the target packet, out of their clause; the others
pass on. -/
def Claims.Branches : Prop :=
  ∀ (f : FJ) (h : FJX) (s : State),
    MovesThreads (.bra f) s (fun a => if a.p f.pred then goTo (a.pkt + f.off.signExtend 32) a else a.next) ∧
    MovesThreads (.braNegated f) s (fun a => if a.p f.pred then a.next else goTo (a.pkt + f.off.signExtend 32) a) ∧
    MovesThreads (.brx h) s (fun a => if a.p h.pred then goTo (s.src a h.a) a else a.next)

/-- R71, R90, R91: `CALL` and `CALLX` open a window whose `v16`-`v63` are 0 and whose link is the next packet, where no executing thread
is at depth 65,535 or has W resident windows. -/
def Claims.Calls : Prop :=
  ∀ (f : FJ) (h : FJX) (s : State),
    ((∀ u ∈ s.executing f.pred, u.depth < 65535 ∧ u.depth - u.spill + 1 ≠ s.win u.tid) →
      ∃ t, exec (.call f) s = .next t ∧ OnlyThreads s t ∧ EachThread s t fun a b =>
        if a.p f.pred then Called (s.win a.tid) (a.pkt + f.off.signExtend 32) a b else b = a.next) ∧
    ((∀ u ∈ s.executing h.pred, u.depth < 65535 ∧ u.depth - u.spill + 1 ≠ s.win u.tid) →
      ∃ t, exec (.callx h) s = .next t ∧ OnlyThreads s t ∧ EachThread s t fun a b =>
        if a.p h.pred then Called (s.win a.tid) (s.src a h.a) a b else b = a.next)

/-- R83, R90, R91: `RET` goes back to the link of the window it leaves and drops the seam entries of that depth. -/
def Claims.Returns : Prop :=
  ∀ (f : FP) (s : State), (∀ u ∈ s.executing f.pred, u.depth ≠ 0 ∧ u.spill ≠ u.depth) →
    MovesThreads (.ret f) s fun a => if a.p f.pred then returned a else a.next

/-- R91: the traps of major 1, in their order, for the whole gang at the word. -/
def Claims.CallReturnTraps : Prop :=
  ∀ (f : FJ) (h : FJX) (r : FP) (s : State), OutsideTrap s →
    ((∃ u ∈ s.executing f.pred, u.depth = 65535) → TakesTrap (.call f) s (TrapReq.of 0x12) (lanes s.gangThreads) false) ∧
    ((∃ u ∈ s.executing h.pred, u.depth = 65535) → TakesTrap (.callx h) s (TrapReq.of 0x12) (lanes s.gangThreads) false) ∧
    ((∀ u ∈ s.executing f.pred, u.depth ≠ 65535) → (∃ u ∈ s.executing f.pred, u.depth - u.spill + 1 = s.win u.tid) →
      TakesTrap (.call f) s (TrapReq.of 0x10) (lanes s.gangThreads) false) ∧
    ((∀ u ∈ s.executing h.pred, u.depth ≠ 65535) → (∃ u ∈ s.executing h.pred, u.depth - u.spill + 1 = s.win u.tid) →
      TakesTrap (.callx h) s (TrapReq.of 0x10) (lanes s.gangThreads) false) ∧
    ((∃ u ∈ s.executing r.pred, u.depth = 0) → TakesTrap (.ret r) s (TrapReq.of 0x13) (lanes s.gangThreads) false) ∧
    ((∀ u ∈ s.executing r.pred, u.depth ≠ 0) → (∃ u ∈ s.executing r.pred, u.spill = u.depth) →
      TakesTrap (.ret r) s (TrapReq.of 0x11) (lanes s.gangThreads) false)

/-- R78, R79: `SEAM` pushes one entry on every thread of the gang; threads of one depth share a tag, which no entry of the team held, and
different depths get different tags. -/
def Claims.SeamPush : Prop :=
  ∀ (f : FSeam) (s : State) (tid : Nat), Distinct s → (∀ u ∈ s.gangThreads, u.tid = tid ∧ u.seams.length < 8) →
    ∃ t, ∃ tag : Nat → Nat, exec (.seam f) s = .next t ∧ OnlyThreads s t ∧
      (EachThread s t fun a b => b = { a.next with
        seams := { pkt := a.pkt + f.off.signExtend 32, depth := a.depth, tag := tag a.depth } :: a.seams }) ∧
      (∀ u ∈ s.gangThreads, ∀ v ∈ s.gangThreads, tag u.depth = tag v.depth → u.depth = v.depth) ∧
      (∀ u ∈ s.gangThreads, 1 ≤ tag u.depth ∧ ∀ v ∈ s.threads, v.tid = tid → ∀ e ∈ v.seams, e.tag ≠ tag u.depth)

/-- R84: the entry of level n + 1 of a thread, for n from 8 to 39, stands at 8 · (n − 8) of the last 256 bytes of its private space, where the old
bytes pass their check; the ninth puts the thread's group into single-stitch mode, and no other byte changes. -/
def Claims.SeamOverflow : Prop :=
  ∀ (f : FSeam) (s : State) (u : Thread) (g : Group), s.gangThreads = [u] → s.groupOf u = some g → Distinct s →
    8 ≤ u.seams.length → u.seams.length < 40 →
    let o := recPriv (s.recordOf u.tid) - 256 + 8 * (u.seams.length - 8)
    256 ≤ recPriv (s.recordOf u.tid) → (∀ i < 8, s.synAt (s.laneOwnLoc u (o + i)) = 0) → (∀ i < 8, ∀ j < 8, s.laneOwnLoc u (o + i) = s.laneOwnLoc u (o + j) → i = j) →
    ∃ t e, exec (.seam f) s = .next t ∧
      (EachThread s t fun a b => b = { a.next with seams := e :: a.seams }) ∧ e.pkt = u.pkt + f.off.signExtend 32 ∧ e.depth = u.depth ∧
      (∀ h ∈ t.groups, h.gid = g.gid → u.seams.length = 8 → h.turn.isSome) ∧ (u.seams.length ≠ 8 → t.groups = s.groups) ∧
      t.laneOwn u o 8 = natLe 4 e.pkt.toNat ++ natLe 2 e.depth ++ natLe 2 e.tag ∧ (∀ l, t.synAt l = s.synAt l) ∧
      (∀ l, (∀ i < 8, l ≠ s.laneOwnLoc u (o + i)) → t.byte l = s.byte l) ∧
      t = { s with threads := t.threads, groups := t.groups, mem := t.mem, syn := t.syn, gtag := t.gtag }

/-- R84, R376: an entry of level 41, and one above level 8 in a launch with fewer than 256 bytes of private space, is refused: the whole gang takes a
`SEAM-OVERFLOW` trap, and no entry is pushed. -/
def Claims.SeamOverflowTraps : Prop :=
  ∀ (f : FSeam) (s : State), OutsideTrap s →
    (∃ u ∈ s.gangThreads, u.seams.length = 40 ∨ 8 ≤ u.seams.length ∧ recPriv (s.recordOf u.tid) < 256) →
    TakesTrap (.seam f) s (TrapReq.of 0x14) (lanes s.gangThreads) false

/-- R93: `NOP` changes no state but the position. -/
def Claims.NopPasses : Prop := ∀ (f : FP) (s : State), MovesThreads (.nop f) s Thread.next

/-- R94: a `YIELD` that some thread executes adds the lease to the core's LT once, bars every path of the gang until its issuable siblings
have issued, and passes on; one that no thread executes only passes on. -/
def Claims.YieldBars : Prop :=
  ∀ (f : FP) (s : State),
    (s.executing f.pred = [] → MovesThreads (.yield f) s Thread.next) ∧
    (∀ u r, s.executing f.pred = u :: r → ∃ t, exec (.yield f) s = .next t ∧ PassOn s t ∧
      t = { s with threads := t.threads, paths := t.paths, lts := t.lts } ∧
      (∀ c, t.lt c = s.lt c + if c = s.coreOf u.tid then s.lease (s.ctxOf u.tid) else 0) ∧
      (∀ q ∈ t.paths, q.id ∈ s.gangPaths → q.fair = 0 ∧ q.overdue = none) ∧
      ∀ p, s.gangPaths = [p.id] → (s.paths.find? fun q => q.id == p.id) = some p → ∀ q ∈ t.paths, q.id = p.id →
        q.bar = (s.paths.filter fun r => s.siblings p r && s.issuable r).map fun r => r.id)

/-- R95: `EXIT` discards the seam entries and trap registers of the executing threads, which become EXITING; the others pass on. -/
def Claims.ExitLeaves : Prop :=
  ∀ (f : FP) (s : State), MovesThreads (.exit f) s fun a =>
    if a.p f.pred then { a with seams := [], trap := [], trapMode := false, state := .exiting } else a.next

/-! ### Traps -/

/-- R96, R377, R378: `TRAP` and, where no debugger holds the context's right, `BKPT` take their traps with the resume point behind the
word; with no executing thread they only pass on. Where another word of their chain already holds a thread of the gang, the trap is due when the
threads go on, which is the model's reading (assumption 70). -/
def Claims.SoftwareTraps : Prop :=
  ∀ (f : FTrap) (h : FP) (s : State), OutsideTrap s →
    (s.executing f.pred = [] → MovesThreads (.trap f) s Thread.next) ∧
    (s.executing h.pred = [] → MovesThreads (.bkpt h) s Thread.next) ∧
    ((∀ u ∈ s.gangThreads, u.state ≠ .waiting) →
      (s.executing f.pred ≠ [] →
        TakesTrap (.trap f) s { TrapReq.of 0x38 with kind := f.code.toNat } (lanes (s.executing f.pred)) true) ∧
      (∀ u r c, s.executing h.pred = u :: r → s.ctx (s.ctxOf u.tid) = some c → c.dbg = none →
        TakesTrap (.bkpt h) s (TrapReq.of 0x39) (lanes (s.executing h.pred)) true)) ∧
    ((∃ u ∈ s.gangThreads, u.state = .waiting) →
      (s.executing f.pred ≠ [] → MovesThreads (.trap f) s fun a =>
        { a.next with due := some { cause := 0x38, kind := f.code.toNat, mask := lanes (s.executing f.pred) } }) ∧
      (∀ u r c, s.executing h.pred = u :: r → s.ctx (s.ctxOf u.tid) = some c → c.dbg = none → MovesThreads (.bkpt h) s fun a =>
        { a.next with due := some { cause := 0x39, kind := 0, mask := lanes (s.executing h.pred) } }))

/-- R96: where a debugger holds the context's right, an executed `BKPT` halts the gang's groups behind the word and no handler runs. -/
def Claims.BreakpointHalts : Prop :=
  ∀ (f : FP) (s : State) (u : Thread) (r : List Thread) (c : Ctx) (d : Nat),
    s.executing f.pred = u :: r → s.ctx (s.ctxOf u.tid) = some c → c.dbg = some d →
    ∃ t, exec (.bkpt f) s = .next t ∧ OnlyThreadsGroups s t ∧ (EachThread s t fun a b => b = { a.next with broke := true }) ∧
      List.Forall₂ (fun g h => if g.gid ∈ s.gids s.gangThreads ∧ (g.place = .active ∨ g.place = .pending) then
          h = { g with place := .halted, swapAt := none }
        else h = { g with haltDue := h.haltDue }) s.groups t.groups

/-- R45, R375: a malformed word traps the gang at that word with the cause of its fate. -/
def Claims.MalformedWordTraps : Prop :=
  ∀ (s : State) (p : Word) (k : Nat), OutsideTrap s → k < 3 → (∀ u ∈ s.threads, u.uid ∈ s.gang → u.pkt = p ∧ u.word = k) →
    TakesTrap (.malformedWord .illegalClause p k) s (TrapReq.of 0x01) (lanes s.gangThreads) false ∧
    TakesTrap (.malformedWord .illegalChain p k) s (TrapReq.of 0x02) (lanes s.gangThreads) false ∧
    TakesTrap (.malformedWord .illegalInstruction p k) s (TrapReq.of 0x03) (lanes s.gangThreads) false ∧
    TakesTrap (.malformedWord .illegalEncoding p k) s (TrapReq.of 0x04) (lanes s.gangThreads) false

/-- R41, R382: `RFT`, `WSPILL`, `WFILL`, and `SYSWR` to any number but that of `ABORT`, take a `PRIVILEGE` trap at the word in a gang outside trap and
firmware mode. -/
def Claims.PrivilegedWords : Prop :=
  ∀ (s : State) (r : FC) (g : FG1) (w : FZS), OutsideTrap s → (∀ u ∈ s.gangThreads, s.firmware u = false) →
    TakesTrap (.rft r) s (TrapReq.of 0x05) (lanes s.gangThreads) false ∧
    TakesTrap (.wspill g) s (TrapReq.of 0x05) (lanes s.gangThreads) false ∧
    TakesTrap (.wfill g) s (TrapReq.of 0x05) (lanes s.gangThreads) false ∧
    ((∃ u ∈ s.executing w.pred, (s.src u (w.a.setWidth 7)).toNat ≠ 0x20) →
      TakesTrap (.syswr w) s (TrapReq.of 0x05) (lanes s.gangThreads) false)

/-- R30, R381: `RFT` restores `v56`-`v63`, the predicates, `FSTAT` and the clause of every thread of the gang from its trap registers, leaves trap
mode and resumes at `TPC`, `TWORD`; `seam` and `SEAMD` are again what the trap registers hold, and what stands below is untouched. What stands
below where the handler has dropped entries is the model's choice (assumption 59). Where the handler has moved the resume point, the clause is that of
the header before it, which is the model's choice too (assumption 69). -/
def Claims.ReturnFromTrap : Prop :=
  ∀ (f : FC) (s : State), (∀ u ∈ s.gangThreads, u.trapMode = true ∧ u.depth = field (u.trapWord 12) 15 0) →
    ∃ t, exec (.rft f) s = .next t ∧ OnlyThreads s t ∧ EachThread s t fun a b =>
      (∀ i < 8, reg b (physReg (s.win a.tid) a.depth (56 + i)) = a.trapWord (16 + i)) ∧
      (∀ n, (∀ i < 8, n ≠ physReg (s.win a.tid) a.depth (56 + i)) → reg b n = reg a n) ∧
      b.preds = (a.trapWord 13).setWidth 7 ∧ b.fstat = (a.trapWord 14).setWidth 6 ∧ b.trapMode = false ∧
      b.pkt = a.trapWord 0 ∧ b.word = field (a.trapWord 1) 1 0 ∧ b.depth = a.depth ∧ b.spill = a.spill ∧ b.flags = a.flags ∧
      (a.trapSeams.length = field (a.trapWord 9) 5 0 → b.seams.length = field (a.trapWord 9) 5 0) ∧
      (∀ e r, b.seams = e :: r → e = { pkt := a.trapWord 10, depth := field (a.trapWord 11) 15 0, tag := field (a.trapWord 11) 31 16 }) ∧
      (a.seams = a.trapSeams → a.seams.length = field (a.trapWord 9) 5 0 → b.seams.drop 1 = a.seams.drop 1) ∧
      (∀ p, a.trapAt = some p → p.pkt = a.trapWord 0 → p.word = field (a.trapWord 1) 1 0 → b.clause = p.clause) ∧
      (∀ p c, a.trapAt = some p → (p.pkt ≠ a.trapWord 0 ∨ p.word ≠ field (a.trapWord 1) 1 0) →
        s.clauseAt { a with trapMode := false } (a.trapWord 0) = some c → b.clause = some c) ∧
      b.links = a.links ∧ b.uid = a.uid

/-- R98: `WSPILL` stores the oldest resident window of a thread that has W resident ones, with its link, in 256 bytes of its private
space; `WFILL` brings it back. A thread that needs neither only passes on. -/
def Claims.WindowImages : Prop :=
  ∀ (f : FG1) (s : State) (u : Thread),
    s.gangThreads = [u] → Distinct s → (u.trapMode = true ∨ s.firmware u = true) → u.pois = [] →
    let o := (s.src u f.a).toNat / 256 * 256
    let W := s.win u.tid
    o + 512 ≤ recPriv (s.recordOf u.tid) → (∀ i < 256, s.laneOwnLoc u (o + i) / 16 ∉ s.slots) → 2 ≤ W →
    (∀ i < 256, ∀ j < 256, s.laneOwnLoc u (o + i) = s.laneOwnLoc u (o + j) → i = j) →
    (u.depth - u.spill + 1 = W → (∀ i < 256, s.synAt (s.laneOwnLoc u (o + i)) = 0) → ∃ t, exec (.wspill f) s = .next t ∧
      (∀ l, t.synAt l = s.synAt l) ∧
      t.laneOwn u o 192 = bytesOf ((List.range 48).map fun k => reg u (physReg W u.spill k)) ∧
      t.laneOwn u (o + 192) 4 = natLe 4 (SMap.get 0 u.links u.spill).toNat ∧
      (EachThread s t fun a b => b = { a.next with spill := a.spill + 1 }) ∧
      ∀ l, (∀ i < 256, l ≠ s.laneOwnLoc u (o + i)) → t.byte l = s.byte l) ∧
    (0 < u.spill → u.spill = u.depth → (∀ i < 256, s.synAt (s.laneOwnLoc u (o + i)) = 0) → ∃ t, exec (.wfill f) s = .next t ∧
      t.mem = s.mem ∧ EachThread s t fun a b => b.spill = a.spill - 1 ∧
        (∀ k < 48, reg b (physReg W (a.spill - 1) k) = BitVec.ofNat 32 (leNat (s.laneOwn u (o + 4 * k) 4))) ∧
        SMap.get 0 b.links (a.spill - 1) = BitVec.ofNat 32 (leNat (s.laneOwn u (o + 192) 4))) ∧
    (u.depth - u.spill + 1 ≠ W → MovesThreads (.wspill f) s Thread.next) ∧
    (¬ (0 < u.spill ∧ u.spill = u.depth) → MovesThreads (.wfill f) s Thread.next)

/-! ### The banked spaces -/

/-- R121, R124, R125, R127, R128: where byte i of an access lies, and the bound of each space. -/
def Claims.BankAddresses : Prop :=
  ∀ (s : State) (u : Thread) (x : Team) (a : BitVec 7) (off size i : Nat) (locs : List Nat), s.team u.tid = some x → i < size →
    let o := (s.src u a).toNat + off
    let P := recPriv (s.recordOf u.tid)
    (s.bankLocs 5 u a off size = some locs → o + size ≤ (if 256 ≤ P then P - 256 else P) ∧
      locs[i]? = some (scratchLoc x.core (x.privBase + 4 * (recTsize (s.recordOf u.tid) * ((o + i) / 4) + u.lid) + (o + i) % 4))) ∧
    (s.bankLocs 2 u a off size = some locs → o + size ≤ x.scrSize ∧ locs[i]? = some (scratchLoc x.core (x.scrBase + (o + i)))) ∧
    (s.bankLocs 3 u a off size = some locs →
      (s.src u a).toNat < 2 ^ 24 ∧ (s.src u a).toNat % 2 ^ 22 + off + size ≤ 3145728 ∧
      (let core := 4 * (x.core / 4) + (s.src u a).toNat / 2 ^ 22 % 4;
      locs[i]? = some (scratchLoc core ((s.src u a).toNat % 2 ^ 22 + off + i)) ∧
      ∃ y ∈ s.teams, y.lid = x.lid ∧ y.core = core ∧ s.allocated y ∧ y.scrBase ≤ (s.src u a).toNat % 2 ^ 22 + off + i ∧
        (s.src u a).toNat % 2 ^ 22 + off + i < y.scrBase + y.scrSize)) ∧
    (s.bankLocs 4 u a off size = some locs → o + size ≤ (s.dieShare u.tid).1.length * (s.dieShare u.tid).2 ∧
      (let n := (s.dieShare u.tid).1.length;
      locs[i]? = some (dieLoc ((s.dieShare u.tid).1.getD ((o + i) / 256 % n) 0) ((o + i) / (256 * n) * 256 + (o + i) % 256))))

/-- R132: a load reads its bytes at issue; no register, no byte changes before they come back, and the destination registers are held. Its
thread takes the release time beside the bytes and leaves that of its own last release (the model's way of keeping R151 and R157 where memory has no
stamps, assumption 62). -/
def Claims.BankLoads : Prop :=
  ∀ e ∈ bankLoadWords, ∀ (f : FM) (s : State) (locs : Thread → List Nat), (e.1 f).wf →
    let size := 2 ^ f.w.toNat
    (∀ u ∈ s.executing f.pred, Access s e.2 f.a (f.mod.toNat * size) size u (locs u) ∧ ∀ l ∈ locs u, s.synAt l = 0) →
    ∃ t, exec (e.1 f) s = .next t ∧ Sends { s with bankRel := t.bankRel } t (s.executing f.pred) (fun u =>
      { s.opOf u .load (u.sel f.fb) with
        space := e.2, size := size, regs := run s u f.data.toNat (regsOf size),
        addr := BitVec.ofNat 64 ((s.src u f.a).toNat + f.mod.toNat * size), fill := (locs u).map s.byte }) .loadReturn ∧
      (Distinct s → ∀ u ∈ s.executing f.pred, ∀ b ∈ t.threads, b.uid = u.uid → b.got = max u.got (s.relAt (locs u))) ∧
      (∀ l, t.relAt [l] = s.relAt [l]) ∧ (∀ u ∈ s.executing f.pred, ∀ l ∈ locs u, u.rel ≤ t.readAt [l]) ∧
      ∀ n, ¬ touched (s.executing f.pred) locs n → SMap.get (0, 0) t.bankRel n = SMap.get (0, 0) s.bankRel n

/-- R132, R136: a store puts the low bytes of its data registers at its locations, the higher home lane last, and no other byte changes;
each executing thread is acknowledged later. Beside the bytes stands the time of the thread's last release, and it takes that of the reads it follows
(assumption 62). -/
def Claims.BankStores : Prop :=
  ∀ e ∈ bankStoreWords, ∀ (f : FM) (s : State) (locs : Thread → List Nat), (e.1 f).wf →
    let size := 2 ^ f.w.toNat
    (∀ u ∈ s.executing f.pred, Access s e.2 f.a (f.mod.toNat * size) size u (locs u) ∧ ∀ l ∈ locs u, s.synAt l = 0) →
    let st := (s.executing f.pred).flatMap fun u => (locs u).zip (s.storeBytes u f.data size)
    ∃ t, exec (e.1 f) s = .next t ∧ (∀ l, t.byte l = lastOf l (s.byte l) st) ∧ (∀ l, s.synAt l = 0 → t.synAt l = 0) ∧
      (∀ u ∈ s.executing f.pred, ∀ l ∈ locs u, u.rel ≤ t.relAt [l]) ∧
      (Distinct s → ∀ u ∈ s.executing f.pred, ∀ b ∈ t.threads, b.uid = u.uid → b.got = max u.got (s.readAt (locs u))) ∧
      (∀ n, ¬ touched (s.executing f.pred) locs n → SMap.get (0, 0) t.bankRel n = SMap.get (0, 0) s.bankRel n) ∧
      Sends { s with mem := t.mem, syn := t.syn, gtag := t.gtag, bankRel := t.bankRel } t (s.executing f.pred) (fun u =>
        { s.opOf u .store (u.sel f.fb) with space := e.2, size := size }) .storeAck

/-- R137: a store that would merge into a granule that fails its check is not performed, and its thread owes the fault. -/
def Claims.BadGranuleKept : Prop :=
  ∀ e ∈ bankStoreWords, ∀ (f : FM) (s : State) (u : Thread) (locs : List Nat), (e.1 f).wf → s.executing f.pred = [u] → Distinct s →
    let size := 2 ^ f.w.toNat
    Access s e.2 f.a (f.mod.toNat * size) size u locs → (∀ l ∈ locs, s.synAt l ≠ 0) → locs ≠ [] →
    ∃ t, exec (e.1 f) s = .next t ∧ (∀ l, l ∈ locs → t.byte l = s.byte l ∧ t.synAt l = s.synAt l) ∧
      ∀ b ∈ t.threads, b.uid = u.uid → ∃ p ∈ b.owed, p.pkt = u.pkt ∧ p.word = u.word

/-- R44, Table 2.10, R139: what an atomic stores in place of the old value. -/
def Claims.AtomicValues : Prop :=
  (∀ (aop : Nat) (old op : BitVec 32), aop ≤ 8 → atomicResult aop 32 old.toNat [op] = (atomicTo 32 aop old op).toNat) ∧
  (∀ (aop : Nat) (old op : BitVec 64), aop ≤ 8 →
    atomicResult aop 64 old.toNat [op.setWidth 32, op.extractLsb' 32 32] = (atomicTo 64 aop old op).toNat) ∧
  (∀ (old cmp new : Word), atomicResult 9 32 old.toNat [cmp, new] = if old = cmp then new.toNat else old.toNat) ∧
  (∀ (old cmp new : BitVec 64),
    atomicResult 9 64 old.toNat [cmp.setWidth 32, cmp.extractLsb' 32 32, new.setWidth 32, new.extractLsb' 32 32] =
      if old = cmp then new.toNat else old.toNat) ∧
  (∀ (old op : Word), atomicResult 10 32 old.toNat [op] = (F32.add 0 false old.toNat op.toNat).1 % 2 ^ 32) ∧
  ∀ (old op : Word), atomicResult 11 32 old.toNat [op] =
    (BF16.add 0 false (old.toNat % 65536) (op.toNat % 65536)).1 % 65536 +
      65536 * ((BF16.add 0 false (old.toNat / 65536) (op.toNat / 65536)).1 % 65536)

/-- R139: the atomics of one issue are applied in ascending home lane, each on what the one before left; each thread gets the value it
found. -/
def Claims.BankAtomics : Prop :=
  ∀ e ∈ bankAtomicWords, ∀ (f : FA) (s : State) (locs : Thread → List Nat), (e.1 f).wf →
    let size := if f.wide then 8 else 4
    (∀ u ∈ s.executing f.pred, Access s e.2 f.a 0 size u (locs u) ∧ ∀ l ∈ locs u, s.synAt l = 0) →
    let one (m : State) (u : Thread) : State := put m (atomicStores m f (locs u) (s.atomicArgs u f))
    ∃ t, exec (e.1 f) s = .next t ∧ (∀ l, t.byte l = ((s.executing f.pred).foldl one s).byte l) ∧
      t.ops = s.ops ++ (s.executing f.pred).mapIdx (fun i u =>
        { s.opOf u .atomic (u.sel f.fb) with
          space := e.2, size := size, regs := run s u f.data.toNat (size / 4), addr := BitVec.ofNat 64 (s.src u f.a).toNat,
          fill := (locs u).map ((((s.executing f.pred).take i).foldl one s).byte), id := s.nextId + i }) ∧
      t.agenda = s.agenda ++ (List.range (s.executing f.pred).length).map (fun i => .atomicReturn (s.nextId + i)) ∧
      (EachThread s t fun a b => (∃ fl pv n, b = { a.next with flags := fl, pendV := pv, outs := n, got := b.got }) ∧
        Counts ((s.executing f.pred).map fun u => s.opOf u .atomic (u.sel f.fb)) a b) ∧
      (∀ n, ¬ touched (s.executing f.pred) locs n → SMap.get (0, 0) t.bankRel n = SMap.get (0, 0) s.bankRel n) ∧
      t = { s with mem := t.mem, gtag := t.gtag, ops := t.ops, agenda := t.agenda, nextId := t.nextId, threads := t.threads, bankRel := t.bankRel }

/-- R122, R239: alignment first, then the bound, then the barrier slots, in the executing thread of a load, a store or an atomic: the gang traps
with the lane that fails, and nothing is accessed. -/
def Claims.BankTraps : Prop :=
  ∀ (s : State) (u : Thread), OutsideTrap s →
    let traps (i : Instr) (space : Nat) (a : BitVec 7) (off size : Nat) : Prop :=
      let ea := (s.src u a).toNat + off
      let q (c : Nat) : TrapReq := { TrapReq.of c with space := space, addr := BitVec.ofNat 64 ea }
      (ea % size ≠ 0 → TakesTrap i s (q 0x06) (lanes [u]) false) ∧
      (ea % size = 0 → s.bankLocs space u a off size = none → TakesTrap i s (q 0x07) (lanes [u]) false) ∧
      ∀ locs l, ea % size = 0 → s.bankLocs space u a off size = some locs → l ∈ locs → l / 16 ∈ s.slots →
        TakesTrap i s { q 0x0E with kind := 1 } (lanes [u]) false
    (∀ e ∈ bankLoadWords ++ bankStoreWords, ∀ f : FM, s.executing f.pred = [u] → (e.1 f).wf →
      traps (e.1 f) e.2 f.a (f.mod.toNat * 2 ^ f.w.toNat) (2 ^ f.w.toNat)) ∧
    ∀ e ∈ bankAtomicWords, ∀ f : FA, s.executing f.pred = [u] → (e.1 f).wf → traps (e.1 f) e.2 f.a 0 (if f.wide then 8 else 4)

/-- R33, R132, R139, R203: `LOAD_RETURN` and `ATOMIC_RETURN` write the registers of the operation, zero-extended and lowest word first, the flag
falls and the operation is over. -/
def Claims.ReturnsWrite : Prop :=
  ∀ e ∈ ([.loadReturn, .atomicReturn] : List (Nat → Instr)), ∀ (id : Nat) (o : Op) (s : State),
    s.op id = some o → o.poison = none → o.kind ≠ .sfu → o.kind ≠ .sqacq → o.regs.Nodup →
    ∃ t, exec (e id) s = .next t ∧ t.op id = none ∧ (∀ j, j ≠ id → t.op j = s.op j) ∧
      t = { s with threads := t.threads, ops := t.ops, groups := t.groups } ∧
      List.Forall₂ (fun a b => if a.uid = o.uid then
          (∀ (i n : Nat) (x : Word), o.regs[i]? = some n → (wordsOf (o.fill.take o.size))[i]? = some x → reg b n = x) ∧
          (∀ n, n ∉ o.regs → reg b n = reg a n) ∧ b.outs = a.outs - 1 ∧
          (∀ i, b.count i = a.count i - if i = o.sel ∧ i < 12 then 1 else 0) ∧
          b.preds = a.preds ∧ b.fstat = a.fstat ∧ b.pkt = a.pkt ∧ b.word = a.word
        else b = a) s.threads t.threads

/-- R203, R204: where the check of a reply's granule has failed, `LOAD_RETURN` and `ATOMIC_RETURN` write the registers all the same and mark each of them
poisoned with the access, its syndrome and its path tag; no other mark is made. -/
def Claims.BadRepliesPoison : Prop :=
  ∀ e ∈ ([.loadReturn, .atomicReturn] : List (Nat → Instr)), ∀ (id : Nat) (o : Op) (q : Poison) (s : State),
    s.op id = some o → o.poison = some q → o.regs.Nodup →
    ∃ t, exec (e id) s = .next t ∧ t.op id = none ∧ (∀ j, j ≠ id → t.op j = s.op j) ∧ t.mem = s.mem ∧
      List.Forall₂ (fun a b => if a.uid = o.uid then
          (∀ (i n : Nat) (x : Word), o.regs[i]? = some n → (wordsOf (o.fill.take o.size))[i]? = some x → reg b n = x) ∧
          (∀ n, n ∉ o.regs → reg b n = reg a n) ∧
          (∀ n ∈ o.regs, b.pois.find? (fun p => p.reg == n) = some { q with reg := n }) ∧
          (∀ n, n ∉ o.regs → b.pois.filter (fun p => p.reg == n) = a.pois.filter fun p => p.reg == n) ∧ b.pkt = a.pkt ∧ b.word = a.word ∧
          (∀ i, b.count i = a.count i - if i = o.sel ∧ i < 12 then 1 else 0)
        else b = a) s.threads t.threads

/-- R204, R376: the first word that reads a poisoned source takes a `HEM-FAULT` before it has any effect; the trap registers give the register as the word
names it and the access, syndrome and path tag that the mark has kept. Said of the words of Table 5.2 with a v register as their first source. -/
def Claims.PoisonTrapsAtRead : Prop :=
  ∀ e ∈ table52, ∀ (f : F3) (w : Word) (r : State) (u : Thread) (k : Nat) (p : Poison),
    OutsideTrap r → r.gangThreads = [u] → u.uid ∈ r.gang → (∀ v ∈ r.threads, v.uid ∈ r.gang → v = u) → 1 ≤ k → k ≤ 2 → u.word = k → u.again = [] →
    decodeWord w = .ok (e.1 f) → w.getLsbD 31 = false → Unstopped r u k (e.1 f) → u.p f.pred = true → f.a.toNat < 64 →
    u.pois.find? (fun q => q.reg == physReg (r.win u.tid) u.depth f.a.toNat) = some p →
    ∃ t, r.checkWords u k [w] = .done t ∧
      TookTrap r t { TrapReq.of 0x20 with addr := p.addr, space := p.space, reg := f.a.toNat, syn := p.syn, tag := p.tag } (lanes [u]) false

/-- R33: `STORE_ACK` lowers the thread's flag and nothing else. -/
def Claims.StoreAcknowledged : Prop :=
  ∀ (id : Nat) (o : Op) (s : State), s.op id = some o → o.kind = .store → o.regs = [] → o.preg = none →
    ∃ t, exec (.storeAck id) s = .next t ∧ t.op id = none ∧ t = { s with threads := t.threads, ops := t.ops } ∧
      List.Forall₂ (fun a b => if a.uid = o.uid then b = a.finish o.sel else b = a) s.threads t.threads ∧
      ∀ a : Thread, (a.finish o.sel).outs = a.outs - 1 ∧ ∀ i, (a.finish o.sel).count i = a.count i - if i = o.sel ∧ i < 12 then 1 else 0

/-! ### Barriers -/

/-- R232, R234: `BINIT` arms a FREE slot. -/
def Claims.BarrierArm : Prop :=
  ∀ (f : FB2) (s : State) (u : Thread) (l : Nat), OneSlot s f.pred f.sp f.a u l → l % 16 = 0 → l / 16 ∉ s.slots →
    1 ≤ (s.src u f.b).toNat → (s.src u f.b).toNat ≤ 65535 →
    ∃ t, exec (.binit f) s = .next t ∧ SlotTo s t l
      { owner := s.teamIndex u.tid % 2 ^ 15, landed := 0, target := 0, inflight := 0, fault := false, st := 1,
        pending := (s.src u f.b).toNat, phase := 0, expect := (s.src u f.b).toNat } fun a b => b = a.next

/-- R149, R235: n arrivals of one issue at an ARMED slot with more than n awaited lower `PENDING` by n and raise `TARGET` by the bytes they
declare, once each thread's earlier accesses are ordered; `BARV` declares none. Before that the gang waits. The slot keeps the time up to which
they have released (assumption 62). -/
def Claims.BarrierArrive : Prop :=
  ∀ (f : FB2) (h : FB1) (s : State) (l : Nat) (x : Slot), l % 16 = 0 → s.slotAt l = x → x.st = 1 → s.synAt l = 0 →
    ((∀ u ∈ s.executing f.pred, (s.src u f.a).toNat % 16 = 0 ∧ ∃ r, s.bankLocs (if f.sp then 3 else 2) u f.a 0 16 = some (l :: r)) →
      (s.executing f.pred).length < x.pending →
      x.target + ((s.executing f.pred).map fun u => (s.src u f.b).toNat).sum ≤ 2 ^ 27 - 1 →
      s.executing f.pred ≠ [] → (∀ u ∈ s.executing f.pred, s.threadOrdered 2 u = true) →
      ∃ t, exec (.bexp f) s = .next t ∧ (∀ u ∈ s.executing f.pred, s.orderTime (s.coreOf u.tid) ≤ t.relAt [l]) ∧ SlotTo s t l
        { x with pending := x.pending - (s.executing f.pred).length,
                 target := x.target + ((s.executing f.pred).map fun u => (s.src u f.b).toNat).sum } fun a b => b = a.next) ∧
    ((∀ u ∈ s.executing h.pred, (s.src u h.a).toNat % 16 = 0 ∧ ∃ r, s.bankLocs (if h.sp then 3 else 2) u h.a 0 16 = some (l :: r)) →
      (s.executing h.pred).length < x.pending → s.executing h.pred ≠ [] → (∀ u ∈ s.executing h.pred, s.threadOrdered 2 u = true) →
      ∃ t, exec (.barv h) s = .next t ∧ (∀ u ∈ s.executing h.pred, s.orderTime (s.coreOf u.tid) ≤ t.relAt [l]) ∧ SlotTo s t l
        { x with pending := x.pending - (s.executing h.pred).length } fun a b => b = a.next) ∧
    ((∃ u ∈ s.executing f.pred, s.threadOrdered 2 u = false) → WaitsOrder (.bexp f) s) ∧
    ((∃ u ∈ s.executing h.pred, s.threadOrdered 2 u = false) → WaitsOrder (.barv h) s)

/-- R235, R237: the last arrival of a phase whose bytes have landed completes it: `PHASE` advances, `PENDING` is `EXPECT` again, the
target is consumed, and every thread that waits for the phase is released with `not FAULT`, and has acquired what the arrivals released. -/
def Claims.BarrierComplete : Prop :=
  ∀ (f : FB1) (s : State) (u : Thread) (l : Nat) (x : Slot), OneSlot s f.pred f.sp f.a u l → l % 16 = 0 → s.slotAt l = x → x.st = 1 →
    x.pending = 1 → x.target ≤ x.landed → Distinct s → s.threadOrdered 2 u = true → (∀ v ∈ s.threads, v.uid ∈ s.gang → v.state = .runnable) →
    ∃ t, exec (.barv f) s = .next t ∧
      t.slotAt l = { x with landed := x.landed - x.target, target := 0, phase := (x.phase + 1) % 2 ^ 16, pending := x.expect } ∧
      (∀ a, ¬ (l ≤ a ∧ a < l + 16) → t.byte a = s.byte a) ∧
      (∀ v ∈ s.threads, v.state = .waiting → ∀ pd p was, v.wait = .slot l x.phase pd p was →
        s.relAt [l] ≤ t.ot (s.coreOf v.tid) ∧ s.orderTime (s.coreOf u.tid) ≤ t.ot (s.coreOf v.tid)) ∧
      List.Forall₂ (fun a b => if a.uid ∈ s.gang then b = a.next
        else if a.state = .waiting then
          (∀ pd p was, a.wait = .slot l x.phase pd p was → b = { a.setP pd (!x.fault) with state := .runnable, wait := .none }) ∧
          ((∀ pd p was, a.wait ≠ .slot l x.phase pd p was) → b = a)
        else b = a) s.threads t.threads

/-- R237: `BTEST` writes whether the phase has completed; `BWAIT` on a completed phase passes and writes `not FAULT`, on another it
registers the thread at the bank. A completed phase acquires what its arrivals released (Table 7.1). -/
def Claims.BarrierWait : Prop :=
  ∀ (f : FB3) (s : State) (u : Thread) (l : Nat) (x : Slot), OneSlot s f.pred f.sp f.a u l → s.slotAt l = x → x.st = 1 →
    let k := (s.src u f.b).toNat % 65536
    let d := (x.phase + 65536 - k) % 65536
    let acquires (t : State) : Prop := t = { s with threads := t.threads, ots := t.ots } ∧
      ∀ c, t.ot c = if c = s.coreOf u.tid then max (s.ot c) (s.relAt [l]) else s.ot c
    (1 ≤ d → d ≤ 32768 → ∃ t, exec (.btest f) s = .next t ∧ acquires t ∧ EachThread s t fun a b =>
      if a.uid = u.uid then b = (a.setP f.pd true).next else b = a.next) ∧
    (d = 0 ∨ 32768 < d → ∃ t, exec (.btest f) s = .next t ∧ OnlyThreads s t ∧ EachThread s t fun a b =>
      if a.uid = u.uid then b = (a.setP f.pd false).next else b = a.next) ∧
    (1 ≤ d → d ≤ 32768 → ∃ t, exec (.bwait f) s = .next t ∧ acquires t ∧ EachThread s t fun a b =>
      if a.uid = u.uid then b = (a.setP f.pd (!x.fault)).next else b = a.next) ∧
    (d = 0 ∨ 32768 < d → ∃ t, exec (.bwait f) s = .next t ∧ OnlyThreads s t ∧ EachThread s t fun a b =>
      if a.uid = u.uid then b = { a.next with state := .waiting, wait := .slot l k f.pd { pkt := u.pkt, word := u.word, clause := u.clause } (before s u) }
      else b = a.next)

/-- R238: `BRETIRE` between phases frees the slot, or leaves it RETIRING while copy items that name it are in flight. -/
def Claims.BarrierRetire : Prop :=
  ∀ (f : FB1) (s : State) (u : Thread) (l : Nat) (x : Slot), OneSlot s f.pred f.sp f.a u l → l % 16 = 0 → s.slotAt l = x → x.st = 1 →
    x.owner = s.teamIndex u.tid % 2 ^ 15 → x.pending = x.expect → x.target = 0 → x.landed = 0 →
    (∀ v ∈ s.threads, v.state = .waiting → ∀ k pd p was, v.wait ≠ .slot l k pd p was) →
    ∃ t, exec (.bretire f) s = .next t ∧ (∀ a, ¬ (l ≤ a ∧ a < l + 16) → t.byte a = s.byte a) ∧
      (x.inflight = 0 → SlotTo s t l (slotOf 0) (fun a b => b = a.next) ∧ ∀ i < 16, t.byte (l + i) = 0) ∧
      (x.inflight ≠ 0 → SlotTo s t l { x with st := 3 } fun a b => b = a.next)

/-- R233, R240, Table 12.3: a barrier word refused for one thread traps the gang with its kind, and no byte, no slot changes. -/
def Claims.BarrierMisuse : Prop :=
  ∀ (f : FB1) (h : FB2) (g : FB3) (s : State) (u : Thread) (l : Nat), OutsideTrap s →
    let q (a : BitVec 7) (sp : Bool) (k : Nat) : TrapReq :=
      { TrapReq.of 0x0E with kind := k, space := if sp then 3 else 2, addr := BitVec.ofNat 64 (s.src u a).toNat }
    (OneSlot s h.pred h.sp h.a u l → l / 16 ∈ s.slots → TakesTrap (.binit h) s (q h.a h.sp 2) (lanes [u]) false) ∧
    (OneSlot s h.pred h.sp h.a u l → l / 16 ∉ s.slots → ((s.src u h.b).toNat = 0 ∨ 65535 < (s.src u h.b).toNat) →
      TakesTrap (.binit h) s (q h.a h.sp 3) (lanes [u]) false) ∧
    (OneSlot s f.pred f.sp f.a u l → l / 16 ∉ s.slots → s.threadOrdered 2 u = true →
      TakesTrap (.barv f) s (q f.a f.sp 4) (lanes [u]) false ∧ TakesTrap (.bretire f) s (q f.a f.sp 4) (lanes [u]) false) ∧
    (OneSlot s g.pred g.sp g.a u l → l / 16 ∉ s.slots →
      TakesTrap (.bwait g) s (q g.a g.sp 4) (lanes [u]) false ∧ TakesTrap (.btest g) s (q g.a g.sp 4) (lanes [u]) false) ∧
    (OneSlot s f.pred f.sp f.a u l → (s.slotAt l).st = 1 → (s.slotAt l).pending = 0 → s.threadOrdered 2 u = true →
      TakesTrap (.barv f) s (q f.a f.sp 5) (lanes [u]) false) ∧
    (OneSlot s h.pred h.sp h.a u l → (s.slotAt l).st = 1 → (s.slotAt l).pending ≠ 0 → s.threadOrdered 2 u = true →
      2 ^ 27 - 1 < (s.slotAt l).target + (s.src u h.b).toNat → TakesTrap (.bexp h) s (q h.a h.sp 8) (lanes [u]) false)

/-- R149, R158, R242: a barrier of a group or team is complete when each of its threads that has not EXITED waits there with its earlier accesses
ordered at the barrier's scope; then exactly its waiters go on. -/
def Claims.HardwareBarrierReleases : Prop :=
  ∀ (s : State) (w : Wait) (ts : List Thread), (∀ u ∈ ts, u ∈ s.threads) → Distinct s →
    (s.gathered w ts = true ↔ (∃ u ∈ ts, u.state = .waiting ∧ u.wait = w) ∧
      ∀ u ∈ ts, u.state = .exited ∨ u.state = .waiting ∧ u.wait = w ∧
        ∀ o ∈ s.ops, o.uid = u.uid → s.accessOpen (if w = .gbar then 0 else 1) o = false) ∧
    List.Forall₂ (fun a b => ∃ p, b = if a ∈ ts ∧ a.state = .waiting ∧ a.wait = w then { a with state := .runnable, wait := .none, path := p } else a)
      s.threads (s.passBarrier w ts).threads

/-- R242: `GBAR` and `TBAR` make every thread of the gang wait behind the word. -/
def Claims.HardwareBarriers : Prop :=
  ∀ (f : FC) (s : State),
    MovesThreads (.gbar f) s (fun a => { a.next with state := .waiting, wait := .gbar }) ∧
    MovesThreads (.tbar f) s (fun a => { a.next with state := .waiting, wait := .tbar })

/-! ### Global memory, monitors and fences -/

/-- R134, R177, R179: a load that finds its sector owned by its own core is served there, whatever its lease: `rts` covers LT, LT rises to
`wts` and the copy's bytes come back; without a copy a `.WT` or `.SI` load asks the home with the core's LT, its registers held. -/
def Claims.GlobalLoad : Prop :=
  ∀ (f : FG) (s r : State) (u : Thread) (loc : Nat), OneAccess s r false f.pred f.a (2 ^ f.w.toNat) u loc → (Instr.ldg f).wf →
    let core := s.coreOf u.tid
    let sec := sectorKey (s.ctxOf u.tid) loc
    let o : Op := { s.opOf u .load (u.sel f.fb) with
      id := r.nextId, loc := loc, addr := s.srcPair u f.a, size := 2 ^ f.w.toNat, rtype := f.rtype.toNat,
      regs := run s u f.data.toNat (regsOf (2 ^ f.w.toNat)) }
    (∀ e, r.l1Of core sec = some e → e.st = .O → f.rtype ≠ 3 → (∀ g, e.syn.getD g 0 = 0) → FitsL1 r core (r.lt core) →
      ∃ t, exec (.ldg f) s = .next t ∧ t.mem = r.mem ∧ t.lt core = max (r.lt core) e.wts ∧
        t.l1Of core sec = some { e with rts := max e.rts (r.lt core) } ∧
        t.op r.nextId = some { o with fill := (e.data.drop (loc % 64)).take (2 ^ f.w.toNat) } ∧
        t.agenda = r.agenda ++ [.loadReturn r.nextId]) ∧
    (r.l1Of core sec = none → f.rtype = 1 ∨ f.rtype = 2 →
      ∃ t, exec (.ldg f) s = .next t ∧ t.mem = r.mem ∧ t.lts = r.lts ∧
        t.op r.nextId = some { o with req := .load, lt := r.lt core, sent := r.tick } ∧
        t.agenda = r.agenda ++ [.homeLoadRequest r.nextId] ∧
        ∃ lag, t.l1Of core sec = some { L1Sec.fresh core sec (s.ctxOf u.tid) .IV with held := [r.nextId], lag := lag })

/-- R134, R136, R178, R179, Table 8.4: a `.OWN` store into an owned sector is written with both stamps at the time it carries, the LT of its core and
that of its thread's last release (the model's way of keeping R151, assumption 62), and acknowledged at once; a `.WT` or
`.SI` store there that covers no whole granule, as one thread's store covers none, is merged and written back at once, and a copy is kept. Without
a copy the sector is taken owned first. No byte of memory changes at issue. -/
def Claims.GlobalStore : Prop :=
  ∀ (f : FG) (s r : State) (u : Thread) (loc : Nat), OneAccess s r true f.pred f.a (2 ^ f.w.toNat) u loc → (Instr.stg f).wf →
    let core := s.coreOf u.tid
    let sec := sectorKey (s.ctxOf u.tid) loc
    let merged (e e' : L1Sec) : Prop := e'.dirty = true ∧ e'.wts = writeTime r u ∧ e'.rts = writeTime r u ∧
      ∀ i < 64, e'.data.getD i 0 = if loc % 64 ≤ i ∧ i < loc % 64 + 2 ^ f.w.toNat then
        (s.storeBytes u f.data (2 ^ f.w.toNat)).getD (i - loc % 64) 0 else e.data.getD i 0
    r.thread u.uid = some u → (∀ e, r.l1Of core sec = some e → e.st = .O → (∀ g, e.syn.getD g 0 = 0) → AtL1 r core (writeTime r u) →
      (f.rtype = 0 → ∃ t e', exec (.stg f) s = .next t ∧ t.mem = r.mem ∧ t.l1Of core sec = some e' ∧ e'.st = .O ∧ merged e e' ∧
        .storeAck r.nextId ∈ t.agenda) ∧
      (f.rtype = 1 ∨ f.rtype = 2 → ∃ t e', exec (.stg f) s = .next t ∧ t.mem = r.mem ∧ t.l1Of core sec = some e' ∧ e'.st = .OI ∧
        e'.keep = true ∧ merged e e' ∧ (f.rtype = 2 → e'.si = true) ∧ e'.held = e.held ++ [r.nextId + 1] ∧
        .writeBackReceive sec core { wb := false, wts := writeTime r u, rts := writeTime r u, data := e'.data, syn := e'.syn } ∈ t.agenda)) ∧
    (r.l1Of core sec = none →
      ∃ t o, exec (.stg f) s = .next t ∧ t.mem = r.mem ∧ t.op (r.nextId + 1) = some o ∧ o.req = .own ∧ o.lt = writeTime r u ∧
        o.waits = [r.nextId] ∧ .homeOwnedRequest o.id ∈ t.agenda)

/-- R138: an atomic on a sector that its core owns is performed there with both stamps at the time it carries, and returns the old value; without a copy
it goes to the home with that time. -/
def Claims.GlobalAtomic : Prop :=
  ∀ (f : FA) (s r : State) (u : Thread) (loc : Nat), (Instr.atg f).wf →
    let n := if f.wide then 8 else 4
    let core := s.coreOf u.tid
    let sec := sectorKey (s.ctxOf u.tid) loc
    OneAccess s r true f.pred f.a n u loc → r.thread u.uid = some u →
    (∀ e, r.l1Of core sec = some e → e.st = .O → (∀ g, e.syn.getD g 0 = 0) → e.data.length = 64 → AtL1 r core (writeTime r u) →
      let old := (e.data.drop (loc % 64)).take n
      ∃ t e' o, exec (.atg f) s = .next t ∧ t.mem = r.mem ∧ t.l1Of core sec = some e' ∧ e'.wts = writeTime r u ∧ e'.rts = writeTime r u ∧
        e'.dirty = true ∧ (e'.data.drop (loc % 64)).take n = natLe n (atomicResult f.aop.toNat (8 * n) (leNat old) (s.atomicArgs u f)) ∧
        t.op r.nextId = some o ∧ o.fill = old ∧ o.regs = run s u f.data.toNat (n / 4) ∧ .atomicReturn r.nextId ∈ t.agenda) ∧
    (r.l1Of core sec = none → ∃ t o, exec (.atg f) s = .next t ∧ t.mem = r.mem ∧ t.op r.nextId = some o ∧ o.req = .atomic ∧
      o.lt = writeTime r u ∧ o.args = s.atomicArgs u f ∧ o.aop = f.aop.toNat ∧ .homeWriteThrough r.nextId ∈ t.agenda)

/-- R140: `PFG` passes on in every thread, writes no register and leaves LT alone. -/
def Claims.Prefetch : Prop :=
  ∀ (f : FPfg) (s : State), ∃ t, exec (.pfg f) s = .next t ∧ PassOn s t ∧ t.groups = s.groups ∧ t.lts = s.lts ∧
    (s.executing f.pred = [] → OnlyThreads s t)

/-- R145: `MON` arms the thread's monitor on the sector of its address, refused where the home has 1,024 armed ones, and reads the sector as a
`.WT` load that writes no register: from a copy whose lease covers the core's time, which raises LT, or with a request to the home. -/
def Claims.MonitorArms : Prop :=
  ∀ (f : FMon) (s r : State) (u : Thread) (loc : Nat), s.executing f.pred = [u] → Distinct r → (∀ o ∈ r.ops, o.id < r.nextId) →
    s.reach false (fun t => s.pairNat t f.a / 64 * 64) [u] = (r, [(u, loc)]) → isRemote loc = false →
    r.regionOf (s.ctxOf u.tid) (s.srcPair u f.a).toNat = none →
    (∀ va k, r.watchesOn (s.ctxOf u.tid) va 64 k = []) →
    let core := s.coreOf u.tid
    let sec := sectorKey (s.ctxOf u.tid) (loc / 64 * 64)
    ∃ t, exec (.mon f) s = .next t ∧ t.mem = r.mem ∧
      (∀ b ∈ t.threads, b.uid = u.uid → b.regs = u.regs ∧ b.preds = u.preds ∧
        ∃ m, b.mon = some m ∧ m.sec = sec ∧ m.fired = false ∧
          (m.refused = true ↔ 1024 ≤ r.registered (r.homeSlice (s.ctxOf u.tid) (loc / 64 * 64)))) ∧
      (r.l1Of core sec = none → ∃ o, t.op r.nextId = some o ∧ o.kind = .mon ∧ o.req = .load ∧ o.regs = [] ∧ o.lt = r.lt core ∧
        t.agenda = r.agenda ++ [.homeLoadRequest r.nextId]) ∧
      ∀ e, r.l1Of core sec = some e → e.st = .V → r.orderTime core ≤ e.rts → t.op r.nextId = none ∧ t.lt core = max (r.lt core) e.wts

/-- R146: `MWAIT` holds the executing threads that have an armed monitor which has not fired; a thread without one passes; one whose monitor has
fired wakes at once, with LT at the write's time. -/
def Claims.MonitorWaits : Prop :=
  ∀ (f : FP) (s : State), Distinct s →
    ((∀ u ∈ s.executing f.pred, ∀ m, u.mon = some m → m.fired = false) → MovesThreads (.mwait f) s fun a => if a.p f.pred then
        match a.mon with
        | some m => { a.next with state := .waiting, wait := .mwait { pkt := a.pkt, word := a.word, clause := a.clause }, mon := some { m with since := some s.tick } }
        | none => a.next
      else a.next) ∧
    ∀ u m, s.executing f.pred = [u] → u.mon = some m → m.fired = true → u.state = .runnable →
      ∃ t, exec (.mwait f) s = .next t ∧ t = { s with threads := t.threads, l1 := t.l1, lts := t.lts } ∧
        (EachThread s t fun a b => b = if a.uid = u.uid then { a.next with mon := none } else a.next) ∧
        (s.l1Of (s.coreOf u.tid) m.sec = none → t.lt (s.coreOf u.tid) = max (s.lt (s.coreOf u.tid)) m.wts)

/-- R146: a write ordered to the sector wakes a waiting thread: the monitor is disarmed, a copy in V is dropped and LT rises to the copy's
`rts` + 1 and to `wts`; a thread that does not wait yet keeps the event. A timeout wakes without a `wts`. -/
def Claims.MonitorWakes : Prop :=
  ∀ (s : State) (u : Thread) (m : Monitor) (w : Nat), s.thread u.uid = some u → u.mon = some m → Distinct s →
    let core := s.coreOf u.tid
    (∀ p, u.state = .waiting → u.wait = .mwait p →
      (∀ i ∈ ([(.mwaitWake u.uid w, w), (.mwaitTimeout u.uid, 0)] : List (Instr × Nat)), ∃ t, exec i.1 s = .next t ∧
        t.thread u.uid = some { u with mon := none, state := .runnable, wait := .none } ∧
        (∀ e, s.l1Of core m.sec = some e → e.st = .V →
          t.l1Of core m.sec = none ∧ t.lt core = max (s.lt core) (max (e.rts + 1) i.2)) ∧
        (s.l1Of core m.sec = none → t.lt core = max (s.lt core) i.2))) ∧
    (¬ (u.state = .waiting ∧ ∃ p, u.wait = .mwait p) → ∃ t, exec (.mwaitWake u.uid w) s = .next t ∧
      t.thread u.uid = some { u with mon := some { m with fired := true, wts := max m.wts w } } ∧
      exec (.mwaitTimeout u.uid) s = .next s)

/-- R149, Tables 6.6 and 7.1: what a release at a scope waits for, of what was issued before it: the accesses of the threads that it orders,
fabric ones at `.SYSTEM` only, stores and publications as far as the scope's point; from `.CLUSTER` on the global stores and atomics of the whole
core besides (the model's reading of R152, assumption 62). -/
def Claims.ReleaseConditions : Prop :=
  ∀ (s : State),
    (∀ (own : List Nat) (core c scope cut : Nat), s.ordered own core c scope cut = true ↔ ∀ o ∈ s.ops, o.id < cut →
      (o.uid ∈ own → s.accessOpen scope o = false) ∧
      (2 ≤ scope → o.uid ≠ 0 → o.agent = core → o.ctx = c → o.space = 0 → s.storeOpen scope o = false)) ∧
    ∀ (o : Op) (scope : Nat),
      (o.kind = .load ∨ o.kind = .atomic ∨ o.kind = .mon → (s.accessOpen scope o = true ↔ o.space ≠ 1 ∨ scope = 4)) ∧
      (o.kind = .store → o.space = 1 → (s.accessOpen scope o = true ↔ scope = 4)) ∧
      (o.kind = .store → 2 ≤ o.space ∨ (o.space = 0 ∧ (2 ≤ scope ∨ o.rtype = 3)) → s.accessOpen scope o = true) ∧
      (o.kind = .pubf → (s.accessOpen scope o = true ↔ scope = 4))

/-- R147, R174, Table 6.6: with nothing outstanding that it waits for a `FENCE` passes and changes no LT: a release at `.CLUSTER` or wider marks what its
threads store from then on with the time up to which its core has acquired, in fabric memory only at `.SYSTEM` (assumption 62), an acquire takes such
times, drops the self-invalidating copies from `.DEVICE` on and the fabric copies at `.SYSTEM`. While an access that it waits for is outstanding the
whole gang stalls. -/
def Claims.Fences : Prop :=
  ∀ (f : FFence) (s : State),
    let gs := s.fenceGroups f.pred
    Distinct s → (∀ u ∈ s.executing f.pred, ∃ g ∈ s.groups, s.groupOf u = some g ∧ s.group g.gid = some g) →
    ((∀ g ∈ gs, (∀ v ∈ s.members g, v.parkedAccess = false) ∧ Quiet s ((s.members g).map Thread.uid) (s.coreOf g.tid) f.scope.toNat) →
      f.kind = 1 ∨ f.kind = 2 ∨ f.kind = 3 →
      ∃ t, exec (.fence f) s = .next t ∧
        t = { s with threads := t.threads, ots := t.ots, l1 := t.l1, fab := t.fab } ∧
        (EachThread s t fun a b => b = { a.next with
          rel := if f.kind ≠ 2 ∧ 2 ≤ f.scope.toNat ∧ a.p f.pred then s.orderTime (s.coreOf a.tid) else a.rel,
          relSys := if f.kind ≠ 2 ∧ f.scope = 4 ∧ a.p f.pred then s.orderTime (s.coreOf a.tid) else a.relSys }) ∧
        (f.kind = 1 ∨ f.scope.toNat < 2 → t.ots = s.ots) ∧ (∀ c, s.ot c ≤ t.ot c) ∧
        (f.kind ≠ 1 → 2 ≤ f.scope.toNat → ∀ u ∈ s.executing f.pred, u.got ≤ t.ot (s.coreOf u.tid)) ∧
        (f.kind ≠ 1 → f.scope = 4 → ∀ u ∈ s.executing f.pred, u.gotSys ≤ t.ot (s.coreOf u.tid)) ∧
        (f.kind ≠ 1 → 3 ≤ f.scope.toNat → ∀ g ∈ gs, ∀ e ∈ t.l1, e.core = s.coreOf g.tid → e.si → e.st ≠ .V) ∧
        (∀ e ∈ s.l1, (∀ g ∈ gs, e.core ≠ s.coreOf g.tid) → e ∈ t.l1) ∧
        (f.kind ≠ 1 → f.scope = 4 → ∀ g ∈ gs, ∀ e ∈ t.fab, e.core ≠ s.coreOf g.tid) ∧
        (f.kind = 1 ∨ f.scope.toNat < 3 → t.l1 = s.l1 ∧ t.fab = s.fab)) ∧
    ((∃ g ∈ gs, ∃ v ∈ s.members g, ∃ o ∈ s.ops, o.uid = v.uid ∧ o.id < s.gangCut ∧
        ((f.kind = 1 ∨ f.kind = 3) ∧ s.accessOpen f.scope.toNat o = true ∨ (f.kind = 2 ∨ f.kind = 3) ∧ (o.kind = .load ∨ o.kind = .atomic))) →
      ∃ t, exec (.fence f) s = .next t ∧ t = { s with threads := t.threads, ops := t.ops } ∧
        EachThread s t fun a b => b = { a with state := .waiting, wait := .fence, cut := some (a.cut.getD s.nextId) })

/-! ### Timestamp coherence -/

/-- R177, Table 8.3: a load at a home in S extends the read lease (a `.UC` one to the request's LT and `wts`), answers with `wts` and `rts`, and
brings data unless it renews the copy that the home holds. -/
def Claims.HomeLoad : Prop :=
  ∀ (s : State) (id : Nat) (o : Op) (h : HomeSec), AtHome s id o h → h.st = .S → h.queue = [] → o.req = .load →
    let r := if o.rtype = 3 then max h.rts (max o.lt h.wts) else max h.rts (o.lt + s.lease o.ctx)
    Fits s o.sec r → ∃ t, exec (.homeLoadRequest id) s = .next t ∧ t.homeOf o.sec = { h with rts := r } ∧
      t.op id = some { o with
        wts := h.wts, rts := r,
        data := if o.carry = some h.wts then [] else s.bytes (sectorLoc o.sec) 64,
        syn := if o.carry = some h.wts then [] else s.homeSyn o.sec } ∧
      t.agenda = s.agenda ++ [.fillReply id] ∧ t = { s with home := t.home, ops := t.ops, agenda := t.agenda }

/-- R178: a write-through at a home in S takes `wts = rts = max(LT, rts + 1)`, writes exactly the bytes of its mask, tells the monitors and
is acknowledged, with the write time that the home had before (assumption 63). A granule that it covers takes its syndrome. -/
def Claims.HomeWrite : Prop :=
  ∀ (s : State) (id : Nat) (o : Op) (h : HomeSec), AtHome s id o h → h.st = .S → h.queue = [] → o.req = .write →
    let w := max o.lt (h.rts + 1)
    Fits s o.sec w → ∃ t, exec (.homeWriteThrough id) s = .next t ∧ t.homeOf o.sec = { h with wts := w, rts := w } ∧
      t.op id = some { o with wts := w, rts := h.wts } ∧ .writeThroughAck id ∈ t.agenda ∧ WakesMonitors s t o.sec w ∧
      (∀ g < 2, t.synAt (sectorLoc o.sec + 32 * g) =
        if o.mask.extractLsb' (32 * g) 32 = 0 then s.synAt (sectorLoc o.sec + 32 * g) else o.syn.getD g 0) ∧
      (∀ i < 64, t.byte (sectorLoc o.sec + i) = if o.mask.getLsbD i then o.data.getD i 0 else s.byte (sectorLoc o.sec + i)) ∧
      ∀ l, ¬ (sectorLoc o.sec ≤ l ∧ l < sectorLoc o.sec + 64) → t.byte l = s.byte l

/-- R138, R139: an atomic at a home in S is a load and a write-through in one. -/
def Claims.HomeAtomic : Prop :=
  ∀ (s : State) (id : Nat) (o : Op) (h : HomeSec), AtHome s id o h → h.st = .S → h.queue = [] → o.req = .atomic →
    (∀ g, (s.homeSyn o.sec).getD g 0 = 0) → o.loc % 64 + o.size ≤ 64 →
    let w := max o.lt (h.rts + 1)
    let at_ := sectorLoc o.sec + o.loc % 64
    Fits s o.sec w → ∃ t, exec (.homeWriteThrough id) s = .next t ∧ t.homeOf o.sec = { h with wts := w, rts := w } ∧
      t.op id = some { o with wts := w, rts := h.wts, fill := s.bytes at_ o.size, poison := none } ∧ .writeThroughAck id ∈ t.agenda ∧ WakesMonitors s t o.sec w ∧
      t.bytes at_ o.size = natLe o.size (atomicResult o.aop (8 * o.size) (leNat (s.bytes at_ o.size)) o.args) ∧
      ∀ l, ¬ (at_ ≤ l ∧ l < at_ + o.size) → t.byte l = s.byte l

/-- R179, R181, R183: an owned request at a home in S is granted with a new write time, without data where it upgrades the home's copy. -/
def Claims.HomeGrant : Prop :=
  ∀ (s : State) (id : Nat) (o : Op) (h : HomeSec), AtHome s id o h → h.st = .S → h.queue = [] → o.req = .own →
    let w := max o.lt (h.rts + 1)
    Fits s o.sec w → ∃ t, exec (.homeOwnedRequest id) s = .next t ∧ t.homeOf o.sec = { h with st := .G o.agent } ∧ t.mem = s.mem ∧
      t.op id = some { o with
        wts := w,
        fill := if o.carry = some h.wts then [] else s.bytes (sectorLoc o.sec) 64,
        syn := if o.carry = some h.wts then [] else s.homeSyn o.sec } ∧
      .ownedGrant id ∈ t.agenda ∧ WakesMonitors s t o.sec w

/-- R181, R182, Table 8.3: at a home in O an owned request sends a forward and any other a recall; in G, F, C and W requests wait in order; a
slice with 512 waiting requests refuses one, which is sent again 64 cycles later, and so it does one behind an earlier refused request of its agent for
the sector (R133). -/
def Claims.HomeOwned : Prop :=
  ∀ e ∈ ([(.homeLoadRequest, .load), (.homeWriteThrough, .write), (.homeWriteThrough, .atomic), (.homeOwnedRequest, .own)] :
      List ((Nat → Instr) × Req)), ∀ (s : State) (id : Nat) (o : Op) (h : HomeSec), o.req = e.2 →
    (AtHome s id o h → ∀ c, h.st = .O c → h.queue = [] → ∃ t, exec (e.1 id) s = .next t ∧ t.mem = s.mem ∧
      t.homeOf o.sec = (if e.2 = .own then { h with st := .F c id } else { h with st := .C c, queue := [id] }) ∧
      t.agenda = s.agenda ++ [if e.2 = .own then .forwardReceive o.sec c else .recallReceive o.sec c]) ∧
    (AtHome s id o h → (∀ c, h.st ≠ .O c) → h.st ≠ .S → ∃ t, exec (e.1 id) s = .next t ∧ t.mem = s.mem ∧ t.agenda = s.agenda ∧
      t.homeOf o.sec = { h with queue := h.queue ++ [id] }) ∧
    (s.op id = some o → s.homeOf o.sec = h →
      ((∀ c, h.st ≠ .O c) ∧ h.st ≠ .S ∧ 512 ≤ s.waitingAt (s.homeSlice o.ctx o.loc)) ∨
        (∃ x ∈ s.ops, x.agent = o.agent ∧ x.sec = o.sec ∧ x.space = 0 ∧ x.refused = true ∧ x.id < id) → ∃ t, exec (e.1 id) s = .next t ∧
        t.op id = some { o with refused := true, again := some (s.tick + 64) } ∧ t = { s with ops := t.ops })

/-- R182: a refused request is sent again as it was, and stays refused until its home has room for it: what its agent sends later does not pass it. -/
def Claims.Resend : Prop :=
  ∀ e ∈ ([(.homeLoadRequest, .load), (.homeWriteThrough, .write), (.homeWriteThrough, .atomic), (.homeOwnedRequest, .own)] :
      List ((Nat → Instr) × Req)), ∀ (s : State) (id : Nat) (o : Op), s.op id = some o → o.req = e.2 →
    exec (.requestRefusedResend id) s = .next { s with
      ops := s.ops.map fun x => if x.id = id then { x with again := none, sent := s.tick } else x, agenda := s.agenda ++ [e.1 id] }

/-- R179, R183, R187: a grant installs the sector owned with `wts = rts` and raises LT; a grant without data keeps the copy's. A grant to a copy
engine raises its item's LT. -/
def Claims.GrantArrives : Prop :=
  (∀ (s : State) (id : Nat) (o : Op), s.op id = some o → 384 ≤ o.agent → ∃ t, exec (.ownedGrant id) s = .next t ∧ t.mem = s.mem ∧
    t.op id = some { o with done := true, req := .none } ∧ .grantAcknowledge o.sec o.agent ∈ t.agenda ∧
    List.Forall₂ (fun x y => y = if x.id = o.aop then { x with lt := max x.lt o.wts } else x) s.items t.items) ∧
  ∀ (s : State) (id : Nat) (o : Op) (e : L1Sec), s.op id = some o → o.agent < 384 → s.l1Of o.agent o.sec = some e → e.held = [] → e.drop = none →
    AtL1 s o.agent o.wts → ∃ t, exec (.ownedGrant id) s = .next t ∧ t.mem = s.mem ∧ t.lt o.agent = max (s.lt o.agent) o.wts ∧
      t.l1Of o.agent o.sec = some { L1Sec.fresh o.agent o.sec o.ctx .O with
        wts := o.wts, rts := o.wts, data := if o.fill.isEmpty then e.data else o.fill, syn := if o.fill.isEmpty then e.syn else o.syn } ∧
      .grantAcknowledge o.sec o.agent ∈ t.agenda

/-- R180, R184: an owner that a forward reaches gives the sector up, one that a recall reaches keeps a V copy; both send data, if dirty, and
stamps. An L1 that does not own the sector answers "written back". -/
def Claims.OwnerGivesUp : Prop :=
  ∀ (s : State) (sec agent : Nat), agent < 384 →
    (∀ e, s.l1Of agent sec = some e → e.st = .O →
      let a : SecImg := { wb := false, wts := e.wts, rts := e.rts, data := if e.dirty then e.data else [], syn := if e.dirty then e.syn else [] }
      (∃ t, exec (.forwardReceive sec agent) s = .next t ∧ t.l1Of agent sec = none ∧ t.agenda = s.agenda ++ [.ownerAnswer sec agent a] ∧
        t = { s with l1 := t.l1, agenda := t.agenda }) ∧
      ∃ t, exec (.recallReceive sec agent) s = .next t ∧ t.l1Of agent sec = some { e with st := .V, dirty := false } ∧
        t.agenda = s.agenda ++ [.ownerAnswer sec agent a] ∧ t = { s with l1 := t.l1, agenda := t.agenda }) ∧
    ((∀ e, s.l1Of agent sec = some e → e.st ≠ .O) → ∀ i ∈ ([.forwardReceive sec agent, .recallReceive sec agent] : List Instr),
      ∃ t, exec i s = .next t ∧ t = { s with agenda := s.agenda ++ [.ownerAnswer sec agent { wb := true, wts := 0, rts := 0, data := [], syn := [] }] })

/-- R179, R181: the acknowledgement of a grant makes the sector owned; an owner's answer to a recall brings it to S with the owner's data
and stamps. -/
def Claims.HomeSettles : Prop :=
  ∀ (s : State) (sec agent : Nat) (h : HomeSec), s.homeOf sec = h → h.queue = [] →
    (h.st = .G agent → ∃ t, exec (.grantAcknowledge sec agent) s = .next t ∧ t.homeOf sec = { h with st := .O agent } ∧
      t = { s with home := t.home }) ∧
    (∀ a : SecImg, h.st = .C agent → a.wb = false → a.data.length = 64 ∨ a.data = [] → AtBase s sec a.wts → AtBase s sec (max h.rts a.rts) → ∃ t, exec (.ownerAnswer sec agent a) s = .next t ∧
      t.homeOf sec = { h with st := .S, wts := a.wts, rts := max h.rts a.rts } ∧
      (a.data.length = 64 → t.bytes (sectorLoc sec) 64 = a.data) ∧ (a.data = [] → t.mem = s.mem) ∧
      ∀ l, ¬ (sectorLoc sec ≤ l ∧ l < sectorLoc sec + 64) → t.byte l = s.byte l) ∧
    (∀ a : SecImg, h.st = .O agent → a.data.length = 64 ∨ a.data = [] → AtBase s sec a.wts → AtBase s sec (max h.rts a.rts) → ∃ t, exec (.writeBackReceive sec agent a) s = .next t ∧
      t.homeOf sec = { h with st := .S, wts := a.wts, rts := max h.rts a.rts } ∧ .writeBackAck sec agent a.wts ∈ t.agenda ∧
      (a.data.length = 64 → t.bytes (sectorLoc sec) 64 = a.data) ∧
      ∀ l, ¬ (sectorLoc sec ≤ l ∧ l < sectorLoc sec + 64) → t.byte l = s.byte l)

/-- R180: the acknowledgement of a write-back takes the L1 out of OI and raises LT. -/
def Claims.WriteBackAcknowledged : Prop :=
  ∀ (s : State) (sec agent w : Nat) (e : L1Sec), agent < 384 → s.l1Of agent sec = some e → e.st = .OI → e.held = [] →
    ∃ t, exec (.writeBackAck sec agent w) s = .next t ∧ t.lt agent = max (s.lt agent) w ∧ t.mem = s.mem ∧
      t.l1Of agent sec = (if e.keep then some { e with st := .V, held := [], dirty := false, keep := false } else none)

/-- R177, R180: the reply to a fill installs the copy with its lease, raises LT and returns the data to the load that asked. -/
def Claims.FillArrives : Prop :=
  ∀ (s : State) (id : Nat) (o : Op) (e : L1Sec), s.op id = some o → o.kind = .load → o.rtype ≠ 3 → o.data.length = 64 → (∀ g, o.syn.getD g 0 = 0) →
    s.l1Of o.agent o.sec = some e → e.held = [id] → e.pend = [] → e.drop = none → AtL1 s o.agent o.rts → AtL1 s o.agent o.wts →
    ∃ t o', exec (.fillReply id) s = .next t ∧ t.mem = s.mem ∧ t.lt o.agent = max (s.lt o.agent) o.wts ∧
      t.l1Of o.agent o.sec = some { e with st := .V, wts := o.wts, rts := o.rts, si := o.rtype == 2, stale := false, data := o.data, syn := o.syn, held := [] } ∧
      t.op id = some o' ∧ o'.fill = (o.data.drop (o.loc % 64)).take o.size ∧ o'.poison = none ∧ .loadReturn id ∈ t.agenda

/-- R178, R180: the acknowledgement of a write-through raises LT to the `wts` it carries, ends the copy's pending words of that store and
acknowledges the threads whose stores it carried; an atomic's old value returns. The copy stays where it shows the home's last write before, and
else goes (the model's way of keeping R153, assumption 63). -/
def Claims.WriteThroughAcknowledged : Prop :=
  ∀ (s : State) (id : Nat) (o : Op), s.op id = some o → AtL1 s o.agent o.wts →
    ∃ t, exec (.writeThroughAck id) s = .next t ∧ t.mem = s.mem ∧ t.lt o.agent = max (s.lt o.agent) o.wts ∧
      (o.kind = .store → t.op id = none ∧ ∀ w ∈ o.waits, .storeAck w ∈ t.agenda) ∧
      (o.kind = .atomic → .atomicReturn id ∈ t.agenda ∧ (t.op id).map (fun x => x.fill) = some o.fill) ∧
      ∀ e, s.l1Of o.agent o.sec = some e → e.st = .P → e.drop = none → e.pend ≠ [] → (∀ p ∈ e.pend, p.2 = id) →
        t.l1Of o.agent o.sec = if e.stale = false ∧ (o.wts ≤ e.wts ∨ e.wts = o.rts)
          then some { e with pend := [], st := .V, wts := o.wts, rts := o.wts } else none

/-- R174, R175: at a drift step every core whose period divides the tick advances its LT by one. -/
def Claims.Drift : Prop :=
  ∀ (s : State), ∃ t, exec .driftStep s = .next t ∧ t = { s with lts := t.lts } ∧
    ∀ k < 384, t.lt k = s.lt k + if s.tick % max 1 (s.driftOf k) = 0 then 1 else 0

/-- R189: once no coherence message is in flight a rebase lowers every LT, floor and base by 2^46, not below 0, drops the copies in V and
those of fabric sectors, and counts; with one in flight it does nothing yet. -/
def Claims.Rebase : Prop :=
  ∀ (s : State),
    (s.messages = true → exec .packageRebase s = .next s) ∧
    (s.messages = false → (s.lts.map Prod.fst).Nodup → (s.floors.map Prod.fst).Nodup →
      ∃ t, exec .packageRebase s = .next t ∧ t.mem = s.mem ∧ (∀ k, t.lt k = s.lt k - 2 ^ 46) ∧
        (∀ k, SMap.get 0 t.floors k = SMap.get 0 s.floors k - 2 ^ 46) ∧ (∀ e ∈ t.l1, e.st ≠ .V) ∧
        t.fab = [] ∧ t.rebases = (s.rebases + 1) % 256 ∧ t.tick = s.tick)

/-- R193, R195: an executed `PRESS` of a valid region acts once for the core, each executing thread counting it, and writes the core's RD sectors
of the region back; while the core's earlier press or stores into the region are outstanding the gang stalls. Of an invalid region it traps; with no
executing thread it only passes on. A core accepts a floor that is not below its own. -/
def Claims.Press : Prop :=
  ∀ (f : FPress) (s : State),
    (s.executing f.pred = [] → MovesThreads (.press f) s Thread.next) ∧
    (∀ u r, s.executing f.pred = u :: r →
      let core := s.coreOf u.tid
      (∀ x e, s.ctx (s.ctxOf u.tid) = some x → x.regions[f.region.toNat]? = some e → e.v = true →
        ((∃ o ∈ s.ops, o.agent = core ∧ (o.kind = .press ∧ o.uid = 0 ∧ o.size = 0 ∨
          o.kind = .store ∧ o.uid ≠ 0 ∧ o.ctx = s.ctxOf u.tid ∧ o.region = some f.region.toNat ∧ o.id < s.gangCut)) → WaitsOrder (.press f) s) ∧
        ((∀ o ∈ s.ops, o.agent = core → o.kind ≠ .press ∧ (o.kind = .store → o.region ≠ some f.region.toNat)) →
          ∃ t, exec (.press f) s = .next t ∧ t.mem = s.mem ∧
          (EachThread s t fun a b => b.pkt = a.next.pkt ∧ b.word = a.next.word ∧ b.regs = a.regs ∧ b.preds = a.preds ∧
            Counts ((u :: r).map fun v => s.opOf v .press (v.sel f.fb)) a b) ∧
          (∃ o ∈ t.ops, o.kind = .press ∧ o.uid = 0 ∧ o.size = 0 ∧ o.region = some f.region.toNat ∧ o.agent = core ∧ o.waits.length = r.length + 1) ∧
          ∀ y ∈ s.l1, y.core = core → y.ctx = s.ctxOf u.tid → y.st = .RD → y.region = some f.region.toNat →
            ∃ o ∈ t.ops, o.kind = .press ∧ o.agent = core ∧ o.loc = sectorLoc y.sec ∧ o.data = y.data ∧ .homeWriteThrough o.id ∈ t.agenda)) ∧
      (OutsideTrap s → (∀ x e, s.ctx (s.ctxOf u.tid) = some x → x.regions[f.region.toNat]? = some e → e.v = false) →
        TakesTrap (.press f) s (TrapReq.of 0x0F) (lanes s.gangThreads) false)) ∧
    ∀ core ctx region floor, ∃ t, exec (.floorMessage core ctx region floor) s = .next t ∧ t = { s with floors := t.floors } ∧
      ∀ k c r, ctx < 65 → region < 16 → c < 65 → r < 16 → t.floorOf k c (some r) =
        if k = core ∧ c = ctx ∧ r = region then max floor (s.floorOf k c (some r)) else s.floorOf k c (some r)

/-! ### Fabric memory -/

/-- R33, R130, R135, R360: a fabric load leaves on the port that R353 gives, its registers held; a copy in the core's L1 serves every type but `.UC`;
one that no port reaches is refused with `FABST.LINK-LOST`. That a read of the copy takes and leaves a time is the model's choice (assumption 62). -/
def Claims.FabricLoad : Prop :=
  ∀ (f : FLdf) (s : State) (u : Thread), OneFabric s f.pred f.a (2 ^ f.w.toNat) u → (Instr.ldf f).wf →
    let x := s.srcPair u f.a
    let o : Op := { s.opOf u .load (u.sel f.fb) with
      id := s.nextId, space := 1, loc := fabLoc x, addr := x, size := 2 ^ f.w.toNat, rtype := f.rtype.toNat, lt := u.relSys,
      due := some (s.remoteDue (s.ctxOf u.tid)), regs := run s u f.data.toNat (regsOf (2 ^ f.w.toNat)), aop := f.asplit.toNat, args := [1] }
    fabLoadOk x →
    (f.rtype = 3 ∨ s.fabOf o.agent o.ctx (fabSec x) = none →
      (∀ p, s.portTo (fabKind x) (fabNode x) (fabOff x) = some p →
        ∃ t, exec (.ldf f) s = .next t ∧ SendsOff s t { o with port := p, via := [p] } (.flitReceive p true s.nextId) ∧ t.fab = s.fab) ∧
      (s.portTo (fabKind x) (fabNode x) (fabOff x) = none →
        ∃ t, exec (.ldf f) s = .next t ∧ t.mem = s.mem ∧ t.op s.nextId = some { o with done := true } ∧
          t.agenda = s.agenda ++ [.remoteTimeout s.nextId] ∧ FabstOf s t (s.gidOf u) (· ||| 4))) ∧
    (∀ e, f.rtype ≠ 3 → s.fabOf o.agent o.ctx (fabSec x) = some e → (∀ g, e.syn.getD g 0 = 0) →
      ∃ t, exec (.ldf f) s = .next t ∧
        SendsOff (s.leaveRead u.relSys [o.loc]) t { o with fill := (e.data.drop (o.loc % 64)).take o.size } (.loadReturn s.nextId) e.rel ∧
        t.fab = s.fab)

/-- R135, R136, R353: a fabric store updates the core's copy and leaves on the port for its target, one request a sector. -/
def Claims.FabricStore : Prop :=
  ∀ (f : FG) (s : State) (u : Thread) (p : Nat), OneFabric s f.pred f.a (2 ^ f.w.toNat) u → (Instr.stf f).wf →
    let x := s.srcPair u f.a
    let l := fabLoc x % 64
    let bs := s.storeBytes u f.data (2 ^ f.w.toNat)
    fabStoreOk x → s.portTo (fabKind x) (fabNode x) (fabOff x) = some p →
    ∃ t o, exec (.stf f) s = .next t ∧ t.mem = s.mem ∧ t.op (s.nextId + 1) = some o ∧ o.kind = .store ∧ o.uid = 0 ∧ o.space = 1 ∧ o.port = p ∧ o.via = [p] ∧
      o.waits = [s.nextId] ∧ o.loc = fabLoc x / 64 * 64 ∧ o.addr = x ∧ t.agenda = s.agenda ++ [.flitReceive p true (s.nextId + 1)] ∧
      (∀ i < 64, (o.mask.getLsbD i ↔ l ≤ i ∧ i < l + 2 ^ f.w.toNat) ∧ (o.mask.getLsbD i → o.data.getD i 0 = bs.getD (i - l) 0)) ∧
      (∀ e, s.fabOf (s.coreOf u.tid) (s.ctxOf u.tid) (fabSec x) = some e → (∀ g, e.syn.getD g 0 = 0) →
        ∃ e', t.fabOf (s.coreOf u.tid) (s.ctxOf u.tid) (fabSec x) = some e' ∧
          ∀ i < 64, e'.data.getD i 0 = if l ≤ i ∧ i < l + 2 ^ f.w.toNat then bs.getD (i - l) 0 else e.data.getD i 0) ∧
      EachThread s t fun a b => (∃ fl n, b = { a.next with flags := fl, outs := n }) ∧ Counts [s.opOf u .store (u.sel f.fb)] a b

/-- R138: a fabric atomic leaves for its target, and the core's copy of the sector goes. -/
def Claims.FabricAtomic : Prop :=
  ∀ (f : FA) (s : State) (u : Thread) (p : Nat), (Instr.atf f).wf →
    let n := if f.wide then 8 else 4
    OneFabric s f.pred f.a n u →
    let x := s.srcPair u f.a
    fabStoreOk x → s.portTo (fabKind x) (fabNode x) (fabOff x) = some p →
    ∃ t, exec (.atf f) s = .next t ∧ t.fabOf (s.coreOf u.tid) (s.ctxOf u.tid) (fabSec x) = none ∧
      SendsOff s t { s.opOf u .atomic (u.sel f.fb) with
        id := s.nextId, space := 1, loc := fabLoc x, addr := x, size := n, rtype := 3, lt := u.relSys, due := some (s.remoteDue (s.ctxOf u.tid)),
        aop := f.aop.toNat, args := s.atomicArgs u f, regs := run s u f.data.toNat (n / 4), port := p, via := [p] } (.flitReceive p true s.nextId)

/-- R122, R130: a fabric access traps first on its alignment, then on its address. -/
def Claims.FabricTraps : Prop :=
  ∀ (s : State) (u : Thread), OutsideTrap s →
    let judge (i : Instr) (pred : BitVec 3) (a : BitVec 7) (size : Nat) (okay : BitVec 64 → Bool) : Prop :=
      s.executing pred = [u] →
      let q (c : Nat) : TrapReq := { TrapReq.of c with space := 1, addr := s.srcPair u a }
      ((s.srcPair u a).toNat % size ≠ 0 → TakesTrap i s (q 0x06) (lanes [u]) false) ∧
      ((s.srcPair u a).toNat % size = 0 → okay (s.srcPair u a) = false → TakesTrap i s (q 0x08) (lanes [u]) false)
    (∀ f : FLdf, (Instr.ldf f).wf → judge (.ldf f) f.pred f.a (2 ^ f.w.toNat) fabLoadOk) ∧
    (∀ f : FG, (Instr.stf f).wf → judge (.stf f) f.pred f.a (2 ^ f.w.toNat) fabStoreOk) ∧
    (∀ f : FA, (Instr.atf f).wf → judge (.atf f) f.pred f.a (if f.wide then 8 else 4) fabStoreOk) ∧
    ∀ x : BitVec 64, (fabLoadOk x ↔ (fabKind x = 0 ∧ fabNode x < 32) ∨ (fabKind x = 1 ∧ fabNode x < 128) ∨ (fabKind x = 2 ∧ fabNode x < 16)) ∧
      (fabStoreOk x ↔ (fabKind x = 0 ∧ fabNode x < 32) ∨ (fabKind x = 2 ∧ fabNode x < 16))

/-- R353, Table 24.1: the port of a request: a pool node's own, or the first that carries requests from (b + offset[19:12]) mod 32 up. -/
def Claims.PortChoice : Prop :=
  ∀ (s : State) (node off : Nat),
    (∀ p, s.portTo 0 node off = some p ↔ p = node ∧ s.carries node) ∧
    ∀ kind ∈ [1, 2], (∀ p, s.portTo kind node off = some p → p < 32 ∧ s.carries p ∧
        ∀ i < 32, (node + off / 4096 % 256 + i) % 32 = p → ∀ j < i, ¬ s.carries ((node + off / 4096 % 256 + j) % 32)) ∧
      (s.portTo kind node off = none → ∀ p < 32, ¬ s.carries p)

/-- R138, R139, R359, R130: a good flit brings its request to its target, which performs it: a load's bytes, a store's bytes written under its
mask, an atomic's old value. A target that refuses completes it as a refused access; a silent one leaves it to its timeout. -/
def Claims.FlitArrives : Prop :=
  ∀ (s : State) (p id : Nat) (o : Op), s.op id = some o → o.space = 1 → o.done = false → o.port = p → s.carries p → s.answered id = false →
    let base := o.loc / 64 * 64
    let e := exec (.flitReceive p true id) s
    (s.answerOf (fabNodeKey o.addr) id = 0 → GoodTarget s o → o.loc % 64 + o.size ≤ 64 →
      (o.kind = .load → fabKind o.addr ≠ 1 → ∃ t, e = .next t ∧ t.mem = s.mem ∧
        t.op id = some { o with fill := s.bytes o.loc o.size, poison := none } ∧ .loadReturn id ∈ t.agenda) ∧
      (o.kind = .store → ∃ t, e = .next t ∧ t.op id = none ∧ (∀ w ∈ o.waits, .storeAck w ∈ t.agenda) ∧ KeepsOutside s t base 64 ∧
        ∀ i < 64, t.byte (base + i) = if o.mask.getLsbD i then o.data.getD i 0 else s.byte (base + i)) ∧
      (o.kind = .atomic → ∃ t, e = .next t ∧ .atomicReturn id ∈ t.agenda ∧ KeepsOutside s t o.loc o.size ∧
        t.op id = some { o with fill := s.bytes o.loc o.size, poison := none, again := none } ∧
        t.bytes o.loc o.size = natLe o.size (atomicResult o.aop (8 * o.size) (leNat (s.bytes o.loc o.size)) o.args))) ∧
    (s.answerOf (fabNodeKey o.addr) id = 1 → ∃ t, e = .next t ∧ t.op id = some { o with done := true } ∧
      t.agenda = s.agenda ++ [.remoteTimeout id] ∧ t = { s with links := t.links, ops := t.ops, agenda := t.agenda }) ∧
    (1 < s.answerOf (fabNodeKey o.addr) id → ∃ t, e = .next t ∧ t = { s with links := t.links })

/-- R354, R361, R362: a bad flit counts in `CRCE` and is sent again before anything sent after it, counted in `RPLY`; the eighth failure in a row sends the link to retrain. A reply
without a request is dropped, counted in `LATE`. -/
def Claims.FlitErrors : Prop :=
  ∀ (s : State) (p id : Nat),
    (∃ t, exec (.flitReceive p false id) s = .next t ∧ t.mem = s.mem ∧ t.ops = s.ops ∧ t.agenda = .flitResend p id :: s.agenda ∧
      (t.link p).crce = min 65535 ((s.link p).crce + 1) ∧
      (s.carries p → SMap.get 0 (s.link p).fails id = 7 → (t.link p).state = .retraining ∧ .linkReroute p ∈ t.dues)) ∧
    (∃ t, exec (.flitResend p id) s = .next t ∧ t.agenda = .flitReceive p true id :: s.agenda ∧
      t.link p = { s.link p with rply := min 65535 ((s.link p).rply + 1) } ∧ t = { s with links := t.links, agenda := t.agenda }) ∧
    (s.op id = none → ∃ t, exec (.flitReceive p true id) s = .next t ∧ t.agenda = s.agenda ++ [.lateReplyDrop p]) ∧
    ∃ t, exec (.lateReplyDrop p) s = .next t ∧ t.link p = { s.link p with late := min 65535 ((s.link p).late + 1) } ∧
      (∀ q, q ≠ p → t.link q = s.link q) ∧ t = { s with links := t.links }

/-- R355-R357, Table 24.2: training starts from DOWN or FAILED; a trained link is UP with 8 good lanes, DEGRADED with 2 to 7 (four or two
of them in use, `PUB` suspended at two), FAILED below; the retrain limit fails it. A port of a fenced die does not train (R25). -/
def Claims.LinkTraining : Prop :=
  ∀ (s : State) (p lanes : Nat),
    let l := s.link p
    (s.fencedDie (portDie p) = true → exec (.linkTrainingStart p) s = .next s) ∧
    (s.fencedDie (portDie p) = false → l.state = .down ∨ l.state = .failed → ∃ t, exec (.linkTrainingStart p) s = .next t ∧
      t.link p = { l with state := .training, since := s.tick, limit := s.retrain, lanes := 0, bufCut := 0, pubs := false } ∧ t = { s with links := t.links }) ∧
    (l.state = .training ∨ l.state = .retraining → l.bufCut = 0 → hopKey 4 p ∉ s.retiredH →
      let good := popCount 8 lanes
      ∃ t, exec (.linkTrainingDone p lanes) s = .next t ∧ t.mem = s.mem ∧
        (t.link p).state = (if good < 2 then .failed else if good = 8 then .up else .degraded) ∧
        (2 ≤ good → popCount 8 (t.link p).lanes = (if good = 8 then 8 else if 4 ≤ good then 4 else 2) ∧ (t.link p).pubs = decide (good < 4)) ∧
        ∀ q, q ≠ p → t.link q = s.link q) ∧
    (l.state = .training ∨ l.state = .retraining → ∃ t, exec (.retrainLimitExpiry p) s = .next t ∧ t.mem = s.mem ∧
      (t.link p).state = .failed ∧ ∀ q, q ≠ p → t.link q = s.link q) ∧
    (l.state = .up ∨ l.state = .degraded ∨ l.state = .down → exec (.linkTrainingDone p lanes) s = .next s ∧
      exec (.retrainLimitExpiry p) s = .next s)

/-- R357: a buffer defect takes 32 flits for each lane group; below 88 flits `PUB` is suspended, below 56 the link fails. -/
def Claims.BufferDefects : Prop :=
  ∀ (s : State) (p groups : Nat),
    let l := s.link p
    let left := 32 * popCount 8 l.lanes - (l.bufCut + 32 * groups)
    l.state = .up ∨ l.state = .degraded ∨ l.state = .retraining →
    ∃ t, exec (.bufferDefect p groups) s = .next t ∧ t.mem = s.mem ∧ (t.link p).bufCut = l.bufCut + 32 * groups ∧
      (t.link p).pubs = decide (left < 88) ∧ (t.link p).state = if left < 56 then .failed else l.state

/-- R358, R360, R368: a node's report tells whether its link carries publications; when a link stops carrying requests, those it owes to
peers and hosts, a home's to a host frame among them, go out on the port that R353 now gives, those of pool memory stay, and the chunks of
publications on it whose subscribers have not answered go to the next nodes. -/
def Claims.LinkReports : Prop :=
  ∀ (s : State) (node p : Nat),
    (∀ up pub, ∃ t, exec (.linkStateReport node p up pub) s = .next t ∧ t = { s with peerPub := t.peerPub } ∧
      ∀ k, SMap.get true t.peerPub k = if k = node * 256 + p then up && pub else SMap.get true s.peerPub k) ∧
    ((s.ops.map fun o => o.id).Nodup → s.carries p = false → ∃ t, exec (.linkReroute p) s = .next t ∧
      t = { s with ops := t.ops, agenda := t.agenda, outbox := t.outbox } ∧
      (∀ o ∈ s.owedOn p,
        let pool : Prop := if o.space = 1 then fabKind o.addr = 0 else isHost o.loc = false
        (pool → t.op o.id = some o) ∧
        ∀ q, ¬ pool →
          (if o.space = 1 then s.portTo (fabKind o.addr) (fabNode o.addr) (fabOff o.addr) else s.portOf o.loc) = some q →
          t.op o.id = some { o with port := q, via := q :: o.via, again := none, sent := s.tick } ∧
          (∀ m ∈ if o.space = 1 then [.flitReceive q true o.id] else o.req.message o.id, m ∈ t.agenda) ∧ .flitReceive p true o.id ∉ t.agenda) ∧
      ∀ subs id k df vf bs ys o, .pubChunk p subs id k df vf bs ys ∈ s.outbox → s.op id = some o → o.kind = .pubf → o.done = false →
        let left := (subs.map fun e => e.1).filter fun i => !o.pubAnswered.getLsbD i
        ∀ n, left ≠ [] → (nodesFrom ((p + 1) % 32)).find? (fun n => left.all fun i => s.nodeServes o.ctx n i) = some n →
          .pubChunk n (left.map (s.target o.ctx)) id k o.pubDoff o.pubVoff ((o.data.drop (4096 * k)).take 4096) ((o.syn.drop (128 * k)).take 128) ∈ t.outbox)

/-- R130, R141, R371: a fabric load or atomic without a reply writes all ones, a store ends unacknowledged; `FABST.TIMEOUT` is set and its count rises,
saturating, and for a write declared lost `LOST-WRITE` is set. -/
def Claims.AccessTimeout : Prop :=
  ∀ (s : State) (id : Nat) (o x : Op) (u : Thread), s.op id = some o → s.answered id = false → o.space = 1 → Distinct s →
    (o.waits = [] ∧ x = o ∧ (o.kind = .load ∨ o.kind = .atomic) ∧ o.regs ≠ [] ∨
     o.kind = .store ∧ o.waits = [x.id] ∧ s.op x.id = some x ∧ x.id ≠ id ∧ x.kind = .store ∧ x.regs = [] ∧ x.preg = none) →
    x.uid ≠ 0 → s.thread x.uid = some u →
    (∃ t, exec (.remoteTimeout id) s = .next t ∧ t.op id = none ∧ t.op x.id = none ∧ Completed s t x (BitVec.allOnes 32) ∧
      FabstOf s t (s.gidOf u) fun w => (w &&& 0xFFFF00FF) ||| 1 ||| BitVec.ofNat 32 (256 * min 255 (w.toNat / 256 % 256 + 1))) ∧
    ∃ t, exec (.lostWrite id) s = .next t ∧ t.op id = none ∧ t.op x.id = none ∧ Completed s t x (BitVec.allOnes 32) ∧
      FabstOf s t (s.gidOf u) (· ||| 16)

/-- R363, R198: a peer's read of an export that is not valid or not long enough is refused; a good one answers the bytes and the syndromes of
their granules. Nothing but stamps of homes changes. -/
def Claims.ExportReads : Prop :=
  ∀ (off : BitVec 48) (size reply : Nat) (s : State) (c : Ctx), field off 47 42 ≠ fwNum → s.ctx (field off 47 42) = some c →
    let e := SMap.get 0 c.exprts (field off 41 38)
    let at_ := field off 37 0
    (winV e = false ∨ winSize e < at_ + size → ∃ t, exec (.exportRead off size reply) s = .next t ∧
      t = { s with outbox := s.outbox ++ [.readReply reply true [] []] }) ∧
    (∀ r loc, winV e = true → at_ + size ≤ winSize e → s.locate (field off 47 42) 0 (winBase e + at_) false = (r, some loc) →
      loc + size < 2 ^ 60 → (∀ h ∈ r.home, h.st = .S) → (∀ e ∈ r.l1, e.core ≠ noAgent) →
      ∃ t, exec (.exportRead off size reply) s = .next t ∧
        t = { r with home := t.home, homeBase := t.homeBase, outbox := r.outbox ++ [.readReply reply false (r.bytes loc size) (r.syns (loc / 32 * 32) (loc % 32 + size))] })

/-- R144, R365, R368, R370: a publication with a good record, whose writes have been released, puts one operation in flight until its deadline, and
sends each chunk of its bytes, hems with them, with the record's `DOFF` and `VOFF`, through the first node that serves every subscriber, to the context and
window of each (Table 24.6). One whose writes have not been released waits. That the loads come after what the group has acquired through banked
memory is the model's choice (assumption 62). -/
def Claims.Publishes : Prop :=
  (∀ (f : FPubf) (s : State) (u : Thread), s.executing f.pred = [u] → (s.srcPair u f.a).toNat % 64 = 0 →
    (∃ g ∈ s.fenceGroups f.pred, s.released g 3 = false) → WaitsOrder (.pubf f) s) ∧
  ∀ (f : FPubf) (s r q z : State) (u : Thread) (loc : Nat) (bs data : List Byte) (ys syn : List (BitVec 16)),
    OnePublication f s r u loc →
    let c := s.ctxOf u.tid
    let lt := max (r.lt (r.coreOf u.tid)) (r.ot (r.coreOf u.tid))
    r.ctxOf u.tid = c → q.ctxOf u.tid = c → r.pubLoad u lt (r.srcPair u f.a).toNat loc 64 = (z, bs, ys) → (∀ y ∈ ys, y = 0) → pubBad bs = false →
    State.readRange u lt (pageSpans (pubSrc bs) (pubLen bs)) z = (q, .ok (data, syn)) →
    (∀ o ∈ q.ops, o.id < q.nextId) → (∀ i < 32, (pubSubs bs).getLsbD i → (q.subEntry c i).getLsbD 63) →
    let subs := (List.range 32).filter fun i => (pubSubs bs).getLsbD i
    ∃ t o, exec (.pubf f) s = .next t ∧ t.mem = q.mem ∧ t.op q.nextId = some o ∧ o.kind = .pubf ∧ o.uid = u.uid ∧
      o.args = pubSubs bs :: wordsOf (natLe 8 (pubDoff bs) ++ natLe 8 (pubVoff bs)) ∧
      o.regs = run q u f.data.toNat 1 ∧ o.mask = 0 ∧ o.done = false ∧ o.data = data ∧
      o.due = some (q.tickOfNs ((q.windowAt q.tick + 2) * (max 1 q.window : Nat))) ∧
      ∀ k n, 4096 * k < data.length → (nodesFrom (k % 32)).find? (fun n => subs.all fun i => q.nodeServes c n i) = some n →
        .pubChunk n (subs.map (q.target c)) q.nextId k (pubDoff bs) (pubVoff bs) ((data.drop (4096 * k)).take 4096) ((syn.drop (128 * k)).take 128) ∈ t.outbox

/-- R144: a malformed publication record makes the delivery mask 0. -/
def Claims.PublicationRecord : Prop :=
  (∀ r : List Byte, pubBad r = false ↔ leNat (r.drop 32) = 0 ∧ pubSrc r % 32 = 0 ∧ pubLen r % 32 = 0 ∧ 32 ≤ pubLen r ∧ pubLen r ≤ 4194304 ∧
    pubSubs r ≠ 0) ∧
  ∀ (f : FPubf) (s r : State) (u : Thread) (loc : Nat), OnePublication f s r u loc → Distinct s →
    r.threads = (s.passFence f.pred true false 3).threads → (∀ x, r.win x = s.win x) →
    pubBad (r.pubLoad u (max (r.lt (r.coreOf u.tid)) (r.ot (r.coreOf u.tid))) (r.srcPair u f.a).toNat loc 64).2.1 = true →
    ∃ t, exec (.pubf f) s = .next t ∧ ∀ b ∈ t.threads, b.uid = u.uid → reg b (vAt s u f.data) = 0

/-- R368, R370: a refused chunk goes to the next node that serves its subscriber; the last answer, or the deadline, writes the mask of the
subscribers that acknowledged, `PUB-PARTIAL` set where it falls short; an earlier answer only counts. -/
def Claims.PublicationAnswers : Prop :=
  ∀ (s : State) (id n : Nat) (o : Op) (subs : Word) (u : Thread), s.op id = some o → o.kind = .pubf → o.done = false → o.args.headD 0 = subs →
    o.regs = [n] → o.poison = none → s.thread o.uid = some u → o.id = id → Distinct s →
    let writes (t : State) (m : BitVec 64) : Prop := t.mem = s.mem ∧ Completed s t o (m.extractLsb' 0 32) ∧
      FabstOf s t (s.gidOf u) fun w => if m.extractLsb' 0 32 = subs then w else w ||| 8
    (∀ sub chunk node k, (nodesFrom ((node + 1) % 32)).find? (fun n => s.nodeServes o.ctx n sub) = some k →
      ∃ t, exec (.pubRefusedReturn id sub chunk node) s = .next t ∧ t.op id = some { o with via := k :: o.via } ∧
        t = { s with ops := t.ops, outbox := s.outbox ++ [.pubChunk k [s.target o.ctx sub] id chunk o.pubDoff o.pubVoff
          ((o.data.drop (4096 * chunk)).take 4096) ((o.syn.drop (128 * chunk)).take 128)] }) ∧
    (∀ sub < 32, ∀ taken : Bool,
      let m := o.mask ||| 1#64 <<< (32 + sub) ||| if taken then 1#64 <<< sub else 0
      (m.extractLsb' 32 32 ≠ subs → ∃ t, exec (.pubAckReceive id sub taken) s = .next t ∧ t = { s with ops := t.ops } ∧
        t.op id = some { o with mask := m }) ∧
      (m.extractLsb' 32 32 = subs → ∃ t, exec (.pubAckReceive id sub taken) s = .next t ∧ t.op id = none ∧ writes t m)) ∧
    ∃ t, exec (.pubDeadline id) s = .next t ∧ writes t o.mask

/-- R359, R364, R369: at a subscriber a publication that its window does not admit is refused; a granule of one that it does lands at its place in
local HBM, and with the last, before the deadline, the counter rises by 1 and the publisher is acknowledged. A chunk that has been taken is not taken
again, and one of a publication that is over gets its answer again. -/
def Claims.SubscriberWindow : Prop :=
  (∀ (s : State) (p : PubChunk) (x : InPub),
    (∀ y ∈ s.inPubs, ∀ o, y.closed = some o → s.tick < o.1 + 64000 * Config.ticksPerUs) →
    s.inPubs.find? (fun y => y.publisher == p.publisher && y.number == p.number) = some x →
    (x.closed = none → p.place ∈ x.seen → exec (.pubChunkReceive p) s = .next s) ∧
    ∀ k taken, x.closed = some (k, some taken) →
      exec (.pubChunkReceive p) s = .next { s with outbox := s.outbox ++ [.pubAnswer p.publisher p.number taken] }) ∧
  ∀ (s : State) (p : PubChunk) (c : Ctx), s.ctx p.ctx = some c →
    (∀ x ∈ s.inPubs, x.closed = none ∧ ¬ (x.publisher = p.publisher ∧ x.number = p.number)) →
    let e := SMap.get 0 c.rwins p.rwin
    let allowed : Prop := winV e = true ∧ (winPubn e = 255 ∨ winPubn e = p.publisher) ∧ p.doff + p.len ≤ winSize e ∧ p.voff + 8 ≤ winSize e ∧
      (p.voff + 8 ≤ p.doff ∨ p.doff + p.len ≤ p.voff)
    (¬ allowed → ∃ t l, exec (.pubChunkReceive p) s = .next t ∧ t.outbox = l ++ [.pubAnswer p.publisher p.number false] ∧
      ∃ x ∈ t.inPubs, x.publisher = p.publisher ∧ x.number = p.number ∧ x.closed = some (s.tick, some false)) ∧
    (∀ r loc, allowed → s.locate p.ctx 0 (winBase e + p.doff + p.place) true = (r, some loc) → (∀ h ∈ r.home, h.st = .S) →
      p.bytes.length = 32 → loc % 32 = 0 → isHbm loc = true →
      let w := ((r.ucWrite p.ctx loc p.bytes 0).1.setSyn loc (p.syn.getD 0 0)).patchGrants (sectorKey p.ctx loc)
      w.bytes loc 32 = p.bytes ∧ KeepsOutside r w loc 32 ∧
      (32 < p.len → ∃ t, exec (.pubChunkReceive p) s = .next t ∧ t.mem = w.mem ∧ t.syn = w.syn ∧ t.outbox = w.outbox ∧
        ∃ x ∈ t.inPubs, x.publisher = p.publisher ∧ x.number = p.number ∧ x.got = 32 ∧ x.seen = [p.place] ∧ x.closed = none) ∧
      (∀ z cl, p.len = 32 → w.fabNs w.tick < p.deadline → w.locate p.ctx 0 (winBase e + p.voff) true = (z, some cl) → (∀ h ∈ z.home, h.st = .S) →
        cl % 8 = 0 → isHbm cl = true → z.clean cl 8 = true → ∃ t l, exec (.pubChunkReceive p) s = .next t ∧
          t.bytes cl 8 = natLe 8 (leNat (z.bytes cl 8) + 1) ∧ KeepsOutside z t cl 8 ∧ t.outbox = l ++ [.pubAnswer p.publisher p.number true]) ∧
      (p.len = 32 → p.deadline ≤ w.fabNs w.tick → ∃ t l, exec (.pubChunkReceive p) s = .next t ∧
          t.outbox = l ++ [.pubAnswer p.publisher p.number false]))

/-- R366: a clock synchronisation adjusts fabric time, and the deadlines of publications with it. -/
def Claims.FabricTime : Prop :=
  ∀ (s : State) (d : Int), ∃ t, exec (.ptpSync d) s = .next t ∧ t = { s with fabTime := s.fabTime + d, ops := t.ops } ∧
    t.ops = s.ops.map fun o =>
      if o.kind = .pubf ∧ o.due.isSome = true then { o with due := some ({ s with fabTime := s.fabTime + d }.tickOfNs o.wts) } else o

/-! ### Copies -/

/-- R33, R249, R251: a copy word whose descriptor and slot pass their checks posts one item for its group, writes the token with the item's bytes, and each
active thread counts the issue; a posting that conflicts with its collective fails at once, with the mark in its token. -/
def Claims.CopyPosts : Prop :=
  ∀ (s : State) (u : Thread) (m : Team) (ch fb : Bool) (d bar : BitVec 7) (tok : BitVec 6) (o b : Nat),
    CopyIssue s d bar u m o b → Distinct s → (∀ y ∈ s.items, y.id < s.nextId) → (s.group (s.gidOf u)).isSome = true →
    ∀ e ∈ ([(.cpy ⟨ch, fb, tok, d, bar⟩, 0), (.cpyt ⟨ch, fb, tok, d, bar⟩, 1), (.cpyx ⟨ch, fb, tok, d, bar⟩, 2),
        (.cpys ⟨ch, fb, d, bar⟩, 3)] : List (Instr × Nat)),
      ∀ x : CopyItem, x.id = s.nextId → x.lt = 0 → x.wake = 0 → x.due = none → x.paused = false → x.got = [] → x.counted = false →
        x.late = false → x.posted = s.tick → x.uid = u.uid → x.page = none → x.after = (if x.ssp < 2 then s.sourceStores u x.ssp else []) → Posted s u m e.2 (if e.2 = 3 then 0 else tok.toNat) o b x →
        (Joins s x → ∃ t, exec e.1 s = .next t ∧ t.mem = s.mem ∧ t.items = s.items ++ [x] ∧
          EachThread s t (fun p q => (∃ fl n, q = { p.next with flags := fl, outs := n }) ∧
            Counts (s.gangThreads.map fun v => s.opOf v .copy (v.sel fb)) p q) ∧
          (∀ v ∈ s.gangThreads, ∃ y ∈ t.ops, y.uid = v.uid ∧ y.kind = .copy ∧ y.aop = x.id ∧ y.sel = v.sel fb) ∧
          (e.2 ≠ 3 → ∀ g ∈ t.groups, g.gid = s.gidOf u → SMap.get 0 g.sregs tok.toNat = BitVec.ofNat 32 (x.bytes % 8388608)) ∧
          (e.2 = 3 → t.groups = s.groups)) ∧
        (¬ Joins s x → ∃ t, exec e.1 s = .next t ∧ t.items = s.items ∧
          (e.2 ≠ 3 → ∀ g ∈ t.groups, g.gid = s.gidOf u → SMap.get 0 g.sregs tok.toNat = 0x80000000))

/-- R122, R249: the traps of a copy word on the address of its descriptor. -/
def Claims.CopyTraps : Prop :=
  ∀ (s : State) (u : Thread) (r : List Thread) (m : Team) (f : FY), s.gangThreads = u :: r → (∀ v ∈ r, s.gidOf v = s.gidOf u) →
    s.team u.tid = some m → OutsideTrap s →
    let o := (s.src u f.d).toNat
    let q (c : Nat) : TrapReq := { TrapReq.of c with space := 2, addr := BitVec.ofNat 64 o }
    ∀ i ∈ [Instr.cpy f, .cpyt f, .cpyx f, .cpys ⟨f.ch, f.fb, f.d, f.bar⟩],
      (o % 64 ≠ 0 → TakesTrap i s (q 0x06) (lanes s.gangThreads) false) ∧
      (o % 64 = 0 → m.scrSize < o + 64 → TakesTrap i s (q 0x07) (lanes s.gangThreads) false)

/-- R249, R257: an issue that finds no free entry in its engine waits, and so does one of a group that has withdrawn items to post again. -/
def Claims.CopyWaits : Prop :=
  ∀ (s : State) (f : FY), s.gangThreads ≠ [] → (∀ gid ∈ s.gids s.gangThreads, s.copyTrap f.d f.bar gid = none) →
    ((∀ u ∈ s.gangThreads, 64 ≤ s.engineItems (s.coreOf u.tid / 4)) ∨ ∃ gid ∈ s.gids s.gangThreads, s.itemsOf gid ≠ []) →
    ∀ i ∈ [Instr.cpy f, .cpyt f, .cpyx f, .cpys ⟨f.ch, f.fb, f.d, f.bar⟩], Waits i s .engine

/-- R187, R236, R251, R252: a collective is accepted when every index is held: an item's flag count completes, it starts at its core's LT and is counted
on its slot; a malformed one fails; one that still misses an index does nothing. That it starts no earlier than what the core has acquired through
banked memory is the model's choice (assumption 62). -/
def Claims.CollectiveAccepts : Prop :=
  ∀ (s : State) (x : CopyItem), s.heldItems x.tid x.bar = [x] → (∀ y ∈ s.items, y.id = x.id → y = x) →
    let loc := s.itemSlot x
    (x.nslice ≠ 1 → exec (.collectiveAccept x.tid x.bar) s = .next s) ∧
    (x.nslice = 1 → (x.bar = noSlot ∨ s.synAt loc = 0 ∧ (s.slotAt loc).st = 1 ∧ (s.slotAt loc).inflight < 127 ∧ s.slotRefuses x = false) →
      (x.wellFormed = true → s.extentOk x x.ssp x.src x.srcEnd = true → s.extentOk x x.dsp x.dst x.dstEnd = true →
        ¬ (x.ssp = x.dsp ∧ x.src < x.dstEnd ∧ x.dst < x.srcEnd) → x.dsp ≠ 0 →
        ∃ t, exec (.collectiveAccept x.tid x.bar) s = .next t ∧
          { x with accepted := true, lt := max (s.lt (s.coreOf x.tid)) (s.ot (s.coreOf x.tid)), counted := x.bar != noSlot } ∈ t.items ∧
          (∀ o ∈ t.ops, ¬ (o.kind = .copy ∧ o.aop = x.id)) ∧
          (x.bar = noSlot → t.mem = s.mem) ∧
          (x.bar ≠ noSlot → t.slotAt loc = { s.slotAt loc with inflight := (s.slotAt loc).inflight + 1 })) ∧
      (x.wellFormed = false → ∃ t, exec (.collectiveAccept x.tid x.bar) s = .next t ∧ (∀ y ∈ t.items, y.id ≠ x.id) ∧
        (x.fn ≠ 3 → ∀ g ∈ t.groups, g.gid = x.gid → SMap.get 0 g.sregs x.tok = 0x80000000)))

/-- R236, R251: when the last index of a collective is held, every item of it is accepted, counted on the slot that they name, and has its flag counts
complete. -/
def Claims.CollectiveOfMany : Prop :=
  ∀ (s : State) (tid bar : Nat) (xs : List CopyItem) (x0 : CopyItem), s.heldItems tid bar = xs → x0 ∈ xs → 2 ≤ xs.length →
    (s.items.map fun y => y.id).Nodup → (∀ x ∈ xs, x.nslice = xs.length ∧ x.sidx < xs.length ∧ x.counted = false) →
    (xs.map fun x => x.sidx).Nodup → bar ≠ noSlot →
    let loc := s.itemSlot x0
    let slot := s.slotAt loc
    loc % 16 = 0 → s.synAt loc = 0 → slot.st = 1 → slot.inflight + xs.length < 128 →
    slot.landed + (s.items.map fun z => if z.counted ∧ z.tid = tid ∧ z.bar = bar then z.slotBytes - 32 * z.acked else 0).sum +
      (xs.map fun x => x.slotBytes).sum ≤ 2 ^ 28 - 1 →
    (∀ x ∈ xs, x.wellFormed = true ∧ s.extentOk x x.ssp x.src x.srcEnd = true ∧ s.extentOk x x.dsp x.dst x.dstEnd = true ∧
      ¬ (x.ssp = x.dsp ∧ x.src < x.dstEnd ∧ x.dst < x.srcEnd) ∧ x.dsp ≠ 0) →
    ∃ t, exec (.collectiveAccept tid bar) s = .next t ∧
      (∀ x ∈ xs, { x with accepted := true, lt := max (s.lt (s.coreOf tid)) (s.ot (s.coreOf tid)), counted := true } ∈ t.items) ∧
      (∀ y ∈ s.items, y ∉ xs → y ∈ t.items) ∧ t.items.length = s.items.length ∧
      (∀ o ∈ t.ops, ¬ (o.kind = .copy ∧ ∃ x ∈ xs, o.aop = x.id)) ∧
      t.slotAt loc = { slot with inflight := slot.inflight + xs.length } ∧ ∀ a, ¬ (loc ≤ a ∧ a < loc + 16) → t.byte a = s.byte a

/-- R236, R252: at acceptance a slot that is not ARMED refuses an item with kind 3, and is not touched; a malformed item fails with kind 1, an extent out
of its bound with kind 4, an overlap with kind 5. -/
def Claims.AcceptanceFails : Prop :=
  ∀ (s : State) (x : CopyItem), s.heldItems x.tid x.bar = [x] → (∀ y ∈ s.items, y.id = x.id → y = x) → x.nslice = 1 → x.landed = 0 → x.acked = 0 →
    x.counted = false →
    let fails (y : CopyItem) (kind addr : Nat) : Prop := ∃ t q, exec (.collectiveAccept x.tid x.bar) s = .next t ∧
      (∀ o ∈ t.ops, ¬ (o.kind = .copy ∧ o.aop = x.id)) ∧ q = { s with ops := q.ops, threads := q.threads } ∧ ItemFails q t y kind addr []
    let y := { x with accepted := true, lt := max (s.lt (s.coreOf x.tid)) (s.ot (s.coreOf x.tid)) }
    (x.bar ≠ noSlot → s.synAt (s.itemSlot x) = 0 → (s.slotAt (s.itemSlot x)).st ≠ 1 → fails y 3 0) ∧
    (x.bar = noSlot →
      (x.wellFormed = false → fails y 1 0) ∧
      (x.wellFormed = true → s.extentOk x x.ssp x.src x.srcEnd = false → fails y 4 x.src) ∧
      (x.wellFormed = true → s.extentOk x x.ssp x.src x.srcEnd = true → s.extentOk x x.dsp x.dst x.dstEnd = false → fails y 4 x.dst) ∧
      (x.wellFormed = true → s.extentOk x x.ssp x.src x.srcEnd = true → s.extentOk x x.dsp x.dst x.dstEnd = true →
        x.ssp = x.dsp → x.src < x.dstEnd → x.dst < x.srcEnd → fails y 5 x.dst))

/-- R250, R253: granules are taken in ascending plane, destination row and granule of the row. A granule of a plain copy lands in scratch or cluster
memory: its 32 bytes and its hem are those of its source, no other byte changes, its token falls by 32; with the last one the item is over. -/
def Claims.GranuleLands : Prop :=
  (∀ (x : CopyItem) (p j k : Nat), j < x.rows → 32 * k < x.rowLen → x.rowLen % 32 = 0 →
    x.dest ((p * x.rows + j) * (x.rowLen / 32) + k) = (x.dst + p * x.dpp + j * x.dpr + 32 * k, p, j, k)) ∧
  ∀ (s : State) (id : Nat) (x : CopyItem) (src loc : Nat), LocalGranule s id x loc → x.fn = 0 → x.bar = noSlot → x.counted = false →
    s.itemLoc x x.ssp (sourceOf x x.landed) = src → src % 32 = 0 →
    ∃ t, exec (.granuleLand id) s = .next t ∧ t.bytes loc 32 = s.bytes src 32 ∧ t.synAt loc = s.synAt src ∧ KeepsOutside s t loc 32 ∧
      TokenTo s t x (· - 32) ∧ GoesOn s t id x

/-- R235, R236, R253: a landing of an item that names a slot counts 32 bytes on it, and completes the phase whose arrivals are all in and whose bytes
have then landed; with the last granule `INFLIGHT` falls. -/
def Claims.GranuleCounts : Prop :=
  ∀ (s : State) (id : Nat) (x : CopyItem) (loc l : Nat) (y : Slot), LocalGranule s id x loc → x.fn = 0 → x.counted = true → s.itemSlot x = l → Distinct s →
    l % 16 = 0 → s.synAt l = 0 → s.slotAt l = y → y.st = 1 → 1 ≤ y.inflight → y.landed + 32 < 2 ^ 28 →
    let full := y.pending = 0 ∧ y.target ≤ y.landed + 32
    let last := if x.landed + 1 = x.count then 1 else 0
    ∃ t, exec (.granuleLand id) s = .next t ∧ (∀ a, ¬ (loc ≤ a ∧ a < loc + 32) → ¬ (l ≤ a ∧ a < l + 16) → t.byte a = s.byte a) ∧
      TokenTo s t x (· - 32) ∧ GoesOn s t id x ∧
      (¬ full → t.slotAt l = { y with landed := y.landed + 32, inflight := y.inflight - last } ∧ t.threads = s.threads) ∧
      (full → t.slotAt l = { y with
          landed := y.landed + 32 - y.target, target := 0, phase := (y.phase + 1) % 2 ^ 16, pending := y.expect, inflight := y.inflight - last } ∧
        ∀ v ∈ s.threads, v.state = .waiting → ∀ pd p was, v.wait = .slot l y.phase pd p was →
          { v.setP pd (!y.fault) with state := .runnable, wait := .none } ∈ t.threads)

/-- R250: a granule of `CPYT`: element c of source row i becomes element i of destination row c, with a hem made anew. -/
def Claims.TransposedGranule : Prop :=
  ∀ (s : State) (id : Nat) (x : CopyItem) (loc : Nat), LocalGranule s id x loc → x.fn = 1 → x.wellFormed = true → x.counted = false →
    let d := x.dest x.landed
    let per := 256 / x.elem
    let row (i : Nat) : Nat := x.src + d.2.1 * x.spp + (d.2.2.2 * per + i) * x.spr
    let at_ (i : Nat) : Nat := s.itemLoc x x.ssp (row i + d.2.2.1 * x.elem / 8)
    (∀ i < per, s.synAt (at_ i) = 0 ∧ at_ i % 32 = (row i + d.2.2.1 * x.elem / 8) % 32) →
    ∃ t, exec (.granuleLand id) s = .next t ∧ t.synAt loc = 0 ∧ KeepsOutside s t loc 32 ∧ TokenTo s t x (· - 32) ∧ GoesOn s t id x ∧
      ∀ i < per, leNat (t.bytes loc 32) / 2 ^ (x.elem * i) % 2 ^ x.elem =
        leNat (s.bytes (at_ i) (max 1 (x.elem / 8))) / (if x.elem = 4 ∧ d.2.2.1 % 2 = 1 then 16 else 1) % 2 ^ x.elem

/-- R200, R250, R282: a granule of `CPYX` holds its 32 elements of the row that the block decodes to, under the hem that came with the row; a block whose
header fails ends the item with kind 9. -/
def Claims.ExpandedGranule : Prop :=
  ∀ (s : State) (id : Nat) (x : CopyItem) (loc : Nat), LocalGranule s id x loc → x.fn = 2 → x.counted = false → 64 ≤ x.rowb → x.rowb % 32 = 0 →
    let at_ := s.itemLoc x x.ssp x.src
    at_ % 32 = 0 → x.src % 32 = 0 → (∀ i, 32 * i < x.rowb → s.itemLoc x x.ssp (x.src + 32 * i) = at_ + 32 * i) →
    let b := s.bytes at_ x.rowb
    let ys := s.syns at_ x.rowb
    let g := x.landed % 4
    (∀ es hems, wrungRow b ys x.rowb (0, 128) (x.landed / 4) = .ok (es, hems) → x.landed + 1 < x.count →
      ∃ t, exec (.granuleLand id) s = .next t ∧ t.bytes loc 32 = (es.drop (32 * g)).take 32 ∧
        t.synAt loc = crc16 ((es.drop (32 * g)).take 32) ^^^ BitVec.ofNat 16 (leNat ((hems.drop (2 * g)).take 2)) ∧
        KeepsOutside s t loc 32 ∧ TokenTo s t x (· - 32) ∧ GoesOn s t id x) ∧
    (∀ k, wrungHeader b ys x.rowb = some k → (∀ o ∈ s.ops, ¬ (o.kind = .engOwn ∧ o.aop = id)) →
      ∃ t, exec (.granuleLand id) s = .next t ∧ ItemFails s t x 9 x.src (natLe 1 k ++ [0xFF]))

/-- R187, R250, R253: `CPYS` lands its granules in pool memory, or in the sectors of global memory that it owns, which go home whole; its stamp is written
once nothing of it is on the way, over the stamp's own 8 bytes alone, and then the item is over. -/
def Claims.CopyOut : Prop :=
  ∀ (s : State) (id : Nat) (x : CopyItem), EngineItem s id x → x.fn = 3 → x.counted = false → 2 ≤ x.ssp → x.ssp ≤ 3 →
    let va := (x.dest x.landed).1
    let src := s.itemLoc x x.ssp (sourceOf x x.landed)
    let fabric (a : Nat) : Prop := let f := BitVec.ofNat 64 a
      a < 2 ^ 64 ∧ fabKind f = 0 ∧ fabNode f < 32 ∧ s.answerOf (fabNodeKey f) a = 0 ∧ (s.portTo 0 (fabNode f) (fabOff f)).isSome = true
    (x.landed + 1 < x.count → src % 32 = 0 →
      (x.dsp = 1 → fabric va → va % 32 = 0 → ∃ t, exec (.granuleLand id) s = .next t ∧ GoesOn s t id x ∧
        let l := fabLoc (BitVec.ofNat 64 va)
        t.bytes l 32 = s.bytes src 32 ∧ t.synAt l = s.synAt src ∧ KeepsOutside s t l 32) ∧
      (∀ o, x.dsp = 0 → va % 32 = 0 → s.sectorOp x va = some o → o.done = true → o.region = none → isRemote o.loc = false →
        (∀ p ∈ s.ops, p.id = o.id → p = o) → (∀ k, s.watchesOn x.ctx va 32 k = []) → o.data.length = 64 → o.syn.length = 2 →
        ∃ t, exec (.granuleLand id) s = .next t ∧ t.mem = s.mem ∧ (∃ y ∈ t.items, y.id = id ∧ y.landed = x.landed + 1 ∧ y.lt = max x.lt o.wts) ∧
          ∃ q, t.op o.id = some q ∧ (∀ i < 64, q.mask.getLsbD i = (o.mask.getLsbD i || decide (va % 64 ≤ i ∧ i < va % 64 + 32))) ∧
            (∀ i < 64, q.data.getD i 0 = if va % 64 ≤ i ∧ i < va % 64 + 32 then s.byte (src + (i - va % 64)) else o.data.getD i 0) ∧
            q.syn.getD (va % 64 / 32) 0 = s.synAt src ∧
            (q.kind = .engWrite ↔ popCount 64 q.mask.toNat = 32 * o.rtype))) ∧
    (x.landed = x.count →
      ((∃ o ∈ s.ops, o.aop = id ∧ (o.kind = .engOwn ∨ o.kind = .engWrite)) →
        ∃ t, exec (.granuleLand id) s = .next t ∧ t.mem = s.mem ∧ ∃ y ∈ t.items, y.id = id ∧ y.wake = s.tick + 1) ∧
      ((∀ o ∈ s.ops, o.aop ≠ id) →
        (x.dsp = 1 → fabric x.stampa → s.synAt (fabLoc (BitVec.ofNat 64 x.stampa)) = 0 → x.desc.length = 64 →
          ∃ t, exec (.granuleLand id) s = .next t ∧ let l := fabLoc (BitVec.ofNat 64 x.stampa)
            t.bytes l 8 = (x.desc.drop 56).take 8 ∧ KeepsOutside s t l 8 ∧ t.items = s.items.filter fun y => y.id != id) ∧
        (∀ r loc e v, x.dsp = 0 → s.translate x.ctx none (clusterDie x.cluster) x.stampa true = (r, .ok loc e v) → isRemote loc = false →
          s.regionOf x.ctx x.stampa = none → (∀ h ∈ r.home, h.st = .S) → (∀ k, r.watchesOn x.ctx x.stampa 8 k = []) → r.synAt loc = 0 →
          x.desc.length = 64 → ∃ t, exec (.granuleLand id) s = .next t ∧ t.bytes loc 8 = (x.desc.drop 56).take 8 ∧ KeepsOutside r t loc 8 ∧
            t.items = r.items.filter fun y => y.id != id)))

/-- R239, R256: an item fails at the first granule that it cannot land: in a barrier slot (kind 10), at a fabric address that takes no write (7), at a
page that faults (6), or from a bad granule that it transposes (8). What has landed stands. -/
def Claims.CopyFails : Prop :=
  ∀ (s : State) (id : Nat) (x : CopyItem), EngineItem s id x → x.landed < x.count → 2 ≤ x.ssp → x.ssp ≤ 3 →
    (∀ o ∈ s.ops, ¬ (o.kind = .engOwn ∧ o.aop = id)) →
    let va := (x.dest x.landed).1
    let loc := s.itemLoc x x.dsp va
    let fails (r : State) (kind addr : Nat) (more : List Byte) : Prop :=
      ∃ t, exec (.granuleLand id) s = .next t ∧ ItemFails r t x kind addr more
    (x.fn = 0 → 2 ≤ x.dsp → loc / 16 ∈ s.slots ∨ loc / 16 + 1 ∈ s.slots → fails s 10 va []) ∧
    (x.fn = 3 → x.dsp = 1 → fabStoreOk (BitVec.ofNat 64 va) = false → fails s 7 va []) ∧
    (∀ r kind level lo len, x.fn = 3 → x.dsp = 0 → s.translate x.ctx none (clusterDie x.cluster) va true = (r, .fault kind level lo len) →
      kind ≠ 5 → (∀ o ∈ r.ops, ¬ (o.kind = .engOwn ∧ o.aop = id)) → fails r 6 va []) ∧
    ∀ a, x.fn = 1 → (x.sources x.landed).find? (fun a => s.synAt (s.itemLoc x x.ssp a) != 0) = some a →
      ∃ tag : BitVec 64, fails s 8 a (natLe 2 (s.synAt (s.itemLoc x x.ssp a)).toNat ++ natLe 8 tag.toNat)

/-! ### Wrung weight blocks -/

/-- R281, R282: the codes are canonical, and a stream decodes to the elements that it codes; one with room for another element, or that breaks off, fails
with kind 4, one with a padding bit set with kind 5. -/
def Claims.WrungCodes : Prop :=
  ∀ lens : List Nat, lens.length = 16 → (∀ l ∈ lens, 1 ≤ l ∧ l ≤ 8) → (lens.map fun l => 2 ^ (8 - l)).sum = 256 →
    let codes := wrungCodes lens
    (codes.map fun e => e.2.2).Perm (List.range 16) ∧ (∀ e ∈ codes, e.1 = lens.getD e.2.2 0) ∧
    codes.Pairwise (fun a b => a.1 < b.1 ∨ a.1 = b.1 ∧ a.2.2 < b.2.2) ∧ (codes.map fun e => e.2.1).head? = some 0 ∧
    (∀ (k : Nat) (a b : Nat × Nat × Nat), codes[k]? = some a → codes[k + 1]? = some b → b.2.1 = (a.2.1 + 1) * 2 ^ (b.1 - a.1)) ∧
    ∀ (es : List Byte) (pad : List Bool), es.length = 128 →
      let stream := es.flatMap (elementBits codes)
      ((∀ b ∈ pad, b = false) → pad.length < 8 → readElems codes 128 (stream ++ pad) = .ok es) ∧
      (8 ≤ pad.length → readElems codes 128 (stream ++ pad) = .error 4) ∧
      (pad.length < 8 → (∃ b ∈ pad, b = true) → readElems codes 128 (stream ++ pad) = .error 5) ∧
      ∀ n < stream.length, readElems codes 128 (stream.take n) = .error 4

/-- R280, R283, Table 16.3: the checks of a block in their order, and what a row gives when they pass. -/
def Claims.WrungRows : Prop :=
  ∀ (b : List Byte) (ys : List (BitVec 16)) (L i first n : Nat),
    let num (off k : Nat) : Nat := leNat ((b.drop off).take k)
    let good (lo hi : Nat) : Prop := ∀ g, lo / 32 ≤ g → 32 * g < hi → ys.getD g 0 = 0
    let zeros (lo hi : Nat) : Prop := ∀ x ∈ (b.drop lo).take (hi - lo), x = 0
    let tab := num 16 2
    let plen := num 20 4
    let roff (j : Nat) : Nat := num (tab + 2 * j) 2
    let stop := if i < 127 then roff (i + 1) else plen
    let lens := (List.range 16).map fun x => num 8 8 / 16 ^ x % 16
    let c1 := good 0 64 ∧ (crc16 (b.take 62)).toNat = num 62 2
    let c2 := num 0 1 = 0x57 ∧ num 1 1 = 1 ∧ zeros 2 4 ∧ zeros 18 20 ∧ zeros 24 62
    let c3 := (∀ l ∈ lens, 1 ≤ l ∧ l ≤ 8) ∧ (lens.map fun l => 2 ^ (8 - l)).sum = 256
    let c4 := tab % 32 = 0 ∧ 64 ≤ tab ∧ tab + 256 + plen ≤ L ∧ L ≤ 32768 ∧ L % 32 = 0
    let c5 := zeros 64 tab
    let c6 := good (tab + 2 * first) (tab + 2 * min 128 (first + n + 1))
    let c7 := (i = 0 → roff 0 = 0) ∧ roff i + 8 ≤ stop ∧ stop ≤ plen
    let lo := tab + 256 + roff i
    let hi := tab + 256 + stop
    let c8 := good lo hi
    let row := wrungRow b ys L (first, n) i
    (¬ c1 → row = .error (6, 255)) ∧ (c1 → ¬ c2 → row = .error (1, 255)) ∧ (c1 → c2 → ¬ c3 → row = .error (2, 255)) ∧
    (c1 → c2 → c3 → ¬ c4 → row = .error (3, 255)) ∧ (c1 → c2 → c3 → c4 → ¬ c5 → row = .error (5, 255)) ∧
    (c1 → c2 → c3 → c4 → c5 → good 64 tab → first < 128 → (¬ c6 → row = .error (6, 255)) ∧
      (c6 → (¬ c7 → row = .error (3, i)) ∧ (c7 → (¬ c8 → row = .error (6, i)) ∧
        (c8 → let r := (b.drop lo).take (hi - lo)
          (∀ es, readElems (wrungCodes lens) 128 (streamBits (r.take (r.length - 8))) = .ok es → row = .ok (es, r.drop (r.length - 8))) ∧
          ∀ k, readElems (wrungCodes lens) 128 (streamBits (r.take (r.length - 8))) = .error k → row = .error (k, i)))))

/-! ### Accumulator tiles -/

/-- R63: rounding to the grid is to the nearest integer, ties to even. -/
def Claims.GridRounding : Prop :=
  ∀ (n : Int) (q : Nat), let r := rneDy (n, -(q : Int))
    2 * (r * 2 ^ q - n).natAbs ≤ 2 ^ q ∧ (2 * (r * 2 ^ q - n).natAbs = 2 ^ q → q ≠ 0 → r % 2 = 0) ∧ rneDy (n, (q : Int)) = n * 2 ^ q

/-- R61-R63: a pass adds its products by the least exponent step that fits every live element it updates. -/
def Claims.TileAdds : Prop :=
  ∀ (t : Tile) (xs : List (Nat × Option (Int × Int))), SMap.wf (0, false) t.elems = true → (xs.map Prod.fst).Nodup →
    -32768 ≤ t.e → t.e ≤ 32767 →
    let new (n : Nat) (v : Int × Int) (k : Nat) : Int := rneDy ((t.at_ n).1, -(k : Int)) + rneDy (v.1, v.2 - (t.e + k))
    ∃ k : Nat, (t.add xs).e = t.e + k ∧ t.e + k ≤ 32767 ∧
      (∀ n, n ∉ xs.map Prod.fst → (t.add xs).at_ n = if (t.at_ n).2 then t.at_ n else (rneDy ((t.at_ n).1, -(k : Int)), false)) ∧
      (∀ n, (n, none) ∈ xs → ((t.add xs).at_ n).2 = true) ∧
      (∀ n ∈ xs.map Prod.fst, (t.at_ n).2 = true → (t.add xs).at_ n = t.at_ n) ∧
      (∀ n v, (n, some v) ∈ xs → (t.at_ n).2 = false → (t.add xs).at_ n = (new n v k, decide (2 ^ 46 ≤ (new n v k).natAbs))) ∧
      (∀ j < k, ∃ n v, (n, some v) ∈ xs ∧ (t.at_ n).2 = false ∧ 2 ^ 46 ≤ (new n v j).natAbs) ∧
      (t.e + k < 32767 → ∀ n v, (n, some v) ∈ xs → (t.at_ n).2 = false → (new n v k).natAbs < 2 ^ 46)

/-- R64, R206, R274: `ACCZ` clears every element and the poison mark and sets the exponent; `ACCNORM` keeps every value and raises the elements as far
as they fit; an element is read as its `nan` says. -/
def Claims.TileOperations : Prop :=
  ∀ (t : Tile) (slot : BitVec 64),
    ((t.zero slot).e = slotInitexp slot ∧ (t.zero slot).poison = false ∧ ∀ n, (t.zero slot).at_ n = (0, false)) ∧
    (SMap.wf (0, false) t.elems = true → -32768 ≤ t.e → (∀ n, (t.at_ n).2 = false → (t.at_ n).1.natAbs < 2 ^ 46) →
      (t.norm slot).poison = t.poison ∧
      ((∀ n, (t.at_ n).2 = false → (t.at_ n).1 = 0) → (t.norm slot).e = slotInitexp slot ∧ ∀ n, (t.norm slot).at_ n = t.at_ n) ∧
      ((∃ n, (t.at_ n).2 = false ∧ (t.at_ n).1 ≠ 0) → ∃ j : Nat, (t.norm slot).e = t.e - j ∧ -32768 ≤ t.e - (j : Int) ∧
        (∀ n, (t.norm slot).at_ n = if (t.at_ n).2 then t.at_ n else ((t.at_ n).1 * 2 ^ j, false)) ∧
        (∀ n, (t.at_ n).2 = false → ((t.at_ n).1 * 2 ^ j).natAbs < 2 ^ 46) ∧
        (-32768 ≤ t.e - (j : Int) - 1 → ∃ n, (t.at_ n).2 = false ∧ 2 ^ 46 ≤ ((t.at_ n).1 * 2 ^ (j + 1)).natAbs))) ∧
    ∀ n, (t.at_ n).2 = true → t.read slot n = match slotOutfmt slot with | 0 => 0x7FC00000 | 1 => 0x7FC0 | _ => 0x7E00

/-- R275: the elements of a block: an FP32 register holds one, a 16-bit one two neighbours. -/
def Claims.TileBlocks : Prop :=
  ∀ (t : Tile) (slot : BitVec 64) (fr lane j : Nat),
    (slotOutfmt slot = 0 → t.blockWord slot fr lane j = BitVec.ofNat 32 (t.read slot (128 * (fr + lane / 8) + (16 * (lane % 8) + j)))) ∧
    (slotOutfmt slot ≠ 0 → let n := 128 * (fr + lane / 4) + (32 * (lane % 4) + 2 * j)
      t.blockWord slot fr lane j = BitVec.ofNat 32 (t.read slot n + 65536 * t.read slot (n + 1)))

/-- R52, R62, Table 3.5: the elements of the formats enter with their exact values; a NaN or an infinity has none. -/
def Claims.ElementValues : Prop :=
  ∀ c : Nat, (∀ e ∈ [(0, E4M3), (2, BF16), (3, F16)],
      (∀ v, elemExact e.1 c = some v → IsValue e.2 c (dy v : ℝ)) ∧ (elemExact e.1 c = none ↔ isNan e.2 c ∨ isInf e.2 c)) ∧
    (c < 256 → ∃ v, elemExact 1 c = some v ∧ dy v = ((BitVec.ofNat 8 c).toInt : ℚ)) ∧
    (∀ v, F32.exact c = some v → IsValue F32 c (dy v : ℝ)) ∧ (F32.exact c = none ↔ isNan F32 c ∨ isInf F32 c)

/-- R64: `ACCRD` converts an element to the output format by RNE, subnormals kept and an overflow an infinity; `ACCWR` adds the written values, read in the
output format, to written elements that are 0 and not marked. -/
def Claims.TileReadsAndWrites : Prop :=
  ∀ (t : Tile) (slot : BitVec 64) (f : Fmt), f = (if slotOutfmt slot = 0 then F32 else if slotOutfmt slot = 1 then BF16 else F16) →
    (∀ n, (t.at_ n).2 = false →
      ((t.at_ n).1 = 0 → t.read slot n = 0) ∧
      ((t.at_ n).1 ≠ 0 → ∃ fl, RoundsTo f 0 false (dy ((t.at_ n).1, t.e) : ℝ) (t.read slot n, fl))) ∧
    (∀ xs, SMap.wf (0, false) t.elems = true → ∃ u : Tile, t.write xs = u.add xs ∧ u.e = t.e ∧ u.poison = t.poison ∧
      ∀ n, u.at_ n = if n ∈ xs.map Prod.fst then (0, false) else t.at_ n) ∧
    ∀ (fr lane j : Nat) (w : Word),
      (slotOutfmt slot = 0 → blockValues slot fr lane j w = [(128 * (fr + lane / 8) + (16 * (lane % 8) + j), F32.exact w.toNat)]) ∧
      (slotOutfmt slot ≠ 0 → let n := 128 * (fr + lane / 4) + (32 * (lane % 4) + 2 * j)
        blockValues slot fr lane j w = [(n, f.exact (w.toNat % 65536)), (n + 1, f.exact (w.toNat / 65536))])

/-! ### The matrix engine -/

/-- R264, R266, R267: what a pass fetches: rows of 128 bytes at the addresses of R264, offsets wrapping in 22 bits, or the registers read at issue, or rows
of a wrung block; scales where the slot has them. Every granule fetched passes its check and lies in the launch's allocations, in no barrier slot. -/
def Claims.MatrixFetches : Prop :=
  ∀ (s : State) (m : MReq) (r : Nat) (x : MOperands), s.mFetch m r = .ok x →
    let M := if m.shape % 2 = 0 then 64 else 16
    let N := if m.shape < 2 then 128 else 16
    let row (k i : Nat) : Nat := field (m.reg k) 21 0 + 1024 * field (m.reg (k + 1)) 23 12 * r + 32 * field (m.reg (k + 1)) 11 0 * i
    let at_ (k off : Nat) : Nat := scratchLoc (4 * m.cluster + field (m.reg k) 23 22) (off % 2 ^ 22)
    let plain (k n : Nat) (rows : List (List Byte)) : Prop := rows.length = n ∧ ((m.reg k).toNat % 32 = 0 → ∀ i < n, ∀ j < 128,
      let l := at_ k (row k i + j)
      (rows.getD i []).getD j 0 = s.byte l ∧ s.synAt l = 0 ∧ l / 16 ∉ s.slots ∧ (row k i + j) % 2 ^ 22 < 3145728)
    let held (ws : List Word) (rows : List (List Byte)) : Prop := ws.length = 512 → rows.length = 16 ∧
      ∀ i < 16, ∀ j < 128, (rows.getD i []).getD j 0 = (ws.getD (32 * i + j / 4) 0).extractLsb' (8 * (j % 4)) 8
    let wrung := slotBstore m.fmt = 1
    (m.ra = none → plain 0 M x.arows) ∧ (∀ ws, m.ra = some ws → held ws x.arows) ∧
    (m.rb = none → ¬ wrung → plain 2 N x.brows) ∧ (∀ ws, m.rb = some ws → held ws x.brows) ∧
    (m.rb = none → wrung →
      let L := 32 * field (m.reg 3) 11 0
      let l := at_ 2 (row 2 0)
      let rows := if N = 16 then (List.range 16).map fun j => 16 * field (m.reg 3) 30 28 + j else List.range 128
      x.brows.length = N ∧ ∀ (j i : Nat), rows[j]? = some i → ∃ hems,
        wrungRow (s.bytes l (max L 64)) (s.syns l (max L 64)) L (rows.headD 0, N) i = .ok (x.brows.getD j [], hems) ∧
        ∀ g < 4, crc16 (((x.brows.getD j []).drop (32 * g)).take 32) = BitVec.ofNat 16 (leNat ((hems.drop (2 * g)).take 2))) ∧
    (slotAscale m.fmt = 0 → x.sa = List.replicate M (some (1, 0))) ∧
    (slotAscale m.fmt ≠ 0 → x.sa.length = M ∧ ∀ i < M,
      x.sa.getD i none = F32.exact (leNat (s.bytes (at_ 4 (field (m.reg 4) 21 0 + 4 * M * r + 4 * i)) 4))) ∧
    (slotBscale m.fmt = 0 → x.sb = some (1, 0)) ∧
    (slotBscale m.fmt ≠ 0 → x.sb = F32.exact (leNat (s.bytes
      (if m.rb = none ∧ wrung then at_ 2 (row 2 0) + 4 else at_ 5 (field (m.reg 5) 21 0 + 4 * r)) 4)))

/-- R276, Table 15.7: the first granule of a plain A operand that lies outside the launch's allocations, in a barrier slot, or fails its check. -/
def Claims.FetchFails : Prop :=
  ∀ (s : State) (m : MReq) (r : Nat) (t : Team), m.ra = none → s.team m.tid = some t →
    let pos := field (m.reg 0) 23 22
    let off := (field (m.reg 0) 21 0 + 1024 * field (m.reg 1) 23 12 * r) % 2 ^ 22
    let core := 4 * m.cluster + pos
    let l := scratchLoc core off
    let fails (k : Nat) (syn : BitVec 16) : Prop := ∃ e, s.mFetch m r = .error e ∧ e.kind = k ∧ e.addr = pos * 2 ^ 22 + off ∧ e.syn = syn
    let inside := off + 32 ≤ 3145728 ∧ s.inLaunch t.lid core off = true ∧ s.inLaunch t.lid core (off + 31) = true
    let slotted := l / 16 ∈ s.slots ∨ scratchLoc core (off + 31) / 16 ∈ s.slots
    (¬ inside → fails 1 0) ∧ (inside → slotted → fails 3 0) ∧ (inside → ¬ slotted → s.synAt l ≠ 0 → fails 2 (s.synAt l))

/-- R62, R268: a pass updates Mp × Np elements, each with the exact sum of the products of its row of A and its row of B, times the scales; an element that
a NaN or an infinity enters is marked. -/
def Claims.MatrixProducts : Prop :=
  ∀ (m : MReq) (x : MOperands),
    let M := if m.shape % 2 = 0 then 64 else 16
    let N := if m.shape < 2 then 128 else 16
    let q := if M = 16 then field (m.reg 1) 29 28 else 0
    let c := if N = 16 then field (m.reg 3) 30 28 else 0
    let K := if slotAfmt m.fmt ≤ 1 then 128 else 64
    let elem (row : List Byte) (k : Nat) : Option (Int × Int) :=
      elemExact (slotAfmt m.fmt) (leNat ((row.drop (128 / K * k)).take (128 / K)))
    x.arows.length = M → x.brows.length = N →
    (m.products x).map Prod.fst = (List.range M).flatMap (fun i => (List.range N).map fun j => 128 * (16 * q + i) + 16 * c + j) ∧
    ∀ i < M, ∀ j < N, ∀ v, (128 * (16 * q + i) + 16 * c + j, v) ∈ m.products x →
      let a (k : Nat) := elem (x.arows.getD i []) k
      let b (k : Nat) := elem (x.brows.getD j []) k
      let sa := x.sa.getD i none
      (v = none ↔ sa = none ∨ x.sb = none ∨ ∃ k < K, a k = none ∨ b k = none) ∧
      ∀ d, v = some d → dy d = (∑ k ∈ Finset.range K, dy ((a k).getD (0, 0)) * dy ((b k).getD (0, 0))) * dy (sa.getD (0, 0)) * dy (x.sb.getD (0, 0))

/-- R265: the conditions on a matrix descriptor, for the values that the request uses. -/
def Claims.MatrixDescriptor : Prop :=
  ∀ (fmt : BitVec 64) (shape : Nat) (ra rb : Bool) (d : List Word),
    let r (k : Nat) : Word := d.getD k 0
    let wrung := slotBstore fmt = 1
    let address (k align : Nat) : Prop := field (r k) 31 24 = 0 ∧ (r k).toNat % align = 0
    descriptorOk fmt shape ra rb d = true ↔
      (ra = false → address 0 32 ∧ 4 ≤ field (r 1) 11 0) ∧ (rb = false → address 2 32) ∧
      (rb = false → ¬ wrung → 4 ≤ field (r 3) 11 0) ∧ (rb = false → wrung → field (r 3) 11 0 ≠ 0) ∧
      (slotAscale fmt ≠ 0 → address 4 4) ∧ (slotBscale fmt ≠ 0 → ¬ wrung → address 5 4) ∧
      field (r 1) 31 30 = 0 ∧ field (r 3) 31 31 = 0 ∧ (shape % 2 = 0 → field (r 1) 29 28 = 0) ∧ (shape < 2 → field (r 3) 30 28 = 0)

/-- R33, R206, R258, R266, R268: `MMA` takes an entry of its engine's reservation table, with its register operands read now, and each thread counts the request; it
waits for an entry where the table is full, and for its group's withdrawn requests to be posted again (R277). One into a poisoned tile completes at
once with a record of kind 6; that an older `ACCZ` still to be applied to the tile keeps it waiting instead is the model's choice (assumption 84). -/
def Claims.MatrixIssue : Prop :=
  ∀ (f : FMma) (s : State) (u : Thread) (r : List Thread), s.gangThreads = u :: r → s.whole = true → s.matrixCause (.mma f) = none →
    s.badSlotRead (.mma f) = false →
    let bad := (s.tile u.tid f.acc.toNat).poison = true ∧ ∀ o ∈ s.ops, ¬ (o.kind = .tileZ ∧ o.tid = u.tid ∧ o.loc = f.acc.toNat)
    (s.reserved (s.coreOf u.tid / 4) < 32 → s.reqsOf (s.gidOf u) = [] → bad → (∀ o ∈ s.ops, o.id < s.nextId ∧ o.aop < s.nextId) →
      (∀ n ∈ s.mreqs, n.id < s.nextId ∧ ¬ (n.tid = u.tid ∧ n.acc = f.acc.toNat)) → ∃ (t r : State), exec (.mma f) s = .next t ∧ t.mreqs = s.mreqs ∧
      t.tiles = s.tiles ∧ t.ops = s.ops ∧ EachThread s t (fun p q => ∃ fl, q = { p.next with flags := fl } ∧ ∀ i, q.count i = p.count i) ∧
      r = { s with threads := r.threads, ops := r.ops, mreqs := r.mreqs, nextId := r.nextId } ∧
      t.mem = (r.record (s.ctxOf u.tid) { FRec.blank 2 6 with
        team := s.teamIndex u.tid, pc := u.pkt.toNat, slot := u.slot, die := clusterDie (s.coreOf u.tid / 4), unit := s.coreOf u.tid / 4,
        detail := natLe 1 f.acc.toNat ++ natLe 13 0 }).mem) ∧
    (s.reserved (s.coreOf u.tid / 4) < 32 → s.reqsOf (s.gidOf u) = [] → (s.tile u.tid f.acc.toNat).poison = false →
      ∃ t m, exec (.mma f) s = .next t ∧ t.mreqs = s.mreqs ++ [m] ∧ Reserved s u f m ∧
      (f.ra = true → ∃ ws, m.ra = some ws ∧ OperandOf s 16 ws) ∧ (f.ra = false → m.ra = none) ∧
      (f.rb = true → ∃ ws, m.rb = some ws ∧ OperandOf s 32 ws) ∧ (f.rb = false → m.rb = none) ∧
      (∀ v ∈ s.gangThreads, ∃ o ∈ t.ops, o.uid = v.uid ∧ o.kind = .mma ∧ o.aop = m.id ∧ o.sel = v.sel f.fb) ∧
      EachThread s t (fun p q => (∃ fl n, q = { p.next with flags := fl, outs := n }) ∧
        Counts (s.gangThreads.map fun v => s.opOf v .mma (v.sel f.fb)) p q) ∧
      t = { s with mreqs := t.mreqs, ops := t.ops, nextId := t.nextId, threads := t.threads }) ∧
    (32 ≤ s.reserved (s.coreOf u.tid / 4) ∨ s.reqsOf (s.gidOf u) ≠ [] → Waits (.mma f) s .engine)

/-- R271, R275: a tile operation puts one operation in flight for each thread; `ACCRD` holds its block's registers, `ACCWR` reads them now. -/
def Claims.TileIssue : Prop :=
  ∀ (s : State) (f : FAcc) (h : FAccRW), s.gangThreads ≠ [] → s.whole = true → (∀ u ∈ s.gangThreads, s.reqsOf (s.gidOf u) = []) →
    let base : Nat := if h.ra then 16 else 32
    let plain (k : OpKind) (u : Thread) : Op := { s.opOf u k (u.sel f.fb) with
      aop := s.nextId, loc := f.acc.toNat, addr := recSlot (s.recordOf u.tid) f.slot.toNat, rtype := u.lane }
    let block (k : OpKind) (u : Thread) : Op := { s.opOf u k (u.sel h.fb) with
      aop := s.nextId, loc := h.acc.toNat, addr := recSlot (s.recordOf u.tid) h.slot.toNat, rtype := u.lane,
      size := (s.sreg u h.desc.toNat).toNat }
    (∀ i ∈ ([(.accz f, .tileZ), (.accnorm f, .tileNorm)] : List (Instr × OpKind)), s.matrixCause i.1 = none →
      ∃ t, exec i.1 s = .next t ∧ Holds s t s.gangThreads (plain i.2)) ∧
    (s.matrixCause (.accrd h) = none → ∃ t, exec (.accrd h) s = .next t ∧
      Holds s t s.gangThreads fun u => { block .tileRd u with regs := run s u base 16 }) ∧
    (s.matrixCause (.accwr h) = none → ∃ t, exec (.accwr h) s = .next t ∧
      Holds s t s.gangThreads fun u => { block .tileWr u with args := (List.range 16).map fun j => u.v (s.win u.tid) (base + j) })

/-- R259, R260, R265, R275: the traps of a matrix word: first a gang that is not one whole group, then its tile or first row, then its descriptor. -/
def Claims.MatrixTraps : Prop :=
  ∀ (s : State) (u : Thread) (r : List Thread) (f : FMma) (g : FAcc) (h : FAccRW) (c : FC), s.gangThreads = u :: r → OutsideTrap s →
    s.badSlotRead (.mma f) = false →
    let traps (i : Instr) (cause : Nat) : Prop := TakesTrap i s (TrapReq.of cause) (lanes s.gangThreads) false
    (s.whole = false → ∀ i ∈ [Instr.mma f, .accz g, .accnorm g, .accrd h, .accwr h, .mfence c], traps i 0x0B) ∧
    (s.whole = true →
      let tiles := recAccs (s.recordOf u.tid)
      let fr := (s.sreg u h.desc.toNat).toNat
      (tiles ≤ f.acc.toNat → traps (.mma f) 0x0C) ∧
      (tiles ≤ g.acc.toNat → traps (.accz g) 0x0C ∧ traps (.accnorm g) 0x0C) ∧
      (tiles ≤ h.acc.toNat ∨ 64 ≤ fr ∨ fr % (if slotOutfmt (recSlot (s.recordOf u.tid) h.slot.toNat) = 0 then 4 else 8) ≠ 0 →
        traps (.accrd h) 0x0C ∧ traps (.accwr h) 0x0C) ∧
      (f.acc.toNat < tiles → descriptorOk (recSlot (s.recordOf u.tid) f.slot.toNat) f.shape.toNat f.ra f.rb
          ((List.range 6).map fun i => s.sreg u (f.desc.toNat + i)) = false → traps (.mma f) 0x0D))

/-- R273: `MFENCE` waits for the matrix operations that its group has issued before it and its stores and atomics to local memory, and passes
without any. -/
def Claims.MatrixFence : Prop :=
  ∀ (c : FC) (s : State) (u : Thread) (r : List Thread) (g : Group), s.gangThreads = u :: r → s.whole = true → s.groupOf u = some g →
    let waitsFor (o : Op) : Prop := o.id < s.gangCut ∧
      (o.kind ∈ [.mma, .tileZ, .tileNorm, .tileRd, .tileWr] ∧ o.gid = s.gidOf u ∨
        (o.kind = .store ∨ o.kind = .atomic) ∧ 2 ≤ o.space ∧ ∃ v ∈ s.members g, o.uid = v.uid)
    ((∀ o ∈ s.ops, ¬ waitsFor o) → MovesThreads (.mfence c) s Thread.next) ∧
    ((∃ o ∈ s.ops, waitsFor o) → WaitsOrder (.mfence c) s)

/-- R269, R270: a request may be granted a pass while no other on its tile is between its passes, no older one of its shape waits there, and every
older change of the tile has been applied. The arbiter: an engine's next grant goes to an eligible request, the oldest of the highest class, and with each fourth grant the oldest of
any class. -/
def Claims.MatrixArbiter : Prop :=
  ∀ (s : State) (cluster : Nat) (m : MReq), s.nextGrant cluster = some m → (∀ n ∈ s.mreqs, n.cls ≤ 7 ∧ n.id < 2 ^ 64) →
    let may (m : MReq) : Prop := m.next ≤ m.rep ∧ (∀ p ∈ s.mpass, p.req ≠ m.id) ∧
      (∀ x ∈ s.mreqs ++ s.wReqs, x.tid = m.tid → x.acc = m.acc → x.id ≠ m.id →
        ¬ (0 < x.next ∧ x.next ≤ x.rep) ∧ ¬ (x.shape = m.shape ∧ x.id < m.id ∧ x.next ≤ x.rep)) ∧
      ∀ o ∈ s.ops, o.kind = .tileZ ∨ o.kind = .tileNorm ∨ o.kind = .tileWr → o.aop = o.id → o.tid = m.tid → o.loc = m.acc → m.id ≤ o.id
    m ∈ s.mreqs ∧ m.cluster = cluster ∧ (∀ m, s.mayPass m = true ↔ may m) ∧ may m ∧
    ∀ n ∈ s.mreqs, n.cluster = cluster → s.mayPass n = true →
      (SMap.get 0 s.grantNo cluster % 4 = 3 → m.id ≤ n.id) ∧
      (SMap.get 0 s.grantNo cluster % 4 ≠ 3 → n.cls < m.cls ∨ n.cls = m.cls ∧ m.id ≤ n.id)

/-- R206, R268, R269, R276: a grant fetches a pass's operands and starts it; a request into a poisoned tile is discarded with its entry; one whose fetch
fails ends with its entry and one record, its tile poisoned where a hem check failed and else as its earlier passes left it; an engine with a pass
running grants none. -/
def Claims.MatrixGrant : Prop :=
  ∀ (s : State) (cluster : Nat), (true, cluster) ∉ s.withheld →
    ((∃ p ∈ s.mpass, p.cluster = cluster) → exec (.matrixPassGrant cluster) s = .next s) ∧
    (∀ m, (∀ p ∈ s.mpass, p.cluster ≠ cluster) → (∀ o ∈ s.ops, s.tileOpReady o = false) → s.nextGrant cluster = some m →
      (∀ n ∈ s.mreqs, n.id = m.id → n = m) →
      (∀ x, (s.tile m.tid m.acc).poison = false ∨ m.next ≠ 0 → s.mFetch m m.next = .ok x →
        ∃ t p, exec (.matrixPassGrant cluster) s = .next t ∧ t.mem = s.mem ∧ t.tiles = s.tiles ∧ t.mpass = s.mpass ++ [p] ∧
          p.cluster = cluster ∧ p.req = m.id ∧ p.r = m.next ∧ p.xs = m.products x ∧ p.ends = s.tick + m.cycles ∧
          SMap.get 0 t.grantNo cluster = SMap.get 0 s.grantNo cluster + 1 ∧ { m with next := m.next + 1 } ∈ t.mreqs) ∧
      ((s.tile m.tid m.acc).poison = true → m.next = 0 → (∀ o ∈ s.ops, ¬ (o.kind = .tileZ ∧ o.tid = m.tid ∧ o.loc = m.acc ∧ o.id < m.id)) →
        ∃ t, exec (.matrixPassGrant cluster) s = .next t ∧ t.tiles = s.tiles ∧ t.mpass = s.mpass ∧
          (∀ n ∈ t.mreqs, n ∈ s.mreqs ∧ n.id ≠ m.id) ∧ (∀ n ∈ s.mreqs, ¬ (n.tid = m.tid ∧ n.acc = m.acc) → n ∈ t.mreqs) ∧
          ∀ o ∈ t.ops, ¬ (o.kind = .mma ∧ o.aop = m.id)) ∧
      (∀ e, (s.tile m.tid m.acc).poison = false ∨ m.next ≠ 0 → s.mFetch m m.next = .error e → (∀ n ∈ s.mreqs, n.tid = m.tid → n.acc = m.acc → n = m) →
        ∃ (t r : State), exec (.matrixPassGrant cluster) s = .next t ∧ t.mpass = s.mpass ∧ t.mreqs = s.mreqs.filter (fun n => n.id != m.id) ∧
          (∀ o ∈ t.ops, ¬ (o.kind = .mma ∧ o.aop = m.id)) ∧
          (∀ tid acc, t.tile tid acc = if tid = m.tid ∧ acc = m.acc ∧ e.kind = 2 then { s.tile tid acc with poison := true } else s.tile tid acc) ∧
          r = { s with tiles := r.tiles, grantNo := r.grantNo, agenda := r.agenda } ∧
          t.mem = (r.record m.ctx { FRec.blank 2 e.kind with
            team := s.teamIndex m.tid, addr := e.addr, pc := m.pkt.toNat, slot := m.slot, die := clusterDie m.cluster, unit := m.cluster,
            detail := natLe 1 m.acc ++ natLe 1 m.next ++ (if e.kind = 2 then natLe 2 e.syn.toNat ++ natLe 8 e.tag.toNat else natLe 10 0) ++
              natLe 1 e.exp ++ natLe 1 e.row }).mem))

/-- R63, R268: at the end of a pass its products enter the tile; after the last pass the request completes. -/
def Claims.MatrixPass : Prop :=
  ∀ (s : State) (cluster : Nat) (p : MPass) (m : MReq), s.mpass.find? (fun p => p.cluster == cluster) = some p → p.ends ≤ s.tick →
    s.mreqs.find? (fun m => m.id == p.req) = some m →
    ∃ t, exec (.matrixPassEnd cluster) s = .next t ∧ t.mem = s.mem ∧ t.tile m.tid m.acc = (s.tile m.tid m.acc).add p.xs ∧
      (∀ tid acc, ¬ (tid = m.tid ∧ acc = m.acc) → t.tile tid acc = s.tile tid acc) ∧
      t.mpass = s.mpass.filter (fun q => q.cluster != cluster) ∧
      (m.next ≤ m.rep → t.mreqs = s.mreqs ∧ t.ops = s.ops) ∧
      (m.rep < m.next → t.mreqs = s.mreqs.filter (fun n => n.id != m.id) ∧ ∀ o ∈ t.ops, ¬ (o.kind = .mma ∧ o.aop = m.id))

/-- R64, R206, R271, R274, R275: a tile operation is applied at a boundary and completes for every thread; `ACCRD` writes each thread's block, marking it
poisoned where the tile is. -/
def Claims.TileApplies : Prop :=
  ∀ (s : State) (id : Nat) (o : Op), s.op id = some o → s.tileOpReady o = true →
    let mine := s.ops.filter fun x => x.aop == id && x.kind == o.kind
    let old := s.tile o.tid o.loc
    (mine.map fun x => x.uid).Nodup → (∀ x ∈ mine, x.regs.Nodup ∧ x.poison = none) →
    ∃ t, exec (.tileOpApply id) s = .next t ∧ t.mem = s.mem ∧ (∀ x ∈ mine, t.op x.id = none) ∧
      (∀ tid acc, ¬ (tid = o.tid ∧ acc = o.loc) → t.tile tid acc = s.tile tid acc) ∧
      (o.kind = .tileZ → t.tile o.tid o.loc = old.zero o.addr) ∧
      (o.kind = .tileNorm → t.tile o.tid o.loc = old.norm o.addr) ∧
      (o.kind = .tileWr → t.tile o.tid o.loc = old.write (mine.flatMap fun x =>
        ((List.range 16).zip x.args).flatMap fun p => blockValues x.addr x.size x.rtype p.1 p.2)) ∧
      (o.kind = .tileRd → t.tile o.tid o.loc = old ∧ ∀ x ∈ mine, ∀ b ∈ t.threads, b.uid = x.uid → ∀ j < 16, ∀ n, x.regs[j]? = some n →
        reg b n = old.blockWord x.addr x.size x.rtype j ∧ (old.poison = true → ∃ q ∈ b.pois, q.reg = n))

/-! ### Groups and their scheduling -/

/-- R215, R216: `GJOIN` moves every thread to its slot; an EMPTY one becomes a group with the uniform registers and `FMODE` that the lowest-lane
mover's had before the issue, other groups keep theirs. -/
def Claims.GroupJoin : Prop :=
  ∀ (f : FG1) (s : State) (u : Thread) (r : List Thread), s.gangThreads = u :: r → (∀ v ∈ r, v.tid = u.tid) → Distinct s →
    let dest (v : Thread) : Nat := (s.src v f.a).toNat
    (∀ v ∈ s.gangThreads, dest v ≤ 31) →
    (∀ v ∈ s.gangThreads, dest v ≠ v.slot → ∀ g, s.slotGroup v.tid (dest v) = some g → g.place ≠ .halted ∧ g.place ≠ .saved) →
    s.joinTrap f.a u.tid = none →
    ∃ t, exec (.gjoin f) s = .next t ∧ t = { s with threads := t.threads, groups := t.groups, nextId := t.nextId } ∧
      EachThread s t (fun a b => b = { a.next with slot := dest a }) ∧ (∀ g ∈ s.groups, ∃ h ∈ t.groups, h = { g with turn := h.turn }) ∧
      ∀ v ∈ s.gangThreads, dest v ≠ v.slot → s.slotGroup u.tid (dest v) = none → ∃ w ∈ s.gangThreads, dest w = dest v ∧ dest w ≠ w.slot ∧
        (∀ x ∈ s.gangThreads, dest x = dest v → dest x ≠ x.slot → w.lane ≤ x.lane) ∧
        ∃ h ∈ t.groups, h.tid = u.tid ∧ h.slot = dest v ∧ h.fabst = 0 ∧
          h.sregs = (before s w).sregs ∧ h.fmode = (before s w).fmode

/-- R215, Table 26.2: `GJOIN` traps on a target above 31, on a clash of home lanes and where the target's scheduler has no slot left, with all lanes of
the gang, and waits for a HALTED or SAVED group. -/
def Claims.GroupJoinTraps : Prop :=
  ∀ (f : FG1) (s : State), OutsideTrap s →
    let dest (v : Thread) : Nat := (s.src v f.a).toNat
    let high := s.gangThreads.filter fun v => 31 < dest v
    (high ≠ [] → TakesTrap (.gjoin f) s (TrapReq.of 0x0A) (lanes s.gangThreads) false) ∧
    (∀ v g, high = [] → v ∈ s.gangThreads → dest v ≠ v.slot → s.slotGroup v.tid (dest v) = some g → g.place = .halted ∨ g.place = .saved →
      Waits (.gjoin f) s .group) ∧
    (∀ u v, s.gangThreads = [u] → dest u ≤ 31 → dest u ≠ u.slot → (∀ g, s.slotGroup u.tid (dest u) = some g → g.place = .active) →
      v ∈ s.threads → v.uid ≠ u.uid → v.tid = u.tid → v.slot = dest u → v.state ≠ .exited → v.lane = u.lane →
      TakesTrap (.gjoin f) s (TrapReq.of 0x09) (lanes [u]) false) ∧
    ∀ u x, s.gangThreads = [u] → s.team u.tid = some x → dest u ≤ 31 → dest u ≠ u.slot → s.slotGroup u.tid (dest u) = none →
      (∀ v ∈ s.threads, v.uid ≠ u.uid → v.tid = u.tid → v.slot ≠ dest u) →
      (∀ g ∈ s.groups, g.tid = u.tid → ∃ v ∈ s.threads, v.uid ≠ u.uid ∧ v.tid = u.tid ∧ v.slot = g.slot ∧ v.state ≠ .exited) →
      32 ≤ (s.groups.filter fun g => g.place ≠ .saved ∧ g.sched = (dest u + x.base) % 4 ∧ s.coreOf g.tid = s.coreOf u.tid).length →
      TakesTrap (.gjoin f) s (TrapReq.of 0x0A) (lanes [u]) false

/-- R228, R229: `FABCLR` writes the old `FABST` to every thread and clears the bits that the masks of the group's threads name, but for those that
arose in the same cycle. -/
def Claims.FabricStatusClear : Prop :=
  ∀ (f : FG2) (s : State), ∃ t, exec (.fabclr f) s = .next t ∧ OnlyThreadsGroups s t ∧
    EachThread s t (fun a b => Wrote (vAt s a f.dst) (match s.groupOf a with | some g => g.fabst | none => 0) 0 a b) ∧
    List.Forall₂ (fun g h => h = { g with fabst := h.fabst } ∧ (g.gid ∉ s.gids s.gangThreads → h = g) ∧
      (g.gid ∈ s.gids s.gangThreads → ∀ i < 32,
        let low := i < 5 ∧ ∃ v ∈ s.gangThreads, s.gidOf v = g.gid ∧ (s.src v f.a).getLsbD i = true
        let high := 8 ≤ i ∧ i < 16 ∧ ∃ v ∈ s.gangThreads, s.gidOf v = g.gid ∧ field (s.src v f.a) 15 8 ≠ 0
        h.fabst.getLsbD i = true ↔ g.fabst.getLsbD i = true ∧ ¬ low ∧ ¬ high ∨ g.fabNow.getLsbD i = true ∧ (i < 5 ∨ high))) s.groups t.groups

/-- R230, Table 11.7: `GINFO` writes the item that its source selects. -/
def Claims.GroupInfo : Prop :=
  ∀ (f : FG2) (s : State), WritesV (.ginfo f) s always f.dst fun a =>
    match s.team a.tid with | some x => table117 s a x (s.src a f.a).toNat | none => 0

/-- R88, R94, R224: an overdue gang is noted once; a demoted one is barred by its issuable siblings; a parked path takes the entry that a
sibling has held longest. -/
def Claims.FairnessSteps : Prop :=
  ∀ (s : State) (n : Nat),
    (∃ t, exec (.fairnessOverdue n) s = .next t ∧ t = { s with
      paths := s.paths.map fun p => if p.id = n ∧ p.overdue = none then { p with overdue := some s.tick } else p }) ∧
    (∀ p, s.paths.find? (fun p => p.id == n) = some p → ∃ t, exec (.gangDemotion n) s = .next t ∧ t = { s with
      paths := s.paths.map fun q => if q.id = n then { q with
        bar := (s.paths.filter fun r => s.siblings p r && s.issuable r).map (fun r => r.id), fair := 0, overdue := none, run := 0 } else q }) ∧
    ∀ p q, s.paths.find? (fun p => p.id == n && p.parked.isSome) = some p → q ∈ s.paths → q.parked = none → s.siblings p q = true →
      s.pathKey q = s.pathKey p → (s.paths.map fun r => r.id).Nodup →
      (∀ r ∈ s.paths, r.parked = none → s.siblings p r = true → s.pathKey r = s.pathKey p → r.id ≠ q.id → q.granted < r.granted) →
      ∃ t, exec (.parkedPathTakeover n) s = .next t ∧ t = { s with paths := s.paths.map fun r =>
        if r.id = q.id then { r with parked := some s.tick } else
        if r.id = n then { r with parked := none, granted := s.tick } else r }

/-- R226, R244: the watchdog marks every thread of a group that has not exited, and a marked gang traps `NO-PROGRESS` at its next issue, the count
starting again at 0. -/
def Claims.NoProgress : Prop :=
  ∀ (s : State) (gid : Nat),
    (∀ g, s.gang = [] → s.group gid = some g → Distinct s → ∃ t, exec (.noProgress gid) s = .next t ∧ t = { s with
      threads := s.threads.map fun v => if v.tid = g.tid ∧ v.slot = g.slot ∧ v.state ≠ .exited then { v with wdDue := true } else v }) ∧
    (OutsideTrap s → TakesTrap (.noProgress gid) s (TrapReq.of 0x30) (lanes s.gangThreads) false ∧
      ∀ t, exec (.noProgress gid) s = .next t → (∀ b ∈ t.threads, b.uid ∈ s.gang → b.wdDue = false) ∧
        ∀ g ∈ t.groups, g.gid ∈ s.gids s.gangThreads → g.wd = 0)

/-- R222: the laggard of a team is the candidate with the fewest retired words, the lower slot where they tie. -/
def Claims.Urgency : Prop :=
  ∀ (s : State) (team : Nat), ∃ t, exec (.urgencyEvaluation team) s = .next t ∧ t = { s with teams := t.teams } ∧
    let candidate (g : Group) : Prop := g ∈ s.groups ∧ g.tid = team ∧ ((∃ v ∈ s.threads, v.tid = team ∧ v.state = .waiting ∧ v.wait = .tbar) →
      ∃ v ∈ s.members g, v.state ≠ .exited ∧ s.arrived .tbar v = false)
    List.Forall₂ (fun x y => y = { x with laggard := y.laggard } ∧ (x.tid ≠ team → y = x) ∧
      (x.tid = team → ∀ g, candidate g → (∀ h ∈ s.groups, h.slot < 32) → ∃ h, candidate h ∧ y.laggard = some h.slot ∧
        (s.retiredWords h < s.retiredWords g ∨ s.retiredWords h = s.retiredWords g ∧ h.slot ≤ g.slot))) s.teams t.teams

/-- R87, R220: a swap puts the outgoing group into the pending set without its entries and brings the incoming one in after four cycles; a free
position takes a pending group in the same way; the swap's end makes it active. -/
def Claims.Swaps : Prop :=
  ∀ (s : State) (gout gin : Nat),
    (∀ o i, s.group gout = some o → s.group gin = some i → gout ≠ gin → o.place = .active → i.place = .pending → i.swapAt = none → Distinct s →
      (∀ p ∈ s.paths, p.id < s.nextId) → ∀ w ∈ [Instr.swapOut gout gin, .forcedSwap gout gin],
      ∃ t, exec w s = .next t ∧ t = { s with groups := t.groups, threads := t.threads, paths := t.paths, nextId := t.nextId } ∧
        List.Forall₂ (fun g h => h = if g.gid = gout then { g with place := .pending, entered := s.tick, swapAt := none }
          else if g.gid = gin then { g with swapAt := some (s.tick + 4) } else g) s.groups t.groups ∧
        List.Forall₂ (fun a b => b = { a with path := b.path } ∧ (a.tid = o.tid → a.slot = o.slot → a.stands = true →
          (∃ p ∈ s.paths, p.id = a.path) → ∃ p ∈ t.paths, p.id = b.path ∧ p.parked = some s.tick ∧
            (p.id = a.path ∨ p.fair = 0 ∧ p.overdue = none))) s.threads t.threads) ∧
    (∃ t, exec (.freePositionSwapIn gin) s = .next t ∧ t = { s with groups := s.groups.map fun g =>
      if g.gid = gin ∧ g.place = .pending ∧ g.swapAt = none then { g with swapAt := some (s.tick + 4) } else g }) ∧
    ∃ t, exec (.swapComplete gin) s = .next t ∧ t = { s with groups := s.groups.map fun g =>
      if g.gid = gin ∧ g.place = .pending ∧ g.swapAt ≠ none then { g with place := .active, entered := s.tick, swapAt := none } else g }

/-! ### Sequences -/

/-- R296, R297, R300-R302: an executing thread sends one request to its sequence's home, its registers and predicate held; `SQPUB` keeps its request
at the core. -/
def Claims.SequenceIssue : Prop :=
  ∀ (f : FS) (a : FSAcq) (s r : State) (u : Thread) (loc : Nat),
    let at_ (seq : BitVec 5) (o : Op) : Op := { o with space := 6, loc := loc, addr := s.seqPair u seq }
    (OneRequest s r s.gangThreads f.seq u loc → ∃ t, exec (.sqclaim f) s = .next t ∧ Sends r t [u] (fun _ => at_ f.seq { s.opOf u .sqclaim (u.sel f.fb) with
      args := [s.src u f.b], regs := run s u f.dst.toNat 2, preg := if f.pred = 7 then none else some f.pred.toNat }) .sqclaimRequest) ∧
    (OneRequest s r (s.executing a.pred) a.seq u loc → ∃ t, exec (.sqacq a) s = .next t ∧ Sends r t [u] (fun _ => at_ a.seq
      { s.opOf u .sqacq (u.sel a.fb) with
        args := [s.src u a.b, s.src u (a.b + 1)], regs := run s u a.dst.toNat 2, aop := a.snap.toNat }) .sqacqRequest) ∧
    (OneRequest s r (s.executing f.pred) f.seq u loc →
      (∃ t, exec (.sqret f) s = .next t ∧ Sends r t [u] (fun _ => at_ f.seq { s.opOf u .sqret (u.sel f.fb) with
        args := [s.src u f.b], regs := run s u f.dst.toNat 1 }) .sqretRequest) ∧
      ∃ t, exec (.sqinfo f) s = .next t ∧ Sends r t [u] (fun _ => at_ f.seq { s.opOf u .sqinfo (u.sel f.fb) with
        args := [s.src u f.b], regs := run s u f.dst.toNat 4 }) .sqinfoRequest)

/-- R298, R304: `SQPUB` never stalls its gang: its request is kept with its operation, and sent when its release wait ends. R122, R296: a descriptor's
address that is not a multiple of 256 traps. -/
def Claims.PublishIssue : Prop :=
  ∀ (p : FSPub) (s r : State) (u : Thread) (loc : Nat),
    (OneRequest s r (s.executing p.pred) p.seq u loc → ∃ t, exec (.sqpub p) s = .next t ∧ Holds r t [u] fun _ => { s.opOf u .sqpub (u.sel p.fb) with
      args := [s.src u p.b, s.src u (p.b + 1)], space := 6, loc := loc, addr := s.seqPair u p.seq }) ∧
    ∀ (f : FS) (a : FSAcq), OutsideTrap s →
      ∀ e ∈ [(Instr.sqclaim f, s.gangThreads, f.seq), (.sqpub p, s.executing p.pred, p.seq), (.sqacq a, s.executing a.pred, a.seq),
          (.sqret f, s.executing f.pred, f.seq), (.sqinfo f, s.executing f.pred, f.seq)],
        e.2.1 = [u] → (s.seqPair u e.2.2).toNat % 256 ≠ 0 →
        TakesTrap e.1 s { TrapReq.of 0x06 with space := 0, addr := s.seqPair u e.2.2 } (lanes [u]) false

/-- R292: a number written into a sequence's structure lies there lowest byte first, and nothing else of memory changes. -/
def Claims.SequenceWrites : Prop :=
  ∀ (s r t : State) (a : SqAt) (va loc n v : Nat), s.sqLoc a va = .ok (r, loc) → (∀ h ∈ r.home, h.st = .S) → 1 ≤ n → loc % 64 + n ≤ 64 →
    r.clean loc n = true → s.sqPut a va n v = .ok t → t.bytes loc n = natLe n v ∧ KeepsOutside r t loc n

/-- R291, R297: `SQCLAIM` at its home: past the capacity −2, past the pool −1, with the predicate false; else the old head, with the blocks taken and
`HEAD` and `NBLK` raised. A claim of no positions changes nothing. -/
def Claims.SequenceClaim : Prop :=
  ∀ (s s1 s2 : State) (id : Nat) (o : Op) (d : Desc), AtSequence s id o s1 d → o.kind = .sqclaim →
    let n := (o.args.headD 0).toNat
    let gen := BitVec.ofNat 32 d.gen
    let need := if n = 0 ∨ d.cap - d.head < n then 0 else (d.head + n + d.ppb - 1) / d.ppb - d.nblk
    let ends (z : State) (regs : List Word) (okay : Bool) : Prop :=
      ∃ t, exec (.sqclaimRequest id) s = .next t ∧ t.mem = z.mem ∧ Answered t id o regs okay
    s1.sqPool o.sqAt d (if need ≤ d.free then need else 0) 0 = .ok s2 →
    (d.cap - d.head < n → ends s2 [0xFFFFFFFE, gen] false) ∧
    (n ≤ d.cap - d.head → d.free < need → ends s2 [0xFFFFFFFF, gen] false) ∧
    (n = 0 → ends s2 [BitVec.ofNat 32 d.head, gen] true) ∧
    (∀ s3, n ≠ 0 → n ≤ d.cap - d.head → need = 0 → s2.sqPut o.sqAt o.sqAt.va 4 (d.head + n) = .ok s3 →
      ends s3 [BitVec.ofNat 32 d.head, gen] true) ∧
    ∀ s3 s4 s5, n ≤ d.cap - d.head → need ≠ 0 → need ≤ d.free →
      State.sqTake o.sqAt d need d.nblk d.free s2 = .ok s3 → s3.sqPut o.sqAt (o.sqAt.va + 56) 4 (d.nblk + need) = .ok s4 →
      s4.sqPut o.sqAt o.sqAt.va 4 (d.head + n) = .ok s5 → ends s5 [BitVec.ofNat 32 d.head, gen] true

/-- R298: the frontier moves over the settled positions and no further. -/
def Claims.FrontierAdvances : Prop :=
  ∀ (r : Front), r.map < 2 ^ 64 → ∃ k, k ≤ 64 ∧ Front.settled 64 r = { r with front := r.front + k, map := r.map / 2 ^ k } ∧
    (∀ i < k, r.map.testBit i = true) ∧ r.map.testBit k = false

/-- R298: `SQPUB` at its home settles its positions, and the request of a thread whose group is not saved is over. -/
def Claims.SequencePublish : Prop :=
  ∀ (s s1 s2 s3 : State) (id : Nat) (o : Op) (d e : Desc) (r r' : Front), AtSequence s id o s1 d → o.kind = .sqpub → PublishPasses s1 o d s2 e r →
    let p := (o.args.headD 0).toNat
    let n := lwCount (o.args.getD 1 0)
    p + n ≤ r.front + 64 → (∀ i, r'.map.testBit i = (r.map.testBit i || decide (p ≤ r.front + i ∧ r.front + i < p + n))) →
      r'.front = r.front → r'.plt = max r.plt (o.lt - e.ltb) → s2.sqPutFront o.sqAt e (lwLayer (o.args.getD 1 0)) (Front.settled 64 r') = .ok s3 →
      (∀ u, s3.thread o.uid = some u → s3.savedRecord u = none) →
      ∃ t, exec (.sqpubRequest id) s = .next t ∧ t.mem = s3.mem ∧ t.op id = none ∧
        List.Forall₂ (fun a b => b.regs = a.regs ∧ b.preds = a.preds ∧ if a.uid = o.uid then b.outs = a.outs - 1 else b = a) s3.threads t.threads

/-- R299: a publish that its layer's map cannot hold joins the stall queue, of 64 for each slice; one that finds it full is sent again 64 cycles later. -/
def Claims.PublishHeld : Prop :=
  ∀ (s s1 s2 s3 : State) (id : Nat) (o : Op) (d e : Desc) (r : Front), AtSequence s id o s1 d → o.kind = .sqpub → PublishPasses s1 o d s2 e r →
    let w := o.args.getD 1 0
    r.front + 64 < (o.args.headD 0).toNat + lwCount w →
    s2.sqPutFront o.sqAt e (lwLayer w) { r with plt := max r.plt (o.lt - e.ltb) } = .ok s3 →
    let held := (s.stall.filter fun k => ∃ x, s.op k = some x ∧ paSlice x.loc = paSlice o.loc).length
    ∃ t, exec (.sqpubRequest id) s = .next t ∧
      (held < 64 → t = { s3 with stall := s.stall ++ [id] }) ∧
      (64 ≤ held → t = { s with ops := s.ops.map fun x => if x.id = id then { x with again := some (s.tick + 64) } else x })

/-- R299, R301: once a publish of its layer or a retraction of its sequence is over, a held publish is performed against the state which that leaves. -/
def Claims.HeldPublishRetried : Prop :=
  ∀ (s t1 t2 : State) (i : Instr) (id k : Nat) (o x : Op), s.op id = some o → o.done = false → s.op k = some x → x.done = false → k ≠ id →
    x.kind = .sqpub → x.loc = o.loc → s.seqWait = [] → s.stall = [k] → (∀ y ∈ s.ops, y.again = none) →
    i = .sqpubRequest id ∧ o.kind = .sqpub ∧ lwLayer (x.args.getD 1 0) = lwLayer (o.args.getD 1 0) ∨ i = .sqretRequest id ∧ o.kind = .sqret →
    exec i { s with stall := [] } = .next t1 → (o.kind = .sqpub → t1.op id = none) → t1.stall = [] → t1.op k = some x →
    (∀ y ∈ t1.ops, y.again = none) → exec (.sqpubRequest k) { t1 with stall := [k] } = .next t2 → exec i s = .next t2

/-- R300: `SQACQ` at its home answers at once with `.SNAP`, a frontier that is far enough or a generation other than the one its wait began under, and
keeps the publish LT with the reply. -/
def Claims.SequenceAcquire : Prop :=
  ∀ (s s1 s2 s3 s4 s5 : State) (id : Nat) (o : Op) (d d1 : Desc) (r : Front), AtSequence s id o s1 d → o.kind = .sqacq →
    s1.sqHems o.sqAt d 0 0 = .ok s2 → s2.sqFront o.sqAt d (lwLayer (o.args.getD 1 0)) = .ok (s3, r) → s3.sqWell o.sqAt d = .ok s4 →
    o.aop = 1 ∨ (o.args.headD 0).toNat ≤ r.front ∨ (∃ g, o.carry = some g ∧ g ≠ d.gen) → s4.sqRebase o.sqAt d = .ok (s5, d1) →
    ∃ t, exec (.sqacqRequest id) s = .next t ∧ t.mem = s5.mem ∧
      ∃ x, t.op id = some x ∧ x.args = [BitVec.ofNat 32 r.front, BitVec.ofNat 32 d1.gen] ∧ x.lt = d1.ltb + r.plt ∧ x.done = true ∧ x.rtype = 1 ∧ x.regs = o.regs

/-- R300: else it waits there with the generation that it found, one of at most 1,024 for each slice; one that finds these full is sent again 64 cycles
later. -/
def Claims.AcquireWaits : Prop :=
  ∀ (s s1 s2 s3 s4 : State) (id : Nat) (o : Op) (d : Desc) (r : Front), AtSequence s id o s1 d → o.kind = .sqacq →
    s1.sqHems o.sqAt d 0 0 = .ok s2 → s2.sqFront o.sqAt d (lwLayer (o.args.getD 1 0)) = .ok (s3, r) → s3.sqWell o.sqAt d = .ok s4 →
    o.aop ≠ 1 → r.front < (o.args.headD 0).toNat → o.carry = none ∨ o.carry = some d.gen →
    let waiting := (s.seqWait.filter fun k => ∃ x, s.op k = some x ∧ paSlice x.loc = paSlice o.loc).length
    ∃ t, exec (.sqacqRequest id) s = .next t ∧
      (waiting < 1024 → t = { s4 with
        ops := s4.ops.map (fun x => if x.id = id then { x with wts := d.gen } else x), seqWait := s.seqWait ++ [id] }) ∧
      (1024 ≤ waiting → t = { s with ops := s.ops.map fun x => if x.id = id then { x with again := some (s.tick + 64) } else x })

/-- R300, R303: each request that the home performs on the sequence has a waiting acquire checked against the state which that leaves: it completes in the
same cycle where its frontier is reached or the generation is another. -/
def Claims.AcquireWoken : Prop :=
  ∀ (s t1 s1 s2 s3 s4 : State) (i : Instr) (id k : Nat) (o x : Op) (d : Desc) (r : Front), s.op id = some o → o.done = false → o.sqMessage = [i] →
    k ≠ id → (∀ y ∈ s.ops, y.again = none) → s.seqWait = [k] → s.stall = [] → exec i { s with seqWait := [] } = .next t1 → t1.seqWait = [] → t1.stall = [] →
    t1.op k = some x → x.kind = .sqacq → x.aop ≠ 1 → x.loc = o.loc →
    State.sqDesc { t1 with seqWait := [k] } x.sqAt = .ok (s1, d) → s1.sqHems x.sqAt d 0 0 = .ok s2 →
    s2.sqFront x.sqAt d (lwLayer (x.args.getD 1 0)) = .ok (s3, r) → s3.sqWell x.sqAt d = .ok s4 →
    (r.front < (x.args.headD 0).toNat ∧ x.wts = d.gen → exec i s = .next s4) ∧
    ∀ s5 d1, (x.args.headD 0).toNat ≤ r.front ∨ x.wts ≠ d.gen → s4.sqRebase x.sqAt d = .ok (s5, d1) →
      ∃ t, exec i s = .next t ∧ t.mem = s5.mem ∧ t.seqWait = [] ∧ ∃ y, t.op k = some y ∧ y.done = true ∧ y.rtype = 1 ∧ y.lt = d1.ltb + r.plt ∧
        y.args = [BitVec.ofNat 32 r.front, BitVec.ofNat 32 d1.gen]

/-- R291, Table 17.4: a layer that the sequence does not have (4), positions beyond its head or more than 64 (5) and another generation (6) fail a request
with one record, and change nothing else of memory. -/
def Claims.SequenceFaults : Prop :=
  ∀ (s s1 s2 : State) (id kind : Nat) (i : Instr) (o : Op) (d : Desc), AtSequence s id o s1 d → o.sqMessage = [i] → s1.sqHems o.sqAt d 0 0 = .ok s2 →
    let p := (o.args.headD 0).toNat
    let w := o.args.getD 1 0
    kind = 4 ∧ ((o.kind = .sqpub ∨ o.kind = .sqacq) ∧ d.layers ≤ lwLayer w ∨ o.kind = .sqinfo ∧ d.layers ≤ p) ∨
      o.kind = .sqpub ∧ (∃ z, s2.sqFront o.sqAt d (lwLayer w) = .ok z) ∧
        (kind = 6 ∧ lwGen w ≠ d.gen % 65536 ∨ kind = 5 ∧ lwGen w = d.gen % 65536 ∧ (64 < lwCount w ∨ d.head < p + lwCount w)) →
    (∀ u, s.thread o.uid = some u → s.savedRecord u = none) →
    ∃ t, exec i s = .next t ∧ t.mem = (s.record o.ctx { FRec.blank 4 kind with
        team := s.teamIndex o.tid, pc := o.pkt.toNat, unit := o.agent, slot := (match s.thread o.uid with | some u => u.slot | none => 0)
        addr := o.addr.toNat, die := sliceDie (paSlice o.loc) }).mem ∧
      if o.kind = .sqpub then t.op id = none
      else ∃ x, t.op id = some x ∧ x.done = true ∧ x.rtype = 0 ∧ x.args = o.regs.map (fun _ => 0xFFFFFFFD) ∧ x.poison = none

/-- R289, R297, R301: a claim takes its blocks from the top of the pool, in order, into the list entries from the first free one up; a retraction gives
back the last list entries, the last of them first, each of which becomes 0; then the pool's count is written. -/
def Claims.SequenceBlocks : Prop :=
  ∀ (a : SqAt) (d : Desc) (s : State) (n k free : Nat), n ≤ free →
    (∀ t, State.sqTake a d n k free s = .ok t ↔ ∃ z : Nat → State, z 0 = s ∧ (z n).sqPut a d.pool 4 (free - n) = .ok t ∧
      ∀ i < n, ∃ r e, (z i).sqGet a (d.pool + 16 + 8 * (free - 1 - i)) 8 = .ok (r, e) ∧ r.sqPut a (d.list + 8 * (k + i)) 8 (leNat e) = .ok (z (i + 1))) ∧
    ∀ t m, n ≤ k + 1 → (State.sqGive a d n k m s = .ok t ↔ ∃ z : Nat → State, z 0 = s ∧ (z n).sqPut a d.pool 4 (m + n) = .ok t ∧
      ∀ i < n, ∃ r e q, (z i).sqGet a (d.list + 8 * (k - i)) 8 = .ok (r, e) ∧ r.sqPut a (d.pool + 16 + 8 * (m + i)) 8 (leNat e) = .ok q ∧
        q.sqPut a (d.list + 8 * (k - i)) 8 0 = .ok (z (i + 1)))

/-- R301: `SQRET` beyond the head answers 0 and changes nothing; else it cuts the head and every frontier, gives back the blocks beyond those it keeps,
the generation rises by 1; its count on its flag falls there (Table 2.2). -/
def Claims.SequenceRetract : Prop :=
  (∀ (h : Nat) (r : Front), (h < r.front → r.cut h = { r with front := h, map := 0 }) ∧
    (r.front ≤ h → (r.cut h).front = r.front ∧ (r.cut h).plt = r.plt ∧
      ∀ i < 64, (r.cut h).map.testBit i = (r.map.testBit i && decide (r.front + i < h)))) ∧
  ∀ (s s1 s2 : State) (id : Nat) (o : Op) (d : Desc), AtSequence s id o s1 d → o.kind = .sqret →
    let h := (o.args.headD 0).toNat
    let keep := (h + d.ppb - 1) / d.ppb
    let freed := if d.head ≤ h then 0 else d.nblk - keep
    let cutLayer (z : State) (l : Nat) : Except (Nat × Nat) State := do
      let (z, r) ← z.sqFront o.sqAt d l
      z.sqPutFront o.sqAt d l (r.cut h)
    s1.sqPool o.sqAt d 0 freed = .ok s2 →
    let falls (z t : State) : Prop := List.Forall₂ (fun a b => if a.uid = o.uid then b.regs = a.regs ∧ b.outs = a.outs ∧
      ∀ i, b.count i = a.count i - (if i = o.sel ∧ i < 12 then 1 else 0) else b = a) z.threads t.threads
    (d.head ≤ h → ∃ t, exec (.sqretRequest id) s = .next t ∧ t.mem = s2.mem ∧ Answered t id o [0] true ∧ falls s2 t) ∧
    ∀ s3 s4 s5 s6 s7, h < d.head → (List.range d.layers).foldlM cutLayer s2 = .ok s3 →
      (freed = 0 ∧ s4 = s3 ∨ freed ≠ 0 ∧ State.sqGive o.sqAt d freed (d.nblk - 1) d.free s3 = .ok s4) →
      s4.sqPut o.sqAt o.sqAt.va 4 h = .ok s5 → s5.sqPut o.sqAt (o.sqAt.va + 40) 4 ((d.gen + 1) % 2 ^ 32) = .ok s6 →
      s6.sqPut o.sqAt (o.sqAt.va + 56) 4 keep = .ok s7 →
      ∃ t, exec (.sqretRequest id) s = .next t ∧ t.mem = s7.mem ∧ Answered t id o [BitVec.ofInt 32 (d.nblk - keep : Int)] true ∧ falls s7 t

/-- R302, R291: `SQINFO` at its home answers the head, the generation, the layer's frontier and the blocks; a layer that the sequence does not have
answers 0xFFFFFFFD in each register. -/
def Claims.SequenceInfo : Prop :=
  ∀ (s s1 s2 : State) (id : Nat) (o : Op) (d : Desc), AtSequence s id o s1 d → o.kind = .sqinfo → s1.sqHems o.sqAt d 0 0 = .ok s2 →
    let l := (o.args.headD 0).toNat
    (∀ s3 s4 r, s2.sqFront o.sqAt d l = .ok (s3, r) → s3.sqWell o.sqAt d = .ok s4 → ∃ t, exec (.sqinfoRequest id) s = .next t ∧ t.mem = s4.mem ∧
      Answered t id o [BitVec.ofNat 32 d.head, BitVec.ofNat 32 d.gen, BitVec.ofNat 32 r.front, BitVec.ofNat 32 d.nblk] true) ∧
    (d.layers ≤ l → ∃ t, exec (.sqinfoRequest id) s = .next t ∧ Answered t id o (o.regs.map fun _ => 0xFFFFFFFD) false)

/-- R297, R300: a reply writes the registers, and a claim's its predicate; an acquire's raises LT and drops the `.SI` copies, where the home has not
failed it; a refused request goes again to the home that the pages now give it, and without a page tries again after 64 cycles (assumption 78). -/
def Claims.SequenceReplies : Prop :=
  ∀ (s : State) (id : Nat) (o : Op), s.op id = some o → o.poison = none → o.regs.Nodup →
    (o.kind = .sqclaim ∨ o.kind = .sqret ∨ o.kind = .sqinfo → (∀ p, o.preg = some p → p < 7) →
      ∃ t, exec (.sequenceReply id) s = .next t ∧ t.mem = s.mem ∧ t.op id = none ∧
        List.Forall₂ (fun a b => if a.uid = o.uid then HoldsWords o.regs o.args a b ∧
          (∀ j < 7, b.preds.getLsbD j = if o.preg = some j then o.rtype == 1 else a.preds.getLsbD j) else b = a) s.threads t.threads) ∧
    (o.kind = .sqacq → o.done = true → s.loadsDone o = true →
      ∃ t, exec (.sqacqReply id) s = .next t ∧ t.mem = s.mem ∧ t.op id = none ∧
        (o.rtype = 1 → t.lt o.agent = max (s.lt o.agent) o.lt ∧ ∀ e ∈ t.l1, e.core = o.agent → e.si → e.st ≠ .V) ∧
        (o.rtype ≠ 1 → t.lts = s.lts) ∧
        List.Forall₂ (fun a b => if a.uid = o.uid then HoldsWords o.regs o.args a b ∧ b.preds = a.preds else b = a) s.threads t.threads) ∧
    (∀ r loc e l, s.translate o.ctx (some o.agent) (coreDie o.agent) o.addr.toNat false = (r, .ok loc e l) →
      ∃ t, exec (.sequenceResend id) s = .next t ∧ t = { r with
        ops := r.ops.map fun x => if x.id = id then { x with loc := loc, again := none } else x
        agenda := r.agenda ++ [match o.kind with
          | .sqclaim => .sqclaimRequest id | .sqpub => .sqpubRequest id | .sqacq => .sqacqRequest id | .sqret => .sqretRequest id
          | _ => .sqinfoRequest id] }) ∧
    ∀ r kind tries lo len, s.translate o.ctx (some o.agent) (coreDie o.agent) o.addr.toNat false = (r, .fault kind tries lo len) →
      ∃ t z, exec (.sequenceResend id) s = .next t ∧ (r.pageRequest (coreDie o.agent) o.ctx kind lo len 0 (r.sqRec o 3 kind)).1 = z ∧
        t = { z with ops := z.ops.map fun x => if x.id = id then { x with again := some (z.tick + 64) } else x }

/-! ### Launches -/

/-- R315, R320: `LAUNCH` answers −2 where the queue is not the context's or takes nothing, −1 where it is full or fed by its host; the thread that is
executing gets its answer in `v(dst)`, and the queue is as before. The word is a release all the same (R147, assumption 62). -/
def Claims.LaunchRefused : Prop :=
  ∀ (f : FZ) (s : State) (u : Thread), s.executing f.pred = [u] → (s.srcPair u f.a).toNat % 128 = 0 → s.threadOrdered 3 u = true → Standing s →
    let x := s.queue (field (s.src u (f.a + 2)) 9 0)
    let b := s.leaveTime (s.coreOf u.tid) 3 [u.uid]
    (¬ OpenTo x (s.ctxOf u.tid) → ∃ t, exec (.launch f) s = .next t ∧ Sends b t [u] (fun _ => answer s u f.fb f.dst [0xFFFFFFFE]) .loadReturn) ∧
    (OpenTo x (s.ctxOf u.tid) → x.feed = false ∨ x.size ≤ x.used → ∃ t, exec (.launch f) s = .next t ∧
      Sends b t [u] (fun _ => answer s u f.fb f.dst [0xFFFFFFFF]) .loadReturn)

/-- R147, R151: what a release leaves on some threads of a core: they take along its LT and what was acquired on it, for fabric memory at `.SYSTEM`
alone; nothing else changes (the model's choice, assumption 62). -/
def Claims.ReleaseLeaves : Prop :=
  ∀ (s : State) (core scope : Nat) (us : List Nat),
    let v := max (s.lt core) (s.ot core)
    ∃ ts, s.leaveTime core scope us = { s with threads := ts } ∧ List.Forall₂ (fun x y => y =
      if x.uid ∈ us then { x with rel := v, relSys := if scope = 4 then v else x.relSys } else x) s.threads ts

/-- R315, R318: an append copies the record's 128 bytes to the queue's entry with their hems, keeps the core's logical time with it, advances `PROD` and answers
the launch number. -/
def Claims.LaunchAppends : Prop :=
  ∀ (f : FZ) (s s1 s2 : State) (u : Thread) (d loc lv1 lv2 : Nat) (e1 e2 : BitVec 64), s.executing f.pred = [u] → (s.srcPair u f.a).toNat % 128 = 0 →
    s.threadOrdered 3 u = true →
    let q := field (s.src u (f.a + 2)) 9 0
    let c := s.ctxOf u.tid
    let core := s.coreOf u.tid
    let x := s.queue q
    let b := s.leaveTime core 3 [u.uid]
    OpenTo x c → x.feed = true → x.used < x.size → b.translate c (some core) (coreDie core) (x.entry x.prod) true = (s1, .ok d e1 lv1) →
    s1.translate c (some core) (coreDie core) (s.srcPair u f.a).toNat false = (s2, .ok loc e2 lv2) → isRemote d = false → isRemote loc = false →
    d % 64 = 0 → OutsideQueues s d 128 → (∀ h ∈ s2.home, h.st = .S) → (∀ o ∈ s2.ops, o.id < s2.nextId) →
    ∃ t o, exec (.launch f) s = .next t ∧ t.bytes d 128 = s2.bytes loc 128 ∧ t.syns d 128 = s2.syns loc 128 ∧ (t.queue q).prod = (x.prod + 1) % 2097152 ∧
      SMap.get 0 (t.queue q).lts x.prod = max (s.lt core) (s.ot core) ∧ t.op s2.nextId = some o ∧ o.regs = run s u f.dst.toNat 1 ∧
      o.fill = bytesOf [BitVec.ofNat 32 x.prod] ∧ .loadReturn s2.nextId ∈ t.agenda

/-- R122, R149, R315: a record that is not a multiple of 128 traps; a thread whose accesses its release waits for holds the gang. -/
def Claims.LaunchTraps : Prop :=
  ∀ (f : FZ) (s : State) (u : Thread), s.executing f.pred = [u] →
    (OutsideTrap s → (s.srcPair u f.a).toNat % 128 ≠ 0 →
      TakesTrap (.launch f) s { TrapReq.of 0x06 with space := 0, addr := s.srcPair u f.a } (lanes [u]) false) ∧
    ((s.srcPair u f.a).toNat % 128 = 0 → s.threadOrdered 3 u = false → WaitsOrder (.launch f) s)

/-- R339: `PGPROBE` answers the PTE with its level, or the fault kind and level; `PGPREF` asks for a walk and completes with it. -/
def Claims.PageProbes : Prop :=
  ∀ (s : State),
    (∀ (f : FZ) (u : Thread) (r : State) (x : Xlate), s.executing f.pred = [u] →
      s.translate (s.ctxOf u.tid) (some (s.coreOf u.tid)) (coreDie (s.coreOf u.tid)) (s.srcPair u f.a).toNat false = (r, x) →
      let v : BitVec 64 := match x with
        | .ok _ e level => (e &&& ~~~0xE00#64) ||| BitVec.ofNat 64 ((3 - level) * 512)
        | .fault kind level _ _ => BitVec.ofNat 64 (kind * 4096 + level * 512)
      ∃ t, exec (.pgprobe f) s = .next t ∧ Sends r t [u] (fun _ => answer s u f.fb f.dst [v.extractLsb' 0 32, v.extractLsb' 32 32]) .loadReturn) ∧
    ∀ (f : FZP) (u : Thread), s.executing f.pred = [u] → ∃ t, exec (.pgpref f) s = .next t ∧
      t.ops = s.ops ++ [{ s.opOf u .sysw (u.sel f.fb) with id := s.nextId }] ∧
      t.agenda = s.agenda ++
        [.pageWalk (s.ctxOf u.tid) (s.coreOf u.tid) (s.srcPair u f.a) (some (s.teamIndex u.tid, u.pkt, u.slot)), .storeAck s.nextId] ∧
      EachThread s t (fun a b => (∃ fl n, b = { a.next with flags := fl, outs := n }) ∧ Counts [s.opOf u .sysw (u.sel f.fb)] a b) ∧ t.mem = s.mem

/-- R321, R323: a free slot of a class goes to a queue of the class that wants one, the next in the round: its next launch is POSTED in a slot, or its
head gets the slot again. -/
def Claims.DispatchSlots : Prop :=
  ∀ (s : State) (cls : Nat),
    (16 ≤ s.slotsUsed cls → exec (.dispatchSlotTake cls) s = .next s) ∧
    ∀ x, s.nextQueue cls = some x →
      (x ∈ s.queues ∧ x.prio = cls ∧ s.wantsSlot x = true ∧ s.slotsUsed cls < 16 ∧
        ∀ y ∈ s.queues, y.prio = cls → s.wantsSlot y = true → (x.q + 1024 - SMap.get 0 s.rr cls) % 1024 ≤ (y.q + 1024 - SMap.get 0 s.rr cls) % 1024) ∧
      (s.head x.q = none → ∃ t l, exec (.dispatchSlotTake cls) s = .next t ∧ t.launches = s.launches ++ [l] ∧ l.lid = s.nextId ∧ l.queue = x.q ∧
        l.number = x.cons ∧ l.state = .posted ∧ l.slot = true ∧ l.qprio = cls ∧ l.lt = SMap.get 0 x.lts x.cons ∧ SMap.get 0 t.rr cls = (x.q + 1) % 1024 ∧
        t = { s with rr := t.rr, launches := t.launches, nextId := t.nextId }) ∧
      ∀ l, s.head x.q = some l → ∃ t, exec (.dispatchSlotTake cls) s = .next t ∧ t = { s with rr := t.rr, launches := t.launches } ∧
        t.launches = s.launches.map fun y => if y.lid = l.lid then { y with slot := true, qprio := cls } else y

/-- R308, R316, R335, Tables 20.3 and 21.3: the head's record is read once as it enters WAITING; one that cannot be read, or that fails its check,
faults the launch; a migrating page holds it until its request is resolved. A launch that a host posted keeps the time of the record (the model's
choice, assumption 62). -/
def Claims.HeadReads : Prop :=
  ∀ (s r : State) (l : Launch) (x : Xlate), HeadOf s l .posted → l.page = none → l.wake ≤ s.tick →
    s.translate l.ctx none 0 ((s.queue l.queue).entry l.number) false = (r, x) →
    (∀ loc e level, x = .ok loc e level → isRemote loc = false → (∀ h ∈ r.home, h.st = .S) →
      (r.clean loc 128 = true → ∃ t, exec (.launchHeadRead l.queue) s = .next t ∧ t.mem = r.mem ∧
        t.launch l.lid = some { l with
          record := ofBytes 1024 (r.bytes loc 128), state := .waiting
          lt := if l.queue ≠ fwQueue ∧ (r.queue l.queue).feed = false then max l.lt (r.wtsAt l.ctx loc 128) else l.lt }) ∧
      (r.clean loc 128 = false → ∃ t y, exec (.launchHeadRead l.queue) s = .next t ∧ t.launch l.lid = some y ∧ y.state = .faulted)) ∧
    (∀ kind level lo len, x = .fault kind level lo len →
      (kind ≠ 5 → ∃ t y, exec (.launchHeadRead l.queue) s = .next t ∧ t.launch l.lid = some y ∧ y.state = .faulted) ∧
      (kind = 5 → ∃ t y, exec (.launchHeadRead l.queue) s = .next t ∧ t.launch l.lid = some y ∧ y.state = .posted ∧
        ((∃ q ∈ t.pageReqs, q.die = 0 ∧ q.ctx = l.ctx ∧ q.lo < lo + len ∧ lo < q.lo + q.len ∧ y = { l with page := some (pageKey 0 q.num) }) ∨
          y = { l with wake := r.tick + 64 })))

/-- R310, R311, R320, R322: a head with a failed dependence, or that a check fails, is FAULTED; with an unmet one it gives its slot back and its queue is
BLOCKED; with all met it is DISPATCHING, its entry free. Where the context dispatches nothing, only a BLOCKED queue becomes ACTIVE. -/
def Claims.LaunchDispatches : Prop :=
  ∀ (s : State) (l : Launch), HeadOf s l .waiting →
    let x := s.queue l.queue
    let m := s.mapHeader l
    let e := exec (.launchDispatch l.lid) s
    (s.judgeAll l ≠ .unmet → s.dispatches l.ctx = false → x.state = .blocked → x.prod ≠ x.cons → ∃ t, e = .next t ∧
      (t.queue l.queue).state = .active ∧ t.launches = s.launches) ∧
    (s.judgeAll l = .failed → s.dispatches l.ctx = true → ∃ t y, e = .next t ∧ t.launch l.lid = some y ∧ y.state = .faulted ∧ y.slot = false) ∧
    (s.judgeAll l = .unmet → ∃ t y, e = .next t ∧ t.launch l.lid = some y ∧ y = { l with slot := false } ∧
      (x.state = .active → (t.queue l.queue).state = .blocked)) ∧
    (s.judgeAll l = .met → l.slot = false → x.state = .blocked → x.prod ≠ x.cons → ∃ t, e = .next t ∧ (t.queue l.queue).state = .active ∧
      t.launches = s.launches) ∧
    (s.judgeAll l = .met → l.slot = true → s.dispatches l.ctx = true → m.1.launchCheck l m.2 = none → m.1.launches = s.launches → m.1.queues = s.queues →
      ∃ t y, e = .next t ∧ t.launch l.lid = some y ∧ y.state = .dispatching ∧ y.map = m.2 ∧ y.slot = true ∧
        (t.queue l.queue).cons = (x.cons + 1) % 2097152) ∧
    (∀ k, s.judgeAll l = .met → l.slot = true → s.dispatches l.ctx = true → m.1.launchCheck l m.2 = some k → m.1.launches = s.launches →
      ∃ t y, e = .next t ∧ t.launch l.lid = some y ∧ y.state = .faulted)

/-- R322: a dependence is met, failed or unmet as its queue's `RET` and state say. -/
def Claims.Dependences : Prop :=
  ∀ (s : State) (l : Launch) (d : Nat), d < 2 ^ 32 →
    let x := s.queue (bits d 30 21)
    let a (n : Nat) : Nat := (n + 2097152 - x.ret % 2097152) % 2097152
    (d < 2 ^ 31 → s.judge l d = .met) ∧
    (2 ^ 31 ≤ d → (x.ctx = none ∨ x.ctx = some l.ctx) →
      (1048576 ≤ a (d % 2097152) → s.judge l d = .met) ∧
      (a (d % 2097152) < 1048576 → (x.state = .faulted → s.judge l d = .failed) ∧
        (x.state ≠ .faulted → x.q ≠ l.queue → s.judge l d = .unmet) ∧
        (x.q = l.queue → (d % 2097152 + 2097152 - l.number % 2097152) % 2097152 < 1048576 → s.judge l d = .failed)))

/-- R68, R313, R314, R316: a team is placed on the core that its die's rule gives: its groups with `PARAM`, `TEAM` and `TCOUNT` in `s0`–`s3`, its
threads at packet 0 with registers 0, its core's LT raised to the launch's; the launch runs. -/
def Claims.TeamPlaces : Prop :=
  ∀ (s r : State) (l : Launch) (pages : List (BitVec 64)) (core b scr own : Nat), s.launch l.lid = some l → (∀ x ∈ s.launches, x.lid = l.lid → x = l) →
    l.placing = true → s.dispatches l.ctx = true → s.nextPlace l = (r, pages, some (core, b, scr, own)) → r.launches = s.launches →
    let n := recTsize l.record
    ∃ t team gs ths, exec (.teamPlace l.lid) s = .next t ∧ t.mem = r.mem ∧ t.lt core = max (r.lt core) l.lt ∧
      t.teams = r.teams ++ [team] ∧ team.lid = l.lid ∧ team.ctx = l.ctx ∧ team.index = l.placed ∧ team.core = core ∧ team.base = b ∧
      team.scrBase = scr ∧ team.scrSize = (recScr l.record + 16383) / 16384 * 16384 ∧ team.privBase = own ∧ team.resident = true ∧
      t.groups = r.groups ++ gs ∧ gs.length = n / 32 ∧
      (∀ i g, gs[i]? = some g → g.tid = team.tid ∧ g.slot = i ∧ g.sched = (i + b) % 4 ∧ g.fmode = 0 ∧ g.fabst = 0 ∧ ∀ k, SMap.get 0 g.sregs k =
        if k = 0 then BitVec.ofNat 32 (recParam l.record) else if k = 1 then BitVec.ofNat 32 (recParam l.record / 2 ^ 32)
        else if k = 2 then BitVec.ofNat 32 l.placed else if k = 3 then BitVec.ofNat 32 (recTcount l.record) else 0) ∧
      t.threads = r.threads ++ ths ∧ ths.length = n ∧
      (∀ i v, ths[i]? = some v → v.tid = team.tid ∧ v.lid = i ∧ v.slot = i / 32 ∧ v.pkt = 0 ∧ v.word = 0 ∧ v.clause = none ∧ v.state = .runnable ∧
        v.trapMode = false ∧ v.depth = 0 ∧ v.spill = 0 ∧ v.preds = 0 ∧ v.fstat = 0 ∧ v.seams = [] ∧ ∀ k, reg v k = 0) ∧
      ∃ y, t.launch l.lid = some y ∧ y.state = .running ∧ y.placed = l.placed + 1 ∧ y.slot = (l.slot && l.placed + 1 != recTcount l.record)

/-- R207, R312: the stamp of a launch whose teams are over is the tick, bit 63 set for FAULTED, in a granule that passes its check; the launch is then
DONE, or its number has left its queue. -/
def Claims.StampWrites : Prop :=
  ∀ (s : State) (l : Launch), s.launch l.lid = some l → (∀ x ∈ s.launches, x.lid = l.lid → x = l) → s.stampDue l = true →
    let va := recStampa l.record
    (va = 0 → ∃ t, exec (.launchStampWrite l.lid) s = .next t ∧ ∀ y ∈ t.launches, y.lid = l.lid → y.state = .done) ∧
    ∀ r loc e level, va ≠ 0 → va % 8 = 0 → s.translate l.ctx none 0 va true = (r, .ok loc e level) → isRemote loc = false → loc % 8 = 0 →
      (∀ h ∈ r.home, h.st = .S) → r.launches = s.launches → OutsideQueues s loc 8 → r.synAt loc = 0 →
      ∃ t, exec (.launchStampWrite l.lid) s = .next t ∧
        t.bytes loc 8 = natLe 8 (r.tick % 2 ^ 63 + if l.state = .faulted then 2 ^ 63 else 0) ∧ ∀ y ∈ t.launches, y.lid = l.lid → y.state = .done

/-- R319: a host's write of a control word advances `PROD` where it is in range; no change writes nothing; every other write changes nothing; it is
reached by the owning host alone. -/
def Claims.HostPosts : Prop :=
  ∀ (s : State) (host q c : Nat) (y : Ctx) (value : BitVec 32), (s.queue q).ctx = some c → s.ctx c = some y → y.state ≠ .free →
    let x := s.queue q
    let v := field value 20 0
    let d := (v + 2097152 - x.prod % 2097152) % 2097152
    (y.host ≠ host → exec (.hostProdWrite host q value) s = .next s) ∧
    (y.host = host →
      (d = 0 ∨ d ≤ x.size - x.used ∧ field value 31 21 ≠ 0 → exec (.hostProdWrite host q value) s = .next s) ∧
      (1 ≤ d → d ≤ x.size - x.used → field value 31 21 = 0 → x.feed = false → x.state = .idle ∨ x.state = .active ∨ x.state = .blocked →
        ∃ t, exec (.hostProdWrite host q value) s = .next t ∧ (t.queue q).prod = v ∧ t.launches = s.launches) ∧
      (1 ≤ d → ¬ (d ≤ x.size - x.used) ∨ field value 31 21 = 0 ∧ (x.feed = true ∨ x.state = .draining ∨ x.state = .faulted) →
        ∃ t, exec (.hostProdWrite host q value) s = .next t ∧ t.queues = s.queues ∧ t.launches = s.launches))

/-- R42: a launch of the firmware context waits for nothing: its checks passed, it is DISPATCHING. -/
def Claims.FirmwarePosts : Prop :=
  ∀ (s : State) (record : BitVec 1024),
    (s.fwCtx = none → exec (.firmwareQueuePost record) s = .next s) ∧
    (∀ c, s.fwCtx = some c → (∀ x ∈ s.launches, x.lid < s.nextId) → ∃ t l, exec (.firmwareQueuePost record) s = .next t ∧
      t.launch s.nextId = some l ∧ l.ctx = 64 ∧ l.record = record ∧ (l.state = .dispatching ∨ l.state = .faulted) ∧
      (recPmap record = 0 → recFieldsOk record = true → recFits record = true → (∀ k < 8, slotValid (recSlot record k) = true) → l.state = .dispatching))

/-! ### Pages -/

/-- Table 22.3, R328, R329, R331: the checks of a leaf in their order, and the location it gives. -/
def Claims.PageChecks : Prop :=
  ∀ (s : State) (c level va : Nat) (e : BitVec 64) (write : Bool),
    let size := 2 ^ levelShift level
    let lo := va / size * size
    let okay : Prop := pteKind e ≠ 0 ∨ s.partitionOk c level e = true
    (pteMig e = true → s.leaf c level e va write = .fault 5 level lo size) ∧
    (pteMig e = false → ¬ okay → s.leaf c level e va write = .fault 4 level lo size) ∧
    (pteMig e = false → okay → write = true → pteW e = false → s.leaf c level e va write = .fault 2 level lo size) ∧
    (pteMig e = false → okay → write = false ∨ pteW e = true → ∃ loc, s.leaf c level e va write = .ok loc e level ∧
      (pteKind e = 0 → loc = pteAddr e + va % size)) ∧
    (2 ^ 52 ≤ va → ∀ core die, s.translate c core die va write = (s, .fault 7 0 (va / 65536 * 65536) 65536))

/-- R330, R333, R339: a walk's end fills the TLBs; a missing page, where a thread asked for it, joins a request that overlaps it, or opens one with the
lowest free number and its record, which names the thread's team, word and slot. A thread that found the table full tries again. -/
def Claims.PageWalks : Prop :=
  ∀ (s r : State) (c core : Nat) (va : BitVec 64) (x : Xlate),
    let die := coreDie core
    s.translate c (some core) die va.toNat false = (r, x) →
    (∀ loc e level, x = .ok loc e level → ∀ w, exec (.pageWalk c core va w) s = .next r) ∧
    (∀ kind level lo len, x = .fault kind level lo len → 0 < len →
      let overlaps (q : PageReq) : Prop := q.die = die ∧ q.ctx = c ∧ q.lo < lo + len ∧ lo < q.lo + q.len
      let taken (n : Nat) : Prop := ∃ q ∈ r.pageReqs, q.die = die ∧ q.num = n
      (∀ w, kind ≠ 1 ∨ w = none ∨ (∃ q ∈ r.pageReqs, overlaps q) ∨ (∀ n < 256, taken n) → exec (.pageWalk c core va w) s = .next r) ∧
      ∀ team pc slot n, kind = 1 → (∀ q ∈ r.pageReqs, ¬ overlaps q) → n < 256 → ¬ taken n → (∀ m < n, taken m) →
        exec (.pageWalk c core va (some (team, pc, slot))) s = .next (State.record
          { r with pageReqs := r.pageReqs ++ [{ die := die, num := n, ctx := c, lo := lo, len := len, kind := 1 }] } c
          { FRec.blank 3 1 with
            team := team, pc := pc.toNat, slot := slot, die := die, unit := core, addr := lo, detail := natLe 4 n ++ natLe 8 len ++ natLe 4 0 })) ∧
    ∀ uid, ∃ t, exec (.pageRequestRetry uid) s = .next t ∧ OnlyThreads s t ∧
      List.Forall₂ (fun a b => b = if a.uid = uid ∧ a.state = .waiting ∧ (match a.wait with | .pageFull _ => true | _ => false) = true
        then { a with state := .runnable, wait := .none } else a) s.threads t.threads

/-! ### System registers and pegs -/

/-- R382, Table 26.4: `SYSRD` answers the register's value to a thread in a mode that may read it; a number that is not listed traps `ILLEGAL-ENCODING`,
a mode too low `PRIVILEGE`. -/
def Claims.SystemReads : Prop :=
  ∀ (f : FZS) (s : State) (u : Thread), s.executing f.pred = [u] →
    let n := (s.src u (f.a.setWidth 7)).toNat
    (readable u.trapMode (s.firmware u) n → ∃ t, exec (.sysrd f) s = .next t ∧
      Sends s t [u] (fun _ => answer s u f.fb f.dst [systemValue s u n]) .loadReturn) ∧
    (OutsideTrap s → (¬ listedRead n → TakesTrap (.sysrd f) s (TrapReq.of 0x04) (lanes s.gangThreads) false) ∧
      (listedRead n → ¬ readable u.trapMode (s.firmware u) n → TakesTrap (.sysrd f) s (TrapReq.of 0x05) (lanes s.gangThreads) false))

/-- R255: the token peek answers the uniform register as it stands, its count running or not. -/
def Claims.TokenPeek : Prop :=
  ∀ (f : FZS) (s : State) (u : Thread) (g : Group), s.executing f.pred = [u] → s.groupOf u = some g → s.poisonOf u (64 + f.a.toNat) = none →
    ∃ t, exec (.sysrdPeek f) s = .next t ∧ Sends s t [u] (fun _ => answer s u f.fb f.dst [g.sv f.a.toNat]) .loadReturn

/-- R41, R382: `SYSWR` sends its value to its register, in a mode that may write it; outside trap and firmware mode any other write than of `ABORT` traps
`PRIVILEGE`, and in firmware mode a number that is not listed `ILLEGAL-ENCODING`. -/
def Claims.SystemWrites : Prop :=
  ∀ (f : FZS) (s : State) (u : Thread), s.executing f.pred = [u] →
    let n := (s.src u (f.a.setWidth 7)).toNat
    (writable u.trapMode (s.firmware u) n → ∃ t, exec (.syswr f) s = .next t ∧
      Sends s t [u] (fun _ => { s.opOf u .sysw (u.sel f.fb) with
        addr := BitVec.ofNat 64 n, args := [s.src u (f.dst.setWidth 7)], port := 1 }) (systemStep n)) ∧
    (OutsideTrap s → (s.firmware u = true → ¬ listedWrite n → TakesTrap (.syswr f) s (TrapReq.of 0x04) (lanes s.gangThreads) false) ∧
      (s.firmware u = false → n ≠ 0x20 → TakesTrap (.syswr f) s (TrapReq.of 0x05) (lanes s.gangThreads) false))

/-- R380, R382, R383: what a write of each system register changes: a window length or retrain limit in range, a contribution whose slice no running context
holds, a trap word's writable bits, the fabric table's selection and staged words; a write out of range changes nothing. -/
def Claims.SystemWritesTakeEffect : Prop :=
  ∀ (s : State) (id n : Nat) (o : Op) (v : Word), SystemWrite s id o n v →
    let takes (i : Instr) (f : State → State) : Prop := ∃ t, exec i s = .next t ∧ WriteOver s t id o f
    takes (.windowLengthWrite id) (fun s => if 500 ≤ v.toNat ∧ v.toNat ≤ 8000 then { s with windowNew := some v.toNat } else s) ∧
    takes (.retrainLimitWrite id) (fun s => if 1 ≤ v.toNat ∧ v.toNat ≤ 16 then { s with retrain := v.toNat } else s) ∧
    (v.getLsbD 0 = false → takes (.abortWrite id) fun s => s) ∧
    (0x200 ≤ n → takes (.dieScratchpadContribWrite id) fun s =>
      if (∃ x ∈ s.ctxs, x.state = .running ∧ x.part.getLsbD (n - 0x200) = true) then s
      else { s with contrib := SMap.put 0 (n - 0x200) (v.toNat % 4) s.contrib }) ∧
    (n ≤ 0x17 → takes (.systemRegisterWrite id) fun s => s.modThread o.uid fun a =>
      let w : Word := if n = 0 ∨ n = 14 ∨ 16 ≤ n then v else if n = 1 then (a.trapWord 1 &&& ~~~3#32) ||| (v &&& 3#32)
        else if n = 13 then v &&& 0x7F#32 else a.trapWord n;
      { a with trap := SMap.put 0 n w a.trap }) ∧
    (0x100 ≤ n → n < 0x103 → takes (.systemRegisterWrite id) fun s => { s with pageCmd := SMap.put 0 (n - 0x100) v s.pageCmd }) ∧
    (0x108 ≤ n → n < 0x10B → takes (.systemRegisterWrite id) fun s => { s with ctxCmd := SMap.put 0 (n - 0x108) v s.ctxCmd }) ∧
    (n = 0x120 → takes (.systemRegisterWrite id) fun s =>
      if field v 31 13 = 0 ∧ (field v 7 6 = 2 ∨ field v 7 6 < 2 ∧ field v 12 8 ≤ 15) then { s with fabSel := v.setWidth 13 } else s) ∧
    (0x121 ≤ n → n ≤ 0x128 → takes (.systemRegisterWrite id) fun s => { s with fabStage := SMap.put 0 (n - 0x121) v s.fabStage })

/-- R380: a write of `ABORT` with bit 0 set makes the thread's launch FAULTED. -/
def Claims.Abort : Prop :=
  ∀ (s : State) (id n : Nat) (o : Op) (v : Word) (x : Team) (u : Thread) (l : Launch), SystemWrite s id o n v → v.getLsbD 0 = true →
    s.team o.tid = some x → s.thread o.uid = some u → s.launch x.lid = some l → l.state.over = false → l.lid = x.lid →
    ∃ t y, exec (.abortWrite id) s = .next t ∧ t.op id = none ∧ t.launch x.lid = some y ∧ y.state = .faulted ∧ y.slot = false

/-- R8, R363-R365, R383: an install puts the staged words' fields into the selected entry, whose reserved bits stay 0, with V = 0 where the entry is
invalid. -/
def Claims.FabricTables : Prop :=
  ∀ (s : State) (id n : Nat) (o : Op) (v : Word) (c : Ctx), SystemWrite s id o n v → s.ctx s.selCtx = some c →
    let i := s.selEntry
    let e := s.staged
    let w : BitVec 256 := (e.extractLsb' 16 88 ++ (0#15 ++ e.extractLsb' 0 1)).setWidth 256
    let sub : BitVec 64 := e.extractLsb' 45 19 ++ 0#45
    (s.selTable = 0 → ∃ t y, exec (.fabricTableInstall id) s = .next t ∧ t.ctx s.selCtx = some y ∧
      SMap.get 0 y.exprts i = (if winBad false i c.exprts e then w &&& ~~~1#256 else w) ∧ ∀ k, k ≠ i → SMap.get 0 y.exprts k = SMap.get 0 c.exprts k) ∧
    (s.selTable = 1 → ∃ t y, exec (.fabricTableInstall id) s = .next t ∧ t.ctx s.selCtx = some y ∧
      SMap.get 0 y.rwins i = (if winBad true i c.rwins e then w &&& ~~~1#256 else w) ∧ ∀ k, k ≠ i → SMap.get 0 y.rwins k = SMap.get 0 c.rwins k) ∧
    (s.selTable = 2 → ∃ t y, exec (.fabricTableInstall id) s = .next t ∧ t.ctx s.selCtx = some y ∧
      SMap.get 0 y.subs i = (if subBad e then sub &&& ~~~(1#64 <<< 63) else sub))

/-- R41, R391, R392: `PEGARM` arms the peg, disarms it with 0, and answers 1 for a tick too near; a gang of a context without the debug right traps
`PRIVILEGE`, whether its predicates let any thread execute or not. -/
def Claims.PegArms : Prop :=
  ∀ (f : FZ) (s : State),
    let held : Prop := ∀ v ∈ s.gangThreads, s.firmware v = true ∨ ∃ c, s.ctx (s.ctxOf v.tid) = some c ∧ c.dbg ≠ none
    (OutsideTrap s → ¬ held → TakesTrap (.pegarm f) s (TrapReq.of 0x05) (lanes s.gangThreads) false) ∧
    (held → s.executing f.pred = [] → ∃ t, exec (.pegarm f) s = .next t ∧ OnlyThreads s t ∧ PassOn s t) ∧
    ∀ u, s.executing f.pred = [u] → held →
    let T := (s.srcPair u f.a).toNat
    let sends (peg : Option Nat) (w : Word) : Prop := ∃ t, exec (.pegarm f) s = .next t ∧
      Sends { s with peg := peg, pegArmed := if w = 0 then some s.tick else s.pegArmed } t [u] (fun _ => answer s u f.fb f.dst [w]) .loadReturn
    (T = 0 → sends none 0) ∧ (T ≠ 0 → T ≤ s.tick + 16 → sends s.peg 1) ∧ (s.tick + 16 < T → sends (some T) 0)

/-- R390, R393, R395: a peg stops every clock; a scheduler tags one word in each interval; a unit's threshold is the smallest bucket whose cumulative
count reaches its percentile. -/
def Claims.PegsAndSamples : Prop :=
  ∀ (s : State) (k : Nat),
    (∃ t, exec .pegStop s = .next t ∧ t = { s with stopped := true, peg := none }) ∧
    (∃ t n, exec (.sampleTag k) s = .next t ∧ t = { s with freeCtr := s.freeCtr + 1, tags := t.tags } ∧ n < 2 ^ s.sampleN ∧
      SMap.get 0 t.tags k = s.tick + n ∧ ∀ j, j ≠ k → SMap.get 0 t.tags j = SMap.get 0 s.tags j) ∧
    (SMap.get none s.trig k = none → exec (.histogramThreshold k) s = .next s) ∧
    ∀ g, SMap.get none s.trig k = some g → g.p ≤ 256 →
      let upTo (b : Nat) : Nat := ((List.range (b + 1)).map fun i => SMap.get 0 s.histo (bucketKey k i)).sum
      ∃ t b, exec (.histogramThreshold k) s = .next t ∧ t = { s with trig := t.trig } ∧ SMap.get none t.trig k = some { g with bucket := some b } ∧
        b < 32 ∧ g.p * upTo 31 ≤ 256 * upTo b ∧ ∀ a < b, 256 * upTo a < g.p * upTo 31
/-- R343: a context command with a reserved bit, for a context that does not exist, or from a host that does not own it, changes nothing and is
answered with an error. -/
def Claims.ContextCommandErrors : Prop :=
  ∀ (s : State) (c : PortCmd), s.cmds = [] → s.cmdsAt = [] →
    (∀ i ∈ ([.create, .start, .preempt, .resume, .teardown, .qenable, .qdrain, .qclear, .dgrant, .drevoke, .region] : List (PortCmd → Instr)),
      (field c.w 25 16 ≠ 0 ∨ field c.w 9 4 ≠ 0) → exec (i c) s = .next (replied c false 0 s)) ∧
    ∀ i ∈ ([.start, .preempt, .resume, .teardown, .qenable, .qdrain, .qclear, .dgrant, .drevoke, .region] : List (PortCmd → Instr)),
      ((∀ x ∈ s.ctxs, x.num ≠ field c.w 15 10) ∨
        ∃ x h, s.ctxs.find? (fun y => y.num == field c.w 15 10) = some x ∧ c.host = some h ∧ h ≠ x.host) →
      exec (i c) s = .next (replied c false 0 s)

/-- R340, R341, R343, R344: `CREATE` refuses a record out of range, a number in use and a partition that meets another, a fenced slice or the slice of the queue pages (the model's choice, assumption 16); else the context is CREATED with
the record's fields, and a region entry that fails a check is invalid. The answer gives the queue pages' address. -/
def Claims.ContextCreate : Prop :=
  ∀ (s : State) (c : PortCmd), s.cmds = [] → s.cmdsAt = [] → field c.w 25 16 = 0 → field c.w 9 4 = 0 →
    let n := field c.w 15 10
    let b := c.record
    let part := BitVec.ofNat 256 (numAt b 8 32)
    let e (i : Nat) : List Byte := (b.drop (128 + 32 * i)).take 32
    let taken : Prop := (∃ x ∈ s.ctxs, x.num = n ∨ x.part &&& part ≠ 0) ∨ ∃ i < 256, part.getLsbD i = true ∧ (s.fencedSlice i = true ∨ i = paSlice s.queuePages)
    let mine : Prop := c.host = none ∨ c.host = some (numAt b 82 1)
    ((¬ goodRecord b ∨ taken ∨ ¬ mine) → exec (.create c) s = .next (replied c false 0 s)) ∧
    (goodRecord b → ¬ taken → mine → ∃ t x, exec (.create c) s = .next t ∧ t.ctx n = some x ∧
      (∀ h, c.host = some h → OutMsg.answer (some h) true Config.queuePagesFabric ∈ t.outbox) ∧ (c.host = none → SMap.get 0 t.ctxCmd 4 = 1) ∧
      x.state = .created ∧ x.root = numAt b 0 8 ∧ x.part = part ∧ x.lease = numAt b 40 2 ∧ x.drift = numAt b 42 2 ∧ x.rto = numAt b 44 4 ∧
      x.trapb.toNat = numAt b 48 8 ∧ x.saveb.toNat = numAt b 56 8 ∧ x.saven = numAt b 64 4 ∧ x.frqb.toNat = numAt b 72 8 ∧ x.frqn = numAt b 80 1 ∧
      x.host = numAt b 82 1 ∧ x.pfh = (numAt b 81 1).testBit 0 ∧ x.dbg = (if (numAt b 81 1).testBit 1 then some (numAt b 82 1) else none) ∧
      x.saves = [] ∧ x.exprts = [] ∧ x.rwins = [] ∧ x.subs = [] ∧ x.used = [] ∧
      ∀ i < 16, ∃ r, x.regions[i]? = some r ∧ r.floor = 0 ∧ r.base.toNat = numAt (e i) 2 6 ∧ r.size.toNat = numAt (e i) 8 4 ∧
        (r.v = true ↔ goodRegion (e i) ∧ ∀ j < 16, j ≠ i → goodRegion (e j) →
          ¬ overlapping (numAt (e i) 2 6) (numAt (e i) 8 4) (numAt (e j) 2 6) (numAt (e j) 8 4)))

/-- R343-R345, R347, Table 23.3: `START` makes a CREATED context RUNNING. A `PREEMPT` is refused where the save area has too few free entries, else it
stops every group it names and waits for their saves. A `RESUME` makes a SAVED or RUNNING context RUNNING: it is answered when no image is left, waits
at the port for room else, and is an error where the context becomes FAULTED; of another context it is an error. -/
def Claims.ContextStates : Prop :=
  ∀ (s : State) (c : PortCmd) (x : Ctx), Commands s c x →
    let core := field c.w 63 48
    let live (g : Group) : Prop := s.ctxOf g.tid = x.num ∧ g.place ≠ .saved
    let mine (g : Group) : Prop := live g ∧ (core = 0xFFFF ∨ s.coreOf g.tid = core)
    let teams := dedup ((s.groups.filter fun g => decide (mine g)).map Group.tid)
    let needs := (s.groups.filter fun g => decide (mine g)).length +
      (teams.filter fun m => s.groups.all fun g => decide (live g → g.tid = m → mine g)).length
    (x.state = .created → exec (.start c) s = .next (replied c true 0 (changed s x.num fun y => { y with state := .running }))) ∧
    (x.state ≠ .created → exec (.start c) s = .next (replied c false 0 s)) ∧
    (x.state ≠ .saved → x.state ≠ .running → exec (.resume c) s = .next (replied c false 0 s)) ∧
    (x.state = .saved ∨ x.state = .running →
      (x.saves = [] → exec (.resume c) s = .next (replied c true 0 (changed s x.num fun y => { y with state := .running }))) ∧
      ∃ t y, exec (.resume c) s = .next t ∧ t.ctx x.num = some y ∧
        (y.state = .running ∧ y.saves = [] ∧ told c true t ∨ y.state = .faulted ∧ told c false t ∨
          y.state = .running ∧ ∃ k, t.cmds = [k] ∧ field k.w 3 0 = 4 ∧ k.w.extractLsb' 4 124 = c.w.extractLsb' 4 124)) ∧
    (x.preAt = none → (x.state ≠ .running ∨ 384 ≤ core ∧ core ≠ 0xFFFF) → exec (.preempt c) s = .next (replied c false 0 s)) ∧
    ((s.groups.map Group.gid).Nodup → x.preAt = none → x.state = .running → (core < 384 ∨ core = 0xFFFF) → x.saven < x.saves.length + needs →
      exec (.preempt c) s = .next (replied c false 0 s)) ∧
    ((s.groups.map Group.gid).Nodup → x.preAt = none → x.state = .running → (core < 384 ∨ core = 0xFFFF) → x.saves.length + needs ≤ x.saven →
      ∃ t k, exec (.preempt c) s = .next t ∧ t.cmds = [k] ∧ t.cmdsAt = [s.tick] ∧ k.host = c.host ∧ k.w.extractLsb' 4 124 = c.w.extractLsb' 4 124 ∧ field k.w 3 0 = 3 ∧
        List.Forall₂ (fun g h => h = if mine g then { g with place := .saving, swapAt := none } else g) s.groups t.groups ∧
        t = { (changed s x.num fun y => { y with preAt := some s.tick, state := if ∀ g ∈ s.groups, live g → mine g then .preempting else y.state }) with
          cmds := t.cmds, cmdsAt := t.cmdsAt, groups := t.groups })

/-- R344, R345: the `PREEMPT` at the head of the port waits while a group of its context is being saved, and is answered after; a context without resident
groups is then SAVED. A group whose work is settled becomes SAVED: its items are withdrawn and its image has a directory entry. -/
def Claims.Saves : Prop :=
  (∀ (s : State) (c : PortCmd) (x : Ctx), Commands s c x → field c.w 3 0 = 3 → x.preAt ≠ none →
    let held : State := { s with cmds := [c] }
    ((∃ g ∈ s.groups, g.place = .saving ∧ s.ctxOf g.tid = x.num) → State.ctxPort 1 held = held) ∧
    ((∀ g ∈ s.groups, g.place = .saving → s.ctxOf g.tid ≠ x.num) →
      State.ctxPort 1 held = replied c (decide (x.state ≠ .faulted)) 0 (changed s x.num fun y =>
        { y with preAt := none, state := if y.state = .preempting then .saved else y.state }))) ∧
  ∀ (s : State) (gid : Nat) (g : Group) (x : Ctx), s.group gid = some g → g.place = .saving → s.ctx (s.ctxOf g.tid) = some x →
    (∀ m ∈ s.mreqs, m.gid ≠ gid) → s.saveSettled g = true →
    (∀ e ∈ s.l1, e.core = s.coreOf g.tid → e.ctx = s.ctxOf g.tid → e.st ≠ .RD) →
    ∃ h y, (s.saveStep gid).group gid = some h ∧ h.place = .saved ∧ (∀ i ∈ (s.saveStep gid).items, i.gid ≠ gid) ∧
      (s.saveStep gid).ctx (s.ctxOf g.tid) = some y ∧ ∃ e ∈ y.saves, e.tid = g.tid ∧ e.slot = some g.slot

/-- R345: 40 ms after a `PREEMPT` no node answers an accepted copy item of a group being saved any more, so that one that waits for an answer goes on at
once and ends as it would past its remote timeout; each remote access that such a group still owes is to end in the same way, and a write held for a link
that carries nothing is lost. -/
def Claims.PreemptBound : Prop :=
  ∀ (s : State) (n : Nat),
    let saving (g : Group) : Prop := g ∈ s.groups ∧ g.place = .saving ∧ s.ctxOf g.tid = n
    ∃ t, exec (.preemptRemoteBound n) s = .next t ∧ t = { s with items := t.items, dues := t.dues } ∧
      List.Forall₂ (fun x y => let ends : Prop := x.accepted = true ∧ ∃ g, saving g ∧ g.gid = x.gid
        (ends → y = { x with late := true, wake := if x.due ≠ none then s.tick else x.wake }) ∧ (¬ ends → y = x)) s.items t.items ∧
      ∀ (o : Op) (g : Group) (u : Thread), o ∈ s.ops → o.kind ≠ .pubf → o.due ≠ none → u ∈ s.threads → u.uid = o.uid → u.tid = g.tid → u.slot = g.slot →
        saving g →
        (if o.space = 1 ∧ s.carries o.port = false ∧ (o.kind = .atomic ∨ o.waits ≠ []) then .lostWrite o.id else .remoteTimeout o.id) ∈ t.dues

/-- R344, R348: `TEARDOWN` discards the context's launches, teams and outstanding work, disables its queues, zeroes each allocation that its teams have had,
but for what a team of another context holds now, and its share of the die scratchpads, and asks each pool node it has used; the context is FREE at once
where there is none. A node's acknowledgement, if its link carries, leaves fewer; after the last, or at the bound, the context is FREE. A second `TEARDOWN`
changes nothing (the model's choice, assumption 80). -/
def Claims.Teardown : Prop :=
  (∀ (s : State) (c : PortCmd) (x : Ctx), Commands s c x → x.state = .tearing → exec (.teardown c) s = .next (replied c true 0 s)) ∧
  (∀ (s : State) (c : PortCmd) (x : Ctx), Commands s c x → x.state ≠ .tearing →
    let nodes := x.asked.filter fun k => decide (k < 64)
    ∃ t, exec (.teardown c) s = .next t ∧ (∀ l ∈ t.launches, l.ctx ≠ x.num) ∧ (∀ m ∈ t.teams, m.ctx ≠ x.num) ∧ (∀ m ∈ t.mreqs, m.ctx ≠ x.num) ∧
      (∀ o ∈ t.ops, o.ctx ≠ x.num) ∧ (∀ i ∈ t.items, i.ctx ≠ x.num) ∧ (∀ e ∈ t.l1, e.ctx ≠ x.num) ∧ told c true t ∧
      (∀ q ∈ t.queues, q.ctx ≠ some x.num) ∧ (∀ q ∈ s.queues, q.ctx = some x.num → (t.queue q.q).state = .disabled) ∧
      (∀ k ∈ nodes, OutMsg.askReturn x.num k ∈ t.outbox) ∧
      (∀ k < 256, x.part.getLsbD k = true → ∀ a < 2 ^ 20, t.byte (dieLoc k 0 + a) = 0 ∧ t.synAt (dieLoc k 0 + a) = 0) ∧
      (∀ e ∈ x.used, ∀ a < e.2, (∀ m ∈ s.teams, m.ctx ≠ x.num → m.resident = true →
        ¬ (scratchLoc m.core m.scrBase ≤ e.1 + a ∧ e.1 + a < scratchLoc m.core m.scrBase + m.scrSize) ∧
        ¬ (scratchLoc m.core m.privBase ≤ e.1 + a ∧ e.1 + a < scratchLoc m.core m.privBase + m.privSize)) → t.byte (e.1 + a) = 0) ∧
      if nodes = [] then t.ctx x.num = none
      else ∃ y, t.ctx x.num = some y ∧ y.state = .tearing ∧ y.asked = nodes ∧ y.downAt = some s.tick ∧ y.saves = []) ∧
  ∀ (s : State) (n k : Nat) (x : Ctx), s.ctxs.find? (fun y => y.num == n) = some x → x.state = .tearing →
    let gone : State := { s with ctxs := s.ctxs.filter fun y => y.num != n }
    exec (.teardownBound n) s = .next gone ∧
    (s.portTo 0 k 0 = none → exec (.teardownNodeAck n k) s = .next s) ∧
    (s.portTo 0 k 0 ≠ none → n < 64 →
      ((∃ j ∈ x.asked, j ≠ k) → exec (.teardownNodeAck n k) s = .next (changed s n fun y => { y with asked := x.asked.filter fun j => j != k })) ∧
      ((∀ j ∈ x.asked, j = k) → exec (.teardownNodeAck n k) s = .next gone))

/-- R320, R343: `QENABLE` acts on a DISABLED queue that no other context owns, `QDRAIN` on one of the context that takes launches, `QCLEAR` on a FAULTED one,
whose launches that have not left WAITING are dropped; each is an error otherwise. -/
def Claims.QueueCommands : Prop :=
  ∀ (s : State) (c : PortCmd) (x : Ctx), Commands s c x →
    let q := s.queue (field c.w 47 38)
    let arg : BitVec 64 := c.w.extractLsb' 64 64
    let nsz := field c.w 37 34
    let may : Prop := q.state = .disabled ∧ (q.ctx = none ∨ q.ctx = some x.num) ∧ x.state ≠ .tearing ∧ arg.toNat % 128 = 0 ∧ nsz ≤ 12
    let drains : Prop := q.ctx = some x.num ∧ (q.state = .idle ∨ q.state = .active ∨ q.state = .blocked)
    let clears : Prop := q.ctx = some x.num ∧ q.state = .faulted
    (¬ may → exec (.qenable c) s = .next (replied c false 0 s)) ∧
    (may → ∃ k, exec (.qenable c) s = .next (replied c true 0 (serving s k fun s =>
      { s with launches := s.launches.map fun (l : Launch) => if l.queue = q.q then { l with stale := true } else l }.putQueue { q with
      ctx := some x.num, base := arg, feed := c.w.getLsbD 30, nsz := nsz, prio := field c.w 33 31, state := .idle, prod := 0, cons := 0, ret := 0,
      lts := [] }))) ∧
    (¬ drains → exec (.qdrain c) s = .next (replied c false 0 s)) ∧
    (drains → ∃ k, exec (.qdrain c) s = .next (replied c true 0 (serving s k fun s => s.putQueue { q with state := if q.ret = q.prod then .disabled else .draining }))) ∧
    (¬ clears → exec (.qclear c) s = .next (replied c false 0 s)) ∧
    (clears → ∃ k ls, exec (.qclear c) s = .next (replied c true 0 (serving s k fun s => { s with launches := ls }.putQueue
        { q with state := .idle, cons := q.prod, ret := q.prod, lts := [] })) ∧
      ∀ l, l ∈ ls ↔ l ∈ s.launches ∧ ¬ (l.queue = q.q ∧ (l.state = .posted ∨ l.state = .waiting ∨ l.state = .done)))

/-- R349: `DGRANT` gives the debug right to the host it names; `DREVOKE` takes it away: halted groups resume, one that was to halt need not, breakpoints, watches and uncommitted
edits go. -/
def Claims.DebugRights : Prop :=
  ∀ (s : State) (c : PortCmd) (x : Ctx), Commands s c x → x.state ≠ .tearing →
    exec (.dgrant c) s = .next (replied c true 0 (changed s x.num fun y => { y with dbg := some (field c.w 67 64) })) ∧
    ∃ t, exec (.drevoke c) s = .next (replied c true 0 t) ∧
      List.Forall₂ (fun g h => h = if s.ctxOf g.tid ≠ x.num then g else if g.place = .halted then { g with place := .pending, entered := s.tick }
        else { g with haltDue := false }) s.groups t.groups ∧
      t = { (changed s x.num fun y => { y with dbg := none, breaks := [], watches := [] }) with
        groups := t.groups, edits := s.edits.filter fun e => e.ctx != x.num }

/-- R191, R343: `REGION` is allowed while the context is CREATED or SAVED and with zero floor bytes; the entry keeps the floor held for its number, and is
valid if it passes its checks and meets no valid entry. -/
def Claims.RegionCommand : Prop :=
  ∀ (s : State) (c : PortCmd) (x : Ctx), Commands s c x → x.regions.length = 16 →
    let e := c.record.take 32
    let k := field c.w 29 26
    let may : Prop := (x.state = .created ∨ x.state = .saved) ∧ e.length = 32 ∧ numAt e 16 6 = 0
    (¬ may → exec (.region c) s = .next (replied c false 0 s)) ∧
    (may → ∃ t y r old, exec (.region c) s = .next t ∧ t.ctx x.num = some y ∧ y.regions[k]? = some r ∧ x.regions[k]? = some old ∧
      r.floor = old.floor ∧ r.base.toNat = numAt e 2 6 ∧ r.size.toNat = numAt e 8 4 ∧
      (r.v = true ↔ goodRegion e ∧ ∀ j o, j ≠ k → x.regions[j]? = some o → o.v = true →
        ¬ overlapping (numAt e 2 6) (numAt e 8 4) o.base.toNat o.size.toNat) ∧
      ∀ j, j ≠ k → y.regions[j]? = x.regions[j]?)

/-- R336, R337: a page command with a reserved value, or a `RESOLVE` of no open request, changes nothing and is an error. `INVALIDATE` drops every
translation of the context that covers a byte of the range, and completes when the accesses translated there have been performed; sequence requests that only wait at their homes leave them and are sent again
(assumption 78). -/
def Claims.Invalidates : Prop :=
  (∀ (s : State) (c : PortCmd), s.pcmds = [] → (field c.w 39 32 ≠ 0 ∨ field c.w 20 16 ≠ 0 ∨ field c.w 9 2 ≠ 0) →
    exec (.invalidate c) s = .next (repliedPage c false s) ∧ exec (.resolve c) s = .next (repliedPage c false s)) ∧
  ∀ (s : State) (c : PortCmd) (x : Ctx), PageCommands s c x → s.pwait = none →
    let va := field c.w 127 64
    let lo := if field c.w 63 40 = 0 then 0 else va
    let hi := if field c.w 63 40 = 0 then 2 ^ 64 else va + 65536 * field c.w 63 40
    let kept : State := { s with tlb := s.tlb.filter fun e => !(decide (e.ctx = x.num ∧ e.va < hi ∧ lo < e.va + e.size)) }
    let us := s.usersOf x.num lo hi
    (va % 65536 ≠ 0 → exec (.invalidate c) s = .next (repliedPage c false s)) ∧
    (va % 65536 = 0 → us = [] → exec (.invalidate c) s = .next (repliedPage c true kept)) ∧
    ((s.ops.map Op.id).Nodup → va % 65536 = 0 → us ≠ [] →
      ((∀ k ∈ us, k ∉ s.seqWait ∧ k ∉ s.stall) → (∀ o ∈ s.ops, o.id ∈ us → o.kind ≠ .engOwn) → ∃ k, exec (.invalidate c) s =
        .next { kept with pwait := some us, pcmds := [k] }) ∧
      ((∀ o ∈ s.ops, o.id ∈ us → (o.kind = .sqacq ∧ o.id ∈ s.seqWait) ∨ (o.kind = .sqpub ∧ o.id ∈ s.stall)) → exec (.invalidate c) s =
        .next (repliedPage c true { kept with
          seqWait := s.seqWait.filter (· ∉ us), stall := s.stall.filter (· ∉ us)
          ops := s.ops.map fun o => if o.id ∈ us then { o with
            again := some (s.tick + 64), carry := if o.kind = .sqacq then some o.wts else none } else o })))

/-- R334-R336: a `RESOLVE` closes the open request it names: with `FAIL` = 0 every thread parked on it issues its access again, and every item and launch
that it held up goes on; with `FAIL` = 1 the threads trap `PAGE-FAULT` with its kind and address. -/
def Claims.Resolves : Prop :=
  ∀ (s : State) (c : PortCmd) (x : Ctx), PageCommands s c x →
    let named (q : PageReq) : Prop := q.die = field c.w 23 22 ∧ q.num = field c.w 31 24 ∧ q.ctx = x.num
    ((∀ q ∈ s.pageReqs, ¬ named q) → exec (.resolve c) s = .next (repliedPage c false s)) ∧
    (Distinct s → c.w.getLsbD 21 = false → ∀ q, s.pageReqs.find? (fun y => decide (named y)) = some q → ∃ t, exec (.resolve c) s = .next (repliedPage c true t) ∧
      t = { s with pageReqs := s.pageReqs.filter (· != q), threads := t.threads, items := t.items, launches := t.launches } ∧
      List.Forall₂ (fun a b => let parked : Prop := a.state = .waiting ∧ ∃ k, a.wait = .page q.die q.num k;
        (parked → b = { a with state := .runnable, wait := .none }) ∧ (¬ parked → b = a)) s.threads t.threads ∧
      List.Forall₂ (fun a b => b = if a.page = some (pageKey q.die q.num) then { a with page := none } else a) s.items t.items ∧
      List.Forall₂ (fun a b => b = if a.page = some (pageKey q.die q.num) then { a with page := none } else a) s.launches t.launches) ∧
    ∀ q p, Distinct s → c.w.getLsbD 21 = true → s.pageReqs.find? (fun y => decide (named y)) = some q →
      let ts := s.threads.filter fun a => a.state == .waiting && (match a.wait with | .page d n _ => d == q.die && n == q.num | _ => false)
      let z : State := { s with pageReqs := s.pageReqs.filter (· != q), gang := uids ts }
      ts ≠ [] → (∀ a ∈ ts, a.path = p ∧ a.trapMode = false) → ∃ t, exec (.resolve c) s = .next (repliedPage c true { t with
          items := s.items.map fun a => if a.page = some (pageKey q.die q.num) then { a with page := none } else a
          launches := s.launches.map fun a => if a.page = some (pageKey q.die q.num) then { a with page := none } else a }) ∧
        TookTrap z t { TrapReq.of 0x28 with kind := q.kind, space := 0, addr := BitVec.ofNat 64 q.lo } (lanes ts) false

/-- R386: a debug command without its authority changes nothing and answers status 1; one with a reserved value answers status 3. -/
def Claims.DebugAuthority : Prop :=
  ∀ (s : State) (c : DbgCmd),
    (∀ i ∈ ([.halt, .debugResume, .staterd, .edit, .memrd, .memwr, .commit, .discard, .breakSet, .watch] : List (DbgCmd → Instr)),
      ((∀ h x, c.host = some h → s.ctxs.find? (fun y => y.num == c.ctx) = some x → x.dbg ≠ some h) → exec (i c) s = .next (debugAnswer s 1 [] s)) ∧
      ((∃ h x, c.host = some h ∧ s.ctxs.find? (fun y => y.num == c.ctx) = some x ∧ x.dbg = some h) → c.rsvd = true →
        exec (i c) s = .next (debugAnswer s 3 [] s))) ∧
    ∀ i ∈ ([.sample, .histo, .trigger, .peg, .scan, .go] : List (DbgCmd → Instr)),
      ((∃ h x, c.host = some h ∧ x ∈ s.ctxs ∧ x.dbg ≠ some h) → exec (i c) s = .next (debugAnswer s 1 [] s)) ∧
      ((∀ h, c.host = some h → ∀ x ∈ s.ctxs, x.dbg = some h) → c.rsvd = true → exec (i c) s = .next (debugAnswer s 3 [] s))

/-- R386, Table 11.2: `HALT` makes the selected groups HALTED before their next issue, a FORMING one as soon as it has formed; `RESUME` makes HALTED ones
SWAPPED-OUT, and one that is to halt need not; status 2 where there is none. -/
def Claims.HaltAndResume : Prop :=
  ∀ (s : State) (c : DbgCmd), Entitled s c → (c.team = 0xFFFFFFFF#32 ∨ c.slot < 32) →
    let halts (g : Group) : Prop := selected s c g ∧ (g.place = .active ∨ g.place = .pending ∨ g.place = .forming)
    let each (i : Instr) (p : Group → Prop) (f : Group → Group) : Prop := ∃ t, exec i s = .next (debugAnswer s 0 [] t) ∧
      t = { s with groups := t.groups } ∧ List.Forall₂ (fun g h => (p g → h = f g) ∧ (¬ p g → h = g)) s.groups t.groups
    ((∀ g ∈ s.groups, ¬ halts g) → exec (.halt c) s = .next (debugAnswer s 2 [] s)) ∧
    ((∃ g ∈ s.groups, halts g) → each (.halt c) halts fun g =>
      if g.place = .forming then { g with haltDue := true } else { g with place := .halted, swapAt := none }) ∧
    ((∀ g ∈ s.groups, selected s c g → g.place ≠ .halted) → exec (.debugResume c) s = .next (debugAnswer s 2 [] s)) ∧
    ((∃ g ∈ s.groups, selected s c g ∧ g.place = .halted) → each (.debugResume c) (selected s c) fun g =>
      if g.place = .halted then { g with place := .pending, entered := s.tick } else { g with haltDue := false })

/-- R386: `STATERD` returns 32 bytes of the live image of a HALTED group; any state but HALTED and SAVED answers status 2. -/
def Claims.StateReads : Prop :=
  ∀ (s : State) (c : DbgCmd) (g : Group), Entitled s c → Names s c g →
    (g.place ≠ .halted → g.place ≠ .saved → exec (.staterd c) s = .next (debugAnswer s 2 [] s)) ∧
    (g.place = .halted → ∃ d, exec (.staterd c) s = .next (debugAnswer s 0 d s) ∧ d.length = 32 ∧
      (∀ j < 32, c.addr.toNat + j < 1024 → d.getD j 0 = (s.groupHead g).getD (c.addr.toNat + j) 0))

/-- R386: `EDIT` and `MEMWR` stage, 64 of a context at most; an edit of fixed bytes is refused; `DISCARD` drops what is staged; `COMMIT`
of nothing is done, and R349: it is refused once a `DREVOKE` of the context has reached its port. -/
def Claims.Edits : Prop :=
  ∀ (s : State) (c : DbgCmd), Entitled s c →
    let mine := s.edits.filter fun e => e.ctx == c.ctx
    let staged (i : Instr) (gid : Option Nat) : Prop :=
      (64 ≤ mine.length → exec i s = .next (debugAnswer s 2 [] s)) ∧
      (mine.length < 64 → exec i s = .next (debugAnswer s 0 [] { s with
        edits := s.edits ++ [{ ctx := c.ctx, gid := gid, addr := c.addr, data := c.data, mask := c.mask }] }))
    let fixed : Prop := ∃ j < 32, c.mask.getLsbD j = true ∧ (c.addr.toNat + j < 20 ∨ 28 ≤ c.addr.toNat + j ∧ c.addr.toNat + j < 64)
    (c.addr.toNat % 32 = 0 → staged (.memwr c) none) ∧
    (c.addr.toNat % 32 ≠ 0 → exec (.memwr c) s = .next (debugAnswer s 3 [] s) ∧ exec (.memrd c) s = .next (debugAnswer s 3 [] s)) ∧
    (fixed → exec (.edit c) s = .next (debugAnswer s 3 [] s)) ∧
    (¬ fixed → ∀ g, Names s c g → (g.place = .halted → staged (.edit c) (some g.gid)) ∧
      (g.place ≠ .halted → g.place ≠ .saved → exec (.edit c) s = .next (debugAnswer s 2 [] s))) ∧
    exec (.discard c) s = .next (debugAnswer s 0 [] { s with edits := s.edits.filter fun e => e.ctx != c.ctx }) ∧
    (mine = [] → (∀ k ∈ s.cmds, field k.w 3 0 ≠ 10) → exec (.commit c) s = .next (debugAnswer s 0 [] s)) ∧
    ∀ k ∈ s.cmds, field k.w 3 0 = 10 → field k.w 25 16 = 0 → field k.w 9 4 = 0 → field k.w 15 10 = c.ctx → k.host = none →
      exec (.commit c) s = .next (debugAnswer s 1 [] s)

/-- R137, R386: `MEMRD` answers a granule as `.UC` loads read it, the syndrome of a bad one with status 4, and the page kind where translation fails with status
5; `COMMIT` of one staged write stores its bytes, unless a partial write meets a bad granule. -/
def Claims.DebugMemory : Prop :=
  ∀ (s : State) (c : DbgCmd), Entitled s c → c.addr.toNat % 32 = 0 →
    (∀ (r : State) (kind level lo len : Nat), s.translate c.ctx none 0 c.addr.toNat false = (r, .fault kind level lo len) →
      exec (.memrd c) s = .next (debugAnswer r 5 [BitVec.ofNat 8 kind] r)) ∧
    (∀ (r : State) (loc : Nat) (p : BitVec 64) (q : Nat), s.translate c.ctx none 0 c.addr.toNat false = (r, .ok loc p q) → isRemote loc = false →
      let b := r.ucRead c.ctx loc 32
      (b.1.synAt loc = 0 → exec (.memrd c) s = .next (debugAnswer b.1 0 b.2.1 b.1)) ∧
      (b.1.synAt loc ≠ 0 → ∃ t, exec (.memrd c) s = .next (debugAnswer t 4 (natLe 2 (b.1.synAt loc).toNat) t))) ∧
    ∀ (e : Edit) (r : State) (loc : Nat) (p : BitVec 64) (q : Nat), s.edits.filter (fun y => y.ctx == c.ctx) = [e] → e.gid = none → e.ctx = c.ctx →
      (∀ k ∈ s.cmds, field k.w 3 0 ≠ 10) →
      s.translate c.ctx none 0 e.addr.toNat true = (r, .ok loc p q) → isRemote loc = false →
      let b := r.ucRead c.ctx loc 32
      let bs := (List.range 32).map fun j => if e.mask.getLsbD j then e.data.getD j 0 else b.2.1.getD j 0
      let without (t : State) : State := { t with edits := t.edits.filter fun y => y.ctx != c.ctx }
      (e.mask ≠ 0 → (e.mask = BitVec.allOnes 32 ∨ b.1.synAt loc = 0) →
        exec (.commit c) s = .next (debugAnswer (b.1.ucWrite c.ctx loc bs 0).1 0 [] (without (b.1.ucWrite c.ctx loc bs 0).1))) ∧
      (e.mask ≠ 0 → e.mask ≠ BitVec.allOnes 32 → b.1.synAt loc ≠ 0 → ∃ t, exec (.commit c) s =
        .next (debugAnswer t 4 (natLe 2 (b.1.synAt loc).toNat ++ natLe 1 0) (without t)) ∧ t.mem = b.1.mem)

/-- R386-R388: `BREAK` and `WATCH` set one entry of the command's context; an entry number or a value out of range is reserved. -/
def Claims.BreaksAndWatches : Prop :=
  ∀ (s : State) (c : DbgCmd), Entitled s c → c.ctx < 64 →
    let v := (c.data.getD 0 0).getLsbD 0
    let w : BitVec 128 := ofBytes 128 (c.data.take 16)
    (c.idx < 16 → field c.addr 33 32 < 3 → exec (.breakSet c) s = .next (debugAnswer s 0 [] (changed s c.ctx fun x =>
      { x with breaks := SMap.put (0, false) c.idx (if v then (c.addr.setWidth 34, true) else (0, false)) x.breaks }))) ∧
    ((15 < c.idx ∨ field c.addr 33 32 = 3) → exec (.breakSet c) s = .next (debugAnswer s 3 [] s)) ∧
    ((7 < c.idx ∨ field w 21 1 ≠ 0 ∨ field w 23 22 = 3 ∨ field w 25 24 = 0) → exec (.watch c) s = .next (debugAnswer s 3 [] s)) ∧
    (c.idx < 8 → field w 21 1 = 0 → field w 23 22 < 3 → field w 25 24 ≠ 0 → ∃ e : BitVec 128,
      exec (.watch c) s = .next (debugAnswer s 0 [] (changed s c.ctx fun x => { x with watches := SMap.put 0 c.idx e x.watches })) ∧
      field e 31 26 = c.ctx ∧ field e 127 64 = field w 127 64 ∧ field e 63 32 = field w 63 32 ∧ field e 25 22 = field w 25 22 ∧
      e.getLsbD 0 = (w.getLsbD 0 && field w 63 32 != 0))

/-- R385, R386, R390, R391, R393, R395: `TRACE` returns and removes the oldest record the sender may see of a die; `SAMPLE`, `TRIGGER` and `PEG` set what they
name, but `PEG` no peg that a `PEGARM` of the same cycle has set; `HISTO` returns eight buckets; `SCAN` and `GO` act only while a peg has stopped the package, and how far fabric time has
run on by `GO` is left open (assumption 48). -/
def Claims.DebugUnits : Prop :=
  ∀ (s : State) (c : DbgCmd),
    let seen (r : TraceRec) : Bool := r.die == c.idx && s.hasRight c.host r.ctx
    let d (i : Nat) : Nat := (c.data.getD i 0).toNat
    let kind := field c.addr 15 8
    let exists_ : Prop := field c.addr 31 16 < if kind ≤ 2 then 96 else if kind = 3 then 16 else if kind = 4 then 32 else 0
    let u := unitKey kind (field c.addr 31 16)
    (c.rsvd = false → c.idx < 4 →
      (s.trace.find? seen = none → exec (.trace c) s = .next (debugAnswer s 6 [] s)) ∧
      ∀ r, s.trace.find? seen = some r → exec (.trace c) s = .next (debugAnswer s 0 (natLe 32 r.data.toNat) { s with trace := s.trace.erase r })) ∧
    (Empowered s c →
      (10 ≤ d 0 % 32 → d 0 % 32 ≤ 20 → exec (.sample c) s = .next (debugAnswer s 0 [] { s with
        sampleN := d 0 % 32, sampleDies := if d 1 % 2 = 1 then [0, 1, 2, 3] else [], tags := [] })) ∧
      ((d 0 % 32 < 10 ∨ 20 < d 0 % 32) → exec (.sample c) s = .next (debugAnswer s 3 [] s)) ∧
      (¬ exists_ → exec (.histo c) s = .next (debugAnswer s 3 [] s) ∧ exec (.trigger c) s = .next (debugAnswer s 3 [] s)) ∧
      (exists_ → exec (.histo c) s = .next (debugAnswer s 0
        ((List.range 8).flatMap fun i => natLe 4 (SMap.get 0 s.histo (bucketKey u (8 * field c.addr 1 0 + i)))) s)) ∧
      (exists_ → s.frozen = [] → s.filter = none → d 1 % 8 = 0 → exec (.trigger c) s =
        .next (debugAnswer s 0 [] { s with trig := SMap.put none u none s.trig })) ∧
      (exists_ → s.frozen = [] → s.filter = none → 1 ≤ d 1 % 8 → d 1 % 8 ≤ 5 → d 0 ≠ 0 → exec (.trigger c) s =
        .next (debugAnswer s 0 [] { s with trig := SMap.put none u (some { p := d 0, action := d 1 % 8, bucket := none }) s.trig })) ∧
      exec (.peg c) s = .next (debugAnswer s 0 [] { s with
        peg := if s.pegArmed = some s.tick then s.peg else if c.addr = 0 then none else some c.addr.toNat }) ∧
      (s.stopped = false → exec (.scan c) s = .next (debugAnswer s 2 [] s) ∧ exec (.go c) s = .next (debugAnswer s 2 [] s)) ∧
      (s.stopped = true →
        (∃ t : State, s.fabTime ≤ t.fabTime ∧ (s.windowNew = none → t.window = s.window ∧ t.windowNew = none) ∧
          exec (.go c) s = .next (debugAnswer s 0 [] { s with
            stopped := false, freeCtr := s.freeCtr + 1, fabTime := t.fabTime, window := t.window, windowNew := t.windowNew, ops := t.ops })) ∧
        ∃ w, exec (.scan c) s = .next (debugAnswer s 0 w { s with freeCtr := s.freeCtr + 1 })))

/-- R209: a fault counts against the hops that its path tag names, unless its syndrome marks data that was known bad; a hop with its third fault within 24
hours is retired, and the retirement journalled. -/
def Claims.LastingHops : Prop :=
  (∀ (s : State) (tag : BitVec 64) (loc : Nat), exec (.hemFaultReport tag loc 1) s = .next s) ∧
  ∀ (s : State) (tag : BitVec 64) (loc : Nat) (syn : BitVec 16) (h : Nat), syn ≠ 1 → hopsOf tag loc = [h] → h / 2 ^ 64 ≠ 4 →
    let day := 86400 * 1000000 * Config.ticksPerUs
    let old := s.hopCount.filter fun e => decide (s.tick < e.2 + day)
    (h ∈ s.retiredH → exec (.hemFaultReport tag loc syn) s = .next s) ∧
    (h ∉ s.retiredH → (old.filter fun e => e.1 == h).length < 2 → exec (.hemFaultReport tag loc syn) s = .next { s with
      hopCount := (h, s.tick) :: old }) ∧
    (h ∉ s.retiredH → 2 ≤ (old.filter fun e => e.1 == h).length → exec (.hemFaultReport tag loc syn) s = .next { s with
      hopCount := (h, s.tick) :: old, retiredH := s.retiredH ++ [h],
      journal := s.journal ++ [{ step := 10, form := 1, outcome := 1, tick := s.tick, unit := h }] })

/-- R23, R207: a withheld issue slot is noted for its unit; a corrupted granule has its bits flipped and keeps its hem, so that its syndrome tells. -/
def Claims.FailuresFromOutside : Prop :=
  ∀ (s : State),
    (∀ (m : Bool) (u : Nat), exec (.issueSlotWithheld m u) s = .next { s with withheld := s.withheld ++ [(m, u)] }) ∧
    exec .powerLoss s = .next { s with power := false } ∧
    (∀ step unit, ∃ t, exec (.failureCountClear step unit) s = .next t ∧ t = { s with fuses := t.fuses } ∧
      SMap.get 0 t.fuses (fuseKey step unit) = 0 ∧ ∀ k, k ≠ fuseKey step unit → SMap.get 0 t.fuses k = SMap.get 0 s.fuses k) ∧
    ∀ (loc : Nat) (flip : BitVec 256), ∃ t, exec (.granuleCorruption loc flip) s = .next t ∧ t = { s with mem := t.mem, syn := t.syn } ∧
      (∀ i < 32, t.byte (loc / 32 * 32 + i) = s.byte (loc / 32 * 32 + i) ^^^ flip.extractLsb' (8 * i) 8) ∧
      (∀ a, a / 32 ≠ loc / 32 → t.byte a = s.byte a ∧ t.synAt a = s.synAt a) ∧
      t.synAt loc = s.synAt loc ^^^ crc16 (s.bytes (loc / 32 * 32) 32) ^^^ crc16 (t.bytes (loc / 32 * 32) 32)

/-- R397: an attestation report holds the measurement, the identity, the host's nonce and the journal's current record, all of them signed. -/
def Claims.Attestation : Prop :=
  ∀ (s : State) (host : Nat) (nonce : BitVec 384),
    let r := s.journal.getLast?
    exec (.attestationRequest host nonce) s = .next { s with outbox := s.outbox ++ [.report host s.meas Config.fusedIdentity nonce r
      (Config.attestSignature s.meas Config.fusedIdentity nonce
        (match r with | some r => [r.step, r.form, r.outcome, r.tick, r.unit] | none => []))] }

/-- R25, R397-R400: a start with nothing failing runs steps 1 to 14, journals each attempt as done, measures its stage and sends the ready notice, which names
what has been fenced out or reduced, and the ways and lanes; a required step without a second form that fails stops the start there. A unit whose record
of a second form stands at begun is fenced out. Hem faults before step 10 are journalled and count against no hop. -/
def Claims.Starts : Prop :=
  (∀ (s : State) bad hems, ∃ t, exec (.startSequence ⟨bad, hems⟩) s = .next t) ∧
  (∀ (s : State) bad hems, (1, 0, 1) ∈ bad → (1, 0, 0) ∉ bad → (1, 0, 3) ∉ bad → s.fenced = [] → ∃ t,
    exec (.startSequence ⟨bad, hems⟩) s = .next t ∧ t.startStop = some 1 ∧ t.power = true ∧ t.threads = [] ∧ t.ctxs = [] ∧ t.launches = []) ∧
  (∀ (s : State) bad hems, (1, 0, 0) ∈ bad → s.fenced = [] → ∃ t,
    exec (.startSequence ⟨bad, hems⟩) s = .next t ∧ t.power = false ∧ ∃ r ∈ t.journal, r.step = 1 ∧ r.form = 1 ∧ r.outcome = 0) ∧
  (∀ (s t : State) (r : JRec) hems, exec (.startSequence ⟨[], hems⟩) s = .next t → r ∈ s.journal → r.outcome = 0 → r.form = 2 → 5 ≤ r.step → r.step ≤ 9 →
    (r.step, r.unit) ∈ t.fenced) ∧
  (∀ (s t : State) bad hems l ps, exec (.startSequence ⟨bad, hems⟩) s = .next t → .ready l ps ∈ t.outbox →
    (∀ e ∈ t.fenced, e ∈ l) ∧ (∀ e ∈ t.reduced, e.1 = 7 → e ∈ l) ∧ (∀ u, (8, u) ∈ t.reduced → ∃ m, (8, u, m) ∈ ps) ∧
      ∀ p < 32, t.carries p = true → (t.link p).lanes ≠ 255 → (11, p, 255 - (t.link p).lanes) ∈ ps) ∧
  ∀ hems : List (Nat × BitVec 64 × Nat × BitVec 16), (∀ e ∈ hems, 1 ≤ e.1 ∧ e.1 < 10) → ∃ t, exec (.startSequence ⟨[], hems⟩) State.reset = .next t ∧
    t.startStop = none ∧ t.power = true ∧ .ready [] [] ∈ t.outbox ∧ t.ctxs = [] ∧ (∃ x, t.fwCtx = some x ∧ x.state = .running) ∧ t.threads = [] ∧
    t.meas = Config.sha384 (0#384 ++ Config.stageDigest 1) ∧ t.hopCount = [] ∧
    (∀ r ∈ t.journal, r.outcome = 1 ∨ ∃ e ∈ hems, r.unit ∈ hopsOf e.2.1 e.2.2.1) ∧
    (∀ e ∈ hems, e.2.2.2 ≠ 1 → ∀ h ∈ hopsOf e.2.1 e.2.2.1, ∃ r ∈ t.journal, r.step = e.1 ∧ r.unit = h) ∧
    ∀ k, 1 ≤ k → k ≤ 14 → ∃ r ∈ t.journal, r.step = k ∧ r.form = 1 ∧ r.outcome = 1
/-- R26-R30, R376: where the four bytes at a gang's position are those of a word that is no header, is in no chain and decodes to `i`, and nothing keeps `i`
from issuing, one step is `exec i`, with what a slot adds: paths, groups and launches settle, units go on, the tick advances; where a check stops the gang
before its word, the step is what that check does. An event of the machine runs through `exec` in the same way: of the requests for one sector that have
left in one cycle that of the lowest die and core first (R182), and an engine's landing once every scheduler has had its slot (R233). -/
def Claims.StepRunsDecodedInstruction : Prop :=
  (∀ (s s' r : State) (key run : Nat) (p : Path) (u : Thread) (k : Nat) (w : Word) (i : Instr), Issues s s' key p run →
    Stands (s'.formGang p) r u k w → w.getLsbD 31 = false → field w 30 26 ≠ 0 → decodeWord w = .ok i → r.gang = (s'.formGang p).gang →
    r.threads = (s'.formGang p).threads → Unhindered r u k i →
    let ready := (s'.paths.filter fun q => s'.pathKey q == key && s'.issuable q).map fun q => q.id
    step s = match exec i r.ready with
      | .next t => .next (t.afterIssue r.ready key p.id run ready [i])
      | .fault e => .fault e
      | .refused e => .refused e) ∧
  (∀ (s s' r t : State) (key run : Nat) (p : Path) (u : Thread) (k : Nat) (w : Word), Issues s s' key p run →
    Stands (s'.formGang p) r u k w → w.getLsbD 31 = false → field w 30 26 ≠ 0 → (∀ v ∈ (s'.formGang p).gangThreads, v.due = none) →
    r.checkWords u k [w] = .done t →
    step s = .next (t.afterStop (s'.formGang p) key p.id run ((s'.paths.filter fun q => s'.pathKey q == key && s'.issuable q).map fun q => q.id))) ∧
  ∀ (s : State) (i : Instr) (is : List Instr), s.power = true → s.startStop = none → s.stopped = false →
    (s.dues = i :: is → step s = match exec i { s with dues := is, gang := [] } with
      | .next t => .next (t.afterEvent s.trapped)
      | .fault e => .fault e
      | .refused e => .refused e) ∧
    (s.dues = [] → s.agenda = i :: is → s.workNow = true →
      let x := s.firstWork i is
      let op (y : Instr) : Option Op := (match y with
        | .homeLoadRequest k | .homeWriteThrough k | .homeOwnedRequest k => some k
        | _ => none).bind s.op
      let rank (o : Op) : Nat := agentDie o.agent * 65536 + o.agent
      let with_ (o : Op) (y : Instr) (q : Op) : Prop := op y = some q ∧ sectorKey q.ctx q.loc = sectorKey o.ctx o.loc ∧ q.sent = o.sent
      x ∈ i :: is ∧ (op i = none → x = i) ∧
      (∀ o, op i = some o → (∀ q ∈ s.ops, rank q < 2 ^ 32) →
        ∃ q, with_ o x q ∧ ∀ y ∈ i :: is, ∀ z, with_ o y z → rank q ≤ rank z) ∧
      ((∀ k, x ≠ .granuleLand k) ∨ s.issueKey = none → step s =
        match exec x { s with
          agenda := (i :: is).erase x, gang := [], deferred := 0, freeCtr := s.freeCtr + 1
          cursor := (match x with | .granuleLand _ => 2 ^ 32 | _ => s.cursor) } with
        | .next t => .next (t.afterEvent s.trapped)
        | .fault e => .fault e
        | .refused e => .refused e))

/-- R28, R29, R376: where a gang stands at a chain of words, each decoded, and nothing stops it, one step issues them together, with what a slot adds. -/
def Claims.ChainsIssue : Prop :=
  ∀ (s s' r : State) (key run : Nat) (p : Path) (u : Thread) (k : Nat) (ws : List Word) (is : List Instr), Issues s s' key p run →
    StandsChain (s'.formGang p) r u k ws → ws.map decodeWord = is.map .ok → r.gang = (s'.formGang p).gang → r.threads = (s'.formGang p).threads →
    ChainUnhindered r u k ws is →
    let ready := (s'.paths.filter fun q => s'.pathKey q == key && s'.issuable q).map fun q => q.id
    step s = match issueWords k is r.ready with
      | .next t => .next (t.afterIssue r.ready key p.id run ready is)
      | .fault e => .fault e
      | .refused e => .refused e

/-- R28, R45: of two words of one chain the later one fails that names the pipe of the other, and the first one where it transfers control (the model's
choice of the word that is named: assumption 68); the gang is to trap there with `ILLEGAL-CHAIN`, whatever else the words are. -/
def Claims.ChainClashes : Prop :=
  ∀ (r : State) (u : Thread) (k : Nat) (v w : Word), k ≤ 1 → field v 30 26 ≠ 0 → field w 30 26 ≠ 0 → w.getLsbD 31 = false →
    (∀ t ∈ r.gangThreads, t.again = [] ∧ t.wdDue = false ∧ t.owed = []) → r.breakAt u k = false → r.breakAt u (k + 1) = false → r.gangThreads ≠ [] →
    (field v 30 26 ≠ 1 → field v 30 26 ≠ 2 → pipeOf (field v 30 26) = pipeOf (field w 30 26) →
      r.checkWords u k [v, w] = .run r [.malformedWord .illegalChain u.pkt (k + 1)]) ∧
    (field v 30 26 = 1 ∨ field v 30 26 = 2 → r.checkWords u k [v, w] = .run r [.malformedWord .illegalChain u.pkt k])

/-- R29: the words of a chain take effect on what stood before it. Said of a word of Table 5.2 beside a store into a bank, in either order: the store stores
the old value of a register that the other word writes. -/
def Claims.ChainsReadOld : Prop :=
  ∀ e ∈ table52, ∀ m ∈ bankStoreWords, ∀ (f : F3) (g : FM) (s : State) (k : Nat) (locs : Thread → List Nat),
    ∀ c ∈ [[e.1 f, m.1 g], [m.1 g, e.1 f]], k ≤ 1 → (m.1 g).wf → Distinct s → s.issued = [] → (∀ a ∈ s.threads, a.old = none) →
    (∀ a ∈ s.gangThreads, a.word = k ∧ a.again = [] ∧ a.state = .runnable) →
    let size := 2 ^ g.w.toNat
    (∀ u ∈ s.executing g.pred, Access s m.2 g.a (g.mod.toNat * size) size u (locs u) ∧ ∀ l ∈ locs u, s.synAt l = 0) →
    let st := (s.executing g.pred).flatMap fun u => (locs u).zip (s.storeBytes u g.data size)
    ∃ t, issueWords k c s = .next t ∧ (∀ l, t.byte l = lastOf l (s.byte l) st) ∧
      t.agenda = s.agenda ++ (List.range (s.executing g.pred).length).map (fun i => .storeAck (s.nextId + i)) ∧
      EachThread s t fun a b => let n := vAt s a f.dst
        let go := Thread.next { a with word := k + 1 }
        (a.p f.pred = true → reg b n = e.2 (s.src a f.a) (s.src a f.b)) ∧ (∀ j, (a.p f.pred = true → j ≠ n) → reg b j = reg a j) ∧
          b.preds = a.preds ∧ b.fstat = a.fstat ∧ b.old = none ∧ b.pkt = go.pkt ∧ b.word = go.word ∧ b.clause = go.clause

/-- R29, R378: a word of a chain that traps does so before any word of it has an effect, at its own place. Said of a store into a bank that is not aligned
behind a word of Table 5.2. -/
def Claims.ChainsTrapFirst : Prop :=
  ∀ e ∈ table52, ∀ m ∈ bankStoreWords, ∀ (f : F3) (g : FM) (s : State) (u : Thread) (k : Nat), k ≤ 1 → (m.1 g).wf → Distinct s → s.issued = [] →
    (∀ a ∈ s.threads, a.old = none) → s.gang = [u.uid] → s.gangThreads = [u] → u.again = [] → u.trapMode = false → u.p g.pred = true →
    let ea := (s.src u g.a).toNat + g.mod.toNat * 2 ^ g.w.toNat
    ea % 2 ^ g.w.toNat ≠ 0 →
    ∃ t, issueWords k [e.1 f, m.1 g] s = .next t ∧
      TookTrap { s with threads := s.threads.map fun a => if a.uid = u.uid then { a with word := k + 1 } else a } t
        { TrapReq.of 0x06 with space := m.2, addr := BitVec.ofNat 64 ea } (lanes [u]) false

/-- R35-R39: words that the manual writes out decode to the instructions they stand for. -/
def Claims.WordsDecode : Prop :=
  decodeWord 0x0C4051F8 = .ok (.add { ch := false, dst := 4, a := 2, b := 71, pred := 7 }) ∧
  decodeWord 0x141020B9 = .ok (.subs { ch := false, dst := 1, a := 1, b := 2, pred := 7 }) ∧
  decodeWord 0x28A0818A = .ok (.dot2I16 { ch := false, dst := 10, a := 4, b := 6, c := 10 }) ∧
  decodeWord 0x4050BFFA = .ok (.addi { ch := false, dst := 5, a := 5, imm := 0x3FF }) ∧
  decodeWord 0x4C4850F8 = .ok (.sadd { ch := false, dst := 4, a := 66, b := 67 }) ∧
  decodeWord 0x57884823 = .ok (.ldsc { ch := false, pred := 7, w := 2, fb := false, data := 9, a := 2, mod := 3 }) ∧
  decodeWord 0x0BBEC000 = .ok (.fence { ch := false, pred := 7, kind := 3, scope := 3 }) ∧
  decodeWord 0x75800800 = .ok (.wspill { ch := false, a := 2 })

/-- R28, R35-R45: an instruction that is a word and is well-formed, with any operands, is read back from its word. -/
def Claims.WordsRoundTrip : Prop := ∀ (i : Instr) (w : Word), i.wf = true → encode i = some w → decodeWord w = .ok i

/-- R38: the decoder accepts no word but the one that the encoding tables give its instruction: no reserved bit is dropped. -/
def Claims.WordsAreTheirEncodings : Prop := ∀ (i : Instr) (w : Word), decodeWord w = .ok i → i.wf = true ∧ encode i = some w

/-- The memory's canonical form, which makes equal memories equal data, is kept by every step: addresses rise and no listed byte reads as an unlisted one
does (assumption 1 names that byte). -/
def Claims.MemoryStaysCanonical : Prop := ∀ s t : State, Memory.wf s.mem = true → step s = .next t → Memory.wf t.mem = true

/-- R42, R320, R344, R355, R366, Tables 21.1, 24.2: after reset every queue is DISABLED with a block of zeros, the firmware context alone exists, no link carries requests, the
window is 2 µs and the retrain limit 4 ms, and every system register that has a reset value reads as it. -/
def Claims.ResetState : Prop :=
  let s := State.reset
  Memory.wf s.mem = true ∧ (∀ a, s.byte a = 0) ∧ (∀ q, (s.queue q).state = .disabled ∧ (s.queue q).prod = 0 ∧ (s.queue q).cons = 0 ∧ (s.queue q).ret = 0) ∧
  s.ctxs = [] ∧ (∃ x, s.fwCtx = some x ∧ x.state = .running ∧ x.part = 0) ∧ (∀ p, s.carries p = false) ∧ s.window = 2000 ∧ s.retrain = 4 ∧ s.threads = [] ∧ s.groups = [] ∧ s.launches = [] ∧ s.rebases = 0

/-- A step runs the decoded instruction. Where the four bytes at a gang's position are those of a word outside a chain that decodes to an instruction, and nothing of R376 keeps it from issuing, one step is exec of it with what a slot adds; where a check stops the gang the step is what the check does; what falls due and what arrives runs through exec in the same way, requests for one sector in the order of R182, a landing after the cycle's issues. -/
def Obligations.StepRunsDecodedInstruction : Prop :=
  Claims.StepRunsDecodedInstruction

/-- Words the manual writes out decode to their instructions. Eight words that the manual gives for instructions of eight families decode to exactly those instructions. -/
def Obligations.WordsDecode : Prop :=
  Claims.WordsDecode

/-- Decode of encode is the instruction. For every well-formed instruction that is a word, with every operand the encoding admits, decoding its word gives it back. -/
def Obligations.WordsRoundTrip : Prop :=
  Claims.WordsRoundTrip

/-- A word decodes only to what encodes to it. Whatever a word decodes to is well-formed and is encoded by that very word: no bit of a word is dropped. -/
def Obligations.WordsAreTheirEncodings : Prop :=
  Claims.WordsAreTheirEncodings

/-- Every step keeps the memory canonical. From every state whose memory lists rising addresses and no byte that reads as an unlisted one, every step leads to such a state. That an unlisted byte reads as 0 is the model's choice (assumption 1). -/
def Obligations.MemoryStaysCanonical : Prop :=
  Claims.MemoryStaysCanonical

/-- The state after reset. After reset every queue is DISABLED with zero counters, no context but the firmware context exists, no link carries, the window is 2 µs and the retrain limit 4 ms; memory is canonical. That a byte of memory reads as 0 is the model's choice (assumption 1). -/
def Obligations.ResetState : Prop :=
  Claims.ResetState

/-- What a source field reads. A 7-bit source field reads a v register of the thread's own window or an s register of its own group, inside a chain the value before the chain, which the chain keeps from its beginning to its end; the registers of resident windows are distinct but for the sixteen each callee shares. -/
def Obligations.SourceOperands : Prop :=
  Claims.SourceFieldReads ∧ Claims.ChainReadsOldValues ∧ Claims.ChainKeepsOldValues ∧ Claims.WindowRegisters

/-- The results of majors 3 and 4. Each of the sixteen words writes the result of Table 5.2 in every executing thread, wraps, sets no flag, and changes nothing else. -/
def Obligations.IntegerResults : Prop :=
  Claims.IntegerResults

/-- SHRR, BFE, POPC and CLZ. The rounding shift, the field extract and the bit counts of major 5 with their frames. -/
def Obligations.BitWords : Prop :=
  Claims.RoundingShift ∧ Claims.BitFieldExtract ∧ Claims.BitCounts

/-- Saturating, multiply-add and 64-bit words. ADDS, SUBS, DOT2 and DOT4 form the exact value, clamp once and set SAT where they clamped; MAD wraps; ADDW and MULW write a pair. -/
def Obligations.SaturatingAndWide : Prop :=
  Claims.SaturatingWords ∧ Claims.MultiplyAdd ∧ Claims.WidePairs

/-- The results of major 16. Each immediate word writes the result of Table 5.13 in every active thread and changes nothing else. -/
def Obligations.ImmediateResults : Prop :=
  Claims.ImmediateResults

/-- Float arithmetic. Every float word writes its result under the group's FMODE and ORs its flags; NaNs, infinities, zeros and representable values come out as IEEE arithmetic says, and a magnitude rounds as the mode says. -/
def Obligations.FloatWords : Prop :=
  Claims.FloatWords ∧ Claims.FloatSpecialOperands ∧ Claims.RoundingKeepsRepresentable ∧ Claims.RoundingModes

/-- SETP and CVT. SETP compares, combines with cpred and raises NV only for a signalling NaN; CVT converts between the types of Table 3.4 with its own rounding and saturation: a float row rounds the exact value of its source once, and the order of two floats is that of their values. -/
def Obligations.CompareAndConvert : Prop :=
  Claims.ComparePredicate ∧ Claims.Conversions ∧ Claims.IntegerConversion ∧ Claims.FloatOrder ∧ Claims.FloatConversions

/-- Lane movement and gathering. Lane movement reads every lane before it writes, with 0 or the fill for a lane without a thread; the gathering words of Table 5.15. -/
def Obligations.LaneWords : Prop :=
  Claims.LaneMovement ∧ Claims.LaneGathering

/-- Moves and uniform arithmetic. MOV, SEL and MOVSV; MOVVS gives each group its lowest-lane executing thread's value; major 19 computes once for each group. -/
def Obligations.MovesAndUniform : Prop :=
  Claims.Moves ∧ Claims.MoveToUniform ∧ Claims.UniformResults ∧ Claims.LowestLaneThread

/-- RDSP and WRSP. RDSP writes the special register it names; WRSP of FSTAT and FMODE replaces their written bits. -/
def Obligations.SpecialRegisters : Prop :=
  Claims.ReadSpecial ∧ Claims.WriteSpecial

/-- Special functions. A special function puts one operation in flight whose result and flags are written together; the special operands of the six functions give what Table 5.9 says, and their results keep to its ranges, whatever the approximations are. -/
def Obligations.SpecialFunctions : Prop :=
  Claims.SpecialFunctionIssue ∧ Claims.SpecialFunctionResult ∧ Claims.SpecialFunctionOperands ∧ Claims.SpecialFunctionBounds

/-- The clause header. A header whose flags are clear in every thread starts the clause at word 1; otherwise the whole gang waits. -/
def Obligations.ClauseHeader : Prop :=
  Claims.ClauseHeader

/-- Branches, NOP and EXIT. A taken branch moves its threads to word 0 of the target, NOP only passes on, EXIT makes its threads EXITING. -/
def Obligations.TransfersOfControl : Prop :=
  Claims.Branches ∧ Claims.NopPasses ∧ Claims.ExitLeaves

/-- Calls, returns and window images. CALL and CALLX open a cleared window with a link, RET goes back, their traps come in order, WSPILL and WFILL move a window to lane-own memory and back. -/
def Obligations.CallsAndReturns : Prop :=
  Claims.Calls ∧ Claims.Returns ∧ Claims.CallReturnTraps ∧ Claims.WindowImages

/-- SEAM and YIELD. SEAM pushes an entry on every thread of the gang; a ninth one starts single-stitch turns; beyond the bound it traps SEAM-OVERFLOW; a YIELD bars its paths until their siblings have issued and adds the lease to LT. -/
def Obligations.Seams : Prop :=
  Claims.SeamPush ∧ Claims.SeamOverflow ∧ Claims.SeamOverflowTraps ∧ Claims.YieldBars

/-- Traps taken by words, and the return. TRAP, BKPT and malformed words enter trap mode with the registers of Table 26.2; a held debug right makes BKPT halt instead; RFT restores what the trap registers hold. Where the records of R31, R137 and R259 stand, what stands below a dropped seam entry, the clause of a resume point that the handler has moved, and the trap of a TRAP or BKPT chained with a wait are the model's choice (assumptions 58, 59, 69, 70). -/
def Obligations.SoftwareTraps : Prop :=
  Claims.SoftwareTraps ∧ Claims.BreakpointHalts ∧ Claims.MalformedWordTraps ∧ Claims.ReturnFromTrap

/-- Privileged words. RFT, WSPILL, WFILL, and SYSWR of any register but ABORT, trap PRIVILEGE outside trap and firmware mode; PEGARM does unless every thread of the gang is in firmware mode or in a context that holds the debug right, whatever its predicates, and else arms the peg, disarms it or answers 1, and with no executing thread passes on. -/
def Obligations.Privileges : Prop :=
  Claims.PrivilegedWords ∧ Claims.PegArms

/-- Loads and stores of the banked spaces. Where each byte of an access lies, what a load brings back and what a store changes, and that a merge into a bad granule stores nothing. That a release's time lies beside the bytes is the model's choice (assumption 62). -/
def Obligations.BankAccesses : Prop :=
  Claims.BankAddresses ∧ Claims.BankLoads ∧ Claims.BankStores ∧ Claims.BadGranuleKept

/-- Atomics of the banked spaces, and their traps. Atomics apply in ascending home lane and return the old values; alignment traps before the bound, and nothing is accessed then. -/
def Obligations.BankAtomics : Prop :=
  Claims.AtomicValues ∧ Claims.BankAtomics ∧ Claims.BankTraps

/-- Replies reach registers and flags. A load or atomic reply writes the operation's registers, lowest word first and zero-extended, and lowers its flag; a reply that fails its check leaves its registers poisoned, and the first word that reads one takes a HEM-FAULT; an acknowledgement lowers the flag alone. -/
def Obligations.ReturnsWrite : Prop :=
  Claims.ReturnsWrite ∧ Claims.BadRepliesPoison ∧ Claims.PoisonTrapsAtRead ∧ Claims.StoreAcknowledged

/-- Barrier slots. BINIT arms a slot, arrivals and bytes complete its phases once the arriving threads' earlier accesses are ordered, waits end or register, BRETIRE frees it. That the slot keeps a time is the model's choice (assumption 62). -/
def Obligations.BarrierPhases : Prop :=
  Claims.BarrierArm ∧ Claims.BarrierArrive ∧ Claims.BarrierComplete ∧ Claims.BarrierWait ∧ Claims.BarrierRetire

/-- Barrier misuse, GBAR and TBAR. A refused barrier word traps with its kind and changes no slot; GBAR and TBAR hold the gang behind the word, and when every thread of the group or team that has not EXITED waits there with its earlier accesses ordered, exactly the waiters go on. -/
def Obligations.BarrierMisuse : Prop :=
  Claims.BarrierMisuse ∧ Claims.HardwareBarriers ∧ Claims.HardwareBarrierReleases

/-- Global accesses at the core. Loads, stores, atomics and prefetches of local memory at the issuing core, on an owned copy and without one. -/
def Obligations.GlobalAccesses : Prop :=
  Claims.GlobalLoad ∧ Claims.GlobalStore ∧ Claims.GlobalAtomic ∧ Claims.Prefetch

/-- MON and MWAIT. MON arms a monitor and reads its sector, MWAIT holds the threads whose monitor has not fired, a write ordered to the sector wakes them. -/
def Obligations.Monitors : Prop :=
  Claims.MonitorArms ∧ Claims.MonitorWaits ∧ Claims.MonitorWakes

/-- Fences, drift, rebase and press. What a release at each scope waits for; a FENCE waits for it and drops what it acquires; drift advances LT; a rebase lowers every LT once nothing is in flight; a PRESS acts once for the core. The times that releases leave and acquires take, and the core-wide wait, are the model's choice (assumption 62). -/
def Obligations.FencesAndTime : Prop :=
  Claims.ReleaseConditions ∧ Claims.Fences ∧ Claims.Drift ∧ Claims.Rebase ∧ Claims.Press

/-- Requests at a home in S. A load extends the lease, a write takes the next write time and changes exactly the bytes of its mask, an atomic is both, an owned request is granted. -/
def Obligations.HomeRequests : Prop :=
  Claims.HomeLoad ∧ Claims.HomeWrite ∧ Claims.HomeAtomic ∧ Claims.HomeGrant

/-- Owners, recalls and forwards. A home in O forwards or recalls, others wait in order, a full slice refuses; grants, owners' answers and acknowledgements settle the home. -/
def Obligations.HomeOwners : Prop :=
  Claims.HomeOwned ∧ Claims.Resend ∧ Claims.GrantArrives ∧ Claims.OwnerGivesUp ∧ Claims.HomeSettles

/-- Coherence replies at the core. Acknowledgements and fills raise LT, install the copy or end pending words, and complete the threads' accesses. When an acknowledgement leaves the copy in place is the model's choice (assumption 63). -/
def Obligations.CoherenceReplies : Prop :=
  Claims.WriteBackAcknowledged ∧ Claims.FillArrives ∧ Claims.WriteThroughAcknowledged

/-- Fabric accesses. A fabric access traps on alignment and then on its address, leaves on its port or is refused LINK-LOST; without a reply it times out with all ones and FABST.TIMEOUT. -/
def Obligations.FabricAccesses : Prop :=
  Claims.FabricLoad ∧ Claims.FabricStore ∧ Claims.FabricAtomic ∧ Claims.FabricTraps ∧ Claims.AccessTimeout

/-- Ports, flits and exports. The port of a request, what a good flit performs at its target, what a bad one counts, what an export answers, and the adjustment of fabric time. -/
def Obligations.FabricTraffic : Prop :=
  Claims.PortChoice ∧ Claims.FlitArrives ∧ Claims.FlitErrors ∧ Claims.ExportReads ∧ Claims.FabricTime

/-- Link states. Training, lane loss, buffer defects and the retrain limit move a link between the states of Table 24.2; requests owed to peers leave on another port. -/
def Obligations.Links : Prop :=
  Claims.LinkTraining ∧ Claims.BufferDefects ∧ Claims.LinkReports

/-- Publications. PUBF waits for its release, checks its record and sends each chunk once; answers or the deadline give the delivery mask; a subscriber lands what its window admits. -/
def Obligations.Publications : Prop :=
  Claims.Publishes ∧ Claims.PublicationRecord ∧ Claims.PublicationAnswers ∧ Claims.SubscriberWindow

/-- Copy words. A copy word posts one item for its group and writes the token, traps on its descriptor's address, waits for a free entry and for the items that its group still has to post again. -/
def Obligations.CopyWords : Prop :=
  Claims.CopyPosts ∧ Claims.CopyTraps ∧ Claims.CopyWaits

/-- The copy engine. A complete collective of one item or of several is accepted, or fails with its kinds; a granule of a plain, transposing or expanding copy lands with its bytes and hem and changes nothing else, counts at its barrier slot; a copy out writes home and its stamp last; an item that fails ends its token, its slot and one record. -/
def Obligations.CopyEngine : Prop :=
  Claims.CollectiveAccepts ∧ Claims.CollectiveOfMany ∧ Claims.AcceptanceFails ∧ Claims.GranuleLands ∧ Claims.GranuleCounts ∧ Claims.TransposedGranule ∧ Claims.ExpandedGranule ∧ Claims.CopyOut ∧ Claims.CopyFails

/-- Tiles and operand formats. A wrung block's codes and rows, the values of its elements, what a tile reads and writes and with which rounding; a pass adds by the least exponent step that fits, ACCZ clears, ACCNORM keeps every value, ACCRD and ACCWR move their blocks. -/
def Obligations.Tiles : Prop :=
  Claims.GridRounding ∧ Claims.TileAdds ∧ Claims.TileOperations ∧ Claims.TileBlocks ∧ Claims.TileIssue ∧ Claims.TileApplies ∧ Claims.ElementValues ∧ Claims.TileReadsAndWrites ∧ Claims.WrungCodes ∧ Claims.WrungRows

/-- Matrix words. MMA takes a reservation entry with its register operands or waits for one, the traps of a matrix word come in order, its descriptor is checked by R265, MFENCE waits for the group's operations. -/
def Obligations.MatrixWords : Prop :=
  Claims.MatrixIssue ∧ Claims.MatrixDescriptor ∧ Claims.MatrixTraps ∧ Claims.MatrixFence

/-- The matrix engine. The arbiter grants by class and every fourth time by age; a grant starts one pass, which fetches its operands or fails with one record; its end adds the exact products and the last one completes the request. What a discarded request behind an older ACCZ does is the model's choice (assumption 84). -/
def Obligations.MatrixEngine : Prop :=
  Claims.MatrixArbiter ∧ Claims.MatrixGrant ∧ Claims.MatrixPass ∧ Claims.MatrixFetches ∧ Claims.FetchFails ∧ Claims.MatrixProducts

/-- FABCLR, GJOIN and GINFO. FABCLR clears FABST by mask and answers the old value; GJOIN moves threads between slots, traps or waits; GINFO answers Table 11.7. -/
def Obligations.Groups : Prop :=
  Claims.FabricStatusClear ∧ Claims.GroupJoin ∧ Claims.GroupJoinTraps ∧ Claims.GroupInfo

/-- Fairness, watchdog, urgency and swaps. An overdue gang is noted, a demoted one barred, a parked path takes an entry; the watchdog traps NO-PROGRESS; the laggard is the candidate with the fewest retired words; swaps exchange groups. -/
def Obligations.Scheduling : Prop :=
  Claims.FairnessSteps ∧ Claims.NoProgress ∧ Claims.Urgency ∧ Claims.Swaps

/-- Sequence words at the core. A sequence word sends one request with its registers held, SQPUB keeps its own, a reply writes registers and predicate, a structure number lies lowest byte first. -/
def Obligations.SequenceWords : Prop :=
  Claims.SequenceIssue ∧ Claims.PublishIssue ∧ Claims.SequenceReplies ∧ Claims.SequenceWrites

/-- Sequence requests at their home. SQCLAIM, SQPUB, SQACQ, SQRET and SQINFO as their homes perform them: the stall queue of held publishes and their retry, waiting acquires and their wake, the faults of kinds 4 to 6, and the blocks that move between pool and list. -/
def Obligations.SequenceHomes : Prop :=
  Claims.SequenceClaim ∧ Claims.FrontierAdvances ∧ Claims.SequencePublish ∧ Claims.PublishHeld ∧ Claims.HeldPublishRetried ∧ Claims.SequenceAcquire ∧ Claims.AcquireWaits ∧ Claims.AcquireWoken ∧ Claims.SequenceFaults ∧ Claims.SequenceBlocks ∧ Claims.SequenceRetract ∧ Claims.SequenceInfo

/-- Posting launches. LAUNCH waits for its release and answers, or appends a record to its queue, and traps on its record's address; a host posts by the control word; a firmware launch waits for nothing. -/
def Obligations.LaunchWords : Prop :=
  Claims.LaunchRefused ∧ Claims.ReleaseLeaves ∧ Claims.LaunchAppends ∧ Claims.LaunchTraps ∧ Claims.HostPosts ∧ Claims.FirmwarePosts

/-- The dispatcher. Slots go round the queues of a class, heads are read once, a migrating page holding them, and checked, dependences met, failed or unmet decide, teams are placed with their registers, stamps written. -/
def Obligations.Dispatch : Prop :=
  Claims.DispatchSlots ∧ Claims.HeadReads ∧ Claims.LaunchDispatches ∧ Claims.Dependences ∧ Claims.TeamPlaces ∧ Claims.StampWrites

/-- Translation. The checks of a leaf in order, walks and page requests, PGPROBE and PGPREF, and the page commands INVALIDATE and RESOLVE, with a failed one's trap. What sequence requests do whose pages are taken away is the model's choice (assumption 78). -/
def Obligations.Pages : Prop :=
  Claims.PageProbes ∧ Claims.PageChecks ∧ Claims.PageWalks ∧ Claims.Invalidates ∧ Claims.Resolves

/-- System registers. SYSRD and SYSWR by Table 26.4, the token peek, and what a write of each system register changes. -/
def Obligations.SystemRegisters : Prop :=
  Claims.SystemReads ∧ Claims.TokenPeek ∧ Claims.SystemWrites ∧ Claims.SystemWritesTakeEffect ∧ Claims.Abort ∧ Claims.FabricTables

/-- Queue, right and region commands. A context command that is not allowed is an error that changes nothing; the queue commands, DGRANT, DREVOKE and REGION as Table 23.2 says. -/
def Obligations.ContextCommands : Prop :=
  Claims.ContextCommandErrors ∧ Claims.QueueCommands ∧ Claims.DebugRights ∧ Claims.RegionCommand

/-- The life of a context. CREATE makes a context of its record, START runs it, PREEMPT stops its groups, which become SAVED with an image when their work is settled, and is answered when none is left; at its bound late work ends. RESUME makes the context RUNNING and is answered when no image is left. TEARDOWN discards what is the context's; it is FREE when its nodes have acknowledged, or at its bound. The slice of the queue pages and a second TEARDOWN are the model's choice (assumptions 16, 80). -/
def Obligations.ContextLifetime : Prop :=
  Claims.ContextCreate ∧ Claims.ContextStates ∧ Claims.Saves ∧ Claims.PreemptBound ∧ Claims.Teardown

/-- Debug port: authority, groups, edits. Commands need their authority; HALT, RESUME, STATERD, EDIT, MEMRD, MEMWR, COMMIT and DISCARD. -/
def Obligations.DebugPort : Prop :=
  Claims.DebugAuthority ∧ Claims.HaltAndResume ∧ Claims.StateReads ∧ Claims.Edits ∧ Claims.DebugMemory

/-- Debug port: breakpoints, trace, pegs. BREAK, WATCH, TRACE, SAMPLE, HISTO, TRIGGER, PEG, SCAN and GO, the tagging of words and the percentile of a histogram. -/
def Obligations.DebugUnits : Prop :=
  Claims.BreaksAndWatches ∧ Claims.DebugUnits ∧ Claims.PegsAndSamples

/-- Lasting hops, failures and starts. Faults count against hops and the third in 24 hours retires one; failures from outside; attestation; the start sequence, its stops and what its ready notice names. -/
def Obligations.HealthAndStart : Prop :=
  Claims.LastingHops ∧ Claims.FailuresFromOutside ∧ Claims.Attestation ∧ Claims.Starts

/-- Float results are the exact value rounded once. A finite sum, product or fused result of every float format is the rounding of the exact real value under the rounding mode, with its overflow, its flush and its flags; sums and products with infinities; FMIN and FMAX pick by value, with -0 below +0 and a NaN only beside a NaN. -/
def Obligations.FloatResults : Prop :=
  Claims.FloatModes ∧ Claims.FloatExact ∧ Claims.FloatInfinities ∧ Claims.FloatMinMax

/-- RCP and SQRT round correctly; exact results. RCP and SQRT give the correctly rounded value for every finite operand, RSQ one within a unit of the last place, and the other functions are exact where the manual says so. -/
def Obligations.RootsAndReciprocals : Prop :=
  Claims.RootsAndReciprocals ∧ Claims.SpecialFunctionExact

/-- Chains of several words. One step issues the words of a chain together; a clash of pipes and a transfer that is not last trap ILLEGAL-CHAIN; every word reads what stood before the chain; a word that traps does so before any word has an effect. Which word of a clashing pair the trap names is the model's choice (assumption 68). -/
def Obligations.Chains : Prop :=
  Claims.ChainsIssue ∧ Claims.ChainClashes ∧ Claims.ChainsReadOld ∧ Claims.ChainsTrapFirst

/-- Accuracy and order of the special functions. The results of EXP2, LOG2 and TANH lie within the bounds of Table 5.9 of the real function, and the results of all six functions grow or fall with their operand as the real ones do. How much slack the bounds leave to the join of TANH is the model's choice (assumption 10). -/
def Obligations.SpecialFunctionAccuracy : Prop :=
  Claims.SpecialFunctionAccuracy ∧ Claims.SpecialFunctionOrder
end

