-- ==== Sys2Proof/Laws/Sparse.lean ====
section
/-! SUPPORT. Reading after writing in keyed storage and in memory, and the canonical form, which every memory operation keeps. -/

namespace Sys2Proof.Laws

open Sys2Proof.Machine

variable {α : Type}

theorem get_del (d : α) (m : SMap α) (k j : Nat) : SMap.get d (SMap.del k m) j = if k = j then d else SMap.get d m j := by
  induction m with
  | nil => simp [SMap.del, SMap.get]
  | cons e r ih =>
    obtain ⟨i, v⟩ := e
    simp only [SMap.del] at ih
    by_cases h : i = k
    · subst h
      by_cases hj : i = j <;> simp_all [SMap.del, SMap.get]
    · by_cases hj : k = j
      · subst hj
        simp_all [SMap.del, SMap.get]
      · by_cases hi : i = j <;> simp_all [SMap.del, SMap.get]

theorem get_ins (d : α) (m : SMap α) (k : Nat) (v : α) (j : Nat) (h : ∀ e ∈ m, e.1 ≠ k) :
    SMap.get d (SMap.ins k v m) j = if k = j then v else SMap.get d m j := by
  induction m with
  | nil => simp [SMap.ins, SMap.get]
  | cons e r ih =>
    obtain ⟨i, w⟩ := e
    have hi : i ≠ k := h (i, w) (by simp)
    have ih' := ih fun e he => h e (by simp [he])
    by_cases hk : k < i
    · simp [SMap.ins, SMap.get, hk]
    · simp only [SMap.ins, hk, if_false, SMap.get, ih']
      by_cases hj : i = j
      · subst hj; simp [Ne.symm hi]
      · simp [hj]

theorem del_keys (m : SMap α) (k : Nat) : ∀ e ∈ SMap.del k m, e.1 ≠ k := by
  intro e he
  simpa [SMap.del] using (List.mem_filter.mp he).2

/-- What a key reads as after a write. -/
@[simp] theorem get_put [DecidableEq α] (d : α) (m : SMap α) (k : Nat) (v : α) (j : Nat) :
    SMap.get d (SMap.put d k v m) j = if k = j then v else SMap.get d m j := by
  unfold SMap.put
  split
  · next h => rw [get_del]; split <;> simp_all
  · rw [get_ins _ _ _ _ _ (del_keys m k), get_del]; split <;> simp_all

/-! ### The canonical form -/

/-- The canonical form as one inductive condition: every key lies above the bound, keys rise, no entry holds the default. -/
def Rises (d : α) (lo : Nat) : SMap α → Prop
  | [] => True
  | (k, v) :: r => lo ≤ k ∧ v ≠ d ∧ Rises d (k + 1) r

theorem wf_iff_rises [DecidableEq α] (d : α) (m : SMap α) : SMap.wf d m = true ↔ Rises d 0 m := by
  suffices h : ∀ (m : SMap α) (k : Nat) (v : α), SMap.wf d ((k, v) :: m) = true ↔ v ≠ d ∧ Rises d (k + 1) m by
    cases m with
    | nil => simp [SMap.wf, Rises]
    | cons e r => obtain ⟨k, v⟩ := e; simp [h, Rises]
  intro m
  induction m with
  | nil => intro k v; simp [SMap.wf, Rises]
  | cons e r ih =>
    intro k v
    obtain ⟨j, w⟩ := e
    simp only [SMap.wf, Bool.and_eq_true, ih, Rises, decide_eq_true_eq, bne_iff_ne]
    constructor
    · rintro ⟨⟨h, hv⟩, hw, hr⟩; exact ⟨hv, by omega, hw, hr⟩
    · rintro ⟨hv, h, hw, hr⟩; exact ⟨⟨by omega, hv⟩, hw, hr⟩

theorem rises_mono (d : α) {lo hi : Nat} (h : lo ≤ hi) (m : SMap α) : Rises d hi m → Rises d lo m := by
  cases m with
  | nil => simp [Rises]
  | cons e r => rintro ⟨a, b, c⟩; exact ⟨by omega, b, c⟩

theorem rises_del (d : α) (k : Nat) (m : SMap α) (lo : Nat) : Rises d lo m → Rises d lo (SMap.del k m) := by
  induction m generalizing lo with
  | nil => simp [SMap.del, Rises]
  | cons e r ih =>
    obtain ⟨i, v⟩ := e
    rintro ⟨a, b, c⟩
    have := ih (i + 1) c
    by_cases h : i = k
    · subst h; simpa [SMap.del] using rises_mono d (by omega : lo ≤ i + 1) _ (by simpa [SMap.del] using this)
    · simp only [SMap.del, List.filter_cons, bne_iff_ne, ne_eq, h, not_false_eq_true, if_true, Rises]
      exact ⟨a, b, by simpa [SMap.del] using this⟩

theorem rises_ins (d : α) (k : Nat) (v : α) (hv : v ≠ d) (m : SMap α) (lo : Nat) (hk : lo ≤ k) (hne : ∀ e ∈ m, e.1 ≠ k) :
    Rises d lo m → Rises d lo (SMap.ins k v m) := by
  induction m generalizing lo with
  | nil => simp [SMap.ins, Rises, hv, hk]
  | cons e r ih =>
    obtain ⟨i, w⟩ := e
    rintro ⟨a, b, c⟩
    have hi : i ≠ k := hne (i, w) (by simp)
    by_cases h : k < i
    · simp only [SMap.ins, h, if_true, Rises]
      exact ⟨hk, hv, by omega, b, c⟩
    · simp only [SMap.ins, h, if_false, Rises]
      exact ⟨a, b, ih (i + 1) (by omega) (fun e he => hne e (by simp [he])) c⟩

/-- A write keeps the canonical form. -/
theorem wf_put [DecidableEq α] (d : α) (k : Nat) (v : α) (m : SMap α) (h : SMap.wf d m = true) :
    SMap.wf d (SMap.put d k v m) = true := by
  rw [wf_iff_rises] at h ⊢
  unfold SMap.put
  split
  · exact rises_del d k m 0 h
  · next hv => exact rises_ins d k v hv _ 0 (by omega) (del_keys m k) (rises_del d k m 0 h)

/-- Two maps in canonical form that read the same are the same. -/
theorem wf_ext [DecidableEq α] (d : α) (m n : SMap α) (hm : SMap.wf d m = true) (hn : SMap.wf d n = true)
    (h : ∀ k, SMap.get d m k = SMap.get d n k) : m = n := by
  rw [wf_iff_rises] at hm hn
  have low : ∀ (m : SMap α) (lo k : Nat), Rises d lo m → k < lo → SMap.get d m k = d := by
    intro m
    induction m with
    | nil => intros; rfl
    | cons e r ih =>
      obtain ⟨i, v⟩ := e
      rintro lo k ⟨a, _, c⟩ hk
      have hne : ¬ i = k := by omega
      simp only [SMap.get, if_neg hne]
      exact ih (i + 1) k c (by omega)
  suffices g : ∀ (m n : SMap α) (lo : Nat), Rises d lo m → Rises d lo n → (∀ k, lo ≤ k → SMap.get d m k = SMap.get d n k) → m = n from
    g m n 0 hm hn fun k _ => h k
  intro m
  induction m with
  | nil =>
    intro n lo _ hn hh
    cases n with
    | nil => rfl
    | cons e r => obtain ⟨i, v⟩ := e; have := hh i hn.1; simp [SMap.get] at this; exact absurd this.symm hn.2.1
  | cons e r ih =>
    obtain ⟨i, v⟩ := e
    intro n lo hm hn hh
    cases n with
    | nil => have := hh i hm.1; simp [SMap.get] at this; exact absurd this hm.2.1
    | cons e' r' =>
      obtain ⟨j, w⟩ := e'
      obtain ⟨ha, hb, hc⟩ := hm
      obtain ⟨ha', hb', hc'⟩ := hn
      have hij : i = j := by
        rcases Nat.lt_trichotomy i j with hlt | heq | hgt
        · have := hh i ha
          have hne : ¬ j = i := by omega
          simp only [SMap.get, if_true, if_neg hne, low r' (j + 1) i hc' (by omega)] at this
          exact absurd this hb
        · exact heq
        · have := hh j ha'
          have hne : ¬ i = j := by omega
          simp only [SMap.get, if_true, if_neg hne, low r (i + 1) j hc (by omega)] at this
          exact absurd this.symm hb'
      subst hij
      have hv : v = w := by simpa [SMap.get] using hh i ha
      subst hv
      congr 1
      refine ih r' (i + 1) hc hc' fun k hk => ?_
      have := hh k (by omega)
      have hne : ¬ i = k := by omega
      simpa only [SMap.get, if_neg hne] using this

/-! ### Memory -/

@[simp] theorem byte_setByte (s : State) (loc : Nat) (v : Byte) (a : Nat) :
    (s.setByte loc v).byte a = if loc = a then v else s.byte a := by
  simp [State.byte, State.setByte]

theorem setByte_wf (s : State) (loc : Nat) (v : Byte) (h : Memory.wf s.mem = true) : Memory.wf (s.setByte loc v).mem = true :=
  wf_put _ _ _ _ h

/-- A byte outside those written reads as before; a byte among them reads as what was written there. -/
theorem byte_setBytes (bs : List Byte) (s : State) (loc a : Nat) :
    (s.setBytes loc bs).byte a = if loc ≤ a ∧ a < loc + bs.length then bs.getD (a - loc) 0 else s.byte a := by
  induction bs generalizing s loc with
  | nil => simp [State.setBytes]
  | cons b r ih =>
    rw [State.setBytes, ih, byte_setByte]
    by_cases h0 : loc = a
    · subst h0; simp
    · by_cases h1 : loc + 1 ≤ a ∧ a < loc + 1 + r.length
      · have : a - loc = (a - (loc + 1)) + 1 := by omega
        simp only [h1, and_self, if_true, List.length_cons]
        rw [if_pos (by omega), this, List.getD_cons_succ]
      · rw [if_neg h1, if_neg h0, if_neg (by simp only [List.length_cons]; omega)]

theorem setBytes_wf (bs : List Byte) (s : State) (loc : Nat) (h : Memory.wf s.mem = true) :
    Memory.wf (s.setBytes loc bs).mem = true := by
  induction bs generalizing s loc with
  | nil => exact h
  | cons b r ih => exact ih _ _ (setByte_wf s loc b h)

theorem setNat_wf (s : State) (loc n v : Nat) (h : Memory.wf s.mem = true) : Memory.wf (s.setNat loc n v).mem = true :=
  setBytes_wf _ _ _ h

theorem bytes_setBytes (bs : List Byte) (s : State) (loc : Nat) : (s.setBytes loc bs).bytes loc bs.length = bs := by
  apply List.ext_getElem
  · simp [State.bytes]
  · intro i h1 h2
    simp only [State.bytes, List.getElem_map, List.getElem_range, byte_setBytes]
    rw [if_pos (by omega)]
    simp [h2]

theorem leNat_natLe (n v : Nat) : leNat (natLe n v) = v % 256 ^ n := by
  induction n generalizing v with
  | zero => simp [natLe, leNat, Nat.mod_one]
  | succ n ih =>
    simp only [natLe, leNat, ih, BitVec.toNat_ofNat]
    rw [show 256 ^ (n + 1) = 256 * 256 ^ n by ring, Nat.mod_mul]

@[simp] theorem natLe_length (n v : Nat) : (natLe n v).length = n := by
  induction n generalizing v with
  | zero => rfl
  | succ n ih => simp [natLe, ih]

/-- A number written and read back: what its bytes hold of it. -/
theorem nat_setNat (s : State) (loc n v : Nat) : (s.setNat loc n v).nat loc n = v % 256 ^ n := by
  unfold State.nat State.setNat
  have h := bytes_setBytes (natLe n v) s loc
  rw [natLe_length] at h
  rw [h, leNat_natLe]

theorem reset_mem_wf : Memory.wf State.reset.mem = true := rfl

end Sys2Proof.Laws
end

