-- ==== Sys2Proof/Laws/State.lean ====
section
/-! SUPPORT. What each update of the state leaves alone: one lemma for each field and update. -/

namespace Sys2Proof.Laws

open Sys2Proof.Machine

variable (s : State)

/-! ### `setByte` -/

@[simp] theorem setByte_tick (loc : Nat) (v : Byte) : (s.setByte loc v).tick = s.tick := rfl
@[simp] theorem setByte_syn (loc : Nat) (v : Byte) : (s.setByte loc v).syn = s.syn := rfl
@[simp] theorem setByte_slots (loc : Nat) (v : Byte) : (s.setByte loc v).slots = s.slots := rfl
@[simp] theorem setByte_lts (loc : Nat) (v : Byte) : (s.setByte loc v).lts = s.lts := rfl
@[simp] theorem setByte_ots (loc : Nat) (v : Byte) : (s.setByte loc v).ots = s.ots := rfl
@[simp] theorem setByte_bankRel (loc : Nat) (v : Byte) : (s.setByte loc v).bankRel = s.bankRel := rfl
@[simp] theorem setByte_gtag (loc : Nat) (v : Byte) : (s.setByte loc v).gtag = s.gtag := rfl
@[simp] theorem setByte_threads (loc : Nat) (v : Byte) : (s.setByte loc v).threads = s.threads := rfl
@[simp] theorem setByte_groups (loc : Nat) (v : Byte) : (s.setByte loc v).groups = s.groups := rfl
@[simp] theorem setByte_paths (loc : Nat) (v : Byte) : (s.setByte loc v).paths = s.paths := rfl
@[simp] theorem setByte_teams (loc : Nat) (v : Byte) : (s.setByte loc v).teams = s.teams := rfl
@[simp] theorem setByte_launches (loc : Nat) (v : Byte) : (s.setByte loc v).launches = s.launches := rfl
@[simp] theorem setByte_queues (loc : Nat) (v : Byte) : (s.setByte loc v).queues = s.queues := rfl
@[simp] theorem setByte_ctxs (loc : Nat) (v : Byte) : (s.setByte loc v).ctxs = s.ctxs := rfl
@[simp] theorem setByte_l1 (loc : Nat) (v : Byte) : (s.setByte loc v).l1 = s.l1 := rfl
@[simp] theorem setByte_home (loc : Nat) (v : Byte) : (s.setByte loc v).home = s.home := rfl
@[simp] theorem setByte_ops (loc : Nat) (v : Byte) : (s.setByte loc v).ops = s.ops := rfl
@[simp] theorem setByte_items (loc : Nat) (v : Byte) : (s.setByte loc v).items = s.items := rfl
@[simp] theorem setByte_agenda (loc : Nat) (v : Byte) : (s.setByte loc v).agenda = s.agenda := rfl
@[simp] theorem setByte_dues (loc : Nat) (v : Byte) : (s.setByte loc v).dues = s.dues := rfl
@[simp] theorem setByte_gang (loc : Nat) (v : Byte) : (s.setByte loc v).gang = s.gang := rfl
@[simp] theorem setByte_issued (loc : Nat) (v : Byte) : (s.setByte loc v).issued = s.issued := rfl
@[simp] theorem setByte_nextId (loc : Nat) (v : Byte) : (s.setByte loc v).nextId = s.nextId := rfl
@[simp] theorem setByte_outbox (loc : Nat) (v : Byte) : (s.setByte loc v).outbox = s.outbox := rfl
@[simp] theorem setByte_mreqs (loc : Nat) (v : Byte) : (s.setByte loc v).mreqs = s.mreqs := rfl
@[simp] theorem setByte_parts (loc : Nat) (v : Byte) : (s.setByte loc v).parts = s.parts := rfl
@[simp] theorem setByte_cmds (loc : Nat) (v : Byte) : (s.setByte loc v).cmds = s.cmds := rfl
@[simp] theorem setByte_cmdsAt (loc : Nat) (v : Byte) : (s.setByte loc v).cmdsAt = s.cmdsAt := rfl
@[simp] theorem setByte_peg (loc : Nat) (v : Byte) : (s.setByte loc v).peg = s.peg := rfl

/-! ### `setSyn` -/

@[simp] theorem setSyn_tick (loc : Nat) (v : BitVec 16) : (s.setSyn loc v).tick = s.tick := rfl
@[simp] theorem setSyn_mem (loc : Nat) (v : BitVec 16) : (s.setSyn loc v).mem = s.mem := rfl
@[simp] theorem setSyn_slots (loc : Nat) (v : BitVec 16) : (s.setSyn loc v).slots = s.slots := rfl
@[simp] theorem setSyn_lts (loc : Nat) (v : BitVec 16) : (s.setSyn loc v).lts = s.lts := rfl
@[simp] theorem setSyn_ots (loc : Nat) (v : BitVec 16) : (s.setSyn loc v).ots = s.ots := rfl
@[simp] theorem setSyn_bankRel (loc : Nat) (v : BitVec 16) : (s.setSyn loc v).bankRel = s.bankRel := rfl
@[simp] theorem setSyn_gtag (loc : Nat) (v : BitVec 16) : (s.setSyn loc v).gtag = s.gtag := rfl
@[simp] theorem setSyn_threads (loc : Nat) (v : BitVec 16) : (s.setSyn loc v).threads = s.threads := rfl
@[simp] theorem setSyn_groups (loc : Nat) (v : BitVec 16) : (s.setSyn loc v).groups = s.groups := rfl
@[simp] theorem setSyn_paths (loc : Nat) (v : BitVec 16) : (s.setSyn loc v).paths = s.paths := rfl
@[simp] theorem setSyn_teams (loc : Nat) (v : BitVec 16) : (s.setSyn loc v).teams = s.teams := rfl
@[simp] theorem setSyn_launches (loc : Nat) (v : BitVec 16) : (s.setSyn loc v).launches = s.launches := rfl
@[simp] theorem setSyn_queues (loc : Nat) (v : BitVec 16) : (s.setSyn loc v).queues = s.queues := rfl
@[simp] theorem setSyn_ctxs (loc : Nat) (v : BitVec 16) : (s.setSyn loc v).ctxs = s.ctxs := rfl
@[simp] theorem setSyn_l1 (loc : Nat) (v : BitVec 16) : (s.setSyn loc v).l1 = s.l1 := rfl
@[simp] theorem setSyn_home (loc : Nat) (v : BitVec 16) : (s.setSyn loc v).home = s.home := rfl
@[simp] theorem setSyn_ops (loc : Nat) (v : BitVec 16) : (s.setSyn loc v).ops = s.ops := rfl
@[simp] theorem setSyn_items (loc : Nat) (v : BitVec 16) : (s.setSyn loc v).items = s.items := rfl
@[simp] theorem setSyn_agenda (loc : Nat) (v : BitVec 16) : (s.setSyn loc v).agenda = s.agenda := rfl
@[simp] theorem setSyn_dues (loc : Nat) (v : BitVec 16) : (s.setSyn loc v).dues = s.dues := rfl
@[simp] theorem setSyn_gang (loc : Nat) (v : BitVec 16) : (s.setSyn loc v).gang = s.gang := rfl
@[simp] theorem setSyn_issued (loc : Nat) (v : BitVec 16) : (s.setSyn loc v).issued = s.issued := rfl
@[simp] theorem setSyn_nextId (loc : Nat) (v : BitVec 16) : (s.setSyn loc v).nextId = s.nextId := rfl
@[simp] theorem setSyn_outbox (loc : Nat) (v : BitVec 16) : (s.setSyn loc v).outbox = s.outbox := rfl
@[simp] theorem setSyn_mreqs (loc : Nat) (v : BitVec 16) : (s.setSyn loc v).mreqs = s.mreqs := rfl
@[simp] theorem setSyn_parts (loc : Nat) (v : BitVec 16) : (s.setSyn loc v).parts = s.parts := rfl
@[simp] theorem setSyn_cmds (loc : Nat) (v : BitVec 16) : (s.setSyn loc v).cmds = s.cmds := rfl
@[simp] theorem setSyn_cmdsAt (loc : Nat) (v : BitVec 16) : (s.setSyn loc v).cmdsAt = s.cmdsAt := rfl
@[simp] theorem setSyn_peg (loc : Nat) (v : BitVec 16) : (s.setSyn loc v).peg = s.peg := rfl

/-! ### `setTag` -/

@[simp] theorem setTag_tick (loc : Nat) (v : BitVec 64) : (s.setTag loc v).tick = s.tick := rfl
@[simp] theorem setTag_mem (loc : Nat) (v : BitVec 64) : (s.setTag loc v).mem = s.mem := rfl
@[simp] theorem setTag_syn (loc : Nat) (v : BitVec 64) : (s.setTag loc v).syn = s.syn := rfl
@[simp] theorem setTag_slots (loc : Nat) (v : BitVec 64) : (s.setTag loc v).slots = s.slots := rfl
@[simp] theorem setTag_lts (loc : Nat) (v : BitVec 64) : (s.setTag loc v).lts = s.lts := rfl
@[simp] theorem setTag_ots (loc : Nat) (v : BitVec 64) : (s.setTag loc v).ots = s.ots := rfl
@[simp] theorem setTag_bankRel (loc : Nat) (v : BitVec 64) : (s.setTag loc v).bankRel = s.bankRel := rfl
@[simp] theorem setTag_threads (loc : Nat) (v : BitVec 64) : (s.setTag loc v).threads = s.threads := rfl
@[simp] theorem setTag_groups (loc : Nat) (v : BitVec 64) : (s.setTag loc v).groups = s.groups := rfl
@[simp] theorem setTag_paths (loc : Nat) (v : BitVec 64) : (s.setTag loc v).paths = s.paths := rfl
@[simp] theorem setTag_teams (loc : Nat) (v : BitVec 64) : (s.setTag loc v).teams = s.teams := rfl
@[simp] theorem setTag_launches (loc : Nat) (v : BitVec 64) : (s.setTag loc v).launches = s.launches := rfl
@[simp] theorem setTag_queues (loc : Nat) (v : BitVec 64) : (s.setTag loc v).queues = s.queues := rfl
@[simp] theorem setTag_ctxs (loc : Nat) (v : BitVec 64) : (s.setTag loc v).ctxs = s.ctxs := rfl
@[simp] theorem setTag_l1 (loc : Nat) (v : BitVec 64) : (s.setTag loc v).l1 = s.l1 := rfl
@[simp] theorem setTag_home (loc : Nat) (v : BitVec 64) : (s.setTag loc v).home = s.home := rfl
@[simp] theorem setTag_ops (loc : Nat) (v : BitVec 64) : (s.setTag loc v).ops = s.ops := rfl
@[simp] theorem setTag_items (loc : Nat) (v : BitVec 64) : (s.setTag loc v).items = s.items := rfl
@[simp] theorem setTag_agenda (loc : Nat) (v : BitVec 64) : (s.setTag loc v).agenda = s.agenda := rfl
@[simp] theorem setTag_dues (loc : Nat) (v : BitVec 64) : (s.setTag loc v).dues = s.dues := rfl
@[simp] theorem setTag_gang (loc : Nat) (v : BitVec 64) : (s.setTag loc v).gang = s.gang := rfl
@[simp] theorem setTag_issued (loc : Nat) (v : BitVec 64) : (s.setTag loc v).issued = s.issued := rfl
@[simp] theorem setTag_nextId (loc : Nat) (v : BitVec 64) : (s.setTag loc v).nextId = s.nextId := rfl
@[simp] theorem setTag_outbox (loc : Nat) (v : BitVec 64) : (s.setTag loc v).outbox = s.outbox := rfl
@[simp] theorem setTag_mreqs (loc : Nat) (v : BitVec 64) : (s.setTag loc v).mreqs = s.mreqs := rfl
@[simp] theorem setTag_parts (loc : Nat) (v : BitVec 64) : (s.setTag loc v).parts = s.parts := rfl
@[simp] theorem setTag_cmds (loc : Nat) (v : BitVec 64) : (s.setTag loc v).cmds = s.cmds := rfl
@[simp] theorem setTag_cmdsAt (loc : Nat) (v : BitVec 64) : (s.setTag loc v).cmdsAt = s.cmdsAt := rfl
@[simp] theorem setTag_peg (loc : Nat) (v : BitVec 64) : (s.setTag loc v).peg = s.peg := rfl

/-! ### `modThread` -/

@[simp] theorem modThread_tick (u : Nat) (f : Thread → Thread) : (s.modThread u f).tick = s.tick := rfl
@[simp] theorem modThread_mem (u : Nat) (f : Thread → Thread) : (s.modThread u f).mem = s.mem := rfl
@[simp] theorem modThread_syn (u : Nat) (f : Thread → Thread) : (s.modThread u f).syn = s.syn := rfl
@[simp] theorem modThread_slots (u : Nat) (f : Thread → Thread) : (s.modThread u f).slots = s.slots := rfl
@[simp] theorem modThread_lts (u : Nat) (f : Thread → Thread) : (s.modThread u f).lts = s.lts := rfl
@[simp] theorem modThread_ots (u : Nat) (f : Thread → Thread) : (s.modThread u f).ots = s.ots := rfl
@[simp] theorem modThread_bankRel (u : Nat) (f : Thread → Thread) : (s.modThread u f).bankRel = s.bankRel := rfl
@[simp] theorem modThread_gtag (u : Nat) (f : Thread → Thread) : (s.modThread u f).gtag = s.gtag := rfl
@[simp] theorem modThread_threads (u : Nat) (f : Thread → Thread) : (s.modThread u f).threads = s.threads.map fun t => if t.uid == u then f t else t := rfl
@[simp] theorem modThread_groups (u : Nat) (f : Thread → Thread) : (s.modThread u f).groups = s.groups := rfl
@[simp] theorem modThread_paths (u : Nat) (f : Thread → Thread) : (s.modThread u f).paths = s.paths := rfl
@[simp] theorem modThread_teams (u : Nat) (f : Thread → Thread) : (s.modThread u f).teams = s.teams := rfl
@[simp] theorem modThread_launches (u : Nat) (f : Thread → Thread) : (s.modThread u f).launches = s.launches := rfl
@[simp] theorem modThread_queues (u : Nat) (f : Thread → Thread) : (s.modThread u f).queues = s.queues := rfl
@[simp] theorem modThread_ctxs (u : Nat) (f : Thread → Thread) : (s.modThread u f).ctxs = s.ctxs := rfl
@[simp] theorem modThread_l1 (u : Nat) (f : Thread → Thread) : (s.modThread u f).l1 = s.l1 := rfl
@[simp] theorem modThread_home (u : Nat) (f : Thread → Thread) : (s.modThread u f).home = s.home := rfl
@[simp] theorem modThread_ops (u : Nat) (f : Thread → Thread) : (s.modThread u f).ops = s.ops := rfl
@[simp] theorem modThread_items (u : Nat) (f : Thread → Thread) : (s.modThread u f).items = s.items := rfl
@[simp] theorem modThread_agenda (u : Nat) (f : Thread → Thread) : (s.modThread u f).agenda = s.agenda := rfl
@[simp] theorem modThread_dues (u : Nat) (f : Thread → Thread) : (s.modThread u f).dues = s.dues := rfl
@[simp] theorem modThread_gang (u : Nat) (f : Thread → Thread) : (s.modThread u f).gang = s.gang := rfl
@[simp] theorem modThread_issued (u : Nat) (f : Thread → Thread) : (s.modThread u f).issued = s.issued := rfl
@[simp] theorem modThread_nextId (u : Nat) (f : Thread → Thread) : (s.modThread u f).nextId = s.nextId := rfl
@[simp] theorem modThread_outbox (u : Nat) (f : Thread → Thread) : (s.modThread u f).outbox = s.outbox := rfl
@[simp] theorem modThread_mreqs (u : Nat) (f : Thread → Thread) : (s.modThread u f).mreqs = s.mreqs := rfl
@[simp] theorem modThread_parts (u : Nat) (f : Thread → Thread) : (s.modThread u f).parts = s.parts := rfl
@[simp] theorem modThread_cmds (u : Nat) (f : Thread → Thread) : (s.modThread u f).cmds = s.cmds := rfl
@[simp] theorem modThread_cmdsAt (u : Nat) (f : Thread → Thread) : (s.modThread u f).cmdsAt = s.cmdsAt := rfl
@[simp] theorem modThread_peg (u : Nat) (f : Thread → Thread) : (s.modThread u f).peg = s.peg := rfl

/-! ### `modThreads` -/

@[simp] theorem modThreads_tick (us : List Nat) (f : Thread → Thread) : (s.modThreads us f).tick = s.tick := rfl
@[simp] theorem modThreads_mem (us : List Nat) (f : Thread → Thread) : (s.modThreads us f).mem = s.mem := rfl
@[simp] theorem modThreads_syn (us : List Nat) (f : Thread → Thread) : (s.modThreads us f).syn = s.syn := rfl
@[simp] theorem modThreads_slots (us : List Nat) (f : Thread → Thread) : (s.modThreads us f).slots = s.slots := rfl
@[simp] theorem modThreads_lts (us : List Nat) (f : Thread → Thread) : (s.modThreads us f).lts = s.lts := rfl
@[simp] theorem modThreads_ots (us : List Nat) (f : Thread → Thread) : (s.modThreads us f).ots = s.ots := rfl
@[simp] theorem modThreads_bankRel (us : List Nat) (f : Thread → Thread) : (s.modThreads us f).bankRel = s.bankRel := rfl
@[simp] theorem modThreads_gtag (us : List Nat) (f : Thread → Thread) : (s.modThreads us f).gtag = s.gtag := rfl
@[simp] theorem modThreads_threads (us : List Nat) (f : Thread → Thread) : (s.modThreads us f).threads = s.threads.map fun t => if us.contains t.uid then f t else t := rfl
@[simp] theorem modThreads_groups (us : List Nat) (f : Thread → Thread) : (s.modThreads us f).groups = s.groups := rfl
@[simp] theorem modThreads_paths (us : List Nat) (f : Thread → Thread) : (s.modThreads us f).paths = s.paths := rfl
@[simp] theorem modThreads_teams (us : List Nat) (f : Thread → Thread) : (s.modThreads us f).teams = s.teams := rfl
@[simp] theorem modThreads_launches (us : List Nat) (f : Thread → Thread) : (s.modThreads us f).launches = s.launches := rfl
@[simp] theorem modThreads_queues (us : List Nat) (f : Thread → Thread) : (s.modThreads us f).queues = s.queues := rfl
@[simp] theorem modThreads_ctxs (us : List Nat) (f : Thread → Thread) : (s.modThreads us f).ctxs = s.ctxs := rfl
@[simp] theorem modThreads_l1 (us : List Nat) (f : Thread → Thread) : (s.modThreads us f).l1 = s.l1 := rfl
@[simp] theorem modThreads_home (us : List Nat) (f : Thread → Thread) : (s.modThreads us f).home = s.home := rfl
@[simp] theorem modThreads_ops (us : List Nat) (f : Thread → Thread) : (s.modThreads us f).ops = s.ops := rfl
@[simp] theorem modThreads_items (us : List Nat) (f : Thread → Thread) : (s.modThreads us f).items = s.items := rfl
@[simp] theorem modThreads_agenda (us : List Nat) (f : Thread → Thread) : (s.modThreads us f).agenda = s.agenda := rfl
@[simp] theorem modThreads_dues (us : List Nat) (f : Thread → Thread) : (s.modThreads us f).dues = s.dues := rfl
@[simp] theorem modThreads_gang (us : List Nat) (f : Thread → Thread) : (s.modThreads us f).gang = s.gang := rfl
@[simp] theorem modThreads_issued (us : List Nat) (f : Thread → Thread) : (s.modThreads us f).issued = s.issued := rfl
@[simp] theorem modThreads_nextId (us : List Nat) (f : Thread → Thread) : (s.modThreads us f).nextId = s.nextId := rfl
@[simp] theorem modThreads_outbox (us : List Nat) (f : Thread → Thread) : (s.modThreads us f).outbox = s.outbox := rfl
@[simp] theorem modThreads_mreqs (us : List Nat) (f : Thread → Thread) : (s.modThreads us f).mreqs = s.mreqs := rfl
@[simp] theorem modThreads_parts (us : List Nat) (f : Thread → Thread) : (s.modThreads us f).parts = s.parts := rfl
@[simp] theorem modThreads_cmds (us : List Nat) (f : Thread → Thread) : (s.modThreads us f).cmds = s.cmds := rfl
@[simp] theorem modThreads_cmdsAt (us : List Nat) (f : Thread → Thread) : (s.modThreads us f).cmdsAt = s.cmdsAt := rfl
@[simp] theorem modThreads_peg (us : List Nat) (f : Thread → Thread) : (s.modThreads us f).peg = s.peg := rfl

/-! ### `modGroup` -/

@[simp] theorem modGroup_tick (g : Nat) (f : Group → Group) : (s.modGroup g f).tick = s.tick := rfl
@[simp] theorem modGroup_mem (g : Nat) (f : Group → Group) : (s.modGroup g f).mem = s.mem := rfl
@[simp] theorem modGroup_syn (g : Nat) (f : Group → Group) : (s.modGroup g f).syn = s.syn := rfl
@[simp] theorem modGroup_slots (g : Nat) (f : Group → Group) : (s.modGroup g f).slots = s.slots := rfl
@[simp] theorem modGroup_lts (g : Nat) (f : Group → Group) : (s.modGroup g f).lts = s.lts := rfl
@[simp] theorem modGroup_ots (g : Nat) (f : Group → Group) : (s.modGroup g f).ots = s.ots := rfl
@[simp] theorem modGroup_bankRel (g : Nat) (f : Group → Group) : (s.modGroup g f).bankRel = s.bankRel := rfl
@[simp] theorem modGroup_gtag (g : Nat) (f : Group → Group) : (s.modGroup g f).gtag = s.gtag := rfl
@[simp] theorem modGroup_threads (g : Nat) (f : Group → Group) : (s.modGroup g f).threads = s.threads := rfl
@[simp] theorem modGroup_groups (g : Nat) (f : Group → Group) : (s.modGroup g f).groups = s.groups.map fun x => if x.gid == g then f x else x := rfl
@[simp] theorem modGroup_paths (g : Nat) (f : Group → Group) : (s.modGroup g f).paths = s.paths := rfl
@[simp] theorem modGroup_teams (g : Nat) (f : Group → Group) : (s.modGroup g f).teams = s.teams := rfl
@[simp] theorem modGroup_launches (g : Nat) (f : Group → Group) : (s.modGroup g f).launches = s.launches := rfl
@[simp] theorem modGroup_queues (g : Nat) (f : Group → Group) : (s.modGroup g f).queues = s.queues := rfl
@[simp] theorem modGroup_ctxs (g : Nat) (f : Group → Group) : (s.modGroup g f).ctxs = s.ctxs := rfl
@[simp] theorem modGroup_l1 (g : Nat) (f : Group → Group) : (s.modGroup g f).l1 = s.l1 := rfl
@[simp] theorem modGroup_home (g : Nat) (f : Group → Group) : (s.modGroup g f).home = s.home := rfl
@[simp] theorem modGroup_ops (g : Nat) (f : Group → Group) : (s.modGroup g f).ops = s.ops := rfl
@[simp] theorem modGroup_items (g : Nat) (f : Group → Group) : (s.modGroup g f).items = s.items := rfl
@[simp] theorem modGroup_agenda (g : Nat) (f : Group → Group) : (s.modGroup g f).agenda = s.agenda := rfl
@[simp] theorem modGroup_dues (g : Nat) (f : Group → Group) : (s.modGroup g f).dues = s.dues := rfl
@[simp] theorem modGroup_gang (g : Nat) (f : Group → Group) : (s.modGroup g f).gang = s.gang := rfl
@[simp] theorem modGroup_issued (g : Nat) (f : Group → Group) : (s.modGroup g f).issued = s.issued := rfl
@[simp] theorem modGroup_nextId (g : Nat) (f : Group → Group) : (s.modGroup g f).nextId = s.nextId := rfl
@[simp] theorem modGroup_outbox (g : Nat) (f : Group → Group) : (s.modGroup g f).outbox = s.outbox := rfl
@[simp] theorem modGroup_mreqs (g : Nat) (f : Group → Group) : (s.modGroup g f).mreqs = s.mreqs := rfl
@[simp] theorem modGroup_parts (g : Nat) (f : Group → Group) : (s.modGroup g f).parts = s.parts := rfl
@[simp] theorem modGroup_cmds (g : Nat) (f : Group → Group) : (s.modGroup g f).cmds = s.cmds := rfl
@[simp] theorem modGroup_cmdsAt (g : Nat) (f : Group → Group) : (s.modGroup g f).cmdsAt = s.cmdsAt := rfl
@[simp] theorem modGroup_peg (g : Nat) (f : Group → Group) : (s.modGroup g f).peg = s.peg := rfl

/-! ### `modTeam` -/

@[simp] theorem modTeam_tick (m : Nat) (f : Team → Team) : (s.modTeam m f).tick = s.tick := rfl
@[simp] theorem modTeam_mem (m : Nat) (f : Team → Team) : (s.modTeam m f).mem = s.mem := rfl
@[simp] theorem modTeam_syn (m : Nat) (f : Team → Team) : (s.modTeam m f).syn = s.syn := rfl
@[simp] theorem modTeam_slots (m : Nat) (f : Team → Team) : (s.modTeam m f).slots = s.slots := rfl
@[simp] theorem modTeam_lts (m : Nat) (f : Team → Team) : (s.modTeam m f).lts = s.lts := rfl
@[simp] theorem modTeam_ots (m : Nat) (f : Team → Team) : (s.modTeam m f).ots = s.ots := rfl
@[simp] theorem modTeam_bankRel (m : Nat) (f : Team → Team) : (s.modTeam m f).bankRel = s.bankRel := rfl
@[simp] theorem modTeam_gtag (m : Nat) (f : Team → Team) : (s.modTeam m f).gtag = s.gtag := rfl
@[simp] theorem modTeam_threads (m : Nat) (f : Team → Team) : (s.modTeam m f).threads = s.threads := rfl
@[simp] theorem modTeam_groups (m : Nat) (f : Team → Team) : (s.modTeam m f).groups = s.groups := rfl
@[simp] theorem modTeam_paths (m : Nat) (f : Team → Team) : (s.modTeam m f).paths = s.paths := rfl
@[simp] theorem modTeam_teams (m : Nat) (f : Team → Team) : (s.modTeam m f).teams = s.teams.map fun x => if x.tid == m then f x else x := rfl
@[simp] theorem modTeam_launches (m : Nat) (f : Team → Team) : (s.modTeam m f).launches = s.launches := rfl
@[simp] theorem modTeam_queues (m : Nat) (f : Team → Team) : (s.modTeam m f).queues = s.queues := rfl
@[simp] theorem modTeam_ctxs (m : Nat) (f : Team → Team) : (s.modTeam m f).ctxs = s.ctxs := rfl
@[simp] theorem modTeam_l1 (m : Nat) (f : Team → Team) : (s.modTeam m f).l1 = s.l1 := rfl
@[simp] theorem modTeam_home (m : Nat) (f : Team → Team) : (s.modTeam m f).home = s.home := rfl
@[simp] theorem modTeam_ops (m : Nat) (f : Team → Team) : (s.modTeam m f).ops = s.ops := rfl
@[simp] theorem modTeam_items (m : Nat) (f : Team → Team) : (s.modTeam m f).items = s.items := rfl
@[simp] theorem modTeam_agenda (m : Nat) (f : Team → Team) : (s.modTeam m f).agenda = s.agenda := rfl
@[simp] theorem modTeam_dues (m : Nat) (f : Team → Team) : (s.modTeam m f).dues = s.dues := rfl
@[simp] theorem modTeam_gang (m : Nat) (f : Team → Team) : (s.modTeam m f).gang = s.gang := rfl
@[simp] theorem modTeam_issued (m : Nat) (f : Team → Team) : (s.modTeam m f).issued = s.issued := rfl
@[simp] theorem modTeam_nextId (m : Nat) (f : Team → Team) : (s.modTeam m f).nextId = s.nextId := rfl
@[simp] theorem modTeam_outbox (m : Nat) (f : Team → Team) : (s.modTeam m f).outbox = s.outbox := rfl
@[simp] theorem modTeam_mreqs (m : Nat) (f : Team → Team) : (s.modTeam m f).mreqs = s.mreqs := rfl
@[simp] theorem modTeam_parts (m : Nat) (f : Team → Team) : (s.modTeam m f).parts = s.parts := rfl
@[simp] theorem modTeam_cmds (m : Nat) (f : Team → Team) : (s.modTeam m f).cmds = s.cmds := rfl
@[simp] theorem modTeam_cmdsAt (m : Nat) (f : Team → Team) : (s.modTeam m f).cmdsAt = s.cmdsAt := rfl
@[simp] theorem modTeam_peg (m : Nat) (f : Team → Team) : (s.modTeam m f).peg = s.peg := rfl

/-! ### `modLaunch` -/

@[simp] theorem modLaunch_tick (l : Nat) (f : Launch → Launch) : (s.modLaunch l f).tick = s.tick := rfl
@[simp] theorem modLaunch_mem (l : Nat) (f : Launch → Launch) : (s.modLaunch l f).mem = s.mem := rfl
@[simp] theorem modLaunch_syn (l : Nat) (f : Launch → Launch) : (s.modLaunch l f).syn = s.syn := rfl
@[simp] theorem modLaunch_slots (l : Nat) (f : Launch → Launch) : (s.modLaunch l f).slots = s.slots := rfl
@[simp] theorem modLaunch_lts (l : Nat) (f : Launch → Launch) : (s.modLaunch l f).lts = s.lts := rfl
@[simp] theorem modLaunch_ots (l : Nat) (f : Launch → Launch) : (s.modLaunch l f).ots = s.ots := rfl
@[simp] theorem modLaunch_bankRel (l : Nat) (f : Launch → Launch) : (s.modLaunch l f).bankRel = s.bankRel := rfl
@[simp] theorem modLaunch_gtag (l : Nat) (f : Launch → Launch) : (s.modLaunch l f).gtag = s.gtag := rfl
@[simp] theorem modLaunch_threads (l : Nat) (f : Launch → Launch) : (s.modLaunch l f).threads = s.threads := rfl
@[simp] theorem modLaunch_groups (l : Nat) (f : Launch → Launch) : (s.modLaunch l f).groups = s.groups := rfl
@[simp] theorem modLaunch_paths (l : Nat) (f : Launch → Launch) : (s.modLaunch l f).paths = s.paths := rfl
@[simp] theorem modLaunch_teams (l : Nat) (f : Launch → Launch) : (s.modLaunch l f).teams = s.teams := rfl
@[simp] theorem modLaunch_launches (l : Nat) (f : Launch → Launch) : (s.modLaunch l f).launches = s.launches.map fun x => if x.lid == l then f x else x := rfl
@[simp] theorem modLaunch_queues (l : Nat) (f : Launch → Launch) : (s.modLaunch l f).queues = s.queues := rfl
@[simp] theorem modLaunch_ctxs (l : Nat) (f : Launch → Launch) : (s.modLaunch l f).ctxs = s.ctxs := rfl
@[simp] theorem modLaunch_l1 (l : Nat) (f : Launch → Launch) : (s.modLaunch l f).l1 = s.l1 := rfl
@[simp] theorem modLaunch_home (l : Nat) (f : Launch → Launch) : (s.modLaunch l f).home = s.home := rfl
@[simp] theorem modLaunch_ops (l : Nat) (f : Launch → Launch) : (s.modLaunch l f).ops = s.ops := rfl
@[simp] theorem modLaunch_items (l : Nat) (f : Launch → Launch) : (s.modLaunch l f).items = s.items := rfl
@[simp] theorem modLaunch_agenda (l : Nat) (f : Launch → Launch) : (s.modLaunch l f).agenda = s.agenda := rfl
@[simp] theorem modLaunch_dues (l : Nat) (f : Launch → Launch) : (s.modLaunch l f).dues = s.dues := rfl
@[simp] theorem modLaunch_gang (l : Nat) (f : Launch → Launch) : (s.modLaunch l f).gang = s.gang := rfl
@[simp] theorem modLaunch_issued (l : Nat) (f : Launch → Launch) : (s.modLaunch l f).issued = s.issued := rfl
@[simp] theorem modLaunch_nextId (l : Nat) (f : Launch → Launch) : (s.modLaunch l f).nextId = s.nextId := rfl
@[simp] theorem modLaunch_outbox (l : Nat) (f : Launch → Launch) : (s.modLaunch l f).outbox = s.outbox := rfl
@[simp] theorem modLaunch_mreqs (l : Nat) (f : Launch → Launch) : (s.modLaunch l f).mreqs = s.mreqs := rfl
@[simp] theorem modLaunch_parts (l : Nat) (f : Launch → Launch) : (s.modLaunch l f).parts = s.parts := rfl
@[simp] theorem modLaunch_cmds (l : Nat) (f : Launch → Launch) : (s.modLaunch l f).cmds = s.cmds := rfl
@[simp] theorem modLaunch_cmdsAt (l : Nat) (f : Launch → Launch) : (s.modLaunch l f).cmdsAt = s.cmdsAt := rfl
@[simp] theorem modLaunch_peg (l : Nat) (f : Launch → Launch) : (s.modLaunch l f).peg = s.peg := rfl

/-! ### `modOp` -/

@[simp] theorem modOp_tick (k : Nat) (f : Op → Op) : (s.modOp k f).tick = s.tick := rfl
@[simp] theorem modOp_mem (k : Nat) (f : Op → Op) : (s.modOp k f).mem = s.mem := rfl
@[simp] theorem modOp_syn (k : Nat) (f : Op → Op) : (s.modOp k f).syn = s.syn := rfl
@[simp] theorem modOp_slots (k : Nat) (f : Op → Op) : (s.modOp k f).slots = s.slots := rfl
@[simp] theorem modOp_lts (k : Nat) (f : Op → Op) : (s.modOp k f).lts = s.lts := rfl
@[simp] theorem modOp_ots (k : Nat) (f : Op → Op) : (s.modOp k f).ots = s.ots := rfl
@[simp] theorem modOp_bankRel (k : Nat) (f : Op → Op) : (s.modOp k f).bankRel = s.bankRel := rfl
@[simp] theorem modOp_gtag (k : Nat) (f : Op → Op) : (s.modOp k f).gtag = s.gtag := rfl
@[simp] theorem modOp_threads (k : Nat) (f : Op → Op) : (s.modOp k f).threads = s.threads := rfl
@[simp] theorem modOp_groups (k : Nat) (f : Op → Op) : (s.modOp k f).groups = s.groups := rfl
@[simp] theorem modOp_paths (k : Nat) (f : Op → Op) : (s.modOp k f).paths = s.paths := rfl
@[simp] theorem modOp_teams (k : Nat) (f : Op → Op) : (s.modOp k f).teams = s.teams := rfl
@[simp] theorem modOp_launches (k : Nat) (f : Op → Op) : (s.modOp k f).launches = s.launches := rfl
@[simp] theorem modOp_queues (k : Nat) (f : Op → Op) : (s.modOp k f).queues = s.queues := rfl
@[simp] theorem modOp_ctxs (k : Nat) (f : Op → Op) : (s.modOp k f).ctxs = s.ctxs := rfl
@[simp] theorem modOp_l1 (k : Nat) (f : Op → Op) : (s.modOp k f).l1 = s.l1 := rfl
@[simp] theorem modOp_home (k : Nat) (f : Op → Op) : (s.modOp k f).home = s.home := rfl
@[simp] theorem modOp_ops (k : Nat) (f : Op → Op) : (s.modOp k f).ops = s.ops.map fun o => if o.id == k then f o else o := rfl
@[simp] theorem modOp_items (k : Nat) (f : Op → Op) : (s.modOp k f).items = s.items := rfl
@[simp] theorem modOp_agenda (k : Nat) (f : Op → Op) : (s.modOp k f).agenda = s.agenda := rfl
@[simp] theorem modOp_dues (k : Nat) (f : Op → Op) : (s.modOp k f).dues = s.dues := rfl
@[simp] theorem modOp_gang (k : Nat) (f : Op → Op) : (s.modOp k f).gang = s.gang := rfl
@[simp] theorem modOp_issued (k : Nat) (f : Op → Op) : (s.modOp k f).issued = s.issued := rfl
@[simp] theorem modOp_nextId (k : Nat) (f : Op → Op) : (s.modOp k f).nextId = s.nextId := rfl
@[simp] theorem modOp_outbox (k : Nat) (f : Op → Op) : (s.modOp k f).outbox = s.outbox := rfl
@[simp] theorem modOp_mreqs (k : Nat) (f : Op → Op) : (s.modOp k f).mreqs = s.mreqs := rfl
@[simp] theorem modOp_parts (k : Nat) (f : Op → Op) : (s.modOp k f).parts = s.parts := rfl
@[simp] theorem modOp_cmds (k : Nat) (f : Op → Op) : (s.modOp k f).cmds = s.cmds := rfl
@[simp] theorem modOp_cmdsAt (k : Nat) (f : Op → Op) : (s.modOp k f).cmdsAt = s.cmdsAt := rfl
@[simp] theorem modOp_peg (k : Nat) (f : Op → Op) : (s.modOp k f).peg = s.peg := rfl

/-! ### `dropOp` -/

@[simp] theorem dropOp_tick (k : Nat) : (s.dropOp k).tick = s.tick := rfl
@[simp] theorem dropOp_mem (k : Nat) : (s.dropOp k).mem = s.mem := rfl
@[simp] theorem dropOp_syn (k : Nat) : (s.dropOp k).syn = s.syn := rfl
@[simp] theorem dropOp_slots (k : Nat) : (s.dropOp k).slots = s.slots := rfl
@[simp] theorem dropOp_lts (k : Nat) : (s.dropOp k).lts = s.lts := rfl
@[simp] theorem dropOp_ots (k : Nat) : (s.dropOp k).ots = s.ots := rfl
@[simp] theorem dropOp_bankRel (k : Nat) : (s.dropOp k).bankRel = s.bankRel := rfl
@[simp] theorem dropOp_gtag (k : Nat) : (s.dropOp k).gtag = s.gtag := rfl
@[simp] theorem dropOp_threads (k : Nat) : (s.dropOp k).threads = s.threads := rfl
@[simp] theorem dropOp_groups (k : Nat) : (s.dropOp k).groups = s.groups := rfl
@[simp] theorem dropOp_paths (k : Nat) : (s.dropOp k).paths = s.paths := rfl
@[simp] theorem dropOp_teams (k : Nat) : (s.dropOp k).teams = s.teams := rfl
@[simp] theorem dropOp_launches (k : Nat) : (s.dropOp k).launches = s.launches := rfl
@[simp] theorem dropOp_queues (k : Nat) : (s.dropOp k).queues = s.queues := rfl
@[simp] theorem dropOp_ctxs (k : Nat) : (s.dropOp k).ctxs = s.ctxs := rfl
@[simp] theorem dropOp_l1 (k : Nat) : (s.dropOp k).l1 = s.l1 := rfl
@[simp] theorem dropOp_home (k : Nat) : (s.dropOp k).home = s.home := rfl
@[simp] theorem dropOp_ops (k : Nat) : (s.dropOp k).ops = s.ops.filter fun o => o.id != k := rfl
@[simp] theorem dropOp_items (k : Nat) : (s.dropOp k).items = s.items := rfl
@[simp] theorem dropOp_agenda (k : Nat) : (s.dropOp k).agenda = s.agenda := rfl
@[simp] theorem dropOp_dues (k : Nat) : (s.dropOp k).dues = s.dues := rfl
@[simp] theorem dropOp_gang (k : Nat) : (s.dropOp k).gang = s.gang := rfl
@[simp] theorem dropOp_issued (k : Nat) : (s.dropOp k).issued = s.issued := rfl
@[simp] theorem dropOp_nextId (k : Nat) : (s.dropOp k).nextId = s.nextId := rfl
@[simp] theorem dropOp_outbox (k : Nat) : (s.dropOp k).outbox = s.outbox := rfl
@[simp] theorem dropOp_mreqs (k : Nat) : (s.dropOp k).mreqs = s.mreqs := rfl
@[simp] theorem dropOp_parts (k : Nat) : (s.dropOp k).parts = s.parts := rfl
@[simp] theorem dropOp_cmds (k : Nat) : (s.dropOp k).cmds = s.cmds := rfl
@[simp] theorem dropOp_cmdsAt (k : Nat) : (s.dropOp k).cmdsAt = s.cmdsAt := rfl
@[simp] theorem dropOp_peg (k : Nat) : (s.dropOp k).peg = s.peg := rfl

/-! ### `post` -/

@[simp] theorem post_tick (is : List Instr) : (s.post is).tick = s.tick := rfl
@[simp] theorem post_mem (is : List Instr) : (s.post is).mem = s.mem := rfl
@[simp] theorem post_syn (is : List Instr) : (s.post is).syn = s.syn := rfl
@[simp] theorem post_slots (is : List Instr) : (s.post is).slots = s.slots := rfl
@[simp] theorem post_lts (is : List Instr) : (s.post is).lts = s.lts := rfl
@[simp] theorem post_ots (is : List Instr) : (s.post is).ots = s.ots := rfl
@[simp] theorem post_bankRel (is : List Instr) : (s.post is).bankRel = s.bankRel := rfl
@[simp] theorem post_gtag (is : List Instr) : (s.post is).gtag = s.gtag := rfl
@[simp] theorem post_threads (is : List Instr) : (s.post is).threads = s.threads := rfl
@[simp] theorem post_groups (is : List Instr) : (s.post is).groups = s.groups := rfl
@[simp] theorem post_paths (is : List Instr) : (s.post is).paths = s.paths := rfl
@[simp] theorem post_teams (is : List Instr) : (s.post is).teams = s.teams := rfl
@[simp] theorem post_launches (is : List Instr) : (s.post is).launches = s.launches := rfl
@[simp] theorem post_queues (is : List Instr) : (s.post is).queues = s.queues := rfl
@[simp] theorem post_ctxs (is : List Instr) : (s.post is).ctxs = s.ctxs := rfl
@[simp] theorem post_l1 (is : List Instr) : (s.post is).l1 = s.l1 := rfl
@[simp] theorem post_home (is : List Instr) : (s.post is).home = s.home := rfl
@[simp] theorem post_ops (is : List Instr) : (s.post is).ops = s.ops := rfl
@[simp] theorem post_items (is : List Instr) : (s.post is).items = s.items := rfl
@[simp] theorem post_agenda (is : List Instr) : (s.post is).agenda = s.agenda ++ is := rfl
@[simp] theorem post_dues (is : List Instr) : (s.post is).dues = s.dues := rfl
@[simp] theorem post_gang (is : List Instr) : (s.post is).gang = s.gang := rfl
@[simp] theorem post_issued (is : List Instr) : (s.post is).issued = s.issued := rfl
@[simp] theorem post_nextId (is : List Instr) : (s.post is).nextId = s.nextId := rfl
@[simp] theorem post_outbox (is : List Instr) : (s.post is).outbox = s.outbox := rfl
@[simp] theorem post_mreqs (is : List Instr) : (s.post is).mreqs = s.mreqs := rfl
@[simp] theorem post_parts (is : List Instr) : (s.post is).parts = s.parts := rfl
@[simp] theorem post_cmds (is : List Instr) : (s.post is).cmds = s.cmds := rfl
@[simp] theorem post_cmdsAt (is : List Instr) : (s.post is).cmdsAt = s.cmdsAt := rfl
@[simp] theorem post_peg (is : List Instr) : (s.post is).peg = s.peg := rfl

/-! ### `draw` -/

@[simp] theorem draw_tick : s.draw.tick = s.tick := rfl
@[simp] theorem draw_mem : s.draw.mem = s.mem := rfl
@[simp] theorem draw_syn : s.draw.syn = s.syn := rfl
@[simp] theorem draw_slots : s.draw.slots = s.slots := rfl
@[simp] theorem draw_lts : s.draw.lts = s.lts := rfl
@[simp] theorem draw_ots : s.draw.ots = s.ots := rfl
@[simp] theorem draw_bankRel : s.draw.bankRel = s.bankRel := rfl
@[simp] theorem draw_gtag : s.draw.gtag = s.gtag := rfl
@[simp] theorem draw_threads : s.draw.threads = s.threads := rfl
@[simp] theorem draw_groups : s.draw.groups = s.groups := rfl
@[simp] theorem draw_paths : s.draw.paths = s.paths := rfl
@[simp] theorem draw_teams : s.draw.teams = s.teams := rfl
@[simp] theorem draw_launches : s.draw.launches = s.launches := rfl
@[simp] theorem draw_queues : s.draw.queues = s.queues := rfl
@[simp] theorem draw_ctxs : s.draw.ctxs = s.ctxs := rfl
@[simp] theorem draw_l1 : s.draw.l1 = s.l1 := rfl
@[simp] theorem draw_home : s.draw.home = s.home := rfl
@[simp] theorem draw_ops : s.draw.ops = s.ops := rfl
@[simp] theorem draw_items : s.draw.items = s.items := rfl
@[simp] theorem draw_agenda : s.draw.agenda = s.agenda := rfl
@[simp] theorem draw_dues : s.draw.dues = s.dues := rfl
@[simp] theorem draw_gang : s.draw.gang = s.gang := rfl
@[simp] theorem draw_issued : s.draw.issued = s.issued := rfl
@[simp] theorem draw_nextId : s.draw.nextId = s.nextId := rfl
@[simp] theorem draw_outbox : s.draw.outbox = s.outbox := rfl
@[simp] theorem draw_mreqs : s.draw.mreqs = s.mreqs := rfl
@[simp] theorem draw_parts : s.draw.parts = s.parts := rfl
@[simp] theorem draw_cmds : s.draw.cmds = s.cmds := rfl
@[simp] theorem draw_cmdsAt : s.draw.cmdsAt = s.cmdsAt := rfl
@[simp] theorem draw_peg : s.draw.peg = s.peg := rfl

/-! ### `raiseLt` -/

@[simp] theorem raiseLt_tick (c v : Nat) : (s.raiseLt c v).tick = s.tick := rfl
@[simp] theorem raiseLt_mem (c v : Nat) : (s.raiseLt c v).mem = s.mem := rfl
@[simp] theorem raiseLt_syn (c v : Nat) : (s.raiseLt c v).syn = s.syn := rfl
@[simp] theorem raiseLt_slots (c v : Nat) : (s.raiseLt c v).slots = s.slots := rfl
@[simp] theorem raiseLt_ots (c v : Nat) : (s.raiseLt c v).ots = s.ots := rfl
@[simp] theorem raiseLt_bankRel (c v : Nat) : (s.raiseLt c v).bankRel = s.bankRel := rfl
@[simp] theorem raiseLt_gtag (c v : Nat) : (s.raiseLt c v).gtag = s.gtag := rfl
@[simp] theorem raiseLt_threads (c v : Nat) : (s.raiseLt c v).threads = s.threads := rfl
@[simp] theorem raiseLt_groups (c v : Nat) : (s.raiseLt c v).groups = s.groups := rfl
@[simp] theorem raiseLt_paths (c v : Nat) : (s.raiseLt c v).paths = s.paths := rfl
@[simp] theorem raiseLt_teams (c v : Nat) : (s.raiseLt c v).teams = s.teams := rfl
@[simp] theorem raiseLt_launches (c v : Nat) : (s.raiseLt c v).launches = s.launches := rfl
@[simp] theorem raiseLt_queues (c v : Nat) : (s.raiseLt c v).queues = s.queues := rfl
@[simp] theorem raiseLt_ctxs (c v : Nat) : (s.raiseLt c v).ctxs = s.ctxs := rfl
@[simp] theorem raiseLt_l1 (c v : Nat) : (s.raiseLt c v).l1 = s.l1 := rfl
@[simp] theorem raiseLt_home (c v : Nat) : (s.raiseLt c v).home = s.home := rfl
@[simp] theorem raiseLt_ops (c v : Nat) : (s.raiseLt c v).ops = s.ops := rfl
@[simp] theorem raiseLt_items (c v : Nat) : (s.raiseLt c v).items = s.items := rfl
@[simp] theorem raiseLt_agenda (c v : Nat) : (s.raiseLt c v).agenda = s.agenda := rfl
@[simp] theorem raiseLt_dues (c v : Nat) : (s.raiseLt c v).dues = s.dues := rfl
@[simp] theorem raiseLt_gang (c v : Nat) : (s.raiseLt c v).gang = s.gang := rfl
@[simp] theorem raiseLt_issued (c v : Nat) : (s.raiseLt c v).issued = s.issued := rfl
@[simp] theorem raiseLt_nextId (c v : Nat) : (s.raiseLt c v).nextId = s.nextId := rfl
@[simp] theorem raiseLt_outbox (c v : Nat) : (s.raiseLt c v).outbox = s.outbox := rfl
@[simp] theorem raiseLt_mreqs (c v : Nat) : (s.raiseLt c v).mreqs = s.mreqs := rfl
@[simp] theorem raiseLt_parts (c v : Nat) : (s.raiseLt c v).parts = s.parts := rfl
@[simp] theorem raiseLt_cmds (c v : Nat) : (s.raiseLt c v).cmds = s.cmds := rfl
@[simp] theorem raiseLt_cmdsAt (c v : Nat) : (s.raiseLt c v).cmdsAt = s.cmdsAt := rfl
@[simp] theorem raiseLt_peg (c v : Nat) : (s.raiseLt c v).peg = s.peg := rfl

/-! ### `addLt` -/

@[simp] theorem addLt_tick (c v : Nat) : (s.addLt c v).tick = s.tick := rfl
@[simp] theorem addLt_mem (c v : Nat) : (s.addLt c v).mem = s.mem := rfl
@[simp] theorem addLt_syn (c v : Nat) : (s.addLt c v).syn = s.syn := rfl
@[simp] theorem addLt_slots (c v : Nat) : (s.addLt c v).slots = s.slots := rfl
@[simp] theorem addLt_ots (c v : Nat) : (s.addLt c v).ots = s.ots := rfl
@[simp] theorem addLt_bankRel (c v : Nat) : (s.addLt c v).bankRel = s.bankRel := rfl
@[simp] theorem addLt_gtag (c v : Nat) : (s.addLt c v).gtag = s.gtag := rfl
@[simp] theorem addLt_threads (c v : Nat) : (s.addLt c v).threads = s.threads := rfl
@[simp] theorem addLt_groups (c v : Nat) : (s.addLt c v).groups = s.groups := rfl
@[simp] theorem addLt_paths (c v : Nat) : (s.addLt c v).paths = s.paths := rfl
@[simp] theorem addLt_teams (c v : Nat) : (s.addLt c v).teams = s.teams := rfl
@[simp] theorem addLt_launches (c v : Nat) : (s.addLt c v).launches = s.launches := rfl
@[simp] theorem addLt_queues (c v : Nat) : (s.addLt c v).queues = s.queues := rfl
@[simp] theorem addLt_ctxs (c v : Nat) : (s.addLt c v).ctxs = s.ctxs := rfl
@[simp] theorem addLt_l1 (c v : Nat) : (s.addLt c v).l1 = s.l1 := rfl
@[simp] theorem addLt_home (c v : Nat) : (s.addLt c v).home = s.home := rfl
@[simp] theorem addLt_ops (c v : Nat) : (s.addLt c v).ops = s.ops := rfl
@[simp] theorem addLt_items (c v : Nat) : (s.addLt c v).items = s.items := rfl
@[simp] theorem addLt_agenda (c v : Nat) : (s.addLt c v).agenda = s.agenda := rfl
@[simp] theorem addLt_dues (c v : Nat) : (s.addLt c v).dues = s.dues := rfl
@[simp] theorem addLt_gang (c v : Nat) : (s.addLt c v).gang = s.gang := rfl
@[simp] theorem addLt_issued (c v : Nat) : (s.addLt c v).issued = s.issued := rfl
@[simp] theorem addLt_nextId (c v : Nat) : (s.addLt c v).nextId = s.nextId := rfl
@[simp] theorem addLt_outbox (c v : Nat) : (s.addLt c v).outbox = s.outbox := rfl
@[simp] theorem addLt_mreqs (c v : Nat) : (s.addLt c v).mreqs = s.mreqs := rfl
@[simp] theorem addLt_parts (c v : Nat) : (s.addLt c v).parts = s.parts := rfl
@[simp] theorem addLt_cmds (c v : Nat) : (s.addLt c v).cmds = s.cmds := rfl
@[simp] theorem addLt_cmdsAt (c v : Nat) : (s.addLt c v).cmdsAt = s.cmdsAt := rfl
@[simp] theorem addLt_peg (c v : Nat) : (s.addLt c v).peg = s.peg := rfl

/-! ### `raiseOt` -/

@[simp] theorem raiseOt_tick (c v : Nat) : (s.raiseOt c v).tick = s.tick := rfl
@[simp] theorem raiseOt_mem (c v : Nat) : (s.raiseOt c v).mem = s.mem := rfl
@[simp] theorem raiseOt_syn (c v : Nat) : (s.raiseOt c v).syn = s.syn := rfl
@[simp] theorem raiseOt_slots (c v : Nat) : (s.raiseOt c v).slots = s.slots := rfl
@[simp] theorem raiseOt_lts (c v : Nat) : (s.raiseOt c v).lts = s.lts := rfl
@[simp] theorem raiseOt_bankRel (c v : Nat) : (s.raiseOt c v).bankRel = s.bankRel := rfl
@[simp] theorem raiseOt_gtag (c v : Nat) : (s.raiseOt c v).gtag = s.gtag := rfl
@[simp] theorem raiseOt_threads (c v : Nat) : (s.raiseOt c v).threads = s.threads := rfl
@[simp] theorem raiseOt_groups (c v : Nat) : (s.raiseOt c v).groups = s.groups := rfl
@[simp] theorem raiseOt_paths (c v : Nat) : (s.raiseOt c v).paths = s.paths := rfl
@[simp] theorem raiseOt_teams (c v : Nat) : (s.raiseOt c v).teams = s.teams := rfl
@[simp] theorem raiseOt_launches (c v : Nat) : (s.raiseOt c v).launches = s.launches := rfl
@[simp] theorem raiseOt_queues (c v : Nat) : (s.raiseOt c v).queues = s.queues := rfl
@[simp] theorem raiseOt_ctxs (c v : Nat) : (s.raiseOt c v).ctxs = s.ctxs := rfl
@[simp] theorem raiseOt_l1 (c v : Nat) : (s.raiseOt c v).l1 = s.l1 := rfl
@[simp] theorem raiseOt_home (c v : Nat) : (s.raiseOt c v).home = s.home := rfl
@[simp] theorem raiseOt_ops (c v : Nat) : (s.raiseOt c v).ops = s.ops := rfl
@[simp] theorem raiseOt_items (c v : Nat) : (s.raiseOt c v).items = s.items := rfl
@[simp] theorem raiseOt_agenda (c v : Nat) : (s.raiseOt c v).agenda = s.agenda := rfl
@[simp] theorem raiseOt_dues (c v : Nat) : (s.raiseOt c v).dues = s.dues := rfl
@[simp] theorem raiseOt_gang (c v : Nat) : (s.raiseOt c v).gang = s.gang := rfl
@[simp] theorem raiseOt_issued (c v : Nat) : (s.raiseOt c v).issued = s.issued := rfl
@[simp] theorem raiseOt_nextId (c v : Nat) : (s.raiseOt c v).nextId = s.nextId := rfl
@[simp] theorem raiseOt_outbox (c v : Nat) : (s.raiseOt c v).outbox = s.outbox := rfl
@[simp] theorem raiseOt_mreqs (c v : Nat) : (s.raiseOt c v).mreqs = s.mreqs := rfl
@[simp] theorem raiseOt_parts (c v : Nat) : (s.raiseOt c v).parts = s.parts := rfl
@[simp] theorem raiseOt_cmds (c v : Nat) : (s.raiseOt c v).cmds = s.cmds := rfl
@[simp] theorem raiseOt_cmdsAt (c v : Nat) : (s.raiseOt c v).cmdsAt = s.cmdsAt := rfl
@[simp] theorem raiseOt_peg (c v : Nat) : (s.raiseOt c v).peg = s.peg := rfl

/-! ### `leaveRel` -/

@[simp] theorem leaveRel_tick (v : Nat) (locs : List Nat) : (s.leaveRel v locs).tick = s.tick := rfl
@[simp] theorem leaveRel_mem (v : Nat) (locs : List Nat) : (s.leaveRel v locs).mem = s.mem := rfl
@[simp] theorem leaveRel_syn (v : Nat) (locs : List Nat) : (s.leaveRel v locs).syn = s.syn := rfl
@[simp] theorem leaveRel_slots (v : Nat) (locs : List Nat) : (s.leaveRel v locs).slots = s.slots := rfl
@[simp] theorem leaveRel_lts (v : Nat) (locs : List Nat) : (s.leaveRel v locs).lts = s.lts := rfl
@[simp] theorem leaveRel_ots (v : Nat) (locs : List Nat) : (s.leaveRel v locs).ots = s.ots := rfl
@[simp] theorem leaveRel_gtag (v : Nat) (locs : List Nat) : (s.leaveRel v locs).gtag = s.gtag := rfl
@[simp] theorem leaveRel_threads (v : Nat) (locs : List Nat) : (s.leaveRel v locs).threads = s.threads := rfl
@[simp] theorem leaveRel_groups (v : Nat) (locs : List Nat) : (s.leaveRel v locs).groups = s.groups := rfl
@[simp] theorem leaveRel_paths (v : Nat) (locs : List Nat) : (s.leaveRel v locs).paths = s.paths := rfl
@[simp] theorem leaveRel_teams (v : Nat) (locs : List Nat) : (s.leaveRel v locs).teams = s.teams := rfl
@[simp] theorem leaveRel_launches (v : Nat) (locs : List Nat) : (s.leaveRel v locs).launches = s.launches := rfl
@[simp] theorem leaveRel_queues (v : Nat) (locs : List Nat) : (s.leaveRel v locs).queues = s.queues := rfl
@[simp] theorem leaveRel_ctxs (v : Nat) (locs : List Nat) : (s.leaveRel v locs).ctxs = s.ctxs := rfl
@[simp] theorem leaveRel_l1 (v : Nat) (locs : List Nat) : (s.leaveRel v locs).l1 = s.l1 := rfl
@[simp] theorem leaveRel_home (v : Nat) (locs : List Nat) : (s.leaveRel v locs).home = s.home := rfl
@[simp] theorem leaveRel_ops (v : Nat) (locs : List Nat) : (s.leaveRel v locs).ops = s.ops := rfl
@[simp] theorem leaveRel_items (v : Nat) (locs : List Nat) : (s.leaveRel v locs).items = s.items := rfl
@[simp] theorem leaveRel_agenda (v : Nat) (locs : List Nat) : (s.leaveRel v locs).agenda = s.agenda := rfl
@[simp] theorem leaveRel_dues (v : Nat) (locs : List Nat) : (s.leaveRel v locs).dues = s.dues := rfl
@[simp] theorem leaveRel_gang (v : Nat) (locs : List Nat) : (s.leaveRel v locs).gang = s.gang := rfl
@[simp] theorem leaveRel_issued (v : Nat) (locs : List Nat) : (s.leaveRel v locs).issued = s.issued := rfl
@[simp] theorem leaveRel_nextId (v : Nat) (locs : List Nat) : (s.leaveRel v locs).nextId = s.nextId := rfl
@[simp] theorem leaveRel_outbox (v : Nat) (locs : List Nat) : (s.leaveRel v locs).outbox = s.outbox := rfl
@[simp] theorem leaveRel_mreqs (v : Nat) (locs : List Nat) : (s.leaveRel v locs).mreqs = s.mreqs := rfl
@[simp] theorem leaveRel_parts (v : Nat) (locs : List Nat) : (s.leaveRel v locs).parts = s.parts := rfl
@[simp] theorem leaveRel_cmds (v : Nat) (locs : List Nat) : (s.leaveRel v locs).cmds = s.cmds := rfl
@[simp] theorem leaveRel_cmdsAt (v : Nat) (locs : List Nat) : (s.leaveRel v locs).cmdsAt = s.cmdsAt := rfl
@[simp] theorem leaveRel_peg (v : Nat) (locs : List Nat) : (s.leaveRel v locs).peg = s.peg := rfl

/-! ### `stallFence` -/

@[simp] theorem stallFence_tick : s.stallFence.tick = s.tick := rfl
@[simp] theorem stallFence_mem : s.stallFence.mem = s.mem := rfl
@[simp] theorem stallFence_syn : s.stallFence.syn = s.syn := rfl
@[simp] theorem stallFence_slots : s.stallFence.slots = s.slots := rfl
@[simp] theorem stallFence_lts : s.stallFence.lts = s.lts := rfl
@[simp] theorem stallFence_ots : s.stallFence.ots = s.ots := rfl
@[simp] theorem stallFence_bankRel : s.stallFence.bankRel = s.bankRel := rfl
@[simp] theorem stallFence_gtag : s.stallFence.gtag = s.gtag := rfl
@[simp] theorem stallFence_groups : s.stallFence.groups = s.groups := rfl
@[simp] theorem stallFence_paths : s.stallFence.paths = s.paths := rfl
@[simp] theorem stallFence_teams : s.stallFence.teams = s.teams := rfl
@[simp] theorem stallFence_launches : s.stallFence.launches = s.launches := rfl
@[simp] theorem stallFence_queues : s.stallFence.queues = s.queues := rfl
@[simp] theorem stallFence_ctxs : s.stallFence.ctxs = s.ctxs := rfl
@[simp] theorem stallFence_l1 : s.stallFence.l1 = s.l1 := rfl
@[simp] theorem stallFence_home : s.stallFence.home = s.home := rfl
@[simp] theorem stallFence_ops : s.stallFence.ops = s.ops := rfl
@[simp] theorem stallFence_items : s.stallFence.items = s.items := rfl
@[simp] theorem stallFence_agenda : s.stallFence.agenda = s.agenda := rfl
@[simp] theorem stallFence_dues : s.stallFence.dues = s.dues := rfl
@[simp] theorem stallFence_gang : s.stallFence.gang = s.gang := rfl
@[simp] theorem stallFence_issued : s.stallFence.issued = s.issued := rfl
@[simp] theorem stallFence_nextId : s.stallFence.nextId = s.nextId := rfl
@[simp] theorem stallFence_outbox : s.stallFence.outbox = s.outbox := rfl
@[simp] theorem stallFence_mreqs : s.stallFence.mreqs = s.mreqs := rfl
@[simp] theorem stallFence_parts : s.stallFence.parts = s.parts := rfl
@[simp] theorem stallFence_cmds : s.stallFence.cmds = s.cmds := rfl
@[simp] theorem stallFence_cmdsAt : s.stallFence.cmdsAt = s.cmdsAt := rfl
@[simp] theorem stallFence_peg : s.stallFence.peg = s.peg := rfl

/-! ### `dropL1` -/

@[simp] theorem dropL1_tick (c sec : Nat) : (s.dropL1 c sec).tick = s.tick := rfl
@[simp] theorem dropL1_mem (c sec : Nat) : (s.dropL1 c sec).mem = s.mem := rfl
@[simp] theorem dropL1_syn (c sec : Nat) : (s.dropL1 c sec).syn = s.syn := rfl
@[simp] theorem dropL1_slots (c sec : Nat) : (s.dropL1 c sec).slots = s.slots := rfl
@[simp] theorem dropL1_lts (c sec : Nat) : (s.dropL1 c sec).lts = s.lts := rfl
@[simp] theorem dropL1_ots (c sec : Nat) : (s.dropL1 c sec).ots = s.ots := rfl
@[simp] theorem dropL1_bankRel (c sec : Nat) : (s.dropL1 c sec).bankRel = s.bankRel := rfl
@[simp] theorem dropL1_gtag (c sec : Nat) : (s.dropL1 c sec).gtag = s.gtag := rfl
@[simp] theorem dropL1_threads (c sec : Nat) : (s.dropL1 c sec).threads = s.threads := rfl
@[simp] theorem dropL1_groups (c sec : Nat) : (s.dropL1 c sec).groups = s.groups := rfl
@[simp] theorem dropL1_paths (c sec : Nat) : (s.dropL1 c sec).paths = s.paths := rfl
@[simp] theorem dropL1_teams (c sec : Nat) : (s.dropL1 c sec).teams = s.teams := rfl
@[simp] theorem dropL1_launches (c sec : Nat) : (s.dropL1 c sec).launches = s.launches := rfl
@[simp] theorem dropL1_queues (c sec : Nat) : (s.dropL1 c sec).queues = s.queues := rfl
@[simp] theorem dropL1_ctxs (c sec : Nat) : (s.dropL1 c sec).ctxs = s.ctxs := rfl
@[simp] theorem dropL1_home (c sec : Nat) : (s.dropL1 c sec).home = s.home := rfl
@[simp] theorem dropL1_ops (c sec : Nat) : (s.dropL1 c sec).ops = s.ops := rfl
@[simp] theorem dropL1_items (c sec : Nat) : (s.dropL1 c sec).items = s.items := rfl
@[simp] theorem dropL1_agenda (c sec : Nat) : (s.dropL1 c sec).agenda = s.agenda := rfl
@[simp] theorem dropL1_dues (c sec : Nat) : (s.dropL1 c sec).dues = s.dues := rfl
@[simp] theorem dropL1_gang (c sec : Nat) : (s.dropL1 c sec).gang = s.gang := rfl
@[simp] theorem dropL1_issued (c sec : Nat) : (s.dropL1 c sec).issued = s.issued := rfl
@[simp] theorem dropL1_nextId (c sec : Nat) : (s.dropL1 c sec).nextId = s.nextId := rfl
@[simp] theorem dropL1_outbox (c sec : Nat) : (s.dropL1 c sec).outbox = s.outbox := rfl
@[simp] theorem dropL1_mreqs (c sec : Nat) : (s.dropL1 c sec).mreqs = s.mreqs := rfl
@[simp] theorem dropL1_parts (c sec : Nat) : (s.dropL1 c sec).parts = s.parts := rfl
@[simp] theorem dropL1_cmds (c sec : Nat) : (s.dropL1 c sec).cmds = s.cmds := rfl
@[simp] theorem dropL1_cmdsAt (c sec : Nat) : (s.dropL1 c sec).cmdsAt = s.cmdsAt := rfl
@[simp] theorem dropL1_peg (c sec : Nat) : (s.dropL1 c sec).peg = s.peg := rfl

/-! ### `modL1` -/

@[simp] theorem modL1_tick (c sec : Nat) (f : L1Sec → L1Sec) : (s.modL1 c sec f).tick = s.tick := rfl
@[simp] theorem modL1_mem (c sec : Nat) (f : L1Sec → L1Sec) : (s.modL1 c sec f).mem = s.mem := rfl
@[simp] theorem modL1_syn (c sec : Nat) (f : L1Sec → L1Sec) : (s.modL1 c sec f).syn = s.syn := rfl
@[simp] theorem modL1_slots (c sec : Nat) (f : L1Sec → L1Sec) : (s.modL1 c sec f).slots = s.slots := rfl
@[simp] theorem modL1_lts (c sec : Nat) (f : L1Sec → L1Sec) : (s.modL1 c sec f).lts = s.lts := rfl
@[simp] theorem modL1_ots (c sec : Nat) (f : L1Sec → L1Sec) : (s.modL1 c sec f).ots = s.ots := rfl
@[simp] theorem modL1_bankRel (c sec : Nat) (f : L1Sec → L1Sec) : (s.modL1 c sec f).bankRel = s.bankRel := rfl
@[simp] theorem modL1_gtag (c sec : Nat) (f : L1Sec → L1Sec) : (s.modL1 c sec f).gtag = s.gtag := rfl
@[simp] theorem modL1_threads (c sec : Nat) (f : L1Sec → L1Sec) : (s.modL1 c sec f).threads = s.threads := rfl
@[simp] theorem modL1_groups (c sec : Nat) (f : L1Sec → L1Sec) : (s.modL1 c sec f).groups = s.groups := rfl
@[simp] theorem modL1_paths (c sec : Nat) (f : L1Sec → L1Sec) : (s.modL1 c sec f).paths = s.paths := rfl
@[simp] theorem modL1_teams (c sec : Nat) (f : L1Sec → L1Sec) : (s.modL1 c sec f).teams = s.teams := rfl
@[simp] theorem modL1_launches (c sec : Nat) (f : L1Sec → L1Sec) : (s.modL1 c sec f).launches = s.launches := rfl
@[simp] theorem modL1_queues (c sec : Nat) (f : L1Sec → L1Sec) : (s.modL1 c sec f).queues = s.queues := rfl
@[simp] theorem modL1_ctxs (c sec : Nat) (f : L1Sec → L1Sec) : (s.modL1 c sec f).ctxs = s.ctxs := rfl
@[simp] theorem modL1_home (c sec : Nat) (f : L1Sec → L1Sec) : (s.modL1 c sec f).home = s.home := rfl
@[simp] theorem modL1_ops (c sec : Nat) (f : L1Sec → L1Sec) : (s.modL1 c sec f).ops = s.ops := rfl
@[simp] theorem modL1_items (c sec : Nat) (f : L1Sec → L1Sec) : (s.modL1 c sec f).items = s.items := rfl
@[simp] theorem modL1_agenda (c sec : Nat) (f : L1Sec → L1Sec) : (s.modL1 c sec f).agenda = s.agenda := rfl
@[simp] theorem modL1_dues (c sec : Nat) (f : L1Sec → L1Sec) : (s.modL1 c sec f).dues = s.dues := rfl
@[simp] theorem modL1_gang (c sec : Nat) (f : L1Sec → L1Sec) : (s.modL1 c sec f).gang = s.gang := rfl
@[simp] theorem modL1_issued (c sec : Nat) (f : L1Sec → L1Sec) : (s.modL1 c sec f).issued = s.issued := rfl
@[simp] theorem modL1_nextId (c sec : Nat) (f : L1Sec → L1Sec) : (s.modL1 c sec f).nextId = s.nextId := rfl
@[simp] theorem modL1_outbox (c sec : Nat) (f : L1Sec → L1Sec) : (s.modL1 c sec f).outbox = s.outbox := rfl
@[simp] theorem modL1_mreqs (c sec : Nat) (f : L1Sec → L1Sec) : (s.modL1 c sec f).mreqs = s.mreqs := rfl
@[simp] theorem modL1_parts (c sec : Nat) (f : L1Sec → L1Sec) : (s.modL1 c sec f).parts = s.parts := rfl
@[simp] theorem modL1_cmds (c sec : Nat) (f : L1Sec → L1Sec) : (s.modL1 c sec f).cmds = s.cmds := rfl
@[simp] theorem modL1_cmdsAt (c sec : Nat) (f : L1Sec → L1Sec) : (s.modL1 c sec f).cmdsAt = s.cmdsAt := rfl
@[simp] theorem modL1_peg (c sec : Nat) (f : L1Sec → L1Sec) : (s.modL1 c sec f).peg = s.peg := rfl

/-! ### `putHome` -/

@[simp] theorem putHome_tick (h : HomeSec) : (s.putHome h).tick = s.tick := rfl
@[simp] theorem putHome_mem (h : HomeSec) : (s.putHome h).mem = s.mem := rfl
@[simp] theorem putHome_syn (h : HomeSec) : (s.putHome h).syn = s.syn := rfl
@[simp] theorem putHome_slots (h : HomeSec) : (s.putHome h).slots = s.slots := rfl
@[simp] theorem putHome_lts (h : HomeSec) : (s.putHome h).lts = s.lts := rfl
@[simp] theorem putHome_ots (h : HomeSec) : (s.putHome h).ots = s.ots := rfl
@[simp] theorem putHome_bankRel (h : HomeSec) : (s.putHome h).bankRel = s.bankRel := rfl
@[simp] theorem putHome_gtag (h : HomeSec) : (s.putHome h).gtag = s.gtag := rfl
@[simp] theorem putHome_threads (h : HomeSec) : (s.putHome h).threads = s.threads := rfl
@[simp] theorem putHome_groups (h : HomeSec) : (s.putHome h).groups = s.groups := rfl
@[simp] theorem putHome_paths (h : HomeSec) : (s.putHome h).paths = s.paths := rfl
@[simp] theorem putHome_teams (h : HomeSec) : (s.putHome h).teams = s.teams := rfl
@[simp] theorem putHome_launches (h : HomeSec) : (s.putHome h).launches = s.launches := rfl
@[simp] theorem putHome_queues (h : HomeSec) : (s.putHome h).queues = s.queues := rfl
@[simp] theorem putHome_ctxs (h : HomeSec) : (s.putHome h).ctxs = s.ctxs := rfl
@[simp] theorem putHome_l1 (h : HomeSec) : (s.putHome h).l1 = s.l1 := rfl
@[simp] theorem putHome_home (h : HomeSec) : (s.putHome h).home = insertBy HomeSec.sec h (s.home.filter fun x => x.sec != h.sec) := rfl
@[simp] theorem putHome_ops (h : HomeSec) : (s.putHome h).ops = s.ops := rfl
@[simp] theorem putHome_items (h : HomeSec) : (s.putHome h).items = s.items := rfl
@[simp] theorem putHome_agenda (h : HomeSec) : (s.putHome h).agenda = s.agenda := rfl
@[simp] theorem putHome_dues (h : HomeSec) : (s.putHome h).dues = s.dues := rfl
@[simp] theorem putHome_gang (h : HomeSec) : (s.putHome h).gang = s.gang := rfl
@[simp] theorem putHome_issued (h : HomeSec) : (s.putHome h).issued = s.issued := rfl
@[simp] theorem putHome_nextId (h : HomeSec) : (s.putHome h).nextId = s.nextId := rfl
@[simp] theorem putHome_outbox (h : HomeSec) : (s.putHome h).outbox = s.outbox := rfl
@[simp] theorem putHome_mreqs (h : HomeSec) : (s.putHome h).mreqs = s.mreqs := rfl
@[simp] theorem putHome_parts (h : HomeSec) : (s.putHome h).parts = s.parts := rfl
@[simp] theorem putHome_cmds (h : HomeSec) : (s.putHome h).cmds = s.cmds := rfl
@[simp] theorem putHome_cmdsAt (h : HomeSec) : (s.putHome h).cmdsAt = s.cmdsAt := rfl
@[simp] theorem putHome_peg (h : HomeSec) : (s.putHome h).peg = s.peg := rfl

/-! ### `advance` -/

@[simp] theorem advance_tick : s.advance.tick = s.tick := rfl
@[simp] theorem advance_mem : s.advance.mem = s.mem := rfl
@[simp] theorem advance_syn : s.advance.syn = s.syn := rfl
@[simp] theorem advance_slots : s.advance.slots = s.slots := rfl
@[simp] theorem advance_lts : s.advance.lts = s.lts := rfl
@[simp] theorem advance_ots : s.advance.ots = s.ots := rfl
@[simp] theorem advance_bankRel : s.advance.bankRel = s.bankRel := rfl
@[simp] theorem advance_gtag : s.advance.gtag = s.gtag := rfl
@[simp] theorem advance_groups : s.advance.groups = s.groups := rfl
@[simp] theorem advance_paths : s.advance.paths = s.paths := rfl
@[simp] theorem advance_teams : s.advance.teams = s.teams := rfl
@[simp] theorem advance_launches : s.advance.launches = s.launches := rfl
@[simp] theorem advance_queues : s.advance.queues = s.queues := rfl
@[simp] theorem advance_ctxs : s.advance.ctxs = s.ctxs := rfl
@[simp] theorem advance_l1 : s.advance.l1 = s.l1 := rfl
@[simp] theorem advance_home : s.advance.home = s.home := rfl
@[simp] theorem advance_ops : s.advance.ops = s.ops := rfl
@[simp] theorem advance_items : s.advance.items = s.items := rfl
@[simp] theorem advance_agenda : s.advance.agenda = s.agenda := rfl
@[simp] theorem advance_dues : s.advance.dues = s.dues := rfl
@[simp] theorem advance_gang : s.advance.gang = s.gang := rfl
@[simp] theorem advance_issued : s.advance.issued = s.issued := rfl
@[simp] theorem advance_nextId : s.advance.nextId = s.nextId := rfl
@[simp] theorem advance_outbox : s.advance.outbox = s.outbox := rfl
@[simp] theorem advance_mreqs : s.advance.mreqs = s.mreqs := rfl
@[simp] theorem advance_parts : s.advance.parts = s.parts := rfl
@[simp] theorem advance_cmds : s.advance.cmds = s.cmds := rfl
@[simp] theorem advance_cmdsAt : s.advance.cmdsAt = s.cmdsAt := rfl
@[simp] theorem advance_peg : s.advance.peg = s.peg := rfl

/-! ### `each` -/

@[simp] theorem each_tick (p : Thread → Bool) (f : Thread → Thread) : (s.each p f).tick = s.tick := rfl
@[simp] theorem each_mem (p : Thread → Bool) (f : Thread → Thread) : (s.each p f).mem = s.mem := rfl
@[simp] theorem each_syn (p : Thread → Bool) (f : Thread → Thread) : (s.each p f).syn = s.syn := rfl
@[simp] theorem each_slots (p : Thread → Bool) (f : Thread → Thread) : (s.each p f).slots = s.slots := rfl
@[simp] theorem each_lts (p : Thread → Bool) (f : Thread → Thread) : (s.each p f).lts = s.lts := rfl
@[simp] theorem each_ots (p : Thread → Bool) (f : Thread → Thread) : (s.each p f).ots = s.ots := rfl
@[simp] theorem each_bankRel (p : Thread → Bool) (f : Thread → Thread) : (s.each p f).bankRel = s.bankRel := rfl
@[simp] theorem each_gtag (p : Thread → Bool) (f : Thread → Thread) : (s.each p f).gtag = s.gtag := rfl
@[simp] theorem each_groups (p : Thread → Bool) (f : Thread → Thread) : (s.each p f).groups = s.groups := rfl
@[simp] theorem each_paths (p : Thread → Bool) (f : Thread → Thread) : (s.each p f).paths = s.paths := rfl
@[simp] theorem each_teams (p : Thread → Bool) (f : Thread → Thread) : (s.each p f).teams = s.teams := rfl
@[simp] theorem each_launches (p : Thread → Bool) (f : Thread → Thread) : (s.each p f).launches = s.launches := rfl
@[simp] theorem each_queues (p : Thread → Bool) (f : Thread → Thread) : (s.each p f).queues = s.queues := rfl
@[simp] theorem each_ctxs (p : Thread → Bool) (f : Thread → Thread) : (s.each p f).ctxs = s.ctxs := rfl
@[simp] theorem each_l1 (p : Thread → Bool) (f : Thread → Thread) : (s.each p f).l1 = s.l1 := rfl
@[simp] theorem each_home (p : Thread → Bool) (f : Thread → Thread) : (s.each p f).home = s.home := rfl
@[simp] theorem each_ops (p : Thread → Bool) (f : Thread → Thread) : (s.each p f).ops = s.ops := rfl
@[simp] theorem each_items (p : Thread → Bool) (f : Thread → Thread) : (s.each p f).items = s.items := rfl
@[simp] theorem each_agenda (p : Thread → Bool) (f : Thread → Thread) : (s.each p f).agenda = s.agenda := rfl
@[simp] theorem each_dues (p : Thread → Bool) (f : Thread → Thread) : (s.each p f).dues = s.dues := rfl
@[simp] theorem each_gang (p : Thread → Bool) (f : Thread → Thread) : (s.each p f).gang = s.gang := rfl
@[simp] theorem each_issued (p : Thread → Bool) (f : Thread → Thread) : (s.each p f).issued = s.issued := rfl
@[simp] theorem each_nextId (p : Thread → Bool) (f : Thread → Thread) : (s.each p f).nextId = s.nextId := rfl
@[simp] theorem each_outbox (p : Thread → Bool) (f : Thread → Thread) : (s.each p f).outbox = s.outbox := rfl
@[simp] theorem each_mreqs (p : Thread → Bool) (f : Thread → Thread) : (s.each p f).mreqs = s.mreqs := rfl
@[simp] theorem each_parts (p : Thread → Bool) (f : Thread → Thread) : (s.each p f).parts = s.parts := rfl
@[simp] theorem each_cmds (p : Thread → Bool) (f : Thread → Thread) : (s.each p f).cmds = s.cmds := rfl
@[simp] theorem each_cmdsAt (p : Thread → Bool) (f : Thread → Thread) : (s.each p f).cmdsAt = s.cmdsAt := rfl
@[simp] theorem each_peg (p : Thread → Bool) (f : Thread → Thread) : (s.each p f).peg = s.peg := rfl

end Sys2Proof.Laws
end

