-- ==== Sys2Proof/Laws/Memory.lean ====
section
/-! SUPPORT. Every operation that changes memory keeps its canonical form: whole granules, the wiping of a region, a start. -/

namespace Sys2Proof.Laws

open Sys2Proof.Machine

variable {α : Type}

theorem rises_filter (d : α) (p : Nat × α → Bool) (m : SMap α) (lo : Nat) (h : Rises d lo m) : Rises d lo (m.filter p) := by
  induction m generalizing lo with
  | nil => exact h
  | cons e r ih =>
    obtain ⟨k, v⟩ := e
    obtain ⟨h1, h2, h3⟩ := h
    by_cases hp : p (k, v)
    · simp only [List.filter_cons, hp, if_true]; exact ⟨h1, h2, ih _ h3⟩
    · simp only [List.filter_cons, hp]; exact rises_mono d (by omega) _ (ih _ h3)

/-- A canonical map without some of its entries is canonical. -/
theorem wf_filter [DecidableEq α] (d : α) (p : Nat × α → Bool) (m : SMap α) (h : SMap.wf d m = true) : SMap.wf d (m.filter p) = true := by
  rw [wf_iff_rises] at h ⊢; exact rises_filter d p m 0 h

/-- A fold of steps that leave memory alone leaves it alone. -/
theorem foldl_mem {β : Type} (f : State → β → State) (hf : ∀ s b, (f s b).mem = s.mem) (l : List β) (s : State) : (l.foldl f s).mem = s.mem := by
  induction l generalizing s with
  | nil => rfl
  | cons x r ih => rw [List.foldl_cons, ih, hf]

theorem foldl_setSyn_mem (l : List (Nat × BitVec 16)) (s : State) (loc : Nat) :
    (l.foldl (fun s p => s.setSyn (loc + 32 * p.1) p.2) s).mem = s.mem := foldl_mem _ (fun _ _ => setSyn_mem ..) l s

@[simp] theorem setGranules_mem (s : State) (loc : Nat) (bs : List Byte) (ys : List (BitVec 16)) :
    (s.setGranules loc bs ys).mem = (s.setBytes loc bs).mem := foldl_setSyn_mem _ _ _

theorem setGranules_wf (s : State) (loc : Nat) (bs : List Byte) (ys : List (BitVec 16)) (h : Memory.wf s.mem = true) :
    Memory.wf (s.setGranules loc bs ys).mem = true := by
  rw [setGranules_mem]; exact setBytes_wf bs s loc h

theorem wipe_wf (s : State) (loc n : Nat) (h : Memory.wf s.mem = true) : Memory.wf (s.wipe loc n).mem = true := wf_filter _ _ _ h

theorem wipeUsed_wf (s : State) (c : Nat) (h : Memory.wf s.mem = true) : Memory.wf (s.wipeUsed c).mem = true := wf_filter _ _ _ h

@[simp] theorem closeBegun_mem (s : State) : s.closeBegun.mem = s.mem := by
  unfold State.closeBegun
  exact foldl_mem _ (fun s r => by dsimp only; split <;> rfl) _ s

theorem coldStart_wf (s : State) (h : Memory.wf s.mem = true) : Memory.wf s.coldStart.mem = true := by
  show Memory.wf (s.closeBegun.mem.filter _) = true
  rw [closeBegun_mem]; exact wf_filter _ _ _ h

end Sys2Proof.Laws
end

