-- ==== Sys2Proof/Laws/Operands.lean ====
section
/-! SUPPORT. What one issue over a gang can do to the threads: the shared operations of Operands.lean, each said once. -/

namespace Sys2Proof.Laws

open Sys2Proof.Machine Sys2Proof.Says

@[simp] theorem reg_setPhys (t : Thread) (n m : Nat) (x : Word) :
    reg (t.setPhys n x) m = if n = m then x else reg t m := by simp [reg, Thread.setPhys]

@[simp] theorem reg_setV (W k : Nat) (x : Word) (t : Thread) (m : Nat) :
    reg (Thread.setV W k x t) m = if physReg W t.depth k = m then x else reg t m := by simp [reg, Thread.setV]

@[simp] theorem next_regs (t : Thread) : t.next.regs = t.regs := by unfold Thread.next; repeat (first | rfl | split)
@[simp] theorem next_pois (t : Thread) : t.next.pois = t.pois := by unfold Thread.next; repeat (first | rfl | split)
@[simp] theorem next_fstat (t : Thread) : t.next.fstat = t.fstat := by unfold Thread.next; repeat (first | rfl | split)
@[simp] theorem next_preds (t : Thread) : t.next.preds = t.preds := by unfold Thread.next; repeat (first | rfl | split)
@[simp] theorem next_uid (t : Thread) : t.next.uid = t.uid := by unfold Thread.next; repeat (first | rfl | split)
@[simp] theorem next_depth (t : Thread) : t.next.depth = t.depth := by unfold Thread.next; repeat (first | rfl | split)

/-- Passing on touches neither registers, marks nor `FSTAT`, so it commutes with writing them. -/
theorem next_with (t : Thread) (r : SMap Word) (p : List Poison) (f : BitVec 6) :
    Thread.next { t with regs := r, pois := p, fstat := f } = { t.next with regs := r, pois := p, fstat := f } := by
  unfold Thread.next
  dsimp only
  split
  · rfl
  · split
    · split <;> rfl
    · rfl

/-- The same for predicates. -/
theorem next_withP (t : Thread) (q : BitVec 7) (f : BitVec 6) :
    Thread.next { t with preds := q, fstat := f } = { t.next with preds := q, fstat := f } := by
  unfold Thread.next
  dsimp only
  split
  · rfl
  · split
    · split <;> rfl
    · rfl

theorem each_only (s : State) (run : Thread → Bool) (f : Thread → Thread) : OnlyThreads s (s.each run f) := rfl

/-- One issue relates each thread of the gang to its image. -/
theorem each_threads (s : State) (run : Thread → Bool) (f : Thread → Thread) :
    EachThread s (s.each run f) fun a b => b = (if run a then f a else a).next := by
  unfold EachThread State.each
  rw [List.forall₂_map_right_iff, List.forall₂_same]
  intro a _
  by_cases h : a.uid ∈ s.gang <;> simp [h]

theorem eachThread_mono {s t : State} {R S : Thread → Thread → Prop} (h : EachThread s t R) (hrs : ∀ a b, R a b → S a b) :
    EachThread s t S := by
  refine List.Forall₂.imp (fun a b hab => ?_) h
  split at hab
  · next hg => rw [if_pos hg]; exact hrs a b hab
  · next hg => rw [if_neg hg]; exact hab

/-- Writing one register and flags, then passing on. -/
theorem wrote_setV (s : State) (d : BitVec 6) (x : Word) (fl : BitVec 6) (a : Thread) :
    Wrote (vAt s a d) x fl a ((Thread.setV (s.win a.tid) d.toNat x a).orFlags fl).next := by
  have e : ((Thread.setV (s.win a.tid) d.toNat x a).orFlags fl).next =
      { a.next with regs := SMap.put 0 (vAt s a d) x a.regs, pois := a.pois.filter fun q => q.reg != vAt s a d,
                    fstat := a.fstat ||| fl } := next_with a (SMap.put 0 (vAt s a d) x a.regs) (a.pois.filter fun q => q.reg != vAt s a d) (a.fstat ||| fl)
  refine ⟨?_, ?_, ?_, ?_⟩
  · rw [e]; simp [reg]
  · intro m hm; rw [e]; simp [reg, Ne.symm hm]
  · rw [e]
  · rw [e]

theorem writeVF_spec (s : State) (run : Thread → Bool) (d : BitVec 6) (f : Thread → Word × BitVec 6) :
    OnlyThreads s (s.writeVF run d f) ∧
    EachThread s (s.writeVF run d f) fun a b => if run a then Wrote (vAt s a d) (f a).1 (f a).2 a b else b = a.next := by
  refine ⟨rfl, eachThread_mono (each_threads s _ _) ?_⟩
  rintro a b rfl
  by_cases h : run a
  · simp only [h, if_true]; exact wrote_setV s d (f a).1 (f a).2 a
  · simp [h]

theorem orFlags_zero (t : Thread) : t.orFlags 0 = t := by simp [Thread.orFlags]

theorem writeVF_zero (s : State) (run : Thread → Bool) (d : BitVec 6) (f : Thread → Word) :
    s.writeVF run d (fun a => (f a, 0)) = s.each run fun t => t.setV (s.win t.tid) d.toNat (f t) := by
  simp only [State.writeVF, orFlags_zero]

/-- A guarded word that writes one register. -/
theorem writeV_spec (s : State) (p : BitVec 3) (d : BitVec 6) (f : Thread → Word) :
    OnlyThreads s (s.writeV p d f) ∧
    EachThread s (s.writeV p d f) fun a b => if a.p p then Wrote (vAt s a d) (f a) 0 a b else b = a.next := by
  have := writeVF_spec s (fun a => a.p p) d fun a => (f a, 0)
  rwa [writeVF_zero] at this

/-- An unguarded word that writes one register. -/
theorem writeAll_spec (s : State) (d : BitVec 6) (f : Thread → Word) :
    OnlyThreads s (s.writeAll d f) ∧
    EachThread s (s.writeAll d f) fun a b => if true then Wrote (vAt s a d) (f a) 0 a b else b = a.next := by
  have := writeVF_spec s (fun _ => true) d fun a => (f a, 0)
  rwa [writeVF_zero] at this

/-- Two registers in a row are different physical registers. -/
theorem physReg_succ (W d k : Nat) : physReg W d (k + 1) ≠ physReg W d k := by
  unfold physReg
  intro h
  have h1 := Nat.sub_mod_eq_zero_of_mod_eq h
  rw [show 48 * d + (k + 1) - (48 * d + k) = 1 by omega, Nat.mod_eq_of_lt (by omega)] at h1
  exact absurd h1 (by omega)

@[simp] theorem setV_depth (W k : Nat) (x : Word) (t : Thread) : (t.setV W k x).depth = t.depth := rfl

/-- Writing a pair, then passing on. -/
theorem wrotePair_putV (s : State) (d : BitVec 6) (hd : evenReg d) (x : BitVec 64) (a : Thread) :
    WrotePair (vAt s a d) (vAt s a (d + 1)) x a (s.putV d.toNat [x.extractLsb' 0 32, x.extractLsb' 32 32] a).next := by
  have hd1 : (d + 1).toNat = d.toNat + 1 := by
    have : d.getLsbD 0 = false := by simpa [evenReg] using hd
    have h2 : d.toNat % 2 = 0 := by
      have := congrArg Bool.toNat this
      simpa [BitVec.getLsbD, Nat.testBit] using this
    have := d.isLt
    rw [BitVec.toNat_add, show (1 : BitVec 6).toNat = 1 from rfl]; omega
  have hne := physReg_succ (s.win a.tid) a.depth d.toNat
  let n := vAt s a d
  have hm : vAt s a (d + 1) = physReg (s.win a.tid) a.depth (d.toNat + 1) := by rw [vAt, hd1]
  have e : (s.putV d.toNat [x.extractLsb' 0 32, x.extractLsb' 32 32] a).next =
      { a.next with
        regs := SMap.put 0 (vAt s a (d + 1)) (x.extractLsb' 32 32) (SMap.put 0 n (x.extractLsb' 0 32) a.regs),
        pois := (a.pois.filter fun q => q.reg != n).filter fun q => q.reg != vAt s a (d + 1), fstat := a.fstat } := by
    rw [hm]; exact next_with a _ _ a.fstat
  refine ⟨?_, ?_, ?_, ?_, ?_⟩
  · rw [e, hm]; simp [reg, hne, n, vAt]
  · rw [e]; simp [reg]
  · intro k h1 h2; rw [e]; generalize vAt s a (d + 1) = m at *; simp [reg, n, Ne.symm h1, Ne.symm h2]
  · rw [e]; simp [List.filter_filter, n, Bool.and_comm]
  · rw [e]; simp only [← next_fstat a]

theorem writePair_spec (s : State) (run : Thread → Bool) (d : BitVec 6) (hd : evenReg d) (f : Thread → BitVec 64) :
    OnlyThreads s (s.each run fun t => s.putV d.toNat [(f t).extractLsb' 0 32, (f t).extractLsb' 32 32] t) ∧
    EachThread s (s.each run fun t => s.putV d.toNat [(f t).extractLsb' 0 32, (f t).extractLsb' 32 32] t) fun a b =>
      if run a then WrotePair (vAt s a d) (vAt s a (d + 1)) (f a) a b else b = a.next := by
  refine ⟨rfl, eachThread_mono (each_threads s _ _) ?_⟩
  rintro a b rfl
  by_cases h : run a
  · simp only [h, if_true]; exact wrotePair_putV s d hd (f a) a
  · simp [h]

/-- Passing on alone. -/
theorem advance_pass (s : State) : OnlyThreads s s.advance ∧ PassOn s s.advance := by
  refine ⟨rfl, ?_⟩
  unfold PassOn EachThread State.advance State.modThreads
  rw [List.forall₂_map_right_iff, List.forall₂_same]
  intro a _
  by_cases h : a.uid ∈ s.gang <;> simp [h]

/-- Changing groups, then passing on. -/
theorem eachGroup_spec (s : State) (ts : List Thread) (f : Group → Thread → Group) :
    OnlyThreadsGroups s (s.eachGroup ts f).advance ∧ PassOn s (s.eachGroup ts f).advance ∧
    EachGroup s (s.eachGroup ts f).advance ts fun g u h => h = f g u := by
  refine ⟨rfl, ?_, ?_⟩
  · exact (advance_pass (s.eachGroup ts f)).2
  · unfold EachGroup State.eachGroup State.advance State.modThreads
    rw [List.forall₂_map_right_iff, List.forall₂_same]
    intro g _
    cases s.lowest ts g.gid <;> rfl

theorem wroteS_setS (n : Nat) (x : Word) (g : Group) : WroteS n x g (g.setS n x) := by
  refine ⟨?_, ?_, rfl, rfl⟩
  · simp [Group.setS]
  · intro m hm; simp [Group.setS, Ne.symm hm]

end Sys2Proof.Laws
end

