-- ==== Sys2Proof/Laws/PerInstr.lean ====
section
/-! SUPPORT. For each instruction: decoding its word gives it back (R35-R45). -/

namespace Sys2Proof.Laws

theorem wordSkip (m n : Nat) (x : BitVec n) (y : BitVec m) (s l : Nat) (h : m ≤ s) : (x ++ y).extractLsb' s l = x.extractLsb' (s - m) l :=
  BitVec.extractLsb'_append_eq_of_le h
theorem wordInner (m n : Nat) (x : BitVec n) (y : BitVec m) (s l : Nat) (h : s + l ≤ m) : (x ++ y).extractLsb' s l = y.extractLsb' s l :=
  BitVec.extractLsb'_append_eq_of_add_le h
theorem bitSkip (m n : Nat) (x : BitVec n) (y : BitVec m) (s : Nat) (h : m ≤ s) : (x ++ y).getLsbD s = x.getLsbD (s - m) := by
  rw [BitVec.getLsbD_append]; simp [Nat.not_lt.mpr h]
theorem bitInner (m n : Nat) (x : BitVec n) (y : BitVec m) (s : Nat) (h : s < m) : (x ++ y).getLsbD s = y.getLsbD s := by
  rw [BitVec.getLsbD_append]; simp [h]
theorem bitSelf (b : Bool) : (bit b).getLsbD 0 = b := by cases b <;> rfl

namespace RoundTrip

set_option linter.unusedSimpArgs false

/-- Decoding the word of a well-formed instruction gives it back. -/
def Statement (i : Instr) : Prop := ∀ w : Word, i.wf = true → encode i = some w → decodeWord w = .ok i

theorem noWord {i : Instr} (h : encode i = none) : Statement i := by
  intro w _ he; rw [h] at he; injection he

theorem clause (f : FH) : Statement (.clause f) := by
  intro w hw he
  injection he with he
  have h1 : w.extractLsb' 26 5 = 0#5 := by rw [← he]; simp (disch := decide) only [wordSkip, wordInner, BitVec.extractLsb'_eq_self, BitVec.reduceExtractLsb', Nat.reduceSub]
  unfold decodeWord Decode.read; rw [h1]
  show Decode.accept (Decode.major0 w) = _
  unfold Decode.major0
  rw [← he]
  simp (disch := decide) only [Decode.checked, Decode.accept, Decode.fixed, wordSkip, wordInner, bitSkip, bitInner, bitSelf, BitVec.extractLsb'_eq_self, BitVec.reduceExtractLsb', Nat.reduceSub]
  exact if_pos (by simpa using hw)

theorem bra (f : FJ) : Statement (.bra f) := by
  intro w hw he
  injection he with he
  have h1 : w.extractLsb' 26 5 = 1#5 := by rw [← he]; simp (disch := decide) only [wordSkip, wordInner, BitVec.extractLsb'_eq_self, BitVec.reduceExtractLsb', Nat.reduceSub]
  have h2 : w.extractLsb' 20 3 = 0#3 := by rw [← he]; simp (disch := decide) only [wordSkip, wordInner, BitVec.extractLsb'_eq_self, BitVec.reduceExtractLsb', Nat.reduceSub]
  unfold decodeWord Decode.read; rw [h1]
  show Decode.accept (Decode.major1 w) = _
  unfold Decode.major1; rw [h2]
  rw [← he]
  simp (disch := decide) only [Decode.checked, Decode.accept, Decode.fixed, wordSkip, wordInner, bitSkip, bitInner, bitSelf, BitVec.extractLsb'_eq_self, BitVec.reduceExtractLsb', Nat.reduceSub]
  exact if_pos (by simpa using hw)

theorem braNegated (f : FJ) : Statement (.braNegated f) := by
  intro w hw he
  injection he with he
  have h1 : w.extractLsb' 26 5 = 1#5 := by rw [← he]; simp (disch := decide) only [wordSkip, wordInner, BitVec.extractLsb'_eq_self, BitVec.reduceExtractLsb', Nat.reduceSub]
  have h2 : w.extractLsb' 20 3 = 1#3 := by rw [← he]; simp (disch := decide) only [wordSkip, wordInner, BitVec.extractLsb'_eq_self, BitVec.reduceExtractLsb', Nat.reduceSub]
  unfold decodeWord Decode.read; rw [h1]
  show Decode.accept (Decode.major1 w) = _
  unfold Decode.major1; rw [h2]
  rw [← he]
  simp (disch := decide) only [Decode.checked, Decode.accept, Decode.fixed, wordSkip, wordInner, bitSkip, bitInner, bitSelf, BitVec.extractLsb'_eq_self, BitVec.reduceExtractLsb', Nat.reduceSub]
  exact if_pos (by simpa using hw)

theorem call (f : FJ) : Statement (.call f) := by
  intro w hw he
  injection he with he
  have h1 : w.extractLsb' 26 5 = 1#5 := by rw [← he]; simp (disch := decide) only [wordSkip, wordInner, BitVec.extractLsb'_eq_self, BitVec.reduceExtractLsb', Nat.reduceSub]
  have h2 : w.extractLsb' 20 3 = 2#3 := by rw [← he]; simp (disch := decide) only [wordSkip, wordInner, BitVec.extractLsb'_eq_self, BitVec.reduceExtractLsb', Nat.reduceSub]
  unfold decodeWord Decode.read; rw [h1]
  show Decode.accept (Decode.major1 w) = _
  unfold Decode.major1; rw [h2]
  rw [← he]
  simp (disch := decide) only [Decode.checked, Decode.accept, Decode.fixed, wordSkip, wordInner, bitSkip, bitInner, bitSelf, BitVec.extractLsb'_eq_self, BitVec.reduceExtractLsb', Nat.reduceSub]
  exact if_pos (by simpa using hw)

theorem seam (f : FSeam) : Statement (.seam f) := by
  intro w hw he
  injection he with he
  have h1 : w.extractLsb' 26 5 = 1#5 := by rw [← he]; simp (disch := decide) only [wordSkip, wordInner, BitVec.extractLsb'_eq_self, BitVec.reduceExtractLsb', Nat.reduceSub]
  have h2 : w.extractLsb' 20 3 = 3#3 := by rw [← he]; simp (disch := decide) only [wordSkip, wordInner, BitVec.extractLsb'_eq_self, BitVec.reduceExtractLsb', Nat.reduceSub]
  unfold decodeWord Decode.read; rw [h1]
  show Decode.accept (Decode.major1 w) = _
  unfold Decode.major1; rw [h2]
  rw [← he]
  simp (disch := decide) only [Decode.checked, Decode.accept, Decode.fixed, wordSkip, wordInner, bitSkip, bitInner, bitSelf, BitVec.extractLsb'_eq_self, BitVec.reduceExtractLsb', Nat.reduceSub]
  exact if_pos (by simpa using hw)

theorem brx (f : FJX) : Statement (.brx f) := by
  intro w hw he
  injection he with he
  have h1 : w.extractLsb' 26 5 = 1#5 := by rw [← he]; simp (disch := decide) only [wordSkip, wordInner, BitVec.extractLsb'_eq_self, BitVec.reduceExtractLsb', Nat.reduceSub]
  have h2 : w.extractLsb' 20 3 = 4#3 := by rw [← he]; simp (disch := decide) only [wordSkip, wordInner, BitVec.extractLsb'_eq_self, BitVec.reduceExtractLsb', Nat.reduceSub]
  unfold decodeWord Decode.read; rw [h1]
  show Decode.accept (Decode.major1 w) = _
  unfold Decode.major1; rw [h2]
  rw [← he]
  simp (disch := decide) only [Decode.checked, Decode.accept, Decode.fixed, wordSkip, wordInner, bitSkip, bitInner, bitSelf, BitVec.extractLsb'_eq_self, BitVec.reduceExtractLsb', Nat.reduceSub]
  exact if_pos (by simpa using hw)

theorem callx (f : FJX) : Statement (.callx f) := by
  intro w hw he
  injection he with he
  have h1 : w.extractLsb' 26 5 = 1#5 := by rw [← he]; simp (disch := decide) only [wordSkip, wordInner, BitVec.extractLsb'_eq_self, BitVec.reduceExtractLsb', Nat.reduceSub]
  have h2 : w.extractLsb' 20 3 = 5#3 := by rw [← he]; simp (disch := decide) only [wordSkip, wordInner, BitVec.extractLsb'_eq_self, BitVec.reduceExtractLsb', Nat.reduceSub]
  unfold decodeWord Decode.read; rw [h1]
  show Decode.accept (Decode.major1 w) = _
  unfold Decode.major1; rw [h2]
  rw [← he]
  simp (disch := decide) only [Decode.checked, Decode.accept, Decode.fixed, wordSkip, wordInner, bitSkip, bitInner, bitSelf, BitVec.extractLsb'_eq_self, BitVec.reduceExtractLsb', Nat.reduceSub]
  exact if_pos (by simpa using hw)

theorem ret (f : FP) : Statement (.ret f) := by
  intro w hw he
  injection he with he
  have h1 : w.extractLsb' 26 5 = 1#5 := by rw [← he]; simp (disch := decide) only [wordSkip, wordInner, BitVec.extractLsb'_eq_self, BitVec.reduceExtractLsb', Nat.reduceSub]
  have h2 : w.extractLsb' 20 3 = 6#3 := by rw [← he]; simp (disch := decide) only [wordSkip, wordInner, BitVec.extractLsb'_eq_self, BitVec.reduceExtractLsb', Nat.reduceSub]
  unfold decodeWord Decode.read; rw [h1]
  show Decode.accept (Decode.major1 w) = _
  unfold Decode.major1; rw [h2]
  rw [← he]
  simp (disch := decide) only [Decode.checked, Decode.accept, Decode.fixed, wordSkip, wordInner, bitSkip, bitInner, bitSelf, BitVec.extractLsb'_eq_self, BitVec.reduceExtractLsb', Nat.reduceSub]
  exact if_pos (by simpa using hw)

theorem nop (f : FP) : Statement (.nop f) := by
  intro w hw he
  injection he with he
  have h1 : w.extractLsb' 26 5 = 2#5 := by rw [← he]; simp (disch := decide) only [wordSkip, wordInner, BitVec.extractLsb'_eq_self, BitVec.reduceExtractLsb', Nat.reduceSub]
  have h2 : w.extractLsb' 19 4 = 0#4 := by rw [← he]; simp (disch := decide) only [wordSkip, wordInner, BitVec.extractLsb'_eq_self, BitVec.reduceExtractLsb', Nat.reduceSub]
  unfold decodeWord Decode.read; rw [h1]
  show Decode.accept (Decode.major2 w) = _
  unfold Decode.major2; rw [h2]
  rw [← he]
  simp (disch := decide) only [Decode.checked, Decode.accept, Decode.fixed, wordSkip, wordInner, bitSkip, bitInner, bitSelf, BitVec.extractLsb'_eq_self, BitVec.reduceExtractLsb', Nat.reduceSub]
  exact if_pos (by simpa using hw)

theorem yield (f : FP) : Statement (.yield f) := by
  intro w hw he
  injection he with he
  have h1 : w.extractLsb' 26 5 = 2#5 := by rw [← he]; simp (disch := decide) only [wordSkip, wordInner, BitVec.extractLsb'_eq_self, BitVec.reduceExtractLsb', Nat.reduceSub]
  have h2 : w.extractLsb' 19 4 = 1#4 := by rw [← he]; simp (disch := decide) only [wordSkip, wordInner, BitVec.extractLsb'_eq_self, BitVec.reduceExtractLsb', Nat.reduceSub]
  unfold decodeWord Decode.read; rw [h1]
  show Decode.accept (Decode.major2 w) = _
  unfold Decode.major2; rw [h2]
  rw [← he]
  simp (disch := decide) only [Decode.checked, Decode.accept, Decode.fixed, wordSkip, wordInner, bitSkip, bitInner, bitSelf, BitVec.extractLsb'_eq_self, BitVec.reduceExtractLsb', Nat.reduceSub]
  exact if_pos (by simpa using hw)

theorem exit (f : FP) : Statement (.exit f) := by
  intro w hw he
  injection he with he
  have h1 : w.extractLsb' 26 5 = 2#5 := by rw [← he]; simp (disch := decide) only [wordSkip, wordInner, BitVec.extractLsb'_eq_self, BitVec.reduceExtractLsb', Nat.reduceSub]
  have h2 : w.extractLsb' 19 4 = 2#4 := by rw [← he]; simp (disch := decide) only [wordSkip, wordInner, BitVec.extractLsb'_eq_self, BitVec.reduceExtractLsb', Nat.reduceSub]
  unfold decodeWord Decode.read; rw [h1]
  show Decode.accept (Decode.major2 w) = _
  unfold Decode.major2; rw [h2]
  rw [← he]
  simp (disch := decide) only [Decode.checked, Decode.accept, Decode.fixed, wordSkip, wordInner, bitSkip, bitInner, bitSelf, BitVec.extractLsb'_eq_self, BitVec.reduceExtractLsb', Nat.reduceSub]
  exact if_pos (by simpa using hw)

theorem trap (f : FTrap) : Statement (.trap f) := by
  intro w hw he
  injection he with he
  have h1 : w.extractLsb' 26 5 = 2#5 := by rw [← he]; simp (disch := decide) only [wordSkip, wordInner, BitVec.extractLsb'_eq_self, BitVec.reduceExtractLsb', Nat.reduceSub]
  have h2 : w.extractLsb' 19 4 = 3#4 := by rw [← he]; simp (disch := decide) only [wordSkip, wordInner, BitVec.extractLsb'_eq_self, BitVec.reduceExtractLsb', Nat.reduceSub]
  unfold decodeWord Decode.read; rw [h1]
  show Decode.accept (Decode.major2 w) = _
  unfold Decode.major2; rw [h2]
  rw [← he]
  simp (disch := decide) only [Decode.checked, Decode.accept, Decode.fixed, wordSkip, wordInner, bitSkip, bitInner, bitSelf, BitVec.extractLsb'_eq_self, BitVec.reduceExtractLsb', Nat.reduceSub]
  exact if_pos (by simpa using hw)

theorem rft (f : FC) : Statement (.rft f) := by
  intro w hw he
  injection he with he
  have h1 : w.extractLsb' 26 5 = 2#5 := by rw [← he]; simp (disch := decide) only [wordSkip, wordInner, BitVec.extractLsb'_eq_self, BitVec.reduceExtractLsb', Nat.reduceSub]
  have h2 : w.extractLsb' 19 4 = 4#4 := by rw [← he]; simp (disch := decide) only [wordSkip, wordInner, BitVec.extractLsb'_eq_self, BitVec.reduceExtractLsb', Nat.reduceSub]
  unfold decodeWord Decode.read; rw [h1]
  show Decode.accept (Decode.major2 w) = _
  unfold Decode.major2; rw [h2]
  rw [← he]
  simp (disch := decide) only [Decode.checked, Decode.accept, Decode.fixed, wordSkip, wordInner, bitSkip, bitInner, bitSelf, BitVec.extractLsb'_eq_self, BitVec.reduceExtractLsb', Nat.reduceSub]
  exact if_pos (by simpa using hw)

theorem mon (f : FMon) : Statement (.mon f) := by
  intro w hw he
  injection he with he
  have h1 : w.extractLsb' 26 5 = 2#5 := by rw [← he]; simp (disch := decide) only [wordSkip, wordInner, BitVec.extractLsb'_eq_self, BitVec.reduceExtractLsb', Nat.reduceSub]
  have h2 : w.extractLsb' 19 4 = 5#4 := by rw [← he]; simp (disch := decide) only [wordSkip, wordInner, BitVec.extractLsb'_eq_self, BitVec.reduceExtractLsb', Nat.reduceSub]
  unfold decodeWord Decode.read; rw [h1]
  show Decode.accept (Decode.major2 w) = _
  unfold Decode.major2; rw [h2]
  rw [← he]
  simp (disch := decide) only [Decode.checked, Decode.accept, Decode.fixed, wordSkip, wordInner, bitSkip, bitInner, bitSelf, BitVec.extractLsb'_eq_self, BitVec.reduceExtractLsb', Nat.reduceSub]
  exact if_pos (by simpa using hw)

theorem mwait (f : FP) : Statement (.mwait f) := by
  intro w hw he
  injection he with he
  have h1 : w.extractLsb' 26 5 = 2#5 := by rw [← he]; simp (disch := decide) only [wordSkip, wordInner, BitVec.extractLsb'_eq_self, BitVec.reduceExtractLsb', Nat.reduceSub]
  have h2 : w.extractLsb' 19 4 = 6#4 := by rw [← he]; simp (disch := decide) only [wordSkip, wordInner, BitVec.extractLsb'_eq_self, BitVec.reduceExtractLsb', Nat.reduceSub]
  unfold decodeWord Decode.read; rw [h1]
  show Decode.accept (Decode.major2 w) = _
  unfold Decode.major2; rw [h2]
  rw [← he]
  simp (disch := decide) only [Decode.checked, Decode.accept, Decode.fixed, wordSkip, wordInner, bitSkip, bitInner, bitSelf, BitVec.extractLsb'_eq_self, BitVec.reduceExtractLsb', Nat.reduceSub]
  exact if_pos (by simpa using hw)

theorem fence (f : FFence) : Statement (.fence f) := by
  intro w hw he
  injection he with he
  have h1 : w.extractLsb' 26 5 = 2#5 := by rw [← he]; simp (disch := decide) only [wordSkip, wordInner, BitVec.extractLsb'_eq_self, BitVec.reduceExtractLsb', Nat.reduceSub]
  have h2 : w.extractLsb' 19 4 = 7#4 := by rw [← he]; simp (disch := decide) only [wordSkip, wordInner, BitVec.extractLsb'_eq_self, BitVec.reduceExtractLsb', Nat.reduceSub]
  unfold decodeWord Decode.read; rw [h1]
  show Decode.accept (Decode.major2 w) = _
  unfold Decode.major2; rw [h2]
  rw [← he]
  simp (disch := decide) only [Decode.checked, Decode.accept, Decode.fixed, wordSkip, wordInner, bitSkip, bitInner, bitSelf, BitVec.extractLsb'_eq_self, BitVec.reduceExtractLsb', Nat.reduceSub]
  exact if_pos (by simpa using hw)

theorem bkpt (f : FP) : Statement (.bkpt f) := by
  intro w hw he
  injection he with he
  have h1 : w.extractLsb' 26 5 = 2#5 := by rw [← he]; simp (disch := decide) only [wordSkip, wordInner, BitVec.extractLsb'_eq_self, BitVec.reduceExtractLsb', Nat.reduceSub]
  have h2 : w.extractLsb' 19 4 = 8#4 := by rw [← he]; simp (disch := decide) only [wordSkip, wordInner, BitVec.extractLsb'_eq_self, BitVec.reduceExtractLsb', Nat.reduceSub]
  unfold decodeWord Decode.read; rw [h1]
  show Decode.accept (Decode.major2 w) = _
  unfold Decode.major2; rw [h2]
  rw [← he]
  simp (disch := decide) only [Decode.checked, Decode.accept, Decode.fixed, wordSkip, wordInner, bitSkip, bitInner, bitSelf, BitVec.extractLsb'_eq_self, BitVec.reduceExtractLsb', Nat.reduceSub]
  exact if_pos (by simpa using hw)

theorem add (f : F3) : Statement (.add f) := by
  intro w hw he
  injection he with he
  have h1 : w.extractLsb' 26 5 = 3#5 := by rw [← he]; simp (disch := decide) only [wordSkip, wordInner, BitVec.extractLsb'_eq_self, BitVec.reduceExtractLsb', Nat.reduceSub]
  have h2 : w.extractLsb' 0 3 = 0#3 := by rw [← he]; simp (disch := decide) only [wordSkip, wordInner, BitVec.extractLsb'_eq_self, BitVec.reduceExtractLsb', Nat.reduceSub]
  unfold decodeWord Decode.read; rw [h1]
  show Decode.accept (Decode.major3 w) = _
  unfold Decode.major3; rw [h2]
  rw [← he]
  simp (disch := decide) only [Decode.checked, Decode.accept, Decode.fixed, wordSkip, wordInner, bitSkip, bitInner, bitSelf, BitVec.extractLsb'_eq_self, BitVec.reduceExtractLsb', Nat.reduceSub]
  exact if_pos (by simpa using hw)

theorem sub (f : F3) : Statement (.sub f) := by
  intro w hw he
  injection he with he
  have h1 : w.extractLsb' 26 5 = 3#5 := by rw [← he]; simp (disch := decide) only [wordSkip, wordInner, BitVec.extractLsb'_eq_self, BitVec.reduceExtractLsb', Nat.reduceSub]
  have h2 : w.extractLsb' 0 3 = 1#3 := by rw [← he]; simp (disch := decide) only [wordSkip, wordInner, BitVec.extractLsb'_eq_self, BitVec.reduceExtractLsb', Nat.reduceSub]
  unfold decodeWord Decode.read; rw [h1]
  show Decode.accept (Decode.major3 w) = _
  unfold Decode.major3; rw [h2]
  rw [← he]
  simp (disch := decide) only [Decode.checked, Decode.accept, Decode.fixed, wordSkip, wordInner, bitSkip, bitInner, bitSelf, BitVec.extractLsb'_eq_self, BitVec.reduceExtractLsb', Nat.reduceSub]
  exact if_pos (by simpa using hw)

theorem mullo (f : F3) : Statement (.mullo f) := by
  intro w hw he
  injection he with he
  have h1 : w.extractLsb' 26 5 = 3#5 := by rw [← he]; simp (disch := decide) only [wordSkip, wordInner, BitVec.extractLsb'_eq_self, BitVec.reduceExtractLsb', Nat.reduceSub]
  have h2 : w.extractLsb' 0 3 = 2#3 := by rw [← he]; simp (disch := decide) only [wordSkip, wordInner, BitVec.extractLsb'_eq_self, BitVec.reduceExtractLsb', Nat.reduceSub]
  unfold decodeWord Decode.read; rw [h1]
  show Decode.accept (Decode.major3 w) = _
  unfold Decode.major3; rw [h2]
  rw [← he]
  simp (disch := decide) only [Decode.checked, Decode.accept, Decode.fixed, wordSkip, wordInner, bitSkip, bitInner, bitSelf, BitVec.extractLsb'_eq_self, BitVec.reduceExtractLsb', Nat.reduceSub]
  exact if_pos (by simpa using hw)

theorem mulhiI (f : F3) : Statement (.mulhiI f) := by
  intro w hw he
  injection he with he
  have h1 : w.extractLsb' 26 5 = 3#5 := by rw [← he]; simp (disch := decide) only [wordSkip, wordInner, BitVec.extractLsb'_eq_self, BitVec.reduceExtractLsb', Nat.reduceSub]
  have h2 : w.extractLsb' 0 3 = 3#3 := by rw [← he]; simp (disch := decide) only [wordSkip, wordInner, BitVec.extractLsb'_eq_self, BitVec.reduceExtractLsb', Nat.reduceSub]
  unfold decodeWord Decode.read; rw [h1]
  show Decode.accept (Decode.major3 w) = _
  unfold Decode.major3; rw [h2]
  rw [← he]
  simp (disch := decide) only [Decode.checked, Decode.accept, Decode.fixed, wordSkip, wordInner, bitSkip, bitInner, bitSelf, BitVec.extractLsb'_eq_self, BitVec.reduceExtractLsb', Nat.reduceSub]
  exact if_pos (by simpa using hw)

theorem mulhiN (f : F3) : Statement (.mulhiN f) := by
  intro w hw he
  injection he with he
  have h1 : w.extractLsb' 26 5 = 3#5 := by rw [← he]; simp (disch := decide) only [wordSkip, wordInner, BitVec.extractLsb'_eq_self, BitVec.reduceExtractLsb', Nat.reduceSub]
  have h2 : w.extractLsb' 0 3 = 4#3 := by rw [← he]; simp (disch := decide) only [wordSkip, wordInner, BitVec.extractLsb'_eq_self, BitVec.reduceExtractLsb', Nat.reduceSub]
  unfold decodeWord Decode.read; rw [h1]
  show Decode.accept (Decode.major3 w) = _
  unfold Decode.major3; rw [h2]
  rw [← he]
  simp (disch := decide) only [Decode.checked, Decode.accept, Decode.fixed, wordSkip, wordInner, bitSkip, bitInner, bitSelf, BitVec.extractLsb'_eq_self, BitVec.reduceExtractLsb', Nat.reduceSub]
  exact if_pos (by simpa using hw)

theorem minI (f : F3) : Statement (.minI f) := by
  intro w hw he
  injection he with he
  have h1 : w.extractLsb' 26 5 = 3#5 := by rw [← he]; simp (disch := decide) only [wordSkip, wordInner, BitVec.extractLsb'_eq_self, BitVec.reduceExtractLsb', Nat.reduceSub]
  have h2 : w.extractLsb' 0 3 = 5#3 := by rw [← he]; simp (disch := decide) only [wordSkip, wordInner, BitVec.extractLsb'_eq_self, BitVec.reduceExtractLsb', Nat.reduceSub]
  unfold decodeWord Decode.read; rw [h1]
  show Decode.accept (Decode.major3 w) = _
  unfold Decode.major3; rw [h2]
  rw [← he]
  simp (disch := decide) only [Decode.checked, Decode.accept, Decode.fixed, wordSkip, wordInner, bitSkip, bitInner, bitSelf, BitVec.extractLsb'_eq_self, BitVec.reduceExtractLsb', Nat.reduceSub]
  exact if_pos (by simpa using hw)

theorem maxI (f : F3) : Statement (.maxI f) := by
  intro w hw he
  injection he with he
  have h1 : w.extractLsb' 26 5 = 3#5 := by rw [← he]; simp (disch := decide) only [wordSkip, wordInner, BitVec.extractLsb'_eq_self, BitVec.reduceExtractLsb', Nat.reduceSub]
  have h2 : w.extractLsb' 0 3 = 6#3 := by rw [← he]; simp (disch := decide) only [wordSkip, wordInner, BitVec.extractLsb'_eq_self, BitVec.reduceExtractLsb', Nat.reduceSub]
  unfold decodeWord Decode.read; rw [h1]
  show Decode.accept (Decode.major3 w) = _
  unfold Decode.major3; rw [h2]
  rw [← he]
  simp (disch := decide) only [Decode.checked, Decode.accept, Decode.fixed, wordSkip, wordInner, bitSkip, bitInner, bitSelf, BitVec.extractLsb'_eq_self, BitVec.reduceExtractLsb', Nat.reduceSub]
  exact if_pos (by simpa using hw)

theorem minN (f : F3) : Statement (.minN f) := by
  intro w hw he
  injection he with he
  have h1 : w.extractLsb' 26 5 = 3#5 := by rw [← he]; simp (disch := decide) only [wordSkip, wordInner, BitVec.extractLsb'_eq_self, BitVec.reduceExtractLsb', Nat.reduceSub]
  have h2 : w.extractLsb' 0 3 = 7#3 := by rw [← he]; simp (disch := decide) only [wordSkip, wordInner, BitVec.extractLsb'_eq_self, BitVec.reduceExtractLsb', Nat.reduceSub]
  unfold decodeWord Decode.read; rw [h1]
  show Decode.accept (Decode.major3 w) = _
  unfold Decode.major3; rw [h2]
  rw [← he]
  simp (disch := decide) only [Decode.checked, Decode.accept, Decode.fixed, wordSkip, wordInner, bitSkip, bitInner, bitSelf, BitVec.extractLsb'_eq_self, BitVec.reduceExtractLsb', Nat.reduceSub]
  exact if_pos (by simpa using hw)

theorem maxN (f : F3) : Statement (.maxN f) := by
  intro w hw he
  injection he with he
  have h1 : w.extractLsb' 26 5 = 4#5 := by rw [← he]; simp (disch := decide) only [wordSkip, wordInner, BitVec.extractLsb'_eq_self, BitVec.reduceExtractLsb', Nat.reduceSub]
  have h2 : w.extractLsb' 0 3 = 0#3 := by rw [← he]; simp (disch := decide) only [wordSkip, wordInner, BitVec.extractLsb'_eq_self, BitVec.reduceExtractLsb', Nat.reduceSub]
  unfold decodeWord Decode.read; rw [h1]
  show Decode.accept (Decode.major4 w) = _
  unfold Decode.major4; rw [h2]
  rw [← he]
  simp (disch := decide) only [Decode.checked, Decode.accept, Decode.fixed, wordSkip, wordInner, bitSkip, bitInner, bitSelf, BitVec.extractLsb'_eq_self, BitVec.reduceExtractLsb', Nat.reduceSub]
  exact if_pos (by simpa using hw)

theorem and (f : F3) : Statement (.and f) := by
  intro w hw he
  injection he with he
  have h1 : w.extractLsb' 26 5 = 4#5 := by rw [← he]; simp (disch := decide) only [wordSkip, wordInner, BitVec.extractLsb'_eq_self, BitVec.reduceExtractLsb', Nat.reduceSub]
  have h2 : w.extractLsb' 0 3 = 1#3 := by rw [← he]; simp (disch := decide) only [wordSkip, wordInner, BitVec.extractLsb'_eq_self, BitVec.reduceExtractLsb', Nat.reduceSub]
  unfold decodeWord Decode.read; rw [h1]
  show Decode.accept (Decode.major4 w) = _
  unfold Decode.major4; rw [h2]
  rw [← he]
  simp (disch := decide) only [Decode.checked, Decode.accept, Decode.fixed, wordSkip, wordInner, bitSkip, bitInner, bitSelf, BitVec.extractLsb'_eq_self, BitVec.reduceExtractLsb', Nat.reduceSub]
  exact if_pos (by simpa using hw)

theorem or (f : F3) : Statement (.or f) := by
  intro w hw he
  injection he with he
  have h1 : w.extractLsb' 26 5 = 4#5 := by rw [← he]; simp (disch := decide) only [wordSkip, wordInner, BitVec.extractLsb'_eq_self, BitVec.reduceExtractLsb', Nat.reduceSub]
  have h2 : w.extractLsb' 0 3 = 2#3 := by rw [← he]; simp (disch := decide) only [wordSkip, wordInner, BitVec.extractLsb'_eq_self, BitVec.reduceExtractLsb', Nat.reduceSub]
  unfold decodeWord Decode.read; rw [h1]
  show Decode.accept (Decode.major4 w) = _
  unfold Decode.major4; rw [h2]
  rw [← he]
  simp (disch := decide) only [Decode.checked, Decode.accept, Decode.fixed, wordSkip, wordInner, bitSkip, bitInner, bitSelf, BitVec.extractLsb'_eq_self, BitVec.reduceExtractLsb', Nat.reduceSub]
  exact if_pos (by simpa using hw)

theorem xor (f : F3) : Statement (.xor f) := by
  intro w hw he
  injection he with he
  have h1 : w.extractLsb' 26 5 = 4#5 := by rw [← he]; simp (disch := decide) only [wordSkip, wordInner, BitVec.extractLsb'_eq_self, BitVec.reduceExtractLsb', Nat.reduceSub]
  have h2 : w.extractLsb' 0 3 = 3#3 := by rw [← he]; simp (disch := decide) only [wordSkip, wordInner, BitVec.extractLsb'_eq_self, BitVec.reduceExtractLsb', Nat.reduceSub]
  unfold decodeWord Decode.read; rw [h1]
  show Decode.accept (Decode.major4 w) = _
  unfold Decode.major4; rw [h2]
  rw [← he]
  simp (disch := decide) only [Decode.checked, Decode.accept, Decode.fixed, wordSkip, wordInner, bitSkip, bitInner, bitSelf, BitVec.extractLsb'_eq_self, BitVec.reduceExtractLsb', Nat.reduceSub]
  exact if_pos (by simpa using hw)

theorem andn (f : F3) : Statement (.andn f) := by
  intro w hw he
  injection he with he
  have h1 : w.extractLsb' 26 5 = 4#5 := by rw [← he]; simp (disch := decide) only [wordSkip, wordInner, BitVec.extractLsb'_eq_self, BitVec.reduceExtractLsb', Nat.reduceSub]
  have h2 : w.extractLsb' 0 3 = 4#3 := by rw [← he]; simp (disch := decide) only [wordSkip, wordInner, BitVec.extractLsb'_eq_self, BitVec.reduceExtractLsb', Nat.reduceSub]
  unfold decodeWord Decode.read; rw [h1]
  show Decode.accept (Decode.major4 w) = _
  unfold Decode.major4; rw [h2]
  rw [← he]
  simp (disch := decide) only [Decode.checked, Decode.accept, Decode.fixed, wordSkip, wordInner, bitSkip, bitInner, bitSelf, BitVec.extractLsb'_eq_self, BitVec.reduceExtractLsb', Nat.reduceSub]
  exact if_pos (by simpa using hw)

theorem shl (f : F3) : Statement (.shl f) := by
  intro w hw he
  injection he with he
  have h1 : w.extractLsb' 26 5 = 4#5 := by rw [← he]; simp (disch := decide) only [wordSkip, wordInner, BitVec.extractLsb'_eq_self, BitVec.reduceExtractLsb', Nat.reduceSub]
  have h2 : w.extractLsb' 0 3 = 5#3 := by rw [← he]; simp (disch := decide) only [wordSkip, wordInner, BitVec.extractLsb'_eq_self, BitVec.reduceExtractLsb', Nat.reduceSub]
  unfold decodeWord Decode.read; rw [h1]
  show Decode.accept (Decode.major4 w) = _
  unfold Decode.major4; rw [h2]
  rw [← he]
  simp (disch := decide) only [Decode.checked, Decode.accept, Decode.fixed, wordSkip, wordInner, bitSkip, bitInner, bitSelf, BitVec.extractLsb'_eq_self, BitVec.reduceExtractLsb', Nat.reduceSub]
  exact if_pos (by simpa using hw)

theorem shr (f : F3) : Statement (.shr f) := by
  intro w hw he
  injection he with he
  have h1 : w.extractLsb' 26 5 = 4#5 := by rw [← he]; simp (disch := decide) only [wordSkip, wordInner, BitVec.extractLsb'_eq_self, BitVec.reduceExtractLsb', Nat.reduceSub]
  have h2 : w.extractLsb' 0 3 = 6#3 := by rw [← he]; simp (disch := decide) only [wordSkip, wordInner, BitVec.extractLsb'_eq_self, BitVec.reduceExtractLsb', Nat.reduceSub]
  unfold decodeWord Decode.read; rw [h1]
  show Decode.accept (Decode.major4 w) = _
  unfold Decode.major4; rw [h2]
  rw [← he]
  simp (disch := decide) only [Decode.checked, Decode.accept, Decode.fixed, wordSkip, wordInner, bitSkip, bitInner, bitSelf, BitVec.extractLsb'_eq_self, BitVec.reduceExtractLsb', Nat.reduceSub]
  exact if_pos (by simpa using hw)

theorem sar (f : F3) : Statement (.sar f) := by
  intro w hw he
  injection he with he
  have h1 : w.extractLsb' 26 5 = 4#5 := by rw [← he]; simp (disch := decide) only [wordSkip, wordInner, BitVec.extractLsb'_eq_self, BitVec.reduceExtractLsb', Nat.reduceSub]
  have h2 : w.extractLsb' 0 3 = 7#3 := by rw [← he]; simp (disch := decide) only [wordSkip, wordInner, BitVec.extractLsb'_eq_self, BitVec.reduceExtractLsb', Nat.reduceSub]
  unfold decodeWord Decode.read; rw [h1]
  show Decode.accept (Decode.major4 w) = _
  unfold Decode.major4; rw [h2]
  rw [← he]
  simp (disch := decide) only [Decode.checked, Decode.accept, Decode.fixed, wordSkip, wordInner, bitSkip, bitInner, bitSelf, BitVec.extractLsb'_eq_self, BitVec.reduceExtractLsb', Nat.reduceSub]
  exact if_pos (by simpa using hw)

theorem adds (f : F3) : Statement (.adds f) := by
  intro w hw he
  injection he with he
  have h1 : w.extractLsb' 26 5 = 5#5 := by rw [← he]; simp (disch := decide) only [wordSkip, wordInner, BitVec.extractLsb'_eq_self, BitVec.reduceExtractLsb', Nat.reduceSub]
  have h2 : w.extractLsb' 0 3 = 0#3 := by rw [← he]; simp (disch := decide) only [wordSkip, wordInner, BitVec.extractLsb'_eq_self, BitVec.reduceExtractLsb', Nat.reduceSub]
  unfold decodeWord Decode.read; rw [h1]
  show Decode.accept (Decode.major5 w) = _
  unfold Decode.major5; rw [h2]
  rw [← he]
  simp (disch := decide) only [Decode.checked, Decode.accept, Decode.fixed, wordSkip, wordInner, bitSkip, bitInner, bitSelf, BitVec.extractLsb'_eq_self, BitVec.reduceExtractLsb', Nat.reduceSub]
  exact if_pos (by simpa using hw)

theorem subs (f : F3) : Statement (.subs f) := by
  intro w hw he
  injection he with he
  have h1 : w.extractLsb' 26 5 = 5#5 := by rw [← he]; simp (disch := decide) only [wordSkip, wordInner, BitVec.extractLsb'_eq_self, BitVec.reduceExtractLsb', Nat.reduceSub]
  have h2 : w.extractLsb' 0 3 = 1#3 := by rw [← he]; simp (disch := decide) only [wordSkip, wordInner, BitVec.extractLsb'_eq_self, BitVec.reduceExtractLsb', Nat.reduceSub]
  unfold decodeWord Decode.read; rw [h1]
  show Decode.accept (Decode.major5 w) = _
  unfold Decode.major5; rw [h2]
  rw [← he]
  simp (disch := decide) only [Decode.checked, Decode.accept, Decode.fixed, wordSkip, wordInner, bitSkip, bitInner, bitSelf, BitVec.extractLsb'_eq_self, BitVec.reduceExtractLsb', Nat.reduceSub]
  exact if_pos (by simpa using hw)

theorem shrr (f : F3) : Statement (.shrr f) := by
  intro w hw he
  injection he with he
  have h1 : w.extractLsb' 26 5 = 5#5 := by rw [← he]; simp (disch := decide) only [wordSkip, wordInner, BitVec.extractLsb'_eq_self, BitVec.reduceExtractLsb', Nat.reduceSub]
  have h2 : w.extractLsb' 0 3 = 2#3 := by rw [← he]; simp (disch := decide) only [wordSkip, wordInner, BitVec.extractLsb'_eq_self, BitVec.reduceExtractLsb', Nat.reduceSub]
  unfold decodeWord Decode.read; rw [h1]
  show Decode.accept (Decode.major5 w) = _
  unfold Decode.major5; rw [h2]
  rw [← he]
  simp (disch := decide) only [Decode.checked, Decode.accept, Decode.fixed, wordSkip, wordInner, bitSkip, bitInner, bitSelf, BitVec.extractLsb'_eq_self, BitVec.reduceExtractLsb', Nat.reduceSub]
  exact if_pos (by simpa using hw)

theorem popc (f : F2) : Statement (.popc f) := by
  intro w hw he
  injection he with he
  have h1 : w.extractLsb' 26 5 = 5#5 := by rw [← he]; simp (disch := decide) only [wordSkip, wordInner, BitVec.extractLsb'_eq_self, BitVec.reduceExtractLsb', Nat.reduceSub]
  have h2 : w.extractLsb' 0 3 = 3#3 := by rw [← he]; simp (disch := decide) only [wordSkip, wordInner, BitVec.extractLsb'_eq_self, BitVec.reduceExtractLsb', Nat.reduceSub]
  unfold decodeWord Decode.read; rw [h1]
  show Decode.accept (Decode.major5 w) = _
  unfold Decode.major5; rw [h2]
  rw [← he]
  simp (disch := decide) only [Decode.checked, Decode.accept, Decode.fixed, wordSkip, wordInner, bitSkip, bitInner, bitSelf, BitVec.extractLsb'_eq_self, BitVec.reduceExtractLsb', Nat.reduceSub]
  exact if_pos (by simpa using hw)

theorem clz (f : F2) : Statement (.clz f) := by
  intro w hw he
  injection he with he
  have h1 : w.extractLsb' 26 5 = 5#5 := by rw [← he]; simp (disch := decide) only [wordSkip, wordInner, BitVec.extractLsb'_eq_self, BitVec.reduceExtractLsb', Nat.reduceSub]
  have h2 : w.extractLsb' 0 3 = 4#3 := by rw [← he]; simp (disch := decide) only [wordSkip, wordInner, BitVec.extractLsb'_eq_self, BitVec.reduceExtractLsb', Nat.reduceSub]
  unfold decodeWord Decode.read; rw [h1]
  show Decode.accept (Decode.major5 w) = _
  unfold Decode.major5; rw [h2]
  rw [← he]
  simp (disch := decide) only [Decode.checked, Decode.accept, Decode.fixed, wordSkip, wordInner, bitSkip, bitInner, bitSelf, BitVec.extractLsb'_eq_self, BitVec.reduceExtractLsb', Nat.reduceSub]
  exact if_pos (by simpa using hw)

theorem bfe (f : F3) : Statement (.bfe f) := by
  intro w hw he
  injection he with he
  have h1 : w.extractLsb' 26 5 = 5#5 := by rw [← he]; simp (disch := decide) only [wordSkip, wordInner, BitVec.extractLsb'_eq_self, BitVec.reduceExtractLsb', Nat.reduceSub]
  have h2 : w.extractLsb' 0 3 = 5#3 := by rw [← he]; simp (disch := decide) only [wordSkip, wordInner, BitVec.extractLsb'_eq_self, BitVec.reduceExtractLsb', Nat.reduceSub]
  unfold decodeWord Decode.read; rw [h1]
  show Decode.accept (Decode.major5 w) = _
  unfold Decode.major5; rw [h2]
  rw [← he]
  simp (disch := decide) only [Decode.checked, Decode.accept, Decode.fixed, wordSkip, wordInner, bitSkip, bitInner, bitSelf, BitVec.extractLsb'_eq_self, BitVec.reduceExtractLsb', Nat.reduceSub]
  exact if_pos (by simpa using hw)

theorem addw (f : F3) : Statement (.addw f) := by
  intro w hw he
  injection he with he
  have h1 : w.extractLsb' 26 5 = 5#5 := by rw [← he]; simp (disch := decide) only [wordSkip, wordInner, BitVec.extractLsb'_eq_self, BitVec.reduceExtractLsb', Nat.reduceSub]
  have h2 : w.extractLsb' 0 3 = 6#3 := by rw [← he]; simp (disch := decide) only [wordSkip, wordInner, BitVec.extractLsb'_eq_self, BitVec.reduceExtractLsb', Nat.reduceSub]
  unfold decodeWord Decode.read; rw [h1]
  show Decode.accept (Decode.major5 w) = _
  unfold Decode.major5; rw [h2]
  rw [← he]
  simp (disch := decide) only [Decode.checked, Decode.accept, Decode.fixed, wordSkip, wordInner, bitSkip, bitInner, bitSelf, BitVec.extractLsb'_eq_self, BitVec.reduceExtractLsb', Nat.reduceSub]
  exact if_pos (by simpa using hw)

theorem mulw (f : F3) : Statement (.mulw f) := by
  intro w hw he
  injection he with he
  have h1 : w.extractLsb' 26 5 = 5#5 := by rw [← he]; simp (disch := decide) only [wordSkip, wordInner, BitVec.extractLsb'_eq_self, BitVec.reduceExtractLsb', Nat.reduceSub]
  have h2 : w.extractLsb' 0 3 = 7#3 := by rw [← he]; simp (disch := decide) only [wordSkip, wordInner, BitVec.extractLsb'_eq_self, BitVec.reduceExtractLsb', Nat.reduceSub]
  unfold decodeWord Decode.read; rw [h1]
  show Decode.accept (Decode.major5 w) = _
  unfold Decode.major5; rw [h2]
  rw [← he]
  simp (disch := decide) only [Decode.checked, Decode.accept, Decode.fixed, wordSkip, wordInner, bitSkip, bitInner, bitSelf, BitVec.extractLsb'_eq_self, BitVec.reduceExtractLsb', Nat.reduceSub]
  exact if_pos (by simpa using hw)

theorem ffmaF32 (f : F4) : Statement (.ffmaF32 f) := by
  intro w hw he
  injection he with he
  have h1 : w.extractLsb' 26 5 = 6#5 := by rw [← he]; simp (disch := decide) only [wordSkip, wordInner, BitVec.extractLsb'_eq_self, BitVec.reduceExtractLsb', Nat.reduceSub]
  unfold decodeWord Decode.read; rw [h1]
  show Decode.accept (Decode.major6 w) = _
  unfold Decode.major6
  rw [← he]
  simp (disch := decide) only [Decode.checked, Decode.accept, Decode.fixed, wordSkip, wordInner, bitSkip, bitInner, bitSelf, BitVec.extractLsb'_eq_self, BitVec.reduceExtractLsb', Nat.reduceSub]
  exact if_pos (by simpa using hw)

theorem ffmaF16x2 (f : F4) : Statement (.ffmaF16x2 f) := by
  intro w hw he
  injection he with he
  have h1 : w.extractLsb' 26 5 = 7#5 := by rw [← he]; simp (disch := decide) only [wordSkip, wordInner, BitVec.extractLsb'_eq_self, BitVec.reduceExtractLsb', Nat.reduceSub]
  unfold decodeWord Decode.read; rw [h1]
  show Decode.accept (Decode.major7 w) = _
  unfold Decode.major7
  rw [← he]
  simp (disch := decide) only [Decode.checked, Decode.accept, Decode.fixed, wordSkip, wordInner, bitSkip, bitInner, bitSelf, BitVec.extractLsb'_eq_self, BitVec.reduceExtractLsb', Nat.reduceSub]
  exact if_pos (by simpa using hw)

theorem ffmaBf16x2 (f : F4) : Statement (.ffmaBf16x2 f) := by
  intro w hw he
  injection he with he
  have h1 : w.extractLsb' 26 5 = 8#5 := by rw [← he]; simp (disch := decide) only [wordSkip, wordInner, BitVec.extractLsb'_eq_self, BitVec.reduceExtractLsb', Nat.reduceSub]
  unfold decodeWord Decode.read; rw [h1]
  show Decode.accept (Decode.major8 w) = _
  unfold Decode.major8
  rw [← he]
  simp (disch := decide) only [Decode.checked, Decode.accept, Decode.fixed, wordSkip, wordInner, bitSkip, bitInner, bitSelf, BitVec.extractLsb'_eq_self, BitVec.reduceExtractLsb', Nat.reduceSub]
  exact if_pos (by simpa using hw)

theorem madI32 (f : F4) : Statement (.madI32 f) := by
  intro w hw he
  injection he with he
  have h1 : w.extractLsb' 26 5 = 9#5 := by rw [← he]; simp (disch := decide) only [wordSkip, wordInner, BitVec.extractLsb'_eq_self, BitVec.reduceExtractLsb', Nat.reduceSub]
  unfold decodeWord Decode.read; rw [h1]
  show Decode.accept (Decode.major9 w) = _
  unfold Decode.major9
  rw [← he]
  simp (disch := decide) only [Decode.checked, Decode.accept, Decode.fixed, wordSkip, wordInner, bitSkip, bitInner, bitSelf, BitVec.extractLsb'_eq_self, BitVec.reduceExtractLsb', Nat.reduceSub]
  exact if_pos (by simpa using hw)

theorem dot2I16 (f : F4) : Statement (.dot2I16 f) := by
  intro w hw he
  injection he with he
  have h1 : w.extractLsb' 26 5 = 10#5 := by rw [← he]; simp (disch := decide) only [wordSkip, wordInner, BitVec.extractLsb'_eq_self, BitVec.reduceExtractLsb', Nat.reduceSub]
  unfold decodeWord Decode.read; rw [h1]
  show Decode.accept (Decode.major10 w) = _
  unfold Decode.major10
  rw [← he]
  simp (disch := decide) only [Decode.checked, Decode.accept, Decode.fixed, wordSkip, wordInner, bitSkip, bitInner, bitSelf, BitVec.extractLsb'_eq_self, BitVec.reduceExtractLsb', Nat.reduceSub]
  exact if_pos (by simpa using hw)

theorem dot4I8 (f : F4) : Statement (.dot4I8 f) := by
  intro w hw he
  injection he with he
  have h1 : w.extractLsb' 26 5 = 11#5 := by rw [← he]; simp (disch := decide) only [wordSkip, wordInner, BitVec.extractLsb'_eq_self, BitVec.reduceExtractLsb', Nat.reduceSub]
  unfold decodeWord Decode.read; rw [h1]
  show Decode.accept (Decode.major11 w) = _
  unfold Decode.major11
  rw [← he]
  simp (disch := decide) only [Decode.checked, Decode.accept, Decode.fixed, wordSkip, wordInner, bitSkip, bitInner, bitSelf, BitVec.extractLsb'_eq_self, BitVec.reduceExtractLsb', Nat.reduceSub]
  exact if_pos (by simpa using hw)

theorem faddF32 (f : F3) : Statement (.faddF32 f) := by
  intro w hw he
  injection he with he
  have h1 : w.extractLsb' 26 5 = 12#5 := by rw [← he]; simp (disch := decide) only [wordSkip, wordInner, BitVec.extractLsb'_eq_self, BitVec.reduceExtractLsb', Nat.reduceSub]
  have h2 : w.extractLsb' 0 3 = 0#3 := by rw [← he]; simp (disch := decide) only [wordSkip, wordInner, BitVec.extractLsb'_eq_self, BitVec.reduceExtractLsb', Nat.reduceSub]
  unfold decodeWord Decode.read; rw [h1]
  show Decode.accept (Decode.major12 w) = _
  unfold Decode.major12; rw [h2]
  rw [← he]
  simp (disch := decide) only [Decode.checked, Decode.accept, Decode.fixed, wordSkip, wordInner, bitSkip, bitInner, bitSelf, BitVec.extractLsb'_eq_self, BitVec.reduceExtractLsb', Nat.reduceSub]
  exact if_pos (by simpa using hw)

theorem fmulF32 (f : F3) : Statement (.fmulF32 f) := by
  intro w hw he
  injection he with he
  have h1 : w.extractLsb' 26 5 = 12#5 := by rw [← he]; simp (disch := decide) only [wordSkip, wordInner, BitVec.extractLsb'_eq_self, BitVec.reduceExtractLsb', Nat.reduceSub]
  have h2 : w.extractLsb' 0 3 = 1#3 := by rw [← he]; simp (disch := decide) only [wordSkip, wordInner, BitVec.extractLsb'_eq_self, BitVec.reduceExtractLsb', Nat.reduceSub]
  unfold decodeWord Decode.read; rw [h1]
  show Decode.accept (Decode.major12 w) = _
  unfold Decode.major12; rw [h2]
  rw [← he]
  simp (disch := decide) only [Decode.checked, Decode.accept, Decode.fixed, wordSkip, wordInner, bitSkip, bitInner, bitSelf, BitVec.extractLsb'_eq_self, BitVec.reduceExtractLsb', Nat.reduceSub]
  exact if_pos (by simpa using hw)

theorem fminF32 (f : F3) : Statement (.fminF32 f) := by
  intro w hw he
  injection he with he
  have h1 : w.extractLsb' 26 5 = 12#5 := by rw [← he]; simp (disch := decide) only [wordSkip, wordInner, BitVec.extractLsb'_eq_self, BitVec.reduceExtractLsb', Nat.reduceSub]
  have h2 : w.extractLsb' 0 3 = 2#3 := by rw [← he]; simp (disch := decide) only [wordSkip, wordInner, BitVec.extractLsb'_eq_self, BitVec.reduceExtractLsb', Nat.reduceSub]
  unfold decodeWord Decode.read; rw [h1]
  show Decode.accept (Decode.major12 w) = _
  unfold Decode.major12; rw [h2]
  rw [← he]
  simp (disch := decide) only [Decode.checked, Decode.accept, Decode.fixed, wordSkip, wordInner, bitSkip, bitInner, bitSelf, BitVec.extractLsb'_eq_self, BitVec.reduceExtractLsb', Nat.reduceSub]
  exact if_pos (by simpa using hw)

theorem fmaxF32 (f : F3) : Statement (.fmaxF32 f) := by
  intro w hw he
  injection he with he
  have h1 : w.extractLsb' 26 5 = 12#5 := by rw [← he]; simp (disch := decide) only [wordSkip, wordInner, BitVec.extractLsb'_eq_self, BitVec.reduceExtractLsb', Nat.reduceSub]
  have h2 : w.extractLsb' 0 3 = 3#3 := by rw [← he]; simp (disch := decide) only [wordSkip, wordInner, BitVec.extractLsb'_eq_self, BitVec.reduceExtractLsb', Nat.reduceSub]
  unfold decodeWord Decode.read; rw [h1]
  show Decode.accept (Decode.major12 w) = _
  unfold Decode.major12; rw [h2]
  rw [← he]
  simp (disch := decide) only [Decode.checked, Decode.accept, Decode.fixed, wordSkip, wordInner, bitSkip, bitInner, bitSelf, BitVec.extractLsb'_eq_self, BitVec.reduceExtractLsb', Nat.reduceSub]
  exact if_pos (by simpa using hw)

theorem faddF16x2 (f : F3) : Statement (.faddF16x2 f) := by
  intro w hw he
  injection he with he
  have h1 : w.extractLsb' 26 5 = 12#5 := by rw [← he]; simp (disch := decide) only [wordSkip, wordInner, BitVec.extractLsb'_eq_self, BitVec.reduceExtractLsb', Nat.reduceSub]
  have h2 : w.extractLsb' 0 3 = 4#3 := by rw [← he]; simp (disch := decide) only [wordSkip, wordInner, BitVec.extractLsb'_eq_self, BitVec.reduceExtractLsb', Nat.reduceSub]
  unfold decodeWord Decode.read; rw [h1]
  show Decode.accept (Decode.major12 w) = _
  unfold Decode.major12; rw [h2]
  rw [← he]
  simp (disch := decide) only [Decode.checked, Decode.accept, Decode.fixed, wordSkip, wordInner, bitSkip, bitInner, bitSelf, BitVec.extractLsb'_eq_self, BitVec.reduceExtractLsb', Nat.reduceSub]
  exact if_pos (by simpa using hw)

theorem fmulF16x2 (f : F3) : Statement (.fmulF16x2 f) := by
  intro w hw he
  injection he with he
  have h1 : w.extractLsb' 26 5 = 12#5 := by rw [← he]; simp (disch := decide) only [wordSkip, wordInner, BitVec.extractLsb'_eq_self, BitVec.reduceExtractLsb', Nat.reduceSub]
  have h2 : w.extractLsb' 0 3 = 5#3 := by rw [← he]; simp (disch := decide) only [wordSkip, wordInner, BitVec.extractLsb'_eq_self, BitVec.reduceExtractLsb', Nat.reduceSub]
  unfold decodeWord Decode.read; rw [h1]
  show Decode.accept (Decode.major12 w) = _
  unfold Decode.major12; rw [h2]
  rw [← he]
  simp (disch := decide) only [Decode.checked, Decode.accept, Decode.fixed, wordSkip, wordInner, bitSkip, bitInner, bitSelf, BitVec.extractLsb'_eq_self, BitVec.reduceExtractLsb', Nat.reduceSub]
  exact if_pos (by simpa using hw)

theorem faddBf16x2 (f : F3) : Statement (.faddBf16x2 f) := by
  intro w hw he
  injection he with he
  have h1 : w.extractLsb' 26 5 = 12#5 := by rw [← he]; simp (disch := decide) only [wordSkip, wordInner, BitVec.extractLsb'_eq_self, BitVec.reduceExtractLsb', Nat.reduceSub]
  have h2 : w.extractLsb' 0 3 = 6#3 := by rw [← he]; simp (disch := decide) only [wordSkip, wordInner, BitVec.extractLsb'_eq_self, BitVec.reduceExtractLsb', Nat.reduceSub]
  unfold decodeWord Decode.read; rw [h1]
  show Decode.accept (Decode.major12 w) = _
  unfold Decode.major12; rw [h2]
  rw [← he]
  simp (disch := decide) only [Decode.checked, Decode.accept, Decode.fixed, wordSkip, wordInner, bitSkip, bitInner, bitSelf, BitVec.extractLsb'_eq_self, BitVec.reduceExtractLsb', Nat.reduceSub]
  exact if_pos (by simpa using hw)

theorem fmulBf16x2 (f : F3) : Statement (.fmulBf16x2 f) := by
  intro w hw he
  injection he with he
  have h1 : w.extractLsb' 26 5 = 12#5 := by rw [← he]; simp (disch := decide) only [wordSkip, wordInner, BitVec.extractLsb'_eq_self, BitVec.reduceExtractLsb', Nat.reduceSub]
  have h2 : w.extractLsb' 0 3 = 7#3 := by rw [← he]; simp (disch := decide) only [wordSkip, wordInner, BitVec.extractLsb'_eq_self, BitVec.reduceExtractLsb', Nat.reduceSub]
  unfold decodeWord Decode.read; rw [h1]
  show Decode.accept (Decode.major12 w) = _
  unfold Decode.major12; rw [h2]
  rw [← he]
  simp (disch := decide) only [Decode.checked, Decode.accept, Decode.fixed, wordSkip, wordInner, bitSkip, bitInner, bitSelf, BitVec.extractLsb'_eq_self, BitVec.reduceExtractLsb', Nat.reduceSub]
  exact if_pos (by simpa using hw)

theorem setp (f : FSetp) : Statement (.setp f) := by
  intro w hw he
  injection he with he
  have h1 : w.extractLsb' 26 5 = 13#5 := by rw [← he]; simp (disch := decide) only [wordSkip, wordInner, BitVec.extractLsb'_eq_self, BitVec.reduceExtractLsb', Nat.reduceSub]
  unfold decodeWord Decode.read; rw [h1]
  show Decode.accept (Decode.major13 w) = _
  unfold Decode.major13
  rw [← he]
  simp (disch := decide) only [Decode.checked, Decode.accept, Decode.fixed, wordSkip, wordInner, bitSkip, bitInner, bitSelf, BitVec.extractLsb'_eq_self, BitVec.reduceExtractLsb', Nat.reduceSub]
  exact if_pos (by simpa using hw)

theorem rcp (f : F2) : Statement (.rcp f) := by
  intro w hw he
  injection he with he
  have h1 : w.extractLsb' 26 5 = 14#5 := by rw [← he]; simp (disch := decide) only [wordSkip, wordInner, BitVec.extractLsb'_eq_self, BitVec.reduceExtractLsb', Nat.reduceSub]
  have h2 : w.extractLsb' 0 3 = 0#3 := by rw [← he]; simp (disch := decide) only [wordSkip, wordInner, BitVec.extractLsb'_eq_self, BitVec.reduceExtractLsb', Nat.reduceSub]
  unfold decodeWord Decode.read; rw [h1]
  show Decode.accept (Decode.major14 w) = _
  unfold Decode.major14; rw [h2]
  rw [← he]
  simp (disch := decide) only [Decode.checked, Decode.accept, Decode.fixed, wordSkip, wordInner, bitSkip, bitInner, bitSelf, BitVec.extractLsb'_eq_self, BitVec.reduceExtractLsb', Nat.reduceSub]
  exact if_pos (by simpa using hw)

theorem rsq (f : F2) : Statement (.rsq f) := by
  intro w hw he
  injection he with he
  have h1 : w.extractLsb' 26 5 = 14#5 := by rw [← he]; simp (disch := decide) only [wordSkip, wordInner, BitVec.extractLsb'_eq_self, BitVec.reduceExtractLsb', Nat.reduceSub]
  have h2 : w.extractLsb' 0 3 = 1#3 := by rw [← he]; simp (disch := decide) only [wordSkip, wordInner, BitVec.extractLsb'_eq_self, BitVec.reduceExtractLsb', Nat.reduceSub]
  unfold decodeWord Decode.read; rw [h1]
  show Decode.accept (Decode.major14 w) = _
  unfold Decode.major14; rw [h2]
  rw [← he]
  simp (disch := decide) only [Decode.checked, Decode.accept, Decode.fixed, wordSkip, wordInner, bitSkip, bitInner, bitSelf, BitVec.extractLsb'_eq_self, BitVec.reduceExtractLsb', Nat.reduceSub]
  exact if_pos (by simpa using hw)

theorem sqrt (f : F2) : Statement (.sqrt f) := by
  intro w hw he
  injection he with he
  have h1 : w.extractLsb' 26 5 = 14#5 := by rw [← he]; simp (disch := decide) only [wordSkip, wordInner, BitVec.extractLsb'_eq_self, BitVec.reduceExtractLsb', Nat.reduceSub]
  have h2 : w.extractLsb' 0 3 = 2#3 := by rw [← he]; simp (disch := decide) only [wordSkip, wordInner, BitVec.extractLsb'_eq_self, BitVec.reduceExtractLsb', Nat.reduceSub]
  unfold decodeWord Decode.read; rw [h1]
  show Decode.accept (Decode.major14 w) = _
  unfold Decode.major14; rw [h2]
  rw [← he]
  simp (disch := decide) only [Decode.checked, Decode.accept, Decode.fixed, wordSkip, wordInner, bitSkip, bitInner, bitSelf, BitVec.extractLsb'_eq_self, BitVec.reduceExtractLsb', Nat.reduceSub]
  exact if_pos (by simpa using hw)

theorem exp2 (f : F2) : Statement (.exp2 f) := by
  intro w hw he
  injection he with he
  have h1 : w.extractLsb' 26 5 = 14#5 := by rw [← he]; simp (disch := decide) only [wordSkip, wordInner, BitVec.extractLsb'_eq_self, BitVec.reduceExtractLsb', Nat.reduceSub]
  have h2 : w.extractLsb' 0 3 = 3#3 := by rw [← he]; simp (disch := decide) only [wordSkip, wordInner, BitVec.extractLsb'_eq_self, BitVec.reduceExtractLsb', Nat.reduceSub]
  unfold decodeWord Decode.read; rw [h1]
  show Decode.accept (Decode.major14 w) = _
  unfold Decode.major14; rw [h2]
  rw [← he]
  simp (disch := decide) only [Decode.checked, Decode.accept, Decode.fixed, wordSkip, wordInner, bitSkip, bitInner, bitSelf, BitVec.extractLsb'_eq_self, BitVec.reduceExtractLsb', Nat.reduceSub]
  exact if_pos (by simpa using hw)

theorem log2 (f : F2) : Statement (.log2 f) := by
  intro w hw he
  injection he with he
  have h1 : w.extractLsb' 26 5 = 14#5 := by rw [← he]; simp (disch := decide) only [wordSkip, wordInner, BitVec.extractLsb'_eq_self, BitVec.reduceExtractLsb', Nat.reduceSub]
  have h2 : w.extractLsb' 0 3 = 4#3 := by rw [← he]; simp (disch := decide) only [wordSkip, wordInner, BitVec.extractLsb'_eq_self, BitVec.reduceExtractLsb', Nat.reduceSub]
  unfold decodeWord Decode.read; rw [h1]
  show Decode.accept (Decode.major14 w) = _
  unfold Decode.major14; rw [h2]
  rw [← he]
  simp (disch := decide) only [Decode.checked, Decode.accept, Decode.fixed, wordSkip, wordInner, bitSkip, bitInner, bitSelf, BitVec.extractLsb'_eq_self, BitVec.reduceExtractLsb', Nat.reduceSub]
  exact if_pos (by simpa using hw)

theorem tanh (f : F2) : Statement (.tanh f) := by
  intro w hw he
  injection he with he
  have h1 : w.extractLsb' 26 5 = 14#5 := by rw [← he]; simp (disch := decide) only [wordSkip, wordInner, BitVec.extractLsb'_eq_self, BitVec.reduceExtractLsb', Nat.reduceSub]
  have h2 : w.extractLsb' 0 3 = 5#3 := by rw [← he]; simp (disch := decide) only [wordSkip, wordInner, BitVec.extractLsb'_eq_self, BitVec.reduceExtractLsb', Nat.reduceSub]
  unfold decodeWord Decode.read; rw [h1]
  show Decode.accept (Decode.major14 w) = _
  unfold Decode.major14; rw [h2]
  rw [← he]
  simp (disch := decide) only [Decode.checked, Decode.accept, Decode.fixed, wordSkip, wordInner, bitSkip, bitInner, bitSelf, BitVec.extractLsb'_eq_self, BitVec.reduceExtractLsb', Nat.reduceSub]
  exact if_pos (by simpa using hw)

theorem cvt (f : FCvt) : Statement (.cvt f) := by
  intro w hw he
  injection he with he
  have h1 : w.extractLsb' 26 5 = 15#5 := by rw [← he]; simp (disch := decide) only [wordSkip, wordInner, BitVec.extractLsb'_eq_self, BitVec.reduceExtractLsb', Nat.reduceSub]
  unfold decodeWord Decode.read; rw [h1]
  show Decode.accept (Decode.major15 w) = _
  unfold Decode.major15
  rw [← he]
  simp (disch := decide) only [Decode.checked, Decode.accept, Decode.fixed, wordSkip, wordInner, bitSkip, bitInner, bitSelf, BitVec.extractLsb'_eq_self, BitVec.reduceExtractLsb', Nat.reduceSub]
  have q : ∀ x : BitVec 4, x.toNat ≤ 9 → (x == 15#4) = false := by decide
  have hw' := hw
  simp only [Instr.wf, Bool.and_eq_true, decide_eq_true_eq] at hw'
  simp only [q _ hw'.1.1, q _ hw'.1.2, Bool.false_eq_true, if_false]
  exact if_pos (by simpa using hw)

theorem cvtSlotSource (f : FCvtSS) : Statement (.cvtSlotSource f) := by
  intro w hw he
  injection he with he
  have h1 : w.extractLsb' 26 5 = 15#5 := by rw [← he]; simp (disch := decide) only [wordSkip, wordInner, BitVec.extractLsb'_eq_self, BitVec.reduceExtractLsb', Nat.reduceSub]
  unfold decodeWord Decode.read; rw [h1]
  show Decode.accept (Decode.major15 w) = _
  unfold Decode.major15
  rw [← he]
  simp (disch := decide) only [Decode.checked, Decode.accept, Decode.fixed, wordSkip, wordInner, bitSkip, bitInner, bitSelf, BitVec.extractLsb'_eq_self, BitVec.reduceExtractLsb', Nat.reduceSub]
  exact if_pos (by simpa using hw)

theorem cvtSlotDest (f : FCvtSD) : Statement (.cvtSlotDest f) := by
  intro w hw he
  injection he with he
  have h1 : w.extractLsb' 26 5 = 15#5 := by rw [← he]; simp (disch := decide) only [wordSkip, wordInner, BitVec.extractLsb'_eq_self, BitVec.reduceExtractLsb', Nat.reduceSub]
  unfold decodeWord Decode.read; rw [h1]
  show Decode.accept (Decode.major15 w) = _
  unfold Decode.major15
  rw [← he]
  simp (disch := decide) only [Decode.checked, Decode.accept, Decode.fixed, wordSkip, wordInner, bitSkip, bitInner, bitSelf, BitVec.extractLsb'_eq_self, BitVec.reduceExtractLsb', Nat.reduceSub]
  have q : ∀ x : BitVec 4, x.toNat ≤ 9 → (x == 15#4) = false := by decide
  have hw' := hw
  simp only [Instr.wf, decide_eq_true_eq] at hw'
  simp only [q _ hw', Bool.false_eq_true, if_false, beq_self_eq_true, if_true]
  exact if_pos (by simpa using hw)

theorem movi (f : FI16) : Statement (.movi f) := by
  intro w hw he
  injection he with he
  have h1 : w.extractLsb' 26 5 = 16#5 := by rw [← he]; simp (disch := decide) only [wordSkip, wordInner, BitVec.extractLsb'_eq_self, BitVec.reduceExtractLsb', Nat.reduceSub]
  have h2 : w.extractLsb' 0 3 = 0#3 := by rw [← he]; simp (disch := decide) only [wordSkip, wordInner, BitVec.extractLsb'_eq_self, BitVec.reduceExtractLsb', Nat.reduceSub]
  unfold decodeWord Decode.read; rw [h1]
  show Decode.accept (Decode.major16 w) = _
  unfold Decode.major16; rw [h2]
  rw [← he]
  simp (disch := decide) only [Decode.checked, Decode.accept, Decode.fixed, wordSkip, wordInner, bitSkip, bitInner, bitSelf, BitVec.extractLsb'_eq_self, BitVec.reduceExtractLsb', Nat.reduceSub]
  exact if_pos (by simpa using hw)

theorem movhi (f : FI16) : Statement (.movhi f) := by
  intro w hw he
  injection he with he
  have h1 : w.extractLsb' 26 5 = 16#5 := by rw [← he]; simp (disch := decide) only [wordSkip, wordInner, BitVec.extractLsb'_eq_self, BitVec.reduceExtractLsb', Nat.reduceSub]
  have h2 : w.extractLsb' 0 3 = 1#3 := by rw [← he]; simp (disch := decide) only [wordSkip, wordInner, BitVec.extractLsb'_eq_self, BitVec.reduceExtractLsb', Nat.reduceSub]
  unfold decodeWord Decode.read; rw [h1]
  show Decode.accept (Decode.major16 w) = _
  unfold Decode.major16; rw [h2]
  rw [← he]
  simp (disch := decide) only [Decode.checked, Decode.accept, Decode.fixed, wordSkip, wordInner, bitSkip, bitInner, bitSelf, BitVec.extractLsb'_eq_self, BitVec.reduceExtractLsb', Nat.reduceSub]
  exact if_pos (by simpa using hw)

theorem addi (f : FI) : Statement (.addi f) := by
  intro w hw he
  injection he with he
  have h1 : w.extractLsb' 26 5 = 16#5 := by rw [← he]; simp (disch := decide) only [wordSkip, wordInner, BitVec.extractLsb'_eq_self, BitVec.reduceExtractLsb', Nat.reduceSub]
  have h2 : w.extractLsb' 0 3 = 2#3 := by rw [← he]; simp (disch := decide) only [wordSkip, wordInner, BitVec.extractLsb'_eq_self, BitVec.reduceExtractLsb', Nat.reduceSub]
  unfold decodeWord Decode.read; rw [h1]
  show Decode.accept (Decode.major16 w) = _
  unfold Decode.major16; rw [h2]
  rw [← he]
  simp (disch := decide) only [Decode.checked, Decode.accept, Decode.fixed, wordSkip, wordInner, bitSkip, bitInner, bitSelf, BitVec.extractLsb'_eq_self, BitVec.reduceExtractLsb', Nat.reduceSub]
  exact if_pos (by simpa using hw)

theorem andi (f : FI) : Statement (.andi f) := by
  intro w hw he
  injection he with he
  have h1 : w.extractLsb' 26 5 = 16#5 := by rw [← he]; simp (disch := decide) only [wordSkip, wordInner, BitVec.extractLsb'_eq_self, BitVec.reduceExtractLsb', Nat.reduceSub]
  have h2 : w.extractLsb' 0 3 = 3#3 := by rw [← he]; simp (disch := decide) only [wordSkip, wordInner, BitVec.extractLsb'_eq_self, BitVec.reduceExtractLsb', Nat.reduceSub]
  unfold decodeWord Decode.read; rw [h1]
  show Decode.accept (Decode.major16 w) = _
  unfold Decode.major16; rw [h2]
  rw [← he]
  simp (disch := decide) only [Decode.checked, Decode.accept, Decode.fixed, wordSkip, wordInner, bitSkip, bitInner, bitSelf, BitVec.extractLsb'_eq_self, BitVec.reduceExtractLsb', Nat.reduceSub]
  exact if_pos (by simpa using hw)

theorem ori (f : FI) : Statement (.ori f) := by
  intro w hw he
  injection he with he
  have h1 : w.extractLsb' 26 5 = 16#5 := by rw [← he]; simp (disch := decide) only [wordSkip, wordInner, BitVec.extractLsb'_eq_self, BitVec.reduceExtractLsb', Nat.reduceSub]
  have h2 : w.extractLsb' 0 3 = 4#3 := by rw [← he]; simp (disch := decide) only [wordSkip, wordInner, BitVec.extractLsb'_eq_self, BitVec.reduceExtractLsb', Nat.reduceSub]
  unfold decodeWord Decode.read; rw [h1]
  show Decode.accept (Decode.major16 w) = _
  unfold Decode.major16; rw [h2]
  rw [← he]
  simp (disch := decide) only [Decode.checked, Decode.accept, Decode.fixed, wordSkip, wordInner, bitSkip, bitInner, bitSelf, BitVec.extractLsb'_eq_self, BitVec.reduceExtractLsb', Nat.reduceSub]
  exact if_pos (by simpa using hw)

theorem xori (f : FI) : Statement (.xori f) := by
  intro w hw he
  injection he with he
  have h1 : w.extractLsb' 26 5 = 16#5 := by rw [← he]; simp (disch := decide) only [wordSkip, wordInner, BitVec.extractLsb'_eq_self, BitVec.reduceExtractLsb', Nat.reduceSub]
  have h2 : w.extractLsb' 0 3 = 5#3 := by rw [← he]; simp (disch := decide) only [wordSkip, wordInner, BitVec.extractLsb'_eq_self, BitVec.reduceExtractLsb', Nat.reduceSub]
  unfold decodeWord Decode.read; rw [h1]
  show Decode.accept (Decode.major16 w) = _
  unfold Decode.major16; rw [h2]
  rw [← he]
  simp (disch := decide) only [Decode.checked, Decode.accept, Decode.fixed, wordSkip, wordInner, bitSkip, bitInner, bitSelf, BitVec.extractLsb'_eq_self, BitVec.reduceExtractLsb', Nat.reduceSub]
  exact if_pos (by simpa using hw)

theorem shli (f : FI) : Statement (.shli f) := by
  intro w hw he
  injection he with he
  have h1 : w.extractLsb' 26 5 = 16#5 := by rw [← he]; simp (disch := decide) only [wordSkip, wordInner, BitVec.extractLsb'_eq_self, BitVec.reduceExtractLsb', Nat.reduceSub]
  have h2 : w.extractLsb' 0 3 = 6#3 := by rw [← he]; simp (disch := decide) only [wordSkip, wordInner, BitVec.extractLsb'_eq_self, BitVec.reduceExtractLsb', Nat.reduceSub]
  unfold decodeWord Decode.read; rw [h1]
  show Decode.accept (Decode.major16 w) = _
  unfold Decode.major16; rw [h2]
  rw [← he]
  simp (disch := decide) only [Decode.checked, Decode.accept, Decode.fixed, wordSkip, wordInner, bitSkip, bitInner, bitSelf, BitVec.extractLsb'_eq_self, BitVec.reduceExtractLsb', Nat.reduceSub]
  exact if_pos (by simpa using hw)

theorem shri (f : FI) : Statement (.shri f) := by
  intro w hw he
  injection he with he
  have h1 : w.extractLsb' 26 5 = 16#5 := by rw [← he]; simp (disch := decide) only [wordSkip, wordInner, BitVec.extractLsb'_eq_self, BitVec.reduceExtractLsb', Nat.reduceSub]
  have h2 : w.extractLsb' 0 3 = 7#3 := by rw [← he]; simp (disch := decide) only [wordSkip, wordInner, BitVec.extractLsb'_eq_self, BitVec.reduceExtractLsb', Nat.reduceSub]
  unfold decodeWord Decode.read; rw [h1]
  show Decode.accept (Decode.major16 w) = _
  unfold Decode.major16; rw [h2]
  rw [← he]
  simp (disch := decide) only [Decode.checked, Decode.accept, Decode.fixed, wordSkip, wordInner, bitSkip, bitInner, bitSelf, BitVec.extractLsb'_eq_self, BitVec.reduceExtractLsb', Nat.reduceSub]
  exact if_pos (by simpa using hw)

theorem slide (f : F3) : Statement (.slide f) := by
  intro w hw he
  injection he with he
  have h1 : w.extractLsb' 26 5 = 17#5 := by rw [← he]; simp (disch := decide) only [wordSkip, wordInner, BitVec.extractLsb'_eq_self, BitVec.reduceExtractLsb', Nat.reduceSub]
  have h2 : w.extractLsb' 0 3 = 0#3 := by rw [← he]; simp (disch := decide) only [wordSkip, wordInner, BitVec.extractLsb'_eq_self, BitVec.reduceExtractLsb', Nat.reduceSub]
  unfold decodeWord Decode.read; rw [h1]
  show Decode.accept (Decode.major17 w) = _
  unfold Decode.major17; rw [h2]
  rw [← he]
  simp (disch := decide) only [Decode.checked, Decode.accept, Decode.fixed, wordSkip, wordInner, bitSkip, bitInner, bitSelf, BitVec.extractLsb'_eq_self, BitVec.reduceExtractLsb', Nat.reduceSub]
  exact if_pos (by simpa using hw)

theorem slideh (f : F3) : Statement (.slideh f) := by
  intro w hw he
  injection he with he
  have h1 : w.extractLsb' 26 5 = 17#5 := by rw [← he]; simp (disch := decide) only [wordSkip, wordInner, BitVec.extractLsb'_eq_self, BitVec.reduceExtractLsb', Nat.reduceSub]
  have h2 : w.extractLsb' 0 3 = 1#3 := by rw [← he]; simp (disch := decide) only [wordSkip, wordInner, BitVec.extractLsb'_eq_self, BitVec.reduceExtractLsb', Nat.reduceSub]
  unfold decodeWord Decode.read; rw [h1]
  show Decode.accept (Decode.major17 w) = _
  unfold Decode.major17; rw [h2]
  rw [← he]
  simp (disch := decide) only [Decode.checked, Decode.accept, Decode.fixed, wordSkip, wordInner, bitSkip, bitInner, bitSelf, BitVec.extractLsb'_eq_self, BitVec.reduceExtractLsb', Nat.reduceSub]
  exact if_pos (by simpa using hw)

theorem shfl (f : F3) : Statement (.shfl f) := by
  intro w hw he
  injection he with he
  have h1 : w.extractLsb' 26 5 = 17#5 := by rw [← he]; simp (disch := decide) only [wordSkip, wordInner, BitVec.extractLsb'_eq_self, BitVec.reduceExtractLsb', Nat.reduceSub]
  have h2 : w.extractLsb' 0 3 = 2#3 := by rw [← he]; simp (disch := decide) only [wordSkip, wordInner, BitVec.extractLsb'_eq_self, BitVec.reduceExtractLsb', Nat.reduceSub]
  unfold decodeWord Decode.read; rw [h1]
  show Decode.accept (Decode.major17 w) = _
  unfold Decode.major17; rw [h2]
  rw [← he]
  simp (disch := decide) only [Decode.checked, Decode.accept, Decode.fixed, wordSkip, wordInner, bitSkip, bitInner, bitSelf, BitVec.extractLsb'_eq_self, BitVec.reduceExtractLsb', Nat.reduceSub]
  exact if_pos (by simpa using hw)

theorem bcast (f : FBcast) : Statement (.bcast f) := by
  intro w hw he
  injection he with he
  have h1 : w.extractLsb' 26 5 = 17#5 := by rw [← he]; simp (disch := decide) only [wordSkip, wordInner, BitVec.extractLsb'_eq_self, BitVec.reduceExtractLsb', Nat.reduceSub]
  have h2 : w.extractLsb' 0 3 = 3#3 := by rw [← he]; simp (disch := decide) only [wordSkip, wordInner, BitVec.extractLsb'_eq_self, BitVec.reduceExtractLsb', Nat.reduceSub]
  unfold decodeWord Decode.read; rw [h1]
  show Decode.accept (Decode.major17 w) = _
  unfold Decode.major17; rw [h2]
  rw [← he]
  simp (disch := decide) only [Decode.checked, Decode.accept, Decode.fixed, wordSkip, wordInner, bitSkip, bitInner, bitSelf, BitVec.extractLsb'_eq_self, BitVec.reduceExtractLsb', Nat.reduceSub]
  exact if_pos (by simpa using hw)

theorem ballot (f : FD) : Statement (.ballot f) := by
  intro w hw he
  injection he with he
  have h1 : w.extractLsb' 26 5 = 17#5 := by rw [← he]; simp (disch := decide) only [wordSkip, wordInner, BitVec.extractLsb'_eq_self, BitVec.reduceExtractLsb', Nat.reduceSub]
  have h2 : w.extractLsb' 0 3 = 4#3 := by rw [← he]; simp (disch := decide) only [wordSkip, wordInner, BitVec.extractLsb'_eq_self, BitVec.reduceExtractLsb', Nat.reduceSub]
  unfold decodeWord Decode.read; rw [h1]
  show Decode.accept (Decode.major17 w) = _
  unfold Decode.major17; rw [h2]
  rw [← he]
  simp (disch := decide) only [Decode.checked, Decode.accept, Decode.fixed, wordSkip, wordInner, bitSkip, bitInner, bitSelf, BitVec.extractLsb'_eq_self, BitVec.reduceExtractLsb', Nat.reduceSub]
  exact if_pos (by simpa using hw)

theorem actmask (f : FD) : Statement (.actmask f) := by
  intro w hw he
  injection he with he
  have h1 : w.extractLsb' 26 5 = 17#5 := by rw [← he]; simp (disch := decide) only [wordSkip, wordInner, BitVec.extractLsb'_eq_self, BitVec.reduceExtractLsb', Nat.reduceSub]
  have h2 : w.extractLsb' 0 3 = 5#3 := by rw [← he]; simp (disch := decide) only [wordSkip, wordInner, BitVec.extractLsb'_eq_self, BitVec.reduceExtractLsb', Nat.reduceSub]
  unfold decodeWord Decode.read; rw [h1]
  show Decode.accept (Decode.major17 w) = _
  unfold Decode.major17; rw [h2]
  rw [← he]
  simp (disch := decide) only [Decode.checked, Decode.accept, Decode.fixed, wordSkip, wordInner, bitSkip, bitInner, bitSelf, BitVec.extractLsb'_eq_self, BitVec.reduceExtractLsb', Nat.reduceSub]
  exact if_pos (by simpa using hw)

theorem redadd (f : F2) : Statement (.redadd f) := by
  intro w hw he
  injection he with he
  have h1 : w.extractLsb' 26 5 = 17#5 := by rw [← he]; simp (disch := decide) only [wordSkip, wordInner, BitVec.extractLsb'_eq_self, BitVec.reduceExtractLsb', Nat.reduceSub]
  have h2 : w.extractLsb' 0 3 = 6#3 := by rw [← he]; simp (disch := decide) only [wordSkip, wordInner, BitVec.extractLsb'_eq_self, BitVec.reduceExtractLsb', Nat.reduceSub]
  unfold decodeWord Decode.read; rw [h1]
  show Decode.accept (Decode.major17 w) = _
  unfold Decode.major17; rw [h2]
  rw [← he]
  simp (disch := decide) only [Decode.checked, Decode.accept, Decode.fixed, wordSkip, wordInner, bitSkip, bitInner, bitSelf, BitVec.extractLsb'_eq_self, BitVec.reduceExtractLsb', Nat.reduceSub]
  exact if_pos (by simpa using hw)

theorem redmax (f : F2) : Statement (.redmax f) := by
  intro w hw he
  injection he with he
  have h1 : w.extractLsb' 26 5 = 17#5 := by rw [← he]; simp (disch := decide) only [wordSkip, wordInner, BitVec.extractLsb'_eq_self, BitVec.reduceExtractLsb', Nat.reduceSub]
  have h2 : w.extractLsb' 0 3 = 7#3 := by rw [← he]; simp (disch := decide) only [wordSkip, wordInner, BitVec.extractLsb'_eq_self, BitVec.reduceExtractLsb', Nat.reduceSub]
  unfold decodeWord Decode.read; rw [h1]
  show Decode.accept (Decode.major17 w) = _
  unfold Decode.major17; rw [h2]
  rw [← he]
  simp (disch := decide) only [Decode.checked, Decode.accept, Decode.fixed, wordSkip, wordInner, bitSkip, bitInner, bitSelf, BitVec.extractLsb'_eq_self, BitVec.reduceExtractLsb', Nat.reduceSub]
  exact if_pos (by simpa using hw)

theorem mov (f : F2) : Statement (.mov f) := by
  intro w hw he
  injection he with he
  have h1 : w.extractLsb' 26 5 = 18#5 := by rw [← he]; simp (disch := decide) only [wordSkip, wordInner, BitVec.extractLsb'_eq_self, BitVec.reduceExtractLsb', Nat.reduceSub]
  have h2 : w.extractLsb' 0 3 = 0#3 := by rw [← he]; simp (disch := decide) only [wordSkip, wordInner, BitVec.extractLsb'_eq_self, BitVec.reduceExtractLsb', Nat.reduceSub]
  unfold decodeWord Decode.read; rw [h1]
  show Decode.accept (Decode.major18 w) = _
  unfold Decode.major18; rw [h2]
  rw [← he]
  simp (disch := decide) only [Decode.checked, Decode.accept, Decode.fixed, wordSkip, wordInner, bitSkip, bitInner, bitSelf, BitVec.extractLsb'_eq_self, BitVec.reduceExtractLsb', Nat.reduceSub]
  exact if_pos (by simpa using hw)

theorem sel (f : F3) : Statement (.sel f) := by
  intro w hw he
  injection he with he
  have h1 : w.extractLsb' 26 5 = 18#5 := by rw [← he]; simp (disch := decide) only [wordSkip, wordInner, BitVec.extractLsb'_eq_self, BitVec.reduceExtractLsb', Nat.reduceSub]
  have h2 : w.extractLsb' 0 3 = 1#3 := by rw [← he]; simp (disch := decide) only [wordSkip, wordInner, BitVec.extractLsb'_eq_self, BitVec.reduceExtractLsb', Nat.reduceSub]
  unfold decodeWord Decode.read; rw [h1]
  show Decode.accept (Decode.major18 w) = _
  unfold Decode.major18; rw [h2]
  rw [← he]
  simp (disch := decide) only [Decode.checked, Decode.accept, Decode.fixed, wordSkip, wordInner, bitSkip, bitInner, bitSelf, BitVec.extractLsb'_eq_self, BitVec.reduceExtractLsb', Nat.reduceSub]
  exact if_pos (by simpa using hw)

theorem movsv (f : F2) : Statement (.movsv f) := by
  intro w hw he
  injection he with he
  have h1 : w.extractLsb' 26 5 = 18#5 := by rw [← he]; simp (disch := decide) only [wordSkip, wordInner, BitVec.extractLsb'_eq_self, BitVec.reduceExtractLsb', Nat.reduceSub]
  have h2 : w.extractLsb' 0 3 = 2#3 := by rw [← he]; simp (disch := decide) only [wordSkip, wordInner, BitVec.extractLsb'_eq_self, BitVec.reduceExtractLsb', Nat.reduceSub]
  unfold decodeWord Decode.read; rw [h1]
  show Decode.accept (Decode.major18 w) = _
  unfold Decode.major18; rw [h2]
  rw [← he]
  simp (disch := decide) only [Decode.checked, Decode.accept, Decode.fixed, wordSkip, wordInner, bitSkip, bitInner, bitSelf, BitVec.extractLsb'_eq_self, BitVec.reduceExtractLsb', Nat.reduceSub]
  exact if_pos (by simpa using hw)

theorem movvs (f : F2) : Statement (.movvs f) := by
  intro w hw he
  injection he with he
  have h1 : w.extractLsb' 26 5 = 18#5 := by rw [← he]; simp (disch := decide) only [wordSkip, wordInner, BitVec.extractLsb'_eq_self, BitVec.reduceExtractLsb', Nat.reduceSub]
  have h2 : w.extractLsb' 0 3 = 3#3 := by rw [← he]; simp (disch := decide) only [wordSkip, wordInner, BitVec.extractLsb'_eq_self, BitVec.reduceExtractLsb', Nat.reduceSub]
  unfold decodeWord Decode.read; rw [h1]
  show Decode.accept (Decode.major18 w) = _
  unfold Decode.major18; rw [h2]
  rw [← he]
  simp (disch := decide) only [Decode.checked, Decode.accept, Decode.fixed, wordSkip, wordInner, bitSkip, bitInner, bitSelf, BitVec.extractLsb'_eq_self, BitVec.reduceExtractLsb', Nat.reduceSub]
  exact if_pos (by simpa using hw)

theorem rdsp (f : F2) : Statement (.rdsp f) := by
  intro w hw he
  injection he with he
  have h1 : w.extractLsb' 26 5 = 18#5 := by rw [← he]; simp (disch := decide) only [wordSkip, wordInner, BitVec.extractLsb'_eq_self, BitVec.reduceExtractLsb', Nat.reduceSub]
  have h2 : w.extractLsb' 0 3 = 4#3 := by rw [← he]; simp (disch := decide) only [wordSkip, wordInner, BitVec.extractLsb'_eq_self, BitVec.reduceExtractLsb', Nat.reduceSub]
  unfold decodeWord Decode.read; rw [h1]
  show Decode.accept (Decode.major18 w) = _
  unfold Decode.major18; rw [h2]
  rw [← he]
  simp (disch := decide) only [Decode.checked, Decode.accept, Decode.fixed, wordSkip, wordInner, bitSkip, bitInner, bitSelf, BitVec.extractLsb'_eq_self, BitVec.reduceExtractLsb', Nat.reduceSub]
  exact if_pos (by simpa using hw)

theorem wrsp (f : FWrsp) : Statement (.wrsp f) := by
  intro w hw he
  injection he with he
  have h1 : w.extractLsb' 26 5 = 18#5 := by rw [← he]; simp (disch := decide) only [wordSkip, wordInner, BitVec.extractLsb'_eq_self, BitVec.reduceExtractLsb', Nat.reduceSub]
  have h2 : w.extractLsb' 0 3 = 5#3 := by rw [← he]; simp (disch := decide) only [wordSkip, wordInner, BitVec.extractLsb'_eq_self, BitVec.reduceExtractLsb', Nat.reduceSub]
  unfold decodeWord Decode.read; rw [h1]
  show Decode.accept (Decode.major18 w) = _
  unfold Decode.major18; rw [h2]
  rw [← he]
  simp (disch := decide) only [Decode.checked, Decode.accept, Decode.fixed, wordSkip, wordInner, bitSkip, bitInner, bitSelf, BitVec.extractLsb'_eq_self, BitVec.reduceExtractLsb', Nat.reduceSub]
  exact if_pos (by simpa using hw)

theorem sadd (f : FU) : Statement (.sadd f) := by
  intro w hw he
  injection he with he
  have h1 : w.extractLsb' 26 5 = 19#5 := by rw [← he]; simp (disch := decide) only [wordSkip, wordInner, BitVec.extractLsb'_eq_self, BitVec.reduceExtractLsb', Nat.reduceSub]
  have h2 : w.extractLsb' 0 3 = 0#3 := by rw [← he]; simp (disch := decide) only [wordSkip, wordInner, BitVec.extractLsb'_eq_self, BitVec.reduceExtractLsb', Nat.reduceSub]
  unfold decodeWord Decode.read; rw [h1]
  show Decode.accept (Decode.major19 w) = _
  unfold Decode.major19; rw [h2]
  rw [← he]
  simp (disch := decide) only [Decode.checked, Decode.accept, Decode.fixed, wordSkip, wordInner, bitSkip, bitInner, bitSelf, BitVec.extractLsb'_eq_self, BitVec.reduceExtractLsb', Nat.reduceSub]
  exact if_pos (by simpa using hw)

theorem ssub (f : FU) : Statement (.ssub f) := by
  intro w hw he
  injection he with he
  have h1 : w.extractLsb' 26 5 = 19#5 := by rw [← he]; simp (disch := decide) only [wordSkip, wordInner, BitVec.extractLsb'_eq_self, BitVec.reduceExtractLsb', Nat.reduceSub]
  have h2 : w.extractLsb' 0 3 = 1#3 := by rw [← he]; simp (disch := decide) only [wordSkip, wordInner, BitVec.extractLsb'_eq_self, BitVec.reduceExtractLsb', Nat.reduceSub]
  unfold decodeWord Decode.read; rw [h1]
  show Decode.accept (Decode.major19 w) = _
  unfold Decode.major19; rw [h2]
  rw [← he]
  simp (disch := decide) only [Decode.checked, Decode.accept, Decode.fixed, wordSkip, wordInner, bitSkip, bitInner, bitSelf, BitVec.extractLsb'_eq_self, BitVec.reduceExtractLsb', Nat.reduceSub]
  exact if_pos (by simpa using hw)

theorem smul (f : FU) : Statement (.smul f) := by
  intro w hw he
  injection he with he
  have h1 : w.extractLsb' 26 5 = 19#5 := by rw [← he]; simp (disch := decide) only [wordSkip, wordInner, BitVec.extractLsb'_eq_self, BitVec.reduceExtractLsb', Nat.reduceSub]
  have h2 : w.extractLsb' 0 3 = 2#3 := by rw [← he]; simp (disch := decide) only [wordSkip, wordInner, BitVec.extractLsb'_eq_self, BitVec.reduceExtractLsb', Nat.reduceSub]
  unfold decodeWord Decode.read; rw [h1]
  show Decode.accept (Decode.major19 w) = _
  unfold Decode.major19; rw [h2]
  rw [← he]
  simp (disch := decide) only [Decode.checked, Decode.accept, Decode.fixed, wordSkip, wordInner, bitSkip, bitInner, bitSelf, BitVec.extractLsb'_eq_self, BitVec.reduceExtractLsb', Nat.reduceSub]
  exact if_pos (by simpa using hw)

theorem sand (f : FU) : Statement (.sand f) := by
  intro w hw he
  injection he with he
  have h1 : w.extractLsb' 26 5 = 19#5 := by rw [← he]; simp (disch := decide) only [wordSkip, wordInner, BitVec.extractLsb'_eq_self, BitVec.reduceExtractLsb', Nat.reduceSub]
  have h2 : w.extractLsb' 0 3 = 3#3 := by rw [← he]; simp (disch := decide) only [wordSkip, wordInner, BitVec.extractLsb'_eq_self, BitVec.reduceExtractLsb', Nat.reduceSub]
  unfold decodeWord Decode.read; rw [h1]
  show Decode.accept (Decode.major19 w) = _
  unfold Decode.major19; rw [h2]
  rw [← he]
  simp (disch := decide) only [Decode.checked, Decode.accept, Decode.fixed, wordSkip, wordInner, bitSkip, bitInner, bitSelf, BitVec.extractLsb'_eq_self, BitVec.reduceExtractLsb', Nat.reduceSub]
  exact if_pos (by simpa using hw)

theorem sor (f : FU) : Statement (.sor f) := by
  intro w hw he
  injection he with he
  have h1 : w.extractLsb' 26 5 = 19#5 := by rw [← he]; simp (disch := decide) only [wordSkip, wordInner, BitVec.extractLsb'_eq_self, BitVec.reduceExtractLsb', Nat.reduceSub]
  have h2 : w.extractLsb' 0 3 = 4#3 := by rw [← he]; simp (disch := decide) only [wordSkip, wordInner, BitVec.extractLsb'_eq_self, BitVec.reduceExtractLsb', Nat.reduceSub]
  unfold decodeWord Decode.read; rw [h1]
  show Decode.accept (Decode.major19 w) = _
  unfold Decode.major19; rw [h2]
  rw [← he]
  simp (disch := decide) only [Decode.checked, Decode.accept, Decode.fixed, wordSkip, wordInner, bitSkip, bitInner, bitSelf, BitVec.extractLsb'_eq_self, BitVec.reduceExtractLsb', Nat.reduceSub]
  exact if_pos (by simpa using hw)

theorem sxor (f : FU) : Statement (.sxor f) := by
  intro w hw he
  injection he with he
  have h1 : w.extractLsb' 26 5 = 19#5 := by rw [← he]; simp (disch := decide) only [wordSkip, wordInner, BitVec.extractLsb'_eq_self, BitVec.reduceExtractLsb', Nat.reduceSub]
  have h2 : w.extractLsb' 0 3 = 5#3 := by rw [← he]; simp (disch := decide) only [wordSkip, wordInner, BitVec.extractLsb'_eq_self, BitVec.reduceExtractLsb', Nat.reduceSub]
  unfold decodeWord Decode.read; rw [h1]
  show Decode.accept (Decode.major19 w) = _
  unfold Decode.major19; rw [h2]
  rw [← he]
  simp (disch := decide) only [Decode.checked, Decode.accept, Decode.fixed, wordSkip, wordInner, bitSkip, bitInner, bitSelf, BitVec.extractLsb'_eq_self, BitVec.reduceExtractLsb', Nat.reduceSub]
  exact if_pos (by simpa using hw)

theorem sshl (f : FU) : Statement (.sshl f) := by
  intro w hw he
  injection he with he
  have h1 : w.extractLsb' 26 5 = 19#5 := by rw [← he]; simp (disch := decide) only [wordSkip, wordInner, BitVec.extractLsb'_eq_self, BitVec.reduceExtractLsb', Nat.reduceSub]
  have h2 : w.extractLsb' 0 3 = 6#3 := by rw [← he]; simp (disch := decide) only [wordSkip, wordInner, BitVec.extractLsb'_eq_self, BitVec.reduceExtractLsb', Nat.reduceSub]
  unfold decodeWord Decode.read; rw [h1]
  show Decode.accept (Decode.major19 w) = _
  unfold Decode.major19; rw [h2]
  rw [← he]
  simp (disch := decide) only [Decode.checked, Decode.accept, Decode.fixed, wordSkip, wordInner, bitSkip, bitInner, bitSelf, BitVec.extractLsb'_eq_self, BitVec.reduceExtractLsb', Nat.reduceSub]
  exact if_pos (by simpa using hw)

theorem sshr (f : FU) : Statement (.sshr f) := by
  intro w hw he
  injection he with he
  have h1 : w.extractLsb' 26 5 = 19#5 := by rw [← he]; simp (disch := decide) only [wordSkip, wordInner, BitVec.extractLsb'_eq_self, BitVec.reduceExtractLsb', Nat.reduceSub]
  have h2 : w.extractLsb' 0 3 = 7#3 := by rw [← he]; simp (disch := decide) only [wordSkip, wordInner, BitVec.extractLsb'_eq_self, BitVec.reduceExtractLsb', Nat.reduceSub]
  unfold decodeWord Decode.read; rw [h1]
  show Decode.accept (Decode.major19 w) = _
  unfold Decode.major19; rw [h2]
  rw [← he]
  simp (disch := decide) only [Decode.checked, Decode.accept, Decode.fixed, wordSkip, wordInner, bitSkip, bitInner, bitSelf, BitVec.extractLsb'_eq_self, BitVec.reduceExtractLsb', Nat.reduceSub]
  exact if_pos (by simpa using hw)

theorem ldp (f : FM) : Statement (.ldp f) := by
  intro w hw he
  injection he with he
  have h1 : w.extractLsb' 26 5 = 20#5 := by rw [← he]; simp (disch := decide) only [wordSkip, wordInner, BitVec.extractLsb'_eq_self, BitVec.reduceExtractLsb', Nat.reduceSub]
  have h2 : w.extractLsb' 21 2 = 0#2 := by rw [← he]; simp (disch := decide) only [wordSkip, wordInner, BitVec.extractLsb'_eq_self, BitVec.reduceExtractLsb', Nat.reduceSub]
  unfold decodeWord Decode.read; rw [h1]
  show Decode.accept (Decode.major20 w) = _
  unfold Decode.major20; rw [h2]
  rw [← he]
  simp (disch := decide) only [Decode.checked, Decode.accept, Decode.fixed, wordSkip, wordInner, bitSkip, bitInner, bitSelf, BitVec.extractLsb'_eq_self, BitVec.reduceExtractLsb', Nat.reduceSub]
  exact if_pos (by simpa using hw)

theorem stp (f : FM) : Statement (.stp f) := by
  intro w hw he
  injection he with he
  have h1 : w.extractLsb' 26 5 = 20#5 := by rw [← he]; simp (disch := decide) only [wordSkip, wordInner, BitVec.extractLsb'_eq_self, BitVec.reduceExtractLsb', Nat.reduceSub]
  have h2 : w.extractLsb' 21 2 = 1#2 := by rw [← he]; simp (disch := decide) only [wordSkip, wordInner, BitVec.extractLsb'_eq_self, BitVec.reduceExtractLsb', Nat.reduceSub]
  unfold decodeWord Decode.read; rw [h1]
  show Decode.accept (Decode.major20 w) = _
  unfold Decode.major20; rw [h2]
  rw [← he]
  simp (disch := decide) only [Decode.checked, Decode.accept, Decode.fixed, wordSkip, wordInner, bitSkip, bitInner, bitSelf, BitVec.extractLsb'_eq_self, BitVec.reduceExtractLsb', Nat.reduceSub]
  exact if_pos (by simpa using hw)

theorem ldsc (f : FM) : Statement (.ldsc f) := by
  intro w hw he
  injection he with he
  have h1 : w.extractLsb' 26 5 = 21#5 := by rw [← he]; simp (disch := decide) only [wordSkip, wordInner, BitVec.extractLsb'_eq_self, BitVec.reduceExtractLsb', Nat.reduceSub]
  have h2 : w.extractLsb' 21 2 = 0#2 := by rw [← he]; simp (disch := decide) only [wordSkip, wordInner, BitVec.extractLsb'_eq_self, BitVec.reduceExtractLsb', Nat.reduceSub]
  unfold decodeWord Decode.read; rw [h1]
  show Decode.accept (Decode.major21 w) = _
  unfold Decode.major21; rw [h2]
  rw [← he]
  simp (disch := decide) only [Decode.checked, Decode.accept, Decode.fixed, wordSkip, wordInner, bitSkip, bitInner, bitSelf, BitVec.extractLsb'_eq_self, BitVec.reduceExtractLsb', Nat.reduceSub]
  exact if_pos (by simpa using hw)

theorem stsc (f : FM) : Statement (.stsc f) := by
  intro w hw he
  injection he with he
  have h1 : w.extractLsb' 26 5 = 21#5 := by rw [← he]; simp (disch := decide) only [wordSkip, wordInner, BitVec.extractLsb'_eq_self, BitVec.reduceExtractLsb', Nat.reduceSub]
  have h2 : w.extractLsb' 21 2 = 1#2 := by rw [← he]; simp (disch := decide) only [wordSkip, wordInner, BitVec.extractLsb'_eq_self, BitVec.reduceExtractLsb', Nat.reduceSub]
  unfold decodeWord Decode.read; rw [h1]
  show Decode.accept (Decode.major21 w) = _
  unfold Decode.major21; rw [h2]
  rw [← he]
  simp (disch := decide) only [Decode.checked, Decode.accept, Decode.fixed, wordSkip, wordInner, bitSkip, bitInner, bitSelf, BitVec.extractLsb'_eq_self, BitVec.reduceExtractLsb', Nat.reduceSub]
  exact if_pos (by simpa using hw)

theorem atsc (f : FA) : Statement (.atsc f) := by
  intro w hw he
  injection he with he
  have h1 : w.extractLsb' 26 5 = 21#5 := by rw [← he]; simp (disch := decide) only [wordSkip, wordInner, BitVec.extractLsb'_eq_self, BitVec.reduceExtractLsb', Nat.reduceSub]
  have h2 : w.extractLsb' 21 2 = 2#2 := by rw [← he]; simp (disch := decide) only [wordSkip, wordInner, BitVec.extractLsb'_eq_self, BitVec.reduceExtractLsb', Nat.reduceSub]
  unfold decodeWord Decode.read; rw [h1]
  show Decode.accept (Decode.major21 w) = _
  unfold Decode.major21; rw [h2]
  rw [← he]
  simp (disch := decide) only [Decode.checked, Decode.accept, Decode.fixed, wordSkip, wordInner, bitSkip, bitInner, bitSelf, BitVec.extractLsb'_eq_self, BitVec.reduceExtractLsb', Nat.reduceSub]
  exact if_pos (by simpa using hw)

theorem ldcl (f : FM) : Statement (.ldcl f) := by
  intro w hw he
  injection he with he
  have h1 : w.extractLsb' 26 5 = 22#5 := by rw [← he]; simp (disch := decide) only [wordSkip, wordInner, BitVec.extractLsb'_eq_self, BitVec.reduceExtractLsb', Nat.reduceSub]
  have h2 : w.extractLsb' 21 2 = 0#2 := by rw [← he]; simp (disch := decide) only [wordSkip, wordInner, BitVec.extractLsb'_eq_self, BitVec.reduceExtractLsb', Nat.reduceSub]
  unfold decodeWord Decode.read; rw [h1]
  show Decode.accept (Decode.major22 w) = _
  unfold Decode.major22; rw [h2]
  rw [← he]
  simp (disch := decide) only [Decode.checked, Decode.accept, Decode.fixed, wordSkip, wordInner, bitSkip, bitInner, bitSelf, BitVec.extractLsb'_eq_self, BitVec.reduceExtractLsb', Nat.reduceSub]
  exact if_pos (by simpa using hw)

theorem stcl (f : FM) : Statement (.stcl f) := by
  intro w hw he
  injection he with he
  have h1 : w.extractLsb' 26 5 = 22#5 := by rw [← he]; simp (disch := decide) only [wordSkip, wordInner, BitVec.extractLsb'_eq_self, BitVec.reduceExtractLsb', Nat.reduceSub]
  have h2 : w.extractLsb' 21 2 = 1#2 := by rw [← he]; simp (disch := decide) only [wordSkip, wordInner, BitVec.extractLsb'_eq_self, BitVec.reduceExtractLsb', Nat.reduceSub]
  unfold decodeWord Decode.read; rw [h1]
  show Decode.accept (Decode.major22 w) = _
  unfold Decode.major22; rw [h2]
  rw [← he]
  simp (disch := decide) only [Decode.checked, Decode.accept, Decode.fixed, wordSkip, wordInner, bitSkip, bitInner, bitSelf, BitVec.extractLsb'_eq_self, BitVec.reduceExtractLsb', Nat.reduceSub]
  exact if_pos (by simpa using hw)

theorem atcl (f : FA) : Statement (.atcl f) := by
  intro w hw he
  injection he with he
  have h1 : w.extractLsb' 26 5 = 22#5 := by rw [← he]; simp (disch := decide) only [wordSkip, wordInner, BitVec.extractLsb'_eq_self, BitVec.reduceExtractLsb', Nat.reduceSub]
  have h2 : w.extractLsb' 21 2 = 2#2 := by rw [← he]; simp (disch := decide) only [wordSkip, wordInner, BitVec.extractLsb'_eq_self, BitVec.reduceExtractLsb', Nat.reduceSub]
  unfold decodeWord Decode.read; rw [h1]
  show Decode.accept (Decode.major22 w) = _
  unfold Decode.major22; rw [h2]
  rw [← he]
  simp (disch := decide) only [Decode.checked, Decode.accept, Decode.fixed, wordSkip, wordInner, bitSkip, bitInner, bitSelf, BitVec.extractLsb'_eq_self, BitVec.reduceExtractLsb', Nat.reduceSub]
  exact if_pos (by simpa using hw)

theorem ldds (f : FM) : Statement (.ldds f) := by
  intro w hw he
  injection he with he
  have h1 : w.extractLsb' 26 5 = 23#5 := by rw [← he]; simp (disch := decide) only [wordSkip, wordInner, BitVec.extractLsb'_eq_self, BitVec.reduceExtractLsb', Nat.reduceSub]
  have h2 : w.extractLsb' 21 2 = 0#2 := by rw [← he]; simp (disch := decide) only [wordSkip, wordInner, BitVec.extractLsb'_eq_self, BitVec.reduceExtractLsb', Nat.reduceSub]
  unfold decodeWord Decode.read; rw [h1]
  show Decode.accept (Decode.major23 w) = _
  unfold Decode.major23; rw [h2]
  rw [← he]
  simp (disch := decide) only [Decode.checked, Decode.accept, Decode.fixed, wordSkip, wordInner, bitSkip, bitInner, bitSelf, BitVec.extractLsb'_eq_self, BitVec.reduceExtractLsb', Nat.reduceSub]
  exact if_pos (by simpa using hw)

theorem stds (f : FM) : Statement (.stds f) := by
  intro w hw he
  injection he with he
  have h1 : w.extractLsb' 26 5 = 23#5 := by rw [← he]; simp (disch := decide) only [wordSkip, wordInner, BitVec.extractLsb'_eq_self, BitVec.reduceExtractLsb', Nat.reduceSub]
  have h2 : w.extractLsb' 21 2 = 1#2 := by rw [← he]; simp (disch := decide) only [wordSkip, wordInner, BitVec.extractLsb'_eq_self, BitVec.reduceExtractLsb', Nat.reduceSub]
  unfold decodeWord Decode.read; rw [h1]
  show Decode.accept (Decode.major23 w) = _
  unfold Decode.major23; rw [h2]
  rw [← he]
  simp (disch := decide) only [Decode.checked, Decode.accept, Decode.fixed, wordSkip, wordInner, bitSkip, bitInner, bitSelf, BitVec.extractLsb'_eq_self, BitVec.reduceExtractLsb', Nat.reduceSub]
  exact if_pos (by simpa using hw)

theorem atds (f : FA) : Statement (.atds f) := by
  intro w hw he
  injection he with he
  have h1 : w.extractLsb' 26 5 = 23#5 := by rw [← he]; simp (disch := decide) only [wordSkip, wordInner, BitVec.extractLsb'_eq_self, BitVec.reduceExtractLsb', Nat.reduceSub]
  have h2 : w.extractLsb' 21 2 = 2#2 := by rw [← he]; simp (disch := decide) only [wordSkip, wordInner, BitVec.extractLsb'_eq_self, BitVec.reduceExtractLsb', Nat.reduceSub]
  unfold decodeWord Decode.read; rw [h1]
  show Decode.accept (Decode.major23 w) = _
  unfold Decode.major23; rw [h2]
  rw [← he]
  simp (disch := decide) only [Decode.checked, Decode.accept, Decode.fixed, wordSkip, wordInner, bitSkip, bitInner, bitSelf, BitVec.extractLsb'_eq_self, BitVec.reduceExtractLsb', Nat.reduceSub]
  exact if_pos (by simpa using hw)

theorem ldg (f : FG) : Statement (.ldg f) := by
  intro w hw he
  injection he with he
  have h1 : w.extractLsb' 26 5 = 24#5 := by rw [← he]; simp (disch := decide) only [wordSkip, wordInner, BitVec.extractLsb'_eq_self, BitVec.reduceExtractLsb', Nat.reduceSub]
  have h2 : w.extractLsb' 21 2 = 0#2 := by rw [← he]; simp (disch := decide) only [wordSkip, wordInner, BitVec.extractLsb'_eq_self, BitVec.reduceExtractLsb', Nat.reduceSub]
  unfold decodeWord Decode.read; rw [h1]
  show Decode.accept (Decode.major24 w) = _
  unfold Decode.major24; rw [h2]
  rw [← he]
  simp (disch := decide) only [Decode.checked, Decode.accept, Decode.fixed, wordSkip, wordInner, bitSkip, bitInner, bitSelf, BitVec.extractLsb'_eq_self, BitVec.reduceExtractLsb', Nat.reduceSub]
  exact if_pos (by simpa using hw)

theorem stg (f : FG) : Statement (.stg f) := by
  intro w hw he
  injection he with he
  have h1 : w.extractLsb' 26 5 = 24#5 := by rw [← he]; simp (disch := decide) only [wordSkip, wordInner, BitVec.extractLsb'_eq_self, BitVec.reduceExtractLsb', Nat.reduceSub]
  have h2 : w.extractLsb' 21 2 = 1#2 := by rw [← he]; simp (disch := decide) only [wordSkip, wordInner, BitVec.extractLsb'_eq_self, BitVec.reduceExtractLsb', Nat.reduceSub]
  unfold decodeWord Decode.read; rw [h1]
  show Decode.accept (Decode.major24 w) = _
  unfold Decode.major24; rw [h2]
  rw [← he]
  simp (disch := decide) only [Decode.checked, Decode.accept, Decode.fixed, wordSkip, wordInner, bitSkip, bitInner, bitSelf, BitVec.extractLsb'_eq_self, BitVec.reduceExtractLsb', Nat.reduceSub]
  exact if_pos (by simpa using hw)

theorem atg (f : FA) : Statement (.atg f) := by
  intro w hw he
  injection he with he
  have h1 : w.extractLsb' 26 5 = 24#5 := by rw [← he]; simp (disch := decide) only [wordSkip, wordInner, BitVec.extractLsb'_eq_self, BitVec.reduceExtractLsb', Nat.reduceSub]
  have h2 : w.extractLsb' 21 2 = 2#2 := by rw [← he]; simp (disch := decide) only [wordSkip, wordInner, BitVec.extractLsb'_eq_self, BitVec.reduceExtractLsb', Nat.reduceSub]
  unfold decodeWord Decode.read; rw [h1]
  show Decode.accept (Decode.major24 w) = _
  unfold Decode.major24; rw [h2]
  rw [← he]
  simp (disch := decide) only [Decode.checked, Decode.accept, Decode.fixed, wordSkip, wordInner, bitSkip, bitInner, bitSelf, BitVec.extractLsb'_eq_self, BitVec.reduceExtractLsb', Nat.reduceSub]
  exact if_pos (by simpa using hw)

theorem pfg (f : FPfg) : Statement (.pfg f) := by
  intro w hw he
  injection he with he
  have h1 : w.extractLsb' 26 5 = 24#5 := by rw [← he]; simp (disch := decide) only [wordSkip, wordInner, BitVec.extractLsb'_eq_self, BitVec.reduceExtractLsb', Nat.reduceSub]
  have h2 : w.extractLsb' 21 2 = 3#2 := by rw [← he]; simp (disch := decide) only [wordSkip, wordInner, BitVec.extractLsb'_eq_self, BitVec.reduceExtractLsb', Nat.reduceSub]
  unfold decodeWord Decode.read; rw [h1]
  show Decode.accept (Decode.major24 w) = _
  unfold Decode.major24; rw [h2]
  rw [← he]
  simp (disch := decide) only [Decode.checked, Decode.accept, Decode.fixed, wordSkip, wordInner, bitSkip, bitInner, bitSelf, BitVec.extractLsb'_eq_self, BitVec.reduceExtractLsb', Nat.reduceSub]
  exact if_pos (by simpa using hw)

theorem ldf (f : FLdf) : Statement (.ldf f) := by
  intro w hw he
  injection he with he
  have h1 : w.extractLsb' 26 5 = 25#5 := by rw [← he]; simp (disch := decide) only [wordSkip, wordInner, BitVec.extractLsb'_eq_self, BitVec.reduceExtractLsb', Nat.reduceSub]
  have h2 : w.extractLsb' 21 2 = 0#2 := by rw [← he]; simp (disch := decide) only [wordSkip, wordInner, BitVec.extractLsb'_eq_self, BitVec.reduceExtractLsb', Nat.reduceSub]
  unfold decodeWord Decode.read; rw [h1]
  show Decode.accept (Decode.major25 w) = _
  unfold Decode.major25; rw [h2]
  rw [← he]
  simp (disch := decide) only [Decode.checked, Decode.accept, Decode.fixed, wordSkip, wordInner, bitSkip, bitInner, bitSelf, BitVec.extractLsb'_eq_self, BitVec.reduceExtractLsb', Nat.reduceSub]
  exact if_pos (by simpa using hw)

theorem stf (f : FG) : Statement (.stf f) := by
  intro w hw he
  injection he with he
  have h1 : w.extractLsb' 26 5 = 25#5 := by rw [← he]; simp (disch := decide) only [wordSkip, wordInner, BitVec.extractLsb'_eq_self, BitVec.reduceExtractLsb', Nat.reduceSub]
  have h2 : w.extractLsb' 21 2 = 1#2 := by rw [← he]; simp (disch := decide) only [wordSkip, wordInner, BitVec.extractLsb'_eq_self, BitVec.reduceExtractLsb', Nat.reduceSub]
  unfold decodeWord Decode.read; rw [h1]
  show Decode.accept (Decode.major25 w) = _
  unfold Decode.major25; rw [h2]
  rw [← he]
  simp (disch := decide) only [Decode.checked, Decode.accept, Decode.fixed, wordSkip, wordInner, bitSkip, bitInner, bitSelf, BitVec.extractLsb'_eq_self, BitVec.reduceExtractLsb', Nat.reduceSub]
  exact if_pos (by simpa using hw)

theorem atf (f : FA) : Statement (.atf f) := by
  intro w hw he
  injection he with he
  have h1 : w.extractLsb' 26 5 = 25#5 := by rw [← he]; simp (disch := decide) only [wordSkip, wordInner, BitVec.extractLsb'_eq_self, BitVec.reduceExtractLsb', Nat.reduceSub]
  have h2 : w.extractLsb' 21 2 = 2#2 := by rw [← he]; simp (disch := decide) only [wordSkip, wordInner, BitVec.extractLsb'_eq_self, BitVec.reduceExtractLsb', Nat.reduceSub]
  unfold decodeWord Decode.read; rw [h1]
  show Decode.accept (Decode.major25 w) = _
  unfold Decode.major25; rw [h2]
  rw [← he]
  simp (disch := decide) only [Decode.checked, Decode.accept, Decode.fixed, wordSkip, wordInner, bitSkip, bitInner, bitSelf, BitVec.extractLsb'_eq_self, BitVec.reduceExtractLsb', Nat.reduceSub]
  exact if_pos (by simpa using hw)

theorem pubf (f : FPubf) : Statement (.pubf f) := by
  intro w hw he
  injection he with he
  have h1 : w.extractLsb' 26 5 = 25#5 := by rw [← he]; simp (disch := decide) only [wordSkip, wordInner, BitVec.extractLsb'_eq_self, BitVec.reduceExtractLsb', Nat.reduceSub]
  have h2 : w.extractLsb' 21 2 = 3#2 := by rw [← he]; simp (disch := decide) only [wordSkip, wordInner, BitVec.extractLsb'_eq_self, BitVec.reduceExtractLsb', Nat.reduceSub]
  unfold decodeWord Decode.read; rw [h1]
  show Decode.accept (Decode.major25 w) = _
  unfold Decode.major25; rw [h2]
  rw [← he]
  simp (disch := decide) only [Decode.checked, Decode.accept, Decode.fixed, wordSkip, wordInner, bitSkip, bitInner, bitSelf, BitVec.extractLsb'_eq_self, BitVec.reduceExtractLsb', Nat.reduceSub]
  exact if_pos (by simpa using hw)

theorem cpy (f : FY) : Statement (.cpy f) := by
  intro w hw he
  injection he with he
  have h1 : w.extractLsb' 26 5 = 26#5 := by rw [← he]; simp (disch := decide) only [wordSkip, wordInner, BitVec.extractLsb'_eq_self, BitVec.reduceExtractLsb', Nat.reduceSub]
  have h2 : w.extractLsb' 24 2 = 0#2 := by rw [← he]; simp (disch := decide) only [wordSkip, wordInner, BitVec.extractLsb'_eq_self, BitVec.reduceExtractLsb', Nat.reduceSub]
  unfold decodeWord Decode.read; rw [h1]
  show Decode.accept (Decode.major26 w) = _
  unfold Decode.major26; rw [h2]
  rw [← he]
  simp (disch := decide) only [Decode.checked, Decode.accept, Decode.fixed, wordSkip, wordInner, bitSkip, bitInner, bitSelf, BitVec.extractLsb'_eq_self, BitVec.reduceExtractLsb', Nat.reduceSub]
  exact if_pos (by simpa using hw)

theorem cpyt (f : FY) : Statement (.cpyt f) := by
  intro w hw he
  injection he with he
  have h1 : w.extractLsb' 26 5 = 26#5 := by rw [← he]; simp (disch := decide) only [wordSkip, wordInner, BitVec.extractLsb'_eq_self, BitVec.reduceExtractLsb', Nat.reduceSub]
  have h2 : w.extractLsb' 24 2 = 1#2 := by rw [← he]; simp (disch := decide) only [wordSkip, wordInner, BitVec.extractLsb'_eq_self, BitVec.reduceExtractLsb', Nat.reduceSub]
  unfold decodeWord Decode.read; rw [h1]
  show Decode.accept (Decode.major26 w) = _
  unfold Decode.major26; rw [h2]
  rw [← he]
  simp (disch := decide) only [Decode.checked, Decode.accept, Decode.fixed, wordSkip, wordInner, bitSkip, bitInner, bitSelf, BitVec.extractLsb'_eq_self, BitVec.reduceExtractLsb', Nat.reduceSub]
  exact if_pos (by simpa using hw)

theorem cpyx (f : FY) : Statement (.cpyx f) := by
  intro w hw he
  injection he with he
  have h1 : w.extractLsb' 26 5 = 26#5 := by rw [← he]; simp (disch := decide) only [wordSkip, wordInner, BitVec.extractLsb'_eq_self, BitVec.reduceExtractLsb', Nat.reduceSub]
  have h2 : w.extractLsb' 24 2 = 2#2 := by rw [← he]; simp (disch := decide) only [wordSkip, wordInner, BitVec.extractLsb'_eq_self, BitVec.reduceExtractLsb', Nat.reduceSub]
  unfold decodeWord Decode.read; rw [h1]
  show Decode.accept (Decode.major26 w) = _
  unfold Decode.major26; rw [h2]
  rw [← he]
  simp (disch := decide) only [Decode.checked, Decode.accept, Decode.fixed, wordSkip, wordInner, bitSkip, bitInner, bitSelf, BitVec.extractLsb'_eq_self, BitVec.reduceExtractLsb', Nat.reduceSub]
  exact if_pos (by simpa using hw)

theorem cpys (f : FYS) : Statement (.cpys f) := by
  intro w hw he
  injection he with he
  have h1 : w.extractLsb' 26 5 = 26#5 := by rw [← he]; simp (disch := decide) only [wordSkip, wordInner, BitVec.extractLsb'_eq_self, BitVec.reduceExtractLsb', Nat.reduceSub]
  have h2 : w.extractLsb' 24 2 = 3#2 := by rw [← he]; simp (disch := decide) only [wordSkip, wordInner, BitVec.extractLsb'_eq_self, BitVec.reduceExtractLsb', Nat.reduceSub]
  unfold decodeWord Decode.read; rw [h1]
  show Decode.accept (Decode.major26 w) = _
  unfold Decode.major26; rw [h2]
  rw [← he]
  simp (disch := decide) only [Decode.checked, Decode.accept, Decode.fixed, wordSkip, wordInner, bitSkip, bitInner, bitSelf, BitVec.extractLsb'_eq_self, BitVec.reduceExtractLsb', Nat.reduceSub]
  exact if_pos (by simpa using hw)

theorem mma (f : FMma) : Statement (.mma f) := by
  intro w hw he
  injection he with he
  have h1 : w.extractLsb' 26 5 = 27#5 := by rw [← he]; simp (disch := decide) only [wordSkip, wordInner, BitVec.extractLsb'_eq_self, BitVec.reduceExtractLsb', Nat.reduceSub]
  have h2 : w.extractLsb' 23 3 = 0#3 := by rw [← he]; simp (disch := decide) only [wordSkip, wordInner, BitVec.extractLsb'_eq_self, BitVec.reduceExtractLsb', Nat.reduceSub]
  unfold decodeWord Decode.read; rw [h1]
  show Decode.accept (Decode.major27 w) = _
  unfold Decode.major27; rw [h2]
  rw [← he]
  simp (disch := decide) only [Decode.checked, Decode.accept, Decode.fixed, wordSkip, wordInner, bitSkip, bitInner, bitSelf, BitVec.extractLsb'_eq_self, BitVec.reduceExtractLsb', Nat.reduceSub]
  exact if_pos (by simpa using hw)

theorem accz (f : FAcc) : Statement (.accz f) := by
  intro w hw he
  injection he with he
  have h1 : w.extractLsb' 26 5 = 27#5 := by rw [← he]; simp (disch := decide) only [wordSkip, wordInner, BitVec.extractLsb'_eq_self, BitVec.reduceExtractLsb', Nat.reduceSub]
  have h2 : w.extractLsb' 23 3 = 1#3 := by rw [← he]; simp (disch := decide) only [wordSkip, wordInner, BitVec.extractLsb'_eq_self, BitVec.reduceExtractLsb', Nat.reduceSub]
  unfold decodeWord Decode.read; rw [h1]
  show Decode.accept (Decode.major27 w) = _
  unfold Decode.major27; rw [h2]
  rw [← he]
  simp (disch := decide) only [Decode.checked, Decode.accept, Decode.fixed, wordSkip, wordInner, bitSkip, bitInner, bitSelf, BitVec.extractLsb'_eq_self, BitVec.reduceExtractLsb', Nat.reduceSub]
  exact if_pos (by simpa using hw)

theorem accrd (f : FAccRW) : Statement (.accrd f) := by
  intro w hw he
  injection he with he
  have h1 : w.extractLsb' 26 5 = 27#5 := by rw [← he]; simp (disch := decide) only [wordSkip, wordInner, BitVec.extractLsb'_eq_self, BitVec.reduceExtractLsb', Nat.reduceSub]
  have h2 : w.extractLsb' 23 3 = 2#3 := by rw [← he]; simp (disch := decide) only [wordSkip, wordInner, BitVec.extractLsb'_eq_self, BitVec.reduceExtractLsb', Nat.reduceSub]
  unfold decodeWord Decode.read; rw [h1]
  show Decode.accept (Decode.major27 w) = _
  unfold Decode.major27; rw [h2]
  rw [← he]
  simp (disch := decide) only [Decode.checked, Decode.accept, Decode.fixed, wordSkip, wordInner, bitSkip, bitInner, bitSelf, BitVec.extractLsb'_eq_self, BitVec.reduceExtractLsb', Nat.reduceSub]
  exact if_pos (by simpa using hw)

theorem accwr (f : FAccRW) : Statement (.accwr f) := by
  intro w hw he
  injection he with he
  have h1 : w.extractLsb' 26 5 = 27#5 := by rw [← he]; simp (disch := decide) only [wordSkip, wordInner, BitVec.extractLsb'_eq_self, BitVec.reduceExtractLsb', Nat.reduceSub]
  have h2 : w.extractLsb' 23 3 = 3#3 := by rw [← he]; simp (disch := decide) only [wordSkip, wordInner, BitVec.extractLsb'_eq_self, BitVec.reduceExtractLsb', Nat.reduceSub]
  unfold decodeWord Decode.read; rw [h1]
  show Decode.accept (Decode.major27 w) = _
  unfold Decode.major27; rw [h2]
  rw [← he]
  simp (disch := decide) only [Decode.checked, Decode.accept, Decode.fixed, wordSkip, wordInner, bitSkip, bitInner, bitSelf, BitVec.extractLsb'_eq_self, BitVec.reduceExtractLsb', Nat.reduceSub]
  exact if_pos (by simpa using hw)

theorem accnorm (f : FAcc) : Statement (.accnorm f) := by
  intro w hw he
  injection he with he
  have h1 : w.extractLsb' 26 5 = 27#5 := by rw [← he]; simp (disch := decide) only [wordSkip, wordInner, BitVec.extractLsb'_eq_self, BitVec.reduceExtractLsb', Nat.reduceSub]
  have h2 : w.extractLsb' 23 3 = 4#3 := by rw [← he]; simp (disch := decide) only [wordSkip, wordInner, BitVec.extractLsb'_eq_self, BitVec.reduceExtractLsb', Nat.reduceSub]
  unfold decodeWord Decode.read; rw [h1]
  show Decode.accept (Decode.major27 w) = _
  unfold Decode.major27; rw [h2]
  rw [← he]
  simp (disch := decide) only [Decode.checked, Decode.accept, Decode.fixed, wordSkip, wordInner, bitSkip, bitInner, bitSelf, BitVec.extractLsb'_eq_self, BitVec.reduceExtractLsb', Nat.reduceSub]
  exact if_pos (by simpa using hw)

theorem mfence (f : FC) : Statement (.mfence f) := by
  intro w hw he
  injection he with he
  have h1 : w.extractLsb' 26 5 = 27#5 := by rw [← he]; simp (disch := decide) only [wordSkip, wordInner, BitVec.extractLsb'_eq_self, BitVec.reduceExtractLsb', Nat.reduceSub]
  have h2 : w.extractLsb' 23 3 = 5#3 := by rw [← he]; simp (disch := decide) only [wordSkip, wordInner, BitVec.extractLsb'_eq_self, BitVec.reduceExtractLsb', Nat.reduceSub]
  unfold decodeWord Decode.read; rw [h1]
  show Decode.accept (Decode.major27 w) = _
  unfold Decode.major27; rw [h2]
  rw [← he]
  simp (disch := decide) only [Decode.checked, Decode.accept, Decode.fixed, wordSkip, wordInner, bitSkip, bitInner, bitSelf, BitVec.extractLsb'_eq_self, BitVec.reduceExtractLsb', Nat.reduceSub]
  exact if_pos (by simpa using hw)

theorem binit (f : FB2) : Statement (.binit f) := by
  intro w hw he
  injection he with he
  have h1 : w.extractLsb' 26 5 = 28#5 := by rw [← he]; simp (disch := decide) only [wordSkip, wordInner, BitVec.extractLsb'_eq_self, BitVec.reduceExtractLsb', Nat.reduceSub]
  have h2 : w.extractLsb' 23 3 = 0#3 := by rw [← he]; simp (disch := decide) only [wordSkip, wordInner, BitVec.extractLsb'_eq_self, BitVec.reduceExtractLsb', Nat.reduceSub]
  unfold decodeWord Decode.read; rw [h1]
  show Decode.accept (Decode.major28 w) = _
  unfold Decode.major28; rw [h2]
  rw [← he]
  simp (disch := decide) only [Decode.checked, Decode.accept, Decode.fixed, wordSkip, wordInner, bitSkip, bitInner, bitSelf, BitVec.extractLsb'_eq_self, BitVec.reduceExtractLsb', Nat.reduceSub]
  exact if_pos (by simpa using hw)

theorem barv (f : FB1) : Statement (.barv f) := by
  intro w hw he
  injection he with he
  have h1 : w.extractLsb' 26 5 = 28#5 := by rw [← he]; simp (disch := decide) only [wordSkip, wordInner, BitVec.extractLsb'_eq_self, BitVec.reduceExtractLsb', Nat.reduceSub]
  have h2 : w.extractLsb' 23 3 = 1#3 := by rw [← he]; simp (disch := decide) only [wordSkip, wordInner, BitVec.extractLsb'_eq_self, BitVec.reduceExtractLsb', Nat.reduceSub]
  unfold decodeWord Decode.read; rw [h1]
  show Decode.accept (Decode.major28 w) = _
  unfold Decode.major28; rw [h2]
  rw [← he]
  simp (disch := decide) only [Decode.checked, Decode.accept, Decode.fixed, wordSkip, wordInner, bitSkip, bitInner, bitSelf, BitVec.extractLsb'_eq_self, BitVec.reduceExtractLsb', Nat.reduceSub]
  exact if_pos (by simpa using hw)

theorem bexp (f : FB2) : Statement (.bexp f) := by
  intro w hw he
  injection he with he
  have h1 : w.extractLsb' 26 5 = 28#5 := by rw [← he]; simp (disch := decide) only [wordSkip, wordInner, BitVec.extractLsb'_eq_self, BitVec.reduceExtractLsb', Nat.reduceSub]
  have h2 : w.extractLsb' 23 3 = 2#3 := by rw [← he]; simp (disch := decide) only [wordSkip, wordInner, BitVec.extractLsb'_eq_self, BitVec.reduceExtractLsb', Nat.reduceSub]
  unfold decodeWord Decode.read; rw [h1]
  show Decode.accept (Decode.major28 w) = _
  unfold Decode.major28; rw [h2]
  rw [← he]
  simp (disch := decide) only [Decode.checked, Decode.accept, Decode.fixed, wordSkip, wordInner, bitSkip, bitInner, bitSelf, BitVec.extractLsb'_eq_self, BitVec.reduceExtractLsb', Nat.reduceSub]
  exact if_pos (by simpa using hw)

theorem bwait (f : FB3) : Statement (.bwait f) := by
  intro w hw he
  injection he with he
  have h1 : w.extractLsb' 26 5 = 28#5 := by rw [← he]; simp (disch := decide) only [wordSkip, wordInner, BitVec.extractLsb'_eq_self, BitVec.reduceExtractLsb', Nat.reduceSub]
  have h2 : w.extractLsb' 23 3 = 3#3 := by rw [← he]; simp (disch := decide) only [wordSkip, wordInner, BitVec.extractLsb'_eq_self, BitVec.reduceExtractLsb', Nat.reduceSub]
  unfold decodeWord Decode.read; rw [h1]
  show Decode.accept (Decode.major28 w) = _
  unfold Decode.major28; rw [h2]
  rw [← he]
  simp (disch := decide) only [Decode.checked, Decode.accept, Decode.fixed, wordSkip, wordInner, bitSkip, bitInner, bitSelf, BitVec.extractLsb'_eq_self, BitVec.reduceExtractLsb', Nat.reduceSub]
  exact if_pos (by simpa using hw)

theorem btest (f : FB3) : Statement (.btest f) := by
  intro w hw he
  injection he with he
  have h1 : w.extractLsb' 26 5 = 28#5 := by rw [← he]; simp (disch := decide) only [wordSkip, wordInner, BitVec.extractLsb'_eq_self, BitVec.reduceExtractLsb', Nat.reduceSub]
  have h2 : w.extractLsb' 23 3 = 4#3 := by rw [← he]; simp (disch := decide) only [wordSkip, wordInner, BitVec.extractLsb'_eq_self, BitVec.reduceExtractLsb', Nat.reduceSub]
  unfold decodeWord Decode.read; rw [h1]
  show Decode.accept (Decode.major28 w) = _
  unfold Decode.major28; rw [h2]
  rw [← he]
  simp (disch := decide) only [Decode.checked, Decode.accept, Decode.fixed, wordSkip, wordInner, bitSkip, bitInner, bitSelf, BitVec.extractLsb'_eq_self, BitVec.reduceExtractLsb', Nat.reduceSub]
  exact if_pos (by simpa using hw)

theorem bretire (f : FB1) : Statement (.bretire f) := by
  intro w hw he
  injection he with he
  have h1 : w.extractLsb' 26 5 = 28#5 := by rw [← he]; simp (disch := decide) only [wordSkip, wordInner, BitVec.extractLsb'_eq_self, BitVec.reduceExtractLsb', Nat.reduceSub]
  have h2 : w.extractLsb' 23 3 = 5#3 := by rw [← he]; simp (disch := decide) only [wordSkip, wordInner, BitVec.extractLsb'_eq_self, BitVec.reduceExtractLsb', Nat.reduceSub]
  unfold decodeWord Decode.read; rw [h1]
  show Decode.accept (Decode.major28 w) = _
  unfold Decode.major28; rw [h2]
  rw [← he]
  simp (disch := decide) only [Decode.checked, Decode.accept, Decode.fixed, wordSkip, wordInner, bitSkip, bitInner, bitSelf, BitVec.extractLsb'_eq_self, BitVec.reduceExtractLsb', Nat.reduceSub]
  exact if_pos (by simpa using hw)

theorem gbar (f : FC) : Statement (.gbar f) := by
  intro w hw he
  injection he with he
  have h1 : w.extractLsb' 26 5 = 28#5 := by rw [← he]; simp (disch := decide) only [wordSkip, wordInner, BitVec.extractLsb'_eq_self, BitVec.reduceExtractLsb', Nat.reduceSub]
  have h2 : w.extractLsb' 23 3 = 6#3 := by rw [← he]; simp (disch := decide) only [wordSkip, wordInner, BitVec.extractLsb'_eq_self, BitVec.reduceExtractLsb', Nat.reduceSub]
  unfold decodeWord Decode.read; rw [h1]
  show Decode.accept (Decode.major28 w) = _
  unfold Decode.major28; rw [h2]
  rw [← he]
  simp (disch := decide) only [Decode.checked, Decode.accept, Decode.fixed, wordSkip, wordInner, bitSkip, bitInner, bitSelf, BitVec.extractLsb'_eq_self, BitVec.reduceExtractLsb', Nat.reduceSub]
  exact if_pos (by simpa using hw)

theorem tbar (f : FC) : Statement (.tbar f) := by
  intro w hw he
  injection he with he
  have h1 : w.extractLsb' 26 5 = 28#5 := by rw [← he]; simp (disch := decide) only [wordSkip, wordInner, BitVec.extractLsb'_eq_self, BitVec.reduceExtractLsb', Nat.reduceSub]
  have h2 : w.extractLsb' 23 3 = 7#3 := by rw [← he]; simp (disch := decide) only [wordSkip, wordInner, BitVec.extractLsb'_eq_self, BitVec.reduceExtractLsb', Nat.reduceSub]
  unfold decodeWord Decode.read; rw [h1]
  show Decode.accept (Decode.major28 w) = _
  unfold Decode.major28; rw [h2]
  rw [← he]
  simp (disch := decide) only [Decode.checked, Decode.accept, Decode.fixed, wordSkip, wordInner, bitSkip, bitInner, bitSelf, BitVec.extractLsb'_eq_self, BitVec.reduceExtractLsb', Nat.reduceSub]
  exact if_pos (by simpa using hw)

theorem gjoin (f : FG1) : Statement (.gjoin f) := by
  intro w hw he
  injection he with he
  have h1 : w.extractLsb' 26 5 = 29#5 := by rw [← he]; simp (disch := decide) only [wordSkip, wordInner, BitVec.extractLsb'_eq_self, BitVec.reduceExtractLsb', Nat.reduceSub]
  have h2 : w.extractLsb' 23 3 = 0#3 := by rw [← he]; simp (disch := decide) only [wordSkip, wordInner, BitVec.extractLsb'_eq_self, BitVec.reduceExtractLsb', Nat.reduceSub]
  unfold decodeWord Decode.read; rw [h1]
  show Decode.accept (Decode.major29 w) = _
  unfold Decode.major29; rw [h2]
  rw [← he]
  simp (disch := decide) only [Decode.checked, Decode.accept, Decode.fixed, wordSkip, wordInner, bitSkip, bitInner, bitSelf, BitVec.extractLsb'_eq_self, BitVec.reduceExtractLsb', Nat.reduceSub]
  exact if_pos (by simpa using hw)

theorem ginfo (f : FG2) : Statement (.ginfo f) := by
  intro w hw he
  injection he with he
  have h1 : w.extractLsb' 26 5 = 29#5 := by rw [← he]; simp (disch := decide) only [wordSkip, wordInner, BitVec.extractLsb'_eq_self, BitVec.reduceExtractLsb', Nat.reduceSub]
  have h2 : w.extractLsb' 23 3 = 1#3 := by rw [← he]; simp (disch := decide) only [wordSkip, wordInner, BitVec.extractLsb'_eq_self, BitVec.reduceExtractLsb', Nat.reduceSub]
  unfold decodeWord Decode.read; rw [h1]
  show Decode.accept (Decode.major29 w) = _
  unfold Decode.major29; rw [h2]
  rw [← he]
  simp (disch := decide) only [Decode.checked, Decode.accept, Decode.fixed, wordSkip, wordInner, bitSkip, bitInner, bitSelf, BitVec.extractLsb'_eq_self, BitVec.reduceExtractLsb', Nat.reduceSub]
  exact if_pos (by simpa using hw)

theorem fabclr (f : FG2) : Statement (.fabclr f) := by
  intro w hw he
  injection he with he
  have h1 : w.extractLsb' 26 5 = 29#5 := by rw [← he]; simp (disch := decide) only [wordSkip, wordInner, BitVec.extractLsb'_eq_self, BitVec.reduceExtractLsb', Nat.reduceSub]
  have h2 : w.extractLsb' 23 3 = 2#3 := by rw [← he]; simp (disch := decide) only [wordSkip, wordInner, BitVec.extractLsb'_eq_self, BitVec.reduceExtractLsb', Nat.reduceSub]
  unfold decodeWord Decode.read; rw [h1]
  show Decode.accept (Decode.major29 w) = _
  unfold Decode.major29; rw [h2]
  rw [← he]
  simp (disch := decide) only [Decode.checked, Decode.accept, Decode.fixed, wordSkip, wordInner, bitSkip, bitInner, bitSelf, BitVec.extractLsb'_eq_self, BitVec.reduceExtractLsb', Nat.reduceSub]
  exact if_pos (by simpa using hw)

theorem wspill (f : FG1) : Statement (.wspill f) := by
  intro w hw he
  injection he with he
  have h1 : w.extractLsb' 26 5 = 29#5 := by rw [← he]; simp (disch := decide) only [wordSkip, wordInner, BitVec.extractLsb'_eq_self, BitVec.reduceExtractLsb', Nat.reduceSub]
  have h2 : w.extractLsb' 23 3 = 3#3 := by rw [← he]; simp (disch := decide) only [wordSkip, wordInner, BitVec.extractLsb'_eq_self, BitVec.reduceExtractLsb', Nat.reduceSub]
  unfold decodeWord Decode.read; rw [h1]
  show Decode.accept (Decode.major29 w) = _
  unfold Decode.major29; rw [h2]
  rw [← he]
  simp (disch := decide) only [Decode.checked, Decode.accept, Decode.fixed, wordSkip, wordInner, bitSkip, bitInner, bitSelf, BitVec.extractLsb'_eq_self, BitVec.reduceExtractLsb', Nat.reduceSub]
  exact if_pos (by simpa using hw)

theorem wfill (f : FG1) : Statement (.wfill f) := by
  intro w hw he
  injection he with he
  have h1 : w.extractLsb' 26 5 = 29#5 := by rw [← he]; simp (disch := decide) only [wordSkip, wordInner, BitVec.extractLsb'_eq_self, BitVec.reduceExtractLsb', Nat.reduceSub]
  have h2 : w.extractLsb' 23 3 = 4#3 := by rw [← he]; simp (disch := decide) only [wordSkip, wordInner, BitVec.extractLsb'_eq_self, BitVec.reduceExtractLsb', Nat.reduceSub]
  unfold decodeWord Decode.read; rw [h1]
  show Decode.accept (Decode.major29 w) = _
  unfold Decode.major29; rw [h2]
  rw [← he]
  simp (disch := decide) only [Decode.checked, Decode.accept, Decode.fixed, wordSkip, wordInner, bitSkip, bitInner, bitSelf, BitVec.extractLsb'_eq_self, BitVec.reduceExtractLsb', Nat.reduceSub]
  exact if_pos (by simpa using hw)

theorem sqclaim (f : FS) : Statement (.sqclaim f) := by
  intro w hw he
  injection he with he
  have h1 : w.extractLsb' 26 5 = 30#5 := by rw [← he]; simp (disch := decide) only [wordSkip, wordInner, BitVec.extractLsb'_eq_self, BitVec.reduceExtractLsb', Nat.reduceSub]
  have h2 : w.extractLsb' 23 3 = 0#3 := by rw [← he]; simp (disch := decide) only [wordSkip, wordInner, BitVec.extractLsb'_eq_self, BitVec.reduceExtractLsb', Nat.reduceSub]
  unfold decodeWord Decode.read; rw [h1]
  show Decode.accept (Decode.major30 w) = _
  unfold Decode.major30; rw [h2]
  rw [← he]
  simp (disch := decide) only [Decode.checked, Decode.accept, Decode.fixed, wordSkip, wordInner, bitSkip, bitInner, bitSelf, BitVec.extractLsb'_eq_self, BitVec.reduceExtractLsb', Nat.reduceSub]
  exact if_pos (by simpa using hw)

theorem sqpub (f : FSPub) : Statement (.sqpub f) := by
  intro w hw he
  injection he with he
  have h1 : w.extractLsb' 26 5 = 30#5 := by rw [← he]; simp (disch := decide) only [wordSkip, wordInner, BitVec.extractLsb'_eq_self, BitVec.reduceExtractLsb', Nat.reduceSub]
  have h2 : w.extractLsb' 23 3 = 1#3 := by rw [← he]; simp (disch := decide) only [wordSkip, wordInner, BitVec.extractLsb'_eq_self, BitVec.reduceExtractLsb', Nat.reduceSub]
  unfold decodeWord Decode.read; rw [h1]
  show Decode.accept (Decode.major30 w) = _
  unfold Decode.major30; rw [h2]
  rw [← he]
  simp (disch := decide) only [Decode.checked, Decode.accept, Decode.fixed, wordSkip, wordInner, bitSkip, bitInner, bitSelf, BitVec.extractLsb'_eq_self, BitVec.reduceExtractLsb', Nat.reduceSub]
  exact if_pos (by simpa using hw)

theorem sqacq (f : FSAcq) : Statement (.sqacq f) := by
  intro w hw he
  injection he with he
  have h1 : w.extractLsb' 26 5 = 30#5 := by rw [← he]; simp (disch := decide) only [wordSkip, wordInner, BitVec.extractLsb'_eq_self, BitVec.reduceExtractLsb', Nat.reduceSub]
  have h2 : w.extractLsb' 23 3 = 2#3 := by rw [← he]; simp (disch := decide) only [wordSkip, wordInner, BitVec.extractLsb'_eq_self, BitVec.reduceExtractLsb', Nat.reduceSub]
  unfold decodeWord Decode.read; rw [h1]
  show Decode.accept (Decode.major30 w) = _
  unfold Decode.major30; rw [h2]
  rw [← he]
  simp (disch := decide) only [Decode.checked, Decode.accept, Decode.fixed, wordSkip, wordInner, bitSkip, bitInner, bitSelf, BitVec.extractLsb'_eq_self, BitVec.reduceExtractLsb', Nat.reduceSub]
  exact if_pos (by simpa using hw)

theorem sqret (f : FS) : Statement (.sqret f) := by
  intro w hw he
  injection he with he
  have h1 : w.extractLsb' 26 5 = 30#5 := by rw [← he]; simp (disch := decide) only [wordSkip, wordInner, BitVec.extractLsb'_eq_self, BitVec.reduceExtractLsb', Nat.reduceSub]
  have h2 : w.extractLsb' 23 3 = 3#3 := by rw [← he]; simp (disch := decide) only [wordSkip, wordInner, BitVec.extractLsb'_eq_self, BitVec.reduceExtractLsb', Nat.reduceSub]
  unfold decodeWord Decode.read; rw [h1]
  show Decode.accept (Decode.major30 w) = _
  unfold Decode.major30; rw [h2]
  rw [← he]
  simp (disch := decide) only [Decode.checked, Decode.accept, Decode.fixed, wordSkip, wordInner, bitSkip, bitInner, bitSelf, BitVec.extractLsb'_eq_self, BitVec.reduceExtractLsb', Nat.reduceSub]
  exact if_pos (by simpa using hw)

theorem sqinfo (f : FS) : Statement (.sqinfo f) := by
  intro w hw he
  injection he with he
  have h1 : w.extractLsb' 26 5 = 30#5 := by rw [← he]; simp (disch := decide) only [wordSkip, wordInner, BitVec.extractLsb'_eq_self, BitVec.reduceExtractLsb', Nat.reduceSub]
  have h2 : w.extractLsb' 23 3 = 4#3 := by rw [← he]; simp (disch := decide) only [wordSkip, wordInner, BitVec.extractLsb'_eq_self, BitVec.reduceExtractLsb', Nat.reduceSub]
  unfold decodeWord Decode.read; rw [h1]
  show Decode.accept (Decode.major30 w) = _
  unfold Decode.major30; rw [h2]
  rw [← he]
  simp (disch := decide) only [Decode.checked, Decode.accept, Decode.fixed, wordSkip, wordInner, bitSkip, bitInner, bitSelf, BitVec.extractLsb'_eq_self, BitVec.reduceExtractLsb', Nat.reduceSub]
  exact if_pos (by simpa using hw)

theorem press (f : FPress) : Statement (.press f) := by
  intro w hw he
  injection he with he
  have h1 : w.extractLsb' 26 5 = 30#5 := by rw [← he]; simp (disch := decide) only [wordSkip, wordInner, BitVec.extractLsb'_eq_self, BitVec.reduceExtractLsb', Nat.reduceSub]
  have h2 : w.extractLsb' 23 3 = 5#3 := by rw [← he]; simp (disch := decide) only [wordSkip, wordInner, BitVec.extractLsb'_eq_self, BitVec.reduceExtractLsb', Nat.reduceSub]
  unfold decodeWord Decode.read; rw [h1]
  show Decode.accept (Decode.major30 w) = _
  unfold Decode.major30; rw [h2]
  rw [← he]
  simp (disch := decide) only [Decode.checked, Decode.accept, Decode.fixed, wordSkip, wordInner, bitSkip, bitInner, bitSelf, BitVec.extractLsb'_eq_self, BitVec.reduceExtractLsb', Nat.reduceSub]
  exact if_pos (by simpa using hw)

theorem launch (f : FZ) : Statement (.launch f) := by
  intro w hw he
  injection he with he
  have h1 : w.extractLsb' 26 5 = 31#5 := by rw [← he]; simp (disch := decide) only [wordSkip, wordInner, BitVec.extractLsb'_eq_self, BitVec.reduceExtractLsb', Nat.reduceSub]
  have h2 : w.extractLsb' 23 3 = 0#3 := by rw [← he]; simp (disch := decide) only [wordSkip, wordInner, BitVec.extractLsb'_eq_self, BitVec.reduceExtractLsb', Nat.reduceSub]
  unfold decodeWord Decode.read; rw [h1]
  show Decode.accept (Decode.major31 w) = _
  unfold Decode.major31; rw [h2]
  rw [← he]
  simp (disch := decide) only [Decode.checked, Decode.accept, Decode.fixed, wordSkip, wordInner, bitSkip, bitInner, bitSelf, BitVec.extractLsb'_eq_self, BitVec.reduceExtractLsb', Nat.reduceSub]
  exact if_pos (by simpa using hw)

theorem pgprobe (f : FZ) : Statement (.pgprobe f) := by
  intro w hw he
  injection he with he
  have h1 : w.extractLsb' 26 5 = 31#5 := by rw [← he]; simp (disch := decide) only [wordSkip, wordInner, BitVec.extractLsb'_eq_self, BitVec.reduceExtractLsb', Nat.reduceSub]
  have h2 : w.extractLsb' 23 3 = 1#3 := by rw [← he]; simp (disch := decide) only [wordSkip, wordInner, BitVec.extractLsb'_eq_self, BitVec.reduceExtractLsb', Nat.reduceSub]
  unfold decodeWord Decode.read; rw [h1]
  show Decode.accept (Decode.major31 w) = _
  unfold Decode.major31; rw [h2]
  rw [← he]
  simp (disch := decide) only [Decode.checked, Decode.accept, Decode.fixed, wordSkip, wordInner, bitSkip, bitInner, bitSelf, BitVec.extractLsb'_eq_self, BitVec.reduceExtractLsb', Nat.reduceSub]
  exact if_pos (by simpa using hw)

theorem pgpref (f : FZP) : Statement (.pgpref f) := by
  intro w hw he
  injection he with he
  have h1 : w.extractLsb' 26 5 = 31#5 := by rw [← he]; simp (disch := decide) only [wordSkip, wordInner, BitVec.extractLsb'_eq_self, BitVec.reduceExtractLsb', Nat.reduceSub]
  have h2 : w.extractLsb' 23 3 = 2#3 := by rw [← he]; simp (disch := decide) only [wordSkip, wordInner, BitVec.extractLsb'_eq_self, BitVec.reduceExtractLsb', Nat.reduceSub]
  unfold decodeWord Decode.read; rw [h1]
  show Decode.accept (Decode.major31 w) = _
  unfold Decode.major31; rw [h2]
  rw [← he]
  simp (disch := decide) only [Decode.checked, Decode.accept, Decode.fixed, wordSkip, wordInner, bitSkip, bitInner, bitSelf, BitVec.extractLsb'_eq_self, BitVec.reduceExtractLsb', Nat.reduceSub]
  exact if_pos (by simpa using hw)

theorem sysrd (f : FZS) : Statement (.sysrd f) := by
  intro w hw he
  injection he with he
  have h1 : w.extractLsb' 26 5 = 31#5 := by rw [← he]; simp (disch := decide) only [wordSkip, wordInner, BitVec.extractLsb'_eq_self, BitVec.reduceExtractLsb', Nat.reduceSub]
  have h2 : w.extractLsb' 23 3 = 3#3 := by rw [← he]; simp (disch := decide) only [wordSkip, wordInner, BitVec.extractLsb'_eq_self, BitVec.reduceExtractLsb', Nat.reduceSub]
  unfold decodeWord Decode.read; rw [h1]
  show Decode.accept (Decode.major31 w) = _
  unfold Decode.major31; rw [h2]
  have h3 : w.getLsbD 12 = false := by rw [← he]; simp (disch := decide) only [bitSkip, bitInner, Nat.reduceSub] <;> rfl
  show Decode.accept (if w.getLsbD 12 = true then _ else _) = _
  rw [if_neg (by rw [h3]; decide)]
  rw [← he]
  simp (disch := decide) only [Decode.checked, Decode.accept, Decode.fixed, wordSkip, wordInner, bitSkip, bitInner, bitSelf, BitVec.extractLsb'_eq_self, BitVec.reduceExtractLsb', Nat.reduceSub]
  exact if_pos (by simpa using hw)

theorem sysrdPeek (f : FZS) : Statement (.sysrdPeek f) := by
  intro w hw he
  injection he with he
  have h1 : w.extractLsb' 26 5 = 31#5 := by rw [← he]; simp (disch := decide) only [wordSkip, wordInner, BitVec.extractLsb'_eq_self, BitVec.reduceExtractLsb', Nat.reduceSub]
  have h2 : w.extractLsb' 23 3 = 3#3 := by rw [← he]; simp (disch := decide) only [wordSkip, wordInner, BitVec.extractLsb'_eq_self, BitVec.reduceExtractLsb', Nat.reduceSub]
  unfold decodeWord Decode.read; rw [h1]
  show Decode.accept (Decode.major31 w) = _
  unfold Decode.major31; rw [h2]
  have h3 : w.getLsbD 12 = true := by rw [← he]; simp (disch := decide) only [bitSkip, bitInner, Nat.reduceSub] <;> rfl
  show Decode.accept (if w.getLsbD 12 = true then _ else _) = _
  rw [if_pos h3]
  rw [← he]
  simp (disch := decide) only [Decode.checked, Decode.accept, Decode.fixed, wordSkip, wordInner, bitSkip, bitInner, bitSelf, BitVec.extractLsb'_eq_self, BitVec.reduceExtractLsb', Nat.reduceSub]
  exact if_pos (by simpa using hw)

theorem syswr (f : FZS) : Statement (.syswr f) := by
  intro w hw he
  injection he with he
  have h1 : w.extractLsb' 26 5 = 31#5 := by rw [← he]; simp (disch := decide) only [wordSkip, wordInner, BitVec.extractLsb'_eq_self, BitVec.reduceExtractLsb', Nat.reduceSub]
  have h2 : w.extractLsb' 23 3 = 4#3 := by rw [← he]; simp (disch := decide) only [wordSkip, wordInner, BitVec.extractLsb'_eq_self, BitVec.reduceExtractLsb', Nat.reduceSub]
  unfold decodeWord Decode.read; rw [h1]
  show Decode.accept (Decode.major31 w) = _
  unfold Decode.major31; rw [h2]
  rw [← he]
  simp (disch := decide) only [Decode.checked, Decode.accept, Decode.fixed, wordSkip, wordInner, bitSkip, bitInner, bitSelf, BitVec.extractLsb'_eq_self, BitVec.reduceExtractLsb', Nat.reduceSub]
  exact if_pos (by simpa using hw)

theorem pegarm (f : FZ) : Statement (.pegarm f) := by
  intro w hw he
  injection he with he
  have h1 : w.extractLsb' 26 5 = 31#5 := by rw [← he]; simp (disch := decide) only [wordSkip, wordInner, BitVec.extractLsb'_eq_self, BitVec.reduceExtractLsb', Nat.reduceSub]
  have h2 : w.extractLsb' 23 3 = 5#3 := by rw [← he]; simp (disch := decide) only [wordSkip, wordInner, BitVec.extractLsb'_eq_self, BitVec.reduceExtractLsb', Nat.reduceSub]
  unfold decodeWord Decode.read; rw [h1]
  show Decode.accept (Decode.major31 w) = _
  unfold Decode.major31; rw [h2]
  rw [← he]
  simp (disch := decide) only [Decode.checked, Decode.accept, Decode.fixed, wordSkip, wordInner, bitSkip, bitInner, bitSelf, BitVec.extractLsb'_eq_self, BitVec.reduceExtractLsb', Nat.reduceSub]
  exact if_pos (by simpa using hw)

theorem driftStep : Statement .driftStep := noWord rfl

theorem loadReturn (op : Nat) : Statement (.loadReturn op) := noWord rfl

theorem storeAck (op : Nat) : Statement (.storeAck op) := noWord rfl

theorem atomicReturn (op : Nat) : Statement (.atomicReturn op) := noWord rfl

theorem sfuResult (op : Nat) : Statement (.sfuResult op) := noWord rfl

theorem homeLoadRequest (op : Nat) : Statement (.homeLoadRequest op) := noWord rfl

theorem homeWriteThrough (op : Nat) : Statement (.homeWriteThrough op) := noWord rfl

theorem homeOwnedRequest (op : Nat) : Statement (.homeOwnedRequest op) := noWord rfl

theorem ownedGrant (op : Nat) : Statement (.ownedGrant op) := noWord rfl

theorem grantAcknowledge (sec agent : Nat) : Statement (.grantAcknowledge sec agent) := noWord rfl

theorem forwardReceive (sec agent : Nat) : Statement (.forwardReceive sec agent) := noWord rfl

theorem recallReceive (sec agent : Nat) : Statement (.recallReceive sec agent) := noWord rfl

theorem ownerAnswer (sec agent : Nat) (img : SecImg) : Statement (.ownerAnswer sec agent img) := noWord rfl

theorem writeBackReceive (sec agent : Nat) (img : SecImg) : Statement (.writeBackReceive sec agent img) := noWord rfl

theorem writeBackAck (sec agent wts : Nat) : Statement (.writeBackAck sec agent wts) := noWord rfl

theorem fillReply (op : Nat) : Statement (.fillReply op) := noWord rfl

theorem writeThroughAck (op : Nat) : Statement (.writeThroughAck op) := noWord rfl

theorem requestRefusedResend (op : Nat) : Statement (.requestRefusedResend op) := noWord rfl

theorem packageRebase : Statement .packageRebase := noWord rfl

theorem floorMessage (core ctx region floor : Nat) : Statement (.floorMessage core ctx region floor) := noWord rfl

theorem mwaitWake (uid wts : Nat) : Statement (.mwaitWake uid wts) := noWord rfl

theorem mwaitTimeout (uid : Nat) : Statement (.mwaitTimeout uid) := noWord rfl

theorem remoteTimeout (op : Nat) : Statement (.remoteTimeout op) := noWord rfl

theorem lateReplyDrop (port : Nat) : Statement (.lateReplyDrop port) := noWord rfl

theorem fairnessOverdue (path : Nat) : Statement (.fairnessOverdue path) := noWord rfl

theorem gangDemotion (path : Nat) : Statement (.gangDemotion path) := noWord rfl

theorem parkedPathTakeover (path : Nat) : Statement (.parkedPathTakeover path) := noWord rfl

theorem noProgress (gid : Nat) : Statement (.noProgress gid) := noWord rfl

theorem urgencyEvaluation (team : Nat) : Statement (.urgencyEvaluation team) := noWord rfl

theorem swapOut (gout gin : Nat) : Statement (.swapOut gout gin) := noWord rfl

theorem forcedSwap (gout gin : Nat) : Statement (.forcedSwap gout gin) := noWord rfl

theorem freePositionSwapIn (gid : Nat) : Statement (.freePositionSwapIn gid) := noWord rfl

theorem swapComplete (gid : Nat) : Statement (.swapComplete gid) := noWord rfl

theorem collectiveAccept (team bar : Nat) : Statement (.collectiveAccept team bar) := noWord rfl

theorem granuleLand (item : Nat) : Statement (.granuleLand item) := noWord rfl

theorem matrixPassGrant (cluster : Nat) : Statement (.matrixPassGrant cluster) := noWord rfl

theorem matrixPassEnd (cluster : Nat) : Statement (.matrixPassEnd cluster) := noWord rfl

theorem tileOpApply (op : Nat) : Statement (.tileOpApply op) := noWord rfl

theorem sqclaimRequest (op : Nat) : Statement (.sqclaimRequest op) := noWord rfl

theorem sqpubRequest (op : Nat) : Statement (.sqpubRequest op) := noWord rfl

theorem sqacqRequest (op : Nat) : Statement (.sqacqRequest op) := noWord rfl

theorem sqretRequest (op : Nat) : Statement (.sqretRequest op) := noWord rfl

theorem sqinfoRequest (op : Nat) : Statement (.sqinfoRequest op) := noWord rfl

theorem sqacqReply (op : Nat) : Statement (.sqacqReply op) := noWord rfl

theorem sequenceReply (op : Nat) : Statement (.sequenceReply op) := noWord rfl

theorem sequenceResend (op : Nat) : Statement (.sequenceResend op) := noWord rfl

theorem pageWalk (ctx core : Nat) (va : BitVec 64) (by_ : Option (Nat × BitVec 32 × Nat)) : Statement (.pageWalk ctx core va by_) := noWord rfl

theorem pageRequestRetry (uid : Nat) : Statement (.pageRequestRetry uid) := noWord rfl

theorem launchHeadRead (q : Nat) : Statement (.launchHeadRead q) := noWord rfl

theorem dispatchSlotTake (cls : Nat) : Statement (.dispatchSlotTake cls) := noWord rfl

theorem launchDispatch (launch : Nat) : Statement (.launchDispatch launch) := noWord rfl

theorem teamPlace (launch : Nat) : Statement (.teamPlace launch) := noWord rfl

theorem launchStampWrite (launch : Nat) : Statement (.launchStampWrite launch) := noWord rfl

theorem hostProdWrite (host q : Nat) (value : BitVec 32) : Statement (.hostProdWrite host q value) := noWord rfl

theorem flitReceive (port : Nat) (crcOk : Bool) (op : Nat) : Statement (.flitReceive port crcOk op) := noWord rfl

theorem flitResend (port op : Nat) : Statement (.flitResend port op) := noWord rfl

theorem linkTrainingDone (port lanes : Nat) : Statement (.linkTrainingDone port lanes) := noWord rfl

theorem retrainLimitExpiry (port : Nat) : Statement (.retrainLimitExpiry port) := noWord rfl

theorem linkStateReport (node port : Nat) (up pub : Bool) : Statement (.linkStateReport node port up pub) := noWord rfl

theorem linkReroute (port : Nat) : Statement (.linkReroute port) := noWord rfl

theorem lostWrite (op : Nat) : Statement (.lostWrite op) := noWord rfl

theorem exportRead (off : BitVec 48) (size reply : Nat) : Statement (.exportRead off size reply) := noWord rfl

theorem pubChunkReceive (c : PubChunk) : Statement (.pubChunkReceive c) := noWord rfl

theorem pubRefusedReturn (op sub chunk node : Nat) : Statement (.pubRefusedReturn op sub chunk node) := noWord rfl

theorem pubAckReceive (op sub : Nat) (taken : Bool) : Statement (.pubAckReceive op sub taken) := noWord rfl

theorem pubDeadline (op : Nat) : Statement (.pubDeadline op) := noWord rfl

theorem ptpSync (adjust : Int) : Statement (.ptpSync adjust) := noWord rfl

theorem preemptRemoteBound (ctx : Nat) : Statement (.preemptRemoteBound ctx) := noWord rfl

theorem teardownNodeAck (ctx node : Nat) : Statement (.teardownNodeAck ctx node) := noWord rfl

theorem teardownBound (ctx : Nat) : Statement (.teardownBound ctx) := noWord rfl

theorem create (c : PortCmd) : Statement (.create c) := noWord rfl

theorem start (c : PortCmd) : Statement (.start c) := noWord rfl

theorem preempt (c : PortCmd) : Statement (.preempt c) := noWord rfl

theorem resume (c : PortCmd) : Statement (.resume c) := noWord rfl

theorem teardown (c : PortCmd) : Statement (.teardown c) := noWord rfl

theorem qenable (c : PortCmd) : Statement (.qenable c) := noWord rfl

theorem qdrain (c : PortCmd) : Statement (.qdrain c) := noWord rfl

theorem qclear (c : PortCmd) : Statement (.qclear c) := noWord rfl

theorem dgrant (c : PortCmd) : Statement (.dgrant c) := noWord rfl

theorem drevoke (c : PortCmd) : Statement (.drevoke c) := noWord rfl

theorem region (c : PortCmd) : Statement (.region c) := noWord rfl

theorem invalidate (c : PortCmd) : Statement (.invalidate c) := noWord rfl

theorem resolve (c : PortCmd) : Statement (.resolve c) := noWord rfl

theorem pegStop : Statement .pegStop := noWord rfl

theorem sampleTag (sched : Nat) : Statement (.sampleTag sched) := noWord rfl

theorem histogramThreshold (unit : Nat) : Statement (.histogramThreshold unit) := noWord rfl

theorem abortWrite (op : Nat) : Statement (.abortWrite op) := noWord rfl

theorem windowLengthWrite (op : Nat) : Statement (.windowLengthWrite op) := noWord rfl

theorem retrainLimitWrite (op : Nat) : Statement (.retrainLimitWrite op) := noWord rfl

theorem fabricTableInstall (op : Nat) : Statement (.fabricTableInstall op) := noWord rfl

theorem dieScratchpadContribWrite (op : Nat) : Statement (.dieScratchpadContribWrite op) := noWord rfl

theorem systemRegisterWrite (op : Nat) : Statement (.systemRegisterWrite op) := noWord rfl

theorem hemFaultReport (tag : BitVec 64) (loc : Nat) (syn : BitVec 16) : Statement (.hemFaultReport tag loc syn) := noWord rfl

theorem malformedWord (cause : DecodeFate) (pkt : Word) (word : Nat) : Statement (.malformedWord cause pkt word) := noWord rfl

theorem halt (c : DbgCmd) : Statement (.halt c) := noWord rfl

theorem debugResume (c : DbgCmd) : Statement (.debugResume c) := noWord rfl

theorem staterd (c : DbgCmd) : Statement (.staterd c) := noWord rfl

theorem edit (c : DbgCmd) : Statement (.edit c) := noWord rfl

theorem memrd (c : DbgCmd) : Statement (.memrd c) := noWord rfl

theorem memwr (c : DbgCmd) : Statement (.memwr c) := noWord rfl

theorem commit (c : DbgCmd) : Statement (.commit c) := noWord rfl

theorem discard (c : DbgCmd) : Statement (.discard c) := noWord rfl

theorem breakSet (c : DbgCmd) : Statement (.breakSet c) := noWord rfl

theorem watch (c : DbgCmd) : Statement (.watch c) := noWord rfl

theorem trace (c : DbgCmd) : Statement (.trace c) := noWord rfl

theorem sample (c : DbgCmd) : Statement (.sample c) := noWord rfl

theorem histo (c : DbgCmd) : Statement (.histo c) := noWord rfl

theorem trigger (c : DbgCmd) : Statement (.trigger c) := noWord rfl

theorem peg (c : DbgCmd) : Statement (.peg c) := noWord rfl

theorem scan (c : DbgCmd) : Statement (.scan c) := noWord rfl

theorem go (c : DbgCmd) : Statement (.go c) := noWord rfl

theorem startSequence (m : Mishaps) : Statement (.startSequence m) := noWord rfl

theorem attestationRequest (host : Nat) (nonce : BitVec 384) : Statement (.attestationRequest host nonce) := noWord rfl

theorem issueSlotWithheld (matrix : Bool) (unit : Nat) : Statement (.issueSlotWithheld matrix unit) := noWord rfl

theorem firmwareQueuePost (record : BitVec 1024) : Statement (.firmwareQueuePost record) := noWord rfl

theorem linkTrainingStart (port : Nat) : Statement (.linkTrainingStart port) := noWord rfl

theorem bufferDefect (port groups : Nat) : Statement (.bufferDefect port groups) := noWord rfl

theorem granuleCorruption (loc : Nat) (flip : BitVec 256) : Statement (.granuleCorruption loc flip) := noWord rfl

theorem powerLoss : Statement .powerLoss := noWord rfl

theorem failureCountClear (step unit : Nat) : Statement (.failureCountClear step unit) := noWord rfl

end RoundTrip

end Sys2Proof.Laws
end

