-- ==== Sys2Proof/Laws/Traps.lean ====
section
/-! SUPPORT. What taking a trap and returning from one can do (R377-R381), and what putting an operation in flight and ending one can do
(R33, R34). -/

namespace Sys2Proof.Laws

open Sys2Proof.Machine

/-- A trap of a gang outside trap mode: each of its threads enters trap mode, its groups note the trap, and nothing else changes. -/
theorem takeTrap_user (s : State) (q : TrapReq) (t : Thread) (r : List Thread) (h : s.gangThreads = t :: r) (hu : t.trapMode = false) :
    s.takeTrap q = { s with
      trapped := s.trapped + 1,
      threads := s.threads.map fun u => if s.gang.contains u.uid then State.enterTrap { s with trapped := s.trapped + 1 } q u else u,
      groups := s.groups.map fun g => if (s.gids s.gangThreads).contains g.gid then
        { g with wd := if q.cause == 0x30 then 0 else g.wd, progress := true } else g } := by
  have h' : State.gangThreads { s with trapped := s.trapped + 1 } = t :: r := h
  simp only [State.takeTrap, h', hu]
  rw [← h]
  rfl

/-- A trap with no thread to take it only counts. -/
theorem takeTrap_empty (s : State) (q : TrapReq) (h : s.gangThreads = []) : s.takeTrap q = { s with trapped := s.trapped + 1 } := by
  have h' : State.gangThreads { s with trapped := s.trapped + 1 } = [] := h
  simp only [State.takeTrap, h']

/-- The position and mode after a trap's entry. -/
theorem enterTrap_place (s : State) (q : TrapReq) (t : Thread) :
    (s.enterTrap q t).trapMode = true ∧ (s.enterTrap q t).pkt = 0 ∧ (s.enterTrap q t).word = 0 ∧ (s.enterTrap q t).clause = none ∧
    (s.enterTrap q t).regs = t.regs ∧ (s.enterTrap q t).preds = t.preds ∧ (s.enterTrap q t).uid = t.uid := ⟨rfl, rfl, rfl, rfl, rfl, rfl, rfl⟩

/-- Returning from a trap: a gang outside trap mode traps `PRIVILEGE`, a changed depth is fatal, else every thread leaves trap mode. -/
theorem returnFromTrap_cases (s : State) :
    ((∃ t ∈ s.gangThreads, t.trapMode = false) ∧ s.returnFromTrap = s.trapCause cPrivilege) ∨
    (∃ t ∈ s.gangThreads, t.depth ≠ field (t.trapWord 12) 15 0 ∧
      s.returnFromTrap = .next ({ s with trapped := s.trapped + 1 }.fatalTrap (TrapReq.of 0x13) t)) ∨
    ((∀ t ∈ s.gangThreads, t.trapMode = true ∧ t.depth = field (t.trapWord 12) 15 0) ∧
      s.returnFromTrap = .next (s.modThreads s.gang s.leaveTrap)) := by
  unfold State.returnFromTrap
  by_cases h : s.gangThreads.any fun t => !t.trapMode
  · left
    rw [if_pos h]
    obtain ⟨t, ht, h⟩ := List.any_eq_true.mp h
    exact ⟨⟨t, ht, by simpa using h⟩, rfl⟩
  · rw [if_neg h]
    right
    cases hf : s.gangThreads.find? fun t => t.depth != field (t.trapWord 12) 15 0 with
    | some t => exact .inl ⟨t, List.mem_of_find?_eq_some hf, by simpa using List.find?_some hf, rfl⟩
    | none =>
      refine .inr ⟨fun t ht => ⟨?_, ?_⟩, rfl⟩
      · simp only [List.any_eq_true, not_exists, not_and, Bool.not_eq_true, Bool.not_eq_false'] at h; exact h t ht
      · have := List.find?_eq_none.mp hf t ht; simpa using this

/-! ### Operations in flight -/

@[simp] theorem begin_ops (s : State) (o : Op) : (s.begin o).ops = s.ops ++ [{ o with id := s.nextId }] := rfl
@[simp] theorem begin_nextId (s : State) (o : Op) : (s.begin o).nextId = s.nextId + 1 := rfl
@[simp] theorem begin_mem (s : State) (o : Op) : (s.begin o).mem = s.mem := rfl
@[simp] theorem begin_groups (s : State) (o : Op) : (s.begin o).groups = s.groups := rfl
@[simp] theorem begin_agenda (s : State) (o : Op) : (s.begin o).agenda = s.agenda := rfl
@[simp] theorem send_agenda (s : State) (o : Op) (ev : Nat → Instr) : (s.send o ev).agenda = s.agenda ++ [ev s.nextId] := rfl
@[simp] theorem send_ops (s : State) (o : Op) (ev : Nat → Instr) : (s.send o ev).ops = s.ops ++ [{ o with id := s.nextId }] := rfl
@[simp] theorem send_nextId (s : State) (o : Op) (ev : Nat → Instr) : (s.send o ev).nextId = s.nextId + 1 := rfl
@[simp] theorem send_mem (s : State) (o : Op) (ev : Nat → Instr) : (s.send o ev).mem = s.mem := rfl
@[simp] theorem finish_ops (s : State) (o : Op) : (s.finish o).ops = s.ops.filter fun x => x.id != o.id := rfl
@[simp] theorem finish_mem (s : State) (o : Op) : (s.finish o).mem = s.mem := rfl
@[simp] theorem finish_groups (s : State) (o : Op) : (s.finish o).groups = s.groups := rfl

/-- The end of an operation writes no register and moves no thread. -/
theorem finish_threads (s : State) (o : Op) :
    List.Forall₂ (fun a b => b.regs = a.regs ∧ b.preds = a.preds ∧ b.pkt = a.pkt ∧ b.word = a.word ∧ b.state = a.state ∧ b.uid = a.uid)
      s.threads (s.finish o).threads := by
  show List.Forall₂ _ s.threads (s.threads.map _)
  rw [List.forall₂_map_right_iff, List.forall₂_same]
  intro a _
  dsimp only
  split
  · unfold Thread.finish; split <;> exact ⟨rfl, rfl, rfl, rfl, rfl, rfl⟩
  · exact ⟨rfl, rfl, rfl, rfl, rfl, rfl⟩

end Sys2Proof.Laws
end

