-- ==== Sys2Proof/Safety.lean ====
section
/-! DEFINITION. What counts as a safe run: the package goes on. -/

namespace Sys2Proof

/-- The step answers a next state. -/
def Machine.State.Runs (s : Machine.State) : Prop := ∃ t, Machine.step s = .next t

end Sys2Proof
end

