-- ==== Sys2Proof/Tests/Slice0.lean ====
section
/-! SUPPORT. Tests: an ill-formed term for every check on field values, a word of every encoding, small states that meet the hypotheses of the
statements, and single steps with results taken from the manual. -/

namespace Sys2Proof.Tests

open Sys2Proof Sys2Proof.Machine Sys2Proof.Says

set_option Elab.async false

/-! ### Ill-formed terms -/

/-- R36, R38: flag fields 12 to 14, a guard of `p7` on the negated branch, an odd pair. -/
theorem test_ill_formed_fields :
    (Instr.clause ⟨0, 12, 15, 0, false⟩).wf = false ∧ (Instr.clause ⟨0, 0, 14, 0, false⟩).wf = false ∧ (Instr.clause ⟨0, 11, 15, 0, false⟩).wf ∧
    (Instr.braNegated ⟨false, 7, 0⟩).wf = false ∧ (Instr.mon ⟨false, 7, 5⟩).wf = false ∧
    (Instr.addw ⟨false, 1, 0, 0, 7⟩).wf = false ∧ (Instr.addw ⟨false, 0, 1, 0, 7⟩).wf = false ∧ (Instr.addw ⟨false, 0, 0, 3, 7⟩).wf = false ∧
    (Instr.mulw ⟨false, 3, 0, 0, 7⟩).wf = false := by decide

/-- R39: reserved codes of `FENCE`, `SETP`, `CVT`, the shifts, `BCAST`, `RDSP` and `WRSP`, and a source that is no s register. -/
theorem test_ill_formed_codes :
    (Instr.fence ⟨false, 7, 0, 2⟩).wf = false ∧ (Instr.fence ⟨false, 7, 1, 5⟩).wf = false ∧
    (Instr.setp ⟨false, 7, 0, 0, 0, 0, 7⟩).wf = false ∧ (Instr.setp ⟨false, 0, 0, 0, 0, 6, 7⟩).wf = false ∧
    (Instr.setp ⟨false, 0, 0, 0, 6, 0, 7⟩).wf = false ∧ (Instr.setp ⟨false, 0, 0, 0, 6, 2, 7⟩).wf ∧
    (Instr.cvt ⟨false, 0, 0, 10, 0, 0, false⟩).wf = false ∧ (Instr.cvt ⟨false, 0, 0, 0, 10, 0, false⟩).wf = false ∧
    (Instr.cvt ⟨false, 0, 0, 0, 6, 1, false⟩).wf = false ∧ (Instr.cvt ⟨false, 0, 0, 2, 6, 1, false⟩).wf ∧
    (Instr.cvtSlotSource ⟨false, 0, 0, 10, 0⟩).wf = false ∧ (Instr.cvtSlotDest ⟨false, 0, 0, 10, 0⟩).wf = false ∧
    (Instr.shli ⟨false, 0, 0, 32⟩).wf = false ∧ (Instr.shri ⟨false, 0, 0, 32⟩).wf = false ∧ (Instr.bcast ⟨false, 0, 0, 32, 7⟩).wf = false ∧
    (Instr.slideh ⟨false, 0, 0, 63, 7⟩).wf = false ∧ (Instr.movsv ⟨false, 0, 63, 7⟩).wf = false ∧
    (Instr.rdsp ⟨false, 0, 16, 7⟩).wf = false ∧ (Instr.rdsp ⟨false, 1, 9, 7⟩).wf = false ∧ (Instr.wrsp ⟨false, 12, 0, 7⟩).wf = false ∧
    (Instr.sadd ⟨false, 0, 1, 65⟩).wf = false ∧ (Instr.sshr ⟨false, 0, 65, 1⟩).wf = false := by decide

/-- R43, R44, R131, R138: widths, alignment of data registers, atomic codes and the last register of `CAS`. -/
theorem test_ill_formed_accesses :
    (Instr.ldp ⟨false, 7, 5, false, 0, 0, 0⟩).wf = false ∧ (Instr.stp ⟨false, 7, 3, false, 1, 0, 0⟩).wf = false ∧
    (Instr.ldg ⟨false, 7, 4, false, 2, 0, 0⟩).wf = false ∧ (Instr.ldg ⟨false, 7, 2, false, 0, 1, 0⟩).wf = false ∧
    (Instr.stg ⟨false, 7, 2, false, 0, 1, 0⟩).wf = false ∧ (Instr.ldf ⟨false, 7, 2, false, 0, 1, 0, false⟩).wf = false ∧
    (Instr.stf ⟨false, 7, 6, false, 0, 0, 0⟩).wf = false ∧ (Instr.ldg ⟨false, 7, 4, false, 4, 2, 0⟩).wf ∧
    (Instr.atsc ⟨false, 7, false, false, 0, 0, 12⟩).wf = false ∧ (Instr.atcl ⟨false, 7, true, false, 0, 0, 10⟩).wf = false ∧
    (Instr.atds ⟨false, 7, true, false, 1, 0, 0⟩).wf = false ∧ (Instr.atg ⟨false, 7, false, false, 63, 0, 9⟩).wf = false ∧
    (Instr.atg ⟨false, 7, true, false, 62, 0, 9⟩).wf = false ∧ (Instr.atf ⟨false, 7, false, false, 0, 3, 0⟩).wf = false ∧
    (Instr.atg ⟨false, 7, true, false, 60, 0, 9⟩).wf ∧ (Instr.pfg ⟨false, 7, false, 0, 3⟩).wf = false ∧
    (Instr.pfg ⟨false, 7, false, 1, 0⟩).wf = false ∧ (Instr.pubf ⟨false, 7, false, 0, 1⟩).wf = false := by decide

/-- R39, R266, R275: the fields of copies, matrix words, barriers, sequences, launches, pages and pegs. -/
theorem test_ill_formed_units :
    (Instr.cpy ⟨false, false, 0, 1, 65⟩).wf = false ∧ (Instr.cpyt ⟨false, false, 0, 65, 1⟩).wf = false ∧ (Instr.cpyx ⟨false, false, 0, 1, 1⟩).wf = false ∧
    (Instr.cpys ⟨false, false, 64, 0⟩).wf = false ∧ (Instr.mma ⟨false, false, 0, 0, 0, 0, 1, false, false⟩).wf = false ∧
    (Instr.mma ⟨false, false, 0, 0, 0, 0, 60, false, false⟩).wf = false ∧ (Instr.mma ⟨false, false, 0, 0, 0, 0, 0, true, false⟩).wf = false ∧
    (Instr.mma ⟨false, false, 0, 0, 1, 0, 0, false, true⟩).wf = false ∧ (Instr.mma ⟨false, false, 0, 0, 3, 1, 0, true, false⟩).wf = false ∧
    (Instr.mma ⟨false, false, 0, 0, 3, 0, 58, true, true⟩).wf ∧ (Instr.accrd ⟨false, false, 0, 0, 0, false, false⟩).wf = false ∧
    (Instr.accwr ⟨false, false, 0, 0, 0, true, true⟩).wf = false ∧ (Instr.btest ⟨false, 7, false, 0, 0, 7⟩).wf = false ∧
    (Instr.sqclaim ⟨false, 7, false, 1, 0, 0⟩).wf = false ∧ (Instr.sqpub ⟨false, 7, false, 0, 1⟩).wf = false ∧
    (Instr.sqacq ⟨false, 7, false, 1, 0, 0, false⟩).wf = false ∧ (Instr.sqacq ⟨false, 7, false, 0, 0, 1, false⟩).wf = false ∧
    (Instr.sqinfo ⟨false, 7, false, 2, 0, 0⟩).wf = false ∧ (Instr.press ⟨false, 7, false, 16⟩).wf = false ∧
    (Instr.launch ⟨false, 7, false, 0, 1⟩).wf = false ∧ (Instr.launch ⟨false, 7, false, 0, 62⟩).wf = false ∧
    (Instr.pgprobe ⟨false, 7, false, 1, 0⟩).wf = false ∧ (Instr.pgprobe ⟨false, 7, false, 0, 1⟩).wf = false ∧
    (Instr.pgpref ⟨false, 7, false, 1⟩).wf = false ∧ (Instr.pegarm ⟨false, 7, false, 0, 1⟩).wf = false := by decide

/-- R386: a debug command's data block is 32 bytes. -/
theorem test_ill_formed_command (c : DbgCmd) (h : c.data = []) : (Instr.halt c).wf = false := by simp [Instr.wf, h]

/-! ### Words -/

/-- The words that the manual writes out (R92-R394), each with the instruction it says it is. -/
theorem test_manual_words :
    decodeWord 0x35030297 = .ok (.setp ⟨false, 2, 3, 1, 2, 2, 7⟩) ∧
    decodeWord 0x3C404D24 = .ok (.cvt ⟨false, 4, 2, 6, 9, 0, true⟩) ∧
    decodeWord 0x44811339 = .ok (.slideh ⟨false, 8, 8, 76, 7⟩) ∧
    decodeWord 0x4881203C = .ok (.rdsp ⟨false, 8, 9, 7⟩) ∧
    decodeWord 0x63CC5440 = .ok (.atg ⟨false, 7, true, false, 10, 68, 0⟩) ∧
    decodeWord 0x63E00064 = .ok (.pfg ⟨false, 7, false, 6, 1⟩) ∧
    decodeWord 0x67E02480 = .ok (.pubf ⟨false, 7, false, 4, 72⟩) ∧
    decodeWord 0x0BA86000 = .ok (.mon ⟨false, 7, 6⟩) ∧
    decodeWord 0x7AF00300 = .ok (.press ⟨false, 7, false, 3⟩) ∧
    decodeWord 0x74001400 = .ok (.gjoin ⟨false, 5⟩) ∧
    decodeWord 0x7DF13180 = .ok (.sysrdPeek ⟨false, 7, false, 9, 6⟩) := by decide

/-- R38, R45: a reserved field value is ILLEGAL-ENCODING, an unlisted subcode ILLEGAL-INSTRUCTION. -/
theorem test_refused_words :
    decodeWord 0x00000001 = .error .illegalEncoding ∧ decodeWord 0x3434C03F = .error .illegalEncoding ∧
    decodeWord 0x0BF80000 = .error .illegalInstruction := by decide

/-! ### One word of every encoding: the fixed bits of its row and field values of its format -/

theorem test_words_of_major_0 :
    decodeWord 0x014BBC9A = .ok (.clause ⟨1326, 15, 2, 6, true⟩) := by decide

theorem test_words_of_major_1 :
    decodeWord 0x07090C19 = .ok (.bra ⟨false, 6, 592921⟩) ∧
    decodeWord 0x8490BECD = .ok (.braNegated ⟨true, 1, 48845⟩) ∧
    decodeWord 0x84A1A61D = .ok (.call ⟨true, 1, 108061⟩) ∧
    decodeWord 0x87B6D76B = .ok (.seam ⟨true, 448363⟩) ∧
    decodeWord 0x0742E000 = .ok (.brx ⟨false, 6, 23⟩) ∧
    decodeWord 0x065FA000 = .ok (.callx ⟨false, 4, 125⟩) ∧
    decodeWord 0x86E00000 = .ok (.ret ⟨true, 5⟩) := by decide

theorem test_words_of_major_2 :
    decodeWord 0x0A800000 = .ok (.nop ⟨false, 5⟩) ∧
    decodeWord 0x0B880000 = .ok (.yield ⟨false, 7⟩) ∧
    decodeWord 0x0A900000 = .ok (.exit ⟨false, 5⟩) ∧
    decodeWord 0x8A9AC000 = .ok (.trap ⟨true, 5, 88⟩) ∧
    decodeWord 0x0BA00000 = .ok (.rft ⟨false⟩) ∧
    decodeWord 0x88AE8000 = .ok (.mon ⟨true, 1, 104⟩) ∧
    decodeWord 0x0AB00000 = .ok (.mwait ⟨false, 5⟩) ∧
    decodeWord 0x0B3C4000 = .ok (.fence ⟨false, 6, 2, 1⟩) ∧
    decodeWord 0x8B400000 = .ok (.bkpt ⟨true, 6⟩) := by decide

theorem test_words_of_major_3 :
    decodeWord 0x8F7C7E70 = .ok (.add ⟨true, 55, 99, 121, 6⟩) ∧
    decodeWord 0x0E219E51 = .ok (.sub ⟨false, 34, 12, 121, 2⟩) ∧
    decodeWord 0x0C91B7D2 = .ok (.mullo ⟨false, 9, 13, 95, 2⟩) ∧
    decodeWord 0x8E15C4AB = .ok (.mulhiI ⟨true, 33, 46, 18, 5⟩) ∧
    decodeWord 0x8E2C7014 = .ok (.mulhiN ⟨true, 34, 99, 64, 2⟩) ∧
    decodeWord 0x8C1FC0F5 = .ok (.minI ⟨true, 1, 126, 3, 6⟩) ∧
    decodeWord 0x0E7FDCE6 = .ok (.maxI ⟨false, 39, 126, 115, 4⟩) ∧
    decodeWord 0x0DBCB457 = .ok (.minN ⟨false, 27, 101, 81, 2⟩) := by decide

theorem test_words_of_major_4 :
    decodeWord 0x133A64A0 = .ok (.maxN ⟨false, 51, 83, 18, 4⟩) ∧
    decodeWord 0x9086FFB1 = .ok (.and ⟨true, 8, 55, 126, 6⟩) ∧
    decodeWord 0x934E709A = .ok (.or ⟨true, 52, 115, 66, 3⟩) ∧
    decodeWord 0x903535E3 = .ok (.xor ⟨true, 3, 41, 87, 4⟩) ∧
    decodeWord 0x93A10E14 = .ok (.andn ⟨true, 58, 8, 56, 2⟩) ∧
    decodeWord 0x93B43DA5 = .ok (.shl ⟨true, 59, 33, 118, 4⟩) ∧
    decodeWord 0x139C64FE = .ok (.shr ⟨false, 57, 99, 19, 7⟩) ∧
    decodeWord 0x90E2969F = .ok (.sar ⟨true, 14, 20, 90, 3⟩) := by decide

theorem test_words_of_major_5 :
    decodeWord 0x147FDD70 = .ok (.adds ⟨false, 7, 126, 117, 6⟩) ∧
    decodeWord 0x950664E1 = .ok (.subs ⟨true, 16, 51, 19, 4⟩) ∧
    decodeWord 0x17BEA8A2 = .ok (.shrr ⟨false, 59, 117, 34, 4⟩) ∧
    decodeWord 0x14B3203B = .ok (.popc ⟨false, 11, 25, 7⟩) ∧
    decodeWord 0x9608C03C = .ok (.clz ⟨true, 32, 70, 7⟩) ∧
    decodeWord 0x162D5C5D = .ok (.bfe ⟨false, 34, 106, 113, 3⟩) ∧
    decodeWord 0x964D5A36 = .ok (.addw ⟨true, 36, 106, 104, 6⟩) ∧
    decodeWord 0x174AF2B7 = .ok (.mulw ⟨false, 52, 87, 74, 6⟩) := by decide

theorem test_words_of_major_6 :
    decodeWord 0x1AFBCF10 = .ok (.ffmaF32 ⟨false, 47, 94, 60, 16⟩) := by decide

theorem test_words_of_major_7 :
    decodeWord 0x1F10B3A8 = .ok (.ffmaF16x2 ⟨false, 49, 5, 78, 40⟩) := by decide

theorem test_words_of_major_8 :
    decodeWord 0x21D77887 = .ok (.ffmaBf16x2 ⟨false, 29, 59, 98, 7⟩) := by decide

theorem test_words_of_major_9 :
    decodeWord 0xA7F73FD1 = .ok (.madI32 ⟨true, 63, 57, 127, 17⟩) := by decide

theorem test_words_of_major_10 :
    decodeWord 0x2B81D697 = .ok (.dot2I16 ⟨false, 56, 14, 90, 23⟩) := by decide

theorem test_words_of_major_11 :
    decodeWord 0x2F057AD9 = .ok (.dot4I8 ⟨false, 48, 43, 107, 25⟩) := by decide

theorem test_words_of_major_12 :
    decodeWord 0xB2512BB8 = .ok (.faddF32 ⟨true, 37, 9, 46, 7⟩) ∧
    decodeWord 0x3315F939 = .ok (.fmulF32 ⟨false, 49, 47, 100, 7⟩) ∧
    decodeWord 0xB30234B2 = .ok (.fminF32 ⟨true, 48, 17, 82, 6⟩) ∧
    decodeWord 0xB0F4CF63 = .ok (.fmaxF32 ⟨true, 15, 38, 61, 4⟩) ∧
    decodeWord 0x3088C60C = .ok (.faddF16x2 ⟨false, 8, 70, 24, 1⟩) ∧
    decodeWord 0xB0D60895 = .ok (.fmulF16x2 ⟨true, 13, 48, 34, 2⟩) ∧
    decodeWord 0x319A4E5E = .ok (.faddBf16x2 ⟨false, 25, 82, 57, 3⟩) ∧
    decodeWord 0x3321A70F = .ok (.fmulBf16x2 ⟨false, 50, 13, 28, 1⟩) := by decide

theorem test_words_of_major_13 :
    decodeWord 0xB543A2EE = .ok (.setp ⟨true, 2, 67, 81, 3, 5, 6⟩) := by decide

theorem test_words_of_major_14 :
    decodeWord 0xB9AB4028 = .ok (.rcp ⟨true, 26, 90, 5⟩) ∧
    decodeWord 0xB9BEC011 = .ok (.rsq ⟨true, 27, 118, 2⟩) ∧
    decodeWord 0xB843401A = .ok (.sqrt ⟨true, 4, 26, 3⟩) ∧
    decodeWord 0x3A72E03B = .ok (.exp2 ⟨false, 39, 23, 7⟩) ∧
    decodeWord 0x39A0C02C = .ok (.log2 ⟨false, 26, 6, 5⟩) ∧
    decodeWord 0x3A9EE025 = .ok (.tanh ⟨false, 41, 119, 4⟩) := by decide

theorem test_words_of_major_15 :
    decodeWord 0xBDBD0E58 = .ok (.cvt ⟨true, 27, 104, 7, 2, 3, false⟩) ∧
    decodeWord 0x3CF69E34 = .ok (.cvtSlotSource ⟨false, 15, 52, 1, 5⟩) ∧
    decodeWord 0x3DE8D1E8 = .ok (.cvtSlotDest ⟨false, 30, 70, 8, 2⟩) := by decide

theorem test_words_of_major_16 :
    decodeWord 0x41A3AFF8 = .ok (.movi ⟨false, 26, 30207⟩) ∧
    decodeWord 0xC12259A9 = .ok (.movhi ⟨true, 18, 19253⟩) ∧
    decodeWord 0x40949C4A = .ok (.addi ⟨false, 9, 36, 905⟩) ∧
    decodeWord 0x43F08343 = .ok (.andi ⟨false, 63, 4, 104⟩) ∧
    decodeWord 0xC3ED32AC = .ok (.ori ⟨true, 62, 105, 597⟩) ∧
    decodeWord 0x40D08BCD = .ok (.xori ⟨false, 13, 4, 377⟩) ∧
    decodeWord 0xC14BA00E = .ok (.shli ⟨true, 20, 93, 1⟩) ∧
    decodeWord 0xC290A0B7 = .ok (.shri ⟨true, 41, 5, 22⟩) := by decide

theorem test_words_of_major_17 :
    decodeWord 0x4615B108 = .ok (.slide ⟨false, 33, 45, 68, 1⟩) ∧
    decodeWord 0x46825BE9 = .ok (.slideh ⟨false, 40, 18, 111, 5⟩) ∧
    decodeWord 0xC5C9BDE2 = .ok (.shfl ⟨true, 28, 77, 119, 4⟩) ∧
    decodeWord 0xC6AF064B = .ok (.bcast ⟨true, 42, 120, 25, 1⟩) ∧
    decodeWord 0x45500024 = .ok (.ballot ⟨false, 21, 4⟩) ∧
    decodeWord 0x45E00035 = .ok (.actmask ⟨false, 30, 6⟩) ∧
    decodeWord 0xC4D64026 = .ok (.redadd ⟨true, 13, 50, 4⟩) ∧
    decodeWord 0x46CA402F = .ok (.redmax ⟨false, 44, 82, 5⟩) := by decide

theorem test_words_of_major_18 :
    decodeWord 0xCB488038 = .ok (.mov ⟨true, 52, 68, 7⟩) ∧
    decodeWord 0xCA817A71 = .ok (.sel ⟨true, 40, 11, 105, 6⟩) ∧
    decodeWord 0x483B6032 = .ok (.movsv ⟨false, 3, 91, 6⟩) ∧
    decodeWord 0x4BD7E023 = .ok (.movvs ⟨false, 61, 63, 4⟩) ∧
    decodeWord 0xCAF1601C = .ok (.rdsp ⟨true, 47, 11, 3⟩) ∧
    decodeWord 0x48AF602D = .ok (.wrsp ⟨false, 10, 123, 5⟩) := by decide

theorem test_words_of_major_19 :
    decodeWord 0x4C6A3D38 = .ok (.sadd ⟨false, 6, 81, 116⟩) ∧
    decodeWord 0x4D09B7B9 = .ok (.ssub ⟨false, 16, 77, 94⟩) ∧
    decodeWord 0xCE9B32BA = .ok (.smul ⟨true, 41, 89, 74⟩) ∧
    decodeWord 0xCEAEFBFB = .ok (.sand ⟨true, 42, 119, 111⟩) ∧
    decodeWord 0x4EDC9E7C = .ok (.sor ⟨false, 45, 100, 121⟩) ∧
    decodeWord 0xCC1A397D = .ok (.sxor ⟨true, 1, 81, 101⟩) ∧
    decodeWord 0x4EEFD3BE = .ok (.sshl ⟨false, 46, 126, 78⟩) ∧
    decodeWord 0xCFD87F3F = .ok (.sshr ⟨true, 61, 67, 124⟩) := by decide

theorem test_words_of_major_20 :
    decodeWord 0x5312463D = .ok (.ldp ⟨false, 6, 4, true, 8, 99, 13⟩) ∧
    decodeWord 0xD3ABE118 = .ok (.stp ⟨true, 7, 2, true, 60, 17, 8⟩) := by decide

theorem test_words_of_major_21 :
    decodeWord 0xD607CD89 = .ok (.ldsc ⟨true, 4, 1, true, 57, 88, 9⟩) ∧
    decodeWord 0xD7ABF0C8 = .ok (.stsc ⟨true, 7, 2, true, 62, 12, 8⟩) ∧
    decodeWord 0x564A9255 = .ok (.atsc ⟨false, 4, false, true, 18, 37, 5⟩) := by decide

theorem test_words_of_major_22 :
    decodeWord 0xDB8C201A = .ok (.ldcl ⟨true, 7, 3, false, 4, 1, 10⟩) ∧
    decodeWord 0xDAA61AEC = .ok (.stcl ⟨true, 5, 1, true, 3, 46, 12⟩) ∧
    decodeWord 0xDB4CC274 = .ok (.atcl ⟨true, 6, true, false, 24, 39, 4⟩) := by decide

theorem test_words_of_major_23 :
    decodeWord 0xDE07BEA7 = .ok (.ldds ⟨true, 4, 1, true, 55, 106, 7⟩) ∧
    decodeWord 0x5F27C6FF = .ok (.stds ⟨false, 6, 1, true, 56, 111, 15⟩) ∧
    decodeWord 0xDF4FF1D4 = .ok (.atds ⟨true, 6, true, true, 62, 29, 4⟩) := by decide

theorem test_words_of_major_24 :
    decodeWord 0x62062FAC = .ok (.ldg ⟨false, 4, 1, true, 5, 122, 3⟩) ∧
    decodeWord 0x63A5ADCC = .ok (.stg ⟨false, 7, 1, false, 53, 92, 3⟩) ∧
    decodeWord 0xE2CA8963 = .ok (.atg ⟨true, 5, false, true, 17, 22, 3⟩) ∧
    decodeWord 0x626205A8 = .ok (.pfg ⟨false, 4, true, 90, 2⟩) := by decide

theorem test_words_of_major_25 :
    decodeWord 0xE59321C8 = .ok (.ldf ⟨true, 3, 4, true, 36, 28, 2, false⟩) ∧
    decodeWord 0xE526DF2C = .ok (.stf ⟨true, 2, 1, true, 27, 114, 3⟩) ∧
    decodeWord 0xE7CBA42B = .ok (.atf ⟨true, 7, false, true, 52, 66, 11⟩) ∧
    decodeWord 0xE4E2D3E0 = .ok (.pubf ⟨true, 1, true, 26, 62⟩) := by decide

theorem test_words_of_major_26 :
    decodeWord 0xE8C1C7E0 = .ok (.cpy ⟨true, true, 32, 113, 124⟩) ∧
    decodeWord 0x69631A40 = .ok (.cpyt ⟨false, false, 49, 70, 72⟩) ∧
    decodeWord 0x6AD3CA20 = .ok (.cpyx ⟨false, true, 41, 114, 68⟩) ∧
    decodeWord 0xEB015F10 = .ok (.cpys ⟨true, false, 87, 98⟩) := by decide

theorem test_words_of_major_27 :
    decodeWord 0xEC2CF8E0 = .ok (.mma ⟨true, false, 11, 1, 3, 6, 14, false, false⟩) ∧
    decodeWord 0xECD70000 = .ok (.accz ⟨true, true, 5, 6⟩) ∧
    decodeWord 0x6D3A02E4 = .ok (.accrd ⟨false, false, 14, 4, 46, false, true⟩) ∧
    decodeWord 0x6DD08188 = .ok (.accwr ⟨false, true, 4, 1, 24, true, false⟩) ∧
    decodeWord 0x6E370000 = .ok (.accnorm ⟨false, false, 13, 6⟩) ∧
    decodeWord 0xEE800000 = .ok (.mfence ⟨true⟩) := by decide

theorem test_words_of_major_28 :
    decodeWord 0x705B2FE0 = .ok (.binit ⟨false, 5, true, 50, 127⟩) ∧
    decodeWord 0xF0D41000 = .ok (.barv ⟨true, 5, false, 65⟩) ∧
    decodeWord 0xF16C7420 = .ok (.bexp ⟨true, 6, true, 71, 33⟩) ∧
    decodeWord 0x71C9E554 = .ok (.bwait ⟨false, 4, true, 30, 42, 5⟩) ∧
    decodeWord 0x726B3D44 = .ok (.btest ⟨false, 6, true, 51, 106, 1⟩) ∧
    decodeWord 0x72A47000 = .ok (.bretire ⟨false, 2, false, 71⟩) ∧
    decodeWord 0x73700000 = .ok (.gbar ⟨false⟩) ∧
    decodeWord 0x73F00000 = .ok (.tbar ⟨false⟩) := by decide

theorem test_words_of_major_29 :
    decodeWord 0x7400B400 = .ok (.gjoin ⟨false, 45⟩) ∧
    decodeWord 0xF4D88000 = .ok (.ginfo ⟨true, 44, 32⟩) ∧
    decodeWord 0x7517EC00 = .ok (.fabclr ⟨false, 11, 123⟩) ∧
    decodeWord 0xF5813800 = .ok (.wspill ⟨true, 78⟩) ∧
    decodeWord 0x76004400 = .ok (.wfill ⟨false, 17⟩) := by decide

theorem test_words_of_major_30 :
    decodeWord 0x7874D2A0 = .ok (.sqclaim ⟨false, 7, false, 38, 18, 80⟩) ∧
    decodeWord 0x78E81BD4 = .ok (.sqpub ⟨false, 6, true, 27, 106⟩) ∧
    decodeWord 0x793C5DA1 = .ok (.sqacq ⟨false, 3, true, 34, 29, 80, true⟩) ∧
    decodeWord 0x79F7B39E = .ok (.sqret ⟨false, 7, false, 61, 19, 79⟩) ∧
    decodeWord 0x7A448E64 = .ok (.sqinfo ⟨false, 4, false, 36, 14, 50⟩) ∧
    decodeWord 0xFAD80300 = .ok (.press ⟨true, 5, true, 3⟩) := by decide

theorem test_words_of_major_31 :
    decodeWord 0x7C799200 = .ok (.launch ⟨false, 7, true, 12, 72⟩) ∧
    decodeWord 0xFCAE1780 = .ok (.pgprobe ⟨true, 2, true, 48, 94⟩) ∧
    decodeWord 0xFD301A00 = .ok (.pgpref ⟨true, 3, false, 104⟩) ∧
    decodeWord 0xFDA128C0 = .ok (.sysrd ⟨true, 2, false, 9, 35⟩) ∧
    decodeWord 0x7DCD9C00 = .ok (.sysrdPeek ⟨false, 4, true, 44, 48⟩) ∧
    decodeWord 0xFE394B00 = .ok (.syswr ⟨true, 3, true, 10, 44⟩) ∧
    decodeWord 0x7EA2B280 = .ok (.pegarm ⟨false, 2, false, 21, 74⟩) := by decide

/-! ### Small states -/

/-- One team of one launch of context 0 with two threads, on lanes 0 and 1, at word 1 of packet 0; the first issues. The context's page table maps the
first GiB of its addresses. -/
def tiny : State :=
  let s := State.reset.withFetchWord 32 0x0A800000;
  { s with threads := s.threads.take 2, gang := [1] }

/-- Its first thread, its group and its team. -/
def t1 : Thread := { Thread.fresh 1 1 0 1 with word := 1, clause := some { flagA := 15, flagB := 15, stop := 1 } }

def g1 : Group := tiny.groups.headD (Group.fresh 0 0 0 0 [] 0)

def m1 : Team := tiny.teams.headD (Team.fresh 0 0 0 0 0)

def c1 : Ctx := tiny.ctxs.headD (Ctx.fresh 0)

/-- The small state with another first thread. -/
def with1 (t : Thread) : State := { tiny with threads := tiny.threads.map fun u => if u.uid = 1 then t else u }

/-- A thread with a register of its first window. -/
def holding (n : Nat) (w : Word) (t : Thread := t1) : Thread := { t with regs := SMap.put 0 n w t.regs }

/-- The state after an instruction. -/
def after (i : Instr) (s : State) : State := match exec i s with | .next t => t | _ => { s with power := false }

/-- The small state is what its parts say. -/
theorem test_tiny : tiny.gangThreads = [t1] ∧ tiny.groups = [g1] ∧ tiny.teams = [m1] ∧ tiny.ctxs = [c1] ∧ c1.root = 2147483648 := by decide +kernel

/-- Every clause of the statements on words and operands without hypotheses of their own holds of this state. -/
theorem test_executing : tiny.executing 7 = [t1] ∧ tiny.executing 0 = [] ∧ Distinct tiny ∧ OutsideTrap tiny ∧ Standing tiny := by
  unfold Distinct OutsideTrap Standing; decide +kernel

/-! ### Operands and arithmetic -/

theorem test_meets_SourceFieldReads : t1.old = none ∧ tiny.groupOf t1 = some g1 ∧ (63 : BitVec 7).toNat < 64 ∧ 64 ≤ (64 : BitVec 7).toNat := by
  decide +kernel

/-- R36: `v63` in window 0 and `s3`, which holds TCOUNT. -/
theorem test_source : (with1 (holding 63 7)).src (holding 63 7) 63 = 7 ∧ tiny.src t1 67 = 1 := by decide +kernel

/-- What the first thread's sources were before a chain that has since written `v5`. -/
def kept : Before := ⟨[(5, 8)], 3, 0, 1, 40, 6, [(3, 2)], 7⟩

def chained : Thread := { holding 5 9 with old := some kept }

/-- R29: inside the chain `v5`, `s3`, `p1`, FMODE and `LT` read as before it. -/
theorem test_meets_ChainReadsOldValues : chained.old = some kept ∧ ((5 : BitVec 7).toNat < 64 ∧ 64 ≤ (67 : BitVec 7).toNat) ∧
    ((tiny.src chained 5, tiny.src chained 67), (chained.p 1, tiny.mode chained), tiny.special chained 8) = ((8, 2), (true, 7), 40) := by decide +kernel

theorem test_meets_ChainKeepsOldValues : (∀ u ∈ tiny.threads, u.old = none) ∧ tiny.issued = [] ∧ t1.uid ∈ tiny.gang ∧ t1.again = [] := by decide +kernel

/-- R71: the sixteen shared registers at the lowest and the highest W, and window 15 of 16 beside window 0. -/
theorem test_meets_WindowRegisters : physReg 2 1 15 = physReg 2 0 63 ∧ physReg 16 16 0 = physReg 16 15 48 ∧ physReg 16 15 63 = 783 ∧
    physReg 16 17 63 = 95 := by decide

/-- R101: -1 + 1 wraps to 0, `SHL` by 32 is 0, `SAR` by 40 fills with the sign. -/
theorem test_integer_results : (table52.map fun e => e.2 0xFFFFFFFF 1) =
    [0, 0xFFFFFFFE, 0xFFFFFFFF, 0xFFFFFFFF, 0, 0xFFFFFFFF, 1, 1, 0xFFFFFFFF, 1, 0xFFFFFFFF, 0xFFFFFFFE, 0xFFFFFFFE, 0xFFFFFFFE, 0x7FFFFFFF, 0xFFFFFFFF] ∧
    ((table52.drop 13).map fun e => e.2 0x80000000 40) = [0, 0, 0xFFFFFFFF] := by decide +kernel

theorem test_meets_WidePairs : (Instr.addw ⟨false, 62, 62, 126, 7⟩).wf = true ∧ (Instr.mulw ⟨false, 0, 1, 1, 7⟩).wf = true := by decide

/-- R53, R54: a signalling NaN, a quiet one, both infinities, ∞ · 0 and two zeros in FP32. -/
theorem test_meets_FloatSpecialOperands : F32.read 0x7F800001 = .nan true ∧ F32.read 0x7FC00000 = .nan false ∧ F32.read 0x7F800000 = .inf false ∧
    F32.read 0xFF800000 = .inf true ∧ (∃ e, F32.read 0x00000000 = .fin false 0 e ∧ F32.read 0x80000000 = .fin true 0 e) := by
  refine ⟨by decide, by decide, by decide, by decide, _, rfl, by decide⟩

theorem test_meets_RoundingKeepsRepresentable : (0xFF7FFFFF : Nat) < 2 * F32.signBit ∧ (∃ m e, F32.read 0xFF7FFFFF = .fin true m e) ∧
    (0x7E : Nat) < 2 * E4M3.signBit ∧ ∃ m e, E4M3.read 0x7E = .fin false m e := ⟨by decide, ⟨_, _, rfl⟩, by decide, _, _, rfl⟩

theorem test_one : IsValue F32 0x3F800000 1 :=
  ⟨by unfold isNan; decide, by unfold isInf; decide, by norm_num [F32, negative, expField, manField, show Nat.testBit 1065353216 31 = false from by decide]⟩

theorem test_four : IsValue F32 0x40800000 4 :=
  ⟨by unfold isNan; decide, by unfold isInf; decide, by norm_num [F32, negative, expField, manField, show Nat.testBit 1082130432 31 = false from by decide]⟩

theorem test_zero : IsValue F32 0x00000000 0 :=
  ⟨by unfold isNan; decide, by unfold isInf; decide, by norm_num [F32, negative, expField, manField, show Nat.testBit 0 31 = false from by decide]⟩

theorem test_minus_151 : IsValue F32 0xC3170000 (-151) :=
  ⟨by unfold isNan; decide, by unfold isInf; decide, by norm_num [F32, negative, expField, manField, show Nat.testBit 3273064448 31 = true from by decide]⟩

theorem test_128 : IsValue F32 0x43000000 128 :=
  ⟨by unfold isNan; decide, by unfold isInf; decide, by norm_num [F32, negative, expField, manField, show Nat.testBit 1124073472 31 = false from by decide]⟩

theorem test_ten : IsValue F32 0x41200000 10 :=
  ⟨by unfold isNan; decide, by unfold isInf; decide, by norm_num [F32, negative, expField, manField, show Nat.testBit 1092616192 31 = false from by decide]⟩

theorem test_half : IsValue F32 0x3F000000 (1 / 2) :=
  ⟨by unfold isNan; decide, by unfold isInf; decide, by norm_num [F32, negative, expField, manField, show Nat.testBit 1056964608 31 = false from by decide]⟩

/-- A code that is no subnormal is an operand of its value, flushed or not. -/
theorem test_operand (f : Fmt) (z : Bool) (c : Nat) (x : ℝ) (h : IsValue f c x) (n : ¬ isSubnormal f c) : IsOperand f z c x :=
  ⟨fun a => absurd a.2 n, fun _ => h⟩

theorem test_operand_one : IsOperand F32 true 0x3F800000 1 := test_operand _ _ _ _ test_one (by unfold isSubnormal; decide)

theorem test_operand_four : IsOperand F32 true 0x40800000 4 := test_operand _ _ _ _ test_four (by unfold isSubnormal; decide)

theorem test_operand_zero : IsOperand F32 true 0 0 := test_operand _ _ _ _ test_zero (by unfold isSubnormal; decide)

/-- 1 and 4, with sums and products that are not 0, and zeros. -/
theorem test_meets_FloatExact : IsOperand F32 true 0x3F800000 1 ∧ IsOperand F32 true 0x40800000 4 ∧ IsOperand F32 true 0 0 ∧
    ((1 : ℝ) + 4 ≠ 0 ∧ (1 : ℝ) * 4 ≠ 0 ∧ (1 : ℝ) * 4 + 1 ≠ 0) ∧ ((0 : ℝ) + 0 = 0 ∧ (0 : ℝ) * 1 = 0 ∧ (0 : ℝ) * 1 + 0 = 0) ∧
    negative F32 0 = negative F32 0 :=
  ⟨test_operand_one, test_operand_four, test_operand_zero, by norm_num, by norm_num, rfl⟩

/-- ∞ with 1, with 0 as an addend, with itself, and with −∞ as the addend of a product. -/
theorem test_meets_FloatInfinities : isInf F32 0x7F800000 ∧ isInf F32 0xFF800000 ∧ negative F32 0xFF800000 ≠ negative F32 0x7F800000 ∧
    (IsOperand F32 true 0x3F800000 1 ∧ (1 : ℝ) ≠ 0) ∧ IsOperand F32 true 0 0 := by
  refine ⟨by unfold isInf; decide, by unfold isInf; decide, by decide, ⟨test_operand_one, by norm_num⟩, test_operand_zero⟩

theorem test_meets_FloatMinMax : isSignalling F32 (0x7F800001 : Word).toNat ∧ (isNan F32 (0x7FC00000 : Word).toNat ∧
    ¬ isSignalling F32 (0x7FC00000 : Word).toNat) ∧ ¬ isNan F32 (0x80000000 : Word).toNat := by
  unfold isSignalling isNan; decide

/-- 1 before 4, 0 equal to 0, and the infinities. -/
theorem test_meets_FloatOrder : F32 ∈ [F32, F16, BF16] ∧ IsOperand F32 true 0x3F800000 1 ∧ IsOperand F32 true 0x40800000 4 ∧ (1 : ℝ) < 4 ∧
    isInf F32 0x7F800000 :=
  ⟨by simp, test_operand_one, test_operand_four, by norm_num, by unfold isInf; decide⟩

/-- A NaN, an infinity, 1 (which is exact), −151 (below an I8) and 1/2 (a tie) as F32. -/
theorem test_meets_FloatConversions : isNan F32 ((0x7FC00000 : Word).toNat % 2 ^ (F32.ebits + F32.mbits + 1)) ∧
    isInf F32 ((0xFF800000 : Word).toNat % 2 ^ (F32.ebits + F32.mbits + 1)) ∧
    (IsValue F32 0x3F800000 1 ∧ RoundsToInt 0 1 1) ∧ (IsValue F32 0xC3170000 (-151) ∧ RoundsToInt 3 (-151) (-151)) ∧
    (IsValue F32 0x3F000000 (1 / 2) ∧ RoundsToInt 0 (1 / 2) 0) ∧ IsOperand F32 true 0x3F800000 1 := by
  refine ⟨by unfold isNan; decide, by unfold isInf; decide, ⟨test_one, ?_⟩, ⟨test_minus_151, ?_⟩, ⟨test_half, ?_⟩, test_operand_one⟩
  · norm_num [RoundsToInt]
  · show (-151 : Int) = ⌊(-151 : ℝ)⌋
    norm_num
  · norm_num [RoundsToInt, abs_of_pos]

theorem test_meets_RootsAndReciprocals : IsOperand F32 true (0x40800000 : Word).toNat 4 ∧ (4 : ℝ) ≠ 0 ∧ (0 : ℝ) < 4 ∧
    IsUlp (1 / Real.sqrt 4) (2 ^ (-24 : Int)) := by
  have h : Real.sqrt 4 = 2 := by rw [show (4 : ℝ) = 2 ^ 2 by norm_num]; exact Real.sqrt_sq (by norm_num)
  refine ⟨test_operand_four, by norm_num, by norm_num, -24, by norm_num, by norm_num, ?_, .inr ?_⟩ <;> rw [h] <;> norm_num [abs_of_pos]

/-- 128, −151, 1 = 2^0, 4 = 2^2 and 10. -/
theorem test_meets_SpecialFunctionExact : (IsOperand F32 true (0x43000000 : Word).toNat 128 ∧ (128 : ℝ) ≤ 128) ∧
    (IsOperand F32 true (0xC3170000 : Word).toNat (-151) ∧ (-151 : ℝ) < -150) ∧
    (IsOperand F32 true (0x40800000 : Word).toNat 4 ∧ (4 : ℝ) = (4 : Int) ∧ (-149 : Int) ≤ 4 ∧ (4 : ℝ) = 2 ^ (2 : Int)) ∧
    IsOperand F32 true (0x41200000 : Word).toNat 10 ∧ (10 : ℝ) ≤ 10 := by
  refine ⟨⟨test_operand _ _ _ _ test_128 (by unfold isSubnormal; decide), le_refl _⟩, ⟨test_operand _ _ _ _ test_minus_151 (by unfold isSubnormal; decide),
    by norm_num⟩, ⟨test_operand_four, by norm_num, by norm_num, by norm_num⟩, test_operand _ _ _ _ test_ten (by unfold isSubnormal; decide), le_refl _⟩

theorem test_meets_SpecialFunctionAccuracy : (IsOperand F32 true (0x3F800000 : Word).toNat 1 ∧ (1 : ℝ) ≠ 0 ∧ (-150 : ℝ) ≤ 1 ∧ (1 : ℝ) < 128 ∧
    IsUlp (2 ^ (1 : ℝ)) (2 ^ (-22 : Int)) ∧ ((1 : ℝ) / 2 ≤ 1 ∧ (1 : ℝ) ≤ 2) ∧ |(1 : ℝ)| < 10 ∧ (2 : ℝ) ^ (-3 : Int) ≤ |1|) ∧
    (IsOperand F32 true (0x40800000 : Word).toNat 4 ∧ ¬ ((1 : ℝ) / 2 ≤ 4 ∧ (4 : ℝ) ≤ 2)) := by
  refine ⟨⟨test_operand_one, by norm_num, by norm_num, by norm_num, ⟨-22, by norm_num, by norm_num, ?_, .inr ?_⟩, by norm_num, by norm_num, by norm_num⟩,
    test_operand_four, by norm_num⟩ <;> norm_num [abs_of_pos]

/-- 1 and 4, whose square roots 1 and 2 are values. -/
theorem test_meets_SpecialFunctionOrder : IsOperand F32 true (0x3F800000 : Word).toNat 1 ∧ IsOperand F32 true (0x40800000 : Word).toNat 4 ∧
    (1 : ℝ) < 4 ∧ (0 : ℝ) < 1 * 4 ∧ IsValue F32 (sfuSqrt true 0x3F800000).1.toNat 1 := by
  refine ⟨test_operand_one, test_operand_four, by norm_num, by norm_num, ?_⟩
  rw [show (sfuSqrt true 0x3F800000).1.toNat = 0x3F800000 by decide +kernel]
  exact test_one

theorem test_meets_ComparePredicate : (Instr.setp ⟨false, 6, 0, 0, 7, 4, 7⟩).wf = true ∧ (Instr.setp ⟨false, 0, 0, 0, 5, 5, 0⟩).wf = true := by decide

/-- R108: -1 is below 1 as I32, above it as N32; a NaN is unordered. -/
theorem test_compare : ordered 0 0 0xFFFFFFFF 1 = (some .lt, false) ∧ ordered 1 0 0xFFFFFFFF 1 = (some .gt, false) ∧
    ordered 2 0 0x7FC00000 0 = (none, false) ∧ ordered 2 0 0x7F800001 0 = (none, true) := by decide +kernel

/-- R60: 200 to I8 keeps the low bits without `.SAT` and clamps with it. -/
theorem test_meets_IntegerConversion : (5 : Nat) < 6 ∧ convert false 5 0 0 false 200 = (0xFFFFFFC8, 0) ∧ convert false 5 0 0 true 200 = (127, 0b100000) := by
  decide +kernel

theorem test_meets_LaneGathering : (∃ u ∈ tiny.gangThreads, u.p 7 ∧ tiny.src u 0 = 0) ∧ (∀ u ∈ tiny.gangThreads, u.p 7 → (tiny.src u 0).toInt ≤ (0 : Word).toInt) ∧
    ∀ u ∈ tiny.gangThreads, u.p 0 = false := by decide +kernel

theorem test_meets_LowestLaneThread : tiny.lowest (tiny.executing 7) 1 = some t1 ∧ tiny.lowest (tiny.executing 7) 2 = none := by decide +kernel

theorem test_meets_ReadSpecial : (Instr.rdsp ⟨false, 63, 15, 7⟩).wf = true ∧ (Instr.rdsp ⟨false, 62, 8, 7⟩).wf = true ∧
    (Instr.rdsp ⟨false, 62, 9, 7⟩).wf = true := by decide

theorem test_meets_WriteSpecial : (Instr.wrsp ⟨false, 10, 0, 7⟩).wf = true ∧ (Instr.wrsp ⟨false, 11, 0, 7⟩).wf = true := by decide

/-- A special function of the first thread in flight, to be written to `v5` with `DZ`. -/
def sfuOp : Op := { tiny.opOf t1 .sfu 15 with id := 64, regs := [5], args := [3], aop := 2 }

theorem test_meets_SpecialFunctionResult : ({ tiny with ops := [sfuOp] }).op 64 = some sfuOp ∧ sfuOp.kind = .sfu ∧ sfuOp.regs = [5] ∧ sfuOp.args = [3] ∧
    sfuOp.aop = 2 := by decide +kernel

theorem test_meets_SpecialFunctionBounds : F32.read (0x7F800001 : Word).toNat = .nan true ∧ (∃ m e, F32.readFtz false (0xBF800000 : Word).toNat = .fin true (m + 1) e) ∧
    ∀ b, F32.read (0x3F800000 : Word).toNat ≠ .nan b := ⟨by decide, ⟨8388607, _, rfl⟩, by decide⟩

/-! ### Clauses, control and traps -/

/-- R32: no flag counts; and flag 11 of the second thread of a gang of two counts. -/
theorem test_meets_ClauseHeader :
    (∀ t ∈ tiny.gangThreads, ∀ i < 12, (0xFFF : BitVec 12).getLsbD i → t.count i = 0) ∧
    let s := { tiny with gang := [1, 2], threads := tiny.threads.map fun (t : Thread) => if t.uid = 2 then { t with flags := [(11, 1)] } else t };
    ∃ t ∈ s.gangThreads, ∃ i < 12, (0x800 : BitVec 12).getLsbD i ∧ t.count i ≠ 0 := by decide +kernel

/-- R90: depth 0, and depth 65,534 with every older window spilled. -/
theorem test_meets_Calls :
    (∀ u ∈ tiny.executing 7, u.depth < 65535 ∧ u.depth - u.spill + 1 ≠ tiny.win u.tid) ∧
    let s := with1 { t1 with depth := 65534, spill := 65534 };
    ∀ u ∈ s.executing 7, u.depth < 65535 ∧ u.depth - u.spill + 1 ≠ s.win u.tid := by decide +kernel

theorem test_meets_Returns :
    ∀ u ∈ (with1 { t1 with depth := 1 }).executing 7, u.depth ≠ 0 ∧ u.spill ≠ u.depth := by decide +kernel

/-- R91: depth 65,535, then W resident windows at a lower depth; depth 0, then a spilled caller. -/
theorem test_meets_CallReturnTraps :
    let top := with1 { t1 with depth := 65535 };
    let full := with1 { t1 with depth := 1 };
    let gone := with1 { t1 with depth := 3, spill := 3 };
    (OutsideTrap top ∧ ∃ u ∈ top.executing 7, u.depth = 65535) ∧
    (OutsideTrap full ∧ (∀ u ∈ full.executing 7, u.depth ≠ 65535) ∧ ∃ u ∈ full.executing 7, u.depth - u.spill + 1 = full.win u.tid) ∧
    (OutsideTrap tiny ∧ ∃ u ∈ tiny.executing 7, u.depth = 0) ∧
    (OutsideTrap gone ∧ (∀ u ∈ gone.executing 7, u.depth ≠ 0) ∧ ∃ u ∈ gone.executing 7, u.spill = u.depth) := by
  unfold OutsideTrap; decide +kernel

/-- A seam entry of depth 0 with a tag. -/
def seamOf (tag : Nat) : Seam := { pkt := 9, depth := 0, tag := tag }

theorem test_meets_SeamPush :
    let s := with1 { t1 with seams := (List.range 7).map fun k => seamOf (k + 1) };
    Distinct s ∧ ∀ u ∈ s.gangThreads, u.tid = 1 ∧ u.seams.length < 8 := by unfold Distinct; decide +kernel

/-- R84: a fortieth entry; and an eighth entry without private space for more. -/
theorem test_meets_SeamOverflowTraps :
    (let s := with1 { t1 with seams := (List.range 40).map fun k => seamOf (k + 1) }; OutsideTrap s ∧ ∃ u ∈ s.gangThreads, u.seams.length = 40) ∧
    let s := { with1 { t1 with seams := (List.range 8).map fun k => seamOf (k + 1) } with launches := [] };
    OutsideTrap s ∧ ∃ u ∈ s.gangThreads, 8 ≤ u.seams.length ∧ recPriv (s.recordOf u.tid) < 256 := by unfold OutsideTrap; decide +kernel

theorem test_meets_SeamOverflow :
    let u := { t1 with seams := (List.range 8).map fun k => seamOf (k + 1) };
    let s := with1 u;
    let o := recPriv (s.recordOf u.tid) - 256;
    s.gangThreads = [u] ∧ s.groupOf u = some g1 ∧ u.seams.length = 8 ∧ 256 ≤ recPriv (s.recordOf u.tid) ∧
      (∀ i < 8, s.synAt (s.laneOwnLoc u (o + i)) = 0) ∧ ∀ i < 8, ∀ j < 8, s.laneOwnLoc u (o + i) = s.laneOwnLoc u (o + j) → i = j := by decide +kernel

/-- R94: the first thread's path alone holds an entry. -/
theorem test_meets_YieldBars : tiny.executing 0 = [] ∧ tiny.executing 7 = [t1] ∧ tiny.gangPaths = [1] ∧
    (tiny.paths.find? fun q => q.id == 1) = some (Path.fresh 1 0 1 0) := by decide +kernel

/-- The first thread at a `GBAR`. -/
def gathering : Thread := { t1 with state := .waiting, wait := .gbar }

/-- The first thread runs; or a `GBAR` of its chain already makes it wait. -/
theorem test_meets_SoftwareTraps : (OutsideTrap tiny ∧ tiny.executing 0 = [] ∧ tiny.executing 7 = [t1] ∧ tiny.ctx (tiny.ctxOf t1.tid) = some c1 ∧
    c1.dbg = none ∧ ∀ u ∈ tiny.gangThreads, u.state ≠ .waiting) ∧
    OutsideTrap (with1 gathering) ∧ (with1 gathering).executing 7 = [gathering] ∧ (with1 gathering).ctx ((with1 gathering).ctxOf 1) = some c1 ∧
    ∃ u ∈ (with1 gathering).gangThreads, u.state = .waiting := by
  unfold OutsideTrap; decide +kernel

/-- R96: `TRAP 0x2A` enters trap mode at packet 0, word 0 with cause 0x38 and the resume point at word 2. -/
theorem test_trap : ((after (.trap ⟨false, 7, 0x2A⟩) tiny).gangThreads.map fun b =>
    ((b.trapMode, b.pkt, b.word), b.trapWord 0, field (b.trapWord 1) 15 8, field (b.trapWord 1) 31 24, field (b.trapWord 1) 1 0)) =
      [((true, 0, 0), 0, 0x38, 0x2A, 2)] := by decide +kernel

theorem test_meets_BreakpointHalts :
    let c := { c1 with dbg := some 2 };
    let s := { tiny with ctxs := [c] };
    s.executing 7 = [t1] ∧ s.ctx (s.ctxOf t1.tid) = some c ∧ c.dbg = some 2 := by decide +kernel

theorem test_meets_MalformedWordTraps : OutsideTrap tiny ∧ (2 : Nat) < 3 ∧
    let s := with1 { t1 with word := 2 }; ∀ u ∈ s.threads, u.uid ∈ s.gang → u.pkt = 0 ∧ u.word = 2 := by unfold OutsideTrap; decide +kernel

/-- R382: WINDOW, which is system register 0x110. -/
theorem test_meets_PrivilegedWords : let s := with1 (holding 9 0x110);
    OutsideTrap s ∧ (∀ u ∈ s.gangThreads, s.firmware u = false) ∧ s.executing 7 = [holding 9 0x110] ∧
    (s.src (holding 9 0x110) 9).toNat = 0x110 ∧ listedWrite 0x110 := by unfold OutsideTrap listedWrite writable readable; decide +kernel

/-- R381: a seam list of one entry, which the handler has kept; the resume point where the trap was taken, and one that the handler has moved. -/
theorem test_meets_ReturnFromTrap :
    let e : Seam := { pkt := 9, depth := 0, tag := 1 };
    let c := Clause.mk 15 15 7;
    let at_ (k : Word) : Thread := { t1 with trapMode := true, depth := 2, trap := [(0, k), (9, 1), (12, 2), (13, 0x7F)], seams := [e], trapSeams := [e],
                                             trapAt := some { pkt := 5, word := 0, clause := some c } };
    let u := at_ 5;
    let s := with1 u;
    ((∀ u ∈ s.gangThreads, u.trapMode = true ∧ u.depth = field (u.trapWord 12) 15 0) ∧ u.trapSeams.length = field (u.trapWord 9) 5 0 ∧
    u.seams = u.trapSeams ∧ u.trapAt = some { pkt := 5, word := 0, clause := some c } ∧ (5 : Word) = u.trapWord 0 ∧ 0 = field (u.trapWord 1) 1 0) ∧
    let v := at_ 0;
    (5 : Word) ≠ v.trapWord 0 ∧ ((with1 v).clauseAt { v with trapMode := false } (v.trapWord 0)).isSome := by decide +kernel

/-- A thread in trap mode. -/
def inTrap (d s : Nat) : Thread := { t1 with trapMode := true, depth := d, spill := s }

/-- Locations that rise are distinct. -/
theorem distinct_of_rising (p : Nat → Nat) (n : Nat) (h : ∀ i < n, p i < p (i + 1)) : ∀ i ≤ n, ∀ j ≤ n, p i = p j → i = j := by
  have up : ∀ d i, i + d + 1 ≤ n → p i < p (i + d + 1) := fun d => by
    induction d with
    | zero => exact fun i hi => h i hi
    | succ d ih => exact fun i hi => (ih i (by omega)).trans (h (i + d + 1) (by omega))
  intro i hi j hj e
  rcases Nat.lt_trichotomy i j with l | l | l
  · have := up (j - i - 1) i (by omega); rw [show i + (j - i - 1) + 1 = j by omega] at this; omega
  · exact l
  · have := up (i - j - 1) j (by omega); rw [show j + (i - j - 1) + 1 = i by omega] at this; omega

/-- R98: W resident windows; a spilled caller; and neither. -/
theorem test_meets_WindowImages :
    (∀ u ∈ [inTrap 1 0, inTrap 2 2, inTrap 0 0],
      let s := with1 u;
      let o := (s.src u 0).toNat / 256 * 256;
      s.gangThreads = [u] ∧ (s.threads.map Thread.uid).Nodup ∧ u.trapMode = true ∧ u.pois = [] ∧ o + 512 ≤ recPriv (s.recordOf u.tid) ∧
      (∀ i < 256, s.laneOwnLoc u (o + i) / 16 ∉ s.slots ∧ s.synAt (s.laneOwnLoc u (o + i)) = 0) ∧ 2 ≤ s.win u.tid) ∧
    (∀ i < 255, (with1 t1).laneOwnLoc t1 i < (with1 t1).laneOwnLoc t1 (i + 1)) ∧
    (with1 t1).win 1 = 2 ∧ (inTrap 1 0).depth - (inTrap 1 0).spill + 1 = 2 ∧ 0 < (inTrap 2 2).spill ∧ (inTrap 2 2).spill = (inTrap 2 2).depth ∧
    (inTrap 0 0).depth - (inTrap 0 0).spill + 1 ≠ 2 ∧ ¬ (0 < (inTrap 0 0).spill ∧ (inTrap 0 0).spill = (inTrap 0 0).depth) := by decide +kernel

/-! ### The banked spaces -/

theorem test_meets_BankAddresses : tiny.team t1.tid = some m1 ∧ (tiny.bankLocs 5 t1 0 764 4).isSome ∧ (tiny.bankLocs 5 t1 0 768 4) = none ∧
    (tiny.bankLocs 2 t1 0 16380 4).isSome ∧ tiny.bankLocs 2 t1 0 16384 4 = none ∧ (tiny.bankLocs 3 t1 0 0 4).isSome ∧
    tiny.bankLocs 4 t1 0 0 4 = none := by decide +kernel

/-- The die scratchpads have a share where slices contribute. -/
theorem test_meets_BankAddresses_die : (({ tiny with contrib := [(0, 1)] }).bankLocs 4 t1 0 0 4).isSome := by decide +kernel

/-- The locations of the first sixteen bytes of a space. -/
def locsOf (s : State) (space size : Nat) (u : Thread) : List Nat := (s.bankLocs space u 0 0 size).getD []

theorem access_of (s : State) (space : Nat) (a : BitVec 7) (off size : Nat) (u : Thread) (locs : List Nat)
    (h : ((s.src u a).toNat + off) % size = 0 ∧ s.bankLocs space u a off size = some locs ∧ ∀ l ∈ locs, l / 16 ∉ s.slots) :
    Access s space a off size u locs := by
  obtain ⟨aligned, bound, free⟩ := h
  exact { aligned, bound, free }

theorem test_meets_BankLoads : (Instr.ldp ⟨false, 7, 4, false, 60, 0, 0⟩).wf ∧ (Instr.stsc ⟨false, 7, 4, false, 60, 0, 0⟩).wf ∧
    ∀ space ∈ [5, 2, 3], ∀ u ∈ tiny.executing 7, Access tiny space 0 0 16 u (locsOf tiny space 16 u) ∧ ∀ l ∈ locsOf tiny space 16 u, tiny.synAt l = 0 := by
  refine ⟨by decide, by decide, fun space h u hu => ?_⟩
  rw [test_executing.1] at hu
  simp only [List.mem_singleton] at hu
  subst hu
  fin_cases h <;> exact ⟨access_of _ _ _ _ _ _ _ (by decide +kernel), by decide +kernel⟩

/-- R132, R136: `STSC` of 0x11223344 at offset 12 puts four bytes, lowest first. -/
theorem test_store : let t := after (.stsc ⟨false, 7, 2, false, 8, 0, 3⟩) (with1 (holding 8 0x11223344));
    t.bytes (scratchLoc 0 11) 6 = [0, 0x44, 0x33, 0x22, 0x11, 0] ∧ (t.ops.map fun o => o.kind) = [.store] := by decide +kernel

/-- R137: the granule of the first bytes is bad. -/
theorem test_meets_BadGranuleKept :
    let s := { tiny with syn := [(scratchLoc 0 0 / 32, 1)] };
    Access s 2 0 0 4 t1 (locsOf s 2 4 t1) ∧
    ((∀ l ∈ locsOf s 2 4 t1, s.synAt l ≠ 0) ∧ locsOf s 2 4 t1 ≠ [] ∧ s.executing 7 = [t1] ∧ (s.threads.map Thread.uid).Nodup) :=
  ⟨access_of _ _ _ _ _ _ _ (by decide +kernel), by decide +kernel⟩

/-- Table 2.10: adding, the signed maximum and compare-and-swap. -/
theorem test_atomic_values : atomicResult 0 32 0xFFFFFFFF [2] = 1 ∧ atomicResult 2 32 0xFFFFFFFF [1] = 1 ∧ atomicResult 4 32 0xFFFFFFFF [1] = 0xFFFFFFFF ∧
    atomicResult 9 32 5 [5, 7] = 7 ∧ atomicResult 9 32 4 [5, 7] = 4 := by decide +kernel

theorem test_meets_BankAtomics : (Instr.atsc ⟨false, 7, true, false, 60, 0, 9⟩).wf ∧
    ∀ space ∈ [2, 3], Access tiny space 0 0 8 t1 (locsOf tiny space 8 t1) ∧ ∀ l ∈ locsOf tiny space 8 t1, tiny.synAt l = 0 := by
  refine ⟨by decide, fun space h => ?_⟩
  fin_cases h <;> exact ⟨access_of _ _ _ _ _ _ _ (by decide +kernel), by decide +kernel⟩

/-- R122: offset 2 of a word access; offset 16,384 of a team with 16,384 bytes; a barrier slot at offset 0. -/
theorem test_meets_BankTraps :
    (Instr.ldsc ⟨false, 7, 2, false, 8, 0, 0⟩).wf ∧ (Instr.stsc ⟨false, 7, 2, false, 8, 0, 0⟩).wf ∧ (Instr.atsc ⟨false, 7, false, false, 8, 0, 0⟩).wf ∧
    (let u := holding 0 2; let s := with1 u; OutsideTrap s ∧ s.executing 7 = [u] ∧ ((s.src u 0).toNat + 0) % 4 ≠ 0) ∧
    (let u := holding 0 16384; let s := with1 u; OutsideTrap s ∧ s.executing 7 = [u] ∧ ((s.src u 0).toNat + 0) % 4 = 0 ∧ s.bankLocs 2 u 0 0 4 = none) ∧
    (let s := { tiny with slots := [scratchLoc 0 0 / 16] }; OutsideTrap s ∧ s.bankLocs 2 t1 0 0 4 = some (locsOf s 2 4 t1) ∧
      ∃ l ∈ locsOf s 2 4 t1, l / 16 ∈ s.slots) := by unfold OutsideTrap; decide +kernel

/-- Operations of the first thread in flight: an 8-byte load into `v4:v5`, and a store. -/
def loadOp : Op := { tiny.opOf t1 .load 0 with id := 70, space := 2, size := 8, regs := [4, 5], fill := [1, 0, 0, 0, 2, 0, 0, 0] }

def storeOp : Op := { tiny.opOf t1 .store 0 with id := 71, space := 2, size := 4 }

def flying (ops : List Op) (t : Thread := { t1 with outs := 2, flags := [(0, 2)] }) : State := { with1 t with ops := ops, nextId := 100 }

theorem test_meets_ReturnsWrite : (flying [loadOp, storeOp]).op 70 = some loadOp ∧ loadOp.poison = none ∧ loadOp.kind ≠ .sfu ∧ loadOp.kind ≠ .sqacq ∧
    loadOp.regs.Nodup := by decide +kernel

/-- A mark of a bad granule that was loaded from offset 0. -/
def mark : Poison := { reg := 0, addr := 0, space := 2, syn := 1, tag := 0 }

theorem test_meets_BadRepliesPoison : (flying [{ loadOp with poison := some mark }]).op 70 = some { loadOp with poison := some mark } ∧ loadOp.regs.Nodup := by
  decide +kernel

/-- R204: `ADD v0, v4, v0` where `v4` is marked. -/
theorem test_meets_PoisonTrapsAtRead :
    let u := { t1 with pois := [{ mark with reg := 4 }] };
    let r := with1 u;
    let f : F3 := ⟨false, 0, 4, 0, 7⟩;
    Unstopped r u 1 (.add f) ∧ (OutsideTrap r ∧ r.gangThreads = [u] ∧ u.uid ∈ r.gang ∧ (∀ v ∈ r.threads, v.uid ∈ r.gang → v = u) ∧ u.word = 1 ∧ u.again = [] ∧
    decodeWord 0x0C008038 = .ok (.add f) ∧ (0x0C008038 : Word).getLsbD 31 = false ∧ u.p 7 = true ∧
    u.pois.find? (fun q => q.reg == physReg (r.win u.tid) u.depth 4) = some { mark with reg := 4 }) := by
  refine ⟨?unstopped, ?rest⟩
  case unstopped =>
    constructor
    case whole => exact fun h => absurd h (by decide +kernel)
    all_goals decide +kernel
  case rest => unfold OutsideTrap; decide +kernel

theorem test_meets_StoreAcknowledged : (flying [loadOp, storeOp]).op 71 = some storeOp ∧ storeOp.kind = .store ∧ storeOp.regs = [] ∧ storeOp.preg = none := by
  decide +kernel

/-- R33, R132: the return writes both registers, the low word first, and flag 0 falls from 2 to 1. -/
theorem test_load_return : ((after (.loadReturn 70) (flying [loadOp, storeOp])).gangThreads.map fun b => ((reg b 4, reg b 5), b.count 0, b.outs)) =
    [((1, 2), 1, 1)] := by decide +kernel

/-! ### Barriers -/

/-- The small state with a slot at the first bytes of the scratch allocation, and the first thread in another state. -/
def slotted (x : Slot) (t : Thread := t1) : State := (with1 t).putSlot (scratchLoc 0 0) x

/-- The state with another second thread. -/
def second (s : State) (v : Thread) : State := { s with threads := s.threads.map fun u => if u.uid = 2 then v else u }

/-- An armed slot that waits for `n` of 4 arrivals. -/
def armed (n : Nat) : Slot := { slotOf 0 with st := 1, pending := n, expect := 4 }

theorem slot_of (s : State) (u : Thread) (h : s.executing 7 = [u] ∧ (s.src u 0).toNat % 16 = 0 ∧
    s.bankLocs 2 u 0 0 16 = some (scratchLoc 0 0 :: (List.range 15).map fun i => scratchLoc 0 (i + 1)) ∧ s.synAt (scratchLoc 0 0) = 0) :
    OneSlot s 7 false 0 u (scratchLoc 0 0) := by
  obtain ⟨alone, aligned, bound, good⟩ := h
  exact { alone, aligned, good, bound := ⟨_, bound⟩ }

theorem test_meets_BarrierArm :
    (∀ n ∈ [1, 65535], let u := holding 1 n; OneSlot (with1 u) 7 false 0 u (scratchLoc 0 0) ∧ 1 ≤ ((with1 u).src u 1).toNat ∧
      ((with1 u).src u 1).toNat ≤ 65535) ∧ scratchLoc 0 0 % 16 = 0 ∧ scratchLoc 0 0 / 16 ∉ tiny.slots := by
  refine ⟨fun n h => ?_, by decide +kernel, by decide +kernel⟩
  fin_cases h <;> exact ⟨slot_of _ _ (by decide +kernel), by decide +kernel⟩

/-- R149, R235: one arrival of two awaited, declaring the most bytes a phase may, with nothing outstanding; and a load of the thread outstanding. -/
theorem test_meets_BarrierArrive :
    let u := holding 1 134217727;
    let s := slotted (armed 2) u;
    (scratchLoc 0 0 % 16 = 0 ∧ s.slotAt (scratchLoc 0 0) = armed 2 ∧ (armed 2).st = 1 ∧ s.synAt (scratchLoc 0 0) = 0) ∧
    (s.executing 7).length < (armed 2).pending ∧
    (armed 2).target + ((s.executing 7).map fun u => (s.src u 1).toNat).sum ≤ 2 ^ 27 - 1 ∧ s.executing 7 ≠ [] ∧
    (∀ u ∈ s.executing 7, ((s.src u 0).toNat % 16 = 0 ∧ s.threadOrdered 2 u = true) ∧
      s.bankLocs 2 u 0 0 16 = some (scratchLoc 0 0 :: (List.range 15).map fun i => scratchLoc 0 (i + 1))) ∧
    let r := { s with ops := [loadOp], nextId := 100 };
    ∃ u ∈ r.executing 7, r.threadOrdered 2 u = false := by decide +kernel

/-- A thread that waits for phase 0 of the slot. -/
def waiter : Thread := { t1 with uid := 2, lid := 1, state := .waiting, wait := .slot (scratchLoc 0 0) 0 3 { pkt := 0, word := 1, clause := none } (before tiny t1) }

theorem test_meets_BarrierComplete :
    let s := second (slotted (armed 1)) waiter;
    OneSlot s 7 false 0 t1 (scratchLoc 0 0) ∧ s.slotAt (scratchLoc 0 0) = armed 1 ∧ (armed 1).pending = 1 ∧ (armed 1).target ≤ (armed 1).landed ∧
    (s.threads.map Thread.uid).Nodup ∧ s.threadOrdered 2 t1 = true ∧ waiter ∈ s.threads ∧ ∀ v ∈ s.threads, v.uid ∈ s.gang → v.state = .runnable :=
  ⟨slot_of _ _ (by decide +kernel), by decide +kernel⟩

/-- R237: the phase behind is completed, one 32,769 behind and the current one are not. -/
theorem test_meets_BarrierWait :
    let x := { armed 4 with phase := 1 };
    OneSlot (slotted x) 7 false 0 t1 (scratchLoc 0 0) ∧ (slotted x).slotAt (scratchLoc 0 0) = x ∧
    ((slotted x).src t1 1).toNat = 0 ∧ ([0, 1, 32769].map fun k => (1 + 65536 - k) % 65536) = [1, 0, 32768] :=
  ⟨slot_of _ _ (by decide +kernel), by decide +kernel⟩

theorem test_meets_BarrierRetire :
    let x := armed 4;
    OneSlot (slotted x) 7 false 0 t1 (scratchLoc 0 0) ∧ ((slotted x).slotAt (scratchLoc 0 0) = x ∧ x.st = 1 ∧
    x.owner = (slotted x).teamIndex t1.tid % 2 ^ 15 ∧ x.pending = x.expect ∧ x.target = 0 ∧ x.landed = 0 ∧
    (∀ v ∈ (slotted x).threads, v.state = .runnable) ∧ (slotted { x with inflight := 127 }).slotAt (scratchLoc 0 0) = { x with inflight := 127 }) :=
  ⟨slot_of _ _ (by decide +kernel), by decide +kernel⟩

/-- R240: an armed slot armed again; counts of 0 and 65,536; a FREE slot; no arrival awaited; more bytes than a phase may await. -/
theorem test_meets_BarrierMisuse :
    let big := holding 1 134217728;
    OneSlot (slotted (armed 1)) 7 false 0 t1 (scratchLoc 0 0) ∧ OneSlot (slotted (armed 0)) 7 false 0 t1 (scratchLoc 0 0) ∧
    OneSlot (slotted (armed 1) big) 7 false 0 big (scratchLoc 0 0) ∧ OneSlot tiny 7 false 0 t1 (scratchLoc 0 0) ∧
    (scratchLoc 0 0 / 16 ∈ (slotted (armed 1)).slots ∧ (tiny.src t1 1).toNat = 0 ∧
    65535 < ((with1 (holding 1 65536)).src (holding 1 65536) 1).toNat ∧ scratchLoc 0 0 / 16 ∉ tiny.slots ∧ tiny.threadOrdered 2 t1 = true ∧
    ((slotted (armed 0)).slotAt (scratchLoc 0 0)).pending = 0 ∧ (slotted (armed 0)).threadOrdered 2 t1 = true ∧
    ((slotted (armed 1) big).slotAt (scratchLoc 0 0)).pending ≠ 0 ∧ (slotted (armed 1) big).threadOrdered 2 big = true ∧
    2 ^ 27 - 1 < ((slotted (armed 1) big).slotAt (scratchLoc 0 0)).target + ((slotted (armed 1) big).src big 1).toNat) :=
  ⟨slot_of _ _ (by decide +kernel), slot_of _ _ (by decide +kernel), slot_of _ _ (by decide +kernel), slot_of _ _ (by decide +kernel), by decide +kernel⟩

/-- R242: the first thread waits at `GBAR` and the second has EXITED; and one that has a load outstanding. -/
theorem test_meets_HardwareBarrierReleases :
    let s := second (with1 { t1 with state := .waiting, wait := .gbar }) { waiter with state := .exited, wait := .none };
    (∀ u ∈ s.threads, u ∈ s.threads) ∧ Distinct s ∧ s.gathered .gbar s.threads = true ∧
    ({ s with ops := [loadOp], nextId := 100 }).gathered .gbar s.threads = false := by unfold Distinct; decide +kernel
/-! ### Global memory -/

theorem unwatched (s : State) (c va size : Nat) (x : Ctx) (h : s.ctx c = some x) (w : x.watches = []) : ∀ k, s.watchesOn c va size k = [] := by
  intro k; simp [State.watchesOn, h, w]

/-- The thread holds the address 0x2000 in `v0:v1`, and the state after its translation, for a read or a write. -/
def tAt : Thread := holding 0 0x2000

def walked (s : State) (write : Bool) : State := (s.reach write (fun t => s.pairNat t 0) [tAt]).1

theorem access_at (s : State) (write : Bool) (n : Nat) (h : (s.executing 7 = [tAt] ∧ (s.srcPair tAt 0).toNat % n = 0 ∧
      (s.reach write (fun t => s.pairNat t 0) [tAt]).2 = [(tAt, 0x2000)] ∧ s.regionOf (s.ctxOf tAt.tid) (s.srcPair tAt 0).toNat = none) ∧
      (walked s write).ctx (s.ctxOf tAt.tid) = some c1 ∧ ((walked s write).threads.map Thread.uid).Nodup ∧
      ∀ o ∈ (walked s write).ops, o.id < (walked s write).nextId) : OneAccess s (walked s write) write 7 0 n tAt 0x2000 := by
  obtain ⟨⟨alone, aligned, reached, region⟩, ctx, distinct, newId⟩ := h
  exact { alone, aligned, region, distinct, newId, place := by decide, reached := Prod.ext rfl reached,
          unwatched := unwatched _ _ _ _ _ ctx (by decide +kernel) }

/-- The core owns the sector of the address; or it has no copy. -/
def owned : L1Sec := { L1Sec.fresh 0 (sectorKey 0 0x2000) 0 .O with wts := 7, rts := 7, data := List.replicate 64 1, syn := [0, 0] }

theorem good_owned (g : Nat) : owned.syn.getD g 0 = 0 := by
  match g with | 0 => rfl | 1 => rfl | _ + 2 => rfl

/-- The small state whose core owns the sector of the address. -/
def owning : State := { with1 tAt with l1 := [owned] }

theorem test_meets_GlobalLoad :
    OneAccess owning (walked owning false) false 7 0 16 tAt 0x2000 ∧ OneAccess (with1 tAt) (walked (with1 tAt) false) false 7 0 1 tAt 0x2000 ∧
    ((Instr.ldg ⟨false, 7, 4, false, 60, 0, 0⟩).wf ∧ (Instr.ldg ⟨false, 7, 0, false, 63, 0, 2⟩).wf ∧ owned.st = .O ∧
      (walked owning false).l1Of 0 (sectorKey 0 0x2000) = some owned ∧ FitsL1 (walked owning false) 0 ((walked owning false).lt 0) ∧
      (walked (with1 tAt) false).l1Of 0 (sectorKey 0 0x2000) = none) :=
  ⟨access_at _ _ _ (by decide +kernel), access_at _ _ _ (by decide +kernel), by unfold FitsL1; decide +kernel⟩

/-- R179: the load from an owned sector brings the copy's byte and raises LT to its `wts`. -/
theorem test_owned_load : let t := after (.ldg ⟨false, 7, 0, false, 5, 0, 0⟩) owning;
    (t.ops.map fun o => o.fill) = [[1]] ∧ t.lt 0 = 7 := by decide +kernel

theorem test_meets_GlobalStore :
    OneAccess owning (walked owning true) true 7 0 16 tAt 0x2000 ∧ OneAccess (with1 tAt) (walked (with1 tAt) true) true 7 0 1 tAt 0x2000 ∧
    ((Instr.stg ⟨false, 7, 4, false, 60, 0, 0⟩).wf ∧ (Instr.stg ⟨false, 7, 4, false, 60, 0, 1⟩).wf ∧ (Instr.stg ⟨false, 7, 4, false, 60, 0, 2⟩).wf ∧
      (walked owning true).l1Of 0 (sectorKey 0 0x2000) = some owned ∧ (walked owning true).thread tAt.uid = some tAt ∧
      AtL1 (walked owning true) 0 (writeTime (walked owning true) tAt) ∧ (walked (with1 tAt) true).l1Of 0 (sectorKey 0 0x2000) = none) :=
  ⟨access_at _ _ _ (by decide +kernel), access_at _ _ _ (by decide +kernel), by unfold AtL1 FitsL1 writeTime; decide +kernel⟩

theorem test_meets_GlobalAtomic :
    OneAccess owning (walked owning true) true 7 0 8 tAt 0x2000 ∧ OneAccess (with1 tAt) (walked (with1 tAt) true) true 7 0 4 tAt 0x2000 ∧
    ((Instr.atg ⟨false, 7, true, false, 60, 0, 9⟩).wf ∧ (Instr.atg ⟨false, 7, false, false, 62, 0, 11⟩).wf ∧ owned.data.length = 64 ∧
      (walked owning true).thread tAt.uid = some tAt ∧ AtL1 (walked owning true) 0 (writeTime (walked owning true) tAt)) :=
  ⟨access_at _ _ _ (by decide +kernel), access_at _ _ _ (by decide +kernel), by unfold AtL1 FitsL1 writeTime; decide +kernel⟩

/-- The state after the walk of `MON`. -/
def watched (s : State) : State := (s.reach false (fun t => s.pairNat t 0 / 64 * 64) [tAt]).1

/-- R145: no copy; and a copy in V whose lease covers the core's time. -/
theorem test_meets_MonitorArms : let s := with1 tAt; let copy := { L1Sec.fresh 0 (sectorKey 0 0x2000) 0 .V with rts := 9 };
    (s.executing 7 = [tAt] ∧ ((watched s).threads.map Thread.uid).Nodup ∧ (∀ o ∈ (watched s).ops, o.id < (watched s).nextId) ∧
      (s.reach false (fun t => s.pairNat t 0 / 64 * 64) [tAt]).2 = [(tAt, 0x2000)] ∧ isRemote 0x2000 = false ∧
      (watched s).regionOf (s.ctxOf tAt.tid) (s.srcPair tAt 0).toNat = none ∧ (watched s).l1Of 0 (sectorKey 0 (0x2000 / 64 * 64)) = none ∧
      (watched { s with l1 := [copy] }).l1Of 0 (sectorKey 0 0x2000) = some copy ∧ copy.st = .V ∧ (watched { s with l1 := [copy] }).orderTime 0 ≤ copy.rts) ∧
    ∀ va k, (watched s).watchesOn (s.ctxOf tAt.tid) va 64 k = [] :=
  ⟨by decide +kernel, fun va k => unwatched _ _ _ _ c1 (by decide +kernel) (by decide +kernel) k⟩

/-- A monitor on the sector of the address, not fired. -/
def armedMon : Monitor := { sec := sectorKey 0 0x2000, fired := false, wts := 0, refused := false, since := none }

theorem test_meets_MonitorWaits : let s := with1 { t1 with mon := some armedMon };
    Distinct s ∧ ∀ u ∈ s.executing 7, ∀ m, u.mon = some m → m.fired = false := by
  refine ⟨by unfold Distinct; decide +kernel, fun u hu m hm => ?_⟩
  have h : (with1 { t1 with mon := some armedMon }).executing 7 = [{ t1 with mon := some armedMon }] := by decide +kernel
  rw [h] at hu
  simp only [List.mem_singleton] at hu
  subst hu
  injection hm with hm
  subst hm
  rfl

theorem test_meets_MonitorWaits_fired : let u := { t1 with mon := some { armedMon with fired := true, wts := 6 } };
    (with1 u).executing 7 = [u] ∧ u.state = .runnable ∧ (with1 u).l1Of ((with1 u).coreOf u.tid) armedMon.sec = none := by decide +kernel

/-- R146: a waiting thread with a copy in V, with no copy; one that does not wait yet. -/
theorem test_meets_MonitorWakes :
    let u := { t1 with mon := some armedMon, state := .waiting, wait := .mwait { pkt := 0, word := 1, clause := none } };
    let v := { t1 with mon := some armedMon };
    let copy := L1Sec.fresh 0 armedMon.sec 0 .V;
    ((with1 u).thread 1 = some u ∧ u.mon = some armedMon ∧ ((with1 u).threads.map Thread.uid).Nodup ∧ (with1 u).l1Of ((with1 u).coreOf 1) armedMon.sec = none ∧
      ({ with1 u with l1 := [copy] }).l1Of 0 armedMon.sec = some copy) ∧
    ((with1 v).thread 1 = some v ∧ v.state = .runnable) := by decide +kernel

/-- R149, R152: a store of the core to global memory holds up a release at `.CLUSTER`, whoever issued it, and one of the thread at `.CORE` does not. -/
theorem test_release_waits : let s := { tiny with ops := [{ storeOp with space := 0, rtype := 1 }], nextId := 100 };
    ([1, 2].map fun scope => (s.ordered [1] 0 0 scope 100, s.ordered [2] 0 0 scope 100)) = [(true, true), (false, false)] := by decide +kernel

/-- R147: nothing outstanding; a store to global memory, and a load. -/
theorem test_meets_Fences :
    (Distinct tiny ∧ (∀ u ∈ tiny.executing 7, ∃ g ∈ tiny.groups, tiny.groupOf u = some g ∧ tiny.group g.gid = some g)) ∧
    (∀ g ∈ tiny.fenceGroups 7, (∀ v ∈ tiny.members g, v.parkedAccess = false) ∧ tiny.ops = []) ∧ tiny.fenceGroups 7 = [g1] ∧
    let s := { tiny with ops := [{ storeOp with space := 0 }, loadOp], nextId := 100 };
    ∃ g ∈ s.fenceGroups 7, ∃ v ∈ s.members g, (∃ o ∈ s.ops, o.uid = v.uid ∧ o.id < s.gangCut ∧ s.accessOpen 2 o = true) ∧
      ∃ o ∈ s.ops, o.uid = v.uid ∧ o.id < s.gangCut ∧ o.kind = .load := by
  unfold Distinct; decide +kernel

/-! ### Timestamp coherence -/

/-- A request of the first thread's core to the sector of the address, and the home in a state. -/
def ask (r : Req) (k : OpKind := .load) : Op :=
  { tiny.opOf t1 k 0 with id := 70, loc := 0x2000, addr := 0x2000, size := 4, req := r, lt := 5, args := [1], mask := 15, data := [9, 8, 7, 6] }

def homeIn (st : HState) (q : List Nat := []) : HomeSec := { sec := sectorKey 0 0x2000, st := st, wts := 3, rts := 8, queue := q }

def asked (o : Op) (h : HomeSec) : State := { tiny with ops := [o], nextId := 100, home := [h] }

theorem at_home (o : Op) (h : HomeSec) (hs : h.sec = o.sec) (hi : o.id = 70) (hr : o.refused = false) (hl : isRemote o.loc = false)
    (hw : (asked o h).waitingAt ((asked o h).homeSlice o.ctx o.loc) < 512) : AtHome (asked o h) 70 o h := by
  refine ⟨?_, ?_, hl, ?_, hw⟩
  · simp [State.op, asked, hi]
  · simp [State.homeOf, asked, hs]
  · intro x hx; simp only [asked, List.mem_singleton] at hx; subst hx; exact hr

theorem test_meets_HomeLoad : AtHome (asked (ask .load) (homeIn .S)) 70 (ask .load) (homeIn .S) ∧ Fits (asked (ask .load) (homeIn .S)) (ask .load).sec 37 ∧
    (asked (ask .load) (homeIn .S)).lease 0 = 32 := ⟨at_home _ _ rfl rfl rfl (by decide) (by decide +kernel), by unfold Fits; decide +kernel, by decide +kernel⟩

theorem test_meets_HomeWrite : AtHome (asked (ask .write .store) (homeIn .S)) 70 (ask .write .store) (homeIn .S) ∧
    Fits (asked (ask .write .store) (homeIn .S)) (ask .write .store).sec 9 := ⟨at_home _ _ rfl rfl rfl (by decide) (by decide +kernel), by unfold Fits; decide +kernel⟩

/-- R178: the write takes `wts = rts = max(5, 8 + 1)`. -/
theorem test_home_write : let t := after (.homeWriteThrough 70) (asked (ask .write .store) (homeIn .S));
    t.homeOf (sectorKey 0 0x2000) = { homeIn .S with wts := 9, rts := 9 } ∧ t.bytes 0x2000 5 = [9, 8, 7, 6, 0] := by decide +kernel

theorem test_meets_HomeAtomic : let o := { ask .atomic .atomic with addr := 0x203C, loc := 0x203C };
    AtHome (asked o (homeIn .S)) 70 o (homeIn .S) ∧ Fits (asked o (homeIn .S)) o.sec 9 ∧ o.loc % 64 + o.size ≤ 64 ∧
    ∀ g, ((asked o (homeIn .S)).homeSyn o.sec).getD g 0 = 0 := by
  refine ⟨at_home _ _ (by decide) rfl rfl (by decide) (by decide +kernel), by unfold Fits; decide +kernel, by decide, fun g => ?_⟩
  have h : (asked { ask .atomic .atomic with addr := 0x203C, loc := 0x203C } (homeIn .S)).homeSyn 128 = [0, 0] := by decide +kernel
  match g with | 0 => exact congrArg (fun l : List (BitVec 16) => l.getD 0 0) h | 1 => exact congrArg (fun l : List (BitVec 16) => l.getD 1 0) h | k + 2 => exact congrArg (fun l : List (BitVec 16) => l.getD (k + 2) 0) h

theorem test_meets_HomeGrant : AtHome (asked (ask .own .store) (homeIn .S)) 70 (ask .own .store) (homeIn .S) ∧
    Fits (asked (ask .own .store) (homeIn .S)) (ask .own .store).sec 9 := ⟨at_home _ _ rfl rfl rfl (by decide) (by decide +kernel), by unfold Fits; decide +kernel⟩

/-- R181, R182: a home in O; in G with a request waiting; a slice with 512 requests waiting; an earlier refused request of the agent. -/
theorem test_meets_HomeOwned : AtHome (asked (ask .own .store) (homeIn (.O 1))) 70 (ask .own .store) (homeIn (.O 1)) ∧
    AtHome (asked (ask .load) (homeIn (.G 1) [9])) 70 (ask .load) (homeIn (.G 1) [9]) ∧
    let s := asked (ask .load) (homeIn (.G 1) (List.range 512)); 512 ≤ s.waitingAt (s.homeSlice 0 0x2000) ∧
      ∃ x ∈ ({ s with ops := [{ ask .load with refused := true, id := 69 }, ask .load] }).ops, x.refused = true ∧ x.agent = 0 ∧ x.space = 0 ∧ x.sec = (ask .load).sec ∧ x.id < 70 :=
  ⟨at_home _ _ rfl rfl rfl (by decide) (by decide +kernel), at_home _ _ rfl rfl rfl (by decide) (by decide +kernel), by decide +kernel⟩

theorem test_meets_Resend : (asked { ask .load with again := some 64 } (homeIn .S)).op 70 = some { ask .load with again := some 64 } := by decide +kernel

/-- A state with the request in flight and one L1 copy. -/
def cached (o : Op) (e : L1Sec) : State := { tiny with ops := [o], nextId := 100, l1 := [e] }

def filled (o : Op) : Op := { o with data := List.replicate 64 1, syn := [0, 0], wts := 3, rts := 37 }

theorem test_meets_GrantArrives_engine : let o := { ask .own .store with wts := 9, agent := 400 };
    ({ tiny with ops := [o], nextId := 100 }).op 70 = some o ∧ 384 ≤ o.agent := by decide +kernel

theorem test_meets_GrantArrives : let o := { ask .own .store with wts := 9 }; let e := L1Sec.fresh 0 o.sec 0 .IO;
    (cached o e).op 70 = some o ∧ o.agent < 384 ∧ (cached o e).l1Of o.agent o.sec = some e ∧ e.held = [] ∧ e.drop = none ∧
    AtL1 (cached o e) o.agent o.wts := by
  unfold AtL1 FitsL1; decide +kernel

/-- R180, R184: a copy in O on the last core; and none. -/
theorem test_meets_OwnerGivesUp : let e := { owned with core := 383, dirty := true };
    ({ tiny with l1 := [e] }).l1Of 383 e.sec = some e ∧ e.st = .O ∧ tiny.l1Of 383 e.sec = none := by decide +kernel

/-- R179, R181: homes that wait for an acknowledgement, for a recall's answer, and one whose owner writes back. -/
theorem test_meets_HomeSettles : (∀ h ∈ [homeIn (.G 0), homeIn (.C 0), homeIn (.O 0)], ({ tiny with home := [h] }).homeOf h.sec = h ∧ h.queue = [] ∧
      AtBase { tiny with home := [h] } h.sec 9 ∧ AtBase { tiny with home := [h] } h.sec (max h.rts 9)) ∧
    let a : SecImg := { wb := false, wts := 9, rts := 9, data := List.replicate 64 1, syn := [0, 0] }; a.data.length = 64 ∧ a.wb = false := by
  unfold AtBase Fits; decide +kernel

theorem test_meets_WriteBackAcknowledged : let e := L1Sec.fresh 0 128 0 .OI; ({ tiny with l1 := [e] }).l1Of 0 128 = some e ∧ e.st = .OI ∧ e.held = [] := by
  decide +kernel

theorem test_meets_FillArrives : let o := filled (ask .load); let e := { L1Sec.fresh 0 o.sec 0 .IV with held := [70] };
    (cached o e).op 70 = some o ∧ o.kind = .load ∧ o.rtype ≠ 3 ∧ o.data.length = 64 ∧ o.syn = [0, 0] ∧ (cached o e).l1Of o.agent o.sec = some e ∧
    e.held = [70] ∧ e.pend = [] ∧ e.drop = none ∧ (∀ g < 2, o.syn.getD g 0 = 0) ∧ AtL1 (cached o e) o.agent o.rts ∧ AtL1 (cached o e) o.agent o.wts := by
  unfold AtL1 FitsL1; decide +kernel

/-- R177: the filled copy has the lease of the reply, and the load its four bytes. -/
theorem test_fill : let o := filled (ask .load); let t := after (.fillReply 70) (cached o { L1Sec.fresh 0 o.sec 0 .IV with held := [70] });
    (t.l1.map fun e => ((e.st, e.wts), e.rts)) = [((.V, 3), 37)] ∧ (t.ops.map fun o => o.fill) = [[1, 1, 1, 1]] ∧ t.lt 0 = 3 := by decide +kernel

theorem test_meets_WriteThroughAcknowledged : let o := { ask .write .store with wts := 9, waits := [71] };
    let e := { L1Sec.fresh 0 o.sec 0 .P with pend := [(0, 70)] };
    (cached o e).op 70 = some o ∧ o.kind = .store ∧ AtL1 (cached o e) o.agent o.wts ∧ (cached o e).l1Of o.agent o.sec = some e ∧ (e.st = .P ∧ e.drop = none) ∧
    e.pend ≠ [] ∧ ∀ p ∈ e.pend, p.2 = 70 := by unfold AtL1 FitsL1; decide +kernel

theorem test_meets_Rebase : ({ tiny with agenda := [.fillReply 1] }).messages = true ∧ tiny.messages = false ∧ (tiny.lts.map Prod.fst).Nodup ∧
    (tiny.floors.map Prod.fst).Nodup := by decide +kernel

/-- A context whose last press region is valid. -/
def pressed : Ctx := { c1 with regions := List.replicate 15 { v := false, base := 0, size := 0, floor := 0 } ++ [{ v := true, base := 1, size := 1, floor := 0 }] }

theorem test_meets_Press : let s := { tiny with ctxs := [pressed] };
    s.executing 0 = [] ∧ s.executing 7 = [t1] ∧ OutsideTrap s ∧ s.ctx (s.ctxOf t1.tid) = some pressed ∧ ((∃ e, pressed.regions[15]? = some e ∧ e.v = true) ∧
    ∃ e, pressed.regions[14]? = some e ∧ e.v = false) := by
  refine ⟨by decide +kernel, by decide +kernel, by unfold OutsideTrap; decide +kernel, by decide +kernel, ⟨_, rfl, rfl⟩, _, rfl, rfl⟩

/-- R195: a store into the region that the core still has outstanding, and none. -/
theorem test_meets_Press_waits : let s := { tiny with ctxs := [pressed], ops := [{ storeOp with space := 0, region := some 15 }], nextId := 100 };
    s.executing 7 = [t1] ∧ tiny.ops = [] ∧ ∃ o ∈ s.ops, o.agent = s.coreOf t1.tid ∧ o.kind = .store ∧ o.uid ≠ 0 ∧ o.ctx = s.ctxOf t1.tid ∧ o.region = some 15 ∧
      o.id < s.gangCut := by decide +kernel

/-! ### Fabric memory -/

/-- The small state with port 31's link up and the others DOWN; a fabric address in `v0:v1`. -/
def linked (t : Thread) : State := { with1 t with links := [(31, { Link.down with state := .up, lanes := 255 })] }

def tFab (hi lo : Word) : Thread := holding 1 hi (holding 0 lo)

theorem fabric_at (s : State) (n : Nat) (u : Thread) (h : s.executing 7 = [u] ∧ (s.srcPair u 0).toNat % n = 0 ∧ (s.threads.map Thread.uid).Nodup ∧
    ∀ o ∈ s.ops, o.id < s.nextId) : OneFabric s 7 0 n u := by
  obtain ⟨alone, aligned, distinct, newId⟩ := h
  exact { alone, aligned, distinct, newId }

/-- A copy of the sector that the first thread's fabric address names. -/
def fabCopy (x : BitVec 64) : FabSec := { core := 0, ctx := 0, sec := fabSec x, data := List.replicate 64 1, syn := [0, 0], rel := 0 }

/-- R130: the last pool node by its own port; the last package over the next port that carries; no port; and a copy in the L1. -/
theorem test_meets_FabricLoad :
    (∀ w ∈ ([0x001F0000, 0x017F0000, 0x00000000] : List Word), OneFabric (linked (tFab w 48)) 7 0 16 (tFab w 48)) ∧
    ((linked (tFab 0x001F0000 48)).srcPair (tFab 0x001F0000 48) 0 = 0x001F000000000030 ∧ fabLoadOk 0x001F000000000030 ∧
      (linked t1).portTo 0 31 48 = some 31 ∧ fabLoadOk 0x017F000000000030 ∧ (linked t1).portTo 1 127 48 = some 31 ∧ (linked t1).portTo 0 0 48 = none) ∧
    (Instr.ldf ⟨false, 7, 4, false, 60, 0, 3, true⟩).wf ∧
    let s := { linked (tFab 0x001F0000 48) with fab := [fabCopy 0x001F000000000030] };
    s.fabOf 0 0 (fabSec 0x001F000000000030) = some (fabCopy 0x001F000000000030) ∧ s.coreOf 1 = 0 ∧ s.ctxOf 1 = 0 ∧
      (fabCopy 0x001F000000000030).syn = [0, 0] := by
  refine ⟨fun w h => ?_, by decide +kernel, by decide, by decide +kernel⟩
  fin_cases h <;> exact fabric_at _ _ _ (by decide +kernel)

theorem test_meets_FabricStore : OneFabric (linked (tFab 0x020F0000 60)) 7 0 4 (tFab 0x020F0000 60) ∧ fabStoreOk 0x020F00000000003C ∧
    (linked t1).portTo 2 15 60 = some 31 ∧ (Instr.stf ⟨false, 7, 2, false, 63, 0, 0⟩).wf ∧ (Instr.atf ⟨false, 7, false, false, 62, 0, 9⟩).wf :=
  ⟨fabric_at _ _ _ (by decide +kernel), by decide +kernel⟩

/-- R353: a store's request leaves on the chosen port. -/
theorem test_fabric_store : ((after (.stf ⟨false, 7, 2, false, 5, 0, 0⟩) (linked (tFab 0x020F0000 60))).agenda.length,
    (after (.stf ⟨false, 7, 2, false, 5, 0, 0⟩) (linked (tFab 0x020F0000 60))).ops.map fun o => o.port) = (1, [0, 31]) := by decide +kernel

/-- R122, R130: an address that is not aligned, and aligned ones of kind 3 and of node 32. -/
theorem test_meets_FabricTraps : OutsideTrap (linked (tFab 0 2)) ∧ (linked (tFab 0 2)).executing 7 = [tFab 0 2] ∧
    ((linked (tFab 0 2)).srcPair (tFab 0 2) 0).toNat % 4 ≠ 0 ∧ fabLoadOk ((linked (tFab 0x03000000 4)).srcPair (tFab 0x03000000 4) 0) = false ∧
    fabStoreOk ((linked (tFab 0x00200000 4)).srcPair (tFab 0x00200000 4) 0) = false ∧ fabStoreOk 0x0100000000000000 = false := by
  unfold OutsideTrap; decide +kernel

/-- A fabric access of the first thread on port 31 to pool node 31. -/
def fabOp (k : OpKind) (waits : List Nat := []) : Op :=
  { tiny.opOf t1 k 0 with
    id := 70, space := 1, loc := poolLoc 31 48, addr := 0x001F000000000030, size := 4, args := [1], port := 31, via := [31], due := some 9, waits := waits,
    mask := 0xF000000000000, data := List.replicate 52 7, regs := if k = .store then [] else [5] }

def remote (o : Op) (mode : Nat) (more : List Op := []) : State := { linked t1 with ops := o :: more, nextId := 100, nodeMode := [(31, mode)] }

theorem good_target (s : State) (o : Op) (h : s.syns (o.loc / 64 * 64) 64 = [0, 0]) : GoodTarget s o := by
  intro g; rw [h]; match g with | 0 => rfl | 1 => rfl | _ + 2 => rfl

theorem test_meets_FlitArrives : (∀ k ∈ [OpKind.load, .store, .atomic], ∀ mode ∈ [0, 1, 2],
      let s := remote (fabOp k) mode;
      s.op 70 = some (fabOp k) ∧ (fabOp k).space = 1 ∧ (fabOp k).done = false ∧ (fabOp k).port = 31 ∧ s.carries 31 ∧ s.answered 70 = false ∧
        s.answerOf (fabNodeKey (fabOp k).addr) 70 = mode ∧ (fabOp k).loc % 64 + (fabOp k).size ≤ 64) ∧
    GoodTarget (remote (fabOp .load) 0) (fabOp .load) := ⟨by decide +kernel, good_target _ _ (by decide +kernel)⟩

/-- R138: the atomic adds 1 to the word at the node. -/
theorem test_fabric_atomic : let t := after (.flitReceive 31 true 70) (remote (fabOp .atomic) 0);
    t.bytes (poolLoc 31 48) 4 = [1, 0, 0, 0] ∧ t.agenda.length = 1 := by decide +kernel

theorem test_meets_FlitErrors : let s := { linked t1 with links := [(31, { Link.down with state := .up, lanes := 255, fails := [(70, 7)] })] };
    s.carries 31 ∧ SMap.get 0 (s.link 31).fails 70 = 7 ∧ s.op 70 = none := by decide +kernel

/-- R355: each state that training starts from, ends in or does not touch. -/
theorem test_meets_LinkTraining : (∀ st ∈ [LinkState.down, .failed, .training, .retraining, .up, .degraded],
    let s := { tiny with links := SMap.put Link.down 31 { Link.down with state := st } [] };
    (s.link 31).state = st ∧ (s.link 31).bufCut = 0 ∧ s.fencedDie (portDie 31) = false ∧ hopKey 4 31 ∉ s.retiredH) ∧ ([0, 1, 3, 15, 255].map fun n => popCount 8 n) = [0, 1, 2, 4, 8] := by decide +kernel

/-- R25: the ports of a fenced die. -/
theorem test_meets_LinkTraining_fenced : ({ tiny with fenced := [(5, portDie 31)] }).fencedDie (portDie 31) = true := by decide +kernel

/-- R357: six good lanes leave four in use. -/
theorem test_training_done : let s := { tiny with links := [(3, { Link.down with state := .training })] };
    (((after (.linkTrainingDone 3 63) s).link 3).state, popCount 8 ((after (.linkTrainingDone 3 63) s).link 3).lanes) = (.degraded, 4) := by decide +kernel

theorem test_meets_BufferDefects : ((linked t1).link 31).state = .up := by decide +kernel

theorem test_meets_LinkReports : let o := { fabOp .load with port := 3, via := [3], addr := 0x0203000000000030, loc := hostLoc 3 48 };
    ((remote o 0).ops.map fun o => o.id).Nodup ∧ (remote o 0).carries 3 = false ∧ (remote o 0).owedOn 3 = [o] ∧ fabKind o.addr ≠ 0 ∧
    (remote o 0).portTo 2 3 48 = some 31 ∧ (remote { fabOp .load with port := 3, via := [3] } 0).owedOn 3 = [{ fabOp .load with port := 3, via := [3] }] := by decide +kernel

/-- R141: a load; and a store request with its thread's store. -/
theorem test_meets_AccessTimeout :
    (let s := remote (fabOp .load) 0;
      s.op 70 = some (fabOp .load) ∧ s.answered 70 = false ∧ (s.threads.map Thread.uid).Nodup ∧ (fabOp .load).waits = [] ∧ (fabOp .load).regs ≠ [] ∧
      (fabOp .load).uid ≠ 0 ∧ s.thread (fabOp .load).uid = some t1) ∧
    let x := { storeOp with space := 1 };
    let s := remote { fabOp .store [71] with uid := 0 } 0 [x];
    s.op 71 = some x ∧ x.id ≠ 70 ∧ x.kind = .store ∧ x.regs = [] ∧ x.preg = none ∧ x.uid ≠ 0 ∧ s.thread x.uid = some t1 := by decide +kernel

/-- An export, or a receive window, of 64 KiB at 0x10000 that any package may use. -/
def window : BitVec 256 := 0xFF000000010000000000010001

/-- R363: the last export, valid; one that is not valid; and a read past the end. -/
theorem test_meets_ExportReads : let c := { c1 with exprts := [(15, window)] }; let s := { tiny with ctxs := [c] };
    field (0x3C000000000 : BitVec 48) 47 42 ≠ fwNum ∧ s.ctx (field (0x3C000000000 : BitVec 48) 47 42) = some c ∧
    field (0x3C000000000 : BitVec 48) 41 38 = 15 ∧ winV window = true ∧ winSize window = 65536 ∧ winV (SMap.get 0 c.exprts 14) = false ∧
    (s.locate 0 0 (winBase window + 0) false).2 = some 65536 ∧ (∀ h ∈ (s.locate 0 0 (winBase window + 0) false).1.home, h.st = .S) ∧
    (∀ e ∈ (s.locate 0 0 (winBase window + 0) false).1.l1, e.core ≠ noAgent) ∧ (65536 : Nat) + 32 < 2 ^ 60 := by decide +kernel

/-- A publication record at 0x2000: 32 bytes at 0x3000 to subscriber 31. -/
def publishing (len : Nat) : State :=
  let s := { linked tAt with ctxs := [{ c1 with subs := [(31, 1#64 <<< 63)] }] };
  s.setNat 0x2000 16 (0x3000 + len * 2 ^ 64 + 2 ^ 31 * 2 ^ 96)

/-- After the release and the walk to the record. -/
def reached (s : State) : State := ((s.passFence 7 true false 3).reach false (fun t => s.pairNat t 0) [tAt]).1

/-- The time that the publication's loads carry. -/
def timeOf (s : State) : Nat := max ((reached s).lt ((reached s).coreOf 1)) ((reached s).ot ((reached s).coreOf 1))

/-- The record as `PUBF` reads it, and then its bytes. -/
def recordAt (s : State) : State × List Byte × List (BitVec 16) :=
  (reached s).pubLoad tAt (timeOf s) ((reached s).srcPair tAt 0).toNat 0x2000 64

def rangeOf (s : State) : State × Except Xlate (List Byte × List (BitVec 16)) :=
  State.readRange tAt (timeOf s) (pageSpans (pubSrc (recordAt s).2.1) (pubLen (recordAt s).2.1)) (recordAt s).1

theorem publication_of (s : State) (h : s.executing 7 = [tAt] ∧ (s.srcPair tAt 0).toNat % 64 = 0 ∧
    (∀ g ∈ s.fenceGroups 7, ∀ v ∈ s.members g, v.parkedAccess = false) ∧ s.ops = [] ∧
    ((s.passFence 7 true false 3).reach false (fun t => s.pairNat t 0) [tAt]).2 = [(tAt, 0x2000)]) :
    OnePublication ⟨false, 7, false, 5, 0⟩ s (reached s) tAt 0x2000 := by
  obtain ⟨alone, aligned, standing, none, reached⟩ := h
  exact { alone, aligned, standing, quiet := fun _ _ _ ho => absurd (none ▸ ho) List.not_mem_nil, reached := Prod.ext rfl reached }

theorem test_meets_Publishes : let s := publishing 32;
    OnePublication ⟨false, 7, false, 5, 0⟩ s (reached s) tAt 0x2000 ∧
    ((reached s).ctxOf 1 = s.ctxOf 1 ∧ (rangeOf s).1.ctxOf 1 = s.ctxOf 1 ∧ (recordAt s).2.2 = [0, 0] ∧ pubBad (recordAt s).2.1 = false ∧
    (rangeOf s).2.toOption.isSome = true ∧ (∀ o ∈ (rangeOf s).1.ops, o.id < (rangeOf s).1.nextId) ∧
    (∀ i < 32, (pubSubs (recordAt s).2.1).getLsbD i → ((rangeOf s).1.subEntry 0 i).getLsbD 63) ∧
    (nodesFrom 0).find? (fun n => ([31] : List Nat).all fun i => (rangeOf s).1.nodeServes 0 n i) = some 31) :=
  ⟨publication_of _ (by decide +kernel), by decide +kernel⟩

/-- R144, R368: a store of the group to global memory is not yet acknowledged. -/
theorem test_meets_Publishes_waits : let s := { publishing 32 with ops := [{ storeOp with space := 0, rtype := 1 }], nextId := 100 };
    s.executing 7 = [tAt] ∧ (s.srcPair tAt 0).toNat % 64 = 0 ∧ ∃ g ∈ s.fenceGroups 7, s.released g 3 = false := by decide +kernel

/-- R144: a length that is no multiple of 32. -/
theorem test_meets_PublicationRecord : let s := publishing 33;
    OnePublication ⟨false, 7, false, 5, 0⟩ s (reached s) tAt 0x2000 ∧
    ((s.threads.map Thread.uid).Nodup ∧ (reached s).threads = (s.passFence 7 true false 3).threads ∧ pubBad (recordAt s).2.1 = true) ∧
    ∀ x, (reached s).win x = s.win x :=
  ⟨publication_of _ (by decide +kernel), by decide +kernel, fun x => by
    have h : (reached (publishing 33)).launches = (publishing 33).launches ∧ (reached (publishing 33)).teams = (publishing 33).teams := by decide +kernel
    simp [State.win, State.recordOf, State.launchOf, h.1, h.2, State.team, State.launch]⟩

/-- A publication of 32 bytes to subscribers 0 and 31, of which 0 has answered. -/
def pubOp : Op :=
  { tiny.opOf t1 .pubf 0 with id := 70, args := [0x80000001, 0, 0, 0, 0], regs := [5], data := List.replicate 32 1, syn := [0], mask := 0x100000001, due := some 9 }

theorem test_meets_PublicationAnswers : let s := { publishing 32 with ops := [pubOp] };
    s.op 70 = some pubOp ∧ pubOp.kind = .pubf ∧ pubOp.done = false ∧ pubOp.args.headD 0 = 0x80000001 ∧ pubOp.regs = [5] ∧ pubOp.poison = none ∧
    s.thread pubOp.uid = some tAt ∧ (s.threads.map Thread.uid).Nodup ∧ (nodesFrom 0).find? (fun n => s.nodeServes pubOp.ctx n 31) = some 31 ∧
    (pubOp.mask ||| 1#64 <<< (32 + 31) ||| 1#64 <<< 31).extractLsb' 32 32 = 0x80000001 ∧
    (pubOp.mask ||| 1#64 <<< (32 + 0) ||| 0).extractLsb' 32 32 ≠ (0x80000001 : Word) := by decide +kernel

/-- R368: a chunk on port 30, whose link does not carry requests, for subscriber 31, which has not answered. -/
theorem test_meets_LinkReports_chunk : let s := { publishing 32 with ops := [pubOp] };
    let e := (s.target 0 31).1;
    s.op 70 = some pubOp ∧ pubOp.kind = .pubf ∧ pubOp.done = false ∧ s.carries 30 = false ∧ [e].filter (fun i => !pubOp.pubAnswered.getLsbD i) = [31] ∧
    (nodesFrom ((30 + 1) % 32)).find? (fun n => [31].all fun i => s.nodeServes pubOp.ctx n i) = some 31 := by decide +kernel

/-- A chunk of a publication of `len` bytes for receive window 31. -/
def chunk (len doff : Nat) : PubChunk :=
  { ctx := 0, rwin := 31, publisher := 3, number := 9, doff := doff, voff := 0, len := len, place := 0, bytes := List.replicate 32 1, syn := [0],
    deadline := 5000 }

def receiving (tick : Nat) : State := { tiny with tick := tick, ctxs := [{ c1 with rwins := [(31, window)] }] }

/-- R359: a chunk that has been taken, and a publication that is over. -/
theorem test_meets_SubscriberWindow_again :
    let x : InPub := { publisher := 3, number := 9, ctx := 0, rwin := 31, seen := [0], got := 32, lt := 0, closed := none };
    let y : InPub := { x with closed := some (0, some true) };
    let p := chunk 64 65472;
    ([x].find? (fun y => y.publisher == p.publisher && y.number == p.number) = some x ∧ x.closed = none ∧ p.place ∈ x.seen) ∧
    [y].find? (fun y => y.publisher == p.publisher && y.number == p.number) = some y ∧ (0 : Nat) < 0 + 64000 * Config.ticksPerUs := by decide +kernel

/-- R369: counter and data overlap; two granules of which one is here; one, before the deadline and at it. -/
theorem test_meets_SubscriberWindow : let s := receiving 0; let e := SMap.get 0 [(31, window)] 31;
    let r := s.locate 0 0 (winBase e + 65472 + 0) true;
    let w := (r.1.ucWrite 0 131008 (chunk 32 65472).bytes 0).1.setSyn 131008 0;
    s.ctx 0 = some { c1 with rwins := [(31, window)] } ∧ s.inPubs = [] ∧ winV e = true ∧ winPubn e = 255 ∧ winSize e = 65536 ∧
    ¬ ((chunk 64 4).voff + 8 ≤ (chunk 64 4).doff ∨ (chunk 64 4).doff + (chunk 64 4).len ≤ (chunk 64 4).voff) ∧
    (chunk 64 65472).doff + (chunk 64 65472).len ≤ winSize e ∧ r.2 = some 131008 ∧ (∀ h ∈ r.1.home, h.st = .S) ∧ (131008 : Nat) % 32 = 0 ∧ (isHbm 131008 = true ∧ (chunk 32 65472).bytes.length = 32) ∧
    w.fabNs w.tick < (chunk 32 65472).deadline ∧ (w.locate 0 0 (winBase e + 0) true).2 = some 65536 ∧ (w.locate 0 0 (winBase e + 0) true).1.clean 65536 8 = true ∧
    (chunk 32 65472).deadline ≤ (receiving 12000).fabNs 12000 := by decide +kernel

/-! ### Copies -/

/-- A descriptor of two rows of 32 bytes within the scratch allocation, in a collective of `n`. -/
def copyDesc (n sidx : Nat) (src : Nat := 256) (dst : Nat := 128) : List Byte :=
  natLe 8 src ++ natLe 8 dst ++ natLe 4 32 ++ natLe 4 2 ++ natLe 4 1 ++ natLe 4 32 ++ natLe 4 32 ++ natLe 4 0 ++ natLe 4 0 ++
    [18, BitVec.ofNat 8 n, BitVec.ofNat 8 sidx, 0] ++ natLe 16 0

/-- The descriptor at offset 64, which `s8` names; `s9` names the slot at 0. -/
def posting (bar : Word) : State :=
  let g := { g1 with sregs := SMap.put 0 8 64 (SMap.put 0 9 bar g1.sregs) };
  let s := { tiny with groups := [g] };
  s.setNat (scratchLoc 0 64) 64 (leNat (copyDesc 1 0))

theorem copy_of (s : State) (o b : Nat) (h : s.gangThreads = [t1] ∧ s.team t1.tid = some m1 ∧ ((s.src t1 72).toNat = o ∧ o % 64 = 0 ∧ o + 64 ≤ m1.scrSize) ∧
    ((s.src t1 73).toNat = b ∧ (b = noSlot ∨ b % 16 = 0 ∧ b + 16 ≤ m1.scrSize)) ∧ (∀ i < 4, scratchLoc m1.core (m1.scrBase + (o + 16 * i)) / 16 ∉ s.slots) ∧
    (s.synAt (scratchLoc m1.core (m1.scrBase + o)) = 0 ∧ s.synAt (scratchLoc m1.core (m1.scrBase + (o + 32))) = 0) ∧
    s.engineItems (coreCluster m1.core) < 64 ∧ s.itemsOf (s.gidOf t1) = [] ∧ s.coreOf t1.tid = m1.core) : CopyIssue s 72 73 t1 m1 o b := by
  obtain ⟨gang, team, desc, slot, free, good, room, settled, core⟩ := h
  exact { team, desc, slot, free, good, room, settled, core, first := ⟨[], gang⟩,
          oneGroup := fun v hv => by rw [gang] at hv; rw [List.mem_singleton.mp hv] }

theorem test_meets_CopyPosts : CopyIssue (posting 0) 72 73 t1 m1 64 0 ∧ CopyIssue (posting 0xFFFFFFFF) 72 73 t1 m1 64 noSlot ∧
    ((posting 0).threads.map Thread.uid).Nodup ∧ (posting 0).items = [] ∧ ((posting 0).group ((posting 0).gidOf t1)).isSome = true :=
  ⟨copy_of _ _ _ (by decide +kernel), copy_of _ _ _ (by decide +kernel), by decide +kernel⟩

/-- An item of that descriptor. -/
def itemOf (n sidx : Nat) (bar : Nat := noSlot) : CopyItem :=
  { id := 70, cluster := 0, tid := 1, gid := 1, ctx := 0, uid := 1, slot := 0, pkt := 0, fn := 0, descOff := 64, desc := copyDesc n sidx, bar := bar, tok := 5,
    posted := 0, total := 64, accepted := false, counted := false, landed := 0, acked := 0, lt := 0, wake := 0, page := none, due := none, paused := false, late := false,
    got := [], after := [] }

/-- R251: a posting that joins, and one that names index 32 of 32. -/
theorem test_meets_CopyPosts_joins : Joins tiny (itemOf 32 31 0) ∧ ¬ Joins tiny (itemOf 32 32 0) := by
  refine ⟨⟨by decide, by decide, by decide, fun _ y hy => ?_⟩, fun h => by have := h.1; revert this; decide⟩
  have : openItems (tiny.heldItems (itemOf 32 31 0).tid (itemOf 32 31 0).bar) = [] := by decide +kernel
  rw [this] at hy; cases hy

/-- R249: the token of a posted copy holds its bytes. -/
theorem test_copy_token : ((after (.cpy ⟨false, false, 5, 72, 73⟩) (posting 0)).groups.map fun g => SMap.get 0 g.sregs 5) = [64] := by decide +kernel

theorem test_meets_CopyTraps : OutsideTrap tiny ∧ tiny.gangThreads = t1 :: [] ∧ tiny.team t1.tid = some m1 ∧
    ((with1 (holding 8 32)).src (holding 8 32) 8).toNat % 64 ≠ 0 ∧ ((with1 (holding 8 16384)).src (holding 8 16384) 8).toNat % 64 = 0 ∧
    m1.scrSize < ((with1 (holding 8 16384)).src (holding 8 16384) 8).toNat + 64 := by unfold OutsideTrap; decide +kernel

theorem test_meets_CopyWaits : let s := { posting 0 with items := List.replicate 64 (itemOf 1 0) };
    s.gangThreads ≠ [] ∧ (∀ gid ∈ s.gids s.gangThreads, s.copyTrap 72 73 gid = none) ∧
    ∀ u ∈ s.gangThreads, 64 ≤ s.engineItems (s.coreOf u.tid / 4) := by decide +kernel

/-- R257: a withdrawn item of the group stands to be posted again. -/
theorem test_meets_CopyWaits_reposts : let s := { posting 0 with wItems := [itemOf 1 0] };
    (∀ gid ∈ s.gids s.gangThreads, s.copyTrap 72 73 gid = none) ∧ ∃ gid ∈ s.gids s.gangThreads, s.itemsOf gid ≠ [] := by decide +kernel

/-- R251: half a collective; a whole one with a slot and one without; one that is malformed. -/
theorem test_meets_CollectiveAccepts :
    (∀ x ∈ [itemOf 2 0 0, itemOf 1 0 0, itemOf 1 0, { itemOf 1 0 with fn := 2 }], let s := { slotted (armed 1) with items := [x] };
      s.heldItems x.tid x.bar = [x] ∧ (∀ y ∈ s.items, y.id = x.id → y = x) ∧ (s.slotAt (scratchLoc 0 0)).st = 1 ∧ s.itemSlot (itemOf 1 0 0) = scratchLoc 0 0) ∧
    let x := itemOf 1 0 0; let s := { slotted (armed 1) with items := [x] };
    x.nslice = 1 ∧ (s.slotAt (s.itemSlot x)).inflight < 127 ∧ s.synAt (s.itemSlot x) = 0 ∧ s.slotRefuses x = false ∧ x.wellFormed = true ∧ s.extentOk x x.ssp x.src x.srcEnd = true ∧
    s.extentOk x x.dsp x.dst x.dstEnd = true ∧ ¬ (x.ssp = x.dsp ∧ x.src < x.dstEnd ∧ x.dst < x.srcEnd) ∧ x.dsp ≠ 0 ∧
    (itemOf 2 0 0).nslice ≠ 1 ∧ ({ itemOf 1 0 with fn := 2 }).wellFormed = false := by decide +kernel

/-- The collective of two items that name the slot. -/
def pair : List CopyItem := [itemOf 2 0 0, { itemOf 2 1 0 with id := 71, desc := copyDesc 2 1 320 192 }]

theorem test_meets_CollectiveOfMany : let s := { slotted (armed 1) with items := pair };
    (s.heldItems 1 0 = pair ∧ 2 ≤ pair.length ∧ (s.items.map fun y => y.id).Nodup ∧ (∀ x ∈ pair, x.nslice = 2 ∧ x.sidx < 2 ∧ x.counted = false) ∧
    (pair.map fun x => x.sidx).Nodup ∧ s.itemSlot (itemOf 2 0 0) = scratchLoc 0 0 ∧ scratchLoc 0 0 % 16 = 0 ∧ s.synAt (scratchLoc 0 0) = 0 ∧
    s.slotAt (scratchLoc 0 0) = armed 1) ∧ (armed 1).inflight + 2 < 128 ∧
    (armed 1).landed + (s.items.map fun z => if z.counted ∧ z.tid = 1 ∧ z.bar = 0 then z.slotBytes - 32 * z.acked else 0).sum +
      (pair.map fun x => x.slotBytes).sum ≤ 2 ^ 28 - 1 ∧
    ∀ x ∈ pair, x.wellFormed = true ∧ s.extentOk x x.ssp x.src x.srcEnd = true ∧ s.extentOk x x.dsp x.dst x.dstEnd = true ∧
      ¬ (x.ssp = x.dsp ∧ x.src < x.dstEnd ∧ x.dst < x.srcEnd) ∧ x.dsp ≠ 0 := by decide +kernel

/-- R252: a slot that is FREE; an unknown function; a source and a destination that end beyond the allocation; the same bytes twice. -/
theorem test_meets_AcceptanceFails :
    let holds (x : CopyItem) : Bool := let s := { tiny with items := [x] };
      s.heldItems x.tid x.bar == [x] && x.nslice == 1 && x.landed == 0 && x.acked == 0 && x.counted == false;
    let src (x : CopyItem) := ({ tiny with items := [x] }).extentOk x x.ssp x.src x.srcEnd;
    let dst (x : CopyItem) := ({ tiny with items := [x] }).extentOk x x.dsp x.dst x.dstEnd;
    let far := { itemOf 1 0 with desc := copyDesc 1 0 16352 };
    let late := { itemOf 1 0 with desc := copyDesc 1 0 256 16352 };
    let same := { itemOf 1 0 with desc := copyDesc 1 0 256 288 };
    (holds (itemOf 1 0 0) ∧ (tiny.slotAt (tiny.itemSlot (itemOf 1 0 0))).st ≠ 1 ∧ tiny.synAt (tiny.itemSlot (itemOf 1 0 0)) = 0) ∧
    (holds { itemOf 1 0 with fn := 2 } ∧ ({ itemOf 1 0 with fn := 2 }).wellFormed = false) ∧ (holds far ∧ far.wellFormed ∧ src far = false) ∧
    (holds late ∧ late.wellFormed ∧ src late ∧ dst late = false) ∧
    (holds same ∧ same.wellFormed ∧ src same ∧ dst same ∧ same.ssp = same.dsp ∧ same.src < same.dstEnd ∧ same.dst < same.srcEnd) := by decide +kernel

theorem item_of (s : State) (x : CopyItem) (h : s.items.find? (fun y => y.id == 70 && y.accepted) = some x ∧ (∀ y ∈ s.items, y.id = 70 → y = x) ∧
    (x.got = [] ∧ x.wake ≤ s.tick ∧ x.page = none ∧ x.paused = false ∧ x.late = false)) : EngineItem s 70 x := by
  obtain ⟨item, only, ready⟩ := h
  exact { item, only, ready }

theorem granule_of (s : State) (x : CopyItem) (loc : Nat) (h : (s.items.find? (fun y => y.id == 70 && y.accepted) = some x ∧ (∀ y ∈ s.items, y.id = 70 → y = x) ∧
    (x.got = [] ∧ x.wake ≤ s.tick ∧ x.page = none ∧ x.paused = false ∧ x.late = false)) ∧ x.landed < x.count ∧
    (2 ≤ x.ssp ∧ x.ssp ≤ 3 ∧ 2 ≤ x.dsp ∧ x.dsp ≤ 3) ∧ s.itemLoc x x.dsp (x.dest x.landed).1 = loc ∧ (loc % 32 = 0 ∧ isRemote loc = false) ∧
    loc / 16 ∉ s.slots ∧ loc / 16 + 1 ∉ s.slots) : LocalGranule s 70 x loc := by
  obtain ⟨item, more, kind, lands, bound, free⟩ := h
  exact { toEngineItem := item_of s x item, more, kind, lands, bound, free }

/-- An accepted item. -/
def moving (x : CopyItem) (s : State := tiny) : State := { s with items := [{ x with accepted := true }] }

/-- R253: the first of two granules, and the last. -/
theorem test_meets_GranuleLands : (∀ n ∈ [0, 1], let x := { itemOf 1 0 with accepted := true, landed := n };
    LocalGranule (moving x) 70 x (scratchLoc 0 (128 + 32 * n)) ∧ (x.count = 2 ∧ x.fn = 0 ∧ x.bar = noSlot ∧ x.counted = false ∧
      (moving x).itemLoc x x.ssp (sourceOf x x.landed) = scratchLoc 0 (256 + 32 * n) ∧ scratchLoc 0 (256 + 32 * n) % 32 = 0)) ∧
    1 < (itemOf 1 0).rows ∧ 32 * 0 < (itemOf 1 0).rowLen ∧ (itemOf 1 0).rowLen % 32 = 0 := by
  refine ⟨fun n h => ?_, by decide +kernel⟩
  fin_cases h <;> exact ⟨granule_of _ _ _ (by decide +kernel), by decide +kernel⟩

/-- R236: a phase with arrivals to come, and one whose arrivals are all in, with a thread waiting. -/
theorem test_meets_GranuleCounts : ∀ n ∈ [0, 3], let x := { itemOf 1 0 0 with accepted := true, counted := true, landed := 1 };
    let y := { armed n with inflight := 1 };
    let s := moving x (second (slotted y) waiter);
    LocalGranule s 70 x (scratchLoc 0 160) ∧ (s.itemSlot x = scratchLoc 0 0 ∧ (s.threads.map Thread.uid).Nodup ∧ scratchLoc 0 0 % 16 = 0 ∧
      s.synAt (scratchLoc 0 0) = 0 ∧ s.slotAt (scratchLoc 0 0) = y ∧ y.st = 1 ∧ 1 ≤ y.inflight ∧ y.landed + 32 < 2 ^ 28 ∧ waiter ∈ s.threads ∧
      y.target ≤ y.landed + 32) := by
  intro n h
  fin_cases h <;> exact ⟨granule_of _ _ _ (by decide +kernel), by decide +kernel⟩

/-- A descriptor for `CPYT` of 32 rows of 32 bytes with elements of 8 bits. -/
def turned : CopyItem :=
  { itemOf 1 0 with
    fn := 1, accepted := true, landed := 5,
    desc := natLe 8 2048 ++ natLe 8 4096 ++ natLe 4 32 ++ natLe 4 32 ++ natLe 4 1 ++ natLe 4 32 ++ natLe 4 32 ++ natLe 4 0 ++ natLe 4 0 ++ [82, 1, 0, 0] ++ natLe 16 0 }

theorem test_meets_TransposedGranule : LocalGranule (moving turned) 70 turned (scratchLoc 0 (4096 + 32 * 5)) ∧
    (turned.wellFormed = true ∧ turned.elem = 8 ∧ ∀ i < 32, let row := 2048 + 32 * i + 5; let l := (moving turned).itemLoc turned 2 row;
      (moving turned).synAt l = 0 ∧ l % 32 = row % 32) := ⟨granule_of _ _ _ (by decide +kernel), by decide +kernel⟩

/-- R253: the granule's bytes and its hem arrive. -/
theorem test_granule : let s := { tiny with items := [{ itemOf 1 0 with accepted := true, landed := 1 }] }.setNat (scratchLoc 0 288) 4 0xAABBCCDD;
    (after (.granuleLand 70) s).bytes (scratchLoc 0 160) 4 = [0xDD, 0xCC, 0xBB, 0xAA] ∧ (after (.granuleLand 70) s).items = [] := by decide +kernel

/-- A `CPYS` of two granules out of the scratch allocation, with its stamp. -/
def outward (dsp dst stampa : Nat) (landed : Nat := 0) : CopyItem :=
  { itemOf 1 0 with
    fn := 3, accepted := true, landed := landed,
    desc := natLe 8 256 ++ natLe 8 dst ++ natLe 4 32 ++ natLe 4 2 ++ natLe 4 1 ++ natLe 4 32 ++ natLe 4 32 ++ natLe 4 0 ++ natLe 4 0 ++
      [BitVec.ofNat 8 (2 + 8 * dsp), 1, 0, 0] ++ natLe 8 stampa ++ natLe 8 7 }

/-- The sector of global address 0x3000 that an item owns. -/
def ownOp : Op := { Op.blank with id := 80, kind := .engOwn, aop := 70, agent := 384, loc := 0x3000, addr := 0x3000, rtype := 2, done := true,
                                  data := List.replicate 64 0, syn := [0, 0] }

/-- R250: to pool memory, into an owned sector, while it is on its way home, and the stamps. -/
theorem test_meets_CopyOut :
    let f := outward 1 0x001F000000000000 0x001F000000001000;
    let o := outward 0 0x3000 0x4000;
    let s := moving f { linked t1 with nodeMode := [(31, 0)] };
    let r := { moving o with ops := [ownOp], nextId := 100 };
    let ends := outward 0 0x3000 0x4000 2;
    let z := tiny.translate 0 none (clusterDie 0) 0x4000 true;
    EngineItem s 70 f ∧ EngineItem r 70 o ∧ EngineItem (moving ends) 70 ends ∧
    (f.fn = 3 ∧ f.counted = false ∧ f.ssp = 2 ∧ f.dsp = 1 ∧ f.landed + 1 < f.count ∧ s.itemLoc f f.ssp (sourceOf f f.landed) % 32 = 0 ∧
      ∀ a ∈ [(f.dest f.landed).1, f.stampa], let x := BitVec.ofNat 64 a;
        a < 2 ^ 64 ∧ fabKind x = 0 ∧ fabNode x = 31 ∧ a % 32 = 0 ∧ s.answerOf (fabNodeKey x) a = 0 ∧ (s.portTo 0 (fabNode x) (fabOff x)).isSome = true ∧
          s.synAt (fabLoc x) = 0) ∧
    (o.dsp = 0 ∧ (o.dest 0).1 = 0x3000 ∧ r.sectorOp o 0x3000 = some ownOp ∧ ownOp.region = none ∧ isRemote ownOp.loc = false ∧ ownOp.syn.length = 2 ∧
      r.ctx 0 = some c1 ∧ c1.watches = []) ∧
    (ends.landed = ends.count ∧ ends.stampa = 0x4000 ∧ ends.desc.length = 64 ∧ tiny.regionOf 0 0x4000 = none ∧ (∀ h ∈ z.1.home, h.st = .S) ∧
      (match z.2 with | .ok loc _ _ => !isRemote loc && z.1.synAt loc == 0 | _ => false) = true ∧ tiny.ops = [] ∧
      ∃ q ∈ r.ops, q.aop = 70 ∧ q.kind = .engOwn) := by
  refine ⟨item_of _ _ (by decide +kernel), item_of _ _ (by decide +kernel), item_of _ _ (by decide +kernel), by decide +kernel, by decide +kernel, by decide +kernel⟩

/-- R256: a barrier slot, an address of no pool node, an unmapped page, and a bad source granule of `CPYT`. -/
theorem test_meets_CopyFails :
    let x := { itemOf 1 0 with accepted := true };
    let s := { moving x with slots := [(scratchLoc 0 128) / 16] };
    let f := outward 1 0x0100000000000000 0x001F000000001000;
    let o := outward 0 0x80000000 0x4000;
    let b := { moving turned with syn := [((scratchLoc 0 2048) / 32, 1)] };
    let z := tiny.translate 0 none (clusterDie 0) 0x80000000 true;
    EngineItem s 70 x ∧ EngineItem (moving f) 70 f ∧ EngineItem (moving o) 70 o ∧ EngineItem b 70 turned ∧
    (x.landed < x.count ∧ x.fn = 0 ∧ 2 ≤ x.dsp ∧ s.itemLoc x x.dsp (x.dest x.landed).1 / 16 ∈ s.slots) ∧
    (f.landed < f.count ∧ f.dsp = 1 ∧ fabStoreOk (BitVec.ofNat 64 (f.dest f.landed).1) = false) ∧
    (o.landed < o.count ∧ o.dsp = 0 ∧ (o.dest o.landed).1 = 0x80000000 ∧ z.1.ops = [] ∧ (match z.2 with | .fault kind .. => kind != 5 | _ => false) = true) ∧
    (turned.landed < turned.count ∧ ((turned.sources turned.landed).find? fun a => b.synAt (b.itemLoc turned turned.ssp a) != 0).isSome = true) := by
  refine ⟨item_of _ _ (by decide +kernel), item_of _ _ (by decide +kernel), item_of _ _ (by decide +kernel), item_of _ _ (by decide +kernel), by decide +kernel,
    by decide +kernel, by decide +kernel, by decide +kernel⟩

/-! ### Wrung blocks -/

/-- Code lengths 1, 4 and 5 for exponents 0, 1 and 2 to 15. -/
def lens : List Nat := [1, 4] ++ List.replicate 14 5

/-- A wrung block with a header of `h`, `roff` as its row offsets and 88 bytes a row, each row of zeros under their hems. -/
def block (h : List Byte) (roff : List Nat) (rows : Nat) : List Byte :=
  h ++ natLe 2 (crc16 h).toNat ++ roff.flatMap (natLe 2) ++ (List.range rows).flatMap (fun _ => List.replicate 80 0 ++ (List.replicate 4 (natLe 2 (crc16 (List.replicate 32 0)).toNat)).flatten)

/-- Its header: the table at 64, and PLEN. -/
def header (plen : Nat) (magic : Byte := 0x57) (tab : Nat := 64) (codes : Byte := 0x41) : List Byte :=
  [magic, 1, 0, 0, 0, 0, 0, 0, codes, 0x55, 0x55, 0x55, 0x55, 0x55, 0x55, 0x55] ++ natLe 4 tab ++ natLe 4 plen ++ List.replicate 38 0

/-- Row offsets of `n` rows of 88 bytes. -/
def offsets (n : Nat) : List Nat := (List.range 128).map fun i => 88 * min i n

def block1 : List Byte := block (header 88) (offsets 1) 1 ++ List.replicate 8 0

theorem test_meets_WrungCodes : lens.length = 16 ∧ (∀ l ∈ lens, 1 ≤ l ∧ l ≤ 8) ∧ (lens.map fun l => 2 ^ (8 - l)).sum = 256 ∧
    (List.replicate 128 (0x87 : Byte)).length = 128 ∧ 0 < ((List.replicate 128 (0x87 : Byte)).flatMap (elementBits (wrungCodes lens))).length ∧
    ((∀ b ∈ [false], b = false) ∧ [false].length < 8) ∧ 8 ≤ (List.replicate 8 false).length ∧ ∃ b ∈ [true], b = true := by decide +kernel

/-- Table 16.3: a good row of zeros, and each check of the header and the row in its turn. -/
theorem test_meets_WrungRows :
    wrungRow block1 [] 416 (0, 1) 0 = .ok (List.replicate 128 0, (List.replicate 4 (natLe 2 (crc16 (List.replicate 32 0)).toNat)).flatten) ∧
    ([ (wrungRow [] [] 416 (0, 1) 0, (6, 255)), (wrungRow (block (header 88 0x58) (offsets 1) 1) [] 416 (0, 1) 0, (1, 255)),
       (wrungRow (block (header 88 0x57 64 0x42) (offsets 1) 1) [] 416 (0, 1) 0, (2, 255)), (wrungRow block1 [] 384 (0, 1) 0, (3, 255)),
       (wrungRow (block (header 56 0x57 96) (offsets 1) 1) [] 416 (0, 1) 0, (5, 255)), (wrungRow block1 [0, 0, 1] 416 (0, 1) 0, (6, 255)),
       (wrungRow (block (header 88) [0, 7] 1) [] 416 (0, 1) 0, (3, 0)), (wrungRow block1 (List.replicate 12 0 ++ [1]) 416 (0, 1) 0, (6, 0)) ] :
      List (Except (Nat × Nat) (List Byte × List Byte) × (Nat × Nat))).all (fun e => match e.1 with | .error k => k == e.2 | .ok _ => false) = true := by
  decide +kernel

/-- A block of 416 bytes for `CPYX` to read at 2048: the good one, and one of zeros. -/
def expanding (b : List Byte) (landed : Nat) : CopyItem × State :=
  let x := { itemOf 1 0 with
    fn := 2, accepted := true, landed := landed,
    desc := natLe 8 2048 ++ natLe 8 4096 ++ natLe 4 416 ++ natLe 4 1 ++ natLe 4 1 ++ natLe 4 0 ++ natLe 4 128 ++ natLe 4 0 ++ natLe 4 0 ++ [18, 1, 0, 0] ++ natLe 16 0 };
  (x, { moving x with mem := tiny.mem ++ (((List.range b.length).zip b).filter fun p => p.2 != 0).map fun p => (scratchLoc 0 2048 + p.1, p.2) })

theorem test_meets_ExpandedGranule : ∀ b ∈ [block1, []], let e := expanding b 3;
    LocalGranule e.2 70 e.1 (scratchLoc 0 (4096 + 96)) ∧ (e.1.fn = 2 ∧ e.1.counted = false ∧ e.1.rowb = 416 ∧ e.1.src % 32 = 0 ∧
      e.2.itemLoc e.1 e.1.ssp e.1.src = scratchLoc 0 2048 ∧ (∀ i < 13, e.2.itemLoc e.1 e.1.ssp (e.1.src + 32 * i) = scratchLoc 0 2048 + 32 * i) ∧
      e.1.landed + 1 < e.1.count ∧ e.2.ops = []) := by
  intro b h
  fin_cases h <;> exact ⟨granule_of _ _ _ (by decide +kernel), by decide +kernel⟩

theorem test_meets_ExpandedGranule_block : let e := expanding block1 3; let z := expanding [] 3;
    (∃ es hems, wrungRow (e.2.bytes (scratchLoc 0 2048) 416) (e.2.syns (scratchLoc 0 2048) 416) 416 (0, 128) 0 = .ok (es, hems)) ∧
    wrungHeader (z.2.bytes (scratchLoc 0 2048) 416) (z.2.syns (scratchLoc 0 2048) 416) 416 = some 6 := by
  have b : (expanding block1 3).2.bytes (scratchLoc 0 2048) 416 = block1 := by decide +kernel
  have y : (expanding block1 3).2.syns (scratchLoc 0 2048) 416 = List.replicate 13 0 := by decide +kernel
  refine ⟨⟨List.replicate 128 0, (List.replicate 4 (natLe 2 (crc16 (List.replicate 32 0)).toNat)).flatten, ?_⟩, by decide +kernel⟩
  rw [b, y]
  decide +kernel

/-! ### Tiles and the matrix engine -/

/-- A tile at exponent `e` with elements 3 and a dead one. -/
def tile (e : Int) : Tile := { tid := 1, acc := 0, elems := [(0, (3, false)), (5, (7, true))], e := e, poison := false }

theorem test_meets_TileAdds : SMap.wf (0, false) (tile 32767).elems = true ∧ -32768 ≤ (tile 32767).e ∧ (tile 32767).e ≤ 32767 ∧
    (([(0, some (1, 0)), (1, none)] : List (Nat × Option (Int × Int))).map Prod.fst).Nodup ∧ -32768 ≤ (tile (-32768)).e := by decide

/-- R63: 3 + 1 · 2^0 at exponent 0, and ties to even: 5/2 → 2, 7/2 → 4. -/
theorem test_tile_add : ((tile 0).add [(0, some (1, 0))]).at_ 0 = (4, false) ∧ rneDy (5, -1) = 2 ∧ rneDy (7, -1) = 4 := by decide +kernel

theorem test_meets_TileOperations : SMap.wf (0, false) (tile 0).elems = true ∧ ((tile 0).at_ 0).1 ≠ 0 ∧ ((tile 0).at_ 5).2 = true ∧ slotOutfmt (0 : BitVec 64) = 0 ∧
    slotOutfmt (0x4000 : BitVec 64) ≠ 0 ∧ ∀ n < 10, ((tile 0).at_ n).1.natAbs < 2 ^ 46 := by decide +kernel

theorem test_meets_TileBlocks : slotOutfmt (0 : BitVec 64) = 0 ∧ slotOutfmt (0x4000 : BitVec 64) ≠ 0 := by decide

/-- R63: 5/2 is a tie. -/
theorem test_meets_GridRounding : 2 * (rneDy (5, -1) * 2 ^ 1 - 5).natAbs = 2 ^ 1 ∧ (1 : Nat) ≠ 0 := by decide

/-- R52: 1 as E4M3, and its NaN; 1 as F32, and an infinity. -/
theorem test_meets_ElementValues : (elemExact 0 0x38).isSome = true ∧ elemExact 0 0x7F = none ∧ (0x38 : Nat) < 256 ∧ (F32.exact 0x3F800000).isSome = true ∧
    F32.exact 0x7F800000 = none := by decide +kernel

theorem test_meets_TileReadsAndWrites : SMap.wf (0, false) (tile 0).elems = true ∧ ((tile 0).at_ 0).2 = false ∧ ((tile 0).at_ 0).1 ≠ 0 ∧
    ((tile 0).at_ 1).2 = false ∧ ((tile 0).at_ 1).1 = 0 := by decide

/-- The whole group of 32 threads issues; `s8` to `s13` describe operands at offset 0 of the cluster with a pitch of 128 bytes. -/
def whole (f : Thread → Thread := id) : State :=
  let s := State.reset.withFetchWord 32 0x0A800000;
  { s with gang := (List.range 32).map (· + 1), threads := s.threads.map f,
           groups := s.groups.map fun g => { g with sregs := SMap.put 0 9 4 (SMap.put 0 11 4 g.sregs) } }

def mma (acc : BitVec 4) (desc : BitVec 6) : FMma := ⟨false, false, acc, 0, 3, 0, desc, true, true⟩

theorem test_meets_MatrixIssue : whole.whole = true ∧ whole.gangThreads ≠ [] ∧ whole.matrixCause (.mma (mma 3 8)) = none ∧
    whole.badSlotRead (.mma (mma 3 8)) = false ∧ whole.reqsOf 1 = [] ∧ whole.matrixCause (.mma ⟨false, false, 3, 0, 0, 7, 8, false, false⟩) = none ∧ whole.reserved 0 < 32 := by decide +kernel

/-- A request of the first team into tile 0 of the next engine grant, with operands from cluster memory. -/
def mreq : MReq :=
  { id := 70, cluster := 0, tid := 1, gid := 1, ctx := 0, slot := 0, pkt := 0, cls := 0, acc := 0, fmt := 0, shape := 3, rep := 0, desc := [0, 4, 0, 4, 0, 0],
    ra := none, rb := none, next := 0, word := 0, owners := [] }

/-- Operands of zeros: of memory; held in registers, with scales; a wrung block of sixteen rows at 0x8000 of the scratch memory. -/
def held : MReq := { mreq with ra := some (List.replicate 512 0), rb := some (List.replicate 512 0), fmt := 0x500, desc := [0, 4, 0, 4, 0, 128] }

def wrungReq : MReq := { mreq with ra := some (List.replicate 512 0), fmt := 0x1400, desc := [0, 4, 0x800, 54, 0, 0] }

def block16 : List Byte := block (header 1408) (offsets 16) 16

def wrungAt : State := { tiny with mem := (List.range 1728).map fun i => (scratchLoc 0 2048 + i, block16.getD i 0) }

theorem test_meets_MatrixFetches :
    ((tiny.mFetch mreq 0).toOption.isSome = true ∧ mreq.ra = none ∧ mreq.rb = none ∧ slotBstore mreq.fmt ≠ 1 ∧ slotAscale mreq.fmt = 0 ∧ slotBscale mreq.fmt = 0 ∧
      (mreq.reg 0).toNat % 32 = 0 ∧ (mreq.reg 2).toNat % 32 = 0) ∧
    ((tiny.mFetch held 0).toOption.isSome = true ∧ (∃ ws, held.ra = some ws ∧ ws.length = 512) ∧ slotAscale held.fmt ≠ 0 ∧ slotBscale held.fmt ≠ 0) := by
  refine ⟨by decide +kernel, by decide +kernel, ⟨_, rfl, by decide +kernel⟩, by decide +kernel, by decide +kernel⟩

theorem wrung_rows (s : State) (m : MReq) (x : MBlock) (es hems : List Byte) (good : (rowSyns es hems).find? (· != 0) = none) : ∀ rows : List Nat,
    (∀ i ∈ rows, s.mSpan m x.pos x.off (wrungPay x.bytes + wrungRoff x.bytes i) (wrungPay x.bytes + wrungEnd x.bytes i) = none ∧
      wrungRow x.bytes x.syn x.len x.part i = .ok (es, hems)) → ∃ rs, s.mWrungRows m x rows = .ok rs
  | [], _ => ⟨[], rfl⟩
  | i :: rows, h => by
    obtain ⟨rs, e⟩ := wrung_rows s m x es hems good rows fun j hj => h j (List.mem_cons_of_mem _ hj)
    obtain ⟨span, row⟩ := h i List.mem_cons_self
    exact ⟨es :: rs, by simp only [State.mWrungRows, span, ite_self, row, good, e]⟩

theorem get_indexed (f : Nat → Byte) (l : Nat) (ks : List Nat) (k : Nat) (h : k ∈ ks) :
    SMap.get emptyByte (ks.map fun i => (l + i, f i)) (l + k) = f k := by
  induction ks with
  | nil => cases h
  | cons a r ih =>
    simp only [List.map_cons, SMap.get]
    split
    · next e => rw [Nat.add_left_cancel e]
    · next e => exact ih ((List.mem_cons.mp h).resolve_left fun x => e (by rw [x]))

theorem test_wrung_block : wrungAt.bytes (scratchLoc 0 2048) 1728 = block16 ∧ wrungAt.syns (scratchLoc 0 2048) 1728 = List.replicate 54 0 := by
  have len : block16.length = 1728 := by decide +kernel
  refine ⟨List.ext_getElem (by simp [State.bytes, len]) fun i h k => ?_, by decide +kernel⟩
  have hi : i < 1728 := len ▸ k
  simp only [State.bytes, State.byte, wrungAt, List.getElem_map, List.getElem_range]
  rw [get_indexed (fun i => block16.getD i 0) _ _ _ (List.mem_range.mpr hi)]
  simp [List.getD, k]

theorem test_wrung_rows : ∀ i ∈ List.range 16, wrungRow block16 (List.replicate 54 0) 1728 (0, 16) i =
    .ok (List.replicate 128 0, (List.replicate 4 (natLe 2 (crc16 (List.replicate 32 0)).toNat)).flatten) := by decide +kernel

theorem test_meets_MatrixFetches_wrung : (∃ x, wrungAt.mFetch wrungReq 0 = .ok x) ∧ wrungReq.rb = none ∧ slotBstore wrungReq.fmt = 1 ∧
    slotBscale wrungReq.fmt ≠ 0 := by
  refine ⟨?_, by decide⟩
  obtain ⟨b, y⟩ := test_wrung_block
  have len : 32 * pitchRow (wrungReq.reg 3) = 1728 := by decide +kernel
  have part : ((List.range 16).headD 0, (List.range 16).length) = (0, 16) := by decide
  obtain ⟨rs, hr⟩ := wrung_rows wrungAt wrungReq { pos := 0, off := 2048, bytes := block16, syn := List.replicate 54 0, len := 1728, part := (0, 16) }
    _ _ (by decide +kernel) (List.range 16) fun i hi => ⟨by revert i; decide +kernel, test_wrung_rows i hi⟩
  have w : ∃ v, wrungAt.mWrung wrungReq 0 2048 (List.range 16) = .ok v := by
    have loc : scratchLoc (4 * wrungReq.cluster + 0) 2048 = scratchLoc 0 2048 := by decide
    simp only [State.mWrung, len, show max 1728 64 = 1728 by decide, loc, b, y, part, hr,
      show wrungAt.mSpan wrungReq 0 2048 0 64 = none by decide +kernel, show wrungHeader block16 (List.replicate 54 0) 1728 = none by decide +kernel,
      show wrungAt.mSpan wrungReq 0 2048 64 (wrungTab block16) = none by decide +kernel,
      show wrungStart block16 (List.replicate 54 0) 1728 = none by decide +kernel,
      show wrungAt.mSpan wrungReq 0 2048 (wrungEntries block16 (0, 16)).1 ((wrungEntries block16 (0, 16)).1 + (wrungEntries block16 (0, 16)).2) = none by
        decide +kernel,
      show wrungFront block16 (List.replicate 54 0) 1728 (0, 16) = none by decide +kernel]
    exact ⟨_, rfl⟩
  obtain ⟨v, hv⟩ := w
  have place : wrungReq.at_ 2 0 (1024 * pitchPass (wrungReq.reg 3)) = (0, 2048) := by decide +kernel
  have rows : (if shapeN wrungReq.shape == 16 then (List.range 16).map fun j => 16 * pitchC (wrungReq.reg 3) + j else List.range 128) = List.range 16 := by
    decide +kernel
  simp only [State.mFetch, place, rows, hv, show wrungReq.ra = some (List.replicate 512 0) from rfl, show wrungReq.rb = none from rfl,
    show (slotBstore wrungReq.fmt == 1) = true by decide, show (slotAscale wrungReq.fmt == 0) = true by decide,
    show (slotBscale wrungReq.fmt == 0) = false by decide]
  exact ⟨_, rfl⟩

/-- R276: beyond the scratch memory; in a barrier slot; a bad granule. -/
theorem test_meets_FetchFails : mreq.ra = none ∧ tiny.team mreq.tid = some m1 ∧
    ¬ ((field (({ mreq with desc := [0x3FFFE0, 4, 0, 4, 0, 0] }).reg 0) 21 0 + 0) % 2 ^ 22 + 32 ≤ 3145728) ∧
    (tiny.inLaunch m1.lid 0 0 = true ∧ tiny.inLaunch m1.lid 0 31 = true) ∧ scratchLoc 0 0 / 16 ∈ (slotted (armed 1)).slots ∧
    ({ tiny with syn := [(scratchLoc 0 0 / 32, 1)] }).synAt (scratchLoc 0 0) ≠ 0 := by decide +kernel

/-- R62: sixteen rows of zeros each, and the first element with and without a scale. -/
theorem test_meets_MatrixProducts :
    let x : MOperands := { arows := List.replicate 16 (List.replicate 128 0), brows := List.replicate 16 (List.replicate 128 0), sa := List.replicate 16 dyOne, sb := dyOne };
    x.arows.length = 16 ∧ x.brows.length = 16 ∧ ((mreq.products x).head?.map fun p => p.2.isSome) = some true ∧
    ((mreq.products { x with sb := none }).head?.map fun p => p.2.isSome) = some false := by decide +kernel

theorem test_meets_MatrixIssue_bad : let s := { whole with tiles := [{ tile 0 with poison := true, acc := 3 }] };
    s.whole = true ∧ s.matrixCause (.mma (mma 3 8)) = none ∧ s.badSlotRead (.mma (mma 3 8)) = false ∧ s.reserved 0 < 32 ∧ s.reqsOf 1 = [] ∧
    (s.tile 1 3).poison = true ∧ s.ops = [] ∧ s.mreqs = [] := by decide +kernel

theorem test_meets_MatrixIssue_full : let s := { whole with mreqs := List.replicate 32 mreq }; s.whole = true ∧ 32 ≤ s.reserved 0 := by decide +kernel

/-- R277: a withdrawn request of the group. -/
theorem test_meets_MatrixIssue_reposts : let s := { whole with wReqs := [mreq] }; s.whole = true ∧ s.reqsOf (s.gidOf t1) ≠ [] := by decide +kernel

theorem test_meets_TileIssue : whole.gangThreads ≠ [] ∧ (∀ u ∈ whole.gangThreads, whole.reqsOf (whole.gidOf u) = []) ∧ whole.whole = true ∧ whole.matrixCause (.accz ⟨false, false, 3, 7⟩) = none ∧
    whole.matrixCause (.accnorm ⟨false, false, 0, 0⟩) = none ∧ whole.matrixCause (.accrd ⟨false, false, 3, 0, 8, true, false⟩) = none ∧
    whole.matrixCause (.accwr ⟨false, false, 3, 0, 8, false, true⟩) = none := by decide +kernel

/-- R260: one thread is no whole group; tile 4 of 4; a first row of 2; a row pitch of 0. -/
theorem test_meets_MatrixTraps : whole.badSlotRead (.mma (mma 0 8)) = false ∧ OutsideTrap tiny ∧ tiny.whole = false ∧ tiny.badSlotRead (.mma (mma 0 8)) = false ∧ OutsideTrap whole ∧ whole.whole = true ∧
    recAccs (whole.recordOf t1.tid) = 4 ∧ (whole.sreg t1 9).toNat % 4 = 0 ∧ (whole.sreg t1 3).toNat % 4 ≠ 0 ∧
    descriptorOk (recSlot (whole.recordOf t1.tid) 0) 3 false false ((List.range 6).map fun i => whole.sreg t1 (16 + i)) = false := by
  unfold OutsideTrap; decide +kernel

/-- R273: an `MMA` of the group in flight, and a load, which it does not wait for. -/
theorem test_meets_MatrixFence : let a := { whole with ops := [loadOp], nextId := 100 };
    let b := { whole with ops := [{ tiny.opOf t1 .mma 15 with id := 71 }], nextId := 100 };
    (∃ r, whole.gangThreads = whole.threads.headD t1 :: r) ∧ (∃ g, whole.groupOf t1 = some g) ∧
    (whole.whole = true ∧ (∀ o ∈ a.ops, o.kind ∉ [OpKind.mma, .tileZ, .tileNorm, .tileRd, .tileWr] ∧ o.kind ≠ .store ∧ o.kind ≠ .atomic) ∧
    ∃ o ∈ b.ops, o.kind = .mma ∧ o.gid = b.gidOf t1 ∧ o.id < b.gangCut) := by
  refine ⟨⟨_, rfl⟩, ⟨_, rfl⟩, by decide +kernel⟩

/-- R269: the fourth grant goes to the oldest request, another to the highest class; an `ACCZ` is applied first. -/
theorem test_meets_MatrixArbiter : let s := { tiny with mreqs := [mreq, { mreq with id := 71, cls := 7, acc := 1 }] };
    s.nextGrant 0 = some { mreq with id := 71, cls := 7, acc := 1 } ∧ ({ s with grantNo := [(0, 3)] }).nextGrant 0 = some mreq ∧
    ∀ n ∈ s.mreqs, n.cls ≤ 7 ∧ n.id < 2 ^ 64 := by decide +kernel

theorem test_meets_MatrixGrant : let s := { tiny with mreqs := [mreq] }; let bad := { s with tiles := [{ tile 0 with poison := true }] };
    (true, 0) ∉ s.withheld ∧ s.mpass = [] ∧ (∀ o ∈ s.ops, s.tileOpReady o = false) ∧ s.nextGrant 0 = some mreq ∧ (∀ n ∈ s.mreqs, n.id = mreq.id → n = mreq) ∧
    (s.tile 1 0).poison = false ∧ (s.mFetch mreq 0).toOption.isSome = true ∧ (bad.tile 1 0).poison = true ∧ bad.nextGrant 0 = some mreq := by
  decide +kernel

/-- R206, R276: a discard with no `ACCZ` to come, and a fetch beyond the scratch memory. -/
theorem test_meets_MatrixGrant_ends :
    (mreq.next = 0 ∧ ∀ o ∈ ({ tiny with mreqs := [mreq], tiles := [{ tile 0 with poison := true }] }).ops, ¬ (o.kind = .tileZ ∧ o.tid = 1 ∧ o.loc = 0 ∧ o.id < 70)) ∧
    let m := { mreq with desc := [0x3FFFE0, 4, 0, 4, 0, 0] };
    let s := { tiny with mreqs := [m] };
    s.nextGrant 0 = some m ∧ (s.tile 1 0).poison = false ∧ (s.mFetch m 0).toOption.isSome = false ∧ ∀ n ∈ s.mreqs, n.tid = m.tid → n.acc = m.acc → n = m := by
  decide +kernel

theorem test_meets_MatrixPass : let p : MPass := { cluster := 0, req := 70, r := 0, xs := [(0, some (1, 0))], ends := 8 };
    ∀ m ∈ [{ mreq with next := 1 }, { mreq with next := 1, rep := 7 }], let s := { tiny with tick := 8, mpass := [p], mreqs := [m] };
    s.mpass.find? (fun p => p.cluster == 0) = some p ∧ p.ends ≤ s.tick ∧ s.mreqs.find? (fun m => m.id == p.req) = some m := by decide +kernel

/-- Tile operations of each kind of the first thread. -/
def tileOp (k : OpKind) : Op := { tiny.opOf t1 k 15 with id := 70, aop := 70, regs := if k = .tileRd then [16, 17] else [], args := List.replicate 16 0 }

theorem test_meets_TileApplies : ∀ k ∈ [OpKind.tileZ, .tileNorm, .tileWr, .tileRd], let s := { tiny with ops := [tileOp k], tiles := [{ tile 0 with poison := true }] };
    s.op 70 = some (tileOp k) ∧ s.tileOpReady (tileOp k) = true ∧ (s.ops.filter fun x => x.aop == 70 && x.kind == k) = [tileOp k] ∧ (tileOp k).regs.Nodup ∧
    (tileOp k).poison = none := by decide +kernel

/-! ### Groups -/

/-- R215: slot 31 from slot 0; slot 32; a HALTED target; a clash of lanes. -/
theorem test_meets_GroupJoin : let u := holding 0 31; let s := with1 u;
    s.gangThreads = u :: [] ∧ (s.threads.map Thread.uid).Nodup ∧ (∀ v ∈ s.gangThreads, (s.src v 0).toNat ≤ 31) ∧ s.slotGroup 1 31 = none ∧
    s.joinTrap 0 u.tid = none ∧ u.slot ≠ 31 := by decide +kernel

/-- R215: the mover's group has its uniform registers. -/
theorem test_join : ((after (.gjoin ⟨false, 0⟩) (with1 (holding 0 31))).groups.map fun g => (g.slot, SMap.get 0 g.sregs 3)) = [(0, 1), (31, 1)] := by decide +kernel

/-- R215: a target of 32; a HALTED and a SAVED group; a clash of lanes; and a scheduler all of whose slots are taken. -/
theorem test_meets_GroupJoinTraps :
    (let u := holding 0 32; let s := with1 u; OutsideTrap s ∧ (s.gangThreads.filter fun v => 31 < (s.src v 0).toNat) ≠ []) ∧
    let u := holding 0 1; let s := with1 u;
    let other (p : GPlace) : State := { s with
      groups := [g1, { g1 with gid := 2, slot := 1, place := p }],
      threads := s.threads.map fun (t : Thread) => if t.uid = 2 then { t with slot := 1, lid := 32 } else t };
    (∀ p ∈ [GPlace.halted, .saved], (other p).slotGroup 1 1 = some { g1 with gid := 2, slot := 1, place := p }) ∧ (other .active).gangThreads = [u] ∧
    (∃ v ∈ (other .active).threads, v.uid ≠ u.uid ∧ v.tid = u.tid ∧ v.slot = 1 ∧ v.state ≠ .exited ∧ v.lane = u.lane) := by unfold OutsideTrap; decide +kernel

theorem test_meets_GroupJoinTraps_slots : let u := holding 0 1;
    let s := { with1 u with groups := g1 :: List.replicate 32 { g1 with gid := 2, tid := 9, sched := 1 }, teams := [m1, { m1 with tid := 9 }] };
    s.gangThreads = [u] ∧ s.team u.tid = some m1 ∧ (s.src u 0).toNat = 1 ∧ s.slotGroup u.tid 1 = none ∧
    (∀ v ∈ s.threads, v.uid ≠ u.uid → v.tid = u.tid → v.slot ≠ 1) ∧
    (∀ g ∈ s.groups, g.tid = u.tid → ∃ v ∈ s.threads, v.uid ≠ u.uid ∧ v.tid = u.tid ∧ v.slot = g.slot ∧ v.state ≠ .exited) ∧
    32 ≤ (s.groups.filter fun g => g.place ≠ .saved ∧ g.sched = (1 + m1.base) % 4 ∧ s.coreOf g.tid = s.coreOf u.tid).length := by decide +kernel

/-- R88: a parked path and a sibling that holds an entry. -/
theorem test_meets_FairnessSteps :
    let p : Sys2Proof.Machine.Path := { Path.fresh 2 0 1 0 with parked := some 0 }; let q := Path.fresh 1 0 1 0;
    let s := { tiny with
      paths := [q, p], threads := tiny.threads.map fun (t : Thread) => if t.uid = 2 then { t with path := 2 } else t };
    s.paths.find? (fun p => p.id == 2 && p.parked.isSome) = some p ∧ s.siblings p q = true ∧ s.pathKey q = s.pathKey p ∧ (s.paths.map fun (r : Sys2Proof.Machine.Path) => r.id).Nodup ∧
    (∀ r ∈ s.paths, r.parked = none → s.siblings p r = true → s.pathKey r = s.pathKey p → r.id ≠ q.id → q.granted < r.granted) ∧
    (s.paths.find? (fun p => p.id == 1)) = some q := by decide +kernel

theorem test_meets_NoProgress : ({ tiny with gang := [] }).gang = [] ∧ tiny.group 1 = some g1 ∧ Distinct tiny ∧ OutsideTrap tiny := by
  unfold Distinct OutsideTrap; decide +kernel

theorem test_meets_Urgency : g1 ∈ tiny.groups ∧ g1.tid = 1 ∧ ∀ h ∈ tiny.groups, h.slot < 32 := by decide +kernel

theorem test_meets_Swaps : let o := g1; let i := { g1 with gid := 2, slot := 1, place := .pending }; let s := { tiny with groups := [o, i] };
    s.group 1 = some o ∧ s.group 2 = some i ∧ o.place = .active ∧ i.place = .pending ∧ i.swapAt = none ∧ (s.threads.map Thread.uid).Nodup ∧
    ∀ p ∈ s.paths, p.id < s.nextId := by decide +kernel

/-! ### Sequences -/

/-- A sequence at 0x2000 with capacity 100, 16 positions a block, one layer, generation 7; `head` positions claimed in `nblk` blocks; its pool at 0x3000 with
`free` of 4 blocks, its list at 0x4000, its record at 0x5000 with frontier `front`. The die TLBs hold the page of all this. -/
def sequence (s : State) (head nblk free front : Nat) : State :=
  let s := s.setNat 0x2000 16 (head + 2 ^ 32 + 16 * 2 ^ 48 + 100 * 2 ^ 64 + 16 * 2 ^ 96)
  let s := s.setNat 0x2010 24 (0x3000 + 0x4000 * 2 ^ 64 + 0x5000 * 2 ^ 128)
  let s := (s.setNat 0x2028 4 7).setNat 0x2038 4 nblk
  let s := (s.setNat 0x3000 8 (free + 4 * 2 ^ 32)).setNat 0x3010 24 (0x60000 + 0x70000 * 2 ^ 64 + 0x80000 * 2 ^ 128)
  let s := s.setNat 0x4000 40 (0x90000 + 0xA0000 * 2 ^ 64 + 0xB0000 * 2 ^ 128 + 0xC0000 * 2 ^ 192 + 0xD0000 * 2 ^ 256)
  { s.setNat 0x5000 4 front with tlb := (List.range 4).map fun d => { level := 1, unit := d, ctx := 0, va := 0, size := 1073741824, depth := 1, entry := 269 } }

/-- A request of the first thread to it. -/
def seqOp (k : OpKind) (args : List Word) (n : Nat) (snap : Nat := 0) : Op :=
  { tiny.opOf t1 k 0 with id := 70, space := 6, loc := 0x2000, addr := 0x2000, args := args, regs := (List.range n).map (· + 4), aop := snap }

def atSeq (o : Op) (head nblk free front : Nat) : State := sequence { tiny with ops := [o], nextId := 100 } head nblk free front

theorem ok_of {α β ε : Type} (x : Except ε (α × β)) (d : β) (h : x.toOption.map Prod.snd = some d) : ∃ a, x = .ok (a, d) := by
  match x with
  | .ok (a, b) => simp only [Except.toOption, Option.map_some, Option.some.injEq] at h; subst h; exact ⟨a, rfl⟩
  | .error _ => simp [Except.toOption] at h

/-- What its descriptor says. -/
def desc (head nblk free : Nat) : Desc :=
  { head := head, layers := 1, cap := 100, ppb := 16, pool := 0x3000, list := 0x4000, fronts := 0x5000, gen := 7, rbc := 0, ltb := 0, nblk := nblk,
    free := free, pcap := 4 }

theorem at_sequence (o : Op) (head nblk free front : Nat) (h : ((atSeq o head nblk free front).op 70 = some o ∧ o.done = false) ∧
      (∀ x ∈ (atSeq o head nblk free front).ops, x.again = none) ∧ ((atSeq o head nblk free front).seqWait = [] ∧ (atSeq o head nblk free front).stall = []) ∧
      ((atSeq o head nblk free front).sqDesc o.sqAt).toOption.map Prod.snd = some (desc head nblk free)) :
    ∃ s1, AtSequence (atSeq o head nblk free front) 70 o s1 (desc head nblk free) := by
  obtain ⟨op, first, alone, read⟩ := h
  obtain ⟨a, reads⟩ := ok_of _ _ read
  exact ⟨a, { op, first, alone := by rw [alone.1, alone.2]; simp, reads }⟩

/-- `s8:s9` names the sequence. -/
def naming (t : Thread) : State :=
  { sequence (with1 t) 4 1 3 0 with groups := [{ g1 with sregs := SMap.put 0 8 0x2000 g1.sregs }] }

theorem test_meets_SequenceIssue : let s := naming t1; s.gangThreads = [t1] ∧ s.executing 7 = [t1] ∧ (s.seqPair t1 4).toNat = 0x2000 ∧
    (s.reach false (fun t => (s.seqPair t 4).toNat) [t1]).2 = [(t1, 0x2000)] ∧
    ∀ a ∈ (s.reach false (fun t => (s.seqPair t 4).toNat) [t1]).1.threads, a.onPage = false := by decide +kernel

theorem test_meets_PublishIssue : let s := { naming t1 with groups := [{ g1 with sregs := SMap.put 0 8 0x2080 g1.sregs }] };
    OutsideTrap s ∧ s.executing 7 = [t1] ∧ (s.seqPair t1 4).toNat % 256 ≠ 0 := by unfold OutsideTrap; decide +kernel

theorem test_meets_SequenceWrites : let s := sequence tiny 4 1 3 0; let x := s.sqLoc { ctx := 0, die := 0, va := 0x2000 } 0x203C;
    (x.toOption.map Prod.snd) = some 0x203C ∧ (0x203C : Nat) % 64 + 4 ≤ 64 ∧
    (x.toOption.map fun r => r.1.clean 0x203C 4 && r.1.home.all fun h => h.st == .S) = some true ∧
    (s.sqPut { ctx := 0, die := 0, va := 0x2000 } 0x203C 4 9).toOption.isSome = true := by decide +kernel

/-- The reads and writes of a claim that takes a block, in their order. -/
def claiming : Except (Nat × Nat) (Nat × Nat) := do
  let (s1, d) ← (atSeq (seqOp .sqclaim [13] 2) 4 1 2 0).sqDesc (seqOp .sqclaim [13] 2).sqAt
  let s2 ← s1.sqPool (seqOp .sqclaim [13] 2).sqAt d 1 0
  let s3 ← State.sqTake (seqOp .sqclaim [13] 2).sqAt d 1 d.nblk d.free s2
  let s4 ← s3.sqPut (seqOp .sqclaim [13] 2).sqAt 0x2038 4 2
  let _ ← s4.sqPut (seqOp .sqclaim [13] 2).sqAt 0x2000 4 17
  .ok (d.free, d.nblk)

/-- The free blocks where none is. -/
def emptyPool : Except (Nat × Nat) Nat := do
  let (s1, d) ← (atSeq (seqOp .sqclaim [13] 2) 4 1 0 0).sqDesc (seqOp .sqclaim [13] 2).sqAt
  let _ ← s1.sqPool (seqOp .sqclaim [13] 2).sqAt d 0 0
  .ok d.free

/-- R297: past the capacity by one; no block needed, and of no positions; a block needed and none free; one needed and had. -/
theorem test_meets_SequenceClaim :
    (∃ s1, AtSequence (atSeq (seqOp .sqclaim [97] 2) 4 1 3 0) 70 (seqOp .sqclaim [97] 2) s1 (desc 4 1 3)) ∧
    (∃ s1, AtSequence (atSeq (seqOp .sqclaim [12] 2) 4 1 3 0) 70 (seqOp .sqclaim [12] 2) s1 (desc 4 1 3)) ∧
    (∃ s1, AtSequence (atSeq (seqOp .sqclaim [0] 2) 4 1 3 0) 70 (seqOp .sqclaim [0] 2) s1 (desc 4 1 3)) ∧
    (100 - 4 < (97 : Word).toNat ∧ (4 + 12 + 16 - 1) / 16 - 1 = 0 ∧ (4 + 13 + 16 - 1) / 16 - 1 = 1 ∧
      claiming.toOption = some (2, 1) ∧ emptyPool.toOption = some 0) :=
  ⟨at_sequence _ _ _ _ _ (by decide +kernel), at_sequence _ _ _ _ _ (by decide +kernel), at_sequence _ _ _ _ _ (by decide +kernel), by decide +kernel⟩

/-- R297: a claim of 12 from head 4 answers 4 and raises the head to 16. -/
theorem test_claim : let t := after (.sqclaimRequest 70) (atSeq (seqOp .sqclaim [12] 2) 4 1 3 0);
    (t.ops.map fun o => o.args) = [[4, 7]] ∧ t.bytes 0x2000 4 = [16, 0, 0, 0] := by decide +kernel

theorem test_meets_FrontierAdvances : 0xFFFFFFFFFFFFFFFF < 2 ^ 64 ∧
    Front.settled 64 { front := 0, plt := 0, map := 0xFFFFFFFFFFFFFFFF } = { front := 64, plt := 0, map := 0 } := by decide +kernel

/-- R298: positions 0 to 3 of layer 0, which the frontier at 0 admits, under generation 7. -/
def pubReq : Op := { seqOp .sqpub [0, 0x00070400] 0 with lt := 5 }

/-- What a publish reads at its home, in order: the frontier and the map of its layer. -/
def publishReads (o : Op) (head nblk front : Nat) : Except (Nat × Nat) (State × Desc × Front) := do
  let a := o.sqAt
  let (s1, d) ← (atSeq o head nblk 3 front).sqDesc a
  let s2 ← s1.sqHems a d 0 0
  let (s3, _) ← s2.sqFront a d 0
  let s4 ← s3.sqWell a d
  let (s5, d1) ← s4.sqRebase a d
  let (s6, d2) ← s5.sqRoom a d1 5
  let (s7, r) ← s6.sqFront a d2 0
  .ok (s7, d2, r)

/-- The front of a layer after a publish's reads, where what it writes there can be written. -/
def publishes (o : Op) (head nblk front : Nat) (f : Front → Front) : Option (Nat × Nat) :=
  (do
    let (s, d, r) ← publishReads o head nblk front
    let _ ← s.sqPutFront o.sqAt d 0 (f r)
    .ok (r.front, r.map)).toOption

theorem test_meets_SequencePublish : (∃ s1, AtSequence (atSeq pubReq 4 1 3 0) 70 pubReq s1 (desc 4 1 3)) ∧ (lwGen 0x00070400 = 7 ∧ lwCount 0x00070400 = 4 ∧
    (∀ u ∈ (atSeq pubReq 4 1 3 0).threads, (atSeq pubReq 4 1 3 0).savedRecord u = none) ∧ publishes pubReq 4 1 0 (fun r => Front.settled 64 { r with plt := 5, map := 15 }) = some (0, 0)) :=
  ⟨at_sequence _ _ _ _ _ (by decide +kernel), by decide +kernel⟩

/-- R298: the frontier moves to 4 with publish LT 5, and the map is empty again. -/
theorem test_publish : (after (.sqpubRequest 70) (atSeq pubReq 4 1 3 0)).bytes 0x5000 9 = [4, 0, 0, 0, 5, 0, 0, 0, 0] := by decide +kernel

/-- R299: positions 66 to 69 with the frontier at 0; 63 requests of the slice held, and 64. -/
theorem test_meets_PublishHeld : let o := { pubReq with args := [66, 0x00070400] };
    (∃ s1, AtSequence (atSeq o 70 5 3 0) 70 o s1 (desc 70 5 3)) ∧
    (publishes o 70 5 0 (fun r => { r with plt := 5 }) = some (0, 0) ∧ 0 + 64 < (66 : Word).toNat + lwCount 0x00070400) :=
  ⟨at_sequence _ _ _ _ _ (by decide +kernel), by decide +kernel⟩

/-- A second request of the thread to the sequence. -/
def secondReq (k : OpKind) (args : List Word) : Op := { seqOp k args (if k = .sqpub then 0 else 2) with id := 71, wts := 7, lt := 5 }

/-- The sequence with both requests in flight. -/
def both (o x : Op) (stall seqWait : List Nat) : State := { sequence { tiny with ops := [o, x], nextId := 100 } 8 1 3 0 with stall := stall, seqWait := seqWait }

/-- R299: positions 0 to 3 are published while a publish of 4 to 7 is held, and then that one; and a retraction. -/
theorem test_meets_HeldPublishRetried : let x := secondReq .sqpub [4, 0x00070400];
    (∀ e ∈ [(pubReq, Instr.sqpubRequest 70), (seqOp .sqret [6] 1, .sqretRequest 70)], let s := both e.1 x [71] [];
      s.op 70 = some e.1 ∧ e.1.done = false ∧ s.op 71 = some x ∧ x.done = false ∧ x.loc = e.1.loc ∧ s.seqWait = [] ∧ s.stall = [71] ∧ (∀ y ∈ s.ops, y.again = none) ∧
      (after e.2 { s with stall := [] }).op 71 = some x ∧ (after e.2 { s with stall := [] }).stall = [] ∧ (after e.2 { s with stall := [] }).power = true ∧
      (∀ y ∈ (after e.2 { s with stall := [] }).ops, y.again = none)) ∧
    (after (.sqpubRequest 70) (both pubReq x [] [])).op 70 = none ∧ lwLayer (x.args.getD 1 0) = lwLayer (pubReq.args.getD 1 0) := by decide +kernel

/-- The reads of an acquire. -/
def acquireReads : Except (Nat × Nat) Nat := do
  let a := (seqOp .sqacq [4, 0] 2).sqAt
  let (s1, d) ← (atSeq (seqOp .sqacq [4, 0] 2) 4 1 3 4).sqDesc a
  let s2 ← s1.sqHems a d 0 0
  let (s3, r) ← s2.sqFront a d 0
  let s4 ← s3.sqWell a d
  let _ ← s4.sqRebase a d
  .ok r.front

/-- R300: a target of 9 with the frontier at 4. -/
theorem test_meets_AcquireWaits : let o := seqOp .sqacq [9, 0] 2;
    (∃ s1, AtSequence (atSeq o 4 1 3 4) 70 o s1 (desc 4 1 3)) ∧ (acquireReads.toOption = some 4 ∧ o.aop ≠ 1 ∧ 4 < (o.args.headD 0).toNat ∧ o.carry = none) :=
  ⟨at_sequence _ _ _ _ _ (by decide +kernel), by decide +kernel⟩

/-- R300: a publish that brings the frontier to 4, with an acquire that waits for 4; and what the acquire reads where the frontier is 4. -/
theorem test_meets_AcquireWoken : let x := secondReq .sqacq [4, 0]; let s := both pubReq x [] [71];
    let t := after (.sqpubRequest 70) { s with seqWait := [] };
    s.op 70 = some pubReq ∧ pubReq.sqMessage = [.sqpubRequest 70] ∧ (∀ y ∈ s.ops, y.again = none) ∧ s.seqWait = [71] ∧ s.stall = [] ∧ t.seqWait = [] ∧
      t.stall = [] ∧ t.op 71 = some x ∧ x.aop ≠ 1 ∧ x.loc = pubReq.loc ∧ t.power = true := by decide +kernel

theorem test_meets_AcquireWoken_reads : let x := secondReq .sqacq [4, 0];
    (do let (s1, d) ← State.sqDesc { atSeq x 8 1 3 4 with seqWait := [71] } x.sqAt
        let s2 ← s1.sqHems x.sqAt d 0 0
        let (s3, r) ← s2.sqFront x.sqAt d 0
        let s4 ← s3.sqWell x.sqAt d
        let _ ← s4.sqRebase x.sqAt d
        .ok (r.front, d.gen)).toOption = some (4, x.wts) ∧ 4 < (secondReq .sqacq [8, 0]).args.headD 0 := by decide +kernel

/-- Table 17.4: layer 1 of 1; positions 1 to 4 of 4, and 65 of them; generation 6 of 7. -/
theorem test_meets_SequenceFaults :
    let reads (o : Op) : Bool := ((do
      let (s1, d) ← (atSeq o 4 1 3 0).sqDesc o.sqAt
      let s2 ← s1.sqHems o.sqAt d 0 0
      s2.sqFront o.sqAt d 0).toOption).isSome;
    let pub (p w : Word) : Op := { pubReq with args := [p, w] };
    (∀ o ∈ [seqOp .sqinfo [1] 4, seqOp .sqacq [4, 1] 2, pub 0 0x00070401, pub 1 0x00070400, pub 0 0x00074100, pub 0 0x00060400],
      (atSeq o 4 1 3 0).op 70 = some o ∧ o.done = false ∧ o.sqMessage.length = 1 ∧ reads o = true ∧ o.again = none ∧
      ((atSeq o 4 1 3 0).sqDesc o.sqAt).toOption.map Prod.snd = some (desc 4 1 3)) ∧
    (1 ≤ lwLayer (0x00070401 : Word) ∧ 1 ≤ lwLayer (1 : Word) ∧ 4 < 1 + lwCount 0x00070400 ∧ 64 < lwCount 0x00074100 ∧ lwGen 0x00060400 ≠ 7 % 65536) ∧
    ∀ u ∈ (atSeq (pub 0 0) 4 1 3 0).threads, (atSeq (pub 0 0) 4 1 3 0).savedRecord u = none := by decide +kernel

theorem test_meets_SequenceBlocks : (2 : Nat) ≤ 2 ∧ (2 : Nat) ≤ 1 + 1 := by decide

theorem test_meets_SequenceAcquire : (∃ s1, AtSequence (atSeq (seqOp .sqacq [4, 0] 2) 4 1 3 4) 70 (seqOp .sqacq [4, 0] 2) s1 (desc 4 1 3)) ∧
    ((seqOp .sqacq [9, 0] 2 1).aop = 1 ∧ acquireReads.toOption = some 4) :=
  ⟨at_sequence _ _ _ _ _ (by decide +kernel), by decide +kernel⟩

/-- The reads and writes of a retraction. -/
def retractReads : Except (Nat × Nat) Nat := do
  let a := (seqOp .sqret [3] 1).sqAt
  let (s1, d) ← (atSeq (seqOp .sqret [3] 1) 4 1 3 4).sqDesc a
  let s0 ← s1.sqPool a d 0 0
  let (s2, r) ← s0.sqFront a d 0
  let s3 ← s2.sqPutFront a d 0 { r with front := 3, map := 0 }
  let s4 ← s3.sqPut a 0x2000 4 3
  let s5 ← s4.sqPut a 0x2028 4 8
  let _ ← s5.sqPut a 0x2038 4 1
  .ok r.front

/-- The block that a retraction to 16 of a head of 20 in two blocks gives back. -/
def givingReads : Except (Nat × Nat) Nat := do
  let a := (seqOp .sqret [16] 1).sqAt
  let (s1, d) ← (atSeq (seqOp .sqret [16] 1) 20 2 2 4).sqDesc a
  let s2 ← s1.sqPool a d 0 1
  let _ ← State.sqGive a d 1 (d.nblk - 1) d.free s2
  .ok d.nblk

/-- R301: the head itself cuts nothing; 1 below it does; 4 below a head of 20 frees a block. -/
theorem test_meets_SequenceRetract :
    (∃ s1, AtSequence (atSeq (seqOp .sqret [3] 1) 4 1 3 4) 70 (seqOp .sqret [3] 1) s1 (desc 4 1 3)) ∧
    (∃ s1, AtSequence (atSeq (seqOp .sqret [4] 1) 4 1 3 4) 70 (seqOp .sqret [4] 1) s1 (desc 4 1 3)) ∧
    (∃ s1, AtSequence (atSeq (seqOp .sqret [16] 1) 20 2 2 4) 70 (seqOp .sqret [16] 1) s1 (desc 20 2 2)) ∧
    (retractReads.toOption = some 4 ∧ givingReads.toOption = some 2) :=
  ⟨at_sequence _ _ _ _ _ (by decide +kernel), at_sequence _ _ _ _ _ (by decide +kernel), at_sequence _ _ _ _ _ (by decide +kernel), by decide +kernel⟩

/-- R301: the head and the frontier are 3, the generation 8. -/
theorem test_retract : let t := after (.sqretRequest 70) (atSeq (seqOp .sqret [3] 1) 4 1 3 4);
    t.bytes 0x2000 1 = [3] ∧ t.bytes 0x5000 1 = [3] ∧ t.bytes 0x2028 1 = [8] := by decide +kernel

/-- The reads of an information request. -/
def infoReads : Except (Nat × Nat) (State × Front) := do
  let (s1, d) ← (atSeq (seqOp .sqinfo [0] 4) 4 1 3 4).sqDesc (seqOp .sqinfo [0] 4).sqAt
  s1.sqFront (seqOp .sqinfo [0] 4).sqAt d 0

theorem test_meets_SequenceInfo : (∃ s1, AtSequence (atSeq (seqOp .sqinfo [0] 4) 4 1 3 4) 70 (seqOp .sqinfo [0] 4) s1 (desc 4 1 3)) ∧ ((desc 4 1 3).layers ≤ (1 : Word).toNat ∧
    infoReads.toOption.map Prod.snd = some { front := 4, plt := 0, map := 0 }) :=
  ⟨at_sequence _ _ _ _ _ (by decide +kernel), by decide +kernel⟩

theorem test_meets_SequenceReplies : let o := { seqOp .sqclaim [4, 7] 2 with preg := some 6, done := true, rtype := 1 };
    (({ tiny with ops := [o] }).op 70 = some o ∧ o.poison = none ∧ o.regs.Nodup ∧ o.preg = some 6) ∧
    ∀ r ∈ [0, 1], let q := { seqOp .sqacq [4, 7] 2 with done := true, lt := 5, rtype := r };
      ({ tiny with ops := [q] }).op 70 = some q ∧ q.poison = none ∧ q.kind = .sqacq ∧ q.done = true ∧ ({ tiny with ops := [q] }).loadsDone q = true := by
  decide +kernel

/-! ### Launches, pages and system registers -/

/-- A queue of context 0 with 16 entries at 0x8000. -/
def lane9 (st : QState) (prod cons : Nat) (feed : Bool := true) : Queue :=
  { Queue.fresh 9 with ctx := some 0, base := 0x8000, feed := feed, state := st, prod := prod, cons := cons }

/-- The first thread has a record's address in `v0:v1` and the queue's number in `v2`. -/
def launching (q : Queue) (t : Thread := holding 2 9 tAt) : State := { with1 t with queues := [q] }

/-- R315: a queue that takes nothing; one that its host feeds; one with 16 of 16 entries used. -/
theorem test_meets_LaunchRefused : (∀ q ∈ [lane9 .disabled 0 0, lane9 .idle 0 0 false, lane9 .active 16 0],
      let s := launching q; let u := holding 2 9 tAt;
      s.executing 7 = [u] ∧ (s.srcPair u 0).toNat % 128 = 0 ∧ s.threadOrdered 3 u = true ∧ (∀ a ∈ s.threads, a.onPage = false) ∧ s.queue (field (s.src u (0 + 2)) 9 0) = q) ∧
    ¬ OpenTo (lane9 .disabled 0 0) 0 ∧ OpenTo (lane9 .idle 0 0 false) 0 ∧ OpenTo (lane9 .active 16 0) 0 ∧ (lane9 .active 16 0).size ≤ (lane9 .active 16 0).used := by
  unfold OpenTo; decide +kernel

/-- R315: the last free entry. -/
theorem test_meets_LaunchAppends : let q := lane9 .active 15 0; let s := launching q; let u := holding 2 9 tAt; let b := s.leaveTime 0 3 [1];
    let x := b.translate 0 (some 0) 0 (q.entry q.prod) true; let y := x.1.translate 0 (some 0) 0 0x2000 false;
    (OpenTo q 0 ∧ q.feed = true ∧ q.used < q.size) ∧ (s.executing 7 = [u] ∧ s.threadOrdered 3 u = true ∧ s.queue (field (s.src u (0 + 2)) 9 0) = q) ∧
    (s.srcPair u 0).toNat = 0x2000 ∧ q.entry q.prod = 0x8780 ∧ x.2 = .ok 0x8780 269 1 ∧ y.2 = .ok 0x2000 269 1 ∧
    isRemote 0x8780 = false ∧ (0x8780 : Nat) % 64 = 0 ∧ OutsideQueues s 0x8780 128 ∧ (∀ h ∈ y.1.home, h.st = .S) ∧ ∀ o ∈ y.1.ops, o.id < y.1.nextId := by
  unfold OpenTo OutsideQueues; decide +kernel

/-- R315: the launch's number is the old `PROD`. -/
theorem test_launch : let t := after (.launch ⟨false, 7, false, 6, 0⟩) (launching (lane9 .active 15 0));
    (t.queue 9).prod = 16 ∧ (t.ops.map fun o => o.fill) = [[15, 0, 0, 0]] := by decide +kernel

theorem test_meets_LaunchTraps : (let u := holding 0 0x2040; let s := with1 u; OutsideTrap s ∧ s.executing 7 = [u] ∧ (s.srcPair u 0).toNat % 128 ≠ 0) ∧
    let s := { launching (lane9 .idle 0 0) with ops := [{ storeOp with space := 0, rtype := 1 }], nextId := 100 };
    s.executing 7 = [holding 2 9 tAt] ∧ (s.srcPair (holding 2 9 tAt) 0).toNat % 128 = 0 ∧ s.threadOrdered 3 (holding 2 9 tAt) = false := by unfold OutsideTrap; decide +kernel

/-- R339: an address that is mapped, and one beyond the table. -/
theorem test_meets_PageProbes : let s := with1 tAt; s.executing 7 = [tAt] ∧ (s.translate 0 (some 0) 0 0x2000 false).2 = .ok 0x2000 269 1 ∧
    (s.translate 0 (some 0) 0 0x40000000 false).2 ≠ (s.translate 0 (some 0) 0 0x2000 false).2 ∧
    (s.translate 0 (some 0) 0 (2 ^ 52) false).2 = .fault 7 0 (2 ^ 52) 65536 := by decide +kernel

/-- R339: the probe of a mapped page answers its entry with level 2's code. -/
theorem test_probe : ((after (.pgprobe ⟨false, 7, false, 4, 0⟩) (with1 tAt)).ops.map fun o => o.fill) = [[0x0D, 0x05, 0, 0, 0, 0, 0, 0]] := by decide +kernel

theorem test_meets_DispatchSlots : let q := { lane9 .active 1 0 with prio := 7 }; let s := { tiny with queues := [q] };
    s.nextQueue 7 = some q ∧ s.head 9 = none ∧
    let l := { Launch.fresh 50 0 9 0 0 0 with state := .waiting }; let r := { tiny with queues := [{ q with cons := 1 }], launches := [l] };
    r.nextQueue 7 = some { q with cons := 1 } ∧ r.head 9 = some l ∧
    16 ≤ ({ r with launches := (List.range 16).map fun k => { l with lid := k, slot := true, qprio := 7 } }).slotsUsed 7 := by decide +kernel

/-- A head of the queue in a state. -/
def headed (st : LState) (record : BitVec 1024 := 0) (slot : Bool := true) (qs : QState := .active) : State :=
  { tiny with queues := [lane9 qs 1 0], launches := [{ Launch.fresh 50 0 9 0 0 0 with state := st, record := record, slot := slot }], nextId := 100 }

def headOf (st : LState) (record : BitVec 1024 := 0) (slot : Bool := true) : Launch :=
  { Launch.fresh 50 0 9 0 0 0 with state := st, record := record, slot := slot }

theorem head_of (st : LState) (record : BitVec 1024) (slot : Bool) (qs : QState)
    (h : (headed st record slot qs).head 9 = some (headOf st record slot) ∧ ((headed st record slot qs).queue 9).flows = true) :
    HeadOf (headed st record slot qs) (headOf st record slot) st := by
  refine ⟨?_, ?_, h.1, rfl, h.2, by show (9 : Nat) < 1024; decide⟩
  · simp [State.launch, headed, headOf, Launch.fresh]
  · intro x hx _; simp only [headed, List.mem_singleton] at hx; exact hx

/-- R308, R335: a record that can be read, good or bad; an entry past the mapped GiB, and one of a page that migrates. -/
theorem test_meets_HeadReads : HeadOf (headed .posted) (headOf .posted) .posted ∧
    (let x := (headed .posted).translate 0 none 0 ((headed .posted).queue 9 |>.entry 0) false;
      (headOf .posted).page = none ∧ (headOf .posted).wake ≤ (headed .posted).tick ∧ x.2 = .ok 0x8000 269 1 ∧ x.1.clean 0x8000 128 = true ∧ (∀ h ∈ x.1.home, h.st = .S) ∧
      ({ x.1 with syn := [(0x8000 / 32, 1)] }).clean 0x8000 128 = false) ∧
    let migrating := (headed .posted).setByte 0x80010000 0x8D;
    (match (migrating.translate 0 none 0 0x8000 false).2 with | .fault k _ _ len => some (k, decide (0 < len)) | _ => none) = some (5, true) ∧
    (match ((headed .posted).translate 0 none 0 0x40000000 false).2 with | .fault k _ _ _ => decide (k ≠ 5) | _ => false) = true :=
  ⟨head_of _ _ _ _ (by decide +kernel), by decide +kernel⟩

/-- R310, R322: no dependence; one on launch 5 of queue 8, unmet, failed, with the queue BLOCKED; a record that passes its checks. -/
theorem test_meets_LaunchDispatches : let dep : BitVec 1024 := BitVec.ofNat 1024 ((2 ^ 31 + 8 * 2 ^ 21 + 5) * 2 ^ 832); let rec_ := tiny.recordOf 1;
    HeadOf (headed .waiting dep) (headOf .waiting dep) .waiting ∧ HeadOf (headed .waiting rec_) (headOf .waiting rec_) .waiting ∧
    HeadOf (headed .waiting rec_ false .blocked) (headOf .waiting rec_ false) .waiting ∧
    (headed .waiting dep).judgeAll (headOf .waiting dep) = .unmet ∧
    ({ headed .waiting dep with queues := [lane9 .active 1 0, { Queue.fresh 8 with state := .faulted }] }).judgeAll (headOf .waiting dep) = .failed ∧
    (headed .waiting rec_).judgeAll (headOf .waiting rec_) = .met ∧ ((headed .waiting rec_).mapHeader (headOf .waiting rec_)).2 = none ∧
    (headed .waiting rec_).launchCheck (headOf .waiting rec_) none = none ∧ (headed .waiting 0).launchCheck (headOf .waiting 0) none = some 1 :=
  ⟨head_of _ _ _ _ (by decide +kernel), head_of _ _ _ _ (by decide +kernel), head_of _ _ _ _ (by decide +kernel), by decide +kernel⟩

/-- R320: a context that is RUNNING, and the BLOCKED queue of a SAVED one. -/
theorem test_meets_LaunchDispatches_saved : (headed .waiting).dispatches 0 = true ∧
    let s := { headed .waiting 0 true .blocked with ctxs := [{ c1 with state := .saved }] };
    s.head 9 = some (headOf .waiting) ∧ (s.queue 9).flows = true ∧ s.judgeAll (headOf .waiting) ≠ .unmet ∧ s.dispatches 0 = false ∧
    (s.queue 9).state = .blocked ∧ (s.queue 9).prod ≠ (s.queue 9).cons := by decide +kernel

/-- R322: number 1,048,575 ahead of `RET` is unmet, 1,048,576 ahead is met; in the own queue a number not below the own one fails. -/
theorem test_meets_Dependences : let s := { tiny with queues := [lane9 .active 1 0] };
    let dep (q n : Nat) : Nat := 2 ^ 31 + q * 2 ^ 21 + n;
    (s.queue (bits (dep 9 0) 30 21)).ctx = some 0 ∧ (s.queue (bits (dep 8 0) 30 21)).ctx = none ∧ dep 1023 2097151 < 2 ^ 32 ∧
    s.judge (headOf .waiting) (dep 9 1048576) = .met ∧ s.judge (headOf .waiting) (dep 9 1048575) = .failed ∧ s.judge (headOf .waiting) (dep 8 1048575) = .unmet := by
  decide +kernel

theorem test_meets_TeamPlaces : let l := { headOf .dispatching (tiny.recordOf 1) with placed := 0 }; let s := { headed .dispatching with launches := [l] };
    s.launch 50 = some l ∧ (∀ x ∈ s.launches, x.lid = l.lid → x = l) ∧ l.placing = true ∧ s.dispatches 0 = true ∧ (s.nextPlace l).2.2.isSome = true ∧
    (s.nextPlace l).1.launches = s.launches := by decide +kernel

theorem test_meets_StampWrites : ∀ st ∈ [LState.draining, .faulted], let rec_ : BitVec 1024 := BitVec.ofNat 1024 (0x2008 * 2 ^ 896); let s := headed st rec_;
    s.launch 50 = some (headOf st rec_) ∧ s.stampDue (headOf st rec_) = true ∧ recStampa rec_ = 0x2008 ∧ recStampa (0 : BitVec 1024) = 0 ∧
    (s.translate 0 none 0 0x2008 true).2 = .ok 0x2008 269 1 ∧ (∀ h ∈ (s.translate 0 none 0 0x2008 true).1.home, h.st = .S) ∧
    (s.translate 0 none 0 0x2008 true).1.launches = s.launches ∧
    OutsideQueues s 0x2008 8 ∧ (s.translate 0 none 0 0x2008 true).1.synAt 0x2008 = 0 := by unfold OutsideQueues; decide +kernel

/-- R319: no change; one entry and all sixteen; seventeen. -/
theorem test_meets_HostPosts : let s := { tiny with queues := [lane9 .idle 0 0 false] };
    (s.queue 9).ctx = some 0 ∧ s.ctx 0 = some c1 ∧ c1.state ≠ .free ∧ c1.host = 0 ∧
    (([0, 1, 16, 17] : List (BitVec 32)).map fun v => ((s.queue 9).size - (s.queue 9).used, field v 20 0, field v 31 21)) = [(16, 0, 0), (16, 1, 0), (16, 16, 0), (16, 17, 0)] := by
  decide +kernel

theorem test_meets_FirmwarePosts : { tiny with fwCtx := none }.fwCtx = none ∧ let s := { tiny with fwCtx := some (Ctx.fresh 64) }; s.fwCtx = some (Ctx.fresh 64) ∧
    (∀ x ∈ s.launches, x.lid < s.nextId) ∧ recPmap (tiny.recordOf 1) = 0 ∧ recFieldsOk (tiny.recordOf 1) = true ∧ recFits (tiny.recordOf 1) = true ∧
    ∀ k < 8, slotValid (recSlot (tiny.recordOf 1) k) = true := by decide +kernel

/-- Table 22.3: a migrating leaf; one outside the partition; one without W. -/
theorem test_meets_PageChecks : pteMig 0x8D = true ∧ (let s := { tiny with ctxs := [{ c1 with part := 0 }] };
      pteMig 0x10D = false ∧ ¬ (pteKind 0x10D ≠ 0 ∨ s.partitionOk 0 3 0x10D = true)) ∧
    pteW 0x105 = false ∧ tiny.partitionOk 0 3 0x10D = true ∧ pteW 0x10D = true := by decide +kernel

theorem test_meets_PageWalks : let x := tiny.translate 0 (some 0) 0 (0x40000000 : BitVec 64).toNat false; (tiny.translate 0 (some 0) 0 (0x2000 : BitVec 64).toNat false).2 = .ok 0x2000 269 1 ∧
    (match x.2 with | .fault 1 _ _ len => decide (0 < len) | _ => false) = true ∧ x.1.pageReqs = [] ∧
    (tiny.translate 0 (some 0) 0 (0x10000000000000 : BitVec 64).toNat false).2 = .fault 7 0 0x10000000000000 65536 := by decide +kernel

/-- R382: the last trap word in trap mode; `ABORT` in any; a number beyond `ABORT`; a trap word outside trap mode. -/
theorem test_meets_SystemReads : let u := holding 0 0x17 { t1 with trapMode := true };
    ((with1 u).executing 7 = [u] ∧ u.trapMode = true ∧ (with1 u).firmware u = false ∧ ((with1 u).src u 0).toNat = 0x17) ∧ readable true false 0x17 ∧
    readable false false 0x20 ∧ ¬ listedRead 0x21 ∧ ¬ listedRead 0x300 ∧ listedRead 0x17 ∧ ¬ readable false false 0x17 ∧ readable false true 0x2FF ∧
    ¬ readable true false 0x100 := by
  refine ⟨by decide +kernel, ?_⟩
  unfold listedRead readable
  refine ⟨?_, ?_, ?_, ?_, ?_, ?_, ?_, ?_⟩ <;> simp

theorem test_meets_TokenPeek : tiny.executing 7 = [t1] ∧ tiny.groupOf t1 = some g1 ∧ tiny.poisonOf t1 (64 + 63) = none := by decide +kernel

theorem test_meets_SystemWrites : writable true false 0x17 ∧ writable false true 0x129 ∧ ¬ listedWrite 0x104 ∧ ¬ listedWrite 0x12A ∧ listedWrite 0x129 ∧
    ¬ writable false false 0x129 := by
  unfold listedWrite writable readable
  refine ⟨?_, ?_, ?_, ?_, ?_, ?_⟩ <;> simp

/-- A write of a value to a system register in flight. -/
def sysOp (n : Nat) (v : Word) : Op := { tiny.opOf t1 .sysw 0 with id := 70, addr := BitVec.ofNat 64 n, args := [v], port := 1 }

theorem system_write (n : Nat) (v : Word) (h : n < 1024) : SystemWrite { tiny with ops := [sysOp n v] } 70 (sysOp n v) n v :=
  ⟨by simp [State.op, sysOp], rfl, ⟨rfl, h⟩, rfl, rfl, rfl⟩

/-- R380, R383: each register at the ends of its range of numbers, values at and beyond the ends of theirs. -/
theorem test_meets_SystemWritesTakeEffect : (∀ n ∈ [0, 0x17, 0x20, 0x100, 0x102, 0x108, 0x10A, 0x110, 0x111, 0x120, 0x121, 0x128, 0x129, 0x200, 0x2FF],
      SystemWrite { tiny with ops := [sysOp n 500] } 70 (sysOp n 500) n 500) ∧ (500 : Word).getLsbD 0 = false ∧
    ∃ x ∈ tiny.ctxs, x.state = .running ∧ x.part.getLsbD 255 = true := by
  refine ⟨fun n h => system_write n 500 ?_, by decide, by decide +kernel⟩
  simp only [List.mem_cons, List.not_mem_nil, or_false] at h
  omega

/-- R383: 500 ns is in range, 499 ns is not. -/
theorem test_window : (after (.windowLengthWrite 70) { tiny with ops := [sysOp 0x110 500] }).windowNew = some 500 ∧
    (after (.windowLengthWrite 70) { tiny with ops := [sysOp 0x110 499] }).windowNew = none := by decide +kernel

theorem test_meets_Abort : let s := { tiny with ops := [sysOp 0x20 1] }; (1 : Word).getLsbD 0 = true ∧ s.team (sysOp 0x20 1).tid = some m1 ∧
    s.thread (sysOp 0x20 1).uid = some t1 ∧ ∃ l, s.launch m1.lid = some l ∧ l.state.over = false ∧ l.lid = m1.lid := by
  refine ⟨by decide, by decide +kernel, by decide +kernel, _, rfl, by decide +kernel, by decide +kernel⟩

theorem test_meets_FabricTables : let s (k : BitVec 13) : State := { tiny with fabSel := k };
    ((s 0xF00).selTable, (s 0xF40).selTable, (s 0xF80).selTable, (s 0xF00).selEntry) = (0, 1, 2, 15) ∧ (s 0xF00).selCtx = 0 ∧ tiny.ctx 0 = some c1 := by decide +kernel

/-- R391: 0; 16 ticks on and 17; a context without the debug right, also where no thread executes. -/
theorem test_meets_PegArms : let s := { tiny with ctxs := [{ c1 with dbg := some 0 }] };
    (∀ v ∈ s.gangThreads, s.ctx (s.ctxOf v.tid) = some { c1 with dbg := some 0 }) ∧ s.executing 7 = [t1] ∧ s.executing 0 = [] ∧
    (s.srcPair t1 0).toNat = 0 ∧ ((with1 (holding 0 16)).srcPair (holding 0 16) 0).toNat = 16 ∧
    ((with1 (holding 0 17)).srcPair (holding 0 17) 0).toNat = 17 ∧ OutsideTrap tiny ∧ tiny.firmware t1 = false ∧
    (tiny.ctx (tiny.ctxOf t1.tid)).map (fun c => c.dbg) = some none := by unfold OutsideTrap; decide +kernel

theorem test_meets_PegsAndSamples : SMap.get none tiny.trig 0 = none ∧ SMap.get none [(0, some { p := 256, action := 1, bucket := none })] 0 =
    some ({ p := 256, action := 1, bucket := none } : Trigger) := by decide +kernel

/-- R395: the bucket at which half of the counts is reached. -/
theorem test_threshold : let s := { tiny with trig := [(0, some { p := 128, action := 1, bucket := none })], histo := [(bucketKey 0 3, 4), (bucketKey 0 7, 5)] };
    (SMap.get none (after (.histogramThreshold 0) s).trig 0).map (fun g => g.bucket) = some (some 7) := by decide +kernel

/-! ### Contexts and commands -/

/-- A command from firmware, and one from a host. -/
def cmd (w : BitVec 128) (record : List Byte := []) : PortCmd := { host := none, w := w, record := record }

def cmdFrom (h : Nat) (w : BitVec 128) (record : List Byte := []) : PortCmd := { host := some h, w := w, record := record }

/-- R343: reserved bits at both ends of both ranges; context 63, which does not exist; a host that does not own context 0. -/
theorem test_meets_ContextCommandErrors : tiny.cmds = [] ∧ tiny.cmdsAt = [] ∧ (([0x10, 0x200, 0x10000, 0x2000000] : List (BitVec 128)).map fun w => (field w 25 16, field w 9 4)) = [(0, 1), (0, 32), (1, 0), (512, 0)] ∧
    (∀ x ∈ tiny.ctxs, x.num ≠ field (cmd 0xFC00).w 15 10) ∧ tiny.ctxs.find? (fun y => y.num == field (cmdFrom 5 0).w 15 10) = some c1 ∧ (5 : Nat) ≠ c1.host := by
  decide +kernel

/-- A context record of host 2 with slice `k` and every field at the low end of its range. -/
def recordOf (k : Nat) : List Byte :=
  natLe 8 65536 ++ natLe 32 (2 ^ k) ++ natLe 2 8 ++ natLe 2 16 ++ natLe 4 4 ++ natLe 8 0 ++ natLe 8 0 ++ natLe 4 1 ++ natLe 4 0 ++ natLe 8 0 ++ [4, 0, 2] ++
    List.replicate 941 0

/-- R340: a record with slice 254 alone, which is free; slice 255 holds the queue pages. -/
theorem test_meets_ContextCreate : goodRecord (recordOf 254) ∧ ¬ goodRecord (List.replicate 1024 0) ∧ ((recordOf 254).length = 1024 ∧ numAt (recordOf 254) 82 1 = 2) ∧
    (∃ x ∈ tiny.ctxs, x.num = field (cmd 0).w 15 10) ∧ ({ tiny with ctxs := [{ c1 with part := 1 }] }).ctxs.all (fun x =>
      x.num != 1 && (x.part &&& BitVec.ofNat 256 (numAt (recordOf 254) 8 32)) == 0) ∧ tiny.fencedSlice 254 = false ∧ paSlice tiny.queuePages = 255 := by
  unfold goodRecord; decide +kernel

/-- R344: a created context has the record's fields. -/
theorem test_create : let s := { tiny with ctxs := [{ c1 with part := 1 }] };
    ((after (.create (cmdFrom 2 0x400 (recordOf 254))) s).ctx 1).map (fun x => ((x.state, x.root), x.lease, x.host)) = some ((.created, 65536), 8, 2) := by decide +kernel

/-- A state whose context 0, owned by host 2, is in a state. -/
def ctxIn (st : CState) (f : Ctx → Ctx := id) : State := { tiny with ctxs := [f { c1 with state := st, host := 2 }] }

theorem commands (s : State) (c : PortCmd) (x : Ctx) (h : (s.cmds = [] ∧ s.cmdsAt = []) ∧ (field c.w 25 16 = 0 ∧ field c.w 9 4 = 0) ∧
    s.ctxs.find? (fun y => y.num == field c.w 15 10) = some x ∧ (c.host = none ∨ c.host = some x.host)) : Commands s c x := by
  obtain ⟨idle, clean, ctx, sender⟩ := h
  exact { idle, clean, ctx, sender }

/-- R343-R345: each state that a command acts on; a `PREEMPT` of core 383, of all, and of core 384; one image of room and none; a SAVED context
without images. -/
theorem test_meets_ContextStates : (∀ st ∈ [CState.created, .running, .saved, .faulted],
      (Commands (ctxIn st) (cmdFrom 2 0) { c1 with state := st, host := 2 } ∧ Commands (ctxIn st) (cmd 0) { c1 with state := st, host := 2 })) ∧
    (({ c1 with host := 2 } : Ctx).preAt = none ∧ c1.saves = [] ∧
    (([383, 0xFFFF, 384] : List Nat).map fun k => field (BitVec.ofNat 128 (k * 2 ^ 48)) 63 48) = [383, 0xFFFF, 384] ∧
    (tiny.groups.map Group.gid).Nodup ∧ tiny.ctxOf g1.tid = 0 ∧ g1.place ≠ .saved ∧ tiny.coreOf g1.tid = 0) := by
  refine ⟨fun st h => ?_, by decide +kernel⟩
  fin_cases h <;> exact ⟨commands _ _ _ (by decide +kernel), commands _ _ _ (by decide +kernel)⟩

/-- R344, R345: a `PREEMPT` that waits for a group, and one that has no group to wait for; a group whose work is settled. -/
theorem test_meets_Saves : let x := { c1 with state := .preempting, host := 2, preAt := some 0 }; let g := { g1 with place := .saving };
    let s := { ctxIn .preempting (fun c => { c with preAt := some 0 }) with groups := [g] };
    Commands s (cmdFrom 2 3) x ∧ Commands { s with groups := [] } (cmdFrom 2 3) x ∧ (field (3 : BitVec 128) 3 0 = 3 ∧ x.preAt ≠ none ∧ s.ctxOf g.tid = 0 ∧
    s.group 1 = some g ∧ s.ctx (s.ctxOf g.tid) = some x ∧ s.mreqs = [] ∧ s.saveSettled g = true ∧ s.l1 = []) :=
  ⟨commands _ _ _ (by decide +kernel), commands _ _ _ (by decide +kernel), by decide +kernel⟩

/-- R345: a load and an atomic of a group being saved on a link that carries and on one that does not; an item that waits for an answer. -/
theorem test_meets_PreemptBound : (∀ p ∈ [31, 3], ∀ k ∈ [OpKind.load, .atomic], let o := { fabOp k with port := p }; let g := { g1 with place := .saving };
    let s := { remote o 0 with groups := [g] };
    o ∈ s.ops ∧ o.kind ≠ .pubf ∧ o.due ≠ none ∧ t1 ∈ s.threads ∧ t1.uid = o.uid ∧ t1.tid = g.tid ∧ t1.slot = g.slot ∧ g ∈ s.groups ∧ g.place = .saving ∧
    s.ctxOf g.tid = 0 ∧ s.items = []) ∧
    let g := { g1 with place := .saving }; let x := { itemOf 1 0 with accepted := true, due := some 9 }; let s := { tiny with groups := [g], items := [x] };
    x ∈ s.items ∧ x.accepted = true ∧ g ∈ s.groups ∧ s.ctxOf g.tid = 0 ∧ g.gid = x.gid ∧ x.due ≠ none := by decide +kernel

/-- R348: a context that is TEARING-DOWN with one node asked; one that is not, with a node asked and with none, whose teams have had four bytes. -/
theorem test_meets_Teardown : (∀ a ∈ [([] : List Nat), [31]], let x := { c1 with state := .running, host := 2, asked := a, used := [(scratchLoc 0 0, 4)] }; let s := ctxIn .running fun c => { c with asked := a, used := [(scratchLoc 0 0, 4)] };
      Commands s (cmdFrom 2 0) x ∧ s.teams.all (fun m => m.ctx == x.num) ∧ x.part.getLsbD 255 = true) ∧
    Commands (ctxIn .tearing) (cmdFrom 2 0) { c1 with state := .tearing, host := 2 } ∧
    (let s := ctxIn .tearing fun c => { c with asked := [31, 3] };
      s.ctxs.find? (fun y => y.num == 0) = some { c1 with state := .tearing, host := 2, asked := [31, 3] } ∧ s.portTo 0 3 0 = none ∧
      ({ s with links := [(3, { Link.down with state := .up })] }).portTo 0 3 0 ≠ none) := by
  refine ⟨fun a h => ?_, commands _ _ _ (by decide +kernel), by decide +kernel⟩
  fin_cases h <;> exact ⟨commands _ _ _ (by decide +kernel), by decide +kernel⟩

/-- R343: queue 1023, DISABLED, ACTIVE and FAULTED; NSZ 12 and 13; a base that is not a multiple of 128. -/
theorem test_meets_QueueCommands : (∀ st ∈ [QState.disabled, .active, .faulted], let s := { ctxIn .running with queues := [{ Queue.fresh 1023 with ctx := some 0, state := st }] };
      Commands s (cmdFrom 2 (BitVec.ofNat 128 (1023 * 2 ^ 38 + 12 * 2 ^ 34 + 128 * 2 ^ 64))) { c1 with host := 2 } ∧ (s.queue 1023).state = st ∧ (s.queue 1023).ctx = some 0) ∧
    field (BitVec.ofNat 128 (1023 * 2 ^ 38 + 12 * 2 ^ 34 + 128 * 2 ^ 64)) 47 38 = 1023 ∧ field (BitVec.ofNat 128 (1023 * 2 ^ 38 + 12 * 2 ^ 34 + 128 * 2 ^ 64)) 37 34 = 12 ∧
    field (BitVec.ofNat 128 (13 * 2 ^ 34)) 37 34 = 13 ∧ (64 : Nat) % 128 ≠ 0 := by
  refine ⟨fun st h => ?_, by decide⟩
  fin_cases h <;> exact ⟨commands _ _ _ (by decide +kernel), by decide +kernel⟩

theorem test_meets_DebugRights : Commands (ctxIn .running) (cmdFrom 2 (BitVec.ofNat 128 (15 * 2 ^ 64))) { c1 with host := 2 } ∧ c1.state ≠ .tearing :=
  ⟨commands _ _ _ (by decide +kernel), by decide +kernel⟩

/-- A region entry of one unit at unit `b`. -/
def regionEntry (b floor : Nat) : List Byte := natLe 2 1 ++ natLe 6 b ++ natLe 4 1 ++ natLe 4 0 ++ natLe 6 floor ++ natLe 10 0

def withRegions (c : Ctx) : Ctx := { c with regions := List.replicate 16 { v := false, base := 0, size := 0, floor := 0 } }

theorem test_meets_RegionCommand :
    Commands (ctxIn .saved withRegions) (cmdFrom 2 (BitVec.ofNat 128 (15 * 2 ^ 26)) (regionEntry 5 0)) (withRegions { c1 with state := .saved, host := 2 }) ∧
    Commands (ctxIn .running withRegions) (cmdFrom 2 0) (withRegions { c1 with host := 2 }) ∧
    ((withRegions c1).regions.length = 16 ∧ field (BitVec.ofNat 128 (15 * 2 ^ 26)) 29 26 = 15 ∧ (regionEntry 5 0).length = 32 ∧ numAt (regionEntry 5 0) 16 6 = 0 ∧
    goodRegion (regionEntry 5 0) ∧ ¬ (numAt (regionEntry 5 1) 16 6 = 0)) :=
  ⟨commands _ _ _ (by decide +kernel), commands _ _ _ (by decide +kernel), by unfold goodRegion; decide +kernel⟩

theorem page_commands (s : State) (c : PortCmd) (x : Ctx) (h : s.pcmds = [] ∧ (field c.w 39 32 = 0 ∧ field c.w 20 16 = 0 ∧ field c.w 9 2 = 0) ∧
    s.ctxs.find? (fun y => y.num == field c.w 15 10) = some x ∧ (c.host = none ∨ c.host = some x.host)) : PageCommands s c x := by
  obtain ⟨idle, clean, ctx, sender⟩ := h
  exact { idle, clean, ctx, sender }

/-- R336, R337: reserved bits; LEN 0; one page of 64 KiB, which a load uses, which a waiting `SQACQ` and a held `SQPUB` use and which none uses; an address
off a page. -/
theorem test_meets_Invalidates : PageCommands (ctxIn .running) (cmdFrom 2 (BitVec.ofNat 128 (2 ^ 40))) { c1 with host := 2 } ∧ (tiny.pcmds = [] ∧
    (([0x4, 0x10000, 0x8000000000] : List (BitVec 128)).map fun w => ((field w 39 32, field w 20 16), field w 9 2)) = [((0, 0), 1), ((0, 1), 0), ((128, 0), 0)] ∧
    tiny.pwait = none ∧ field (BitVec.ofNat 128 (2 ^ 40)) 63 40 = 1 ∧
    tiny.usersOf 0 0 65536 = [] ∧ ({ tiny with ops := [ask .load] }).usersOf 0 0 65536 = [70] ∧
    (let s := { tiny with ops := [{ ask .load with kind := .sqacq }, { ask .load with kind := .sqpub, id := 71 }], seqWait := [70], stall := [71] };
      s.usersOf 0 0 65536 = [70, 71] ∧ (s.ops.map Op.id).Nodup ∧
      ∀ o ∈ s.ops, (o.kind = .sqacq ∧ o.id ∈ s.seqWait) ∨ (o.kind = .sqpub ∧ o.id ∈ s.stall)) ∧ field (BitVec.ofNat 128 (32768 * 2 ^ 64)) 127 64 % 65536 ≠ 0) :=
  ⟨page_commands _ _ _ (by decide +kernel), by decide +kernel⟩

/-- R334, R335: the request of die 3 with number 255, resolved and failed with a thread parked on it. -/
theorem test_meets_Resolves : let q : PageReq := { die := 3, num := 255, ctx := 0, lo := 0, len := 65536, kind := 1 }; let s := { ctxIn .running with pageReqs := [q] };
    let c := cmdFrom 2 (BitVec.ofNat 128 (3 * 2 ^ 22 + 255 * 2 ^ 24));
    let d := cmdFrom 2 (BitVec.ofNat 128 (2 ^ 21 + 3 * 2 ^ 22 + 255 * 2 ^ 24)); let u := { t1 with state := .waiting, wait := .page 3 255 0 }
    let z := { with1 u with ctxs := s.ctxs, pageReqs := [q] }
    PageCommands s c { c1 with host := 2 } ∧ PageCommands z d { c1 with host := 2 } ∧ ((s.threads.map Thread.uid).Nodup ∧ c.w.getLsbD 21 = false ∧
    s.pageReqs.find? (fun y => decide (y.die = field c.w 23 22 ∧ y.num = field c.w 31 24 ∧ y.ctx = 0)) = some q ∧ tiny.pageReqs = [] ∧
    d.w.getLsbD 21 = true ∧ z.pageReqs.find? (fun y => decide (y.die = field d.w 23 22 ∧ y.num = field d.w 31 24 ∧ y.ctx = 0)) = some q ∧ (z.threads.map Thread.uid).Nodup ∧
    z.threads.filter (fun a => a.state == .waiting && (match a.wait with | .page d n _ => d == q.die && n == q.num | _ => false)) = [u] ∧ u.trapMode = false) :=
  ⟨page_commands _ _ _ (by decide +kernel), page_commands _ _ _ (by decide +kernel), by decide +kernel⟩

/-! ### Debug port -/

/-- A command of host 2 for context 0. -/
def dbg (f : DbgCmd → DbgCmd := id) : DbgCmd :=
  f { host := some 2, data := List.replicate 32 0, addr := 0, team := 0xFFFFFFFF, slot := 0, ctx := 0, idx := 0, mask := 0, rsvd := false }

/-- Host 2 holds the debug right of context 0. -/
def righted (p : GPlace := .active) : State := { tiny with ctxs := [{ c1 with dbg := some 2 }], groups := [{ g1 with place := p }] }

theorem entitled (s : State) (c : DbgCmd)
    (h : c.rsvd = false ∧ c.host = some 2 ∧ s.ctxs.find? (fun y => y.num == c.ctx) = some { c1 with dbg := some 2 }) : Entitled s c := by
  obtain ⟨clear, host, found⟩ := h
  exact ⟨clear, 2, _, host, found, rfl⟩

theorem test_meets_DebugAuthority : let s := righted; let c := dbg fun c => { c with rsvd := true };
    (c.host = some 2 ∧ s.ctxs.find? (fun y => y.num == c.ctx) = some { c1 with dbg := some 2 } ∧ c.rsvd = true) ∧ (∀ x ∈ s.ctxs, x.dbg = some 2) ∧
    tiny.ctxs.find? (fun y => y.num == 0) = some c1 ∧ c1.dbg ≠ some 2 := by decide +kernel

/-- R386: the group of team 0 in slot 0 in each state that `HALT` and `RESUME` tell apart, named and selected with all. -/
theorem test_meets_HaltAndResume : ∀ p ∈ [GPlace.active, .pending, .forming, .halted, .saved], Entitled (righted p) (dbg) ∧ (dbg).team = 0xFFFFFFFF ∧ (righted p).ctxOf g1.tid = 0 ∧
    (righted p).groups = [{ g1 with place := p }] := by
  intro p h
  fin_cases h <;> exact ⟨entitled _ _ (by decide +kernel), by decide +kernel⟩

/-- The command that names the group, at an address. -/
def naming1 (a : BitVec 64) (mask : BitVec 32 := 1) : DbgCmd := dbg fun c => { c with team := 0, addr := a, mask := mask }

theorem names (p : GPlace) (a : BitVec 64) (m : BitVec 32) (h : (righted p).ctxOf g1.tid = 0 ∧ (righted p).teamIndex g1.tid = 0 ∧ g1.slot = 0) :
    Names (righted p) (naming1 a m) { g1 with place := p } := by
  refine ⟨by simp [naming1, dbg], by simp [naming1, dbg], ⟨h.1, .inr ⟨h.2.1, h.2.2⟩⟩, [], [], rfl, by simp⟩

theorem test_meets_StateReads : ∀ p ∈ [GPlace.active, .halted], Entitled (righted p) (naming1 1023) ∧ Names (righted p) (naming1 1023) { g1 with place := p } := by
  intro p h
  fin_cases h <;> exact ⟨entitled _ _ (by decide +kernel), names _ _ _ (by decide +kernel)⟩

/-- R386: an edit of byte 20, one of byte 19, one of byte 28 and one of byte 64; 63 and 64 staged edits; an address off 32 bytes; no `DREVOKE` waits, and
one does. -/
theorem test_meets_Edits : Entitled (righted .halted) (naming1 20) ∧ Names (righted .halted) (naming1 20) { g1 with place := .halted } ∧
    Names (righted .active) (naming1 20) { g1 with place := .active } ∧
    ((([20, 19, 28, 63, 64] : List (BitVec 64)).map fun a => decide (∃ j < 32, (1 : BitVec 32).getLsbD j = true ∧ (a.toNat + j < 20 ∨ 28 ≤ a.toNat + j ∧ a.toNat + j < 64))) =
      [false, true, true, true, false] ∧
    (let e : Edit := { ctx := 0, gid := none, addr := 0, data := [], mask := 0 };
      (([63, 64] : List Nat).map fun n => (({ righted with edits := List.replicate n e }).edits.filter fun (e : Edit) => e.ctx == 0).length) = [63, 64]) ∧
    (32 : BitVec 64).toNat % 32 = 0 ∧ (33 : BitVec 64).toNat % 32 ≠ 0 ∧ righted.cmds = [] ∧
    (let k := cmd 10; let s := { righted with cmds := [k] }; k ∈ s.cmds ∧ field k.w 3 0 = 10 ∧ field k.w 25 16 = 0 ∧ field k.w 9 4 = 0 ∧ field k.w 15 10 = 0 ∧
      k.host = none ∧ (dbg).rsvd = false ∧ s.ctxs.find? (fun y => y.num == 0) = some { c1 with dbg := some 2 })) :=
  ⟨entitled _ _ (by decide +kernel), names _ _ _ (by decide +kernel), names _ _ _ (by decide +kernel), by decide +kernel⟩

/-- R386: a mapped granule, good and bad; an address that is not mapped; an edit of some of a granule's bytes and of all. -/
theorem test_meets_DebugMemory : Entitled righted (dbg fun c => { c with addr := 0x2000 }) ∧ (righted.cmds = [] ∧ (0x2000 : BitVec 64).toNat % 32 = 0 ∧ isRemote 0x2000 = false ∧
    (righted.translate 0 none 0 0x2000 false).2 = .ok 0x2000 269 1 ∧ (righted.translate 0 none 0 (2 ^ 52) false).2 = .fault 7 0 (2 ^ 52) 65536 ∧
    ((righted.translate 0 none 0 0x2000 false).1.ucRead 0 0x2000 32).1.synAt 0x2000 = 0 ∧
    ((({ righted with syn := [(256, 5)] }).translate 0 none 0 0x2000 false).1.ucRead 0 0x2000 32).1.synAt 0x2000 ≠ 0 ∧
    (let e : Edit := { ctx := 0, gid := none, addr := 0x2000, data := List.replicate 32 1, mask := 1 };
      ({ righted with edits := [e] }).edits.filter (fun y => y.ctx == 0) = [e] ∧ e.mask ≠ 0 ∧ e.mask ≠ BitVec.allOnes 32) ∧
    (righted.translate 0 none 0 0x2000 true).2 = .ok 0x2000 269 1) :=
  ⟨entitled _ _ (by decide +kernel), by decide +kernel⟩

/-- R387, R388: entries 15 and 16 of the breakpoints, words 2 and 3; entries 7 and 8 of the watches, with a record of V, read and peg. -/
theorem test_meets_BreaksAndWatches : Entitled righted (dbg fun c => { c with idx := 15 }) ∧ ((dbg fun c => { c with idx := 15 }).ctx < 64 ∧
    field (0x200000000 : BitVec 64) 33 32 = 2 ∧ field (0x300000000 : BitVec 64) 33 32 = 3 ∧
    let w : BitVec 128 := ofBytes 128 [1, 0, 0x80, 1, 4, 0, 0, 0, 0, 0x20, 0, 0, 0, 0, 0, 0]; field w 21 1 = 0 ∧ field w 23 22 < 3 ∧ field w 25 24 ≠ 0) :=
  ⟨entitled _ _ (by decide +kernel), by decide +kernel⟩

/-- R391, R395: intervals 2^10 and 2^20 and their neighbours; the last unit of each kind and the one beyond; actions 0, 1, 5. -/
theorem test_meets_DebugUnits : Empowered righted dbg ∧ ([9, 10, 20, 21].map fun n => decide (n < 10 ∨ 20 < n)) = [true, false, false, true] ∧
    (([(2, 95), (2, 96), (3, 15), (4, 31), (5, 0)] : List (Nat × Nat)).map fun e => decide (e.2 < if e.1 ≤ 2 then 96 else if e.1 = 3 then 16 else if e.1 = 4 then 32 else 0)) =
      [true, false, true, true, false] ∧
    righted.frozen = [] ∧ righted.filter = none ∧ righted.stopped = false ∧ ({ righted with stopped := true }).stopped = true ∧ righted.trace = [] ∧
    let r : TraceRec := { die := 3, ctx := 0, tick := 0, data := 7 };
    ({ righted with trace := [r] }).trace.find? (fun x => x.die == 3 && ({ righted with trace := [r] }).hasRight (some 2) x.ctx) = some r := by
  refine ⟨⟨rfl, fun h hh x hx => ?_⟩, by decide +kernel⟩
  have : righted.ctxs = [{ c1 with dbg := some 2 }] := by decide +kernel
  rw [this] at hx
  simp only [List.mem_singleton] at hx
  subst hx
  injection hh with hh
  subst hh
  rfl

/-! ### Health and start -/

/-- R209: a tag that names stack 5 alone; a hop with two faults of today, and one retired. -/
theorem test_meets_LastingHops : hopsOf 0x05000000FF800000 0 = [hopKey 2 5] ∧ hopKey 2 5 / 2 ^ 64 ≠ 4 ∧ (2 : BitVec 16) ≠ 1 ∧ hopKey 2 5 ∉ tiny.retiredH ∧
    (tiny.hopCount.filter fun e => e.1 == hopKey 2 5).length < 2 ∧
    (let s := { tiny with hopCount := [(hopKey 2 5, 0), (hopKey 2 5, 0)] };
      2 ≤ ((s.hopCount.filter fun e => decide (s.tick < e.2 + 86400 * 1000000 * Config.ticksPerUs)).filter fun e => e.1 == hopKey 2 5).length) ∧
    hopKey 2 5 ∈ ({ tiny with retiredH := [hopKey 2 5] }).retiredH := by decide +kernel

/-- R398-R400: a stop and a power loss at step 1; a form 2 of step 8 left at begun; the ready notice of a start; a hem fault of step 9. -/
theorem test_meets_Starts : (let r : JRec := { step := 8, form := 2, outcome := 0, tick := 0, unit := 3 }; r ∈ ({ tiny with journal := [r] }).journal ∧ r.outcome = 0 ∧ r.form = 2 ∧
      5 ≤ r.step ∧ r.step ≤ 9) ∧
    (∃ t, exec (.startSequence ⟨[], []⟩) State.reset = .next t ∧ .ready [] [] ∈ t.outbox) ∧
    (∀ e ∈ [((9, 0, 0, 2) : Nat × BitVec 64 × Nat × BitVec 16)], 1 ≤ e.1 ∧ e.1 < 10 ∧ e.2.2.2 ≠ 1) ∧
    ((1, 0, 0) : Nat × Nat × Nat) ∈ [((1, 0, 0) : Nat × Nat × Nat)] ∧ tiny.fenced = [] ∧ ((1, 0, 1) : Nat × Nat × Nat) ∈ [((1, 0, 1) : Nat × Nat × Nat)] ∧ ((1, 0, 0) : Nat × Nat × Nat) ∉ [((1, 0, 1) : Nat × Nat × Nat)] := by
  refine ⟨by decide +kernel, ⟨_, rfl, by decide +kernel⟩, by decide, by decide +kernel⟩

/-! ### The step -/

/-- The small state about to fetch `ADDI v5, v5, -1` at word 1 of packet 0. -/
def fetching : State :=
  let s := State.reset.withFetchWord 32 0x4050BFFA;
  { s with threads := (s.threads.take 2).map fun (t : Thread) => { t with regs := [(5, 7)] } }

/-- The word that it fetches. -/
def fetched : Instr := .addi ⟨false, 5, 5, 0x3FF⟩

/-- Its path, its gang, the gang's first thread, and the state after the fetch's translation. -/
def fetchPath : Sys2Proof.Machine.Path := Path.fresh 1 0 1 0

def fetchGang : State := fetching.formGang fetchPath

def fetcher : Thread := { t1 with regs := [(5, 7)] }

def fetchedAt : State := (fetchGang.translate 0 (some 0) 0 4100 false).1

theorem test_meets_StepRunsDecodedInstruction :
    (fetching.power = true ∧ fetching.startStop = none ∧ fetching.stopped = false ∧ fetching.dues = [] ∧ fetching.agenda = [] ∧ fetching.issueKey = some 0 ∧
      fetching.choose 0 = some (fetchPath, 0) ∧ (false, 0) ∉ fetching.withheld) ∧
    (fetchGang.gangThreads.head? = some fetcher ∧ fetcher.word = 1 ∧ (∀ t ∈ fetchGang.gangThreads, t.again = []) ∧
      (fetchGang.codeBase fetcher + 12 * fetcher.pkt.toNat + 4 * 1) % 2 ^ 64 = 4100 ∧
      (fetchGang.translate 0 (some 0) 0 4100 false).2 = .ok 4100 269 1 ∧ fetchedAt.fresh 0 4100 4 = wordBytes 0x4050BFFA) ∧
    (decodeWord 0x4050BFFA = .ok fetched ∧ fetchedAt.gang = fetchGang.gang ∧ fetchedAt.threads = fetchGang.threads) := by decide +kernel

theorem test_meets_StepRunsDecodedInstruction_unhindered : fetchedAt.breakAt fetcher 1 = false ∧
    (∀ t ∈ fetchedAt.gangThreads, t.wdDue = false ∧ t.owed = [] ∧ flagFull [fetched] t = false ∧ t.due = none) ∧ fetchedAt.badSlotRead fetched = false ∧
    fetchedAt.unprivileged fetched = false ∧ (uses fetched).pipe ≠ 4 ∧ fetchedAt.stallOf fetched = none ∧ fetchedAt.matrixCause fetched = none ∧
    fetchedAt.poisonHit fetched = none := by decide +kernel

/-- A breakpoint at the word, before which the gang halts (R387). -/
def stopping : State := { fetching with ctxs := fetching.ctxs.map fun (c : Ctx) => { c with breaks := [(0, (0x100000000, true))] } }

def stoppedAt : State := ((stopping.formGang fetchPath).translate 0 (some 0) 0 4100 false).1

theorem test_meets_StepRunsDecodedInstruction_stops :
    (stopping.power = true ∧ stopping.startStop = none ∧ stopping.stopped = false ∧ stopping.dues = [] ∧ stopping.agenda = [] ∧ stopping.issueKey = some 0 ∧
      stopping.choose 0 = some (fetchPath, 0) ∧ (false, 0) ∉ stopping.withheld) ∧
    ((stopping.formGang fetchPath).gangThreads.head? = some fetcher ∧ (∀ v ∈ (stopping.formGang fetchPath).gangThreads, v.again = [] ∧ v.due = none) ∧
      ((stopping.formGang fetchPath).translate 0 (some 0) 0 4100 false).2 = .ok 4100 269 1 ∧ stoppedAt.fresh 0 4100 4 = wordBytes 0x4050BFFA) ∧
    (match stoppedAt.checkWords fetcher 1 [0x4050BFFA] with | .done _ => true | .run _ _ => false) = true := by decide +kernel

/-- A chain at word 1: `ADDI v5, v5, -1` and a store of `v5` into scratch. -/
def chainWords : List Word := [0xC050BFFA, 1470638176]

def chainInstrs : List Instr := [.addi ⟨true, 5, 5, 0x3FF⟩, .stsc ⟨false, 7, 2, false, 5, 6, 0⟩]

def chainFetching : State := { fetching with fwCtx := none }.setNat 4100 8 (0xC050BFFA + 1470638176 * 2 ^ 32)

/-- The gang, and the states after the fetch of each word. -/
def chainAt : Nat → State
  | 0 => chainFetching.formGang fetchPath
  | n + 1 => ((chainAt n).translate 0 (some 0) 0 (4100 + 4 * n) false).1

theorem test_meets_ChainsIssue :
    (chainFetching.power = true ∧ chainFetching.startStop = none ∧ chainFetching.stopped = false ∧ chainFetching.dues = [] ∧ chainFetching.agenda = [] ∧
      chainFetching.issueKey = some 0 ∧ chainFetching.choose 0 = some (fetchPath, 0) ∧ (false, 0) ∉ chainFetching.withheld) ∧
    ((chainAt 0).gangThreads.head? = some fetcher ∧ fetcher.word = 1 ∧ (∀ t ∈ (chainAt 0).gangThreads, t.again = [] ∧ t.due = none) ∧
      chainWords.map (fun w => (field w 30 26 != 0, w.getLsbD 31)) = [(true, true), (true, false)]) ∧
    (∀ j ∈ [0, 1], ((chainAt 0).codeBase fetcher + 12 * fetcher.pkt.toNat + 4 * (1 + j)) % 2 ^ 64 = 4100 + 4 * j ∧
      ((chainAt j).translate 0 (some 0) 0 (4100 + 4 * j) false).2 = .ok (4100 + 4 * j) 269 1 ∧
      (chainAt (j + 1)).fresh 0 (4100 + 4 * j) 4 = wordBytes (chainWords.getD j 0) ∧ (chainAt (j + 1)).teams = (chainAt 0).teams ∧
      (chainAt (j + 1)).launches = (chainAt 0).launches ∧ (chainAt (j + 1)).ctxs = (chainAt 0).ctxs) ∧
    (chainWords.map (fun w => (decodeWord w).toOption) = chainInstrs.map some ∧ (chainAt 2).gang = (chainAt 0).gang ∧ (chainAt 2).threads = (chainAt 0).threads) ∧
    ((chainAt 1).fwCtx = (chainAt 0).fwCtx ∧ (chainAt 2).fwCtx = (chainAt 0).fwCtx) := by
  decide +kernel

theorem test_meets_ChainsIssue_unhindered : let r := chainAt 2;
    ([0, 1].all fun j => !r.breakAt fetcher (1 + j)) ∧ (∀ t ∈ r.gangThreads, t.wdDue = false ∧ t.owed = [] ∧ flagFull chainInstrs t = false) ∧
    r.chainFate 1 chainWords = none ∧
    ∀ j ∈ [0, 1], ∀ i ∈ chainInstrs[j]?, let z := r.forWord j
      z.unprivileged i = false ∧ (uses i).pipe ≠ 4 ∧ z.stallOf i = none ∧ z.matrixCause i = none ∧ z.poisonHit i = none := by decide +kernel

/-- R29: the store takes the 7 that stood in `v5`, which becomes 6. -/
theorem test_chain_reads_old : (match step chainFetching with
    | .next t => (t.threads.map fun u => reg u 5, t.bytes (scratchLoc 0 0) 4)
    | _ => ([], [])) = ([6, 6], [7, 0, 0, 0]) := by decide +kernel

/-- R45: `ADD` beside `ADDI`; a branch in a chain. -/
theorem test_meets_ChainClashes : let v : Word := 2354094456; let w : Word := 0x4050BFFA; let b : Word := 0x84000000;
    field v 30 26 ≠ 0 ∧ field w 30 26 ≠ 0 ∧ w.getLsbD 31 = false ∧ (∀ t ∈ tiny.gangThreads, t.again = [] ∧ t.wdDue = false ∧ t.owed = []) ∧
    tiny.breakAt t1 1 = false ∧ tiny.breakAt t1 2 = false ∧ tiny.gangThreads ≠ [] ∧ field v 30 26 ≠ 1 ∧ field v 30 26 ≠ 2 ∧
    pipeOf (field v 30 26) = pipeOf (field w 30 26) ∧ field b 30 26 = 1 := by decide +kernel

/-- A store of a word at the address in `v6`, with the pipes' words at word 1. -/
def storing : FM := ⟨false, 7, 2, false, 5, 6, 0⟩

theorem test_meets_ChainsReadOld : (∀ m ∈ bankStoreWords, (m.1 storing).wf) ∧ Distinct tiny ∧ tiny.issued = [] ∧ (∀ a ∈ tiny.threads, a.old = none) ∧
    (∀ a ∈ tiny.gangThreads, a.word = 1 ∧ a.again = [] ∧ a.state = .runnable) ∧
    ∀ space ∈ [5, 2, 3], ∀ u ∈ tiny.executing storing.pred, Access tiny space storing.a (storing.mod.toNat * 4) 4 u (locsOf tiny space 4 u) ∧ ∀ l ∈ locsOf tiny space 4 u, tiny.synAt l = 0 := by
  refine ⟨by decide, by unfold Distinct; decide +kernel, by decide +kernel, by decide +kernel, by decide +kernel, fun space h u hu => ?_⟩
  have e : tiny.executing storing.pred = [t1] := by decide +kernel
  rw [e, List.mem_singleton] at hu; subst hu
  fin_cases h <;> exact ⟨access_of _ _ _ _ _ _ _ (by decide +kernel), by decide +kernel⟩

/-- R29: the address 2 is not one of a word. -/
theorem test_meets_ChainsTrapFirst : let u := holding 6 2; let s := with1 u;
    (∀ m ∈ bankStoreWords, (m.1 storing).wf) ∧ Distinct s ∧ s.issued = [] ∧ (∀ a ∈ s.threads, a.old = none) ∧ s.gang = [u.uid] ∧ s.gangThreads = [u] ∧ u.again = [] ∧
    u.trapMode = false ∧ u.p storing.pred = true ∧ ((s.src u storing.a).toNat + storing.mod.toNat * 2 ^ storing.w.toNat) % 2 ^ storing.w.toNat ≠ 0 := by
  unfold Distinct; decide +kernel

/-- R113: one step fetches and runs the word: `v5` becomes 6 in both threads, which stand at word 2. -/
theorem test_step : (match step fetching with | .next t => t.threads.map fun u => (reg u 5, u.word) | _ => []) = [(6, 2), (6, 2)] := by
  decide +kernel

/-- The work in flight comes first where it has been put off as often as it may be. -/
theorem test_meets_StepRunsDecodedInstruction_events : let s := { tiny with dues := [.driftStep] };
    let e := { tiny with agenda := [.driftStep], deferred := Config.maxDefer };
    s.power = true ∧ s.startStop = none ∧ s.stopped = false ∧ s.dues = .driftStep :: [] ∧ e.dues = [] ∧ e.agenda = .driftStep :: [] ∧ e.workNow = true :=
  ⟨by decide +kernel, by decide +kernel, by decide +kernel, rfl, by decide +kernel, rfl, by simp [State.workNow]⟩

/-- R233: a landing that comes first waits for the scheduler, and comes where none has a slot left. -/
theorem test_meets_StepRunsDecodedInstruction_lands : let s := { fetching with agenda := [.granuleLand 70], deferred := Config.maxDefer };
    s.workNow = true ∧ s.agenda = .granuleLand 70 :: [] ∧ s.firstWork (.granuleLand 70) [] = .granuleLand 70 ∧ s.issueKey = some 0 ∧
    ({ s with cursor := 2 ^ 32 }).issueKey = none :=
  ⟨by simp [State.workNow], rfl, by decide +kernel, by decide +kernel, by decide +kernel⟩

theorem test_meets_WordsRoundTrip : (Instr.addi ⟨true, 63, 127, 0x3FF⟩).wf = true ∧ encode (.addi ⟨true, 63, 127, 0x3FF⟩) = some 0xC3FFFFFA ∧
    decodeWord 0xC3FFFFFA = .ok (.addi ⟨true, 63, 127, 0x3FF⟩) := by decide

theorem test_meets_MemoryStaysCanonical : Memory.wf fetching.mem = true ∧ (match step fetching with | .next t => Memory.wf t.mem | _ => false) = true := by
  decide +kernel

end Sys2Proof.Tests
end

