-- ==== Sys2Proof/Proofs/SystemRegisters.lean ====
section
/-! The token peek inside a chain: what `SYSRD.PEEK` answers (R29, R255), and the chain against which `Obligations.SystemRegisters` fails. -/

namespace Sys2Proof.Proofs

open Sys2Proof.Machine Sys2Proof.Says

/-! ### What the token peek answers -/

theorem exec_sysrdPeek (f : FZS) (s : State) : exec (.sysrdPeek f) s = execSysrdPeek f s := rfl

/-- A register that is poisoned for none of the threads makes no trap. -/
theorem peekTrap_none {s : State} {ts : List Thread} {k : Nat} (h : ∀ t ∈ ts, s.poisonOf t (64 + k) = none) : s.peekTrap ts k = none := by
  have hbad : (ts.filter fun t => (s.poisonOf t (64 + k)).isSome) = [] := by
    rw [List.filter_eq_nil_iff]
    intro t ht
    simp [h t ht]
  simp [State.peekTrap, hbad]

/-- The one executing thread is answered its source, which inside a chain is the register as the chain found it. -/
theorem exec_sysrdPeek_one {f : FZS} {s : State} {u : Thread} (hu : s.executing f.pred = [u])
    (hp : s.poisonOf u (64 + f.a.toNat) = none) :
    exec (.sysrdPeek f) s = .next (s.replyWith (s.systemOp f.fb u f.dst.toNat 1) [s.sreg u f.a.toNat]).advance := by
  have htrap : s.peekTrap [u] f.a.toNat = none := peekTrap_none (by simpa using hp)
  rw [exec_sysrdPeek, execSysrdPeek, hu]
  simp only [htrap, List.foldl_cons, List.foldl_nil]

/-- The operation that carries a reply is the last one in flight. -/
theorem replyWith_advance_ops (s : State) (o : Op) (ws : List Word) :
    (s.replyWith o ws).advance.ops = s.ops ++ [{ o with fill := bytesOf ws, id := s.nextId }] := rfl

/-- `Claims.TokenPeek` asks that the source of the peek be the register as it stands now, also where the thread issues a chain. -/
theorem sreg_eq_of_tokenPeek (h : Claims.TokenPeek) {f : FZS} {s : State} {u : Thread} {g : Group} (hu : s.executing f.pred = [u])
    (hg : s.groupOf u = some g) (hp : s.poisonOf u (64 + f.a.toNat) = none) :
    bytesOf [s.sreg u f.a.toNat] = bytesOf [g.sv f.a.toNat] := by
  obtain ⟨t, ht, hsends⟩ := h f s u g hu hg hp
  rw [exec_sysrdPeek_one hu hp] at ht
  obtain rfl := Host.Outcome.next.inj ht
  have hops := hsends.ops
  rw [replyWith_advance_ops] at hops
  have hop := List.append_cancel_left hops
  simpa [answer] using congrArg (List.map Op.fill) hop

/-! ### A chain that writes the register it peeks at -/

/-- `MOVVS s0, s3`, the first word of a chain. -/
def copyToken : F2 := { ch := true, dst := 0, a := 67, pred := 7 }

/-- `SYSRD.PEEK v1, s0`, its second word. -/
def peekToken : FZS := { ch := false, pred := 7, fb := false, dst := 1, a := 0 }

/-- A placed team whose first thread issues, at word 1 of packet 0: `s0` holds 0 and `s3` the team count 1. -/
def chainAhead : State := { State.reset.withFetchWord 32 0x0A800000 with gang := [1] }

/-- What `performChain` makes of it when it comes to the second word: the threads keep what the chain reads, the first word has taken effect. -/
def chainAtPeek : State :=
  match performAll 1 [(0, .movvs copyToken)] chainAhead.snapshot with
  | .next t => (t.forWord 1).atWord 2
  | _ => chainAhead

/-- The thread that peeks. -/
def peekingThread : Thread := chainAtPeek.gangThreads.headD (Thread.fresh 1 1 0 1)

/-- Its group. -/
def peekedGroup : Group := chainAtPeek.groups.headD (Group.fresh 1 1 0 0 [] 0)

theorem chainAtPeek_meets_tokenPeek : chainAtPeek.executing peekToken.pred = [peekingThread] ∧
    chainAtPeek.groupOf peekingThread = some peekedGroup ∧
    chainAtPeek.poisonOf peekingThread (64 + peekToken.a.toNat) = none := by decide +kernel

/-- The chain found 0 in `s0`, and its first word has left 1 there. -/
theorem chainAtPeek_values : chainAtPeek.sreg peekingThread peekToken.a.toNat = 0 ∧ peekedGroup.sv peekToken.a.toNat = 1 := by
  decide +kernel

theorem not_claims_tokenPeek : ¬ Claims.TokenPeek := by
  intro h
  obtain ⟨hu, hg, hp⟩ := chainAtPeek_meets_tokenPeek
  obtain ⟨hold, hnow⟩ := chainAtPeek_values
  have hbytes := sreg_eq_of_tokenPeek h hu hg hp
  rw [hold, hnow] at hbytes
  exact absurd hbytes (by decide)

/-- Refutes O51: `Claims.TokenPeek` has the peek answer the uniform register as it stands, in every state. Where an earlier word of the
peek's own chain has written the register (`MOVVS s0, s3` chained with `SYSRD.PEEK v1, s0`), the peek answers what stood before the chain,
as R29 wants: 0, where the group now holds 1. -/
theorem not_systemRegisters : ¬ Obligations.SystemRegisters := by
  unfold Obligations.SystemRegisters
  rintro ⟨-, hpeek, -⟩
  exact not_claims_tokenPeek hpeek

end Sys2Proof.Proofs
end

