-- ==== Sys2Proof/Proofs/HealthAndStart.lean ====
section
/-! A corrupted granule of host memory, which keeps no hem (R197), against which `Obligations.HealthAndStart` fails. -/

namespace Sys2Proof.Proofs

open Sys2Proof.Machine

/-- The host's interface generates the hem as it reads, so that a granule of host memory is always good (R197). -/
theorem synAt_of_isHost (s : State) {loc : Nat} (h : isHost loc = true) : s.synAt loc = 0#16 := by
  simp [State.synAt, h]

/-- `Claims.FailuresFromOutside` has the syndrome tell of every flip, also where no hem is kept: no flip of a host granule could
change the CRC of its bytes. -/
theorem crc16_eq_of_failuresFromOutside (h : Claims.FailuresFromOutside) {s t : State} {loc : Nat} {flip : BitVec 256}
    (hloc : isHost loc = true) (ht : exec (.granuleCorruption loc flip) s = .next t) :
    crc16 (s.bytes (loc / 32 * 32) 32) = crc16 (t.bytes (loc / 32 * 32) 32) := by
  obtain ⟨-, -, -, hflip⟩ := h s
  obtain ⟨t', ht', -, -, -, hsyn⟩ := hflip loc flip
  obtain rfl := Host.Outcome.next.inj (ht.symm.trans ht')
  rw [synAt_of_isHost s hloc, synAt_of_isHost t hloc, BitVec.zero_xor] at hsyn
  exact BitVec.xor_eq_zero_iff.mp hsyn.symm

/-- The lowest granule of host node 0. -/
def hostGranule : Nat := hostLoc 0 0

/-- The package after reset, once the lowest bit of that granule has flipped. -/
def hostFlipped : State :=
  match execGranuleCorruption hostGranule 1 State.reset with
  | .next t => t
  | _ => State.reset

theorem exec_granuleCorruption_hostGranule : exec (.granuleCorruption hostGranule 1) State.reset = .next hostFlipped := rfl

/-- The flip has reached the byte, and changes the CRC of the granule's bytes. -/
theorem hostFlipped_bytes : hostFlipped.byte hostGranule = 1 ∧
    crc16 (State.reset.bytes (hostGranule / 32 * 32) 32) ≠ crc16 (hostFlipped.bytes (hostGranule / 32 * 32) 32) := by
  decide +kernel

theorem not_claims_failuresFromOutside : ¬ Claims.FailuresFromOutside := by
  intro h
  obtain ⟨-, hcrc⟩ := hostFlipped_bytes
  exact hcrc (crc16_eq_of_failuresFromOutside h (by decide) exec_granuleCorruption_hostGranule)

/-- Refutes O56: `Claims.FailuresFromOutside` has the syndrome of a corrupted granule tell of the flip at every location. Host memory
stores no hem (R197, Table 9.1), and a granule there is good whatever its bytes: after reset, a flip of the lowest bit of host
node 0 changes the CRC of the granule's bytes and leaves its syndrome 0. -/
theorem not_healthAndStart : ¬ Obligations.HealthAndStart := by
  unfold Obligations.HealthAndStart
  rintro ⟨-, houtside, -⟩
  exact not_claims_failuresFromOutside houtside

end Sys2Proof.Proofs
end

