-- ==== Sys2Proof/Proofs/Words.lean ====
section
/-! The words and their instructions: the round trip of encoder and decoder in both directions (R35-R45), the words that the manual writes out,
and the state after reset. -/

namespace Sys2Proof.Proofs

open Sys2Proof.Machine Sys2Proof.Laws

-- One thread proves the majors one after the other: side by side they pass the memory limit.
set_option Elab.async false

/-! ### From an instruction to its word and back -/

/-- Each instruction that has a word is read back from it. -/
theorem roundTrip_statement : ∀ i : Instr, RoundTrip.Statement i
  | .clause _ => RoundTrip.clause _
  | .bra _ => RoundTrip.bra _
  | .braNegated _ => RoundTrip.braNegated _
  | .call _ => RoundTrip.call _
  | .seam _ => RoundTrip.seam _
  | .brx _ => RoundTrip.brx _
  | .callx _ => RoundTrip.callx _
  | .ret _ => RoundTrip.ret _
  | .nop _ => RoundTrip.nop _
  | .yield _ => RoundTrip.yield _
  | .exit _ => RoundTrip.exit _
  | .trap _ => RoundTrip.trap _
  | .rft _ => RoundTrip.rft _
  | .mon _ => RoundTrip.mon _
  | .mwait _ => RoundTrip.mwait _
  | .fence _ => RoundTrip.fence _
  | .bkpt _ => RoundTrip.bkpt _
  | .add _ => RoundTrip.add _
  | .sub _ => RoundTrip.sub _
  | .mullo _ => RoundTrip.mullo _
  | .mulhiI _ => RoundTrip.mulhiI _
  | .mulhiN _ => RoundTrip.mulhiN _
  | .minI _ => RoundTrip.minI _
  | .maxI _ => RoundTrip.maxI _
  | .minN _ => RoundTrip.minN _
  | .maxN _ => RoundTrip.maxN _
  | .and _ => RoundTrip.and _
  | .or _ => RoundTrip.or _
  | .xor _ => RoundTrip.xor _
  | .andn _ => RoundTrip.andn _
  | .shl _ => RoundTrip.shl _
  | .shr _ => RoundTrip.shr _
  | .sar _ => RoundTrip.sar _
  | .adds _ => RoundTrip.adds _
  | .subs _ => RoundTrip.subs _
  | .shrr _ => RoundTrip.shrr _
  | .popc _ => RoundTrip.popc _
  | .clz _ => RoundTrip.clz _
  | .bfe _ => RoundTrip.bfe _
  | .addw _ => RoundTrip.addw _
  | .mulw _ => RoundTrip.mulw _
  | .ffmaF32 _ => RoundTrip.ffmaF32 _
  | .ffmaF16x2 _ => RoundTrip.ffmaF16x2 _
  | .ffmaBf16x2 _ => RoundTrip.ffmaBf16x2 _
  | .madI32 _ => RoundTrip.madI32 _
  | .dot2I16 _ => RoundTrip.dot2I16 _
  | .dot4I8 _ => RoundTrip.dot4I8 _
  | .faddF32 _ => RoundTrip.faddF32 _
  | .fmulF32 _ => RoundTrip.fmulF32 _
  | .fminF32 _ => RoundTrip.fminF32 _
  | .fmaxF32 _ => RoundTrip.fmaxF32 _
  | .faddF16x2 _ => RoundTrip.faddF16x2 _
  | .fmulF16x2 _ => RoundTrip.fmulF16x2 _
  | .faddBf16x2 _ => RoundTrip.faddBf16x2 _
  | .fmulBf16x2 _ => RoundTrip.fmulBf16x2 _
  | .setp _ => RoundTrip.setp _
  | .rcp _ => RoundTrip.rcp _
  | .rsq _ => RoundTrip.rsq _
  | .sqrt _ => RoundTrip.sqrt _
  | .exp2 _ => RoundTrip.exp2 _
  | .log2 _ => RoundTrip.log2 _
  | .tanh _ => RoundTrip.tanh _
  | .cvt _ => RoundTrip.cvt _
  | .cvtSlotSource _ => RoundTrip.cvtSlotSource _
  | .cvtSlotDest _ => RoundTrip.cvtSlotDest _
  | .movi _ => RoundTrip.movi _
  | .movhi _ => RoundTrip.movhi _
  | .addi _ => RoundTrip.addi _
  | .andi _ => RoundTrip.andi _
  | .ori _ => RoundTrip.ori _
  | .xori _ => RoundTrip.xori _
  | .shli _ => RoundTrip.shli _
  | .shri _ => RoundTrip.shri _
  | .slide _ => RoundTrip.slide _
  | .slideh _ => RoundTrip.slideh _
  | .shfl _ => RoundTrip.shfl _
  | .bcast _ => RoundTrip.bcast _
  | .ballot _ => RoundTrip.ballot _
  | .actmask _ => RoundTrip.actmask _
  | .redadd _ => RoundTrip.redadd _
  | .redmax _ => RoundTrip.redmax _
  | .mov _ => RoundTrip.mov _
  | .sel _ => RoundTrip.sel _
  | .movsv _ => RoundTrip.movsv _
  | .movvs _ => RoundTrip.movvs _
  | .rdsp _ => RoundTrip.rdsp _
  | .wrsp _ => RoundTrip.wrsp _
  | .sadd _ => RoundTrip.sadd _
  | .ssub _ => RoundTrip.ssub _
  | .smul _ => RoundTrip.smul _
  | .sand _ => RoundTrip.sand _
  | .sor _ => RoundTrip.sor _
  | .sxor _ => RoundTrip.sxor _
  | .sshl _ => RoundTrip.sshl _
  | .sshr _ => RoundTrip.sshr _
  | .ldp _ => RoundTrip.ldp _
  | .stp _ => RoundTrip.stp _
  | .ldsc _ => RoundTrip.ldsc _
  | .stsc _ => RoundTrip.stsc _
  | .atsc _ => RoundTrip.atsc _
  | .ldcl _ => RoundTrip.ldcl _
  | .stcl _ => RoundTrip.stcl _
  | .atcl _ => RoundTrip.atcl _
  | .ldds _ => RoundTrip.ldds _
  | .stds _ => RoundTrip.stds _
  | .atds _ => RoundTrip.atds _
  | .ldg _ => RoundTrip.ldg _
  | .stg _ => RoundTrip.stg _
  | .atg _ => RoundTrip.atg _
  | .pfg _ => RoundTrip.pfg _
  | .ldf _ => RoundTrip.ldf _
  | .stf _ => RoundTrip.stf _
  | .atf _ => RoundTrip.atf _
  | .pubf _ => RoundTrip.pubf _
  | .cpy _ => RoundTrip.cpy _
  | .cpyt _ => RoundTrip.cpyt _
  | .cpyx _ => RoundTrip.cpyx _
  | .cpys _ => RoundTrip.cpys _
  | .mma _ => RoundTrip.mma _
  | .accz _ => RoundTrip.accz _
  | .accrd _ => RoundTrip.accrd _
  | .accwr _ => RoundTrip.accwr _
  | .accnorm _ => RoundTrip.accnorm _
  | .mfence _ => RoundTrip.mfence _
  | .binit _ => RoundTrip.binit _
  | .barv _ => RoundTrip.barv _
  | .bexp _ => RoundTrip.bexp _
  | .bwait _ => RoundTrip.bwait _
  | .btest _ => RoundTrip.btest _
  | .bretire _ => RoundTrip.bretire _
  | .gbar _ => RoundTrip.gbar _
  | .tbar _ => RoundTrip.tbar _
  | .gjoin _ => RoundTrip.gjoin _
  | .ginfo _ => RoundTrip.ginfo _
  | .fabclr _ => RoundTrip.fabclr _
  | .wspill _ => RoundTrip.wspill _
  | .wfill _ => RoundTrip.wfill _
  | .sqclaim _ => RoundTrip.sqclaim _
  | .sqpub _ => RoundTrip.sqpub _
  | .sqacq _ => RoundTrip.sqacq _
  | .sqret _ => RoundTrip.sqret _
  | .sqinfo _ => RoundTrip.sqinfo _
  | .press _ => RoundTrip.press _
  | .launch _ => RoundTrip.launch _
  | .pgprobe _ => RoundTrip.pgprobe _
  | .pgpref _ => RoundTrip.pgpref _
  | .sysrd _ => RoundTrip.sysrd _
  | .sysrdPeek _ => RoundTrip.sysrdPeek _
  | .syswr _ => RoundTrip.syswr _
  | .pegarm _ => RoundTrip.pegarm _
  | .driftStep => RoundTrip.driftStep
  | .loadReturn _ => RoundTrip.loadReturn _
  | .storeAck _ => RoundTrip.storeAck _
  | .atomicReturn _ => RoundTrip.atomicReturn _
  | .sfuResult _ => RoundTrip.sfuResult _
  | .homeLoadRequest _ => RoundTrip.homeLoadRequest _
  | .homeWriteThrough _ => RoundTrip.homeWriteThrough _
  | .homeOwnedRequest _ => RoundTrip.homeOwnedRequest _
  | .ownedGrant _ => RoundTrip.ownedGrant _
  | .grantAcknowledge _ _ => RoundTrip.grantAcknowledge _ _
  | .forwardReceive _ _ => RoundTrip.forwardReceive _ _
  | .recallReceive _ _ => RoundTrip.recallReceive _ _
  | .ownerAnswer _ _ _ => RoundTrip.ownerAnswer _ _ _
  | .writeBackReceive _ _ _ => RoundTrip.writeBackReceive _ _ _
  | .writeBackAck _ _ _ => RoundTrip.writeBackAck _ _ _
  | .fillReply _ => RoundTrip.fillReply _
  | .writeThroughAck _ => RoundTrip.writeThroughAck _
  | .requestRefusedResend _ => RoundTrip.requestRefusedResend _
  | .packageRebase => RoundTrip.packageRebase
  | .floorMessage _ _ _ _ => RoundTrip.floorMessage _ _ _ _
  | .mwaitWake _ _ => RoundTrip.mwaitWake _ _
  | .mwaitTimeout _ => RoundTrip.mwaitTimeout _
  | .remoteTimeout _ => RoundTrip.remoteTimeout _
  | .lateReplyDrop _ => RoundTrip.lateReplyDrop _
  | .fairnessOverdue _ => RoundTrip.fairnessOverdue _
  | .gangDemotion _ => RoundTrip.gangDemotion _
  | .parkedPathTakeover _ => RoundTrip.parkedPathTakeover _
  | .noProgress _ => RoundTrip.noProgress _
  | .urgencyEvaluation _ => RoundTrip.urgencyEvaluation _
  | .swapOut _ _ => RoundTrip.swapOut _ _
  | .forcedSwap _ _ => RoundTrip.forcedSwap _ _
  | .freePositionSwapIn _ => RoundTrip.freePositionSwapIn _
  | .swapComplete _ => RoundTrip.swapComplete _
  | .collectiveAccept _ _ => RoundTrip.collectiveAccept _ _
  | .granuleLand _ => RoundTrip.granuleLand _
  | .matrixPassGrant _ => RoundTrip.matrixPassGrant _
  | .matrixPassEnd _ => RoundTrip.matrixPassEnd _
  | .tileOpApply _ => RoundTrip.tileOpApply _
  | .sqclaimRequest _ => RoundTrip.sqclaimRequest _
  | .sqpubRequest _ => RoundTrip.sqpubRequest _
  | .sqacqRequest _ => RoundTrip.sqacqRequest _
  | .sqretRequest _ => RoundTrip.sqretRequest _
  | .sqinfoRequest _ => RoundTrip.sqinfoRequest _
  | .sqacqReply _ => RoundTrip.sqacqReply _
  | .sequenceReply _ => RoundTrip.sequenceReply _
  | .sequenceResend _ => RoundTrip.sequenceResend _
  | .pageWalk _ _ _ _ => RoundTrip.pageWalk _ _ _ _
  | .pageRequestRetry _ => RoundTrip.pageRequestRetry _
  | .launchHeadRead _ => RoundTrip.launchHeadRead _
  | .dispatchSlotTake _ => RoundTrip.dispatchSlotTake _
  | .launchDispatch _ => RoundTrip.launchDispatch _
  | .teamPlace _ => RoundTrip.teamPlace _
  | .launchStampWrite _ => RoundTrip.launchStampWrite _
  | .hostProdWrite _ _ _ => RoundTrip.hostProdWrite _ _ _
  | .flitReceive _ _ _ => RoundTrip.flitReceive _ _ _
  | .flitResend _ _ => RoundTrip.flitResend _ _
  | .linkTrainingDone _ _ => RoundTrip.linkTrainingDone _ _
  | .retrainLimitExpiry _ => RoundTrip.retrainLimitExpiry _
  | .linkStateReport _ _ _ _ => RoundTrip.linkStateReport _ _ _ _
  | .linkReroute _ => RoundTrip.linkReroute _
  | .lostWrite _ => RoundTrip.lostWrite _
  | .exportRead _ _ _ => RoundTrip.exportRead _ _ _
  | .pubChunkReceive _ => RoundTrip.pubChunkReceive _
  | .pubRefusedReturn _ _ _ _ => RoundTrip.pubRefusedReturn _ _ _ _
  | .pubAckReceive _ _ _ => RoundTrip.pubAckReceive _ _ _
  | .pubDeadline _ => RoundTrip.pubDeadline _
  | .ptpSync _ => RoundTrip.ptpSync _
  | .preemptRemoteBound _ => RoundTrip.preemptRemoteBound _
  | .teardownNodeAck _ _ => RoundTrip.teardownNodeAck _ _
  | .teardownBound _ => RoundTrip.teardownBound _
  | .create _ => RoundTrip.create _
  | .start _ => RoundTrip.start _
  | .preempt _ => RoundTrip.preempt _
  | .resume _ => RoundTrip.resume _
  | .teardown _ => RoundTrip.teardown _
  | .qenable _ => RoundTrip.qenable _
  | .qdrain _ => RoundTrip.qdrain _
  | .qclear _ => RoundTrip.qclear _
  | .dgrant _ => RoundTrip.dgrant _
  | .drevoke _ => RoundTrip.drevoke _
  | .region _ => RoundTrip.region _
  | .invalidate _ => RoundTrip.invalidate _
  | .resolve _ => RoundTrip.resolve _
  | .pegStop => RoundTrip.pegStop
  | .sampleTag _ => RoundTrip.sampleTag _
  | .histogramThreshold _ => RoundTrip.histogramThreshold _
  | .abortWrite _ => RoundTrip.abortWrite _
  | .windowLengthWrite _ => RoundTrip.windowLengthWrite _
  | .retrainLimitWrite _ => RoundTrip.retrainLimitWrite _
  | .fabricTableInstall _ => RoundTrip.fabricTableInstall _
  | .dieScratchpadContribWrite _ => RoundTrip.dieScratchpadContribWrite _
  | .systemRegisterWrite _ => RoundTrip.systemRegisterWrite _
  | .hemFaultReport _ _ _ => RoundTrip.hemFaultReport _ _ _
  | .malformedWord _ _ _ => RoundTrip.malformedWord _ _ _
  | .halt _ => RoundTrip.halt _
  | .debugResume _ => RoundTrip.debugResume _
  | .staterd _ => RoundTrip.staterd _
  | .edit _ => RoundTrip.edit _
  | .memrd _ => RoundTrip.memrd _
  | .memwr _ => RoundTrip.memwr _
  | .commit _ => RoundTrip.commit _
  | .discard _ => RoundTrip.discard _
  | .breakSet _ => RoundTrip.breakSet _
  | .watch _ => RoundTrip.watch _
  | .trace _ => RoundTrip.trace _
  | .sample _ => RoundTrip.sample _
  | .histo _ => RoundTrip.histo _
  | .trigger _ => RoundTrip.trigger _
  | .peg _ => RoundTrip.peg _
  | .scan _ => RoundTrip.scan _
  | .go _ => RoundTrip.go _
  | .startSequence _ => RoundTrip.startSequence _
  | .attestationRequest _ _ => RoundTrip.attestationRequest _ _
  | .issueSlotWithheld _ _ => RoundTrip.issueSlotWithheld _ _
  | .firmwareQueuePost _ => RoundTrip.firmwareQueuePost _
  | .linkTrainingStart _ => RoundTrip.linkTrainingStart _
  | .bufferDefect _ _ => RoundTrip.bufferDefect _ _
  | .granuleCorruption _ _ => RoundTrip.granuleCorruption _ _
  | .powerLoss => RoundTrip.powerLoss
  | .failureCountClear _ _ => RoundTrip.failureCountClear _ _

/-- Settles O3, by the round trip of each constructor. -/
theorem wordsRoundTrip : Obligations.WordsRoundTrip := by
  unfold Obligations.WordsRoundTrip Claims.WordsRoundTrip
  exact roundTrip_statement

/-- Settles O2: the decoder evaluates to the instruction on each of the eight words. -/
theorem wordsDecode : Obligations.WordsDecode := by
  unfold Obligations.WordsDecode Claims.WordsDecode
  decide

/-- Settles O6: every table of the state after reset is empty, so that each reads as its default. -/
theorem resetState : Obligations.ResetState := by
  unfold Obligations.ResetState Claims.ResetState
  exact ⟨reset_mem_wf, fun _ => rfl, fun _ => ⟨rfl, rfl, rfl, rfl⟩, rfl, ⟨Ctx.firmware, rfl, rfl, rfl⟩, fun _ => rfl, rfl, rfl, rfl, rfl,
    rfl, rfl⟩

/-! ### What an accepted reading says -/

/-- What reading a word gives, where it accepts it, is well-formed and has that word. -/
def ReadsItsWord (w : Word) (r : Except DecodeFate (Bool × Instr)) : Prop :=
  ∀ i, r = .ok (true, i) → i.wf = true ∧ encode i = some w

theorem readsItsWord_error (w : Word) (d : DecodeFate) : ReadsItsWord w (.error d) := by
  intro i h
  cases h

theorem readsItsWord_checked {w : Word} {ok : Bool} {i : Instr} (h : ok = true → encode i = some w) :
    ReadsItsWord w (Decode.checked ok i) := by
  intro j hj
  obtain ⟨hok, rfl⟩ : (ok && i.wf) = true ∧ i = j := by simpa [Decode.checked] using hj
  obtain ⟨hfixed, hwf⟩ := Bool.and_eq_true_iff.mp hok
  exact ⟨hwf, h hfixed⟩

theorem accept_ok {r : Except DecodeFate (Bool × Instr)} {i : Instr} (h : Decode.accept r = .ok i) : r = .ok (true, i) := by
  unfold Decode.accept at h
  split at h
  · split at h
    · next hok => rw [hok, Except.ok.inj h]
    · cases h
  · cases h

theorem fixed_eq {w : Word} {lo n : Nat} {v : BitVec n} (h : Decode.fixed w lo n v = true) : w.extractLsb' lo n = v :=
  eq_of_beq h

theorem fixed_and {w : Word} {lo n : Nat} {v : BitVec n} {rest : Bool} (h : (rest && Decode.fixed w lo n v) = true) :
    rest = true ∧ w.extractLsb' lo n = v :=
  ⟨(Bool.and_eq_true_iff.mp h).1, fixed_eq (Bool.and_eq_true_iff.mp h).2⟩

theorem code_eq {n k : Nat} {x : BitVec n} (h : x.toNat = k) : x = BitVec.ofNat n k := by
  rw [← h, BitVec.ofNat_toNat, BitVec.setWidth_eq]

/-! ### A word is its fields, from bit 31 down -/

/-- `x` is what stands in the highest bits of the word. -/
def IsTop (w : Word) {n : Nat} (x : BitVec n) : Prop := w.extractLsb' (32 - n) n = x

theorem extract_bit (w : Word) (k : Nat) : w.extractLsb' k 1 = bit (w.getLsbD k) := by
  ext i hi
  obtain rfl : i = 0 := by omega
  simp [bit]

theorem isTop_chain (w : Word) : IsTop w (bit (w.getLsbD 31)) := extract_bit w 31

/-- The field below what stands on top. -/
theorem IsTop.field {w : Word} {n m : Nat} {x : BitVec n} {y : BitVec m} (hx : IsTop w x)
    (hy : w.extractLsb' (32 - n - m) m = y) (hfits : n + m ≤ 32 := by decide) : IsTop w (x ++ y) := by
  unfold IsTop at hx ⊢
  rw [← hx, ← hy, BitVec.extractLsb'_append_extractLsb'_eq_extractLsb' (by omega), Nat.sub_sub]

/-- The one-bit field below what stands on top. -/
theorem IsTop.flag {w : Word} {n : Nat} {x : BitVec n} (hx : IsTop w x) (k : Nat) (hk : k = 32 - n - 1 := by rfl)
    (hfits : n + 1 ≤ 32 := by decide) : IsTop w (x ++ bit (w.getLsbD k)) :=
  hx.field (by rw [← hk, extract_bit]) hfits

theorem IsTop.eq {w x : Word} (h : IsTop w x) : x = w := by simpa [IsTop] using h.symm

/-- Two adjacent fields as one. -/
theorem extract_join {w : Word} {k lo m n l : Nat} {x : BitVec m} {y : BitVec n} {z : BitVec l} (hx : w.extractLsb' k m = x)
    (hy : w.extractLsb' lo n = y) (hz : (x ++ y).toNat = z.toNat := by decide) (hadj : k = lo + n := by rfl)
    (hlen : m + n = l := by rfl) : w.extractLsb' lo l = z := by
  subst hlen
  rw [← BitVec.eq_of_toNat_eq hz, ← hx, ← hy, BitVec.extractLsb'_append_extractLsb'_eq_extractLsb' hadj]

/-! ### The majors -/

theorem major0_reads {w : Word} (hm : w.extractLsb' 26 5 = 0#5) : ReadsItsWord w (Decode.major0 w) := by
  unfold Decode.major0
  split
  · exact readsItsWord_error w _
  next hc =>
    have hchain : IsTop w 0#1 := (extract_bit w 31).trans (by rw [Bool.eq_false_iff.mpr hc]; rfl)
    exact readsItsWord_checked fun h => congrArg some (IsTop.eq (hchain |>.field hm |>.field rfl |>.field rfl |>.field rfl |>.field rfl |>.flag 1 |>.field (fixed_eq h)))

theorem major1_reads {w : Word} (hm : w.extractLsb' 26 5 = 1#5) : ReadsItsWord w (Decode.major1 w) := by
  unfold Decode.major1
  split
  case h_1 hf => exact readsItsWord_checked fun _ => congrArg some (IsTop.eq (isTop_chain w |>.field hm |>.field rfl |>.field (code_eq hf) |>.field rfl))
  case h_2 hf => exact readsItsWord_checked fun _ => congrArg some (IsTop.eq (isTop_chain w |>.field hm |>.field rfl |>.field (code_eq hf) |>.field rfl))
  case h_3 hf => exact readsItsWord_checked fun _ => congrArg some (IsTop.eq (isTop_chain w |>.field hm |>.field rfl |>.field (code_eq hf) |>.field rfl))
  case h_4 hf => exact readsItsWord_checked fun h => congrArg some (IsTop.eq (isTop_chain w |>.field hm |>.field (extract_join (fixed_eq h) (code_eq hf)) |>.field rfl))
  case h_5 hf => exact readsItsWord_checked fun h => congrArg some (IsTop.eq (isTop_chain w |>.field hm |>.field rfl |>.field (code_eq hf) |>.field rfl |>.field (fixed_eq h)))
  case h_6 hf => exact readsItsWord_checked fun h => congrArg some (IsTop.eq (isTop_chain w |>.field hm |>.field rfl |>.field (code_eq hf) |>.field rfl |>.field (fixed_eq h)))
  case h_7 hf => exact readsItsWord_checked fun h => congrArg some (IsTop.eq (isTop_chain w |>.field hm |>.field rfl |>.field (extract_join (code_eq hf) (fixed_eq h))))
  case h_8 => exact readsItsWord_error w _

theorem major2_reads {w : Word} (hm : w.extractLsb' 26 5 = 2#5) : ReadsItsWord w (Decode.major2 w) := by
  unfold Decode.major2
  split
  case h_1 hf => exact readsItsWord_checked fun h => congrArg some (IsTop.eq (isTop_chain w |>.field hm |>.field rfl |>.field (extract_join (code_eq hf) (fixed_eq h))))
  case h_2 hf => exact readsItsWord_checked fun h => congrArg some (IsTop.eq (isTop_chain w |>.field hm |>.field rfl |>.field (extract_join (code_eq hf) (fixed_eq h))))
  case h_3 hf => exact readsItsWord_checked fun h => congrArg some (IsTop.eq (isTop_chain w |>.field hm |>.field rfl |>.field (extract_join (code_eq hf) (fixed_eq h))))
  case h_4 hf => exact readsItsWord_checked fun h => congrArg some (IsTop.eq (isTop_chain w |>.field hm |>.field rfl |>.field (code_eq hf) |>.field rfl |>.field (fixed_eq h)))
  case h_5 hf => exact readsItsWord_checked fun h => congrArg some (IsTop.eq (isTop_chain w |>.field hm |>.field (extract_join (fixed_eq (fixed_and h).1) (extract_join (z := 2097152#23) (code_eq hf) (fixed_and h).2))))
  case h_6 hf => exact readsItsWord_checked fun h => congrArg some (IsTop.eq (isTop_chain w |>.field hm |>.field rfl |>.field (code_eq hf) |>.field rfl |>.field (fixed_eq h)))
  case h_7 hf => exact readsItsWord_checked fun h => congrArg some (IsTop.eq (isTop_chain w |>.field hm |>.field rfl |>.field (extract_join (code_eq hf) (fixed_eq h))))
  case h_8 hf => exact readsItsWord_checked fun h => congrArg some (IsTop.eq (isTop_chain w |>.field hm |>.field rfl |>.field (code_eq hf) |>.field rfl |>.field rfl |>.field (fixed_eq h)))
  case h_9 hf => exact readsItsWord_checked fun h => congrArg some (IsTop.eq (isTop_chain w |>.field hm |>.field rfl |>.field (extract_join (code_eq hf) (fixed_eq h))))
  case h_10 => exact readsItsWord_error w _

theorem major3_reads {w : Word} (hm : w.extractLsb' 26 5 = 3#5) : ReadsItsWord w (Decode.major3 w) := by
  unfold Decode.major3
  split
  case h_9 => exact readsItsWord_error w _
  all_goals next hf => exact readsItsWord_checked fun _ => congrArg some (IsTop.eq (isTop_chain w |>.field hm |>.field rfl |>.field rfl |>.field rfl |>.field rfl |>.field (code_eq hf)))

theorem major4_reads {w : Word} (hm : w.extractLsb' 26 5 = 4#5) : ReadsItsWord w (Decode.major4 w) := by
  unfold Decode.major4
  split
  case h_9 => exact readsItsWord_error w _
  all_goals next hf => exact readsItsWord_checked fun _ => congrArg some (IsTop.eq (isTop_chain w |>.field hm |>.field rfl |>.field rfl |>.field rfl |>.field rfl |>.field (code_eq hf)))

theorem major5_reads {w : Word} (hm : w.extractLsb' 26 5 = 5#5) : ReadsItsWord w (Decode.major5 w) := by
  unfold Decode.major5
  split
  case h_1 hf => exact readsItsWord_checked fun _ => congrArg some (IsTop.eq (isTop_chain w |>.field hm |>.field rfl |>.field rfl |>.field rfl |>.field rfl |>.field (code_eq hf)))
  case h_2 hf => exact readsItsWord_checked fun _ => congrArg some (IsTop.eq (isTop_chain w |>.field hm |>.field rfl |>.field rfl |>.field rfl |>.field rfl |>.field (code_eq hf)))
  case h_3 hf => exact readsItsWord_checked fun _ => congrArg some (IsTop.eq (isTop_chain w |>.field hm |>.field rfl |>.field rfl |>.field rfl |>.field rfl |>.field (code_eq hf)))
  case h_4 hf => exact readsItsWord_checked fun h => congrArg some (IsTop.eq (isTop_chain w |>.field hm |>.field rfl |>.field rfl |>.field (fixed_eq h) |>.field rfl |>.field (code_eq hf)))
  case h_5 hf => exact readsItsWord_checked fun h => congrArg some (IsTop.eq (isTop_chain w |>.field hm |>.field rfl |>.field rfl |>.field (fixed_eq h) |>.field rfl |>.field (code_eq hf)))
  case h_6 hf => exact readsItsWord_checked fun _ => congrArg some (IsTop.eq (isTop_chain w |>.field hm |>.field rfl |>.field rfl |>.field rfl |>.field rfl |>.field (code_eq hf)))
  case h_7 hf => exact readsItsWord_checked fun _ => congrArg some (IsTop.eq (isTop_chain w |>.field hm |>.field rfl |>.field rfl |>.field rfl |>.field rfl |>.field (code_eq hf)))
  case h_8 hf => exact readsItsWord_checked fun _ => congrArg some (IsTop.eq (isTop_chain w |>.field hm |>.field rfl |>.field rfl |>.field rfl |>.field rfl |>.field (code_eq hf)))
  case h_9 => exact readsItsWord_error w _

theorem major6_reads {w : Word} (hm : w.extractLsb' 26 5 = 6#5) : ReadsItsWord w (Decode.major6 w) := by
  unfold Decode.major6
  exact readsItsWord_checked fun _ => congrArg some (IsTop.eq (isTop_chain w |>.field hm |>.field rfl |>.field rfl |>.field rfl |>.field rfl))

theorem major7_reads {w : Word} (hm : w.extractLsb' 26 5 = 7#5) : ReadsItsWord w (Decode.major7 w) := by
  unfold Decode.major7
  exact readsItsWord_checked fun _ => congrArg some (IsTop.eq (isTop_chain w |>.field hm |>.field rfl |>.field rfl |>.field rfl |>.field rfl))

theorem major8_reads {w : Word} (hm : w.extractLsb' 26 5 = 8#5) : ReadsItsWord w (Decode.major8 w) := by
  unfold Decode.major8
  exact readsItsWord_checked fun _ => congrArg some (IsTop.eq (isTop_chain w |>.field hm |>.field rfl |>.field rfl |>.field rfl |>.field rfl))

theorem major9_reads {w : Word} (hm : w.extractLsb' 26 5 = 9#5) : ReadsItsWord w (Decode.major9 w) := by
  unfold Decode.major9
  exact readsItsWord_checked fun _ => congrArg some (IsTop.eq (isTop_chain w |>.field hm |>.field rfl |>.field rfl |>.field rfl |>.field rfl))

theorem major10_reads {w : Word} (hm : w.extractLsb' 26 5 = 10#5) : ReadsItsWord w (Decode.major10 w) := by
  unfold Decode.major10
  exact readsItsWord_checked fun _ => congrArg some (IsTop.eq (isTop_chain w |>.field hm |>.field rfl |>.field rfl |>.field rfl |>.field rfl))

theorem major11_reads {w : Word} (hm : w.extractLsb' 26 5 = 11#5) : ReadsItsWord w (Decode.major11 w) := by
  unfold Decode.major11
  exact readsItsWord_checked fun _ => congrArg some (IsTop.eq (isTop_chain w |>.field hm |>.field rfl |>.field rfl |>.field rfl |>.field rfl))

theorem major12_reads {w : Word} (hm : w.extractLsb' 26 5 = 12#5) : ReadsItsWord w (Decode.major12 w) := by
  unfold Decode.major12
  split
  case h_9 => exact readsItsWord_error w _
  all_goals next hf => exact readsItsWord_checked fun _ => congrArg some (IsTop.eq (isTop_chain w |>.field hm |>.field rfl |>.field rfl |>.field rfl |>.field rfl |>.field (code_eq hf)))

theorem major13_reads {w : Word} (hm : w.extractLsb' 26 5 = 13#5) : ReadsItsWord w (Decode.major13 w) := by
  unfold Decode.major13
  exact readsItsWord_checked fun _ => congrArg some (IsTop.eq (isTop_chain w |>.field hm |>.field rfl |>.field rfl |>.field rfl |>.field rfl |>.field rfl |>.field rfl))

theorem major14_reads {w : Word} (hm : w.extractLsb' 26 5 = 14#5) : ReadsItsWord w (Decode.major14 w) := by
  unfold Decode.major14
  split
  case h_7 => exact readsItsWord_error w _
  all_goals next hf => exact readsItsWord_checked fun h => congrArg some (IsTop.eq (isTop_chain w |>.field hm |>.field rfl |>.field rfl |>.field (fixed_eq h) |>.field rfl |>.field (code_eq hf)))

theorem major15_reads {w : Word} (hm : w.extractLsb' 26 5 = 15#5) : ReadsItsWord w (Decode.major15 w) := by
  unfold Decode.major15
  split
  next hs => exact readsItsWord_checked fun h => congrArg some (IsTop.eq (isTop_chain w |>.field hm |>.field rfl |>.field rfl |>.field (eq_of_beq hs) |>.field rfl |>.field rfl |>.field (fixed_eq h)))
  next =>
    split
    next hd => exact readsItsWord_checked fun h => congrArg some (IsTop.eq (isTop_chain w |>.field hm |>.field rfl |>.field rfl |>.field rfl |>.field (eq_of_beq hd) |>.field rfl |>.field (fixed_eq h)))
    next => exact readsItsWord_checked fun h => congrArg some (IsTop.eq (isTop_chain w |>.field hm |>.field rfl |>.field rfl |>.field rfl |>.field rfl |>.field rfl |>.flag 2 |>.field (fixed_eq h)))

theorem major16_reads {w : Word} (hm : w.extractLsb' 26 5 = 16#5) : ReadsItsWord w (Decode.major16 w) := by
  unfold Decode.major16
  split
  case h_1 hf => exact readsItsWord_checked fun h => congrArg some (IsTop.eq (isTop_chain w |>.field hm |>.field rfl |>.field (fixed_eq h) |>.field rfl |>.field (code_eq hf)))
  case h_2 hf => exact readsItsWord_checked fun h => congrArg some (IsTop.eq (isTop_chain w |>.field hm |>.field rfl |>.field (fixed_eq h) |>.field rfl |>.field (code_eq hf)))
  case h_3 hf => exact readsItsWord_checked fun _ => congrArg some (IsTop.eq (isTop_chain w |>.field hm |>.field rfl |>.field rfl |>.field rfl |>.field (code_eq hf)))
  case h_4 hf => exact readsItsWord_checked fun _ => congrArg some (IsTop.eq (isTop_chain w |>.field hm |>.field rfl |>.field rfl |>.field rfl |>.field (code_eq hf)))
  case h_5 hf => exact readsItsWord_checked fun _ => congrArg some (IsTop.eq (isTop_chain w |>.field hm |>.field rfl |>.field rfl |>.field rfl |>.field (code_eq hf)))
  case h_6 hf => exact readsItsWord_checked fun _ => congrArg some (IsTop.eq (isTop_chain w |>.field hm |>.field rfl |>.field rfl |>.field rfl |>.field (code_eq hf)))
  case h_7 hf => exact readsItsWord_checked fun _ => congrArg some (IsTop.eq (isTop_chain w |>.field hm |>.field rfl |>.field rfl |>.field rfl |>.field (code_eq hf)))
  case h_8 hf => exact readsItsWord_checked fun _ => congrArg some (IsTop.eq (isTop_chain w |>.field hm |>.field rfl |>.field rfl |>.field rfl |>.field (code_eq hf)))
  case h_9 => exact readsItsWord_error w _

theorem major17_reads {w : Word} (hm : w.extractLsb' 26 5 = 17#5) : ReadsItsWord w (Decode.major17 w) := by
  unfold Decode.major17
  split
  case h_1 hf => exact readsItsWord_checked fun _ => congrArg some (IsTop.eq (isTop_chain w |>.field hm |>.field rfl |>.field rfl |>.field rfl |>.field rfl |>.field (code_eq hf)))
  case h_2 hf => exact readsItsWord_checked fun _ => congrArg some (IsTop.eq (isTop_chain w |>.field hm |>.field rfl |>.field rfl |>.field rfl |>.field rfl |>.field (code_eq hf)))
  case h_3 hf => exact readsItsWord_checked fun _ => congrArg some (IsTop.eq (isTop_chain w |>.field hm |>.field rfl |>.field rfl |>.field rfl |>.field rfl |>.field (code_eq hf)))
  case h_4 hf => exact readsItsWord_checked fun _ => congrArg some (IsTop.eq (isTop_chain w |>.field hm |>.field rfl |>.field rfl |>.field rfl |>.field rfl |>.field (code_eq hf)))
  case h_5 hf => exact readsItsWord_checked fun h => congrArg some (IsTop.eq (isTop_chain w |>.field hm |>.field rfl |>.field (fixed_eq h) |>.field rfl |>.field (code_eq hf)))
  case h_6 hf => exact readsItsWord_checked fun h => congrArg some (IsTop.eq (isTop_chain w |>.field hm |>.field rfl |>.field (fixed_eq h) |>.field rfl |>.field (code_eq hf)))
  case h_7 hf => exact readsItsWord_checked fun h => congrArg some (IsTop.eq (isTop_chain w |>.field hm |>.field rfl |>.field rfl |>.field (fixed_eq h) |>.field rfl |>.field (code_eq hf)))
  case h_8 hf => exact readsItsWord_checked fun h => congrArg some (IsTop.eq (isTop_chain w |>.field hm |>.field rfl |>.field rfl |>.field (fixed_eq h) |>.field rfl |>.field (code_eq hf)))
  case h_9 => exact readsItsWord_error w _

theorem major18_reads {w : Word} (hm : w.extractLsb' 26 5 = 18#5) : ReadsItsWord w (Decode.major18 w) := by
  unfold Decode.major18
  split
  case h_1 hf => exact readsItsWord_checked fun h => congrArg some (IsTop.eq (isTop_chain w |>.field hm |>.field rfl |>.field rfl |>.field (fixed_eq h) |>.field rfl |>.field (code_eq hf)))
  case h_2 hf => exact readsItsWord_checked fun _ => congrArg some (IsTop.eq (isTop_chain w |>.field hm |>.field rfl |>.field rfl |>.field rfl |>.field rfl |>.field (code_eq hf)))
  case h_3 hf => exact readsItsWord_checked fun h => congrArg some (IsTop.eq (isTop_chain w |>.field hm |>.field rfl |>.field rfl |>.field (fixed_eq h) |>.field rfl |>.field (code_eq hf)))
  case h_4 hf => exact readsItsWord_checked fun h => congrArg some (IsTop.eq (isTop_chain w |>.field hm |>.field rfl |>.field rfl |>.field (fixed_eq h) |>.field rfl |>.field (code_eq hf)))
  case h_5 hf => exact readsItsWord_checked fun h => congrArg some (IsTop.eq (isTop_chain w |>.field hm |>.field rfl |>.field rfl |>.field (fixed_eq h) |>.field rfl |>.field (code_eq hf)))
  case h_6 hf => exact readsItsWord_checked fun h => congrArg some (IsTop.eq (isTop_chain w |>.field hm |>.field rfl |>.field rfl |>.field (fixed_eq h) |>.field rfl |>.field (code_eq hf)))
  case h_7 => exact readsItsWord_error w _

theorem major19_reads {w : Word} (hm : w.extractLsb' 26 5 = 19#5) : ReadsItsWord w (Decode.major19 w) := by
  unfold Decode.major19
  split
  case h_9 => exact readsItsWord_error w _
  all_goals next hf => exact readsItsWord_checked fun h => congrArg some (IsTop.eq (isTop_chain w |>.field hm |>.field rfl |>.field rfl |>.field rfl |>.field (extract_join (fixed_eq h) (code_eq hf))))

theorem major20_reads {w : Word} (hm : w.extractLsb' 26 5 = 20#5) : ReadsItsWord w (Decode.major20 w) := by
  unfold Decode.major20
  split
  case h_3 => exact readsItsWord_error w _
  all_goals next hf => exact readsItsWord_checked fun _ => congrArg some (IsTop.eq (isTop_chain w |>.field hm |>.field rfl |>.field (code_eq hf) |>.field rfl |>.flag 17 |>.field rfl |>.field rfl |>.field rfl))

theorem major21_reads {w : Word} (hm : w.extractLsb' 26 5 = 21#5) : ReadsItsWord w (Decode.major21 w) := by
  unfold Decode.major21
  split
  case h_1 hf => exact readsItsWord_checked fun _ => congrArg some (IsTop.eq (isTop_chain w |>.field hm |>.field rfl |>.field (code_eq hf) |>.field rfl |>.flag 17 |>.field rfl |>.field rfl |>.field rfl))
  case h_2 hf => exact readsItsWord_checked fun _ => congrArg some (IsTop.eq (isTop_chain w |>.field hm |>.field rfl |>.field (code_eq hf) |>.field rfl |>.flag 17 |>.field rfl |>.field rfl |>.field rfl))
  case h_3 hf => exact readsItsWord_checked fun h => congrArg some (IsTop.eq (isTop_chain w |>.field hm |>.field rfl |>.field (extract_join (code_eq hf) (fixed_eq h)) |>.flag 18 |>.flag 17 |>.field rfl |>.field rfl |>.field rfl))
  case h_4 => exact readsItsWord_error w _

theorem major22_reads {w : Word} (hm : w.extractLsb' 26 5 = 22#5) : ReadsItsWord w (Decode.major22 w) := by
  unfold Decode.major22
  split
  case h_1 hf => exact readsItsWord_checked fun _ => congrArg some (IsTop.eq (isTop_chain w |>.field hm |>.field rfl |>.field (code_eq hf) |>.field rfl |>.flag 17 |>.field rfl |>.field rfl |>.field rfl))
  case h_2 hf => exact readsItsWord_checked fun _ => congrArg some (IsTop.eq (isTop_chain w |>.field hm |>.field rfl |>.field (code_eq hf) |>.field rfl |>.flag 17 |>.field rfl |>.field rfl |>.field rfl))
  case h_3 hf => exact readsItsWord_checked fun h => congrArg some (IsTop.eq (isTop_chain w |>.field hm |>.field rfl |>.field (extract_join (code_eq hf) (fixed_eq h)) |>.flag 18 |>.flag 17 |>.field rfl |>.field rfl |>.field rfl))
  case h_4 => exact readsItsWord_error w _

theorem major23_reads {w : Word} (hm : w.extractLsb' 26 5 = 23#5) : ReadsItsWord w (Decode.major23 w) := by
  unfold Decode.major23
  split
  case h_1 hf => exact readsItsWord_checked fun _ => congrArg some (IsTop.eq (isTop_chain w |>.field hm |>.field rfl |>.field (code_eq hf) |>.field rfl |>.flag 17 |>.field rfl |>.field rfl |>.field rfl))
  case h_2 hf => exact readsItsWord_checked fun _ => congrArg some (IsTop.eq (isTop_chain w |>.field hm |>.field rfl |>.field (code_eq hf) |>.field rfl |>.flag 17 |>.field rfl |>.field rfl |>.field rfl))
  case h_3 hf => exact readsItsWord_checked fun h => congrArg some (IsTop.eq (isTop_chain w |>.field hm |>.field rfl |>.field (extract_join (code_eq hf) (fixed_eq h)) |>.flag 18 |>.flag 17 |>.field rfl |>.field rfl |>.field rfl))
  case h_4 => exact readsItsWord_error w _

theorem major24_reads {w : Word} (hm : w.extractLsb' 26 5 = 24#5) : ReadsItsWord w (Decode.major24 w) := by
  unfold Decode.major24
  split
  case h_1 hf => exact readsItsWord_checked fun h => congrArg some (IsTop.eq (isTop_chain w |>.field hm |>.field rfl |>.field (code_eq hf) |>.field rfl |>.flag 17 |>.field rfl |>.field rfl |>.field rfl |>.field (fixed_eq h)))
  case h_2 hf => exact readsItsWord_checked fun h => congrArg some (IsTop.eq (isTop_chain w |>.field hm |>.field rfl |>.field (code_eq hf) |>.field rfl |>.flag 17 |>.field rfl |>.field rfl |>.field rfl |>.field (fixed_eq h)))
  case h_3 hf => exact readsItsWord_checked fun h => congrArg some (IsTop.eq (isTop_chain w |>.field hm |>.field rfl |>.field (extract_join (code_eq hf) (fixed_eq h)) |>.flag 18 |>.flag 17 |>.field rfl |>.field rfl |>.field rfl))
  case h_4 hf => exact readsItsWord_checked fun h => congrArg some (IsTop.eq (isTop_chain w |>.field hm |>.field rfl |>.field (extract_join (code_eq hf) (fixed_eq (fixed_and (fixed_and h).1).1)) |>.flag 17 |>.field (fixed_and (fixed_and h).1).2 |>.field rfl |>.field rfl |>.field (fixed_and h).2))
  case h_5 => exact readsItsWord_error w _

theorem major25_reads {w : Word} (hm : w.extractLsb' 26 5 = 25#5) : ReadsItsWord w (Decode.major25 w) := by
  unfold Decode.major25
  split
  case h_1 hf => exact readsItsWord_checked fun h => congrArg some (IsTop.eq (isTop_chain w |>.field hm |>.field rfl |>.field (code_eq hf) |>.field rfl |>.flag 17 |>.field rfl |>.field rfl |>.field rfl |>.flag 1 |>.field (fixed_eq h)))
  case h_2 hf => exact readsItsWord_checked fun h => congrArg some (IsTop.eq (isTop_chain w |>.field hm |>.field rfl |>.field (code_eq hf) |>.field rfl |>.flag 17 |>.field rfl |>.field rfl |>.field rfl |>.field (fixed_eq h)))
  case h_3 hf => exact readsItsWord_checked fun h => congrArg some (IsTop.eq (isTop_chain w |>.field hm |>.field rfl |>.field (extract_join (code_eq hf) (fixed_eq h)) |>.flag 18 |>.flag 17 |>.field rfl |>.field rfl |>.field rfl))
  case h_4 hf => exact readsItsWord_checked fun h => congrArg some (IsTop.eq (isTop_chain w |>.field hm |>.field rfl |>.field (extract_join (code_eq hf) (fixed_eq (fixed_and h).1)) |>.flag 17 |>.field rfl |>.field rfl |>.field (fixed_and h).2))
  case h_5 => exact readsItsWord_error w _

theorem major26_reads {w : Word} (hm : w.extractLsb' 26 5 = 26#5) : ReadsItsWord w (Decode.major26 w) := by
  unfold Decode.major26
  split
  case h_1 hf => exact readsItsWord_checked fun h => congrArg some (IsTop.eq (isTop_chain w |>.field hm |>.field (code_eq hf) |>.flag 23 |>.field rfl |>.field rfl |>.field rfl |>.field (fixed_eq h)))
  case h_2 hf => exact readsItsWord_checked fun h => congrArg some (IsTop.eq (isTop_chain w |>.field hm |>.field (code_eq hf) |>.flag 23 |>.field rfl |>.field rfl |>.field rfl |>.field (fixed_eq h)))
  case h_3 hf => exact readsItsWord_checked fun h => congrArg some (IsTop.eq (isTop_chain w |>.field hm |>.field (code_eq hf) |>.flag 23 |>.field rfl |>.field rfl |>.field rfl |>.field (fixed_eq h)))
  case h_4 hf => exact readsItsWord_checked fun h => congrArg some (IsTop.eq (isTop_chain w |>.field hm |>.field (code_eq hf) |>.flag 23 |>.field (fixed_eq (fixed_and h).1) |>.field rfl |>.field rfl |>.field (fixed_and h).2))
  case h_5 => exact readsItsWord_error w _

theorem major27_reads {w : Word} (hm : w.extractLsb' 26 5 = 27#5) : ReadsItsWord w (Decode.major27 w) := by
  unfold Decode.major27
  split
  case h_1 hf => exact readsItsWord_checked fun h => congrArg some (IsTop.eq (isTop_chain w |>.field hm |>.field (code_eq hf) |>.flag 22 |>.field rfl |>.field rfl |>.field rfl |>.field rfl |>.field rfl |>.flag 3 |>.flag 2 |>.field (fixed_eq h)))
  case h_2 hf => exact readsItsWord_checked fun h => congrArg some (IsTop.eq (isTop_chain w |>.field hm |>.field (code_eq hf) |>.flag 22 |>.field rfl |>.field rfl |>.field (fixed_eq h)))
  case h_3 hf => exact readsItsWord_checked fun h => congrArg some (IsTop.eq (isTop_chain w |>.field hm |>.field (code_eq hf) |>.flag 22 |>.field rfl |>.field rfl |>.field (fixed_eq (fixed_and h).1) |>.field rfl |>.flag 3 |>.flag 2 |>.field (fixed_and h).2))
  case h_4 hf => exact readsItsWord_checked fun h => congrArg some (IsTop.eq (isTop_chain w |>.field hm |>.field (code_eq hf) |>.flag 22 |>.field rfl |>.field rfl |>.field (fixed_eq (fixed_and h).1) |>.field rfl |>.flag 3 |>.flag 2 |>.field (fixed_and h).2))
  case h_5 hf => exact readsItsWord_checked fun h => congrArg some (IsTop.eq (isTop_chain w |>.field hm |>.field (code_eq hf) |>.flag 22 |>.field rfl |>.field rfl |>.field (fixed_eq h)))
  case h_6 hf => exact readsItsWord_checked fun h => congrArg some (IsTop.eq (isTop_chain w |>.field hm |>.field (extract_join (code_eq hf) (fixed_eq h))))
  case h_7 => exact readsItsWord_error w _

theorem major28_reads {w : Word} (hm : w.extractLsb' 26 5 = 28#5) : ReadsItsWord w (Decode.major28 w) := by
  unfold Decode.major28
  split
  case h_1 hf => exact readsItsWord_checked fun h => congrArg some (IsTop.eq (isTop_chain w |>.field hm |>.field (code_eq hf) |>.field rfl |>.flag 19 |>.field rfl |>.field rfl |>.field (fixed_eq h)))
  case h_2 hf => exact readsItsWord_checked fun h => congrArg some (IsTop.eq (isTop_chain w |>.field hm |>.field (code_eq hf) |>.field rfl |>.flag 19 |>.field rfl |>.field (fixed_eq h)))
  case h_3 hf => exact readsItsWord_checked fun h => congrArg some (IsTop.eq (isTop_chain w |>.field hm |>.field (code_eq hf) |>.field rfl |>.flag 19 |>.field rfl |>.field rfl |>.field (fixed_eq h)))
  case h_4 hf => exact readsItsWord_checked fun h => congrArg some (IsTop.eq (isTop_chain w |>.field hm |>.field (code_eq hf) |>.field rfl |>.flag 19 |>.field rfl |>.field rfl |>.field rfl |>.field (fixed_eq h)))
  case h_5 hf => exact readsItsWord_checked fun h => congrArg some (IsTop.eq (isTop_chain w |>.field hm |>.field (code_eq hf) |>.field rfl |>.flag 19 |>.field rfl |>.field rfl |>.field rfl |>.field (fixed_eq h)))
  case h_6 hf => exact readsItsWord_checked fun h => congrArg some (IsTop.eq (isTop_chain w |>.field hm |>.field (code_eq hf) |>.field rfl |>.flag 19 |>.field rfl |>.field (fixed_eq h)))
  case h_7 hf => exact readsItsWord_checked fun h => congrArg some (IsTop.eq (isTop_chain w |>.field hm |>.field (extract_join (code_eq hf) (fixed_eq h))))
  case h_8 hf => exact readsItsWord_checked fun h => congrArg some (IsTop.eq (isTop_chain w |>.field hm |>.field (extract_join (code_eq hf) (fixed_eq h))))
  case h_9 => exact readsItsWord_error w _

theorem major29_reads {w : Word} (hm : w.extractLsb' 26 5 = 29#5) : ReadsItsWord w (Decode.major29 w) := by
  unfold Decode.major29
  split
  case h_1 hf => exact readsItsWord_checked fun h => congrArg some (IsTop.eq (isTop_chain w |>.field hm |>.field (extract_join (code_eq hf) (fixed_eq (fixed_and h).1)) |>.field rfl |>.field (fixed_and h).2))
  case h_2 hf => exact readsItsWord_checked fun h => congrArg some (IsTop.eq (isTop_chain w |>.field hm |>.field (code_eq hf) |>.field rfl |>.field rfl |>.field (fixed_eq h)))
  case h_3 hf => exact readsItsWord_checked fun h => congrArg some (IsTop.eq (isTop_chain w |>.field hm |>.field (code_eq hf) |>.field rfl |>.field rfl |>.field (fixed_eq h)))
  case h_4 hf => exact readsItsWord_checked fun h => congrArg some (IsTop.eq (isTop_chain w |>.field hm |>.field (extract_join (code_eq hf) (fixed_eq (fixed_and h).1)) |>.field rfl |>.field (fixed_and h).2))
  case h_5 hf => exact readsItsWord_checked fun h => congrArg some (IsTop.eq (isTop_chain w |>.field hm |>.field (extract_join (code_eq hf) (fixed_eq (fixed_and h).1)) |>.field rfl |>.field (fixed_and h).2))
  case h_6 => exact readsItsWord_error w _

theorem major30_reads {w : Word} (hm : w.extractLsb' 26 5 = 30#5) : ReadsItsWord w (Decode.major30 w) := by
  unfold Decode.major30
  split
  case h_1 hf => exact readsItsWord_checked fun h => congrArg some (IsTop.eq (isTop_chain w |>.field hm |>.field (code_eq hf) |>.field rfl |>.flag 19 |>.field rfl |>.field rfl |>.field rfl |>.field (fixed_eq h)))
  case h_2 hf => exact readsItsWord_checked fun h => congrArg some (IsTop.eq (isTop_chain w |>.field hm |>.field (code_eq hf) |>.field rfl |>.flag 19 |>.field (fixed_eq (fixed_and h).1) |>.field rfl |>.field rfl |>.field (fixed_and h).2))
  case h_3 hf => exact readsItsWord_checked fun _ => congrArg some (IsTop.eq (isTop_chain w |>.field hm |>.field (code_eq hf) |>.field rfl |>.flag 19 |>.field rfl |>.field rfl |>.field rfl |>.flag 0))
  case h_4 hf => exact readsItsWord_checked fun h => congrArg some (IsTop.eq (isTop_chain w |>.field hm |>.field (code_eq hf) |>.field rfl |>.flag 19 |>.field rfl |>.field rfl |>.field rfl |>.field (fixed_eq h)))
  case h_5 hf => exact readsItsWord_checked fun h => congrArg some (IsTop.eq (isTop_chain w |>.field hm |>.field (code_eq hf) |>.field rfl |>.flag 19 |>.field rfl |>.field rfl |>.field rfl |>.field (fixed_eq h)))
  case h_6 hf => exact readsItsWord_checked fun h => congrArg some (IsTop.eq (isTop_chain w |>.field hm |>.field (code_eq hf) |>.field rfl |>.flag 19 |>.field (fixed_eq (fixed_and h).1) |>.field rfl |>.field (fixed_and h).2))
  case h_7 => exact readsItsWord_error w _

theorem major31_reads {w : Word} (hm : w.extractLsb' 26 5 = 31#5) : ReadsItsWord w (Decode.major31 w) := by
  unfold Decode.major31
  split
  case h_1 hf => exact readsItsWord_checked fun h => congrArg some (IsTop.eq (isTop_chain w |>.field hm |>.field (code_eq hf) |>.field rfl |>.flag 19 |>.field rfl |>.field rfl |>.field (fixed_eq h)))
  case h_2 hf => exact readsItsWord_checked fun h => congrArg some (IsTop.eq (isTop_chain w |>.field hm |>.field (code_eq hf) |>.field rfl |>.flag 19 |>.field rfl |>.field rfl |>.field (fixed_eq h)))
  case h_3 hf => exact readsItsWord_checked fun h => congrArg some (IsTop.eq (isTop_chain w |>.field hm |>.field (code_eq hf) |>.field rfl |>.flag 19 |>.field (fixed_eq (fixed_and h).1) |>.field rfl |>.field (fixed_and h).2))
  case h_4 hf =>
    split
    next hp => exact readsItsWord_checked fun h => congrArg some (IsTop.eq (isTop_chain w |>.field hm |>.field (code_eq hf) |>.field rfl |>.flag 19 |>.field rfl |>.field (by rw [extract_bit, hp]; rfl) |>.field rfl |>.field (fixed_eq h)))
    next hp => exact readsItsWord_checked fun h => congrArg some (IsTop.eq (isTop_chain w |>.field hm |>.field (code_eq hf) |>.field rfl |>.flag 19 |>.field rfl |>.field (by rw [extract_bit, Bool.eq_false_iff.mpr hp]; rfl) |>.field rfl |>.field (fixed_eq h)))
  case h_5 hf => exact readsItsWord_checked fun h => congrArg some (IsTop.eq (isTop_chain w |>.field hm |>.field (code_eq hf) |>.field rfl |>.flag 19 |>.field rfl |>.field (fixed_eq (fixed_and h).1) |>.field rfl |>.field (fixed_and h).2))
  case h_6 hf => exact readsItsWord_checked fun h => congrArg some (IsTop.eq (isTop_chain w |>.field hm |>.field (code_eq hf) |>.field rfl |>.flag 19 |>.field rfl |>.field rfl |>.field (fixed_eq h)))
  case h_7 => exact readsItsWord_error w _

/-- Reading a word goes by its major. -/
theorem read_readsItsWord (w : Word) : ReadsItsWord w (Decode.read w) := by
  unfold Decode.read
  split
  case h_1 hm => exact major0_reads (code_eq hm)
  case h_2 hm => exact major1_reads (code_eq hm)
  case h_3 hm => exact major2_reads (code_eq hm)
  case h_4 hm => exact major3_reads (code_eq hm)
  case h_5 hm => exact major4_reads (code_eq hm)
  case h_6 hm => exact major5_reads (code_eq hm)
  case h_7 hm => exact major6_reads (code_eq hm)
  case h_8 hm => exact major7_reads (code_eq hm)
  case h_9 hm => exact major8_reads (code_eq hm)
  case h_10 hm => exact major9_reads (code_eq hm)
  case h_11 hm => exact major10_reads (code_eq hm)
  case h_12 hm => exact major11_reads (code_eq hm)
  case h_13 hm => exact major12_reads (code_eq hm)
  case h_14 hm => exact major13_reads (code_eq hm)
  case h_15 hm => exact major14_reads (code_eq hm)
  case h_16 hm => exact major15_reads (code_eq hm)
  case h_17 hm => exact major16_reads (code_eq hm)
  case h_18 hm => exact major17_reads (code_eq hm)
  case h_19 hm => exact major18_reads (code_eq hm)
  case h_20 hm => exact major19_reads (code_eq hm)
  case h_21 hm => exact major20_reads (code_eq hm)
  case h_22 hm => exact major21_reads (code_eq hm)
  case h_23 hm => exact major22_reads (code_eq hm)
  case h_24 hm => exact major23_reads (code_eq hm)
  case h_25 hm => exact major24_reads (code_eq hm)
  case h_26 hm => exact major25_reads (code_eq hm)
  case h_27 hm => exact major26_reads (code_eq hm)
  case h_28 hm => exact major27_reads (code_eq hm)
  case h_29 hm => exact major28_reads (code_eq hm)
  case h_30 hm => exact major29_reads (code_eq hm)
  case h_31 hm => exact major30_reads (code_eq hm)
  case h_32 =>
    refine major31_reads (code_eq ?_)
    have := (w.extractLsb' 26 5).isLt
    simp only [imp_false] at *
    omega

/-- Settles O4: reading goes by the major, and within a major by its function code; the fields of an accepted word, put together again from
bit 31 down, are the word. -/
theorem wordsAreTheirEncodings : Obligations.WordsAreTheirEncodings := by
  unfold Obligations.WordsAreTheirEncodings Claims.WordsAreTheirEncodings
  intro i w h
  exact read_readsItsWord w i (accept_ok h)

end Sys2Proof.Proofs
end

