-- ==== Sys2Proof/Proofs/Operands.lean ====
section
/-! What a source field reads, in a chain and outside one (R29, R36), the registers of the window (R71), and the clause header (R30, R32). -/

namespace Sys2Proof.Proofs

open Sys2Proof.Machine Sys2Proof.Says

/-! ### What stood before the chain -/

theorem wasOf_eq_before (s : State) (t : Thread) : s.wasOf t = before s t := by
  unfold State.wasOf before
  cases t.old <;> rfl

theorem before_of_old {s : State} {t : Thread} {b : Before} (h : t.old = some b) : before s t = b := by
  unfold before
  rw [h]

theorem v_of_old {t : Thread} {b : Before} (h : t.old = some b) (W k : Nat) : t.v W k = SMap.get 0 b.regs (physReg W b.depth k) := by
  unfold Thread.v
  rw [h]

theorem v_outside {t : Thread} (h : t.old = none) (W k : Nat) : t.v W k = reg t (physReg W t.depth k) := by
  unfold Thread.v reg
  rw [h]

theorem sreg_of_old {s : State} {t : Thread} {b : Before} (h : t.old = some b) (k : Nat) : s.sreg t k = SMap.get 0 b.sregs k := by
  unfold State.sreg
  rw [h]

theorem sreg_outside {s : State} {t : Thread} {g : Group} (h : t.old = none) (hg : s.groupOf t = some g) (k : Nat) :
    s.sreg t k = g.sv k := by
  unfold State.sreg
  rw [h, hg]

theorem src_v {s : State} {t : Thread} {a : BitVec 7} (h : a.toNat < 64) : s.src t a = t.v (s.win t.tid) a.toNat := if_pos h

theorem src_s {s : State} {t : Thread} {a : BitVec 7} (h : 64 ≤ a.toNat) : s.src t a = s.sreg t (a.toNat - 64) :=
  if_neg (Nat.not_lt.mpr h)

theorem p_of_old {t : Thread} {b : Before} (h : t.old = some b) (i : BitVec 3) : t.p i = (i == 7 || b.preds.getLsbD i.toNat) := by
  unfold Thread.p
  rw [h]

theorem mode_of_old {s : State} {t : Thread} {b : Before} (h : t.old = some b) : s.mode t = b.fmode := by
  unfold State.mode
  rw [h]

theorem claims_sourceFieldReads : Claims.SourceFieldReads := by
  intro s t g a hold hg
  refine ⟨fun ha => ?_, fun ha => ?_⟩
  · rw [src_v ha, v_outside hold, reg, physReg]
  · rw [src_s ha, sreg_outside hold hg, Group.sv]

theorem claims_chainReadsOldValues : Claims.ChainReadsOldValues := by
  intro s t b a i hold
  have hwas : s.wasOf t = b := (wasOf_eq_before s t).trans (before_of_old hold)
  refine ⟨fun ha => ?_, fun ha => ?_, p_of_old hold i, mode_of_old hold, ?_, ?_, ?_⟩
  · rw [src_v ha, v_of_old hold, physReg]
  · rw [src_s ha, sreg_of_old hold]
  all_goals simp only [State.special, hwas, Thread.wdepth]

/-! ### From the beginning of a chain to its end -/

theorem redo_nil {t : Thread} (h : t.again = []) : t.redo = none := by
  simp [Thread.redo, h]

theorem redo_here {t : Thread} {x : Again} (h : t.again = [x]) (htrap : x.trap = t.trapMode) (hpkt : x.at_.pkt = t.pkt)
    (hword : x.at_.word = t.word) : t.redo = some x := by
  simp [Thread.redo, h, htrap, hpkt, hword]

theorem snapshot_unsnapshot {s : State} (hold : ∀ u ∈ s.threads, u.old = none) (hissued : s.issued = []) :
    s.snapshot.unsnapshot = s := by
  have hthreads : s.snapshot.unsnapshot.threads = s.threads := by
    simp only [State.snapshot, State.unsnapshot, State.modThreads, List.map_map]
    refine (List.map_congr_left (g := id) fun t ht => ?_).trans (List.map_id _)
    simp only [Function.comp]
    split <;> simp [← hold t ht]
  calc s.snapshot.unsnapshot = { s with issued := [], threads := s.snapshot.unsnapshot.threads } := rfl
    _ = s := by rw [hthreads, ← hissued]

theorem claims_chainKeepsOldValues : Claims.ChainKeepsOldValues := by
  intro s hold hissued
  refine ⟨rfl, ?_, snapshot_unsnapshot hold hissued⟩
  unfold State.snapshot State.modThreads
  rw [List.forall₂_map_right_iff, List.forall₂_same]
  intro t _
  by_cases hg : t.uid ∈ s.gang
  · simp only [List.contains_eq_mem, hg, decide_true, if_true]
    refine ⟨fun hagain => ?_, fun x w hagain htrap hpkt hword hwas => ?_⟩
    · simp [redo_nil hagain, wasOf_eq_before]
    · simp [redo_here hagain htrap hpkt hword, hwas]
  · simp [hg]

/-! ### The window -/

theorem eq_of_mod_eq {a b n : Nat} (h : a % n = b % n) (hab : a < b + n) (hba : b < a + n) : a = b :=
  Nat.ModEq.eq_of_abs_lt h (by rw [abs_lt]; constructor <;> omega)

/-- Registers of two resident windows that lie in one physical register are the same register. -/
theorem eq_of_physReg_eq {W d e k j : Nat} (h : physReg W d k = physReg W e j) (hde : d ≤ e) (hew : e < d + W) (hk : k < 64)
    (hj : j < 64) : 48 * d + k = 48 * e + j :=
  eq_of_mod_eq h (by omega) (by omega)

theorem physReg_callee (W d k : Nat) : physReg W (d + 1) k = physReg W d (48 + k) := by
  unfold physReg
  congr 1
  omega

theorem claims_windowRegisters : Claims.WindowRegisters := by
  intro W d e k j hW _ hk hj
  refine ⟨fun h => ?_, fun _ => physReg_callee W d k, fun hde hew h => eq_of_physReg_eq h hde hew hk hj, Nat.mod_lt _ (by omega)⟩
  have := eq_of_physReg_eq h le_rfl (by omega) hk hj
  omega

/-- Settles O7, claim by claim: outside a chain a source is the register as it stands, inside one what the chain has kept. -/
theorem sourceOperands : Obligations.SourceOperands := by
  unfold Obligations.SourceOperands
  exact ⟨claims_sourceFieldReads, claims_chainReadsOldValues, claims_chainKeepsOldValues, claims_windowRegisters⟩

/-! ### The clause header -/

theorem insertBy_perm {α : Type} (key : α → Nat) (x : α) (l : List α) : (sortBy.insertBy' key x l).Perm (x :: l) := by
  induction l with
  | nil => exact .refl _
  | cons y r ih =>
    unfold sortBy.insertBy'
    split
    · exact .refl _
    · exact (ih.cons y).trans (.swap x y r)

theorem sortBy_perm {α : Type} (key : α → Nat) (l : List α) : (sortBy key l).Perm l := by
  unfold sortBy
  induction l with
  | nil => exact .refl _
  | cons x r ih => exact (insertBy_perm key x _).trans (ih.cons x)

theorem gangThreads_perm (s : State) : s.gangThreads.Perm (s.threads.filter fun t => s.gang.contains t.uid) := sortBy_perm _ _

@[simp] theorem mem_gangThreads {s : State} {t : Thread} : t ∈ s.gangThreads ↔ t ∈ s.threads ∧ t.uid ∈ s.gang := by
  rw [(gangThreads_perm s).mem_iff]
  simp

/-- One change of every thread of the gang, as an answer. -/
theorem movesThreads_of_exec {i : Instr} {s : State} {f : Thread → Thread} (h : exec i s = .next (s.modThreads s.gang f)) :
    MovesThreads i s f := by
  refine ⟨_, h, rfl, ?_⟩
  unfold EachThread State.modThreads
  rw [List.forall₂_map_right_iff, List.forall₂_same]
  intro t _
  by_cases hg : t.uid ∈ s.gang <;> simp [hg]

theorem unclear_iff {s : State} {mask : BitVec 12} :
    s.unclear mask = true ↔ ∃ t ∈ s.gangThreads, ∃ i < 12, mask.getLsbD i = true ∧ t.count i ≠ 0 := by
  simp [State.unclear]

theorem exec_clause (f : FH) (s : State) : exec (.clause f) s =
    if s.unclear f.wait then .next (s.stallGang (.clause f.wait)) else .next (s.modThreads s.gang (Thread.open_ f)) := rfl

theorem claims_clauseHeader : Claims.ClauseHeader := by
  intro f s
  refine ⟨fun hclear => movesThreads_of_exec ?_, fun hcounts => movesThreads_of_exec ?_⟩
  · have : ¬ s.unclear f.wait = true := by
      rw [unclear_iff]
      rintro ⟨t, ht, i, hi, hbit, hne⟩
      exact hne (hclear t ht i hi hbit)
    rw [exec_clause, if_neg this]
    rfl
  · rw [exec_clause, if_pos (unclear_iff.mpr hcounts)]
    rfl

/-- Settles O18. -/
theorem clauseHeader : Obligations.ClauseHeader := by
  unfold Obligations.ClauseHeader
  exact claims_clauseHeader

end Sys2Proof.Proofs
end

