-- ==== Sys2Proof/Proofs/Traps.lean ====
section
/-! Taking a trap, said once for every cause (R377, Table 26.2), and what the words of software traps and the privileged words do with it. -/

namespace Sys2Proof.Proofs

open Sys2Proof.Machine Sys2Proof.Says Sys2Proof.Laws

/-! ### Lanes as a mask -/

theorem getLsbD_laneBit (k : Nat) {j : Nat} (hj : j < 32) : (1#32 <<< k).getLsbD j = (k == j) := by
  rw [Bool.eq_iff_iff]
  simp [hj]
  omega

theorem getLsbD_foldl_lane (ts : List Thread) (m : BitVec 32) {j : Nat} (hj : j < 32) :
    (ts.foldl (fun m t => m ||| 1#32 <<< t.lane) m).getLsbD j = (m.getLsbD j || ts.any fun t => t.lane == j) := by
  induction ts generalizing m with
  | nil => simp
  | cons t r ih => rw [List.foldl_cons, ih, BitVec.getLsbD_or, getLsbD_laneBit _ hj, List.any_cons, Bool.or_assoc]

theorem getLsbD_lanes (ts : List Thread) {j : Nat} (hj : j < 32) : (lanes ts).getLsbD j = ts.any fun t => t.lane == j := by
  rw [lanes, BitVec.getLsbD_setWidth, BitVec.getLsbD_ofBoolListLE]
  simp [hj]

theorem laneMask_eq_lanes (ts : List Thread) : laneMask ts = lanes ts := by
  refine BitVec.eq_of_getLsbD_eq fun j hj => ?_
  rw [getLsbD_lanes ts hj, laneMask, getLsbD_foldl_lane ts 0 hj]
  simp

/-! ### The trap registers -/

/-- Leaving zeros out of a list of words under rising keys changes no reading. -/
theorem get_zip_range' (ws : List Word) (n i : Nat) :
    SMap.get 0 (((List.range' n ws.length).zip ws).filter fun e => e.2 != 0) i = if n ≤ i then ws.getD (i - n) 0 else 0 := by
  induction ws generalizing n with
  | nil => simp [SMap.get]
  | cons w r ih =>
    have hstep : SMap.get 0 (((List.range' n (w :: r).length).zip (w :: r)).filter fun e => e.2 != 0) i =
        if n = i then w else SMap.get 0 (((List.range' (n + 1) r.length).zip r).filter fun e => e.2 != 0) i := by
      rw [List.length_cons, List.range'_succ, List.zip_cons_cons, List.filter_cons]
      by_cases hw : w = 0
      · rw [if_neg (by simp [hw]), ih, hw]
        by_cases hi : n = i <;> simp [hi]
      · rw [if_pos (by simpa using hw), SMap.get]
    rw [hstep, ih]
    by_cases hi : n = i
    · simp [hi]
    · by_cases hle : n ≤ i
      · have : i - n = (i - (n + 1)) + 1 := by omega
        simp [hi, hle, this, show n + 1 ≤ i by omega]
      · simp [hi, hle, show ¬ n + 1 ≤ i by omega]

/-- A register of a list of words reads as its word. -/
theorem get_wordMap (ws : List Word) (i : Nat) : SMap.get 0 (wordMap ws) i = ws.getD i 0 := by
  have h := get_zip_range' ws 0 i
  rwa [← List.range_eq_range', if_pos (Nat.zero_le i), Nat.sub_zero] at h

theorem enterTrap_trapWord (s : State) (q : TrapReq) (t : Thread) (i : Nat) :
    (s.enterTrap q t).trapWord i = (s.trapWords q t).getD i 0 := get_wordMap _ i

theorem trapWords_tv (s : State) (q : TrapReq) (t : Thread) {i : Nat} (hi : i < 8) :
    (s.trapWords q t).getD (16 + i) 0 = reg t (physReg (s.win t.tid) t.depth (56 + i)) := by
  have h16 : 16 + i = i + 16 := by omega
  rw [h16]
  simp [State.trapWords, hi, reg]

/-- Word 1 of the trap registers. -/
def statusWord (kind : Nat) (inside : Bool) (cause w : Nat) : Word :=
  BitVec.ofNat 8 kind ++ 0#7 ++ bit inside ++ BitVec.ofNat 8 cause ++ 0#6 ++ BitVec.ofNat 2 w

theorem statusWord_word (kind : Nat) (inside : Bool) (cause w : Nat) : field (statusWord kind inside cause w) 1 0 = w % 4 := by
  simp (disch := decide) only [field, statusWord, wordInner]
  simp

theorem statusWord_cause (kind : Nat) (inside : Bool) (cause w : Nat) : field (statusWord kind inside cause w) 15 8 = cause % 256 := by
  simp (disch := decide) only [field, statusWord, wordInner, wordSkip]
  simp

theorem statusWord_inside (kind : Nat) (inside : Bool) (cause w : Nat) : (statusWord kind inside cause w).getLsbD 16 = inside := by
  simp (disch := decide) only [statusWord, bitInner, bitSkip, Nat.reduceSub, bitSelf]

theorem statusWord_kind (kind : Nat) (inside : Bool) (cause w : Nat) : field (statusWord kind inside cause w) 31 24 = kind % 256 := by
  simp (disch := decide) only [field, statusWord, wordSkip]
  simp

theorem halves_append (x : BitVec 64) : x.extractLsb' 32 32 ++ x.extractLsb' 0 32 = x := by
  rw [BitVec.extractLsb'_append_extractLsb'_eq_extractLsb' (by rfl)]
  simp

/-- A thread of the gang that has entered trap mode, with the trap registers of Table 26.2. -/
theorem trapped_enterTrap (s : State) (q : TrapReq) (t : Thread) :
    Trapped s q (q.mask.getD (lanes s.gangThreads)) (lanes s.gangThreads) (q.resume t).pkt ((q.resume t).word % 4) t (s.enterTrap q t) := by
  have hreg := enterTrap_trapWord s q t
  have hstatus : (s.enterTrap q t).trapWord 1 =
      statusWord q.kind ((q.mask.getD (laneMask s.gangThreads)).getLsbD t.lane) q.cause (q.resume t).word := hreg 1
  rw [← laneMask_eq_lanes]
  constructor
  case rest => rfl
  case due => exact id
  case tpc => exact hreg 0
  case word => rw [hstatus, statusWord_word]
  case cause => rw [hstatus, statusWord_cause]
  case inside => rw [hstatus, statusWord_inside]
  case kind => rw [hstatus, statusWord_kind]
  case addr =>
    intro hcause
    have htaddr : q.taddr t = q.addr := if_neg (by simpa using hcause)
    calc (s.enterTrap q t).trapWord 3 ++ (s.enterTrap q t).trapWord 2
        = (q.taddr t).extractLsb' 32 32 ++ (q.taddr t).extractLsb' 0 32 := congrArg₂ _ (hreg 3) (hreg 2)
      _ = q.addr := by rw [halves_append, htaddr]
  case source =>
    intro hcause
    have htaddr : q.taddr t = BitVec.ofNat 30 0 ++ BitVec.ofNat 2 t.fromWord ++ t.fromPkt := if_pos (by simpa using hcause)
    refine ⟨(hreg 2).trans ?_, (hreg 3).trans ?_⟩
    · show (q.taddr t).extractLsb' 0 32 = _
      rw [htaddr, wordInner _ _ _ _ _ _ (by decide), BitVec.extractLsb'_eq_self]
    · show (q.taddr t).extractLsb' 32 32 = _
      rw [htaddr, wordSkip _ _ _ _ _ _ (by decide), BitVec.extractLsb'_eq_self]
      apply BitVec.eq_of_toNat_eq
      rw [BitVec.toNat_append]
      simp
      omega
  case tag => exact (congrArg₂ _ (hreg 5) (hreg 4)).trans (halves_append q.tag)
  case mask => exact hreg 6
  case place => exact hreg 7
  case tgang => exact hreg 8
  case seamd => exact hreg 9
  case tseam =>
    have hlow : (s.enterTrap q t).trapWord 10 = t.seamReg.extractLsb' 0 32 := hreg 10
    have hhigh : (s.enterTrap q t).trapWord 11 = t.seamReg.extractLsb' 32 32 := hreg 11
    rw [hlow, hhigh, Thread.seamReg]
    cases t.seams with
    | nil => exact ⟨rfl, rfl⟩
    | cons e r => exact ⟨by simp (disch := decide) only [wordInner, BitVec.extractLsb'_eq_self],
        by simp (disch := decide) only [wordSkip, BitVec.extractLsb'_eq_self, Nat.reduceSub]⟩
  case depths => exact hreg 12
  case tpred => exact hreg 13
  case tfstat => exact hreg 14
  case origin =>
    intro hcause
    exact (hreg 15).trans (if_neg (by simpa using hcause))
  case group =>
    intro hcause g hg
    have hextra : s.trapExtra q t = lanes (s.live g) := by
      rw [State.trapExtra, if_pos (by simpa using hcause), hg]
      exact laneMask_eq_lanes _
    exact (hreg 15).trans hextra
  case tv => exact fun i hi => (hreg (16 + i)).trans (trapWords_tv s q t hi)

/-! ### The whole gang -/

/-- A gang outside trap mode takes its trap. -/
theorem tookTrap_takeTrap {s : State} (hout : OutsideTrap s) (q : TrapReq) (mk : Option Word) :
    TookTrap s (s.takeTrap { q with mask := mk }) q (mk.getD (lanes s.gangThreads)) q.after := by
  obtain ⟨hne, huser⟩ := hout
  obtain ⟨t, r, hgang⟩ := List.exists_cons_of_ne_nil hne
  rw [takeTrap_user s _ t r hgang (huser t (by rw [hgang]; exact List.mem_cons_self))]
  refine ⟨rfl, ?_, ?_⟩
  · rw [List.forall₂_map_right_iff, List.forall₂_same]
    intro g _
    dsimp only
    split <;> rfl
  · unfold EachThread
    rw [List.forall₂_map_right_iff, List.forall₂_same]
    intro a _
    by_cases hg : a.uid ∈ s.gang
    · rw [if_pos hg, if_pos (by simpa using hg)]
      have h := trapped_enterTrap { s with trapped := s.trapped + 1 } { q with mask := mk } a
      have hpkt : (q.resume a).pkt = if q.after then a.next.pkt else a.pkt := by unfold TrapReq.resume; split <;> rfl
      have hword : (q.resume a).word % 4 = if q.after then a.next.word % 4 else a.word % 4 := by unfold TrapReq.resume; split <;> rfl
      dsimp only
      rw [← hpkt, ← hword]
      exact ⟨h.rest, h.due, h.tpc, h.word, h.cause, h.inside, h.kind, h.addr, h.source, h.tag, h.mask, h.place, h.tgang, h.seamd, h.tseam,
        h.depths, h.tpred, h.tfstat, h.origin, h.group, h.tv⟩
    · rw [if_neg hg, if_neg (by simpa using hg)]

/-! ### The resume point of a software trap -/

/-- One thread in no trap, which `TRAP` lets execute: it stands at word 0 of packet 0. -/
def soloThread : Thread := Thread.fresh 1 1 0 1

/-- The package after reset with that thread as its gang. -/
def soloGang : State := { State.reset with threads := [soloThread], gang := [1] }

/-- An unguarded `TRAP`. -/
def plainTrap : FTrap := { ch := false, pred := 7, code := 0 }

theorem soloGang_gangThreads : soloGang.gangThreads = [soloThread] := rfl

theorem soloGang_executing : soloGang.executing plainTrap.pred = [soloThread] := by decide

theorem exec_trap_soloGang : exec (.trap plainTrap) soloGang =
    .next (soloGang.takeTrap { TrapReq.of 0x38 with mask := some (laneMask [soloThread]), after := true }) := by
  show execTrap plainTrap soloGang = _
  unfold execTrap
  rw [soloGang_executing]
  rfl

/-- The trap sets the resume point behind the word. -/
theorem soloGang_trapAt :
    (soloGang.takeTrap { TrapReq.of 0x38 with mask := some (laneMask [soloThread]), after := true }).threads.map Thread.trapAt =
      [some soloThread.next.at_] := rfl

/-- `Claims.SoftwareTraps` asks that what the handler returns to by default be the word itself. -/
theorem trapAt_of_softwareTraps (h : Claims.SoftwareTraps) : ∃ t, exec (.trap plainTrap) soloGang = .next t ∧
    t.threads.map Thread.trapAt = [some soloThread.at_] := by
  have hout : OutsideTrap soloGang := by
    rw [OutsideTrap, soloGang_gangThreads]
    exact ⟨List.cons_ne_nil _ _, by simp [soloThread, Thread.fresh]⟩
  obtain ⟨-, -, hruns, -⟩ := h plainTrap ⟨false, 7⟩ soloGang hout
  obtain ⟨htrap, -⟩ := hruns (by rw [soloGang_gangThreads]; simp [soloThread, Thread.fresh])
  obtain ⟨t, ht, -, -, heach⟩ := htrap (by rw [soloGang_executing]; exact List.cons_ne_nil _ _)
  refine ⟨t, ht, ?_⟩
  obtain ⟨b, bs, hb, hbs, hthreads⟩ := List.forall₂_cons_left_iff.mp heach
  rw [List.forall₂_nil_left_iff.mp hbs] at hthreads
  rw [if_pos (by decide)] at hb
  rw [hthreads, List.map_cons, List.map_nil, hb.rest]
  rfl

theorem not_claims_softwareTraps : ¬ Claims.SoftwareTraps := by
  intro h
  obtain ⟨t, ht, hat⟩ := trapAt_of_softwareTraps h
  obtain rfl := Host.Outcome.next.inj (exec_trap_soloGang.symm.trans ht)
  rw [soloGang_trapAt] at hat
  exact absurd hat (by decide)

/-- Refutes O22: `Claims.SoftwareTraps` names the trap of `TRAP` by a request that resumes at the word, so that by `Trapped.rest` the resume point kept
at the trap's entry is the word's. The model keeps the one behind the word (R96, R378), as the same claim wants of the trap registers: a single
thread at word 0 that executes `TRAP` has `trapAt` at word 1. -/
theorem not_softwareTraps : ¬ Obligations.SoftwareTraps := by
  unfold Obligations.SoftwareTraps
  rintro ⟨hsoftware, -⟩
  exact not_claims_softwareTraps hsoftware

end Sys2Proof.Proofs
end

