-- ==== Sys2Proof/Proofs/InFlight.lean ====
section
/-! Putting operations in flight (R33, R34): what a word does that sends one operation for each of its threads, said once. -/

namespace Sys2Proof.Proofs

open Sys2Proof.Machine Sys2Proof.Says Sys2Proof.Laws

/-! ### One thread -/

/-- What putting operation `o` in flight makes of its thread. -/
def begun (o : Op) (t : Thread) : Thread :=
  { t.begin o.sel with
    pendV := o.regs ++ t.pendV, pendP := o.preg.toList ++ t.pendP, pendF := if o.kind == .sfu then t.pendF + 1 else t.pendF,
    acqOut := if o.kind == .sqacq then t.acqOut + 1 else t.acqOut }

/-- What it makes of any thread. -/
def noted (o : Op) (t : Thread) : Thread := if t.uid == o.uid then begun o t else t

/-- What putting operations in flight one after the other makes of a thread. -/
def notedAll (os : List Op) (t : Thread) : Thread := os.foldl (fun t o => noted o t) t

theorem begin_eq (s : State) (o : Op) : s.begin o =
    { s with threads := s.threads.map (noted o), ops := s.ops ++ [{ o with id := s.nextId }], nextId := s.nextId + 1 } := rfl

theorem begin_count (t : Thread) (sel i : Nat) : (t.begin sel).count i = t.count i + if i = sel ∧ i < 12 then 1 else 0 := by
  by_cases hsel : sel < 12
  · by_cases hi : i = sel
    · simp [Thread.begin, Thread.count, hsel, hi]
    · simp [Thread.begin, Thread.count, hsel, hi, Ne.symm hi]
  · have : ¬ (i = sel ∧ i < 12) := by omega
    simp [Thread.begin, Thread.count, hsel, this]

@[simp] theorem begun_uid (o : Op) (t : Thread) : (begun o t).uid = t.uid := rfl
@[simp] theorem begun_outs (o : Op) (t : Thread) : (begun o t).outs = t.outs + 1 := rfl
theorem begun_count (o : Op) (t : Thread) (i : Nat) : (begun o t).count i = t.count i + if i = o.sel ∧ i < 12 then 1 else 0 :=
  begin_count t o.sel i

@[simp] theorem noted_uid (o : Op) (t : Thread) : (noted o t).uid = t.uid := by
  unfold noted
  split <;> rfl

@[simp] theorem notedAll_uid (os : List Op) (t : Thread) : (notedAll os t).uid = t.uid := by
  induction os generalizing t with
  | nil => rfl
  | cons o r ih => exact (ih (noted o t)).trans (noted_uid o t)

/-- Only a thread's marks of work in flight have changed. -/
def OnlyInFlight (a b : Thread) : Prop :=
  ∃ fl pv pp pf n q, b = { a with flags := fl, pendV := pv, pendP := pp, pendF := pf, outs := n, acqOut := q }

theorem onlyInFlight_noted (o : Op) (t : Thread) : OnlyInFlight t (noted o t) := by
  unfold noted
  split
  · exact ⟨_, _, _, _, _, _, rfl⟩
  · exact ⟨_, _, _, _, _, _, rfl⟩

theorem OnlyInFlight.trans {a b c : Thread} (hab : OnlyInFlight a b) (hbc : OnlyInFlight b c) : OnlyInFlight a c := by
  obtain ⟨_, _, _, _, _, _, rfl⟩ := hab
  obtain ⟨_, _, _, _, _, _, rfl⟩ := hbc
  exact ⟨_, _, _, _, _, _, rfl⟩

theorem onlyInFlight_notedAll (os : List Op) (t : Thread) : OnlyInFlight t (notedAll os t) := by
  induction os generalizing t with
  | nil => exact ⟨_, _, _, _, _, _, rfl⟩
  | cons o r ih => exact (onlyInFlight_noted o t).trans (ih (noted o t))

theorem OnlyInFlight.next {a b : Thread} (h : OnlyInFlight a b) : OnlyInFlight a.next b.next := by
  obtain ⟨fl, pv, pp, pf, n, q, rfl⟩ := h
  refine ⟨fl, pv, pp, pf, n, q, ?_⟩
  unfold Thread.next
  dsimp only
  split
  · rfl
  · split
    · split <;> rfl
    · rfl

theorem opsOf_congr (os : List Op) {a b : Thread} (h : b.uid = a.uid) : opsOf os b = opsOf os a := by
  unfold opsOf
  rw [h]

theorem counts_nil (a : Thread) : Counts [] a a := by
  simp [Counts, opsOf]

/-- Counting one operation more. -/
theorem counts_cons {o : Op} {os : List Op} {a b : Thread} (h : Counts os (noted o a) b) : Counts (o :: os) a b := by
  obtain ⟨houts, hcount⟩ := h
  rw [opsOf_congr os (noted_uid o a)] at houts hcount
  by_cases hu : o.uid = a.uid
  · have hnoted : noted o a = begun o a := if_pos (by simp [hu])
    have hops : opsOf (o :: os) a = o :: opsOf os a := by simp [opsOf, hu]
    rw [hnoted] at houts hcount
    refine ⟨by rw [houts, hops, begun_outs, List.length_cons]; omega, fun i => ?_⟩
    rw [hcount, hops, begun_count, List.filter_cons]
    by_cases hi : o.sel = i
    · by_cases h12 : i < 12 <;> simp [hi, h12]
      omega
    · simp [hi, Ne.symm hi]
  · have hnoted : noted o a = a := if_neg (by simp [Ne.symm hu])
    have hops : opsOf (o :: os) a = opsOf os a := by simp [opsOf, hu]
    rw [hnoted] at houts hcount
    rw [Counts, hops]
    exact ⟨houts, hcount⟩

theorem counts_notedAll (os : List Op) (t : Thread) : Counts os t (notedAll os t) := by
  induction os generalizing t with
  | nil => exact counts_nil t
  | cons o r ih => exact counts_cons (ih (noted o t))

@[simp] theorem next_outs (t : Thread) : t.next.outs = t.outs := by
  unfold Thread.next
  split
  · rfl
  · split
    · split <;> rfl
    · rfl

@[simp] theorem next_flags (t : Thread) : t.next.flags = t.flags := by
  unfold Thread.next
  split
  · rfl
  · split
    · split <;> rfl
    · rfl

@[simp] theorem next_pendV (t : Thread) : t.next.pendV = t.pendV := by
  unfold Thread.next
  split
  · rfl
  · split
    · split <;> rfl
    · rfl

theorem counts_next {os : List Op} {a b : Thread} (h : Counts os a b) : Counts os a b.next := by
  simpa only [Counts, Thread.count, next_outs, next_flags] using h

theorem mem_pendV_noted {o : Op} {t : Thread} {r : Nat} (h : r ∈ t.pendV ∨ o.uid = t.uid ∧ r ∈ o.regs) : r ∈ (noted o t).pendV := by
  by_cases hu : o.uid = t.uid
  · have hnoted : noted o t = begun o t := if_pos (by simp [hu])
    rw [hnoted, begun, List.mem_append]
    exact h.symm.imp (·.2) id
  · have hnoted : noted o t = t := if_neg (by simp [Ne.symm hu])
    rw [hnoted]
    exact h.resolve_right fun hr => hu hr.1

/-- The registers of a thread's operations are held. -/
theorem mem_pendV_notedAll {os : List Op} {t : Thread} {r : Nat} (h : r ∈ t.pendV ∨ ∃ o ∈ os, o.uid = t.uid ∧ r ∈ o.regs) :
    r ∈ (notedAll os t).pendV := by
  induction os generalizing t with
  | nil => simpa [notedAll] using h
  | cons o os ih =>
    refine ih (t := noted o t) ?_
    rcases h with h | ⟨x, hx, hu, hr⟩
    · exact .inl (mem_pendV_noted (.inl h))
    · rcases List.mem_cons.mp hx with rfl | hx
      · exact .inl (mem_pendV_noted (.inr ⟨hu, hr⟩))
      · exact .inr ⟨x, hx, by rwa [noted_uid], hr⟩

theorem notedAll_of_forall_ne {os : List Op} {t : Thread} (h : ∀ o ∈ os, o.uid ≠ t.uid) : notedAll os t = t := by
  induction os with
  | nil => rfl
  | cons o os ih =>
    have hnoted : noted o t = t := if_neg (by simp [Ne.symm (h o List.mem_cons_self)])
    show notedAll os (noted o t) = t
    rw [hnoted]
    exact ih fun x hx => h x (List.mem_cons_of_mem o hx)

/-! ### The package -/

/-- One operation after the other is put in flight, each with the event that it posts. -/
def sendAll (us : List Thread) (mk : Thread → Op) (ev : Nat → Instr) (s : State) : State :=
  us.foldl (fun s u => s.send (mk u) ev) s

/-- The operations of a list of threads as they stand in flight, numbered from `n`. -/
def numberedOps (us : List Thread) (mk : Thread → Op) (n : Nat) : List Op := us.mapIdx fun i u => { mk u with id := n + i }

theorem numberedOps_cons (u : Thread) (us : List Thread) (mk : Thread → Op) (n : Nat) :
    numberedOps (u :: us) mk n = { mk u with id := n } :: numberedOps us mk (n + 1) := by
  simp only [numberedOps, List.mapIdx_cons, Nat.add_zero]
  congr 2
  funext i x
  rw [Nat.add_right_comm, Nat.add_assoc]

/-- The events of a list of operations numbered from `n`. -/
def numberedEvents (len : Nat) (ev : Nat → Instr) (n : Nat) : List Instr := (List.range len).map fun i => ev (n + i)

theorem numberedEvents_succ (len : Nat) (ev : Nat → Instr) (n : Nat) :
    numberedEvents (len + 1) ev n = ev n :: numberedEvents len ev (n + 1) := by
  simp only [numberedEvents, List.range_succ_eq_map, List.map_cons, List.map_map, Nat.add_zero]
  congr 2
  funext i
  simp only [Function.comp, Nat.succ_eq_add_one]
  rw [Nat.add_right_comm, Nat.add_assoc]

theorem sendAll_eq (us : List Thread) (mk : Thread → Op) (ev : Nat → Instr) (s : State) : sendAll us mk ev s =
    { s with
      threads := s.threads.map (notedAll (us.map mk)), ops := s.ops ++ numberedOps us mk s.nextId,
      agenda := s.agenda ++ numberedEvents us.length ev s.nextId, nextId := s.nextId + us.length } := by
  induction us generalizing s with
  | nil =>
    have hthreads : s.threads.map (notedAll []) = s.threads := List.map_id s.threads
    simp [sendAll, numberedOps, numberedEvents, hthreads]
  | cons u us ih =>
    have hthreads : (s.threads.map (noted (mk u))).map (notedAll (us.map mk)) = s.threads.map (notedAll ((u :: us).map mk)) := by
      rw [List.map_map]
      rfl
    show sendAll us mk ev (s.send (mk u) ev) = _
    rw [ih, numberedOps_cons, List.length_cons, numberedEvents_succ]
    simp only [send_ops, send_agenda, send_nextId]
    rw [← hthreads, List.append_assoc, List.append_assoc, Nat.add_assoc s.nextId 1, Nat.add_comm 1 us.length]
    rfl

/-- A word that sends one operation for each of some threads of its gang, and passes on. -/
theorem sends_sendAll {s : State} {us : List Thread} {mk : Thread → Op} (ev : Nat → Instr) (huid : ∀ u ∈ us, (mk u).uid = u.uid)
    (hgang : ∀ u ∈ us, u.uid ∈ s.gang) : Sends s (sendAll us mk ev s).advance us mk ev := by
  have hthreads : (sendAll us mk ev s).advance.threads =
      s.threads.map fun t => if t.uid ∈ s.gang then (notedAll (us.map mk) t).next else notedAll (us.map mk) t := by
    rw [sendAll_eq]
    simp [State.advance, State.modThreads]
  have hopGang : ∀ o ∈ us.map mk, o.uid ∈ s.gang := by
    intro o ho
    obtain ⟨u, hu, rfl⟩ := List.mem_map.mp ho
    rw [huid u hu]
    exact hgang u hu
  constructor
  case ops => rw [sendAll_eq]; rfl
  case agenda => rw [sendAll_eq]; rfl
  case nextId => rw [sendAll_eq]; rfl
  case rest => rw [sendAll_eq]; rfl
  case passed =>
    rw [EachThread, hthreads, List.forall₂_map_right_iff, List.forall₂_same]
    intro t _
    by_cases hg : t.uid ∈ s.gang
    · simp only [hg, if_true]
      refine ⟨?_, counts_next (counts_notedAll (us.map mk) t)⟩
      obtain ⟨fl, pv, pp, pf, n, q, hb⟩ := (onlyInFlight_notedAll (us.map mk) t).next
      exact ⟨fl, pv, pp, pf, n, q, by rw [hb]⟩
    · have hsame : notedAll (us.map mk) t = t := notedAll_of_forall_ne fun o ho hu => hg (hu ▸ hopGang o ho)
      simp only [hg, if_false, hsame]
  case held =>
    intro u hu b hb hbu r hr
    rw [hthreads] at hb
    obtain ⟨t, _, rfl⟩ := List.mem_map.mp hb
    have htu : t.uid = u.uid := by
      rw [← hbu]
      split <;> simp
    have hheld : r ∈ (notedAll (us.map mk) t).pendV :=
      mem_pendV_notedAll (.inr ⟨mk u, List.mem_map_of_mem hu, (huid u hu).trans htu.symm, hr⟩)
    split
    · rwa [next_pendV]
    · exact hheld

end Sys2Proof.Proofs
end

