-- ==== Sys2Proof/Proofs/Privileges.lean ====
section
/-! Privileged words (R41, R382) and `PEGARM` (R391, R392). -/

namespace Sys2Proof.Proofs

open Sys2Proof.Machine Sys2Proof.Says Sys2Proof.Laws

/-- An instruction that answers a trap of a gang outside trap mode. -/
theorem takesTrap_of_exec {i : Instr} {s : State} (hout : OutsideTrap s) (q : TrapReq) (mk : Option Word)
    (h : exec i s = .next (s.takeTrap { q with mask := mk })) : TakesTrap i s q (mk.getD (lanes s.gangThreads)) q.after :=
  ⟨_, h, tookTrap_takeTrap hout q mk⟩

/-! ### Words of trap and firmware mode -/

/-- A gang in neither trap nor firmware mode. -/
theorem privileged_eq_false {s : State} (hout : OutsideTrap s) (hfw : ∀ u ∈ s.gangThreads, s.firmware u = false) : s.privileged = false := by
  obtain ⟨hne, huser⟩ := hout
  obtain ⟨t, ht⟩ := List.exists_mem_of_ne_nil _ hne
  exact List.all_eq_false.mpr ⟨t, ht, by simp [huser t ht, hfw t ht]⟩

theorem exec_rft (f : FC) (s : State) : exec (.rft f) s = s.returnFromTrap := rfl

theorem exec_rft_user {s : State} (f : FC) (hout : OutsideTrap s) : exec (.rft f) s = .next (s.takeTrap (TrapReq.of 0x05)) := by
  obtain ⟨hne, huser⟩ := hout
  obtain ⟨t, ht⟩ := List.exists_mem_of_ne_nil _ hne
  rw [exec_rft, State.returnFromTrap, if_pos (List.any_eq_true.mpr ⟨t, ht, by simp [huser t ht]⟩)]
  rfl

theorem imageTrap_unprivileged {s : State} (h : s.privileged = false) (need : Thread → Bool) (a : BitVec 7) :
    s.imageTrap need a = some (TrapReq.of 0x05) := by
  simp [State.imageTrap, h, cPrivilege]

theorem exec_wspill_unprivileged {s : State} (f : FG1) (h : s.privileged = false) :
    exec (.wspill f) s = .next (s.takeTrap (TrapReq.of 0x05)) := by
  show execWspill f s = _
  rw [execWspill, imageTrap_unprivileged h]
  rfl

theorem exec_wfill_unprivileged {s : State} (f : FG1) (h : s.privileged = false) :
    exec (.wfill f) s = .next (s.takeTrap (TrapReq.of 0x05)) := by
  show execWfill f s = _
  rw [execWfill, imageTrap_unprivileged h]
  rfl

theorem exec_syswr_user {s : State} (f : FZS) (h : s.userWrites (s.executing f.pred) f.a = true) :
    exec (.syswr f) s = .next (s.takeTrap (TrapReq.of 0x05)) := by
  show execSyswr f s = _
  simp only [execSyswr, h, if_true]
  rfl

theorem mem_executing {s : State} {p : BitVec 3} {t : Thread} : t ∈ s.executing p ↔ t ∈ s.gangThreads ∧ t.p p = true := List.mem_filter

theorem claims_privilegedWords : Claims.PrivilegedWords := by
  intro s r g w hout hfw
  have huser := privileged_eq_false hout hfw
  refine ⟨takesTrap_of_exec hout _ none (exec_rft_user r hout), takesTrap_of_exec hout _ none (exec_wspill_unprivileged g huser),
    takesTrap_of_exec hout _ none (exec_wfill_unprivileged g huser), ?_⟩
  rintro ⟨u, hu, hnum⟩
  refine takesTrap_of_exec hout _ none (exec_syswr_user w (List.any_eq_true.mpr ⟨u, hu, ?_⟩))
  obtain ⟨hgang, -⟩ := mem_executing.mp hu
  simp [hout.2 u hgang, hfw u hgang, hnum]

/-! ### PEGARM -/

theorem mayPeg_iff {s : State} : s.mayPeg = true ↔
    ∀ v ∈ s.gangThreads, s.firmware v = true ∨ ∃ c, s.ctx (s.ctxOf v.tid) = some c ∧ c.dbg ≠ none := by
  rw [State.mayPeg, List.all_eq_true]
  refine forall₂_congr fun v _ => ?_
  rw [Bool.or_eq_true]
  refine or_congr Iff.rfl ?_
  cases s.ctx (s.ctxOf v.tid) with
  | none => simp
  | some c => simp [Option.isSome_iff_ne_none]

theorem exec_pegarm_refused {s : State} (f : FZ) (h : s.mayPeg = false) : exec (.pegarm f) s = .next (s.takeTrap (TrapReq.of 0x05)) := by
  show execPegarm f s = _
  rw [execPegarm, h]
  rfl

theorem exec_pegarm_none {s : State} {f : FZ} (h : s.mayPeg = true) (hexec : s.executing f.pred = []) :
    exec (.pegarm f) s = .next s.advance := by
  show execPegarm f s = _
  rw [execPegarm, h, hexec]
  rfl

/-- One thread arms the peg, disarms it or is refused, and is answered. -/
theorem exec_pegarm_one {s : State} {f : FZ} {u : Thread} (h : s.mayPeg = true) (hexec : s.executing f.pred = [u]) :
    exec (.pegarm f) s =
      let r := armPeg s.tick (s.srcPair u f.a).toNat s.peg
      .next (sendAll [u] (fun _ => answer s u f.fb f.dst [r.2]) .loadReturn
        { s with peg := r.1, pegArmed := if r.2 = 0 then some s.tick else s.pegArmed }).advance := by
  show execPegarm f s = _
  rw [execPegarm, h, hexec]
  simp only [List.foldl_cons, List.foldl_nil, beq_iff_eq]
  rfl

theorem sends_pegarm {s : State} {f : FZ} {u : Thread} (h : s.mayPeg = true) (hexec : s.executing f.pred = [u]) (peg : Option Nat) (w : Word)
    (hr : armPeg s.tick (s.srcPair u f.a).toNat s.peg = (peg, w)) : ∃ t, exec (.pegarm f) s = .next t ∧
      Sends { s with peg := peg, pegArmed := if w = 0 then some s.tick else s.pegArmed } t [u]
        (fun _ => answer s u f.fb f.dst [w]) .loadReturn := by
  refine ⟨_, exec_pegarm_one h hexec, ?_⟩
  rw [hr]
  have hu : u ∈ s.executing f.pred := by rw [hexec]; exact List.mem_singleton.mpr rfl
  obtain ⟨hgang, -⟩ := mem_executing.mp hu
  refine sends_sendAll _ (fun v hv => ?_) (fun v hv => ?_)
  · rw [List.mem_singleton.mp hv]
    rfl
  · rw [List.mem_singleton.mp hv]
    exact (mem_gangThreads.mp hgang).2

theorem armPeg_zero (tick : Nat) (peg : Option Nat) : armPeg tick 0 peg = (none, 0) := rfl

theorem armPeg_near {tick T : Nat} (peg : Option Nat) (h : T ≠ 0) (hnear : T ≤ tick + 16) : armPeg tick T peg = (peg, 1) := by
  simp [armPeg, h, hnear]

theorem armPeg_far {tick T : Nat} (peg : Option Nat) (hfar : tick + 16 < T) : armPeg tick T peg = (some T, 0) := by
  simp [armPeg, show T ≠ 0 by omega, Nat.not_le.mpr hfar]

theorem claims_pegArms : Claims.PegArms := by
  intro f s
  refine ⟨fun hout hheld => ?_, fun hheld hexec => ?_, fun u hexec hheld => ?_⟩
  · exact takesTrap_of_exec hout _ none (exec_pegarm_refused f (Bool.eq_false_iff.mpr fun h => hheld (mayPeg_iff.mp h)))
  · exact ⟨_, exec_pegarm_none (mayPeg_iff.mpr hheld) hexec, advance_pass s⟩
  · have h := mayPeg_iff.mpr hheld
    refine ⟨fun hT => ?_, fun hT hnear => ?_, fun hfar => ?_⟩
    · exact sends_pegarm h hexec _ _ (by rw [hT, armPeg_zero])
    · exact sends_pegarm h hexec _ _ (armPeg_near s.peg hT hnear)
    · exact sends_pegarm h hexec _ _ (armPeg_far s.peg hfar)

/-- Settles O23. -/
theorem privileges : Obligations.Privileges := by
  unfold Obligations.Privileges
  exact ⟨claims_privilegedWords, claims_pegArms⟩

end Sys2Proof.Proofs
end

