-- ==== Sys2Proof/Proofs/SpecialFunctions.lean ====
section
/-! The special functions: their issue and the landing of their results (R34, R109), their special operands and the ranges of their results
(R110, Tables 5.9 and 5.10). -/

namespace Sys2Proof.Proofs

open Sys2Proof.Machine Sys2Proof.Says Sys2Proof.Laws

/-! ### Issue -/

/-- The operation in flight of one thread. -/
def sfuOp (s : State) (f : F2) (fn : Bool → Word → Word × BitVec 6) (u : Thread) : Op :=
  let r := fn ((s.mode u).getLsbD 2) (s.src u f.a)
  { s.opOf u .sfu 15 with regs := [vAt s u f.dst], args := [r.1], aop := r.2.toNat }

theorem startSfu_eq (s : State) (f : F2) (fn : Bool → Word → Word × BitVec 6) :
    s.startSfu f fn = (sendAll (s.executing f.pred) (sfuOp s f fn) .sfuResult s).advance := rfl

theorem exec_sfu {e : (F2 → Instr) × (Bool → Word → Word × BitVec 6)} (he : e ∈ table59) (f : F2) (s : State) :
    exec (e.1 f) s = .next (s.startSfu f e.2) := by
  simp only [table59, List.mem_cons, List.not_mem_nil, or_false] at he
  rcases he with rfl | rfl | rfl | rfl | rfl | rfl <;> rfl

theorem executing_uid_mem {s : State} {p : BitVec 3} {u : Thread} (h : u ∈ s.executing p) : u.uid ∈ s.gang :=
  (mem_gangThreads.mp (mem_executing.mp h).1).2

theorem claims_specialFunctionIssue : Claims.SpecialFunctionIssue := by
  intro e he f s
  refine ⟨_, exec_sfu he f s, ?_⟩
  rw [startSfu_eq]
  exact sends_sendAll _ (fun _ _ => rfl) fun _ hu => executing_uid_mem hu

/-! ### The end of an operation -/

theorem op_id {s : State} {id : Nat} {o : Op} (h : s.op id = some o) : o.id = id := by
  simpa using List.find?_some h

/-- The operation is over, and every other one in flight is as before. -/
theorem op_filter (s : State) (id : Nat) (ops : List Op) (h : ops = s.ops.filter fun x => x.id != id) :
    ops.find? (fun o => o.id == id) = none ∧ ∀ j, j ≠ id → ops.find? (fun o => o.id == j) = s.op j := by
  subst h
  refine ⟨?_, fun j hj => ?_⟩
  · rw [List.find?_eq_none]
    intro x hx
    simpa using (List.mem_filter.mp hx).2
  · rw [List.find?_filter, State.op]
    congr 1
    funext x
    by_cases hx : x.id = j <;> simp [hx, hj]

/-- What the end of an operation makes of its thread. -/
def ended (o : Op) (t : Thread) : Thread :=
  { t.finish o.sel with
    pendV := t.pendV.diff o.regs, pendP := t.pendP.diff o.preg.toList, pendF := if o.kind == .sfu then t.pendF - 1 else t.pendF,
    acqOut := if o.kind == .sqacq then t.acqOut - 1 else t.acqOut }

/-- The rest of the thread stays. -/
theorem ended_rest (o : Op) (t : Thread) : (ended o t).fstat = t.fstat ∧ (ended o t).preds = t.preds ∧ (ended o t).pkt = t.pkt ∧
    (ended o t).word = t.word ∧ (ended o t).outs = t.outs - 1 ∧ (ended o t).pendF = if o.kind == .sfu then t.pendF - 1 else t.pendF :=
  ⟨rfl, rfl, rfl, rfl, rfl, rfl⟩

theorem reg_ended (o : Op) (t : Thread) (m : Nat) : reg (ended o t) m = reg t m := rfl

theorem finish_eq (s : State) (o : Op) : s.finish o =
    { s with threads := s.threads.map fun t => if t.uid == o.uid then ended o t else t, ops := s.ops.filter fun x => x.id != o.id } := rfl

@[simp] theorem setPhysList_uid (ns : List Nat) (xs : List Word) (t : Thread) : (t.setPhysList ns xs).uid = t.uid := by
  induction ns generalizing xs t with
  | nil => rfl
  | cons n ns ih =>
    cases xs with
    | nil => rfl
    | cons x xs => exact (ih xs (t.setPhys n x)).trans rfl

/-- What the result makes of its thread. -/
def sfuWritten (o : Op) (t : Thread) : Thread := ended o ((t.setPhysList o.regs o.args).orFlags (BitVec.ofNat 6 o.aop))

/-- The groups once the result has come: one that is the thread's has made progress where the register changes. -/
def sfuGroups (s : State) (o : Op) : List Group :=
  match s.thread o.uid with
  | some u => if u.wouldChange o.regs o.args then (s.groupProgress u).groups else s.groups
  | none => s.groups

theorem exec_sfuResult {s : State} {id : Nat} {o : Op} (h : s.op id = some o) : exec (.sfuResult id) s =
    .next { s with
      groups := sfuGroups s o, threads := s.threads.map fun t => if t.uid == o.uid then sfuWritten o t else t
      ops := s.ops.filter fun x => x.id != id } := by
  have hthreads : ((s.threads.map fun t => if t.uid == o.uid then (t.setPhysList o.regs o.args).orFlags (BitVec.ofNat 6 o.aop) else t).map
      fun t => if t.uid == o.uid then ended o t else t) = s.threads.map fun t => if t.uid == o.uid then sfuWritten o t else t := by
    rw [List.map_map]
    refine List.map_congr_left fun t _ => ?_
    by_cases hu : t.uid = o.uid
    · have hwritten : ((t.setPhysList o.regs o.args).orFlags (BitVec.ofNat 6 o.aop)).uid = o.uid := by simpa [Thread.orFlags] using hu
      simp [hu, hwritten, sfuWritten]
    · simp [hu]
  show execSfuResult id s = _
  rw [execSfuResult, h]
  dsimp only
  rw [finish_eq, op_id h, modThread_threads]
  unfold sfuGroups
  cases s.thread o.uid with
  | none => rw [← hthreads]; rfl
  | some u =>
    dsimp only
    split
    · rw [← hthreads]; rfl
    · rw [← hthreads]; rfl

/-- Only its mark of progress can have changed in a group, and it is set in the groups of the thread whose register changes. -/
theorem sfuGroups_progress {s : State} {o : Op} {n : Nat} {x : Word} (hregs : o.regs = [n]) (hargs : o.args = [x]) :
    List.Forall₂ (fun g h => (∃ v, h = { g with progress := v }) ∧
      (h.progress = true ↔ g.progress = true ∨ ∃ u, s.thread o.uid = some u ∧ s.gidOf u = g.gid ∧ reg u n ≠ x)) s.groups (sfuGroups s o) := by
  have hchange (u : Thread) : u.wouldChange o.regs o.args = true ↔ reg u n ≠ x := by
    rw [hregs, hargs]
    simp [Thread.wouldChange, reg]
  unfold sfuGroups
  cases hu : s.thread o.uid with
  | none =>
    rw [List.forall₂_same]
    exact fun g _ => ⟨⟨g.progress, rfl⟩, by simp⟩
  | some u =>
    dsimp only
    split
    · next hc =>
      simp only [State.groupProgress, modGroup_groups]
      rw [List.forall₂_map_right_iff, List.forall₂_same]
      intro g _
      by_cases hg : g.gid = s.gidOf u
      · have hne := (hchange u).mp hc
        exact ⟨⟨true, by simp [hg]⟩, by simp [hg, hne]⟩
      · exact ⟨⟨g.progress, by simp [hg]⟩, by simp [hg, Ne.symm hg]⟩
    · next hc =>
      have heq : reg u n = x := by simpa [hchange] using hc
      rw [List.forall₂_same]
      exact fun g _ => ⟨⟨g.progress, rfl⟩, by simp [heq]⟩

theorem claims_specialFunctionResult : Claims.SpecialFunctionResult := by
  intro id n fl x o s ho hkind hregs hargs haop
  obtain ⟨hover, hothers⟩ := op_filter s id _ rfl
  refine ⟨_, exec_sfuResult ho, hover, rfl, hothers, sfuGroups_progress hregs hargs, ?_⟩
  rw [List.forall₂_map_right_iff, List.forall₂_same]
  intro t _
  by_cases hu : t.uid = o.uid
  · have hwritten : sfuWritten o t = ended o ((t.setPhys n x).orFlags (BitVec.ofNat 6 fl)) := by
      rw [sfuWritten, hregs, hargs, haop]
      rfl
    have hreg (m : Nat) : reg (sfuWritten o t) m = if n = m then x else reg t m := by
      rw [hwritten, reg_ended]
      exact reg_setPhys t n m x
    rw [if_pos hu, if_pos (by simpa using hu)]
    refine ⟨by simp [hreg], fun m hm => by simp [hreg, Ne.symm hm], ?_⟩
    obtain ⟨hfstat, hpreds, hpkt, hword, houts, hpendF⟩ := ended_rest o ((t.setPhys n x).orFlags (BitVec.ofNat 6 fl))
    rw [hwritten, hfstat, hpreds, hpkt, hword, houts, hpendF]
    exact ⟨rfl, rfl, rfl, rfl, rfl, by simp [hkind, Thread.setPhys, Thread.orFlags]⟩
  · rw [if_neg hu, if_neg (by simpa using hu)]

/-! ### Special operands -/

theorem claims_specialFunctionOperands : Claims.SpecialFunctionOperands := by
  unfold Claims.SpecialFunctionOperands
  decide +kernel

/-! ### Ranges -/

/-- A code that reads as a NaN is no subnormal number. -/
theorem subnormal_of_nan {c : Nat} {b : Bool} (h : F32.read c = .nan b) : F32.subnormal c = false := by
  by_contra hsub
  obtain ⟨-, hlow⟩ : c % F32.signBit ≠ 0 ∧ c % F32.signBit < 2 ^ F32.mbits := by simpa [Fmt.subnormal] using hsub
  have hexp : c % F32.signBit / 2 ^ F32.mbits = 0 := Nat.div_eq_of_lt hlow
  have hfin : F32.read c = .fin (c / F32.signBit % 2 == 1) (c % F32.signBit % 2 ^ F32.mbits) F32.emin := by
    simp only [Fmt.read, hexp]
    rfl
  rw [hfin] at h
  cases h

/-- Flushing leaves a NaN as it is. -/
theorem readFtz_nan {c : Nat} {b : Bool} (ftz : Bool) (h : F32.read c = .nan b) : F32.readFtz ftz c = .nan b := by
  rw [Fmt.readFtz, subnormal_of_nan h, Bool.and_false]
  exact h

theorem readFtz_ne_nan {c : Nat} (ftz : Bool) (h : ∀ b, F32.read c ≠ .nan b) (b : Bool) : F32.readFtz ftz c ≠ .nan b := by
  unfold Fmt.readFtz
  split
  · exact FVal.noConfusion
  · exact h b

/-- A NaN gives the canonical one. -/
theorem sfu_nan {g : Bool → Word → Word × BitVec 6} (hg : g ∈ [sfuRcp, sfuRsq, sfuSqrt, sfuExp2, sfuLog2, sfuTanh]) (ftz : Bool) {x : Word}
    {b : Bool} (h : F32.read x.toNat = .nan b) : g ftz x = (0x7FC00000, if b then 1 else 0) := by
  have hread := readFtz_nan ftz h
  simp only [List.mem_cons, List.not_mem_nil, or_false] at hg
  rcases hg with rfl | rfl | rfl | rfl | rfl | rfl
  · rw [sfuRcp, hread]; rfl
  · rw [sfuRsq, hread]; rfl
  · rw [sfuSqrt, hread]; rfl
  · rw [sfuExp2, hread]; rfl
  · rw [sfuLog2, hread]; rfl
  · rw [sfuTanh, hread]; rfl

/-- Negative numbers have no root and no logarithm. -/
theorem sfu_negative {g : Bool → Word → Word × BitVec 6} (hg : g ∈ [sfuRsq, sfuSqrt, sfuLog2]) {ftz : Bool} {x : Word} {m : Nat} {e : Int}
    (h : F32.readFtz ftz x.toNat = .fin true (m + 1) e) : g ftz x = (0x7FC00000, 1) := by
  simp only [List.mem_cons, List.not_mem_nil, or_false] at hg
  rcases hg with rfl | rfl | rfl
  · rw [sfuRsq, h]; rfl
  · rw [sfuSqrt, h]; rfl
  · rw [sfuLog2, h]; rfl

/-- `NV`, `DZ` and `OF` are the flags that a special function keeps of its rounding. -/
theorem sfuFlags_and (f : BitVec 6) : sfuFlags f &&& 0b111000 = 0 := by
  rw [sfuFlags, BitVec.and_assoc, show (fNV ||| fDZ ||| fOF) &&& 0b111000 = 0#6 by decide, BitVec.and_zero]
  rfl

theorem word32_and (c : Nat) {fl : BitVec 6} (h : fl &&& 0b111000 = 0) : (word32 (c, fl)).2 &&& 0b111000 = 0 := h

theorem nanFlag_and (b : Bool) : (if b then fNV else 0) &&& 0b111000 = 0#6 := by cases b <;> rfl

theorem sfuRcp_flags (ftz : Bool) (x : Word) : (sfuRcp ftz x).2 &&& 0b111000 = 0 := by
  unfold sfuRcp
  split
  · exact word32_and _ (nanFlag_and _)
  · exact word32_and _ rfl
  · exact word32_and _ rfl
  · exact word32_and _ (sfuFlags_and _)

theorem sfuSqrt_flags (ftz : Bool) (x : Word) : (sfuSqrt ftz x).2 &&& 0b111000 = 0 := by
  unfold sfuSqrt
  split
  · exact word32_and _ (nanFlag_and _)
  · next neg _ => cases neg <;> rfl
  · exact word32_and _ rfl
  · exact word32_and _ rfl
  · exact word32_and _ (sfuFlags_and _)

theorem sfuRsq_flags (ftz : Bool) (x : Word) : (sfuRsq ftz x).2 &&& 0b111000 = 0 := by
  unfold sfuRsq
  split
  · exact word32_and _ (nanFlag_and _)
  · next neg _ => cases neg <;> rfl
  · exact word32_and _ rfl
  · exact word32_and _ rfl
  · exact word32_and _ rfl

theorem sfuExp2_flags (ftz : Bool) (x : Word) : (sfuExp2 ftz x).2 &&& 0b111000 = 0 := by
  unfold sfuExp2
  split
  · exact word32_and _ (nanFlag_and _)
  · exact word32_and _ rfl
  · exact word32_and _ rfl
  · dsimp only
    split
    · exact word32_and _ rfl
    · split
      · exact word32_and _ rfl
      · split
        · exact word32_and _ rfl
        · exact word32_and _ rfl

theorem sfuLog2_flags (ftz : Bool) (x : Word) : (sfuLog2 ftz x).2 &&& 0b111000 = 0 := by
  unfold sfuLog2
  split
  · exact word32_and _ (nanFlag_and _)
  · next neg _ => cases neg <;> rfl
  · exact word32_and _ rfl
  · exact word32_and _ rfl
  · split
    · exact word32_and _ rfl
    · exact word32_and _ rfl

theorem sfuTanh_flags (ftz : Bool) (x : Word) : (sfuTanh ftz x).2 &&& 0b111000 = 0 := by
  unfold sfuTanh
  split
  · exact word32_and _ (nanFlag_and _)
  · exact word32_and _ rfl
  · exact word32_and _ rfl
  · split
    · exact word32_and _ rfl
    · exact word32_and _ rfl

theorem sfu_flags {g : Bool → Word → Word × BitVec 6} (hg : g ∈ [sfuRcp, sfuRsq, sfuSqrt, sfuExp2, sfuLog2, sfuTanh]) (ftz : Bool) (x : Word) :
    (g ftz x).2 &&& 0b111000 = 0 := by
  simp only [List.mem_cons, List.not_mem_nil, or_false] at hg
  rcases hg with rfl | rfl | rfl | rfl | rfl | rfl
  · exact sfuRcp_flags ftz x
  · exact sfuRsq_flags ftz x
  · exact sfuSqrt_flags ftz x
  · exact sfuExp2_flags ftz x
  · exact sfuLog2_flags ftz x
  · exact sfuTanh_flags ftz x

/-! ### TANH does not pass 1 -/

theorem foldl_pick_mem {p : Nat → Bool} (os : List Nat) (r : Nat) :
    os.foldl (fun r o => if p o then o else r) r = r ∨ os.foldl (fun r o => if p o then o else r) r ∈ os := by
  induction os generalizing r with
  | nil => exact .inl rfl
  | cons o os ih =>
    rw [List.foldl_cons]
    rcases ih (if p o then o else r) with h | h
    · rw [h]
      split
      · exact .inr List.mem_cons_self
      · exact .inl rfl
    · exact .inr (List.mem_cons_of_mem o h)

/-- The code that a part chooses is one that its bound admits, or a zero. -/
theorem chosen_admitted (fn key : Nat) (ok : Nat → Bool) : chosen fn key ok = 0 ∨ ok (chosen fn key ok) = true := by
  unfold chosen
  dsimp only
  generalize hos : (List.range (2 * F32.signBit)).filter (fun o => ok (f32At o)) = os
  have hadmits : ∀ o ∈ os, ok (f32At o) = true := by
    intro o ho
    rw [← hos] at ho
    exact (List.mem_filter.mp ho).2
  have hpick := foldl_pick_mem (p := fun o => decide (Config.sfuFrom fn o ≤ key)) os (os.headD F32.signBit)
  simp only [decide_eq_true_eq] at hpick
  rcases hpick with h | h
  · rw [h]
    cases os with
    | nil => exact .inl (by decide)
    | cons o r => exact .inr (hadmits o List.mem_cons_self)
  · exact .inr (hadmits _ h)

theorem intCode_one : intCode 1 = 0x3F800000 := by decide +kernel

theorem tanhOk_le_one {m : Nat} {e : Int} {c : Nat} (h : tanhOk m e c = true) : c ≤ 0x3F800000 := by
  unfold tanhOk at h
  split at h
  · dsimp only at h
    rw [intCode_one, Bool.and_eq_true, decide_eq_true_eq] at h
    exact h.1
  · cases h

/-- A code of either sign whose magnitude is no more than that of 1. -/
def AtMostOne (c : Nat) : Prop := ∃ neg k, c = F32.signed neg k ∧ k ≤ 0x3F800000

theorem AtMostOne.word {c : Nat} (h : AtMostOne c) (fl : BitVec 6) : ((word32 (c, fl)).1 &&& 0x7FFFFFFF).toNat ≤ 0x3F800000 := by
  obtain ⟨neg, k, rfl, hk⟩ := h
  have hmask : (0x7FFFFFFF : Word).toNat = 2 ^ 31 - 1 := by decide
  rw [word32, BitVec.toNat_and, hmask, Nat.and_two_pow_sub_one_eq_mod, BitVec.toNat_ofNat]
  cases neg <;> simp [Fmt.signed, Fmt.zero, Fmt.signBit, F32] <;> omega

theorem AtMostOne.flush {c : Nat} (h : AtMostOne c) (ftz : Bool) : AtMostOne (sfuFlush ftz c) := by
  unfold sfuFlush
  split
  · exact ⟨_, 0, rfl, Nat.zero_le _⟩
  · exact h

theorem sfuTanh_le_one {ftz : Bool} {x : Word} (h : ∀ b, F32.read x.toNat ≠ .nan b) :
    ((sfuTanh ftz x).1 &&& 0x7FFFFFFF).toNat ≤ 0x3F800000 := by
  unfold sfuTanh
  split
  · next hnan => exact absurd hnan (readFtz_ne_nan ftz h _)
  · next neg _ => exact AtMostOne.word ⟨neg, _, rfl, intCode_one.le⟩ _
  · next neg _ _ => exact AtMostOne.word ⟨neg, 0, rfl, Nat.zero_le _⟩ _
  · next neg m e _ _ =>
    split
    · exact AtMostOne.word ⟨neg, _, rfl, intCode_one.le⟩ _
    · refine AtMostOne.word (AtMostOne.flush ⟨neg, _, rfl, ?_⟩ ftz) _
      rcases chosen_admitted 5 (x.toNat % F32.signBit) (tanhOk m e) with hz | hok
      · rw [hz]; exact Nat.zero_le _
      · exact tanhOk_le_one hok

theorem claims_specialFunctionBounds : Claims.SpecialFunctionBounds := by
  intro ftz x
  exact ⟨fun g hg => ⟨fun b hb => sfu_nan hg ftz hb, sfu_flags hg ftz x⟩, fun m e h g hg => sfu_negative hg h, sfuTanh_le_one⟩

/-- Settles O17. -/
theorem specialFunctions : Obligations.SpecialFunctions := by
  unfold Obligations.SpecialFunctions
  exact ⟨claims_specialFunctionIssue, claims_specialFunctionResult, claims_specialFunctionOperands, claims_specialFunctionBounds⟩

end Sys2Proof.Proofs
end

