-- ==== Sys2Proof/Proofs/BankAtomics.lean ====
section
/-! Atomics of the banked spaces: the values of Table 2.10 (R44, R139), what a gang's atomics do (R139), and the traps of an access
(R122, R239). -/

namespace Sys2Proof.Proofs

open Sys2Proof.Machine Sys2Proof.Says Sys2Proof.Laws

/-! ### Values -/

theorem leNat_append (xs ys : List Byte) : leNat (xs ++ ys) = leNat xs + 256 ^ xs.length * leNat ys := by
  induction xs with
  | nil => simp [leNat]
  | cons x r ih => simp only [List.cons_append, leNat, ih, List.length_cons]; ring

theorem leNat_bytesOf_nil : leNat (bytesOf []) = 0 := rfl

theorem leNat_bytesOf_cons (w : Word) (ws : List Word) : leNat (bytesOf (w :: ws)) = w.toNat + 2 ^ 32 * leNat (bytesOf ws) := by
  have hw := w.isLt
  show leNat (natLe 4 w.toNat ++ bytesOf ws) = _
  rw [leNat_append, leNat_natLe, natLe_length, Nat.mod_eq_of_lt (by omega)]
  norm_num

/-- One register holds its word. -/
theorem leNat_bytesOf_one (w : Word) : leNat (bytesOf [w]) = w.toNat := by
  rw [leNat_bytesOf_cons, leNat_bytesOf_nil]
  omega

/-- A pair holds a number of 64 bits, the low word first. -/
theorem leNat_bytesOf_pair (x : BitVec 64) : leNat (bytesOf [x.setWidth 32, x.extractLsb' 32 32]) = x.toNat := by
  have hx := x.isLt
  rw [leNat_bytesOf_cons, leNat_bytesOf_one]
  simp only [BitVec.toNat_setWidth, BitVec.extractLsb'_toNat, Nat.shiftRight_eq_div_pow]
  omega

theorem sext_toNat {n : Nat} (x : BitVec n) (hn : 0 < n) : sext x.toNat n = x.toInt := by
  obtain ⟨k, rfl⟩ : ∃ k, n = k + 1 := ⟨n - 1, by omega⟩
  have hx := x.isLt
  have hpow : 2 ^ (k + 1) = 2 * 2 ^ k := by ring
  rw [sext, Nat.mod_eq_of_lt hx, BitVec.toInt_eq_toNat_cond, Nat.add_sub_cancel]
  by_cases h : x.toNat < 2 ^ k
  · rw [if_pos h, if_pos (by omega)]
  · rw [if_neg h, if_neg (by omega)]

/-- The integer atomics at any width that a register or a pair holds. -/
theorem atomicNew_eq {n : Nat} (hn : 0 < n) (h64 : n ≤ 64) (aop : Nat) (old op : BitVec n) (haop : aop ≤ 8) :
    atomicNew aop n old.toNat op.toNat = (atomicTo n aop old op).toNat := by
  have hwide (x : BitVec n) : (BitVec.ofNat 64 x.toNat).toNat = x.toNat := by
    rw [BitVec.toNat_ofNat]
    exact Nat.mod_eq_of_lt (lt_of_lt_of_le x.isLt (Nat.pow_le_pow_right (by decide) h64))
  interval_cases aop
  · exact (BitVec.toNat_add old op).symm
  · simp only [atomicNew, atomicTo, sext_toNat _ hn, BitVec.sle, decide_eq_true_eq]
    split <;> rfl
  · simp only [atomicNew, atomicTo, sext_toNat _ hn, BitVec.sle, decide_eq_true_eq]
    split <;> rfl
  · simp only [atomicNew, atomicTo, BitVec.le_def, Nat.min_def]
    split <;> rfl
  · simp only [atomicNew, atomicTo, BitVec.le_def, Nat.max_def]
    split <;> rfl
  · simp only [atomicNew, atomicTo, BitVec.toNat_and, hwide]
  · simp only [atomicNew, atomicTo, BitVec.toNat_or, hwide]
  · simp only [atomicNew, atomicTo, BitVec.toNat_xor, hwide]
  · rfl

/-- An atomic of one operand register. -/
theorem atomicResult_word {aop : Nat} (haop : aop ≠ 9) (old : Nat) (op : Word) : atomicResult aop 32 old [op] = atomicNew aop 32 old op.toNat := by
  rw [atomicResult, if_neg (by simpa using haop), ← leNat_bytesOf_one op]
  rfl

/-- An atomic of one operand pair. -/
theorem atomicResult_wide {aop : Nat} (haop : aop ≠ 9) (old : Nat) (op : BitVec 64) :
    atomicResult aop 64 old [op.setWidth 32, op.extractLsb' 32 32] = atomicNew aop 64 old op.toNat := by
  rw [atomicResult, if_neg (by simpa using haop)]
  exact congrArg (atomicNew aop 64 old) (leNat_bytesOf_pair op)

/-- `CAS` on a register. -/
theorem atomicResult_cas (old cmp new : Word) : atomicResult 9 32 old.toNat [cmp, new] = if old = cmp then new.toNat else old.toNat := by
  show (if old.toNat == leNat (bytesOf [cmp]) then leNat (bytesOf [new]) else old.toNat) = _
  rw [leNat_bytesOf_one, leNat_bytesOf_one]
  simp only [beq_iff_eq, BitVec.toNat_inj]

/-- `CAS` on a pair. -/
theorem atomicResult_casWide (old cmp new : BitVec 64) :
    atomicResult 9 64 old.toNat [cmp.setWidth 32, cmp.extractLsb' 32 32, new.setWidth 32, new.extractLsb' 32 32] =
      if old = cmp then new.toNat else old.toNat := by
  show (if old.toNat == leNat (bytesOf [cmp.setWidth 32, cmp.extractLsb' 32 32]) then
    leNat (bytesOf [new.setWidth 32, new.extractLsb' 32 32]) else old.toNat) = _
  rw [leNat_bytesOf_pair, leNat_bytesOf_pair]
  simp only [beq_iff_eq, BitVec.toNat_inj]

theorem atomicNew_float (old op : Word) : atomicNew 10 32 old.toNat op.toNat = (F32.add 0 false old.toNat op.toNat).1 % 2 ^ 32 := by
  show (word32 (F32.add 0 false (BitVec.ofNat 32 old.toNat).toNat (BitVec.ofNat 32 op.toNat).toNat)).1.toNat = _
  rw [BitVec.ofNat_toNat, BitVec.ofNat_toNat, BitVec.setWidth_eq, BitVec.setWidth_eq, word32, BitVec.toNat_ofNat]

theorem half_low (w : Word) : (half w 0).toNat = w.toNat % 65536 := by
  simp [half]

theorem half_high (w : Word) : (half w 1).toNat = w.toNat / 65536 := by
  have hw := w.isLt
  simp only [half, BitVec.extractLsb'_toNat, Nat.shiftRight_eq_div_pow]
  omega

theorem atomicNew_halves (old op : Word) : atomicNew 11 32 old.toNat op.toNat =
    (BF16.add 0 false (old.toNat % 65536) (op.toNat % 65536)).1 % 65536 +
      65536 * ((BF16.add 0 false (old.toNat / 65536) (op.toNat / 65536)).1 % 65536) := by
  show (faddPacked BF16 0 (BitVec.ofNat 32 old.toNat) (BitVec.ofNat 32 op.toNat)).1.toNat = _
  have hmode : modeRm 0 = 0 ∧ ftzOf BF16 0 = false := by decide
  rw [BitVec.ofNat_toNat, BitVec.ofNat_toNat, BitVec.setWidth_eq, BitVec.setWidth_eq, faddPacked, hmode.1, hmode.2]
  simp only [packed, half_low, half_high, BitVec.toNat_append, BitVec.toNat_ofNat]
  rw [← Nat.shiftLeft_add_eq_or_of_lt (Nat.mod_lt _ (by decide)), Nat.shiftLeft_eq]
  omega

theorem claims_atomicValues : Claims.AtomicValues := by
  refine ⟨fun aop old op haop => ?_, fun aop old op haop => ?_, atomicResult_cas, atomicResult_casWide, fun old op => ?_, fun old op => ?_⟩
  · rw [atomicResult_word (by omega), atomicNew_eq (by decide) (by decide) aop old op haop]
  · rw [atomicResult_wide (by omega), atomicNew_eq (by decide) (by decide) aop old op haop]
  · rw [atomicResult_word (by decide), atomicNew_float]
  · rw [atomicResult_word (by decide), atomicNew_halves]

/-! ### Traps -/

theorem bankReq_one (s : State) (space : Nat) (a : BitVec 7) (off kind c : Nat) (u : Thread) (cause : Thread → Nat) (hc : cause u = c) :
    s.bankReq space a off [u] cause kind =
      some { TrapReq.of c with kind := kind, mask := some (lanes [u]), space := space, addr := BitVec.ofNat 64 ((s.src u a).toNat + off) } := by
  rw [← laneMask_eq_lanes, ← hc]
  rfl

/-- What is checked of one thread's alignment: in cluster space the place in the core's scratch. -/
theorem low_mod {size ea : Nat} (hd : size ∣ 2 ^ 22) (space : Nat) : (if space == 3 then ea % 2 ^ 22 else ea) % size = ea % size := by
  split
  · exact Nat.mod_mod_of_dvd ea hd
  · rfl

/-- The cause that the bound checks find in one thread. -/
def boundCause (s : State) (space : Nat) (a : BitVec 7) (off size : Nat) (u : Thread) : Nat :=
  if ((s.src u a).toNat + off) % size ≠ 0 then 0x06 else if s.bankLocs space u a off size = none then 0x07 else 0

theorem boundTrap_eq {s : State} {space : Nat} {us : List Thread} {a : BitVec 7} {off size : Nat} (hd : size ∣ 2 ^ 22) :
    s.boundTrap space us a off size =
      s.bankReq space a off (us.filter fun u => boundCause s space a off size u != 0) (boundCause s space a off size) 0 := by
  have hcause : (fun u => if (if space == 3 then s.bankEa space u a off % 2 ^ 22 else s.bankEa space u a off) % size != 0 then 0x06
      else if (s.bankLocs space u a off size).isNone then 0x07 else 0) = boundCause s space a off size := by
    funext u
    rw [low_mod hd]
    simp only [boundCause, State.bankEa, bne_iff_ne, Option.isNone_iff_eq_none]
  rw [← hcause]
  rfl

theorem boundTrap_one {s : State} {space : Nat} {a : BitVec 7} {off size : Nat} {u : Thread} (hd : size ∣ 2 ^ 22) :
    s.boundTrap space [u] a off size = if boundCause s space a off size u = 0 then none else
      some { TrapReq.of (boundCause s space a off size u) with
        mask := some (lanes [u]), space := space, addr := BitVec.ofNat 64 ((s.src u a).toNat + off) } := by
  rw [boundTrap_eq hd, List.filter_cons, List.filter_nil]
  by_cases h : boundCause s space a off size u = 0
  · rw [if_neg (by simp [h]), if_pos h]
    rfl
  · rw [if_pos (by simpa using h), if_neg h]
    exact bankReq_one _ _ _ _ _ _ _ _ rfl

theorem bankTrap_misaligned {s : State} {space : Nat} {a : BitVec 7} {off size : Nat} {u : Thread} (hd : size ∣ 2 ^ 22)
    (h : ((s.src u a).toNat + off) % size ≠ 0) : s.bankTrap space [u] a off size =
      some { TrapReq.of 0x06 with mask := some (lanes [u]), space := space, addr := BitVec.ofNat 64 ((s.src u a).toNat + off) } := by
  have hcause : boundCause s space a off size u = 0x06 := if_pos h
  rw [State.bankTrap, boundTrap_one hd, hcause, if_neg (by decide)]
  rfl

theorem bankTrap_outside {s : State} {space : Nat} {a : BitVec 7} {off size : Nat} {u : Thread} (hd : size ∣ 2 ^ 22)
    (h : ((s.src u a).toNat + off) % size = 0) (hlocs : s.bankLocs space u a off size = none) : s.bankTrap space [u] a off size =
      some { TrapReq.of 0x07 with mask := some (lanes [u]), space := space, addr := BitVec.ofNat 64 ((s.src u a).toNat + off) } := by
  have hcause : boundCause s space a off size u = 0x07 := by rw [boundCause, if_neg (by simpa using h), if_pos hlocs]
  rw [State.bankTrap, boundTrap_one hd, hcause, if_neg (by decide)]
  rfl

theorem bankTrap_slot {s : State} {space : Nat} {a : BitVec 7} {off size l : Nat} {locs : List Nat} {u : Thread} (hd : size ∣ 2 ^ 22)
    (h : ((s.src u a).toNat + off) % size = 0) (hlocs : s.bankLocs space u a off size = some locs) (hl : l ∈ locs) (hslot : l / 16 ∈ s.slots) :
    s.bankTrap space [u] a off size = some { TrapReq.of 0x0E with
      kind := 1, mask := some (lanes [u]), space := space, addr := BitVec.ofNat 64 ((s.src u a).toNat + off) } := by
  have hcause : boundCause s space a off size u = 0 := by rw [boundCause, if_neg (by simpa using h), if_neg (by simp [hlocs])]
  have hslots : (((s.bankLocs space u a off size).getD []).any fun l => s.slots.contains (l / 16)) = true := by
    rw [hlocs]
    exact List.any_eq_true.mpr ⟨l, hl, by simpa using hslot⟩
  rw [State.bankTrap, boundTrap_one hd, hcause, if_pos rfl, List.filter_cons, if_pos hslots]
  exact bankReq_one _ _ _ _ _ _ _ _ rfl

/-- An instruction that answers the trap of the bank checks. -/
def AnswersBankTrap (i : Instr) (s : State) (space : Nat) (u : Thread) (a : BitVec 7) (off size : Nat) : Prop :=
  ∀ q, s.bankTrap space [u] a off size = some q → exec i s = .next (s.takeTrap q)

theorem exec_bankLoad {e : (FM → Instr) × Nat} (he : e ∈ bankLoadWords) (f : FM) (s : State) : exec (e.1 f) s = s.bankLoads e.2 f := by
  simp only [bankLoadWords, List.mem_cons, List.not_mem_nil, or_false] at he
  rcases he with rfl | rfl | rfl | rfl <;> rfl

theorem exec_bankStore {e : (FM → Instr) × Nat} (he : e ∈ bankStoreWords) (f : FM) (s : State) : exec (e.1 f) s = s.bankStores e.2 f := by
  simp only [bankStoreWords, List.mem_cons, List.not_mem_nil, or_false] at he
  rcases he with rfl | rfl | rfl | rfl <;> rfl

/-- A word of atomics runs them, and marks a fault with the number of its space's consumer. -/
theorem exec_bankAtomic {e : (FA → Instr) × Nat} (he : e ∈ bankAtomicWords) (f : FA) (s : State) :
    ∃ cons, exec (e.1 f) s = s.bankAtomics e.2 cons f := by
  simp only [bankAtomicWords, List.mem_cons, List.not_mem_nil, or_false] at he
  rcases he with rfl | rfl | rfl <;> exact ⟨_, rfl⟩

theorem answers_bankLoad {e : (FM → Instr) × Nat} (he : e ∈ bankLoadWords) {f : FM} {s : State} {u : Thread} (hu : s.executing f.pred = [u]) :
    AnswersBankTrap (e.1 f) s e.2 u f.a (f.mod.toNat * 2 ^ f.w.toNat) (2 ^ f.w.toNat) := by
  intro q hq
  have hq : s.bankTrap e.2 [u] f.a (f.mod.toNat * widthBytes f.w) (widthBytes f.w) = some q := hq
  rw [exec_bankLoad he, State.bankLoads, hu]
  rw [hq]
  rfl

theorem answers_bankStore {e : (FM → Instr) × Nat} (he : e ∈ bankStoreWords) {f : FM} {s : State} {u : Thread} (hu : s.executing f.pred = [u]) :
    AnswersBankTrap (e.1 f) s e.2 u f.a (f.mod.toNat * 2 ^ f.w.toNat) (2 ^ f.w.toNat) := by
  intro q hq
  have hq : s.bankTrap e.2 [u] f.a (f.mod.toNat * widthBytes f.w) (widthBytes f.w) = some q := hq
  rw [exec_bankStore he, State.bankStores, hu]
  dsimp only
  rw [hq]
  rfl

theorem answers_bankAtomic {e : (FA → Instr) × Nat} (he : e ∈ bankAtomicWords) {f : FA} {s : State} {u : Thread}
    (hu : s.executing f.pred = [u]) : AnswersBankTrap (e.1 f) s e.2 u f.a 0 (atomicBytes f) := by
  intro q hq
  obtain ⟨cons, hexec⟩ := exec_bankAtomic he f s
  rw [hexec, State.bankAtomics, hu]
  rw [hq]
  rfl

/-- The three traps of an access that one thread makes. -/
theorem bankTraps_one {i : Instr} {s : State} {space : Nat} {u : Thread} {a : BitVec 7} {off size : Nat} (hout : OutsideTrap s)
    (hd : size ∣ 2 ^ 22) (h : AnswersBankTrap i s space u a off size) :
    let ea := (s.src u a).toNat + off
    let q (c : Nat) : TrapReq := { TrapReq.of c with space := space, addr := BitVec.ofNat 64 ea }
    (ea % size ≠ 0 → TakesTrap i s (q 0x06) (lanes [u]) false) ∧
    (ea % size = 0 → s.bankLocs space u a off size = none → TakesTrap i s (q 0x07) (lanes [u]) false) ∧
    ∀ locs l, ea % size = 0 → s.bankLocs space u a off size = some locs → l ∈ locs → l / 16 ∈ s.slots →
      TakesTrap i s { q 0x0E with kind := 1 } (lanes [u]) false :=
  ⟨fun hmis => takesTrap_of_exec hout _ (some (lanes [u])) (h _ (bankTrap_misaligned hd hmis)),
    fun hal hlocs => takesTrap_of_exec hout _ (some (lanes [u])) (h _ (bankTrap_outside hd hal hlocs)),
    fun _ _ hal hlocs hl hslot => takesTrap_of_exec hout _ (some (lanes [u])) (h _ (bankTrap_slot hd hal hlocs hl hslot))⟩

/-- The widths of accesses divide the scratch stride of a core. -/
theorem width_dvd (w : BitVec 3) : 2 ^ w.toNat ∣ 2 ^ 22 := Nat.pow_dvd_pow 2 (by have := w.isLt; omega)

theorem atomicBytes_dvd (f : FA) : atomicBytes f ∣ 2 ^ 22 := by
  rw [atomicBytes]
  split
  · exact ⟨2 ^ 19, rfl⟩
  · exact ⟨2 ^ 20, rfl⟩

theorem claims_bankTraps : Claims.BankTraps := by
  intro s u hout
  refine ⟨fun e he f hu _ => ?_, fun e he f hu _ => bankTraps_one hout (atomicBytes_dvd f) (answers_bankAtomic he hu)⟩
  rcases List.mem_append.mp he with he | he
  · exact bankTraps_one hout (width_dvd f.w) (answers_bankLoad he hu)
  · exact bankTraps_one hout (width_dvd f.w) (answers_bankStore he hu)

/-! ### What a gang's atomics do -/

theorem bankTrap_none {s : State} {space : Nat} {us : List Thread} {a : BitVec 7} {off size : Nat} {locs : Thread → List Nat}
    (hd : size ∣ 2 ^ 22) (h : ∀ u ∈ us, Access s space a off size u (locs u)) : s.bankTrap space us a off size = none := by
  have hbound : (us.filter fun u => boundCause s space a off size u != 0) = [] := by
    refine List.filter_eq_nil_iff.mpr fun u hu => ?_
    obtain ⟨hal, hlocs, -⟩ := h u hu
    simp [boundCause, hal, hlocs]
  have hslots : (us.filter fun t => ((s.bankLocs space t a off size).getD []).any fun l => s.slots.contains (l / 16)) = [] := by
    refine List.filter_eq_nil_iff.mpr fun u hu => ?_
    obtain ⟨-, hlocs, hfree⟩ := h u hu
    simpa [hlocs] using hfree
  rw [State.bankTrap, hslots, boundTrap_eq hd, hbound]
  rfl

/-- One thread's atomic, on memory alone. -/
def atomicOne (s : State) (f : FA) (locs : Thread → List Nat) (m : State) (u : Thread) : State :=
  put m (atomicStores m f (locs u) (s.atomicArgs u f))

/-- The operation of one thread's atomic, given memory before it. -/
def atomicOp (s m : State) (space : Nat) (f : FA) (locs : Thread → List Nat) (u : Thread) : Op :=
  { s.opOf u .atomic (u.sel f.fb) with
    space := space, size := atomicBytes f, regs := run s u f.data.toNat (atomicBytes f / 4)
    addr := BitVec.ofNat 64 (s.src u f.a).toNat, fill := (locs u).map m.byte }

/-- What an atomic changes of the state besides what its operation does. -/
def atomicStored (s m : State) (f : FA) (locs : Thread → List Nat) (u : Thread) : State :=
  (((atomicOne s f locs m u).setTag ((locs u).headD 0) 0).leave u.rel u.rel (locs u)).modThread u.uid
    (Thread.take (max (((atomicOne s f locs m u).setTag ((locs u).headD 0) 0).relAt (locs u))
      (((atomicOne s f locs m u).setTag ((locs u).headD 0) 0).readAt (locs u))))

/-- The state is `s` but for what banked atomics change. -/
def OnlyAtomics (s m : State) : Prop :=
  ∃ mem gtag ops agenda nextId threads bankRel,
    m = { s with mem := mem, gtag := gtag, ops := ops, agenda := agenda, nextId := nextId, threads := threads, bankRel := bankRel }

theorem OnlyAtomics.trans {s m n : State} (hm : OnlyAtomics s m) (hn : OnlyAtomics m n) : OnlyAtomics s n := by
  obtain ⟨_, _, _, _, _, _, _, rfl⟩ := hm
  obtain ⟨_, _, _, _, _, _, _, rfl⟩ := hn
  exact ⟨_, _, _, _, _, _, _, rfl⟩

theorem put_eq (m : State) (st : List (Nat × Byte)) : put m st = { m with mem := (put m st).mem } := by
  induction st generalizing m with
  | nil => rfl
  | cons e r ih =>
    show put (m.setByte e.1 e.2) r = { m with mem := (put (m.setByte e.1 e.2) r).mem }
    rw [ih]
    rfl

theorem put_mem {m n : State} (h : m.mem = n.mem) (st : List (Nat × Byte)) : (put m st).mem = (put n st).mem := by
  induction st generalizing m n with
  | nil => exact h
  | cons e r ih => exact ih (congrArg (SMap.put emptyByte e.1 e.2) h)

theorem atomicOne_mem {s m n : State} {f : FA} {locs : Thread → List Nat} {u : Thread} (h : m.mem = n.mem) :
    (atomicOne s f locs m u).mem = (atomicOne s f locs n u).mem := by
  have hbyte : m.byte = n.byte := by
    funext l
    rw [State.byte, State.byte, h]
  rw [atomicOne, atomicOne, atomicStores, atomicStores, hbyte]
  exact put_mem h _

theorem atomicStored_eq (s m : State) (f : FA) (locs : Thread → List Nat) (u : Thread) : ∃ gtag v, atomicStored s m f locs u =
    { m with
      mem := (atomicOne s f locs m u).mem, gtag := gtag, bankRel := (m.leave u.rel u.rel (locs u)).bankRel
      threads := m.threads.map fun t => if t.uid == u.uid then Thread.take v t else t } := by
  have hput : atomicOne s f locs m u = { m with mem := (atomicOne s f locs m u).mem } := put_eq m _
  generalize (atomicOne s f locs m u).mem = mem at hput
  rw [atomicStored, hput]
  exact ⟨_, _, rfl⟩

/-- One thread's atomic on good granules. -/
theorem bankAtomic_eq {s m : State} {space cons : Nat} {f : FA} {locs : Thread → List Nat} {u : Thread} (hm : OnlyAtomics s m)
    (hlocs : s.bankLocs space u f.a 0 (atomicBytes f) = some (locs u)) (hgood : ∀ l ∈ locs u, s.synAt l = 0) :
    State.bankAtomic space cons f m u = (atomicStored s m f locs u).send (atomicOp s m space f locs u) .atomicReturn := by
  obtain ⟨_, _, _, _, _, _, _, hm⟩ := hm
  have hlocs : m.bankLocs space u f.a 0 (atomicBytes f) = some (locs u) := by
    rw [← hlocs, hm]
    rfl
  have hgood : m.firstBad (locs u) = none := by
    refine List.find?_eq_none.mpr fun l hl => ?_
    have : m.synAt l = 0 := by
      rw [← hgood l hl, hm]
      rfl
    simp [this]
  have hop : m.opOf u .atomic (u.sel f.fb) = s.opOf u .atomic (u.sel f.fb) := by
    rw [hm]
    rfl
  have hphys : m.phys u f.data.toNat (atomicBytes f / 4) = run s u f.data.toNat (atomicBytes f / 4) := by
    rw [hm]
    rfl
  have hea : m.bankEa space u f.a 0 = (s.src u f.a).toNat := by
    rw [hm]
    rfl
  have hargs : m.atomicArgs u f = s.atomicArgs u f := by
    rw [hm]
    rfl
  unfold State.bankAtomic
  rw [hlocs, Option.getD_some]
  dsimp only
  rw [hgood, hop, hphys, hea, hargs]
  rfl

/-- Leaving times at some locations keeps those of every granule that none of them lies in. -/
theorem leave_elsewhere (m : State) (w r : Nat) {ls : List Nat} {n : Nat} (h : ∀ l ∈ ls, l / 16 ≠ n) :
    SMap.get (0, 0) (m.leave w r ls).bankRel n = SMap.get (0, 0) m.bankRel n := by
  show SMap.get (0, 0) (ls.foldl _ m.bankRel) n = _
  generalize m.bankRel = b
  induction ls generalizing b with
  | nil => rfl
  | cons l r ih =>
    rw [List.foldl_cons, ih fun x hx => h x (List.mem_cons_of_mem l hx)]
    simp [h l List.mem_cons_self]

/-- A list's elements with what stands before each, one element more at the end. -/
theorem mapIdx_take_concat {α β : Type} (g : List α → Nat → α → β) (xs : List α) (x : α) :
    (xs ++ [x]).mapIdx (fun i y => g ((xs ++ [x]).take i) i y) = xs.mapIdx (fun i y => g (xs.take i) i y) ++ [g xs xs.length x] := by
  rw [List.mapIdx_concat, List.take_left]
  congr 1
  refine List.mapIdx_eq_mapIdx_iff.mpr fun i hi => ?_
  rw [List.take_append_of_le_length hi.le]

/-- A thread that has taken a time. -/
def withGot (n : Nat) (t : Thread) : Thread := { t with got := n }

theorem take_withGot (v n : Nat) (t : Thread) : Thread.take v (withGot n t) = withGot (max n v) t := rfl

/-- The operation in flight of one thread's atomic, after those of the threads `us`, numbered. -/
def numberedAtomic (s : State) (space : Nat) (f : FA) (locs : Thread → List Nat) (us : List Thread) (i : Nat) (u : Thread) : Op :=
  { atomicOp s (us.foldl (atomicOne s f locs) s) space f locs u with id := s.nextId + i }

/-- What the atomics of the threads `us`, one after the other, have made of `s`. -/
structure Applied (s : State) (space : Nat) (f : FA) (locs : Thread → List Nat) (us : List Thread) (m : State) : Prop where
  rest    : OnlyAtomics s m
  mem     : m.mem = (us.foldl (atomicOne s f locs) s).mem
  nextId  : m.nextId = s.nextId + us.length
  agenda  : m.agenda = s.agenda ++ (List.range us.length).map fun i => .atomicReturn (s.nextId + i)
  ops     : m.ops = s.ops ++ us.mapIdx fun i u => numberedAtomic s space f locs (us.take i) i u
  threads : ∃ got : Thread → Nat, (∀ t, t.uid ∉ us.map Thread.uid → got t = t.got) ∧
    m.threads = s.threads.map fun t => withGot (got t) (notedAll (us.map (atomicOp s s space f locs)) t)
  times   : ∀ n, ¬ touched us locs n → SMap.get (0, 0) m.bankRel n = SMap.get (0, 0) s.bankRel n

theorem applied_nil (s : State) (space : Nat) (f : FA) (locs : Thread → List Nat) : Applied s space f locs [] s where
  rest := ⟨_, _, _, _, _, _, _, rfl⟩
  mem := rfl
  nextId := rfl
  agenda := (List.append_nil _).symm
  ops := (List.append_nil _).symm
  threads := ⟨Thread.got, fun _ _ => rfl, (List.map_id s.threads).symm⟩
  times := fun _ _ => rfl

theorem noted_withGot (o : Op) (n : Nat) (t : Thread) : noted o (withGot n t) = withGot n (noted o t) := by
  unfold noted withGot
  split <;> rfl

theorem notedAll_concat (os : List Op) (o : Op) (t : Thread) : notedAll (os ++ [o]) t = noted o (notedAll os t) := List.foldl_concat ..

theorem applied_concat {s m : State} {space cons : Nat} {f : FA} {locs : Thread → List Nat} {us : List Thread} {u : Thread}
    (hm : Applied s space f locs us m) (hlocs : s.bankLocs space u f.a 0 (atomicBytes f) = some (locs u))
    (hgood : ∀ l ∈ locs u, s.synAt l = 0) : Applied s space f locs (us ++ [u]) (State.bankAtomic space cons f m u) := by
  obtain ⟨hrest, hmem, hnext, hagenda, hops, ⟨got, hgot, hthreads⟩, htimes⟩ := hm
  obtain ⟨gtag, v, hstored⟩ := atomicStored_eq s m f locs u
  have hone : (atomicOne s f locs m u).mem = (atomicOne s f locs (us.foldl (atomicOne s f locs) s) u).mem := atomicOne_mem hmem
  have hfill : atomicOp s m space f locs u = atomicOp s (us.foldl (atomicOne s f locs) s) space f locs u := by
    have hbyte : m.byte = (us.foldl (atomicOne s f locs) s).byte := by
      funext l
      rw [State.byte, State.byte, hmem]
    rw [atomicOp, atomicOp, hbyte]
  rw [bankAtomic_eq hrest hlocs hgood, hstored]
  constructor
  case rest => exact hrest.trans ⟨_, _, _, _, _, _, _, rfl⟩
  case mem =>
    rw [List.foldl_concat]
    exact hone
  case nextId =>
    rw [List.length_append, ← Nat.add_assoc, ← hnext]
    rfl
  case agenda =>
    rw [List.length_append, List.length_singleton, List.range_succ, List.map_append, ← List.append_assoc, ← hagenda, List.map_singleton,
      ← hnext]
    rfl
  case ops =>
    rw [mapIdx_take_concat (numberedAtomic s space f locs), ← List.append_assoc, ← hops, numberedAtomic, ← hnext, ← hfill]
    rfl
  case threads =>
    refine ⟨fun t => if t.uid = u.uid then max (got t) v else got t, fun t ht => ?_, ?_⟩
    · rw [List.map_append, List.mem_append, not_or] at ht
      obtain ⟨htus, htu⟩ := ht
      exact (if_neg (by simpa using htu)).trans (hgot t htus)
    · show (m.threads.map fun t => if t.uid == u.uid then Thread.take v t else t).map (noted (atomicOp s s space f locs u)) = _
      rw [hthreads, List.map_map, List.map_map, List.map_append]
      refine List.map_congr_left fun t _ => ?_
      have huid : (withGot (got t) (notedAll (us.map (atomicOp s s space f locs)) t)).uid = t.uid := notedAll_uid _ t
      simp only [Function.comp, huid, beq_iff_eq, List.map_singleton, notedAll_concat, ← noted_withGot]
      split
      · rfl
      · rfl
  case times =>
    intro n hn
    have hu : ∀ l ∈ locs u, l / 16 ≠ n := fun l hl hln => hn ⟨u, by simp, l, hl, hln⟩
    rw [← htimes n fun ⟨x, hx, l, hl, hln⟩ => hn ⟨x, by simp [hx], l, hl, hln⟩, ← leave_elsewhere m u.rel u.rel hu]
    rfl

/-- The atomics of a list of threads after those of another. -/
theorem applied_foldl {s m : State} {space cons : Nat} {f : FA} {locs : Thread → List Nat} {us vs : List Thread}
    (hm : Applied s space f locs us m)
    (h : ∀ u ∈ vs, s.bankLocs space u f.a 0 (atomicBytes f) = some (locs u) ∧ ∀ l ∈ locs u, s.synAt l = 0) :
    Applied s space f locs (us ++ vs) (vs.foldl (State.bankAtomic space cons f) m) := by
  induction vs generalizing us m with
  | nil => rwa [List.append_nil]
  | cons v vs ih =>
    obtain ⟨hlocs, hgood⟩ := h v List.mem_cons_self
    have hcons := ih (applied_concat (cons := cons) hm hlocs hgood) fun u hu => h u (List.mem_cons_of_mem v hu)
    rwa [List.append_assoc] at hcons

/-- How many operations a thread has, and under which flags, rests on their threads and flags alone. -/
theorem counts_map_congr {us : List Thread} {mk mk' : Thread → Op} {a b : Thread}
    (h : ∀ u, (mk' u).uid = (mk u).uid ∧ (mk' u).sel = (mk u).sel) (hc : Counts (us.map mk) a b) : Counts (us.map mk') a b := by
  have huid : ((fun o : Op => o.uid == a.uid) ∘ mk') = (fun o : Op => o.uid == a.uid) ∘ mk := by
    funext u
    simp [(h u).1]
  have hsel (i : Nat) : ((fun o : Op => o.sel == i) ∘ mk') = (fun o : Op => o.sel == i) ∘ mk := by
    funext u
    simp [(h u).2]
  simpa only [Counts, opsOf, List.filter_map, List.length_map, huid, hsel] using hc

theorem next_withGot (n : Nat) (t : Thread) : (withGot n t).next = withGot n t.next := by
  unfold Thread.next withGot
  dsimp only
  split
  · rfl
  · split
    · split <;> rfl
    · rfl

/-- An operation that holds no predicate, and is neither a special function's nor an acquire. -/
theorem noted_plain {o : Op} (hpreg : o.preg = none) (hsfu : (o.kind == .sfu) = false) (hacq : (o.kind == .sqacq) = false) (t : Thread) :
    ∃ fl pv n, noted o t = { t with flags := fl, pendV := pv, outs := n } := by
  unfold noted
  split
  · rw [begun, hpreg, hsfu, hacq]
    exact ⟨_, _, _, rfl⟩
  · exact ⟨_, _, _, rfl⟩

theorem notedAll_plain {os : List Op} (h : ∀ o ∈ os, o.preg = none ∧ (o.kind == .sfu) = false ∧ (o.kind == .sqacq) = false) (t : Thread) :
    ∃ fl pv n, notedAll os t = { t with flags := fl, pendV := pv, outs := n } := by
  induction os generalizing t with
  | nil => exact ⟨_, _, _, rfl⟩
  | cons o os ih =>
    obtain ⟨hpreg, hsfu, hacq⟩ := h o List.mem_cons_self
    obtain ⟨_, _, _, ho⟩ := noted_plain hpreg hsfu hacq t
    obtain ⟨_, _, _, hos⟩ := ih (fun x hx => h x (List.mem_cons_of_mem o hx)) (noted o t)
    exact ⟨_, _, _, hos.trans (by rw [ho])⟩

theorem next_plain {t b : Thread} (h : ∃ fl pv n, b = { t with flags := fl, pendV := pv, outs := n }) :
    ∃ fl pv n, b.next = { t.next with flags := fl, pendV := pv, outs := n } := by
  obtain ⟨fl, pv, n, rfl⟩ := h
  refine ⟨fl, pv, n, ?_⟩
  unfold Thread.next
  dsimp only
  split
  · rfl
  · split
    · split <;> rfl
    · rfl

theorem notedAll_atomics (s : State) (space : Nat) (f : FA) (locs : Thread → List Nat) (us : List Thread) (t : Thread) :
    ∃ fl pv n, notedAll (us.map (atomicOp s s space f locs)) t = { t with flags := fl, pendV := pv, outs := n } := by
  refine notedAll_plain (fun o ho => ?_) t
  obtain ⟨u, -, rfl⟩ := List.mem_map.mp ho
  exact ⟨rfl, rfl, rfl⟩

/-- A thread of the gang has passed on from its atomic. -/
theorem atomic_passed (s : State) (space : Nat) (f : FA) (locs : Thread → List Nat) (us : List Thread) (t : Thread) (g : Nat) :
    let b := (withGot g (notedAll (us.map (atomicOp s s space f locs)) t)).next
    (∃ fl pv n, b = { t.next with flags := fl, pendV := pv, outs := n, got := b.got }) ∧
      Counts (us.map fun u => s.opOf u .atomic (u.sel f.fb)) t b := by
  dsimp only
  rw [next_withGot]
  obtain ⟨fl, pv, n, hnoted⟩ := next_plain (notedAll_atomics s space f locs us t)
  refine ⟨⟨fl, pv, n, by rw [hnoted]; rfl⟩, ?_⟩
  exact counts_next (counts_map_congr (mk := atomicOp s s space f locs) (fun _ => ⟨rfl, rfl⟩)
    (counts_notedAll (us.map (atomicOp s s space f locs)) t))

/-- Every other thread is as before. -/
theorem atomic_outside {s : State} {space : Nat} {f : FA} {locs : Thread → List Nat} {us : List Thread} {got : Thread → Nat} {t : Thread}
    (hgot : ∀ t, t.uid ∉ us.map Thread.uid → got t = t.got) (ht : t.uid ∉ us.map Thread.uid) :
    withGot (got t) (notedAll (us.map (atomicOp s s space f locs)) t) = t := by
  have hnoted : notedAll (us.map (atomicOp s s space f locs)) t = t := by
    refine notedAll_of_forall_ne fun o ho hu => ht ?_
    obtain ⟨u, hus, rfl⟩ := List.mem_map.mp ho
    exact List.mem_map.mpr ⟨u, hus, hu⟩
  rw [hnoted, hgot t ht]
  rfl

theorem claims_bankAtomics : Claims.BankAtomics := by
  intro e he f s locs _ size haccess one
  have hnone : s.bankTrap e.2 (s.executing f.pred) f.a 0 (atomicBytes f) = none := bankTrap_none (atomicBytes_dvd f) fun u hu => (haccess u hu).1
  obtain ⟨cons, hexec⟩ := exec_bankAtomic he f s
  have happlied : Applied s e.2 f locs (s.executing f.pred) ((s.executing f.pred).foldl (State.bankAtomic e.2 cons f) s) :=
    applied_foldl (applied_nil s e.2 f locs) fun u hu => ⟨(haccess u hu).1.bound, (haccess u hu).2⟩
  rw [State.bankAtomics, hnone] at hexec
  refine ⟨_, hexec, ?_⟩
  generalize (s.executing f.pred).foldl (State.bankAtomic e.2 cons f) s = m at happlied
  obtain ⟨hrest, hmem, -, hagenda, hops, ⟨got, hgot, hthreads⟩, htimes⟩ := happlied
  refine ⟨fun l => ?_, hops, hagenda, ?_, htimes, ?_⟩
  · show SMap.get emptyByte m.mem l = _
    rw [hmem]
    rfl
  · have hgang : m.gang = s.gang := by
      obtain ⟨_, _, _, _, _, _, _, rfl⟩ := hrest
      rfl
    rw [EachThread, State.advance, modThreads_threads, hthreads, hgang, List.map_map, List.forall₂_map_right_iff, List.forall₂_same]
    intro t _
    have huid : (withGot (got t) (notedAll ((s.executing f.pred).map (atomicOp s s e.2 f locs)) t)).uid = t.uid := notedAll_uid _ t
    simp only [Function.comp, huid]
    by_cases hg : t.uid ∈ s.gang
    · rw [if_pos hg, if_pos (by simpa using hg)]
      exact atomic_passed s e.2 f locs _ t (got t)
    · rw [if_neg hg, if_neg (by simpa using hg)]
      refine atomic_outside hgot fun ht => hg ?_
      obtain ⟨u, hu, hut⟩ := List.mem_map.mp ht
      exact hut ▸ executing_uid_mem hu
  · obtain ⟨_, _, _, _, _, _, _, rfl⟩ := hrest
    rfl

/-- Settles O25. -/
theorem bankAtomics : Obligations.BankAtomics := by
  unfold Obligations.BankAtomics
  exact ⟨claims_atomicValues, claims_bankAtomics, claims_bankTraps⟩

end Sys2Proof.Proofs
end

