-- ==== Sys2Proof/Proofs/Checks.lean ====
section
/-! What the checks between fetch and issue make of a single word that nothing stops (R28, R376). -/

namespace Sys2Proof.Proofs

open Sys2Proof.Machine Sys2Proof.Says Sys2Proof.Laws

/-! ### The word -/

/-- Only a clause header has major 0. -/
theorem majorOf_ne_zero {w : Word} {i : Instr} (hw : decodeWord w = .ok i) (hi : ∀ f, i ≠ .clause f) : majorOf w ≠ 0 := by
  intro hmajor
  have hread : Decode.read w = Decode.major0 w := by
    unfold Decode.read
    rw [show (w.extractLsb' 26 5).toNat = 0 from hmajor]
    rfl
  have hok := accept_ok hw
  rw [hread, Decode.major0] at hok
  split at hok
  · cases hok
  · exact hi _ (congrArg Prod.snd (Except.ok.inj hok)).symm

/-- A word alone, with bit 31 clear, breaks no rule of chains. -/
theorem badChain_one {w : Word} (h31 : w.getLsbD 31 = false) (k j : Nat) : badChain k [w] j = false := by
  cases j with
  | zero =>
    have htop : w[31] = false := h31
    simp [badChain, htop]
  | succ j => rfl

/-- A word that decodes, names no bad format slot and has no major 0, has no fate but to issue. -/
theorem chainFate_one {s : State} {w : Word} {i : Instr} (k : Nat) (hw : decodeWord w = .ok i) (hmajor : majorOf w ≠ 0)
    (h31 : w.getLsbD 31 = false) (hslot : s.badSlotRead i = false) : s.chainFate k [w] = none := by
  have hfields : s.badFields w = false := by rw [State.badFields, hw]; exact hslot
  simp [State.chainFate, hmajor, badChain_one h31, hw, hfields]

/-! ### The gang -/

theorem redo_none {t : Thread} (h : t.again = []) : t.reissues = false := by
  simp [Thread.reissues, Thread.redo, h]

theorem owedTrap_nil (s : State) : s.owedTrap [] = none := rfl

/-- Threads that owe no fault. -/
theorem owing_nil {s : State} (h : ∀ t ∈ s.gangThreads, t.owed = []) (p : BitVec 3) : (s.executing p).filter (fun t => !t.owed.isEmpty) = [] := by
  refine List.filter_eq_nil_iff.mpr fun t ht => ?_
  simp [h t (mem_executing.mp ht).1]

/-- Before its sources are read, nothing stops a word alone: what comes of it rests on the poison marks of its sources. -/
theorem checkChain_one {r : State} {u : Thread} {k : Nat} {i : Instr} (h : Unstopped r u k i) : r.checkChain k [i] =
    match r.poisonHit i with
    | some q => .done ((r.atWord k).takeTrap q)
    | none => .run r [i] := by
  have hpipe : ((uses i).pipe == 4 && !r.whole) = false := by
    rw [Bool.and_eq_false_iff]
    by_cases hp : (uses i).pipe = 4
    · exact .inr (by simp [h.whole hp])
    · exact .inl (by simpa using hp)
  have hfull : (r.gangThreads.any (flagFull [i])) = false := List.any_eq_false.mpr fun t ht => by simp [h.flags t ht]
  have hidx : (List.range [i].length).zip [i] = [(0, i)] := rfl
  have hword : r.forWord 0 = r := rfl
  unfold State.checkChain
  simp only [hidx, List.find?_cons, List.find?_nil, List.findSome?_cons, List.findSome?_nil, hword, h.mode, hpipe, h.stall, hfull, h.matrix]
  cases r.poisonHit i <;> rfl

theorem checkWords_one {r : State} {u : Thread} {k : Nat} {w : Word} {i : Instr} (hne : r.gangThreads ≠ [])
    (hagain : ∀ t ∈ r.gangThreads, t.again = []) (hw : decodeWord w = .ok i) (hmajor : majorOf w ≠ 0) (h31 : w.getLsbD 31 = false)
    (h : Unstopped r u k i) : r.checkWords u k [w] = r.checkChain k [i] := by
  have hall : r.gangThreads.all Thread.reissues = false := by
    obtain ⟨t, ht⟩ := List.exists_mem_of_ne_nil _ hne
    exact List.all_eq_false.mpr ⟨t, ht, by simp [redo_none (hagain t ht)]⟩
  have hwd : r.gangThreads.any Thread.wdDue = false := List.any_eq_false.mpr fun t ht => by simp [h.watchdog t ht]
  have hidx : List.range [w].length = [0] := rfl
  have hfate : r.chainFate k [w] = none := chainFate_one k hw hmajor h31 h.slot
  unfold State.checkWords
  simp only [hall, hidx, hwd, hfate, Bool.false_eq_true, if_false, List.any_cons, List.any_nil, Nat.add_zero, h.breaks, Bool.or_false,
    List.findSome?_cons, List.findSome?_nil, owing_nil h.owed, List.getElem?_cons_zero, Option.bind_some, hw, List.map_cons, List.map_nil]
  rw [show (Except.ok i : Except DecodeFate Instr).toOption = some i from rfl, Option.bind_some]
  cases duePoint i <;> rfl

end Sys2Proof.Proofs
end

