-- ==== Sys2Proof/Proofs/Replies.lean ====
section
/-! Replies (R33, R132, R139, R203, R204): what a reply writes and marks, the acknowledgement of a store, and the trap of the first word that
reads a poisoned register. -/

namespace Sys2Proof.Proofs

open Sys2Proof.Machine Sys2Proof.Says Sys2Proof.Laws

/-! ### Writing a run of registers -/

theorem reg_setPhysList_of_notMem {ns : List Nat} {m : Nat} (h : m ∉ ns) (xs : List Word) (t : Thread) :
    reg (t.setPhysList ns xs) m = reg t m := by
  induction ns generalizing xs t with
  | nil => rfl
  | cons n ns ih =>
    cases xs with
    | nil => rfl
    | cons x xs =>
      rw [Thread.setPhysList, ih (fun hm => h (List.mem_cons_of_mem n hm)), reg_setPhys, if_neg]
      rintro rfl
      exact h List.mem_cons_self

/-- Each of a run of different registers gets the word at its place. -/
theorem reg_setPhysList {ns : List Nat} (hns : ns.Nodup) {xs : List Word} {i n : Nat} {x : Word} (hn : ns[i]? = some n) (hx : xs[i]? = some x)
    (t : Thread) : reg (t.setPhysList ns xs) n = x := by
  induction ns generalizing xs t i with
  | nil => simp at hn
  | cons m ns ih =>
    obtain ⟨hm, hns⟩ := List.nodup_cons.mp hns
    cases xs with
    | nil => simp at hx
    | cons y xs =>
      cases i with
      | zero =>
        obtain rfl : m = n := by simpa using hn
        obtain rfl : y = x := by simpa using hx
        rw [Thread.setPhysList, reg_setPhysList_of_notMem hm, reg_setPhys, if_pos rfl]
      | succ i =>
        rw [Thread.setPhysList]
        exact ih hns (by simpa using hn) (by simpa using hx) _

/-- Marks on other registers stay. -/
theorem pois_setPhysList {ns : List Nat} {m : Nat} (h : m ∉ ns) (xs : List Word) (t : Thread) :
    (t.setPhysList ns xs).pois.filter (fun p => p.reg == m) = t.pois.filter fun p => p.reg == m := by
  induction ns generalizing xs t with
  | nil => rfl
  | cons n ns ih =>
    cases xs with
    | nil => rfl
    | cons x xs =>
      have hne : n ≠ m := by
        rintro rfl
        exact h List.mem_cons_self
      rw [Thread.setPhysList, ih (fun hm => h (List.mem_cons_of_mem n hm)), Thread.setPhys, List.filter_filter]
      refine List.filter_congr fun p _ => ?_
      by_cases hp : p.reg = m
      · simp [hp, Ne.symm hne]
      · simp [hp]

theorem setPhysList_rest (ns : List Nat) (xs : List Word) (t : Thread) :
    ∃ rs ps, t.setPhysList ns xs = { t with regs := rs, pois := ps } := by
  induction ns generalizing xs t with
  | nil => exact ⟨_, _, rfl⟩
  | cons n ns ih =>
    cases xs with
    | nil => exact ⟨_, _, rfl⟩
    | cons x xs =>
      obtain ⟨rs, ps, h⟩ := ih xs (t.setPhys n x)
      exact ⟨rs, ps, h⟩

/-! ### Completion -/

/-- The marks that a reply leaves. -/
def replyMarks (o : Op) : List Poison := match o.poison with | some q => o.regs.map fun r => { q with reg := r } | none => []

/-- What a reply with the words `ws` makes of its thread before the operation ends. -/
def answered (o : Op) (ws : List Word) (t : Thread) : Thread :=
  { t.setPhysList o.regs ws with pois := replyMarks o ++ (t.setPhysList o.regs ws).pois }

@[simp] theorem answered_uid (o : Op) (ws : List Word) (t : Thread) : (answered o ws t).uid = t.uid := setPhysList_uid o.regs ws t

theorem finish_count (sel : Nat) (t : Thread) (i : Nat) : (t.finish sel).count i = t.count i - if i = sel ∧ i < 12 then 1 else 0 := by
  by_cases hsel : sel < 12
  · by_cases hi : i = sel
    · simp [Thread.finish, Thread.count, hsel, hi]
    · simp [Thread.finish, Thread.count, hsel, hi, Ne.symm hi]
  · have : ¬ (i = sel ∧ i < 12) := by omega
    simp [Thread.finish, Thread.count, hsel, this]

/-- The group has made progress where a register changes. -/
def progressed (s : State) (o : Op) (ws : List Word) : State :=
  match s.thread o.uid with
  | some t => if t.wouldChange o.regs ws then s.groupProgress t else s
  | none => s

/-- A remote reply that failed is noted. -/
def failureNoted (s : State) (o : Op) : State :=
  if o.poison.isSome && (o.space == 1 || (o.space == 0 && isRemote o.loc)) then s.noteFabst o.uid fabPoison else s

/-- A check that failed is reported, unless it was. -/
def failureReported (s : State) (o : Op) : State :=
  match o.poison with
  | some q => if q.space == 0xFF || 2 ≤ o.space || s.twin o then s else s.hemFault q.tag o.loc q.syn
  | none => s

theorem complete_stages (s : State) (o : Op) (ws : List Word) :
    s.complete o ws = ((failureReported (failureNoted (progressed s o ws) o) o).modThread o.uid (answered o ws)).finish o := rfl

/-- Of the package only groups and the events posted differ. -/
def OnlyNotes (s t : State) : Prop := ∃ gs ag, t = { s with groups := gs, agenda := ag }

theorem OnlyNotes.trans {s t u : State} (hst : OnlyNotes s t) (htu : OnlyNotes t u) : OnlyNotes s u := by
  obtain ⟨_, _, rfl⟩ := hst
  obtain ⟨_, _, rfl⟩ := htu
  exact ⟨_, _, rfl⟩

theorem onlyNotes_progressed (s : State) (o : Op) (ws : List Word) : OnlyNotes s (progressed s o ws) ∧ (progressed s o ws).agenda = s.agenda := by
  unfold progressed
  split
  · split
    · exact ⟨⟨_, _, rfl⟩, rfl⟩
    · exact ⟨⟨_, _, rfl⟩, rfl⟩
  · exact ⟨⟨_, _, rfl⟩, rfl⟩

theorem onlyNotes_failureNoted (s : State) (o : Op) : OnlyNotes s (failureNoted s o) ∧ (failureNoted s o).agenda = s.agenda := by
  unfold failureNoted
  split
  · unfold State.noteFabst
    split
    · exact ⟨⟨_, _, rfl⟩, rfl⟩
    · exact ⟨⟨_, _, rfl⟩, rfl⟩
  · exact ⟨⟨_, _, rfl⟩, rfl⟩

theorem onlyNotes_hemFault (s : State) (tag : BitVec 64) (loc : Nat) (syn : BitVec 16) : OnlyNotes s (s.hemFault tag loc syn) := by
  unfold State.hemFault
  split
  · exact ⟨_, _, rfl⟩
  · exact ⟨_, _, rfl⟩

theorem onlyNotes_failureReported (s : State) (o : Op) :
    OnlyNotes s (failureReported s o) ∧ (o.poison = none → (failureReported s o).agenda = s.agenda) := by
  unfold failureReported
  split
  · next q hq =>
    refine ⟨?_, fun h => absurd (hq.symm.trans h) (Option.some_ne_none q)⟩
    split
    · exact ⟨_, _, rfl⟩
    · exact onlyNotes_hemFault s _ _ _
  · exact ⟨⟨_, _, rfl⟩, fun _ => rfl⟩

/-- A reply's effect on the package: besides its thread and its operation, marks of progress and of failure in groups, and the report of a
check that failed. -/
theorem complete_eq (s : State) (o : Op) (ws : List Word) : ∃ gs ag, s.complete o ws =
    { s with
      threads := s.threads.map fun t => if t.uid == o.uid then ended o (answered o ws t) else t
      ops := s.ops.filter fun x => x.id != o.id, groups := gs, agenda := ag } ∧ (o.poison = none → ag = s.agenda) := by
  obtain ⟨hprogress, hagenda1⟩ := onlyNotes_progressed s o ws
  obtain ⟨hnoted, hagenda2⟩ := onlyNotes_failureNoted (progressed s o ws) o
  obtain ⟨hreported, hagenda3⟩ := onlyNotes_failureReported (failureNoted (progressed s o ws) o) o
  have hagenda (h : o.poison = none) : (failureReported (failureNoted (progressed s o ws) o) o).agenda = s.agenda :=
    (hagenda3 h).trans (hagenda2.trans hagenda1)
  rw [complete_stages, finish_eq, modThread_threads]
  obtain ⟨gs, ag, hall⟩ := (hprogress.trans hnoted).trans hreported
  rw [hall] at hagenda ⊢
  refine ⟨gs, ag, ?_, hagenda⟩
  have hthreads : (s.threads.map fun t => if t.uid == o.uid then answered o ws t else t).map (fun t => if t.uid == o.uid then ended o t else t) =
      s.threads.map fun t => if t.uid == o.uid then ended o (answered o ws t) else t := by
    rw [List.map_map]
    refine List.map_congr_left fun t _ => ?_
    by_cases hu : t.uid = o.uid
    · simp [hu]
    · simp [hu]
  rw [← hthreads]
  rfl

/-- Both replies complete the operation with the words that it brought. -/
theorem exec_reply {e : Nat → Instr} (he : e ∈ ([.loadReturn, .atomicReturn] : List (Nat → Instr))) {id : Nat} {o : Op} {s : State}
    (h : s.op id = some o) : exec (e id) s = .next (s.complete o (wordsOf (o.fill.take o.size))) := by
  simp only [List.mem_cons, List.not_mem_nil, or_false] at he
  rcases he with rfl | rfl
  · show execLoadReturn id s = _
    rw [execLoadReturn, h]
    rfl
  · show execAtomicReturn id s = _
    rw [execAtomicReturn, h]
    rfl

/-- What a reply leaves of its thread, but for marks. -/
theorem replied_fields (o : Op) (ws : List Word) (t : Thread) :
    let b := ended o (answered o ws t)
    b.outs = t.outs - 1 ∧ (∀ i, b.count i = t.count i - if i = o.sel ∧ i < 12 then 1 else 0) ∧ b.preds = t.preds ∧ b.fstat = t.fstat ∧
      b.pkt = t.pkt ∧ b.word = t.word := by
  obtain ⟨rs, ps, hset⟩ := setPhysList_rest o.regs ws t
  have hanswered : answered o ws t = { t with regs := rs, pois := replyMarks o ++ ps } := by rw [answered, hset]
  dsimp only
  rw [hanswered]
  exact ⟨rfl, fun i => finish_count o.sel t i, rfl, rfl, rfl, rfl⟩

theorem reg_replied (o : Op) (ws : List Word) (t : Thread) (m : Nat) : reg (ended o (answered o ws t)) m = reg (t.setPhysList o.regs ws) m := rfl

theorem pois_replied (o : Op) (ws : List Word) (t : Thread) :
    (ended o (answered o ws t)).pois = replyMarks o ++ (t.setPhysList o.regs ws).pois := rfl

theorem claims_returnsWrite : Claims.ReturnsWrite := by
  intro e he id o s ho hgood _ _ hregs
  obtain ⟨gs, ag, hcomplete, hagenda⟩ := complete_eq s o (wordsOf (o.fill.take o.size))
  rw [hagenda hgood] at hcomplete
  obtain ⟨hover, hothers⟩ := op_filter s id (s.ops.filter fun x => x.id != o.id) (by rw [op_id ho])
  refine ⟨_, exec_reply he ho, ?_⟩
  rw [hcomplete]
  refine ⟨hover, hothers, rfl, ?_⟩
  rw [List.forall₂_map_right_iff, List.forall₂_same]
  intro t _
  by_cases hu : t.uid = o.uid
  · rw [if_pos hu, if_pos (by simpa using hu)]
    obtain ⟨houts, hcount, hpreds, hfstat, hpkt, hword⟩ := replied_fields o (wordsOf (o.fill.take o.size)) t
    exact ⟨fun i n x hn hx => reg_setPhysList hregs hn hx t, fun n hn => reg_setPhysList_of_notMem hn _ t, houts, hcount, hpreds, hfstat,
      hpkt, hword⟩
  · rw [if_neg hu, if_neg (by simpa using hu)]

/-- The mark on a register that a failed reply leaves. -/
theorem find_replyMarks {o : Op} {q : Poison} (hq : o.poison = some q) {n : Nat} (hn : n ∈ o.regs) (ps : List Poison) :
    (replyMarks o ++ ps).find? (fun p => p.reg == n) = some { q with reg := n } := by
  have hfound : ((replyMarks o).find? fun p => p.reg == n) = some { q with reg := n } := by
    rw [replyMarks, hq]
    dsimp only
    clear hq
    generalize o.regs = ns at hn
    induction ns with
    | nil => cases hn
    | cons r rs ih =>
      rw [List.map_cons]
      by_cases hr : r = n
      · rw [List.find?_cons_of_pos (by simpa using hr), hr]
      · rw [List.find?_cons_of_neg (by simpa using hr)]
        exact ih ((List.mem_cons.mp hn).resolve_left (Ne.symm hr))
  rw [List.find?_append, hfound]
  rfl

/-- It leaves none on any other. -/
theorem filter_replyMarks (o : Op) {n : Nat} (hn : n ∉ o.regs) : (replyMarks o).filter (fun p => p.reg == n) = [] := by
  refine List.filter_eq_nil_iff.mpr fun p hp => ?_
  unfold replyMarks at hp
  split at hp
  · obtain ⟨r, hr, rfl⟩ := List.mem_map.mp hp
    have : r ≠ n := fun h => hn (h ▸ hr)
    simpa using this
  · cases hp

theorem claims_badRepliesPoison : Claims.BadRepliesPoison := by
  intro e he id o q s ho hq hregs
  obtain ⟨gs, ag, hcomplete, -⟩ := complete_eq s o (wordsOf (o.fill.take o.size))
  obtain ⟨hover, hothers⟩ := op_filter s id (s.ops.filter fun x => x.id != o.id) (by rw [op_id ho])
  refine ⟨_, exec_reply he ho, ?_⟩
  rw [hcomplete]
  refine ⟨hover, hothers, rfl, ?_⟩
  rw [List.forall₂_map_right_iff, List.forall₂_same]
  intro t _
  by_cases hu : t.uid = o.uid
  · rw [if_pos hu, if_pos (by simpa using hu)]
    obtain ⟨-, hcount, -, -, hpkt, hword⟩ := replied_fields o (wordsOf (o.fill.take o.size)) t
    refine ⟨fun i n x hn hx => reg_setPhysList hregs hn hx t, fun n hn => reg_setPhysList_of_notMem hn _ t, fun n hn => ?_, fun n hn => ?_,
      hpkt, hword, hcount⟩
    · rw [pois_replied]
      exact find_replyMarks hq hn _
    · rw [pois_replied, List.filter_append, filter_replyMarks o hn, List.nil_append]
      exact pois_setPhysList hn _ t
  · rw [if_neg hu, if_neg (by simpa using hu)]

/-! ### The acknowledgement of a store -/

theorem ended_store {o : Op} (hkind : o.kind = .store) (hregs : o.regs = []) (hpreg : o.preg = none) (t : Thread) : ended o t = t.finish o.sel := by
  have hpendV : t.pendV.diff [] = t.pendV := rfl
  rw [ended, hkind, hregs, hpreg]
  rfl

theorem claims_storeAcknowledged : Claims.StoreAcknowledged := by
  intro id o s ho hkind hregs hpreg
  have hexec : exec (.storeAck id) s = .next (s.finish o) := by
    show execStoreAck id s = _
    rw [execStoreAck, ho]
  obtain ⟨hover, -⟩ := op_filter s id (s.ops.filter fun x => x.id != o.id) (by rw [op_id ho])
  refine ⟨_, hexec, hover, rfl, ?_, fun a => ⟨rfl, fun i => finish_count o.sel a i⟩⟩
  rw [finish_eq, List.forall₂_map_right_iff, List.forall₂_same]
  intro t _
  by_cases hu : t.uid = o.uid
  · rw [if_pos hu, if_pos (by simpa using hu)]
    exact ended_store hkind hregs hpreg t
  · rw [if_neg hu, if_neg (by simpa using hu)]

/-! ### The first read of a poisoned register -/

theorem uses_table52 {e : (F3 → Instr) × (Word → Word → Word)} (he : e ∈ table52) (f : F3) :
    uses (e.1 f) = { Uses.of 1 with guard := f.pred, reads := r1 f.a ++ r1 f.b, writes := [f.dst.toNat] } := by
  simp only [table52, List.mem_cons, List.not_mem_nil, or_false] at he
  rcases he with rfl | rfl | rfl | rfl | rfl | rfl | rfl | rfl | rfl | rfl | rfl | rfl | rfl | rfl | rfl | rfl <;> rfl

theorem table52_ne_clause {e : (F3 → Instr) × (Word → Word → Word)} (he : e ∈ table52) (f : F3) (c : FH) : e.1 f ≠ .clause c := by
  intro h
  have huses := uses_table52 he f
  rw [h] at huses
  cases congrArg Uses.pipe huses

/-- The trap of a mark read through register `n`, without the lanes that read it. -/
def poisonReq (n : Nat) (p : Poison) : TrapReq :=
  { TrapReq.of 0x20 with addr := p.addr, space := p.space, reg := n, syn := p.syn, tag := p.tag }

theorem poisoned_eq (m : Word) (n : Nat) (p : Poison) : TrapReq.poisoned m n p = { poisonReq n p with mask := some m } := rfl

/-- One thread whose first source carries a mark. -/
theorem poisonHit_first {e : (F3 → Instr) × (Word → Word → Word)} (he : e ∈ table52) {f : F3} {r : State} {u : Thread} {p : Poison}
    (hgang : r.gangThreads = [u]) (hguard : u.p f.pred = true) (ha : f.a.toNat < 64)
    (hp : u.pois.find? (fun q => q.reg == physReg (r.win u.tid) u.depth f.a.toNat) = some p) :
    r.poisonHit (e.1 f) = some (TrapReq.poisoned (lanes [u]) f.a.toNat p) := by
  have hmark : r.poisonOf u f.a.toNat = some p := by rw [State.poisonOf, if_pos ha, hp]
  have hreads : (uses (e.1 f)).readsOf u = [f.a.toNat, f.b.toNat] := by
    rw [uses_table52 he]
    simp [Uses.readsOf, hguard, Uses.of, r1]
  have hfirst : ((uses (e.1 f)).readsOf u).find? (fun n => (r.poisonOf u n).isSome) = some f.a.toNat := by
    rw [hreads, List.find?_cons_of_pos (by simp [hmark])]
  rw [← laneMask_eq_lanes]
  simp [State.poisonHit, hgang, hfirst, hmark]

/-- A gang of one thread that stands at word k, put there. -/
theorem atWord_same {r : State} {u : Thread} (honly : ∀ v ∈ r.threads, v.uid ∈ r.gang → v = u) : r.atWord u.word = r := by
  have hthreads : (r.threads.map fun t => if r.gang.contains t.uid then { t with word := u.word } else t) = r.threads := by
    conv_rhs => rw [← List.map_id r.threads]
    refine List.map_congr_left fun t ht => ?_
    by_cases hg : t.uid ∈ r.gang
    · obtain rfl := honly t ht hg
      rw [if_pos (by simpa using hg)]
      rfl
    · rw [if_neg (by simpa using hg)]
      rfl
  rw [State.atWord, State.modThreads, hthreads]

theorem claims_poisonTrapsAtRead : Claims.PoisonTrapsAtRead := by
  intro e he f w r u k p hout hgang hug honly _ _ hword hagain hw h31 hfree hguard ha hp
  obtain rfl := hword
  have hchecks := checkWords_one hout.1 (by simp [hgang, hagain]) hw (majorOf_ne_zero hw (table52_ne_clause he f)) h31 hfree
  rw [checkChain_one hfree, poisonHit_first he hgang hguard ha hp, atWord_same honly] at hchecks
  rw [poisoned_eq] at hchecks
  exact ⟨_, hchecks, tookTrap_takeTrap hout (poisonReq f.a.toNat p) (some (lanes [u]))⟩

/-- Settles O26. -/
theorem returnsWrite : Obligations.ReturnsWrite := by
  unfold Obligations.ReturnsWrite
  exact ⟨claims_returnsWrite, claims_badRepliesPoison, claims_poisonTrapsAtRead, claims_storeAcknowledged⟩

end Sys2Proof.Proofs
end

