-- ==== Sys2Proof/Proofs/Steps.lean ====
section
/-! A step of the package runs the instruction decoded, and what falls due and what arrives in its order (R26, R30, R182, R233, R376). -/

namespace Sys2Proof.Proofs

open Sys2Proof.Machine Sys2Proof.Says Sys2Proof.Laws

/-! ### Which step is next -/

theorem step_work {s : State} (hpower : s.power = true) (hstart : s.startStop = none) : step s = s.work := by
  have hstop : s.stop = none := by simp [State.stop, hpower, hstart]
  rw [step, hstop]

theorem work_due {s : State} {i : Instr} {is : List Instr} (hstopped : s.stopped = false) (hdues : s.dues = i :: is) :
    s.work = State.event { s with dues := is } i := by
  rw [State.work, hstopped, if_neg (by decide), hdues]

theorem work_idle {s : State} (hstopped : s.stopped = false) (hdues : s.dues = []) (hagenda : s.agenda = []) : s.work = s.turn := by
  rw [State.work, hstopped, if_neg (by decide), hdues, hagenda]

theorem work_agenda {s : State} {i : Instr} {is : List Instr} (hstopped : s.stopped = false) (hdues : s.dues = [])
    (hagenda : s.agenda = i :: is) : s.work =
      if s.workNow then s.perform1 (s.firstWork i is) ((i :: is).erase (s.firstWork i is))
      else State.turn { s.draw with deferred := s.deferred + 1 } := by
  rw [State.work, hstopped, if_neg (by decide), hdues, hagenda]

/-- The step in which a scheduler issues is its slot. -/
theorem step_slot {s s' : State} {key run : Nat} {p : Path} (h : Issues s s' key p run) : step s = s'.slot key := by
  obtain ⟨⟨hpower, hstart, hstopped, hdues⟩, hturn, hkey, -, -⟩ := h
  have hslot : s'.turn = s'.slot key := by rw [State.turn, hkey]
  rw [step_work hpower hstart]
  rcases hturn with ⟨hagenda, rfl⟩ | ⟨hagenda, hnow, rfl⟩ | ⟨hnow, rfl, i, is, k, hagenda, hwork⟩
  · rw [work_idle hstopped hdues hagenda, hslot]
  · obtain ⟨i, is, hcons⟩ := List.exists_cons_of_ne_nil hagenda
    rw [work_agenda hstopped hdues hcons, hnow, if_neg (by decide)]
    exact hslot
  · have hland : landing (.granuleLand k) = true := rfl
    rw [work_agenda hstopped hdues hagenda, hnow, if_pos rfl, hwork, State.perform1, if_pos hland, hkey, Option.isSome_some, if_pos rfl, hslot]

/-! ### What the slot finds -/

theorem natLe_wordBytes (w : Word) : BitVec.ofNat 32 (leNat (wordBytes w)) = w := by
  apply BitVec.eq_of_toNat_eq
  have hw := w.isLt
  simp only [wordBytes, leNat, BitVec.extractLsb'_toNat, Nat.shiftRight_eq_div_pow, BitVec.toNat_ofNat]
  omega

/-- A word alone is fetched as the chain. -/
theorem fetchChain_one {g r : State} {u : Thread} {k n : Nat} {w : Word} {loc : Nat} {e : BitVec 64} {l : Nat} (h31 : w.getLsbD 31 = false)
    (htranslate : g.translate (g.ctxOf u.tid) (some (g.coreOf u.tid)) (coreDie (g.coreOf u.tid))
      ((g.codeBase u + 12 * u.pkt.toNat + 4 * k) % 2 ^ 64) false = (r, .ok loc e l))
    (hbytes : r.fresh (g.ctxOf u.tid) loc 4 = wordBytes w) : g.fetchChain u (n + 1) k = (r, .ok [w]) := by
  have hfetch : g.fetch u k = (r, .word w) := by
    unfold State.fetch
    dsimp only
    rw [htranslate]
    dsimp only
    rw [hbytes, natLe_wordBytes]
  unfold State.fetchChain
  rw [hfetch]
  dsimp only
  rw [h31, Bool.false_and, if_neg (by decide)]

theorem dueTrap_none {g : State} (h : ∀ t ∈ g.gangThreads, t.due = none) : g.dueTrap = none := by
  have hdue : g.trapsDue = [] := List.filter_eq_nil_iff.mpr fun t ht => by simp [h t ht]
  rw [State.dueTrap, hdue]

/-- A gang that stands at a word alone is judged on it. -/
theorem verdict_one {g r : State} {u : Thread} {k : Nat} {w : Word} (h : Stands g r u k w) (h31 : w.getLsbD 31 = false)
    (hdue : ∀ t ∈ g.gangThreads, t.due = none) : g.verdict = r.checkWords u k [w] := by
  obtain ⟨us, hgang⟩ := h.first
  obtain ⟨hword, hlow, hhigh⟩ := h.word
  obtain ⟨loc, e, l, htranslate, hbytes⟩ := h.bytes
  obtain ⟨n, hn⟩ : ∃ n, 3 - k = n + 1 := ⟨2 - k, by omega⟩
  unfold State.verdict
  rw [hgang]
  dsimp only
  rw [dueTrap_none hdue]
  dsimp only
  rw [hword, if_neg (by omega), hn, fetchChain_one h31 htranslate hbytes]
  dsimp only
  have hpos : (k == 0) = false := by simp; omega
  rw [hpos, Bool.false_and, if_neg (by decide)]

theorem gangThreads_congr {r g : State} (hgang : r.gang = g.gang) (hthreads : r.threads = g.threads) : r.gangThreads = g.gangThreads := by
  rw [State.gangThreads, State.gangThreads, hgang, hthreads]

/-- The paths of a scheduler that could issue. -/
def readyPaths (s : State) (key : Nat) : List Nat := (s.paths.filter fun q => s.pathKey q == key && s.issuable q).map fun q => q.id

/-- The slot of a scheduler whose gang is stopped before its word. -/
theorem slot_done {s s' t : State} {key run : Nat} {p : Path} (h : Issues s s' key p run) (hverdict : (s'.formGang p).verdict = .done t) :
    s'.slot key = .next (t.afterStop (s'.formGang p) key p.id run (readyPaths s' key)) := by
  have hgranted : s'.withheld.contains (false, key) = false := by simpa using h.granted
  unfold State.slot
  rw [h.path]
  dsimp only
  rw [hgranted, if_neg (by decide), hverdict]
  rfl

/-- The slot of a scheduler whose gang issues words. -/
theorem slot_run {s s' g : State} {key run : Nat} {p : Path} {ws : List Instr} (h : Issues s s' key p run)
    (hverdict : (s'.formGang p).verdict = .run g ws) :
    s'.slot key = onNext (fun t => t.afterIssue g.ready key p.id run (readyPaths s' key) ws) (issueWords g.gangWord ws g.ready) := by
  have hgranted : s'.withheld.contains (false, key) = false := by simpa using h.granted
  unfold State.slot
  rw [h.path]
  dsimp only
  rw [hgranted, if_neg (by decide), hverdict]
  dsimp only
  cases issueWords g.gangWord ws g.ready <;> rfl

theorem ready_gangThreads_again {r : State} (hagain : ∀ t ∈ r.gangThreads, t.again = []) : ∀ t ∈ r.ready.gangThreads, t.again = [] := by
  intro t ht
  obtain ⟨hmem, hgang⟩ := mem_gangThreads.mp ht
  obtain ⟨v, hv, rfl⟩ := List.mem_map.mp hmem
  by_cases hvg : v.uid ∈ r.gang
  · rw [if_pos (by simpa using hvg)]
    show v.again.filter _ = []
    rw [hagain v (mem_gangThreads.mpr ⟨hv, hvg⟩), List.filter_nil]
  · rw [if_neg (by simpa using hvg)] at hgang
    exact absurd hgang hvg

/-- A word alone in a gang that has none to issue again is its instruction. -/
theorem issueWords_one {r : State} (hagain : ∀ t ∈ r.gangThreads, t.again = []) (k : Nat) (i : Instr) :
    issueWords k [i] r.ready = exec i r.ready := by
  have hreissues : r.ready.gangThreads.any Thread.reissues = false :=
    List.any_eq_false.mpr fun t ht => by simp [redo_none (ready_gangThreads_again hagain t ht)]
  rw [issueWords, hreissues, if_neg (by decide)]

theorem step_runs {s s' r : State} {key run : Nat} {p : Path} {u : Thread} {k : Nat} {w : Word} {i : Instr} (hissues : Issues s s' key p run)
    (hstands : Stands (s'.formGang p) r u k w) (h31 : w.getLsbD 31 = false) (hmajor : field w 30 26 ≠ 0) (hw : decodeWord w = .ok i)
    (hgang : r.gang = (s'.formGang p).gang) (hthreads : r.threads = (s'.formGang p).threads) (hfree : Unhindered r u k i) :
    step s = onNext (fun t => t.afterIssue r.ready key p.id run (readyPaths s' key) [i]) (exec i r.ready) := by
  have hsame := gangThreads_congr hgang hthreads
  have hplain : ∀ t ∈ r.gangThreads, t.again = [] := by rw [hsame]; exact hstands.plain
  have hdue : ∀ t ∈ (s'.formGang p).gangThreads, t.due = none := by rw [← hsame]; exact hfree.due
  have hne : r.gangThreads ≠ [] := by
    obtain ⟨us, hus⟩ := hstands.first
    rw [hsame, hus]
    exact List.cons_ne_nil u us
  have hchecks := checkWords_one hne hplain hw hmajor h31 hfree.toUnstopped
  rw [checkChain_one hfree.toUnstopped, hfree.poison] at hchecks
  rw [step_slot hissues, slot_run hissues ((verdict_one hstands h31 hdue).trans hchecks), issueWords_one hplain]

theorem step_stops {s s' r t : State} {key run : Nat} {p : Path} {u : Thread} {k : Nat} {w : Word} (hissues : Issues s s' key p run)
    (hstands : Stands (s'.formGang p) r u k w) (h31 : w.getLsbD 31 = false) (hdue : ∀ v ∈ (s'.formGang p).gangThreads, v.due = none)
    (hdone : r.checkWords u k [w] = .done t) :
    step s = .next (t.afterStop (s'.formGang p) key p.id run (readyPaths s' key)) := by
  rw [step_slot hissues, slot_done hissues ((verdict_one hstands h31 hdue).trans hdone)]

/-! ### Events -/

/-- An event runs with no gang. -/
theorem event_eq (s : State) (i : Instr) : s.event i = onNext (fun t => t.afterEvent s.trapped) (exec i { s with gang := [] }) := by
  unfold State.event
  cases exec i { s with gang := [] } <;> rfl

theorem step_due {s : State} {i : Instr} {is : List Instr} (hpower : s.power = true) (hstart : s.startStop = none) (hstopped : s.stopped = false)
    (hdues : s.dues = i :: is) : step s = onNext (fun t => t.afterEvent s.trapped) (exec i { s with dues := is, gang := [] }) := by
  rw [step_work hpower hstart, work_due hstopped hdues, event_eq]

/-! #### The least of a list -/

theorem minBy_isSome {α : Type} (key : α → Nat) (x : α) (xs : List α) : ∃ y, minBy key (x :: xs) = some y := by
  unfold minBy
  split
  · exact ⟨_, rfl⟩
  · split
    · exact ⟨_, rfl⟩
    · exact ⟨_, rfl⟩

theorem minBy_mem {α : Type} {key : α → Nat} {xs : List α} {x : α} (h : minBy key xs = some x) : x ∈ xs ∧ ∀ y ∈ xs, key x ≤ key y := by
  induction xs generalizing x with
  | nil => cases h
  | cons y ys ih =>
    unfold minBy at h
    split at h
    · next hnone =>
      obtain rfl := Option.some.inj h
      cases ys with
      | nil => exact ⟨List.mem_cons_self, by simp⟩
      | cons z zs =>
        obtain ⟨v, hv⟩ := minBy_isSome key z zs
        cases hnone.symm.trans hv
    · next z hz =>
      obtain ⟨hmem, hle⟩ := ih hz
      split at h
      · next hyz =>
        obtain rfl := Option.some.inj h
        exact ⟨List.mem_cons_self, List.forall_mem_cons.mpr ⟨le_rfl, fun v hv => hyz.trans (hle v hv)⟩⟩
      · next hyz =>
        obtain rfl := Option.some.inj h
        exact ⟨List.mem_cons_of_mem y hmem, List.forall_mem_cons.mpr ⟨by omega, hle⟩⟩

/-! #### The requests for one sector -/

/-- The operation of a request, where it is one for the sector of `o` that left in the same cycle. -/
def sameSector (s : State) (o : Op) (x : Instr) : Option Op :=
  ((requestOp x).bind s.op).filter fun q => sectorKey q.ctx q.loc == sectorKey o.ctx o.loc && q.sent == o.sent

/-- The place of an operation's core among the agents. -/
def agentRank (o : Op) : Nat := agentDie o.agent * 65536 + o.agent

theorem firstWork_request {s : State} {i : Instr} {is : List Instr} {o : Op} (h : (requestOp i).bind s.op = some o) :
    s.firstWork i is = (minBy (fun x => (sameSector s o x).elim (2 ^ 32) agentRank) (i :: is)).getD i := by
  rw [State.firstWork, h]
  rfl

theorem firstWork_other {s : State} {i : Instr} (is : List Instr) (h : (requestOp i).bind s.op = none) : s.firstWork i is = i := by
  rw [State.firstWork, h]

theorem firstWork_mem (s : State) (i : Instr) (is : List Instr) : s.firstWork i is ∈ i :: is := by
  cases h : (requestOp i).bind s.op with
  | none =>
    rw [firstWork_other is h]
    exact List.mem_cons_self
  | some o =>
    obtain ⟨x, hx⟩ := minBy_isSome (fun x => (sameSector s o x).elim (2 ^ 32) agentRank) i is
    rw [firstWork_request h, hx]
    exact (minBy_mem hx).1

theorem sameSector_eq_some {s : State} {o q : Op} {x : Instr} : sameSector s o x = some q ↔
    (requestOp x).bind s.op = some q ∧ sectorKey q.ctx q.loc = sectorKey o.ctx o.loc ∧ q.sent = o.sent := by
  simp [sameSector, Option.filter_eq_some_iff]

theorem op_mem {s : State} {id : Nat} {o : Op} (h : s.op id = some o) : o ∈ s.ops := List.mem_of_find?_eq_some h

/-- Of the requests for one sector the one of the lowest agent comes first. -/
theorem firstWork_lowest {s : State} {i : Instr} {is : List Instr} {o : Op} (h : (requestOp i).bind s.op = some o)
    (hranks : ∀ q ∈ s.ops, agentRank q < 2 ^ 32) :
    ∃ q, sameSector s o (s.firstWork i is) = some q ∧ ∀ y ∈ i :: is, ∀ z, sameSector s o y = some z → agentRank q ≤ agentRank z := by
  obtain ⟨x, hx⟩ := minBy_isSome (fun x => (sameSector s o x).elim (2 ^ 32) agentRank) i is
  have hfirst : s.firstWork i is = x := by rw [firstWork_request h, hx]; rfl
  obtain ⟨-, hle⟩ := minBy_mem hx
  have hself : sameSector s o i = some o := sameSector_eq_some.mpr ⟨h, rfl, rfl⟩
  obtain ⟨k, -, hk⟩ := Option.bind_eq_some_iff.mp h
  have hlow := hle i List.mem_cons_self
  rw [hself, Option.elim_some] at hlow
  rw [hfirst]
  cases hq : sameSector s o x with
  | none =>
    rw [hq, Option.elim_none] at hlow
    exact absurd hlow (by have := hranks o (op_mem hk); omega)
  | some q =>
    refine ⟨q, rfl, fun y hy z hz => ?_⟩
    have := hle y hy
    rwa [hq, hz, Option.elim_some, Option.elim_some] at this

/-- The step in which work that has been posted is done. -/
theorem step_agenda {s : State} {i : Instr} {is : List Instr} (hpower : s.power = true) (hstart : s.startStop = none)
    (hstopped : s.stopped = false) (hdues : s.dues = []) (hagenda : s.agenda = i :: is) (hnow : s.workNow = true)
    (hland : (∀ k, s.firstWork i is ≠ .granuleLand k) ∨ s.issueKey = none) :
    step s = onNext (fun t => t.afterEvent s.trapped) (exec (s.firstWork i is) { s with
      agenda := (i :: is).erase (s.firstWork i is), gang := [], deferred := 0, freeCtr := s.freeCtr + 1
      cursor := if landing (s.firstWork i is) then 2 ^ 32 else s.cursor }) := by
  rw [step_work hpower hstart, work_agenda hstopped hdues hagenda, hnow, if_pos rfl]
  generalize s.firstWork i is = x at hland ⊢
  unfold State.perform1
  by_cases hx : landing x = true
  · have hkey : s.issueKey = none := by
      refine hland.resolve_left fun hne => ?_
      unfold landing at hx
      split at hx
      · exact hne _ rfl
      · cases hx
    rw [if_pos hx, if_pos hx, hkey, Option.isSome_none, if_neg (by decide), event_eq]
    rfl
  · rw [if_neg hx, if_neg hx, event_eq]
    rfl

/-- Settles O1. -/
theorem stepRunsDecodedInstruction : Obligations.StepRunsDecodedInstruction := by
  unfold Obligations.StepRunsDecodedInstruction Claims.StepRunsDecodedInstruction
  refine ⟨?_, ?_, ?_⟩
  · intro s s' r key run p u k w i hissues hstands h31 hmajor hw hgang hthreads hfree ready
    rw [step_runs hissues hstands h31 hmajor hw hgang hthreads hfree]
    cases exec i r.ready <;> rfl
  · intro s s' r t key run p u k w hissues hstands h31 _ hdue hdone
    exact step_stops hissues hstands h31 hdue hdone
  · intro s i is hpower hstart hstopped
    refine ⟨fun hdues => ?_, fun hdues hagenda hnow => ?_⟩
    · rw [step_due hpower hstart hstopped hdues]
      cases exec i { s with dues := is, gang := [] } <;> rfl
    · intro x op rank with_
      refine ⟨firstWork_mem s i is, firstWork_other is, fun o ho hranks => ?_, fun hland => ?_⟩
      · obtain ⟨q, hq, hle⟩ := firstWork_lowest ho hranks
        exact ⟨q, sameSector_eq_some.mp hq, fun y hy z hz => hle y hy z (sameSector_eq_some.mpr hz)⟩
      · rw [step_agenda hpower hstart hstopped hdues hagenda hnow hland]
        have hcursor : (if landing (s.firstWork i is) then 2 ^ 32 else s.cursor) =
            (match s.firstWork i is with | .granuleLand _ => 2 ^ 32 | _ => s.cursor) := by
          cases s.firstWork i is <;> rfl
        rw [hcursor]
        generalize hout : exec (s.firstWork i is) _ = out
        cases out <;> rfl

end Sys2Proof.Proofs
end

