-- ==== Sys2Proof/Proofs/Homes.lean ====
section
/-! What accesses at the homes can change of the package (R177-R182, R330-R333): bytes, syndromes and tags, homes and copies, the translation
caches, marks in contexts, and the events posted. -/

namespace Sys2Proof.Proofs

open Sys2Proof.Machine Sys2Proof.Says Sys2Proof.Laws

/-! ### The frame -/

/-- Only what accesses at the homes change differs, and the operations in flight keep their numbers. -/
def Homely (s t : State) : Prop :=
  ∃ mem syn gtag home homeBase ops agenda l1 tlb ctxs fwCtx outbox, t = { s with
    mem := mem, syn := syn, gtag := gtag, home := home, homeBase := homeBase, ops := ops, agenda := agenda, l1 := l1, tlb := tlb, ctxs := ctxs
    fwCtx := fwCtx, outbox := outbox } ∧ ops.map Op.id = s.ops.map Op.id

theorem Homely.refl (s : State) : Homely s s := ⟨_, _, _, _, _, _, _, _, _, _, _, _, rfl, rfl⟩

theorem Homely.trans {s t u : State} (hst : Homely s t) (htu : Homely t u) : Homely s u := by
  obtain ⟨_, _, _, _, _, _, _, _, _, _, _, _, rfl, hops⟩ := hst
  obtain ⟨_, _, _, _, _, _, _, _, _, _, _, _, rfl, hops'⟩ := htu
  exact ⟨_, _, _, _, _, _, _, _, _, _, _, _, rfl, hops'.trans hops⟩

/-- One such change after another. -/
theorem homely_foldl {α : Type} {f : State → α → State} (h : ∀ s x, Homely s (f s x)) (xs : List α) (s : State) : Homely s (xs.foldl f s) := by
  induction xs generalizing s with
  | nil => exact Homely.refl s
  | cons x xs ih => exact (h s x).trans (ih (f s x))

theorem Homely.ite {s t u : State} {p : Prop} [Decidable p] (ht : Homely s t) (hu : Homely s u) : Homely s (if p then t else u) := by
  split
  · exact ht
  · exact hu

/-! ### Bytes, syndromes, tags and events -/

theorem homely_setByte (s : State) (loc : Nat) (v : Byte) : Homely s (s.setByte loc v) := ⟨_, _, _, _, _, _, _, _, _, _, _, _, rfl, rfl⟩

theorem homely_setBytes (s : State) (loc : Nat) (bs : List Byte) : Homely s (s.setBytes loc bs) := by
  induction bs generalizing s loc with
  | nil => exact Homely.refl s
  | cons b bs ih => exact (homely_setByte s loc b).trans (ih _ _)

theorem homely_setSyn (s : State) (loc : Nat) (v : BitVec 16) : Homely s (s.setSyn loc v) := ⟨_, _, _, _, _, _, _, _, _, _, _, _, rfl, rfl⟩
theorem homely_setTag (s : State) (loc : Nat) (v : BitVec 64) : Homely s (s.setTag loc v) := ⟨_, _, _, _, _, _, _, _, _, _, _, _, rfl, rfl⟩
theorem homely_post (s : State) (es : List Instr) : Homely s (s.post es) := ⟨_, _, _, _, _, _, _, _, _, _, _, _, rfl, rfl⟩
theorem homely_unpost (s : State) (es : List Instr) : Homely s (s.unpost es) := ⟨_, _, _, _, _, _, _, _, _, _, _, _, rfl, rfl⟩

theorem homely_hemFault (s : State) (tag : BitVec 64) (loc : Nat) (syn : BitVec 16) : Homely s (s.hemFault tag loc syn) :=
  Homely.ite (Homely.refl s) (homely_post s _)

theorem homely_hostCheck (s : State) (loc : Nat) (way : BitVec 64) (syns : List (BitVec 16)) : Homely s (s.hostCheck loc way syns) :=
  Homely.ite (homely_foldl (fun s _ => homely_hemFault s _ _ _) _ s) (Homely.refl s)

theorem homely_setGranules (s : State) (loc : Nat) (bs : List Byte) (syns : List (BitVec 16)) : Homely s (s.setGranules loc bs syns) :=
  (homely_setBytes s loc bs).trans (homely_foldl (fun s _ => homely_setSyn s _ _) _ _)

theorem homely_takeGranules (s : State) (sec src : Nat) (img : SecImg) : Homely s (s.takeGranules sec src img) :=
  ((homely_foldl (fun s _ => homely_hostCheck s _ _ _) _ s).trans (homely_setGranules _ _ _ _)).trans
    (homely_foldl (fun s _ => homely_setTag s _ _) _ _)

/-! ### Homes and copies -/

theorem homely_putHome (s : State) (h : HomeSec) : Homely s (s.putHome h) := ⟨_, _, _, _, _, _, _, _, _, _, _, _, rfl, rfl⟩
theorem homely_dropL1 (s : State) (core sec : Nat) : Homely s (s.dropL1 core sec) := ⟨_, _, _, _, _, _, _, _, _, _, _, _, rfl, rfl⟩

theorem homely_modL1 (s : State) (core sec : Nat) (f : L1Sec → L1Sec) : Homely s (s.modL1 core sec f) :=
  ⟨_, _, _, _, _, _, _, _, _, _, _, _, rfl, rfl⟩

theorem homely_noteHome (s : State) (sec v : Nat) : Homely s (s.noteHome sec v) :=
  Homely.ite (Homely.refl s) ⟨_, _, _, _, _, _, _, _, _, _, _, _, rfl, rfl⟩

theorem homely_wakeMonitors (s : State) (sec wts : Nat) : Homely s (s.wakeMonitors sec wts) := homely_post s _

theorem homely_orderWrite (s : State) (sec lt : Nat) : Homely s (s.orderWrite sec lt).1 :=
  ((homely_putHome s _).trans (homely_noteHome _ _ _)).trans (homely_wakeMonitors _ _ _)

theorem homely_patchGrants (s : State) (sec : Nat) : Homely s (s.patchGrants sec) := by
  refine ⟨_, _, _, _, _, _, _, _, _, _, _, _, rfl, ?_⟩
  rw [List.map_map]
  refine List.map_congr_left fun o _ => ?_
  exact (apply_ite Op.id _ _ _).trans (ite_self _)

theorem homely_takeImg (s : State) (h : HomeSec) (agent : Nat) (img : SecImg) : Homely s (s.takeImg h agent img) :=
  ((Homely.ite (Homely.refl s) (homely_takeGranules s _ _ _)).trans (homely_noteHome _ _ _)).trans (homely_putHome _ _)

theorem homely_settleHome (s : State) (sec c : Nat) (wb : Bool) (queue : List Nat) : Homely s (s.settleHome sec c wb queue) :=
  (homely_putHome s _).trans (homely_post _ _)

theorem homely_bringHome {s : State} {sec c : Nat} {give : Bool} {r : State × Bool} (h : s.bringHome sec c give = some r) : Homely s r.1 := by
  unfold State.bringHome at h
  dsimp only at h
  split at h
  · obtain rfl := Option.some.inj h
    exact ((homely_unpost s _).trans (homely_takeImg _ _ _ _)).trans (Homely.ite (homely_dropL1 _ _ _) (homely_modL1 _ _ _ _))
  · obtain ⟨⟨i, img, wb⟩, -, rfl⟩ := Option.map_eq_some_iff.mp h
    exact (Homely.ite ⟨_, _, _, _, _, _, _, _, _, _, _, _, rfl, rfl⟩ (homely_unpost s _)).trans (homely_takeImg _ _ _ _)

theorem homely_pull (s : State) (sec : Nat) : Homely s (s.pull sec) := by
  unfold State.pull
  dsimp only
  split
  · exact Homely.refl s
  · split
    · next h => exact (homely_bringHome h).trans (homely_settleHome _ _ _ _ _)
    · exact Homely.refl s
  · split
    · split
      · next h => exact (homely_bringHome h).trans (homely_settleHome _ _ _ _ _)
      · exact Homely.refl s
    · exact Homely.refl s
  · split
    · next h => exact (homely_bringHome h).trans (homely_settleHome _ _ _ _ _)
    · exact Homely.refl s
  · split
    · next h => exact (homely_bringHome h).trans (homely_settleHome _ _ _ _ _)
    · exact Homely.refl s
  · split
    · next h =>
      obtain ⟨_, -, h⟩ := Option.bind_eq_some_iff.mp h
      exact (homely_bringHome h).trans (homely_settleHome _ _ _ _ _)
    · exact Homely.refl s

/-! ### Accesses -/

theorem homely_ucRead (s : State) (c loc n : Nat) : Homely s (s.ucRead c loc n).1 := homely_foldl (fun s _ => homely_pull s _) _ s

theorem homely_reportBad (s : State) (c loc n core cons : Nat) : Homely s (s.reportBad c loc n core cons) :=
  homely_foldl (fun s _ => homely_hemFault s _ _ _) _ s

theorem homely_sysRead (s : State) (c die loc n : Nat) : Homely s (s.sysRead c die loc n).1 :=
  Homely.ite (homely_ucRead s c loc n) ((homely_ucRead s c loc n).trans (homely_reportBad _ _ _ _ _ _))

theorem homely_homeWrite (s : State) (c loc : Nat) (bs : List Byte) (lt : Nat) : Homely s (s.homeWrite c loc bs lt).1 := by
  have hpull := homely_pull s (sectorKey c loc)
  have hbytes := (hpull.trans (homely_orderWrite _ (sectorKey c loc) lt)).trans (homely_setBytes _ loc bs)
  unfold State.homeWrite
  dsimp only
  split
  · exact hpull
  · have hsyns := hbytes.trans (Homely.ite (p := (loc % 32 == 0 && bs.length % 32 == 0) = true)
      (homely_foldl (fun s i => homely_setSyn s (loc + 32 * i) 0) (List.range (bs.length / 32)) _) (Homely.refl _))
    exact (hsyns.trans (homely_foldl (fun s _ => homely_setTag s _ _) _ _)).trans (homely_patchGrants _ _)

theorem homely_ucWrite (s : State) (c loc : Nat) (bs : List Byte) (lt : Nat) : Homely s (s.ucWrite c loc bs lt).1 := by
  unfold State.ucWrite
  generalize (List.range ((loc % 64 + bs.length + 63) / 64)) = is
  have h (is : List Nat) (r : State × Nat × Bool) (hr : Homely s r.1) : Homely s (is.foldl (fun (r : State × Nat × Bool) i =>
      let lo := if i == 0 then loc else loc / 64 * 64 + 64 * i
      let hi := min (loc + bs.length) (loc / 64 * 64 + 64 * (i + 1))
      let w := r.1.homeWrite c lo ((bs.drop (lo - loc)).take (hi - lo)) lt
      (w.1, max r.2.1 w.2.1, r.2.2 && w.2.2)) r).1 := by
    induction is generalizing r with
    | nil => exact hr
    | cons i is ih => exact ih _ (hr.trans (homely_homeWrite _ _ _ _ _))
  exact h is (s, lt, true) (Homely.refl s)

/-! ### Translation -/

theorem homely_cache (s : State) (t : TlbEnt) (cap : Nat) : Homely s (s.cache t cap) := by
  unfold State.cache
  dsimp only
  split
  · exact ⟨_, _, _, _, _, _, _, _, _, _, _, _, rfl, rfl⟩
  · split
    · exact ⟨_, _, _, _, _, _, _, _, _, _, _, _, rfl, rfl⟩
    · exact ⟨_, _, _, _, _, _, _, _, _, _, _, _, rfl, rfl⟩

theorem homely_walk (c die va : Nat) (write : Bool) (n : Nat) (s : State) (level table : Nat) :
    Homely s (s.walk c die va write n level table).1 := by
  induction n generalizing s level table with
  | zero => exact Homely.refl s
  | succ n ih =>
    have hread := homely_sysRead s c die (table + 8 * (va / 2 ^ levelShift level % levelEntries level)) 8
    unfold State.walk
    dsimp only
    split
    · exact ih s _ _
    · split
      · exact hread
      · split
        · exact hread
        · split
          · exact hread
          · split
            · exact hread
            · exact (hread.trans (homely_cache _ _ _)).trans (ih _ _ _)

theorem homely_translate (s : State) (c : Nat) (core : Option Nat) (die va : Nat) (write : Bool) :
    Homely s (s.translate c core die va write).1 := by
  unfold State.translate
  split
  · exact Homely.refl s
  · dsimp only
    split
    · exact Homely.refl s
    · have hwalk := homely_walk c die va write 4 s 0 (match s.ctx c with | some x => x.root | none => 0)
      split
      · cases core with
        | none => exact hwalk.trans (homely_cache _ _ _)
        | some k => exact (hwalk.trans (homely_cache _ _ _)).trans (homely_cache _ _ _)
      · exact hwalk

theorem homely_locate (s : State) (c die va : Nat) (write : Bool) : Homely s (s.locate c die va write).1 := by
  have h := homely_translate s c none die va write
  unfold State.locate
  dsimp only
  split
  · exact h
  · exact h

theorem homely_read8 (s : State) (c va : Nat) : Homely s (s.read8 c va).1 := by
  have h := homely_locate s c 0 va false
  unfold State.read8
  dsimp only
  split
  · exact h
  · exact h.trans (homely_sysRead _ _ _ _ _)

theorem homely_mapHeader (s : State) (l : Launch) : Homely s (s.mapHeader l).1 := by
  unfold State.mapHeader
  split
  · exact Homely.refl s
  · exact homely_read8 s _ _

/-! ### Records -/

theorem homely_modCtx (s : State) (n : Nat) (f : Ctx → Ctx) : Homely s (s.modCtx n f) :=
  Homely.ite ⟨_, _, _, _, _, _, _, _, _, _, _, _, rfl, rfl⟩ ⟨_, _, _, _, _, _, _, _, _, _, _, _, rfl, rfl⟩

/-- A notice to a host may follow. -/
theorem homely_noticed {s t : State} {p : Prop} [Decidable p] {out : List OutMsg} (h : Homely s t) :
    Homely s (if p then { t with outbox := out } else t) :=
  Homely.ite (h.trans ⟨_, _, _, _, _, _, _, _, _, _, _, _, rfl, rfl⟩) h

theorem homely_dropRecord (s : State) (c : Nat) : Homely s (s.dropRecord c) := by
  unfold State.dropRecord
  split
  · exact Homely.refl s
  · apply homely_noticed
    exact homely_modCtx s c _

theorem homely_record (s : State) (c : Nat) (r : FRec) : Homely s (s.record c r) := by
  unfold State.record
  split
  · exact Homely.refl s
  · next x _ =>
    have hhead := homely_locate s c r.die x.frqb.toNat true
    dsimp only
    split
    · exact hhead.trans (homely_dropRecord _ _)
    · next h _ =>
      have hread := hhead.trans (homely_ucRead _ c h 64)
      split
      · have hwrite (bs : List Byte) := hread.trans (homely_homeWrite _ c (h + 8) bs 0)
        exact Homely.ite ((hwrite _).trans (homely_modCtx _ _ _)) ((hwrite _).trans (homely_dropRecord _ _))
      · have hplace (va : Nat) := hread.trans (homely_locate _ c r.die va true)
        split
        · exact (hplace _).trans (homely_dropRecord _ _)
        · apply homely_noticed
          exact (((hplace _).trans (homely_ucWrite _ _ _ _ _)).trans (homely_homeWrite _ _ _ _ _)).trans (homely_modCtx _ _ _)

theorem homely_queueRecord (s : State) (c kind q number : Nat) : Homely s (s.queueRecord c kind q number) := homely_record s c _

end Sys2Proof.Proofs
end

