-- ==== Sys2Proof/Proofs/Launches.lean ====
section
/-! Posting launches: what `LAUNCH` waits for, answers and appends (R315, R318), a host's control word (R319) and the firmware's posts
(R42). -/

namespace Sys2Proof.Proofs

open Sys2Proof.Machine Sys2Proof.Says Sys2Proof.Laws

/-! ### Queues -/

theorem queue_number (s : State) (q : Nat) : (s.queue q).q = q := by
  unfold State.queue
  cases h : s.queues.find? fun x => x.q == q with
  | none => rfl
  | some x => simpa using List.find?_some h

theorem mem_insertBy {α : Type} {key : α → Nat} {x y : α} {l : List α} : y ∈ insertBy key x l ↔ y = x ∨ y ∈ l := by
  induction l with
  | nil => simp [insertBy]
  | cons z l ih =>
    unfold insertBy
    split
    · exact List.mem_cons
    · rw [List.mem_cons, ih, List.mem_cons]
      tauto

/-- The only element of a list with a property is found. -/
theorem find?_unique {α : Type} {p : α → Bool} {l : List α} {x : α} (hx : x ∈ l) (hp : p x = true) (h : ∀ y ∈ l, p y = true → y = x) :
    l.find? p = some x := by
  cases hf : l.find? p with
  | none => exact absurd hp (by simpa using List.find?_eq_none.mp hf x hx)
  | some y => rw [h y (List.mem_of_find?_eq_some hf) (List.find?_some hf)]

theorem settled_fields (x : Queue) : x.settled.q = x.q ∧ x.settled.prod = x.prod ∧ x.settled.lts = x.lts := by
  unfold Queue.settled
  split
  · split
    · exact ⟨rfl, rfl, rfl⟩
    · exact ⟨rfl, rfl, rfl⟩
  · split
    · exact ⟨rfl, rfl, rfl⟩
    · exact ⟨rfl, rfl, rfl⟩
  · split
    · exact ⟨rfl, rfl, rfl⟩
    · exact ⟨rfl, rfl, rfl⟩
  · exact ⟨rfl, rfl, rfl⟩

/-- The state with a queue's record put in the place of its old one. -/
def withQueue (s : State) (x : Queue) : State := { s with queues := insertBy Queue.q x (s.queues.filter fun y => y.q != x.q) }

/-- Putting a queue changes its record, and then its block in the queue pages. As an equation of functions the kernel checks it without
evaluating the addresses of that block. -/
theorem putQueue_def : State.putQueue = fun s x =>
    ((withQueue s x.settled).ucWrite fwNum ((withQueue s x.settled).queuePages + 32 * x.settled.q) x.settled.block 0).1 := rfl

theorem putQueue_eq (s : State) (x : Queue) : s.putQueue x =
    ((withQueue s x.settled).ucWrite fwNum ((withQueue s x.settled).queuePages + 32 * x.settled.q) x.settled.block 0).1 :=
  congrFun (congrFun putQueue_def s) x

theorem putQueue_homely (s : State) (x : Queue) : Homely (withQueue s x.settled) (s.putQueue x) := by
  rw [putQueue_eq]
  exact homely_ucWrite _ _ _ _ _

theorem Homely.queues {s t : State} (h : Homely s t) : t.queues = s.queues := by
  obtain ⟨_, _, _, _, _, _, _, _, _, _, _, _, rfl, -⟩ := h
  rfl

theorem Homely.queue {s t : State} (h : Homely s t) (q : Nat) : t.queue q = s.queue q := by
  unfold State.queue
  rw [h.queues]

theorem Homely.launches {s t : State} (h : Homely s t) : t.launches = s.launches := by
  obtain ⟨_, _, _, _, _, _, _, _, _, _, _, _, rfl, -⟩ := h
  rfl

theorem queue_putQueue {s : State} {x : Queue} {q : Nat} (hq : x.q = q) : (s.putQueue x).queue q = x.settled := by
  have hnum : x.settled.q = q := (settled_fields x).1.trans hq
  rw [(putQueue_homely s x).queue]
  unfold State.queue withQueue
  dsimp only
  rw [find?_unique (x := x.settled)]
  · rfl
  · exact mem_insertBy.mpr (.inl rfl)
  · simpa using hnum
  · intro y hy hyq
    rcases mem_insertBy.mp hy with rfl | hy
    · rfl
    · have hne : y.q ≠ x.settled.q := by simpa using (List.mem_filter.mp hy).2
      exact absurd (by simpa using hyq) (hnum ▸ hne)

theorem queue_modQueue (s : State) {q : Nat} {f : Queue → Queue} (hq : (f (s.queue q)).q = q) : (s.modQueue q f).queue q = (f (s.queue q)).settled :=
  queue_putQueue hq

theorem launches_putQueue (s : State) (x : Queue) : (s.putQueue x).launches = s.launches := (putQueue_homely s x).launches

/-! ### A host's control word -/

/-- The distance by which a host's write moves `PROD`. -/
def postedBy (s : State) (q : Nat) (value : BitVec 32) : Nat := numSub (field value 20 0) (s.queue q).prod

/-- The room of a queue admits what a host posts. -/
def postFits (s : State) (q : Nat) (value : BitVec 32) : Bool :=
  1 ≤ postedBy s q value && postedBy s q value ≤ (s.queue q).size - (s.queue q).used

theorem postFits_iff {s : State} {q : Nat} {value : BitVec 32} : postFits s q value = true ↔
    1 ≤ postedBy s q value ∧ postedBy s q value ≤ (s.queue q).size - (s.queue q).used := by
  simp [postFits]

/-- The queue takes nothing that a host posts. -/
def refusesPosts (x : Queue) : Bool := x.feed || !(x.state == .idle || x.state == .active || x.state == .blocked)

theorem refusesPosts_eq_false {x : Queue} : refusesPosts x = false ↔ x.feed = false ∧ (x.state = .idle ∨ x.state = .active ∨ x.state = .blocked) := by
  rw [refusesPosts, Bool.or_eq_false_iff, Bool.not_eq_false', Bool.or_eq_true, Bool.or_eq_true, or_assoc]
  simp only [beq_iff_eq]

section
variable {s : State} {host q c : Nat} {y : Ctx} {value : BitVec 32}

theorem exec_hostProdWrite (hctx : (s.queue q).ctx = some c) (hy : s.ctx c = some y) (hfree : y.state ≠ .free) :
    exec (.hostProdWrite host q value) s =
      if y.host ≠ host then .next s
      else if postedBy s q value == 0 || (postFits s q value && field value 31 21 != 0) then .next s
      else if refusesPosts (s.queue q) then .next (s.queueRecord c 4 q (s.queue q).prod)
      else if postFits s q value then .next (s.modQueue q fun x => { x with prod := field value 20 0 })
      else .next (s.queueRecord c 1 q (s.queue q).prod) := by
  have howner : (!(y.host == host && y.state != .free)) = true ↔ y.host ≠ host := by simp [hfree]
  simp only [← howner]
  show execHostProdWrite host q value s = _
  unfold execHostProdWrite
  dsimp only
  rw [hctx]
  dsimp only
  rw [hy]
  rfl

end

theorem claims_hostPosts : Claims.HostPosts := by
  intro s host q c y value hctx hy hfree x v d
  have hexec := exec_hostProdWrite (host := host) (value := value) hctx hy hfree
  have hd : postedBy s q value = d := rfl
  refine ⟨fun hhost => ?_, fun hhost => ⟨fun hnothing => ?_, fun hone hfit hzero hfeed hstate => ?_, fun hone hnot => ?_⟩⟩
  · rw [hexec, if_pos hhost]
  · have : (postedBy s q value == 0 || (postFits s q value && field value 31 21 != 0)) = true := by
      by_cases h0 : d = 0
      · simp [hd, h0]
      · obtain ⟨hfit, hfield⟩ := hnothing.resolve_left h0
        simp [postFits_iff.mpr ⟨Nat.one_le_iff_ne_zero.mpr h0, hfit⟩, hfield]
    rw [hexec, if_neg (by simp [hhost]), if_pos this]
  · have hposts : ¬ (postedBy s q value == 0 || (postFits s q value && field value 31 21 != 0)) = true := by
      have h0 : d ≠ 0 := by omega
      simp [hd, h0, hzero]
    have htakes : ¬ refusesPosts (s.queue q) = true := by rw [refusesPosts_eq_false.mpr ⟨hfeed, hstate⟩]; exact Bool.false_ne_true
    rw [if_neg (by simp [hhost]), if_neg hposts, if_neg htakes, if_pos (postFits_iff.mpr ⟨hone, hfit⟩)] at hexec
    refine ⟨_, hexec, ?_, launches_putQueue s _⟩
    rw [queue_modQueue s (f := fun x => { x with prod := field value 20 0 }) (queue_number s q)]
    exact (settled_fields _).2.1
  · have hposts : ¬ (postedBy s q value == 0 || (postFits s q value && field value 31 21 != 0)) = true := by
      have h0 : d ≠ 0 := by omega
      rcases hnot with h | ⟨hzero, -⟩
      · have hover : postFits s q value = false := by
          rw [Bool.eq_false_iff, Ne, postFits_iff]
          exact fun hfit => h hfit.2
        simp [hd, h0, hover]
      · simp [hd, h0, hzero]
    have hrecord : ∃ kind, exec (.hostProdWrite host q value) s = .next (s.queueRecord c kind q x.prod) := by
      rw [hexec, if_neg (by simp [hhost]), if_neg hposts]
      cases hrefuses : refusesPosts (s.queue q) with
      | true => exact ⟨4, if_pos rfl⟩
      | false =>
        obtain ⟨hfeed, hstate⟩ := refusesPosts_eq_false.mp hrefuses
        have hover : ¬ postFits s q value = true := by
          rw [postFits_iff]
          rintro ⟨-, hfit⟩
          rcases hnot with h | ⟨-, hfed | hdrain | hfault⟩
          · exact h hfit
          · exact Bool.false_ne_true (hfeed.symm.trans hfed)
          · simp [x, hdrain] at hstate
          · simp [x, hfault] at hstate
        exact ⟨1, by rw [if_neg Bool.false_ne_true, if_neg hover]⟩
    obtain ⟨kind, hrecord⟩ := hrecord
    have hkeeps := homely_queueRecord s c kind q x.prod
    exact ⟨_, hrecord, hkeeps.queues, hkeeps.launches⟩

/-! ### The firmware's posts -/

theorem launch_append {s : State} {ls : List Launch} {l : Launch} (hs : s.launches = ls ++ [l]) (hnew : ∀ x ∈ ls, x.lid < l.lid) :
    s.launch l.lid = some l := by
  have hnone : ls.find? (fun x => x.lid == l.lid) = none := by
    refine List.find?_eq_none.mpr fun x hx => ?_
    have := hnew x hx
    simp
    omega
  rw [State.launch, hs, List.find?_append, hnone]
  simp

theorem launch_modLaunch {s : State} {n : Nat} {l : Launch} {f : Launch → Launch} (hl : s.launch n = some l) (hf : ∀ x, (f x).lid = x.lid) :
    (s.modLaunch n f).launch n = some (f l) := by
  have hlid : l.lid = n := by simpa using List.find?_some hl
  have hsame : (fun x : Launch => x.lid == n) ∘ (fun x : Launch => if x.lid == n then f x else x) = fun x : Launch => x.lid == n := by
    funext x
    by_cases hx : x.lid = n
    · simp [hx, hf]
    · simp [hx]
  have hfind : s.launches.find? (fun x => x.lid == n) = some l := hl
  rw [State.launch, State.modLaunch, List.find?_map, hsame, hfind, Option.map_some, if_pos (by simpa using hlid)]

theorem Homely.launch {s t : State} (h : Homely s t) (n : Nat) : t.launch n = s.launch n := by
  unfold State.launch
  rw [h.launches]

/-- A launch that the firmware posted and that is not over is made FAULTED, and keeps the rest. -/
theorem launch_faultLaunch {s : State} {n kind : Nat} {l : Launch} {r : FRec} (hl : s.launch n = some l) (hover : l.state.over = false)
    (hqueue : l.queue = fwQueue) : (s.faultLaunch n kind r).launch n = some { l with state := .faulted, slot := false } := by
  have hfault (t : State) : t.faultQueue l 3 = t := by simp [State.faultQueue, hqueue]
  unfold State.faultLaunch
  rw [hl]
  dsimp only
  rw [if_neg (by simp [hover]), hfault, (homely_record _ _ _).launch]
  exact launch_modLaunch hl fun _ => rfl

/-- A launch as the firmware posts it. -/
def firmwareLaunch (s : State) (record : BitVec 1024) : Launch :=
  { Launch.fresh s.nextId fwNum fwQueue s.nextId 0 s.nextId with record := record, state := .waiting }

/-- Its dependences are not judged. -/
def withoutDeps (record : BitVec 1024) : BitVec 1024 := record &&& ~~~(BitVec.ofNat 1024 ((2 ^ 64 - 1) * 2 ^ 832))

/-- The package with the launch that the firmware posts. -/
def firmwarePosted (s : State) (record : BitVec 1024) : State :=
  { s with launches := s.launches ++ [firmwareLaunch s record], nextId := s.nextId + 1 }

/-- What becomes of it: the header of its map has been read, and its record checked. -/
def firmwareChecked (s : State) (record : BitVec 1024) : Option Nat :=
  ((firmwarePosted s record).mapHeader (firmwareLaunch s record)).1.launchCheck { firmwareLaunch s record with record := withoutDeps record }
    ((firmwarePosted s record).mapHeader (firmwareLaunch s record)).2

theorem firmware_faults {s : State} {c : Ctx} {record : BitVec 1024} {k : Nat} (hc : s.fwCtx = some c) (hk : firmwareChecked s record = some k) :
    exec (.firmwareQueuePost record) s =
      .next (((firmwarePosted s record).mapHeader (firmwareLaunch s record)).1.faultLaunch s.nextId k (FRec.blank 6 k)) := by
  show execFirmwareQueuePost record s = _
  unfold execFirmwareQueuePost
  unfold firmwareChecked withoutDeps at hk
  generalize ~~~(BitVec.ofNat 1024 ((2 ^ 64 - 1) * 2 ^ 832)) = mask at hk ⊢
  split
  · next h => cases h.symm.trans hc
  · dsimp only
    split
    · next k' h =>
      have hkk : some k' = some k := h.symm.trans hk
      rw [Option.some.inj hkk]
      rfl
    · next h =>
      have hkk : none = some k := h.symm.trans hk
      cases hkk

theorem firmware_dispatches {s : State} {c : Ctx} {record : BitVec 1024} (hc : s.fwCtx = some c) (hk : firmwareChecked s record = none) :
    exec (.firmwareQueuePost record) s =
      .next (((firmwarePosted s record).mapHeader (firmwareLaunch s record)).1.modLaunch s.nextId fun l =>
        { l with state := .dispatching, map := ((firmwarePosted s record).mapHeader (firmwareLaunch s record)).2 }) := by
  show execFirmwareQueuePost record s = _
  unfold execFirmwareQueuePost
  unfold firmwareChecked withoutDeps at hk
  generalize ~~~(BitVec.ofNat 1024 ((2 ^ 64 - 1) * 2 ^ 832)) = mask at hk ⊢
  split
  · next h => cases h.symm.trans hc
  · dsimp only
    split
    · next k' h =>
      have hkk : some k' = none := h.symm.trans hk
      cases hkk
    · rfl

/-! #### A record without its dependences -/

theorem getLsbD_withoutDeps (r : BitVec 1024) {i : Nat} (hi : i < 832 ∨ 896 ≤ i) : (withoutDeps r).getLsbD i = r.getLsbD i := by
  have hmask : ((2 ^ 64 - 1) * 2 ^ 832).testBit i = false := by
    rw [Nat.testBit_mul_two_pow, Nat.testBit_two_pow_sub_one]
    by_cases h : 832 ≤ i
    · simp [h]
      omega
    · simp [h]
  rw [withoutDeps, BitVec.getLsbD_and, BitVec.getLsbD_not, BitVec.getLsbD_ofNat, hmask]
  by_cases h : i < 1024
  · simp [h]
  · simp [BitVec.getLsbD_of_ge r i (by omega)]

theorem extract_withoutDeps (r : BitVec 1024) {lo n : Nat} (h : lo + n ≤ 832 ∨ 896 ≤ lo) :
    (withoutDeps r).extractLsb' lo n = r.extractLsb' lo n := by
  refine BitVec.eq_of_getLsbD_eq fun i hi => ?_
  rw [BitVec.getLsbD_extractLsb', BitVec.getLsbD_extractLsb', getLsbD_withoutDeps r (by omega)]

theorem deps_withoutDeps (r : BitVec 1024) : recDep0 (withoutDeps r) = 0 ∧ recDep1 (withoutDeps r) = 0 := by
  have hzero (lo : Nat) (hlo : 832 ≤ lo ∧ lo + 32 ≤ 896) : (withoutDeps r).extractLsb' lo 32 = 0 := by
    refine BitVec.eq_of_getLsbD_eq fun i hi => ?_
    have hmask : ((2 ^ 64 - 1) * 2 ^ 832).testBit (lo + i) = true := by
      rw [Nat.testBit_mul_two_pow, Nat.testBit_two_pow_sub_one]
      simp
      omega
    rw [BitVec.getLsbD_extractLsb', withoutDeps, BitVec.getLsbD_and, BitVec.getLsbD_not, BitVec.getLsbD_ofNat, hmask]
    simp
  exact ⟨congrArg BitVec.toNat (hzero 832 ⟨le_rfl, by decide⟩), congrArg BitVec.toNat (hzero 864 ⟨by decide, le_rfl⟩)⟩

theorem field_withoutDeps (r : BitVec 1024) {hi lo : Nat} (h : hi < 832 ∧ lo ≤ hi ∨ 896 ≤ lo) : field (withoutDeps r) hi lo = field r hi lo :=
  congrArg BitVec.toNat (extract_withoutDeps r (by omega))

/-- Every other field of a record stays. -/
theorem fields_withoutDeps (r : BitVec 1024) : recTsize (withoutDeps r) = recTsize r ∧ recWin (withoutDeps r) = recWin r ∧
    recScr (withoutDeps r) = recScr r ∧ recPriv (withoutDeps r) = recPriv r ∧ recAccs (withoutDeps r) = recAccs r :=
  ⟨field_withoutDeps r (by decide), field_withoutDeps r (by decide), field_withoutDeps r (by decide), field_withoutDeps r (by decide),
    field_withoutDeps r (by decide)⟩

theorem recFieldsOk_withoutDeps (r : BitVec 1024) : recFieldsOk (withoutDeps r) = recFieldsOk r := by
  obtain ⟨htsize, hwin, hscr, hpriv, haccs⟩ := fields_withoutDeps r
  have hstampa : recStampa (withoutDeps r) = recStampa r := field_withoutDeps r (by decide)
  have hpmap : recPmap (withoutDeps r) = recPmap r := field_withoutDeps r (by decide)
  have hprio : recPrio (withoutDeps r) = recPrio r := field_withoutDeps r (by decide)
  have hhcp : recHcp (withoutDeps r) = recHcp r := field_withoutDeps r (by decide)
  have htcount : recTcount (withoutDeps r) = recTcount r := field_withoutDeps r (by decide)
  have hentry : recEntry (withoutDeps r) = recEntry r := extract_withoutDeps r (by decide)
  have hhigh : field (withoutDeps r) 1023 960 = field r 1023 960 := field_withoutDeps r (by decide)
  have hft : field (withoutDeps r) 124 121 = field r 124 121 := field_withoutDeps r (by decide)
  have hreserved : (withoutDeps r).getLsbD 127 = r.getLsbD 127 := getLsbD_withoutDeps r (by decide)
  rw [recFieldsOk, hhigh, hreserved, hstampa, hpmap, hprio, haccs, hpriv, hscr, hhcp, hft, hwin, htsize, htcount, hentry]
  rfl

theorem recFits_withoutDeps (r : BitVec 1024) : recFits (withoutDeps r) = recFits r := by
  obtain ⟨htsize, hwin, hscr, hpriv, -⟩ := fields_withoutDeps r
  rw [recFits, recBlocks, recSizes, htsize, hwin, hscr, hpriv]
  rfl

/-- A launch with no map and no dependences whose record is in order passes its checks. -/
theorem launchCheck_none (s : State) {l : Launch} (hfields : recFieldsOk l.record = true) (hfits : recFits l.record = true)
    (hslots : ∀ k < 8, slotValid (recSlot l.record k) = true) (hdep0 : recDep0 l.record = 0) (hdep1 : recDep1 l.record = 0) :
    s.launchCheck l none = none := by
  have hslot : ((List.range 8).any fun k => !slotValid (recSlot l.record k)) = false := by
    refine List.any_eq_false.mpr fun k hk => ?_
    rw [hslots k (List.mem_range.mp hk)]
    decide
  have hforeign : s.foreign l 0 = false := by simp [State.foreign]
  unfold State.launchCheck
  rw [if_neg (by rw [hfields]; decide), if_neg (by rw [hslot]; decide), if_neg (by rw [hfits]; decide),
    if_neg (by rw [hdep0, hdep1, hforeign]; decide)]

theorem firmwareChecked_none {s : State} {record : BitVec 1024} (hmap : recPmap record = 0) (hfields : recFieldsOk record = true)
    (hfits : recFits record = true) (hslots : ∀ k < 8, slotValid (recSlot record k) = true) : firmwareChecked s record = none := by
  have hheader : (firmwarePosted s record).mapHeader (firmwareLaunch s record) = (firmwarePosted s record, none) := by
    rw [State.mapHeader, if_pos]
    simp [firmwareLaunch, hmap]
  obtain ⟨hdep0, hdep1⟩ := deps_withoutDeps record
  have hslot (k : Nat) (hk : k < 8) : slotValid (recSlot (withoutDeps record) k) = true := by
    have hsame : recSlot (withoutDeps record) k = recSlot record k := extract_withoutDeps record (by omega)
    rw [hsame, hslots k hk]
  rw [firmwareChecked, hheader]
  exact launchCheck_none _ ((recFieldsOk_withoutDeps record).trans hfields) ((recFits_withoutDeps record).trans hfits) hslot hdep0 hdep1

theorem claims_firmwarePosts : Claims.FirmwarePosts := by
  intro s record
  refine ⟨fun hnone => ?_, fun c hc hids => ?_⟩
  · show execFirmwareQueuePost record s = _
    rw [execFirmwareQueuePost, hnone]
  · have hposted : (firmwarePosted s record).launch s.nextId = some (firmwareLaunch s record) :=
      launch_append (ls := s.launches) (l := firmwareLaunch s record) rfl hids
    have hheader : ((firmwarePosted s record).mapHeader (firmwareLaunch s record)).1.launch s.nextId = some (firmwareLaunch s record) :=
      ((homely_mapHeader _ _).launch _).trans hposted
    cases hk : firmwareChecked s record with
    | some k =>
      refine ⟨_, _, firmware_faults hc hk, launch_faultLaunch hheader rfl rfl, rfl, rfl, .inr rfl, fun hmap hfields hfits hslots => ?_⟩
      cases hk.symm.trans (firmwareChecked_none hmap hfields hfits hslots)
    | none => exact ⟨_, _, firmware_dispatches hc hk, launch_modLaunch hheader fun _ => rfl, rfl, rfl, .inl rfl, fun _ _ _ _ => rfl⟩

end Sys2Proof.Proofs
end

