-- ==== Sys2Proof/Proofs/LaunchWords.lean ====
section
/-! `LAUNCH` (R147, R149, R315, R318): its traps, its release, its refusals and the record that it appends. -/

namespace Sys2Proof.Proofs

open Sys2Proof.Machine Sys2Proof.Says Sys2Proof.Laws

/-! ### Traps and the release -/

theorem pairTrap_aligned {s : State} {us : List Thread} {a : BitVec 7} {size : Nat} (space : Nat)
    (h : ∀ u ∈ us, (s.srcPair u a).toNat % size = 0) : s.pairTrap space us a size = none := by
  have hnone : us.filter (fun t => s.pairNat t a % size != 0) = [] :=
    List.filter_eq_nil_iff.mpr fun u hu => by simp [State.pairNat, h u hu]
  rw [State.pairTrap, hnone]
  rfl

theorem pairTrap_misaligned {s : State} {u : Thread} {a : BitVec 7} {size : Nat} (space : Nat) (h : (s.srcPair u a).toNat % size ≠ 0) :
    s.pairTrap space [u] a size = some { TrapReq.of 0x06 with mask := some (lanes [u]), space := space, addr := s.srcPair u a } := by
  have hall : [u].filter (fun t => s.pairNat t a % size != 0) = [u] := by simp [State.pairNat, h]
  rw [State.pairTrap, hall, laneMask_eq_lanes]
  rfl

theorem exec_launch_misaligned {f : FZ} {s : State} {q : TrapReq} (h : s.pairTrap 0 (s.executing f.pred) f.a 128 = some q) :
    exec (.launch f) s = .next (s.takeTrap q) := by
  show execLaunch f s = _
  rw [execLaunch, h]
  rfl

theorem exec_launch_unordered {f : FZ} {s : State} {u : Thread} (hu : s.executing f.pred = [u]) (hal : (s.srcPair u f.a).toNat % 128 = 0)
    (hopen : s.threadOrdered 3 u = false) : exec (.launch f) s = .next s.stallFence := by
  show execLaunch f s = _
  rw [execLaunch, hu, pairTrap_aligned 0 (by simpa using hal)]
  simp [hopen]

theorem exec_launch {f : FZ} {s : State} {u : Thread} (hu : s.executing f.pred = [u]) (hal : (s.srcPair u f.a).toNat % 128 = 0)
    (hordered : s.threadOrdered 3 u = true) : exec (.launch f) s = .next (State.launchOne f s u).advanceRest := by
  show execLaunch f s = _
  rw [execLaunch, hu, pairTrap_aligned 0 (by simpa using hal)]
  simp [hordered]

theorem claims_launchTraps : Claims.LaunchTraps := by
  intro f s u hu
  refine ⟨fun hout hmis => ?_, fun hal hopen => ?_⟩
  · refine takesTrap_of_exec hout _ (some (lanes [u])) (exec_launch_misaligned ?_)
    rw [hu]
    exact pairTrap_misaligned 0 hmis
  · refine ⟨_, exec_launch_unordered hu hal hopen, rfl, ?_⟩
    rw [EachThread, State.stallFence, modThreads_threads, List.forall₂_map_right_iff, List.forall₂_same]
    intro t _
    by_cases hg : t.uid ∈ s.gang
    · simp [hg]
    · simp [hg]

theorem claims_releaseLeaves : Claims.ReleaseLeaves := by
  intro s core scope us
  refine ⟨_, rfl, ?_⟩
  rw [List.forall₂_map_right_iff, List.forall₂_same]
  intro t _
  by_cases hu : t.uid ∈ us
  · simp [hu, State.orderTime]
  · simp [hu]

/-! ### Refusals -/

theorem onPage_of_onlyInFlight {a b : Thread} (h : OnlyInFlight a b) : b.onPage = a.onPage := by
  obtain ⟨_, _, _, _, _, _, rfl⟩ := h
  rfl

/-- Where no page holds a thread of the gang, all of it passes on. -/
theorem advanceRest_eq_advance {s : State} (h : Standing s) : s.advanceRest = s.advance := by
  have hthreads : (s.threads.map fun t => if s.gang.contains t.uid then if t.onPage then t else t.next else t) =
      s.threads.map fun t => if s.gang.contains t.uid then t.next else t := by
    refine List.map_congr_left fun t ht => ?_
    by_cases hg : t.uid ∈ s.gang
    · simp [hg, h t ht hg]
    · simp [hg]
  rw [State.advanceRest, State.advance, State.modThreads, State.modThreads, hthreads]

theorem standing_leaveTime {s : State} (h : Standing s) (core scope : Nat) (us : List Nat) : Standing (s.leaveTime core scope us) := by
  intro a ha hg
  obtain ⟨t, ht, rfl⟩ := List.mem_map.mp ha
  by_cases hu : us.contains t.uid = true
  · rw [if_pos hu] at hg ⊢
    exact h t ht hg
  · rw [if_neg hu] at hg ⊢
    exact h t ht hg

theorem standing_sendAll {s : State} (h : Standing s) (us : List Thread) (mk : Thread → Op) (ev : Nat → Instr) :
    Standing (sendAll us mk ev s) := by
  rw [sendAll_eq]
  intro a ha hg
  obtain ⟨t, ht, rfl⟩ := List.mem_map.mp ha
  rw [onPage_of_onlyInFlight (onlyInFlight_notedAll _ t)]
  exact h t ht (by simpa using hg)

/-- The state in which a thread's `LAUNCH` has done its release. -/
def launchReleased (s : State) (u : Thread) : State := s.leaveTime (s.coreOf u.tid) 3 [u.uid]

/-- The queue that a `LAUNCH` names. -/
def launchQueue (f : FZ) (s : State) (u : Thread) : Queue := s.queue (field (s.src u (f.a + 2)) 9 0)

/-- A queue that takes no launches. -/
def queueShut (x : Queue) : Bool := match x.state with | .disabled | .draining | .faulted => true | _ => false

theorem openTo_iff {x : Queue} {c : Nat} : OpenTo x c ↔ (x.ctx != some c || queueShut x) = false := by
  rw [Bool.or_eq_false_iff, OpenTo, queueShut]
  cases x.state <;> simp

/-- What a `LAUNCH` does of whose queue entry nothing is known to be missing. -/
def launchAppend (f : FZ) (s : State) (u : Thread) : State :=
  let c := s.ctxOf u.tid
  let core := s.coreOf u.tid
  let b := launchReleased s u
  let q := field (s.src u (f.a + 2)) 9 0
  let x := launchQueue f s u
  let o := b.systemOp f.fb u f.dst.toNat 1
  let refuse (t : State) : State := (t.queueRecord c 5 q x.prod).replyWith o [0xFFFFFFFE]
  let e := b.translate c (some core) (coreDie core) (x.entry x.prod) true
  match e.2 with
  | .fault 5 _ lo len => e.1.parkThreads [u] 5 lo len 1
  | .fault .. => refuse e.1
  | .ok d _ _ =>
    if !e.1.reachable d then refuse e.1
    else
      let r := e.1.translate c (some core) (coreDie core) (s.pairNat u f.a) false
      match r.2 with
      | .fault kind _ lo len => r.1.parkThreads [u] kind lo len 0
      | .ok loc _ _ =>
        let rec_ := r.1.readRecord u o loc
        let t := (rec_.1.noteRemote c d).putRecord c (coreDie core) d (b.orderTime core) rec_.2.1 rec_.2.2.1 rec_.2.2.2
        let t := t.modQueue q fun x => { x with prod := (x.prod + 1) % 2 ^ 21, lts := SMap.put 0 x.prod (b.orderTime core) x.lts }
        t.replyWith o [BitVec.ofNat 32 x.prod]

theorem launchOne_eq (f : FZ) (s : State) (u : Thread) : State.launchOne f s u =
    if (launchQueue f s u).ctx != some (s.ctxOf u.tid) || queueShut (launchQueue f s u) then
      (launchReleased s u).send (answer s u f.fb f.dst [0xFFFFFFFE]) .loadReturn
    else if !(launchQueue f s u).feed || (launchQueue f s u).size ≤ (launchQueue f s u).used then
      (launchReleased s u).send (answer s u f.fb f.dst [0xFFFFFFFF]) .loadReturn
    else launchAppend f s u := rfl

theorem launchOne_closed {f : FZ} {s : State} {u : Thread} (h : ¬ OpenTo (launchQueue f s u) (s.ctxOf u.tid)) :
    State.launchOne f s u = (launchReleased s u).send (answer s u f.fb f.dst [0xFFFFFFFE]) .loadReturn := by
  rw [openTo_iff, Bool.not_eq_false] at h
  rw [launchOne_eq, if_pos h]

theorem launchOne_full {f : FZ} {s : State} {u : Thread} (hopen : OpenTo (launchQueue f s u) (s.ctxOf u.tid))
    (h : (launchQueue f s u).feed = false ∨ (launchQueue f s u).size ≤ (launchQueue f s u).used) :
    State.launchOne f s u = (launchReleased s u).send (answer s u f.fb f.dst [0xFFFFFFFF]) .loadReturn := by
  rw [launchOne_eq, if_neg (by simp [openTo_iff.mp hopen]), if_pos (by simpa using h)]

theorem launchOne_room {f : FZ} {s : State} {u : Thread} (hopen : OpenTo (launchQueue f s u) (s.ctxOf u.tid))
    (hfeed : (launchQueue f s u).feed = true) (hroom : (launchQueue f s u).used < (launchQueue f s u).size) :
    State.launchOne f s u = launchAppend f s u := by
  rw [launchOne_eq, if_neg (by simp [openTo_iff.mp hopen]), if_neg (by simpa [hfeed] using hroom)]

theorem sends_answer {f : FZ} {s : State} {u : Thread} {ws : List Word} (hu : s.executing f.pred = [u]) (hstand : Standing s) :
    Sends (launchReleased s u) ((launchReleased s u).send (answer s u f.fb f.dst ws) .loadReturn).advanceRest [u]
      (fun _ => answer s u f.fb f.dst ws) .loadReturn := by
  have hgang : u.uid ∈ s.gang := executing_uid_mem (p := f.pred) (by rw [hu]; exact List.mem_singleton_self u)
  have hsends := sends_sendAll (s := launchReleased s u) (us := [u]) (mk := fun _ => answer s u f.fb f.dst ws) .loadReturn
    (by simp [answer, State.opOf]) fun v hv => by
      rw [List.mem_singleton.mp hv]
      exact hgang
  have hreleased : Standing (launchReleased s u) := standing_leaveTime hstand _ _ _
  have hall : (launchReleased s u).send (answer s u f.fb f.dst ws) .loadReturn =
      sendAll [u] (fun _ => answer s u f.fb f.dst ws) .loadReturn (launchReleased s u) := rfl
  rw [hall, advanceRest_eq_advance (standing_sendAll hreleased _ _ _)]
  exact hsends

theorem claims_launchRefused : Claims.LaunchRefused := by
  intro f s u hu hal hordered hstand x b
  refine ⟨fun hclosed => ⟨_, exec_launch hu hal hordered, ?_⟩, fun hopen hfull => ⟨_, exec_launch hu hal hordered, ?_⟩⟩
  · rw [launchOne_closed hclosed]
    exact sends_answer hu hstand
  · rw [launchOne_full hopen hfull]
    exact sends_answer hu hstand

end Sys2Proof.Proofs
end

