-- ==== Sys2Proof/Proofs/LaunchAppends.lean ====
section
/-! The record that a `LAUNCH` appends (R315): where every home is at rest, its bytes and syndromes stand in the queue's array as they stood at
its address, and the queue's words have moved. -/

namespace Sys2Proof.Proofs

open Sys2Proof.Machine Sys2Proof.Says Sys2Proof.Laws

/-! ### Homes at rest -/

/-- No sector's ownership is anywhere but at its home. -/
def AtRest (s : State) : Prop := ∀ h ∈ s.home, h.st = .S

theorem homeOf_atRest {s : State} (h : AtRest s) (sec : Nat) : (s.homeOf sec).st = .S := by
  unfold State.homeOf
  split
  · next x hx => exact h x (List.mem_of_find?_eq_some hx)
  · rfl

theorem pull_atRest {s : State} (h : AtRest s) (sec : Nat) : s.pull sec = s := by
  unfold State.pull
  dsimp only
  rw [homeOf_atRest h]

theorem pullRange_atRest {s : State} (h : AtRest s) (c loc n : Nat) : s.pullRange c loc n = s := by
  unfold State.pullRange
  generalize List.range ((loc % 64 + n + 63) / 64) = is
  induction is with
  | nil => rfl
  | cons i is ih => rw [List.foldl_cons, pull_atRest h, ih]

theorem atRest_putHome {s : State} (h : AtRest s) {x : HomeSec} (hx : x.st = .S) : AtRest (s.putHome x) := by
  intro y hy
  rw [putHome_home] at hy
  rcases mem_insertBy.mp hy with rfl | hy
  · exact hx
  · exact h y (List.mem_filter.mp hy).1

/-- Noting a time at a slice changes the times of homes alone. -/
theorem noteHome_cases (s : State) (sec v : Nat) : s.noteHome sec v = s ∨
    ∃ base g, (∀ h : HomeSec, (g h).st = h.st) ∧ s.noteHome sec v = { s with homeBase := base, home := s.home.map g } := by
  unfold State.noteHome
  dsimp only
  split
  · exact .inl rfl
  · refine .inr ⟨_, _, fun h => ?_, rfl⟩
    split
    · rfl
    · rfl

theorem atRest_noteHome {s : State} (h : AtRest s) (sec v : Nat) : AtRest (s.noteHome sec v) := by
  rcases noteHome_cases s sec v with hsame | ⟨base, g, hg, hmap⟩
  · rwa [hsame]
  · rw [hmap]
    intro y hy
    obtain ⟨x, hx, rfl⟩ := List.mem_map.mp hy
    rw [hg]
    exact h x hx

theorem noteHome_store (s : State) (sec v : Nat) : (s.noteHome sec v).mem = s.mem ∧ (s.noteHome sec v).syn = s.syn := by
  rcases noteHome_cases s sec v with hsame | ⟨base, g, -, hmap⟩
  · rw [hsame]
    exact ⟨rfl, rfl⟩
  · rw [hmap]
    exact ⟨rfl, rfl⟩

/-! ### What changes bytes and syndromes -/

/-- Bytes and syndromes are as before, and so are the homes. -/
def SameStore (s t : State) : Prop := t.mem = s.mem ∧ t.syn = s.syn ∧ t.home = s.home

theorem SameStore.refl (s : State) : SameStore s s := ⟨rfl, rfl, rfl⟩

theorem SameStore.trans {s t u : State} (hst : SameStore s t) (htu : SameStore t u) : SameStore s u :=
  ⟨htu.1.trans hst.1, htu.2.1.trans hst.2.1, htu.2.2.trans hst.2.2⟩

theorem sameStore_foldl {α : Type} {f : State → α → State} (h : ∀ s x, SameStore s (f s x)) (xs : List α) (s : State) :
    SameStore s (xs.foldl f s) := by
  induction xs generalizing s with
  | nil => exact SameStore.refl s
  | cons x xs ih => exact (h s x).trans (ih (f s x))

theorem SameStore.byte {s t : State} (h : SameStore s t) (a : Nat) : t.byte a = s.byte a := by
  rw [State.byte, State.byte, h.1]

theorem SameStore.synAt {s t : State} (h : SameStore s t) (a : Nat) : t.synAt a = s.synAt a := by
  rw [State.synAt, State.synAt, h.2.1]

theorem SameStore.atRest {s t : State} (h : SameStore s t) (hs : AtRest s) : AtRest t := by
  intro x hx
  rw [h.2.2] at hx
  exact hs x hx

theorem sameStore_hemFault (s : State) (tag : BitVec 64) (loc : Nat) (syn : BitVec 16) : SameStore s (s.hemFault tag loc syn) := by
  unfold State.hemFault
  split
  · exact SameStore.refl s
  · exact ⟨rfl, rfl, rfl⟩

theorem sameStore_hostCheck (s : State) (loc : Nat) (way : BitVec 64) (syns : List (BitVec 16)) : SameStore s (s.hostCheck loc way syns) := by
  unfold State.hostCheck
  split
  · exact sameStore_foldl (fun s _ => sameStore_hemFault s _ _ _) _ s
  · exact SameStore.refl s

theorem sameStore_setTag (s : State) (loc : Nat) (v : BitVec 64) : SameStore s (s.setTag loc v) := ⟨rfl, rfl, rfl⟩
theorem sameStore_patchGrants (s : State) (sec : Nat) : SameStore s (s.patchGrants sec) := ⟨rfl, rfl, rfl⟩

theorem sameStore_wakeMonitors (s : State) (sec w : Nat) : SameStore s (s.wakeMonitors sec w) := ⟨rfl, rfl, rfl⟩

/-- A home whose sector is written at a time. -/
def writtenHome (s : State) (sec lt : Nat) : HomeSec :=
  { s.homeOf sec with wts := max lt ((s.homeOf sec).rts + 1), rts := max lt ((s.homeOf sec).rts + 1) }

/-- As an equation of functions the kernel checks it without evaluating times. -/
theorem orderWrite_def : State.orderWrite = fun s sec lt =>
    (((s.putHome (writtenHome s sec lt)).noteHome sec (writtenHome s sec lt).wts).wakeMonitors sec (writtenHome s sec lt).wts,
      (writtenHome s sec lt).wts) := rfl

theorem orderWrite_eq (s : State) (sec lt : Nat) : (s.orderWrite sec lt).1 =
    ((s.putHome (writtenHome s sec lt)).noteHome sec (writtenHome s sec lt).wts).wakeMonitors sec (writtenHome s sec lt).wts := by
  rw [orderWrite_def]

theorem atRest_orderWrite {s : State} (h : AtRest s) (sec lt : Nat) : AtRest (s.orderWrite sec lt).1 := by
  have hput : AtRest (s.putHome (writtenHome s sec lt)) := atRest_putHome h (homeOf_atRest h sec)
  rw [orderWrite_eq]
  exact (sameStore_wakeMonitors _ _ _).atRest (atRest_noteHome hput sec _)

theorem orderWrite_store (s : State) (sec lt : Nat) : (s.orderWrite sec lt).1.mem = s.mem ∧ (s.orderWrite sec lt).1.syn = s.syn := by
  rw [orderWrite_eq]
  obtain ⟨hmem, hsyn, -⟩ := sameStore_wakeMonitors ((s.putHome (writtenHome s sec lt)).noteHome sec (writtenHome s sec lt).wts) sec
    (writtenHome s sec lt).wts
  obtain ⟨hmem', hsyn'⟩ := noteHome_store (s.putHome (writtenHome s sec lt)) sec (writtenHome s sec lt).wts
  exact ⟨hmem.trans hmem', hsyn.trans hsyn'⟩

theorem synAt_setSyn (s : State) (l a : Nat) (v : BitVec 16) (ha : isHost a = false) :
    (s.setSyn l v).synAt a = if l / 32 = a / 32 then v else s.synAt a := by
  simp [State.synAt, State.setSyn, ha]

/-- Syndromes set for granules from a location upward. -/
theorem synAt_setSyns (ys : List (BitVec 16)) (s : State) (loc k a : Nat) (ha : isHost a = false) :
    (((List.range' k ys.length).zip ys).foldl (fun s p => s.setSyn (loc + 32 * p.1) p.2) s).synAt a =
      if loc / 32 + k ≤ a / 32 ∧ a / 32 < loc / 32 + k + ys.length then ys.getD (a / 32 - (loc / 32 + k)) 0 else s.synAt a := by
  induction ys generalizing s k with
  | nil => simp
  | cons y ys ih =>
    rw [List.length_cons, List.range'_succ, List.zip_cons_cons, List.foldl_cons, ih, synAt_setSyn _ _ _ _ ha]
    have hgran : (loc + 32 * k) / 32 = loc / 32 + k := by omega
    rw [hgran]
    by_cases heq : loc / 32 + k = a / 32
    · rw [if_neg (by omega), if_pos heq, if_pos (by omega), heq, Nat.sub_self]
      rfl
    · rw [if_neg heq]
      by_cases hin : loc / 32 + (k + 1) ≤ a / 32 ∧ a / 32 < loc / 32 + (k + 1) + ys.length
      · have hsub : a / 32 - (loc / 32 + k) = a / 32 - (loc / 32 + (k + 1)) + 1 := by omega
        rw [if_pos hin, if_pos (by omega), hsub]
        rfl
      · rw [if_neg hin, if_neg (by omega)]

/-! ### A region that an update leaves alone -/

/-- The update leaves the bytes from `a` to `a + n` and their syndromes as they were, and homes at rest that were. -/
def Spares (a n : Nat) (s t : State) : Prop :=
  (AtRest s → AtRest t) ∧ ∀ b, a ≤ b → b < a + n → t.byte b = s.byte b ∧ t.synAt b = s.synAt b

/-- Bytes from `lo` on lie outside a region. -/
def Beside (a n lo len : Nat) : Prop := lo + len ≤ a ∨ a + n ≤ lo ∨ len = 0

theorem Spares.trans {a n : Nat} {s t u : State} (hst : Spares a n s t) (htu : Spares a n t u) : Spares a n s u := by
  refine ⟨fun h => htu.1 (hst.1 h), fun b hlo hhi => ?_⟩
  obtain ⟨hbyte, hsyn⟩ := hst.2 b hlo hhi
  obtain ⟨hbyte', hsyn'⟩ := htu.2 b hlo hhi
  exact ⟨hbyte'.trans hbyte, hsyn'.trans hsyn⟩

theorem SameStore.spares {s t : State} (h : SameStore s t) (a n : Nat) : Spares a n s t :=
  ⟨h.atRest, fun b _ _ => ⟨h.byte b, h.synAt b⟩⟩

theorem spares_orderWrite (s : State) (sec lt a n : Nat) : Spares a n s (s.orderWrite sec lt).1 := by
  obtain ⟨hmem, hsyn⟩ := orderWrite_store s sec lt
  refine ⟨fun h => atRest_orderWrite h sec lt, fun b _ _ => ⟨?_, ?_⟩⟩
  · rw [State.byte, State.byte, hmem]
  · rw [State.synAt, State.synAt, hsyn]

theorem setBytes_rest (bs : List Byte) (s : State) (loc : Nat) : ∃ mem, s.setBytes loc bs = { s with mem := mem } := by
  induction bs generalizing s loc with
  | nil => exact ⟨_, rfl⟩
  | cons b bs ih =>
    obtain ⟨mem, h⟩ := ih (s.setByte loc b) (loc + 1)
    exact ⟨mem, h⟩

theorem spares_setBytes (s : State) {loc a n : Nat} {bs : List Byte} (h : Beside a n loc bs.length) : Spares a n s (s.setBytes loc bs) := by
  obtain ⟨mem, hrest⟩ := setBytes_rest bs s loc
  refine ⟨fun hs => ?_, fun b hlo hhi => ⟨?_, ?_⟩⟩
  · rw [hrest]
    exact hs
  · rw [byte_setBytes, if_neg]
    rcases h with h | h | h <;> omega
  · rw [hrest]
    rfl

theorem spares_setSyn (s : State) {l a n : Nat} (v : BitVec 16) (h : ∀ b, a ≤ b → b < a + n → l / 32 ≠ b / 32) :
    Spares a n s (s.setSyn l v) := by
  refine ⟨id, fun b hlo hhi => ⟨rfl, ?_⟩⟩
  simp [State.synAt, State.setSyn, h b hlo hhi]

theorem spares_setSyns (s : State) {loc a n : Nat} (is : List Nat)
    (h : ∀ i ∈ is, ∀ b, a ≤ b → b < a + n → (loc + 32 * i) / 32 ≠ b / 32) :
    Spares a n s (is.foldl (fun s i => s.setSyn (loc + 32 * i) 0) s) := by
  induction is generalizing s with
  | nil => exact (SameStore.refl s).spares a n
  | cons i is ih =>
    exact (spares_setSyn s 0 (h i List.mem_cons_self)).trans (ih _ fun j hj => h j (List.mem_cons_of_mem i hj))

theorem spares_homeWrite {s : State} (hs : AtRest s) (c lt : Nat) {loc a n : Nat} {bs : List Byte} (ha : a % 32 = 0) (hn : n % 32 = 0)
    (h : Beside a n loc bs.length) : Spares a n s (s.homeWrite c loc bs lt).1 := by
  have hbytes := (spares_orderWrite s (sectorKey c loc) lt a n).trans (spares_setBytes _ h)
  unfold State.homeWrite
  dsimp only
  rw [pull_atRest hs]
  split
  · exact (SameStore.refl s).spares a n
  · have hsyns : Spares a n s (if (loc % 32 == 0 && bs.length % 32 == 0) = true then
        (List.range (bs.length / 32)).foldl (fun s i => s.setSyn (loc + 32 * i) 0) ((s.orderWrite (sectorKey c loc) lt).1.setBytes loc bs)
        else (s.orderWrite (sectorKey c loc) lt).1.setBytes loc bs) := by
      split
      · next hwhole =>
        obtain ⟨hloc, -⟩ : loc % 32 = 0 ∧ bs.length % 32 = 0 := by simpa using hwhole
        refine hbytes.trans (spares_setSyns _ _ fun i hi b hlo hhi => ?_)
        have hi := List.mem_range.mp hi
        rcases h with h | h | h <;> omega
      · exact hbytes
    exact (hsyns.trans ((sameStore_foldl (fun s _ => sameStore_setTag s _ _) _ _).spares a n)).trans ((sameStore_patchGrants _ _).spares a n)

theorem spares_ucWrite {s : State} (hs : AtRest s) (c lt : Nat) {loc a n : Nat} {bs : List Byte} (ha : a % 32 = 0) (hn : n % 32 = 0)
    (h : Beside a n loc bs.length) : Spares a n s (s.ucWrite c loc bs lt).1 := by
  unfold State.ucWrite
  generalize List.range ((loc % 64 + bs.length + 63) / 64) = is
  have hfold (is : List Nat) (r : State × Nat × Bool) (hr : Spares a n s r.1) : Spares a n s (is.foldl (fun (r : State × Nat × Bool) i =>
      let lo := if i == 0 then loc else loc / 64 * 64 + 64 * i
      let hi := min (loc + bs.length) (loc / 64 * 64 + 64 * (i + 1))
      let w := r.1.homeWrite c lo ((bs.drop (lo - loc)).take (hi - lo)) lt
      (w.1, max r.2.1 w.2.1, r.2.2 && w.2.2)) r).1 := by
    induction is generalizing r with
    | nil => exact hr
    | cons i is ih =>
      refine ih _ (hr.trans (spares_homeWrite (hr.1 hs) c lt ha hn ?_))
      have hlo : loc ≤ (if i == 0 then loc else loc / 64 * 64 + 64 * i) := by
        by_cases hi : i = 0
        · simp [hi]
        · rw [if_neg (by simpa using hi)]
          omega
      generalize (if i == 0 then loc else loc / 64 * 64 + 64 * i) = lo at hlo ⊢
      unfold Beside at h ⊢
      rw [List.length_take, List.length_drop]
      omega
  exact hfold is (s, lt, true) ((SameStore.refl s).spares a n)

/-! ### One sector of a record -/

theorem sectorLoc_sectorKey (c : Nat) {loc : Nat} (hal : loc % 64 = 0) (hlow : loc < 2 ^ 61) : sectorLoc (sectorKey c loc) = loc := by
  unfold sectorLoc sectorKey
  split
  · rw [Nat.mul_add_mod]
    omega
  · omega

/-- Whatever a sector's image says of its granules, its bytes and syndromes are put. -/
theorem takeGranules_store (s : State) (sec src : Nat) (img : SecImg) : ∃ t, SameStore s t ∧
    SameStore (t.setGranules (sectorLoc sec) img.data img.syn) (s.takeGranules sec src img) := by
  unfold State.takeGranules
  dsimp only
  exact ⟨_, sameStore_foldl (fun s _ => sameStore_hostCheck s _ _ _) _ s, sameStore_foldl (fun s _ => sameStore_setTag s _ _) _ _⟩

/-- Bytes and syndromes of whole granules stand from a location upward; the rest, and homes at rest, are as they were. -/
structure Stored (loc : Nat) (bs : List Byte) (ys : List (BitVec 16)) (s t : State) : Prop where
  rest  : AtRest s → AtRest t
  byte  : ∀ a, t.byte a = if loc ≤ a ∧ a < loc + bs.length then bs.getD (a - loc) 0 else s.byte a
  synAt : ∀ a, isHost a = false →
    t.synAt a = if loc / 32 ≤ a / 32 ∧ a / 32 < loc / 32 + ys.length then ys.getD (a / 32 - loc / 32) 0 else s.synAt a

theorem setSyns_rest (ps : List (Nat × BitVec 16)) (s : State) (loc : Nat) :
    ∃ syn, ps.foldl (fun s p => s.setSyn (loc + 32 * p.1) p.2) s = { s with syn := syn } := by
  induction ps generalizing s with
  | nil => exact ⟨_, rfl⟩
  | cons p ps ih =>
    obtain ⟨syn, h⟩ := ih (s.setSyn (loc + 32 * p.1) p.2)
    exact ⟨syn, h⟩

theorem stored_setGranules (s : State) (loc : Nat) (bs : List Byte) (ys : List (BitVec 16)) : Stored loc bs ys s (s.setGranules loc bs ys) := by
  obtain ⟨mem, hmem⟩ := setBytes_rest bs s loc
  obtain ⟨syn, hsyn⟩ := setSyns_rest ((List.range ys.length).zip ys) (s.setBytes loc bs) loc
  have hall : s.setGranules loc bs ys = { s.setBytes loc bs with syn := syn } := hsyn
  constructor
  case rest =>
    intro h
    rw [hall, hmem]
    exact h
  case byte =>
    intro a
    rw [hall]
    exact byte_setBytes bs s loc a
  case synAt =>
    intro a ha
    have h := synAt_setSyns ys (s.setBytes loc bs) loc 0 a ha
    rw [← List.range_eq_range', Nat.add_zero] at h
    unfold State.setGranules
    dsimp only
    rw [h, hmem]
    rfl

theorem Stored.of_sameStore {loc : Nat} {bs : List Byte} {ys : List (BitVec 16)} {s s' t t' : State} (hs : SameStore s s')
    (h : Stored loc bs ys s' t) (ht : SameStore t t') : Stored loc bs ys s t' where
  rest hrest := ht.atRest (h.rest (hs.atRest hrest))
  byte a := by rw [ht.byte, h.byte, hs.byte]
  synAt a ha := by rw [ht.synAt, h.synAt a ha, hs.synAt]

theorem stored_takeGranules (s : State) (sec src : Nat) (img : SecImg) :
    Stored (sectorLoc sec) img.data img.syn s (s.takeGranules sec src img) := by
  obtain ⟨t, hs, ht⟩ := takeGranules_store s sec src img
  exact (stored_setGranules t _ _ _).of_sameStore hs ht

/-- One sector of a record is put at its home. -/
def recordSector (c die loc lt : Nat) (bs : List Byte) (syns : List (BitVec 16)) (tags : List (BitVec 64)) (s : State) (i : Nat) : State :=
  let img : SecImg := { wb := false, wts := 0, rts := 0, data := (bs.drop (64 * i)).take 64, syn := (syns.drop (2 * i)).take 2,
                        tags := (List.range 2).map fun g => some (tags.getD (2 * i + g) 0) }
  (((s.pull (sectorKey c (loc + 64 * i))).orderWrite (sectorKey c (loc + 64 * i)) lt).1.takeGranules (sectorKey c (loc + 64 * i)) die img).patchGrants
    (sectorKey c (loc + 64 * i))

theorem putRecord_eq (s : State) (c die loc lt : Nat) (bs : List Byte) (syns : List (BitVec 16)) (tags : List (BitVec 64)) :
    s.putRecord c die loc lt bs syns tags = (List.range (bs.length / 64)).foldl (recordSector c die loc lt bs syns tags) s := rfl

theorem stored_recordSector {s : State} (hs : AtRest s) (c die lt : Nat) {loc i : Nat} (bs : List Byte) (syns : List (BitVec 16))
    (tags : List (BitVec 64)) (hal : loc % 64 = 0) (hlow : loc + 64 * i < 2 ^ 61) :
    Stored (loc + 64 * i) ((bs.drop (64 * i)).take 64) ((syns.drop (2 * i)).take 2) s (recordSector c die loc lt bs syns tags s i) := by
  have hloc : sectorLoc (sectorKey c (loc + 64 * i)) = loc + 64 * i := sectorLoc_sectorKey c (by omega) hlow
  unfold recordSector
  dsimp only
  rw [pull_atRest hs]
  have htake := stored_takeGranules (s.orderWrite (sectorKey c (loc + 64 * i)) lt).1 (sectorKey c (loc + 64 * i)) die
    { wb := false, wts := 0, rts := 0, data := (bs.drop (64 * i)).take 64, syn := (syns.drop (2 * i)).take 2,
      tags := (List.range 2).map fun g => some (tags.getD (2 * i + g) 0) }
  rw [hloc] at htake
  obtain ⟨hrest, hbyte, hsyn⟩ := htake
  obtain ⟨hmem, hsyns⟩ := orderWrite_store s (sectorKey c (loc + 64 * i)) lt
  have hpatch := sameStore_patchGrants ((s.orderWrite (sectorKey c (loc + 64 * i)) lt).1.takeGranules (sectorKey c (loc + 64 * i)) die
    { wb := false, wts := 0, rts := 0, data := (bs.drop (64 * i)).take 64, syn := (syns.drop (2 * i)).take 2,
      tags := (List.range 2).map fun g => some (tags.getD (2 * i + g) 0) }) (sectorKey c (loc + 64 * i))
  refine ⟨fun h => hpatch.atRest (hrest (atRest_orderWrite h _ lt)), fun a => ?_, fun a ha => ?_⟩
  · rw [hpatch.byte, hbyte, State.byte, State.byte, hmem]
  · rw [hpatch.synAt, hsyn a ha, State.synAt, State.synAt, hsyns]

/-! ### The record -/

/-- The 128 bytes of a record and the syndromes of its four granules stand at a location. -/
theorem putRecord_stored {s : State} (hs : AtRest s) (c die lt : Nat) {loc : Nat} {bs : List Byte} {syns : List (BitVec 16)}
    (tags : List (BitVec 64)) (hal : loc % 64 = 0) (hlow : loc < 2 ^ 60) (hbs : bs.length = 128) (hsyns : syns.length = 4) :
    let t := s.putRecord c die loc lt bs syns tags
    AtRest t ∧ t.bytes loc 128 = bs ∧ t.syns loc 128 = syns := by
  have htwo : s.putRecord c die loc lt bs syns tags =
      recordSector c die loc lt bs syns tags (recordSector c die loc lt bs syns tags s 0) 1 := by
    rw [putRecord_eq, hbs]
    rfl
  obtain ⟨hrest0, hbyte0, hsyn0⟩ := stored_recordSector hs c die lt (i := 0) bs syns tags hal (by omega)
  obtain ⟨hrest1, hbyte1, hsyn1⟩ := stored_recordSector (hrest0 hs) c die lt (i := 1) bs syns tags hal (by omega)
  dsimp only
  rw [htwo]
  refine ⟨hrest1 (hrest0 hs), ?_, ?_⟩
  · refine List.ext_getElem (by simp [State.bytes, hbs]) fun j hj hj' => ?_
    simp only [State.bytes, List.getElem_map, List.getElem_range, hbyte1, hbyte0]
    by_cases h : j < 64
    · have hat : loc + j - (loc + 64 * 0) = j := by omega
      rw [if_neg (by omega), if_pos (by simp [hbs]; omega), hat]
      simp [h, hj']
    · have hat : loc + j - (loc + 64 * 1) = j - 64 := by omega
      have hplace : 64 + (j - 64) = j := by omega
      have hin : j - 64 < 64 := by omega
      rw [if_pos (by simp [hbs]; omega), hat]
      simp [List.getElem?_drop, hplace, hin, hj']
  · refine List.ext_getElem (by simp [State.syns, hsyns]) fun j hj hj' => ?_
    have hhost : isHost (loc + 32 * j) = false := by
      simp only [isHost, decide_eq_false_iff_not, not_le]
      omega
    have hgran : (loc + 32 * j) / 32 = loc / 32 + j := by omega
    simp only [State.syns, List.getElem_map, List.getElem_range, hsyn1 _ hhost, hsyn0 _ hhost, hgran]
    by_cases h : j < 2
    · have hat : loc / 32 + j - (loc + 64 * 0) / 32 = j := by omega
      rw [if_neg (by omega), if_pos (by simp [hsyns]; omega), hat]
      simp [h, hj']
    · have hat : loc / 32 + j - (loc + 64 * 1) / 32 = j - 2 := by omega
      have hplace : 2 + (j - 2) = j := by omega
      have hin : j - 2 < 2 := by omega
      rw [if_pos (by simp [hsyns]; omega), hat]
      simp [List.getElem?_drop, hplace, hin, hj']

/-- One record's write is one of those that the homes take. -/
theorem homely_putRecord (s : State) (c die loc lt : Nat) (bs : List Byte) (syns : List (BitVec 16)) (tags : List (BitVec 64)) :
    Homely s (s.putRecord c die loc lt bs syns tags) :=
  homely_foldl (fun _ _ => (((homely_pull _ _).trans (homely_orderWrite _ _ _)).trans (homely_takeGranules _ _ _ _)).trans
    (homely_patchGrants _ _)) _ _

/-! ### The append -/

theorem Homely.queuePages {s t : State} (h : Homely s t) : t.queuePages = s.queuePages := by
  obtain ⟨_, _, _, _, _, _, _, _, _, _, _, _, rfl, -⟩ := h
  rfl

theorem Homely.nextId {s t : State} (h : Homely s t) : t.nextId = s.nextId := by
  obtain ⟨_, _, _, _, _, _, _, _, _, _, _, _, rfl, -⟩ := h
  rfl

theorem Homely.opIds {s t : State} (h : Homely s t) : t.ops.map Op.id = s.ops.map Op.id := by
  obtain ⟨_, _, _, _, _, _, _, _, _, _, _, _, rfl, hops⟩ := h
  exact hops

theorem block_length (x : Queue) : x.block.length = 32 := by
  simp [Queue.block]

theorem withQueue_nextId (s : State) (x : Queue) : (withQueue s x).nextId = s.nextId := by rw [withQueue]
theorem withQueue_ops (s : State) (x : Queue) : (withQueue s x).ops = s.ops := by rw [withQueue]

theorem putQueue_numbers (s : State) (x : Queue) : (s.putQueue x).nextId = s.nextId ∧ (s.putQueue x).ops.map Op.id = s.ops.map Op.id := by
  have h := putQueue_homely s x
  refine ⟨h.nextId.trans (withQueue_nextId s _), h.opIds.trans ?_⟩
  rw [withQueue_ops]

/-- Changing a queue's words spares every region outside the queue pages. -/
theorem spares_putQueue {s : State} (hs : AtRest s) {x : Queue} {a n : Nat} (hx : x.q < 1024) (ha : a % 32 = 0) (hn : n % 32 = 0)
    (hout : OutsideQueues s a n) : Spares a n s (s.putQueue x) := by
  have hq : x.settled.q = x.q := (settled_fields x).1
  have hwith : SameStore s (withQueue s x.settled) := ⟨rfl, rfl, rfl⟩
  rw [putQueue_eq]
  refine (hwith.spares a n).trans (spares_ucWrite (hwith.atRest hs) _ _ ha hn ?_)
  have hpages : (withQueue s x.settled).queuePages = s.queuePages := rfl
  rw [Beside, block_length, hpages, hq]
  rcases hout with h | h
  · exact .inr (.inl (by omega))
  · exact .inl (by omega)

theorem readRecord_atRest {s : State} (hs : AtRest s) (u : Thread) (o : Op) {loc : Nat} (hloc : isRemote loc = false) :
    ∃ tags, s.readRecord u o loc = (s, s.bytes loc 128, s.syns loc 128, tags) := by
  have hreach : s.reachable loc = true := by simp [State.reachable, hloc]
  have hnote : s.noteRemote o.ctx loc = s := by simp [State.noteRemote, hloc]
  unfold State.readRecord
  rw [if_pos hreach]
  dsimp only
  rw [hnote]
  unfold State.ucRead
  dsimp only
  rw [pullRange_atRest hs]
  exact ⟨_, rfl⟩

/-- The queue's words after an append. -/
def appended (lt : Nat) (number : Nat) (x : Queue) : Queue :=
  { x with prod := (number + 1) % 2 ^ 21, lts := SMap.put 0 number lt x.lts }

theorem appended_q (lt number : Nat) (x : Queue) : (appended lt number x).q = x.q := rfl
theorem appended_prod (lt number : Nat) (x : Queue) : (appended lt number x).prod = (number + 1) % 2 ^ 21 := rfl

theorem appended_lts (lt number : Nat) (x : Queue) : SMap.get 0 (appended lt number x).lts number = lt := by
  simp [appended]

/-- The package when a record has been put in a queue's array and the queue's words have moved. -/
def recordAppended (s t : State) (f : FZ) (u : Thread) (d loc : Nat) (tags : List (BitVec 64)) : State :=
  (t.putRecord (s.ctxOf u.tid) (coreDie (s.coreOf u.tid)) d (s.orderTime (s.coreOf u.tid)) (t.bytes loc 128) (t.syns loc 128) tags).modQueue
    (field (s.src u (f.a + 2)) 9 0) fun x => appended (s.orderTime (s.coreOf u.tid)) x.prod x

section
variable {f : FZ} {s s1 s2 : State} {u : Thread} {d loc lv1 lv2 : Nat} {e1 e2 : BitVec 64}

theorem launchAppend_eq
    (hentry : (launchReleased s u).translate (s.ctxOf u.tid) (some (s.coreOf u.tid)) (coreDie (s.coreOf u.tid))
      ((launchQueue f s u).entry (launchQueue f s u).prod) true = (s1, .ok d e1 lv1))
    (hrecord : s1.translate (s.ctxOf u.tid) (some (s.coreOf u.tid)) (coreDie (s.coreOf u.tid)) (s.srcPair u f.a).toNat false = (s2, .ok loc e2 lv2))
    (hd : isRemote d = false) (hloc : isRemote loc = false) (hs2 : AtRest s2) :
    ∃ tags, launchAppend f s u = (recordAppended s s2 f u d loc tags).replyWith ((launchReleased s u).systemOp f.fb u f.dst.toNat 1)
      [BitVec.ofNat 32 (launchQueue f s u).prod] := by
  have hreach : s1.reachable d = true := by simp [State.reachable, hd]
  have hnote : s2.noteRemote (s.ctxOf u.tid) d = s2 := by simp [State.noteRemote, hd]
  obtain ⟨tags, hread⟩ := readRecord_atRest hs2 u ((launchReleased s u).systemOp f.fb u f.dst.toNat 1) hloc
  have hrecord : s1.translate (s.ctxOf u.tid) (some (s.coreOf u.tid)) (coreDie (s.coreOf u.tid)) (s.pairNat u f.a) false =
      (s2, .ok loc e2 lv2) := hrecord
  refine ⟨tags, ?_⟩
  unfold launchAppend
  dsimp only
  rw [hentry]
  dsimp only
  rw [hreach, if_neg (by decide), hrecord]
  dsimp only
  rw [hread, hnote]
  rfl

/-- What an append leaves in the package. -/
theorem recordAppended_store (hqueues : ∀ q, s2.queue q = s.queue q) (hpages : s2.queuePages = s.queuePages)
    (hs2 : AtRest s2) (tags : List (BitVec 64)) (hd : isRemote d = false) (hal : d % 64 = 0)
    (hout : OutsideQueues s d 128) :
    let t := recordAppended s s2 f u d loc tags
    let x := launchQueue f s u
    t.bytes d 128 = s2.bytes loc 128 ∧ t.syns d 128 = s2.syns loc 128 ∧
      t.queue (field (s.src u (f.a + 2)) 9 0) = (appended (s.orderTime (s.coreOf u.tid)) x.prod x).settled ∧
      t.nextId = s2.nextId ∧ t.ops.map Op.id = s2.ops.map Op.id := by
  have hlow : d < 2 ^ 60 := by simpa [isRemote] using hd
  have hput := homely_putRecord s2 (s.ctxOf u.tid) (coreDie (s.coreOf u.tid)) d (s.orderTime (s.coreOf u.tid)) (s2.bytes loc 128)
    (s2.syns loc 128) tags
  obtain ⟨hrest, hbytes, hsyns⟩ := putRecord_stored hs2 (s.ctxOf u.tid) (coreDie (s.coreOf u.tid)) (s.orderTime (s.coreOf u.tid)) tags hal hlow
    (bs := s2.bytes loc 128) (syns := s2.syns loc 128) (by simp [State.bytes]) (by simp [State.syns])
  unfold recordAppended
  generalize s2.putRecord (s.ctxOf u.tid) (coreDie (s.coreOf u.tid)) d (s.orderTime (s.coreOf u.tid)) (s2.bytes loc 128) (s2.syns loc 128) tags = p
    at hput hrest hbytes hsyns ⊢
  have hqueue : p.queue (field (s.src u (f.a + 2)) 9 0) = launchQueue f s u := (hput.queue _).trans (hqueues _)
  have hnumber : (launchQueue f s u).q = field (s.src u (f.a + 2)) 9 0 := queue_number s _
  have hbeside : OutsideQueues p d 128 := by
    rw [OutsideQueues, hput.queuePages, hpages]
    exact hout
  dsimp only
  rw [State.modQueue, hqueue]
  have hspares := spares_putQueue (x := appended (s.orderTime (s.coreOf u.tid)) (launchQueue f s u).prod (launchQueue f s u)) hrest
    (by rw [appended_q, hnumber]; exact BitVec.isLt _) (by omega) (by decide) hbeside
  obtain ⟨hnext, hopIds⟩ := putQueue_numbers p (appended (s.orderTime (s.coreOf u.tid)) (launchQueue f s u).prod (launchQueue f s u))
  refine ⟨?_, ?_, queue_putQueue ((appended_q _ _ _).trans hnumber), hnext.trans hput.nextId, hopIds.trans hput.opIds⟩
  · rw [← hbytes]
    refine List.map_congr_left fun j hj => (hspares.2 (d + j) (by omega) ?_).1
    have := List.mem_range.mp hj
    omega
  · rw [← hsyns]
    refine List.map_congr_left fun j hj => (hspares.2 (d + 32 * j) (by omega) ?_).2
    have := List.mem_range.mp hj
    omega

end

/-- An operation put in flight in a state whose numbers are all below its own. -/
theorem op_replyWith {t : State} (o : Op) (ws : List Word) (hids : ∀ x : Op, x ∈ t.ops → x.id < t.nextId) :
    (t.replyWith o ws).op t.nextId = some { o with fill := bytesOf ws, id := t.nextId } := by
  have hnone : t.ops.find? (fun x => x.id == t.nextId) = none := by
    refine List.find?_eq_none.mpr fun x hx => ?_
    have := hids x hx
    simp
    omega
  show (t.ops ++ [{ o with fill := bytesOf ws, id := t.nextId }]).find? (fun x : Op => x.id == t.nextId) = _
  rw [List.find?_append, hnone]
  simp

/-- Its reply stores nothing, moves no queue and posts the event that brings it. -/
theorem replyWith_rest (t : State) (o : Op) (ws : List Word) : (t.replyWith o ws).advanceRest.bytes = t.bytes ∧
    (t.replyWith o ws).advanceRest.syns = t.syns ∧ (t.replyWith o ws).advanceRest.queue = t.queue ∧
    (t.replyWith o ws).advanceRest.op = (t.replyWith o ws).op ∧ .loadReturn t.nextId ∈ (t.replyWith o ws).advanceRest.agenda :=
  ⟨rfl, rfl, rfl, rfl, List.mem_append_right _ (List.mem_singleton_self _)⟩

theorem claims_launchAppends : Claims.LaunchAppends := by
  intro f s s1 s2 u d loc lv1 lv2 e1 e2 hu hal hordered q c core x b hopen hfeed hroom hentry hrecord hd hloc hdal hout hs2 hids
  have hhomely : Homely b s2 := by
    have h1 := homely_translate b c (some core) (coreDie core) (x.entry x.prod) true
    have h2 := homely_translate s1 c (some core) (coreDie core) (s.srcPair u f.a).toNat false
    rw [hentry] at h1
    rw [hrecord] at h2
    exact h1.trans h2
  have hqueues (n : Nat) : s2.queue n = s.queue n := hhomely.queue n
  obtain ⟨tags, happend⟩ := launchAppend_eq hentry hrecord hd hloc hs2
  obtain ⟨hbytes, hsyns, hqueue, hnext, hopIds⟩ :=
    recordAppended_store (f := f) (u := u) (loc := loc) hqueues hhomely.queuePages hs2 tags hd hdal hout
  have hexec := exec_launch hu hal hordered
  rw [launchOne_room hopen hfeed hroom, happend] at hexec
  generalize recordAppended s s2 f u d loc tags = t at hbytes hsyns hqueue hnext hopIds hexec
  have hlow (o : Op) (ho : o ∈ t.ops) : o.id < t.nextId := by
    have hmem : o.id ∈ s2.ops.map Op.id := hopIds ▸ List.mem_map_of_mem ho
    obtain ⟨y, hy, hyo⟩ := List.mem_map.mp hmem
    rw [hnext, ← hyo]
    exact hids y hy
  obtain ⟨hbytes', hsyns', hqueue', hop', hagenda⟩ :=
    replyWith_rest t ((launchReleased s u).systemOp f.fb u f.dst.toNat 1) [BitVec.ofNat 32 (launchQueue f s u).prod]
  have hop :=
    op_replyWith ((launchReleased s u).systemOp f.fb u f.dst.toNat 1) [BitVec.ofNat 32 (launchQueue f s u).prod] hlow
  obtain ⟨-, hprod, hlts⟩ := settled_fields (appended (s.orderTime core) (launchQueue f s u).prod (launchQueue f s u))
  refine ⟨_, { (launchReleased s u).systemOp f.fb u f.dst.toNat 1 with
      fill := bytesOf [BitVec.ofNat 32 (launchQueue f s u).prod], id := t.nextId }, hexec,
    ?_, ?_, ?_, ?_, ?_, rfl, rfl, ?_⟩
  · rw [hbytes', hbytes]
  · rw [hsyns', hsyns]
  · rw [hqueue', hqueue, hprod, appended_prod]
    exact rfl
  · rw [hqueue', hqueue, hlts]
    exact appended_lts _ _ _
  · rw [hop', ← hnext]
    exact hop
  · rw [← hnext]
    exact hagenda

/-- Settles O48. -/
theorem launchWords : Obligations.LaunchWords := by
  unfold Obligations.LaunchWords
  exact ⟨claims_launchRefused, claims_releaseLeaves, claims_launchAppends, claims_launchTraps, claims_hostPosts, claims_firmwarePosts⟩

end Sys2Proof.Proofs
end

