-- ==== Sys2Proof/Proofs/ChainChecks.lean ====
section
/-! The checks between fetch and issue for the words of a chain (R28, R376), and the step that issues them together (R29). -/

namespace Sys2Proof.Proofs

open Sys2Proof.Machine Sys2Proof.Says Sys2Proof.Laws

/-! ### The checks -/

/-- Threads that issue nothing again and owe nothing, at words with no breakpoint. -/
structure ChecksFree (r : State) (u : Thread) (k : Nat) (ws : List Word) : Prop where
  gang     : r.gangThreads ≠ []
  plain    : ∀ t ∈ r.gangThreads, t.again = []
  watchdog : ∀ t ∈ r.gangThreads, t.wdDue = false
  owed     : ∀ t ∈ r.gangThreads, t.owed = []
  breaks   : ∀ j < ws.length, r.breakAt u (k + j) = false

/-- The threads that owe a fault at word j of a chain. -/
def owingAt (r : State) (ws : List Word) (j : Nat) : List Thread :=
  match ((ws[j]?).bind fun w => (decodeWord w).toOption).bind duePoint with
  | some g => (r.executing g).filter fun t => !t.owed.isEmpty
  | none => []

theorem owingAt_nil {r : State} (h : ∀ t ∈ r.gangThreads, t.owed = []) (ws : List Word) (j : Nat) : owingAt r ws j = [] := by
  unfold owingAt
  split
  · exact owing_nil h _
  · rfl

/-- The instructions of the words that decode. -/
def decodedWords (ws : List Word) : List Instr :=
  ws.map decodeWord |>.filterMap fun r => match r with | .ok i => some i | .error _ => none

theorem decodedWords_ok {ws : List Word} {is : List Instr} (h : ws.map decodeWord = is.map .ok) : decodedWords ws = is := by
  rw [decodedWords, h, List.filterMap_map]
  exact List.filterMap_some

theorem checkWords_free {r : State} {u : Thread} {k : Nat} {ws : List Word} (h : ChecksFree r u k ws) : r.checkWords u k ws =
    ((r.chainFate k ws).map fun f => Verdict.run r [.malformedWord f.1 u.pkt f.2]).getD (r.checkChain k (decodedWords ws)) := by
  have hall : r.gangThreads.all Thread.reissues = false := by
    obtain ⟨t, ht⟩ := List.exists_mem_of_ne_nil _ h.gang
    exact List.all_eq_false.mpr ⟨t, ht, by simp [redo_none (h.plain t ht)]⟩
  have hwd : r.gangThreads.any Thread.wdDue = false := List.any_eq_false.mpr fun t ht => by simp [h.watchdog t ht]
  have hbreaks : ((List.range ws.length).any fun j => r.breakAt u (k + j)) = false :=
    List.any_eq_false.mpr fun j hj => by simp [h.breaks j (List.mem_range.mp hj)]
  have howed : ((List.range ws.length).findSome? fun j => (r.atWord (k + j)).owedTrap (owingAt r ws j)) = none :=
    List.findSome?_eq_none_iff.mpr fun j _ => by rw [owingAt_nil h.owed, owedTrap_nil]
  unfold State.checkWords
  simp only [hall, Bool.false_eq_true, if_false, hbreaks, hwd]
  split
  · next t ht => exact absurd (ht.symm.trans howed) (Option.some_ne_none t)
  · cases r.chainFate k ws <;> rfl

theorem getElem?_of_mem_numbered {α : Type} {xs : List α} {e : Nat × α} (h : e ∈ (List.range xs.length).zip xs) : xs[e.1]? = some e.2 := by
  obtain ⟨j, hj, rfl⟩ := List.mem_iff_getElem.mp h
  rw [List.getElem_zip, List.getElem_range]
  exact List.getElem?_eq_getElem _

/-- A chain none of whose words has a fate but to issue, and which nothing stops, issues. -/
theorem checkChain_run {r : State} {u : Thread} {k : Nat} {ws : List Word} {is : List Instr} (h : ChainUnhindered r u k ws is) :
    r.checkChain k is = .run r is := by
  have hat (e : Nat × Instr) (he : e ∈ (List.range is.length).zip is) : is[e.1]? = some e.2 := getElem?_of_mem_numbered he
  have hmode : ((List.range is.length).zip is).find? (fun e => (r.forWord e.1).unprivileged e.2) = none :=
    List.find?_eq_none.mpr fun e he => by simp [(h.each e.1 e.2 (hat e he)).1]
  have hwhole : ((List.range is.length).zip is).find? (fun e => (uses e.2).pipe == 4 && !(r.forWord e.1).whole) = none :=
    List.find?_eq_none.mpr fun e he => by
      obtain ⟨-, hpipe, -⟩ := h.each e.1 e.2 (hat e he)
      by_cases hp : (uses e.2).pipe = 4
      · simp [hpipe hp]
      · simp [hp]
  have hstall : ((List.range is.length).zip is).findSome? (fun e => (r.forWord e.1).stallOf e.2) = none :=
    List.findSome?_eq_none_iff.mpr fun e he => (h.each e.1 e.2 (hat e he)).2.2.1
  have hfull : r.gangThreads.any (flagFull is) = false := List.any_eq_false.mpr fun t ht => by simp [h.flags t ht]
  have hmatrix : ((List.range is.length).zip is).find? (fun e => ((r.forWord e.1).matrixCause e.2).isSome) = none :=
    List.find?_eq_none.mpr fun e he => by simp [(h.each e.1 e.2 (hat e he)).2.2.2.1]
  have hpoison : ((List.range is.length).zip is).findSome? (fun e => ((r.forWord e.1).poisonHit e.2).map fun q => (e.1, q)) = none :=
    List.findSome?_eq_none_iff.mpr fun e he => by rw [(h.each e.1 e.2 (hat e he)).2.2.2.2]; rfl
  unfold State.checkChain
  simp only [hmode, hwhole, hstall, hfull, hmatrix, hpoison, Option.none_or, Bool.false_eq_true, if_false]

/-! ### Clashes -/

theorem majorPipe_eq_pipeOf {m : Nat} (hm : m < 32) (h0 : m ≠ 0) : majorPipe m = pipeOf m := by
  have h : ∀ n : Fin 32, n.val ≠ 0 → majorPipe n.val = pipeOf n.val := by decide
  exact h ⟨m, hm⟩ h0

theorem majorOf_lt (w : Word) : majorOf w < 32 := BitVec.isLt _

/-- The first of two words ends the chain before it where it is a transfer, and nothing else is wrong with it. -/
theorem badChain_first {k : Nat} (hk : k ≤ 1) (v w : Word) : badChain k [v, w] 0 = (majorOf v == 1 || majorOf v == 2) := by
  have hpos : (k == 2) = false := by simp; omega
  simp [badChain, hpos]

/-- The second of two words breaks a rule where it uses the pipe of the first. -/
theorem badChain_second {k : Nat} {v w : Word} (h : majorPipe (majorOf v) = majorPipe (majorOf w)) : badChain k [v, w] 1 = true := by
  simp [badChain, h]

/-- A bad word of a chain of two is named, once both are known to have another major than 0. -/
theorem chainFate_clash {s : State} {k : Nat} {v w : Word} (hv : majorOf v ≠ 0) (hw : majorOf w ≠ 0) {j : Nat}
    (hj : [0, 1].find? (badChain k [v, w]) = some j) : s.chainFate k [v, w] = some (.illegalChain, k + j) := by
  have hidx : List.range [v, w].length = [0, 1] := rfl
  have hclause : [0, 1].find? (fun j => majorOf ([v, w].getD j 0) == 0) = none :=
    List.find?_eq_none.mpr fun j hj => by
      obtain rfl | rfl : j = 0 ∨ j = 1 := by simpa using hj
      · simpa using hv
      · simpa using hw
  unfold State.chainFate
  rw [hidx]
  dsimp only
  rw [hclause, hj]
  rfl

theorem claims_chainClashes : Claims.ChainClashes := by
  intro r u k v w hk hv hw _ hthreads hbreak hbreak' hne
  change (majorOf v ≠ 1 → majorOf v ≠ 2 → _) ∧ (majorOf v = 1 ∨ majorOf v = 2 → _)
  have hfree : ChecksFree r u k [v, w] := {
    gang := hne
    plain := fun t ht => (hthreads t ht).1
    watchdog := fun t ht => (hthreads t ht).2.1
    owed := fun t ht => (hthreads t ht).2.2
    breaks := fun j hj => by
      obtain rfl | rfl : j = 0 ∨ j = 1 := by simp at hj; omega
      · exact hbreak
      · exact hbreak' }
  rw [checkWords_free hfree]
  refine ⟨fun h1 h2 hpipe => ?_, fun htransfer => ?_⟩
  · have hfirst : badChain k [v, w] 0 = false := by
      rw [badChain_first hk]
      exact Bool.or_eq_false_iff.mpr ⟨by simpa using h1, by simpa using h2⟩
    have hsecond : badChain k [v, w] 1 = true :=
      badChain_second (by rw [majorPipe_eq_pipeOf (majorOf_lt v) hv, majorPipe_eq_pipeOf (majorOf_lt w) hw]; exact hpipe)
    rw [chainFate_clash hv hw (j := 1) (by simp [hfirst, hsecond])]
    rfl
  · have hfirst : badChain k [v, w] 0 = true := by
      rw [badChain_first hk]
      simpa using htransfer
    rw [chainFate_clash hv hw (j := 0) (by simp [hfirst])]
    rfl

/-! ### The step -/

theorem fetch_word {g r : State} {u : Thread} {k c core base loc : Nat} {w : Word} {e : BitVec 64} {l : Nat} (hc : g.ctxOf u.tid = c)
    (hcore : g.coreOf u.tid = core) (hbase : g.codeBase u = base)
    (htranslate : g.translate c (some core) (coreDie core) ((base + 12 * u.pkt.toNat + 4 * k) % 2 ^ 64) false = (r, .ok loc e l))
    (hbytes : r.fresh c loc 4 = wordBytes w) : g.fetch u k = (r, .word w) := by
  unfold State.fetch
  dsimp only
  rw [hc, hcore, hbase, htranslate]
  dsimp only
  rw [hbytes, natLe_wordBytes]

/-- Where a thread's code stands rests on its team, its launch and its context. -/
theorem codePlace_congr {g z : State} (hteams : z.teams = g.teams) (hlaunches : z.launches = g.launches) (hctxs : z.ctxs = g.ctxs)
    (hfw : z.fwCtx = g.fwCtx) (u : Thread) : z.ctxOf u.tid = g.ctxOf u.tid ∧ z.coreOf u.tid = g.coreOf u.tid ∧ z.codeBase u = g.codeBase u := by
  have hteam : z.team = g.team := by
    funext t
    rw [State.team, State.team, hteams]
  have hctxOf (t : Nat) : z.ctxOf t = g.ctxOf t := by rw [State.ctxOf, State.ctxOf, hteam]
  have hctx (n : Nat) : z.ctx n = g.ctx n := by rw [State.ctx, State.ctx, hfw, hctxs]
  have hlaunch (n : Nat) : z.launch n = g.launch n := by rw [State.launch, State.launch, hlaunches]
  have hlaunchOf (t : Nat) : z.launchOf t = g.launchOf t := by simp only [State.launchOf, hteam, hlaunch]
  have hrecord (t : Nat) : z.recordOf t = g.recordOf t := by rw [State.recordOf, State.recordOf, hlaunchOf]
  refine ⟨hctxOf _, by rw [State.coreOf, State.coreOf, hteam], ?_⟩
  rw [State.codeBase, State.codeBase, hctxOf, hctx, hrecord]

/-- Two words, the first with bit 31 set and the second without, are fetched as the chain. -/
theorem fetchChain_two {g r z : State} {u : Thread} {k : Nat} {v w : Word} (hv : g.fetch u k = (z, .word v)) (h31 : v.getLsbD 31 = true)
    (hmajor : majorOf v ≠ 0) (hw : z.fetch u (k + 1) = (r, .word w)) (h31' : w.getLsbD 31 = false) :
    g.fetchChain u 2 k = (r, .ok [v, w]) := by
  have htop : (v.getLsbD 31 && majorOf v != 0) = true := by rw [h31]; simpa using hmajor
  have hlast : z.fetchChain u 1 (k + 1) = (r, .ok [w]) := by
    unfold State.fetchChain
    rw [hw]
    dsimp only
    rw [h31', Bool.false_and, if_neg (by decide)]
  unfold State.fetchChain
  rw [hv]
  dsimp only
  rw [htop, if_pos rfl, hlast]

/-- A gang that stands at a chain is judged on its words. -/
theorem verdict_chain {g r : State} {u : Thread} {k : Nat} {ws : List Word} (h : StandsChain g r u k ws) : g.verdict = r.checkWords u k ws := by
  obtain ⟨us, hgang⟩ := h.first
  obtain ⟨hword, hlow, hlen, hhigh⟩ := h.word
  obtain ⟨v, w, rfl⟩ : ∃ v w, ws = [v, w] := List.length_eq_two.mp (by omega)
  obtain rfl : k = 1 := by simp at hhigh; omega
  obtain ⟨z, hz0, hz2, hbytes⟩ := h.bytes
  obtain ⟨hv, hv31⟩ := h.chain 0 v rfl
  obtain ⟨hw, hw31⟩ := h.chain 1 w rfl
  obtain ⟨_, _, _, hvt, hvb, hteams, hlaunches, hctxs, hfw⟩ := hbytes 0 v rfl
  obtain ⟨_, _, _, hwt, hwb, -⟩ := hbytes 1 w rfl
  obtain ⟨hctx, hcore, hbase⟩ := codePlace_congr hteams hlaunches hctxs hfw u
  rw [hz0] at hvt
  rw [show z (1 + 1) = r from hz2] at hwt hwb
  have hfetch := fetchChain_two (fetch_word rfl rfl rfl hvt hvb) (hv31.mpr Nat.one_lt_two) hv (fetch_word hctx hcore hbase hwt hwb)
    (by simpa using hw31)
  unfold State.verdict
  rw [hgang]
  dsimp only
  rw [dueTrap_none fun t ht => (h.plain t ht).2]
  dsimp only
  rw [hword, if_neg (by decide), hfetch]
  rfl

theorem claims_chainsIssue : Claims.ChainsIssue := by
  intro s s' r key run p u k ws is hissues hstands hdecoded hgang hthreads hfree
  have hsame := gangThreads_congr hgang hthreads
  have hne : r.gangThreads ≠ [] := by
    obtain ⟨us, hus⟩ := hstands.first
    rw [hsame, hus]
    exact List.cons_ne_nil u us
  have hword : r.gangWord = k := by
    obtain ⟨us, hus⟩ := hstands.first
    rw [State.gangWord, hsame, hus]
    exact hstands.word.1
  have hchecks : r.checkWords u k ws = .run r is := by
    rw [checkWords_free ⟨hne, fun t ht => (hstands.plain t (hsame ▸ ht)).1, hfree.watchdog, hfree.owed, hfree.breaks⟩, hfree.fate,
      decodedWords_ok hdecoded]
    exact checkChain_run hfree
  have hstep := slot_run hissues ((verdict_chain hstands).trans hchecks)
  rw [hword] at hstep
  rw [step_slot hissues, hstep]
  cases issueWords k is r.ready <;> rfl

end Sys2Proof.Proofs
end

