-- ==== Sys2Proof/Proofs/BankStores.lean ====
section
/-! What the stores of the banked spaces do where nothing traps and no granule is poisoned (R132, R137): the bytes, one operation in
flight for each thread, and the threads otherwise as they were. -/

namespace Sys2Proof.Proofs

open Sys2Proof.Machine Sys2Proof.Says Sys2Proof.Laws

/-! ### The last of several writes -/

theorem lastOf_nil (l : Nat) (old : Byte) : lastOf l old [] = old := rfl

theorem lastOf_cons (l : Nat) (old : Byte) (e : Nat × Byte) (st : List (Nat × Byte)) :
    lastOf l old (e :: st) = lastOf l (if e.1 = l then e.2 else old) st := by
  by_cases he : e.1 = l
  · rw [if_pos he, lastOf, List.filter_cons, if_pos (by simpa using he), List.getLast?_cons, lastOf]
    cases (st.filter fun e => e.1 == l).getLast? <;> rfl
  · rw [if_neg he, lastOf, List.filter_cons, if_neg (by simpa using he), lastOf]

/-- What a byte holds after writes, one after the other. -/
theorem byte_put (st : List (Nat × Byte)) (m : State) (l : Nat) : (put m st).byte l = lastOf l (m.byte l) st := by
  induction st generalizing m with
  | nil => rfl
  | cons e st ih =>
    show (put (m.setByte e.1 e.2) st).byte l = _
    rw [ih, lastOf_cons, byte_setByte]

/-- Of writes only those to the byte's own granule count. -/
theorem lastOf_granule (l g : Nat) (old : Byte) (st : List (Nat × Byte)) :
    lastOf l old (st.filter fun e => e.1 / 32 == g) = if l / 32 = g then lastOf l old st else old := by
  induction st generalizing old with
  | nil => simp [lastOf_nil]
  | cons e st ih =>
    rw [List.filter_cons, lastOf_cons]
    by_cases he : e.1 / 32 = g
    · rw [if_pos (by simpa using he), lastOf_cons, ih]
      by_cases hl : l / 32 = g
      · rw [if_pos hl, if_pos hl]
      · have hne : e.1 ≠ l := by
          rintro rfl
          exact hl he
        rw [if_neg hl, if_neg hl, if_neg hne]
    · rw [if_neg (by simpa using he), ih]
      by_cases hl : l / 32 = g
      · have hne : e.1 ≠ l := by
          rintro rfl
          exact he hl
        rw [if_neg hne]
      · rw [if_neg hl, if_neg hl]

/-- Writing the same bytes again changes nothing. -/
theorem lastOf_lastOf (l : Nat) (old : Byte) (st : List (Nat × Byte)) : lastOf l (lastOf l old st) st = lastOf l old st := by
  unfold lastOf
  cases (st.filter fun e => e.1 == l).getLast? <;> rfl

/-! ### The granules -/

/-- The bytes of a list of stores and where they go. -/
def storePairs (all : StoreBytes) : List (Nat × Byte) := all.map fun e => (e.1, e.2.1)

/-- Every granule that the stores touch is whole. -/
def Sound (m : State) (all : StoreBytes) : Prop := ∀ e ∈ all, m.synAt e.1 = 0

/-- The syndrome is that of the whole granule. -/
theorem synAt_granule (m : State) (l : Nat) : m.synAt (32 * (l / 32)) = m.synAt l := by
  have hhost : isHost (32 * (l / 32)) = isHost l := by
    simp only [isHost, decide_eq_decide]
    omega
  have hgranule : 32 * (l / 32) / 32 = l / 32 := by omega
  rw [State.synAt, State.synAt, hhost, hgranule]

theorem synAt_cleared {m : State} {a : Nat} (h : m.synAt a = 0) (loc : Nat) : (m.setSyn loc 0).synAt a = 0 := by
  unfold State.synAt at h ⊢
  split
  · rfl
  · next hhost =>
    rw [if_neg hhost] at h
    rw [State.setSyn, get_put]
    split
    · rfl
    · exact h

/-- Merging one granule that is whole before: its bytes are written. -/
theorem mergeGranule_sound {all : StoreBytes} {m : State} (h : Sound m all) {g : Nat} (hg : g ∈ all.map fun e => e.1 / 32) (space : Nat)
    (ea : Thread → Nat) : ∃ mem syn gtag, State.mergeGranule space ea all m g = { m with mem := mem, syn := syn, gtag := gtag } ∧
      (∀ a, m.synAt a = 0 → (State.mergeGranule space ea all m g).synAt a = 0) ∧
      ∀ l, (State.mergeGranule space ea all m g).byte l = if l / 32 = g then lastOf l (m.byte l) (storePairs all) else m.byte l := by
  obtain ⟨e, he, rfl⟩ := List.mem_map.mp hg
  have htakes : m.refuses all (e.1 / 32) = false := by rw [State.refuses, synAt_granule, h e he]; simp
  obtain ⟨n, hput⟩ : ∃ n, put m ((storePairs all).filter fun x => x.1 / 32 == e.1 / 32) = n := ⟨_, rfl⟩
  have hmine : (all.filter fun x => x.1 / 32 == e.1 / 32).foldl (fun s x => s.setByte x.1 x.2.1) m = n := by
    rw [← hput, put, storePairs, List.filter_map, List.foldl_map]
    rfl
  have hmerge : State.mergeGranule space ea all m (e.1 / 32) =
      if all.whole (e.1 / 32) then (n.setSyn (32 * (e.1 / 32)) 0).setTag (32 * (e.1 / 32)) 0 else n.setTag (32 * (e.1 / 32)) 0 := by
    unfold State.mergeGranule
    rw [htakes, if_neg (by decide)]
    dsimp only
    rw [hmine]
  have hbyte (l : Nat) : n.byte l = if l / 32 = e.1 / 32 then lastOf l (m.byte l) (storePairs all) else m.byte l := by
    rw [← hput, byte_put, lastOf_granule]
  have hmem := put_eq m ((storePairs all).filter fun x => x.1 / 32 == e.1 / 32)
  rw [hput] at hmem
  rw [hmerge]
  obtain ⟨mem, hn⟩ : ∃ mem, n = { m with mem := mem } := ⟨_, hmem⟩
  have hsyn (a : Nat) (ha : m.synAt a = 0) : n.synAt a = 0 := by rw [hn]; exact ha
  split
  · refine ⟨mem, _, _, by rw [hn]; rfl, fun a ha => synAt_cleared (hsyn a ha) _, hbyte⟩
  · refine ⟨mem, m.syn, _, by rw [hn]; rfl, hsyn, hbyte⟩

/-- Merging granules one after the other. -/
theorem mergeGranules_sound {all : StoreBytes} (space : Nat) (ea : Thread → Nat) (gs : List Nat) {m : State} (h : Sound m all)
    (hgs : ∀ g ∈ gs, g ∈ all.map fun e => e.1 / 32) : ∃ mem syn gtag,
      gs.foldl (State.mergeGranule space ea all) m = { m with mem := mem, syn := syn, gtag := gtag } ∧
      ∀ l, (gs.foldl (State.mergeGranule space ea all) m).byte l = if l / 32 ∈ gs then lastOf l (m.byte l) (storePairs all) else m.byte l := by
  induction gs generalizing m with
  | nil => exact ⟨m.mem, m.syn, m.gtag, rfl, fun l => by simp⟩
  | cons g gs ih =>
    obtain ⟨mem, syn, gtag, hg, hsyn, hbyte⟩ := mergeGranule_sound h (hgs g List.mem_cons_self) space ea
    obtain ⟨mem', syn', gtag', hall, hbytes⟩ := ih (m := State.mergeGranule space ea all m g) (fun e he => hsyn e.1 (h e he))
      fun x hx => hgs x (List.mem_cons_of_mem g hx)
    refine ⟨mem', syn', gtag', ?_, fun l => ?_⟩
    · rw [List.foldl_cons, hall, hg]
    · rw [List.foldl_cons, hbytes, hbyte]
      by_cases hlg : l / 32 = g
      · rw [if_pos hlg, lastOf_lastOf, if_pos (List.mem_cons.mpr (.inl hlg)), ite_self]
      · simp [hlg]

theorem mem_dedup {x : Nat} {l : List Nat} : x ∈ dedup l ↔ x ∈ l := by
  induction l with
  | nil => rfl
  | cons y r ih =>
    rw [dedup, List.mem_cons, List.mem_filter, List.mem_cons, ih]
    by_cases hxy : x = y <;> simp [hxy]

/-- All stores of a gang into whole granules: each byte holds the last one written to it. -/
theorem granules_sound {all : StoreBytes} {m : State} (h : Sound m all) (space : Nat) (ea : Thread → Nat) : ∃ mem syn gtag,
    all.granules.foldl (State.mergeGranule space ea all) m = { m with mem := mem, syn := syn, gtag := gtag } ∧
    ∀ l, (all.granules.foldl (State.mergeGranule space ea all) m).byte l = lastOf l (m.byte l) (storePairs all) := by
  obtain ⟨mem, syn, gtag, hall, hbytes⟩ := mergeGranules_sound space ea all.granules h fun g hg => mem_dedup.mp hg
  refine ⟨mem, syn, gtag, hall, fun l => ?_⟩
  rw [hbytes]
  by_cases hl : l / 32 ∈ all.granules
  · exact if_pos hl
  · rw [if_neg hl]
    have hnone : (storePairs all).filter (fun e => e.1 == l) = [] := by
      refine List.filter_eq_nil_iff.mpr fun e he hel => hl (mem_dedup.mpr ?_)
      obtain ⟨x, hx, rfl⟩ := List.mem_map.mp he
      exact List.mem_map.mpr ⟨x, hx, congrArg (· / 32) (eq_of_beq hel)⟩
    rw [lastOf, hnone]
    rfl

/-! ### The threads -/

/-- Each storing thread takes the time of what stood at its bytes, and leaves its own. -/
def timed (locs : State → Thread → List Nat) (m : State) (u : Thread) : State :=
  (m.leaveRel u.rel (locs m u)).modThread u.uid (Thread.take (m.readAt (locs m u)))

theorem timed_foldl (locs : State → Thread → List Nat) (us : List Thread) (m : State) :
    ∃ bankRel, ∃ got : Thread → Nat, us.foldl (timed locs) m =
    { m with bankRel := bankRel, threads := m.threads.map fun t => withGot (got t) t } ∧ ∀ t, t.uid ∉ us.map Thread.uid → got t = t.got := by
  induction us generalizing m with
  | nil => exact ⟨m.bankRel, Thread.got, by rw [show (fun t => withGot t.got t) = id from rfl, List.map_id]; rfl, fun _ _ => rfl⟩
  | cons u us ih =>
    obtain ⟨bankRel, got, hall, hgot⟩ := ih (timed locs m u)
    refine ⟨bankRel, fun t => got (if t.uid == u.uid then Thread.take (m.readAt (locs m u)) t else t), ?_, fun t ht => ?_⟩
    · rw [List.foldl_cons, hall, timed, modThread_threads, List.map_map]
      refine congrArg (fun ts => ({ m with bankRel := bankRel, threads := ts } : State)) (List.map_congr_left fun t _ => ?_)
      simp only [Function.comp]
      split <;> rfl
    · obtain ⟨hu, hus⟩ := not_or.mp (mt List.mem_cons.mpr ht)
      have hother : (t.uid == u.uid) = false := by simpa using hu
      dsimp only
      rw [hother, if_neg (by decide)]
      exact hgot t hus

/-- The operation of one thread's store. -/
def storeOp (s : State) (space : Nat) (f : FM) (u : Thread) : Op :=
  { s.opOf u .store (u.sel f.fb) with space := space, size := widthBytes f.w }

theorem opOf_send (s : State) (o : Op) (ev : Nat → Instr) : (s.send o ev).opOf = s.opOf := rfl

/-- The operations are made one after the other, and each as it would be before the others. -/
theorem foldl_send_storeOp (space : Nat) (f : FM) (us : List Thread) (m : State) :
    us.foldl (fun s t => s.send (storeOp s space f t) .storeAck) m = sendAll us (storeOp m space f) .storeAck m := by
  induction us generalizing m with
  | nil => rfl
  | cons u us ih =>
    have hop : storeOp (m.send (storeOp m space f u) .storeAck) space f = storeOp m space f := by
      unfold storeOp
      rw [opOf_send]
    rw [List.foldl_cons, ih, hop]
    rfl

/-- What the stores of the gang's threads do, where `st` is what they write. -/
structure StoresAll (s t : State) (space : Nat) (f : FM) (st : List (Nat × Byte)) : Prop where
  rest    : ∃ mem syn gtag ops agenda nextId bankRel threads, t =
    { s with mem := mem, syn := syn, gtag := gtag, ops := ops, agenda := agenda, nextId := nextId, bankRel := bankRel, threads := threads }
  bytes   : ∀ l, t.byte l = lastOf l (s.byte l) st
  agenda  : t.agenda = s.agenda ++ numberedEvents (s.executing f.pred).length .storeAck s.nextId
  threads : ∃ got : Thread → Nat, t.threads = s.threads.map fun a =>
    if a.uid ∈ s.gang then (notedAll ((s.executing f.pred).map (storeOp s space f)) (withGot (got a) a)).next else a

/-- The bytes that the executing threads store. -/
def storedPairs (s : State) (space : Nat) (f : FM) : List (Nat × Byte) :=
  (s.executing f.pred).flatMap fun u =>
    ((s.bankLocs space u f.a (f.mod.toNat * widthBytes f.w) (widthBytes f.w)).getD []).zip (s.storeBytes u f.data (widthBytes f.w))

theorem storePairs_bankBytes (s : State) (space : Nat) (f : FM) :
    storePairs (s.bankBytes space (s.executing f.pred) f (f.mod.toNat * widthBytes f.w) (widthBytes f.w)) = storedPairs s space f := by
  rw [storePairs, State.bankBytes, storedPairs, List.map_flatMap]
  refine List.flatMap_congr fun u _ => ?_
  rw [List.map_map]
  exact List.map_id _

/-- Accesses that no cause stops, to granules that are whole. -/
def SoundAccesses (s : State) (space : Nat) (f : FM) (locs : Thread → List Nat) : Prop :=
  ∀ u ∈ s.executing f.pred,
    Access s space f.a (f.mod.toNat * widthBytes f.w) (widthBytes f.w) u (locs u) ∧ ∀ l ∈ locs u, s.synAt l = 0

theorem bankStores_sound {s : State} {space : Nat} {f : FM} {locs : Thread → List Nat} (h : SoundAccesses s space f locs) :
    ∃ t, s.bankStores space f = .next t ∧ StoresAll s t space f (storedPairs s space f) := by
  have hnone : s.bankTrap space (s.executing f.pred) f.a (f.mod.toNat * widthBytes f.w) (widthBytes f.w) = none :=
    bankTrap_none (width_dvd f.w) fun u hu => (h u hu).1
  have hsound : Sound s (s.bankBytes space (s.executing f.pred) f (f.mod.toNat * widthBytes f.w) (widthBytes f.w)) := by
    intro e he
    obtain ⟨u, hu, hpair⟩ := List.mem_flatMap.mp he
    obtain ⟨x, hx, rfl⟩ := List.mem_map.mp hpair
    obtain ⟨hloc, -⟩ := List.of_mem_zip hx
    rw [(h u hu).1.bound] at hloc
    exact (h u hu).2 x.1 hloc
  obtain ⟨mem, syn, gtag, hmerged, hbytes⟩ := granules_sound hsound space fun t => s.bankEa space t f.a (f.mod.toNat * widthBytes f.w)
  obtain ⟨bankRel, got, htimed, hgot⟩ := timed_foldl
    (fun s t => (s.bankLocs space t f.a (f.mod.toNat * widthBytes f.w) (widthBytes f.w)).getD []) (s.executing f.pred)
    { s with mem := mem, syn := syn, gtag := gtag }
  have hexec : s.bankStores space f = .next (sendAll (s.executing f.pred) (storeOp s space f) .storeAck
      { s with mem := mem, syn := syn, gtag := gtag, bankRel := bankRel, threads := s.threads.map fun t => withGot (got t) t }).advance := by
    unfold State.bankStores
    dsimp only
    rw [hnone]
    dsimp only
    rw [hmerged]
    refine congrArg (fun m : State => Host.Outcome.next m.advance) ?_
    refine (congrArg ((s.executing f.pred).foldl fun s t => s.send (storeOp s space f t) .storeAck) htimed).trans ?_
    exact foldl_send_storeOp space f (s.executing f.pred) _
  have hsent := sendAll_eq (s.executing f.pred) (storeOp s space f) .storeAck
    { s with mem := mem, syn := syn, gtag := gtag, bankRel := bankRel, threads := s.threads.map fun t => withGot (got t) t }
  rw [hsent] at hexec
  refine ⟨_, hexec, ⟨⟨mem, syn, gtag, _, _, _, bankRel, _, rfl⟩, fun l => ?_, rfl, got, ?_⟩⟩
  · rw [← storePairs_bankBytes, ← hbytes, hmerged]
    rfl
  · rw [State.advance, modThreads_threads, List.map_map, List.map_map]
    refine List.map_congr_left fun a _ => ?_
    have huid : (notedAll ((s.executing f.pred).map (storeOp s space f)) (withGot (got a) a)).uid = a.uid := notedAll_uid _ _
    simp only [Function.comp, huid]
    by_cases hg : a.uid ∈ s.gang
    · rw [if_pos hg, if_pos (by simpa using hg)]
    · rw [if_neg hg, if_neg (by simpa using hg)]
      have hne (u : Thread) (hu : u ∈ s.executing f.pred) : u.uid ≠ a.uid := fun h => hg (h ▸ executing_uid_mem hu)
      rw [show withGot (got a) a = a by
        rw [hgot a fun ha => by obtain ⟨u, hu, hua⟩ := List.mem_map.mp ha; exact hne u hu hua]; rfl]
      exact notedAll_of_forall_ne fun o ho => by obtain ⟨u, hu, rfl⟩ := List.mem_map.mp ho; exact hne u hu

end Sys2Proof.Proofs
end

