-- ==== Sys2Proof/Proofs/ChainWords.lean ====
section
/-! The states between the words of a chain (R29): the threads stand elsewhere and keep what the chain reads, and every word reads the same
in all of them. -/

namespace Sys2Proof.Proofs

open Sys2Proof.Machine Sys2Proof.Says Sys2Proof.Laws

/-! ### One thread -/

/-- A thread that differs in what it keeps for its chain, in its place, and in what words write: no predicate, flag of `FSTAT`, depth or state. -/
def Like (a b : Thread) : Prop := ∃ old pkt word clause fromPkt fromWord regs pois flags pendV outs got, b =
  { a with old := old, pkt := pkt, word := word, clause := clause, fromPkt := fromPkt, fromWord := fromWord, regs := regs, pois := pois,
           flags := flags, pendV := pendV, outs := outs, got := got }

theorem Like.refl (a : Thread) : Like a a := ⟨_, _, _, _, _, _, _, _, _, _, _, _, rfl⟩

theorem Like.trans {a b c : Thread} (hab : Like a b) (hbc : Like b c) : Like a c := by
  obtain ⟨_, _, _, _, _, _, _, _, _, _, _, _, rfl⟩ := hab
  obtain ⟨_, _, _, _, _, _, _, _, _, _, _, _, rfl⟩ := hbc
  exact ⟨_, _, _, _, _, _, _, _, _, _, _, _, rfl⟩

theorem like_next (a : Thread) : Like a a.next := by
  unfold Thread.next
  split
  · exact ⟨_, _, _, _, _, _, _, _, _, _, _, _, rfl⟩
  · split
    · split <;> exact ⟨_, _, _, _, _, _, _, _, _, _, _, _, rfl⟩
    · exact ⟨_, _, _, _, _, _, _, _, _, _, _, _, rfl⟩

/-- What a word makes of a thread before it passes on: registers and marks of work in flight. -/
def Light (a b : Thread) : Prop := ∃ regs pois flags pendV outs got, b =
  { a with regs := regs, pois := pois, flags := flags, pendV := pendV, outs := outs, got := got }

theorem Light.like {a b : Thread} (h : Light a b) : Like a b := by
  obtain ⟨_, _, _, _, _, _, rfl⟩ := h
  exact ⟨_, _, _, _, _, _, _, _, _, _, _, _, rfl⟩

/-- The place of a thread after passing on rests on its place before. -/
theorem next_place {a b : Thread} (hpkt : b.pkt = a.pkt) (hword : b.word = a.word) (hclause : b.clause = a.clause) :
    b.next.pkt = a.next.pkt ∧ b.next.word = a.next.word ∧ b.next.clause = a.next.clause := by
  unfold Thread.next
  rw [hword]
  split
  · exact ⟨hpkt, rfl, hclause⟩
  · rw [hclause, hpkt]
    split
    · split
      · exact ⟨rfl, rfl, rfl⟩
      · exact ⟨rfl, rfl, rfl⟩
    · exact ⟨rfl, rfl, rfl⟩

theorem next_within {a : Thread} (h : a.word < 2) : a.next = { a with word := a.word + 1 } := if_pos h

@[simp] theorem next_old (a : Thread) : a.next.old = a.old := by
  unfold Thread.next
  split
  · rfl
  · split
    · split <;> rfl
    · rfl

/-! ### The package -/

/-- The package `S` has the gang of `s`, each thread as `f` makes it, and otherwise differs in memory, in operations and in what they post. -/
structure Framed (s S : State) (f : Thread → Thread) : Prop where
  rest    : ∃ mem syn gtag ops agenda nextId bankRel gang threads, S = { s with
    mem := mem, syn := syn, gtag := gtag, ops := ops, agenda := agenda, nextId := nextId, bankRel := bankRel, gang := gang, threads := threads }
  threads : S.threads = s.threads.map fun a => if a.uid ∈ s.gang then f a else a
  gang    : ∀ a ∈ s.threads, a.uid ∈ S.gang ↔ a.uid ∈ s.gang
  like    : ∀ a, Like a (f a)

theorem Like.uid {a b : Thread} (h : Like a b) : b.uid = a.uid := by
  obtain ⟨_, _, _, _, _, _, _, _, _, _, _, _, rfl⟩ := h
  rfl

theorem Like.lane {a b : Thread} (h : Like a b) : b.lane = a.lane := by
  obtain ⟨_, _, _, _, _, _, _, _, _, _, _, _, rfl⟩ := h
  rfl

theorem Like.state {a b : Thread} (h : Like a b) : b.state = a.state := by
  obtain ⟨_, _, _, _, _, _, _, _, _, _, _, _, rfl⟩ := h
  rfl

theorem Like.again {a b : Thread} (h : Like a b) : b.again = a.again := by
  obtain ⟨_, _, _, _, _, _, _, _, _, _, _, _, rfl⟩ := h
  rfl

theorem insertBy_map {α : Type} {key : α → Nat} {f : α → α} (h : ∀ x, key (f x) = key x) (x : α) (l : List α) :
    sortBy.insertBy' key (f x) (l.map f) = (sortBy.insertBy' key x l).map f := by
  induction l with
  | nil => rfl
  | cons y l ih =>
    rw [List.map_cons, sortBy.insertBy', sortBy.insertBy', h, h]
    split
    · rfl
    · rw [ih, List.map_cons]

theorem sortBy_map {α : Type} {key : α → Nat} {f : α → α} (h : ∀ x, key (f x) = key x) (l : List α) :
    sortBy key (l.map f) = (sortBy key l).map f := by
  induction l with
  | nil => rfl
  | cons x l ih =>
    show sortBy.insertBy' key (f x) (sortBy key (l.map f)) = _
    rw [ih, insertBy_map h]
    rfl

section
variable {s S : State} {f : Thread → Thread} (h : Framed s S f)
include h

theorem Framed.uid (a : Thread) : (f a).uid = a.uid := (h.like a).uid

theorem Framed.gangThreads : S.gangThreads = s.gangThreads.map f := by
  have hfilter : (S.threads.filter fun t => S.gang.contains t.uid) = (s.threads.filter fun t => s.gang.contains t.uid).map f := by
    rw [h.threads, List.filter_map]
    have hsame : s.threads.filter ((fun t => S.gang.contains t.uid) ∘ fun a => if a.uid ∈ s.gang then f a else a) =
        s.threads.filter fun t => s.gang.contains t.uid := by
      refine List.filter_congr fun a ha => ?_
      have huid : (if a.uid ∈ s.gang then f a else a).uid = a.uid := by
        split
        · exact h.uid a
        · rfl
      rw [Function.comp, huid, Bool.eq_iff_iff, List.contains_iff_mem, List.contains_iff_mem]
      exact h.gang a ha
    rw [hsame]
    refine List.map_congr_left fun a ha => if_pos ?_
    simpa using (List.mem_filter.mp ha).2
  rw [State.gangThreads, hfilter]
  exact sortBy_map (fun a => (h.like a).lane) _

theorem Framed.uids : S.threads.map Thread.uid = s.threads.map Thread.uid := by
  rw [h.threads, List.map_map]
  refine List.map_congr_left fun a _ => ?_
  show (if a.uid ∈ s.gang then f a else a).uid = a.uid
  split
  · exact h.uid a
  · rfl

theorem Framed.atWord (k : Nat) : Framed s (S.atWord k) fun a => { f a with word := k } where
  rest := by
    obtain ⟨_, _, _, _, _, _, _, _, _, hS⟩ := h.rest
    rw [hS]
    exact ⟨_, _, _, _, _, _, _, _, _, rfl⟩
  threads := by
    rw [State.atWord, modThreads_threads, h.threads, List.map_map]
    refine List.map_congr_left fun a ha => ?_
    simp only [Function.comp]
    by_cases hg : a.uid ∈ s.gang
    · rw [if_pos hg, if_pos hg, if_pos (by simpa [h.uid] using (h.gang a ha).mpr hg)]
    · rw [if_neg hg, if_neg hg, if_neg (by simpa using mt (h.gang a ha).mp hg)]
  gang := h.gang
  like a := (h.like a).trans ⟨_, _, _, _, _, _, _, _, _, _, _, _, rfl⟩

theorem Framed.withGang {us : List Nat} (hus : ∀ a ∈ s.threads, a.uid ∈ us ↔ a.uid ∈ s.gang) : Framed s { S with gang := us } f where
  rest := by
    obtain ⟨_, _, _, _, _, _, _, _, _, hS⟩ := h.rest
    rw [hS]
    exact ⟨_, _, _, _, _, _, _, _, _, rfl⟩
  threads := h.threads
  gang := hus
  like := h.like

/-- No thread of the gang issues anything again: each word is issued for all of them. -/
theorem Framed.forWord (hagain : ∀ a ∈ s.gangThreads, a.again = []) (j : Nat) : Framed s (S.forWord j) f := by
  unfold State.forWord
  split
  · exact h
  · refine h.withGang fun a ha => ?_
    have hall : S.gangThreads.filter (fun t => !t.reissues) = S.gangThreads := by
      refine List.filter_eq_self.mpr fun t ht => ?_
      rw [h.gangThreads] at ht
      obtain ⟨b, hb, rfl⟩ := List.mem_map.mp ht
      have hredo : (f b).reissues = false := redo_none ((h.like b).again.trans (hagain b hb))
      rw [hredo]
      rfl
    rw [hall, Machine.uids, h.gangThreads, List.map_map, List.mem_map]
    refine ⟨fun ⟨b, hb, hba⟩ => ?_, fun hg => ⟨a, mem_gangThreads.mpr ⟨ha, hg⟩, h.uid a⟩⟩
    rw [← hba, Function.comp, h.uid]
    exact (mem_gangThreads.mp hb).2

end

/-! ### What words read -/

/-- A thread that keeps what `s` holds, or has not written its registers. -/
def Keeps (s : State) (a b : Thread) : Prop := b.old = some (s.wasOf a) ∨ b.old = none ∧ b.regs = a.regs

theorem wasOf_none {s : State} {a : Thread} (h : a.old = none) :
    (s.wasOf a).regs = a.regs ∧ (s.wasOf a).depth = a.depth ∧ (s.wasOf a).preds = a.preds ∧
      (s.wasOf a).sregs = match s.groupOf a with | some g => g.sregs | none => [] := by
  unfold State.wasOf
  rw [h]
  exact ⟨rfl, rfl, rfl, rfl⟩

theorem v_kept {s : State} {a b : Thread} (hold : a.old = none) (hlike : Like a b) (hb : Keeps s a b) (W k : Nat) : b.v W k = a.v W k := by
  rw [v_outside hold]
  obtain ⟨hregs, hdepth, -⟩ := wasOf_none (s := s) hold
  rcases hb with hb | ⟨hb, hsame⟩
  · rw [v_of_old hb, hregs, hdepth]
    rfl
  · rw [v_outside hb, reg, hsame]
    obtain ⟨_, _, _, _, _, _, _, _, _, _, _, _, rfl⟩ := hlike
    rfl

theorem p_kept {s : State} {a b : Thread} (hold : a.old = none) (hlike : Like a b) (hb : Keeps s a b) (i : BitVec 3) : b.p i = a.p i := by
  obtain ⟨-, -, hpreds, -⟩ := wasOf_none (s := s) hold
  rcases hb with hb | ⟨hb, -⟩
  · rw [p_of_old hb, hpreds, Thread.p, hold]
  · obtain ⟨_, _, _, _, _, _, _, _, _, _, _, _, rfl⟩ := hlike
    simp only at hb
    rw [Thread.p, Thread.p, hold, hb]

theorem sreg_kept {s S : State} {f : Thread → Thread} (h : Framed s S f) {a b : Thread} (hold : a.old = none) (hlike : Like a b)
    (hb : Keeps s a b) (k : Nat) : S.sreg b k = s.sreg a k := by
  obtain ⟨-, -, -, hsregs⟩ := wasOf_none (s := s) hold
  have hgroup : S.groupOf b = s.groupOf a := by
    obtain ⟨_, _, _, _, _, _, _, _, _, hS⟩ := h.rest
    obtain ⟨_, _, _, _, _, _, _, _, _, _, _, _, rfl⟩ := hlike
    rw [hS]
    rfl
  rcases hb with hb | ⟨hb, -⟩
  · rw [sreg_of_old hb, hsregs, State.sreg, hold]
    cases s.groupOf a <;> rfl
  · rw [State.sreg, State.sreg, hold, hb, hgroup]

theorem Framed.win {s S : State} {f : Thread → Thread} (h : Framed s S f) (t : Nat) : S.win t = s.win t := by
  obtain ⟨_, _, _, _, _, _, _, _, _, hS⟩ := h.rest
  rw [hS]
  rfl

theorem Like.tid {a b : Thread} (h : Like a b) : b.tid = a.tid := by
  obtain ⟨_, _, _, _, _, _, _, _, _, _, _, _, rfl⟩ := h
  rfl

theorem src_kept {s S : State} {f : Thread → Thread} (h : Framed s S f) {a b : Thread} (hold : a.old = none) (hlike : Like a b)
    (hb : Keeps s a b) (x : BitVec 7) : S.src b x = s.src a x := by
  rw [State.src, State.src, v_kept hold hlike hb, sreg_kept h hold hlike hb, h.win, hlike.tid]

/-- The threads that execute a word are the same in both, each as `f` makes it. -/
theorem Framed.executing {s S : State} {f : Thread → Thread} (h : Framed s S f)
    (hkeeps : ∀ a ∈ s.gangThreads, a.old = none ∧ Keeps s a (f a)) (p : BitVec 3) : S.executing p = (s.executing p).map f := by
  rw [State.executing, h.gangThreads, List.filter_map, State.executing]
  refine congrArg (List.map f) (List.filter_congr fun a ha => ?_)
  obtain ⟨hold, hb⟩ := hkeeps a ha
  exact p_kept hold (h.like a) hb p

/-- Where a bank access finds its bytes, given the address that it reads. -/
def bankPlace (s : State) (space : Nat) (t : Thread) (src off size : Nat) : Option (List Nat) :=
  let ea := src + off
  match s.team t.tid with
  | none => none
  | some x =>
    match space with
    | 5 =>
      let P := recPriv (s.recordOf t.tid)
      if ea + size ≤ (if 256 ≤ P then P - 256 else P) then some ((List.range size).map fun i => s.laneOwnLoc t (ea + i)) else none
    | 2 => if ea + size ≤ x.scrSize then some ((List.range size).map fun i => scratchLoc x.core (x.scrBase + ea + i)) else none
    | 3 =>
      let core := 4 * coreCluster x.core + src / 2 ^ 22 % 4
      let o := src % 2 ^ 22 + off
      if src < 2 ^ 24 && o + size ≤ 3145728 && (List.range size).all fun i => s.inLaunch x.lid core (o + i)
      then some ((List.range size).map fun i => scratchLoc core (o + i)) else none
    | _ =>
      let share := s.dieShare t.tid
      if ea + size ≤ share.1.length * share.2 then some ((List.range size).map fun i => dieByte share (ea + i)) else none

theorem bankLocs_eq_bankPlace (s : State) (space : Nat) (t : Thread) (a : BitVec 7) (off size : Nat) :
    s.bankLocs space t a off size = bankPlace s space t (s.src t a).toNat off size := rfl

theorem bankPlace_framed {s S : State} {f : Thread → Thread} (h : Framed s S f) {a b : Thread} (hlike : Like a b) (space src off size : Nat) :
    bankPlace S space b src off size = bankPlace s space a src off size := by
  obtain ⟨_, _, _, _, _, _, _, _, _, hS⟩ := h.rest
  obtain ⟨_, _, _, _, _, _, _, _, _, _, _, _, rfl⟩ := hlike
  rw [hS]
  rfl

theorem bankLocs_kept {s S : State} {f : Thread → Thread} (h : Framed s S f) {a b : Thread} (hold : a.old = none) (hlike : Like a b)
    (hb : Keeps s a b) (space : Nat) (x : BitVec 7) (off size : Nat) : S.bankLocs space b x off size = s.bankLocs space a x off size := by
  rw [bankLocs_eq_bankPlace, bankLocs_eq_bankPlace, src_kept h hold hlike hb, bankPlace_framed h hlike]

theorem access_kept {s S : State} {f : Thread → Thread} (h : Framed s S f) {a b : Thread} (hold : a.old = none) (hlike : Like a b)
    (hb : Keeps s a b) {space : Nat} {x : BitVec 7} {off size : Nat} {locs : List Nat} (hacc : Access s space x off size a locs) :
    Access S space x off size b locs where
  aligned := by rw [src_kept h hold hlike hb]; exact hacc.aligned
  bound := by rw [bankLocs_kept h hold hlike hb]; exact hacc.bound
  free := by
    obtain ⟨_, _, _, _, _, _, _, _, _, hS⟩ := h.rest
    rw [hS]
    exact hacc.free

end Sys2Proof.Proofs
end

