-- ==== Sys2Proof/Proofs/Chains.lean ====
section
/-! A chain of two words issued together (R28, R29): both read what stood before it and both take effect, and a word that traps does so before
any has an effect. -/

namespace Sys2Proof.Proofs

open Sys2Proof.Machine Sys2Proof.Says Sys2Proof.Laws

/-! ### One word -/

/-- A word that passes on: each thread of its gang as `w` makes it and gone on, and otherwise only memory and operations changed. -/
structure Passes (i : Instr) (s t : State) (w : Thread → Thread) : Prop where
  exec    : exec i s = .next t
  rest    : ∃ mem syn gtag ops agenda nextId bankRel threads, t =
    { s with mem := mem, syn := syn, gtag := gtag, ops := ops, agenda := agenda, nextId := nextId, bankRel := bankRel, threads := threads }
  threads : t.threads = s.threads.map fun a => if a.uid ∈ s.gang then (w a).next else a
  light   : ∀ a, Light a (w a)

theorem Framed.passes {s S t : State} {i : Instr} {f w : Thread → Thread} (h : Framed s S f) (hw : Passes i S t w) :
    Framed s t fun a => (w (f a)).next where
  rest := by
    obtain ⟨_, _, _, _, _, _, _, _, _, hS⟩ := h.rest
    obtain ⟨_, _, _, _, _, _, _, _, ht⟩ := hw.rest
    rw [ht, hS]
    exact ⟨_, _, _, _, _, _, _, _, _, rfl⟩
  threads := by
    rw [hw.threads, h.threads, List.map_map]
    refine List.map_congr_left fun a ha => ?_
    simp only [Function.comp]
    by_cases hg : a.uid ∈ s.gang
    · rw [if_pos hg, if_pos hg, if_pos (by rw [h.uid]; exact (h.gang a ha).mpr hg)]
    · rw [if_neg hg, if_neg hg, if_neg (mt (h.gang a ha).mp hg)]
  gang := by
    obtain ⟨_, _, _, _, _, _, _, _, ht⟩ := hw.rest
    rw [ht]
    exact h.gang
  like a := ((h.like a).trans (hw.light (f a)).like).trans (like_next _)

theorem Framed.trapped {s S : State} {f : Thread → Thread} (h : Framed s S f) : S.trapped = s.trapped := by
  obtain ⟨_, _, _, _, _, _, _, _, _, hS⟩ := h.rest
  rw [hS]

/-! ### The chain -/

/-- A gang that issues at word k for the first time, outside any chain. -/
structure Fresh (s : State) (k : Nat) : Prop where
  distinct : Distinct s
  issued   : s.issued = []
  old      : ∀ a ∈ s.threads, a.old = none
  gang     : ∀ a ∈ s.gangThreads, a.word = k ∧ a.again = [] ∧ a.state = .runnable

theorem Framed.refl (s : State) : Framed s s id where
  rest := ⟨_, _, _, _, _, _, _, _, _, rfl⟩
  threads := by
    conv_lhs => rw [← List.map_id s.threads]
    refine List.map_congr_left fun a _ => ?_
    split <;> rfl
  gang _ _ := Iff.rfl
  like := Like.refl

/-- A thread that keeps for its chain what stands now. -/
def remember (s : State) (a : Thread) : Thread := { a with old := some (s.wasOf a) }

theorem framed_snapshot {s : State} (hagain : ∀ a ∈ s.gangThreads, a.again = []) : Framed s s.snapshot (remember s) where
  rest := ⟨_, _, _, _, _, _, _, _, _, rfl⟩
  threads := by
    rw [State.snapshot, modThreads_threads]
    refine List.map_congr_left fun a ha => ?_
    by_cases hg : a.uid ∈ s.gang
    · rw [if_pos hg, if_pos (by simpa using hg), redo_nil (hagain a (mem_gangThreads.mpr ⟨ha, hg⟩))]
      rfl
    · rw [if_neg hg, if_neg (by simpa using hg)]
  gang _ _ := Iff.rfl
  like _ := ⟨_, _, _, _, _, _, _, _, _, _, _, _, rfl⟩

/-- The state at the end of a chain whose last word has left `t`. -/
def chainEnd (s t : State) : State := { t with gang := s.gang, issued := [], threads := t.threads.map fun a => { a with old := none } }

/-- A gang with threads of different numbers stands where it stands. -/
theorem placedAs_self {t : State} (h : Distinct t) : t.placedAs t = t := by
  have hthreads : (t.placedAs t).threads = t.threads := by
    rw [State.placedAs, modThreads_threads]
    conv_rhs => rw [← List.map_id t.threads]
    refine List.map_congr_left fun a ha => ?_
    have hfind : t.thread a.uid = some a := by
      rw [State.thread]
      refine find?_unique ha (by simp) fun b hb hba => ?_
      exact List.inj_on_of_nodup_map h hb ha (eq_of_beq hba)
    rw [hfind]
    split <;> rfl
  rw [show t.placedAs t = { t with threads := (t.placedAs t).threads } from rfl, hthreads]

/-- A chain of which no word traps, holds its gang or parks a thread. -/
structure ChainPasses (s : State) (k : Nat) (i j : Instr) (t u : State) (v w : Thread → Thread) : Prop where
  alone  : ∃ t w, Passes i (s.atWord k) t w
  alone' : ∃ t w, Passes j ((s.forWord 1).atWord (k + 1)) t w
  first  : Passes i (s.snapshot.atWord k) t v
  second' : ∃ t w, Passes j ((s.snapshot.forWord 1).atWord (k + 1)) t w
  second : Passes j ((State.forWord { t with gang := s.gang } 1).atWord (k + 1)) u w

theorem Fresh.again {s : State} {k : Nat} (hs : Fresh s k) {a : Thread} (ha : a ∈ s.gangThreads) : a.again = [] := (hs.gang a ha).2.1

/-! What the search for traps, waits and parked threads makes of a word that passes on. -/

section
variable {s S t : State} {k j : Nat} {i : Instr} {f : Thread → Thread} (r : List (Nat × Instr))

theorem firstTrap_pass (hexec : exec i ((S.forWord j).atWord (k + j)) = .next t) (htrapped : t.trapped = S.trapped) :
    firstTrap S k ((j, i) :: r) = firstTrap S k r := by
  rw [firstTrap, hexec]
  dsimp only
  rw [htrapped, show decide (S.trapped < S.trapped) = false by simp, Bool.and_false, if_neg (by decide)]

variable (hrun : ∀ a ∈ s.gangThreads, a.state = .runnable) (h : Framed s t f)
include hrun h

theorem runnable_framed {b : Thread} (hb : b ∈ t.gangThreads) : b.state = .runnable := by
  rw [h.gangThreads] at hb
  obtain ⟨a, ha, rfl⟩ := List.mem_map.mp hb
  rw [(h.like a).state, hrun a ha]

theorem firstHold_pass (hexec : exec i ((S.forWord j).atWord (k + j)) = .next t) : firstHold S k ((j, i) :: r) = firstHold S k r := by
  have hheld : t.heldBy = none := List.find?_eq_none.mpr fun b hb => by simp [runnable_framed hrun h hb]
  rw [firstHold, hexec]
  dsimp only
  rw [hheld]

theorem firstPark_pass (hexec : exec i ((S.forWord j).atWord (k + j)) = .next t) : firstPark S k ((j, i) :: r) = firstPark S k r := by
  have hparked : t.gangThreads.filter Thread.onPage = [] :=
    List.filter_eq_nil_iff.mpr fun b hb => by simp [Thread.onPage, runnable_framed hrun h hb]
  rw [firstPark, hexec]
  dsimp only
  rw [hparked]
  rfl

end

theorem performAll_pass {S t : State} {k j : Nat} {i : Instr} (hexec : exec i ((S.forWord j).atWord (k + j)) = .next t)
    (r : List (Nat × Instr)) : performAll k ((j, i) :: r) S = performAll k r { t with gang := S.gang } := by
  rw [performAll, hexec]

theorem modThreads_nil (s : State) (f : Thread → Thread) : s.modThreads [] f = s := by
  have hthreads : (s.modThreads [] f).threads = s.threads := by
    rw [modThreads_threads]
    exact List.map_id s.threads
  rw [show s.modThreads [] f = { s with threads := (s.modThreads [] f).threads } from rfl, hthreads]

section
variable {s t u : State} {k : Nat} {i j : Instr} {v w : Thread → Thread} (hs : Fresh s k) (h : ChainPasses s k i j t u v w)
include hs h

theorem framed_first : Framed s t fun a => (v { remember s a with word := k }).next :=
  ((framed_snapshot fun _ => hs.again).atWord k).passes h.first

theorem framed_second : Framed s u fun a => (w { (v { remember s a with word := k }).next with word := k + 1 }).next :=
  ((((framed_first hs h).withGang fun _ _ => Iff.rfl).forWord (fun _ => hs.again) 1).atWord (k + 1)).passes h.second

theorem nothing_stops : firstTrap s.snapshot k (numbered [i, j]) = none ∧ firstHold s k (numbered [i, j]) = none ∧
    firstPark s k (numbered [i, j]) = none := by
  have hlist : numbered [i, j] = [(0, i), (1, j)] := rfl
  have hrun (a : Thread) (ha : a ∈ s.gangThreads) : a.state = .runnable := (hs.gang a ha).2.2
  obtain ⟨t1, w1, h1⟩ := h.alone
  obtain ⟨t2, w2, h2⟩ := h.alone'
  obtain ⟨t3, w3, h3⟩ := h.second'
  have hf1 := ((Framed.refl s).atWord k).passes h1
  have hf2 := (((Framed.refl s).forWord (fun _ => hs.again) 1).atWord (k + 1)).passes h2
  have hf3 := (((framed_snapshot fun _ => hs.again).forWord (fun _ => hs.again) 1).atWord (k + 1)).passes h3
  rw [hlist]
  refine ⟨?_, ?_, ?_⟩
  · rw [firstTrap_pass (S := s.snapshot) (j := 0) _ h.first.exec (framed_first hs h).trapped,
      firstTrap_pass (S := s.snapshot) (j := 1) _ h3.exec hf3.trapped, firstTrap]
  · rw [firstHold_pass (S := s) (j := 0) _ hrun hf1 h1.exec, firstHold_pass (S := s) (j := 1) _ hrun hf2 h2.exec, firstHold]
  · rw [firstPark_pass (S := s) (j := 0) _ hrun hf1 h1.exec, firstPark_pass (S := s) (j := 1) _ hrun hf2 h2.exec, firstPark]

omit h in
/-- No thread goes on anywhere else than its chain takes it. -/
theorem landAgain_self (z : State) : z.landAgain s = z := by
  have hnone : s.gangThreads.filter Thread.reissues = [] :=
    List.filter_eq_nil_iff.mpr fun a ha => by rw [redo_none (hs.again ha)]; decide
  rw [State.landAgain, hnone]
  split
  · rfl
  · exact modThreads_nil z _

/-- Both words take effect on what stood before the chain. -/
theorem issueWords_passes (hi : regroups i = false) (hj : regroups j = false) (hmon : ∀ f, j ≠ .mon f) :
    issueWords k [i, j] s = .next (chainEnd s u) := by
  obtain ⟨htrap, hhold, hpark⟩ := nothing_stops hs h
  have hlist : numbered [i, j] = [(0, i), (1, j)] := rfl
  have hwords : performWords k [(0, i), (1, j)] s.snapshot = .next { u with gang := s.gang } := by
    have hall : performAll k [(0, i), (1, j)] s.snapshot = .next { u with gang := s.gang } := by
      refine (performAll_pass (S := s.snapshot) (j := 0) h.first.exec _).trans ?_
      exact performAll_pass (S := { t with gang := s.gang }) (j := 1) h.second.exec []
    unfold performWords
    split
    · next j' f hlast => exact absurd (by simpa using hlast) (fun hm : 1 = j' ∧ j = .mon f => hmon f hm.2)
    · exact hall
  have hfilter : [(0, i), (1, j)].filter (fun e : Nat × Instr => !regroups e.2) = [(0, i), (1, j)] := by simp [hi, hj]
  have hlast : [(0, i), (1, j)].filter (fun e : Nat × Instr => regroups e.2) = [] := by simp [hi, hj]
  have hends : ((([(0, i), (1, j)] : List (Nat × Instr)).getLast?.map fun e => regroups e.2) == some true) = false := by simp [hj]
  have hdistinct : Distinct { u with gang := s.gang } := by
    rw [Distinct, (framed_second hs h).uids]
    exact hs.distinct
  show issueChain k (numbered [i, j]) s = _
  rw [issueChain, htrap]
  dsimp only
  rw [hhold]
  dsimp only
  rw [hpark, hlist]
  dsimp only
  rw [performChain, hfilter, hwords]
  dsimp only
  rw [hlast, hends, performAll, onNext, if_neg (by decide), placedAs_self hdistinct, landAgain_self hs]
  rfl

end

/-! ### An integer word and a store -/

/-- What an integer word makes of a thread. -/
def integerDone (e : (F3 → Instr) × (Word → Word → Word)) (f : F3) (S : State) (a : Thread) : Thread :=
  if a.p f.pred then a.setV (S.win a.tid) f.dst.toNat (e.2 (S.src a f.a) (S.src a f.b)) else a

theorem mulHiI_eq : mulHiI = fun a b => (a.signExtend 64 * b.signExtend 64).extractLsb' 32 32 := by
  funext a b
  have hprod : a.signExtend 64 * b.signExtend 64 = BitVec.ofInt 64 (a.toInt * b.toInt) := by
    rw [BitVec.ofInt_mul, BitVec.signExtend, BitVec.signExtend]
  rw [mulHiI, hprod]
  generalize a.toInt * b.toInt = x
  apply BitVec.eq_of_toNat_eq
  simp only [BitVec.extractLsb'_toNat, BitVec.toNat_ofInt, Nat.shiftRight_eq_div_pow]
  omega

theorem mulHiN_eq : mulHiN = fun a b => (a.setWidth 64 * b.setWidth 64).extractLsb' 32 32 := by
  funext a b
  have hsmall : a.toNat * b.toNat < 2 ^ 32 * 2 ^ 32 := Nat.mul_lt_mul'' a.isLt b.isLt
  apply BitVec.eq_of_toNat_eq
  rw [mulHiN, BitVec.extractLsb'_toNat, BitVec.toNat_mul, BitVec.toNat_setWidth, BitVec.toNat_setWidth, BitVec.toNat_ofNat,
    Nat.shiftRight_eq_div_pow, Nat.mod_eq_of_lt (show a.toNat < 2 ^ 64 by have := a.isLt; omega),
    Nat.mod_eq_of_lt (show b.toNat < 2 ^ 64 by have := b.isLt; omega), Nat.mod_eq_of_lt (show a.toNat * b.toNat < 2 ^ 64 by omega)]

theorem minI_eq : minI = fun a b => if a.slt b then a else b := by
  funext a b
  simp only [minI, BitVec.slt_iff_toInt_lt]
  split <;> split
  · rfl
  · exact BitVec.eq_of_toInt_eq (by omega)
  · exact BitVec.eq_of_toInt_eq (by omega)
  · rfl

theorem maxI_eq : maxI = fun a b => if a.slt b then b else a := by
  funext a b
  simp only [maxI, BitVec.slt_iff_toInt_lt]
  split <;> split
  · rfl
  · exact BitVec.eq_of_toInt_eq (by omega)
  · exact BitVec.eq_of_toInt_eq (by omega)
  · rfl

theorem minN_eq : minN = fun a b => if a < b then a else b := by
  funext a b
  simp only [minN, BitVec.lt_def]
  split <;> split
  · rfl
  · exact BitVec.eq_of_toNat_eq (by omega)
  · exact BitVec.eq_of_toNat_eq (by omega)
  · rfl

theorem maxN_eq : maxN = fun a b => if a < b then b else a := by
  funext a b
  simp only [maxN, BitVec.lt_def]
  split <;> split
  · rfl
  · exact BitVec.eq_of_toNat_eq (by omega)
  · exact BitVec.eq_of_toNat_eq (by omega)
  · rfl

theorem shiftArith_eq : shiftArith = fun a b => if b.toNat < 32 then a.sshiftRight b.toNat else if a.msb then BitVec.allOnes 32 else 0 := by
  funext a b
  rw [shiftArith]
  split
  · next h => rw [Nat.min_eq_left h.le]
  · next h =>
    rw [Nat.min_eq_right (Nat.not_lt.mp h)]
    have hall (i : Nat) (hi : i < 32) : (a.sshiftRight 32)[i] = a.msb := by
      rw [BitVec.getElem_sshiftRight, dif_neg (by omega)]
    ext i hi
    rw [hall i hi]
    cases a.msb
    · exact (BitVec.getElem_zero hi).symm
    · exact (BitVec.getElem_allOnes i hi).symm

theorem passes_integer {e : (F3 → Instr) × (Word → Word → Word)} (he : e ∈ table52) (f : F3) (S : State) :
    Passes (e.1 f) S (S.writeV f.pred f.dst fun a => e.2 (S.src a f.a) (S.src a f.b)) (integerDone e f S) where
  exec := by
    simp only [table52, List.mem_cons, List.not_mem_nil, or_false] at he
    rcases he with rfl | rfl | rfl | rfl | rfl | rfl | rfl | rfl | rfl | rfl | rfl | rfl | rfl | rfl | rfl | rfl
    · rfl
    · rfl
    · rfl
    · exact congrArg (fun op => Host.Outcome.next (S.alu2 f op)) mulHiI_eq
    · exact congrArg (fun op => Host.Outcome.next (S.alu2 f op)) mulHiN_eq
    · exact congrArg (fun op => Host.Outcome.next (S.alu2 f op)) minI_eq
    · exact congrArg (fun op => Host.Outcome.next (S.alu2 f op)) maxI_eq
    · exact congrArg (fun op => Host.Outcome.next (S.alu2 f op)) minN_eq
    · exact congrArg (fun op => Host.Outcome.next (S.alu2 f op)) maxN_eq
    · rfl
    · rfl
    · rfl
    · rfl
    · rfl
    · rfl
    · exact congrArg (fun op => Host.Outcome.next (S.alu2 f op)) shiftArith_eq
  rest := ⟨_, _, _, _, _, _, _, _, rfl⟩
  threads := by
    show S.threads.map _ = _
    refine List.map_congr_left fun a _ => ?_
    by_cases hg : a.uid ∈ S.gang
    · rw [if_pos hg, if_pos (by simpa using hg)]
      rfl
    · rw [if_neg hg, if_neg (by simpa using hg)]
  light a := by
    unfold integerDone
    split <;> exact ⟨_, _, _, _, _, _, rfl⟩

/-- What stores make of a thread. -/
def storesDone (m : (FM → Instr) × Nat) (g : FM) (S : State) (got : Thread → Nat) (a : Thread) : Thread :=
  notedAll ((S.executing g.pred).map (storeOp S m.2 g)) (withGot (got a) a)

theorem passes_stores {m : (FM → Instr) × Nat} (hm : m ∈ bankStoreWords) {g : FM} {S : State} {locs : Thread → List Nat}
    (h : SoundAccesses S m.2 g locs) :
    ∃ t got, Passes (m.1 g) S t (storesDone m g S got) ∧ StoresAll S t m.2 g (storedPairs S m.2 g) := by
  obtain ⟨t, hexec, hstores⟩ := bankStores_sound h
  obtain ⟨got, hthreads⟩ := hstores.threads
  refine ⟨t, got, ⟨(exec_bankStore hm g S).trans hexec, hstores.rest, hthreads, fun a => ?_⟩, hstores⟩
  obtain ⟨fl, pv, n, hnoted⟩ := notedAll_plain (os := (S.executing g.pred).map (storeOp S m.2 g)) (fun o ho => by
    obtain ⟨u, -, rfl⟩ := List.mem_map.mp ho
    exact ⟨rfl, rfl, rfl⟩) (withGot (got a) a)
  exact ⟨_, _, _, _, _, _, hnoted⟩

theorem storesDone_regs (m : (FM → Instr) × Nat) (g : FM) (S : State) (got : Thread → Nat) (a : Thread) :
    (storesDone m g S got a).regs = a.regs := by
  obtain ⟨_, _, _, _, _, _, h⟩ := onlyInFlight_notedAll ((S.executing g.pred).map (storeOp S m.2 g)) (withGot (got a) a)
  rw [storesDone, h]
  rfl

/-! ### What the two read and write -/

theorem Light.old {a b : Thread} (h : Light a b) : b.old = a.old := by
  obtain ⟨_, _, _, _, _, _, rfl⟩ := h
  rfl

/-- What the second word finds, where the first makes `v` of the threads. -/
def between (s : State) (k : Nat) (v : Thread → Thread) (a : Thread) : Thread := { (v { remember s a with word := k }).next with word := k + 1 }

theorem between_old {s : State} {k : Nat} {v : Thread → Thread} (hv : ∀ a, Light a (v a)) (a : Thread) :
    (between s k v a).old = some (s.wasOf a) := (next_old _).trans (hv _).old

theorem between_regs (s : State) (k : Nat) (v : Thread → Thread) (a : Thread) :
    (between s k v a).regs = (v { remember s a with word := k }).regs := next_regs _

/-- What a thread is after the chain. -/
theorem chain_thread {s : State} {k : Nat} {v w : Thread → Thread} (hk : k ≤ 1)
    (hv : ∀ a, Light a (v a)) (hw : ∀ a, Light a (w a)) (a : Thread) :
    let b := { (w (between s k v a)).next with old := none }
    let go := Thread.next { a with word := k + 1 }
    b.regs = (w (between s k v a)).regs ∧ b.preds = a.preds ∧ b.fstat = a.fstat ∧
      b.pkt = go.pkt ∧ b.word = go.word ∧ b.clause = go.clause := by
  obtain ⟨rs, ps, fl, pv, n, g, hvx⟩ := hv { remember s a with word := k }
  have hword : (v { remember s a with word := k }).word < 2 := by
    rw [hvx]
    show k < 2
    omega
  have hbetween : between s k v a = { remember s a with word := k + 1, regs := rs, pois := ps, flags := fl, pendV := pv, outs := n, got := g } := by
    rw [between, next_within hword, hvx]
  obtain ⟨_, _, _, _, _, _, hwx⟩ := hw (between s k v a)
  have hplace := next_place (a := { a with word := k + 1 }) (b := w (between s k v a)) (by rw [hwx, hbetween]; rfl) (by rw [hwx, hbetween])
    (by rw [hwx, hbetween]; rfl)
  refine ⟨next_regs _, ?_, ?_, hplace⟩
  · show (w (between s k v a)).next.preds = a.preds
    rw [next_preds, hwx, hbetween]
    rfl
  · show (w (between s k v a)).next.fstat = a.fstat
    rw [next_fstat, hwx, hbetween]
    rfl

/-- An integer word inside the chain writes what it makes of the registers before the chain. -/
theorem integerDone_regs {s S : State} {F : Thread → Thread} (h : Framed s S F) (e : (F3 → Instr) × (Word → Word → Word))
    (f : F3) {a b : Thread}
    (hold : a.old = none) (hlike : Like a b) (hb : Keeps s a b) (hregs : b.regs = a.regs) : (integerDone e f S b).regs =
      if a.p f.pred then SMap.put 0 (vAt s a f.dst) (e.2 (s.src a f.a) (s.src a f.b)) a.regs else a.regs := by
  unfold integerDone
  rw [p_kept hold hlike hb, src_kept h hold hlike hb, src_kept h hold hlike hb, h.win, hlike.tid]
  split
  · have hdepth : b.depth = a.depth := by
      obtain ⟨_, _, _, _, _, _, _, _, _, _, _, _, rfl⟩ := hlike
      rfl
    rw [vAt, ← hregs, ← hdepth]
    rfl
  · exact hregs

section
variable {s S : State} {F : Thread → Thread} (h : Framed s S F) (hkeeps : ∀ a ∈ s.gangThreads, a.old = none ∧ Keeps s a (F a))
include h hkeeps

theorem accesses_kept {m : (FM → Instr) × Nat} {g : FM} {locs : Thread → List Nat}
    (hacc : SoundAccesses s m.2 g locs) (hsyn : S.syn = s.syn) : SoundAccesses S m.2 g fun u =>
      (S.bankLocs m.2 u g.a (g.mod.toNat * widthBytes g.w) (widthBytes g.w)).getD [] := by
  intro u hu
  rw [h.executing hkeeps] at hu
  obtain ⟨a, ha, rfl⟩ := List.mem_map.mp hu
  obtain ⟨hold, hb⟩ := hkeeps a (mem_executing.mp ha).1
  have haccess := access_kept h hold (h.like a) hb (hacc a ha).1
  dsimp only
  rw [haccess.bound, Option.getD_some]
  refine ⟨haccess, fun l hl => ?_⟩
  rw [State.synAt, hsyn]
  exact (hacc a ha).2 l hl

theorem storedPairs_kept (space : Nat) (g : FM) : storedPairs S space g = storedPairs s space g := by
  rw [storedPairs, h.executing hkeeps, List.flatMap_map]
  refine List.flatMap_congr fun a ha => ?_
  obtain ⟨hold, hb⟩ := hkeeps a (mem_executing.mp ha).1
  have hbytes (n : Nat) : S.storeBytes (F a) g.data n = s.storeBytes a g.data n := by
    simp only [State.storeBytes, v_kept hold (h.like a) hb, h.win, (h.like a).tid]
  rw [bankLocs_kept h hold (h.like a) hb, hbytes]

end

theorem keeps_plain {s : State} {a : Thread} (h : a.old = none) (k : Nat) : Keeps s a { a with word := k } := .inr ⟨h, rfl⟩

/-! ### The claims -/

/-- The words of the chain and what it finds. -/
structure IntegerAndStore (s : State) (k : Nat) (e : (F3 → Instr) × (Word → Word → Word)) (m : (FM → Instr) × Nat) (g : FM)
    (locs : Thread → List Nat) : Prop where
  fresh   : Fresh s k
  integer : e ∈ table52
  store   : m ∈ bankStoreWords
  access  : SoundAccesses s m.2 g locs

section
variable {s : State} {k : Nat} {e : (F3 → Instr) × (Word → Word → Word)} {m : (FM → Instr) × Nat} {g : FM} {locs : Thread → List Nat}
  (h : IntegerAndStore s k e m g locs)
include h

theorem IntegerAndStore.old {a : Thread} (ha : a ∈ s.gangThreads) : a.old = none := h.fresh.old a (mem_gangThreads.mp ha).1

/-- The store passes wherever the gang reads what it read before the chain and no syndrome has changed. -/
theorem IntegerAndStore.stores {S : State} {F : Thread → Thread} (hS : Framed s S F) (hkeeps : ∀ a ∈ s.gangThreads, Keeps s a (F a))
    (hsyn : S.syn = s.syn) : ∃ t got, Passes (m.1 g) S t (storesDone m g S got) ∧ StoresAll S t m.2 g (storedPairs s m.2 g) ∧
      (S.executing g.pred).length = (s.executing g.pred).length := by
  have hboth (a : Thread) (ha : a ∈ s.gangThreads) : a.old = none ∧ Keeps s a (F a) := ⟨h.old ha, hkeeps a ha⟩
  obtain ⟨t, got, hpasses, hall⟩ := passes_stores h.store (accesses_kept hS hboth h.access hsyn)
  rw [storedPairs_kept hS hboth] at hall
  exact ⟨t, got, hpasses, hall, by rw [hS.executing hboth, List.length_map]⟩

theorem IntegerAndStore.alone : Framed s ((s.forWord 1).atWord (k + 1)) fun a => { a with word := k + 1 } :=
  ((Framed.refl s).forWord (fun _ => h.fresh.again) 1).atWord (k + 1)

theorem IntegerAndStore.first : Framed s (s.snapshot.atWord k) fun a => { remember s a with word := k } :=
  (framed_snapshot fun _ => h.fresh.again).atWord k

theorem IntegerAndStore.aloneLater : Framed s ((s.snapshot.forWord 1).atWord (k + 1)) fun a => { remember s a with word := k + 1 } :=
  ((framed_snapshot fun _ => h.fresh.again).forWord (fun _ => h.fresh.again) 1).atWord (k + 1)

theorem IntegerAndStore.second {i : Instr} {t : State} {v : Thread → Thread} (ht : Passes i (s.snapshot.atWord k) t v) :
    Framed s ((State.forWord { t with gang := s.gang } 1).atWord (k + 1)) (between s k v) :=
  (((h.first.passes ht).withGang fun _ _ => Iff.rfl).forWord (fun _ => h.fresh.again) 1).atWord (k + 1)

end

theorem forWord_syn (s : State) (j : Nat) : (s.forWord j).syn = s.syn := by
  unfold State.forWord
  split <;> rfl

theorem forWord_byte (s : State) (j : Nat) : (s.forWord j).byte = s.byte := by
  unfold State.forWord
  split <;> rfl

theorem forWord_agenda (s : State) (j : Nat) : (s.forWord j).agenda = s.agenda := by
  unfold State.forWord
  split <;> rfl

theorem forWord_nextId (s : State) (j : Nat) : (s.forWord j).nextId = s.nextId := by
  unfold State.forWord
  split <;> rfl

/-- What the claim says of a thread of the gang. -/
def ChainWrote (s : State) (k : Nat) (e : (F3 → Instr) × (Word → Word → Word)) (f : F3) (a b : Thread) : Prop :=
  let n := vAt s a f.dst
  let go := Thread.next { a with word := k + 1 }
  (a.p f.pred = true → reg b n = e.2 (s.src a f.a) (s.src a f.b)) ∧ (∀ j, (a.p f.pred = true → j ≠ n) → reg b j = reg a j) ∧
    b.preds = a.preds ∧ b.fstat = a.fstat ∧ b.old = none ∧ b.pkt = go.pkt ∧ b.word = go.word ∧ b.clause = go.clause

theorem chainWrote {s : State} {k : Nat} {v w : Thread → Thread} (hk : k ≤ 1) (hv : ∀ a, Light a (v a)) (hw : ∀ a, Light a (w a))
    (e : (F3 → Instr) × (Word → Word → Word)) (f : F3) {a : Thread} (hregs : (w (between s k v a)).regs =
      if a.p f.pred then SMap.put 0 (vAt s a f.dst) (e.2 (s.src a f.a) (s.src a f.b)) a.regs else a.regs) :
    ChainWrote s k e f a { (w (between s k v a)).next with old := none } := by
  obtain ⟨hbregs, hpreds, hfstat, hpkt, hword, hclause⟩ := chain_thread hk hv hw a
  rw [hregs] at hbregs
  refine ⟨fun hp => ?_, fun j hj => ?_, hpreds, hfstat, rfl, hpkt, hword, hclause⟩
  · rw [reg, hbregs, if_pos hp, get_put, if_pos rfl]
  · rw [reg, hbregs]
    by_cases hp : a.p f.pred = true
    · rw [if_pos hp, get_put, if_neg (Ne.symm (hj hp))]
      rfl
    · rw [if_neg hp]
      rfl

/-- Every thread of the gang has issued the chain; the others are as they were. -/
theorem eachThread_chainEnd {s u : State} {F : Thread → Thread} {R : Thread → Thread → Prop} (h : Framed s u F)
    (hold : ∀ a ∈ s.threads, a.old = none)
    (hR : ∀ a ∈ s.gangThreads, R a { F a with old := none }) : EachThread s (chainEnd s u) R := by
  rw [EachThread, chainEnd, h.threads, List.map_map, List.forall₂_map_right_iff, List.forall₂_same]
  intro a ha
  simp only [Function.comp]
  by_cases hg : a.uid ∈ s.gang
  · rw [if_pos hg, if_pos hg]
    exact hR a (mem_gangThreads.mpr ⟨ha, hg⟩)
  · rw [if_neg hg, if_neg hg, ← hold a ha]

theorem regroups_integer {e : (F3 → Instr) × (Word → Word → Word)} (he : e ∈ table52) (f : F3) :
    regroups (e.1 f) = false ∧ ∀ x, e.1 f ≠ .mon x := by
  simp only [table52, List.mem_cons, List.not_mem_nil, or_false] at he
  rcases he with rfl | rfl | rfl | rfl | rfl | rfl | rfl | rfl | rfl | rfl | rfl | rfl | rfl | rfl | rfl | rfl <;>
    exact ⟨rfl, fun _ h => by cases h⟩

theorem regroups_store {m : (FM → Instr) × Nat} (hm : m ∈ bankStoreWords) (g : FM) : regroups (m.1 g) = false ∧ ∀ x, m.1 g ≠ .mon x := by
  simp only [bankStoreWords, List.mem_cons, List.not_mem_nil, or_false] at hm
  rcases hm with rfl | rfl | rfl | rfl <;> exact ⟨rfl, fun _ h => by cases h⟩

/-- What both orders of the two words come to. -/
def ChainStored (s t : State) (k : Nat) (e : (F3 → Instr) × (Word → Word → Word)) (m : (FM → Instr) × Nat) (f : F3) (g : FM) : Prop :=
  (∀ l, t.byte l = lastOf l (s.byte l) (storedPairs s m.2 g)) ∧
    t.agenda = s.agenda ++ numberedEvents (s.executing g.pred).length .storeAck s.nextId ∧ EachThread s t (ChainWrote s k e f)

section
variable {s : State} {k : Nat} {e : (F3 → Instr) × (Word → Word → Word)} {m : (FM → Instr) × Nat} {g : FM} {locs : Thread → List Nat}
  (h : IntegerAndStore s k e m g locs) (hk : k ≤ 1) (f : F3)
include h hk

/-- The integer word first. -/
theorem integer_store : ∃ t, issueWords k [e.1 f, m.1 g] s = .next t ∧ ChainStored s t k e m f g := by
  have hfirst := passes_integer h.integer f (s.snapshot.atWord k)
  have hbetween := h.second hfirst
  have hkept (a : Thread) : Keeps s a (between s k (integerDone e f (s.snapshot.atWord k)) a) := .inl (between_old hfirst.light a)
  obtain ⟨t2, got2, h2, -⟩ := h.stores h.alone (fun a ha => keeps_plain (h.old ha) (k + 1)) (forWord_syn s 1)
  obtain ⟨t4, got4, h4, -⟩ := h.stores h.aloneLater (fun a _ => .inl rfl) (forWord_syn s.snapshot 1)
  obtain ⟨u, got, hsecond, hall, hlen⟩ := h.stores hbetween (fun a _ => hkept a) (forWord_syn _ 1)
  have hchain : ChainPasses s k (e.1 f) (m.1 g) _ u _ _ :=
    ⟨⟨_, _, passes_integer h.integer f (s.atWord k)⟩, ⟨_, _, h2⟩, hfirst, ⟨_, _, h4⟩, hsecond⟩
  have hissue := issueWords_passes h.fresh hchain (regroups_integer h.integer f).1 (regroups_store h.store g).1 (regroups_store h.store g).2
  refine ⟨_, hissue, fun l => ?_, ?_, eachThread_chainEnd (hbetween.passes hsecond) h.fresh.old fun a ha => ?_⟩
  · exact (hall.bytes l).trans (congrArg (fun b : Nat → Byte => lastOf l (b l) (storedPairs s m.2 g)) (forWord_byte _ 1))
  · refine hall.agenda.trans ?_
    rw [hlen]
    exact congrArg₂ (fun (x : List Instr) n => x ++ numberedEvents (s.executing g.pred).length .storeAck n)
      (forWord_agenda _ 1) (forWord_nextId _ 1)
  · refine chainWrote hk hfirst.light hsecond.light e f ?_
    rw [storesDone_regs, between_regs]
    exact integerDone_regs h.first e f (h.old ha) (h.first.like a) (.inl rfl) rfl

/-- The store first. -/
theorem store_integer : ∃ t, issueWords k [m.1 g, e.1 f] s = .next t ∧ ChainStored s t k e m f g := by
  obtain ⟨t1, got1, h1, -⟩ := h.stores ((Framed.refl s).atWord k) (fun a ha => keeps_plain (h.old ha) k) rfl
  obtain ⟨t, got, hfirst, hall, hlen⟩ := h.stores h.first (fun a _ => .inl rfl) rfl
  have hbetween := h.second hfirst
  have hkept (a : Thread) : Keeps s a (between s k (storesDone m g (s.snapshot.atWord k) got) a) := .inl (between_old hfirst.light a)
  have hsecond := passes_integer h.integer f ((State.forWord { t with gang := s.gang } 1).atWord (k + 1))
  have hchain : ChainPasses s k (m.1 g) (e.1 f) t _ _ _ :=
    ⟨⟨_, _, h1⟩, ⟨_, _, passes_integer h.integer f _⟩, hfirst, ⟨_, _, passes_integer h.integer f _⟩, hsecond⟩
  have hissue := issueWords_passes h.fresh hchain (regroups_store h.store g).1 (regroups_integer h.integer f).1 (regroups_integer h.integer f).2
  refine ⟨_, hissue, fun l => ?_, ?_, eachThread_chainEnd (hbetween.passes hsecond) h.fresh.old fun a ha => ?_⟩
  · exact (congrFun (forWord_byte { t with gang := s.gang } 1) l).trans (hall.bytes l)
  · refine (forWord_agenda { t with gang := s.gang } 1).trans (hall.agenda.trans ?_)
    rw [hlen]
    rfl
  · refine chainWrote hk hfirst.light hsecond.light e f ?_
    refine integerDone_regs hbetween e f (h.old ha) (hbetween.like a) (hkept a) ?_
    rw [between_regs, storesDone_regs]
    rfl

end

theorem claims_chainsReadOld : Claims.ChainsReadOld := by
  intro e he m hm f g s k locs c hc hk _ hdistinct hissued hold hgang size haccess st
  have h : IntegerAndStore s k e m g locs := ⟨⟨hdistinct, hissued, hold, hgang⟩, he, hm, haccess⟩
  have hst : storedPairs s m.2 g = st := List.flatMap_congr fun u hu => by rw [(h.access u hu).1.bound]; rfl
  have hboth : ∃ t, issueWords k c s = .next t ∧ ChainStored s t k e m f g := by
    simp only [List.mem_cons, List.not_mem_nil, or_false] at hc
    rcases hc with rfl | rfl
    · exact integer_store h hk f
    · exact store_integer h hk f
  obtain ⟨t, ht, hbytes, hagenda, hthreads⟩ := hboth
  rw [hst] at hbytes
  exact ⟨t, ht, hbytes, hagenda, hthreads⟩

/-! ### A word that traps -/

/-- An integer word and a store that takes a trap, alone in the state that keeps what the chain reads: the chain is that trap. -/
theorem issueWords_traps {s S T : State} {k : Nat} {e : (F3 → Instr) × (Word → Word → Word)} {m : (FM → Instr) × Nat} (he : e ∈ table52)
    (hm : m ∈ bankStoreWords) (f : F3) (g : FM) (hS : S = (s.snapshot.forWord 1).atWord (k + 1))
    (hexec : exec (m.1 g) S = .next T) (hcounts : S.trapped < T.trapped) :
    issueWords k [e.1 f, m.1 g] s = .next T.unsnapshot := by
  have hfirst := passes_integer he f (s.snapshot.atWord k)
  have hafter : trapsAfter (m.1 g) = false := by
    simp only [bankStoreWords, List.mem_cons, List.not_mem_nil, or_false] at hm
    rcases hm with rfl | rfl | rfl | rfl <;> rfl
  have htrapped : S.trapped = s.snapshot.trapped := by
    rw [hS]
    unfold State.forWord
    split <;> rfl
  have htrap : firstTrap s.snapshot k (numbered [e.1 f, m.1 g]) = some (.next T) := by
    rw [show numbered [e.1 f, m.1 g] = [(0, e.1 f), (1, m.1 g)] from rfl, firstTrap_pass (S := s.snapshot) (j := 0) _ hfirst.exec rfl, firstTrap,
      ← hS, hexec]
    dsimp only
    rw [hafter, ← htrapped, decide_eq_true hcounts]
    rfl
  show issueChain k (numbered [e.1 f, m.1 g]) s = _
  rw [issueChain, htrap]
  rfl

theorem resume_forgotten (q : TrapReq) (a : Thread) : q.resume { a with old := none } = q.resume a := by
  obtain ⟨hpkt, hword, hclause⟩ := next_place (a := a) (b := { a with old := none }) rfl rfl rfl
  unfold TrapReq.resume
  split
  · rw [Thread.at_, hpkt, hword, hclause]
    rfl
  · rfl

/-- What a thread is told of a trap does not rest on what it keeps for its chain. -/
theorem trapped_unsnapshot {S S' : State} (hgroups : S'.groups = S.groups) (hwin : S'.win = S.win) {q : TrapReq} (hcause : q.cause ≠ 0x0B)
    {mask gang p : Word} {w : Nat} {a b : Thread} (h : Trapped S q mask gang p w a b) :
    Trapped S' q mask gang p w { a with old := none } { b with old := none } where
  rest := by
    have hrest := congrArg (fun t : Thread => { t with old := none }) h.rest
    rw [← resume_forgotten q a] at hrest
    exact hrest
  due := h.due
  tpc := h.tpc
  word := h.word
  cause := h.cause
  inside := h.inside
  kind := h.kind
  addr := h.addr
  source := h.source
  tag := h.tag
  mask := h.mask
  place := h.place
  tgang := h.tgang
  seamd := by
    have hsingle : S'.single { a with old := none } = S.single a := by
      rw [State.single, State.single, State.groupOf, State.groupOf, hgroups]
    rw [hsingle]
    exact h.seamd
  tseam := h.tseam
  depths := h.depths
  tpred := h.tpred
  tfstat := h.tfstat
  origin := h.origin
  group hq := absurd hq hcause
  tv := by
    rw [hwin]
    exact h.tv

theorem claims_chainsTrapFirst : Claims.ChainsTrapFirst := by
  intro e he m hm f g s u k _ _ hdistinct hissued hold hgang hthreads hagain hmode hp ea hmis
  have hmem : u ∈ s.gangThreads := by rw [hthreads]; exact List.mem_singleton_self u
  have holdu := hold u (mem_gangThreads.mp hmem).1
  have hplain (a : Thread) (ha : a ∈ s.gangThreads) : a.again = [] := by
    rw [hthreads, List.mem_singleton] at ha
    rw [ha, hagain]
  have hS : Framed s ((s.snapshot.forWord 1).atWord (k + 1)) fun a => { remember s a with word := k + 1 } :=
    ((framed_snapshot hplain).forWord hplain 1).atWord (k + 1)
  generalize hSeq : (s.snapshot.forWord 1).atWord (k + 1) = S at hS
  have hgangS : S.gangThreads = [{ remember s u with word := k + 1 }] := by rw [hS.gangThreads, hthreads]; rfl
  have hexecuting : S.executing g.pred = [{ remember s u with word := k + 1 }] := by
    rw [hS.executing (fun a ha => ⟨hold a (mem_gangThreads.mp ha).1, .inl rfl⟩), State.executing, hthreads, List.filter_cons, if_pos hp]
    rfl
  have hsrc : S.src { remember s u with word := k + 1 } g.a = s.src u g.a := src_kept hS holdu (hS.like u) (.inl rfl) g.a
  have hout : OutsideTrap S := by
    rw [OutsideTrap, hgangS]
    exact ⟨List.cons_ne_nil _ _, fun t ht => by rw [List.mem_singleton.mp ht]; exact hmode⟩
  obtain ⟨hmisaligned, -⟩ := bankTraps_one hout (width_dvd g.w) (answers_bankStore hm hexecuting)
  rw [hsrc] at hmisaligned
  obtain ⟨T, hexec, htook⟩ := hmisaligned hmis
  obtain ⟨hT, hgroups, heach⟩ := htook
  have hgangs : uids (s.snapshot.gangThreads.filter fun t => !t.reissues) = s.gang := by
    rw [(framed_snapshot hplain).gangThreads, hthreads, hgang, List.map_cons, List.map_nil, List.filter_cons, if_pos (by
      rw [redo_none (show (remember s u).again = [] from hagain)]; rfl)]
    rfl
  have hrec : S = { s with threads := S.threads } := by
    have hfor : s.snapshot.forWord 1 = { s.snapshot with gang := s.gang } := by rw [← hgangs]; rfl
    rw [← hSeq, hfor]
    rfl
  have hword : ({ s with threads := s.threads.map fun a => if a.uid = u.uid then { a with word := k + 1 } else a } : State) = s.atWord (k + 1) := by
    rw [State.atWord, State.modThreads, hgang]
    simp
  rw [hword]
  have hs' : Framed s (s.atWord (k + 1)) fun a => { a with word := k + 1 } := (Framed.refl s).atWord (k + 1)
  have hgangs' : (s.atWord (k + 1)).gangThreads = [{ u with word := k + 1 }] := by rw [hs'.gangThreads, hthreads]; rfl
  have hissue := issueWords_traps he hm f g hSeq.symm hexec (by rw [hT]; exact Nat.lt_succ_self _)
  refine ⟨_, hissue, ?_, ?_, ?_⟩
  · rw [hT, hrec, State.unsnapshot, ← hissued]
    rfl
  · rw [hrec] at hgroups
    exact hgroups
  · have hlanes : lanes (s.atWord (k + 1)).gangThreads = lanes S.gangThreads := by rw [hgangs', hgangS]; rfl
    have hgangS' : S.gang = s.gang := by rw [hrec]
    have hmapped : (s.atWord (k + 1)).threads = s.threads.map fun a => if a.uid ∈ s.gang then { a with word := k + 1 } else a := hs'.threads
    rw [hlanes, EachThread, hmapped, show T.unsnapshot.threads = T.threads.map fun t => { t with old := none } from rfl,
      List.forall₂_map_left_iff, List.forall₂_map_right_iff]
    rw [EachThread, hS.threads, List.forall₂_map_left_iff] at heach
    refine List.Forall₂.imp (fun a b hab => ?_) ((List.forall₂_and_left _ _).mpr ⟨hold, heach⟩)
    obtain ⟨holda, hab⟩ := hab
    by_cases hg : a.uid ∈ s.gang
    · rw [if_pos hg, if_pos (by rw [hgangS']; exact hg)] at hab
      rw [if_pos hg, if_pos (show a.uid ∈ (s.atWord (k + 1)).gang from hg)]
      have hforget : { a with word := k + 1 } = ({ ({ remember s a with word := k + 1 } : Thread) with old := none } : Thread) := by
        rw [← holda]
        rfl
      rw [hforget]
      exact trapped_unsnapshot (by rw [hrec]; rfl) (by rw [hrec]; rfl) (show 0x06 ≠ 0x0B by decide) hab
    · rw [if_neg hg, if_neg (by rw [hgangS']; exact hg)] at hab
      rw [if_neg hg, if_neg (show a.uid ∉ (s.atWord (k + 1)).gang from hg), hab, ← holda]

/-- Settles O59. -/
theorem chains : Obligations.Chains := by
  unfold Obligations.Chains
  exact ⟨claims_chainsIssue, claims_chainClashes, claims_chainsReadOld, claims_chainsTrapFirst⟩

end Sys2Proof.Proofs
end

