-- ==== Sys2Proof/Proofs/Rounding.lean ====
section
/-! Rounding to an integer in the four modes (R54, R60), and that the grid of the model rounds so. -/

namespace Sys2Proof.Proofs

open Sys2Proof.Machine Sys2Proof.Says Sys2Proof.Laws

/-- The natural number `j` is the magnitude `X`, of a number that is negative or not, rounded in a mode: to the nearest, an even number in a tie
(0), toward zero (1), up (2), down (3). -/
def Rounds (rm : Nat) (neg : Bool) (X : ℝ) (j : Nat) : Prop :=
  match rm with
  | 0 => |X - j| ≤ 1 / 2 ∧ (|X - j| = 1 / 2 → j % 2 = 0)
  | 1 => (j : ℝ) ≤ X ∧ X < j + 1
  | 2 => if neg then (j : ℝ) ≤ X ∧ X < j + 1 else X ≤ j ∧ (j : ℝ) < X + 1
  | _ => if neg then X ≤ j ∧ (j : ℝ) < X + 1 else (j : ℝ) ≤ X ∧ X < j + 1

/-- Toward zero. -/
theorem rounds_down {X : ℝ} {j : Nat} (hlow : (j : ℝ) ≤ X) (hhigh : X < j + 1) {rm : Nat} {neg : Bool}
    (h0 : rm = 0 → X - j < 1 / 2 ∨ X - j = 1 / 2 ∧ j % 2 = 0) (hup : (rm = 2 ∧ neg = false ∨ 3 ≤ rm ∧ neg = true) → X = j) : Rounds rm neg X j := by
  match rm with
  | 0 =>
    have habs : |X - j| = X - j := abs_of_nonneg (by linarith)
    rcases h0 rfl with h | ⟨h, heven⟩
    · exact ⟨by rw [habs]; exact h.le, fun ht => absurd (habs.symm.trans ht) h.ne⟩
    · exact ⟨by rw [habs, h], fun _ => heven⟩
  | 1 => exact ⟨hlow, hhigh⟩
  | 2 =>
    cases neg with
    | true => exact ⟨hlow, hhigh⟩
    | false =>
      have hX := hup (.inl ⟨rfl, rfl⟩)
      exact ⟨hX.le, by linarith⟩
  | n + 3 =>
    cases neg with
    | true =>
      have hX := hup (.inr ⟨by omega, rfl⟩)
      exact ⟨hX.le, by linarith⟩
    | false => exact ⟨hlow, hhigh⟩

/-- Away from zero. -/
theorem rounds_up {X : ℝ} {j : Nat} (hlow : (j : ℝ) < X) (hhigh : X < j + 1) {rm : Nat} {neg : Bool}
    (h0 : rm = 0 → 1 / 2 < X - j ∨ X - j = 1 / 2 ∧ j % 2 = 1) (h1 : rm ≠ 1) (h2 : rm = 2 → neg = false) (h3 : 3 ≤ rm → neg = true) :
    Rounds rm neg X (j + 1) := by
  match rm with
  | 0 =>
    have habs : |X - (j + 1 : Nat)| = j + 1 - X := by
      push_cast
      rw [abs_of_neg (by linarith)]
      ring
    rcases h0 rfl with h | ⟨h, hodd⟩
    · refine ⟨by rw [habs]; linarith, fun ht => ?_⟩
      rw [habs] at ht
      linarith
    · exact ⟨by rw [habs]; linarith, fun _ => by omega⟩
  | 1 => exact absurd rfl h1
  | 2 =>
    rw [h2 rfl]
    refine ⟨?_, ?_⟩
    · push_cast
      exact hhigh.le
    · push_cast
      linarith
  | n + 3 =>
    rw [h3 (by omega)]
    refine ⟨?_, ?_⟩
    · push_cast
      exact hhigh.le
    · push_cast
      linarith

theorem rounds_exact (rm : Nat) (neg : Bool) (j : Nat) : Rounds rm neg j j :=
  rounds_down le_rfl (by linarith) (fun _ => .inl (by norm_num)) fun _ => rfl

/-- The fraction of m / 2^d. -/
theorem shift_fraction (m d : Nat) : (m : ℝ) / 2 ^ d = (m / 2 ^ d : Nat) + (m % 2 ^ d : Nat) / 2 ^ d := by
  have h : ((2 ^ d * (m / 2 ^ d) + m % 2 ^ d : Nat) : ℝ) = m := congrArg _ (Nat.div_add_mod m (2 ^ d))
  push_cast at h
  field_simp
  linarith

/-- Half a unit against a remainder below one: 0 below, 1 equal, 2 above. -/
structure Halves (half : Nat) (ρ : ℝ) : Prop where
  below : half = 0 → ρ < 1 / 2
  equal : half = 1 → ρ = 1 / 2
  above : half = 2 → 1 / 2 < ρ
  le    : half ≤ 2

/-- A number rounds up or down as the model decides it from its fraction. -/
theorem rounds_roundsUp {X : ℝ} {n half : Nat} (hlow : (n : ℝ) < X) (hhigh : X < n + 1) (hhalf : Halves half (X - n)) (rm : Nat) (neg : Bool) :
    Rounds rm neg X (if roundsUp rm neg (n % 2 == 1) false half then n + 1 else n) := by
  have hle := hhalf.le
  cases hup : roundsUp rm neg (n % 2 == 1) false half with
  | true =>
    rw [if_pos rfl]
    refine rounds_up hlow hhigh (fun h0 => ?_) (fun h1 => ?_) (fun h2 => ?_) fun h3 => ?_
    · subst h0
      have h : half = 2 ∨ half = 1 ∧ n % 2 = 1 := by simpa [roundsUp] using hup
      exact h.imp hhalf.above fun h => ⟨hhalf.equal h.1, h.2⟩
    · subst h1
      simp [roundsUp] at hup
    · subst h2
      simpa [roundsUp] using hup
    · obtain ⟨k, rfl⟩ : ∃ k, rm = k + 3 := ⟨rm - 3, by omega⟩
      simpa [roundsUp] using hup
  | false =>
    rw [if_neg (by decide)]
    refine rounds_down hlow.le hhigh (fun h0 => ?_) fun h => ?_
    · subst h0
      have h : half ≠ 2 ∧ (half = 1 → n % 2 = 0) := by simpa [roundsUp] using hup
      obtain ⟨h2, h1⟩ := h
      by_cases hone : half = 1
      · exact .inr ⟨hhalf.equal hone, h1 hone⟩
      · exact .inl (hhalf.below (by omega))
    · rcases h with ⟨rfl, rfl⟩ | ⟨h3, rfl⟩
      · simp [roundsUp] at hup
      · obtain ⟨k, rfl⟩ : ∃ k, rm = k + 3 := ⟨rm - 3, by omega⟩
        simp [roundsUp] at hup

/-- The model's comparison of the discarded part with half a unit. -/
theorem halves_shift {r k : Nat} : Halves (if r < 2 ^ k then 0 else if r = 2 ^ k then 1 else 2) ((r : ℝ) / 2 ^ (k + 1)) := by
  have hpos : (0 : ℝ) < 2 ^ (k + 1) := by positivity
  have hdouble : (2 : ℝ) ^ (k + 1) = 2 * 2 ^ k := by ring
  have hcast (h : r ≤ 2 ^ k) : (r : ℝ) ≤ 2 ^ k := by exact_mod_cast h
  refine ⟨fun h => ?_, fun h => ?_, fun h => ?_, ?_⟩
  · have hr : r < 2 ^ k := by
      by_contra hn
      rw [if_neg hn] at h
      split at h <;> omega
    rw [div_lt_iff₀ hpos, hdouble]
    have : (r : ℝ) < 2 ^ k := by exact_mod_cast hr
    linarith
  · have hr : r = 2 ^ k := by
      by_contra hn
      rw [if_neg hn] at h
      split at h <;> omega
    rw [div_eq_iff hpos.ne', hdouble, hr]
    push_cast
    ring
  · have hr : 2 ^ k < r := by
      by_contra hn
      split at h
      · omega
      · rw [if_pos (by omega)] at h
        omega
    rw [lt_div_iff₀ hpos, hdouble]
    have : (2 : ℝ) ^ k < r := by exact_mod_cast hr
    linarith
  · split
    · omega
    · split <;> omega

/-- Shifting right rounds. -/
theorem shiftRound_rounds (rm : Nat) (neg : Bool) (m k : Nat) :
    Rounds rm neg ((m : ℝ) / 2 ^ (k + 1)) (shiftRound rm neg m (k + 1) false).1 ∧
      ((shiftRound rm neg m (k + 1) false).2 = true ↔ (m : ℝ) / 2 ^ (k + 1) ≠ (shiftRound rm neg m (k + 1) false).1) := by
  have hX := shift_fraction m (k + 1)
  have hr : m % 2 ^ (k + 1) < 2 ^ (k + 1) := Nat.mod_lt _ (by positivity)
  generalize hn : m / 2 ^ (k + 1) = n at hX
  generalize hrem : m % 2 ^ (k + 1) = r at hX hr
  generalize (m : ℝ) / 2 ^ (k + 1) = X at hX
  have hshift : shiftRound rm neg m (k + 1) false =
      (if roundsUp rm neg (n % 2 == 1) (r == 0) (if r < 2 ^ k then 0 else if r = 2 ^ k then 1 else 2) then n + 1 else n, !(r == 0)) := by
    unfold shiftRound
    simp [hn, hrem]
  rw [hshift]
  by_cases h0 : r = 0
  · have hexact : X = n := by simpa [h0] using hX
    have hdown : roundsUp rm neg (n % 2 == 1) (r == 0) (if r < 2 ^ k then 0 else if r = 2 ^ k then 1 else 2) = false := by simp [h0, roundsUp]
    rw [hdown, if_neg (by decide), hexact, h0]
    exact ⟨rounds_exact rm neg n, by simp⟩
  · have hne : (r == 0) = false := by simpa using h0
    have hpos : (0 : ℝ) < 2 ^ (k + 1) := by positivity
    have hfrac : (0 : ℝ) < (r : ℝ) / 2 ^ (k + 1) := div_pos (by exact_mod_cast Nat.pos_of_ne_zero h0) hpos
    have hlt : (r : ℝ) / 2 ^ (k + 1) < 1 := (div_lt_one hpos).mpr (by exact_mod_cast hr)
    have hhalf : Halves (if r < 2 ^ k then 0 else if r = 2 ^ k then 1 else 2) (X - n) := by
      rw [hX, add_sub_cancel_left]
      exact halves_shift
    rw [hne]
    generalize (if r < 2 ^ k then 0 else if r = 2 ^ k then 1 else 2) = half at hhalf ⊢
    refine ⟨rounds_roundsUp (by linarith) (by linarith) hhalf rm neg, iff_of_true rfl fun h => ?_⟩
    dsimp only at h
    split at h
    · push_cast at h
      linarith
    · linarith

/-- The model's grid rounds: m · 2^e in units of 2^q. -/
theorem onGrid_rounds (rm : Nat) (neg : Bool) (m : Nat) (e q : Int) :
    Rounds rm neg ((m : ℝ) * 2 ^ (e - q)) (onGrid rm neg m e q false).1 ∧
      ((onGrid rm neg m e q false).2 = true ↔ (m : ℝ) * 2 ^ (e - q) ≠ (onGrid rm neg m e q false).1) := by
  unfold onGrid
  split
  · next h =>
    have hX : (m : ℝ) * 2 ^ (e - q) = (m * 2 ^ (e - q).toNat : Nat) := by
      conv_lhs => rw [← Int.toNat_of_nonneg (show 0 ≤ e - q by omega)]
      push_cast
      rw [zpow_natCast]
    rw [hX]
    exact ⟨rounds_exact rm neg _, by simp⟩
  · next h =>
    obtain ⟨k, hk⟩ : ∃ k, (q - e).toNat = k + 1 := ⟨(q - e).toNat - 1, by omega⟩
    have hX : (m : ℝ) * 2 ^ (e - q) = m / 2 ^ (k + 1) := by
      rw [show e - q = -((k + 1 : Nat) : Int) by omega, zpow_neg, zpow_natCast, div_eq_mul_inv]
    rw [hX, hk]
    exact shiftRound_rounds rm neg m k

end Sys2Proof.Proofs
end

