-- ==== Sys2Proof/Proofs/FloatCodes.lean ====
section
/-! Reading the codes of a float format (R52, R53, R59): which are NaN, infinite or finite, and the values of the finite ones. -/

namespace Sys2Proof.Proofs

open Sys2Proof.Machine Sys2Proof.Says Sys2Proof.Laws

/-- A format with room for an exponent and a mantissa. -/
structure Roomy (f : Fmt) : Prop where
  ebits : 2 ≤ f.ebits
  mbits : 1 ≤ f.mbits

theorem roomy_F32 : Roomy F32 := ⟨by decide, by decide⟩
theorem roomy_F16 : Roomy F16 := ⟨by decide, by decide⟩
theorem roomy_BF16 : Roomy BF16 := ⟨by decide, by decide⟩
theorem roomy_E4M3 : Roomy E4M3 := ⟨by decide, by decide⟩

/-! ### Fields -/

theorem signBit_eq (f : Fmt) : f.signBit = 2 ^ f.mbits * 2 ^ f.ebits := by
  rw [Fmt.signBit, Nat.add_comm, Nat.pow_add]

theorem negative_eq (f : Fmt) (c : Nat) : (c / f.signBit % 2 == 1) = negative f c := rfl

theorem magnitude_expField (f : Fmt) (c : Nat) : c % f.signBit / 2 ^ f.mbits = expField f c := by
  rw [signBit_eq, Nat.mod_mul_right_div_self]
  rfl

theorem magnitude_manField (f : Fmt) (c : Nat) : c % f.signBit % 2 ^ f.mbits = manField f c := by
  rw [signBit_eq, Nat.mod_mul_right_mod]
  rfl

theorem expField_lt (f : Fmt) (c : Nat) : expField f c < 2 ^ f.ebits := Nat.mod_lt _ (by positivity)

theorem manField_lt (f : Fmt) (c : Nat) : manField f c < 2 ^ f.mbits := Nat.mod_lt _ (by positivity)

/-- The magnitude of a code is its two fields. -/
theorem magnitude_eq (f : Fmt) (c : Nat) : c % f.signBit = 2 ^ f.mbits * expField f c + manField f c := by
  rw [← magnitude_expField, ← magnitude_manField]
  exact (Nat.div_add_mod _ _).symm

theorem two_pow_ebits {f : Fmt} (h : Roomy f) : 4 ≤ 2 ^ f.ebits := Nat.pow_le_pow_right (n := 2) (by decide) h.ebits

theorem two_pow_mbits {f : Fmt} (h : Roomy f) : 2 ≤ 2 ^ f.mbits := Nat.pow_le_pow_right (n := 2) (by decide) h.mbits

/-- The significand of a finite code, and the exponent of its last place. -/
def significand (f : Fmt) (c : Nat) : Nat := if expField f c = 0 then manField f c else manField f c + 2 ^ f.mbits

def lastPlace (f : Fmt) (c : Nat) : Int := f.emin + (expField f c - 1 : Nat)

/-- A sign as a factor. -/
noncomputable def signOf (neg : Bool) : ℝ := if neg then -1 else 1

theorem isValue_iff {f : Fmt} {c : Nat} {x : ℝ} :
    IsValue f c x ↔ ¬ isNan f c ∧ ¬ isInf f c ∧ x = signOf (negative f c) * (significand f c * 2 ^ lastPlace f c) := by
  unfold IsValue
  refine and_congr Iff.rfl (and_congr Iff.rfl ?_)
  have hvalue : (if expField f c = 0 then (manField f c : ℝ) * 2 ^ (1 - (f.bias : Int) - f.mbits)
      else ((2 ^ f.mbits + manField f c : Nat) : ℝ) * 2 ^ ((expField f c : Int) - f.bias - f.mbits)) =
      significand f c * 2 ^ lastPlace f c := by
    unfold significand lastPlace Fmt.emin
    split
    · next h => rw [h]; simp
    · next h =>
      rw [Nat.add_comm, show (expField f c : Int) - f.bias - f.mbits = 1 - (f.bias : Int) - f.mbits + (expField f c - 1 : Nat) by omega]
  rw [hvalue]
  rfl

/-! ### Reading -/

theorem read_eq (f : Fmt) (c : Nat) : f.read c =
    if f.inf && expField f c == 2 ^ f.ebits - 1 then
      if manField f c == 0 then .inf (negative f c) else .nan (manField f c < 2 ^ (f.mbits - 1))
    else if !f.inf && c % f.signBit == f.top then .nan false
    else if expField f c == 0 then .fin (negative f c) (manField f c) f.emin
    else .fin (negative f c) (manField f c + 2 ^ f.mbits) (f.emin + ((expField f c - 1 : Nat) : Int)) := by
  rw [← magnitude_expField, ← magnitude_manField]
  rfl

/-- The NaN of a format without infinities is its greatest code. -/
theorem magnitude_eq_top {f : Fmt} (h : Roomy f) (hinf : f.inf = false) (c : Nat) : c % f.signBit = f.top ↔ isNan f c := by
  have hE := two_pow_ebits h
  have hP := two_pow_mbits h
  have he := expField_lt f c
  have hm := manField_lt f c
  rw [magnitude_eq, Fmt.top, signBit_eq, hinf, if_neg (by decide), isNan, hinf, if_neg (by decide)]
  generalize expField f c = e at he
  generalize manField f c = m at hm
  obtain ⟨E, hE'⟩ : ∃ E, 2 ^ f.ebits = E + 1 := ⟨2 ^ f.ebits - 1, by omega⟩
  rw [hE'] at he ⊢
  rw [Nat.mul_succ]
  constructor
  · intro heq
    obtain hlt | rfl : e < E ∨ e = E := by omega
    · have : 2 ^ f.mbits * e + 2 ^ f.mbits ≤ 2 ^ f.mbits * E := by rw [← Nat.mul_succ]; exact Nat.mul_le_mul_left _ hlt
      omega
    · omega
  · rintro ⟨he', hm'⟩
    obtain rfl : e = E := by omega
    omega

theorem read_isInf {f : Fmt} {c : Nat} (h : isInf f c) : f.read c = .inf (negative f c) := by
  obtain ⟨hinf, hexp, hman⟩ := h
  rw [read_eq, hinf, hexp, hman]
  simp

theorem read_isNan {f : Fmt} (hf : Roomy f) {c : Nat} (h : isNan f c) : ∃ sig, f.read c = .nan sig ∧ (sig = true ↔ isSignalling f c) := by
  cases hinf : f.inf with
  | true =>
    obtain ⟨hexp, hman⟩ := id h
    rw [hinf, if_pos rfl] at hman
    refine ⟨_, by rw [read_eq, hinf, hexp, if_pos (by simp), if_neg (by simpa using hman)], ?_⟩
    simp [isSignalling, hinf, h]
  | false =>
    refine ⟨false, ?_, ?_⟩
    · rw [read_eq, hinf, (magnitude_eq_top hf hinf c).mpr h]
      simp
    · simp [isSignalling, hinf]

theorem read_fin {f : Fmt} (hf : Roomy f) {c : Nat} (hnan : ¬ isNan f c) (hinfc : ¬ isInf f c) :
    f.read c = .fin (negative f c) (significand f c) (lastPlace f c) := by
  have hfirst : (f.inf && expField f c == 2 ^ f.ebits - 1) = false := by
    cases hinf : f.inf with
    | false => rfl
    | true =>
      rw [Bool.true_and, beq_eq_false_iff_ne]
      intro hexp
      by_cases hman : manField f c = 0
      · exact hinfc ⟨hinf, hexp, hman⟩
      · exact hnan ⟨hexp, by rw [hinf, if_pos rfl]; exact hman⟩
  have hsecond : (!f.inf && c % f.signBit == f.top) = false := by
    cases hinf : f.inf with
    | true => rfl
    | false =>
      rw [Bool.not_false, Bool.true_and, beq_eq_false_iff_ne]
      exact fun h => hnan ((magnitude_eq_top hf hinf c).mp h)
  rw [read_eq, hfirst, hsecond, if_neg (by decide), if_neg (by decide)]
  unfold significand lastPlace
  by_cases hexp : expField f c = 0
  · simp [hexp]
  · simp [hexp]

theorem subnormal_iff {f : Fmt} {c : Nat} : f.subnormal c = true ↔ isSubnormal f c := by
  have hm := manField_lt f c
  rw [Fmt.subnormal, magnitude_eq, Bool.and_eq_true, isSubnormal, decide_eq_true_eq, bne_iff_ne]
  generalize expField f c = e
  obtain rfl | ⟨e, rfl⟩ : e = 0 ∨ ∃ d, e = d + 1 := by
    cases e with
    | zero => exact .inl rfl
    | succ d => exact .inr ⟨d, rfl⟩
  · simp [hm]
  · rw [Nat.mul_succ]
    omega

theorem not_subnormal_of_exp {f : Fmt} (hf : Roomy f) {c : Nat} (h : expField f c = 2 ^ f.ebits - 1) : f.subnormal c = false := by
  rw [← Bool.not_eq_true, subnormal_iff]
  rintro ⟨h0, -⟩
  have := two_pow_ebits hf
  omega

theorem readFtz_isInf {f : Fmt} (hf : Roomy f) {c : Nat} (ftz : Bool) (h : isInf f c) : f.readFtz ftz c = .inf (negative f c) := by
  rw [Fmt.readFtz, not_subnormal_of_exp hf h.2.1, Bool.and_false, if_neg (by decide), read_isInf h]

theorem readFtz_isNan {f : Fmt} (hf : Roomy f) {c : Nat} (ftz : Bool) (h : isNan f c) :
    ∃ sig, f.readFtz ftz c = .nan sig ∧ (sig = true ↔ isSignalling f c) := by
  rw [Fmt.readFtz, not_subnormal_of_exp hf h.1, Bool.and_false, if_neg (by decide)]
  exact read_isNan hf h

theorem isValue_read {f : Fmt} (hf : Roomy f) {c : Nat} {x : ℝ} (h : IsValue f c x) :
    ∃ m e, f.read c = .fin (negative f c) m e ∧ x = signOf (negative f c) * (m * 2 ^ e) := by
  obtain ⟨hnan, hinf, hx⟩ := isValue_iff.mp h
  exact ⟨_, _, read_fin hf hnan hinf, hx⟩

/-- An operand is read as a finite number of its value. -/
theorem operand_readFtz {f : Fmt} (hf : Roomy f) {ftz : Bool} {c : Nat} {x : ℝ} (h : IsOperand f ftz c x) :
    ∃ m e, f.readFtz ftz c = .fin (negative f c) m e ∧ x = signOf (negative f c) * (m * 2 ^ e) := by
  obtain ⟨hflushed, hvalue⟩ := h
  by_cases hsub : ftz = true ∧ isSubnormal f c
  · refine ⟨0, f.emin, ?_, by rw [hflushed hsub]; simp⟩
    rw [Fmt.readFtz, hsub.1, subnormal_iff.mpr hsub.2, negative_eq, if_pos (by decide)]
  · have hread : f.readFtz ftz c = f.read c := by
      rw [Fmt.readFtz, if_neg]
      rw [Bool.and_eq_true, subnormal_iff]
      exact hsub
    rw [hread]
    exact isValue_read hf (hvalue hsub)

/-! ### Order -/

/-- Two finite numbers in units of a common last place. -/
theorem scaled_value (neg : Bool) (m : Nat) {e q : Int} (h : q ≤ e) : (scaled neg m e q : ℝ) * 2 ^ q = signOf neg * (m * 2 ^ e) := by
  have hpow : ((2 : ℝ) ^ (e - q).toNat) * 2 ^ q = 2 ^ e := by
    rw [← zpow_natCast, Int.toNat_of_nonneg (by omega), ← zpow_add₀ (by norm_num)]
    congr 1
    omega
  have hsigned : (scaled neg m e q : ℝ) = signOf neg * (m * 2 ^ (e - q).toNat) := by
    unfold scaled signOf
    cases neg <;> push_cast <;> simp
  rw [hsigned, mul_assoc, mul_assoc, hpow]

theorem cmp_fin (p q : Bool) (m n : Nat) (e d : Int) :
    let x := signOf p * ((m : ℝ) * 2 ^ e)
    let y := signOf q * ((n : ℝ) * 2 ^ d)
    (x < y → FVal.cmp (.fin p m e) (.fin q n d) = .lt) ∧ (x = y → FVal.cmp (.fin p m e) (.fin q n d) = .eq) ∧
      (y < x → FVal.cmp (.fin p m e) (.fin q n d) = .gt) := by
  intro x y
  have hx : (scaled p m e (min e d) : ℝ) * 2 ^ (min e d) = x := scaled_value p m (min_le_left e d)
  have hy : (scaled q n d (min e d) : ℝ) * 2 ^ (min e d) = y := scaled_value q n (min_le_right e d)
  have hpos : (0 : ℝ) < 2 ^ (min e d) := by positivity
  rw [← hx, ← hy, mul_lt_mul_iff_left₀ hpos, mul_lt_mul_iff_left₀ hpos, mul_left_inj' hpos.ne']
  simp only [Int.cast_lt, Int.cast_inj, FVal.cmp]
  exact ⟨compare_lt_iff_lt.mpr, compare_eq_iff_eq.mpr, compare_gt_iff_gt.mpr⟩

end Sys2Proof.Proofs
end

