-- ==== Sys2Proof/Proofs/Grid.lean ====
section
/-! Rounding on a grid of integers against the values of a float format (R52, R54): what a rounded integer is next to the values about it. -/

namespace Sys2Proof.Proofs

open Sys2Proof.Machine Sys2Proof.Says Sys2Proof.Laws

/-! ### Bounds of a rounded number -/

section
variable {rm : Nat} {neg : Bool} {X : ℝ} {j : Nat} (h : Rounds rm neg X j)
include h

/-- In every mode a number rounds to one of the two integers about it. -/
theorem rounds_near : X - 1 < j ∧ (j : ℝ) < X + 1 := by
  match rm, h with
  | 0, h =>
    obtain ⟨hle, -⟩ := h
    rw [abs_le] at hle
    constructor <;> linarith
  | 1, h =>
    obtain ⟨h1, h2⟩ := h
    constructor <;> linarith
  | 2, h =>
    cases neg with
    | true =>
      obtain ⟨h1, h2⟩ : (j : ℝ) ≤ X ∧ X < j + 1 := h
      constructor <;> linarith
    | false =>
      obtain ⟨h1, h2⟩ : X ≤ j ∧ (j : ℝ) < X + 1 := h
      constructor <;> linarith
  | n + 3, h =>
    cases neg with
    | true =>
      obtain ⟨h1, h2⟩ : X ≤ j ∧ (j : ℝ) < X + 1 := h
      constructor <;> linarith
    | false =>
      obtain ⟨h1, h2⟩ : (j : ℝ) ≤ X ∧ X < j + 1 := h
      constructor <;> linarith

theorem rounds_le {N : Nat} (hN : X ≤ N) : j ≤ N := by
  have hnear := (rounds_near h).2
  have : (j : ℝ) < (N + 1 : Nat) := by
    push_cast
    linarith
  exact Nat.lt_succ_iff.mp (by exact_mod_cast this)

theorem le_rounds {N : Nat} (hN : (N : ℝ) ≤ X) : N ≤ j := by
  have hnear := (rounds_near h).1
  have : (N : ℝ) < (j + 1 : Nat) := by
    push_cast
    linarith
  exact Nat.lt_succ_iff.mp (by exact_mod_cast this)

end

/-- A magnitude that rounds beyond the integer `M`. -/
def Over (rm : Nat) (neg : Bool) (M : Nat) (X : ℝ) : Prop :=
  match rm with
  | 0 => if M % 2 = 1 then (M : ℝ) + 1 / 2 ≤ X else (M : ℝ) + 1 / 2 < X
  | 1 => (M : ℝ) + 1 ≤ X
  | 2 => if neg then (M : ℝ) + 1 ≤ X else (M : ℝ) < X
  | _ => if neg then (M : ℝ) < X else (M : ℝ) + 1 ≤ X

theorem over_nearest {neg : Bool} {M : Nat} {X : ℝ} :
    Over 0 neg M X ↔ if M % 2 = 1 then (M : ℝ) + 1 / 2 ≤ X else (M : ℝ) + 1 / 2 < X := Iff.rfl

theorem over_of_ge {M : Nat} {X : ℝ} (h : (M : ℝ) + 1 ≤ X) (rm : Nat) (neg : Bool) : Over rm neg M X := by
  match rm with
  | 0 =>
    rw [over_nearest]
    split <;> linarith
  | 1 => exact h
  | 2 =>
    cases neg with
    | true => exact h
    | false =>
      show (M : ℝ) < X
      linarith
  | n + 3 =>
    cases neg with
    | true =>
      show (M : ℝ) < X
      linarith
    | false => exact h

theorem lt_of_over {rm : Nat} {neg : Bool} {M : Nat} {X : ℝ} (h : Over rm neg M X) : (M : ℝ) < X := by
  match rm, h with
  | 0, h =>
    rw [over_nearest] at h
    split at h <;> linarith
  | 1, h =>
    have h : (M : ℝ) + 1 ≤ X := h
    linarith
  | 2, h =>
    cases neg with
    | true =>
      have h : (M : ℝ) + 1 ≤ X := h
      linarith
    | false => exact h
  | n + 3, h =>
    cases neg with
    | true => exact h
    | false =>
      have h : (M : ℝ) + 1 ≤ X := h
      linarith

/-- An integer below a number, in terms of the integers. -/
theorem nat_lt_iff {M j : Nat} : M < j ↔ (M : ℝ) + 1 ≤ j := by
  rw [← Nat.cast_succ, Nat.cast_le]
  exact Nat.succ_le_iff.symm

/-- What rounds beyond `M` is what the rule of the mode says. -/
theorem rounds_over {rm : Nat} {neg : Bool} {X : ℝ} {j : Nat} (h : Rounds rm neg X j) (M : Nat) : M < j ↔ Over rm neg M X := by
  have hdown (h : (j : ℝ) ≤ X ∧ X < j + 1) : M < j ↔ (M : ℝ) + 1 ≤ X := by
    rw [nat_lt_iff]
    refine ⟨fun hM => hM.trans h.1, fun hM => ?_⟩
    rw [← nat_lt_iff]
    have : (M : ℝ) < j := by linarith
    exact_mod_cast this
  have hup (h : X ≤ j ∧ (j : ℝ) < X + 1) : M < j ↔ (M : ℝ) < X := by
    refine ⟨fun hM => ?_, fun hM => ?_⟩
    · rw [nat_lt_iff] at hM
      linarith
    · have : (M : ℝ) < j := by linarith
      exact_mod_cast this
  match rm, h with
  | 0, h =>
    obtain ⟨hle, htie⟩ := h
    rw [abs_le] at hle
    rw [over_nearest]
    constructor
    · intro hM
      have hM' := nat_lt_iff.mp hM
      split
      · linarith
      · next hodd =>
        refine lt_of_le_of_ne (by linarith) fun heq => ?_
        have hj : (j : ℝ) = M + 1 := by linarith
        have hj' : j = M + 1 := by exact_mod_cast hj
        have htied : |X - j| = 1 / 2 := by
          rw [hj, ← heq, abs_of_nonpos (by linarith)]
          ring
        have := htie htied
        omega
    · intro hover
      by_contra hM
      have hM' : (j : ℝ) ≤ M := by exact_mod_cast Nat.not_lt.mp hM
      split at hover
      · next hodd =>
        have hX : X = M + 1 / 2 := by linarith
        have hj : (j : ℝ) = M := by linarith
        have hj' : j = M := by exact_mod_cast hj
        have htied : |X - j| = 1 / 2 := by
          rw [hX, hj, abs_of_nonneg (by linarith)]
          ring
        have := htie htied
        omega
      · linarith
  | 1, h => exact hdown h
  | 2, h =>
    cases neg with
    | true => exact hdown h
    | false => exact hup h
  | n + 3, h =>
    cases neg with
    | true => exact hup h
    | false => exact hdown h

/-! ### The values about a rounded number -/

/-- A number is an integer, or of less magnitude than a bound that the rounded number reaches. -/
def OnGrid (N : Nat) (X Y : ℝ) : Prop := (∃ z : Int, Y = z) ∨ |Y| < N ∧ (N : ℝ) ≤ X

section
variable {rm : Nat} {neg : Bool} {X Y : ℝ} {j N : Nat} (h : Rounds rm neg X j) (hY : OnGrid N X Y)
include h hY

theorem grid_below (hdown : (j : ℝ) ≤ X ∧ X < j + 1) (hle : Y ≤ X) : Y ≤ j := by
  rcases hY with ⟨z, rfl⟩ | ⟨hlt, hN⟩
  · have : (z : ℝ) < ((j + 1 : Int) : ℝ) := by
      push_cast
      linarith
    have hz : z < j + 1 := by exact_mod_cast this
    exact_mod_cast Int.lt_add_one_iff.mp hz
  · have hNj : (N : ℝ) ≤ j := by exact_mod_cast le_rounds h hN
    have := (abs_lt.mp hlt).2
    linarith

omit h in
theorem grid_above (hup : X ≤ j ∧ (j : ℝ) < X + 1) (hle : X ≤ Y) : (j : ℝ) ≤ Y := by
  rcases hY with ⟨z, rfl⟩ | ⟨hlt, hN⟩
  · have : ((j : Int) : ℝ) < ((z + 1 : Int) : ℝ) := by
      push_cast
      linarith
    have hz : (j : Int) < z + 1 := by exact_mod_cast this
    exact_mod_cast Int.lt_add_one_iff.mp hz
  · have := (abs_lt.mp hlt).2
    linarith

theorem grid_magnitude (hdown : (j : ℝ) ≤ X ∧ X < j + 1) (hle : |Y| ≤ X) : |Y| ≤ j := by
  refine grid_below (Y := |Y|) (N := N) h ?_ hdown hle
  rcases hY with ⟨z, rfl⟩ | ⟨hlt, hN⟩
  · exact .inl ⟨|z|, by push_cast; rfl⟩
  · exact .inr ⟨by rwa [abs_abs], hN⟩

/-- No value is nearer, and where one is as near the rounded number is even. -/
theorem grid_nearest (hnear : |X - j| ≤ 1 / 2 ∧ (|X - j| = 1 / 2 → j % 2 = 0)) :
    |X - j| ≤ |X - Y| ∧ (Y ≠ j → |X - j| = |X - Y| → j % 2 = 0) := by
  obtain ⟨hle, htie⟩ := hnear
  rcases hY with ⟨z, rfl⟩ | ⟨hlt, hN⟩
  · by_cases hz : z = j
    · subst hz
      exact ⟨le_rfl, fun hne => absurd rfl hne⟩
    · have hgap : (1 : ℝ) ≤ |(z : ℝ) - j| := by
        have : (1 : Int) ≤ |z - j| := Int.one_le_abs (sub_ne_zero.mpr hz)
        exact_mod_cast this
      have htri : |(z : ℝ) - j| ≤ |X - j| + |X - z| := by
        rw [show (z : ℝ) - j = (X - j) - (X - z) by ring]
        exact abs_sub _ _
      exact ⟨by linarith, fun _ heq => htie (by linarith)⟩
  · have hNj : (N : ℝ) ≤ j := by exact_mod_cast le_rounds h hN
    have hlt' := (abs_lt.mp hlt).2
    have hXY : |X - Y| = X - Y := abs_of_pos (by linarith)
    have hstrict : |X - j| < |X - Y| := by
      rw [hXY]
      by_cases hjX : (j : ℝ) ≤ X
      · rw [abs_of_nonneg (by linarith)]
        linarith
      · have hNX : (j : ℝ) - X ≤ X - N := by
          rcases eq_or_lt_of_le (show N ≤ j by exact_mod_cast hNj) with rfl | hlt''
          · linarith
          · have : (N : ℝ) + 1 ≤ j := nat_lt_iff.mp hlt''
            have habs := (abs_le.mp hle).1
            linarith
        rw [abs_of_neg (by linarith)]
        linarith
    exact ⟨hstrict.le, fun _ heq => absurd heq hstrict.ne⟩

end

end Sys2Proof.Proofs
end

