-- ==== Sys2Proof/Proofs/RoundOnce.lean ====
section
/-! The model's rounding of an exact number to a float format (R54, R58, R59): its code and its flags are those of the number rounded once. -/

namespace Sys2Proof.Proofs

open Sys2Proof.Machine Sys2Proof.Says Sys2Proof.Laws

/-! ### The greatest finite code -/

/-- How far the exponent field of the greatest finite number lies above that of the least normal one. -/
def topExp (f : Fmt) : Nat := 2 ^ f.ebits - if f.inf then 3 else 2

/-- The significand of the greatest finite number. -/
def topSig (f : Fmt) : Nat := 2 * 2 ^ f.mbits - if f.inf then 1 else 2

section
variable {f : Fmt} (hf : Roomy f)
include hf

theorem maxFin_eq : f.maxFin = topExp f * 2 ^ f.mbits + topSig f := by
  have hE := two_pow_ebits hf
  have hP := two_pow_mbits hf
  rw [Fmt.maxFin, Fmt.top, signBit_eq, topExp, topSig]
  generalize 2 ^ f.mbits = P at hP
  cases f.inf with
  | true =>
    obtain ⟨E, hE'⟩ : ∃ E, 2 ^ f.ebits = E + 3 := ⟨2 ^ f.ebits - 3, by omega⟩
    simp only [hE', if_true, Nat.add_sub_cancel, show E + 3 - 1 = E + 2 by omega, Nat.add_mul]
    omega
  | false =>
    obtain ⟨E, hE'⟩ : ∃ E, 2 ^ f.ebits = E + 2 := ⟨2 ^ f.ebits - 2, by omega⟩
    simp only [hE', Bool.false_eq_true, if_false, Nat.add_sub_cancel, Nat.mul_add, Nat.mul_comm P E]
    omega

theorem topSig_bounds : 2 ^ f.mbits ≤ topSig f ∧ topSig f < 2 * 2 ^ f.mbits := by
  have hP := two_pow_mbits hf
  rw [topSig]
  split <;> omega

theorem maxFin_lt_signBit : f.maxFin < f.signBit := by
  have hE := two_pow_ebits hf
  have hP := two_pow_mbits hf
  rw [Fmt.maxFin, Fmt.top, signBit_eq]
  split
  · have : (2 ^ f.ebits - 1) * 2 ^ f.mbits < 2 ^ f.mbits * 2 ^ f.ebits := by
      rw [Nat.mul_comm]
      exact Nat.mul_lt_mul_of_pos_left (by omega) (by omega)
    omega
  · have : 0 < 2 ^ f.mbits * 2 ^ f.ebits := Nat.mul_pos (by omega) (by omega)
    omega

theorem maxFin_eq_maxOf : f.maxFin = maxOf f false := by
  have hE := two_pow_ebits hf
  have hP := two_pow_mbits hf
  rw [Fmt.maxFin, Fmt.top, signBit_eq, maxOf, zeroOf, Nat.add_comm f.ebits, Nat.pow_add]
  have hmul : (2 ^ f.ebits - 1) * 2 ^ f.mbits + 2 ^ f.mbits = 2 ^ f.mbits * 2 ^ f.ebits := by
    rw [← Nat.succ_mul, Nat.mul_comm, Nat.succ_eq_add_one, Nat.sub_add_cancel (by omega)]
  split
  · simp only [Bool.false_eq_true, if_false]
    omega
  · simp only [Bool.false_eq_true, if_false]
    omega

end

theorem zero_eq_zeroOf (f : Fmt) (neg : Bool) : f.zero neg = zeroOf f neg := rfl

section
variable {f : Fmt} (hf : Roomy f) (neg : Bool)
include hf

theorem signed_maxFin : f.signed neg f.maxFin = maxOf f neg := by
  have hE := two_pow_ebits hf
  have hP := two_pow_mbits hf
  have hpos : 2 ^ f.mbits * 4 ≤ 2 ^ f.mbits * 2 ^ f.ebits := Nat.mul_le_mul_left _ hE
  rw [Fmt.signed, maxFin_eq_maxOf hf, zero_eq_zeroOf]
  unfold maxOf
  rw [show zeroOf f false = 0 from rfl, Nat.add_comm f.ebits, Nat.pow_add]
  split <;> omega

theorem signed_top : f.signed neg f.top = infOf f neg := by
  have htop : f.top = f.maxFin + 1 := by
    have hE := two_pow_ebits hf
    have hP := two_pow_mbits hf
    have hpos : 1 * 2 ^ f.mbits ≤ (2 ^ f.ebits - 1) * 2 ^ f.mbits := Nat.mul_le_mul_right _ (by omega)
    have hpos' : 2 ^ f.mbits * 4 ≤ 2 ^ f.mbits * 2 ^ f.ebits := Nat.mul_le_mul_left _ hE
    rw [Fmt.maxFin, Fmt.top, signBit_eq]
    split <;> omega
  rw [infOf, ← signed_maxFin hf, Fmt.signed, Fmt.signed, htop, Nat.add_assoc]

omit neg in
theorem qnan_eq_nanOf : f.qnan = nanOf f := by
  have htop : f.top = infOf f false := by
    rw [← signed_top hf, Fmt.signed, show f.zero false = 0 from rfl, Nat.zero_add]
  rw [Fmt.qnan, nanOf, htop]
  split <;> rfl

theorem overflow_eq_overflowOf (rm : Nat) : f.overflow rm neg = overflowOf f rm neg := by
  unfold Fmt.overflow overflowOf
  cases f.inf with
  | false => exact qnan_eq_nanOf hf
  | true =>
    match rm with
    | 0 => exact signed_top hf neg
    | 1 => exact signed_maxFin hf neg
    | 2 =>
      cases neg with
      | true => exact signed_maxFin hf true
      | false => exact signed_top hf false
    | n + 3 =>
      cases neg with
      | true => exact signed_top hf true
      | false => exact signed_maxFin hf false

end

/-! ### The code of a rounded number -/

/-- A significand `j` on the grid `t` above that of the subnormals: below it there is no finer place, or it is a normal number's. -/
structure OnPlace (f : Fmt) (t j : Nat) : Prop where
  le : j ≤ 2 * 2 ^ f.mbits
  ge : 0 < t → 2 ^ f.mbits ≤ j

/-- Its code. -/
def codeOf (f : Fmt) (t j : Nat) : Nat := t * 2 ^ f.mbits + j

section
variable {f : Fmt} (hf : Roomy f) {neg : Bool} {t j : Nat}
include hf

omit hf in
/-- The fields of the sign and the code of a magnitude. -/
theorem signed_fields {k : Nat} (hk : k < f.signBit) (neg : Bool) : f.signed neg k < 2 * f.signBit ∧ negative f (f.signed neg k) = neg ∧
    f.signed neg k % f.signBit = k ∧ expField f (f.signed neg k) = k / 2 ^ f.mbits ∧ manField f (f.signed neg k) = k % 2 ^ f.mbits := by
  have hpos : 0 < f.signBit := by omega
  have hmag : f.signed neg k % f.signBit = k := by
    cases neg with
    | true => rw [Fmt.signed, Fmt.zero, if_pos rfl, Nat.add_mod_left, Nat.mod_eq_of_lt hk]
    | false => rw [Fmt.signed, Fmt.zero, if_neg (by decide), Nat.zero_add, Nat.mod_eq_of_lt hk]
  refine ⟨?_, ?_, hmag, ?_, ?_⟩
  · rw [Fmt.signed, Fmt.zero]
    split <;> omega
  · rw [← negative_eq, Fmt.signed, Fmt.zero]
    cases neg with
    | true => rw [if_pos rfl, Nat.add_div_left _ hpos, Nat.div_eq_of_lt hk]; rfl
    | false => rw [if_neg (by decide), Nat.zero_add, Nat.div_eq_of_lt hk]; rfl
  · rw [← magnitude_expField, hmag]
  · rw [← magnitude_manField, hmag]

/-- A magnitude up to the greatest finite one is the code of a finite number. -/
theorem finite_of_le_maxFin {c : Nat} (h : c % f.signBit ≤ f.maxFin) : ¬ isNan f c ∧ ¬ isInf f c := by
  have hE := two_pow_ebits hf
  have hP := two_pow_mbits hf
  cases hinf : f.inf with
  | false =>
    refine ⟨fun hnan => ?_, fun hinfc => ?_⟩
    · rw [(magnitude_eq_top hf hinf c).mpr hnan, Fmt.maxFin] at h
      have hpos : 2 ^ f.mbits * 4 ≤ 2 ^ f.mbits * 2 ^ f.ebits := Nat.mul_le_mul_left _ hE
      have htop : f.top = 2 ^ f.mbits * 2 ^ f.ebits - 1 := by rw [Fmt.top, hinf, if_neg (by decide), signBit_eq]
      omega
    · rw [isInf, hinf] at hinfc
      exact absurd hinfc.1 (by decide)
  | true =>
    have hexp : expField f c ≠ 2 ^ f.ebits - 1 := by
      intro hexp
      rw [magnitude_eq, hexp, Fmt.maxFin, Fmt.top, hinf, if_pos rfl, Nat.mul_comm] at h
      have hpos : 1 * 2 ^ f.mbits ≤ (2 ^ f.ebits - 1) * 2 ^ f.mbits := Nat.mul_le_mul_right _ (by omega)
      omega
    exact ⟨fun hnan => hexp hnan.1, fun hinfc => hexp hinfc.2.1⟩

/-- The significand and the last place of a code on the grid. -/
theorem code_magnitude (h : OnPlace f t j) {c : Nat} (hexp : expField f c = codeOf f t j / 2 ^ f.mbits)
    (hman : manField f c = codeOf f t j % 2 ^ f.mbits) : (significand f c : ℝ) * 2 ^ lastPlace f c = j * 2 ^ (f.emin + t) := by
  have hP := two_pow_mbits hf
  have hdiv : codeOf f t j / 2 ^ f.mbits = t + j / 2 ^ f.mbits := by
    rw [codeOf, Nat.mul_comm, Nat.mul_add_div (by omega)]
  have hmod : codeOf f t j % 2 ^ f.mbits = j % 2 ^ f.mbits := by
    rw [codeOf, Nat.mul_comm, Nat.mul_add_mod]
  rw [hdiv] at hexp
  rw [hmod] at hman
  unfold significand lastPlace
  rw [hexp, hman]
  obtain ⟨hle, hge⟩ := h
  generalize 2 ^ f.mbits = P at *
  obtain hlow | ⟨hlow, hmid⟩ | rfl : j < P ∨ (P ≤ j ∧ j < 2 * P) ∨ j = 2 * P := by omega
  · have ht : t = 0 := by
      by_contra ht
      have := hge (by omega)
      omega
    rw [ht, Nat.div_eq_of_lt hlow, Nat.mod_eq_of_lt hlow]
    simp
  · have hd : j / P = 1 := Nat.div_eq_of_lt_le (by omega) (by omega)
    have hm : j % P = j - P := by
      rw [Nat.mod_eq_sub_mod hlow, Nat.mod_eq_of_lt (by omega)]
    rw [hd, hm, if_neg (by omega), Nat.sub_add_cancel hlow, Nat.add_sub_cancel]
  · have hd : 2 * P / P = 2 := Nat.mul_div_cancel _ (by omega)
    have hm : 2 * P % P = 0 := Nat.mul_mod_left _ _
    rw [hd, hm, if_neg (by omega), Nat.zero_add, show t + 2 - 1 = t + 1 by omega]
    push_cast
    rw [show f.emin + ((t : Int) + 1) = f.emin + t + 1 by ring, zpow_add_one₀ (by norm_num)]
    ring

/-- The code of a sign and a significand on the grid has their value. -/
theorem code_value (h : OnPlace f t j) (hfin : codeOf f t j ≤ f.maxFin) (neg : Bool) :
    IsValue f (f.signed neg (codeOf f t j)) (signOf neg * (j * 2 ^ (f.emin + t))) := by
  obtain ⟨-, hneg, hmag, hexp, hman⟩ := signed_fields (lt_of_le_of_lt hfin (maxFin_lt_signBit hf)) neg
  obtain ⟨hnan, hinf⟩ := finite_of_le_maxFin hf (by rw [hmag]; exact hfin)
  exact isValue_iff.mpr ⟨hnan, hinf, by rw [hneg, code_magnitude hf h hexp hman]⟩

end

theorem isValue_unique {f : Fmt} {c : Nat} {x y : ℝ} (hx : IsValue f c x) (hy : IsValue f c y) : x = y := hx.2.2.trans hy.2.2.symm

theorem signOf_mul_self (neg : Bool) : signOf neg * signOf neg = 1 := by cases neg <;> simp [signOf]

theorem significand_lt (f : Fmt) (c : Nat) : significand f c < 2 * 2 ^ f.mbits := by
  have hm := manField_lt f c
  rw [significand]
  split <;> omega

theorem abs_signOf_mul (neg : Bool) (x : ℝ) : |signOf neg * x| = |x| := by cases neg <;> simp [signOf]

/-- Every value is a whole number of units, or less than the numbers whose last place is one unit. -/
theorem value_onGrid {f : Fmt} {t : Nat} {X : ℝ} {neg : Bool} (hX : 0 < t → ((2 ^ f.mbits : Nat) : ℝ) ≤ X) {c : Nat} {w : ℝ}
    (h : IsValue f c w) : ∃ Y, w = signOf neg * (Y * 2 ^ (f.emin + t)) ∧ OnGrid (2 ^ f.mbits) X Y := by
  obtain ⟨-, -, hw⟩ := isValue_iff.mp h
  have hs := significand_lt f c
  rw [lastPlace] at hw
  generalize significand f c = s at hw hs
  generalize expField f c - 1 = g at hw
  refine ⟨signOf neg * (signOf (negative f c) * (s * 2 ^ ((g : Int) - t))), ?_, ?_⟩
  · have hpow : (2 : ℝ) ^ ((g : Int) - t) * 2 ^ (f.emin + t) = 2 ^ (f.emin + g) := by
      rw [← zpow_add₀ (by norm_num)]
      congr 1
      ring
    rw [hw, ← hpow]
    linear_combination (-(signOf (negative f c) * (s * (2 ^ ((g : Int) - t) * 2 ^ (f.emin + t))))) * signOf_mul_self neg
  · by_cases ht : t ≤ g
    · have hnat : (s : ℝ) * 2 ^ ((g : Int) - t) = ((s * 2 ^ (g - t) : Nat) : Int) := by
        rw [show (g : Int) - t = (g - t : Nat) by omega, zpow_natCast]
        push_cast
        rfl
      rw [hnat]
      refine .inl ⟨(if neg then -1 else 1) * ((if negative f c then -1 else 1) * ((s * 2 ^ (g - t) : Nat) : Int)), ?_⟩
      cases neg <;> cases negative f c <;> simp [signOf]
    · refine .inr ⟨?_, hX (by omega)⟩
      rw [abs_signOf_mul, abs_signOf_mul, abs_of_nonneg (by positivity)]
      have hhalf : (2 : ℝ) ^ ((g : Int) - t) ≤ 2⁻¹ := by
        rw [← zpow_neg_one]
        exact zpow_le_zpow_right₀ (by norm_num) (by omega)
      have hs' : (s : ℝ) < 2 * (2 ^ f.mbits : Nat) := by exact_mod_cast hs
      have hpos : (0 : ℝ) < 2 ^ ((g : Int) - t) := by positivity
      nlinarith

/-! ### The rounded code -/

theorem signOf_lt_zero {x : ℝ} (hx : 0 < x) (neg : Bool) : decide (signOf neg * x < 0) = neg := by
  cases neg with
  | true => simpa [signOf] using hx
  | false => simpa [signOf] using hx.le

/-- Two numbers of one sign in the same unit. -/
theorem signed_dist {U : ℝ} (hU : 0 < U) (neg : Bool) (a b : ℝ) : |signOf neg * (a * U) - signOf neg * (b * U)| = |a - b| * U := by
  rw [← mul_sub, abs_signOf_mul, ← sub_mul, abs_mul, abs_of_pos hU]

theorem signed_abs {U : ℝ} (hU : 0 < U) (neg : Bool) (a : ℝ) : |signOf neg * (a * U)| = |a| * U := by
  rw [abs_signOf_mul, abs_mul, abs_of_pos hU]

theorem signed_le {U : ℝ} (hU : 0 < U) (neg : Bool) (a b : ℝ) :
    signOf neg * (a * U) ≤ signOf neg * (b * U) ↔ if neg then b ≤ a else a ≤ b := by
  cases neg with
  | true => simp [signOf, hU]
  | false => simp [signOf, hU]

theorem isRounding_of_rounds {f : Fmt} (hf : Roomy f) {rm : Nat} {neg : Bool} {X : ℝ} {t j : Nat} (hpos : 0 < X)
    (hX : 0 < t → ((2 ^ f.mbits : Nat) : ℝ) ≤ X) (h : Rounds rm neg X j) (hplace : OnPlace f t j) (hfin : codeOf f t j ≤ f.maxFin) :
    IsRounding f rm (signOf neg * (X * 2 ^ (f.emin + t))) (f.signed neg (codeOf f t j)) := by
  have hU : (0 : ℝ) < 2 ^ (f.emin + t) := by positivity
  obtain ⟨hlt, hneg, hmag, -⟩ := signed_fields (lt_of_le_of_lt hfin (maxFin_lt_signBit hf)) neg
  refine ⟨hlt, by rw [hneg, signOf_lt_zero (by positivity)], _, code_value hf hplace hfin neg, fun c' w' hw' => ?_⟩
  obtain ⟨Y, rfl, hY⟩ := value_onGrid (neg := neg) hX hw'
  have hparity : f.signed neg (codeOf f t j) % 2 = j % 2 := by
    obtain ⟨P, hP⟩ : ∃ P, 2 ^ f.mbits = 2 * P := ⟨2 ^ (f.mbits - 1), by rw [← Nat.pow_succ', Nat.succ_eq_add_one, Nat.sub_add_cancel hf.mbits]⟩
    have hcode : codeOf f t j = 2 * (t * P) + j := by rw [codeOf, hP]; ring
    have hzero : ∃ z, f.zero neg = 2 * z := by
      cases neg with
      | true => exact ⟨P * 2 ^ f.ebits, by rw [Fmt.zero, if_pos rfl, signBit_eq, hP]; ring⟩
      | false => exact ⟨0, rfl⟩
    obtain ⟨z, hz⟩ := hzero
    rw [Fmt.signed, hcode, hz]
    omega
  match rm, h with
  | 0, h =>
    obtain ⟨hle, htie⟩ := grid_nearest (rm := 0) (neg := neg) h hY h
    show |signOf neg * (X * _) - signOf neg * (j * _)| ≤ |signOf neg * (X * _) - signOf neg * (Y * _)| ∧
      (signOf neg * (Y * _) ≠ signOf neg * (j * _) →
        |signOf neg * (X * _) - signOf neg * (j * _)| = |signOf neg * (X * _) - signOf neg * (Y * _)| → _)
    rw [signed_dist hU, signed_dist hU, hparity]
    refine ⟨mul_le_mul_of_nonneg_right hle hU.le, fun hne heq => htie (fun hYj => hne (by rw [hYj])) ?_⟩
    exact mul_right_cancel₀ hU.ne' heq
  | 1, h =>
    show |signOf neg * (j * _)| ≤ |signOf neg * (X * _)| ∧
      (|signOf neg * (Y * _)| ≤ |signOf neg * (X * _)| → |signOf neg * (Y * _)| ≤ |signOf neg * (j * _)|)
    rw [signed_abs hU, signed_abs hU, signed_abs hU, abs_of_nonneg (Nat.cast_nonneg j), abs_of_pos hpos, mul_le_mul_iff_left₀ hU,
      mul_le_mul_iff_left₀ hU, mul_le_mul_iff_left₀ hU]
    exact ⟨h.1, grid_magnitude (rm := 1) (neg := neg) h hY h⟩
  | 2, h =>
    show signOf neg * (X * _) ≤ signOf neg * (j * _) ∧
      (signOf neg * (X * _) ≤ signOf neg * (Y * _) → signOf neg * (j * _) ≤ signOf neg * (Y * _))
    rw [signed_le hU, signed_le hU, signed_le hU]
    cases neg with
    | true => exact ⟨h.1, grid_below (rm := 2) (neg := true) h hY h⟩
    | false => exact ⟨h.1, grid_above hY h⟩
  | n + 3, h =>
    show signOf neg * (j * _) ≤ signOf neg * (X * _) ∧
      (signOf neg * (Y * _) ≤ signOf neg * (X * _) → signOf neg * (Y * _) ≤ signOf neg * (j * _))
    rw [signed_le hU, signed_le hU, signed_le hU]
    cases neg with
    | true => exact ⟨h.1, grid_above hY h⟩
    | false => exact ⟨h.1, grid_below (rm := n + 3) (neg := false) h hY h⟩

end Sys2Proof.Proofs
end

