-- ==== Sys2Proof/Proofs/RoundFlags.lean ====
section
/-! Overflow and tininess (R58): when a rounded magnitude passes the greatest finite number or stays below the least normal one, and the flags of
the model's rounding. -/

namespace Sys2Proof.Proofs

open Sys2Proof.Machine Sys2Proof.Says Sys2Proof.Laws

/-! ### Overflow -/

section
variable {f : Fmt} (hf : Roomy f)
include hf

theorem onPlace_top : OnPlace f (topExp f) (topSig f) := ⟨(topSig_bounds hf).2.le, fun _ => (topSig_bounds hf).1⟩

theorem isMax_top : Says.IsMax f (topSig f * 2 ^ (f.emin + topExp f)) := by
  have hcode : codeOf f (topExp f) (topSig f) = f.maxFin := (maxFin_eq hf).symm
  have h := code_value hf (onPlace_top hf) hcode.le false
  rw [hcode, signed_maxFin hf] at h
  show IsValue f (maxOf f false) _
  simpa [signOf] using h

theorem isTopUnit_iff {u : ℝ} : IsTopUnit f u ↔ u = 2 ^ (f.emin + topExp f) := by
  have hE := two_pow_ebits hf
  have hexp : ((2 ^ f.ebits - (if f.inf then 2 else 1) : Nat) : Int) - f.bias - f.mbits = f.emin + topExp f := by
    rw [Fmt.emin, topExp]
    split <;> omega
  rw [IsTopUnit, hexp]

/-- A number overflows where its magnitude, in units of the greatest numbers, rounds beyond the greatest significand. -/
theorem overflows_iff {rm : Nat} {neg : Bool} {X : ℝ} (hX : 0 < X) :
    Overflows f rm (signOf neg * (X * 2 ^ (f.emin + topExp f))) ↔ Over rm neg (topSig f) X := by
  have hU : (0 : ℝ) < 2 ^ (f.emin + topExp f) := by positivity
  have hmax := isMax_top hf
  have hparity : maxOf f false % 2 = topSig f % 2 := by
    obtain ⟨P, hP⟩ : ∃ P, 2 ^ f.mbits = 2 * P := ⟨2 ^ (f.mbits - 1), by rw [← Nat.pow_succ', Nat.succ_eq_add_one, Nat.sub_add_cancel hf.mbits]⟩
    have hcode : topExp f * 2 ^ f.mbits = 2 * (topExp f * P) := by rw [hP]; ring
    rw [← maxFin_eq_maxOf hf, maxFin_eq hf, hcode]
    omega
  have hsign := signOf_lt_zero (show 0 < X * 2 ^ (f.emin + topExp f) by positivity) neg
  generalize hu : (2 : ℝ) ^ (f.emin + topExp f) = U at hU hmax hsign
  generalize hv : signOf neg * (X * U) = v at hsign
  have habs : |v| = X * U := by rw [← hv, signed_abs hU, abs_of_pos hX]
  have hle (a : ℝ) : a * U ≤ X * U ↔ a ≤ X := mul_le_mul_iff_left₀ hU
  have hlt (a : ℝ) : a * U < X * U ↔ a < X := mul_lt_mul_iff_left₀ hU
  have hone : (topSig f : ℝ) * U + U = (topSig f + 1) * U := by ring
  have hhalf : (topSig f : ℝ) * U + U / 2 = (topSig f + 1 / 2) * U := by ring
  have hcases : Overflows f rm v ↔ match rm with
      | 0 => if maxOf f false % 2 = 1 then topSig f * U + U / 2 ≤ |v| else topSig f * U + U / 2 < |v|
      | 1 => topSig f * U + U ≤ |v|
      | 2 => if v < 0 then topSig f * U + U ≤ |v| else topSig f * U < v
      | _ => if v < 0 then topSig f * U < -v else topSig f * U + U ≤ v := by
    constructor
    · rintro ⟨m, u, hm, hu', h⟩
      obtain rfl := isValue_unique hm hmax
      obtain rfl : u = U := ((isTopUnit_iff hf).mp hu').trans hu
      exact h
    · exact fun h => ⟨_, _, hmax, (isTopUnit_iff hf).mpr hu.symm, h⟩
  rw [hcases]
  have hpositive (h : neg = false) : v = X * U := by rw [← hv, h]; simp [signOf]
  have hnegative (h : neg = true) : -v = X * U := by rw [← hv, h]; simp [signOf]
  match rm with
  | 0 =>
    rw [over_nearest, ← hparity]
    show (if maxOf f false % 2 = 1 then topSig f * U + U / 2 ≤ |v| else topSig f * U + U / 2 < |v|) ↔ _
    rw [habs, hhalf, hle, hlt]
  | 1 =>
    show topSig f * U + U ≤ |v| ↔ (topSig f : ℝ) + 1 ≤ X
    rw [habs, hone, hle]
  | 2 =>
    cases neg with
    | true =>
      show (if v < 0 then topSig f * U + U ≤ |v| else topSig f * U < v) ↔ (topSig f : ℝ) + 1 ≤ X
      rw [if_pos (of_decide_eq_true hsign), habs, hone, hle]
    | false =>
      show (if v < 0 then topSig f * U + U ≤ |v| else topSig f * U < v) ↔ (topSig f : ℝ) < X
      rw [if_neg (of_decide_eq_false hsign), hpositive rfl, hlt]
  | n + 3 =>
    cases neg with
    | true =>
      show (if v < 0 then topSig f * U < -v else topSig f * U + U ≤ v) ↔ (topSig f : ℝ) < X
      rw [if_pos (of_decide_eq_true hsign), hnegative rfl, hlt]
    | false =>
      show (if v < 0 then topSig f * U < -v else topSig f * U + U ≤ v) ↔ (topSig f : ℝ) + 1 ≤ X
      rw [if_neg (of_decide_eq_false hsign), hpositive rfl, hone, hle]

omit hf in
/-- A magnitude in units of another place. -/
theorem units_eq (f : Fmt) (X : ℝ) (t s : Nat) : X * 2 ^ (f.emin + t) = X * 2 ^ ((t : Int) - s) * 2 ^ (f.emin + s) := by
  rw [mul_assoc, ← zpow_add₀ (by norm_num)]
  congr 2
  ring

/-- The code of a rounded magnitude passes the greatest finite one where the magnitude overflows. -/
theorem maxFin_lt_code_iff {rm : Nat} {neg : Bool} {X : ℝ} {t j : Nat} (h : Rounds rm neg X j) (hplace : OnPlace f t j)
    (hlow : 0 < t → ((2 ^ f.mbits : Nat) : ℝ) ≤ X) (hhigh : X < 2 * (2 ^ f.mbits : Nat)) (hpos : 0 < X) :
    f.maxFin < codeOf f t j ↔ Overflows f rm (signOf neg * (X * 2 ^ (f.emin + t))) := by
  obtain ⟨hsig, hsig'⟩ := topSig_bounds hf
  rw [units_eq f X t (topExp f), overflows_iff hf (by positivity), maxFin_eq hf, codeOf]
  obtain hlt | rfl | hgt : t < topExp f ∨ t = topExp f ∨ topExp f < t := by omega
  · refine iff_of_false ?_ fun hover => ?_
    · have : t * 2 ^ f.mbits + 2 ^ f.mbits ≤ topExp f * 2 ^ f.mbits := by rw [← Nat.succ_mul]; exact Nat.mul_le_mul_right _ hlt
      have := hplace.le
      omega
    · have hpast := lt_of_over hover
      have hhalf : (2 : ℝ) ^ ((t : Int) - topExp f) ≤ 2⁻¹ := by
        rw [← zpow_neg_one]
        exact zpow_le_zpow_right₀ (by norm_num) (by omega)
      have hsigR : ((2 ^ f.mbits : Nat) : ℝ) ≤ topSig f := by exact_mod_cast hsig
      nlinarith
  · rw [sub_self, zpow_zero, mul_one, Nat.add_lt_add_iff_left]
    exact rounds_over h (topSig f)
  · refine iff_of_true ?_ (over_of_ge ?_ rm neg)
    · have : topExp f * 2 ^ f.mbits + 2 ^ f.mbits ≤ t * 2 ^ f.mbits := by rw [← Nat.succ_mul]; exact Nat.mul_le_mul_right _ hgt
      have := hplace.ge (by omega)
      omega
    · have htwo : (2 : ℝ) ≤ 2 ^ ((t : Int) - topExp f) := by
        conv_lhs => rw [← zpow_one (2 : ℝ)]
        exact zpow_le_zpow_right₀ (by norm_num) (by omega)
      have hsigR : (topSig f : ℝ) + 1 ≤ 2 * (2 ^ f.mbits : Nat) := by exact_mod_cast hsig'
      have := hlow (by omega)
      nlinarith

end

/-! ### Tininess -/

/-- The rule of `IsTiny`: rounded without a bound on its exponent, the number reaches the least normal one. -/
def Reaches (rm : Nat) (least u v : ℝ) : Prop :=
  match rm with
  | 0 => least - u / 4 ≤ |v|
  | 1 => False
  | 2 => least - u / 2 < v
  | _ => least - u / 2 < -v

/-- What reaches the least normal number lies within half of it. -/
theorem reaches_near {rm : Nat} {least u v : ℝ} (h : Reaches rm least u v) (hu : 0 < u) : least - u / 2 < |v| := by
  match rm, h with
  | 0, h =>
    have h : least - u / 4 ≤ |v| := h
    linarith
  | 1, h => exact h.elim
  | 2, h => exact lt_of_lt_of_le h (le_abs_self v)
  | n + 3, h => exact lt_of_lt_of_le h (neg_le_abs v)

/-- In units of half the least subnormal, reaching the least normal number is rounding beyond the significand below it. -/
theorem reaches_iff_over {rm : Nat} {neg : Bool} {P : Nat} {X h : ℝ} (hh : 0 < h) (hX : 0 < X) (hhigh : X < 2 * (P : ℝ)) (hP : 2 ≤ P) :
    Reaches rm (2 * P * h) (2 * h) (signOf neg * (X * h)) ↔ Over rm neg (2 * P - 1) X := by
  have hM : ((2 * P - 1 : Nat) : ℝ) = 2 * P - 1 := by
    rw [Nat.cast_sub (by omega)]
    push_cast
    ring
  have hPR : (2 : ℝ) ≤ P := by exact_mod_cast hP
  have hle (a : ℝ) : a * h ≤ X * h ↔ a ≤ X := mul_le_mul_iff_left₀ hh
  have hlt (a : ℝ) : a * h < X * h ↔ a < X := mul_lt_mul_iff_left₀ hh
  have hnever (b : Prop) (hb : b → 2 * (P : ℝ) * h - 2 * h / 2 < 0) : b ↔ ((2 * P - 1 : Nat) : ℝ) + 1 ≤ X := by
    refine iff_of_false (fun hb' => ?_) (by rw [hM]; linarith)
    have := hb hb'
    nlinarith
  match rm with
  | 0 =>
    rw [over_nearest, if_pos (by omega), hM]
    show 2 * (P : ℝ) * h - 2 * h / 4 ≤ |signOf neg * (X * h)| ↔ _
    rw [signed_abs hh, abs_of_pos hX, show 2 * (P : ℝ) * h - 2 * h / 4 = (2 * P - 1 + 1 / 2) * h by ring, hle]
  | 1 => exact hnever False False.elim
  | 2 =>
    show 2 * (P : ℝ) * h - 2 * h / 2 < signOf neg * (X * h) ↔ _
    cases neg with
    | true => exact hnever _ fun hb => by simp only [signOf, if_true] at hb; nlinarith
    | false =>
      show _ ↔ ((2 * P - 1 : Nat) : ℝ) < X
      rw [hM, show 2 * (P : ℝ) * h - 2 * h / 2 = (2 * P - 1) * h by ring, show signOf false * (X * h) = X * h by simp [signOf], hlt]
  | n + 3 =>
    show 2 * (P : ℝ) * h - 2 * h / 2 < -(signOf neg * (X * h)) ↔ _
    cases neg with
    | true =>
      show _ ↔ ((2 * P - 1 : Nat) : ℝ) < X
      rw [hM, show 2 * (P : ℝ) * h - 2 * h / 2 = (2 * P - 1) * h by ring, show -(signOf true * (X * h)) = X * h by simp [signOf], hlt]
    | false => exact hnever _ fun hb => by simp only [signOf, Bool.false_eq_true, if_false] at hb; nlinarith

/-- A magnitude is tiny where it lies below the least normal number, and stays below it when it is rounded to the precision of a normal
number. -/
theorem isTiny_iff {f : Fmt} (hf : Roomy f) {rm : Nat} {neg : Bool} {V : ℝ} {top : Int} {j : Nat} (hlow : (2 : ℝ) ^ top ≤ V)
    (hhigh : V < 2 ^ (top + 1)) (h : Rounds rm neg (V / 2 ^ (top - f.mbits)) j) :
    IsTiny f rm (signOf neg * V) ↔ top < f.emin + f.mbits ∧ ¬ (top = f.emin + f.mbits - 1 ∧ j = 2 * 2 ^ f.mbits) := by
  have hP := two_pow_mbits hf
  have hV : 0 < V := lt_of_lt_of_le (by positivity) hlow
  have hleast : (2 : ℝ) ^ (1 - (f.bias : Int)) = 2 * (2 ^ f.mbits : Nat) * 2 ^ (f.emin - 1) := by
    have hexp : 1 - (f.bias : Int) = 1 + f.mbits + (f.emin - 1) := by
      rw [Fmt.emin]
      ring
    rw [hexp, zpow_add₀ (by norm_num), zpow_add₀ (by norm_num), zpow_one, zpow_natCast]
    push_cast
    rfl
  have hunit : (2 : ℝ) ^ (1 - (f.bias : Int) - f.mbits) = 2 * 2 ^ (f.emin - 1) := by
    rw [← Fmt.emin, show f.emin = 1 + (f.emin - 1) by ring, zpow_add₀ (by norm_num), zpow_one, add_sub_cancel_left]
  have hnormal : (2 : ℝ) ^ (1 - (f.bias : Int)) = 2 ^ (f.emin + f.mbits) := by
    rw [Fmt.emin]
    congr 1
    ring
  have hbelow : V < 2 ^ (f.emin + f.mbits) ↔ top < f.emin + f.mbits := by
    constructor
    · exact fun hlt => (zpow_lt_zpow_iff_right₀ (by norm_num : (1 : ℝ) < 2)).mp (lt_of_le_of_lt hlow hlt)
    · exact fun hlt => lt_of_lt_of_le hhigh (zpow_le_zpow_right₀ (by norm_num) (by omega))
  have htiny : IsTiny f rm (signOf neg * V) ↔ top < f.emin + f.mbits ∧
      ¬ Reaches rm (2 * (2 ^ f.mbits : Nat) * 2 ^ (f.emin - 1)) (2 * 2 ^ (f.emin - 1)) (signOf neg * V) := by
    have hrule : IsTiny f rm (signOf neg * V) ↔ |signOf neg * V| < (2 : ℝ) ^ (1 - (f.bias : Int)) ∧
        ¬ Reaches rm (2 ^ (1 - (f.bias : Int))) (2 ^ (1 - (f.bias : Int) - f.mbits)) (signOf neg * V) := Iff.rfl
    rw [hrule, abs_signOf_mul, abs_of_pos hV, ← hbelow, ← hleast, ← hunit, hnormal]
  rw [htiny]
  refine and_congr_right fun htop => not_congr ?_
  have hh : (0 : ℝ) < 2 ^ (f.emin - 1) := by positivity
  by_cases heq : top = f.emin + f.mbits - 1
  · have hplace : top - f.mbits = f.emin - 1 := by omega
    rw [hplace] at h
    have hVX : V = V / 2 ^ (f.emin - 1) * 2 ^ (f.emin - 1) := (div_mul_cancel₀ _ hh.ne').symm
    have hXhigh : V / 2 ^ (f.emin - 1) < 2 * ((2 ^ f.mbits : Nat) : ℝ) := by
      rw [div_lt_iff₀ hh, ← hleast, hnormal]
      exact hbelow.mpr htop
    have hj : j ≤ 2 * 2 ^ f.mbits := rounds_le h (by push_cast; push_cast at hXhigh; exact hXhigh.le)
    rw [hVX, reaches_iff_over hh (by positivity) hXhigh hP, ← rounds_over h, and_iff_right heq]
    omega
  · refine iff_of_false (fun hreach => ?_) fun hand => heq hand.1
    have hnear := reaches_near hreach (by positivity)
    rw [abs_signOf_mul, abs_of_pos hV] at hnear
    have hVhigh : V < 2 ^ f.mbits * 2 ^ (f.emin - 1) := by
      refine lt_of_lt_of_le hhigh ?_
      rw [← zpow_natCast, ← zpow_add₀ (by norm_num)]
      exact zpow_le_zpow_right₀ (by norm_num) (by omega)
    have hPR : (2 : ℝ) ≤ 2 ^ f.mbits := by exact_mod_cast hP
    push_cast at hnear
    nlinarith

/-! ### The model's rounding -/

/-- The exponent of a magnitude. -/
def topOf (m : Nat) (e : Int) : Int := e + (Nat.log2 m : Nat)

/-- The place, above that of the subnormals, on which the model rounds a magnitude. -/
def placeOf (f : Fmt) (m : Nat) (e : Int) : Nat := (max (topOf m e - f.mbits) f.emin - f.emin).toNat

theorem placeOf_eq (f : Fmt) (m : Nat) (e : Int) : max (topOf m e - f.mbits) f.emin = f.emin + placeOf f m e := by
  rw [placeOf]
  omega

/-- The model's test for a tiny number. -/
def staysTiny (f : Fmt) (rm : Nat) (neg : Bool) (m : Nat) (e : Int) : Bool :=
  topOf m e < f.emin + f.mbits &&
    !(topOf m e == f.emin + f.mbits - 1 && (onGrid rm neg m e (topOf m e - f.mbits) false).1 == 2 ^ (f.mbits + 1))

/-- What the model makes of a magnitude rounded to `r` on the place `t`. -/
def packedCode (f : Fmt) (rm : Nat) (ftz neg : Bool) (t : Nat) (r : Nat × Bool) (tiny : Bool) : Nat × BitVec 6 :=
  if f.maxFin < codeOf f t r.1 then (f.overflow rm neg, fOF ||| fNX)
  else if ftz && codeOf f t r.1 != 0 && codeOf f t r.1 < 2 ^ f.mbits then (f.zero neg, fUF ||| fNX)
  else (f.signed neg (codeOf f t r.1), (if r.2 then fNX else 0) ||| (if r.2 && tiny then fUF else 0))

theorem round_eq (f : Fmt) (rm : Nat) (ftz neg : Bool) {m : Nat} (hm : m ≠ 0) (e : Int) : f.round rm ftz neg m e false =
    packedCode f rm ftz neg (placeOf f m e) (onGrid rm neg m e (f.emin + placeOf f m e) false) (staysTiny f rm neg m e) := by
  rw [← placeOf_eq]
  unfold Fmt.round
  rw [if_neg (by simpa using hm)]
  rfl

theorem topOf_bounds {m : Nat} (hm : m ≠ 0) (e : Int) :
    (2 : ℝ) ^ topOf m e ≤ m * 2 ^ e ∧ (m : ℝ) * 2 ^ e < 2 ^ (topOf m e + 1) := by
  have hlow : ((2 ^ Nat.log2 m : Nat) : ℝ) ≤ m := by exact_mod_cast Nat.log2_self_le hm
  have hhigh : (m : ℝ) < ((2 ^ (Nat.log2 m + 1) : Nat) : ℝ) := by exact_mod_cast Nat.lt_log2_self
  have hpos : (0 : ℝ) < 2 ^ e := by positivity
  push_cast at hlow hhigh
  rw [topOf]
  constructor
  · rw [add_comm, zpow_add₀ (by norm_num), zpow_natCast]
    exact mul_le_mul_of_nonneg_right hlow hpos.le
  · rw [add_assoc, add_comm, zpow_add₀ (by norm_num), ← Nat.cast_succ, zpow_natCast]
    exact mul_lt_mul_of_pos_right hhigh hpos

/-- A nonzero magnitude in units of the place on which it is rounded. -/
structure Placed (f : Fmt) (t : Nat) (X : ℝ) : Prop where
  pos  : 0 < X
  low  : 0 < t → ((2 ^ f.mbits : Nat) : ℝ) ≤ X
  high : X < 2 * (2 ^ f.mbits : Nat)

theorem placed_placeOf (f : Fmt) {m : Nat} (hm : m ≠ 0) (e : Int) :
    Placed f (placeOf f m e) ((m : ℝ) * 2 ^ (e - (f.emin + placeOf f m e))) := by
  obtain ⟨hlow, hhigh⟩ := topOf_bounds hm e
  have hplace := placeOf_eq f m e
  have hU : (0 : ℝ) < 2 ^ (f.emin + placeOf f m e) := by positivity
  have hX : (m : ℝ) * 2 ^ (e - (f.emin + placeOf f m e)) = m * 2 ^ e / 2 ^ (f.emin + placeOf f m e) := by
    rw [zpow_sub₀ (by norm_num), mul_div_assoc]
  have hmpos : (0 : ℝ) < m := by exact_mod_cast Nat.pos_of_ne_zero hm
  refine ⟨by positivity, fun ht => ?_, ?_⟩
  · rw [hX, le_div_iff₀ hU]
    push_cast
    rw [← zpow_natCast, ← zpow_add₀ (by norm_num)]
    refine le_trans (zpow_le_zpow_right₀ (by norm_num) ?_) hlow
    omega
  · rw [hX, div_lt_iff₀ hU]
    push_cast
    rw [← zpow_natCast, mul_assoc, ← zpow_add₀ (by norm_num), ← zpow_one_add₀ (by norm_num)]
    refine lt_of_lt_of_le hhigh (zpow_le_zpow_right₀ (by norm_num) ?_)
    omega

theorem staysTiny_iff {f : Fmt} (hf : Roomy f) (rm : Nat) (neg : Bool) {m : Nat} (hm : m ≠ 0) (e : Int) :
    staysTiny f rm neg m e = true ↔ IsTiny f rm (signOf neg * (m * 2 ^ e)) := by
  obtain ⟨hlow, hhigh⟩ := topOf_bounds hm e
  obtain ⟨hrounds, -⟩ := onGrid_rounds rm neg m e (topOf m e - f.mbits)
  rw [zpow_sub₀ (by norm_num), ← mul_div_assoc] at hrounds
  rw [isTiny_iff hf hlow hhigh hrounds, staysTiny, Nat.pow_succ, Nat.mul_comm]
  simp only [Bool.and_eq_true, decide_eq_true_eq, Bool.not_eq_true', Bool.and_eq_false_iff, beq_eq_false_iff_ne, not_and_or, ne_eq]

theorem roundsTo_packedCode {f : Fmt} (hf : Roomy f) {rm : Nat} (ftz : Bool) {neg : Bool} {X : ℝ} {t : Nat} {r : Nat × Bool} {tiny : Bool}
    (hX : Placed f t X) (hr : Rounds rm neg X r.1) (hexact : r.2 = true ↔ X ≠ r.1)
    (htiny : tiny = true ↔ IsTiny f rm (signOf neg * (X * 2 ^ (f.emin + t)))) :
    RoundsTo f rm ftz (signOf neg * (X * 2 ^ (f.emin + t))) (packedCode f rm ftz neg t r tiny) := by
  obtain ⟨j, inexact⟩ := r
  obtain ⟨hpos, hlow, hhigh⟩ := hX
  have hU : (0 : ℝ) < 2 ^ (f.emin + t) := by positivity
  have hplace : OnPlace f t j := ⟨rounds_le hr (by push_cast; push_cast at hhigh; exact hhigh.le), fun ht => le_rounds hr (hlow ht)⟩
  have hover := maxFin_lt_code_iff hf hr hplace hlow hhigh hpos
  have hsign : decide (signOf neg * (X * 2 ^ (f.emin + t)) < 0) = neg := signOf_lt_zero (by positivity) neg
  refine ⟨fun h => ?_, fun h => ⟨_, isRounding_of_rounds hf hpos hlow hr hplace (Nat.not_lt.mp (mt hover.mp h)), ?_, ?_⟩⟩
  · rw [packedCode, if_pos (hover.mpr h), overflow_eq_overflowOf hf, hsign]
    rfl
  all_goals
    have hfin : codeOf f t j ≤ f.maxFin := Nat.not_lt.mp (mt hover.mp h)
    obtain ⟨-, -, hmag, -⟩ := signed_fields (lt_of_le_of_lt hfin (maxFin_lt_signBit hf)) neg
    have hsub : (codeOf f t j != 0 && decide (codeOf f t j < 2 ^ f.mbits)) = true ↔ isSubnormal f (f.signed neg (codeOf f t j)) := by
      rw [← subnormal_iff, Fmt.subnormal, hmag]
    rw [packedCode, if_neg (Nat.not_lt.mpr hfin), Bool.and_assoc]
  · rintro ⟨hftz, hs⟩
    rw [if_pos (by rw [hftz, hsub.mpr hs]; rfl), hsign]
    rfl
  · intro hs
    rw [if_neg (by rw [Bool.and_eq_true, hsub]; exact hs)]
    have hvalue := code_value hf hplace hfin neg
    have hsame : IsValue f (f.signed neg (codeOf f t j)) (signOf neg * (X * 2 ^ (f.emin + t))) ↔ inexact = false := by
      rw [← Bool.not_eq_true, hexact, not_not]
      constructor
      · intro h
        have heq := isValue_unique h hvalue
        have hdist := signed_dist hU neg X j
        rw [heq, sub_self, abs_zero] at hdist
        have := (mul_eq_zero.mp hdist.symm).resolve_right hU.ne'
        exact sub_eq_zero.mp (abs_eq_zero.mp this)
      · intro h
        rw [h]
        exact hvalue
    refine ⟨rfl, fun h => ?_, fun h => ⟨fun ht => ?_, fun ht => ?_⟩⟩
    · simp [hsame.mp h]
    · rw [hsame, Bool.not_eq_false] at h
      simp [h, htiny.mpr ht, fNX, fUF]
    · rw [hsame, Bool.not_eq_false] at h
      simp [h, show tiny = false by rw [← Bool.not_eq_true, htiny]; exact ht, fNX]

/-- Rounding an exact number gives the code and the flags of the number rounded once. -/
theorem round_roundsTo {f : Fmt} (hf : Roomy f) (rm : Nat) (ftz neg : Bool) {m : Nat} (hm : m ≠ 0) (e : Int) :
    RoundsTo f rm ftz (signOf neg * (m * 2 ^ e)) (f.round rm ftz neg m e false) := by
  have hV : (m : ℝ) * 2 ^ e = m * 2 ^ (e - (f.emin + placeOf f m e)) * 2 ^ (f.emin + placeOf f m e) := by
    rw [mul_assoc, ← zpow_add₀ (by norm_num), sub_add_cancel]
  have htiny := staysTiny_iff hf rm neg hm e
  obtain ⟨hrounds, hexact⟩ := onGrid_rounds rm neg m e (f.emin + placeOf f m e)
  rw [round_eq f rm ftz neg hm]
  rw [hV] at htiny ⊢
  exact roundsTo_packedCode hf ftz (placed_placeOf f hm e) hrounds hexact htiny

end Sys2Proof.Proofs
end

