-- ==== Sys2Proof/Proofs/Conversions.lean ====
section
/-! `SETP` and `CVT` (R39, R60, R108, R111): what they compare and convert, and how a conversion rounds. -/

namespace Sys2Proof.Proofs

open Sys2Proof.Machine Sys2Proof.Says Sys2Proof.Laws

/-! ### Comparison -/

theorem compareAs_eq_ordered (m : BitVec 4) (type : BitVec 3) (a b : Word) : compareAs m type a b = ordered type m a b := by
  have hnat (x : Word) : (half x 0).toNat = x.toNat % 65536 := by
    simp [half, BitVec.extractLsb'_toNat]
  unfold compareAs ordered
  rw [hnat, hnat]
  rfl

theorem relation_eq_related (cond : BitVec 3) (o : Option Ordering) : relation cond o = related cond o := by
  have h : ∀ (c : BitVec 3) (o : Option Ordering), o ∈ [none, some .lt, some .eq, some .gt] → relation c o = related c o := by decide
  refine h cond o ?_
  match o with
  | none => simp
  | some .lt => simp
  | some .eq => simp
  | some .gt => simp

theorem setP_preds {d : BitVec 3} (hd : d ≠ 7) (b : Bool) (t : Thread) {i : Nat} (hi : i < 7) :
    (t.setP d b).preds.getLsbD i = if i = d.toNat then b else t.preds.getLsbD i := by
  have hne : (d == 7) = false := by simpa using hd
  rw [Thread.setP, hne, if_neg (by decide)]
  by_cases h : i = d.toNat
  · subst h
    cases b <;> simp [hi]
  · by_cases hlt : i < d.toNat
    · cases b <;> simp [hi, h, hlt]
    · have hsub : i - d.toNat ≠ 0 := by omega
      cases b <;> simp [hi, h, hlt, hsub]

theorem setP_rest (d : BitVec 3) (b : Bool) (t : Thread) : t.setP d b = { t with preds := (t.setP d b).preds } := by
  unfold Thread.setP
  split <;> rfl

theorem claims_comparePredicate : Claims.ComparePredicate := by
  intro f s hwf
  have hd : f.pdst ≠ 7 := by
    simp only [Instr.wf, Bool.and_eq_true, bne_iff_ne] at hwf
    exact hwf.1.1
  refine ⟨_, rfl, each_only s _ _, eachThread_mono (each_threads s _ _) ?_⟩
  rintro a b rfl
  dsimp only
  rw [if_pos rfl, compareAs_eq_ordered, relation_eq_related]
  have hnext (q : Bool) (fl : BitVec 6) : ((a.setP f.pdst q).orFlags fl).next =
      { a.next with preds := (a.setP f.pdst q).preds, fstat := a.fstat ||| fl } := by
    rw [setP_rest]
    exact next_withP a _ (a.fstat ||| fl)
  rw [hnext]
  exact ⟨fun i hi => setP_preds hd _ a hi, rfl⟩

/-! ### The words -/

theorem writesV_convertAll {i : Instr} {s : State} {dst : BitVec 6} {a : BitVec 7} {spec : Thread → Nat × Nat × Nat × Bool}
    (h : exec i s = .next (s.convertAll dst a spec)) : WritesV i s always dst
      (fun t => (convert (modeFtz (s.mode t)) (spec t).1 (spec t).2.1 (spec t).2.2.1 (spec t).2.2.2 (s.src t a)).1)
      (fun t => (convert (modeFtz (s.mode t)) (spec t).1 (spec t).2.1 (spec t).2.2.1 (spec t).2.2.2 (s.src t a)).2) :=
  ⟨_, h, writeVF_spec s (fun _ => true) dst _⟩

theorem claims_conversions : Claims.Conversions := by
  refine ⟨fun f s => ?_, fun f s => ?_, fun f s => ?_⟩
  · exact writesV_convertAll (spec := fun _ => (f.stype.toNat, f.dtype.toNat, f.rnd.toNat, f.sat)) rfl
  · exact writesV_convertAll (spec := fun t => (slotType (recSlot (s.recordOf t.tid) f.slot.toNat), f.dtype.toNat, 0, true)) rfl
  · exact writesV_convertAll (spec := fun t => (f.stype.toNat, slotType (recSlot (s.recordOf t.tid) f.slot.toNat), 0, true)) rfl

/-! ### Integer types -/

theorem cvtBits_eq (t : Nat) : [8, 16, 32].getD (t % 3) 32 = cvtBits t := by
  unfold cvtBits
  obtain h | h | h : t % 3 = 0 ∨ t % 3 = 1 ∨ t % 3 = 2 := by omega
  · rw [h]; rfl
  · rw [h]; rfl
  · rw [h]; rfl

theorem cvtBits_pos (t : Nat) : 0 < cvtBits t := by
  unfold cvtBits
  split <;> omega

theorem cvtBits_le (t : Nat) : cvtBits t ≤ 32 := by
  unfold cvtBits
  split <;> omega

theorem cvtLo_eq (t : Nat) : cvtLo t = if t < 3 then -(2 ^ (cvtBits t - 1)) else 0 := by
  rw [cvtLo, cvtSigned]
  push_cast
  simp only [decide_eq_true_eq]

theorem cvtHi_eq (t : Nat) : cvtHi t = if t < 3 then 2 ^ (cvtBits t - 1) - 1 else 2 ^ cvtBits t - 1 := by
  rw [cvtHi, cvtSigned]
  push_cast
  simp only [decide_eq_true_eq]

theorem cvtInt_eq (t : Nat) (x : Word) : cvtInt t x = if t < 3 then (x.setWidth (cvtBits t)).toInt else (x.setWidth (cvtBits t)).toNat := by
  have hsext : sext x.toNat (cvtBits t) = (x.setWidth (cvtBits t)).toInt := by
    rw [← sext_toNat _ (cvtBits_pos t), BitVec.toNat_setWidth, sext, sext, Nat.mod_mod]
  rw [cvtInt, cvtSigned, hsext, BitVec.toNat_setWidth]
  simp only [decide_eq_true_eq]

theorem cvtOut_eq (t : Nat) (v : Int) :
    cvtOut t v = if t < 3 then (BitVec.ofInt (cvtBits t) v).signExtend 32 else (BitVec.ofInt (cvtBits t) v).setWidth 32 := by
  have hnat : (v % (2 ^ cvtBits t : Nat)).toNat = (BitVec.ofInt (cvtBits t) v).toNat := (BitVec.toNat_ofInt ..).symm
  rw [cvtOut, cvtOut.cvtIntWord, cvtSigned, hnat, sext_toNat _ (cvtBits_pos t)]
  refine if_congr decide_eq_true_iff rfl (BitVec.eq_of_toNat_eq ?_)
  rw [BitVec.toNat_ofNat, BitVec.toNat_setWidth]

theorem cvtFmt_int {t : Nat} (h : t < 6) : cvtFmt t = none := by
  interval_cases t <;> rfl

theorem claims_integerConversion : Claims.IntegerConversion := by
  intro ftz sat st dt rnd x hst hdt
  dsimp only
  rw [cvtBits_eq, cvtBits_eq, ← cvtInt_eq, ← cvtLo_eq, ← cvtHi_eq, ← cvtOut_eq, ← cvtOut_eq, ← cvtOut_eq]
  unfold convert
  rw [cvtFmt_int hst, cvtFmt_int hdt]
  simp only [Bool.and_eq_true, decide_eq_true_eq]
  rfl

/-! ### The order of floats -/

/-- A code that is no NaN and no infinity is an operand of some value. -/
theorem exists_operand {f : Fmt} {c : Nat} (ftz : Bool) (hnan : ¬ isNan f c) (hinf : ¬ isInf f c) : ∃ x, IsOperand f ftz c x := by
  by_cases h : ftz = true ∧ isSubnormal f c
  · exact ⟨0, fun _ => rfl, fun hn => absurd h hn⟩
  · exact ⟨_, fun hs => absurd hs h, fun _ => isValue_iff.mpr ⟨hnan, hinf, rfl⟩⟩

section
variable {f : Fmt} (hf : Roomy f) (ftz : Bool) {c : Nat}
include hf

theorem readFtz_isNan_iff : (f.readFtz ftz c).isNan = true ↔ isNan f c := by
  by_cases hnan : isNan f c
  · obtain ⟨sig, hread, -⟩ := readFtz_isNan hf ftz hnan
    rw [hread]
    exact iff_of_true rfl hnan
  · refine iff_of_false ?_ hnan
    by_cases hinf : isInf f c
    · rw [readFtz_isInf hf ftz hinf]
      exact Bool.false_ne_true
    · obtain ⟨x, hx⟩ := exists_operand ftz hnan hinf
      obtain ⟨m, e, hread, -⟩ := operand_readFtz hf hx
      rw [hread]
      exact Bool.false_ne_true

theorem readFtz_snan_iff : (f.readFtz ftz c).snan = true ↔ isSignalling f c := by
  by_cases hnan : isNan f c
  · obtain ⟨sig, hread, hsig⟩ := readFtz_isNan hf ftz hnan
    rw [hread, ← hsig]
    cases sig <;> simp [FVal.snan]
  · refine iff_of_false (fun h => hnan ((readFtz_isNan_iff hf ftz).mp ?_)) fun h => hnan h.2.1
    generalize f.readFtz ftz c = v at h
    cases v with
    | nan sig => rfl
    | inf neg => cases h
    | fin neg m e => cases h

end

/-- The order of two codes neither of which is a NaN. -/
theorem order_fst {f : Fmt} (hf : Roomy f) {ftz : Bool} {a b : Nat} (ha : ¬ isNan f a) (hb : ¬ isNan f b) :
    (f.order ftz a b).1 = some ((f.readFtz ftz a).cmp (f.readFtz ftz b)) := by
  have ha' : (f.readFtz ftz a).isNan = false := by rw [← Bool.not_eq_true, readFtz_isNan_iff hf]; exact ha
  have hb' : (f.readFtz ftz b).isNan = false := by rw [← Bool.not_eq_true, readFtz_isNan_iff hf]; exact hb
  rw [Fmt.order]
  dsimp only
  rw [ha', hb']
  rfl

theorem not_isNan_of_operand {f : Fmt} (hf : Roomy f) {ftz : Bool} {c : Nat} {x : ℝ} (h : IsOperand f ftz c x) : ¬ isNan f c := by
  rw [← readFtz_isNan_iff hf ftz]
  obtain ⟨m, e, hread, -⟩ := operand_readFtz hf h
  rw [hread]
  exact Bool.false_ne_true

theorem not_isNan_of_isInf {f : Fmt} (hf : Roomy f) {c : Nat} (h : isInf f c) : ¬ isNan f c := by
  rw [← readFtz_isNan_iff hf false, readFtz_isInf hf false h]
  exact Bool.false_ne_true

theorem claims_floatOrder : Claims.FloatOrder := by
  intro f hfmt ftz a b
  have hf : Roomy f := by
    simp only [List.mem_cons, List.not_mem_nil, or_false] at hfmt
    rcases hfmt with rfl | rfl | rfl
    · exact roomy_F32
    · exact roomy_F16
    · exact roomy_BF16
  refine ⟨?_, ?_, fun x y hx hy => ?_, fun ha hb => ?_, fun y ha hy => ?_, fun x hx hb => ?_⟩
  · rw [Fmt.order]
    dsimp only
    rw [← readFtz_isNan_iff hf ftz, ← readFtz_isNan_iff hf ftz, ← Bool.or_eq_true]
    split
    · next h => exact iff_of_true rfl h
    · next h => exact iff_of_false (Option.some_ne_none _) h
  · rw [← readFtz_snan_iff hf ftz, ← readFtz_snan_iff hf ftz, ← Bool.or_eq_true]
    rfl
  · rw [order_fst hf (not_isNan_of_operand hf hx) (not_isNan_of_operand hf hy)]
    obtain ⟨m, e, hread, rfl⟩ := operand_readFtz hf hx
    obtain ⟨n, d, hread', rfl⟩ := operand_readFtz hf hy
    rw [hread, hread']
    obtain ⟨hlt, heq, hgt⟩ := cmp_fin (negative f a) (negative f b) m n e d
    exact ⟨fun h => congrArg some (hlt h), fun h => congrArg some (heq h), fun h => congrArg some (hgt h)⟩
  · rw [order_fst hf (not_isNan_of_isInf hf ha) (not_isNan_of_isInf hf hb), readFtz_isInf hf ftz ha, readFtz_isInf hf ftz hb]
    cases negative f a <;> cases negative f b <;> rfl
  · rw [order_fst hf (not_isNan_of_isInf hf ha) (not_isNan_of_operand hf hy), readFtz_isInf hf ftz ha]
    obtain ⟨n, d, hread, -⟩ := operand_readFtz hf hy
    rw [hread]
    rfl
  · rw [order_fst hf (not_isNan_of_operand hf hx) (not_isNan_of_isInf hf hb), readFtz_isInf hf ftz hb]
    obtain ⟨m, e, hread, -⟩ := operand_readFtz hf hx
    rw [hread]
    rfl

end Sys2Proof.Proofs
end

