-- ==== Sys2Proof/Proofs/FloatConversions.lean ====
section
/-! `CVT` to and from the float types (R60, Table 3.4): the exact value of the source is rounded once, and what does not fit saturates. -/

namespace Sys2Proof.Proofs

open Sys2Proof.Machine Sys2Proof.Says Sys2Proof.Laws

/-! ### Rounding to an integer -/

/-- The integer of a sign and a magnitude. -/
def signedInt (neg : Bool) (j : Nat) : Int := if neg then -(j : Int) else j

theorem cast_signedInt (neg : Bool) (j : Nat) : (signedInt neg j : ℝ) = signOf neg * j := by
  cases neg <;> simp [signedInt, signOf]

theorem signedInt_mod_two {neg : Bool} {j : Nat} (h : j % 2 = 0) : signedInt neg j % 2 = 0 := by
  unfold signedInt
  split <;> omega

/-- Two integers to which a number rounds are one. -/
theorem roundsToInt_unique {rm : Nat} {x : ℝ} {a b : Int} (ha : RoundsToInt rm x a) (hb : RoundsToInt rm x b) : a = b := by
  match rm with
  | 0 =>
    obtain ⟨hanear, haeven⟩ : |x - a| ≤ 1 / 2 ∧ (|x - a| = 1 / 2 → a % 2 = 0) := ha
    obtain ⟨hbnear, hbeven⟩ : |x - b| ≤ 1 / 2 ∧ (|x - b| = 1 / 2 → b % 2 = 0) := hb
    obtain ⟨halow, hahigh⟩ := abs_le.mp hanear
    obtain ⟨hblow, hbhigh⟩ := abs_le.mp hbnear
    have hab : a ≤ b + 1 := by exact_mod_cast (by linarith : (a : ℝ) ≤ b + 1)
    have hba : b ≤ a + 1 := by exact_mod_cast (by linarith : (b : ℝ) ≤ a + 1)
    have htie (h : |x - a| = 1 / 2) (h' : |x - b| = 1 / 2) : a % 2 = 0 ∧ b % 2 = 0 := ⟨haeven h, hbeven h'⟩
    obtain rfl | rfl | h : a = b + 1 ∨ b = a + 1 ∨ a = b := by omega
    · push_cast at halow hahigh htie
      have := htie (by rw [abs_of_neg (by linarith)]; linarith) (by rw [abs_of_pos (by linarith)]; linarith)
      omega
    · push_cast at hblow hbhigh htie
      have := htie (by rw [abs_of_pos (by linarith)]; linarith) (by rw [abs_of_neg (by linarith)]; linarith)
      omega
    · exact h
  | 1 => exact Eq.trans ha (Eq.symm hb)
  | 2 => exact Eq.trans ha (Eq.symm hb)
  | n + 3 => exact Eq.trans ha (Eq.symm hb)

theorem floor_of_below {X : ℝ} {j : Nat} (hlow : (j : ℝ) ≤ X) (hhigh : X < j + 1) : ⌊X⌋ = j := by
  rw [Int.floor_eq_iff]
  push_cast
  exact ⟨hlow, hhigh⟩

theorem ceil_of_above {X : ℝ} {j : Nat} (hlow : X ≤ j) (hhigh : (j : ℝ) < X + 1) : ⌈X⌉ = j := by
  rw [Int.ceil_eq_iff]
  push_cast
  exact ⟨by linarith, hlow⟩

/-- A rounded magnitude with its sign is the rounded number. -/
theorem roundsToInt_of_rounds {rm : Nat} {neg : Bool} {X : ℝ} {j : Nat} (hX : 0 ≤ X) (h : Rounds rm neg X j) :
    RoundsToInt rm (signOf neg * X) (signedInt neg j) := by
  match rm with
  | 0 =>
    obtain ⟨hnear, heven⟩ := h
    have hdist : |signOf neg * X - signedInt neg j| = |X - j| := by rw [cast_signedInt, ← mul_sub, abs_signOf_mul]
    rw [← hdist] at hnear heven
    exact ⟨hnear, fun ht => signedInt_mod_two (heven ht)⟩
  | 1 =>
    obtain ⟨hlow, hhigh⟩ := h
    have hfloor := floor_of_below hlow hhigh
    show signedInt neg j = if 0 ≤ signOf neg * X then ⌊signOf neg * X⌋ else ⌈signOf neg * X⌉
    cases neg with
    | false =>
      have hv : signOf false * X = X := by simp [signOf]
      rw [hv, if_pos hX, hfloor]
      rfl
    | true =>
      have hv : signOf true * X = -X := by simp [signOf]
      rw [hv, Int.ceil_neg, hfloor]
      split
      · next h0 =>
        have hX0 : X = 0 := by linarith
        rw [hX0, Int.floor_zero] at hfloor
        rw [hX0, neg_zero, Int.floor_zero, signedInt, if_pos rfl, ← hfloor, neg_zero]
      · rfl
  | 2 =>
    show signedInt neg j = ⌈signOf neg * X⌉
    cases neg with
    | false =>
      have hv : signOf false * X = X := by simp [signOf]
      rw [hv, ceil_of_above h.1 h.2]
      rfl
    | true =>
      have hv : signOf true * X = -X := by simp [signOf]
      rw [hv, Int.ceil_neg, floor_of_below h.1 h.2]
      rfl
  | n + 3 =>
    show signedInt neg j = ⌊signOf neg * X⌋
    cases neg with
    | false =>
      have hv : signOf false * X = X := by simp [signOf]
      rw [hv, floor_of_below h.1 h.2]
      rfl
    | true =>
      have hv : signOf true * X = -X := by simp [signOf]
      rw [hv, Int.floor_neg, ceil_of_above h.1 h.2]
      rfl

/-- What the model rounds a float to, and whether that is inexact. -/
theorem toIntRound_eq {rm : Nat} {neg : Bool} {m : Nat} {e n : Int} (h : RoundsToInt rm (signOf neg * (m * 2 ^ e)) n) :
    (toIntRound rm neg m e).1 = n ∧ ((toIntRound rm neg m e).2 = true ↔ signOf neg * (m * 2 ^ e) ≠ n) := by
  obtain ⟨hrounds, hinexact⟩ := onGrid_rounds rm neg m e 0
  rw [sub_zero] at hrounds hinexact
  have hn : signedInt neg (onGrid rm neg m e 0 false).1 = n := roundsToInt_unique (roundsToInt_of_rounds (by positivity) hrounds) h
  have hsign : signOf neg ≠ 0 := by cases neg <;> simp [signOf]
  refine ⟨hn, hinexact.trans (not_congr ?_)⟩
  rw [← hn, cast_signedInt, mul_right_inj' hsign]

/-! ### The float types -/

/-- A float type's number and its format. -/
structure IsFormat (t : Nat) (f : Fmt) : Prop where
  fmt : cvtFmt t = some f
  roomy : Roomy f
  wide : (f.ebits == 8) = (t == 6 || t == 8)
  inf : f.inf = (t != 9)

theorem isFormat_of_mem {g : Nat × Fmt} (h : g ∈ [(6, F32), (7, F16), (8, BF16), (9, E4M3)]) : IsFormat g.1 g.2 := by
  simp only [List.mem_cons, List.not_mem_nil, or_false] at h
  rcases h with rfl | rfl | rfl | rfl
  · exact ⟨rfl, roomy_F32, rfl, rfl⟩
  · exact ⟨rfl, roomy_F16, rfl, rfl⟩
  · exact ⟨rfl, roomy_BF16, rfl, rfl⟩
  · exact ⟨rfl, roomy_E4M3, rfl, rfl⟩

theorem two_signBit (f : Fmt) : 2 * f.signBit = 2 ^ (f.ebits + f.mbits + 1) := by rw [Nat.pow_succ, Nat.mul_comm]; rfl

/-- Where an infinity is exact: not into FP8, and into the source's type or binary32. -/
theorem exact_iff {s d : Nat} (hs : s ∈ [6, 7, 8]) (hd : d ∈ [6, 7, 8, 9]) :
    (exactOrFixed (BitVec.ofNat 4 s) (BitVec.ofNat 4 d) && d != 9) = true ↔ d ≠ 9 ∧ (s = d ∨ d = 6) := by
  have h : ∀ s ∈ [6, 7, 8], ∀ d ∈ [6, 7, 8, 9],
      (exactOrFixed (BitVec.ofNat 4 s) (BitVec.ofNat 4 d) && d != 9) = true ↔ d ≠ 9 ∧ (s = d ∨ d = 6) := by decide
  exact h s hs d hd

/-! ### Float to integer -/

/-- A source that is out of the range of its integer type. -/
def clamped (t : Nat) (sat : Bool) (v : Int) : Word × BitVec 6 := (cvtOut t v, fNV ||| (if sat then fSAT else 0))

section
variable {s : Nat} {g : Fmt} (hg : IsFormat s g) {t : Nat} (ht : t < 6) (ftz sat : Bool) {rnd : Nat} {w : Word}
include hg ht

theorem convert_floatInt : convert ftz s t rnd sat w =
    match g.read (w.toNat % 2 ^ (g.ebits + g.mbits + 1)) with
    | .nan _ => (0, fNV ||| (if sat then fSAT else 0))
    | .inf neg => clamped t sat (if neg then cvtLo t else cvtHi t)
    | .fin neg m e =>
      if (toIntRound rnd neg m e).1 < cvtLo t then clamped t sat (cvtLo t)
      else if cvtHi t < (toIntRound rnd neg m e).1 then clamped t sat (cvtHi t)
      else (cvtOut t (toIntRound rnd neg m e).1, if (toIntRound rnd neg m e).2 then fNX else 0) := by
  rw [← two_signBit, convert, hg.fmt, cvtFmt_int ht]
  rfl

theorem convert_nanInt (h : isNan g (w.toNat % 2 ^ (g.ebits + g.mbits + 1))) :
    convert ftz s t rnd sat w = (0, fNV ||| (if sat then fSAT else 0)) := by
  obtain ⟨sig, hread, -⟩ := read_isNan hg.roomy h
  rw [convert_floatInt hg ht, hread]

theorem convert_infInt (h : isInf g (w.toNat % 2 ^ (g.ebits + g.mbits + 1))) : convert ftz s t rnd sat w =
    clamped t sat (if negative g (w.toNat % 2 ^ (g.ebits + g.mbits + 1)) then cvtLo t else cvtHi t) := by
  rw [convert_floatInt hg ht, read_isInf h]

theorem convert_valueInt {x : ℝ} {n : Int} (h : IsValue g (w.toNat % 2 ^ (g.ebits + g.mbits + 1)) x) (hn : RoundsToInt rnd x n) :
    (n < cvtLo t → convert ftz s t rnd sat w = clamped t sat (cvtLo t)) ∧
    (cvtHi t < n → convert ftz s t rnd sat w = clamped t sat (cvtHi t)) ∧
    (cvtLo t ≤ n → n ≤ cvtHi t → (convert ftz s t rnd sat w).1 = cvtOut t n ∧
      (x = n → (convert ftz s t rnd sat w).2 = 0) ∧ (x ≠ n → (convert ftz s t rnd sat w).2 = fNX)) := by
  have hrange : cvtLo t ≤ cvtHi t := by interval_cases t <;> decide
  obtain ⟨hnan, hinf, rfl⟩ := isValue_iff.mp h
  obtain ⟨hint, hinexact⟩ := toIntRound_eq hn
  rw [convert_floatInt hg ht, read_fin hg.roomy hnan hinf]
  dsimp only
  rw [hint]
  refine ⟨fun hlow => if_pos hlow, fun hhigh => ?_, fun hlow hhigh => ?_⟩
  · rw [if_neg (by omega), if_pos hhigh]
  · rw [if_neg (by omega), if_neg (by omega)]
    exact ⟨rfl, fun hx => if_neg (mt hinexact.mp (not_not.mpr hx)), fun hx => if_pos (hinexact.mpr hx)⟩

end

/-! ### Narrowing -/

/-- A number rounded once into a format; where it overflows and the word saturates, the greatest finite code. -/
def Narrowed (f : Fmt) (rnd : Nat) (sat flush : Bool) (v : ℝ) (r : Word × BitVec 6) : Prop :=
  ∃ q, RoundsTo f rnd flush v q ∧
    r = if sat = true ∧ q.2.getLsbD 2 = true then word32 (maxOf f (decide (v < 0)), 0b110000) else word32 q

theorem and_fOF_ne_zero (b : BitVec 6) : (b &&& fOF != 0) = true ↔ b.getLsbD 2 = true := by
  revert b
  decide

theorem narrowed_round {f : Fmt} (hf : Roomy f) (rnd : Nat) (sat flush neg : Bool) {m : Nat} (hm : m ≠ 0) (e : Int) :
    Narrowed f rnd sat flush (signOf neg * (m * 2 ^ e)) (word32 (satFloat f sat neg (f.round rnd flush neg m e false))) := by
  have hpos : (0 : ℝ) < m * 2 ^ e := mul_pos (by exact_mod_cast Nat.pos_of_ne_zero hm) (by positivity)
  refine ⟨_, round_roundsTo hf rnd flush neg hm e, ?_⟩
  rw [signOf_lt_zero hpos, ← signed_maxFin hf, satFloat, apply_ite word32]
  refine if_congr ?_ rfl rfl
  rw [Bool.and_eq_true, and_fOF_ne_zero]

theorem round_zero (f : Fmt) (rnd : Nat) (sat flush neg : Bool) (e : Int) :
    word32 (satFloat f sat neg (f.round rnd flush neg 0 e false)) = word32 (zeroOf f neg, 0) := by
  have hround : f.round rnd flush neg 0 e false = (zeroOf f neg, 0) := rfl
  have hflag : ((0 : BitVec 6) &&& fOF != 0) = false := by decide
  rw [hround, satFloat, hflag, Bool.and_false]
  rfl

/-! ### Integer to float -/

theorem convert_intFloat {s : Nat} (hs : s < 6) {t : Nat} {f : Fmt} (hf : IsFormat t f) (ftz sat : Bool) (rnd : Nat) (w : Word) :
    (cvtInt s w = 0 → convert ftz s t rnd sat w = (0, 0)) ∧
    (cvtInt s w ≠ 0 → Narrowed f rnd sat false (cvtInt s w) (convert ftz s t rnd sat w)) := by
  have hconvert : convert ftz s t rnd sat w = word32 (satFloat f sat (cvtInt s w < 0) (f.ofInt rnd (cvtInt s w))) := by
    rw [convert, cvtFmt_int hs, hf.fmt]
  rw [hconvert, Fmt.ofInt]
  generalize cvtInt s w = v
  refine ⟨fun h => ?_, fun h => ?_⟩
  · rw [h]
    exact round_zero f rnd sat false false 0
  · have hv : (v : ℝ) = signOf (decide (v < 0)) * (v.natAbs * 2 ^ (0 : Int)) := by
      rw [zpow_zero, mul_one, ← cast_signedInt]
      congr 1
      unfold signedInt
      split
      · next hneg => have := of_decide_eq_true hneg; omega
      · next hneg => have := of_decide_eq_false (Bool.not_eq_true _ ▸ hneg); omega
    rw [hv]
    exact narrowed_round hf.roomy rnd sat false _ (Int.natAbs_ne_zero.mpr h) 0

/-! ### Float to float -/

section
variable {s : Nat} {g : Fmt} (hg : IsFormat s g) {t : Nat} {f : Fmt} (hf : IsFormat t f) (ftz sat : Bool) (rnd : Nat) {w : Word}
include hg hf

theorem convert_floatFloat : convert ftz s t rnd sat w =
    match g.readFtz (ftz && (t == 6 || t == 8) && (s == 6 || s == 8)) (w.toNat % 2 ^ (g.ebits + g.mbits + 1)) with
    | .nan sig => word32 (f.qnan, if sig then fNV else 0)
    | .inf neg => word32 (cvtInf f (exactOrFixed (BitVec.ofNat 4 s) (BitVec.ofNat 4 t) && t != 9) sat neg)
    | .fin neg m e => word32 (satFloat f sat neg (f.round rnd (ftz && (t == 6 || t == 8)) neg m e false)) := by
  rw [← two_signBit, ← hg.wide, ← hf.wide, convert, hg.fmt, hf.fmt] <;> rfl

theorem convert_nanFloat (h : isNan g (w.toNat % 2 ^ (g.ebits + g.mbits + 1))) :
    (isSignalling g (w.toNat % 2 ^ (g.ebits + g.mbits + 1)) → convert ftz s t rnd sat w = word32 (nanOf f, 1)) ∧
    (¬ isSignalling g (w.toNat % 2 ^ (g.ebits + g.mbits + 1)) → convert ftz s t rnd sat w = word32 (nanOf f, 0)) := by
  obtain ⟨sig, hread, hsig⟩ := readFtz_isNan hg.roomy (ftz && (t == 6 || t == 8) && (s == 6 || s == 8)) h
  rw [convert_floatFloat hg hf, hread, ← hsig, ← qnan_eq_nanOf hf.roomy]
  exact ⟨fun h => by rw [h]; rfl, fun h => by rw [Bool.not_eq_true] at h; rw [h]; rfl⟩

theorem convert_infFloat (hs : s ∈ [6, 7, 8, 9]) (ht : t ∈ [6, 7, 8, 9]) (h : isInf g (w.toNat % 2 ^ (g.ebits + g.mbits + 1))) :
    let neg := negative g (w.toNat % 2 ^ (g.ebits + g.mbits + 1))
    let full := s = t ∨ t = 6
    (t ≠ 9 → full ∨ sat = false → convert ftz s t rnd sat w = word32 (infOf f neg, 0)) ∧
    (t = 9 ∨ ¬ full → sat = true → convert ftz s t rnd sat w = word32 (maxOf f neg, 0b110000)) ∧
    (t = 9 → sat = false → convert ftz s t rnd sat w = word32 (nanOf f, 0b010100)) := by
  intro neg full
  have hs9 : s ≠ 9 := by simpa [hg.inf] using h.1
  have hs' : s ∈ [6, 7, 8] := by simpa [hs9] using hs
  have hexact := exact_iff hs' ht
  have hinf : f.inf = true ↔ t ≠ 9 := by simp [hf.inf]
  rw [convert_floatFloat hg hf, readFtz_isInf hg.roomy _ h]
  dsimp only
  rw [cvtInf, if_congr hexact rfl rfl, if_congr hinf rfl rfl, ← signed_top hf.roomy, ← signed_maxFin hf.roomy, ← qnan_eq_nanOf hf.roomy]
  refine ⟨fun ht9 hor => ?_, fun hor hsat => ?_, fun ht9 hsat => ?_⟩
  · by_cases hfull : full
    · rw [if_pos ⟨ht9, hfull⟩]
    · rw [if_neg fun h => hfull h.2, hor.resolve_left hfull, if_neg Bool.false_ne_true, if_pos ht9]
  · rw [if_neg fun h => hor.elim h.1 fun hn => hn h.2, if_pos hsat]
    rfl
  · rw [if_neg fun h => h.1 ht9, hsat, if_neg Bool.false_ne_true, if_neg fun h => h ht9]
    rfl

theorem convert_operandFloat {x : ℝ}
    (h : IsOperand g (ftz && (t == 6 || t == 8) && (s == 6 || s == 8)) (w.toNat % 2 ^ (g.ebits + g.mbits + 1)) x) :
    (x = 0 → convert ftz s t rnd sat w = word32 (zeroOf f (negative g (w.toNat % 2 ^ (g.ebits + g.mbits + 1))), 0)) ∧
    (x ≠ 0 → Narrowed f rnd sat (ftz && (t == 6 || t == 8)) x (convert ftz s t rnd sat w)) := by
  obtain ⟨m, e, hread, rfl⟩ := operand_readFtz hg.roomy h
  have hzero : signOf (negative g (w.toNat % 2 ^ (g.ebits + g.mbits + 1))) * (m * 2 ^ e) = 0 ↔ m = 0 := by
    rw [← abs_eq_zero, abs_signOf_mul, abs_eq_zero, mul_eq_zero, Nat.cast_eq_zero]
    exact or_iff_left (by positivity)
  rw [convert_floatFloat hg hf, hread, hzero, ne_eq, hzero]
  refine ⟨?_, fun hm => narrowed_round hf.roomy rnd sat _ _ hm e⟩
  rintro rfl
  exact round_zero f rnd sat _ _ e

end

/-! ### The claim -/

/-- What the claim writes for an integer result. -/
theorem cvtOut_width (t : Nat) (v : Int) : (if t < 3 then (BitVec.ofInt ([8, 16, 32].getD (t % 3) 32) v).signExtend 32
    else (BitVec.ofInt ([8, 16, 32].getD (t % 3) 32) v).setWidth 32) = cvtOut t v := by
  rw [cvtBits_eq, cvtOut_eq]

/-- What the claim reads for an integer source. -/
theorem cvtInt_width (t : Nat) (x : Word) : (if t < 3 then (x.setWidth ([8, 16, 32].getD (t % 3) 32)).toInt
    else ((x.setWidth ([8, 16, 32].getD (t % 3) 32)).toNat : Int)) = cvtInt t x := by
  rw [cvtBits_eq, cvtInt_eq]

theorem fst_mem_of_mem {g : Nat × Fmt} (h : g ∈ [(6, F32), (7, F16), (8, BF16), (9, E4M3)]) : g.1 ∈ [6, 7, 8, 9] :=
  List.mem_map_of_mem (f := Prod.fst) h

theorem claims_floatConversions : Claims.FloatConversions := by
  intro ftz sat rnd w _
  have hfl : (if sat then (1 : BitVec 6) ||| 0b100000 else 1) = fNV ||| (if sat then fSAT else 0) := by cases sat <;> rfl
  dsimp only
  rw [hfl]
  simp only [cvtOut_width, cvtInt_width, cvtBits_eq, ← cvtLo_eq, ← cvtHi_eq]
  refine ⟨fun g hg t ht => ?_, fun s hs f hf _ _ => ?_, fun s hs f hf _ => ?_, fun g hg f hf _ => ?_⟩
  · exact ⟨convert_nanInt (isFormat_of_mem hg) ht ftz sat, convert_infInt (isFormat_of_mem hg) ht ftz sat,
      fun x n => convert_valueInt (isFormat_of_mem hg) ht ftz sat⟩
  · exact convert_intFloat hs (isFormat_of_mem hf) ftz sat rnd w
  · exact convert_intFloat hs (isFormat_of_mem hf) ftz sat rnd w
  · exact ⟨convert_nanFloat (isFormat_of_mem hg) (isFormat_of_mem hf) ftz sat rnd,
      convert_infFloat (isFormat_of_mem hg) (isFormat_of_mem hf) ftz sat rnd (fst_mem_of_mem hg) (fst_mem_of_mem hf),
      fun x => convert_operandFloat (isFormat_of_mem hg) (isFormat_of_mem hf) ftz sat rnd⟩

/-- Settles O13: a conversion reads its source's exact value and rounds it once, which is the rounding on the grid of the format. -/
theorem compareAndConvert : Obligations.CompareAndConvert := by
  unfold Obligations.CompareAndConvert
  exact ⟨claims_comparePredicate, claims_conversions, claims_integerConversion, claims_floatOrder, claims_floatConversions⟩

end Sys2Proof.Proofs
end

