-- ==== Sys2Proof/Proofs/BitWords.lean ====
section
/-! The rounding shift, the field extract and the bit counts (R51, R103, R104). -/

namespace Sys2Proof.Proofs

open Sys2Proof.Machine Sys2Proof.Says Sys2Proof.Laws

/-! ### The rounding shift -/

/-- On 33 bits the sum of `SHRR` does not wrap. -/
theorem toInt_roundingSum (a : Word) {k : Nat} (hk : k < 31) : (a.signExtend 33 + 1#33 <<< k).toInt = a.toInt + 2 ^ k := by
  have hpow : (2 : Int) ^ k ≤ 2 ^ 30 := pow_le_pow_right₀ (by norm_num) (by omega)
  have hone : (1#33 <<< k).toInt = 2 ^ k := by
    have hlt : (2 : Nat) ^ k ≤ 2 ^ 30 := Nat.pow_le_pow_right (by decide) (by omega)
    have hnat : (1#33 <<< k).toNat = 2 ^ k := by
      rw [BitVec.toNat_shiftLeft, Nat.shiftLeft_eq, show (1#33).toNat = 1 from rfl, Nat.one_mul, Nat.mod_eq_of_lt (by omega)]
    rw [BitVec.toInt_eq_toNat_of_lt (by omega), hnat]
    push_cast
    rfl
  have hlow := BitVec.le_toInt a
  have hhigh := BitVec.toInt_lt (x := a)
  have hpos : (0 : Int) < 2 ^ k := by positivity
  rw [BitVec.toInt_add, hone, BitVec.toInt_signExtend_of_le (by omega), Int.bmod_eq_of_le (by omega) (by omega)]

theorem shiftRoundRight_eq (a b : Word) : shiftRoundRight a b = roundedShift a b := by
  unfold shiftRoundRight roundedShift
  generalize hn : b.toNat % 32 = n
  have hlt : n < 32 := hn ▸ Nat.mod_lt _ (by decide)
  by_cases h0 : n = 0
  · simp [h0]
  · have hsum := toInt_roundingSum a (k := n - 1) (by omega)
    rw [if_neg h0, if_neg (by simpa using h0), ← BitVec.signExtend_eq_setWidth_of_le _ (by omega), BitVec.signExtend, BitVec.toInt_sshiftRight, hsum,
      Int.shiftRight_eq_div_pow]
    push_cast
    rfl

/-! ### The field extract -/

theorem getLsbD_lowMask {n : Nat} (hn : n < 32) (i : Nat) : (1#32 <<< n - 1).getLsbD i = decide (i < n) := by
  have hpow : (2 : Nat) ^ n < 2 ^ 32 := Nat.pow_lt_pow_right (by decide) hn
  have hpos : 0 < (2 : Nat) ^ n := by positivity
  have hmask : (1#32 <<< n - 1).toNat = 2 ^ n - 1 := by
    have hone : (1 : Word).toNat = 1 := rfl
    rw [BitVec.toNat_sub, BitVec.toNat_shiftLeft, Nat.shiftLeft_eq, hone, show (1#32).toNat = 1 from rfl, Nat.one_mul, Nat.mod_eq_of_lt hpow]
    omega
  rw [BitVec.getLsbD, hmask, Nat.testBit_two_pow_sub_one]

/-- The low n bits of a word, as the manual masks them and as the model takes them. -/
theorem lowBits_eq (w : Word) (n : Nat) : (if 32 ≤ n then w else w &&& (1#32 <<< n - 1)) = BitVec.ofNat 32 (w.toNat % 2 ^ min n 32) := by
  by_cases h : 32 ≤ n
  · rw [if_pos h, Nat.min_eq_right h, Nat.mod_eq_of_lt w.isLt, BitVec.ofNat_toNat, BitVec.setWidth_eq]
  · rw [if_neg h, Nat.min_eq_left (by omega)]
    apply BitVec.eq_of_getLsbD_eq
    intro i hi
    rw [BitVec.getLsbD_and, getLsbD_lowMask (by omega), BitVec.getLsbD_ofNat, Nat.testBit_mod_two_pow, decide_eq_true hi, Bool.true_and,
      Bool.and_comm]
    rfl

/-- Extending a field's sign sets the bits above it. -/
theorem signExtend_field (w : Word) {n : Nat} (h1 : 1 ≤ n) (h31 : n ≤ 31) : BitVec.ofInt 32 (sext (w.toNat % 2 ^ n) n) =
    if w.getLsbD (n - 1) then (w &&& (1#32 <<< n - 1)) ||| (BitVec.allOnes 32 <<< n) else w &&& (1#32 <<< n - 1) := by
  have hfield : sext (w.toNat % 2 ^ n) n = (w.setWidth n).toInt := by
    rw [← sext_toNat (w.setWidth n) h1, BitVec.toNat_setWidth]
  have hsign : (w.setWidth n).msb = w.getLsbD (n - 1) := by
    rw [BitVec.msb_eq_getLsbD_last, BitVec.getLsbD_setWidth, decide_eq_true (by omega), Bool.true_and]
  rw [hfield]
  change (w.setWidth n).signExtend 32 = _
  apply BitVec.eq_of_getLsbD_eq
  intro i hi
  rw [BitVec.getLsbD_signExtend, hsign, BitVec.getLsbD_setWidth, apply_ite (BitVec.getLsbD · i), BitVec.getLsbD_or, BitVec.getLsbD_and,
    getLsbD_lowMask (by omega), BitVec.getLsbD_shiftLeft, BitVec.getLsbD_allOnes]
  by_cases hin : i < n
  · simp [hi, hin]
  · cases w.getLsbD (n - 1) <;> simp [hi, hin]
    omega

theorem bitField_eq (a b : Word) : bitField a b = extracted a b := by
  have hfield : a.toNat / 2 ^ field b 4 0 = (a >>> field b 4 0).toNat := by rw [BitVec.toNat_ushiftRight, Nat.shiftRight_eq_div_pow]
  have hplace : (b.extractLsb' 0 5).toNat = field b 4 0 := rfl
  have hwidth : (b.extractLsb' 8 6).toNat = field b 13 8 := rfl
  unfold bitField extracted
  dsimp only
  rw [hfield, hplace, hwidth, lowBits_eq]
  generalize field b 13 8 = n
  generalize a >>> field b 4 0 = w
  by_cases h : (b.getLsbD 15 && decide (1 ≤ n) && decide (n ≤ 31)) = true
  · have hn : (b.getLsbD 15 = true ∧ 1 ≤ n) ∧ n ≤ 31 := by simpa only [Bool.and_eq_true, decide_eq_true_eq] using h
    have hlow : BitVec.ofNat 32 (w.toNat % 2 ^ min n 32) = w &&& (1#32 <<< n - 1) := by rw [← lowBits_eq, if_neg (by omega)]
    rw [if_pos h, h, Bool.true_and, hlow, Nat.min_eq_left (by omega), signExtend_field w hn.1.2 hn.2]
  · rw [Bool.not_eq_true] at h
    rw [h, Bool.false_and, if_neg (by decide), if_neg (by decide)]

/-! ### The bit counts -/

theorem popCount_eq (n v : Nat) : popCount n v = (List.range n).countP v.testBit := by
  induction n with
  | zero => rfl
  | succ n ih =>
    rw [popCount, ih, List.range_succ, List.countP_append, Nat.add_comm, List.countP_singleton, Nat.testBit_eq_decide_div_mod_eq]
    congr 1
    obtain h | h := Nat.mod_two_eq_zero_or_one (v / 2 ^ n)
    · simp [h]
    · simp [h]

theorem leadingZeros_zero (n : Nat) : leadingZeros n 0 = n := by
  induction n with
  | zero => rfl
  | succ n ih => simp [leadingZeros, ih]

theorem leadingZeros_eq {n v : Nat} (h0 : v ≠ 0) (hv : v < 2 ^ n) : leadingZeros n v = n - 1 - Nat.log2 v := by
  induction n with
  | zero => omega
  | succ n ih =>
    rw [leadingZeros]
    by_cases hlt : v < 2 ^ n
    · have hlog : Nat.log2 v < n := (Nat.log2_lt h0).mpr hlt
      rw [Nat.div_eq_of_lt hlt, if_neg (by decide), ih hlt]
      omega
    · have hdiv : v / 2 ^ n = 1 := Nat.div_eq_of_lt_le (by omega) (by rw [Nat.pow_succ] at hv; omega)
      have hlog : Nat.log2 v = n := (Nat.log2_eq_iff h0).mpr ⟨by omega, hv⟩
      rw [hdiv, if_pos (by decide), hlog]
      omega

/-! ### The words -/

theorem claims_roundingShift : Claims.RoundingShift := by
  intro f s
  have h : exec (.shrr f) s = .next (s.writeV f.pred f.dst fun t => roundedShift (s.src t f.a) (s.src t f.b)) := by
    simp only [← shiftRoundRight_eq]
    rfl
  exact ⟨_, h, writeV_spec ..⟩

theorem claims_bitFieldExtract : Claims.BitFieldExtract := by
  intro f s
  have h : exec (.bfe f) s = .next (s.writeV f.pred f.dst fun t => extracted (s.src t f.a) (s.src t f.b)) := by
    simp only [← bitField_eq]
    rfl
  exact ⟨_, h, writeV_spec ..⟩

/-- What `CLZ` counts. -/
theorem clz_eq (x : Word) : BitVec.ofNat 32 (leadingZeros 32 x.toNat) = if x = 0 then 32 else BitVec.ofNat 32 (31 - Nat.log2 x.toNat) := by
  by_cases h : x = 0
  · rw [h, if_pos rfl, show (0 : Word).toNat = 0 from rfl, leadingZeros_zero]
    rfl
  · rw [if_neg h, leadingZeros_eq (fun h0 => h (BitVec.eq_of_toNat_eq h0)) x.isLt]

theorem claims_bitCounts : Claims.BitCounts := by
  intro f s
  have hpopc : exec (.popc f) s = .next (s.writeV f.pred f.dst fun t =>
      BitVec.ofNat 32 ((List.range 32).countP fun i => (s.src t f.a).getLsbD i)) := by
    have hcount (x : Word) : (List.range 32).countP (fun i => x.getLsbD i) = popCount 32 x.toNat := (popCount_eq 32 x.toNat).symm
    simp only [hcount]
    rfl
  have hclz : exec (.clz f) s = .next (s.writeV f.pred f.dst fun t =>
      if s.src t f.a = 0 then 32 else BitVec.ofNat 32 (31 - Nat.log2 (s.src t f.a).toNat)) := by
    simp only [← clz_eq]
    rfl
  exact ⟨⟨_, hpopc, writeV_spec ..⟩, ⟨_, hclz, writeV_spec ..⟩⟩

/-- Settles O9: each result of the model is the manual's, on 33 bits for the shift and bit by bit for the field. -/
theorem bitWords : Obligations.BitWords := by
  unfold Obligations.BitWords
  exact ⟨claims_roundingShift, claims_bitFieldExtract, claims_bitCounts⟩

end Sys2Proof.Proofs
end

