-- ==== Sys2Proof/Proofs/WideWords.lean ====
section
/-! Saturating words, multiply-add and register pairs (R50, R103, R105, R106). -/

namespace Sys2Proof.Proofs

open Sys2Proof.Machine Sys2Proof.Says Sys2Proof.Laws

theorem satI32_eq_clamp (v : Int) : satI32 v = clamp v := by
  have hhigh : ((2 ^ 31 : Nat) : Int) ≤ v ↔ 2147483647 < v := by omega
  unfold satI32 clamp
  simp only [hhigh]
  rfl

/-- A guarded word of two sources whose exact result is clamped. -/
theorem writesV_clamp2 {i : Instr} {s : State} {f : F3} {v : Word → Word → Int} (h : exec i s = .next (s.alu2F f fun _ x y => satI32 (v x y))) :
    WritesV i s (guarded f.pred) f.dst (fun t => (clamp (v (s.src t f.a) (s.src t f.b))).1) fun t => (clamp (v (s.src t f.a) (s.src t f.b))).2 := by
  simp only [satI32_eq_clamp] at h
  exact ⟨_, h, writeVF_spec ..⟩

/-- The same with three sources, for every active thread. -/
theorem writesV_clamp3 {i : Instr} {s : State} {f : F4} {v : Word → Word → Word → Int}
    (h : exec i s = .next (s.alu3F f fun _ x y z => satI32 (v x y z))) :
    WritesV i s always f.dst (fun t => (clamp (v (s.src t f.a) (s.src t f.b) (s.vreg t f.c))).1)
      fun t => (clamp (v (s.src t f.a) (s.src t f.b) (s.vreg t f.c))).2 := by
  simp only [satI32_eq_clamp] at h
  exact ⟨_, h, writeVF_spec ..⟩

theorem claims_saturatingWords : Claims.SaturatingWords := by
  intro f h s
  exact ⟨writesV_clamp2 (v := fun x y => x.toInt + y.toInt) rfl, writesV_clamp2 (v := fun x y => x.toInt - y.toInt) rfl,
    writesV_clamp3 (v := dot2) rfl, writesV_clamp3 (v := dot4) rfl⟩

theorem claims_multiplyAdd : Claims.MultiplyAdd := fun _ _ => ⟨_, rfl, writeVF_spec ..⟩

theorem claims_widePairs : Claims.WidePairs := by
  intro f s
  refine ⟨fun hwf => ?_, fun hwf => ?_⟩
  · have heven : evenReg f.dst = true := by
      simp only [Instr.wf, Bool.and_eq_true] at hwf
      exact hwf.1.1
    exact ⟨_, rfl, writePair_spec s (guarded f.pred) f.dst heven fun t => s.srcPair t f.a + s.srcPair t f.b⟩
  · exact ⟨_, rfl, writePair_spec s (guarded f.pred) f.dst hwf fun t => (s.src t f.a).setWidth 64 * (s.src t f.b).setWidth 64⟩

/-- Settles O10: the model's clamp is the manual's, and the pairs are written in one even and the next odd register. -/
theorem saturatingAndWide : Obligations.SaturatingAndWide := by
  unfold Obligations.SaturatingAndWide
  exact ⟨claims_saturatingWords, claims_multiplyAdd, claims_widePairs⟩

end Sys2Proof.Proofs
end

