-- ==== Sys2Proof/Proofs/Moves.lean ====
section
/-! Moves, uniform words and special registers (R56, R58, R117 to R119). -/

namespace Sys2Proof.Proofs

open Sys2Proof.Machine Sys2Proof.Says Sys2Proof.Laws

/-! ### The lowest lane -/

theorem insertBy_pairwise {α : Type} (key : α → Nat) (x : α) {l : List α} (h : l.Pairwise fun a b => key a ≤ key b) :
    (sortBy.insertBy' key x l).Pairwise fun a b => key a ≤ key b := by
  induction l with
  | nil => exact List.pairwise_singleton _ _
  | cons y r ih =>
    obtain ⟨hy, hr⟩ := List.pairwise_cons.mp h
    unfold sortBy.insertBy'
    split
    · next hxy => exact List.pairwise_cons.mpr ⟨fun z hz => (List.mem_cons.mp hz).elim (fun e => e ▸ hxy) fun hz => hxy.trans (hy z hz), h⟩
    · next hxy =>
      refine List.pairwise_cons.mpr ⟨fun z hz => ?_, ih hr⟩
      rw [(insertBy_perm key x r).mem_iff, List.mem_cons] at hz
      rcases hz with rfl | hz
      · omega
      · exact hy z hz

theorem sortBy_pairwise {α : Type} (key : α → Nat) (l : List α) : (sortBy key l).Pairwise fun a b => key a ≤ key b := by
  unfold sortBy
  induction l with
  | nil => exact List.Pairwise.nil
  | cons x r ih => exact insertBy_pairwise key x ih

/-- The threads of a list stand in ascending home lane. -/
def Ascending (ts : List Thread) : Prop := ts.Pairwise fun a b => a.lane ≤ b.lane

theorem ascending_gangThreads (s : State) : Ascending s.gangThreads := sortBy_pairwise Thread.lane _

theorem Ascending.filter {ts : List Thread} (h : Ascending ts) (p : Thread → Bool) : Ascending (ts.filter p) := List.Pairwise.filter p h

theorem isLowest_of_lowest {s : State} {ts : List Thread} {gid : Nat} {u : Thread} (hts : Ascending ts) (h : s.lowest ts gid = some u) :
    IsLowest s ts gid u := by
  obtain ⟨hu, as, bs, rfl, has⟩ := List.find?_eq_some_iff_append.mp h
  refine ⟨by simp, by simpa using hu, fun v hv hgid => ?_⟩
  rcases List.mem_append.mp hv with hv | hv
  · exact absurd hgid (by simpa using has v hv)
  · rcases List.mem_cons.mp hv with rfl | hv
    · exact le_rfl
    · exact (List.pairwise_cons.mp (List.pairwise_append.mp hts).2.1).1 v hv

theorem lowest_eq_none {s : State} {ts : List Thread} {gid : Nat} : s.lowest ts gid = none ↔ ∀ u ∈ ts, s.gidOf u ≠ gid := by
  simp [State.lowest]

/-- The lane words read the gang as it issued. -/
theorem laneThreads_eq_asIssued (s : State) : s.laneThreads = asIssued s := by
  unfold State.laneThreads asIssued
  exact if_congr List.isEmpty_iff rfl rfl

theorem ascending_asIssued (s : State) : Ascending (asIssued s) := by
  unfold asIssued
  split
  · exact ascending_gangThreads s
  · exact ascending_gangThreads { s with gang := s.issued }

theorem mem_asIssued {s : State} (h : s.issued ≠ []) {u : Thread} : u ∈ asIssued s ↔ u ∈ s.threads ∧ u.uid ∈ s.issued := by
  rw [asIssued, if_neg h, mem_gangThreads]

theorem claims_lowestLaneThread : Claims.LowestLaneThread := by
  intro s pred gid
  refine ⟨fun u => isLowest_of_lowest ((ascending_gangThreads s).filter _), lowest_eq_none, fun u => isLowest_of_lowest (ascending_gangThreads s),
    fun u => isLowest_of_lowest ((ascending_asIssued s).filter _), fun u => ?_, fun h u => mem_asIssued h⟩
  rw [mem_executing, mem_gangThreads, and_assoc]

/-! ### Moves -/

theorem claims_moves : Claims.Moves := fun _ _ _ =>
  ⟨⟨_, rfl, writeV_spec ..⟩, ⟨_, rfl, writeAll_spec ..⟩, ⟨_, rfl, writeV_spec ..⟩⟩

/-! ### Words of a group -/

theorem eachGroup_mono {s t : State} {ts : List Thread} {R S : Group → Thread → Group → Prop} (h : EachGroup s t ts R)
    (hrs : ∀ g u h, R g u h → S g u h) : EachGroup s t ts S := by
  refine List.Forall₂.imp (fun g k hgk => ?_) h
  cases hlow : s.lowest ts g.gid with
  | none => simpa [hlow] using hgk
  | some u => exact hrs g u k (by simpa [hlow] using hgk)

/-- A word that writes one s register of each group with a thread among `ts`. -/
theorem setS_spec (s : State) (ts : List Thread) (n : Nat) (x : Thread → Word) :
    OnlyThreadsGroups s (s.eachGroup ts fun g u => g.setS n (x u)).advance ∧ PassOn s (s.eachGroup ts fun g u => g.setS n (x u)).advance ∧
      EachGroup s (s.eachGroup ts fun g u => g.setS n (x u)).advance ts fun g u h => WroteS n (x u) g h := by
  obtain ⟨honly, hpass, hgroups⟩ := eachGroup_spec s ts fun g u => g.setS n (x u)
  refine ⟨honly, hpass, eachGroup_mono hgroups ?_⟩
  rintro g u _ rfl
  exact wroteS_setS n (x u) g

theorem claims_moveToUniform : Claims.MoveToUniform := by
  intro f s
  have h : exec (.movvs f) s =
      .next (s.eachGroup ((asIssued s).filter (guarded f.pred)) fun g u => g.setS f.dst.toNat (s.src u f.a)).advance := by
    rw [← laneThreads_eq_asIssued]
    rfl
  exact ⟨_, h, setS_spec ..⟩

theorem exec_uniform {e : (FU → Instr) × (Word → Word → Word)} (he : e ∈ table517) (f : FU) (s : State) :
    exec (e.1 f) s = .next (s.uniform f e.2) := by
  simp only [table517, List.mem_cons, List.not_mem_nil, or_false] at he
  rcases he with rfl | rfl | rfl | rfl | rfl | rfl | rfl | rfl <;> rfl

theorem claims_uniformResults : Claims.UniformResults := fun _ he f s => ⟨_, exec_uniform he f s, setS_spec ..⟩

/-- Settles O15: a gang stands in ascending home lane, so that the first thread of a group that a word finds is its lowest. -/
theorem movesAndUniform : Obligations.MovesAndUniform := by
  unfold Obligations.MovesAndUniform
  exact ⟨claims_moves, claims_moveToUniform, claims_uniformResults, claims_lowestLaneThread⟩

/-! ### Special registers -/

theorem laneMask_laneThreads (s : State) : laneMask s.laneThreads = lanes (asIssued s) := by
  rw [laneMask_eq_lanes, laneThreads_eq_asIssued]

theorem low_ofNat (n : Nat) : (BitVec.ofNat 64 n).extractLsb' 0 32 = BitVec.ofNat 32 n := by
  apply BitVec.eq_of_toNat_eq
  rw [BitVec.extractLsb'_toNat, BitVec.toNat_ofNat, BitVec.toNat_ofNat, Nat.shiftRight_zero]
  omega

theorem low_setWidth {n : Nat} (x : BitVec n) : (x.setWidth 64).extractLsb' 0 32 = x.setWidth 32 := by
  apply BitVec.eq_of_toNat_eq
  rw [BitVec.extractLsb'_toNat, BitVec.toNat_setWidth, BitVec.toNat_setWidth, Nat.shiftRight_zero]
  omega

/-- The 32-bit special registers hold what Table 2.5 names. -/
theorem special_low (s : State) (t : Thread) {n : Nat} (h8 : n ≠ 8) (h9 : n ≠ 9) : (s.special t n).extractLsb' 0 32 = special32 s t n := by
  match n with
  | 0 =>
    rw [State.special, special32, low_ofNat]
    apply BitVec.eq_of_toNat_eq
    rw [BitVec.toNat_ofNat, BitVec.toNat_ofNat, Nat.mod_mod]
  | 1 | 2 | 3 | 4 | 5 | 6 | 7 => exact low_ofNat _
  | 8 => exact absurd rfl h8
  | 9 => exact absurd rfl h9
  | 10 | 11 => exact low_setWidth _
  | 12 | 13 | 14 => exact (low_setWidth _).trans (by rw [BitVec.setWidth_eq]; simp only [special32, ← wasOf_eq_before, Thread.wdepth])
  | n + 15 => exact (low_setWidth _).trans ((BitVec.setWidth_eq _).trans (laneMask_laneThreads s))

theorem specialWide_iff {n : Nat} : specialWide n = true ↔ n = 8 ∨ n = 9 := by
  simp [specialWide]

theorem exec_rdsp_narrow {f : F2} (s : State) (h8 : f.a.toNat ≠ 8) (h9 : f.a.toNat ≠ 9) :
    exec (.rdsp f) s = .next (s.writeV f.pred f.dst fun t => special32 s t f.a.toNat) := by
  have hwide : ¬ specialWide f.a.toNat = true := by rw [specialWide_iff, not_or]; exact ⟨h8, h9⟩
  show execRdsp f s = _
  unfold execRdsp
  simp only [hwide, special_low s _ h8 h9]
  rfl

theorem exec_rdsp_wide {f : F2} (s : State) (h : f.a.toNat = 8 ∨ f.a.toNat = 9) : exec (.rdsp f) s = .next (s.each (guarded f.pred) fun t =>
    s.putV f.dst.toNat [(s.special t f.a.toNat).extractLsb' 0 32, (s.special t f.a.toNat).extractLsb' 32 32] t) := by
  have hwide : specialWide f.a.toNat = true := specialWide_iff.mpr h
  show execRdsp f s = _
  unfold execRdsp
  simp only [hwide]
  rfl

/-- `RDSP` writes a wide special register into a pair. -/
theorem writesPair_rdsp {f : F2} (s : State) (hwf : (Instr.rdsp f).wf = true) (h : f.a.toNat = 8 ∨ f.a.toNat = 9) :
    WritesPair (.rdsp f) s (guarded f.pred) f.dst fun t => s.special t f.a.toNat := by
  have heven : evenReg f.dst = true := by
    have ha : f.a = 8 ∨ f.a = 9 := h.imp (fun h => BitVec.eq_of_toNat_eq h) fun h => BitVec.eq_of_toNat_eq h
    simp only [Instr.wf, Bool.and_eq_true, Bool.or_eq_true, Bool.not_eq_true', Bool.or_eq_false_iff, beq_eq_false_iff_ne] at hwf
    exact hwf.2.resolve_left fun hne => ha.elim hne.1 hne.2
  exact ⟨_, exec_rdsp_wide s h, writePair_spec s (guarded f.pred) f.dst heven _⟩

theorem claims_readSpecial : Claims.ReadSpecial := by
  intro f s hwf
  refine ⟨fun h8 h9 => ⟨_, exec_rdsp_narrow s h8 h9, writeV_spec ..⟩, fun h => ?_, fun h => ?_⟩
  · have hspecial := writesPair_rdsp s hwf (.inl h)
    rw [h] at hspecial
    simpa only [State.special, wasOf_eq_before] using hspecial
  · have hspecial := writesPair_rdsp s hwf (.inr h)
    rw [h] at hspecial
    exact hspecial

/-- What `WRSP` of `FSTAT` makes of an executing thread. -/
def flagsReplaced (s : State) (f : FWrsp) (t : Thread) : Thread := { t with fstat := (s.src t f.a).setWidth 6 }

theorem claims_writeSpecial : Claims.WriteSpecial := by
  intro f s
  refine ⟨fun hnum => ?_, fun hnum => ?_⟩
  · have h : exec (.wrsp f) s = .next (s.each (guarded f.pred) (flagsReplaced s f)) := by
      show execWrsp f s = _
      rw [execWrsp, if_pos (by rw [hnum]; rfl)]
      rfl
    refine ⟨_, h, each_only .., eachThread_mono (each_threads ..) ?_⟩
    rintro a _ rfl
    show (if a.p f.pred = true then flagsReplaced s f a else a).next = if a.p f.pred = true then _ else a.next
    by_cases hp : a.p f.pred = true
    · rw [if_pos hp, if_pos hp]
      exact (next_withP a a.preds _).trans (by simp only [← next_preds a])
    · rw [if_neg hp, if_neg hp]
  · have h : exec (.wrsp f) s =
        .next (s.eachGroup (s.executing f.pred) fun g t => { g with fmode := (s.src t f.a).setWidth 4 }).advance := by
      show execWrsp f s = _
      rw [execWrsp, hnum, if_neg (by decide)]
      rfl
    exact ⟨_, h, eachGroup_spec ..⟩

/-- Settles O16: the narrow registers one by one, the wide ones as a pair. -/
theorem specialRegisters : Obligations.SpecialRegisters := by
  unfold Obligations.SpecialRegisters
  exact ⟨claims_readSpecial, claims_writeSpecial⟩

end Sys2Proof.Proofs
end

