-- ==== Sys2Proof/Proofs/FloatOps.lean ====
section
/-! Float words: sums, products and fused results of the values that their operands are read as (R53, R54, R58, R106, R107), and the rounding of
what a format holds (R54, Table 3.2). -/

namespace Sys2Proof.Proofs

open Sys2Proof.Machine Sys2Proof.Says Sys2Proof.Laws

theorem roomy_of_mem {f : Fmt} (h : f ∈ [F32, F16, BF16]) : Roomy f := by
  simp only [List.mem_cons, List.not_mem_nil, or_false] at h
  rcases h with rfl | rfl | rfl
  · exact roomy_F32
  · exact roomy_F16
  · exact roomy_BF16

/-! ### What a code is read as -/

section
variable {f : Fmt} (hf : Roomy f) {c : Nat}
include hf

theorem isNan_of_read {sig : Bool} (h : f.read c = .nan sig) : isNan f c := by
  by_contra hnan
  by_cases hinf : isInf f c
  · rw [read_isInf hinf] at h
    cases h
  · rw [read_fin hf hnan hinf] at h
    cases h

theorem isInf_of_read {neg : Bool} (h : f.read c = .inf neg) : isInf f c := by
  by_contra hinf
  by_cases hnan : isNan f c
  · obtain ⟨sig, hread, -⟩ := read_isNan hf hnan
    rw [hread] at h
    cases h
  · rw [read_fin hf hnan hinf] at h
    cases h

theorem finite_of_read {neg : Bool} {m : Nat} {e : Int} (h : f.read c = .fin neg m e) : ¬ isNan f c ∧ ¬ isInf f c := by
  refine ⟨fun hnan => ?_, fun hinf => ?_⟩
  · obtain ⟨sig, hread, -⟩ := read_isNan hf hnan
    rw [hread] at h
    cases h
  · rw [read_isInf hinf] at h
    cases h

/-- Flushing changes how a subnormal number is read, and nothing else. -/
theorem readFtz_of_read {v : FVal} (h : f.read c = v) (hv : ∀ neg m e, v = .fin neg m e → m = 0) (ftz : Bool) : f.readFtz ftz c = v := by
  have hsub : f.subnormal c = false := by
    rw [← Bool.not_eq_true, subnormal_iff]
    intro hs
    have htwo := two_pow_ebits hf
    have hexp : expField f c ≠ 2 ^ f.ebits - 1 := by rw [hs.1]; omega
    have hread := read_fin hf (fun hnan => hexp hnan.1) fun hinf => hexp hinf.2.1
    have hm := hv _ _ _ (h.symm.trans hread)
    rw [significand, if_pos hs.1] at hm
    exact hs.2 hm
  rw [Fmt.readFtz, hsub, Bool.and_false, if_neg (by decide), h]

theorem readFtz_of_nan {sig : Bool} (h : f.read c = .nan sig) (ftz : Bool) : f.readFtz ftz c = .nan sig :=
  readFtz_of_read hf h (fun _ _ _ hv => by cases hv) ftz

theorem readFtz_of_inf {neg : Bool} (h : f.read c = .inf neg) (ftz : Bool) : f.readFtz ftz c = .inf neg :=
  readFtz_of_read hf h (fun _ _ _ hv => by cases hv) ftz

theorem readFtz_of_zero {neg : Bool} {e : Int} (h : f.read c = .fin neg 0 e) (ftz : Bool) : f.readFtz ftz c = .fin neg 0 e :=
  readFtz_of_read hf h (fun _ _ _ hv => by cases hv; rfl) ftz

theorem isNan_readFtz {sig : Bool} (h : f.read c = .nan sig) (ftz : Bool) : (f.readFtz ftz c).isNan = true :=
  (readFtz_isNan_iff hf ftz).mpr (isNan_of_read hf h)

theorem snan_readFtz {ftz : Bool} : (f.readFtz ftz c).snan = true ↔ f.read c = .nan true := by
  rw [readFtz_snan_iff hf ftz]
  constructor
  · intro h
    obtain ⟨sig, hread, hsig⟩ := read_isNan hf h.2.1
    rw [hread, hsig.mpr h]
  · intro h
    obtain ⟨sig, hread, hsig⟩ := read_isNan hf (isNan_of_read hf h)
    exact hsig.mp (by rw [hread] at h; cases h; rfl)

end

/-! ### The operations by what their operands are -/

section
variable (f : Fmt) (rm : Nat) {ftz : Bool} {a b c : Nat}

theorem add_of_nan (h : (f.readFtz ftz a).isNan = true ∨ (f.readFtz ftz b).isNan = true) : f.add rm ftz a b =
    (f.qnan, if (f.readFtz ftz a).snan || (f.readFtz ftz b).snan then fNV else 0) := by
  unfold Fmt.add
  generalize f.readFtz ftz a = x at h
  generalize f.readFtz ftz b = y at h
  match x, y, h with
  | .nan _, _, _ => rfl
  | .inf _, .nan _, _ => rfl
  | .fin .., .nan _, _ => rfl

theorem mul_of_nan (h : (f.readFtz ftz a).isNan = true ∨ (f.readFtz ftz b).isNan = true) : f.mul rm ftz a b =
    (f.qnan, if (f.readFtz ftz a).snan || (f.readFtz ftz b).snan then fNV else 0) := by
  unfold Fmt.mul
  generalize f.readFtz ftz a = x at h
  generalize f.readFtz ftz b = y at h
  match x, y, h with
  | .nan _, _, _ => rfl
  | .inf _, .nan _, _ => rfl
  | .fin .., .nan _, _ => rfl

theorem fma_of_nan (h : (f.readFtz ftz a).isNan = true ∨ (f.readFtz ftz b).isNan = true ∨ (f.readFtz ftz c).isNan = true) :
    (f.fma rm ftz a b c).1 = f.qnan ∧
      ((f.readFtz ftz a).snan = true ∨ (f.readFtz ftz b).snan = true ∨ (f.readFtz ftz c).snan = true → (f.fma rm ftz a b c).2 = fNV) := by
  unfold Fmt.fma
  generalize f.readFtz ftz a = x at h
  generalize f.readFtz ftz b = y at h
  generalize f.readFtz ftz c = z at h
  dsimp only
  rw [if_pos (by rcases h with h | h | h <;> simp [h])]
  exact ⟨rfl, fun hs => if_pos (by rcases hs with hs | hs | hs <;> simp [hs])⟩

variable {p q r : Bool} {m n k : Nat} {e d g : Int}

theorem add_of_fin (ha : f.readFtz ftz a = .fin p m e) (hb : f.readFtz ftz b = .fin q n d) : f.add rm ftz a b = f.sum rm ftz p m e q n d := by
  rw [Fmt.add, ha, hb]

theorem mul_of_fin (ha : f.readFtz ftz a = .fin p m e) (hb : f.readFtz ftz b = .fin q n d) :
    f.mul rm ftz a b = f.round rm ftz (p != q) (m * n) (e + d) false := by
  rw [Fmt.mul, ha, hb]

theorem fma_of_fin (ha : f.readFtz ftz a = .fin p m e) (hb : f.readFtz ftz b = .fin q n d) (hc : f.readFtz ftz c = .fin r k g) :
    f.fma rm ftz a b c = f.sum rm ftz (p != q) (m * n) (e + d) r k g := by
  rw [Fmt.fma, ha, hb, hc]
  rfl

theorem add_of_infs (ha : f.readFtz ftz a = .inf p) (hb : f.readFtz ftz b = .inf q) :
    f.add rm ftz a b = if p = q then (f.signed p f.top, 0) else (f.qnan, fNV) := by
  rw [Fmt.add, ha, hb]
  exact if_congr beq_iff_eq rfl rfl

theorem add_of_inf_fin (ha : f.readFtz ftz a = .inf p) (hb : f.readFtz ftz b = .fin q n d) :
    f.add rm ftz a b = (f.signed p f.top, 0) ∧ f.add rm ftz b a = (f.signed p f.top, 0) := by
  rw [Fmt.add, Fmt.add, ha, hb]
  exact ⟨rfl, rfl⟩

theorem mul_of_infs (ha : f.readFtz ftz a = .inf p) (hb : f.readFtz ftz b = .inf q) : f.mul rm ftz a b = (f.signed (p != q) f.top, 0) := by
  rw [Fmt.mul, ha, hb]

theorem mul_of_inf_fin (ha : f.readFtz ftz a = .inf p) (hb : f.readFtz ftz b = .fin q n d) :
    f.mul rm ftz a b = (if n = 0 then (f.qnan, fNV) else (f.signed (p != q) f.top, 0)) ∧
    f.mul rm ftz b a = if n = 0 then (f.qnan, fNV) else (f.signed (p != q) f.top, 0) := by
  rw [Fmt.mul, Fmt.mul, ha, hb]
  exact ⟨if_congr beq_iff_eq rfl rfl, if_congr beq_iff_eq rfl (by rw [bne_comm])⟩

theorem fma_of_inf_zero (ha : f.readFtz ftz a = .inf p) (hb : f.readFtz ftz b = .fin q 0 d) : f.fma rm ftz a b c = (f.qnan, fNV) := by
  rw [Fmt.fma, ha, hb]
  simp

end

/-! ### Special operands -/

theorem claims_floatSpecialOperands : Claims.FloatSpecialOperands := by
  intro f hfmt rm ftz a b c
  have hf := roomy_of_mem hfmt
  have hnan (x : Bool) (h : f.read a = .nan x ∨ f.read b = .nan x) :
      (f.readFtz ftz a).isNan = true ∨ (f.readFtz ftz b).isNan = true :=
    h.imp (isNan_readFtz hf · ftz) (isNan_readFtz hf · ftz)
  refine ⟨fun x h => ?_, fun h => ?_, fun ha hb => ?_, fun p ha hb => ?_, fun p q e ha hb => ?_, fun p q e ha hb => ?_⟩
  · have h' := hnan x h
    exact ⟨by rw [add_of_nan f rm h'], by rw [mul_of_nan f rm h'], (fma_of_nan f rm (h'.imp_right .inl)).1, (fma_of_nan f rm (.inr h')).1⟩
  · have h' := hnan true h
    have hsnan : (f.readFtz ftz a).snan = true ∨ (f.readFtz ftz b).snan = true := h.imp (snan_readFtz hf).mpr (snan_readFtz hf).mpr
    have hor : ((f.readFtz ftz a).snan || (f.readFtz ftz b).snan) = true := Bool.or_eq_true_iff.mpr hsnan
    exact ⟨by rw [add_of_nan f rm h', hor]; rfl, by rw [mul_of_nan f rm h', hor]; rfl,
      (fma_of_nan f rm (h'.imp_right .inl)).2 (hsnan.imp_right .inl)⟩
  · have h' := hnan false (.inl ha)
    have hquiet : ((f.readFtz ftz a).snan || (f.readFtz ftz b).snan) = false := by
      rw [← Bool.not_eq_true, Bool.or_eq_true, snan_readFtz hf, snan_readFtz hf, ha, not_or]
      exact ⟨by simp, hb⟩
    exact ⟨by rw [add_of_nan f rm h', hquiet]; rfl, by rw [mul_of_nan f rm h', hquiet]; rfl⟩
  · rw [add_of_infs f rm (readFtz_of_inf hf ha ftz) (readFtz_of_inf hf hb ftz), if_neg (by cases p <;> decide)]
    rfl
  · have ha' := readFtz_of_inf hf ha ftz
    have hb' := readFtz_of_zero hf hb ftz
    exact ⟨(mul_of_inf_fin f rm ha' hb').1, fma_of_inf_zero f rm ha' hb'⟩
  · rw [add_of_fin f rm (readFtz_of_zero hf ha ftz) (readFtz_of_zero hf hb ftz)]
    cases p <;> cases q <;> simp [Fmt.sum, scaled]

/-! ### Values that a format holds -/

section
variable {f : Fmt} (hf : Roomy f) {c : Nat}
include hf

theorem magnitude_le_maxFin (hnan : ¬ isNan f c) (hinf : ¬ isInf f c) : c % f.signBit ≤ f.maxFin := by
  have hE := two_pow_ebits hf
  have hexp := expField_lt f c
  have hman := manField_lt f c
  cases hfmt : f.inf with
  | true =>
    have hlt : expField f c < 2 ^ f.ebits - 1 := by
      refine lt_of_le_of_ne (by omega) fun heq => ?_
      by_cases h0 : manField f c = 0
      · exact hinf ⟨hfmt, heq, h0⟩
      · exact hnan ⟨heq, by rw [hfmt, if_pos rfl]; exact h0⟩
    have hmul : 2 ^ f.mbits * expField f c + 2 ^ f.mbits ≤ (2 ^ f.ebits - 1) * 2 ^ f.mbits := by
      rw [← Nat.mul_succ, Nat.mul_comm]
      exact Nat.mul_le_mul_right _ hlt
    rw [magnitude_eq, Fmt.maxFin, Fmt.top, hfmt, if_pos rfl]
    omega
  | false =>
    have hne : c % f.signBit ≠ f.top := mt (magnitude_eq_top hf hfmt c).mp hnan
    have hpos : 0 < f.signBit := by rw [Fmt.signBit]; positivity
    have hlt := Nat.mod_lt c hpos
    rw [Fmt.maxFin]
    rw [Fmt.top, hfmt, if_neg (by decide)] at hne ⊢
    omega

omit hf in
/-- A code is its sign and its magnitude. -/
theorem signed_negative (hc : c < 2 * f.signBit) : f.signed (negative f c) (c % f.signBit) = c := by
  have hdiv := Nat.div_add_mod c f.signBit
  have hpos : 0 < f.signBit := by rw [Fmt.signBit]; positivity
  have hlt : c / f.signBit < 2 := Nat.div_lt_of_lt_mul (by rw [Nat.mul_comm]; exact hc)
  rw [Fmt.signed, Fmt.zero, ← negative_eq]
  generalize c / f.signBit = k at hdiv hlt ⊢
  obtain rfl | rfl : k = 0 ∨ k = 1 := by omega
  · rw [if_neg (by decide)]
    omega
  · rw [if_pos (by decide)]
    omega

omit hf in
theorem significand_add_place (f : Fmt) (c : Nat) : (expField f c - 1) * 2 ^ f.mbits + significand f c = c % f.signBit := by
  rw [magnitude_eq, significand]
  generalize expField f c = x
  cases x with
  | zero => simp
  | succ y =>
    rw [if_neg (by omega), Nat.add_sub_cancel]
    ring

omit hf in
/-- A finite code is rounded on the place of its own last digit. -/
theorem placeOf_significand (h0 : significand f c ≠ 0) : placeOf f (significand f c) (lastPlace f c) = expField f c - 1 := by
  have hman := manField_lt f c
  rw [placeOf, topOf, lastPlace]
  by_cases hexp : expField f c = 0
  · have hsig : significand f c < 2 ^ f.mbits := by rw [significand, if_pos hexp]; exact hman
    have hlog := (Nat.log2_lt h0).mpr hsig
    rw [hexp]
    omega
  · have hlog : Nat.log2 (significand f c) = f.mbits := by
      rw [Nat.log2_eq_iff h0, significand, if_neg hexp, Nat.pow_succ]
      omega
    rw [hlog]
    omega

theorem round_finite (hc : c < 2 * f.signBit) (hnan : ¬ isNan f c) (hinf : ¬ isInf f c) (rm : Nat) :
    f.round rm false (negative f c) (significand f c) (lastPlace f c) false = (c, 0) := by
  have hmag := significand_add_place f c
  by_cases h0 : significand f c = 0
  · have hexp : expField f c = 0 := by
      by_contra h
      rw [significand, if_neg h] at h0
      have := two_pow_mbits hf
      omega
    rw [h0, hexp, Nat.zero_sub, Nat.zero_mul] at hmag
    have hcode := signed_negative hc
    rw [← hmag, Fmt.signed, Nat.add_zero] at hcode
    rw [h0, ← Prod.mk_inj.mpr ⟨hcode, rfl⟩]
    rfl
  · have hgrid : onGrid rm (negative f c) (significand f c) (lastPlace f c) (lastPlace f c) false = (significand f c, false) := by
      rw [onGrid, if_pos le_rfl, sub_self]
      exact congrArg (·, false) (Nat.mul_one _)
    have hcode : codeOf f (expField f c - 1) (significand f c) = c % f.signBit := hmag
    have hfin := magnitude_le_maxFin hf hnan hinf
    rw [round_eq f rm false _ h0, placeOf_significand h0, ← lastPlace, hgrid, packedCode]
    dsimp only
    rw [hcode, if_neg (by omega), signed_negative hc, Bool.false_and, Bool.false_and, Bool.false_and,
      if_neg Bool.false_ne_true, if_neg Bool.false_ne_true, if_neg Bool.false_ne_true]
    rfl

end

theorem claims_roundingKeepsRepresentable : Claims.RoundingKeepsRepresentable := by
  intro f hfmt rm c m neg e hc hread
  have hf : Roomy f := by
    rcases List.mem_append.mp (show f ∈ [F32, F16, BF16] ++ [E4M3] from hfmt) with h | h
    · exact roomy_of_mem h
    · rw [List.mem_singleton.mp h]
      exact roomy_E4M3
  obtain ⟨hnan, hinf⟩ := finite_of_read hf hread
  rw [read_fin hf hnan hinf] at hread
  cases hread
  exact round_finite hf hc hnan hinf rm

/-! ### Rounding a magnitude to an integer -/

theorem shiftRound_zero (rm : Nat) (neg : Bool) (m : Nat) : shiftRound rm neg m 0 false = (m, false) := by
  simp [shiftRound, Nat.mod_one, roundsUp]

theorem shiftRound_rounds_all (rm : Nat) (neg : Bool) (m d : Nat) : Rounds rm neg ((m : ℝ) / 2 ^ d) (shiftRound rm neg m d false).1 := by
  cases d with
  | zero =>
    rw [shiftRound_zero, pow_zero, div_one]
    exact rounds_exact rm neg m
  | succ k => exact (shiftRound_rounds rm neg m k).1

theorem eq_div_of_below {m d j : Nat} (hlow : (j : ℝ) ≤ m / 2 ^ d) (hhigh : (m : ℝ) / 2 ^ d < j + 1) : j = m / 2 ^ d := by
  rw [le_div_iff₀ (by positivity)] at hlow
  rw [div_lt_iff₀ (by positivity)] at hhigh
  refine (Nat.div_eq_of_lt_le ?_ ?_).symm
  · exact_mod_cast hlow
  · exact_mod_cast hhigh

theorem eq_div_of_above {m d j : Nat} (hlow : (m : ℝ) / 2 ^ d ≤ j) (hhigh : (j : ℝ) < m / 2 ^ d + 1) : j = (m + 2 ^ d - 1) / 2 ^ d := by
  have hpos : (0 : ℝ) < 2 ^ d := by positivity
  have hone : 0 < 2 ^ d := by positivity
  rw [div_le_iff₀ hpos] at hlow
  rw [← sub_lt_iff_lt_add, lt_div_iff₀ hpos, sub_mul, one_mul, sub_lt_iff_lt_add] at hhigh
  have hlow' : m ≤ j * 2 ^ d := by exact_mod_cast hlow
  have hhigh' : j * 2 ^ d < m + 2 ^ d := by exact_mod_cast hhigh
  refine (Nat.div_eq_of_lt_le (by omega) ?_).symm
  rw [Nat.succ_mul]
  omega

/-- To the nearest, in whole numbers. -/
theorem nearest_of_rounds {neg : Bool} {m d j : Nat} (h : Rounds 0 neg ((m : ℝ) / 2 ^ d) j) :
    (2 * m ≤ (2 * j + 1) * 2 ^ d ∧ 2 * j * 2 ^ d ≤ 2 * m + 2 ^ d) ∧
    (2 * m = (2 * j + 1) * 2 ^ d ∨ 2 * j * 2 ^ d = 2 * m + 2 ^ d → j % 2 = 0) := by
  obtain ⟨hnear, htie⟩ := h
  have hpos : (0 : ℝ) < 2 ^ d := by positivity
  have hm : (m : ℝ) = m / 2 ^ d * 2 ^ d := (div_mul_cancel₀ _ hpos.ne').symm
  generalize (m : ℝ) / 2 ^ d = X at hnear htie hm
  rw [abs_le] at hnear
  refine ⟨⟨?_, ?_⟩, fun h => htie ?_⟩
  · have : 2 * (m : ℝ) ≤ (2 * j + 1) * 2 ^ d := by rw [hm]; nlinarith [hnear.2]
    exact_mod_cast this
  · have : 2 * (j : ℝ) * 2 ^ d ≤ 2 * m + 2 ^ d := by rw [hm]; nlinarith [hnear.1]
    exact_mod_cast this
  · rcases h with h | h
    · have hreal : 2 * (m : ℝ) = (2 * j + 1) * 2 ^ d := by exact_mod_cast h
      have hX : X - j = 1 / 2 := mul_right_cancel₀ hpos.ne' (by rw [hm] at hreal; linarith)
      rw [hX, abs_of_pos (by norm_num)]
    · have hreal : 2 * (j : ℝ) * 2 ^ d = 2 * m + 2 ^ d := by exact_mod_cast h
      have hX : X - j = -(1 / 2) := mul_right_cancel₀ hpos.ne' (by rw [hm] at hreal; linarith)
      rw [hX, abs_neg, abs_of_pos (by norm_num)]

theorem claims_roundingModes : Claims.RoundingModes := by
  intro neg m d
  have h (rm : Nat) := shiftRound_rounds_all rm neg m d
  refine ⟨nearest_of_rounds (h 0), eq_div_of_below (h 1).1 (h 1).2, ?_, ?_, fun rm => ?_⟩
  · have h2 := h 2
    cases neg with
    | true => exact eq_div_of_below h2.1 h2.2
    | false => exact eq_div_of_above h2.1 h2.2
  · have h3 := h 3
    cases neg with
    | true => exact eq_div_of_above h3.1 h3.2
    | false => exact eq_div_of_below h3.1 h3.2
  · have hexact : (shiftRound rm neg m d false).2 = !(m % 2 ^ d == 0 && !false) := rfl
    rw [hexact, Bool.not_false, Bool.and_true, decide_not]
    rfl

/-! ### The words -/

theorem exec_float2 {e : (F3 → Instr) × (BitVec 4 → Word → Word → Word × BitVec 6)} (he : e ∈ float2) (f : F3) (s : State) :
    exec (e.1 f) s = .next (s.alu2F f e.2) := by
  simp only [float2, List.mem_cons, List.not_mem_nil, or_false] at he
  rcases he with rfl | rfl | rfl | rfl | rfl | rfl | rfl | rfl <;> rfl

theorem exec_float3 {e : (F4 → Instr) × (BitVec 4 → Word → Word → Word → Word × BitVec 6)} (he : e ∈ float3) (f : F4) (s : State) :
    exec (e.1 f) s = .next (s.alu3F f e.2) := by
  simp only [float3, List.mem_cons, List.not_mem_nil, or_false] at he
  rcases he with rfl | rfl | rfl <;> rfl

theorem claims_floatWords : Claims.FloatWords :=
  ⟨fun _ he f s => ⟨_, exec_float2 he f s, writeVF_spec ..⟩, fun _ he f s => ⟨_, exec_float3 he f s, writeVF_spec ..⟩⟩

/-- Settles O12: the operations are split by what their operands are read as, and a magnitude on its own place is rounded to itself. -/
theorem floatWords : Obligations.FloatWords := by
  unfold Obligations.FloatWords
  exact ⟨claims_floatWords, claims_floatSpecialOperands, claims_roundingKeepsRepresentable, claims_roundingModes⟩

end Sys2Proof.Proofs
end


-- ==== Sys2Proof/Proofs/FloatResults.lean ====
section
/-! Float results (R52, R54, R58, R59, R107): sums, products and fused results are the exact value rounded once; infinities; minimum and maximum. -/

namespace Sys2Proof.Proofs

open Sys2Proof.Machine Sys2Proof.Says Sys2Proof.Laws

/-! ### Modes -/

theorem modeRm_eq (m : BitVec 4) : modeRm m = m.toNat % 4 := by
  rw [modeRm, field, BitVec.extractLsb'_toNat, Nat.shiftRight_zero]

/-- A packed word by the numbers of its halves. -/
theorem packed_eq (op : Nat → Nat → Nat → Nat × BitVec 6) (a b c : Word) : packed op a b c =
    (BitVec.ofNat 16 (op (a.toNat / 65536) (b.toNat / 65536) (c.toNat / 65536)).1 ++
        BitVec.ofNat 16 (op (a.toNat % 65536) (b.toNat % 65536) (c.toNat % 65536)).1,
      (op (a.toNat % 65536) (b.toNat % 65536) (c.toNat % 65536)).2 ||| (op (a.toNat / 65536) (b.toNat / 65536) (c.toNat / 65536)).2) := by
  rw [packed, half_low, half_low, half_low, half_high, half_high, half_high]

theorem claims_floatModes : Claims.FloatModes := by
  intro m a b c
  dsimp only
  rw [← modeRm_eq]
  refine ⟨rfl, rfl, rfl, fun _ => rfl, fun e he => ?_⟩
  have hftz : ftzOf e.1 m = e.2 := by
    simp only [List.mem_cons, List.not_mem_nil, or_false] at he
    rcases he with rfl | rfl <;> rfl
  rw [← hftz, faddPacked, fmulPacked, ffmaPacked, packed_eq, packed_eq, packed_eq]
  exact ⟨rfl, rfl, rfl⟩

/-! ### Exact sums and products -/

theorem signOf_ne_zero (neg : Bool) : signOf neg ≠ 0 := by cases neg <;> simp [signOf]

theorem signOf_bne (p q : Bool) : signOf (p != q) = signOf p * signOf q := by cases p <;> cases q <;> simp [signOf]

theorem signed_eq_zero {neg : Bool} {m : Nat} {e : Int} : signOf neg * ((m : ℝ) * 2 ^ e) = 0 ↔ m = 0 := by
  have hpow : (2 : ℝ) ^ e ≠ 0 := by positivity
  simp [signOf_ne_zero, hpow]

/-- The product of two signed values. -/
theorem signed_mul (p q : Bool) (m n : Nat) (e d : Int) :
    signOf p * ((m : ℝ) * 2 ^ e) * (signOf q * (n * 2 ^ d)) = signOf (p != q) * ((m * n : Nat) * 2 ^ (e + d)) := by
  rw [signOf_bne, zpow_add₀ (by norm_num)]
  push_cast
  ring

/-- An integer is its sign and its magnitude. -/
theorem signOf_natAbs (v : Int) : signOf (decide (v < 0)) * (v.natAbs : ℝ) = v := by
  rw [Nat.cast_natAbs, Int.cast_abs]
  by_cases h : v < 0
  · have hreal : (v : ℝ) < 0 := by exact_mod_cast h
    rw [decide_eq_true h, abs_of_neg hreal, signOf, if_pos rfl]
    ring
  · have hreal : (0 : ℝ) ≤ v := by exact_mod_cast Int.not_lt.mp h
    rw [decide_eq_false h, abs_of_nonneg hreal, signOf, if_neg (by decide), one_mul]

/-- A product is rounded once. -/
theorem round_product {f : Fmt} (hf : Roomy f) (rm : Nat) (ftz neg : Bool) (m : Nat) (e : Int) :
    (signOf neg * ((m : ℝ) * 2 ^ e) ≠ 0 → RoundsTo f rm ftz (signOf neg * (m * 2 ^ e)) (f.round rm ftz neg m e false)) ∧
    (signOf neg * ((m : ℝ) * 2 ^ e) = 0 → f.round rm ftz neg m e false = (zeroOf f neg, 0)) := by
  rw [ne_eq, signed_eq_zero]
  exact ⟨fun h => round_roundsTo hf rm ftz neg h e, fun h => by rw [h]; rfl⟩

section
variable {f : Fmt} (hf : Roomy f) (rm : Nat) (ftz p q : Bool) (m n : Nat) (e d : Int)

/-- The sum as a whole number of the smaller unit. -/
theorem sum_scaled : ((scaled p m e (min e d) + scaled q n d (min e d) : Int) : ℝ) * 2 ^ min e d =
    signOf p * (m * 2 ^ e) + signOf q * (n * 2 ^ d) := by
  push_cast
  rw [add_mul, scaled_value p m (min_le_left e d), scaled_value q n (min_le_right e d)]

include hf in
theorem sum_roundsTo (h : signOf p * ((m : ℝ) * 2 ^ e) + signOf q * (n * 2 ^ d) ≠ 0) :
    RoundsTo f rm ftz (signOf p * (m * 2 ^ e) + signOf q * (n * 2 ^ d)) (f.sum rm ftz p m e q n d) := by
  have hv := sum_scaled p q m n e d
  unfold Fmt.sum
  dsimp only
  generalize scaled p m e (min e d) + scaled q n d (min e d) = v at hv
  have hv0 : v ≠ 0 := by
    rintro rfl
    rw [Int.cast_zero, zero_mul] at hv
    exact h hv.symm
  rw [if_neg (by simpa using hv0), ← hv, ← signOf_natAbs v, mul_assoc]
  exact round_roundsTo hf rm ftz _ (Int.natAbs_ne_zero.mpr hv0) _

theorem sum_zero (h : signOf p * ((m : ℝ) * 2 ^ e) + signOf q * (n * 2 ^ d) = 0) :
    f.sum rm ftz p m e q n d = (zeroOf f (if m == 0 && n == 0 && p == q then p else rm == 3), 0) := by
  have hv := sum_scaled p q m n e d
  rw [h, mul_eq_zero, or_iff_left (by positivity)] at hv
  have hv0 : scaled p m e (min e d) + scaled q n d (min e d) = 0 := by exact_mod_cast hv
  unfold Fmt.sum
  dsimp only
  rw [hv0, if_pos (by decide)]
  rfl

/-- The sign of a sum that is zero. -/
theorem sum_zero_sign (h : signOf p * ((m : ℝ) * 2 ^ e) + signOf q * (n * 2 ^ d) = 0) :
    ((m = 0 ∧ n = 0) ∧ p = q → f.sum rm ftz p m e q n d = (zeroOf f p, 0)) ∧
    (¬ ((m = 0 ∧ n = 0) ∧ p = q) → f.sum rm ftz p m e q n d = (zeroOf f (rm == 3), 0)) := by
  rw [sum_zero rm ftz p q m n e d h]
  have hiff : (m == 0 && n == 0 && p == q) = true ↔ (m = 0 ∧ n = 0) ∧ p = q := by simp
  exact ⟨fun hz => by rw [if_pos (hiff.mpr hz)], fun hz => by rw [if_neg (mt hiff.mp hz)]⟩

end

theorem claims_floatExact : Claims.FloatExact := by
  intro f hfmt rm ftz a b c x y z _ hx hy hz
  have hf := roomy_of_mem hfmt
  obtain ⟨m, e, ha, rfl⟩ := operand_readFtz hf hx
  obtain ⟨n, d, hb, rfl⟩ := operand_readFtz hf hy
  obtain ⟨k, g, hc, rfl⟩ := operand_readFtz hf hz
  dsimp only
  rw [add_of_fin f rm ha hb, mul_of_fin f rm ha hb, fma_of_fin f rm ha hb hc, signed_mul]
  obtain ⟨hmul, hmul0⟩ := round_product hf rm ftz (negative f a != negative f b) (m * n) (e + d)
  refine ⟨sum_roundsTo hf rm ftz _ _ m n e d, fun h => ?_, hmul, hmul0, sum_roundsTo hf rm ftz _ _ (m * n) k (e + d) g, fun h => ?_⟩
  · rw [signed_eq_zero, signed_eq_zero]
    exact sum_zero_sign rm ftz _ _ m n e d h
  · rw [signed_eq_zero, signed_eq_zero]
    exact sum_zero_sign rm ftz _ _ (m * n) k (e + d) g h

/-! ### Infinities -/

section
variable (f : Fmt) (rm : Nat) {ftz : Bool} {a b c : Nat} {p q r : Bool} {m n k : Nat} {e d g : Int}

/-- A product of an infinity by what is not 0: what its factors are read as, and its sign. -/
def InfiniteProduct (x y : FVal) (p : Bool) : Prop :=
  ∃ s t, p = (s != t) ∧ (x = .inf s ∧ y = .inf t ∨ ∃ n d, n ≠ 0 ∧ (x = .inf s ∧ y = .fin t n d ∨ x = .fin s n d ∧ y = .inf t))

theorem InfiniteProduct.symm {x y : FVal} (h : InfiniteProduct x y p) : InfiniteProduct y x p := by
  obtain ⟨s, t, rfl, h⟩ := h
  refine ⟨t, s, bne_comm, ?_⟩
  rcases h with ⟨hx, hy⟩ | ⟨n, d, hn, ⟨hx, hy⟩ | ⟨hx, hy⟩⟩
  · exact .inl ⟨hy, hx⟩
  · exact .inr ⟨n, d, hn, .inr ⟨hy, hx⟩⟩
  · exact .inr ⟨n, d, hn, .inl ⟨hy, hx⟩⟩

theorem mul_of_infinite (h : InfiniteProduct (f.readFtz ftz a) (f.readFtz ftz b) p) : f.mul rm ftz a b = (f.signed p f.top, 0) := by
  obtain ⟨s, t, rfl, ⟨hx, hy⟩ | ⟨n, d, hn, ⟨hx, hy⟩ | ⟨hx, hy⟩⟩⟩ := h
  · exact mul_of_infs f rm hx hy
  · rw [(mul_of_inf_fin f rm hx hy).1, if_neg hn]
  · rw [(mul_of_inf_fin f rm hy hx).2, if_neg hn, bne_comm]

theorem fma_of_infinite_fin (h : InfiniteProduct (f.readFtz ftz a) (f.readFtz ftz b) p) (hc : f.readFtz ftz c = .fin r k g) :
    f.fma rm ftz a b c = (f.signed p f.top, 0) := by
  obtain ⟨s, t, rfl, ⟨hx, hy⟩ | ⟨n, d, hn, ⟨hx, hy⟩ | ⟨hx, hy⟩⟩⟩ := h
  all_goals
    rw [Fmt.fma, hx, hy, hc]
    simp [*, FVal.isNan]

theorem fma_of_infinite_inf (h : InfiniteProduct (f.readFtz ftz a) (f.readFtz ftz b) p) (hc : f.readFtz ftz c = .inf r) :
    f.fma rm ftz a b c = if r = p then (f.signed r f.top, 0) else (f.qnan, fNV) := by
  obtain ⟨s, t, rfl, ⟨hx, hy⟩ | ⟨n, d, hn, ⟨hx, hy⟩ | ⟨hx, hy⟩⟩⟩ := h
  all_goals
    rw [Fmt.fma, hx, hy, hc]
    simp [*, FVal.isNan]

theorem fma_of_fins_inf (ha : f.readFtz ftz a = .fin p m e) (hb : f.readFtz ftz b = .fin q n d) (hc : f.readFtz ftz c = .inf r) :
    f.fma rm ftz a b c = (f.signed r f.top, 0) := by
  rw [Fmt.fma, ha, hb, hc]
  rfl

end

theorem infiniteProduct_of {f : Fmt} (hf : Roomy f) {ftz : Bool} {a b : Nat} {y : ℝ} (ha : isInf f a)
    (hb : IsOperand f ftz b y ∧ y ≠ 0 ∨ isInf f b) :
    InfiniteProduct (f.readFtz ftz a) (f.readFtz ftz b) (negative f a != negative f b) := by
  have hra := readFtz_isInf hf ftz ha
  rcases hb with ⟨hy, h0⟩ | hb
  · obtain ⟨n, d, hrb, rfl⟩ := operand_readFtz hf hy
    exact ⟨_, _, rfl, .inr ⟨n, d, mt signed_eq_zero.mpr h0, .inl ⟨hra, hrb⟩⟩⟩
  · exact ⟨_, _, rfl, .inl ⟨hra, readFtz_isInf hf ftz hb⟩⟩

theorem claims_floatInfinities : Claims.FloatInfinities := by
  intro f hfmt rm ftz a b c x y ha
  have hf := roomy_of_mem hfmt
  have hra := readFtz_isInf hf ftz ha
  dsimp only
  simp only [← signed_top hf, ← qnan_eq_nanOf hf]
  refine ⟨fun hb => ?_, fun hb => ?_, fun hb hc => ?_⟩
  · rcases hb with hy | ⟨hb, hsign⟩
    · obtain ⟨n, d, hrb, -⟩ := operand_readFtz hf hy
      exact add_of_inf_fin f rm hra hrb
    · have hrb := readFtz_isInf hf ftz hb
      rw [hsign] at hrb
      rw [add_of_infs f rm hra hrb, add_of_infs f rm hrb hra, if_pos rfl]
      exact ⟨rfl, rfl⟩
  · have hprod := infiniteProduct_of hf ha hb
    refine ⟨mul_of_infinite f rm hprod, mul_of_infinite f rm hprod.symm, fun hc => ?_, fun hc => ?_⟩
    · rcases hc with hc | ⟨hc, hsign⟩
      · obtain ⟨k, g, hrc, -⟩ := operand_readFtz hf hc
        exact ⟨fma_of_infinite_fin f rm hprod hrc, fma_of_infinite_fin f rm hprod.symm hrc⟩
      · have hrc := readFtz_isInf hf ftz hc
        rw [fma_of_infinite_inf f rm hprod hrc, fma_of_infinite_inf f rm hprod.symm hrc, if_pos hsign, hsign]
        exact ⟨rfl, rfl⟩
    · have hrc := readFtz_isInf hf ftz hc.1
      rw [fma_of_infinite_inf f rm hprod hrc, fma_of_infinite_inf f rm hprod.symm hrc, if_neg hc.2]
      exact ⟨rfl, rfl⟩
  · obtain ⟨m, e, hrb, -⟩ := operand_readFtz hf hb
    obtain ⟨n, d, hrc, -⟩ := operand_readFtz hf hc
    exact fma_of_fins_inf f rm hrb hrc hra

/-! ### Minimum and maximum -/

/-- The code that an operand of `FMIN` or `FMAX` gives: a subnormal one is a zero where it is flushed. -/
def kept (f : Fmt) (ftz : Bool) (c : Nat) : Nat := if ftz && f.subnormal c then f.zero (negative f c) else c

/-- The magnitudes of two codes of finite numbers stand in the order of their values. -/
theorem value_lt_of_magnitude_lt {f : Fmt} {c d : Nat} (h : c % f.signBit < d % f.signBit) :
    (significand f c : ℝ) * 2 ^ lastPlace f c < significand f d * 2 ^ lastPlace f d := by
  have hc := significand_add_place f c
  have hd := significand_add_place f d
  have hsig := significand_lt f c
  rw [lastPlace, lastPlace]
  have hplace : expField f c - 1 ≤ expField f d - 1 := by
    rw [← magnitude_expField, ← magnitude_expField]
    exact Nat.sub_le_sub_right (Nat.div_le_div_right h.le) 1
  have hnormal : expField f d - 1 ≠ 0 → 2 ^ f.mbits ≤ significand f d := by
    intro h0
    rw [significand, if_neg (by omega)]
    omega
  generalize significand f c = i at *
  generalize significand f d = j at *
  generalize expField f c - 1 = s at *
  generalize expField f d - 1 = t at *
  rw [zpow_add₀ (by norm_num), zpow_add₀ (by norm_num), zpow_natCast, zpow_natCast, mul_left_comm, mul_left_comm (j : ℝ)]
  refine mul_lt_mul_of_pos_left ?_ (by positivity)
  have hnat : i * 2 ^ s < j * 2 ^ t := by
    obtain rfl | hlt : s = t ∨ s < t := by omega
    · exact Nat.mul_lt_mul_of_pos_right (by omega) (by positivity)
    · obtain ⟨k, rfl⟩ : ∃ k, t = s + 1 + k := ⟨t - (s + 1), by omega⟩
      calc i * 2 ^ s < 2 * 2 ^ f.mbits * 2 ^ s := Nat.mul_lt_mul_of_pos_right hsig (by positivity)
        _ ≤ 2 * j * 2 ^ s := Nat.mul_le_mul_right _ (Nat.mul_le_mul_left _ (hnormal (by omega)))
        _ ≤ 2 * j * 2 ^ s * 2 ^ k := Nat.le_mul_of_pos_right _ (by positivity)
        _ = j * 2 ^ (s + 1 + k) := by ring
  exact_mod_cast hnat

/-- Whether the model takes one number as less than another; of two equal ones, whether the first is negative. -/
def takenLess (x y : FVal) (neg : Bool) : Bool :=
  match x.cmp y with
  | .lt => true
  | .gt => false
  | .eq => neg

/-- The order of signs and magnitudes: −0 lies below +0. -/
def codeLess (p q : Bool) (i j : Nat) : Bool :=
  match p, q with
  | true, false => true
  | false, true => false
  | true, true => decide (j ≤ i)
  | false, false => decide (i < j)

/-- Two finite numbers whose magnitudes stand in one order. -/
theorem takenLess_fin {p q : Bool} {m n i j : Nat} {e d : Int} (hlt : i < j → (m : ℝ) * 2 ^ e < n * 2 ^ d)
    (heq : i = j → (m : ℝ) * 2 ^ e = n * 2 ^ d) (hgt : j < i → (n : ℝ) * 2 ^ d < m * 2 ^ e) :
    takenLess (.fin p m e) (.fin q n d) p = codeLess p q i j := by
  obtain ⟨hcmplt, hcmpeq, hcmpgt⟩ := cmp_fin p q m n e d
  have hU : (0 : ℝ) ≤ m * 2 ^ e := by positivity
  have hW : (0 : ℝ) ≤ n * 2 ^ d := by positivity
  generalize (m : ℝ) * 2 ^ e = U at *
  generalize (n : ℝ) * 2 ^ d = W at *
  unfold takenLess codeLess
  match p, q with
  | true, false =>
    obtain h | h : -U < W ∨ -U = W := lt_or_eq_of_le (by linarith)
    · rw [hcmplt (by simpa [signOf] using h)]
    · rw [hcmpeq (by simpa [signOf] using h)]
  | false, true =>
    obtain h | h : -W < U ∨ -W = U := lt_or_eq_of_le (by linarith)
    · rw [hcmpgt (by simpa [signOf] using h)]
    · rw [hcmpeq (by simpa [signOf] using h.symm)]
  | true, true =>
    obtain h | h | h := Nat.lt_trichotomy i j
    · rw [hcmpgt (by simpa [signOf] using hlt h), eq_comm, decide_eq_false_iff_not]
      omega
    · rw [hcmpeq (by simpa [signOf] using heq h), eq_comm, decide_eq_true_iff]
      omega
    · rw [hcmplt (by simpa [signOf] using hgt h), eq_comm, decide_eq_true_iff]
      omega
  | false, false =>
    obtain h | h | h := Nat.lt_trichotomy i j
    · rw [hcmplt (by simpa [signOf] using hlt h), eq_comm, decide_eq_true_iff]
      exact h
    · rw [hcmpeq (by simpa [signOf] using heq h), eq_comm, decide_eq_false_iff_not]
      omega
    · rw [hcmpgt (by simpa [signOf] using hgt h), eq_comm, decide_eq_false_iff_not]
      omega

section
variable {f : Fmt} (hf : Roomy f)
include hf

omit hf in
/-- Codes of one magnitude have one significand and one place. -/
theorem value_eq_of_magnitude_eq {c d : Nat} (h : c % f.signBit = d % f.signBit) :
    (significand f c : ℝ) * 2 ^ lastPlace f c = significand f d * 2 ^ lastPlace f d := by
  have hexp : expField f c = expField f d := by rw [← magnitude_expField, ← magnitude_expField, h]
  have hman : manField f c = manField f d := by rw [← magnitude_manField, ← magnitude_manField, h]
  rw [significand, significand, lastPlace, lastPlace, hexp, hman]

theorem magnitude_of_isInf {c : Nat} (h : isInf f c) : c % f.signBit = f.maxFin + 1 := by
  obtain ⟨hinf, hexp, hman⟩ := h
  have hE := two_pow_ebits hf
  have hP := two_pow_mbits hf
  have hpos : 1 * 2 ^ f.mbits ≤ (2 ^ f.ebits - 1) * 2 ^ f.mbits := Nat.mul_le_mul_right _ (by omega)
  rw [magnitude_eq, hexp, hman, Fmt.maxFin, Fmt.top, hinf, if_pos rfl, Nat.mul_comm]
  omega

/-- The model orders two codes by their signs and magnitudes. -/
theorem takenLess_read {a b : Nat} (ha : ¬ isNan f a) (hb : ¬ isNan f b) :
    takenLess (f.read a) (f.read b) (negative f a) = codeLess (negative f a) (negative f b) (a % f.signBit) (b % f.signBit) := by
  by_cases hia : isInf f a <;> by_cases hib : isInf f b
  · rw [read_isInf hia, read_isInf hib, magnitude_of_isInf hf hia, magnitude_of_isInf hf hib]
    cases negative f a <;> cases negative f b <;> simp [takenLess, codeLess, FVal.cmp]
  · have hle := magnitude_le_maxFin hf hb hib
    rw [read_isInf hia, read_fin hf hb hib, magnitude_of_isInf hf hia]
    cases negative f a <;> cases negative f b <;> simp [takenLess, codeLess, FVal.cmp]
    · omega
    · omega
  · have hle := magnitude_le_maxFin hf ha hia
    rw [read_fin hf ha hia, read_isInf hib, magnitude_of_isInf hf hib]
    cases negative f a <;> cases negative f b <;> simp [takenLess, codeLess, FVal.cmp]
    · omega
    · omega
  · rw [read_fin hf ha hia, read_fin hf hb hib]
    exact takenLess_fin value_lt_of_magnitude_lt value_eq_of_magnitude_eq value_lt_of_magnitude_lt

theorem read_zero (neg : Bool) : negative f (f.zero neg) = neg ∧ f.read (f.zero neg) = .fin neg 0 f.emin ∧ ¬ isNan f (f.zero neg) := by
  have hpos : 0 < f.signBit := by rw [Fmt.signBit]; positivity
  obtain ⟨-, hneg, hmag, hexp, hman⟩ := signed_fields hpos neg
  obtain ⟨hnan, hinf⟩ := finite_of_le_maxFin hf (hmag.trans_le (Nat.zero_le f.maxFin))
  rw [Fmt.signed, Nat.add_zero] at *
  rw [Nat.zero_div] at hexp
  rw [Nat.zero_mod] at hman
  refine ⟨hneg, ?_, hnan⟩
  rw [read_fin hf hnan hinf, hneg, significand, if_pos hexp, hman, lastPlace, hexp]
  simp

/-- An operand is read as what is kept of it. -/
theorem read_kept (ftz : Bool) (c : Nat) : f.readFtz ftz c = f.read (kept f ftz c) ∧ negative f (kept f ftz c) = negative f c ∧
    (¬ isNan f c → ¬ isNan f (kept f ftz c)) := by
  obtain ⟨hneg, hread, hnan⟩ := read_zero hf (negative f c)
  rw [Fmt.readFtz, kept]
  split
  · exact ⟨hread.symm, hneg, fun _ => hnan⟩
  · exact ⟨rfl, rfl, id⟩

omit hf in
/-- A zero is its own zero. -/
theorem kept_eq (ftz : Bool) {c : Nat} (hc : c < 2 * f.signBit) :
    (if ftz && expField f c == 0 then zeroOf f (negative f c) else c) = kept f ftz c := by
  have hcode := signed_negative hc
  have hman := significand_add_place f c
  rw [kept]
  by_cases hsub : f.subnormal c = true
  · rw [hsub, beq_iff_eq.mpr (subnormal_iff.mp hsub).1]
    rfl
  · rw [Bool.not_eq_true] at hsub
    rw [hsub, Bool.and_false, if_neg Bool.false_ne_true]
    split
    · next h =>
      have hexp : expField f c = 0 := beq_iff_eq.mp (Bool.and_eq_true_iff.mp h).2
      have h0 : manField f c = 0 := by
        by_contra h0
        rw [subnormal_iff.mpr ⟨hexp, h0⟩] at hsub
        cases hsub
      rw [hexp, significand, if_pos hexp, h0, Nat.zero_sub, Nat.zero_mul] at hman
      rw [← hman, Fmt.signed, Nat.add_zero] at hcode
      exact hcode
    · rfl

end

/-! ### The word's result -/

theorem pick_eq (f : Fmt) (lower nanm ftz : Bool) (a b : Nat) : f.pick lower nanm ftz a b =
    if (f.readFtz ftz a).snan || (f.readFtz ftz b).snan then (f.qnan, fNV)
    else if (f.readFtz ftz a).isNan && (f.readFtz ftz b).isNan then (f.qnan, 0)
    else if (f.readFtz ftz a).isNan then (if nanm then f.qnan else kept f ftz b, 0)
    else if (f.readFtz ftz b).isNan then (if nanm then f.qnan else kept f ftz a, 0)
    else (if takenLess (f.readFtz ftz a) (f.readFtz ftz b) (negative f a) == lower then kept f ftz a else kept f ftz b, 0) := rfl

/-- The place of a code in the order of values, -0 below +0. -/
def signedPlace (f : Fmt) (c : Nat) : Int := if negative f c then -((c % f.signBit : Nat) : Int) - 1 else ((c % f.signBit : Nat) : Int)

theorem signedPlace_of_codeLess (f : Fmt) (a b : Nat) :
    if codeLess (negative f a) (negative f b) (a % f.signBit) (b % f.signBit) = true then signedPlace f a ≤ signedPlace f b
    else signedPlace f b ≤ signedPlace f a := by
  unfold signedPlace codeLess
  generalize a % f.signBit = i
  generalize b % f.signBit = j
  match negative f a, negative f b with
  | true, false => simp; omega
  | false, true => simp; omega
  | true, true => by_cases h : j ≤ i <;> simp [h]; omega
  | false, false => by_cases h : i < j <;> simp [h] <;> omega

section
variable {f : Fmt} (hf : Roomy f) (lower nanm ftz : Bool) {a b : Nat}
include hf

theorem pick_signalling (h : isSignalling f a ∨ isSignalling f b) : f.pick lower nanm ftz a b = (nanOf f, 1) := by
  rw [pick_eq, if_pos (by rw [Bool.or_eq_true, readFtz_snan_iff hf, readFtz_snan_iff hf]; exact h), qnan_eq_nanOf hf]
  rfl

/-- Neither operand is a signalling NaN. -/
theorem pick_quiet (ha : ¬ isSignalling f a) (hb : ¬ isSignalling f b) : f.pick lower nanm ftz a b =
    (if (f.readFtz ftz a).isNan && (f.readFtz ftz b).isNan then nanOf f
    else if (f.readFtz ftz a).isNan then if nanm then nanOf f else kept f ftz b
    else if (f.readFtz ftz b).isNan then if nanm then nanOf f else kept f ftz a
    else if takenLess (f.readFtz ftz a) (f.readFtz ftz b) (negative f a) == lower then kept f ftz a else kept f ftz b, 0) := by
  have hquiet : ¬ ((f.readFtz ftz a).snan || (f.readFtz ftz b).snan) = true := by
    rw [Bool.or_eq_true, readFtz_snan_iff hf, readFtz_snan_iff hf]
    exact not_or.mpr ⟨ha, hb⟩
  rw [pick_eq, if_neg hquiet, qnan_eq_nanOf hf]
  simp only [apply_ite (·, (0 : BitVec 6))]

/-- Of two numbers the one that stands lower, or higher. -/
theorem pick_numbers (ha : ¬ isNan f a) (hb : ¬ isNan f b) :
    let r := if takenLess (f.readFtz ftz a) (f.readFtz ftz b) (negative f a) == lower then kept f ftz a else kept f ftz b
    (r = kept f ftz a ∨ r = kept f ftz b) ∧
      if lower = true then signedPlace f r ≤ signedPlace f (kept f ftz a) ∧ signedPlace f r ≤ signedPlace f (kept f ftz b)
      else signedPlace f (kept f ftz a) ≤ signedPlace f r ∧ signedPlace f (kept f ftz b) ≤ signedPlace f r := by
  obtain ⟨hreada, hnega, hkepta⟩ := read_kept hf ftz a
  obtain ⟨hreadb, -, hkeptb⟩ := read_kept hf ftz b
  have hplace := signedPlace_of_codeLess f (kept f ftz a) (kept f ftz b)
  rw [← takenLess_read hf (hkepta ha) (hkeptb hb), ← hreada, ← hreadb, hnega] at hplace
  generalize takenLess (f.readFtz ftz a) (f.readFtz ftz b) (negative f a) = less at hplace
  cases less <;> cases lower <;> simpa using hplace

end

theorem claims_floatMinMax : Claims.FloatMinMax := by
  intro lower nanm ftz a b
  have hf := roomy_F32
  have hkeep (w : Word) : (if ftz && expField F32 w.toNat == 0 then zeroOf F32 (negative F32 w.toNat) else w.toNat) = kept F32 ftz w.toNat :=
    kept_eq ftz w.isLt
  dsimp only
  rw [hkeep a, hkeep b]
  refine ⟨pick_signalling hf lower nanm ftz, fun ha hb => ?_⟩
  have hnan (w : Word) := readFtz_isNan_iff hf ftz (c := w.toNat)
  have hnot (w : Word) (h : ¬ isNan F32 w.toNat) : (F32.readFtz ftz w.toNat).isNan = false := by rw [← Bool.not_eq_true, hnan]; exact h
  rw [pick_quiet hf lower nanm ftz ha hb]
  refine ⟨rfl, fun hx hy => ?_, fun hx hy => ?_, fun hx hy => ?_, fun hx hy => ?_⟩
  · rw [(hnan a).mpr hx, (hnan b).mpr hy]
    rfl
  · rw [(hnan a).mpr hx, hnot b hy]
    rfl
  · rw [hnot a hx, (hnan b).mpr hy]
    rfl
  · rw [hnot a hx, hnot b hy]
    exact pick_numbers hf lower ftz hx hy

/-- Settles O57: an exact sum or product is a whole number of the smaller unit, which the model rounds once. -/
theorem floatResults : Obligations.FloatResults := by
  unfold Obligations.FloatResults
  exact ⟨claims_floatModes, claims_floatExact, claims_floatInfinities, claims_floatMinMax⟩

end Sys2Proof.Proofs
end


-- ==== Sys2Proof/Proofs/TileArithmetic.lean ====
section
/-! Accumulator tiles (R61 to R63): rounding to the grid, and the least exponent step with which a pass fits its tile. -/

namespace Sys2Proof.Proofs

open Sys2Proof.Machine Sys2Proof.Says Sys2Proof.Laws

/-! ### Maps with one entry for each key -/

section
variable {α β : Type} (d : α)

theorem rises_keys {lo : Nat} {m : SMap α} (h : Rises d lo m) : (m.map Prod.fst).Nodup ∧ ∀ k ∈ m.map Prod.fst, lo ≤ k := by
  induction m generalizing lo with
  | nil => exact ⟨List.nodup_nil, by simp⟩
  | cons e r ih =>
    obtain ⟨k, v⟩ := e
    obtain ⟨hk, -, hr⟩ := h
    obtain ⟨hnodup, hlow⟩ := ih hr
    rw [List.map_cons, List.nodup_cons]
    refine ⟨⟨fun hmem => ?_, hnodup⟩, fun j hj => ?_⟩
    · have := hlow k hmem
      omega
    · rcases List.mem_cons.mp hj with rfl | hj
      · exact hk
      · have := hlow j hj
        omega

theorem wf_keys [DecidableEq α] {m : SMap α} (h : SMap.wf d m = true) : (m.map Prod.fst).Nodup :=
  (rises_keys d ((wf_iff_rises d m).mp h)).1

theorem get_map {g : α → α} (hg : g d = d) (m : SMap α) (n : Nat) : SMap.get d (m.map fun e => (e.1, g e.2)) n = g (SMap.get d m n) := by
  induction m with
  | nil => exact hg.symm
  | cons e r ih =>
    rw [List.map_cons, SMap.get, SMap.get, ih]
    split <;> rfl

theorem get_of_not_mem {m : SMap α} {n : Nat} (h : n ∉ m.map Prod.fst) : SMap.get d m n = d := by
  induction m with
  | nil => rfl
  | cons e r ih =>
    rw [List.map_cons, List.mem_cons, not_or] at h
    rw [SMap.get, if_neg (Ne.symm h.1), ih h.2]

theorem get_of_mem {m : SMap α} (hm : (m.map Prod.fst).Nodup) {n : Nat} {v : α} (h : (n, v) ∈ m) : SMap.get d m n = v := by
  induction m with
  | nil => cases h
  | cons e r ih =>
    obtain ⟨k, w⟩ := e
    rw [List.map_cons, List.nodup_cons] at hm
    rw [SMap.get]
    rcases List.mem_cons.mp h with heq | hr
    · cases heq
      rw [if_pos rfl]
    · rw [if_neg fun hk : k = n => hm.1 (List.mem_map.mpr ⟨_, hr, hk.symm⟩), ih hm.2 hr]

theorem mem_of_get {m : SMap α} {n : Nat} (h : SMap.get d m n ≠ d) : (n, SMap.get d m n) ∈ m := by
  induction m with
  | nil => exact absurd rfl h
  | cons e r ih =>
    obtain ⟨k, w⟩ := e
    rw [SMap.get] at h ⊢
    by_cases hk : k = n
    · rw [if_pos hk, hk]
      exact List.mem_cons_self
    · rw [if_neg hk] at h ⊢
      exact List.mem_cons_of_mem _ (ih h)

/-- A filter keeps an entry or leaves its key unlisted. -/
theorem get_filter (p : Nat × α → Bool) {m : SMap α} (hm : (m.map Prod.fst).Nodup) (n : Nat) :
    SMap.get d (m.filter p) n = if p (n, SMap.get d m n) then SMap.get d m n else d := by
  have hkeys : ((m.filter p).map Prod.fst).Nodup := hm.sublist (List.filter_sublist.map _)
  by_cases hn : n ∈ (m.filter p).map Prod.fst
  · obtain ⟨⟨k, v⟩, hmem, rfl⟩ := List.mem_map.mp hn
    obtain ⟨hin, hp⟩ := List.mem_filter.mp hmem
    rw [get_of_mem d hkeys hmem, get_of_mem d hm hin, if_pos hp]
  · rw [get_of_not_mem d hn]
    by_cases hd : SMap.get d m n = d
    · rw [hd, ite_self]
    · refine (if_neg fun hp => hn ?_).symm
      exact List.mem_map_of_mem (f := Prod.fst) (List.mem_filter.mpr ⟨mem_of_get d hd, hp⟩)

/-- A fold that writes each entry of a list leaves other keys. -/
theorem get_foldl_put_of_not_mem [DecidableEq α] {key : β → Nat} (val : SMap α → β → α) (us : List β) (m : SMap α) {n : Nat} (h : ∀ u ∈ us, key u ≠ n) :
    SMap.get d (us.foldl (fun m u => SMap.put d (key u) (val m u) m) m) n = SMap.get d m n := by
  induction us generalizing m with
  | nil => rfl
  | cons u us ih =>
    rw [List.foldl_cons, ih _ fun v hv => h v (List.mem_cons_of_mem _ hv), get_put, if_neg (h u List.mem_cons_self)]

/-- A fold that writes each entry of a list, their keys distinct, writes each. -/
theorem get_foldl_put [DecidableEq α] {key : β → Nat} (val : β → α) {us : List β} (hus : (us.map key).Nodup) (m : SMap α) {u : β} (h : u ∈ us) :
    SMap.get d (us.foldl (fun m u => SMap.put d (key u) (val u) m) m) (key u) = val u := by
  induction us generalizing m with
  | nil => cases h
  | cons v us ih =>
    rw [List.map_cons, List.nodup_cons] at hus
    rw [List.foldl_cons]
    rcases List.mem_cons.mp h with rfl | h
    · rw [get_foldl_put_of_not_mem d (fun _ => val) us _ fun w hw heq => hus.1 (List.mem_map.mpr ⟨w, hw, heq⟩), get_put, if_pos rfl]
    · exact ih hus.2 _ h

theorem wf_foldl_put [DecidableEq α] {key : β → Nat} (val : SMap α → β → α) (us : List β) {m : SMap α} (h : SMap.wf d m = true) :
    SMap.wf d (us.foldl (fun m u => SMap.put d (key u) (val m u) m) m) = true := by
  induction us generalizing m with
  | nil => exact h
  | cons u us ih => exact ih (wf_put d _ _ m h)

end

/-! ### Rounding to the grid -/

theorem rneDy_scale (n : Int) (q : Nat) : rneDy (n, (q : Int)) = n * 2 ^ q := by
  rw [rneDy, if_pos (Int.natCast_nonneg q), Int.toNat_natCast]

theorem rneDy_shift (n : Int) (q : Nat) : rneDy (n, -((q + 1 : Nat) : Int)) =
    if 2 * (n % 2 ^ (q + 1)) > 2 ^ (q + 1) || (2 * (n % 2 ^ (q + 1)) == 2 ^ (q + 1) && n / 2 ^ (q + 1) % 2 != 0) then n / 2 ^ (q + 1) + 1
    else n / 2 ^ (q + 1) := by
  rw [rneDy, if_neg (show ¬ 0 ≤ -((q + 1 : Nat) : Int) by omega)]
  simp only [neg_neg, Int.toNat_natCast]

/-- Distance and parity of the nearest multiple of D, from the quotient and the remainder. -/
theorem nearest_multiple {n D f r : Int} (hn : n = D * f + r) (h0 : 0 ≤ r) (hr : r < D) {j : Int}
    (hj : j = if 2 * r > D || (2 * r == D && f % 2 != 0) then f + 1 else f) :
    2 * (j * D - n).natAbs ≤ D ∧ (2 * (j * D - n).natAbs = D → j % 2 = 0) := by
  have hup : (f + 1) * D - n = D - r := by rw [hn]; ring
  have hdown : f * D - n = -r := by rw [hn]; ring
  split at hj
  · next hc =>
    rw [Bool.or_eq_true, decide_eq_true_eq, Bool.and_eq_true, beq_iff_eq, bne_iff_ne] at hc
    rw [hj, hup]
    omega
  · next hc =>
    rw [Bool.or_eq_true, decide_eq_true_eq, Bool.and_eq_true, beq_iff_eq, bne_iff_ne] at hc
    rw [hj, hdown]
    omega

theorem claims_gridRounding : Claims.GridRounding := by
  intro n q
  dsimp only
  cases q with
  | zero =>
    have hexact : rneDy (n, -((0 : Nat) : Int)) = n := by simp [rneDy]
    refine ⟨?_, fun _ h => absurd rfl h, rneDy_scale n 0⟩
    rw [hexact]
    simp
  | succ q =>
    have hpos : (0 : Int) < 2 ^ (q + 1) := by positivity
    obtain ⟨hnear, heven⟩ := nearest_multiple (Int.mul_ediv_add_emod n (2 ^ (q + 1))).symm (Int.emod_nonneg n hpos.ne')
      (Int.emod_lt_of_pos n hpos) (rneDy_shift n q)
    refine ⟨by exact_mod_cast hnear, fun h _ => heven (by exact_mod_cast h), rneDy_scale n (q + 1)⟩

/-! ### A pass into a tile -/

/-- A grid step of an element. -/
def stepped (k : Nat) (m : Int × Bool) : Int × Bool := if m.2 then m else (rneDy (m.1, -(k : Int)), false)

/-- The elements with those marked whose product is a NaN. -/
def markedElems (t : Tile) (xs : List (Nat × Option (Int × Int))) : SMap (Int × Bool) :=
  (xs.filter fun x => x.2.isNone).foldl (fun m x => SMap.put (0, false) x.1 ((SMap.get (0, false) m x.1).1, true) m) t.elems

/-- The updates of live elements: the element, its old value, its product. -/
def liveUpdates (t : Tile) (xs : List (Nat × Option (Int × Int))) : List (Nat × Int × (Int × Int)) :=
  xs.filterMap fun x => match x.2 with
    | some v => if (SMap.get (0, false) (markedElems t xs) x.1).2 then none else some (x.1, (SMap.get (0, false) (markedElems t xs) x.1).1, v)
    | none => none

/-- What an element with old value m and product v becomes by a step of k. -/
def updated (t : Tile) (k : Nat) (m : Int) (v : Int × Int) : Int := rneDy (m, -(k : Int)) + rneDy (v.1, v.2 - (t.e + k))

/-- The step of a pass. -/
def passStep (t : Tile) (xs : List (Nat × Option (Int × Int))) : Nat :=
  renorm t.e ((liveUpdates t xs).map fun u => (u.2.1, u.2.2)) 65536 0

/-- The elements before the products are added. -/
def steppedElems (t : Tile) (xs : List (Nat × Option (Int × Int))) : SMap (Int × Bool) :=
  ((markedElems t xs).map fun m => (m.1, stepped (passStep t xs) m.2)).filter fun m => m.2 != (0, false)

theorem add_eq (t : Tile) (xs : List (Nat × Option (Int × Int))) : t.add xs = { t with
    e := t.e + passStep t xs
    elems := (liveUpdates t xs).foldl (fun m u => SMap.put (0, false) u.1
      (updated t (passStep t xs) u.2.1 u.2.2, decide (tileBound ≤ (updated t (passStep t xs) u.2.1 u.2.2).natAbs)) m) (steppedElems t xs) } := rfl

section
variable {t : Tile} {xs : List (Nat × Option (Int × Int))}

theorem foldl_mark (us : List (Nat × Option (Int × Int))) (m : SMap (Int × Bool)) (n : Nat) : SMap.get (0, false)
    (us.foldl (fun m x => SMap.put (0, false) x.1 ((SMap.get (0, false) m x.1).1, true) m) m) n =
      if n ∈ us.map Prod.fst then ((SMap.get (0, false) m n).1, true) else SMap.get (0, false) m n := by
  induction us generalizing m with
  | nil => rfl
  | cons u us ih =>
    rw [List.foldl_cons, ih, get_put, List.map_cons]
    by_cases hu : u.1 = n
    · subst hu
      simp
    · by_cases hn : n ∈ us.map Prod.fst
      · rw [if_pos hn, if_neg hu, if_pos (List.mem_cons_of_mem _ hn)]
      · rw [if_neg hn, if_neg hu, if_neg fun h => (List.mem_cons.mp h).elim (fun h => hu h.symm) hn]

theorem get_marked (t : Tile) (xs : List (Nat × Option (Int × Int))) (n : Nat) :
    SMap.get (0, false) (markedElems t xs) n = if (n, none) ∈ xs then ((t.at_ n).1, true) else t.at_ n := by
  rw [markedElems, foldl_mark]
  refine if_congr ?_ rfl rfl
  constructor
  · intro h
    obtain ⟨⟨k, v⟩, hmem, rfl⟩ := List.mem_map.mp h
    obtain ⟨hmem, hnone⟩ := List.mem_filter.mp hmem
    obtain rfl := Option.isNone_iff_eq_none.mp hnone
    exact hmem
  · intro h
    exact List.mem_map.mpr ⟨(n, none), List.mem_filter.mpr ⟨h, rfl⟩, rfl⟩

theorem mem_liveUpdates {n : Nat} {m : Int} {v : Int × Int} : (n, m, v) ∈ liveUpdates t xs ↔
    (n, some v) ∈ xs ∧ SMap.get (0, false) (markedElems t xs) n = (m, false) := by
  rw [liveUpdates, List.mem_filterMap]
  constructor
  · rintro ⟨⟨k, v'⟩, hmem, h⟩
    cases v' with
    | none => cases h
    | some w =>
      dsimp only at h
      split at h
      · cases h
      · next hlive =>
        obtain ⟨rfl, rfl, rfl⟩ : k = n ∧ (SMap.get (0, false) (markedElems t xs) k).1 = m ∧ w = v := by simpa using h
        exact ⟨hmem, Prod.ext rfl (Bool.not_eq_true _ ▸ hlive)⟩
  · rintro ⟨hmem, hget⟩
    exact ⟨_, hmem, by simp [hget]⟩

theorem key_of_liveUpdates {u : Nat × Int × (Int × Int)} (h : u ∈ liveUpdates t xs) : (u.1, some u.2.2) ∈ xs ∧
    (SMap.get (0, false) (markedElems t xs) u.1).2 = false := by
  obtain ⟨n, m, v⟩ := u
  obtain ⟨hmem, hget⟩ := mem_liveUpdates.mp h
  exact ⟨hmem, congrArg Prod.snd hget⟩

/-- A filter that keeps a key of what it takes. -/
theorem map_filterMap_sublist {α β γ : Type} {f : α → Option β} {g : β → γ} {h : α → γ} (hf : ∀ x y, f x = some y → g y = h x) (l : List α) :
    ((l.filterMap f).map g).Sublist (l.map h) := by
  induction l with
  | nil => exact List.Sublist.slnil
  | cons x l ih =>
    rw [List.filterMap_cons, List.map_cons]
    split
    · exact ih.cons _
    · next y hy =>
      rw [List.map_cons, hf x y hy]
      exact ih.cons_cons _

theorem keys_liveUpdates (t : Tile) (xs : List (Nat × Option (Int × Int))) : ((liveUpdates t xs).map Prod.fst).Sublist (xs.map Prod.fst) := by
  refine map_filterMap_sublist (fun x y h => ?_) xs
  obtain ⟨n, v⟩ := x
  cases v with
  | none => cases h
  | some w =>
    dsimp only at h
    split at h
    · cases h
    · cases h
      rfl

/-- An element whose mark is set, or that no product reaches, is not updated. -/
theorem at_add_of_not_live (helems : SMap.wf (0, false) t.elems = true) {n : Nat} (h : ∀ u ∈ liveUpdates t xs, u.1 ≠ n) :
    (t.add xs).at_ n = stepped (passStep t xs) (SMap.get (0, false) (markedElems t xs) n) := by
  have hkeys : (((markedElems t xs).map fun m => (m.1, stepped (passStep t xs) m.2)).map Prod.fst).Nodup := by
    rw [List.map_map]
    exact wf_keys (0, false) (wf_foldl_put (0, false) _ _ helems)
  have hzero : stepped (passStep t xs) (0, false) = (0, false) := by
    have h0 : rneDy (0, -(passStep t xs : Int)) = 0 := by
      cases passStep t xs with
      | zero => rfl
      | succ k => rw [rneDy_shift]; simp
    rw [stepped, if_neg Bool.false_ne_true, h0]
  rw [Tile.at_, add_eq]
  dsimp only
  rw [get_foldl_put_of_not_mem (0, false) _ _ _ h, steppedElems, get_filter _ _ hkeys, get_map _ hzero]
  by_cases hd : stepped (passStep t xs) (SMap.get (0, false) (markedElems t xs) n) = (0, false)
  · rw [hd, ite_self]
  · exact if_pos (bne_iff_ne.mpr hd)

theorem at_add_of_live (hkeys : (xs.map Prod.fst).Nodup) {n : Nat} {m : Int} {v : Int × Int} (h : (n, m, v) ∈ liveUpdates t xs) :
    (t.add xs).at_ n = (updated t (passStep t xs) m v, decide (tileBound ≤ (updated t (passStep t xs) m v).natAbs)) := by
  have hlive : ((liveUpdates t xs).map Prod.fst).Nodup := hkeys.sublist (keys_liveUpdates t xs)
  rw [Tile.at_, add_eq]
  exact get_foldl_put (0, false) (fun u : Nat × Int × (Int × Int) =>
    (updated t (passStep t xs) u.2.1 u.2.2, decide (tileBound ≤ (updated t (passStep t xs) u.2.1 u.2.2).natAbs))) hlive _ h

end

/-! ### The least step -/

/-- Some live element does not fit at a step of k. -/
def overfull (e : Int) (us : List (Int × (Int × Int))) (k : Nat) : Bool :=
  us.any fun u => tileBound ≤ (rneDy (u.1, -(k : Int)) + rneDy (u.2.1, u.2.2 - (e + k))).natAbs

theorem renorm_spec (e : Int) (us : List (Int × (Int × Int))) (n k : Nat) :
    (∀ j, k ≤ j → j < renorm e us n k → (j : Int) < 32767 - e ∧ overfull e us j = true) ∧ k ≤ renorm e us n k ∧
      (renorm e us n k = k + n ∨ ¬ ((renorm e us n k : Int) < 32767 - e ∧ overfull e us (renorm e us n k) = true)) := by
  induction n generalizing k with
  | zero => exact ⟨fun j hk hj => absurd hj (by rw [renorm]; omega), le_rfl, .inl rfl⟩
  | succ n ih =>
    have hstep : renorm e us (n + 1) k = if (k : Int) < 32767 - e && overfull e us k then renorm e us n (k + 1) else k := rfl
    by_cases h : (k : Int) < 32767 - e ∧ overfull e us k = true
    · obtain ⟨hall, hle, hend⟩ := ih (k + 1)
      rw [hstep.trans (if_pos (by simpa using h))]
      refine ⟨fun j hk hj => ?_, by omega, hend.imp_left fun h => by omega⟩
      obtain rfl | hk : k = j ∨ k + 1 ≤ j := by omega
      · exact h
      · exact hall j hk hj
    · rw [hstep.trans (if_neg (by simpa using h))]
      exact ⟨fun j hk hj => absurd hj (by omega), le_rfl, .inr h⟩

/-- The fuel is enough for every exponent of a tile. -/
theorem passStep_spec {t : Tile} (xs : List (Nat × Option (Int × Int))) (hlow : -32768 ≤ t.e) (hhigh : t.e ≤ 32767) :
    (∀ j < passStep t xs, overfull t.e ((liveUpdates t xs).map fun u => (u.2.1, u.2.2)) j = true) ∧ t.e + passStep t xs ≤ 32767 ∧
      (t.e + passStep t xs < 32767 → overfull t.e ((liveUpdates t xs).map fun u => (u.2.1, u.2.2)) (passStep t xs) = false) := by
  obtain ⟨hall, -, hend⟩ := renorm_spec t.e ((liveUpdates t xs).map fun u => (u.2.1, u.2.2)) 65536 0
  rw [← passStep] at hall hend
  have hbound : t.e + passStep t xs ≤ 32767 := by
    by_cases h0 : passStep t xs = 0
    · omega
    · have := (hall (passStep t xs - 1) (by omega) (by omega)).1
      omega
  refine ⟨fun j hj => (hall j (Nat.zero_le j) hj).2, hbound, fun h => ?_⟩
  rcases hend with hend | hend
  · omega
  · rw [← Bool.not_eq_true]
    exact fun hover => hend ⟨by omega, hover⟩

theorem overfull_iff {t : Tile} {xs : List (Nat × Option (Int × Int))} {k : Nat} :
    overfull t.e ((liveUpdates t xs).map fun u => (u.2.1, u.2.2)) k = true ↔
      ∃ n m v, (n, m, v) ∈ liveUpdates t xs ∧ 2 ^ 46 ≤ (updated t k m v).natAbs := by
  rw [overfull, List.any_map, List.any_eq_true]
  constructor
  · rintro ⟨⟨n, m, v⟩, hmem, h⟩
    have hover : tileBound ≤ (updated t k m v).natAbs := of_decide_eq_true h
    exact ⟨n, m, v, hmem, by rw [tileBound] at hover; exact_mod_cast hover⟩
  · rintro ⟨n, m, v, hmem, h⟩
    have hover : tileBound ≤ (updated t k m v).natAbs := by rw [tileBound]; exact_mod_cast h
    exact ⟨(n, m, v), hmem, decide_eq_true hover⟩

theorem claims_tileAdds : Claims.TileAdds := by
  intro t xs helems hkeys hlow hhigh
  obtain ⟨hall, hbound, hend⟩ := passStep_spec xs hlow hhigh
  have hunique {n : Nat} {v w : Option (Int × Int)} (hv : (n, v) ∈ xs) (hw : (n, w) ∈ xs) : v = w :=
    (get_of_mem none hkeys hv).symm.trans (get_of_mem none hkeys hw)
  have hlive {n : Nat} {v : Int × Int} (hv : (n, some v) ∈ xs) (hn : (t.at_ n).2 = false) : (n, (t.at_ n).1, v) ∈ liveUpdates t xs := by
    refine mem_liveUpdates.mpr ⟨hv, ?_⟩
    rw [get_marked, if_neg fun h => by cases hunique hv h]
    exact Prod.ext rfl hn
  have hback {n : Nat} {m : Int} {v : Int × Int} (h : (n, m, v) ∈ liveUpdates t xs) : (n, some v) ∈ xs ∧ t.at_ n = (m, false) := by
    obtain ⟨hv, hget⟩ := mem_liveUpdates.mp h
    rw [get_marked, if_neg fun h => by cases hunique hv h] at hget
    exact ⟨hv, hget⟩
  have hdead {n : Nat} (h : (SMap.get (0, false) (markedElems t xs) n).2 = true) (u : Nat × Int × (Int × Int)) (hu : u ∈ liveUpdates t xs) : u.1 ≠ n := by
    rintro rfl
    rw [(key_of_liveUpdates hu).2] at h
    cases h
  dsimp only
  refine ⟨passStep t xs, rfl, hbound, fun n hn => ?_, fun n hn => ?_, fun n _ hnan => ?_, fun n v hv hn => ?_, fun j hj => ?_, fun h n v hv hn => ?_⟩
  · rw [at_add_of_not_live helems fun u hu hun => hn (List.mem_map.mpr ⟨_, (key_of_liveUpdates hu).1, hun⟩), get_marked,
      if_neg fun h => hn (List.mem_map_of_mem (f := Prod.fst) h)]
    rfl
  · have hmark : SMap.get (0, false) (markedElems t xs) n = ((t.at_ n).1, true) := by rw [get_marked, if_pos hn]
    rw [at_add_of_not_live helems (hdead (by rw [hmark])), hmark]
    rfl
  · have hmark : SMap.get (0, false) (markedElems t xs) n = t.at_ n := by
      rw [get_marked]
      split
      · exact Prod.ext rfl hnan.symm
      · rfl
    rw [at_add_of_not_live helems (hdead (by rw [hmark, hnan])), hmark, stepped, if_pos hnan]
  · rw [at_add_of_live hkeys (hlive hv hn), tileBound, updated]
    refine Prod.ext rfl (decide_eq_decide.mpr ?_)
    norm_cast
  · obtain ⟨n, m, v, hmem, hover⟩ := overfull_iff.mp (hall j hj)
    obtain ⟨hv, hat⟩ := hback hmem
    refine ⟨n, v, hv, by rw [hat], ?_⟩
    rw [hat]
    exact hover
  · by_contra hover
    have := overfull_iff.mpr ⟨n, _, v, hlive hv hn, Nat.not_lt.mp hover⟩
    rw [hend h] at this
    cases this

end Sys2Proof.Proofs
end


-- ==== Sys2Proof/Proofs/TileValues.lean ====
section
/-! What `ACCZ` and `ACCNORM` make of a tile, and the values that enter it and leave it (R52, R62, R64, R274, R275). -/

namespace Sys2Proof.Proofs

open Sys2Proof.Machine Sys2Proof.Says Sys2Proof.Laws

/-! ### Raising the elements -/

/-- The greatest magnitude of a live element. -/
def bigOf (t : Tile) : Nat := t.elems.foldl (fun b m => if m.2.2 then b else max b m.2.1.natAbs) 0

theorem foldl_max_spec (m : SMap (Int × Bool)) (b : Nat) :
    let r := m.foldl (fun b m => if m.2.2 then b else max b m.2.1.natAbs) b
    b ≤ r ∧ (∀ e ∈ m, e.2.2 = false → e.2.1.natAbs ≤ r) ∧ (r = b ∨ ∃ e ∈ m, e.2.2 = false ∧ e.2.1.natAbs = r) := by
  induction m generalizing b with
  | nil => exact ⟨le_rfl, by simp, .inl rfl⟩
  | cons x m ih =>
    obtain ⟨hle, hall, hreach⟩ := ih (if x.2.2 then b else max b x.2.1.natAbs)
    rw [List.foldl_cons]
    generalize m.foldl (fun b m => if m.2.2 then b else max b m.2.1.natAbs) (if x.2.2 then b else max b x.2.1.natAbs) = r at hle hall hreach
    cases hx : x.2.2 with
    | true =>
      rw [hx, if_pos rfl] at hle hreach
      refine ⟨hle, fun e he hlive => ?_, hreach.imp_right fun ⟨e, he, h⟩ => ⟨e, List.mem_cons_of_mem _ he, h⟩⟩
      rcases List.mem_cons.mp he with rfl | he
      · rw [hx] at hlive
        cases hlive
      · exact hall e he hlive
    | false =>
      rw [hx, if_neg Bool.false_ne_true] at hle hreach
      refine ⟨(le_max_left ..).trans hle, fun e he hlive => ?_, ?_⟩
      · rcases List.mem_cons.mp he with rfl | he
        · exact (le_max_right ..).trans hle
        · exact hall e he hlive
      · rcases hreach with hr | ⟨e, he, h⟩
        · rcases max_choice b x.2.1.natAbs with hmax | hmax
          · exact .inl (hr.trans hmax)
          · exact .inr ⟨x, List.mem_cons_self, hx, (hr.trans hmax).symm⟩
        · exact .inr ⟨e, List.mem_cons_of_mem _ he, h⟩

/-- The greatest magnitude bounds every live element, and a live element has it. -/
theorem bigOf_spec {t : Tile} (helems : SMap.wf (0, false) t.elems = true) :
    (∀ n, (t.at_ n).2 = false → (t.at_ n).1.natAbs ≤ bigOf t) ∧ (bigOf t = 0 ∨ ∃ n, (t.at_ n).2 = false ∧ (t.at_ n).1.natAbs = bigOf t) := by
  obtain ⟨-, hall, hreach⟩ := foldl_max_spec t.elems 0
  refine ⟨fun n hn => ?_, hreach.imp_right ?_⟩
  · by_cases hd : t.at_ n = (0, false)
    · rw [hd]
      exact Nat.zero_le _
    · exact hall _ (mem_of_get (0, false) hd) hn
  · rintro ⟨⟨n, v⟩, hmem, hlive, habs⟩
    have hat : t.at_ n = v := get_of_mem (0, false) (wf_keys (0, false) helems) hmem
    exact ⟨n, by rw [hat]; exact hlive, by rw [hat]; exact habs⟩

/-- A step of j keeps the elements and the exponent in range. -/
def Raises (e : Int) (big j : Nat) : Prop := big * 2 ^ j < 2 ^ 46 ∧ -32768 ≤ e - (j : Int)

theorem normStep_spec (e : Int) (big n : Nat) : normStep e big n ≤ n ∧ (normStep e big n = 0 ∨ Raises e big (normStep e big n)) ∧
    ∀ j, normStep e big n < j → j ≤ n → ¬ Raises e big j := by
  induction n with
  | zero => exact ⟨le_rfl, .inl rfl, fun j hj hn => absurd hj (by rw [normStep]; omega)⟩
  | succ n ih =>
    have hstep : normStep e big (n + 1) =
        if big * 2 ^ (n + 1) < 2 ^ 46 && -32768 ≤ e - ((n + 1 : Nat) : Int) then n + 1 else normStep e big n := rfl
    by_cases h : Raises e big (n + 1)
    · rw [hstep.trans (if_pos (by rw [Bool.and_eq_true, decide_eq_true_eq, decide_eq_true_eq]; exact h))]
      exact ⟨le_rfl, .inr h, fun j hj hn => absurd hj (by omega)⟩
    · rw [hstep.trans (if_neg (by rw [Bool.and_eq_true, decide_eq_true_eq, decide_eq_true_eq]; exact h))]
      obtain ⟨hle, hfits, hlast⟩ := ih
      refine ⟨by omega, hfits, fun j hj hn => ?_⟩
      obtain rfl | hn : j = n + 1 ∨ j ≤ n := by omega
      · exact h
      · exact hlast j hj hn

/-- An element raised by j. -/
def raised (j : Nat) (m : Int × Bool) : Int × Bool := if m.2 then m else (m.1 * 2 ^ j, false)

theorem norm_eq (t : Tile) (slot : BitVec 64) : t.norm slot = if bigOf t == 0 then { t with e := slotInitexp slot }
    else { t with elems := t.elems.map (fun m => (m.1, raised (normStep t.e (bigOf t) 46) m.2)), e := t.e - normStep t.e (bigOf t) 46 } := rfl

theorem norm_of_zero {t : Tile} (helems : SMap.wf (0, false) t.elems = true) (slot : BitVec 64)
    (h : ∀ n, (t.at_ n).2 = false → (t.at_ n).1 = 0) : t.norm slot = { t with e := slotInitexp slot } := by
  have hbig : bigOf t = 0 := by
    rcases (bigOf_spec helems).2 with hbig | ⟨n, hn, habs⟩
    · exact hbig
    · rw [← habs, h n hn]
      rfl
  rw [norm_eq, hbig]
  rfl

section
variable {t : Tile} (helems : SMap.wf (0, false) t.elems = true) (slot : BitVec 64) (h : ∃ n, (t.at_ n).2 = false ∧ (t.at_ n).1 ≠ 0)
include helems h

theorem bigOf_pos : 0 < bigOf t := by
  obtain ⟨n, hn, hne⟩ := h
  exact (Int.natAbs_pos.mpr hne).trans_le ((bigOf_spec helems).1 n hn)

theorem norm_of_nonzero : t.norm slot =
    { t with elems := t.elems.map (fun m => (m.1, raised (normStep t.e (bigOf t) 46) m.2)), e := t.e - normStep t.e (bigOf t) 46 } := by
  rw [norm_eq, if_neg (by simpa using (bigOf_pos helems h).ne')]

theorem at_norm (n : Nat) : (t.norm slot).at_ n = raised (normStep t.e (bigOf t) 46) (t.at_ n) := by
  rw [norm_of_nonzero helems slot h]
  exact get_map (0, false) (by simp [raised]) t.elems n

/-- The step is the greatest that fits. -/
theorem normStep_greatest (hlow : -32768 ≤ t.e) (hfits : ∀ n, (t.at_ n).2 = false → (t.at_ n).1.natAbs < 2 ^ 46) :
    Raises t.e (bigOf t) (normStep t.e (bigOf t) 46) ∧ ¬ Raises t.e (bigOf t) (normStep t.e (bigOf t) 46 + 1) := by
  obtain ⟨hle, hraises, hlast⟩ := normStep_spec t.e (bigOf t) 46
  have hpos := bigOf_pos helems h
  refine ⟨hraises.elim (fun h0 => ?_) id, ?_⟩
  · rw [h0]
    obtain hbig | ⟨n, hn, habs⟩ := (bigOf_spec helems).2
    · omega
    · refine ⟨?_, by omega⟩
      rw [pow_zero, Nat.mul_one, ← habs]
      exact hfits n hn
  · by_cases hj : normStep t.e (bigOf t) 46 + 1 ≤ 46
    · exact hlast _ (by omega) hj
    · rintro ⟨hfit, -⟩
      have hpow : (2 : Nat) ^ 46 ≤ 2 ^ (normStep t.e (bigOf t) 46 + 1) := Nat.pow_le_pow_right Nat.two_pos (Nat.not_le.mp hj).le
      exact absurd hfit (Nat.not_lt.mpr (hpow.trans (Nat.le_mul_of_pos_left _ hpos)))

end

theorem natAbs_mul_two_pow (m : Int) (j : Nat) : (m * 2 ^ j).natAbs = m.natAbs * 2 ^ j := by
  rw [Int.natAbs_mul, Int.natAbs_pow]
  rfl

theorem qnan_slotOut (slot : BitVec 64) : (slotOut slot).qnan = match slotOutfmt slot with | 0 => 0x7FC00000 | 1 => 0x7FC0 | _ => 0x7E00 := by
  unfold slotOut
  match slotOutfmt slot with
  | 0 => rfl
  | 1 => rfl
  | n + 2 => exact (by decide : F16.qnan = 0x7E00)

theorem read_nan {t : Tile} (slot : BitVec 64) {n : Nat} (h : (t.at_ n).2 = true) : t.read slot n = (slotOut slot).qnan := by
  rw [Tile.read, h]
  rfl

theorem claims_tileOperations : Claims.TileOperations := by
  intro t slot
  refine ⟨⟨rfl, rfl, fun n => rfl⟩, fun helems hlow hfits => ?_, fun n hn => (read_nan slot hn).trans (qnan_slotOut slot)⟩
  refine ⟨?_, fun h => ?_, fun h => ?_⟩
  · rw [norm_eq]
    split <;> rfl
  · rw [norm_of_zero helems slot h]
    exact ⟨rfl, fun n => rfl⟩
  · obtain ⟨hraises, hlast⟩ := normStep_greatest helems h hlow hfits
    have he : (t.norm slot).e = t.e - normStep t.e (bigOf t) 46 := by rw [norm_of_nonzero helems slot h]
    have hat := at_norm helems slot h
    generalize normStep t.e (bigOf t) 46 = j at *
    refine ⟨j, he, hraises.2, hat, fun n hn => ?_, fun hroom => ?_⟩
    · rw [natAbs_mul_two_pow]
      exact (Nat.mul_le_mul_right _ ((bigOf_spec helems).1 n hn)).trans_lt hraises.1
    · have hbig : 2 ^ 46 ≤ bigOf t * 2 ^ (j + 1) := by
        by_contra hlt
        exact hlast ⟨Nat.not_le.mp hlt, by push_cast; omega⟩
      obtain h0 | ⟨n, hn, habs⟩ := (bigOf_spec helems).2
      · rw [h0] at hbig
        omega
      · refine ⟨n, hn, ?_⟩
        rw [natAbs_mul_two_pow, habs]
        exact hbig

/-! ### Blocks -/

theorem blockElems_wide {slot : BitVec 64} (h : slotOutfmt slot = 0) (fr lane j : Nat) :
    blockElems slot fr lane j = [128 * (fr + lane / 8) + (16 * (lane % 8) + j)] := by
  rw [blockElems, if_pos (by rw [h]; rfl), Nat.add_assoc]

theorem blockElems_narrow {slot : BitVec 64} (h : slotOutfmt slot ≠ 0) (fr lane j : Nat) :
    blockElems slot fr lane j = [128 * (fr + lane / 4) + (32 * (lane % 4) + 2 * j), 128 * (fr + lane / 4) + (32 * (lane % 4) + 2 * j) + 1] := by
  rw [blockElems, if_neg (by simpa using h)]
  simp only [Nat.add_assoc]

theorem claims_tileBlocks : Claims.TileBlocks := by
  intro t slot fr lane j
  refine ⟨fun h => ?_, fun h => ?_⟩
  · rw [Tile.blockWord, blockElems_wide h]
  · rw [Tile.blockWord, blockElems_narrow h]

/-! ### Exact values -/

theorem cast_dy (v : Int × Int) : (dy v : ℝ) = v.1 * 2 ^ v.2 := by
  rw [dy]
  push_cast
  rfl

/-- A code has an exact value where it is finite, and that is its value. -/
theorem exact_spec {f : Fmt} (hf : Roomy f) (c : Nat) :
    (∀ v, f.exact c = some v → IsValue f c (dy v : ℝ)) ∧ (f.exact c = none ↔ isNan f c ∨ isInf f c) := by
  by_cases hnan : isNan f c
  · obtain ⟨sig, hread, -⟩ := read_isNan hf hnan
    have hnone : f.exact c = none := by rw [Fmt.exact, hread]
    rw [hnone]
    exact ⟨fun v h => (by cases h), iff_of_true rfl (.inl hnan)⟩
  · by_cases hinf : isInf f c
    · have hnone : f.exact c = none := by rw [Fmt.exact, read_isInf hinf]
      rw [hnone]
      exact ⟨fun v h => (by cases h), iff_of_true rfl (.inr hinf)⟩
    · have hsome : f.exact c = some (if negative f c then -(significand f c : Int) else significand f c, lastPlace f c) := by
        rw [Fmt.exact, read_fin hf hnan hinf]
      rw [hsome]
      refine ⟨fun v h => ?_, iff_of_false (Option.some_ne_none _) (not_or.mpr ⟨hnan, hinf⟩)⟩
      cases h
      refine isValue_iff.mpr ⟨hnan, hinf, ?_⟩
      rw [cast_dy]
      cases negative f c <;> simp [signOf]

theorem claims_elementValues : Claims.ElementValues := by
  intro c
  refine ⟨fun e he => ?_, fun hc => ⟨_, rfl, ?_⟩, exact_spec roomy_F32 c⟩
  · simp only [List.mem_cons, List.not_mem_nil, or_false] at he
    rcases he with rfl | rfl | rfl
    · exact exact_spec roomy_E4M3 c
    · exact exact_spec roomy_BF16 c
    · exact exact_spec roomy_F16 c
  · have hbyte : sext c 8 = (BitVec.ofNat 8 c).toInt := by
      rw [← sext_toNat (BitVec.ofNat 8 c) (by decide), BitVec.toNat_ofNat, Nat.mod_eq_of_lt hc]
    rw [dy, hbyte, zpow_zero, mul_one]

/-! ### Reads and writes of a tile -/

theorem slotOut_eq (slot : BitVec 64) : slotOut slot = if slotOutfmt slot = 0 then F32 else if slotOutfmt slot = 1 then BF16 else F16 := by
  unfold slotOut
  match slotOutfmt slot with
  | 0 => rfl
  | 1 => rfl
  | n + 2 => rfl

theorem roomy_slotOut (slot : BitVec 64) : Roomy (slotOut slot) := by
  rw [slotOut_eq]
  split
  · exact roomy_F32
  · split
    · exact roomy_BF16
    · exact roomy_F16

theorem read_live {t : Tile} (slot : BitVec 64) {n : Nat} (h : (t.at_ n).2 = false) :
    t.read slot n = ((slotOut slot).round 0 false (decide ((t.at_ n).1 < 0)) (t.at_ n).1.natAbs t.e false).1 := by
  rw [Tile.read, h]
  rfl

/-- `ACCRD` rounds an element's value once. -/
theorem read_roundsTo {t : Tile} (slot : BitVec 64) {n : Nat} (h : (t.at_ n).2 = false) (h0 : (t.at_ n).1 ≠ 0) :
    ∃ fl, RoundsTo (slotOut slot) 0 false (dy ((t.at_ n).1, t.e) : ℝ) (t.read slot n, fl) := by
  have hround := round_roundsTo (roomy_slotOut slot) 0 false (decide ((t.at_ n).1 < 0)) (Int.natAbs_ne_zero.mpr h0) t.e
  rw [← mul_assoc, signOf_natAbs] at hround
  rw [cast_dy, read_live slot h]
  exact ⟨_, hround⟩

/-- The tile whose written elements are 0 and not marked. -/
def emptied (t : Tile) (xs : List (Nat × Option (Int × Int))) : Tile :=
  { t with elems := t.elems.filter fun m => !(xs.any fun x => x.1 == m.1) }

theorem at_emptied {t : Tile} (helems : SMap.wf (0, false) t.elems = true) (xs : List (Nat × Option (Int × Int))) (n : Nat) :
    (emptied t xs).at_ n = if n ∈ xs.map Prod.fst then (0, false) else t.at_ n := by
  have hany : (xs.any fun x => x.1 == n) = true ↔ n ∈ xs.map Prod.fst := by
    rw [List.any_eq_true, List.mem_map]
    simp only [beq_iff_eq]
  rw [Tile.at_, emptied, get_filter _ _ (wf_keys (0, false) helems)]
  dsimp only
  by_cases h : n ∈ xs.map Prod.fst
  · rw [hany.mpr h, if_pos h]
    rfl
  · rw [Bool.eq_false_iff.mpr (mt hany.mp h), if_neg h]
    rfl

theorem claims_tileReadsAndWrites : Claims.TileReadsAndWrites := by
  intro t slot f hfmt
  obtain rfl : f = slotOut slot := hfmt.trans (slotOut_eq slot).symm
  refine ⟨fun n hn => ⟨fun h0 => ?_, read_roundsTo slot hn⟩, fun xs helems => ⟨emptied t xs, rfl, rfl, rfl, at_emptied helems xs⟩, fun fr lane j w => ?_⟩
  · rw [read_live slot hn, h0]
    rfl
  · refine ⟨fun h => ?_, fun h => ?_⟩
    · rw [blockValues, blockElems_wide h]
    · rw [blockValues, blockElems_narrow h]

end Sys2Proof.Proofs
end


-- ==== Sys2Proof/Proofs/WrungCodes.lean ====
section
/-! The canonical codes of a wrung block: each takes its share of the 256 codes of eight bits, in their order, so that none is the start of another (R281,
R282). -/

namespace Sys2Proof.Proofs

open Sys2Proof.Machine Sys2Proof.Says Sys2Proof.Laws

/-! ### The codes in their order -/

/-- The code of the next exponent, of a length, after the last length and code. -/
def nextCode (last : Option (Nat × Nat)) (l : Nat) : Nat := match last with | none => 0 | some (pl, pc) => (pc + 1) * 2 ^ (l - pl)

/-- The codes of exponents in an order. -/
def codesFrom (lens : List Nat) : Option (Nat × Nat) → List Nat → List (Nat × Nat × Nat)
  | _, [] => []
  | last, x :: r => (lens.getD x 0, nextCode last (lens.getD x 0), x) :: codesFrom lens (some (lens.getD x 0, nextCode last (lens.getD x 0))) r

/-- The exponents by length and value. -/
def codeOrder (lens : List Nat) : List Nat := sortBy (fun x => 16 * lens.getD x 0 + x) (List.range 16)

theorem wrungCodes_eq (lens : List Nat) : wrungCodes lens = codesFrom lens none (codeOrder lens) := by
  have hfold (order : List Nat) (acc : List (Nat × Nat × Nat) × Option (Nat × Nat)) :
      (order.foldl (fun acc x => (acc.1 ++ [(lens.getD x 0, nextCode acc.2 (lens.getD x 0), x)], some (lens.getD x 0, nextCode acc.2 (lens.getD x 0)))) acc).1 =
        acc.1 ++ codesFrom lens acc.2 order := by
    induction order generalizing acc with
    | nil => exact (List.append_nil _).symm
    | cons x r ih => rw [List.foldl_cons, ih, codesFrom, List.append_assoc, List.singleton_append]
  rw [wrungCodes, codeOrder]
  generalize sortBy (fun x => 16 * lens.getD x 0 + x) (List.range 16) = order
  exact hfold order ([], none)

section
variable (lens : List Nat)

theorem codesFrom_exponents (last : Option (Nat × Nat)) (order : List Nat) : (codesFrom lens last order).map (fun e => e.2.2) = order := by
  induction order generalizing last with
  | nil => rfl
  | cons x r ih => rw [codesFrom, List.map_cons, ih]

theorem codesFrom_length {last : Option (Nat × Nat)} {order : List Nat} {e : Nat × Nat × Nat} (he : e ∈ codesFrom lens last order) :
    e.1 = lens.getD e.2.2 0 := by
  induction order generalizing last with
  | nil => cases he
  | cons x r ih =>
    rcases List.mem_cons.mp he with rfl | he
    · rfl
    · exact ih he

theorem codesFrom_next {last : Option (Nat × Nat)} {order : List Nat} {k : Nat} {a b : Nat × Nat × Nat}
    (ha : (codesFrom lens last order)[k]? = some a) (hb : (codesFrom lens last order)[k + 1]? = some b) : b.2.1 = (a.2.1 + 1) * 2 ^ (b.1 - a.1) := by
  induction order generalizing last k with
  | nil => cases ha
  | cons x r ih =>
    rw [codesFrom, List.getElem?_cons_succ] at hb
    cases k with
    | succ k => exact ih ha hb
    | zero =>
      cases ha
      cases r with
      | nil => cases hb
      | cons y r =>
        cases hb
        rfl

end

/-! ### The places of the codes -/

/-- The first of the codes of eight bits that begin with a code. -/
def codePlace (e : Nat × Nat × Nat) : Nat := e.2.1 * 2 ^ (8 - e.1)

/-- How many codes of eight bits begin with a code. -/
def codeWidth (e : Nat × Nat × Nat) : Nat := 2 ^ (8 - e.1)

/-- The first place that is left after a code. -/
def placeAfter (last : Option (Nat × Nat)) : Nat := match last with | none => 0 | some (l, c) => (c + 1) * 2 ^ (8 - l)

theorem nextCode_place {last : Option (Nat × Nat)} {l : Nat} (hl : l ≤ 8) (hlast : ∀ q, last = some q → q.1 ≤ l) :
    nextCode last l * 2 ^ (8 - l) = placeAfter last := by
  cases last with
  | none => exact Nat.zero_mul _
  | some q =>
    have hq : q.1 ≤ l := hlast q rfl
    rw [nextCode, placeAfter, Nat.mul_assoc, ← pow_add, show l - q.1 + (8 - l) = 8 - q.1 by omega]

/-- The codes take their places one after the other. -/
theorem codesFrom_places (lens : List Nat) {order : List Nat} {last : Option (Nat × Nat)} (hle : ∀ x ∈ order, lens.getD x 0 ≤ 8)
    (hsorted : order.Pairwise fun x y => lens.getD x 0 ≤ lens.getD y 0) (hlast : ∀ q, last = some q → ∀ x ∈ order, q.1 ≤ lens.getD x 0) :
    (∀ e ∈ codesFrom lens last order, placeAfter last ≤ codePlace e ∧
      codePlace e + codeWidth e ≤ placeAfter last + (order.map fun x => 2 ^ (8 - lens.getD x 0)).sum) ∧
    (codesFrom lens last order).Pairwise fun a b => codePlace a + codeWidth a ≤ codePlace b := by
  induction order generalizing last with
  | nil => exact ⟨fun e he => (by cases he), .nil⟩
  | cons x r ih =>
    obtain ⟨hx, hr⟩ := List.forall_mem_cons.mp hle
    obtain ⟨hxr, hsorted⟩ := List.pairwise_cons.mp hsorted
    have hplace := nextCode_place hx fun q hq => hlast q hq x List.mem_cons_self
    have hafter : placeAfter (some (lens.getD x 0, nextCode last (lens.getD x 0))) = placeAfter last + 2 ^ (8 - lens.getD x 0) := by
      rw [← hplace, placeAfter, Nat.succ_mul]
    obtain ⟨hall, hpair⟩ := ih (last := some (lens.getD x 0, nextCode last (lens.getD x 0))) hr hsorted fun q hq y hy => by
      cases hq
      exact hxr y hy
    rw [hafter] at hall
    have hfirst : codePlace (lens.getD x 0, nextCode last (lens.getD x 0), x) = placeAfter last := hplace
    rw [codesFrom, List.map_cons, List.sum_cons]
    refine ⟨List.forall_mem_cons.mpr ⟨⟨hfirst.ge, ?_⟩, fun e he => ?_⟩, List.pairwise_cons.mpr ⟨fun e he => ?_, hpair⟩⟩
    · rw [hfirst]
      exact Nat.add_le_add_left (Nat.le_add_right _ _) _
    · obtain ⟨hlo, hhi⟩ := hall e he
      exact ⟨(Nat.le_add_right _ _).trans hlo, hhi.trans_eq (Nat.add_assoc _ _ _)⟩
    · rw [hfirst, codeWidth]
      exact (hall e he).1

/-- The places of two codes do not meet. -/
def Apart (a b : Nat × Nat × Nat) : Prop := codePlace a + codeWidth a ≤ codePlace b ∨ codePlace b + codeWidth b ≤ codePlace a

/-- What the codes of a table of lengths satisfy: every exponent has one, and they take their places one after the other. -/
structure Canonical (codes : List (Nat × Nat × Nat)) : Prop where
  exponents : (codes.map fun e => e.2.2).Perm (List.range 16)
  length : ∀ e ∈ codes, 1 ≤ e.1 ∧ e.1 ≤ 8
  bound : ∀ e ∈ codes, codePlace e + codeWidth e ≤ 256
  apart : codes.Pairwise fun a b => codePlace a + codeWidth a ≤ codePlace b

section
variable {lens : List Nat}

theorem codeOrder_perm (lens : List Nat) : (codeOrder lens).Perm (List.range 16) := sortBy_perm _ _

theorem getD_mem_of_codeOrder (hlen : lens.length = 16) {x : Nat} (hx : x ∈ codeOrder lens) : lens.getD x 0 ∈ lens := by
  have hlt : x < lens.length := by
    rw [hlen]
    exact List.mem_range.mp ((codeOrder_perm lens).mem_iff.mp hx)
  rw [List.getD_eq_getElem _ _ hlt]
  exact List.getElem_mem hlt

/-- The exponents are in the order of their lengths, and of their values where these are equal. -/
theorem codeOrder_pairwise (lens : List Nat) :
    (codeOrder lens).Pairwise fun x y => lens.getD x 0 < lens.getD y 0 ∨ lens.getD x 0 = lens.getD y 0 ∧ x < y := by
  have hnodup : (codeOrder lens).Pairwise (· ≠ ·) := (codeOrder_perm lens).nodup_iff.mpr List.nodup_range
  refine ((sortBy_pairwise (fun x => 16 * lens.getD x 0 + x) (List.range 16)).and hnodup).imp_of_mem fun {x y} hx hy h => ?_
  have hx16 := List.mem_range.mp ((codeOrder_perm lens).mem_iff.mp hx)
  have hy16 := List.mem_range.mp ((codeOrder_perm lens).mem_iff.mp hy)
  obtain ⟨hkey, hne⟩ := h
  omega

theorem canonical_wrungCodes (hlen : lens.length = 16) (hrange : ∀ l ∈ lens, 1 ≤ l ∧ l ≤ 8) (hsum : (lens.map fun l => 2 ^ (8 - l)).sum = 256) :
    Canonical (wrungCodes lens) := by
  have hof (x : Nat) (hx : x ∈ codeOrder lens) := hrange _ (getD_mem_of_codeOrder hlen hx)
  have hlens : (List.range 16).map (fun x => lens.getD x 0) = lens := by
    refine List.ext_getElem (by simp [hlen]) fun i h₁ h₂ => ?_
    rw [List.getElem_map, List.getElem_range, List.getD_eq_getElem _ _ h₂]
  have htotal : ((codeOrder lens).map fun x => 2 ^ (8 - lens.getD x 0)).sum = 256 := by
    rw [((codeOrder_perm lens).map _).sum_eq, ← hsum]
    conv_rhs => rw [← hlens, List.map_map]
    rfl
  obtain ⟨hplaces, hapart⟩ := codesFrom_places lens (last := none) (fun x hx => (hof x hx).2)
    ((codeOrder_pairwise lens).imp fun h => by omega) (fun q hq => (by cases hq))
  rw [htotal] at hplaces
  rw [wrungCodes_eq]
  refine ⟨?_, fun e he => ?_, fun e he => (hplaces e he).2.trans_eq (Nat.zero_add _), hapart⟩
  · rw [codesFrom_exponents]
    exact codeOrder_perm lens
  · rw [codesFrom_length lens he]
    refine hof _ ?_
    rw [← codesFrom_exponents lens none (codeOrder lens)]
    exact List.mem_map_of_mem he

theorem wrungCodes_pairwise (lens : List Nat) : (wrungCodes lens).Pairwise fun a b => a.1 < b.1 ∨ a.1 = b.1 ∧ a.2.2 < b.2.2 := by
  have hpair := codeOrder_pairwise lens
  rw [wrungCodes_eq]
  rw [← codesFrom_exponents lens none (codeOrder lens), List.pairwise_map] at hpair
  refine hpair.imp_of_mem fun ha hb h => ?_
  rw [codesFrom_length lens ha, codesFrom_length lens hb]
  exact h

theorem wrungCodes_first (lens : List Nat) : ((wrungCodes lens).map fun e => e.2.1).head? = some 0 := by
  have hne : codeOrder lens ≠ [] := fun h => by
    have := (codeOrder_perm lens).length_eq
    rw [h] at this
    cases this
  rw [wrungCodes_eq]
  obtain ⟨x, r, hxr⟩ := List.exists_cons_of_ne_nil hne
  rw [hxr]
  rfl

end

/-! ### Reading a code -/

/-- The last bits of a number, most significant first. -/
def lowBits (c n : Nat) : List Bool := (List.range n).map fun i => c.testBit (n - 1 - i)

theorem length_lowBits (c n : Nat) : (lowBits c n).length = n := by
  rw [lowBits, List.length_map, List.length_range]

theorem lowBits_succ (c n : Nat) : lowBits c (n + 1) = c.testBit n :: lowBits c n := by
  rw [lowBits, List.range_succ_eq_map, List.map_cons, List.map_map]
  congr 1
  exact List.map_congr_left fun i _ => congrArg c.testBit (by omega)

theorem twice_div_add_testBit (c n : Nat) : 2 * (c / 2 ^ (n + 1)) + (c.testBit n).toNat = c / 2 ^ n := by
  rw [Nat.toNat_testBit, pow_succ, ← Nat.div_div_eq_div_mul]
  exact Nat.div_add_mod _ _

section
variable {codes : List (Nat × Nat × Nat)} (hc : Canonical codes) {e : Nat × Nat × Nat} (he : e ∈ codes)
include hc he

/-- Two codes whose places meet are the same code. -/
theorem eq_of_place {f : Nat × Nat × Nat} (hf : f ∈ codes) (hlo : codePlace f ≤ codePlace e) (hhi : codePlace e < codePlace f + codeWidth f) : f = e := by
  by_contra hne
  have hpos : 0 < codeWidth e := Nat.two_pow_pos _
  have hsymm : Std.Symm Apart := ⟨fun _ _ => Or.symm⟩
  have hpair : codes.Pairwise Apart := hc.apart.imp .inl
  obtain h | h := hpair.forall hf he hne <;> omega

theorem code_lt : e.2.1 < 2 ^ e.1 := by
  have hbound := hc.bound e he
  have hpow : (2 : Nat) ^ e.1 * 2 ^ (8 - e.1) = 256 := by
    rw [← pow_add, Nat.add_sub_cancel' (hc.length e he).2]
    rfl
  rw [codePlace, codeWidth, ← Nat.succ_mul, ← hpow] at hbound
  exact Nat.le_of_mul_le_mul_right hbound (Nat.two_pow_pos _)

/-- No code is the start of another: with n bits of a code still to come, its first bits are a code only where n is 0. -/
theorem find_code {n : Nat} (hn : n < e.1) :
    codes.find? (fun f => f.1 == e.1 - n && f.2.1 == e.2.1 / 2 ^ n) = if n = 0 then some e else none := by
  have hmeets (f) (hf : f ∈ codes) (hlen : f.1 = e.1 - n) (hcode : f.2.1 = e.2.1 / 2 ^ n) : f = e := by
    have h8 := (hc.length e he).2
    have hpow : (2 : Nat) ^ (8 - f.1) = 2 ^ n * 2 ^ (8 - e.1) := by
      rw [← pow_add]
      congr 1
      omega
    refine eq_of_place hc he hf ?_ ?_
    · rw [codePlace, codePlace, hpow, hcode, ← Nat.mul_assoc]
      exact Nat.mul_le_mul_right _ (Nat.div_mul_le_self _ _)
    · rw [codePlace, codePlace, codeWidth, ← Nat.succ_mul, hpow, hcode, ← Nat.mul_assoc]
      exact Nat.mul_lt_mul_of_pos_right (Nat.lt_mul_of_div_lt (Nat.lt_succ_self _) (Nat.two_pow_pos _)) (Nat.two_pow_pos _)
  cases hfind : codes.find? (fun f => f.1 == e.1 - n && f.2.1 == e.2.1 / 2 ^ n) with
  | some f =>
    have hf := List.find?_some hfind
    rw [Bool.and_eq_true, beq_iff_eq, beq_iff_eq] at hf
    obtain rfl := hmeets f (List.mem_of_find?_eq_some hfind) hf.1 hf.2
    rw [if_pos (by omega)]
  | none =>
    rw [if_neg]
    rintro rfl
    have := List.find?_eq_none.mp hfind e he
    simp at this

theorem readCode_cons_lowBits {n : Nat} (hn : n < e.1) (r : List Bool) :
    readCode codes (e.1 - (n + 1)) (e.2.1 / 2 ^ (n + 1)) (e.2.1.testBit n :: r) =
      if n = 0 then some (e.2.2, r) else readCode codes (e.1 - n) (e.2.1 / 2 ^ n) r := by
  rw [readCode, twice_div_add_testBit, show e.1 - (n + 1) + 1 = e.1 - n by omega, find_code hc he hn]
  by_cases h0 : n = 0
  · rw [if_pos h0, if_pos h0]
  · rw [if_neg h0, if_neg h0]

theorem readCode_lowBits {n : Nat} (hn : n < e.1) (r : List Bool) :
    readCode codes (e.1 - (n + 1)) (e.2.1 / 2 ^ (n + 1)) (lowBits e.2.1 (n + 1) ++ r) = some (e.2.2, r) := by
  induction n with
  | zero =>
    rw [lowBits_succ, List.cons_append, readCode_cons_lowBits hc he hn, if_pos rfl]
    rfl
  | succ n ih => rw [lowBits_succ, List.cons_append, readCode_cons_lowBits hc he hn, if_neg n.succ_ne_zero, ih (by omega)]

theorem readCode_take_lowBits {n k : Nat} (hn : n ≤ e.1) (hk : k < n) :
    readCode codes (e.1 - n) (e.2.1 / 2 ^ n) ((lowBits e.2.1 n).take k) = none := by
  induction n generalizing k with
  | zero => cases hk
  | succ n ih =>
    cases k with
    | zero => rfl
    | succ k => rw [lowBits_succ, List.take_succ_cons, readCode_cons_lowBits hc he hn, if_neg (by omega), ih (by omega) (by omega)]

end

/-! ### Reading elements -/

section
variable {codes : List (Nat × Nat × Nat)} (hc : Canonical codes)
include hc

/-- Every exponent has a code. -/
theorem codeBits_spec {x : Nat} (hx : x < 16) : ∃ e ∈ codes, e.2.2 = x ∧ codeBits codes x = lowBits e.2.1 e.1 := by
  have hmem : x ∈ codes.map fun e => e.2.2 := hc.exponents.mem_iff.mpr (List.mem_range.mpr hx)
  obtain ⟨f, hf, hfx⟩ := List.mem_map.mp hmem
  cases hfind : codes.find? fun e => e.2.2 == x with
  | none => exact absurd (beq_iff_eq.mpr hfx) (List.find?_eq_none.mp hfind f hf)
  | some e =>
    refine ⟨e, List.mem_of_find?_eq_some hfind, by simpa using List.find?_some hfind, ?_⟩
    rw [codeBits, hfind]
    rfl

theorem readCode_codeBits {x : Nat} (hx : x < 16) (r : List Bool) : readCode codes 0 0 (codeBits codes x ++ r) = some (x, r) := by
  obtain ⟨e, he, rfl, hbits⟩ := codeBits_spec hc hx
  obtain ⟨n, hn⟩ := Nat.exists_eq_add_of_le' (hc.length e he).1
  have hread := readCode_lowBits hc he (n := n) (by omega) r
  rw [← hn, Nat.sub_self, Nat.div_eq_of_lt (code_lt hc he)] at hread
  rw [hbits, hread]

theorem readCode_take_codeBits {x k : Nat} (hx : x < 16) (hk : k < (codeBits codes x).length) : readCode codes 0 0 ((codeBits codes x).take k) = none := by
  obtain ⟨e, he, rfl, hbits⟩ := codeBits_spec hc hx
  rw [hbits, length_lowBits] at hk
  have hread := readCode_take_lowBits hc he le_rfl hk
  rw [Nat.sub_self, Nat.div_eq_of_lt (code_lt hc he)] at hread
  rw [hbits, hread]

end

/-- An element is its sign, exponent and mantissa bits. -/
theorem byte_eq_fields (e : Byte) : BitVec.ofNat 8 (128 * (e.getLsbD 7).toNat + 8 * (e.toNat / 8 % 16) + 4 * (e.getLsbD 2).toNat +
    2 * (e.getLsbD 1).toNat + (e.getLsbD 0).toNat) = e := by
  refine BitVec.eq_of_toNat_eq ?_
  simp only [BitVec.getLsbD, Nat.toNat_testBit, BitVec.toNat_ofNat]
  have := e.isLt
  omega

section
variable {codes : List (Nat × Nat × Nat)} (hc : Canonical codes)
include hc

theorem readElems_elementBits (n : Nat) (e : Byte) (r : List Bool) :
    readElems codes (n + 1) (elementBits codes e ++ r) = (readElems codes n r).map (e :: ·) := by
  rw [elementBits, List.append_assoc, List.cons_append, List.cons_append, List.cons_append, List.cons_append, List.nil_append, readElems,
    readCode_codeBits hc (Nat.mod_lt _ (by decide))]
  dsimp only
  cases readElems codes n r with
  | error k => rfl
  | ok es =>
    rw [byte_eq_fields]
    rfl

/-- A stream of elements, and what follows it. -/
theorem readElems_flatMap (es : List Byte) (r : List Bool) :
    readElems codes es.length (es.flatMap (elementBits codes) ++ r) = (readElems codes 0 r).map (es ++ ·) := by
  induction es with
  | nil => cases hread : readElems codes 0 r <;> simp [hread, Except.map]
  | cons e es ih =>
    rw [List.flatMap_cons, List.append_assoc, List.length_cons, readElems_elementBits hc, ih]
    cases readElems codes 0 r <;> rfl

theorem readElems_take_elementBits (n : Nat) (e : Byte) {k : Nat} (hk : k < (elementBits codes e).length) :
    readElems codes (n + 1) ((elementBits codes e).take k) = .error 4 := by
  match k with
  | 0 => rfl
  | 1 => rfl
  | 2 => rfl
  | 3 => rfl
  | k + 4 =>
    have hcode : readCode codes 0 0 ((codeBits codes (e.toNat / 8 % 16)).take k) = none := by
      refine readCode_take_codeBits hc (Nat.mod_lt _ (by decide)) ?_
      rw [elementBits, List.length_append] at hk
      exact Nat.lt_of_add_lt_add_left (Nat.add_comm k 4 ▸ hk)
    simp only [elementBits, List.cons_append, List.nil_append, List.take_succ_cons, readElems, hcode]

/-- A stream that breaks off. -/
theorem readElems_take_flatMap (es : List Byte) {k : Nat} (hk : k < (es.flatMap (elementBits codes)).length) :
    readElems codes es.length ((es.flatMap (elementBits codes)).take k) = .error 4 := by
  induction es generalizing k with
  | nil => cases hk
  | cons e es ih =>
    rw [List.flatMap_cons] at hk ⊢
    rw [List.length_cons]
    by_cases hin : k < (elementBits codes e).length
    · rw [List.take_append_of_le_length hin.le, readElems_take_elementBits hc _ _ hin]
    · obtain ⟨j, rfl⟩ := Nat.exists_eq_add_of_le (Nat.not_lt.mp hin)
      rw [List.length_append] at hk
      rw [List.take_length_add_append, readElems_elementBits hc, ih (by omega)]
      rfl

end

theorem claims_wrungCodes : Claims.WrungCodes := by
  intro lens hlen hrange hsum codes
  have hc : Canonical codes := canonical_wrungCodes hlen hrange hsum
  have heq : codes = codesFrom lens none (codeOrder lens) := wrungCodes_eq lens
  refine ⟨hc.exponents, fun e he => codesFrom_length lens (heq ▸ he), wrungCodes_pairwise lens, wrungCodes_first lens, fun k a b ha hb => ?_,
    fun es pad hes => ?_⟩
  · exact codesFrom_next lens (heq ▸ ha) (heq ▸ hb)
  · have hread := readElems_flatMap hc es pad
    have htake (k) (hk : k < (es.flatMap (elementBits codes)).length) := readElems_take_flatMap hc es hk
    rw [hes] at hread
    rw [hes] at htake
    refine ⟨fun hpad hshort => ?_, fun hlong => ?_, fun hshort hpad => ?_, fun n hn => htake n hn⟩
    · have hany : pad.any id = false := List.any_eq_false.mpr fun b hb => by simp [hpad b hb]
      rw [hread, readElems, if_neg (Nat.not_le.mpr hshort), hany]
      exact congrArg Except.ok (List.append_nil es)
    · rw [hread, readElems, if_pos hlong]
      rfl
    · obtain ⟨b, hb, rfl⟩ := hpad
      rw [hread, readElems, if_neg (Nat.not_le.mpr hshort), List.any_eq_true.mpr ⟨true, hb, rfl⟩]
      rfl

end Sys2Proof.Proofs
end


-- ==== Sys2Proof/Proofs/WrungRows.lean ====
section
/-! The checks of a wrung block one by one, and what a row gives when they pass (R280, R283, Table 16.3). -/

namespace Sys2Proof.Proofs

open Sys2Proof.Machine Sys2Proof.Says Sys2Proof.Laws

/-- The granules between two bytes pass their checks. -/
def Whole (ys : List (BitVec 16)) (lo hi : Nat) : Prop := ∀ g, lo / 32 ≤ g → 32 * g < hi → ys.getD g 0 = 0

/-- The bytes of a range are 0. -/
def Zeros (b : List Byte) (lo hi : Nat) : Prop := ∀ x ∈ (b.drop lo).take (hi - lo), x = 0

theorem granulesGood_iff {ys : List (BitVec 16)} {lo n : Nat} (h : 0 < n ∨ lo % 32 = 0) : granulesGood ys lo n = true ↔ Whole ys lo (lo + n) := by
  rw [granulesGood, badIn, Option.isNone_iff_eq_none, List.find?_eq_none]
  simp only [List.forall_mem_map, List.mem_range, bne_iff_ne, ne_eq, not_not]
  refine ⟨fun hgood g hlo hhi => ?_, fun hgood i hi => hgood _ (Nat.le_add_right _ _) ?_⟩
  · obtain ⟨i, rfl⟩ := Nat.exists_eq_add_of_le hlo
    refine hgood i ?_
    rw [if_neg (by simp only [beq_iff_eq]; omega)]
    omega
  · by_cases hn : n = 0
    · rw [if_pos (beq_iff_eq.mpr hn)] at hi
      omega
    · rw [if_neg (by simpa using hn)] at hi
      omega

theorem zeroBytes_iff (b : List Byte) (lo hi : Nat) : zeroBytes b lo hi = true ↔ Zeros b lo hi := by
  rw [zeroBytes, List.all_eq_true]
  simp only [beq_iff_eq, Zeros]

section
variable (b : List Byte) (ys : List (BitVec 16)) (L : Nat)

/-! ### The header -/

/-- Check 1. -/
def HeaderWhole : Prop := Whole ys 0 64 ∧ (crc16 (b.take 62)).toNat = wrungField b 62 2

/-- Check 2. -/
def HeaderKnown : Prop := wrungField b 0 1 = 0x57 ∧ wrungField b 1 1 = 1 ∧ Zeros b 2 4 ∧ Zeros b 18 20 ∧ Zeros b 24 62

/-- Check 3. -/
def LengthsFull : Prop := (∀ l ∈ wrungLens b, 1 ≤ l ∧ l ≤ 8) ∧ ((wrungLens b).map fun l => 2 ^ (8 - l)).sum = 256

/-- Check 4. -/
def PartsFit : Prop := wrungTab b % 32 = 0 ∧ 64 ≤ wrungTab b ∧ wrungTab b + 256 + wrungPlen b ≤ L ∧ L ≤ 32768 ∧ L % 32 = 0

theorem not_headerWhole_iff : (!granulesGood ys 0 64 || (crc16 (b.take 62)).toNat != wrungField b 62 2) = true ↔ ¬ HeaderWhole b ys := by
  rw [Bool.or_eq_true, Bool.not_eq_true', bne_iff_ne, ← Bool.not_eq_true, granulesGood_iff (.inr rfl), Nat.zero_add, HeaderWhole, not_and_or]

theorem not_headerKnown_iff : (wrungField b 0 1 != 0x57 || wrungField b 1 1 != 1 || !zeroBytes b 2 4 || !zeroBytes b 18 20 || !zeroBytes b 24 62) = true ↔
    ¬ HeaderKnown b := by
  simp only [HeaderKnown, Bool.or_eq_true, Bool.not_eq_true', bne_iff_ne, ← Bool.not_eq_true, zeroBytes_iff, not_and_or, or_assoc, ne_eq]

theorem not_lengthsFull_iff : ((wrungLens b).any (fun l => l == 0 || 8 < l) || ((wrungLens b).map fun l => 2 ^ (8 - l)).foldl (· + ·) 0 != 256) = true ↔
    ¬ LengthsFull b := by
  rw [LengthsFull, not_and_or, Bool.or_eq_true, bne_iff_ne, ← List.sum_eq_foldl, List.any_eq_true, not_forall]
  refine or_congr (exists_congr fun l => ?_) Iff.rfl
  rw [Classical.not_imp, Bool.or_eq_true, beq_iff_eq, decide_eq_true_eq]
  exact and_congr_right fun _ => by omega

theorem not_partsFit_iff :
    (wrungTab b % 32 != 0 || decide (wrungTab b < 64) || decide (L < wrungPay b + wrungPlen b) || decide (32768 < L) || L % 32 != 0) = true ↔
      ¬ PartsFit b L := by
  simp only [PartsFit, Bool.or_eq_true, bne_iff_ne, decide_eq_true_eq, not_and_or, or_assoc, ne_eq, Nat.not_le]
  exact Iff.rfl

end

section
variable {b : List Byte} {ys : List (BitVec 16)} {L : Nat} (part : Nat × Nat) (i : Nat)

theorem wrungHeader_torn (h : ¬ HeaderWhole b ys) : wrungHeader b ys L = some 6 := by
  rw [wrungHeader, if_pos ((not_headerWhole_iff b ys).mpr h)]

variable (h1 : HeaderWhole b ys)
include h1

theorem wrungHeader_unknown (h : ¬ HeaderKnown b) : wrungHeader b ys L = some 1 := by
  rw [wrungHeader, if_neg (mt (not_headerWhole_iff b ys).mp (not_not_intro h1)), if_pos ((not_headerKnown_iff b).mpr h)]

variable (h2 : HeaderKnown b)
include h2

theorem wrungHeader_of_known : wrungHeader b ys L =
    if (wrungLens b).any (fun l => l == 0 || 8 < l) || ((wrungLens b).map fun l => 2 ^ (8 - l)).foldl (· + ·) 0 != 256 then some 2
    else if wrungTab b % 32 != 0 || wrungTab b < 64 || L < wrungPay b + wrungPlen b || 32768 < L || L % 32 != 0 then some 3 else none := by
  rw [wrungHeader, if_neg (mt (not_headerWhole_iff b ys).mp (not_not_intro h1)), if_neg (mt (not_headerKnown_iff b).mp (not_not_intro h2))]

theorem wrungHeader_short (h : ¬ LengthsFull b) : wrungHeader b ys L = some 2 := by
  rw [wrungHeader_of_known h1 h2, if_pos ((not_lengthsFull_iff b).mpr h)]

variable (h3 : LengthsFull b)
include h3

theorem wrungHeader_misplaced (h : ¬ PartsFit b L) : wrungHeader b ys L = some 3 := by
  rw [wrungHeader_of_known h1 h2, if_neg (mt (not_lengthsFull_iff b).mp (not_not_intro h3)), if_pos ((not_partsFit_iff b L).mpr h)]

theorem wrungHeader_good (h4 : PartsFit b L) : wrungHeader b ys L = none := by
  rw [wrungHeader_of_known h1 h2, if_neg (mt (not_lengthsFull_iff b).mp (not_not_intro h3)), if_neg (mt (not_partsFit_iff b L).mp (not_not_intro h4))]

end

/-! ### The rows -/

section
variable {b : List Byte} {ys : List (BitVec 16)} {L : Nat}

theorem wrungRow_of_front {part : Nat × Nat} {k : Nat} (i : Nat) (h : wrungFront b ys L part = some k) : wrungRow b ys L part i = .error (k, 255) := by
  rw [wrungRow, h]

theorem wrungRow_of_header (part : Nat × Nat) {k : Nat} (i : Nat) (h : wrungHeader b ys L = some k) : wrungRow b ys L part i = .error (k, 255) :=
  wrungRow_of_front i (by rw [wrungFront, wrungStart, h]; rfl)

section
variable (hhead : wrungHeader b ys L = none)
include hhead

theorem wrungRow_of_gap (part : Nat × Nat) (i : Nat) (h : ¬ Zeros b 64 (wrungTab b)) : wrungRow b ys L part i = .error (5, 255) := by
  refine wrungRow_of_front i ?_
  rw [wrungFront, wrungStart, hhead, wrungZeros, if_pos (by rw [Bool.not_eq_true', ← Bool.not_eq_true, zeroBytes_iff]; exact h)]
  rfl

/-- Check 6, for a decode of n rows from the first. -/
def EntriesWhole (b : List Byte) (ys : List (BitVec 16)) (first n : Nat) : Prop :=
  Whole ys (wrungTab b + 2 * first) (wrungTab b + 2 * min 128 (first + n + 1))

variable (htab : 64 ≤ wrungTab b) (hzeros : Zeros b 64 (wrungTab b)) (hgap : Whole ys 64 (wrungTab b)) {first n : Nat} (hfirst : first < 128)
include htab hzeros hgap hfirst

theorem wrungFront_eq : wrungFront b ys L (first, n) = none ∧ EntriesWhole b ys first n ∨
    wrungFront b ys L (first, n) = some 6 ∧ ¬ EntriesWhole b ys first n := by
  have hstart : wrungStart b ys L = none := by
    rw [wrungStart, hhead, wrungZeros, (zeroBytes_iff ..).mpr hzeros, (granulesGood_iff (.inr rfl)).mpr (by rwa [Nat.add_sub_cancel' htab])]
    rfl
  have hpos : 0 < 2 * (min 128 (first + n + 1) - first) := by omega
  have hgood : granulesGood ys (wrungTab b + 2 * first) (2 * (min 128 (first + n + 1) - first)) = true ↔ EntriesWhole b ys first n := by
    rw [granulesGood_iff (.inl hpos), EntriesWhole]
    exact iff_of_eq (congrArg _ (by omega))
  rw [wrungFront, hstart, Option.none_or, wrungEntries]
  by_cases h : EntriesWhole b ys first n
  · exact .inl ⟨by rw [hgood.mpr h]; rfl, h⟩
  · exact .inr ⟨by rw [Bool.eq_false_iff.mpr (mt hgood.mp h)]; rfl, h⟩

end

variable {part : Nat × Nat} (hfront : wrungFront b ys L part = none) (i : Nat)
include hfront

/-- Check 7. -/
def RowPlaced (b : List Byte) (i : Nat) : Prop := (i = 0 → wrungRoff b 0 = 0) ∧ wrungRoff b i + 8 ≤ wrungEnd b i ∧ wrungEnd b i ≤ wrungPlen b

omit hfront in
theorem wrungPlaced_iff : wrungPlaced b i = true ↔ RowPlaced b i := by
  rw [wrungPlaced, Bool.and_eq_true, Bool.and_eq_true, decide_eq_true_eq, decide_eq_true_eq, Bool.or_eq_true, bne_iff_ne, beq_iff_eq, RowPlaced, and_assoc]
  exact and_congr_left fun _ => imp_iff_not_or.symm

theorem wrungRow_misplaced (h : ¬ RowPlaced b i) : wrungRow b ys L part i = .error (3, i) := by
  rw [wrungRow, hfront]
  exact if_pos (by rw [Bool.not_eq_true', ← Bool.not_eq_true, wrungPlaced_iff]; exact h)

/-- The bytes of a row. -/
def rowBytes (b : List Byte) (i : Nat) : List Byte :=
  (b.drop (wrungPay b + wrungRoff b i)).take (wrungPay b + wrungEnd b i - (wrungPay b + wrungRoff b i))

variable (hplaced : RowPlaced b i)
include hplaced

omit hfront in
theorem rowWhole_iff : granulesGood ys (wrungPay b + wrungRoff b i) (wrungPay b + wrungEnd b i - (wrungPay b + wrungRoff b i)) = true ↔
    Whole ys (wrungPay b + wrungRoff b i) (wrungPay b + wrungEnd b i) := by
  obtain ⟨-, hlen, -⟩ := hplaced
  rw [granulesGood_iff (.inl (by omega)), Nat.add_sub_cancel' (by omega)]

theorem wrungRow_torn (h : ¬ Whole ys (wrungPay b + wrungRoff b i) (wrungPay b + wrungEnd b i)) : wrungRow b ys L part i = .error (6, i) := by
  rw [wrungRow, hfront]
  dsimp only
  rw [(wrungPlaced_iff i).mpr hplaced, Bool.eq_false_iff.mpr (mt (rowWhole_iff i hplaced).mp h)]
  rfl

variable (hwhole : Whole ys (wrungPay b + wrungRoff b i) (wrungPay b + wrungEnd b i))
include hwhole

theorem wrungRow_decodes {r : List Byte} (hr : r = rowBytes b i) :
    (∀ es, readElems (wrungCodes (wrungLens b)) 128 (streamBits (r.take (r.length - 8))) = .ok es →
      wrungRow b ys L part i = .ok (es, r.drop (r.length - 8))) ∧
    ∀ k, readElems (wrungCodes (wrungLens b)) 128 (streamBits (r.take (r.length - 8))) = .error k → wrungRow b ys L part i = .error (k, i) := by
  subst hr
  rw [wrungRow, hfront]
  dsimp only
  rw [(wrungPlaced_iff i).mpr hplaced, (rowWhole_iff i hplaced).mpr hwhole]
  refine ⟨fun es hes => ?_, fun k hk => ?_⟩
  · rw [if_neg (by decide), if_neg (by decide), ← rowBytes, hes]
  · rw [if_neg (by decide), if_neg (by decide), ← rowBytes, hk]

end

theorem claims_wrungRows : Claims.WrungRows := by
  intro b ys L i first n
  refine ⟨fun h1 => wrungRow_of_header _ i (wrungHeader_torn h1), fun h1 h2 => wrungRow_of_header _ i (wrungHeader_unknown h1 h2),
    fun h1 h2 h3 => wrungRow_of_header _ i (wrungHeader_short h1 h2 h3), fun h1 h2 h3 h4 => wrungRow_of_header _ i (wrungHeader_misplaced h1 h2 h3 h4),
    fun h1 h2 h3 h4 h5 => wrungRow_of_gap (wrungHeader_good h1 h2 h3 h4) _ i h5, fun h1 h2 h3 h4 h5 hgap hfirst => ?_⟩
  have hhead := wrungHeader_good (L := L) h1 h2 h3 h4
  obtain ⟨-, htab, -⟩ := h4
  rcases wrungFront_eq hhead htab h5 hgap (n := n) hfirst with ⟨hfront, h6⟩ | ⟨hfront, h6⟩
  · exact ⟨fun hno => absurd h6 hno, fun _ => ⟨wrungRow_misplaced hfront i, fun h7 => ⟨wrungRow_torn hfront i h7, fun h8 => wrungRow_decodes hfront i h7 h8 rfl⟩⟩⟩
  · exact ⟨fun _ => wrungRow_of_front i hfront, fun hyes => absurd hyes h6⟩

end Sys2Proof.Proofs
end


-- ==== Sys2Proof/Proofs/TileIssue.lean ====
section
/-! The issue of a tile operation: one operation in flight for each thread of the gang, and nothing posted (R33, R271, R275). -/

namespace Sys2Proof.Proofs

open Sys2Proof.Machine Sys2Proof.Says Sys2Proof.Laws

/-! ### Operations in flight that post nothing -/

/-- One operation after the other is put in flight. -/
def beginAll (us : List Thread) (mk : Thread → Op) (s : State) : State := us.foldl (fun s u => s.begin (mk u)) s

theorem beginAll_eq (us : List Thread) (mk : Thread → Op) (s : State) : beginAll us mk s =
    { s with
      threads := s.threads.map (notedAll (us.map mk)), ops := s.ops ++ numberedOps us mk s.nextId, nextId := s.nextId + us.length } := by
  induction us generalizing s with
  | nil =>
    have hthreads : s.threads.map (notedAll []) = s.threads := List.map_id s.threads
    simp [beginAll, numberedOps, hthreads]
  | cons u us ih =>
    have hthreads : (s.threads.map (noted (mk u))).map (notedAll (us.map mk)) = s.threads.map (notedAll ((u :: us).map mk)) := by
      rw [List.map_map]
      rfl
    have hstep : beginAll (u :: us) mk s = beginAll us mk (s.begin (mk u)) := rfl
    rw [hstep, ih, begin_eq, numberedOps_cons, List.length_cons, ← hthreads]
    dsimp only
    rw [List.append_assoc, Nat.add_assoc s.nextId 1, Nat.add_comm 1 us.length]
    rfl

/-- What an operation is does not rest on those begun before it. -/
theorem foldl_begin_eq {mk : State → Thread → Op} (h : ∀ s o, mk (s.begin o) = mk s) (us : List Thread) (s : State) :
    us.foldl (fun s u => s.begin (mk s u)) s = beginAll us (mk s) s := by
  induction us generalizing s with
  | nil => rfl
  | cons u us ih =>
    rw [List.foldl_cons, ih, h]
    rfl

/-- An operation that holds no predicate, and is neither a special function's nor an acquire. -/
def Plain (o : Op) : Prop := o.preg = none ∧ (o.kind == .sfu) = false ∧ (o.kind == .sqacq) = false

/-- A word that puts one plain operation in flight for each of some threads of its gang, and passes on. -/
theorem holds_beginAll {s : State} {us : List Thread} {mk : Thread → Op} (huid : ∀ u ∈ us, (mk u).uid = u.uid) (hgang : ∀ u ∈ us, u.uid ∈ s.gang)
    (hplain : ∀ u ∈ us, Plain (mk u)) : Holds s (beginAll us mk s).advance us mk := by
  have hthreads : (beginAll us mk s).advance.threads =
      s.threads.map fun t => if t.uid ∈ s.gang then (notedAll (us.map mk) t).next else notedAll (us.map mk) t := by
    rw [beginAll_eq]
    simp [State.advance, State.modThreads]
  constructor
  case ops => rw [beginAll_eq]; rfl
  case rest => rw [beginAll_eq]; rfl
  case passed =>
    rw [EachThread, hthreads, List.forall₂_map_right_iff, List.forall₂_same]
    intro t _
    by_cases hg : t.uid ∈ s.gang
    · rw [if_pos hg, if_pos hg]
      exact ⟨next_plain (notedAll_plain (List.forall_mem_map.mpr hplain) t), counts_next (counts_notedAll (us.map mk) t)⟩
    · have hothers : ∀ o ∈ us.map mk, o.uid ≠ t.uid :=
        List.forall_mem_map.mpr fun u hu h => hg (h ▸ (huid u hu).symm ▸ hgang u hu)
      rw [if_neg hg, if_neg hg, notedAll_of_forall_ne hothers]
  case held =>
    intro u hu b hb hbu r hr
    rw [hthreads] at hb
    obtain ⟨t, _, rfl⟩ := List.mem_map.mp hb
    have htu : t.uid = u.uid := by
      rw [← hbu]
      split <;> simp
    have hheld : r ∈ (notedAll (us.map mk) t).pendV :=
      mem_pendV_notedAll (.inr ⟨mk u, List.mem_map_of_mem hu, (huid u hu).trans htu.symm, hr⟩)
    split
    · rwa [next_pendV]
    · exact hheld

/-! ### Tile operations -/

/-- The operation of a thread of the gang, before what is its word's own. -/
def tileOp (s : State) (k : OpKind) (fb : Bool) (acc : BitVec 4) (slot : BitVec 3) (id : Nat) (u : Thread) : Op :=
  { s.opOf u k (u.sel fb) with aop := id, loc := acc.toNat, addr := s.slotFmt u slot, rtype := u.lane }

theorem tileOp_begin (s : State) (o : Op) : tileOp (s.begin o) = tileOp s := rfl

theorem tileIssue_holds {s : State} (i : Instr) {k : OpKind} (fb : Bool) (acc : BitVec 4) (slot : BitVec 3) {mk : Thread → Op → Op}
    (hmk : ∀ u o, (mk u o).uid = o.uid ∧ (mk u o).preg = o.preg ∧ (mk u o).kind = o.kind) (hk : (k == .sfu) = false ∧ (k == .sqacq) = false)
    (hgang : s.gangThreads ≠ []) (hreqs : ∀ u ∈ s.gangThreads, s.reqsOf (s.gidOf u) = []) (htrap : s.matrixTrap i = none) :
    ∃ t, s.tileIssue i k fb acc slot mk = .next t ∧ Holds s t s.gangThreads fun u => mk u (tileOp s k fb acc slot s.nextId u) := by
  refine ⟨_, ?_, holds_beginAll (fun u _ => (hmk u _).1) (fun u hu => (mem_gangThreads.mp hu).2) fun u _ => ?_⟩
  · obtain ⟨u, r, hgang⟩ := List.exists_cons_of_ne_nil hgang
    have hnone : (s.reqsOf (s.gidOf u)).isEmpty = true := by
      rw [hreqs u (by rw [hgang]; exact List.mem_cons_self)]
      rfl
    have hfold := foldl_begin_eq (mk := fun s' u => mk u (tileOp s' k fb acc slot s.nextId u)) (fun _ _ => rfl) s.gangThreads s
    rw [← hfold, State.tileIssue, htrap, hgang]
    dsimp only
    rw [hnone]
    rfl
  · obtain ⟨-, hpreg, hkind⟩ := hmk u (tileOp s k fb acc slot s.nextId u)
    rw [Plain, hpreg, hkind]
    exact ⟨rfl, hk⟩

theorem matrixTrap_none {s : State} {i : Instr} (hread : s.badSlotRead i = false) (hwhole : s.whole = true) (hcause : s.matrixCause i = none) :
    s.matrixTrap i = none := by
  rw [State.matrixTrap, hread, hwhole, hcause]
  rfl

/-- What `ACCRD` adds to its operation. -/
def readsBlock (s : State) (h : FAccRW) (u : Thread) (o : Op) : Op :=
  { o with size := (s.sreg u h.desc.toNat).toNat, regs := s.phys u (blockBase h) 16 }

/-- What `ACCWR` adds to its operation. -/
def writesBlock (s : State) (h : FAccRW) (u : Thread) (o : Op) : Op :=
  { o with size := (s.sreg u h.desc.toNat).toNat, args := (List.range 16).map fun i => u.v (s.win u.tid) (blockBase h + i) }

theorem claims_tileIssue : Claims.TileIssue := by
  intro s f h hgang hwhole hreqs base plain block
  have trap {i : Instr} (hread : s.badSlotRead i = false) := matrixTrap_none hread hwhole
  refine ⟨fun i hi hcause => ?_, fun hcause => ?_, fun hcause => ?_⟩
  · simp only [List.mem_cons, List.not_mem_nil, or_false] at hi
    rcases hi with rfl | rfl
    · exact tileIssue_holds (.accz f) (mk := fun _ o => o) f.fb f.acc f.slot (fun _ _ => ⟨rfl, rfl, rfl⟩) ⟨rfl, rfl⟩ hgang hreqs (trap rfl hcause)
    · exact tileIssue_holds (.accnorm f) (mk := fun _ o => o) f.fb f.acc f.slot (fun _ _ => ⟨rfl, rfl, rfl⟩) ⟨rfl, rfl⟩ hgang hreqs (trap rfl hcause)
  · exact tileIssue_holds (.accrd h) (mk := readsBlock s h) h.fb h.acc h.slot (fun _ _ => ⟨rfl, rfl, rfl⟩) ⟨rfl, rfl⟩ hgang hreqs (trap rfl hcause)
  · exact tileIssue_holds (.accwr h) (mk := writesBlock s h) h.fb h.acc h.slot (fun _ _ => ⟨rfl, rfl, rfl⟩) ⟨rfl, rfl⟩ hgang hreqs (trap rfl hcause)

end Sys2Proof.Proofs
end


-- ==== Sys2Proof/Proofs/TileApplies.lean ====
section
/-! The end of a tile operation: the tile changes at a boundary, and the operation is over for every thread (R206, R271). -/

namespace Sys2Proof.Proofs

open Sys2Proof.Machine Sys2Proof.Says Sys2Proof.Laws

/-! ### The tiles of the package -/

theorem tile_congr {s t : State} (h : t.tiles = s.tiles) (tid acc : Nat) : t.tile tid acc = s.tile tid acc := by
  rw [State.tile, State.tile, h]

theorem tile_key (s : State) (tid acc : Nat) : (s.tile tid acc).tid = tid ∧ (s.tile tid acc).acc = acc := by
  unfold State.tile
  split
  · next x hx =>
    have hkey := List.find?_some hx
    rwa [Bool.and_eq_true, beq_iff_eq, beq_iff_eq] at hkey
  · exact ⟨rfl, rfl⟩

/-- A record is that of a tile. -/
def isTile (tid acc : Nat) (x : Tile) : Bool := x.tid == tid && x.acc == acc

theorem isTile_iff {tid acc : Nat} {x : Tile} : isTile tid acc x = true ↔ x.tid = tid ∧ x.acc = acc := by
  rw [isTile, Bool.and_eq_true, beq_iff_eq, beq_iff_eq]

/-- The records of the other tiles. -/
def otherTiles (s : State) (t : Tile) : List Tile := s.tiles.filter fun x => !isTile t.tid t.acc x

theorem find_otherTiles_same (s : State) (t : Tile) : (otherTiles s t).find? (isTile t.tid t.acc) = none :=
  List.find?_eq_none.mpr fun x hx => by simpa using (List.mem_filter.mp hx).2

theorem find_otherTiles_of_ne (s : State) {t : Tile} {tid acc : Nat} (h : ¬ (tid = t.tid ∧ acc = t.acc)) :
    (otherTiles s t).find? (isTile tid acc) = s.tiles.find? (isTile tid acc) := by
  rw [otherTiles, List.find?_filter]
  congr 1
  funext x
  cases hx : isTile tid acc x with
  | false => simp
  | true =>
    obtain ⟨rfl, rfl⟩ := isTile_iff.mp hx
    have hother : isTile t.tid t.acc x = false := Bool.eq_false_iff.mpr (mt isTile_iff.mp h)
    simp [hother]

theorem putTile_tiles (s : State) (t : Tile) :
    t = Tile.fresh t.tid t.acc ∧ (s.putTile t).tiles = otherTiles s t ∨ (s.putTile t).tiles = otherTiles s t ++ [t] := by
  by_cases hfresh : t = Tile.fresh t.tid t.acc
  · exact .inl ⟨hfresh, if_pos (beq_iff_eq.mpr hfresh)⟩
  · exact .inr (if_neg (by simpa using hfresh))

theorem tile_eq (s : State) (tid acc : Nat) : s.tile tid acc = (s.tiles.find? (isTile tid acc)).getD (Tile.fresh tid acc) := by
  have hfind : s.tile tid acc = match s.tiles.find? (isTile tid acc) with | some x => x | none => Tile.fresh tid acc := rfl
  rw [hfind]
  cases s.tiles.find? (isTile tid acc) <;> rfl

theorem tile_putTile_same (s : State) (t : Tile) : (s.putTile t).tile t.tid t.acc = t := by
  rw [tile_eq]
  rcases putTile_tiles s t with ⟨hfresh, hput⟩ | hput
  · rw [hput, find_otherTiles_same]
    exact hfresh.symm
  · rw [hput, List.find?_append, find_otherTiles_same, Option.none_or, List.find?_cons_of_pos (isTile_iff.mpr ⟨rfl, rfl⟩)]
    rfl

theorem tile_putTile_of_ne (s : State) (t : Tile) {tid acc : Nat} (h : ¬ (tid = t.tid ∧ acc = t.acc)) : (s.putTile t).tile tid acc = s.tile tid acc := by
  rw [tile_eq, tile_eq]
  rcases putTile_tiles s t with ⟨-, hput⟩ | hput
  · rw [hput, find_otherTiles_of_ne s h]
  · have hlast : ¬ isTile tid acc t = true := fun ht => h ⟨(isTile_iff.mp ht).1.symm, (isTile_iff.mp ht).2.symm⟩
    rw [hput, List.find?_append, find_otherTiles_of_ne s h, List.find?_cons_of_neg hlast, List.find?_nil, Option.or_none]

/-- What a tile operation makes of its tile. -/
def tileAfter (o : Op) (mine : List Op) (t : Tile) : Tile :=
  match o.kind with
  | .tileZ => t.zero o.addr
  | .tileNorm => t.norm o.addr
  | .tileWr => t.write (mine.flatMap fun x => ((List.range 16).zip x.args).flatMap fun p => blockValues x.addr x.size x.rtype p.1 p.2)
  | _ => t

theorem tileAfter_key (o : Op) (mine : List Op) (t : Tile) : (tileAfter o mine t).tid = t.tid ∧ (tileAfter o mine t).acc = t.acc := by
  unfold tileAfter
  split
  · exact ⟨rfl, rfl⟩
  · rw [norm_eq]
    split <;> exact ⟨rfl, rfl⟩
  · exact ⟨rfl, rfl⟩
  · exact ⟨rfl, rfl⟩

/-! ### The threads of the operation -/

/-- The words of a thread's block. -/
def blockWords (t : Tile) (o : Op) : List Word := (List.range 16).map fun j => t.blockWord o.addr o.size o.rtype j

/-- A thread's block has reached its registers, marked where the tile is poisoned. -/
def BlockRead (t : Tile) (o : Op) (b : Thread) : Prop :=
  ∀ j < 16, ∀ n, o.regs[j]? = some n → reg b n = t.blockWord o.addr o.size o.rtype j ∧ (t.poison = true → ∃ q ∈ b.pois, q.reg = n)

theorem blockRead_replied {t : Tile} {o : Op} (hregs : o.regs.Nodup) {p : Option Poison} (hp : t.poison = true → p ≠ none) (a : Thread) :
    BlockRead t o (ended { o with poison := p } (answered { o with poison := p } (blockWords t o) a)) := by
  intro j hj n hn
  have hword : (blockWords t o)[j]? = some (t.blockWord o.addr o.size o.rtype j) := by
    rw [blockWords, List.getElem?_map, List.getElem?_range hj]
    rfl
  refine ⟨reg_setPhysList hregs hn hword a, fun hpoison => ?_⟩
  obtain ⟨q, rfl⟩ := Option.ne_none_iff_exists'.mp (hp hpoison)
  exact ⟨{ q with reg := n }, List.mem_append_left _ (List.mem_map_of_mem (List.mem_of_getElem? hn)), rfl⟩

/-- The operation of one thread is over: of the package only its thread, the operations in flight, groups, events and the free values differ. -/
theorem endTileOp_eq (t : Tile) (s : State) {o : Op} (hregs : o.regs.Nodup) : ∃ (f : Thread → Thread) (gs : List Group) (ag : List Instr) (n : Nat),
    State.endTileOp t s o =
      { s with
        threads := s.threads.map fun a => if a.uid == o.uid then f a else a, ops := s.ops.filter fun x => x.id != o.id
        groups := gs, agenda := ag, freeCtr := n } ∧
    (∀ a, (f a).uid = a.uid) ∧ (o.kind = .tileRd → ∀ a, BlockRead t o (f a)) := by
  have hread (p : Option Poison) (s' : State) (hs' : ∃ n, s' = { s with freeCtr := n }) (hp : t.poison = true → p ≠ none) :
      ∃ (f : Thread → Thread) (gs : List Group) (ag : List Instr) (n : Nat), s'.complete { o with poison := p } (blockWords t o) =
        { s with
          threads := s.threads.map fun a => if a.uid == o.uid then f a else a, ops := s.ops.filter fun x => x.id != o.id
          groups := gs, agenda := ag, freeCtr := n } ∧ (∀ a, (f a).uid = a.uid) ∧ (o.kind = .tileRd → ∀ a, BlockRead t o (f a)) := by
    obtain ⟨n, rfl⟩ := hs'
    obtain ⟨gs, ag, hcomplete, -⟩ := complete_eq { s with freeCtr := n } { o with poison := p } (blockWords t o)
    exact ⟨_, gs, ag, n, hcomplete, fun a => answered_uid _ _ a, fun _ a => blockRead_replied hregs hp a⟩
  unfold State.endTileOp
  by_cases hkind : o.kind = .tileRd
  · rw [if_pos (beq_iff_eq.mpr hkind)]
    dsimp only
    split
    · exact hread _ s.draw ⟨_, rfl⟩ fun _ => Option.some_ne_none _
    · next hpoison => exact hread none s ⟨_, rfl⟩ fun h => absurd h hpoison
  · rw [if_neg (by simpa using hkind), finish_eq]
    exact ⟨ended o, _, _, _, rfl, fun _ => rfl, fun h => absurd h hkind⟩

/-- What ending some operations leaves: the memory and the tiles, none of the operations, and each thread but those of the operations as it was. -/
structure OpsEnded (t : Tile) (os : List Op) (s r : State) : Prop where
  mem : r.mem = s.mem
  tiles : r.tiles = s.tiles
  ops : ∀ x ∈ r.ops, x ∈ s.ops ∧ ∀ o ∈ os, x.id ≠ o.id
  others : ∀ b ∈ r.threads, (∀ o ∈ os, o.uid ≠ b.uid) → b ∈ s.threads
  read : ∀ o ∈ os, o.kind = .tileRd → ∀ b ∈ r.threads, b.uid = o.uid → BlockRead t o b

theorem opsEnded_cons {t : Tile} {o : Op} {os : List Op} {s r : State} (hregs : o.regs.Nodup) (hother : ∀ x ∈ os, x.uid ≠ o.uid)
    (h : OpsEnded t os (State.endTileOp t s o) r) : OpsEnded t (o :: os) s r := by
  obtain ⟨f, gs, ag, n, hend, huid, hread⟩ := endTileOp_eq t s hregs
  rw [hend] at h
  refine ⟨h.mem, h.tiles, fun x hx => ?_, fun b hb hne => ?_, fun x hx hkind b hb hbx => ?_⟩
  · obtain ⟨hx, hout⟩ := h.ops x hx
    obtain ⟨hmem, hid⟩ := List.mem_filter.mp hx
    exact ⟨hmem, List.forall_mem_cons.mpr ⟨by simpa using hid, hout⟩⟩
  · obtain ⟨hne, hnes⟩ := List.forall_mem_cons.mp hne
    obtain ⟨a, ha, rfl⟩ := List.mem_map.mp (h.others b hb hnes)
    by_cases hu : a.uid = o.uid
    · rw [if_pos (beq_iff_eq.mpr hu), huid] at hne
      exact absurd hu.symm hne
    · rwa [if_neg (by simpa using hu)]
  · rcases List.mem_cons.mp hx with rfl | hx
    · obtain ⟨a, ha, rfl⟩ := List.mem_map.mp (h.others b hb fun y hy => hbx ▸ hother y hy)
      by_cases hu : a.uid = x.uid
      · rw [if_pos (beq_iff_eq.mpr hu)]
        exact hread hkind a
      · rw [if_neg (by simpa using hu)] at hbx
        exact absurd hbx hu
    · exact h.read x hx hkind b hb hbx

theorem opsEnded_foldl {t : Tile} {os : List Op} (huids : (os.map fun x => x.uid).Nodup) (hregs : ∀ x ∈ os, x.regs.Nodup) (s : State) :
    OpsEnded t os s (os.foldl (State.endTileOp t) s) := by
  induction os generalizing s with
  | nil => exact ⟨rfl, rfl, fun x hx => ⟨hx, fun _ h => (by cases h)⟩, fun _ hb _ => hb, fun _ h => (by cases h)⟩
  | cons o os ih =>
    obtain ⟨hother, huids⟩ := List.nodup_cons.mp huids
    obtain ⟨ho, hregs⟩ := List.forall_mem_cons.mp hregs
    exact opsEnded_cons ho (fun x hx h => hother (List.mem_map.mpr ⟨x, hx, h⟩)) (ih huids hregs _)

theorem exec_tileOpApply {s : State} {id : Nat} {o : Op} (ho : s.op id = some o) (hready : s.tileOpReady o = true) :
    let mine := s.ops.filter fun x => x.aop == id && x.kind == o.kind
    exec (.tileOpApply id) s =
      .next (mine.foldl (State.endTileOp (s.tile o.tid o.loc)) (s.putTile (tileAfter o mine (s.tile o.tid o.loc)))) := by
  show execTileOpApply id s = _
  rw [execTileOpApply, ho]
  dsimp only
  rw [hready]
  rfl

theorem claims_tileApplies : Claims.TileApplies := by
  intro s id o ho hready mine old huids hmine
  have hended : OpsEnded old mine (s.putTile (tileAfter o mine old)) _ := opsEnded_foldl huids (fun x hx => (hmine x hx).1) _
  have hkind (x) (hx : x ∈ mine) : x.kind = o.kind := by
    have hx := (List.mem_filter.mp hx).2
    rw [Bool.and_eq_true] at hx
    exact eq_of_beq hx.2
  obtain ⟨htid, hacc⟩ := tileAfter_key o mine old
  obtain ⟨hold, holdacc⟩ := tile_key s o.tid o.loc
  have htile : (s.putTile (tileAfter o mine old)).tile o.tid o.loc = tileAfter o mine old := by
    have hsame := tile_putTile_same s (tileAfter o mine old)
    rwa [htid, hacc, hold, holdacc] at hsame
  have hat := (tile_congr hended.tiles o.tid o.loc).trans htile
  refine ⟨_, exec_tileOpApply ho hready, hended.mem, fun x hx => ?_, fun tid acc hne => ?_, fun hk => ?_, fun hk => ?_, fun hk => ?_, fun hk => ⟨?_, ?_⟩⟩
  · exact List.find?_eq_none.mpr fun y hy => by simpa using (hended.ops y hy).2 x hx
  · rw [tile_congr hended.tiles]
    exact tile_putTile_of_ne s _ (by rwa [htid, hacc, hold, holdacc])
  · exact hat.trans (by rw [tileAfter, hk])
  · exact hat.trans (by rw [tileAfter, hk])
  · exact hat.trans (by rw [tileAfter, hk])
  · exact hat.trans (by rw [tileAfter, hk])
  · intro x hx b hb hbx j hj n hn
    exact hended.read x hx ((hkind x hx).trans hk) b hb hbx j hj n hn

/-- Settles O41: the pass, `ACCZ` and `ACCNORM` by the arithmetic of their elements, the codes of a wrung block by their places among the codes of eight
bits, its rows by their checks in order, and the tile operations by their threads. -/
theorem tiles : Obligations.Tiles :=
  ⟨claims_gridRounding, claims_tileAdds, claims_tileOperations, claims_tileBlocks, claims_tileIssue, claims_tileApplies, claims_elementValues,
    claims_tileReadsAndWrites, claims_wrungCodes, claims_wrungRows⟩

end Sys2Proof.Proofs
end


-- ==== Sys2Proof/Proofs/Transfers.lean ====
section
/-! Transfers of control: branches, calls, returns, and their traps (R90, R91, R93, R95). -/

namespace Sys2Proof.Proofs

open Sys2Proof.Machine Sys2Proof.Says Sys2Proof.Laws

/-! ### One issue of a transfer -/

/-- A transfer moves the threads that take it, and the others of the gang pass on. -/
theorem movesThreads_of_transfer {i : Instr} {s : State} {run : Thread → Bool} {f : Thread → Thread} (h : exec i s = .next (s.transfer run f)) :
    MovesThreads i s fun a => if run a then f a else a.next :=
  movesThreads_of_exec h

theorem exec_bra (f : FJ) (s : State) :
    exec (.bra f) s = .next (s.transfer (fun t => t.p f.pred) fun t => t.jump (t.target f.off)) := rfl

theorem exec_braNegated (f : FJ) (s : State) :
    exec (.braNegated f) s = .next (s.transfer (fun t => !t.p f.pred) fun t => t.jump (t.target f.off)) := rfl

theorem exec_brx (f : FJX) (s : State) : exec (.brx f) s = .next (s.transfer (fun t => t.p f.pred) fun t => t.jump (s.src t f.a)) := rfl

theorem claims_branches : Claims.Branches := by
  intro f h s
  refine ⟨movesThreads_of_transfer (exec_bra f s), ?_, movesThreads_of_transfer (exec_brx h s)⟩
  have hmoves := movesThreads_of_transfer (exec_braNegated f s)
  have hsense : (fun a : Thread => if (!a.p f.pred) = true then a.jump (a.target f.off) else a.next) =
      fun a => if a.p f.pred = true then a.next else goTo (a.pkt + f.off.signExtend 32) a := by
    funext a
    cases a.p f.pred <;> rfl
  rwa [hsense] at hmoves

theorem claims_nopPasses : Claims.NopPasses := fun _ _ => movesThreads_of_exec rfl

theorem claims_exitLeaves : Claims.ExitLeaves := fun _ _ => movesThreads_of_transfer rfl

/-- Settles O19: each of the words is one issue of a transfer. -/
theorem transfersOfControl : Obligations.TransfersOfControl := by
  unfold Obligations.TransfersOfControl
  exact ⟨claims_branches, claims_nopPasses, claims_exitLeaves⟩

/-! ### Calls -/

/-- The registers of a thread's window from `v16` on, for the places of a list, are 0. -/
def cleared (W : Nat) (is : List Nat) (t : Thread) : Thread := is.foldl (fun (t : Thread) i => t.setPhys (physReg W t.depth (16 + i)) 0) t

theorem cleared_rest (W : Nat) (is : List Nat) (t : Thread) : ∃ rs ps, cleared W is t = { t with regs := rs, pois := ps } := by
  induction is generalizing t with
  | nil => exact ⟨t.regs, t.pois, rfl⟩
  | cons i is ih =>
    obtain ⟨rs, ps, h⟩ := ih (t.setPhys (physReg W t.depth (16 + i)) 0)
    exact ⟨rs, ps, h⟩

theorem reg_cleared (W : Nat) (is : List Nat) (t : Thread) (n : Nat) :
    reg (cleared W is t) n = if ∃ i ∈ is, n = physReg W t.depth (16 + i) then 0 else reg t n := by
  induction is generalizing t with
  | nil => simp [cleared]
  | cons i is ih =>
    rw [cleared, List.foldl_cons, ← cleared, ih, reg_setPhys]
    show (if ∃ j ∈ is, n = physReg W t.depth (16 + j) then (0 : Word) else _) = _
    by_cases hn : n = physReg W t.depth (16 + i)
    · simp [hn]
    · simp [hn, Ne.symm hn]

/-- A thread whose next window is open, its link the next packet. -/
def opened (a : Thread) : Thread := { a with depth := a.depth + 1, links := SMap.put 0 (a.depth + 1) (a.pkt + 1) a.links }

theorem enter_eq (W : Nat) (p : Word) (a : Thread) : a.enter W p = (cleared W (List.range 48) (opened a)).jump p := rfl

theorem reg_enter (W : Nat) (p : Word) (a : Thread) (n : Nat) :
    reg (a.enter W p) n = if ∃ i ∈ List.range 48, n = physReg W (a.depth + 1) (16 + i) then 0 else reg a n := by
  rw [enter_eq]
  generalize List.range 48 = is
  exact reg_cleared W is (opened a) n

theorem enter_rest (W : Nat) (p : Word) (a : Thread) : ∃ rs ps, a.enter W p =
    { goTo p a with depth := a.depth + 1, links := SMap.put 0 (a.depth + 1) (a.pkt + 1) a.links, regs := rs, pois := ps } := by
  rw [enter_eq]
  generalize List.range 48 = is
  obtain ⟨rs, ps, hrest⟩ := cleared_rest W is (opened a)
  exact ⟨rs, ps, by rw [hrest]; rfl⟩

/-- A thread that calls stands at the target in a cleared window, its link the next packet (R90). -/
theorem called_enter (W : Nat) (p : Word) (a : Thread) : Called W p a (a.enter W p) := by
  have hreg := reg_enter W p a
  obtain ⟨rs, ps, hall⟩ := enter_rest W p a
  generalize a.enter W p = b at hreg hall
  refine ⟨?_, ?_, fun d hd => ?_, fun k hlow hk => ?_, fun n hn => ?_, ?_⟩
  · rw [hall]
  · rw [hall, get_put, if_pos rfl]
  · rw [hall, get_put, if_neg (Ne.symm hd)]
  · rw [hreg, if_pos ⟨k - 16, List.mem_range.mpr (by omega), by rw [Nat.add_sub_cancel' hlow]⟩]
  · rw [hreg, if_neg]
    rintro ⟨i, hi, rfl⟩
    exact hn (16 + i) (by omega) (by have := List.mem_range.mp hi; omega) rfl
  · rw [hall]

/-- A check that no thread of a list fails. -/
theorem any_false {ts : List Thread} {bad : Thread → Bool} (h : ∀ u ∈ ts, bad u = false) : ¬ ts.any bad = true := by
  simpa using h

/-- A check that some thread of a list fails. -/
theorem any_true {ts : List Thread} {bad : Thread → Bool} (h : ∃ u ∈ ts, bad u = true) : ts.any bad = true := List.any_eq_true.mpr h

theorem windowsFull_iff {s : State} {t : Thread} : s.windowsFull t = true ↔ t.depth - t.spill + 1 = s.win t.tid := beq_iff_eq

/-- No executing thread is too deep for a call. -/
theorem callOut_transfer {s : State} {run : Thread → Bool} {target : Thread → Word}
    (h : ∀ u ∈ s.gangThreads.filter run, u.depth < 65535 ∧ u.depth - u.spill + 1 ≠ s.win u.tid) :
    s.callOut run target = .next (s.transfer run fun t => t.enter (s.win t.tid) (target t)) := by
  rw [State.callOut, if_neg (any_false fun u hu => ?_), if_neg (any_false fun u hu => Bool.eq_false_iff.mpr (windowsFull_iff.not.mpr (h u hu).2))]
  have := (h u hu).1
  exact beq_eq_false_iff_ne.mpr (by omega)

/-- What a call makes of the gang. -/
theorem calls_of_exec {i : Instr} {s : State} {run : Thread → Bool} {target : Thread → Word}
    (h : exec i s = .next (s.transfer run fun t => t.enter (s.win t.tid) (target t))) :
    ∃ t, exec i s = .next t ∧ OnlyThreads s t ∧ EachThread s t fun a b =>
      if run a then Called (s.win a.tid) (target a) a b else b = a.next := by
  obtain ⟨t, ht, honly, heach⟩ := movesThreads_of_transfer h
  refine ⟨t, ht, honly, eachThread_mono heach ?_⟩
  rintro a b rfl
  show if run a = true then Called _ _ a (if run a = true then _ else _) else (if run a = true then _ else _) = _
  split
  · exact called_enter _ _ a
  · rfl

theorem claims_calls : Claims.Calls := fun _ _ _ =>
  ⟨fun hroom => calls_of_exec (callOut_transfer hroom), fun hroom => calls_of_exec (callOut_transfer hroom)⟩

/-! ### Returns -/

theorem claims_returns : Claims.Returns := by
  intro f s hreturns
  refine movesThreads_of_transfer (f := Thread.leave) (run := fun t => t.p f.pred) ?_
  show execRet f s = _
  rw [execRet, if_neg (any_false fun u hu => beq_eq_false_iff_ne.mpr (hreturns u hu).1),
    if_neg (any_false fun u hu => beq_eq_false_iff_ne.mpr (hreturns u hu).2)]

/-! ### Their traps -/

/-- A word that answers a trap of a cause alone takes it for the whole gang. -/
theorem takesTrap_of_cause {i : Instr} {s : State} (hout : OutsideTrap s) {c : Nat} (h : exec i s = s.trapCause c) :
    TakesTrap i s (TrapReq.of c) (lanes s.gangThreads) false :=
  takesTrap_of_exec hout (TrapReq.of c) none h

variable {s : State}

theorem callOut_limit {run : Thread → Bool} {target : Thread → Word} (h : ∃ u ∈ s.gangThreads.filter run, u.depth = 65535) :
    s.callOut run target = s.trapCause 0x12 := by
  obtain ⟨u, hu, hd⟩ := h
  rw [State.callOut, if_pos (any_true ⟨u, hu, by rw [hd]; rfl⟩)]

theorem callOut_spill {run : Thread → Bool} {target : Thread → Word} (hlimit : ∀ u ∈ s.gangThreads.filter run, u.depth ≠ 65535)
    (h : ∃ u ∈ s.gangThreads.filter run, u.depth - u.spill + 1 = s.win u.tid) : s.callOut run target = s.trapCause 0x10 := by
  obtain ⟨u, hu, hfull⟩ := h
  rw [State.callOut, if_neg (any_false fun v hv => beq_eq_false_iff_ne.mpr (hlimit v hv)),
    if_pos (any_true ⟨u, hu, windowsFull_iff.mpr hfull⟩)]

theorem exec_ret_illegal {f : FP} (h : ∃ u ∈ s.executing f.pred, u.depth = 0) : exec (.ret f) s = s.trapCause 0x13 := by
  obtain ⟨u, hu, hd⟩ := h
  show execRet f s = _
  rw [execRet, if_pos (any_true ⟨u, hu, by rw [hd]; rfl⟩)]

theorem exec_ret_fill {f : FP} (hdeep : ∀ u ∈ s.executing f.pred, u.depth ≠ 0) (h : ∃ u ∈ s.executing f.pred, u.spill = u.depth) :
    exec (.ret f) s = s.trapCause 0x11 := by
  obtain ⟨u, hu, hfill⟩ := h
  show execRet f s = _
  rw [execRet, if_neg (any_false fun v hv => beq_eq_false_iff_ne.mpr (hdeep v hv)), if_pos (any_true ⟨u, hu, by rw [hfill]; exact beq_self_eq_true _⟩)]

theorem claims_callReturnTraps : Claims.CallReturnTraps := fun _ _ _ _ hout =>
  ⟨fun h => takesTrap_of_cause hout (callOut_limit h), fun h => takesTrap_of_cause hout (callOut_limit h),
    fun hlimit h => takesTrap_of_cause hout (callOut_spill hlimit h), fun hlimit h => takesTrap_of_cause hout (callOut_spill hlimit h),
    fun h => takesTrap_of_cause hout (exec_ret_illegal h), fun hdeep h => takesTrap_of_cause hout (exec_ret_fill hdeep h)⟩

end Sys2Proof.Proofs
end



-- ==== Sys2Proof/Proofs/LaneOwn.lean ====
section
/-! Bytes that one thread stores in its lane-own memory, into granules that pass their check (R84, R98, R136). -/

namespace Sys2Proof.Proofs

open Sys2Proof.Machine Sys2Proof.Says Sys2Proof.Laws

/-! ### Good granules keep their hems -/

section Merges

variable {all : StoreBytes} {m : State}

theorem refuses_sound (h : Sound m all) {g : Nat} (hg : g ∈ all.map fun e => e.1 / 32) : m.refuses all g = false := by
  obtain ⟨e, he, rfl⟩ := List.mem_map.mp hg
  rw [State.refuses, synAt_granule, h e he]
  simp

theorem foldl_setByte_rest (mine : StoreBytes) (m : State) :
    ∃ mem, mine.foldl (fun s e => s.setByte e.1 e.2.1) m = { m with mem := mem } := by
  induction mine generalizing m with
  | nil => exact ⟨m.mem, rfl⟩
  | cons e mine ih => exact ih (m.setByte e.1 e.2.1)

/-- A granule made whole anew has syndrome 0, which it had before. -/
theorem synAt_setSyn_same {g : Nat} (h : m.synAt (32 * g) = 0) (a : Nat) : (m.setSyn (32 * g) 0).synAt a = m.synAt a := by
  by_cases ha : a / 32 = g
  · have hm : m.synAt a = 0 := by rw [← synAt_granule, ha, h]
    rw [hm, synAt_cleared hm]
  · have hne : ¬ 32 * g / 32 = a / 32 := by omega
    simp only [State.synAt, State.setSyn, get_put, if_neg hne]

theorem synAt_mergeGranule (h : Sound m all) {g : Nat} (hg : g ∈ all.map fun e => e.1 / 32) (space : Nat) (ea : Thread → Nat) (a : Nat) :
    (State.mergeGranule space ea all m g).synAt a = m.synAt a := by
  obtain ⟨mem, hmem⟩ := foldl_setByte_rest (all.filter fun e => e.1 / 32 == g) m
  unfold State.mergeGranule
  rw [refuses_sound h hg, if_neg (by decide)]
  dsimp only
  rw [hmem]
  split
  · obtain ⟨e, he, rfl⟩ := List.mem_map.mp hg
    exact synAt_setSyn_same (m := { m with mem := mem }) ((synAt_granule m e.1).trans (h e he)) a
  · rfl

/-- The address that a refused store would report does not matter where none is refused. -/
theorem mergeGranule_address (h : Sound m all) {g : Nat} (hg : g ∈ all.map fun e => e.1 / 32) (space : Nat) (ea ea' : Thread → Nat) :
    State.mergeGranule space ea all m g = State.mergeGranule space ea' all m g := by
  simp only [State.mergeGranule, refuses_sound h hg, Bool.false_eq_true, if_false]

/-- What merges granules one after the other as `mergeGranule` does wherever they pass their check leaves the syndromes, and is that. -/
theorem foldl_merges {f : State → Nat → State} {space : Nat} {ea : Thread → Nat} (gs : List Nat) (h : Sound m all)
    (hgs : ∀ g ∈ gs, g ∈ all.map fun e => e.1 / 32)
    (hf : ∀ m, Sound m all → ∀ g ∈ all.map fun e => e.1 / 32, f m g = State.mergeGranule space ea all m g) :
    gs.foldl f m = gs.foldl (State.mergeGranule space ea all) m ∧ ∀ a, (gs.foldl f m).synAt a = m.synAt a := by
  induction gs generalizing m with
  | nil => exact ⟨rfl, fun _ => rfl⟩
  | cons g gs ih =>
    obtain ⟨hg, hgs⟩ := List.forall_mem_cons.mp hgs
    have hsyn := synAt_mergeGranule h hg space ea
    obtain ⟨heq, hkeep⟩ := ih (m := State.mergeGranule space ea all m g) (fun e he => (hsyn e.1).trans (h e he)) hgs
    rw [List.foldl_cons, List.foldl_cons, hf m h g hg]
    exact ⟨heq, fun a => (hkeep a).trans (hsyn a)⟩

end Merges

/-! ### What a byte holds after one thread's stores -/

theorem lastOf_of_forall {l : Nat} {x : Byte} (old : Byte) {st : List (Nat × Byte)} (hmem : (l, x) ∈ st) (h : ∀ e ∈ st, e.1 = l → e.2 = x) :
    lastOf l old st = x := by
  unfold lastOf
  split
  · next e he =>
    obtain ⟨hst, hl⟩ := List.mem_filter.mp (List.mem_of_getLast? he)
    exact h e hst (eq_of_beq hl)
  · next hnone =>
    have hempty := List.getLast?_eq_none_iff.mp hnone
    exact absurd (List.mem_filter.mpr ⟨hmem, beq_self_eq_true l⟩) (by rw [hempty]; exact List.not_mem_nil)

theorem lastOf_elsewhere {l : Nat} (old : Byte) {st : List (Nat × Byte)} (h : ∀ e ∈ st, e.1 ≠ l) : lastOf l old st = old := by
  have hnone : st.filter (fun e => e.1 == l) = [] := List.filter_eq_nil_iff.mpr fun e he hl => h e he (eq_of_beq hl)
  rw [lastOf, hnone]
  rfl

/-- The first `n` lane-own bytes of a thread from an offset on lie apart. -/
def LiesApart (s : State) (t : Thread) (o n : Nat) : Prop := ∀ i < n, ∀ j < n, s.laneOwnLoc t (o + i) = s.laneOwnLoc t (o + j) → i = j

section Stores

variable {s : State} {t : Thread} {o : Nat} {bs : List Byte}

theorem mem_storePairs_laneOwn {e : Nat × Byte} :
    e ∈ storePairs (s.laneOwnBytes t o bs) ↔ ∃ i, bs[i]? = some e.2 ∧ e.1 = s.laneOwnLoc t (o + i) := by
  unfold storePairs State.laneOwnBytes
  rw [List.map_map, List.mem_map]
  constructor
  · rintro ⟨x, hx, rfl⟩
    exact ⟨x.1, getElem?_of_mem_numbered hx, rfl⟩
  · rintro ⟨i, hi, hl⟩
    obtain ⟨hlt, hv⟩ := List.getElem?_eq_some_iff.mp hi
    refine ⟨(i, e.2), List.mem_iff_getElem.mpr ⟨i, by simpa using hlt, ?_⟩, Prod.ext hl.symm rfl⟩
    simp [hv]

theorem sound_laneOwnBytes {m : State} (h : ∀ i < bs.length, m.synAt (s.laneOwnLoc t (o + i)) = 0) : Sound m (s.laneOwnBytes t o bs) := by
  intro e he
  obtain ⟨i, hi, hl⟩ := mem_storePairs_laneOwn.mp (List.mem_map.mpr ⟨e, he, rfl⟩)
  exact (congrArg m.synAt hl).trans (h i (List.getElem?_eq_some_iff.mp hi).1)

/-- The thread's bytes have been stored where its own numbers say: memory `r` differs from `m` there and nowhere else. -/
structure LaneStored (s m r : State) (t : Thread) (o : Nat) (bs : List Byte) : Prop where
  rest : ∃ mem syn gtag, r = { m with mem := mem, syn := syn, gtag := gtag }
  syns : ∀ a, r.synAt a = m.synAt a
  here : ∀ i (h : i < bs.length), r.byte (s.laneOwnLoc t (o + i)) = bs[i]
  away : ∀ l, (∀ i < bs.length, l ≠ s.laneOwnLoc t (o + i)) → r.byte l = m.byte l

/-- One thread's store into good granules, at bytes that lie apart. -/
theorem laneStored_foldl {m : State} {f : State → Nat → State} {space : Nat} {ea : Thread → Nat}
    (hgood : ∀ i < bs.length, m.synAt (s.laneOwnLoc t (o + i)) = 0) (hapart : LiesApart s t o bs.length)
    (hf : ∀ m, Sound m (s.laneOwnBytes t o bs) → ∀ g ∈ (s.laneOwnBytes t o bs).map fun e => e.1 / 32,
      f m g = State.mergeGranule space ea (s.laneOwnBytes t o bs) m g) :
    LaneStored s m ((s.laneOwnBytes t o bs).granules.foldl f m) t o bs := by
  have hsound := sound_laneOwnBytes (s := s) (t := t) (o := o) hgood
  obtain ⟨heq, hsyn⟩ := foldl_merges (s.laneOwnBytes t o bs).granules hsound (fun g hg => mem_dedup.mp hg) hf
  obtain ⟨mem, syn, gtag, hall, hbyte⟩ := granules_sound hsound space ea
  rw [← heq] at hall hbyte
  refine ⟨⟨mem, syn, gtag, hall⟩, hsyn, fun i hi => ?_, fun l hl => ?_⟩
  · rw [hbyte]
    refine lastOf_of_forall _ (mem_storePairs_laneOwn.mpr ⟨i, List.getElem?_eq_getElem hi, rfl⟩) fun e he hel => ?_
    obtain ⟨j, hj, hloc⟩ := mem_storePairs_laneOwn.mp he
    obtain ⟨hjlt, hv⟩ := List.getElem?_eq_some_iff.mp hj
    obtain rfl := hapart j hjlt i hi (hloc.symm.trans hel)
    exact hv.symm
  · rw [hbyte]
    refine lastOf_elsewhere _ fun e he hel => ?_
    obtain ⟨i, hi, hloc⟩ := mem_storePairs_laneOwn.mp he
    exact hl i (List.getElem?_eq_some_iff.mp hi).1 (hel.symm.trans hloc)

/-- What the thread reads back of its bytes. -/
theorem LaneStored.laneOwn {m r q : State} (h : LaneStored s m r t o bs) (hq : q.laneOwnLoc t = s.laneOwnLoc t) (hmem : q.mem = r.mem) {k n : Nat}
    (hkn : k + n ≤ bs.length) : q.laneOwn t (o + k) n = (bs.drop k).take n := by
  apply List.ext_getElem
  · simp [State.laneOwn]
    omega
  · intro i hi _
    have hi : i < n := by simpa [State.laneOwn] using hi
    have hbyte (l : Nat) : q.byte l = r.byte l := by rw [State.byte, hmem]; rfl
    simp only [State.laneOwn, List.getElem_map, List.getElem_range, hq, hbyte, List.getElem_take, List.getElem_drop]
    rw [Nat.add_assoc, h.here (k + i) (by omega)]

end Stores

/-! ### A gang of one thread -/

theorem modThreads_singleton (s : State) (n : Nat) (f : Thread → Thread) : s.modThreads [n] f = s.modThread n f := by
  simp [State.modThreads, State.modThread]

/-- The only thread of the gang is changed, and passes on. -/
theorem eachThread_alone {s t : State} {u : Thread} {f : Thread → Thread} (hgang : s.gangThreads = [u]) (huid : ∀ a, (f a).uid = a.uid)
    (ht : t.threads = (s.threads.map fun a => if a.uid == u.uid then f a else a).map fun a => if s.gang.contains a.uid then a.next else a) :
    EachThread s t fun a b => a = u ∧ b = (f a).next := by
  have hu : u ∈ s.gangThreads := by rw [hgang]; exact List.mem_singleton_self u
  obtain ⟨-, hug⟩ := mem_gangThreads.mp hu
  unfold EachThread
  rw [ht, List.map_map, List.forall₂_map_right_iff, List.forall₂_same]
  intro a ha
  by_cases hag : a.uid ∈ s.gang
  · have hau : a = u := by simpa [hgang] using mem_gangThreads.mpr ⟨ha, hag⟩
    subst hau
    simp [hug, huid]
  · have hne : a.uid ≠ u.uid := fun h => hag (h ▸ hug)
    simp [hag, hne]

end Sys2Proof.Proofs
end



-- ==== Sys2Proof/Proofs/WindowImages.lean ====
section
/-! `WSPILL` and `WFILL`: a register window goes to a thread's lane-own memory and comes back (R98). -/

namespace Sys2Proof.Proofs

open Sys2Proof.Machine Sys2Proof.Says Sys2Proof.Laws

/-! ### The checks -/

theorem privileged_alone {s : State} {u : Thread} (hgang : s.gangThreads = [u]) (hmode : u.trapMode = true ∨ s.firmware u = true) :
    s.privileged = true := by
  rw [State.privileged, hgang]
  rcases hmode with h | h <;> simp [h]

/-- In a gang that may run them, `WSPILL` and `WFILL` trap where an image of a thread that needs one passes the bound or meets a barrier slot. -/
theorem imageTrap_none {s : State} {need : Thread → Bool} {a : BitVec 7} (hpriv : s.privileged = true)
    (h : ∀ t ∈ s.gangThreads, need t = true → s.imageOff t a + 512 ≤ recPriv (s.recordOf t.tid) ∧
      ∀ i < 256, s.laneOwnLoc t (s.imageOff t a + i) / 16 ∉ s.slots) : s.imageTrap need a = none := by
  have hbound : (s.gangThreads.filter need).filter (fun t => decide (recPriv (s.recordOf t.tid) < s.imageOff t a + 512)) = [] := by
    refine List.filter_eq_nil_iff.mpr fun t ht hlt => ?_
    obtain ⟨hmem, hneed⟩ := List.mem_filter.mp ht
    have := (h t hmem hneed).1
    have := of_decide_eq_true hlt
    omega
  have hslots : (s.gangThreads.filter need).filter
      (fun t => (List.range 64).any fun i => s.slots.contains (s.laneOwnLoc t (s.imageOff t a + 4 * i) / 16)) = [] := by
    refine List.filter_eq_nil_iff.mpr fun t ht hany => ?_
    obtain ⟨hmem, hneed⟩ := List.mem_filter.mp ht
    obtain ⟨i, hi, hslot⟩ := List.any_eq_true.mp hany
    have hi := List.mem_range.mp hi
    exact (h t hmem hneed).2 (4 * i) (by omega) (List.contains_iff_mem.mp hslot)
  simp only [State.imageTrap, hpriv, hbound, hslots]
  rfl

theorem exec_wspill {f : FG1} {s : State} (h : s.imageTrap s.needsSpill f.a = none) :
    exec (.wspill f) s = .next (s.spill f.a (s.gangThreads.filter s.needsSpill)).advance := by
  show execWspill f s = _
  rw [execWspill, h]

theorem exec_wfill {f : FG1} {s : State} (h : s.imageTrap Thread.needsFill f.a = none) :
    exec (.wfill f) s = .next (((s.gangThreads.filter Thread.needsFill).foldl (State.fillOne · f.a)
      (s.checkOnce s.gangCore 0 ((s.gangThreads.filter Thread.needsFill).flatMap (s.fillLocs f.a)))).advance) := by
  show execWfill f s = _
  rw [execWfill, h]

theorem needsSpill_iff {s : State} {t : Thread} : s.needsSpill t = true ↔ t.depth - t.spill + 1 = s.win t.tid := windowsFull_iff

theorem needsFill_iff {t : Thread} : t.needsFill = true ↔ 0 < t.spill ∧ t.spill = t.depth := by
  simp [Thread.needsFill]

/-! ### The image of a window -/

/-- The words of the oldest resident window of a thread (Table 4.2). -/
def windowWords (s : State) (u : Thread) : List Word := (List.range 48).map fun k => reg u (physReg (s.win u.tid) u.spill k)

/-- Its image: the words, the link, and 60 bytes of padding. -/
def windowImage (s : State) (u : Thread) : List Byte :=
  bytesOf (windowWords s u) ++ natLe 4 (SMap.get 0 u.links u.spill).toNat ++ List.replicate 60 0

theorem length_bytesOf (ws : List Word) : (bytesOf ws).length = 4 * ws.length := by
  induction ws with
  | nil => rfl
  | cons w ws ih =>
    have hcons : bytesOf (w :: ws) = natLe 4 w.toNat ++ bytesOf ws := rfl
    rw [hcons, List.length_append, ih, natLe_length, List.length_cons]
    omega

theorem length_windowWords (s : State) (u : Thread) : (bytesOf (windowWords s u)).length = 192 := by
  rw [length_bytesOf, windowWords, List.length_map, List.length_range]

theorem length_windowImage (s : State) (u : Thread) : (windowImage s u).length = 256 := by
  rw [windowImage, List.length_append, List.length_append, length_windowWords, natLe_length, List.length_replicate]

theorem windowImage_words (s : State) (u : Thread) : ((windowImage s u).drop 0).take 192 = bytesOf (windowWords s u) := by
  rw [List.drop_zero, windowImage, List.append_assoc, ← length_windowWords s u, List.take_left']
  rfl

theorem windowImage_link (s : State) (u : Thread) :
    ((windowImage s u).drop 192).take 4 = natLe 4 (SMap.get 0 u.links u.spill).toNat := by
  rw [windowImage, List.append_assoc, List.drop_left' (length_windowWords s u), List.take_left' (natLe_length 4 _)]

theorem spillBytes_eq (s : State) (a : BitVec 7) (u : Thread) : s.spillBytes a u = s.laneOwnBytes u (s.imageOff u a) (windowImage s u) := rfl

/-! ### WSPILL -/

/-- A thread without a poisoned register spills its window into good granules. -/
theorem spill_alone {s : State} {a : BitVec 7} {u : Thread} (hpois : u.pois = [])
    (hgood : ∀ i < 256, s.synAt (s.laneOwnLoc u (s.imageOff u a + i)) = 0) (hapart : LiesApart s u (s.imageOff u a) 256) :
    ∃ r, LaneStored s s r u (s.imageOff u a) (windowImage s u) ∧
      s.spill a [u] = r.modThread u.uid fun t => { t with spill := t.spill + 1 } := by
  have hall : [u].flatMap (s.spillBytes a) = s.laneOwnBytes u (s.imageOff u a) (windowImage s u) := by
    rw [List.flatMap_singleton, spillBytes_eq]
  have hbad : [u].flatMap (s.spillBad a) = [] := by
    rw [List.flatMap_singleton, State.spillBad, hpois]
    simp
  rw [← length_windowImage s u] at hgood hapart
  refine ⟨_, laneStored_foldl (f := State.spillGranule a [] (s.laneOwnBytes u (s.imageOff u a) (windowImage s u))) (space := 5)
    (ea := fun _ => 0) hgood hapart fun m hm g hg => ?_, ?_⟩
  · have hkept : ([] : List Nat).contains g = false := rfl
    simp only [State.spillGranule, hkept, Bool.false_and, Bool.false_eq_true, if_false]
    exact mergeGranule_address hm hg 5 _ _
  · rw [State.spill, hall, hbad]
    exact modThreads_singleton _ _ _

theorem next_withSpill (t : Thread) (n : Nat) : Thread.next { t with spill := n } = { t.next with spill := n } := by
  unfold Thread.next
  dsimp only
  split
  · rfl
  · split
    · split <;> rfl
    · rfl

/-! ### WFILL -/

theorem hemFault_zero (s : State) (tag : BitVec 64) (loc : Nat) : s.hemFault tag loc 0 = s := rfl

/-- Granules that pass their check are read without a report. -/
theorem checkOnce_good {s : State} (core cons : Nat) {locs : List Nat} (h : ∀ l ∈ locs, s.synAt l = 0) : s.checkOnce core cons locs = s := by
  have hall : ∀ gs : List Nat, (∀ g ∈ gs, s.synAt (32 * g) = 0) →
      gs.foldl (fun s g => s.hemFault (s.bankTag core (32 * g) cons) (32 * g) (s.synAt (32 * g))) s = s := by
    intro gs hgs
    induction gs with
    | nil => rfl
    | cons g gs ih =>
      obtain ⟨hg, hgs⟩ := List.forall_mem_cons.mp hgs
      rw [List.foldl_cons, hg, hemFault_zero]
      exact ih hgs
  refine hall _ fun g hg => ?_
  obtain ⟨l, hl, rfl⟩ := List.mem_map.mp (mem_dedup.mp hg)
  exact (synAt_granule s l).trans (h l hl)

/-- The words that a thread's image holds. -/
def imageWords (s : State) (o : Nat) (u : Thread) : List Word := wordsOf (s.laneOwn u o 196)

/-- A thread whose window `w` has been restored: its registers `ns` from words, and its link. -/
def restored (ns : List Nat) (ws : List Word) (w : Nat) (link : Word) (t : Thread) : Thread :=
  let t := t.setPhysList ns ws
  { t with links := SMap.put 0 w link t.links, spill := w }

theorem restored_uid (ns : List Nat) (ws : List Word) (w : Nat) (link : Word) (t : Thread) : (restored ns ws w link t).uid = t.uid :=
  setPhysList_uid ns ws t

theorem reg_restored (ns : List Nat) (ws : List Word) (w : Nat) (link : Word) (t : Thread) (n : Nat) :
    reg (restored ns ws w link t) n = reg (t.setPhysList ns ws) n := rfl

/-- A thread whose youngest spilled window has been restored from an image at an offset. -/
def filled (s : State) (o : Nat) (u : Thread) : Thread → Thread :=
  restored ((List.range 48).map (physReg (s.win u.tid) (u.spill - 1))) ((imageWords s o u).take 48) (u.spill - 1) ((imageWords s o u).getD 48 0)

theorem imageWords_getElem? (s : State) (o : Nat) (u : Thread) {k : Nat} (hk : k < 49) :
    (imageWords s o u)[k]? = some (BitVec.ofNat 32 (leNat (s.laneOwn u (o + 4 * k) 4))) := by
  have hlen : (s.laneOwn u o 196).length = 196 := by rw [State.laneOwn, List.length_map, List.length_range]
  have hbytes : ((s.laneOwn u o 196).drop (4 * k)).take 4 = s.laneOwn u (o + 4 * k) 4 := by
    apply List.ext_getElem
    · rw [List.length_take, List.length_drop, hlen, State.laneOwn, List.length_map, List.length_range]
      omega
    · intro i hi _
      simp [State.laneOwn, Nat.add_assoc]
  rw [imageWords, wordsOf, hlen, List.getElem?_map, List.getElem?_range (by omega), Option.map_some, hbytes]

/-- The 48 registers of a window are different ones. -/
theorem windowRegs_nodup {W : Nat} (hW : 2 ≤ W) (d : Nat) : ((List.range 48).map (physReg W d)).Nodup := by
  refine List.Nodup.map_on (fun k hk j hj h => ?_) List.nodup_range
  have hk := List.mem_range.mp hk
  have hj := List.mem_range.mp hj
  have := eq_of_physReg_eq h le_rfl (by omega) (by omega) (by omega)
  omega

theorem reg_filled {s : State} {o : Nat} {u : Thread} (hW : 2 ≤ s.win u.tid) (t : Thread) {k : Nat} (hk : k < 48) :
    reg (filled s o u t) (physReg (s.win u.tid) (u.spill - 1) k) = BitVec.ofNat 32 (leNat (s.laneOwn u (o + 4 * k) 4)) := by
  rw [filled, reg_restored]
  refine reg_setPhysList (windowRegs_nodup hW (u.spill - 1)) (i := k) ?_ ?_ t
  · rw [List.getElem?_map, List.getElem?_range hk, Option.map_some]
  · rw [List.getElem?_take, if_pos hk, imageWords_getElem? s o u (by omega)]

theorem link_filled (s : State) (o : Nat) (u t : Thread) :
    SMap.get 0 (filled s o u t).links (u.spill - 1) = BitVec.ofNat 32 (leNat (s.laneOwn u (o + 192) 4)) := by
  rw [filled, restored, get_put, if_pos rfl, List.getD_eq_getElem?_getD, imageWords_getElem? s o u (by decide), Option.getD_some]

/-- An image in good granules restores a window without a mark. -/
theorem fillOne_good {s : State} {a : BitVec 7} {u : Thread} (hgood : ∀ i < 256, s.synAt (s.laneOwnLoc u (s.imageOff u a + i)) = 0) :
    s.fillOne a u = s.modThread u.uid (filled s (s.imageOff u a) u) := by
  have hmarks : (List.range 48).filterMap (fun k =>
      s.laneOwnPoison u (s.imageOff u a + 4 * k) (physReg (s.win u.tid) (u.spill - 1) k)) = [] := by
    refine List.filterMap_eq_nil_iff.mpr fun k hk => ?_
    have hk := List.mem_range.mp hk
    rw [State.laneOwnPoison, hgood (4 * k) (by omega)]
    rfl
  simp only [State.fillOne, hmarks, List.nil_append]
  refine congrArg (s.modThread u.uid) (funext fun t => ?_)
  simp only [filled, restored, imageWords]

/-! ### The obligation -/

theorem next_links (t : Thread) : t.next.links = t.links := by
  unfold Thread.next
  split
  · rfl
  · split
    · split <;> rfl
    · rfl

theorem next_spill (t : Thread) : t.next.spill = t.spill := by
  unfold Thread.next
  split
  · rfl
  · split
    · split <;> rfl
    · rfl

/-- One thread that needs it spills its oldest window into its image. -/
theorem wspill_stores {f : FG1} {s : State} {u : Thread} (hgang : s.gangThreads = [u]) (htrap : s.imageTrap s.needsSpill f.a = none)
    (hneed : s.needsSpill u = true) (hpois : u.pois = []) (hgood : ∀ i < 256, s.synAt (s.laneOwnLoc u (s.imageOff u f.a + i)) = 0)
    (hapart : LiesApart s u (s.imageOff u f.a) 256) :
    ∃ r t, exec (.wspill f) s = .next t ∧ LaneStored s s r u (s.imageOff u f.a) (windowImage s u) ∧ t.mem = r.mem ∧ t.syn = r.syn ∧
      t.laneOwnLoc u = s.laneOwnLoc u ∧ EachThread s t fun a b => b = { a.next with spill := a.spill + 1 } := by
  obtain ⟨r, hstored, hspill⟩ := spill_alone hpois hgood hapart
  obtain ⟨mem, syn, gtag, hr⟩ := hstored.rest
  refine ⟨r, (s.spill f.a [u]).advance, ?_, hstored, ?_, ?_, ?_, ?_⟩
  · rw [exec_wspill htrap, hgang, List.filter_cons, if_pos hneed, List.filter_nil]
  · rw [hspill]
    rfl
  · rw [hspill]
    rfl
  · rw [hspill, hr]
    rfl
  · refine eachThread_mono (eachThread_alone (f := fun t => { t with spill := t.spill + 1 }) hgang (fun _ => rfl) (by rw [hspill, hr]; rfl)) ?_
    rintro a b ⟨rfl, rfl⟩
    exact next_withSpill a (a.spill + 1)

/-- One thread that needs it gets its youngest spilled window back. -/
theorem wfill_restores {f : FG1} {s : State} {u : Thread} (hgang : s.gangThreads = [u]) (htrap : s.imageTrap Thread.needsFill f.a = none)
    (hneed : u.needsFill = true) (hgood : ∀ i < 256, s.synAt (s.laneOwnLoc u (s.imageOff u f.a + i)) = 0) :
    ∃ t, exec (.wfill f) s = .next t ∧ t.mem = s.mem ∧ EachThread s t fun a b => a = u ∧ b = (filled s (s.imageOff u f.a) u a).next := by
  have hread : s.checkOnce s.gangCore 0 (s.fillLocs f.a u) = s := by
    refine checkOnce_good _ _ fun l hl => ?_
    obtain ⟨k, hk, rfl⟩ := List.mem_map.mp hl
    have hk := List.mem_range.mp hk
    exact hgood (4 * k) (by omega)
  refine ⟨(s.modThread u.uid (filled s (s.imageOff u f.a) u)).advance, ?_, rfl, eachThread_alone hgang (restored_uid _ _ _ _) rfl⟩
  rw [exec_wfill htrap, hgang, List.filter_cons, if_pos hneed, List.filter_nil, List.flatMap_singleton, hread, List.foldl_cons,
    List.foldl_nil, fillOne_good hgood]

/-- A gang with no thread that needs a spill only passes on. -/
theorem wspill_passes {f : FG1} {s : State} (htrap : s.imageTrap s.needsSpill f.a = none) (hnone : s.gangThreads.filter s.needsSpill = []) :
    MovesThreads (.wspill f) s Thread.next := by
  refine movesThreads_of_exec ?_
  rw [exec_wspill htrap, hnone]
  refine congrArg (fun m : State => Host.Outcome.next m.advance) ?_
  exact modThreads_nil s _

/-- A gang with no thread that needs a fill only passes on. -/
theorem wfill_passes {f : FG1} {s : State} (htrap : s.imageTrap Thread.needsFill f.a = none)
    (hnone : s.gangThreads.filter Thread.needsFill = []) : MovesThreads (.wfill f) s Thread.next := by
  refine movesThreads_of_exec ?_
  rw [exec_wfill htrap, hnone]
  rfl

theorem claims_windowImages : Claims.WindowImages := by
  intro f s u hgang _ hmode hpois o W hbound hslots hW hapart
  have htrap (need : Thread → Bool) : s.imageTrap need f.a = none := by
    refine imageTrap_none (privileged_alone hgang hmode) fun t ht _ => ?_
    obtain rfl : t = u := by simpa [hgang] using ht
    exact ⟨hbound, hslots⟩
  refine ⟨fun hfull hgood => ?_, fun hpos hfill hgood => ?_, fun hroom => ?_, fun hnone => ?_⟩
  · obtain ⟨r, t, hexec, hstored, hmem, hsyn, hlocs, heach⟩ :=
      wspill_stores hgang (htrap _) (needsSpill_iff.mpr hfull) hpois hgood hapart
    have hbyte (l : Nat) : t.byte l = r.byte l := by rw [State.byte, hmem]; rfl
    have hlen := length_windowImage s u
    refine ⟨t, hexec, fun l => ?_, ?_, ?_, heach, fun l hl => ?_⟩
    · rw [← hstored.syns l, State.synAt, hsyn]
      rfl
    · have hwords := (hstored.laneOwn (q := t) hlocs hmem (k := 0) (n := 192) (by omega)).trans (windowImage_words s u)
      rw [Nat.add_zero] at hwords
      exact hwords
    · have hlink := (hstored.laneOwn (q := t) hlocs hmem (k := 192) (n := 4) (by omega)).trans (windowImage_link s u)
      exact hlink
    · rw [hbyte]
      exact hstored.away l fun i hi => hl i (by omega)
  · obtain ⟨t, hexec, hmem, heach⟩ := wfill_restores hgang (htrap _) (needsFill_iff.mpr ⟨hpos, hfill⟩) hgood
    refine ⟨t, hexec, hmem, eachThread_mono heach ?_⟩
    rintro a b ⟨rfl, rfl⟩
    refine ⟨next_spill _, fun k hk => ?_, ?_⟩
    · have hregs : reg (filled s o a a).next = reg (filled s o a a) := by
        funext n
        rw [reg, next_regs]
        rfl
      exact (congrFun hregs _).trans (reg_filled hW a hk)
    · rw [next_links]
      exact link_filled s o a a
  · refine wspill_passes (htrap _) ?_
    rw [hgang, List.filter_cons, if_neg (needsSpill_iff.not.mpr hroom), List.filter_nil]
  · refine wfill_passes (htrap _) ?_
    rw [hgang, List.filter_cons, if_neg (needsFill_iff.not.mpr hnone), List.filter_nil]

/-- Settles O20: calls and returns are transfers, and a window goes to its image and back byte by byte. -/
theorem callsAndReturns : Obligations.CallsAndReturns := by
  unfold Obligations.CallsAndReturns
  exact ⟨claims_calls, claims_returns, claims_callReturnTraps, claims_windowImages⟩

end Sys2Proof.Proofs
end



-- ==== Sys2Proof/Proofs/Seams.lean ====
section
/-! `SEAM` and `YIELD`: the entries of a gang's threads, their tags and their places above level 8, and the bars of paths (R78, R79, R84, R94). -/

namespace Sys2Proof.Proofs

open Sys2Proof.Machine Sys2Proof.Says Sys2Proof.Laws

/-! ### Free tags -/

/-- The tags that the entries of a team's threads hold. -/
def heldTags (s : State) (tid : Nat) : List Nat := (s.teamThreads tid).flatMap fun t => t.seams.map Seam.tag

theorem mem_heldTags {s : State} {tid k : Nat} : k ∈ heldTags s tid ↔ ∃ v ∈ s.threads, v.tid = tid ∧ ∃ e ∈ v.seams, e.tag = k := by
  simp [heldTags, State.teamThreads, and_assoc]

theorem freeTags_eq (s : State) (tid n : Nat) : s.freeTags tid n =
    (((List.range ((heldTags s tid).length + n)).map (· + 1)).filter fun k => !(heldTags s tid).contains k).take n := rfl

theorem mem_freeTags {s : State} {tid n k : Nat} (h : k ∈ s.freeTags tid n) : 1 ≤ k ∧ k ∉ heldTags s tid := by
  rw [freeTags_eq] at h
  obtain ⟨hk, hfree⟩ := List.mem_filter.mp (List.mem_of_mem_take h)
  obtain ⟨j, -, rfl⟩ := List.mem_map.mp hk
  exact ⟨by omega, by simpa using hfree⟩

theorem candidates_nodup (n : Nat) : ((List.range n).map (· + 1)).Nodup :=
  List.Nodup.map (fun _ _ h => Nat.succ.inj h) List.nodup_range

theorem freeTags_nodup (s : State) (tid n : Nat) : (s.freeTags tid n).Nodup := by
  rw [freeTags_eq]
  exact ((candidates_nodup _).filter _).sublist (List.take_sublist _ _)

/-- Of more numbers than are held, by n, at least n are free. -/
theorem freeTags_length (s : State) (tid n : Nat) : (s.freeTags tid n).length = n := by
  rw [freeTags_eq]
  generalize heldTags s tid = used
  have htotal := List.length_eq_length_filter_add (l := (List.range (used.length + n)).map (· + 1)) fun k => used.contains k
  rw [List.length_map, List.length_range] at htotal
  have hheld : (((List.range (used.length + n)).map (· + 1)).filter fun k => used.contains k).length ≤ used.length :=
    (List.subperm_of_subset ((candidates_nodup _).filter _) fun k hk => List.contains_iff_mem.mp (List.mem_filter.mp hk).2).length_le
  rw [List.length_take]
  omega

/-! ### The tags of a gang's entries -/

/-- The window depths of the gang's threads, and a free tag for each. -/
def seamDepths (s : State) : List Nat := dedup (s.gangThreads.map Thread.depth)

def seamTags (s : State) : List Nat := s.freeTags ((s.gangThreads.head?.map Thread.tid).getD 0) (seamDepths s).length

/-- The tag of the entries of one depth. -/
def seamTag (s : State) (d : Nat) : Nat := ((((seamDepths s).zip (seamTags s)).find? fun e => e.1 == d).map fun e => e.2).getD 0

/-- The entry that `SEAM` pushes on a thread. -/
def seamEntry (f : FSeam) (s : State) (t : Thread) : Seam := { pkt := t.target f.off, depth := t.depth, tag := seamTag s t.depth }

theorem seamTag_at {s : State} {u : Thread} (hu : u ∈ s.gangThreads) :
    ∃ i : Nat, (seamDepths s)[i]? = some u.depth ∧ (seamTags s)[i]? = some (seamTag s u.depth) := by
  have hdepth : u.depth ∈ seamDepths s := mem_dedup.mpr (List.mem_map.mpr ⟨u, hu, rfl⟩)
  obtain ⟨i, hi, hat⟩ := List.mem_iff_getElem.mp hdepth
  have hlen : (seamTags s).length = (seamDepths s).length := freeTags_length s _ _
  have hpair : ((seamDepths s)[i], (seamTags s)[i]) ∈ (seamDepths s).zip (seamTags s) :=
    List.mem_iff_getElem.mpr ⟨i, by rw [List.length_zip]; omega, List.getElem_zip⟩
  obtain ⟨e, he⟩ := Option.isSome_iff_exists.mp
    (List.find?_isSome (p := fun e : Nat × Nat => e.1 == u.depth) |>.mpr ⟨_, hpair, beq_iff_eq.mpr hat⟩)
  obtain ⟨j, hj, hej⟩ := List.mem_iff_getElem.mp (List.mem_of_find?_eq_some he)
  rw [List.length_zip] at hj
  have hkey := List.find?_some he
  have hkey : e.1 = u.depth := eq_of_beq hkey
  rw [List.getElem_zip] at hej
  refine ⟨j, ?_, ?_⟩
  · rw [List.getElem?_eq_getElem (by omega), ← hkey, ← hej]
  · rw [List.getElem?_eq_getElem (by omega), seamTag, he, ← hej]
    rfl

/-- Entries of different depths get different tags. -/
theorem seamTag_inj {s : State} {u v : Thread} (hu : u ∈ s.gangThreads) (hv : v ∈ s.gangThreads) (h : seamTag s u.depth = seamTag s v.depth) :
    u.depth = v.depth := by
  obtain ⟨i, hdi, hti⟩ := seamTag_at hu
  obtain ⟨j, hdj, htj⟩ := seamTag_at hv
  obtain ⟨hi, hei⟩ := List.getElem?_eq_some_iff.mp hti
  obtain ⟨hj, hej⟩ := List.getElem?_eq_some_iff.mp htj
  have hij : i = j := (freeTags_nodup s _ _).getElem_inj_iff.mp (hei.trans (h.trans hej.symm))
  subst hij
  exact Option.some.inj (hdi.symm.trans hdj)

theorem seamTag_mem {s : State} {u : Thread} (hu : u ∈ s.gangThreads) : seamTag s u.depth ∈ seamTags s := by
  obtain ⟨i, -, hi⟩ := seamTag_at hu
  exact List.mem_of_getElem? hi

/-- A tag that no entry of the gang's team held. -/
theorem seamTag_free {s : State} {tid : Nat} {u : Thread} (hu : u ∈ s.gangThreads) (hteam : ∀ v ∈ s.gangThreads, v.tid = tid) :
    1 ≤ seamTag s u.depth ∧ ∀ v ∈ s.threads, v.tid = tid → ∀ e ∈ v.seams, e.tag ≠ seamTag s u.depth := by
  have htid : (s.gangThreads.head?.map Thread.tid).getD 0 = tid := by
    obtain ⟨v, r, hr⟩ := List.exists_cons_of_ne_nil (List.ne_nil_of_mem hu)
    rw [hr]
    exact hteam v (by rw [hr]; exact List.mem_cons_self)
  have hmem := seamTag_mem hu
  rw [seamTags, htid] at hmem
  obtain ⟨hpos, hfree⟩ := mem_freeTags hmem
  exact ⟨hpos, fun v hv hvt e he heq => hfree (mem_heldTags.mpr ⟨v, hv, hvt, e, he, heq⟩)⟩

/-! ### Pushing the entries -/

/-- A thread with one more entry. -/
def pushed (e : Seam) (t : Thread) : Thread := { t with seams := e :: t.seams }

theorem next_pushed (e : Seam) (t : Thread) : (pushed e t).next = { t.next with seams := e :: t.seams } := by
  unfold pushed Thread.next
  dsimp only
  split
  · rfl
  · split
    · split <;> rfl
    · rfl

/-- The bytes that the gang's entries above level 8 put in lane-own memory. -/
def seamStores (f : FSeam) (s : State) : StoreBytes := s.gangThreads.flatMap fun t => s.seamBytes t (seamEntry f s t)

theorem exec_seam {f : FSeam} {s : State} (h : ∀ t ∈ s.gangThreads, t.seams.length ≠ 40 ∧ (8 ≤ t.seams.length → 256 ≤ recPriv (s.recordOf t.tid))) :
    exec (.seam f) s = .next ((seamStores f s).granules.foldl (State.mergeGranule 5 s.nextSeamOff (seamStores f s))
      (s.gangThreads.foldl (fun m t => m.pushSeam t (seamEntry f s t)) s)).advance := by
  show execSeam f s = _
  refine if_neg (any_false fun t ht => ?_)
  obtain ⟨hne, hroom⟩ := h t ht
  rw [Bool.or_eq_false_iff, Bool.and_eq_false_iff, decide_eq_false_iff_not, decide_eq_false_iff_not]
  exact ⟨beq_eq_false_iff_ne.mpr hne, by omega⟩

theorem exec_seam_overflow {f : FSeam} {s : State}
    (h : ∃ u ∈ s.gangThreads, u.seams.length = 40 ∨ 8 ≤ u.seams.length ∧ recPriv (s.recordOf u.tid) < 256) :
    exec (.seam f) s = s.trapCause 0x14 := by
  obtain ⟨u, hu, hbad⟩ := h
  show execSeam f s = _
  refine if_pos (any_true ⟨u, hu, ?_⟩)
  rw [Bool.or_eq_true, Bool.and_eq_true, decide_eq_true_iff, decide_eq_true_iff]
  exact hbad.imp_left beq_iff_eq.mpr

theorem claims_seamOverflowTraps : Claims.SeamOverflowTraps := fun _ _ hout h => takesTrap_of_cause hout (exec_seam_overflow h)

/-- Changes of several threads, each of its own, at once. -/
theorem foldl_modThread {g : Thread → Thread → Thread} (hg : ∀ t a, (g t a).uid = a.uid) (ts : List Thread) (hts : (ts.map Thread.uid).Nodup)
    (s : State) : ts.foldl (fun m t => m.modThread t.uid (g t)) s =
      { s with threads := s.threads.map fun a => ((ts.find? fun t => t.uid == a.uid).map fun t => g t a).getD a } := by
  induction ts generalizing s with
  | nil => simp
  | cons t ts ih =>
    obtain ⟨hnew, hts⟩ := List.nodup_cons.mp hts
    rw [List.foldl_cons, ih hts]
    simp only [State.modThread, List.map_map]
    congr 1
    refine List.map_congr_left fun a _ => ?_
    by_cases ha : t.uid = a.uid
    · have hnone : ts.find? (fun v => v.uid == t.uid) = none :=
        List.find?_eq_none.mpr fun v hv hvt => hnew (List.mem_map.mpr ⟨v, hv, eq_of_beq hvt⟩)
      simp [← ha, hg, hnone]
    · have ha' : ¬ a.uid = t.uid := fun h => ha h.symm
      simp [ha, ha']

theorem gangThreads_uids_nodup {s : State} (h : Distinct s) : (s.gangThreads.map Thread.uid).Nodup :=
  ((gangThreads_perm s).map Thread.uid).nodup_iff.mpr (h.sublist (List.filter_sublist.map _))

/-- In a gang of distinct threads a thread is found by its number. -/
theorem find_gangThreads {s : State} (h : Distinct s) {a : Thread} (ha : a ∈ s.threads) :
    (s.gangThreads.find? fun t => t.uid == a.uid) = if a.uid ∈ s.gang then some a else none := by
  by_cases hg : a.uid ∈ s.gang
  · rw [if_pos hg]
    refine find?_unique (mem_gangThreads.mpr ⟨ha, hg⟩) (beq_self_eq_true _) fun v hv hva => ?_
    exact List.inj_on_of_nodup_map h (mem_gangThreads.mp hv).1 ha (eq_of_beq hva)
  · rw [if_neg hg, List.find?_eq_none]
    exact fun v hv hva => hg (eq_of_beq hva ▸ (mem_gangThreads.mp hv).2)

/-- A gang whose threads hold fewer than eight entries pushes one on each. -/
theorem pushSeams_eq {f : FSeam} {s : State} (h : Distinct s) (hfew : ∀ t ∈ s.gangThreads, t.seams.length < 8) :
    s.gangThreads.foldl (fun m t => m.pushSeam t (seamEntry f s t)) s =
      { s with threads := s.threads.map fun a => if a.uid ∈ s.gang then pushed (seamEntry f s a) a else a } := by
  have hplain : s.gangThreads.foldl (fun m t => m.pushSeam t (seamEntry f s t)) s =
      s.gangThreads.foldl (fun m t => m.modThread t.uid (pushed (seamEntry f s t))) s := by
    refine List.foldl_ext _ _ _ fun m t ht => ?_
    have := hfew t ht
    have hne : (t.seams.length == 8) = false := beq_eq_false_iff_ne.mpr (by omega)
    rw [State.pushSeam, hne]
    rfl
  rw [hplain, foldl_modThread (g := fun t => pushed (seamEntry f s t)) (fun _ _ => rfl) _ (gangThreads_uids_nodup h)]
  congr 1
  refine List.map_congr_left fun a ha => ?_
  rw [find_gangThreads h ha]
  split <;> rfl

theorem claims_seamPush : Claims.SeamPush := by
  intro f s tid hdistinct hgang
  have hnone : seamStores f s = [] := List.flatMap_eq_nil_iff.mpr fun t ht => by rw [State.seamBytes, if_pos (hgang t ht).2]
  have hexec := exec_seam (f := f) fun t ht => by
    have := (hgang t ht).2
    exact ⟨by omega, by omega⟩
  rw [hnone, pushSeams_eq hdistinct fun t ht => (hgang t ht).2] at hexec
  refine ⟨_, seamTag s, hexec, rfl, ?_, fun u hu v hv => seamTag_inj hu hv, fun u hu => seamTag_free hu fun v hv => (hgang v hv).1⟩
  unfold EachThread
  show List.Forall₂ _ s.threads ((s.threads.map fun a => if a.uid ∈ s.gang then pushed (seamEntry f s a) a else a).map
    fun a => if s.gang.contains a.uid then a.next else a)
  rw [List.map_map, List.forall₂_map_right_iff, List.forall₂_same]
  intro a _
  by_cases ha : a.uid ∈ s.gang
  · rw [if_pos ha, Function.comp_apply, if_pos ha]
    exact (if_pos (List.contains_iff_mem.mpr ha)).trans (next_pushed (seamEntry f s a) a)
  · rw [if_neg ha, Function.comp_apply, if_neg ha, if_neg (List.contains_iff_mem.not.mpr ha)]

/-! ### The entries above level 8 -/

/-- An entry as it stands in lane-own memory (R84). -/
def seamImage (e : Seam) : List Byte := natLe 4 e.pkt.toNat ++ natLe 2 e.depth ++ natLe 2 e.tag

theorem seamImage_length (e : Seam) : (seamImage e).length = 8 := by
  rw [seamImage, List.length_append, List.length_append, natLe_length, natLe_length, natLe_length]

/-- The groups after an entry has been pushed on a thread: the ninth starts its group's turns. -/
def turned (s : State) (u : Thread) : List Group :=
  if u.seams.length = 8 then s.groups.map fun g => if g.gid == s.gidOf u then { g with turn := some (g.turn.getD 0) } else g else s.groups

theorem pushSeam_eq (s : State) (u : Thread) (e : Seam) :
    s.pushSeam u e = { s with threads := s.threads.map fun a => if a.uid == u.uid then pushed e a else a, groups := turned s u } := by
  unfold State.pushSeam turned
  by_cases h : u.seams.length = 8
  · rw [if_pos h, if_pos (beq_iff_eq.mpr h)]
    rfl
  · rw [if_neg h, if_neg (by simpa using h)]
    rfl

/-- One thread's entry above level 8 goes to its place. -/
theorem seam_stores {f : FSeam} {s : State} {u : Thread} (hgang : s.gangThreads = [u]) (hdeep : 8 ≤ u.seams.length) (hlen : u.seams.length < 40)
    (hpriv : 256 ≤ recPriv (s.recordOf u.tid)) (hgood : ∀ i < 8, s.synAt (s.laneOwnLoc u (s.nextSeamOff u + i)) = 0)
    (hapart : LiesApart s u (s.nextSeamOff u) 8) : ∃ r, exec (.seam f) s = .next r.advance ∧
      LaneStored s (s.pushSeam u (seamEntry f s u)) r u (s.nextSeamOff u) (seamImage (seamEntry f s u)) := by
  have hstores : seamStores f s = s.laneOwnBytes u (s.nextSeamOff u) (seamImage (seamEntry f s u)) := by
    rw [seamStores, hgang, List.flatMap_singleton, State.seamBytes, if_neg (by omega)]
    rfl
  have hexec := exec_seam (f := f) (s := s) fun t ht => by
    obtain rfl : t = u := by simpa [hgang] using ht
    exact ⟨by omega, fun _ => hpriv⟩
  rw [hstores] at hexec
  refine ⟨_, hexec, ?_⟩
  rw [hgang]
  rw [← seamImage_length (seamEntry f s u)] at hgood hapart
  refine laneStored_foldl (m := s.pushSeam u (seamEntry f s u)) (space := 5) (ea := s.nextSeamOff) (fun i hi => ?_) hapart fun m _ g _ => rfl
  rw [pushSeam_eq]
  exact hgood i hi

theorem claims_seamOverflow : Claims.SeamOverflow := by
  intro f s u g hgang hgroup _ hdeep hlen o hpriv hgood hapart
  have ho : o = s.nextSeamOff u := by
    show _ = recPriv (s.recordOf u.tid) - 256 + 8 * (u.seams.length + 1 - 9)
    omega
  clear_value o
  subst ho
  obtain ⟨r, hexec, hstored⟩ := seam_stores (f := f) hgang hdeep hlen hpriv hgood hapart
  obtain ⟨mem, syn, gtag, hr⟩ := hstored.rest
  rw [pushSeam_eq] at hr
  have hgid : s.gidOf u = g.gid := by rw [State.gidOf, hgroup]
  have hgroups : r.advance.groups = turned s u := by rw [hr]; rfl
  refine ⟨r.advance, seamEntry f s u, hexec, ?_, rfl, rfl, fun h hh heq h8 => ?_, fun hne => ?_, ?_, fun l => ?_, fun l hl => ?_, ?_⟩
  · refine eachThread_mono (eachThread_alone (f := pushed (seamEntry f s u)) hgang (fun _ => rfl) (by rw [hr]; rfl)) ?_
    rintro a b ⟨rfl, rfl⟩
    exact next_pushed (seamEntry f s a) a
  · rw [hgroups, turned, if_pos h8, hgid] at hh
    obtain ⟨x, -, rfl⟩ := List.mem_map.mp hh
    by_cases hx : x.gid = g.gid
    · rw [if_pos (beq_iff_eq.mpr hx)]
      rfl
    · rw [if_neg (by simpa using hx)] at heq
      exact absurd heq hx
  · rw [hgroups, turned, if_neg hne]
  · have hlocs : r.advance.laneOwnLoc u = s.laneOwnLoc u := by rw [hr]; rfl
    have himage := hstored.laneOwn (q := r.advance) hlocs rfl (k := 0) (n := 8) (by rw [seamImage_length])
    rw [Nat.add_zero, List.drop_zero, List.take_of_length_le (seamImage_length _).le] at himage
    exact himage
  · have hsyn := hstored.syns l
    rw [pushSeam_eq] at hsyn
    exact hsyn
  · have haway := hstored.away l fun i hi => hl i (by rwa [seamImage_length] at hi)
    rw [pushSeam_eq] at haway
    exact haway
  · rw [hr]
    rfl

/-! ### YIELD -/

/-- A path has no share to claim. -/
def Calm (q : Path) : Prop := q.fair = 0 ∧ q.overdue = none

theorem barPath_rest (s : State) (n : Nat) : ∃ ps, s.barPath n = { s with paths := ps } := by
  unfold State.barPath
  split
  · exact ⟨s.paths, rfl⟩
  · exact ⟨_, rfl⟩

theorem barPath_paths {s : State} {n : Nat} {q : Path} (h : q ∈ (s.barPath n).paths) : q.id = n ∧ Calm q ∨ q.id ≠ n ∧ q ∈ s.paths := by
  unfold State.barPath at h
  split at h
  · next hnone => exact .inr ⟨fun hq => List.find?_eq_none.mp hnone q h (beq_iff_eq.mpr hq), h⟩
  · obtain ⟨p, hp, rfl⟩ := List.mem_map.mp h
    by_cases hn : p.id = n
    · rw [if_pos (beq_iff_eq.mpr hn)]
      exact .inl ⟨hn, rfl, rfl⟩
    · rw [if_neg (by simpa using hn)]
      exact .inr ⟨hn, hp⟩

theorem barPaths_rest (ns : List Nat) (s : State) : ∃ ps, ns.foldl State.barPath s = { s with paths := ps } := by
  induction ns generalizing s with
  | nil => exact ⟨s.paths, rfl⟩
  | cons n ns ih =>
    obtain ⟨ps, hps⟩ := barPath_rest s n
    obtain ⟨qs, hqs⟩ := ih (s.barPath n)
    exact ⟨qs, by rw [List.foldl_cons, hqs, hps]⟩

theorem barPaths_paths {ns : List Nat} {s : State} {q : Path} (h : q ∈ (ns.foldl State.barPath s).paths) :
    q.id ∈ ns ∧ Calm q ∨ q.id ∉ ns ∧ q ∈ s.paths := by
  induction ns generalizing s with
  | nil => exact .inr ⟨List.not_mem_nil, h⟩
  | cons n ns ih =>
    rcases ih h with ⟨hmem, hcalm⟩ | ⟨hnot, hq⟩
    · exact .inl ⟨List.mem_cons_of_mem n hmem, hcalm⟩
    · rcases barPath_paths hq with ⟨rfl, hcalm⟩ | ⟨hne, hq⟩
      · exact .inl ⟨List.mem_cons_self, hcalm⟩
      · exact .inr ⟨by simp [hne, hnot], hq⟩

/-- A barred path waits for its issuable siblings. -/
theorem barPath_bar {s : State} {p q : Path} (hp : (s.paths.find? fun q => q.id == p.id) = some p) (hq : q ∈ (s.barPath p.id).paths)
    (hid : q.id = p.id) : q.bar = (s.paths.filter fun r => s.siblings p r && s.issuable r).map fun r => r.id := by
  unfold State.barPath at hq
  rw [hp] at hq
  obtain ⟨x, -, rfl⟩ := List.mem_map.mp hq
  by_cases hx : x.id = p.id
  · rw [if_pos (beq_iff_eq.mpr hx)]
  · rw [if_neg (by simpa using hx)] at hid
    exact absurd hid hx

theorem exec_yield_none {f : FP} {s : State} (h : s.executing f.pred = []) : exec (.yield f) s = .next s.advance := by
  show execYield f s = _
  rw [execYield, h]

theorem exec_yield {f : FP} {s : State} {u : Thread} {r : List Thread} (h : s.executing f.pred = u :: r) : exec (.yield f) s =
    .next ((s.gangPaths.foldl State.barPath s).addLt (s.coreOf u.tid) (s.lease (s.ctxOf u.tid))).advance := by
  obtain ⟨ps, hps⟩ := barPaths_rest s.gangPaths s
  show execYield f s = _
  rw [execYield, h]
  dsimp only
  rw [hps]
  rfl

theorem claims_yieldBars : Claims.YieldBars := by
  intro f s
  refine ⟨fun hnone => movesThreads_of_exec (exec_yield_none hnone), fun u r hexec => ⟨_, exec_yield hexec, ?_⟩⟩
  obtain ⟨m, hm⟩ : ∃ m, m = s.gangPaths.foldl State.barPath s := ⟨_, rfl⟩
  obtain ⟨ps, hps⟩ := barPaths_rest s.gangPaths s
  rw [← hm] at hps ⊢
  refine ⟨?_, ?_, fun c => ?_, fun q hq hgang => ?_, fun p hgang hp q hq hid => ?_⟩
  · rw [hps]
    exact (advance_pass _).2
  · rw [hps]
    rfl
  · rw [hps]
    show SMap.get 0 (SMap.put 0 (s.coreOf u.tid) (s.lt (s.coreOf u.tid) + s.lease (s.ctxOf u.tid)) s.lts) c = _
    rw [get_put]
    by_cases hc : c = s.coreOf u.tid
    · rw [if_pos hc.symm, if_pos hc, hc]
    · rw [if_neg (Ne.symm hc), if_neg hc]
      rfl
  · have hq : q ∈ (s.gangPaths.foldl State.barPath s).paths := hm ▸ hq
    rcases barPaths_paths hq with ⟨-, hcalm⟩ | ⟨hnot, -⟩
    · exact hcalm
    · exact absurd hgang hnot
  · have hq : q ∈ (s.gangPaths.foldl State.barPath s).paths := hm ▸ hq
    rw [hgang] at hq
    exact barPath_bar hp hq hid

/-- Settles O21: the tags are free and as many as the depths, an entry above level 8 is one store of the thread's own bytes, and a path that yields
is barred once. -/
theorem seams : Obligations.Seams := by
  unfold Obligations.Seams
  exact ⟨claims_seamPush, claims_seamOverflow, claims_seamOverflowTraps, claims_yieldBars⟩

end Sys2Proof.Proofs
end



-- ==== Sys2Proof/Proofs/Scheduling.lean ====
section
/-! Fairness, the watchdog, urgency and swaps (R87, R88, R220, R222, R224, R226, R244). -/

namespace Sys2Proof.Proofs

open Sys2Proof.Machine Sys2Proof.Says Sys2Proof.Laws

/-! ### Fairness -/

theorem exec_gangDemotion (n : Nat) (s : State) : exec (.gangDemotion n) s = .next (s.barPath n) := rfl

/-- The path that has held its entry longest parks, and the parked one takes its place. -/
theorem exec_parkedPathTakeover {s : State} {n : Nat} {p q : Machine.Path} (hp : s.paths.find? (fun p => p.id == n && p.parked.isSome) = some p)
    (hq : minBy Path.granted (s.paths.filter fun q => q.parked.isNone && s.siblings p q && s.pathKey q == s.pathKey p) = some q) :
    exec (.parkedPathTakeover n) s = .next ((s.modPath q.id fun r => { r with parked := some s.tick }).modPath n
      fun r => { r with parked := none, granted := s.tick }) := by
  show execParkedPathTakeover n s = _
  rw [execParkedPathTakeover, hp]
  dsimp only
  rw [hq]
  rfl

/-- The least of a list by a key that all others exceed. -/
theorem minBy_eq {α : Type} {key : α → Nat} {xs : List α} {x : α} (hx : x ∈ xs) (h : ∀ y ∈ xs, y ≠ x → key x < key y) :
    minBy key xs = some x := by
  obtain ⟨y, ys, rfl⟩ := List.exists_cons_of_ne_nil (List.ne_nil_of_mem hx)
  obtain ⟨z, hz⟩ := minBy_isSome key y ys
  obtain ⟨hmem, hle⟩ := minBy_mem hz
  by_cases hzx : z = x
  · rw [hz, hzx]
  · have := h z hmem hzx
    have := hle x hx
    omega

theorem claims_fairnessSteps : Claims.FairnessSteps := by
  intro s n
  refine ⟨⟨_, rfl, ?_⟩, fun p hp => ⟨_, exec_gangDemotion n s, ?_⟩, fun p q hp hq hopen hsib hkey hids hlongest => ?_⟩
  · refine congrArg (fun ps : List Machine.Path => { s with paths := ps }) (List.map_congr_left fun p _ => ?_)
    by_cases hn : p.id = n
    · cases ho : p.overdue <;> simp [hn, ho]
    · simp [hn]
  · unfold State.barPath
    rw [hp]
    refine congrArg (fun ps : List Machine.Path => { s with paths := ps }) (List.map_congr_left fun q _ => ?_)
    by_cases hn : q.id = n <;> simp [hn]
  · have hpn : p.id = n := by
      have hkeyed := List.find?_some hp
      exact eq_of_beq (Bool.and_eq_true_iff.mp hkeyed).1
    have hqn : q.id ≠ n := by
      rintro rfl
      simp [State.siblings, hpn] at hsib
    have hmin : minBy Path.granted (s.paths.filter fun q => q.parked.isNone && s.siblings p q && s.pathKey q == s.pathKey p) = some q := by
      refine minBy_eq (List.mem_filter.mpr ⟨hq, by simp [hopen, hsib, hkey]⟩) fun r hr hne => ?_
      obtain ⟨hmem, hr⟩ := List.mem_filter.mp hr
      simp only [Bool.and_eq_true, Option.isNone_iff_eq_none, beq_iff_eq] at hr
      obtain ⟨⟨hropen, hrsib⟩, hrkey⟩ := hr
      exact hlongest r hmem hropen hrsib hrkey fun h => hne (List.inj_on_of_nodup_map hids hmem hq h)
    refine ⟨_, exec_parkedPathTakeover hp hmin, ?_⟩
    unfold State.modPath
    refine congrArg (fun ps : List Machine.Path => { s with paths := ps }) ?_
    rw [List.map_map]
    refine List.map_congr_left fun r _ => ?_
    by_cases hr : r.id = q.id
    · simp [hr, hqn]
    · by_cases hrn : r.id = n
      · simp [hrn, Ne.symm hqn]
      · simp [hr, hrn]

/-! ### The watchdog -/

theorem exec_noProgress_watch {s : State} {gid : Nat} {g : Group} (hgang : s.gang = []) (hg : s.group gid = some g) :
    exec (.noProgress gid) s = .next (s.modThreads (uids (s.live g)) fun t => { t with wdDue := true }) := by
  show execNoProgress gid s = _
  rw [execNoProgress, hgang, hg]
  rfl

theorem exec_noProgress_trap {s : State} (gid : Nat) (hgang : s.gang ≠ []) : exec (.noProgress gid) s =
    .next ((s.takeTrap (TrapReq.of 0x30)).modThreads s.gang fun t => { t with wdDue := false }) := by
  have hne : s.gang.isEmpty = false := by simpa using hgang
  show execNoProgress gid s = _
  rw [execNoProgress, hne]
  rfl

/-- A thread is among the live ones of a group by its number. -/
theorem mem_uids_live {s : State} (h : Distinct s) (g : Group) {a : Thread} (ha : a ∈ s.threads) :
    a.uid ∈ uids (s.live g) ↔ a.tid = g.tid ∧ a.slot = g.slot ∧ a.state ≠ .exited := by
  have hlive (b : Thread) : b ∈ s.live g ↔ b ∈ s.threads ∧ b.tid = g.tid ∧ b.slot = g.slot ∧ b.state ≠ .exited := by
    simp [State.live, State.members]
    tauto
  constructor
  · intro hmem
    obtain ⟨b, hb, hba⟩ := List.mem_map.mp hmem
    obtain ⟨hb, hplace⟩ := (hlive b).mp hb
    obtain rfl := List.inj_on_of_nodup_map h hb ha hba
    exact hplace
  · exact fun hplace => List.mem_map.mpr ⟨a, (hlive a).mpr ⟨ha, hplace⟩, rfl⟩

/-- What a `NO-PROGRESS` trap leaves of its gang: in trap mode, no longer marked. -/
theorem tookTrap_unmarked {s t : State} {q : TrapReq} {mask : Word} {after : Bool} (h : TookTrap s t q mask after) :
    TookTrap s (t.modThreads s.gang fun t => { t with wdDue := false }) q mask after := by
  obtain ⟨hrest, hgroups, hthreads⟩ := h
  refine ⟨?_, hgroups, ?_⟩
  · rw [hrest]
    rfl
  · unfold EachThread at hthreads ⊢
    show List.Forall₂ _ s.threads (t.threads.map _)
    rw [List.forall₂_map_right_iff]
    refine List.Forall₂.imp (fun a b hab => ?_) hthreads
    by_cases ha : a.uid ∈ s.gang
    · rw [if_pos ha] at hab ⊢
      have hb : b.uid = a.uid := by rw [hab.rest]
      rw [if_pos (by rw [hb]; exact List.contains_iff_mem.mpr ha)]
      have hrest : ({ b with wdDue := false } : Thread) = _ := congrArg (fun b : Thread => { b with wdDue := false }) hab.rest
      exact ⟨hrest, fun hdue => (by cases hdue), hab.tpc, hab.word, hab.cause, hab.inside, hab.kind, hab.addr, hab.source, hab.tag, hab.mask,
        hab.place, hab.tgang, hab.seamd, hab.tseam, hab.depths, hab.tpred, hab.tfstat, hab.origin, hab.group, hab.tv⟩
    · rw [if_neg ha] at hab ⊢
      subst hab
      rw [if_neg (List.contains_iff_mem.not.mpr ha)]

/-- The trap of the watchdog starts the counts of the gang's groups again. -/
theorem takeTrap_noProgress_wd {s : State} (hout : OutsideTrap s) : ∀ g ∈ (s.takeTrap (TrapReq.of 0x30)).groups,
    g.gid ∈ s.gids s.gangThreads → g.wd = 0 := by
  obtain ⟨hne, huser⟩ := hout
  obtain ⟨u, r, hgang⟩ := List.exists_cons_of_ne_nil hne
  rw [takeTrap_user s _ u r hgang (huser u (by rw [hgang]; exact List.mem_cons_self))]
  intro g hg hgid
  obtain ⟨x, -, rfl⟩ := List.mem_map.mp hg
  by_cases hx : (s.gids s.gangThreads).contains x.gid = true
  · rw [if_pos hx]
    rfl
  · rw [if_neg hx] at hgid
    exact absurd (List.contains_iff_mem.mpr hgid) hx

theorem claims_noProgress : Claims.NoProgress := by
  intro s gid
  refine ⟨fun g hgang hg hdistinct => ⟨_, exec_noProgress_watch hgang hg, ?_⟩, fun hout => ?_⟩
  · refine congrArg (fun ts : List Thread => { s with threads := ts }) (List.map_congr_left fun a ha => ?_)
    by_cases hmem : a.uid ∈ uids (s.live g)
    · rw [if_pos (List.contains_iff_mem.mpr hmem), if_pos ((mem_uids_live hdistinct g ha).mp hmem)]
    · rw [if_neg (List.contains_iff_mem.not.mpr hmem), if_neg ((mem_uids_live hdistinct g ha).not.mp hmem)]
  · have hgang : s.gang ≠ [] := by
      obtain ⟨u, hu⟩ := List.exists_mem_of_ne_nil _ hout.1
      exact List.ne_nil_of_mem (mem_gangThreads.mp hu).2
    have hexec := exec_noProgress_trap gid hgang
    refine ⟨⟨_, hexec, tookTrap_unmarked (tookTrap_takeTrap hout (TrapReq.of 0x30) none)⟩, fun t ht => ?_⟩
    obtain rfl := Host.Outcome.next.inj (hexec.symm.trans ht)
    refine ⟨fun b hb hbg => ?_, takeTrap_noProgress_wd hout⟩
    obtain ⟨x, -, rfl⟩ := List.mem_map.mp hb
    by_cases hx : s.gang.contains x.uid = true
    · rw [if_pos hx]
    · rw [if_neg hx] at hbg
      exact absurd (List.contains_iff_mem.mpr hbg) hx

/-! ### Urgency -/

/-- A thread of the team waits at `TBAR`. -/
def teamBarOpen (s : State) (team : Nat) : Bool := (s.teamThreads team).any fun t => t.state == .waiting && t.wait == .tbar

/-- The groups from which the laggard is chosen: while the team's barrier is open, those that it still waits for. -/
def candidates (s : State) (team : Nat) : List Group :=
  let gs := s.groups.filter fun g => g.tid == team
  if teamBarOpen s team then gs.filter fun g => (s.live g).any fun t => !s.arrived .tbar t else gs

theorem teamBarOpen_iff {s : State} {team : Nat} :
    teamBarOpen s team = true ↔ ∃ v ∈ s.threads, v.tid = team ∧ v.state = .waiting ∧ v.wait = .tbar := by
  simp [teamBarOpen, State.teamThreads]

theorem mem_candidates {s : State} {team : Nat} {g : Group} : g ∈ candidates s team ↔ g ∈ s.groups ∧ g.tid = team ∧
    ((∃ v ∈ s.threads, v.tid = team ∧ v.state = .waiting ∧ v.wait = .tbar) →
      ∃ v ∈ s.members g, v.state ≠ .exited ∧ s.arrived .tbar v = false) := by
  rw [← teamBarOpen_iff, candidates]
  by_cases hopen : teamBarOpen s team = true
  · simp [hopen, State.live]
    tauto
  · simp [hopen]

theorem exec_urgencyEvaluation (s : State) (team : Nat) : exec (.urgencyEvaluation team) s =
    .next (s.modTeam team fun x => { x with
      laggard := (minBy (fun g : Group => s.retiredWords g * 32 + g.slot) (candidates s team)).map Group.slot }) := rfl

/-- Where slot numbers are below 32, the words count first and the slot second. -/
theorem words_slot_le {w v a b : Nat} (ha : a < 32) (hb : b < 32) (h : w * 32 + a ≤ v * 32 + b) : w < v ∨ w = v ∧ a ≤ b := by
  omega

theorem claims_urgency : Claims.Urgency := by
  intro s team
  refine ⟨_, exec_urgencyEvaluation s team, rfl, ?_⟩
  show List.Forall₂ _ s.teams (s.teams.map _)
  rw [List.forall₂_map_right_iff, List.forall₂_same]
  intro x _
  by_cases hx : x.tid = team
  · rw [if_pos (beq_iff_eq.mpr hx)]
    refine ⟨rfl, fun h => absurd hx h, fun _ g hg hslots => ?_⟩
    have hg := mem_candidates.mpr hg
    obtain ⟨y, ys, hys⟩ := List.exists_cons_of_ne_nil (List.ne_nil_of_mem hg)
    obtain ⟨h, hh⟩ := minBy_isSome (fun g : Group => s.retiredWords g * 32 + g.slot) y ys
    rw [← hys] at hh
    obtain ⟨hmem, hle⟩ := minBy_mem hh
    have hcand := mem_candidates.mp hmem
    exact ⟨h, hcand, by rw [hh]; rfl, words_slot_le (hslots h hcand.1) (hslots g (mem_candidates.mp hg).1) (hle g hg)⟩
  · rw [if_neg (by simpa using hx)]
    exact ⟨rfl, fun _ => rfl, fun h => absurd h hx⟩

/-! ### Swaps -/

/-- The entry of one path is given up for some threads of a group: with the path itself where no other thread stands on it, else on a path of
their own. -/
def freeEntry (mine : List Thread) (s : State) (pid : Nat) : State :=
  match s.paths.find? fun p => p.id == pid with
  | none => s
  | some p =>
    let ours := uids (mine.filter fun t => t.path == pid)
    if (s.threads.filter fun t => t.path == pid && t.stands).all fun t => ours.contains t.uid then
      s.modPath pid fun p => { p with parked := some s.tick }
    else
      let q := { p with id := s.nextId, parked := some s.tick, fair := 0, overdue := none }
      { s.modThreads ours fun t => { t with path := q.id } with paths := s.paths ++ [q], nextId := s.nextId + 1 }

theorem freeEntries_eq (s : State) (g : Group) : s.freeEntries g =
    (dedup (((s.members g).filter Thread.stands).map Thread.path)).foldl (freeEntry ((s.members g).filter Thread.stands)) s := rfl

/-- Thread `a` stands, as path `n`, where it has given its entry up. -/
def Parked (tick : Nat) (ps : List Machine.Path) (a : Thread) (n : Nat) : Prop :=
  ∃ p ∈ ps, p.id = n ∧ p.parked = some tick ∧ (p.id = a.path ∨ p.fair = 0 ∧ p.overdue = none)

/-- The threads `mine` of `s` have given up their entries on the paths `done`: `place` tells on which path each thread of `s` stands in `t`. -/
structure Freed (s : State) (mine : List Thread) (done : List Nat) (place : Thread → Nat) (t : State) : Prop where
  rest   : ∃ ps n, t = { s with threads := s.threads.map fun a => { a with path := place a }, paths := ps, nextId := n }
  kept   : ∀ p ∈ s.paths, ∃ q ∈ t.paths, q.id = p.id
  parked : ∀ a ∈ mine, a.path ∈ done → (∃ p ∈ s.paths, p.id = a.path) → Parked s.tick t.paths a (place a)
  still  : ∀ a ∈ mine, a.path ∉ done → place a = a.path

theorem freed_nil (s : State) (mine : List Thread) : Freed s mine [] Thread.path s where
  rest := ⟨s.paths, s.nextId, by simp⟩
  kept p hp := ⟨p, hp, rfl⟩
  parked a _ h := by cases h
  still _ _ _ := rfl

/-- A path that parks again, or paths that are added, leave a thread where it stands. -/
theorem Parked.mono {tick n : Nat} {ps qs : List Machine.Path} {a : Thread} (h : Parked tick ps a n)
    (hqs : ∀ p ∈ ps, p ∈ qs ∨ { p with parked := some tick } ∈ qs) : Parked tick qs a n := by
  obtain ⟨p, hp, hid, hparked, hcalm⟩ := h
  rcases hqs p hp with hq | hq
  · exact ⟨p, hq, hid, hparked, hcalm⟩
  · exact ⟨_, hq, hid, rfl, hcalm⟩

/-- No path of `s` has a number that none of `t` has. -/
theorem Freed.unknown {s t : State} {mine : List Thread} {done : List Nat} {place : Thread → Nat} (h : Freed s mine done place t) {pid : Nat}
    (hnone : (t.paths.find? fun p => p.id == pid) = none) : ¬ ∃ p ∈ s.paths, p.id = pid := by
  rintro ⟨p, hp, hpid⟩
  obtain ⟨q, hq, hqp⟩ := h.kept p hp
  exact List.find?_eq_none.mp hnone q hq (beq_iff_eq.mpr (hqp.trans hpid))

theorem mem_paths_modPath_same {t : State} {pid : Nat} {f : Machine.Path → Machine.Path} {p : Machine.Path} (hp : p ∈ t.paths) (hpid : p.id = pid) :
    f p ∈ (t.modPath pid f).paths :=
  List.mem_map.mpr ⟨p, hp, by rw [if_pos (beq_iff_eq.mpr hpid)]⟩

theorem mem_paths_modPath_other {t : State} {pid : Nat} {f : Machine.Path → Machine.Path} {p : Machine.Path} (hp : p ∈ t.paths) (hpid : p.id ≠ pid) :
    p ∈ (t.modPath pid f).paths :=
  List.mem_map.mpr ⟨p, hp, by rw [if_neg (by simpa using hpid)]⟩

/-- The threads of one path give up their entry with the path itself. -/
theorem Freed.parkPath {s t : State} {mine : List Thread} {done : List Nat} {place : Thread → Nat} (h : Freed s mine done place t) {pid : Nat}
    {p : Machine.Path} (hp : (t.paths.find? fun p => p.id == pid) = some p) :
    Freed s mine (pid :: done) place (t.modPath pid fun p => { p with parked := some t.tick }) := by
  obtain ⟨ps, n, ht⟩ := h.rest
  have htick : t.tick = s.tick := by rw [ht]
  have hmem (q : Machine.Path) (hq : q ∈ t.paths) : q ∈ (t.modPath pid fun p => { p with parked := some t.tick }).paths ∨
      { q with parked := some s.tick } ∈ (t.modPath pid fun p => { p with parked := some t.tick }).paths := by
    by_cases hqp : q.id = pid
    · exact .inr (htick ▸ mem_paths_modPath_same hq hqp)
    · exact .inl (mem_paths_modPath_other hq hqp)
  refine ⟨⟨_, n, by rw [ht]; rfl⟩, fun q hq => ?_, fun a ha hdone hpath => ?_, fun a ha hnot => h.still a ha fun hd => hnot (List.mem_cons_of_mem _ hd)⟩
  · obtain ⟨r, hr, hrq⟩ := h.kept q hq
    rcases hmem r hr with hr | hr
    · exact ⟨r, hr, hrq⟩
    · exact ⟨_, hr, hrq⟩
  · by_cases hold : a.path ∈ done
    · exact (h.parked a ha hold hpath).mono hmem
    · have hpid : a.path = pid := by simpa [hold] using hdone
      have hpp : p.id = pid := by
        have hfound := List.find?_some hp
        exact eq_of_beq hfound
      exact ⟨_, mem_paths_modPath_same (List.mem_of_find?_eq_some hp) hpp, hpp.trans (hpid.symm.trans (h.still a ha hold).symm), congrArg some htick, .inl (hpp.trans hpid.symm)⟩

/-- The threads of one path give up their entry on a new path. -/
theorem Freed.splitPath {s t : State} {mine : List Thread} {done : List Nat} {place : Thread → Nat} (h : Freed s mine done place t) {pid : Nat}
    (hmine : ∀ a ∈ mine, ∀ b ∈ mine, a.uid = b.uid → a = b) {q : Machine.Path} (hid : q.id = t.nextId) (hparked : q.parked = some s.tick)
    (hcalm : q.fair = 0 ∧ q.overdue = none) :
    Freed s mine (pid :: done) (fun a => if (uids (mine.filter fun t => t.path == pid)).contains a.uid then t.nextId else place a)
      { t.modThreads (uids (mine.filter fun t => t.path == pid)) fun a => { a with path := q.id } with
        paths := t.paths ++ [q], nextId := t.nextId + 1 } := by
  obtain ⟨ps, n, ht⟩ := h.rest
  have hours (a : Thread) (ha : a ∈ mine) : (uids (mine.filter fun t => t.path == pid)).contains a.uid = true ↔ a.path = pid := by
    rw [List.contains_iff_mem, uids, List.mem_map]
    constructor
    · rintro ⟨b, hb, hba⟩
      obtain ⟨hb, hpath⟩ := List.mem_filter.mp hb
      obtain rfl := hmine b hb a ha hba
      exact eq_of_beq hpath
    · exact fun hpath => ⟨a, List.mem_filter.mpr ⟨ha, beq_iff_eq.mpr hpath⟩, rfl⟩
  refine ⟨⟨t.paths ++ [q], t.nextId + 1, ?_⟩, fun p hp => ?_, fun a ha hdone hpath => ?_, fun a ha hnot => ?_⟩
  · have hthreads : t.threads.map (fun a => if (uids (mine.filter fun t => t.path == pid)).contains a.uid then { a with path := q.id } else a) =
        s.threads.map fun a => { a with
          path := if (uids (mine.filter fun t => t.path == pid)).contains a.uid then t.nextId else place a } := by
      have hold : t.threads = s.threads.map fun a => { a with path := place a } := by rw [ht]
      rw [hold, List.map_map, hid]
      refine List.map_congr_left fun a _ => ?_
      dsimp only [Function.comp_apply]
      split <;> rfl
    unfold State.modThreads
    rw [hthreads]
    rw [ht]
  · obtain ⟨r, hr, hrp⟩ := h.kept p hp
    exact ⟨r, List.mem_append_left _ hr, hrp⟩
  · by_cases hpid : a.path = pid
    · rw [if_pos ((hours a ha).mpr hpid)]
      exact ⟨q, List.mem_append_right _ (List.mem_singleton_self q), hid, hparked, .inr hcalm⟩
    · rw [if_neg ((hours a ha).not.mpr hpid)]
      exact (h.parked a ha (by simpa [hpid] using hdone) hpath).mono fun p hp => .inl (List.mem_append_left _ hp)
  · obtain ⟨hpid, hold⟩ := not_or.mp (List.mem_cons.not.mp hnot)
    rw [if_neg ((hours a ha).not.mpr hpid)]
    exact h.still a ha hold

/-- One path's entry is given up. -/
theorem Freed.freeEntry {s t : State} {mine : List Thread} {done : List Nat} {place : Thread → Nat} (h : Freed s mine done place t) {pid : Nat}
    (hmine : ∀ a ∈ mine, ∀ b ∈ mine, a.uid = b.uid → a = b) :
    ∃ place', Freed s mine (pid :: done) place' (freeEntry mine t pid) := by
  have htick : t.tick = s.tick := by
    obtain ⟨ps, n, ht⟩ := h.rest
    rw [ht]
  unfold Proofs.freeEntry
  split
  · next hnone =>
    refine ⟨place, h.rest, h.kept, fun a ha hdone hpath => ?_, fun a ha hnot => h.still a ha fun hd => hnot (List.mem_cons_of_mem _ hd)⟩
    rcases List.mem_cons.mp hdone with hpid | hold
    · exact absurd (hpid ▸ hpath) (h.unknown hnone)
    · exact h.parked a ha hold hpath
  · next p hp =>
    dsimp only
    split
    · exact ⟨place, h.parkPath hp⟩
    · exact ⟨_, h.splitPath (q := { p with id := t.nextId, parked := some t.tick, fair := 0, overdue := none }) hmine rfl (congrArg some htick) ⟨rfl, rfl⟩⟩

theorem freed_foldl {s : State} {mine : List Thread} (hmine : ∀ a ∈ mine, ∀ b ∈ mine, a.uid = b.uid → a = b) (pids : List Nat) {done : List Nat}
    {place : Thread → Nat} {t : State} (h : Freed s mine done place t) :
    ∃ done' place', Freed s mine done' place' (pids.foldl (freeEntry mine) t) ∧ ∀ n, n ∈ done' ↔ n ∈ pids ∨ n ∈ done := by
  induction pids generalizing done place t with
  | nil => exact ⟨done, place, h, fun n => by simp⟩
  | cons pid pids ih =>
    obtain ⟨place', h'⟩ := h.freeEntry hmine
    obtain ⟨done', place'', hfreed, hdone⟩ := ih h'
    exact ⟨done', place'', hfreed, fun n => by rw [hdone, List.mem_cons, List.mem_cons]; tauto⟩

/-- A group leaves the active set: each of its threads that stands is left on a parked path. -/
theorem freeEntries_freed {s : State} (h : Distinct s) (g : Group) : ∃ (place : Thread → Nat) (ps : List Machine.Path) (n : Nat),
    s.freeEntries g = { s with threads := s.threads.map fun a => { a with path := place a }, paths := ps, nextId := n } ∧
    ∀ a ∈ s.threads, a.tid = g.tid → a.slot = g.slot → a.stands = true → (∃ p ∈ s.paths, p.id = a.path) → Parked s.tick ps a (place a) := by
  obtain ⟨mine, hm⟩ : ∃ mine, mine = (s.members g).filter Thread.stands := ⟨_, rfl⟩
  have hmem (a : Thread) : a ∈ mine ↔ a ∈ s.threads ∧ a.tid = g.tid ∧ a.slot = g.slot ∧ a.stands = true := by
    rw [hm]
    simp [State.members]
    tauto
  have hmine (a : Thread) (ha : a ∈ mine) (b : Thread) (hb : b ∈ mine) (hab : a.uid = b.uid) : a = b :=
    List.inj_on_of_nodup_map h ((hmem a).mp ha).1 ((hmem b).mp hb).1 hab
  obtain ⟨done, place, hfreed, hdone⟩ := freed_foldl hmine (dedup (mine.map Thread.path)) (freed_nil s mine)
  obtain ⟨ps, n, hrest⟩ := hfreed.rest
  rw [freeEntries_eq, ← hm]
  refine ⟨place, ps, n, hrest, fun a ha htid hslot hstands hpath => ?_⟩
  have ha := (hmem a).mpr ⟨ha, htid, hslot, hstands⟩
  have hparked := hfreed.parked a ha ((hdone a.path).mpr (.inl (mem_dedup.mpr (List.mem_map.mpr ⟨a, ha, rfl⟩)))) hpath
  rwa [hrest] at hparked

theorem swap_eq {s : State} {gout gin : Nat} {o i : Group} (ho : s.group gout = some o) (hi : s.group gin = some i) (hactive : o.place = .active)
    (hpending : i.place = .pending) (hfree : i.swapAt = none) : s.swap gout gin =
      ((s.modGroup gout fun g => { g with place := .pending, entered := s.tick, swapAt := none }).freeEntries o).modGroup gin
        fun g => { g with swapAt := some (((s.modGroup gout fun g => { g with place := .pending, entered := s.tick, swapAt := none }).freeEntries o).tick + 4) } := by
  rw [State.swap, ho, hi]
  dsimp only
  rw [hactive, hpending, hfree]
  rfl

/-- A swap of an active group with a pending one. -/
theorem swap_exchanges {s : State} {gout gin : Nat} {o i : Group} (ho : s.group gout = some o) (hi : s.group gin = some i) (hne : gout ≠ gin)
    (hactive : o.place = .active) (hpending : i.place = .pending) (hfree : i.swapAt = none) (hdistinct : Distinct s) :
    ∃ (place : Thread → Nat) (ps : List Machine.Path) (n : Nat), s.swap gout gin = { s with
        groups := s.groups.map fun g => if g.gid = gout then { g with place := .pending, entered := s.tick, swapAt := none }
          else if g.gid = gin then { g with swapAt := some (s.tick + 4) } else g
        threads := s.threads.map fun a => { a with path := place a }, paths := ps, nextId := n } ∧
      ∀ a ∈ s.threads, a.tid = o.tid → a.slot = o.slot → a.stands = true → (∃ p ∈ s.paths, p.id = a.path) → Parked s.tick ps a (place a) := by
  obtain ⟨place, ps, n, hfreed, hparked⟩ :=
    freeEntries_freed (s := s.modGroup gout fun g => { g with place := .pending, entered := s.tick, swapAt := none }) hdistinct o
  refine ⟨place, ps, n, ?_, hparked⟩
  rw [swap_eq ho hi hactive hpending hfree, hfreed]
  unfold State.modGroup
  dsimp only
  rw [List.map_map]
  congr 1
  refine List.map_congr_left fun g _ => ?_
  by_cases hout : g.gid = gout
  · simp [hout, hne]
  · by_cases hin : g.gid = gin <;> simp [hout, hin, Ne.symm hne]

theorem claims_swaps : Claims.Swaps := by
  intro s gout gin
  refine ⟨fun o i ho hi hne hactive hpending hfree hdistinct _ w hw => ?_, ⟨_, rfl, ?_⟩, ⟨_, rfl, ?_⟩⟩
  · obtain ⟨place, ps, n, hswap, hparked⟩ := swap_exchanges ho hi hne hactive hpending hfree hdistinct
    have hexec : exec w s = .next (s.swap gout gin) := by
      rcases List.mem_pair.mp hw with rfl | rfl <;> rfl
    refine ⟨_, hexec, ?_⟩
    rw [hswap]
    refine ⟨rfl, ?_, ?_⟩
    · rw [List.forall₂_map_right_iff, List.forall₂_same]
      exact fun g _ => rfl
    · rw [List.forall₂_map_right_iff, List.forall₂_same]
      exact fun a ha => ⟨rfl, fun htid hslot hstands hpath => hparked a ha htid hslot hstands hpath⟩
  · refine congrArg (fun gs : List Group => { s with groups := gs }) (List.map_congr_left fun g _ => ?_)
    by_cases hgid : g.gid = gin
    · cases hp : g.place <;> cases ha : g.swapAt <;> simp [hgid, hp, ha]
    · simp [hgid]
  · refine congrArg (fun gs : List Group => { s with groups := gs }) (List.map_congr_left fun g _ => ?_)
    by_cases hgid : g.gid = gin
    · cases hp : g.place <;> cases ha : g.swapAt <;> simp [hgid, hp, ha]
    · simp [hgid]

/-- Settles O45: a swap is followed path by path, the other steps each change one list of the state. -/
theorem scheduling : Obligations.Scheduling := by
  unfold Obligations.Scheduling
  exact ⟨claims_fairnessSteps, claims_noProgress, claims_urgency, claims_swaps⟩

end Sys2Proof.Proofs
end



-- ==== Sys2Proof/Proofs/StampPlaces.lean ====
section
/-! A launch whose queue number is none of the 1024, against which `Obligations.Dispatch` fails. -/

namespace Sys2Proof.Proofs

open Sys2Proof.Machine Sys2Proof.Says

/-- A launch number in a queue beyond the 1024 and the firmware's: its block would lie behind the queue pages. -/
def strayQueue : Nat := 1025

/-- A stamp address whose page is the frame of the queue pages, at the place where the block of `strayQueue` would lie. -/
def strayStamp : Nat := 32 * strayQueue

/-- A launch whose teams are over, number 0 of its queue. -/
def strayLaunch : Launch :=
  { Launch.fresh 1 0 strayQueue 0 0 0 with state := .draining, record := BitVec.ofNat 1024 strayStamp <<< 896 }

/-- The first page of context 0, which is the frame of the queue pages, as the translations of die 0 hold it. -/
def strayPage : TlbEnt :=
  { level := 1, unit := 0, ctx := 0, va := 0, size := 65536, depth := 3, entry := BitVec.ofNat 64 (State.reset.queuePages + 0x10D) }

/-- The package after reset, with one running context whose first page is the frame of the queue pages, and that launch. -/
def strayStamping : State :=
  { State.reset with
    tick := 1
    ctxs := [{ Ctx.fresh 0 with state := .running, part := BitVec.allOnes 256 }]
    tlb := [strayPage]
    launches := [strayLaunch] }

/-- The location of the stamp: where the queue's block would lie. -/
def strayPlace : Nat := strayStamping.queuePages + strayStamp

/-- The state that an outcome gives; where it gives none, `s`. -/
def stateAfter (s : State) : Out → State
  | .next t => t
  | _ => s

/-- The package when the stamp has been written. -/
def strayStamped : State := stateAfter strayStamping (exec (.launchStampWrite strayLaunch.lid) strayStamping)

/-- A page that the translations of its die hold is found without a walk. -/
theorem translate_of_cached {s : State} {c die va : Nat} {write : Bool} {x : TlbEnt} (hva : va < 2 ^ 52)
    (hx : s.cached 1 die c va none = some x) : s.translate c none die va write = (s, s.leaf c x.depth x.entry va write) := by
  rw [State.translate, if_neg (Nat.not_le.mpr hva)]
  simp only [Option.bind_none, hx]

theorem translate_strayStamp : strayStamping.translate 0 none 0 strayStamp true =
    (strayStamping, .ok strayPlace strayPage.entry strayPage.depth) := by
  have hcached : strayStamping.cached 1 0 0 strayStamp none = some strayPage := by decide +kernel
  have hleaf : strayStamping.leaf 0 strayPage.depth strayPage.entry strayStamp true = .ok strayPlace strayPage.entry strayPage.depth := by
    decide +kernel
  rw [translate_of_cached (by decide) hcached, hleaf]

/-- What `Claims.StampWrites` asks of the launch and of the place of its stamp. -/
theorem strayStamping_meets_stampWrites : strayStamping.launches = [strayLaunch] ∧ strayStamping.stampDue strayLaunch = true ∧
    recStampa strayLaunch.record = strayStamp ∧ isRemote strayPlace = false ∧ strayPlace % 8 = 0 ∧ strayStamping.home = [] ∧
    strayStamping.synAt strayPlace = 0 := by
  decide +kernel

/-- The stamp's place lies behind the blocks of the 1024 queues. -/
theorem strayPlace_outside : OutsideQueues strayStamping strayPlace 8 :=
  .inr (Nat.add_le_add_left (by decide : 32768 ≤ strayStamp) _)

/-- The tick is 1; where the stamp went stand the first bytes of the queue's block, which hold 0. -/
theorem strayStamped_bytes : strayStamped.bytes strayPlace 8 ≠ natLe 8 (strayStamping.tick % 2 ^ 63) := by
  decide +kernel

theorem not_claims_stampWrites : ¬ Claims.StampWrites := by
  intro h
  obtain ⟨hlaunches, hdue, hva, hlocal, haligned, hhome, hsyn⟩ := strayStamping_meets_stampWrites
  have hlaunch : strayStamping.launch strayLaunch.lid = some strayLaunch := by
    rw [State.launch, hlaunches]
    rfl
  have honly (x : Launch) (hx : x ∈ strayStamping.launches) (_ : x.lid = strayLaunch.lid) : x = strayLaunch := by
    rw [hlaunches] at hx
    exact List.mem_singleton.mp hx
  obtain ⟨-, hwritten⟩ := h strayStamping strayLaunch hlaunch honly hdue
  rw [hva] at hwritten
  obtain ⟨t, ht, hbytes, -⟩ := hwritten strayStamping strayPlace _ 3 (by decide) (by decide) translate_strayStamp hlocal haligned
    (by rw [hhome]; exact fun x hx => by cases hx) rfl strayPlace_outside hsyn
  have hstamped : strayStamped = t := congrArg (stateAfter strayStamping) ht
  exact strayStamped_bytes (hstamped ▸ hbytes)

/-- Refutes O49: `Claims.StampWrites` has the stamp's bytes stand whenever it lies behind the blocks of the 1024 queues, for a launch of
any queue number, where `HeadOf` bounds it. The stamp of launch 0 of queue 1025 goes to where that queue's block would lie; the launch,
now DONE, moves `RET` on, and the block is written over the stamp. No queue has that number: the statement lacks the bound as a premise. -/
theorem not_dispatch : ¬ Obligations.Dispatch := by
  unfold Obligations.Dispatch
  rintro ⟨-, -, -, -, -, hstamp⟩
  exact not_claims_stampWrites hstamp

end Sys2Proof.Proofs
end

