-- ==== Sys2Proof/Proofs/IntegerWords.lean ====
section
/-! The integer words of majors 3 and 4 and the immediate words of major 16 (R101, R102, R113). -/

namespace Sys2Proof.Proofs

open Sys2Proof.Machine Sys2Proof.Says Sys2Proof.Laws

theorem claims_integerResults : Claims.IntegerResults := by
  intro e he f s
  exact ⟨_, (passes_integer he f s).exec, writeV_spec ..⟩

/-- Settles O8: what each word of Table 5.2 writes, and that it writes one register, are known from the words of a chain. -/
theorem integerResults : Obligations.IntegerResults := by
  unfold Obligations.IntegerResults
  exact claims_integerResults

/-! ### Immediates -/

/-- A shift amount of ten bits is the same number on 32. -/
theorem toNat_shiftAmount (i : BitVec 10) : (i.setWidth 32).toNat = i.toNat := BitVec.toNat_setWidth_of_le (by decide)

theorem shiftLeft_immediate (x : Word) (i : BitVec 10) : shiftLeft x (i.setWidth 32) = if i.toNat < 32 then x <<< i.toNat else 0 := by
  rw [shiftLeft, toNat_shiftAmount]

theorem shiftRight_immediate (x : Word) (i : BitVec 10) : shiftRight x (i.setWidth 32) = if i.toNat < 32 then x >>> i.toNat else 0 := by
  rw [shiftRight, toNat_shiftAmount]

/-- An immediate word of Table 5.13 writes its result in every active thread. -/
theorem exec_immediate {e : (FI → Instr) × (Word → BitVec 10 → Word)} (he : e ∈ table513) (f : FI) (s : State) :
    exec (e.1 f) s = .next (s.writeAll f.dst fun t => e.2 (s.src t f.a) f.imm) := by
  simp only [table513, List.mem_cons, List.not_mem_nil, or_false] at he
  rcases he with rfl | rfl | rfl | rfl | rfl | rfl
  · rfl
  · rfl
  · rfl
  · rfl
  · simp only [← shiftLeft_immediate]
    rfl
  · simp only [← shiftRight_immediate]
    rfl

/-- `MOVHI` keeps the low half of its destination. -/
theorem exec_movhi (f : FI16) (s : State) : exec (.movhi f) s = .next (s.writeAll f.dst fun t => f.imm ++ (s.vreg t f.dst).setWidth 16) := by
  simp only [BitVec.setWidth_eq_extractLsb' (show 16 ≤ 32 by decide)]
  rfl

theorem claims_immediateResults : Claims.ImmediateResults :=
  ⟨fun _ he f s => ⟨_, exec_immediate he f s, writeAll_spec ..⟩,
    fun f s => ⟨⟨_, rfl, writeAll_spec ..⟩, ⟨_, exec_movhi f s, writeAll_spec ..⟩⟩⟩

/-- Settles O11: the immediate words shift by the whole of a ten-bit immediate, and write all threads of the gang. -/
theorem immediateResults : Obligations.ImmediateResults := by
  unfold Obligations.ImmediateResults
  exact claims_immediateResults

end Sys2Proof.Proofs
end

