-- ==== Sys2Proof/Proofs/Truncated.lean ====
section
/-! Rounding a number of which the model has the whole part and whether anything lies below it (R54, R58): a quotient or a root. -/

namespace Sys2Proof.Proofs

open Sys2Proof.Machine Sys2Proof.Says Sys2Proof.Laws

/-- `m` is the whole part of `Y`, and `sticky` says whether `Y` has a fraction. -/
structure Truncates (m : Nat) (sticky : Bool) (Y : ℝ) : Prop where
  low  : (m : ℝ) ≤ Y
  high : Y < m + 1
  more : sticky = true ↔ Y ≠ m

/-- What the model makes of the discarded part: 0 below half a unit, 1 equal, 2 above. -/
def halfOf (r k : Nat) (sticky : Bool) : Nat := if r < 2 ^ k then 0 else if r == 2 ^ k && !sticky then 1 else 2

/-- A discarded part that is not a whole number lies on the same side of half a unit as the model finds it. -/
theorem halves_truncated {r k : Nat} {sticky : Bool} {ρ : ℝ} (h : Truncates r sticky ρ) : Halves (halfOf r k sticky) (ρ / 2 ^ (k + 1)) := by
  obtain ⟨hlow, hhigh, hmore⟩ := h
  have hpos : (0 : ℝ) < 2 ^ (k + 1) := by positivity
  have hdouble : (2 : ℝ) ^ (k + 1) = 2 * 2 ^ k := by ring
  rw [halfOf]
  split
  · next hr =>
    refine ⟨fun _ => ?_, fun h => absurd h (by decide), fun h => absurd h (by decide), by decide⟩
    have : (r : ℝ) + 1 ≤ 2 ^ k := by exact_mod_cast hr
    rw [div_lt_iff₀ hpos, hdouble]
    linarith
  · next hr =>
    have hge : (2 : ℝ) ^ k ≤ r := by exact_mod_cast Nat.not_lt.mp hr
    split
    · next heq =>
      obtain ⟨rfl, hexact⟩ : r = 2 ^ k ∧ sticky = false := by simpa using heq
      refine ⟨fun h => absurd h (by decide), fun _ => ?_, fun h => absurd h (by decide), by decide⟩
      have hρ : ρ = (2 ^ k : Nat) := by
        by_contra hne
        rw [hmore.mpr hne] at hexact
        cases hexact
      rw [div_eq_iff hpos.ne', hdouble, hρ]
      push_cast
      ring
    · next hne =>
      refine ⟨fun h => absurd h (by decide), fun h => absurd h (by decide), fun _ => ?_, le_rfl⟩
      rw [lt_div_iff₀ hpos, hdouble]
      by_cases hr' : r = 2 ^ k
      · have hsticky : sticky = true := by simpa [hr'] using hne
        have := lt_of_le_of_ne hlow (hmore.mp hsticky).symm
        linarith
      · have : (2 : ℝ) ^ k + 1 ≤ r := by exact_mod_cast Nat.lt_of_le_of_ne (Nat.not_lt.mp hr) (Ne.symm hr')
        linarith

theorem shiftRound_eq (rm : Nat) (neg : Bool) (m k : Nat) (sticky : Bool) : shiftRound rm neg m (k + 1) sticky =
    (if roundsUp rm neg (m / 2 ^ (k + 1) % 2 == 1) (m % 2 ^ (k + 1) == 0 && !sticky) (halfOf (m % 2 ^ (k + 1)) k sticky) then m / 2 ^ (k + 1) + 1
      else m / 2 ^ (k + 1), !(m % 2 ^ (k + 1) == 0 && !sticky)) := by
  unfold shiftRound halfOf
  simp

/-- Shifting the whole part right rounds the number. -/
theorem shiftRound_truncated {m : Nat} {sticky : Bool} {Y : ℝ} (h : Truncates m sticky Y) (rm : Nat) (neg : Bool) (k : Nat) :
    Rounds rm neg (Y / 2 ^ (k + 1)) (shiftRound rm neg m (k + 1) sticky).1 ∧
      ((shiftRound rm neg m (k + 1) sticky).2 = true ↔ Y / 2 ^ (k + 1) ≠ (shiftRound rm neg m (k + 1) sticky).1) := by
  have hpos : (0 : ℝ) < 2 ^ (k + 1) := by positivity
  have hr : m % 2 ^ (k + 1) < 2 ^ (k + 1) := Nat.mod_lt _ (by positivity)
  rw [shiftRound_eq]
  have hparts : ((2 ^ (k + 1) * (m / 2 ^ (k + 1)) + m % 2 ^ (k + 1) : Nat) : ℝ) = m := congrArg _ (Nat.div_add_mod m _)
  generalize m / 2 ^ (k + 1) = n at hparts
  generalize m % 2 ^ (k + 1) = r at hparts hr
  push_cast at hparts
  have hρ : Truncates r sticky (Y - 2 ^ (k + 1) * n) := by
    obtain ⟨hlow, hhigh, hmore⟩ := h
    refine ⟨by linarith, by linarith, hmore.trans (not_congr ⟨fun h => by linarith, fun h => by linarith⟩)⟩
  have hX : Y / 2 ^ (k + 1) = n + (Y - 2 ^ (k + 1) * n) / 2 ^ (k + 1) := by field_simp; ring
  generalize Y / 2 ^ (k + 1) = X at hX
  by_cases hexact : (r == 0 && !sticky) = true
  · obtain ⟨rfl, hfalse⟩ : r = 0 ∧ sticky = false := by simpa using hexact
    have hzero : Y - 2 ^ (k + 1) * n = 0 := by
      by_contra hne
      rw [hρ.more.mpr (by simpa using hne)] at hfalse
      cases hfalse
    rw [hzero, zero_div, add_zero] at hX
    rw [hexact, hX, if_neg (by simp [roundsUp])]
    exact ⟨rounds_exact rm neg n, by simp⟩
  · rw [Bool.not_eq_true] at hexact
    have hfrac : 0 < Y - 2 ^ (k + 1) * n := by
      have h0 : (0 : ℝ) ≤ r := Nat.cast_nonneg r
      refine lt_of_le_of_ne (h0.trans hρ.low) fun heq => ?_
      have hr0 : (r : ℝ) = 0 := le_antisymm (hρ.low.trans heq.symm.le) h0
      have hsticky : sticky ≠ true := fun hs => hρ.more.mp hs (heq.symm.trans hr0.symm)
      simp [Nat.cast_eq_zero.mp hr0, hsticky] at hexact
    have hlow := div_pos hfrac hpos
    have hhigh : (Y - 2 ^ (k + 1) * n) / 2 ^ (k + 1) < 1 := by
      have : (r : ℝ) + 1 ≤ 2 ^ (k + 1) := by exact_mod_cast hr
      rw [div_lt_one hpos]
      exact lt_of_lt_of_le hρ.high this
    have hhalf : Halves (halfOf r k sticky) (X - n) := by
      rw [hX, add_sub_cancel_left]
      exact halves_truncated hρ
    rw [hexact]
    refine ⟨rounds_roundsUp (by linarith) (by linarith) hhalf rm neg, iff_of_true rfl fun h => ?_⟩
    dsimp only at h
    split at h
    · push_cast at h
      linarith
    · linarith

/-- A number on a grid that is coarser than the unit of its whole part. -/
theorem onGrid_truncated {m : Nat} {sticky : Bool} {Y : ℝ} (h : Truncates m sticky Y) (rm : Nat) (neg : Bool) {e q : Int} (hq : e < q) :
    Rounds rm neg (Y * 2 ^ (e - q)) (onGrid rm neg m e q sticky).1 ∧
      ((onGrid rm neg m e q sticky).2 = true ↔ Y * 2 ^ (e - q) ≠ (onGrid rm neg m e q sticky).1) := by
  obtain ⟨k, hk⟩ : ∃ k, (q - e).toNat = k + 1 := ⟨(q - e).toNat - 1, by omega⟩
  have hX : Y * 2 ^ (e - q) = Y / 2 ^ (k + 1) := by
    rw [show e - q = -((k + 1 : Nat) : Int) by omega, zpow_neg, zpow_natCast, div_eq_mul_inv]
  rw [onGrid, if_neg (by omega), hX, hk]
  exact shiftRound_truncated h rm neg k

/-- A number with a whole part lies in the binade of the whole part. -/
theorem topOf_truncated {m : Nat} {sticky : Bool} {Y : ℝ} (h : Truncates m sticky Y) (hm : m ≠ 0) (e : Int) :
    (2 : ℝ) ^ topOf m e ≤ Y * 2 ^ e ∧ Y * 2 ^ e < 2 ^ (topOf m e + 1) := by
  have hpos : (0 : ℝ) < 2 ^ e := by positivity
  have hsucc : (m : ℝ) + 1 ≤ ((2 ^ (Nat.log2 m + 1) : Nat) : ℝ) := by exact_mod_cast Nat.lt_log2_self (n := m)
  refine ⟨(topOf_bounds hm e).1.trans (mul_le_mul_of_nonneg_right h.low hpos.le), ?_⟩
  rw [topOf, add_assoc, add_comm, zpow_add₀ (by norm_num), ← Nat.cast_succ, zpow_natCast]
  push_cast at hsucc
  exact mul_lt_mul_of_pos_right (lt_of_lt_of_le h.high hsucc) hpos

/-- A number with a whole part, in units of the place on which the whole part is rounded. -/
theorem placed_truncated (f : Fmt) {m : Nat} {sticky : Bool} {Y : ℝ} (h : Truncates m sticky Y) (hm : m ≠ 0) (e : Int) :
    Placed f (placeOf f m e) (Y * 2 ^ (e - (f.emin + placeOf f m e))) := by
  obtain ⟨hlow, hhigh⟩ := topOf_truncated h hm e
  have hplace := placeOf_eq f m e
  have hU : (0 : ℝ) < 2 ^ (f.emin + placeOf f m e) := by positivity
  have hYpos : 0 < Y := lt_of_lt_of_le (by exact_mod_cast Nat.pos_of_ne_zero hm) h.low
  have hX : Y * 2 ^ (e - (f.emin + placeOf f m e)) = Y * 2 ^ e / 2 ^ (f.emin + placeOf f m e) := by
    rw [zpow_sub₀ (by norm_num), mul_div_assoc]
  refine ⟨by positivity, fun ht => ?_, ?_⟩
  · rw [hX, le_div_iff₀ hU]
    push_cast
    rw [← zpow_natCast, ← zpow_add₀ (by norm_num)]
    exact (zpow_le_zpow_right₀ (by norm_num) (by omega)).trans hlow
  · rw [hX, div_lt_iff₀ hU]
    push_cast
    rw [← zpow_natCast, mul_assoc, ← zpow_add₀ (by norm_num), ← zpow_one_add₀ (by norm_num)]
    exact lt_of_lt_of_le hhigh (zpow_le_zpow_right₀ (by norm_num) (by omega))

/-- Where the whole part has more digits than the format, the model rounds the number once. -/
theorem round_truncated {f : Fmt} (hf : Roomy f) (rm : Nat) (ftz neg : Bool) {m : Nat} {sticky : Bool} {Y : ℝ} (h : Truncates m sticky Y)
    (hm : 2 ^ (f.mbits + 1) ≤ m) (e : Int) : RoundsTo f rm ftz (signOf neg * (Y * 2 ^ e)) (f.round rm ftz neg m e sticky) := by
  have hm0 : m ≠ 0 := (lt_of_lt_of_le (by positivity) hm).ne'
  have hlog : f.mbits + 1 ≤ Nat.log2 m := (Nat.le_log2 hm0).mpr hm
  have hfree : e < topOf m e - f.mbits := by rw [topOf]; omega
  have hplace := placeOf_eq f m e
  have hV : Y * 2 ^ e = Y * 2 ^ (e - (f.emin + placeOf f m e)) * 2 ^ (f.emin + placeOf f m e) := by
    rw [mul_assoc, ← zpow_add₀ (by norm_num), sub_add_cancel]
  have hround : f.round rm ftz neg m e sticky = packedCode f rm ftz neg (placeOf f m e) (onGrid rm neg m e (f.emin + placeOf f m e) sticky)
      (topOf m e < f.emin + f.mbits &&
        !(topOf m e == f.emin + f.mbits - 1 && (onGrid rm neg m e (topOf m e - f.mbits) sticky).1 == 2 ^ (f.mbits + 1))) := by
    rw [← hplace]
    unfold Fmt.round
    rw [if_neg (by simpa using hm0)]
    rfl
  have hgrid : e < f.emin + placeOf f m e := by omega
  obtain ⟨hrounds, hexact⟩ := onGrid_truncated h rm neg hgrid
  rw [hround, hV]
  refine roundsTo_packedCode hf ftz (placed_truncated f h hm0 e) hrounds hexact ?_
  obtain ⟨hlow, hhigh⟩ := topOf_truncated h hm0 e
  obtain ⟨hfine, -⟩ := onGrid_truncated h rm neg hfree
  rw [zpow_sub₀ (by norm_num), ← mul_div_assoc] at hfine
  rw [← hV, isTiny_iff hf hlow hhigh hfine, Nat.pow_succ, Nat.mul_comm]
  simp only [Bool.and_eq_true, decide_eq_true_eq, Bool.not_eq_true', Bool.and_eq_false_iff, beq_eq_false_iff_ne, not_and_or, ne_eq]

end Sys2Proof.Proofs
end

