-- ==== Sys2Proof/Proofs/Magnitudes.lean ====
section
/-! The magnitudes of F32 in the order of their codes (R52): each code stands one unit of its last place below the next. -/

namespace Sys2Proof.Proofs

open Sys2Proof.Machine Sys2Proof.Says Sys2Proof.Laws

/-! ### The format's numbers -/

theorem signBit_F32 : F32.signBit = 2147483648 := by decide
theorem maxFin_F32 : F32.maxFin = 2139095039 := by decide
theorem emin_F32 : F32.emin = -149 := by decide
theorem mbits_F32 : 2 ^ F32.mbits = 8388608 := by decide

theorem expField_F32 (c : Nat) : expField F32 c = c / 8388608 % 256 := rfl
theorem manField_F32 (c : Nat) : manField F32 c = c % 8388608 := rfl

/-- The magnitude of a code. -/
noncomputable def magnitude (c : Nat) : ℝ := significand F32 c * 2 ^ lastPlace F32 c

/-- Of a code below the sign bit, the place of its last digit above that of the subnormals. -/
def placeAt (c : Nat) : Nat := c / 8388608 - 1

section
variable {c : Nat} (h : c < 2147483648)
include h

theorem expField_code : expField F32 c = c / 8388608 := by
  rw [expField_F32]
  omega

theorem lastPlace_code : lastPlace F32 c = -149 + placeAt c := by
  rw [lastPlace, emin_F32, expField_code h, placeAt]

theorem codeOf_code : codeOf F32 (placeAt c) (significand F32 c) = c := by
  rw [codeOf, mbits_F32, significand, expField_code h, manField_F32, mbits_F32, placeAt]
  split <;> omega

theorem onPlace_code : OnPlace F32 (placeAt c) (significand F32 c) := by
  have hlt := significand_lt F32 c
  refine ⟨hlt.le, fun ht => ?_⟩
  rw [significand, expField_code h]
  rw [placeAt] at ht
  split <;> omega

end

/-- The magnitude of the code of a significand on a place. -/
theorem magnitude_codeOf {t j : Nat} (h : OnPlace F32 t j) (hlt : codeOf F32 t j < 2147483648) : magnitude (codeOf F32 t j) = j * 2 ^ (-149 + (t : Int)) := by
  rw [magnitude, code_magnitude roomy_F32 h (by rw [expField_code hlt, mbits_F32]) (by rw [manField_F32, mbits_F32]), emin_F32]

theorem magnitude_succ {c : Nat} (h : c + 1 < 2147483648) : magnitude (c + 1) = magnitude c + 2 ^ lastPlace F32 c := by
  have hc : c < 2147483648 := by omega
  have hplace := onPlace_code hc
  have hsucc : codeOf F32 (placeAt c) (significand F32 c + 1) = c + 1 := by
    have := codeOf_code hc
    rw [codeOf] at this ⊢
    omega
  have hplace' : OnPlace F32 (placeAt c) (significand F32 c + 1) := ⟨significand_lt F32 c, fun ht => (hplace.ge ht).trans (Nat.le_succ _)⟩
  rw [← hsucc, magnitude_codeOf hplace' (by rw [hsucc]; exact h), magnitude, lastPlace_code hc]
  push_cast
  ring

theorem magnitude_strictMono {a b : Nat} (hab : a < b) (hb : b < 2147483648) : magnitude a < magnitude b := by
  induction b, hab using Nat.le_induction with
  | base =>
    rw [magnitude_succ hb]
    exact lt_add_of_pos_right _ (by positivity)
  | succ b hab ih =>
    rw [magnitude_succ hb]
    exact (ih (by omega)).trans (lt_add_of_pos_right _ (by positivity))

theorem magnitude_le_iff {a b : Nat} (ha : a < 2147483648) (hb : b < 2147483648) : magnitude a ≤ magnitude b ↔ a ≤ b := by
  refine ⟨fun h => ?_, fun h => ?_⟩
  · by_contra hlt
    exact absurd (magnitude_strictMono (Nat.not_le.mp hlt) ha) (not_lt.mpr h)
  · rcases Nat.eq_or_lt_of_le h with rfl | hlt
    · exact le_rfl
    · exact (magnitude_strictMono hlt hb).le

theorem magnitude_lt_iff {a b : Nat} (ha : a < 2147483648) (hb : b < 2147483648) : magnitude a < magnitude b ↔ a < b := by
  rw [← not_le, magnitude_le_iff hb ha, Nat.not_le]

theorem magnitude_nonneg (c : Nat) : 0 ≤ magnitude c := by
  rw [magnitude]
  positivity

theorem magnitude_zero : magnitude 0 = 0 := by
  rw [magnitude, show significand F32 0 = 0 from rfl, Nat.cast_zero, zero_mul]

theorem magnitude_pos {c : Nat} (h0 : c ≠ 0) (h : c < 2147483648) : 0 < magnitude c := by
  rw [← magnitude_zero]
  exact magnitude_strictMono (Nat.pos_of_ne_zero h0) h

theorem magnitude_one : magnitude 1 = 2 ^ (-149 : Int) := by
  have h : codeOf F32 0 1 = 1 := by decide
  conv_lhs => rw [← h]
  rw [magnitude_codeOf ⟨by decide, by decide⟩ (by decide)]
  norm_num

theorem magnitude_top : magnitude 2139095040 = 2 ^ (128 : Int) := by
  have h : codeOf F32 254 8388608 = 2139095040 := by decide
  rw [← h, magnitude_codeOf ⟨by decide, by decide⟩ (by decide)]
  norm_num

/-- A finite magnitude lies below the first that the format does not hold, and not below the least. -/
theorem magnitude_bounds {k : Nat} (h0 : k ≠ 0) (hk : k ≤ 2139095039) : (2 : ℝ) ^ (-149 : Int) ≤ magnitude k ∧ magnitude k < 2 ^ (128 : Int) := by
  rw [← magnitude_one, ← magnitude_top, magnitude_le_iff (by decide) (by omega), magnitude_lt_iff (by omega) (by decide)]
  omega

/-- Every magnitude of the format has a greatest code that does not pass it. -/
theorem exists_code_le {r : ℝ} (h0 : 0 ≤ r) (hr : r < 2 ^ (128 : Int)) :
    ∃ c, c ≤ 2139095039 ∧ magnitude c ≤ r ∧ r < magnitude c + 2 ^ lastPlace F32 c := by
  classical
  have hzero : magnitude 0 ≤ r := by rwa [magnitude_zero]
  refine ⟨Nat.findGreatest (fun c => magnitude c ≤ r) 2139095039, Nat.findGreatest_le _, Nat.findGreatest_spec (P := fun c => magnitude c ≤ r) (Nat.zero_le _) hzero, ?_⟩
  generalize hg : Nat.findGreatest (fun c => magnitude c ≤ r) 2139095039 = g
  have hle : g ≤ 2139095039 := hg ▸ Nat.findGreatest_le _
  rw [← magnitude_succ (by omega)]
  rcases Nat.eq_or_lt_of_le hle with rfl | hlt
  · rwa [magnitude_top]
  · exact not_le.mp (Nat.findGreatest_is_greatest (P := fun c => magnitude c ≤ r) (hg ▸ Nat.lt_succ_self g) hlt)

/-- A number of no more digits than the format has is the magnitude of a code. -/
theorem exists_code_eq {m : Nat} {e : Int} (hm : m < 16777216) (he : -149 ≤ e) (hlt : (m : ℝ) * 2 ^ e < 2 ^ (128 : Int)) :
    ∃ k, k ≤ 2139095039 ∧ magnitude k = m * 2 ^ e := by
  obtain ⟨k, hk, hlow, hhigh⟩ := exists_code_le (by positivity) hlt
  refine ⟨k, hk, ?_⟩
  have hU : (0 : ℝ) < 2 ^ lastPlace F32 k := by positivity
  have hplace : lastPlace F32 k ≤ e := by
    have hlast := lastPlace_code (show k < 2147483648 by omega)
    by_contra hfar
    have hge := (onPlace_code (show k < 2147483648 by omega)).ge (by omega)
    rw [mbits_F32] at hge
    have hgeR : (8388608 : ℝ) ≤ significand F32 k := by exact_mod_cast hge
    have hmR : (m : ℝ) < 16777216 := by exact_mod_cast hm
    have hhalf : (2 : ℝ) ^ e ≤ 2 ^ (lastPlace F32 k - 1) := zpow_le_zpow_right₀ (by norm_num) (by omega)
    rw [zpow_sub_one₀ (by norm_num)] at hhalf
    have hpos : (0 : ℝ) < 2 ^ e := by positivity
    rw [magnitude] at hlow
    nlinarith
  have hwhole : (m : ℝ) * 2 ^ e = (m * 2 ^ (e - lastPlace F32 k).toNat : Nat) * 2 ^ lastPlace F32 k := by
    push_cast
    rw [← zpow_natCast, Int.toNat_of_nonneg (by omega), mul_assoc, ← zpow_add₀ (by norm_num), sub_add_cancel]
  rw [magnitude] at hlow hhigh ⊢
  rw [hwhole] at hlow hhigh ⊢
  rw [mul_le_mul_iff_left₀ hU] at hlow
  have hhigh' : ((m * 2 ^ (e - lastPlace F32 k).toNat : Nat) : ℝ) < (significand F32 k + 1 : Nat) := by
    rw [← mul_lt_mul_iff_left₀ hU]
    push_cast at hhigh ⊢
    linarith
  rw [le_antisymm (by exact_mod_cast hlow : significand F32 k ≤ _) (Nat.lt_succ_iff.mp (by exact_mod_cast hhigh'))]

/-! ### Values -/

/-- The value of a code. -/
noncomputable def valueOf (c : Nat) : ℝ := signOf (negative F32 c) * magnitude c

theorem eq_valueOf {c : Nat} {x : ℝ} (h : IsValue F32 c x) : x = valueOf c := (isValue_iff.mp h).2.2

/-- The fields of a code of either sign. -/
theorem signed_code {k : Nat} (hk : k < 2147483648) (neg : Bool) : negative F32 (F32.signed neg k) = neg ∧
    significand F32 (F32.signed neg k) = significand F32 k ∧ lastPlace F32 (F32.signed neg k) = lastPlace F32 k := by
  obtain ⟨-, hneg, -, hexp, hman⟩ := signed_fields (f := F32) (by rw [signBit_F32]; exact hk) neg
  have hexp' : expField F32 (F32.signed neg k) = expField F32 k := by rw [hexp, expField_code hk, mbits_F32]
  have hman' : manField F32 (F32.signed neg k) = manField F32 k := hman
  refine ⟨hneg, ?_, ?_⟩
  · rw [significand, significand, hexp', hman']
  · rw [lastPlace, lastPlace, hexp']

theorem magnitude_signed {k : Nat} (hk : k < 2147483648) (neg : Bool) : magnitude (F32.signed neg k) = magnitude k := by
  obtain ⟨-, hsig, hlast⟩ := signed_code hk neg
  rw [magnitude, hsig, hlast, magnitude]

theorem valueOf_signed {k : Nat} (hk : k < 2147483648) (neg : Bool) : valueOf (F32.signed neg k) = signOf neg * magnitude k := by
  rw [valueOf, (signed_code hk neg).1, magnitude_signed hk]

/-- A code is its sign and a code below the sign bit. -/
theorem exists_signed {c : Nat} (h : c < 4294967296) : ∃ neg k, k < 2147483648 ∧ c = F32.signed neg k := by
  by_cases hc : c < 2147483648
  · exact ⟨false, c, hc, by rw [Fmt.signed, Fmt.zero, if_neg (by decide), Nat.zero_add]⟩
  · exact ⟨true, c - 2147483648, by omega, by rw [Fmt.signed, Fmt.zero, if_pos rfl, signBit_F32]; omega⟩

theorem signed_lt {k : Nat} (hk : k < 2147483648) (neg : Bool) : F32.signed neg k < 4294967296 := by
  have := (signed_fields (f := F32) (by rw [signBit_F32]; exact hk) neg).1
  rwa [signBit_F32] at this

theorem signed_false (k : Nat) : F32.signed false k = k := by
  rw [Fmt.signed, Fmt.zero, if_neg (by decide), Nat.zero_add]

/-- The finite codes are those up to the greatest finite one of each sign. -/
theorem finite_iff {k : Nat} (hk : k < 2147483648) (neg : Bool) :
    (¬ isNan F32 (F32.signed neg k) ∧ ¬ isInf F32 (F32.signed neg k)) ↔ k ≤ 2139095039 := by
  obtain ⟨-, -, hmag, hexp, hman⟩ := signed_fields (f := F32) (by rw [signBit_F32]; exact hk) neg
  refine ⟨fun ⟨hnan, hinf⟩ => ?_, fun h => finite_of_le_maxFin roomy_F32 (by rw [hmag, maxFin_F32]; exact h)⟩
  by_contra hlt
  have hfield : expField F32 (F32.signed neg k) = 2 ^ F32.ebits - 1 := by
    rw [hexp, mbits_F32]
    show k / 8388608 = 255
    omega
  by_cases h0 : manField F32 (F32.signed neg k) = 0
  · exact hinf ⟨rfl, hfield, h0⟩
  · exact hnan ⟨hfield, h0⟩

theorem isValue_signed {k : Nat} (hk : k ≤ 2139095039) (neg : Bool) : IsValue F32 (F32.signed neg k) (signOf neg * magnitude k) := by
  have hk' : k < 2147483648 := by omega
  obtain ⟨hnan, hinf⟩ := (finite_iff hk' neg).mpr hk
  refine isValue_iff.mpr ⟨hnan, hinf, ?_⟩
  rw [← valueOf_signed hk' neg]
  rfl

theorem read_signed {k : Nat} (hk : k ≤ 2139095039) (neg : Bool) : F32.read (F32.signed neg k) = .fin neg (significand F32 k) (lastPlace F32 k) := by
  have hk' : k < 2147483648 := by omega
  obtain ⟨hnan, hinf⟩ := (finite_iff hk' neg).mpr hk
  obtain ⟨hneg, hsig, hlast⟩ := signed_code hk' neg
  rw [read_fin roomy_F32 hnan hinf, hneg, hsig, hlast]

/-- A code that reads as a finite number. -/
theorem read_eq_fin {c : Nat} (hc : c < 4294967296) {neg : Bool} {n : Nat} {d : Int} (h : F32.read c = .fin neg n d) :
    ∃ k, k ≤ 2139095039 ∧ c = F32.signed neg k ∧ n = significand F32 k ∧ d = lastPlace F32 k := by
  obtain ⟨s, k, hk, rfl⟩ := exists_signed hc
  have hfin : ¬ isNan F32 (F32.signed s k) ∧ ¬ isInf F32 (F32.signed s k) := by
    refine ⟨fun hnan => ?_, fun hinf => ?_⟩
    · obtain ⟨sig, hread, -⟩ := read_isNan roomy_F32 hnan
      rw [hread] at h
      cases h
    · rw [read_isInf hinf] at h
      cases h
  have hle := (finite_iff hk s).mp hfin
  rw [read_signed hle] at h
  cases h
  exact ⟨k, hle, rfl, rfl, rfl⟩

theorem read_code {k : Nat} (hk : k ≤ 2139095039) : F32.read k = .fin false (significand F32 k) (lastPlace F32 k) := by
  have h := read_signed hk false
  rwa [signed_false] at h

/-- A code that reads as a finite number without a sign. -/
theorem le_of_read {c : Nat} (hc : c < 4294967296) {n : Nat} {d : Int} (h : F32.read c = .fin false n d) : c ≤ 2139095039 := by
  obtain ⟨k, hk, rfl, -⟩ := read_eq_fin hc h
  rwa [signed_false]

/-- The value of a code that has one. -/
theorem isValue_code {c : Nat} (hc : c < 4294967296) {x : ℝ} (h : IsValue F32 c x) :
    ∃ neg k, k ≤ 2139095039 ∧ c = F32.signed neg k ∧ x = signOf neg * magnitude k := by
  obtain ⟨neg, k, hk, rfl⟩ := exists_signed hc
  exact ⟨neg, k, (finite_iff hk neg).mp ⟨h.1, h.2.1⟩, rfl, (eq_valueOf h).trans (valueOf_signed hk neg)⟩

/-! ### Operands -/

/-- The number that an operand's word stands for, flushed or not, in the terms of its code. -/
theorem operand_code {ftz : Bool} {w : Word} {x : ℝ} (h : IsOperand F32 ftz w.toNat x) : ∃ neg k, k ≤ 2139095039 ∧ w.toNat = F32.signed neg k ∧
    (x = 0 ∧ (∃ e, F32.readFtz ftz w.toNat = .fin neg 0 e) ∨
      k ≠ 0 ∧ x = signOf neg * magnitude k ∧ F32.readFtz ftz w.toNat = .fin neg (significand F32 k) (lastPlace F32 k)) := by
  have hfin : ¬ isNan F32 w.toNat ∧ ¬ isInf F32 w.toNat := by
    by_cases hsub : ftz = true ∧ isSubnormal F32 w.toNat
    · obtain ⟨hexp, -⟩ := hsub.2
      exact ⟨fun hnan => by rw [hnan.1] at hexp; exact absurd hexp (by decide), fun hinf => by rw [hinf.2.1] at hexp; exact absurd hexp (by decide)⟩
    · exact ⟨(h.2 hsub).1, (h.2 hsub).2.1⟩
  obtain ⟨neg, k, hk, hw⟩ := exists_signed w.isLt
  rw [hw] at hfin h ⊢
  have hle := (finite_iff hk neg).mp hfin
  refine ⟨neg, k, hle, rfl, ?_⟩
  obtain ⟨hflushed, hvalue⟩ := h
  by_cases hsub : ftz = true ∧ isSubnormal F32 (F32.signed neg k)
  · refine .inl ⟨hflushed hsub, F32.emin, ?_⟩
    rw [Fmt.readFtz, hsub.1, subnormal_iff.mpr hsub.2, negative_eq, (signed_code hk neg).1, if_pos (by decide)]
  · have hread : F32.readFtz ftz (F32.signed neg k) = .fin neg (significand F32 k) (lastPlace F32 k) := by
      rw [Fmt.readFtz, if_neg (by rw [Bool.and_eq_true, subnormal_iff]; exact hsub), read_signed hle]
    have hx : x = signOf neg * magnitude k := (eq_valueOf (hvalue hsub)).trans (valueOf_signed hk neg)
    by_cases h0 : k = 0
    · subst h0
      exact .inl ⟨by rw [hx, magnitude_zero, mul_zero], _, hread⟩
    · exact .inr ⟨h0, hx, hread⟩

theorem significand_ne_zero {k : Nat} (h0 : k ≠ 0) (hk : k < 2147483648) : significand F32 k ≠ 0 := by
  intro h
  have := magnitude_pos h0 hk
  rw [magnitude, h, Nat.cast_zero, zero_mul] at this
  exact this.false

end Sys2Proof.Proofs
end

