-- ==== Sys2Proof/Proofs/Chosen.lean ====
section
/-! The result that a part chooses among those that a bound admits (R109, assumption 10): it is one of them, and it rises with the operand where
the bound does. -/

namespace Sys2Proof.Proofs

open Sys2Proof.Machine Sys2Proof.Says Sys2Proof.Laws

/-! ### The last of a list that a part has reached -/

/-- The last entry of a list for which `p` holds, or `r`. -/
def lastReached (p : Nat → Bool) (r : Nat) (os : List Nat) : Nat := os.foldl (fun r o => if p o then o else r) r

theorem lastReached_cons (p : Nat → Bool) (r o : Nat) (os : List Nat) : lastReached p r (o :: os) = lastReached p (if p o then o else r) os := rfl

theorem lastReached_eq_or_reached (p : Nat → Bool) (os : List Nat) (r : Nat) : lastReached p r os = r ∨ lastReached p r os ∈ os ∧ p (lastReached p r os) = true := by
  induction os generalizing r with
  | nil => exact .inl rfl
  | cons o os ih =>
    rw [lastReached_cons]
    rcases ih (if p o then o else r) with h | ⟨hmem, hp⟩
    · rw [h]
      split
      · next hp => exact .inr ⟨List.mem_cons_self, hp⟩
      · exact .inl rfl
    · exact .inr ⟨List.mem_cons_of_mem o hmem, hp⟩

/-- In ascending order it is the greatest. -/
theorem le_lastReached {p : Nat → Bool} {os : List Nat} (h : os.Pairwise (· < ·)) (r : Nat) {o : Nat} (ho : o ∈ os) (hp : p o = true) :
    o ≤ lastReached p r os := by
  induction os generalizing r with
  | nil => cases ho
  | cons a os ih =>
    rw [List.pairwise_cons] at h
    rw [lastReached_cons]
    rcases List.mem_cons.mp ho with rfl | hmem
    · rw [if_pos hp]
      rcases lastReached_eq_or_reached p os o with heq | ⟨hlast, -⟩
      · exact heq.ge
      · exact (h.1 _ hlast).le
    · exact ih h.2 _ hmem

theorem headD_le {os : List Nat} (h : os.Pairwise (· < ·)) (d : Nat) {o : Nat} (ho : o ∈ os) : os.headD d ≤ o := by
  cases os with
  | nil => cases ho
  | cons a os =>
    rw [List.pairwise_cons] at h
    rcases List.mem_cons.mp ho with rfl | hmem
    · exact le_rfl
    · exact (h.1 o hmem).le

theorem headD_mem {os : List Nat} {o : Nat} (ho : o ∈ os) (d : Nat) : os.headD d ∈ os := by
  cases os with
  | nil => cases ho
  | cons a os => exact List.mem_cons_self

theorem lastReached_headD_mem (p : Nat → Bool) {os : List Nat} {o : Nat} (ho : o ∈ os) (d : Nat) : lastReached p (os.headD d) os ∈ os := by
  rcases lastReached_eq_or_reached p os (os.headD d) with h | ⟨h, -⟩
  · rw [h]
    exact headD_mem ho d
  · exact h

/-- Of two lists, entries that stand out of order are in both, and what is reached in the first is reached in the second: then the second's last
entry is not before the first's. -/
theorem lastReached_le_lastReached {p q : Nat → Bool} (hpq : ∀ o, p o = true → q o = true) {os os' : List Nat} (h : os.Pairwise (· < ·)) (h' : os'.Pairwise (· < ·))
    (hshared : ∀ o ∈ os, ∀ o' ∈ os', o' < o → o ∈ os' ∧ o' ∈ os) {o o' : Nat} (ho : o ∈ os) (ho' : o' ∈ os') (d : Nat) :
    lastReached p (os.headD d) os ≤ lastReached q (os'.headD d) os' := by
  have hmem' := lastReached_headD_mem q ho' d
  by_contra hlt
  rw [Nat.not_le] at hlt
  obtain ⟨hin', hin⟩ := hshared _ (lastReached_headD_mem p ho d) _ hmem' hlt
  rcases lastReached_eq_or_reached p os (os.headD d) with hhead | ⟨-, hreached⟩
  · rw [hhead] at hlt
    exact absurd (headD_le h d hin) (Nat.not_le.mpr hlt)
  · exact absurd (le_lastReached h' (os'.headD d) hin' (hpq _ hreached)) (Nat.not_le.mpr hlt)

/-! ### Places -/

theorem f32Place_lt {c : Nat} (h : c < 4294967296) : f32Place c < 4294967296 := by
  rw [f32Place, signBit_F32]
  split <;> omega

theorem f32At_lt {o : Nat} (h : o < 4294967296) : f32At o < 4294967296 := by
  rw [f32At, signBit_F32]
  split <;> omega

theorem f32At_f32Place {c : Nat} (h : c < 4294967296) : f32At (f32Place c) = c := by
  unfold f32At f32Place
  rw [signBit_F32]
  split <;> split <;> omega

theorem f32Place_f32At {o : Nat} (h : o < 4294967296) : f32Place (f32At o) = o := by
  unfold f32At f32Place
  rw [signBit_F32]
  split <;> split <;> omega

/-- The places of two codes, by their signs and magnitudes. -/
theorem f32Place_signed {k : Nat} (hk : k < 2147483648) (neg : Bool) : f32Place (F32.signed neg k) = if neg then 2147483647 - k else 2147483648 + k := by
  rw [f32Place, Fmt.signed, Fmt.zero, signBit_F32]
  cases neg with
  | true =>
    rw [if_pos rfl, if_pos rfl, if_neg (by omega)]
    omega
  | false => rw [if_neg Bool.false_ne_true, if_neg Bool.false_ne_true, Nat.zero_add, if_pos hk]

theorem f32Place_of_lt {c : Nat} (h : c < 2147483648) : f32Place c = 2147483648 + c := by
  rw [f32Place, signBit_F32, if_pos h]

/-- Values rise with the places of their codes. -/
theorem valueOf_le_of_place {c c' : Nat} (hc : c < 4294967296) (hc' : c' < 4294967296) (h : f32Place c ≤ f32Place c') : valueOf c ≤ valueOf c' := by
  obtain ⟨s, k, hk, rfl⟩ := exists_signed hc
  obtain ⟨s', k', hk', rfl⟩ := exists_signed hc'
  rw [f32Place_signed hk, f32Place_signed hk'] at h
  rw [valueOf_signed hk, valueOf_signed hk']
  have hpos := magnitude_nonneg k
  have hpos' := magnitude_nonneg k'
  cases s with
  | true =>
    cases s' with
    | true =>
      have := (magnitude_le_iff hk' hk).mpr (by simp only [if_true] at h; omega)
      simpa [signOf] using this
    | false => simp only [signOf, if_true, Bool.false_eq_true, if_false]; linarith
  | false =>
    cases s' with
    | true => simp only [if_true, Bool.false_eq_true, if_false] at h; omega
    | false =>
      have := (magnitude_le_iff hk hk').mpr (by simp only [Bool.false_eq_true, if_false] at h; omega)
      simpa [signOf] using this

/-! ### The choice -/

/-- The places of the codes that a bound admits, in order. -/
def admitted (ok : Nat → Bool) : List Nat := (List.range (2 * F32.signBit)).filter fun o => ok (f32At o)

theorem chosen_eq (fn key : Nat) (ok : Nat → Bool) : chosen fn key ok =
    f32At (lastReached (fun o => decide (Config.sfuFrom fn o ≤ key)) ((admitted ok).headD F32.signBit) (admitted ok)) := by
  unfold chosen lastReached admitted
  simp only [decide_eq_true_eq]

theorem mem_admitted {ok : Nat → Bool} {o : Nat} : o ∈ admitted ok ↔ o < 4294967296 ∧ ok (f32At o) = true := by
  rw [admitted, List.mem_filter, List.mem_range, signBit_F32]

theorem place_mem_admitted {ok : Nat → Bool} {c : Nat} (hc : c < 4294967296) (h : ok c = true) : f32Place c ∈ admitted ok :=
  mem_admitted.mpr ⟨f32Place_lt hc, by rwa [f32At_f32Place hc]⟩

theorem admitted_pairwise (ok : Nat → Bool) : (admitted ok).Pairwise (· < ·) := List.Pairwise.filter _ List.pairwise_lt_range

/-- Some code is admitted. -/
def Admits (ok : Nat → Bool) : Prop := ∃ c, c < 4294967296 ∧ ok c = true

/-- The choice is a code that the bound admits. -/
theorem chosen_ok {ok : Nat → Bool} (h : Admits ok) (fn key : Nat) : chosen fn key ok < 4294967296 ∧ ok (chosen fn key ok) = true := by
  obtain ⟨c, hc, hok⟩ := h
  obtain ⟨hlt, hgood⟩ := mem_admitted.mp (lastReached_headD_mem (fun o => decide (Config.sfuFrom fn o ≤ key)) (place_mem_admitted hc hok) F32.signBit)
  rw [chosen_eq]
  exact ⟨f32At_lt hlt, hgood⟩

/-- Of two bounds the second admits greater codes: two codes that stand out of order are admitted by both. -/
def Rises (ok ok' : Nat → Bool) : Prop :=
  ∀ c c', c < 4294967296 → c' < 4294967296 → ok c = true → ok' c' = true → f32Place c' < f32Place c → ok' c = true ∧ ok c' = true

/-- The choice rises with the bound and the operand. -/
theorem chosen_place_le {ok ok' : Nat → Bool} (hrises : Rises ok ok') (h : Admits ok) (h' : Admits ok') (fn : Nat) {key key' : Nat} (hkey : key ≤ key') :
    f32Place (chosen fn key ok) ≤ f32Place (chosen fn key' ok') := by
  obtain ⟨c, hc, hok⟩ := h
  obtain ⟨c', hc', hok'⟩ := h'
  have hplace (k : Nat) {ok : Nat → Bool} {c : Nat} (hc : c < 4294967296) (hok : ok c = true) : f32Place (chosen fn k ok) =
      lastReached (fun o => decide (Config.sfuFrom fn o ≤ k)) ((admitted ok).headD F32.signBit) (admitted ok) := by
    rw [chosen_eq, f32Place_f32At]
    exact (mem_admitted.mp (lastReached_headD_mem _ (place_mem_admitted hc hok) _)).1
  rw [hplace key hc hok, hplace key' hc' hok']
  refine lastReached_le_lastReached (fun o ho => ?_) (admitted_pairwise ok) (admitted_pairwise ok') (fun o ho o' ho' hlt => ?_) (place_mem_admitted hc hok)
    (place_mem_admitted hc' hok') _
  · simp only [decide_eq_true_eq] at ho ⊢
    exact ho.trans hkey
  · obtain ⟨ho, hgood⟩ := mem_admitted.mp ho
    obtain ⟨ho', hgood'⟩ := mem_admitted.mp ho'
    obtain ⟨hin, hin'⟩ := hrises _ _ (f32At_lt ho) (f32At_lt ho') hgood hgood' (by rwa [f32Place_f32At ho, f32Place_f32At ho'])
    exact ⟨mem_admitted.mpr ⟨ho, hin⟩, mem_admitted.mpr ⟨ho', hin'⟩⟩

/-! ### Flushing -/

theorem subnormal_signed {k : Nat} (hk : k < 2147483648) (neg : Bool) : F32.subnormal (F32.signed neg k) = true ↔ k ≠ 0 ∧ k < 8388608 := by
  obtain ⟨-, -, hmag, -⟩ := signed_fields (f := F32) (by rw [signBit_F32]; exact hk) neg
  rw [Fmt.subnormal, hmag, mbits_F32]
  simp

/-- A magnitude's code once it has been flushed. -/
def flushed (ftz : Bool) (k : Nat) : Nat := if ftz && decide (k < 8388608) then 0 else k

theorem flushed_le (ftz : Bool) (k : Nat) : flushed ftz k ≤ k := by
  rw [flushed]
  split
  · exact Nat.zero_le k
  · exact le_rfl

theorem flushed_eq_self {ftz : Bool} {k : Nat} (h : flushed ftz k ≠ 0) : flushed ftz k = k := by
  unfold flushed at h ⊢
  split
  · next hflush => exact absurd (if_pos hflush) h
  · rfl

theorem flushed_mono (ftz : Bool) {a b : Nat} (h : a ≤ b) : flushed ftz a ≤ flushed ftz b := by
  cases ftz with
  | false => exact h
  | true =>
    simp only [flushed, Bool.true_and, decide_eq_true_eq]
    split <;> split <;> omega

theorem flushed_lt (ftz : Bool) {k : Nat} (hk : k < 2147483648) : flushed ftz k < 2147483648 := (flushed_le ftz k).trans_lt hk

/-- Reading with flushing. -/
theorem readFtz_signed (ftz neg : Bool) {k : Nat} (hk : k ≤ 2139095039) : F32.readFtz ftz (F32.signed neg k) =
    .fin neg (significand F32 (flushed ftz k)) (lastPlace F32 (flushed ftz k)) := by
  have hk' : k < 2147483648 := by omega
  have hneg : (F32.signed neg k / F32.signBit % 2 == 1) = neg := (signed_code hk' neg).1
  rw [Fmt.readFtz, hneg, read_signed hk, flushed]
  by_cases h : (ftz && F32.subnormal (F32.signed neg k)) = true
  · obtain ⟨hftz, -, hlt⟩ : ftz = true ∧ k ≠ 0 ∧ k < 8388608 := by rwa [Bool.and_eq_true, subnormal_signed hk'] at h
    rw [if_pos h, if_pos (by simp [hftz, hlt])]
    rfl
  · rw [if_neg h]
    split
    · next hflush =>
      obtain ⟨hftz, hlt⟩ : ftz = true ∧ k < 8388608 := by simpa using hflush
      obtain rfl : k = 0 := by
        by_contra h0
        exact h (by rw [Bool.and_eq_true, subnormal_signed hk']; exact ⟨hftz, h0, hlt⟩)
      rfl
    · rfl

theorem sfuFlush_signed (ftz : Bool) {k : Nat} (hk : k < 2147483648) (neg : Bool) :
    sfuFlush ftz (F32.signed neg k) = F32.signed neg (flushed ftz k) := by
  have hneg : (F32.signed neg k / F32.signBit % 2 == 1) = neg := (signed_code hk neg).1
  have hsub : F32.subnormal (F32.signed neg k) = (decide (k ≠ 0) && decide (k < 8388608)) := by
    rw [Bool.eq_iff_iff, subnormal_signed hk]
    simp
  rw [sfuFlush, hneg, hsub, flushed]
  by_cases h0 : k = 0
  · subst h0
    simp
  · by_cases h : (ftz && decide (k < 8388608)) = true
    · rw [if_pos h, decide_eq_true h0, Bool.true_and, if_pos h]
      rfl
    · rw [if_neg h, decide_eq_true h0, Bool.true_and, if_neg h]

/-- The manual's flushing of a result is the model's. -/
theorem sfuFlush_eq (ftz : Bool) {c : Nat} (hc : c < 4294967296) :
    sfuFlush ftz c = if ftz && expField F32 c == 0 then zeroOf F32 (negative F32 c) else c := by
  obtain ⟨neg, k, hk, rfl⟩ := exists_signed hc
  obtain ⟨-, -, -, hexp, -⟩ := signed_fields (f := F32) (by rw [signBit_F32]; exact hk) neg
  have hzero : (k / 8388608 == 0) = decide (k < 8388608) := by
    rw [Bool.eq_iff_iff, beq_iff_eq, decide_eq_true_eq]
    omega
  rw [sfuFlush_signed ftz hk, (signed_code hk neg).1, hexp, mbits_F32, hzero, flushed]
  split <;> rfl

theorem sfuFlush_lt (ftz : Bool) {c : Nat} (hc : c < 4294967296) : sfuFlush ftz c < 4294967296 := by
  obtain ⟨neg, k, hk, rfl⟩ := exists_signed hc
  rw [sfuFlush_signed ftz hk]
  exact signed_lt (flushed_lt ftz hk) neg

/-- Flushing keeps the order of places. -/
theorem f32Place_sfuFlush_mono (ftz : Bool) {c c' : Nat} (hc : c < 4294967296) (hc' : c' < 4294967296) (h : f32Place c ≤ f32Place c') :
    f32Place (sfuFlush ftz c) ≤ f32Place (sfuFlush ftz c') := by
  obtain ⟨s, k, hk, rfl⟩ := exists_signed hc
  obtain ⟨s', k', hk', rfl⟩ := exists_signed hc'
  rw [f32Place_signed hk, f32Place_signed hk'] at h
  rw [sfuFlush_signed ftz hk, sfuFlush_signed ftz hk', f32Place_signed (flushed_lt ftz hk), f32Place_signed (flushed_lt ftz hk')]
  have hle := flushed_le ftz k'
  cases s with
  | true =>
    cases s' with
    | true =>
      simp only [if_true] at h ⊢
      have := flushed_mono ftz (show k' ≤ k by omega)
      omega
    | false =>
      simp only [if_true, Bool.false_eq_true, if_false]
      omega
  | false =>
    cases s' with
    | true =>
      simp only [if_true, Bool.false_eq_true, if_false] at h
      omega
    | false =>
      simp only [Bool.false_eq_true, if_false] at h ⊢
      have := flushed_mono ftz (show k ≤ k' by omega)
      omega

/-! ### Words -/

theorem word32_toNat {c : Nat} (hc : c < 4294967296) (fl : BitVec 6) : (word32 (c, fl)).1.toNat = c := by
  rw [word32, BitVec.toNat_ofNat, Nat.mod_eq_of_lt hc]

end Sys2Proof.Proofs
end

