-- ==== Sys2Proof/Proofs/UnitBounds.lean ====
section
/-! The bounds of R109 in units of the last place, as the model states them about a code: they hold, some code meets them, and they rise with the
code. -/

namespace Sys2Proof.Proofs

open Sys2Proof.Machine Sys2Proof.Says Sys2Proof.Laws

/-! ### The ends of a bound -/

/-- The greatest result of which a code is at most `N` units away. -/
noncomputable def highEnd (N c : Nat) : ℝ := ((2 * significand F32 c + above N (significand F32 c) : Nat) : ℝ) * 2 ^ (lastPlace F32 c - 1)

/-- The least such result. -/
noncomputable def lowEnd (N c : Nat) : ℝ :=
  ((2 * significand F32 c - below N (significand F32 c) (lastPlace F32 c) : Nat) : ℝ) * 2 ^ (lastPlace F32 c - 1)

/-- The code `c` meets the bound of `N` units for `r`. -/
def Within (N : Nat) (r : ℝ) (c : Nat) : Prop := lowEnd N c ≤ r ∧ r ≤ highEnd N c

/-- A magnitude in half units. -/
theorem magnitude_halves (c : Nat) : magnitude c = ((2 * significand F32 c : Nat) : ℝ) * 2 ^ (lastPlace F32 c - 1) := by
  rw [magnitude, zpow_sub_one₀ (by norm_num)]
  push_cast
  ring

theorem below_le (N n : Nat) (d : Int) : below N n d ≤ 2 * N := by
  rw [below]
  split
  · exact le_rfl
  · next h =>
    simp only [Bool.or_eq_true, decide_eq_true_eq, not_or, Nat.not_le] at h
    split <;> omega

theorem le_above (N n : Nat) : 2 * N ≤ above N n := by
  rw [above]
  split <;> omega

theorem lowEnd_le (N c : Nat) : lowEnd N c ≤ magnitude c := by
  rw [lowEnd, magnitude_halves]
  exact mul_le_mul_of_nonneg_right (by exact_mod_cast Nat.sub_le _ _) (by positivity)

theorem lowEnd_nonneg (N c : Nat) : 0 ≤ lowEnd N c := by
  rw [lowEnd]
  positivity

/-- The code below a number meets a bound of a unit or more. -/
theorem within_of_floor {N c : Nat} {r : ℝ} (hN : 1 ≤ N) (hlow : magnitude c ≤ r) (hhigh : r < magnitude c + 2 ^ lastPlace F32 c) : Within N r c := by
  refine ⟨(lowEnd_le N c).trans hlow, hhigh.le.trans ?_⟩
  have habove : ((2 * significand F32 c + 2 : Nat) : ℝ) ≤ (2 * significand F32 c + above N (significand F32 c) : Nat) := by
    have := le_above N (significand F32 c)
    exact_mod_cast (by omega : 2 * significand F32 c + 2 ≤ 2 * significand F32 c + above N (significand F32 c))
  have hunit : magnitude c + 2 ^ lastPlace F32 c = ((2 * significand F32 c + 2 : Nat) : ℝ) * 2 ^ (lastPlace F32 c - 1) := by
    rw [magnitude, zpow_sub_one₀ (by norm_num)]
    push_cast
    ring
  rw [hunit, highEnd]
  exact mul_le_mul_of_nonneg_right habove (by positivity)

/-! ### The bound holds -/

/-- A number in half units of a code, and its own unit. -/
structure InHalves (c : Nat) (k : Int) (R : ℝ) : Prop where
  least : -149 ≤ k
  high  : R < 2 ^ (k - lastPlace F32 c + 25)
  low   : k = -149 ∨ 2 ^ (k - lastPlace F32 c + 24) ≤ R

section
variable {N c : Nat} {k : Int} {R : ℝ} (hN : 1 ≤ N) (hN' : N ≤ 2) (hc : c < 2147483648) (hR : InHalves c k R)
include hN hN' hc hR

/-- Below a number: where the number's unit is the code's or less, the code is within half as many units. -/
theorem halves_above (hle : ((2 * significand F32 c : Nat) : ℝ) ≤ R) (hhigh : R ≤ (2 * significand F32 c + above N (significand F32 c) : Nat)) :
    R - (2 * significand F32 c : Nat) ≤ 2 * N * 2 ^ (k - lastPlace F32 c) := by
  obtain ⟨hk, hRhigh, -⟩ := hR
  have hplace := onPlace_code hc
  have hlast := lastPlace_code hc
  have hN0 : (1 : ℝ) ≤ N := by exact_mod_cast hN
  generalize significand F32 c = n at *
  obtain hj | hj | hj : k - lastPlace F32 c ≤ -1 ∨ k - lastPlace F32 c = 0 ∨ 1 ≤ k - lastPlace F32 c := by omega
  · exfalso
    have hpow : (2 : ℝ) ^ (k - lastPlace F32 c + 25) ≤ 2 ^ (24 : Int) := zpow_le_zpow_right₀ (by norm_num) (by omega)
    have hn : (n : ℝ) < 8388608 := by
      push_cast at hle
      norm_num at hpow
      linarith
    have hn' : n < 8388608 := by exact_mod_cast hn
    have ht : placeAt c = 0 := by
      by_contra ht
      have := hplace.ge (by omega)
      rw [mbits_F32] at this
      omega
    omega
  · rw [hj] at hRhigh ⊢
    norm_num at hRhigh
    rw [above] at hhigh
    split at hhigh
    · next hfar =>
      have : ((2 ^ 24 : Nat) : ℝ) ≤ (n + N : Nat) := by exact_mod_cast hfar
      push_cast at this ⊢
      norm_num at this ⊢
      linarith
    · push_cast at hhigh ⊢
      norm_num
      linarith
  · have hpow : (2 : ℝ) ^ (1 : Int) ≤ 2 ^ (k - lastPlace F32 c) := zpow_le_zpow_right₀ (by norm_num) hj
    have habove : above N n ≤ 4 * N := by
      rw [above]
      split <;> omega
    have : ((above N n : Nat) : ℝ) ≤ (4 * N : Nat) := by exact_mod_cast habove
    push_cast at hhigh this ⊢
    rw [zpow_one] at hpow
    nlinarith

/-- Above a number: the same. -/
theorem halves_below (hpos : 0 < R) (hlow : (2 * significand F32 c - below N (significand F32 c) (lastPlace F32 c) : Nat) ≤ R) :
    (2 * significand F32 c : Nat) - R ≤ 2 * N * 2 ^ (k - lastPlace F32 c) := by
  obtain ⟨hk, hRhigh, -⟩ := hR
  have hplace := onPlace_code hc
  have hlast := lastPlace_code hc
  have hN0 : (1 : ℝ) ≤ N := by exact_mod_cast hN
  have hN2 : (N : ℝ) ≤ 2 := by exact_mod_cast hN'
  have hbelow := below_le N (significand F32 c) (lastPlace F32 c)
  generalize significand F32 c = n at *
  have hdiff : ((2 * n : Nat) : ℝ) - R ≤ (below N n (lastPlace F32 c) : Nat) := by
    rcases Nat.le_total (below N n (lastPlace F32 c)) (2 * n) with h | h
    · rw [Nat.cast_sub h] at hlow
      linarith
    · have : ((2 * n : Nat) : ℝ) ≤ (below N n (lastPlace F32 c) : Nat) := by exact_mod_cast h
      linarith
  have hbelowR : ((below N n (lastPlace F32 c) : Nat) : ℝ) ≤ 2 * N := by exact_mod_cast hbelow
  by_cases hj : 0 ≤ k - lastPlace F32 c
  · have hpow : (2 : ℝ) ^ (0 : Int) ≤ 2 ^ (k - lastPlace F32 c) := zpow_le_zpow_right₀ (by norm_num) hj
    rw [zpow_zero] at hpow
    nlinarith
  · have hpow : (2 : ℝ) ^ (k - lastPlace F32 c + 25) ≤ 2 ^ (24 : Int) := zpow_le_zpow_right₀ (by norm_num) (by omega)
    norm_num at hpow
    have hR24 : R < 16777216 := lt_of_lt_of_le hRhigh hpow
    have hn := hplace.ge (by omega)
    rw [mbits_F32] at hn
    have hcontra (h : 16777216 ≤ 2 * n - below N n (lastPlace F32 c)) : False := by
      have : (16777216 : ℝ) ≤ (2 * n - below N n (lastPlace F32 c) : Nat) := by exact_mod_cast h
      linarith
    by_cases hfar : 8388608 + N ≤ n
    · exact (hcontra (by omega)).elim
    · have hrule : below N n (lastPlace F32 c) = if 2 * n < 16777216 + N then N else 2 * n - 16777216 := by
        rw [below, if_neg (by simp only [Bool.or_eq_true, decide_eq_true_eq, emin_F32, not_or]; omega)]
        rfl
      by_cases hnear : 2 * n < 16777216 + N
      · rw [if_pos hnear] at hrule
        by_cases hj1 : k - lastPlace F32 c = -1
        · rw [hrule] at hdiff
          rw [hj1, zpow_neg_one]
          linarith
        · exfalso
          have hpow' : (2 : ℝ) ^ (k - lastPlace F32 c + 25) ≤ 2 ^ (23 : Int) := zpow_le_zpow_right₀ (by norm_num) (by omega)
          norm_num at hpow'
          have : ((2 * 8388608 : Nat) : ℝ) ≤ (2 * n : Nat) := by exact_mod_cast Nat.mul_le_mul_left 2 hn
          norm_num at this hdiff
          linarith
      · rw [if_neg hnear] at hrule
        exact (hcontra (by omega)).elim

end

/-- A code that meets the model's bound for a number is within `N` of the number's units of it. -/
theorem within_error {N c : Nat} {r u : ℝ} (hN : 1 ≤ N) (hN' : N ≤ 2) (hc : c < 2147483648) (hr : 0 < r) (h : Within N r c) (hu : IsUlp r u) :
    |magnitude c - r| ≤ N * u := by
  obtain ⟨hlow, hhigh⟩ := h
  obtain ⟨k, rfl, hk, hrhigh, hrlow⟩ := hu
  rw [abs_of_pos hr] at hrhigh hrlow
  have hU : (0 : ℝ) < 2 ^ (lastPlace F32 c - 1) := by positivity
  have hscale (j : Int) : (2 : ℝ) ^ (k + j) = 2 ^ (k - lastPlace F32 c + (j + 1)) * 2 ^ (lastPlace F32 c - 1) := by
    rw [← zpow_add₀ (by norm_num)]
    congr 1
    ring
  rw [lowEnd] at hlow
  rw [highEnd] at hhigh
  rw [magnitude_halves]
  obtain ⟨R, rfl⟩ : ∃ R, r = R * 2 ^ (lastPlace F32 c - 1) := ⟨r / 2 ^ (lastPlace F32 c - 1), (div_mul_cancel₀ r hU.ne').symm⟩
  rw [hscale, mul_lt_mul_iff_left₀ hU] at hrhigh
  rw [hscale, mul_le_mul_iff_left₀ hU] at hrlow
  rw [mul_le_mul_iff_left₀ hU] at hlow hhigh
  have hR : InHalves c k R := ⟨hk, hrhigh, hrlow⟩
  have hRpos : 0 < R := pos_of_mul_pos_left hr hU.le
  have hunit : (N : ℝ) * 2 ^ k = 2 * N * 2 ^ (k - lastPlace F32 c) * 2 ^ (lastPlace F32 c - 1) := by
    have := hscale 0
    rw [add_zero, zero_add, zpow_add_one₀ (by norm_num)] at this
    rw [this]
    ring
  rw [← sub_mul, abs_mul, abs_of_pos hU, hunit, mul_le_mul_iff_left₀ hU]
  rcases le_total R (2 * significand F32 c : Nat) with hle | hle
  · rw [abs_of_nonneg (sub_nonneg.mpr hle)]
    exact halves_below hN hN' hc hR hRpos hlow
  · rw [abs_of_nonpos (sub_nonpos.mpr hle), neg_sub]
    exact halves_above hN hN' hc hR hle hhigh

/-! ### The bound rises with the code -/

/-- The next code is one unit on, or begins the next binade. -/
theorem code_succ {c : Nat} (h : c + 1 < 2147483648) :
    lastPlace F32 (c + 1) = lastPlace F32 c ∧ significand F32 (c + 1) = significand F32 c + 1 ∨
      lastPlace F32 (c + 1) = lastPlace F32 c + 1 ∧ significand F32 c = 16777215 ∧ significand F32 (c + 1) = 8388608 := by
  have hc : c < 2147483648 := by omega
  have hcode := codeOf_code hc
  have hcode' := codeOf_code h
  have hlt := significand_lt F32 c
  have hlt' := significand_lt F32 (c + 1)
  have hge := (onPlace_code hc).ge
  have hge' := (onPlace_code h).ge
  have hplace : placeAt c ≤ placeAt (c + 1) := by
    rw [placeAt, placeAt]
    omega
  rw [codeOf, mbits_F32] at hcode hcode'
  rw [mbits_F32] at hlt hlt' hge hge'
  rw [lastPlace_code hc, lastPlace_code h]
  obtain heq | hnext : placeAt (c + 1) = placeAt c ∨ 0 < placeAt (c + 1) ∧ placeAt c + 1 ≤ placeAt (c + 1) := by omega
  · rw [heq] at hcode' ⊢
    exact .inl ⟨rfl, by omega⟩
  · have := hge' hnext.1
    refine .inr ?_
    omega

section
variable {N : Nat} (hN : 1 ≤ N) (hN' : N ≤ 2)
include hN hN'

omit hN hN' in
theorem highEnd_succ {c : Nat} (h : c + 1 < 2147483648) : highEnd N c ≤ highEnd N (c + 1) := by
  rw [highEnd, highEnd]
  rcases code_succ h with ⟨hlast, hsig⟩ | ⟨hlast, hsig, hsig'⟩
  · rw [hlast, hsig]
    refine mul_le_mul_of_nonneg_right ?_ (by positivity)
    have : 2 * significand F32 c + above N (significand F32 c) ≤ 2 * (significand F32 c + 1) + above N (significand F32 c + 1) := by
      unfold above
      split <;> split <;> omega
    exact_mod_cast this
  · rw [hlast, hsig, hsig', show lastPlace F32 c + 1 - 1 = lastPlace F32 c - 1 + 1 by ring, zpow_add_one₀ (by norm_num), mul_comm ((2 : ℝ) ^ _), ← mul_assoc]
    refine mul_le_mul_of_nonneg_right ?_ (by positivity)
    have : 2 * 16777215 + above N 16777215 ≤ (2 * 8388608 + above N 8388608) * 2 := by
      unfold above
      split <;> split <;> omega
    exact_mod_cast this

theorem below_succ_le (n : Nat) (d : Int) : below N (n + 1) d ≤ below N n d + 2 := by
  simp only [below, Bool.or_eq_true, decide_eq_true_eq, emin_F32]
  by_cases hfar : d ≤ -149 ∨ 2 ^ 23 + N ≤ n
  · rw [if_pos hfar, if_pos (by omega)]
    omega
  · rw [if_neg hfar]
    split
    · split <;> omega
    · split <;> split <;> omega

theorem lowEnd_succ {c : Nat} (h : c + 1 < 2147483648) : lowEnd N c ≤ lowEnd N (c + 1) := by
  have hlow := lastPlace_code (show c < 2147483648 by omega)
  rw [lowEnd, lowEnd]
  rcases code_succ h with ⟨hlast, hsig⟩ | ⟨hlast, hsig, hsig'⟩
  · rw [hlast, hsig]
    refine mul_le_mul_of_nonneg_right ?_ (by positivity)
    have : 2 * significand F32 c - below N (significand F32 c) (lastPlace F32 c) ≤
        2 * (significand F32 c + 1) - below N (significand F32 c + 1) (lastPlace F32 c) := by
      have := below_succ_le hN hN' (significand F32 c) (lastPlace F32 c)
      omega
    exact_mod_cast this
  · rw [hlast, hsig, hsig', show lastPlace F32 c + 1 - 1 = lastPlace F32 c - 1 + 1 by ring, zpow_add_one₀ (by norm_num), mul_comm ((2 : ℝ) ^ _), ← mul_assoc]
    refine mul_le_mul_of_nonneg_right ?_ (by positivity)
    have : 2 * 16777215 - below N 16777215 (lastPlace F32 c) ≤ (2 * 8388608 - below N 8388608 (lastPlace F32 c + 1)) * 2 := by
      simp only [below, Bool.or_eq_true, decide_eq_true_eq, emin_F32]
      rw [if_pos (by omega), if_neg (by omega), if_pos (by omega)]
      omega
    exact_mod_cast this

omit hN hN' in
theorem highEnd_mono {c c' : Nat} (hle : c ≤ c') (h : c' < 2147483648) : highEnd N c ≤ highEnd N c' := by
  induction c', hle using Nat.le_induction with
  | base => exact le_rfl
  | succ b hab ih => exact (ih (by omega)).trans (highEnd_succ h)

theorem lowEnd_mono {c c' : Nat} (hle : c ≤ c') (h : c' < 2147483648) : lowEnd N c ≤ lowEnd N c' := by
  induction c', hle using Nat.le_induction with
  | base => exact le_rfl
  | succ b hab ih => exact (ih (by omega)).trans (lowEnd_succ hN hN' h)

/-- Codes that stand out of order meet each other's bounds. -/
theorem within_shared {c c' : Nat} {r r' : ℝ} (hr : r ≤ r') (hc : Within N r c) (hc' : Within N r' c') (hle : c' ≤ c) (hlt : c < 2147483648) :
    Within N r' c ∧ Within N r c' :=
  ⟨⟨hc.1.trans hr, hc'.2.trans (highEnd_mono hle hlt)⟩, (lowEnd_mono hN hN' hle hlt).trans hc.1, hr.trans hc'.2⟩

end

end Sys2Proof.Proofs
end

