-- ==== Sys2Proof/Proofs/Roots.lean ====
section
/-! `RCP` and `SQRT` are correctly rounded, and `RSQ` is within a unit (R59, R109, Table 5.9). -/

namespace Sys2Proof.Proofs

open Sys2Proof.Machine Sys2Proof.Says Sys2Proof.Laws

/-- A number has a sign and a magnitude; a positive one is not negative. -/
theorem neg_eq_false_of_pos {neg : Bool} {V : ℝ} (hV : 0 ≤ V) (h : 0 < signOf neg * V) : neg = false := by
  cases neg with
  | false => rfl
  | true =>
    simp only [signOf, if_true] at h
    linarith

theorem signOf_false_mul (V : ℝ) : signOf false * V = V := by simp [signOf]

theorem isValue_of_le {c : Nat} (hc : c ≤ 2139095039) : IsValue F32 c (magnitude c) := by
  have h := isValue_signed hc false
  rwa [signed_false, signOf_false_mul] at h

/-- A positive operand is not flushed, and its word is a code below the sign bit. -/
theorem positive_operand {ftz : Bool} {w : Word} {x : ℝ} (h : IsOperand F32 ftz w.toNat x) (hx : 0 < x) :
    w.toNat ≤ 2139095039 ∧ w.toNat ≠ 0 ∧ x = magnitude w.toNat ∧
      F32.readFtz ftz w.toNat = .fin false (significand F32 w.toNat) (lastPlace F32 w.toNat) := by
  obtain ⟨neg, k, hk, hw, ⟨rfl, -⟩ | ⟨h0, rfl, hread⟩⟩ := operand_code h
  · exact hx.false.elim
  · obtain rfl := neg_eq_false_of_pos (magnitude_nonneg k) hx
    rw [signed_false] at hw
    rw [hw, signOf_false_mul, ← hw]
    exact ⟨hw ▸ hk, hw ▸ h0, by rw [hw], by rw [hread, hw]⟩

/-! ### The functions at a number that is not zero -/

section
variable {ftz neg : Bool} {w : Word} {m : Nat} {e : Int}

theorem sfuRcp_fin (h : F32.readFtz ftz w.toNat = .fin neg m e) (hm : m ≠ 0) :
    sfuRcp ftz w = word32 ((rcpFin ftz neg m e).1, sfuFlags (rcpFin ftz neg m e).2) := by
  obtain ⟨m, rfl⟩ := Nat.exists_eq_succ_of_ne_zero hm
  rw [sfuRcp, h]
  rfl

theorem sfuSqrt_fin (h : F32.readFtz ftz w.toNat = .fin false m e) (hm : m ≠ 0) :
    sfuSqrt ftz w = word32 ((sqrtFin ftz m e).1, sfuFlags (sqrtFin ftz m e).2) := by
  obtain ⟨m, rfl⟩ := Nat.exists_eq_succ_of_ne_zero hm
  rw [sfuSqrt, h]
  rfl

theorem sfuRsq_fin (h : F32.readFtz ftz w.toNat = .fin false m e) (hm : m ≠ 0) :
    sfuRsq ftz w = word32 (chosen 1 (F32.signBit - w.toNat) (rsqOk m e), 0) := by
  obtain ⟨m, rfl⟩ := Nat.exists_eq_succ_of_ne_zero hm
  rw [sfuRsq, h]
  rfl

end

/-! ### Reciprocals -/

/-- The whole part of 2^k / m. -/
theorem truncates_quotient (k : Nat) {m : Nat} (hm : m ≠ 0) : Truncates (2 ^ k / m) (2 ^ k % m != 0) (2 ^ k / m : ℝ) := by
  have hmpos : (0 : ℝ) < m := by exact_mod_cast Nat.pos_of_ne_zero hm
  have hparts : ((m * (2 ^ k / m) + 2 ^ k % m : Nat) : ℝ) = (2 ^ k : Nat) := congrArg _ (Nat.div_add_mod _ _)
  have hrem : ((2 ^ k % m : Nat) : ℝ) < m := by exact_mod_cast Nat.mod_lt _ (Nat.pos_of_ne_zero hm)
  have hrem0 : (0 : ℝ) ≤ (2 ^ k % m : Nat) := Nat.cast_nonneg _
  push_cast at hparts
  refine ⟨?_, ?_, ?_⟩
  · rw [le_div_iff₀ hmpos]
    linarith
  · rw [div_lt_iff₀ hmpos]
    linarith
  · rw [bne_iff_ne, ne_eq, ne_eq, not_iff_not, div_eq_iff hmpos.ne', ← hparts, ← Nat.cast_eq_zero (R := ℝ)]
    exact ⟨fun h => by rw [h]; ring, fun h => by linarith⟩

theorem rcpFin_roundsTo (ftz neg : Bool) {m : Nat} (hm : m ≠ 0) (e : Int) : RoundsTo F32 0 ftz (1 / (signOf neg * (m * 2 ^ e))) (rcpFin ftz neg m e) := by
  have hbig : 2 ^ (F32.mbits + 1) ≤ 2 ^ (Nat.log2 m + 40) / m := by
    rw [Nat.le_div_iff_mul_le (Nat.pos_of_ne_zero hm)]
    calc 2 ^ (F32.mbits + 1) * m ≤ 2 ^ (F32.mbits + 1) * 2 ^ (Nat.log2 m + 1) := Nat.mul_le_mul_left _ Nat.lt_log2_self.le
      _ = 2 ^ (F32.mbits + 1 + (Nat.log2 m + 1)) := (Nat.pow_add _ _ _).symm
      _ ≤ 2 ^ (Nat.log2 m + 40) := Nat.pow_le_pow_right (by decide) (by have : F32.mbits = 23 := rfl; omega)
  have hvalue : 1 / (signOf neg * ((m : ℝ) * 2 ^ e)) =
      signOf neg * ((2 ^ (Nat.log2 m + 40) / m : ℝ) * 2 ^ (-((Nat.log2 m + 40 : Nat) : Int) - e)) := by
    have hsign : 1 / signOf neg = signOf neg := by cases neg <;> simp [signOf]
    rw [← one_div_mul_one_div, hsign, zpow_sub₀ (by norm_num), zpow_neg, zpow_natCast]
    field_simp
  rw [hvalue]
  exact round_truncated roomy_F32 0 ftz neg (truncates_quotient _ hm) hbig _

/-! ### Square roots -/

/-- Bit by bit the model finds the root. -/
theorem isqrt_eq (n v r : Nat) (hlow : r * r ≤ v) (hhigh : v < (r + 2 ^ n) * (r + 2 ^ n)) : isqrt n v r = Nat.sqrt v := by
  induction n generalizing r with
  | zero => exact Nat.eq_sqrt.mpr ⟨hlow, hhigh⟩
  | succ n ih =>
    rw [isqrt]
    split
    · next h =>
      refine ih _ h ?_
      rw [Nat.add_assoc, ← Nat.two_mul, ← Nat.pow_succ']
      exact hhigh
    · next h => exact ih _ hlow (Nat.not_le.mp h)

/-- The whole part of a root. -/
theorem truncates_sqrt (v : Nat) : Truncates (Nat.sqrt v) (Nat.sqrt v * Nat.sqrt v != v) (Real.sqrt v) := by
  have hsq : Real.sqrt v * Real.sqrt v = v := Real.mul_self_sqrt (Nat.cast_nonneg v)
  refine ⟨Real.nat_sqrt_le_real_sqrt, Real.real_sqrt_lt_nat_sqrt_succ, ?_⟩
  rw [bne_iff_ne, ne_eq, ne_eq, not_iff_not, Real.sqrt_eq_iff_mul_self_eq (Nat.cast_nonneg _) (Nat.cast_nonneg _)]
  constructor
  · exact fun h => by exact_mod_cast h.symm
  · exact fun h => by exact_mod_cast h.symm

/-- The model's even exponent: √(m · 2^e) is √(m · 2^p) · 2^((e − p) / 2). -/
theorem sqrt_scaled (m : Nat) (e : Int) {p : Nat} (hp : (e - p) % 2 = 0) :
    Real.sqrt (m * 2 ^ e) = Real.sqrt (m * 2 ^ p : Nat) * 2 ^ ((e - p) / 2) := by
  have hsplit : (m : ℝ) * 2 ^ e = (m * 2 ^ p : Nat) * (2 ^ ((e - p) / 2) * 2 ^ ((e - p) / 2)) := by
    push_cast
    rw [← zpow_natCast, mul_assoc, ← zpow_add₀ (by norm_num), ← zpow_add₀ (by norm_num)]
    congr 2
    omega
  rw [hsplit, Real.sqrt_mul (Nat.cast_nonneg _), Real.sqrt_mul_self (by positivity)]

theorem sqrtFin_roundsTo (ftz : Bool) {m : Nat} (hm : m ≠ 0) (hlt : m < 2 ^ 24) (e : Int) : RoundsTo F32 0 ftz (Real.sqrt (m * 2 ^ e)) (sqrtFin ftz m e) := by
  obtain ⟨p, hp, heven, hlow, hhigh⟩ : ∃ p : Nat, (if e % 2 == 0 then 60 else 61) = p ∧ (e - p) % 2 = 0 ∧ 60 ≤ p ∧ p ≤ 61 := by
    by_cases h : e % 2 = 0
    · exact ⟨60, by rw [h]; rfl, by omega, by decide, by decide⟩
    · exact ⟨61, if_neg (by simpa using h), by omega, by decide, by decide⟩
  have hv : 2 ^ 60 ≤ m * 2 ^ p := by
    calc 2 ^ 60 ≤ 1 * 2 ^ p := by rw [Nat.one_mul]; exact Nat.pow_le_pow_right (by decide) hlow
      _ ≤ m * 2 ^ p := Nat.mul_le_mul_right _ (Nat.pos_of_ne_zero hm)
  have hv' : m * 2 ^ p < 2 ^ 64 * 2 ^ 64 := by
    calc m * 2 ^ p ≤ 2 ^ 24 * 2 ^ 61 := Nat.mul_le_mul hlt.le (Nat.pow_le_pow_right (by decide) hhigh)
      _ < 2 ^ 64 * 2 ^ 64 := by decide
  have hroot : isqrt 64 (m * 2 ^ p) 0 = Nat.sqrt (m * 2 ^ p) := isqrt_eq 64 _ 0 (Nat.zero_le _) (by rwa [Nat.zero_add])
  have hbig : 2 ^ (F32.mbits + 1) ≤ Nat.sqrt (m * 2 ^ p) := Nat.le_sqrt.mpr (le_trans (by decide) hv)
  have h := round_truncated roomy_F32 0 ftz false (truncates_sqrt (m * 2 ^ p)) hbig ((e - p) / 2)
  rw [signOf_false_mul, ← sqrt_scaled m e heven] at h
  unfold sqrtFin
  rw [hp]
  dsimp only
  rw [hroot]
  exact h

/-! ### RSQ -/

/-- Numbers compared in the model's whole units. -/
theorem mul_two_pow_le_iff (a b : Nat) (z : Int) : a * 2 ^ z.toNat ≤ b * 2 ^ (-z).toNat ↔ (a : ℝ) * 2 ^ z ≤ b := by
  rw [← Nat.cast_le (α := ℝ)]
  push_cast
  rcases le_total 0 z with h | h
  · rw [Int.toNat_of_nonpos (show -z ≤ 0 by omega), pow_zero, mul_one, ← zpow_natCast, Int.toNat_of_nonneg h]
  · have hpos : (0 : ℝ) < 2 ^ z := by positivity
    have hinv : (b : ℝ) = b * 2 ^ (-z) * 2 ^ z := by rw [mul_assoc, ← zpow_add₀ (by norm_num), neg_add_cancel, zpow_zero, mul_one]
    rw [Int.toNat_of_nonpos h, pow_zero, mul_one, ← zpow_natCast, Int.toNat_of_nonneg (show 0 ≤ -z by omega)]
    conv_rhs => rw [hinv, mul_le_mul_iff_left₀ hpos]

theorem le_mul_two_pow_iff (a b : Nat) (z : Int) : b * 2 ^ (-z).toNat ≤ a * 2 ^ z.toNat ↔ (b : ℝ) ≤ a * 2 ^ z := by
  have h := mul_two_pow_le_iff b a (-z)
  rw [neg_neg] at h
  rw [h, zpow_neg, ← div_eq_mul_inv, div_le_iff₀ (by positivity)]

/-- A number compared with 1/√x by its square. -/
theorem le_one_div_sqrt_iff {a x : ℝ} (ha : 0 ≤ a) (hx : 0 < x) : a ≤ 1 / Real.sqrt x ↔ a * a * x ≤ 1 := by
  have hroot := Real.sqrt_pos.mpr hx
  rw [le_div_iff₀ hroot, ← sq_le_one_iff₀ (by positivity), mul_pow, Real.sq_sqrt hx.le, sq]

theorem one_div_sqrt_le_iff {a x : ℝ} (ha : 0 ≤ a) (hx : 0 < x) : 1 / Real.sqrt x ≤ a ↔ 1 ≤ a * a * x := by
  have hroot := Real.sqrt_pos.mpr hx
  rw [div_le_iff₀ hroot, ← one_le_sq_iff₀ (by positivity), mul_pow, Real.sq_sqrt hx.le, sq]

/-- The square of a number in half units. -/
theorem sq_halves (a m : Nat) (d e : Int) : (a : ℝ) * 2 ^ (d - 1) * (a * 2 ^ (d - 1)) * (m * 2 ^ e) = (a * a * m : Nat) * 2 ^ (d + d + e - 2) := by
  rw [show d + d + e - 2 = (d - 1) + (d - 1) + e by ring, zpow_add₀ (by norm_num), zpow_add₀ (by norm_num)]
  push_cast
  ring

/-- The model's test of a result of `RSQ`. -/
theorem rsqOk_iff {m : Nat} (hm : m ≠ 0) (e : Int) {c : Nat} (hc : c < 4294967296) :
    rsqOk m e c = true ↔ c ≤ 2139095039 ∧ c ≠ 0 ∧ Within 1 (1 / Real.sqrt (m * 2 ^ e)) c := by
  have hx : (0 : ℝ) < m * 2 ^ e := by
    have : (0 : ℝ) < m := by exact_mod_cast Nat.pos_of_ne_zero hm
    positivity
  have hfits {c : Nat} (hc : c ≤ 2139095039) : rsqOk m e c = true ↔ c ≠ 0 ∧ Within 1 (1 / Real.sqrt (m * 2 ^ e)) c := by
    have hread := read_code hc
    have hzero : significand F32 c ≠ 0 ↔ c ≠ 0 := by
      refine ⟨fun h h0 => h (by rw [h0]; rfl), fun h => significand_ne_zero h (by omega)⟩
    have hone (b : Nat) (z : Int) : b * 2 ^ z.toNat ≤ 2 ^ (-z).toNat ↔ (b : ℝ) * 2 ^ z ≤ 1 := by
      have := mul_two_pow_le_iff b 1 z
      rwa [Nat.one_mul, Nat.cast_one] at this
    have hone' (b : Nat) (z : Int) : 2 ^ (-z).toNat ≤ b * 2 ^ z.toNat ↔ 1 ≤ (b : ℝ) * 2 ^ z := by
      have := le_mul_two_pow_iff b 1 z
      rwa [Nat.one_mul, Nat.cast_one] at this
    unfold rsqOk
    rw [hread]
    simp only [Bool.and_eq_true, decide_eq_true_eq, bne_iff_ne]
    rw [hzero, hone, hone', ← sq_halves, ← sq_halves, Within, and_assoc, le_one_div_sqrt_iff (lowEnd_nonneg 1 c) hx,
      one_div_sqrt_le_iff (by rw [highEnd]; positivity) hx]
    rfl
  constructor
  · intro h
    have hle : c ≤ 2139095039 := by
      unfold rsqOk at h
      split at h
      · next hread => exact le_of_read hc hread
      · cases h
    exact ⟨hle, (hfits hle).mp h⟩
  · exact fun ⟨hle, h⟩ => (hfits hle).mpr h

/-- The roots of the operands lie inside the range of the format. -/
theorem one_div_sqrt_bounds {k : Nat} (h0 : k ≠ 0) (hk : k ≤ 2139095039) :
    (2 : ℝ) ^ (-149 : Int) ≤ 1 / Real.sqrt (magnitude k) ∧ 1 / Real.sqrt (magnitude k) < 2 ^ (128 : Int) := by
  have hpos := magnitude_pos h0 (by omega)
  obtain ⟨hleast, hgreatest⟩ := magnitude_bounds h0 hk
  rw [le_one_div_sqrt_iff (by positivity) hpos, ← not_le, le_one_div_sqrt_iff (by positivity) hpos, not_le]
  constructor
  · calc (2 : ℝ) ^ (-149 : Int) * 2 ^ (-149 : Int) * magnitude k ≤ 2 ^ (-149 : Int) * 2 ^ (-149 : Int) * 2 ^ (128 : Int) :=
        mul_le_mul_of_nonneg_left hgreatest.le (by positivity)
      _ ≤ 1 := by norm_num
  · calc (1 : ℝ) < 2 ^ (128 : Int) * 2 ^ (128 : Int) * 2 ^ (-149 : Int) := by norm_num
      _ ≤ 2 ^ (128 : Int) * 2 ^ (128 : Int) * magnitude k := mul_le_mul_of_nonneg_left hleast (by positivity)

theorem rsqOk_admits {k : Nat} (h0 : k ≠ 0) (hk : k ≤ 2139095039) : Admits (rsqOk (significand F32 k) (lastPlace F32 k)) := by
  obtain ⟨hleast, hlt⟩ := one_div_sqrt_bounds h0 hk
  obtain ⟨c, hc, hlow, hhigh⟩ := exists_code_le (le_trans (by positivity) hleast) hlt
  refine ⟨c, by omega, (rsqOk_iff (significand_ne_zero h0 (by omega)) _ (by omega)).mpr ⟨hc, ?_, within_of_floor le_rfl hlow hhigh⟩⟩
  rintro rfl
  rw [← magnitude_succ (by decide)] at hhigh
  exact absurd (magnitude_one ▸ hleast) (not_le.mpr hhigh)

theorem claims_rootsAndReciprocals : Claims.RootsAndReciprocals := by
  intro ftz w x h hx
  refine ⟨?_, fun hpos => ?_, fun hpos => ?_⟩
  · obtain ⟨neg, k, hk, hw, ⟨rfl, -⟩ | ⟨h0, rfl, hread⟩⟩ := operand_code h
    · exact absurd rfl hx
    · have hm := significand_ne_zero h0 (by omega)
      exact ⟨_, rcpFin_roundsTo ftz neg hm _, sfuRcp_fin hread hm⟩
  · obtain ⟨hk, h0, rfl, hread⟩ := positive_operand h hpos
    have hm := significand_ne_zero h0 (by omega)
    exact ⟨_, sqrtFin_roundsTo ftz hm (significand_lt F32 _) _, sfuSqrt_fin hread hm⟩
  · obtain ⟨hk, h0, rfl, hread⟩ := positive_operand h hpos
    have hm := significand_ne_zero h0 (by omega)
    obtain ⟨hlt, hok⟩ := chosen_ok (rsqOk_admits h0 hk) 1 (F32.signBit - w.toNat)
    obtain ⟨hc, -, hwithin⟩ := (rsqOk_iff hm _ hlt).mp hok
    rw [sfuRsq_fin hread hm, word32_toNat hlt]
    have hpositive : 0 < 1 / Real.sqrt (magnitude w.toNat) := lt_of_lt_of_le (by positivity) (one_div_sqrt_bounds h0 hk).1
    refine ⟨rfl, _, isValue_of_le hc, fun u hu => ?_⟩
    have := within_error le_rfl (by decide) (by omega) hpositive hwithin hu
    rwa [Nat.cast_one, one_mul] at this

end Sys2Proof.Proofs
end

