-- ==== Sys2Proof/Proofs/ExactFunctions.lean ====
section
/-! Where `EXP2`, `LOG2` and `TANH` are exact or constant (R109, R110, Tables 5.9 and 5.10). -/

namespace Sys2Proof.Proofs

open Sys2Proof.Machine Sys2Proof.Says Sys2Proof.Laws

/-! ### The codes of whole numbers and powers of two -/

theorem isMax_F32 {m : ℝ} (h : Says.IsMax F32 m) : m = magnitude 2139095039 := by
  have hmax : maxOf F32 false = 2139095039 := by decide
  unfold Says.IsMax at h
  rw [hmax] at h
  exact isValue_unique h (isValue_of_le le_rfl)

/-- Rounding a number that the format holds gives its code. -/
theorem round_magnitude (neg : Bool) {m k : Nat} {e : Int} (hm : m ≠ 0) (hk : k ≤ 2139095039) (h : magnitude k = m * 2 ^ e) :
    (F32.round 0 false neg m e false).1 = F32.signed neg k := by
  obtain ⟨-, hround⟩ := round_roundsTo roomy_F32 0 false neg hm e
  rw [← h] at hround
  have hpos : 0 < magnitude k := by
    rw [h]
    have : (0 : ℝ) < m := by exact_mod_cast Nat.pos_of_ne_zero hm
    positivity
  have hfits : ¬ Overflows F32 0 (signOf neg * magnitude k) := by
    rintro ⟨M, u, hM, hu, hover⟩
    rw [isMax_F32 hM, (isTopUnit_iff roomy_F32).mp hu] at hover
    have hle := (magnitude_le_iff (show k < 2147483648 by omega) (by decide)).mpr hk
    have hunit : (0 : ℝ) < 2 ^ (F32.emin + (topExp F32 : Int)) := by positivity
    have hover : if maxOf F32 false % 2 = 1 then magnitude 2139095039 + 2 ^ (F32.emin + (topExp F32 : Int)) / 2 ≤ |signOf neg * magnitude k|
        else magnitude 2139095039 + 2 ^ (F32.emin + (topExp F32 : Int)) / 2 < |signOf neg * magnitude k| := hover
    rw [abs_signOf_mul, abs_of_pos hpos] at hover
    split at hover <;> linarith
  obtain ⟨c, ⟨hc, hsign, w, hw, hnear⟩, -, hcode⟩ := hround hfits
  obtain ⟨hle, -⟩ := hnear _ _ (isValue_signed hk neg)
  rw [sub_self, abs_zero] at hle
  obtain rfl : w = signOf neg * magnitude k := (sub_eq_zero.mp (abs_eq_zero.mp (le_antisymm hle (abs_nonneg _)))).symm
  rw [(hcode (by simp)).1]
  have hc' : c < 4294967296 := by
    have h2 : 2 * 2 ^ (F32.ebits + F32.mbits) = 4294967296 := by decide
    omega
  obtain ⟨s, j, hj, rfl, hvalue⟩ := isValue_code hc' hw
  rw [(signed_code (by omega) s).1, signOf_lt_zero hpos] at hsign
  subst hsign
  have hmag : magnitude k = magnitude j := mul_left_cancel₀ (signOf_ne_zero s) hvalue
  rw [le_antisymm ((magnitude_le_iff (by omega) (by omega)).mp hmag.ge) ((magnitude_le_iff (by omega) (by omega)).mp hmag.le)]

/-- Stated of the function, so that no check of it evaluates a rounding. -/
theorem powCode_eq_fun : powCode = fun k => (F32.round 0 false false 1 k false).1 := rfl

/-- The code of a power of two. -/
theorem powCode_spec {k : Int} (hlow : -149 ≤ k) (hhigh : k ≤ 127) : powCode k ≤ 2139095039 ∧ magnitude (powCode k) = 2 ^ k := by
  have hlt : ((1 : Nat) : ℝ) * 2 ^ k < 2 ^ (128 : Int) := by
    rw [Nat.cast_one, one_mul]
    exact zpow_lt_zpow_right₀ (by norm_num) (by omega)
  obtain ⟨c, hc, hmag⟩ := exists_code_eq (by decide) hlow hlt
  have hcode : powCode k = c := by
    rw [powCode_eq_fun]
    beta_reduce
    rw [round_magnitude false (by decide) hc hmag, signed_false]
  rw [hcode, hmag, Nat.cast_one, one_mul]
  exact ⟨hc, rfl⟩

/-- The code of a whole number. -/
theorem intCode_spec {v : Int} (h : v.natAbs < 16777216) :
    ∃ k, k ≤ 2139095039 ∧ intCode v = F32.signed (decide (v < 0)) k ∧ magnitude k = v.natAbs := by
  by_cases h0 : v = 0
  · subst h0
    exact ⟨0, by decide, rfl, by rw [magnitude_zero, Int.natAbs_zero, Nat.cast_zero]⟩
  · have hlt : (v.natAbs : ℝ) * 2 ^ (0 : Int) < 2 ^ (128 : Int) := by
      have : (v.natAbs : ℝ) < 16777216 := by exact_mod_cast h
      rw [zpow_zero, mul_one]
      exact this.trans (by norm_num)
    obtain ⟨k, hk, hmag⟩ := exists_code_eq h (by decide) hlt
    refine ⟨k, hk, round_magnitude _ (by omega) hk hmag, ?_⟩
    rw [hmag, zpow_zero, mul_one]

/-- It is the number. -/
theorem isValue_intCode {v : Int} (h : v.natAbs < 16777216) : IsValue F32 (intCode v) v ∧ intCode v < 4294967296 := by
  obtain ⟨k, hk, hcode, hmag⟩ := intCode_spec h
  have hvalue := isValue_signed hk (decide (v < 0))
  rw [hmag, signOf_natAbs, ← hcode] at hvalue
  exact ⟨hvalue, hcode ▸ signed_lt (by omega) _⟩

/-! ### The functions at a number that is not zero -/

section
variable {ftz neg : Bool} {w : Word} {m : Nat} {e : Int}

theorem sfuExp2_fin (h : F32.readFtz ftz w.toNat = .fin neg m e) (hm : m ≠ 0) : sfuExp2 ftz w =
    if !neg && 128 ≤ (toIntRound 1 neg m e).1 then word32 (F32.top, fOF)
    else if neg && ((toIntRound 1 neg m e).1 < -150 || ((toIntRound 1 neg m e).1 == -150 && (toIntRound 1 neg m e).2)) then word32 (F32.zero false, 0)
    else if !(toIntRound 1 neg m e).2 && -149 ≤ (toIntRound 1 neg m e).1 then word32 (sfuFlush ftz (powCode (toIntRound 1 neg m e).1), 0)
    else word32 (sfuFlush ftz (chosen 3 (f32Place w.toNat) (exp2Ok neg m e)), 0) := by
  obtain ⟨m, rfl⟩ := Nat.exists_eq_succ_of_ne_zero hm
  rw [sfuExp2, h]
  rfl

theorem sfuLog2_fin (h : F32.readFtz ftz w.toNat = .fin false m e) (hm : m ≠ 0) : sfuLog2 ftz w =
    if m == 2 ^ Nat.log2 m then word32 (intCode (topOf m e), 0) else word32 (sfuFlush ftz (chosen 4 w.toNat (log2Ok m e)), 0) := by
  obtain ⟨m, rfl⟩ := Nat.exists_eq_succ_of_ne_zero hm
  rw [sfuLog2, h]
  rfl

theorem sfuTanh_fin (h : F32.readFtz ftz w.toNat = .fin neg m e) (hm : m ≠ 0) : sfuTanh ftz w =
    if 10 ≤ (toIntRound 1 false m e).1 then word32 (F32.signed neg (intCode 1), 0)
    else word32 (sfuFlush ftz (F32.signed neg (chosen 5 (w.toNat % F32.signBit) (tanhOk m e))), 0) := by
  obtain ⟨m, rfl⟩ := Nat.exists_eq_succ_of_ne_zero hm
  rw [sfuTanh, h]
  rfl

theorem sfuExp2_zero (h : F32.readFtz ftz w.toNat = .fin neg 0 e) : sfuExp2 ftz w = word32 (intCode 1, 0) := by
  rw [sfuExp2, h]
  rfl

theorem sfuTanh_zero (h : F32.readFtz ftz w.toNat = .fin neg 0 e) : sfuTanh ftz w = word32 (F32.zero neg, 0) := by
  rw [sfuTanh, h]
  rfl

end

/-- A number cut to a whole one toward zero. -/
theorem toIntRound_cut (neg : Bool) (m : Nat) (e : Int) :
    let x : ℝ := signOf neg * (m * 2 ^ e)
    (toIntRound 1 neg m e).1 = (if 0 ≤ x then ⌊x⌋ else ⌈x⌉) ∧ ((toIntRound 1 neg m e).2 = true ↔ x ≠ (toIntRound 1 neg m e).1) := by
  intro x
  have h : RoundsToInt 1 x (if 0 ≤ x then ⌊x⌋ else ⌈x⌉) := rfl
  obtain ⟨hint, hinexact⟩ := toIntRound_eq h
  exact ⟨hint, by rw [hint]; exact hinexact⟩

/-! ### EXP2 -/

/-- `EXP2` on the parts of its range. -/
theorem sfuExp2_ranges {ftz neg : Bool} {w : Word} {m : Nat} {e : Int} (h : F32.readFtz ftz w.toNat = .fin neg m e) (hm : m ≠ 0) {x : ℝ}
    (hx : x = signOf neg * (m * 2 ^ e)) :
    (128 ≤ x → sfuExp2 ftz w = word32 (F32.top, fOF)) ∧ (x < -150 → sfuExp2 ftz w = word32 (F32.zero false, 0)) ∧
    (x < 128 → ∀ n : Int, x = n → -149 ≤ n → sfuExp2 ftz w = word32 (sfuFlush ftz (powCode n), 0)) ∧
    (-150 ≤ x → x < 128 → (¬ ∃ n : Int, x = n ∧ -149 ≤ n) →
      sfuExp2 ftz w = word32 (sfuFlush ftz (chosen 3 (f32Place w.toNat) (exp2Ok neg m e)), 0)) := by
  rw [sfuExp2_fin h hm]
  obtain ⟨hcut, hinexact⟩ := toIntRound_cut neg m e
  rw [← hx] at hcut hinexact
  generalize toIntRound 1 neg m e = r at hcut hinexact
  obtain ⟨i, inexact⟩ := r
  dsimp only at hcut hinexact ⊢
  have hV : (0 : ℝ) < m * 2 ^ e := by
    have : (0 : ℝ) < m := by exact_mod_cast Nat.pos_of_ne_zero hm
    positivity
  cases neg with
  | false =>
    rw [signOf_false_mul] at hx
    rw [if_pos (by linarith)] at hcut
    have hi : (i : ℝ) ≤ x := hcut ▸ Int.floor_le x
    have hi' : x < i + 1 := hcut ▸ Int.lt_floor_add_one x
    have h128 : 128 ≤ i ↔ 128 ≤ x := by
      rw [hcut, Int.le_floor]
      norm_num
    have h0 : 0 ≤ i := by
      rw [hcut, Int.floor_nonneg]
      linarith
    simp only [Bool.not_false, Bool.true_and, Bool.false_and, Bool.false_eq_true, if_false, decide_eq_true_eq]
    refine ⟨fun hbig => if_pos (h128.mpr hbig), fun hneg => by linarith, fun hlt n hn _ => ?_, fun _ hlt hno => ?_⟩
    · have hin : i = n := by rw [hcut, hn, Int.floor_intCast]
      have hexact : inexact = false := by rw [← Bool.not_eq_true, hinexact, hin, hn, not_not]
      rw [if_neg (mt h128.mp (not_le.mpr hlt)), hexact, if_pos (by simp; omega), hin]
    · rw [if_neg (mt h128.mp (not_le.mpr hlt)), if_neg]
      intro hexact
      obtain ⟨hfalse, -⟩ : inexact = false ∧ -149 ≤ i := by simpa using hexact
      rw [hfalse] at hinexact
      exact hno ⟨i, by simpa using hinexact, by omega⟩
  | true =>
    have hxneg : x < 0 := by
      rw [hx]
      simp only [signOf, if_true]
      linarith
    rw [if_neg (not_le.mpr hxneg)] at hcut
    have hi : x ≤ i := hcut ▸ Int.le_ceil x
    have hi' : (i : ℝ) < x + 1 := hcut ▸ Int.ceil_lt_add_one x
    have hlow : (i < -150 ∨ i = -150 ∧ inexact = true) ↔ x < -150 := by
      constructor
      · rintro (hlt | ⟨rfl, hne⟩)
        · have : (i : ℝ) < (-150 : Int) := by exact_mod_cast hlt
          push_cast at this
          linarith
        · push_cast at hi hinexact
          exact lt_of_le_of_ne hi (hinexact.mp hne)
      · intro hlt
        have hle : i ≤ -150 := by
          rw [hcut, Int.ceil_le]
          push_cast
          exact hlt.le
        rcases hle.lt_or_eq with h | h
        · exact .inl h
        · refine .inr ⟨h, hinexact.mpr ?_⟩
          rw [h]
          push_cast
          exact hlt.ne
    simp only [Bool.not_true, Bool.false_and, Bool.true_and, Bool.false_eq_true, if_false, Bool.or_eq_true, Bool.and_eq_true, decide_eq_true_eq,
      beq_iff_eq, Bool.not_eq_true']
    refine ⟨fun hbig => by linarith, fun hlt => if_pos (hlow.mpr hlt), fun _ n hn hn' => ?_, fun hge _ hno => ?_⟩
    · have hin : i = n := by rw [hcut, hn, Int.ceil_intCast]
      have hexact : inexact = false := by rw [← Bool.not_eq_true, hinexact, hin, hn, not_not]
      have hge : ¬ x < -150 := by
        have : ((-149 : Int) : ℝ) ≤ n := by exact_mod_cast hn'
        push_cast at this
        rw [hn]
        linarith
      rw [if_neg (mt hlow.mp hge), if_pos ⟨hexact, by omega⟩, hin]
    · rw [if_neg (mt hlow.mp (not_lt.mpr hge)), if_neg]
      rintro ⟨hfalse, hi149⟩
      rw [hfalse] at hinexact
      exact hno ⟨i, by simpa using hinexact, hi149⟩

theorem word32_flushed (ftz : Bool) {c : Nat} (hc : c < 4294967296) :
    word32 (sfuFlush ftz c, 0) = (BitVec.ofNat 32 (if ftz && expField F32 c == 0 then zeroOf F32 (negative F32 c) else c), 0) := by
  rw [sfuFlush_eq ftz hc]
  rfl

theorem negative_of_lt {c : Nat} (hc : c < 2147483648) : negative F32 c = false := by
  have h := (signed_code hc false).1
  rwa [signed_false] at h

theorem intCode_one_spec : intCode 1 = 1065353216 ∧ magnitude 1065353216 = 1 := by
  obtain ⟨k, -, hcode, hmag⟩ := intCode_spec (show (1 : Int).natAbs < 16777216 by decide)
  rw [intCode_one, show decide ((1 : Int) < 0) = false from rfl, signed_false] at hcode
  rw [hcode, hmag]
  exact ⟨by rw [intCode_one, hcode], by norm_num⟩

/-- `EXP2` of a whole number is its power of two. -/
theorem sfuExp2_integer {ftz : Bool} {w : Word} {x : ℝ} (h : IsOperand F32 ftz w.toNat x) {n : Int} (hn : x = n) (hlow : -149 ≤ n) (hhigh : n ≤ 127) :
    sfuExp2 ftz w = word32 (sfuFlush ftz (powCode n), 0) := by
  obtain ⟨neg, k, hk, hw, ⟨rfl, e, hread⟩ | ⟨h0, hx, hread⟩⟩ := operand_code h
  · obtain rfl : n = 0 := by exact_mod_cast hn.symm
    obtain ⟨hle, hmag⟩ := powCode_spec (show (-149 : Int) ≤ 0 by decide) (by decide)
    have hone : powCode 0 = 1065353216 := by
      rw [zpow_zero, ← intCode_one_spec.2] at hmag
      exact le_antisymm ((magnitude_le_iff (by omega) (by decide)).mp hmag.le) ((magnitude_le_iff (by decide) (by omega)).mp hmag.ge)
    have hnormal : flushed ftz 1065353216 = 1065353216 := by simp [flushed]
    have hflush := sfuFlush_signed ftz (show 1065353216 < 2147483648 by decide) false
    rw [signed_false, hnormal, signed_false] at hflush
    rw [sfuExp2_zero hread, hone, hflush, intCode_one]
  · obtain ⟨-, -, hinteger, -⟩ := sfuExp2_ranges hread (significand_ne_zero h0 (by omega)) hx
    refine hinteger ?_ n hn hlow
    have : (n : ℝ) ≤ (127 : Int) := by exact_mod_cast hhigh
    push_cast at this
    linarith

/-! ### LOG2 -/

/-- A significand and a power of two. -/
theorem eq_two_pow_of_value {m : Nat} {e n : Int} (hm : m ≠ 0) (h : (m : ℝ) * 2 ^ e = 2 ^ n) : m = 2 ^ Nat.log2 m ∧ topOf m e = n := by
  have hm1 : (1 : ℝ) ≤ m := by exact_mod_cast Nat.pos_of_ne_zero hm
  have hvalue : (m : ℝ) = 2 ^ (n - e) := by
    rw [zpow_sub₀ (by norm_num), ← h]
    field_simp
  have hge : 0 ≤ n - e := by
    by_contra hlt
    have : (2 : ℝ) ^ (n - e) < 2 ^ (0 : Int) := zpow_lt_zpow_right₀ (by norm_num) (by omega)
    rw [zpow_zero] at this
    linarith
  obtain ⟨j, hj⟩ := Int.eq_ofNat_of_zero_le hge
  rw [hj] at hvalue
  have hpow : m = 2 ^ j := by
    rw [zpow_natCast] at hvalue
    exact_mod_cast hvalue
  have hlog : Nat.log2 m = j := by rw [hpow, Nat.log2_two_pow]
  exact ⟨by rw [hlog, hpow], by rw [topOf, hlog]; omega⟩

/-- The powers of two that the format holds. -/
theorem exponent_bounds {k : Nat} (h0 : k ≠ 0) (hk : k ≤ 2139095039) :
    -149 ≤ topOf (significand F32 k) (lastPlace F32 k) ∧ topOf (significand F32 k) (lastPlace F32 k) ≤ 127 := by
  obtain ⟨hleast, hgreatest⟩ := magnitude_bounds h0 hk
  obtain ⟨hlow, hhigh⟩ := topOf_bounds (significand_ne_zero h0 (by omega)) (lastPlace F32 k)
  have h1 := (zpow_lt_zpow_iff_right₀ (by norm_num : (1 : ℝ) < 2)).mp (hleast.trans_lt hhigh)
  have h2 := (zpow_lt_zpow_iff_right₀ (by norm_num : (1 : ℝ) < 2)).mp (hlow.trans_lt hgreatest)
  omega

/-- `LOG2` of a power of two is its exponent. -/
theorem sfuLog2_power {ftz : Bool} {w : Word} {n : Int} (h : IsOperand F32 ftz w.toNat (2 ^ n)) :
    sfuLog2 ftz w = word32 (intCode n, 0) ∧ n.natAbs < 16777216 := by
  obtain ⟨hk, h0, hx, hread⟩ := positive_operand h (by positivity)
  have hm := significand_ne_zero h0 (by omega)
  obtain ⟨hpow, htop⟩ := eq_two_pow_of_value hm hx.symm
  have hrange := exponent_bounds h0 hk
  rw [htop] at hrange
  rw [sfuLog2_fin hread hm, htop, if_pos (by simpa using hpow)]
  exact ⟨rfl, by omega⟩

/-! ### TANH -/

/-- `TANH` at least 10 from zero. -/
theorem cut_ge_ten_iff (m : Nat) (e : Int) : 10 ≤ (toIntRound 1 false m e).1 ↔ 10 ≤ (m : ℝ) * 2 ^ e := by
  have hcut := (toIntRound_cut false m e).1
  rw [signOf_false_mul, if_pos (by positivity)] at hcut
  rw [hcut, Int.le_floor]
  norm_num

/-- The magnitude of `TANH` of an operand, before flushing. -/
def tanhCode (k : Nat) : Nat :=
  if 10 ≤ (toIntRound 1 false (significand F32 k) (lastPlace F32 k)).1 then intCode 1
  else chosen 5 k (tanhOk (significand F32 k) (lastPlace F32 k))

theorem tanhCode_le (k : Nat) : tanhCode k ≤ 1065353216 := by
  unfold tanhCode
  split
  · exact intCode_one.le
  · rcases chosen_admitted 5 k (tanhOk (significand F32 k) (lastPlace F32 k)) with h | h
    · rw [h]
      exact Nat.zero_le _
    · exact tanhOk_le_one h

/-- `TANH` of a code of either sign has its sign. -/
theorem sfuTanh_signed {ftz neg : Bool} {w : Word} {k : Nat} (hk : k ≤ 2139095039) (hw : w.toNat = F32.signed neg k) :
    sfuTanh ftz w = word32 (F32.signed neg (if flushed ftz k = 0 then 0 else flushed ftz (tanhCode k)), 0) := by
  have hread := readFtz_signed ftz neg hk
  rw [← hw] at hread
  have hle := tanhCode_le k
  by_cases h0 : flushed ftz k = 0
  · rw [h0] at hread
    rw [sfuTanh_zero hread, if_pos h0]
    rfl
  · have hsame := flushed_eq_self h0
    have hmag : w.toNat % F32.signBit = k := by rw [hw, (signed_fields (f := F32) (by rw [signBit_F32]; omega) neg).2.2.1]
    have hk0 : k ≠ 0 := hsame ▸ h0
    have hone : sfuFlush ftz (F32.signed neg (intCode 1)) = F32.signed neg (intCode 1) := by
      rw [intCode_one, sfuFlush_signed ftz (by decide), flushed, if_neg (by simp)]
    rw [hsame] at hread
    rw [if_neg h0, ← sfuFlush_signed ftz (by omega), sfuTanh_fin hread (significand_ne_zero hk0 (by omega)), hmag]
    unfold tanhCode
    split
    · rw [hone]
    · rfl

/-- Changing the sign bit. -/
theorem xor_signBit {w : Word} {neg : Bool} {k : Nat} (hk : k < 2147483648) (hw : w.toNat = F32.signed neg k) :
    (w ^^^ 0x80000000).toNat = F32.signed (!neg) k := by
  have hbit : (0x80000000 : Word).toNat = 2 ^ 31 := by decide
  have hlow : (w.toNat ^^^ 2 ^ 31) % 2 ^ 31 = w.toNat % 2 ^ 31 := by rw [Nat.xor_mod_two_pow, Nat.mod_self, Nat.xor_zero]
  have hhigh : (w.toNat ^^^ 2 ^ 31) / 2 ^ 31 = w.toNat / 2 ^ 31 ^^^ 1 := by rw [Nat.xor_div_two_pow, Nat.div_self (by decide)]
  rw [BitVec.toNat_xor, hbit]
  cases neg with
  | false =>
    rw [signed_false] at hw
    have hzero : w.toNat / 2 ^ 31 = 0 := by omega
    rw [hzero] at hhigh
    have hone : (0 ^^^ 1 : Nat) = 1 := rfl
    rw [Bool.not_false, Fmt.signed, Fmt.zero, if_pos rfl, signBit_F32]
    omega
  | true =>
    rw [Fmt.signed, Fmt.zero, if_pos rfl, signBit_F32] at hw
    have hzero : w.toNat / 2 ^ 31 = 1 := by omega
    rw [hzero] at hhigh
    have hone : (1 ^^^ 1 : Nat) = 0 := rfl
    rw [Bool.not_true, signed_false]
    omega

/-- `TANH` is odd. -/
theorem sfuTanh_odd {ftz neg : Bool} {w : Word} {k : Nat} (hk : k ≤ 2139095039) (hw : w.toNat = F32.signed neg k) :
    (sfuTanh ftz (w ^^^ 0x80000000)).1 = (sfuTanh ftz w).1 ^^^ 0x80000000 := by
  have hcode : (if flushed ftz k = 0 then 0 else flushed ftz (tanhCode k)) < 2147483648 := by
    have := flushed_le ftz (tanhCode k)
    have := tanhCode_le k
    split <;> omega
  apply BitVec.eq_of_toNat_eq
  rw [sfuTanh_signed hk (xor_signBit (by omega) hw), sfuTanh_signed hk hw, word32_toNat (signed_lt hcode _),
    xor_signBit hcode (word32_toNat (signed_lt hcode _) 0)]

theorem sfuTanh_saturated {ftz : Bool} {w : Word} {x : ℝ} (h : IsOperand F32 ftz w.toNat x) (hx : 10 ≤ x) : sfuTanh ftz w = (0x3F800000, 0) := by
  obtain ⟨hk, h0, rfl, hread⟩ := positive_operand h (by linarith)
  rw [sfuTanh_fin hread (significand_ne_zero h0 (by omega)), if_pos ((cut_ge_ten_iff _ _).mpr hx), signed_false, intCode_one]
  rfl

/-! ### The statements -/

theorem claims_specialFunctionExact : Claims.SpecialFunctionExact := by
  intro ftz w x h
  have hrange (hx : x ≠ 0) : (128 ≤ x → sfuExp2 ftz w = word32 (F32.top, fOF)) ∧ (x < -150 → sfuExp2 ftz w = word32 (F32.zero false, 0)) := by
    obtain ⟨neg, k, hk, hw, ⟨rfl, -⟩ | ⟨h0, hvalue, hread⟩⟩ := operand_code h
    · exact absurd rfl hx
    · obtain ⟨hbig, hsmall, -⟩ := sfuExp2_ranges hread (significand_ne_zero h0 (by omega)) hvalue
      exact ⟨hbig, hsmall⟩
  refine ⟨fun hx => ?_, fun hx => ?_, fun n hn hlow hhigh => ?_, fun n hn => ?_, sfuTanh_saturated h, ?_⟩
  · rw [(hrange (by linarith)).1 hx]
    rfl
  · rw [(hrange (by linarith)).2 hx]
    rfl
  · obtain ⟨hle, hmag⟩ := powCode_spec hlow hhigh
    refine ⟨powCode n, hmag ▸ isValue_of_le hle, negative_of_lt (by omega), ?_⟩
    rw [sfuExp2_integer h hn hlow hhigh, word32_flushed ftz (by omega)]
  · rw [hn] at h
    obtain ⟨hlog, hsmall⟩ := sfuLog2_power h
    obtain ⟨hvalue, hlt⟩ := isValue_intCode hsmall
    exact ⟨intCode n, hvalue, fun h0 => by rw [h0]; rfl, hlt, hlog⟩
  · obtain ⟨neg, k, hk, hw, -⟩ := operand_code h
    exact sfuTanh_odd hk hw

/-- Settles O58: the model's quotient and root have more digits than the format and say whether anything lies below them, so that they are
rounded once; `RSQ` has a code within its bound to choose. -/
theorem rootsAndReciprocals : Obligations.RootsAndReciprocals := by
  unfold Obligations.RootsAndReciprocals
  exact ⟨claims_rootsAndReciprocals, claims_specialFunctionExact⟩

end Sys2Proof.Proofs
end

