-- ==== Sys2Proof/Proofs/Exp2.lean ====
section
/-! `EXP2`: the model's comparisons of powers of two, the accuracy of the result and its order (R109, Table 5.9). -/

namespace Sys2Proof.Proofs

open Sys2Proof.Machine Sys2Proof.Says Sys2Proof.Laws

/-! ### The model's comparisons -/

/-- A fractional power of two, raised to a whole one. -/
theorem two_rpow_pow (a : Int) (k : Nat) : ((2 : ℝ) ^ ((a : ℝ) / ((2 ^ k : Nat) : ℝ))) ^ (2 ^ k : Nat) = 2 ^ a := by
  rw [← Real.rpow_natCast, ← Real.rpow_mul (by norm_num), div_mul_cancel₀ _ (by positivity), Real.rpow_intCast]

theorem two_zpow_sub_mul (a e : Int) (k : Nat) : (2 : ℝ) ^ (a - e * (2 ^ k : Nat)) * ((2 : ℝ) ^ e) ^ (2 ^ k : Nat) = 2 ^ a := by
  rw [← zpow_natCast, ← zpow_mul, ← zpow_add₀ (by norm_num), sub_add_cancel]

theorem exp2Le_iff (a : Int) (k m : Nat) (e : Int) : exp2Le a k m e = true ↔ (2 : ℝ) ^ ((a : ℝ) / ((2 ^ k : Nat) : ℝ)) ≤ m * 2 ^ e := by
  have hpos : (0 : ℝ) < ((2 : ℝ) ^ e) ^ (2 ^ k : Nat) := by positivity
  have h := mul_two_pow_le_iff 1 (m ^ 2 ^ k) (a - e * (2 ^ k : Nat))
  rw [Nat.one_mul, Nat.cast_one, one_mul] at h
  rw [exp2Le, decide_eq_true_eq, h, ← mul_le_mul_iff_left₀ hpos, two_zpow_sub_mul, Nat.cast_pow, ← mul_pow, ← two_rpow_pow,
    pow_le_pow_iff_left₀ (by positivity) (by positivity) (by positivity)]

theorem exp2Ge_iff (a : Int) (k m : Nat) (e : Int) : exp2Ge a k m e = true ↔ (m : ℝ) * 2 ^ e ≤ (2 : ℝ) ^ ((a : ℝ) / ((2 ^ k : Nat) : ℝ)) := by
  have hpos : (0 : ℝ) < ((2 : ℝ) ^ e) ^ (2 ^ k : Nat) := by positivity
  have h := le_mul_two_pow_iff 1 (m ^ 2 ^ k) (a - e * (2 ^ k : Nat))
  rw [Nat.one_mul, Nat.cast_one, one_mul] at h
  rw [exp2Ge, decide_eq_true_eq, h, ← mul_le_mul_iff_left₀ hpos, two_zpow_sub_mul, Nat.cast_pow, ← mul_pow, ← two_rpow_pow a k,
    pow_le_pow_iff_left₀ (by positivity) (by positivity) (by positivity)]

/-- An operand as a fraction. -/
theorem scaled_div (neg : Bool) (m : Nat) (e : Int) :
    ((scaled neg m e (min e 0) : Int) : ℝ) / ((2 ^ (-(min e 0)).toNat : Nat) : ℝ) = signOf neg * (m * 2 ^ e) := by
  rw [← scaled_value neg m (min_le_left e 0), Nat.cast_pow, Nat.cast_ofNat, ← zpow_natCast, Int.toNat_of_nonneg (by omega), zpow_neg, div_inv_eq_mul]

theorem div_eq_floor {a : Int} {K : Nat} (hK : 0 < K) : a / (K : Int) = ⌊(a : ℝ) / (K : ℝ)⌋ := by
  have hpos : (0 : ℝ) < K := by exact_mod_cast hK
  have hpos' : (0 : Int) < K := by exact_mod_cast hK
  symm
  rw [Int.floor_eq_iff, le_div_iff₀ hpos, div_lt_iff₀ hpos]
  exact ⟨by exact_mod_cast Int.ediv_mul_le a hpos'.ne', by exact_mod_cast Int.lt_ediv_add_one_mul_self a hpos'⟩

/-! ### The bound -/

/-- A code that the model admits for 2^x. -/
structure Exp2Fits (x : ℝ) (c : Nat) : Prop where
  finite : c ≤ 2139095039
  within : Within 2 (2 ^ x) c
  low    : -149 ≤ ⌊x⌋ → powCode ⌊x⌋ ≤ c
  high   : ⌊x⌋ < 127 → c ≤ powCode (⌊x⌋ + 1)

theorem exp2Ok_iff {neg : Bool} {m : Nat} {e : Int} {x : ℝ} (hx : x = signOf neg * (m * 2 ^ e)) {c : Nat} (hc : c < 4294967296) :
    exp2Ok neg m e c = true ↔ Exp2Fits x c := by
  have hfits {c : Nat} (hc : c ≤ 2139095039) : exp2Ok neg m e c = true ↔ Exp2Fits x c := by
    have hK : 0 < 2 ^ (-(min e 0)).toNat := by positivity
    have hlow : (2 * significand F32 c ≤ below 2 (significand F32 c) (lastPlace F32 c) ∨
        ((2 * significand F32 c - below 2 (significand F32 c) (lastPlace F32 c) : Nat) : ℝ) * 2 ^ (lastPlace F32 c - 1) ≤ 2 ^ x) ↔ lowEnd 2 c ≤ 2 ^ x := by
      refine ⟨fun h => h.elim (fun h => ?_) id, .inr⟩
      rw [lowEnd, Nat.sub_eq_zero_of_le h, Nat.cast_zero, zero_mul]
      positivity
    unfold exp2Ok
    rw [read_code hc]
    simp only [Bool.and_eq_true, Bool.or_eq_true, decide_eq_true_eq, exp2Le_iff, exp2Ge_iff, div_eq_floor hK, scaled_div, ← hx]
    rw [hlow]
    constructor
    · rintro ⟨⟨⟨hhigh, hlow⟩, hge⟩, hle⟩
      exact ⟨hc, ⟨hlow, hhigh⟩, fun h => hge.resolve_left (by omega), fun h => hle.resolve_left (by omega)⟩
    · rintro ⟨-, ⟨hlow, hhigh⟩, hge, hle⟩
      refine ⟨⟨⟨hhigh, hlow⟩, ?_⟩, ?_⟩
      · by_cases h : ⌊x⌋ < -149
        · exact .inl h
        · exact .inr (hge (by omega))
      · by_cases h : 127 ≤ ⌊x⌋
        · exact .inl h
        · exact .inr (hle (by omega))
  refine ⟨fun h => ?_, fun h => (hfits h.finite).mpr h⟩
  have hle : c ≤ 2139095039 := by
    unfold exp2Ok at h
    dsimp only at h
    split at h
    · next hread => exact le_of_read hc hread
    · cases h
  exact (hfits hle).mp h

theorem powCode_mono {i j : Int} (hi : -149 ≤ i) (hij : i ≤ j) (hj : j ≤ 127) : powCode i ≤ powCode j := by
  obtain ⟨hle, hmag⟩ := powCode_spec hi (hij.trans hj)
  obtain ⟨hle', hmag'⟩ := powCode_spec (hi.trans hij) hj
  rw [← magnitude_le_iff (by omega) (by omega), hmag, hmag']
  exact zpow_le_zpow_right₀ (by norm_num) hij

/-- The range in which 2^x has to be found. -/
structure Exp2Range (x : ℝ) : Prop where
  low  : -150 ≤ x
  high : x < 128

theorem Exp2Range.floor {x : ℝ} (h : Exp2Range x) : -150 ≤ ⌊x⌋ ∧ ⌊x⌋ ≤ 127 := by
  have hlow : (-150 : Int) ≤ ⌊x⌋ := Int.le_floor.mpr (by push_cast; exact h.low)
  have hhigh : ⌊x⌋ < (128 : Int) := Int.floor_lt.mpr (by push_cast; exact h.high)
  omega

/-- The power lies between the powers at the integers about its exponent. -/
theorem two_rpow_floor (x : ℝ) : (2 : ℝ) ^ ⌊x⌋ ≤ (2 : ℝ) ^ x ∧ (2 : ℝ) ^ x < (2 : ℝ) ^ (⌊x⌋ + 1) := by
  rw [← Real.rpow_intCast, ← Real.rpow_intCast]
  push_cast
  exact ⟨Real.rpow_le_rpow_of_exponent_le (by norm_num) (Int.floor_le x), Real.rpow_lt_rpow_of_exponent_lt (by norm_num) (Int.lt_floor_add_one x)⟩

/-- The code below the power is admitted. -/
theorem exists_exp2Fits {x : ℝ} (h : Exp2Range x) : ∃ c, Exp2Fits x c := by
  obtain ⟨hfloor, hfloor'⟩ := h.floor
  obtain ⟨hge, hlt⟩ := two_rpow_floor x
  have hmax : (2 : ℝ) ^ x < 2 ^ (128 : Int) := hlt.trans_le (zpow_le_zpow_right₀ (by norm_num) (by omega))
  obtain ⟨c, hc, hlow, hhigh⟩ := exists_code_le (by positivity) hmax
  refine ⟨c, hc, within_of_floor (by decide) hlow hhigh, fun hi => ?_, fun hi => ?_⟩
  · obtain ⟨hle, hmag⟩ := powCode_spec hi hfloor'
    rw [← magnitude_succ (by omega)] at hhigh
    have := (magnitude_lt_iff (by omega) (by omega)).mp (hmag.trans_le hge |>.trans_lt hhigh)
    omega
  · obtain ⟨hle, hmag⟩ := powCode_spec (show -149 ≤ ⌊x⌋ + 1 by omega) (by omega)
    exact ((magnitude_lt_iff (by omega) (by omega)).mp (hlow.trans_lt (hlt.trans_eq hmag.symm))).le

theorem exp2Ok_admits {neg : Bool} {m : Nat} {e : Int} {x : ℝ} (hx : x = signOf neg * (m * 2 ^ e)) (h : Exp2Range x) : Admits (exp2Ok neg m e) := by
  obtain ⟨c, hc⟩ := exists_exp2Fits h
  have hlt : c < 4294967296 := lt_of_le_of_lt hc.finite (by decide)
  exact ⟨c, hlt, (exp2Ok_iff hx hlt).mpr hc⟩

/-- What is admitted rises with x. -/
theorem exp2Fits_shared {x y : ℝ} (hx : Exp2Range x) (hy : Exp2Range y) (hxy : x ≤ y) {c c' : Nat} (hc : Exp2Fits x c) (hc' : Exp2Fits y c')
    (hle : c' ≤ c) : Exp2Fits y c ∧ Exp2Fits x c' := by
  obtain ⟨hfinite, hwithin, hlow, hhigh⟩ := hc
  obtain ⟨hfinite', hwithin', hlow', hhigh'⟩ := hc'
  have hfloor : ⌊x⌋ ≤ ⌊y⌋ := Int.floor_le_floor hxy
  obtain ⟨hx1, hx2⟩ := hx.floor
  obtain ⟨hy1, hy2⟩ := hy.floor
  have hpow : (2 : ℝ) ^ x ≤ 2 ^ y := Real.rpow_le_rpow_of_exponent_le (by norm_num) hxy
  obtain ⟨hshared, hshared'⟩ := within_shared (by decide) le_rfl hpow hwithin hwithin' hle (by omega)
  refine ⟨⟨hfinite, hshared, fun hi => (hlow' hi).trans hle, fun hi => ?_⟩, ⟨hfinite', hshared', fun hi => ?_, fun hi => hle.trans (hhigh hi)⟩⟩
  · exact (hhigh (by omega)).trans (powCode_mono (by omega) (by omega) (by omega))
  · exact (powCode_mono hi hfloor hy2).trans (hlow' (by omega))

/-! ### The result -/

/-- The code of the result before flushing, for an operand in the range. -/
structure Exp2Gives (ftz : Bool) (w : Word) (x : ℝ) (c : Nat) : Prop where
  result : sfuExp2 ftz w = word32 (sfuFlush ftz c, 0)
  fits   : Exp2Fits x c
  whole  : ∀ n : Int, x = n → -149 ≤ n → c = powCode n
  free   : (¬ ∃ n : Int, x = n ∧ -149 ≤ n) → ∃ (neg : Bool) (m : Nat) (e : Int), x = signOf neg * (m * 2 ^ e) ∧ c = chosen 3 (f32Place w.toNat) (exp2Ok neg m e)

/-- A power of two that the format holds meets its own bound. -/
theorem exp2Fits_powCode {n : Int} (hlow : -149 ≤ n) (hhigh : n ≤ 127) : Exp2Fits n (powCode n) := by
  obtain ⟨hle, hmag⟩ := powCode_spec hlow hhigh
  have hvalue : (2 : ℝ) ^ (n : ℝ) = magnitude (powCode n) := by rw [hmag, Real.rpow_intCast]
  refine ⟨hle, ?_, fun _ => by rw [Int.floor_intCast], fun hi => ?_⟩
  · rw [hvalue]
    exact within_of_floor (by decide) le_rfl (lt_add_of_pos_right _ (by positivity))
  · rw [Int.floor_intCast] at hi ⊢
    exact powCode_mono hlow (by omega) (by omega)

theorem exists_exp2Gives {ftz : Bool} {w : Word} {x : ℝ} (h : IsOperand F32 ftz w.toNat x) (hx : Exp2Range x) : ∃ c, Exp2Gives ftz w x c := by
  by_cases hwhole : ∃ n : Int, x = n ∧ -149 ≤ n
  · obtain ⟨n, hn, hlow⟩ := hwhole
    have hhigh : n ≤ 127 := by
      have : (n : ℝ) < (128 : Int) := by
        rw [← hn]
        push_cast
        exact hx.high
      have : n < 128 := by exact_mod_cast this
      omega
    refine ⟨powCode n, sfuExp2_integer h hn hlow hhigh, hn ▸ exp2Fits_powCode hlow hhigh, fun i hi _ => ?_, fun hno => absurd ⟨n, hn, hlow⟩ hno⟩
    have : n = i := by exact_mod_cast hn.symm.trans hi
    rw [this]
  · obtain ⟨neg, k, hk, hw, ⟨h0, -⟩ | ⟨h0, hvalue, hread⟩⟩ := operand_code h
    · exact absurd ⟨0, by rw [h0, Int.cast_zero], by decide⟩ hwhole
    · obtain ⟨-, -, -, hfree⟩ := sfuExp2_ranges hread (significand_ne_zero h0 (by omega)) hvalue
      obtain ⟨hlt, hok⟩ := chosen_ok (exp2Ok_admits hvalue hx) 3 (f32Place w.toNat)
      exact ⟨_, hfree hx.low hx.high hwhole, (exp2Ok_iff hvalue hlt).mp hok, fun n hn hlow => absurd ⟨n, hn, hlow⟩ hwhole,
        fun _ => ⟨neg, _, _, hvalue, rfl⟩⟩

/-- What `Claims.SpecialFunctionAccuracy` asks of a result: it is the code of a good number, flushed. -/
def GivesCode (ftz : Bool) (r : Word × BitVec 6) (good : ℝ → Prop) : Prop :=
  r.2 = 0 ∧ ∃ c y, IsValue F32 c y ∧ c < 2 ^ 32 ∧ good y ∧ r.1.toNat = if ftz && expField F32 c == 0 then zeroOf F32 (negative F32 c) else c

theorem givesCode_flush (ftz : Bool) {c : Nat} {y : ℝ} {good : ℝ → Prop} (hvalue : IsValue F32 c y) (hc : c < 4294967296) (hgood : good y) :
    GivesCode ftz (word32 (sfuFlush ftz c, 0)) good :=
  ⟨rfl, c, y, hvalue, hc, hgood, by rw [word32_toNat (sfuFlush_lt ftz hc), sfuFlush_eq ftz hc]⟩

theorem sfuExp2_accuracy {ftz : Bool} {w : Word} {x : ℝ} (h : IsOperand F32 ftz w.toNat x) (hx : Exp2Range x) :
    GivesCode ftz (sfuExp2 ftz w) fun y => ∀ u, IsUlp (2 ^ x) u → |y - 2 ^ x| ≤ 2 * u := by
  obtain ⟨c, hresult, hfits, -, -⟩ := exists_exp2Gives h hx
  have hfinite := hfits.finite
  rw [hresult]
  refine givesCode_flush ftz (isValue_of_le hfinite) (by omega) fun u hu => ?_
  have := within_error (by decide) le_rfl (by omega) (by positivity) hfits.within hu
  rwa [Nat.cast_ofNat] at this

/-! ### Order -/

/-- The places of the words of operands rise with their values. -/
theorem operand_place_le {ftz : Bool} {v w : Word} {x y : ℝ} (hv : IsOperand F32 ftz v.toNat x) (hw : IsOperand F32 ftz w.toNat y) (hx0 : x ≠ 0)
    (hy0 : y ≠ 0) (hxy : x < y) : f32Place v.toNat ≤ f32Place w.toNat := by
  obtain ⟨s, k, hk, hv', ⟨h0, -⟩ | ⟨-, hx, -⟩⟩ := operand_code hv
  · exact absurd h0 hx0
  · obtain ⟨s', k', hk', hw', ⟨h0, -⟩ | ⟨-, hy, -⟩⟩ := operand_code hw
    · exact absurd h0 hy0
    · by_contra hlt
      have hvalue := valueOf_le_of_place w.isLt v.isLt (Nat.not_le.mp hlt).le
      rw [hv', hw', valueOf_signed (by omega), valueOf_signed (by omega), ← hx, ← hy] at hvalue
      linarith

/-- Of two operands in the range the greater has no less a code. -/
theorem exp2Gives_mono {ftz : Bool} {v w : Word} {x y : ℝ} (hv : IsOperand F32 ftz v.toNat x) (hw : IsOperand F32 ftz w.toNat y) (hxy : x < y)
    (hx : Exp2Range x) (hy : Exp2Range y) {c c' : Nat} (hc : Exp2Gives ftz v x c) (hc' : Exp2Gives ftz w y c') : c ≤ c' := by
  obtain ⟨hx1, hx2⟩ := hx.floor
  obtain ⟨hy1, hy2⟩ := hy.floor
  by_cases hwhole' : ∃ n : Int, y = n ∧ -149 ≤ n
  · obtain ⟨n, hn, hlow⟩ := hwhole'
    have hfloor : ⌊x⌋ < n := Int.floor_lt.mpr (hn ▸ hxy)
    have hfloor' : ⌊y⌋ = n := by rw [hn, Int.floor_intCast]
    rw [hc'.whole n hn hlow]
    exact (hc.fits.high (by omega)).trans (powCode_mono (by omega) (by omega) (by omega))
  by_cases hwhole : ∃ n : Int, x = n ∧ -149 ≤ n
  · obtain ⟨n, hn, hlow⟩ := hwhole
    have hfloor : n ≤ ⌊y⌋ := Int.le_floor.mpr (hn ▸ hxy.le)
    rw [hc.whole n hn hlow]
    exact (powCode_mono hlow hfloor hy2).trans (hc'.fits.low (by omega))
  have hx0 : x ≠ 0 := fun h => hwhole ⟨0, by rw [h, Int.cast_zero], by decide⟩
  have hy0 : y ≠ 0 := fun h => hwhole' ⟨0, by rw [h, Int.cast_zero], by decide⟩
  have hfin := hc.fits.finite
  have hfin' := hc'.fits.finite
  obtain ⟨s, m, e, hxv, hcx⟩ := hc.free hwhole
  obtain ⟨s', m', e', hyv, hcy⟩ := hc'.free hwhole'
  have hrises : Rises (exp2Ok s m e) (exp2Ok s' m' e') := by
    intro d d' hd hd' hok hok' hlt
    have hf := (exp2Ok_iff hxv hd).mp hok
    have hf' := (exp2Ok_iff hyv hd').mp hok'
    have hfinite := hf.finite
    have hfinite' := hf'.finite
    rw [f32Place_of_lt (by omega), f32Place_of_lt (by omega)] at hlt
    obtain ⟨h1, h2⟩ := exp2Fits_shared hx hy hxy.le hf hf' (by omega)
    exact ⟨(exp2Ok_iff hyv hd).mpr h1, (exp2Ok_iff hxv hd').mpr h2⟩
  have hplace := chosen_place_le hrises (exp2Ok_admits hxv hx) (exp2Ok_admits hyv hy) 3 (operand_place_le hv hw hx0 hy0 hxy)
  rw [← hcx, ← hcy, f32Place_of_lt (by omega), f32Place_of_lt (by omega)] at hplace
  omega

/-- The value of a result that is a flushed code. -/
theorem value_of_flushed {ftz : Bool} {c : Nat} (hc : c < 4294967296) {p : ℝ} (h : IsValue F32 (word32 (sfuFlush ftz c, 0)).1.toNat p) :
    p = valueOf (sfuFlush ftz c) := by
  rw [word32_toNat (sfuFlush_lt ftz hc)] at h
  exact eq_valueOf h

/-- Flushed codes whose places rise have values that rise. -/
theorem flushed_values_le {ftz : Bool} {c c' : Nat} (hc : c < 4294967296) (hc' : c' < 4294967296) (hplace : f32Place c ≤ f32Place c') {p q : ℝ}
    (hp : IsValue F32 (word32 (sfuFlush ftz c, 0)).1.toNat p) (hq : IsValue F32 (word32 (sfuFlush ftz c', 0)).1.toNat q) : p ≤ q := by
  rw [value_of_flushed hc hp, value_of_flushed hc' hq]
  exact valueOf_le_of_place (sfuFlush_lt ftz hc) (sfuFlush_lt ftz hc') (f32Place_sfuFlush_mono ftz hc hc' hplace)

/-- An infinity has no value. -/
theorem not_isValue_top (fl : BitVec 6) {p : ℝ} : ¬ IsValue F32 (word32 (F32.top, fl)).1.toNat p := by
  rw [word32_toNat (by decide)]
  exact fun h => h.2.1 ⟨rfl, by decide, by decide⟩

/-- Beyond the range `EXP2` gives infinity or zero. -/
theorem sfuExp2_beyond {ftz : Bool} {w : Word} {x : ℝ} (h : IsOperand F32 ftz w.toNat x) :
    (128 ≤ x → sfuExp2 ftz w = word32 (F32.top, fOF)) ∧ (x < -150 → sfuExp2 ftz w = word32 (0, 0)) := by
  obtain ⟨hbig, hsmall, -⟩ := claims_specialFunctionExact ftz w x h
  exact ⟨hbig, hsmall⟩

theorem sfuExp2_rises {ftz : Bool} {v w : Word} {x y p q : ℝ} (hv : IsOperand F32 ftz v.toNat x) (hw : IsOperand F32 ftz w.toNat y) (hxy : x < y)
    (hp : IsValue F32 (sfuExp2 ftz v).1.toNat p) (hq : IsValue F32 (sfuExp2 ftz w).1.toNat q) : p ≤ q := by
  by_cases hbig : 128 ≤ y
  · rw [(sfuExp2_beyond hw).1 hbig] at hq
    exact absurd hq (not_isValue_top fOF)
  have hzero : word32 (0, 0) = word32 (sfuFlush ftz 0, 0) := by cases ftz <;> rfl
  by_cases hsmall' : y < -150
  · rw [(sfuExp2_beyond hw).2 hsmall', hzero] at hq
    rw [(sfuExp2_beyond hv).2 (by linarith), hzero] at hp
    exact flushed_values_le (by decide) (by decide) le_rfl hp hq
  have hy : Exp2Range y := ⟨not_lt.mp hsmall', not_le.mp hbig⟩
  obtain ⟨c', hc'⟩ := exists_exp2Gives hw hy
  have hfin' := hc'.fits.finite
  rw [hc'.result] at hq
  by_cases hsmall : x < -150
  · rw [(sfuExp2_beyond hv).2 hsmall, hzero] at hp
    refine flushed_values_le (by decide) (by omega) ?_ hp hq
    rw [f32Place_of_lt (by decide), f32Place_of_lt (by omega)]
    omega
  have hx : Exp2Range x := ⟨not_lt.mp hsmall, by linarith [hy.high]⟩
  obtain ⟨c, hc⟩ := exists_exp2Gives hv hx
  have hfin := hc.fits.finite
  rw [hc.result] at hp
  refine flushed_values_le (by omega) (by omega) ?_ hp hq
  rw [f32Place_of_lt (by omega), f32Place_of_lt (by omega)]
  have := exp2Gives_mono hv hw hxy hx hy hc hc'
  omega

end Sys2Proof.Proofs
end

