-- ==== Sys2Proof/Proofs/Log2.lean ====
section
/-! `LOG2`: the accuracy of the result and its order (R109, Table 5.9). -/

namespace Sys2Proof.Proofs

open Sys2Proof.Machine Sys2Proof.Says Sys2Proof.Laws

/-! ### The model's comparisons -/

/-- A dyadic exponent compared with a logarithm. -/
theorem two_rpow_le_iff {t x : ℝ} (hx : 0 < x) : (2 : ℝ) ^ t ≤ x ↔ t ≤ Real.logb 2 x := (Real.le_logb_iff_rpow_le (by norm_num) hx).symm

theorem le_two_rpow_iff {t x : ℝ} (hx : 0 < x) : x ≤ (2 : ℝ) ^ t ↔ Real.logb 2 x ≤ t := (Real.logb_le_iff_le_rpow (by norm_num) hx).symm

/-- A whole number of units of 2^q as the model hands it to its comparisons. -/
def inUnits (q v : Int) : Int := if q < 0 then v else v * (2 ^ q.toNat : Nat)

theorem inUnits_div (q v : Int) : ((inUnits q v : Int) : ℝ) / ((2 ^ (-q).toNat : Nat) : ℝ) = v * 2 ^ q := by
  unfold inUnits
  split
  · next h =>
    rw [Nat.cast_pow, Nat.cast_ofNat, ← zpow_natCast, Int.toNat_of_nonneg (show 0 ≤ -q by omega), zpow_neg, div_inv_eq_mul]
  · next h =>
    rw [Int.toNat_of_nonpos (show -q ≤ 0 by omega), pow_zero, Nat.cast_one, div_one, Int.cast_mul, Int.cast_natCast, Nat.cast_pow, Nat.cast_ofNat,
      ← zpow_natCast, Int.toNat_of_nonneg (show 0 ≤ q by omega)]

section
variable {m : Nat} {e : Int} (hx : (0 : ℝ) < m * 2 ^ e) (q v : Int)
include hx

theorem exp2Le_log_iff : exp2Le (inUnits q v) (-q).toNat m e = true ↔ (v : ℝ) * 2 ^ q ≤ Real.logb 2 (m * 2 ^ e) := by
  rw [exp2Le_iff, inUnits_div, two_rpow_le_iff hx]

theorem exp2Ge_log_iff : exp2Ge (inUnits q v) (-q).toNat m e = true ↔ Real.logb 2 (m * 2 ^ e) ≤ (v : ℝ) * 2 ^ q := by
  rw [exp2Ge_iff, inUnits_div, le_two_rpow_iff hx]

/-- The exponent of a number is the whole part of its logarithm. -/
theorem floor_logb (hm : m ≠ 0) : ⌊Real.logb 2 (m * 2 ^ e)⌋ = topOf m e := by
  obtain ⟨hlow, hhigh⟩ := topOf_bounds hm e
  rw [Int.floor_eq_iff, ← two_rpow_le_iff hx, Real.rpow_intCast, Real.logb_lt_iff_lt_rpow (by norm_num) hx]
  refine ⟨hlow, ?_⟩
  have hpow : (2 : ℝ) ^ ((topOf m e : ℝ) + 1) = 2 ^ (topOf m e + 1) := by rw [← Real.rpow_intCast, Int.cast_add, Int.cast_one]
  rwa [hpow]

end

/-! ### The bound -/

/-- Whether a logarithm lies about zero, where its bound is absolute. -/
def NearZero (L : ℝ) : Prop := -1 ≤ ⌊L⌋ ∧ ⌊L⌋ ≤ 0

/-- The places between which the codes of a logarithm stand: those of the whole numbers about it. -/
def BetweenWholes (L : ℝ) (c : Nat) : Prop := f32Place (intCode ⌊L⌋) ≤ f32Place c ∧ f32Place c ≤ f32Place (intCode (⌊L⌋ + 1))

/-- The bound of two units of the code of a sign and a magnitude. -/
def WithinUnits (neg : Bool) (k : Nat) (L : ℝ) : Prop :=
  ((2 * significand F32 k : Nat) - (below 2 (significand F32 k) (lastPlace F32 k) : Nat) : ℝ) * 2 ^ (lastPlace F32 k - 1) ≤ signOf neg * L ∧
    signOf neg * L ≤ highEnd 2 k

/-- Where a code's magnitude is not small, none of its bound is cut off. -/
theorem withinUnits_iff {neg : Bool} {k : Nat} {L : ℝ} (hk : k < 2147483648) (hbig : 8388608 ≤ k) : WithinUnits neg k L ↔ Within 2 (signOf neg * L) k := by
  have hsig : 4 ≤ 2 * significand F32 k := by
    rw [significand, expField_code hk, manField_F32, mbits_F32]
    split <;> omega
  have hbelow := below_le 2 (significand F32 k) (lastPlace F32 k)
  rw [WithinUnits, Within, lowEnd, Nat.cast_sub (by omega)]

/-- A code that the model admits for a logarithm. -/
structure Log2Fits (L : ℝ) (neg : Bool) (k : Nat) : Prop where
  finite  : k ≤ 2139095039
  between : BetweenWholes L (F32.signed neg k)
  near    : NearZero L → |signOf neg * magnitude k - L| ≤ 2 ^ (-22 : Int)
  far     : ¬ NearZero L → WithinUnits neg k L

/-- The model's test, of a code that reads as `neg`, `n` and `d`. -/
theorem log2Ok_read {m : Nat} {e : Int} {c : Nat} {neg : Bool} {n : Nat} {d : Int} (h : F32.read c = .fin neg n d) :
    log2Ok m e c = true ↔
      (if -1 ≤ topOf m e ∧ topOf m e ≤ 0 then
        exp2Le (inUnits (min (d - 1) (-22)) (scaled neg n d (min (d - 1) (-22)) - (2 ^ (-22 - min (d - 1) (-22)).toNat : Nat)))
            (-(min (d - 1) (-22))).toNat m e = true ∧
          exp2Ge (inUnits (min (d - 1) (-22)) (scaled neg n d (min (d - 1) (-22)) + (2 ^ (-22 - min (d - 1) (-22)).toNat : Nat)))
            (-(min (d - 1) (-22))).toNat m e = true
      else
        exp2Le (inUnits (d - 1) (scaled neg n d (d - 1) - (if neg then (above 2 n : Nat) else (below 2 n d : Nat) : Int))) (-(d - 1)).toNat m e = true ∧
          exp2Ge (inUnits (d - 1) (scaled neg n d (d - 1) + (if neg then (below 2 n d : Nat) else (above 2 n : Nat) : Int))) (-(d - 1)).toNat m e = true) ∧
      f32Place (intCode (topOf m e)) ≤ f32Place c ∧ f32Place c ≤ f32Place (intCode (topOf m e + 1)) := by
  unfold log2Ok
  rw [h]
  by_cases hnear : -1 ≤ topOf m e ∧ topOf m e ≤ 0
  · have hnear' : (decide (-1 ≤ e + ((Nat.log2 m : Nat) : Int)) && decide (e + ((Nat.log2 m : Nat) : Int) ≤ 0)) = true := by simpa [topOf] using hnear
    rw [if_pos hnear]
    simp only [hnear', if_true, Bool.and_eq_true, decide_eq_true_eq]
    rw [and_assoc]
    rfl
  · have hnear' : (decide (-1 ≤ e + ((Nat.log2 m : Nat) : Int)) && decide (e + ((Nat.log2 m : Nat) : Int) ≤ 0)) = false := by
      rw [← Bool.not_eq_true]
      simpa [topOf] using hnear
    rw [if_neg hnear]
    simp only [hnear', Bool.false_eq_true, if_false, Bool.and_eq_true, decide_eq_true_eq]
    rw [and_assoc]
    cases neg <;> rfl

section
variable {neg : Bool} {n : Nat} {d q : Int}

/-- The absolute bound in units of 2^q. -/
theorem tolerance_mul (hq : q ≤ -22) : ((2 ^ (-22 - q).toNat : Nat) : ℝ) * 2 ^ q = 2 ^ (-22 : Int) := by
  rw [Nat.cast_pow, Nat.cast_ofNat, ← zpow_natCast, Int.toNat_of_nonneg (by omega), ← zpow_add₀ (by norm_num), sub_add_cancel]

/-- Within the absolute bound. -/
theorem near_ends_iff (hq : q ≤ -22) (hd : q ≤ d) (L : ℝ) :
    ((scaled neg n d q - (2 ^ (-22 - q).toNat : Nat) : Int) : ℝ) * 2 ^ q ≤ L ∧ L ≤ ((scaled neg n d q + (2 ^ (-22 - q).toNat : Nat) : Int) : ℝ) * 2 ^ q ↔
      |signOf neg * (n * 2 ^ d) - L| ≤ 2 ^ (-22 : Int) := by
  rw [Int.cast_sub, Int.cast_add, sub_mul, add_mul, scaled_value neg n hd, Int.cast_natCast, tolerance_mul hq, abs_le]
  constructor
  · rintro ⟨h1, h2⟩
    constructor <;> linarith
  · rintro ⟨h1, h2⟩
    constructor <;> linarith

/-- Within two units on either side of a number of either sign. -/
theorem far_ends_iff (L : ℝ) (a b : Nat) :
    ((scaled neg n d (d - 1) - (if neg then (a : Int) else (b : Int)) : Int) : ℝ) * 2 ^ (d - 1) ≤ L ∧
        L ≤ ((scaled neg n d (d - 1) + (if neg then (b : Int) else (a : Int)) : Int) : ℝ) * 2 ^ (d - 1) ↔
      (((2 * n : Nat) : ℝ) - b) * 2 ^ (d - 1) ≤ signOf neg * L ∧ signOf neg * L ≤ ((2 * n + a : Nat) : ℝ) * 2 ^ (d - 1) := by
  have hscaled : scaled neg n d (d - 1) = if neg then -((2 * n : Nat) : Int) else (2 * n : Nat) := by
    rw [scaled, show (d - (d - 1)).toNat = 1 by omega, Nat.pow_one, Nat.mul_comm]
  have hpos : (0 : ℝ) < 2 ^ (d - 1) := by positivity
  rw [hscaled]
  cases neg with
  | true =>
    simp only [signOf, if_true]
    push_cast
    constructor
    · rintro ⟨h1, h2⟩
      constructor <;> linarith
    · rintro ⟨h1, h2⟩
      constructor <;> linarith
  | false =>
    simp only [signOf, Bool.false_eq_true, if_false, one_mul]
    push_cast
    exact Iff.rfl

end

/-- The model's test is the bound. -/
theorem log2Ok_iff {m : Nat} {e : Int} (hm : m ≠ 0) (neg : Bool) {k : Nat} (hk : k < 2147483648) :
    log2Ok m e (F32.signed neg k) = true ↔ Log2Fits (Real.logb 2 (m * 2 ^ e)) neg k := by
  have hx : (0 : ℝ) < m * 2 ^ e := by
    have : (0 : ℝ) < m := by exact_mod_cast Nat.pos_of_ne_zero hm
    positivity
  have hfloor := floor_logb hx hm
  have hfits (hk : k ≤ 2139095039) : log2Ok m e (F32.signed neg k) = true ↔ Log2Fits (Real.logb 2 (m * 2 ^ e)) neg k := by
    rw [log2Ok_read (read_signed hk neg)]
    simp only [exp2Le_log_iff hx, exp2Ge_log_iff hx]
    rw [near_ends_iff (min_le_right _ _) ((min_le_left _ _).trans (by omega)), far_ends_iff]
    generalize Real.logb 2 (m * 2 ^ e) = L at hfloor ⊢
    rw [← hfloor]
    by_cases hnear : NearZero L
    · rw [if_pos (show -1 ≤ ⌊L⌋ ∧ ⌊L⌋ ≤ 0 from hnear)]
      exact ⟨fun ⟨h, hbetween⟩ => ⟨hk, hbetween, fun _ => h, fun hfar => absurd hnear hfar⟩, fun h => ⟨h.near hnear, h.between⟩⟩
    · rw [if_neg (show ¬ (-1 ≤ ⌊L⌋ ∧ ⌊L⌋ ≤ 0) from hnear)]
      exact ⟨fun ⟨h, hbetween⟩ => ⟨hk, hbetween, fun h => absurd h hnear, fun _ => h⟩, fun h => ⟨h.far hnear, h.between⟩⟩
  refine ⟨fun h => ?_, fun h => (hfits h.finite).mpr h⟩
  have hle : k ≤ 2139095039 := by
    unfold log2Ok at h
    split at h
    · next s n d hread =>
      obtain ⟨j, hj, hcode, -⟩ := read_eq_fin (signed_lt hk neg) hread
      have hneg : F32.signed neg k % F32.signBit = F32.signed s j % F32.signBit := by rw [hcode]
      rw [(signed_fields (f := F32) (by rw [signBit_F32]; exact hk) neg).2.2.1, (signed_fields (f := F32) (by rw [signBit_F32]; omega) _).2.2.1] at hneg
      omega
    · cases h
  exact (hfits hle).mp h

/-! ### The codes of whole numbers in order -/

/-- The place of a whole number that is not negative. -/
theorem place_intCode_nonneg {i : Int} (h0 : 0 ≤ i) (h : i.natAbs < 16777216) :
    ∃ j, j ≤ 2139095039 ∧ f32Place (intCode i) = 2147483648 + j ∧ magnitude j = i := by
  obtain ⟨j, hj, hcode, hmag⟩ := intCode_spec h
  refine ⟨j, hj, ?_, ?_⟩
  · rw [hcode, f32Place_signed (by omega), decide_eq_false (by omega), if_neg (by decide)]
  · rw [hmag, Nat.cast_natAbs, abs_of_nonneg h0]

theorem place_intCode_neg {i : Int} (h0 : i < 0) (h : i.natAbs < 16777216) :
    ∃ j, j ≤ 2139095039 ∧ f32Place (intCode i) = 2147483647 - j ∧ magnitude j = -i := by
  obtain ⟨j, hj, hcode, hmag⟩ := intCode_spec h
  refine ⟨j, hj, ?_, ?_⟩
  · rw [hcode, f32Place_signed (by omega), decide_eq_true h0, if_pos rfl]
  · rw [hmag, Nat.cast_natAbs, abs_of_neg h0, Int.cast_neg]

theorem place_intCode_mono {i j : Int} (hi : i.natAbs < 16777216) (hj : j.natAbs < 16777216) (h : i ≤ j) :
    f32Place (intCode i) ≤ f32Place (intCode j) := by
  obtain ⟨hvalue, hlt⟩ := isValue_intCode hi
  obtain ⟨hvalue', hlt'⟩ := isValue_intCode hj
  by_contra hplace
  have hle := valueOf_le_of_place hlt' hlt (Nat.not_le.mp hplace).le
  rw [← eq_valueOf hvalue, ← eq_valueOf hvalue'] at hle
  have hji : j ≤ i := by exact_mod_cast hle
  obtain rfl := le_antisymm h hji
  exact hplace le_rfl

/-- Whole numbers are not flushed. -/
theorem sfuFlush_intCode (ftz : Bool) {i : Int} (h : i.natAbs < 16777216) : sfuFlush ftz (intCode i) = intCode i := by
  obtain ⟨k, hk, hcode, hmag⟩ := intCode_spec h
  rw [hcode, sfuFlush_signed ftz (by omega)]
  by_cases h0 : i = 0
  · have hk0 : k = 0 := by
      by_contra hne
      rw [h0, Int.natAbs_zero, Nat.cast_zero] at hmag
      exact (magnitude_pos hne (by omega)).ne' hmag
    rw [hk0, Nat.le_zero.mp (flushed_le ftz 0)]
  · have hone : magnitude 1065353216 ≤ magnitude k := by
      have : (1 : ℝ) ≤ i.natAbs := by exact_mod_cast Int.natAbs_pos.mpr h0
      rwa [intCode_one_spec.2, hmag]
    have hbig := (magnitude_le_iff (by decide) (by omega)).mp hone
    rw [flushed, if_neg]
    simp only [Bool.and_eq_true, decide_eq_true_eq, not_and]
    omega

/-! ### The bound: some code meets it, it holds, and it rises -/

/-- The range of the logarithms of the operands. -/
structure LogRange (L : ℝ) : Prop where
  low  : -149 ≤ ⌊L⌋
  high : ⌊L⌋ ≤ 127

theorem natAbs_lt {i : Int} (hlow : -149 ≤ i) (hhigh : i ≤ 128) : i.natAbs < 16777216 := by omega

/-- A code of the magnitude below a positive logarithm stands between the whole numbers about it. -/
theorem between_of_pos {L : ℝ} (h : LogRange L) (hL : 0 < L) {k : Nat} (hk : k ≤ 2139095039) (hlow : magnitude k ≤ L) (hhigh : L < magnitude (k + 1)) :
    BetweenWholes L (F32.signed false k) := by
  have hfloor : 0 ≤ ⌊L⌋ := Int.floor_nonneg.mpr hL.le
  obtain ⟨h1, h2⟩ := h
  obtain ⟨a, ha, hplace, hmag⟩ := place_intCode_nonneg hfloor (natAbs_lt h1 (by omega))
  obtain ⟨b, hb, hplace', hmag'⟩ := place_intCode_nonneg (show 0 ≤ ⌊L⌋ + 1 by omega) (natAbs_lt (by omega) (by omega))
  have hak : a < k + 1 := (magnitude_lt_iff (by omega) (by omega)).mp (hmag ▸ (Int.floor_le L).trans_lt hhigh)
  have hkb : k < b := (magnitude_lt_iff (by omega) (by omega)).mp (by
    rw [hmag']
    push_cast
    exact hlow.trans_lt (Int.lt_floor_add_one L))
  rw [BetweenWholes, hplace, hplace', f32Place_signed (by omega), if_neg (by decide)]
  omega

theorem between_of_neg {L : ℝ} (h : LogRange L) (hL : L < 0) {k : Nat} (hk : k ≤ 2139095039) (hlow : magnitude k ≤ -L) (hhigh : -L < magnitude (k + 1)) :
    BetweenWholes L (F32.signed true k) := by
  have hfloor : ⌊L⌋ < 0 := Int.floor_lt.mpr (by rwa [Int.cast_zero])
  obtain ⟨h1, h2⟩ := h
  obtain ⟨a, ha, hplace, hmag⟩ := place_intCode_neg hfloor (natAbs_lt h1 (by omega))
  have hka : k ≤ a := (magnitude_le_iff (by omega) (by omega)).mp (by
    rw [hmag]
    have := Int.floor_le L
    linarith)
  rw [BetweenWholes, hplace, f32Place_signed (by omega), if_pos rfl]
  refine ⟨by omega, ?_⟩
  by_cases h0 : ⌊L⌋ + 1 < 0
  · obtain ⟨b, hb, hplace', hmag'⟩ := place_intCode_neg h0 (natAbs_lt (by omega) (by omega))
    have hbk : b < k + 1 := (magnitude_lt_iff (by omega) (by omega)).mp (by
      rw [hmag']
      push_cast
      have := Int.lt_floor_add_one L
      linarith)
    rw [hplace']
    omega
  · obtain ⟨b, -, hplace', -⟩ := place_intCode_nonneg (Int.not_lt.mp h0) (natAbs_lt (by omega) (by omega))
    rw [hplace']
    omega

theorem signOf_decide_mul (L : ℝ) : signOf (decide (L < 0)) * L = |L| := by
  by_cases h : L < 0
  · rw [decide_eq_true h, abs_of_neg h, signOf, if_pos rfl, neg_one_mul]
  · rw [decide_eq_false h, signOf_false_mul, abs_of_nonneg (not_lt.mp h)]

theorem signed_sub_abs (neg : Bool) (V L : ℝ) : |signOf neg * V - L| = |V - signOf neg * L| := by
  rw [← abs_signOf_mul neg (signOf neg * V - L), mul_sub, ← mul_assoc, signOf_mul_self, one_mul]

/-- The code below a logarithm that is no whole number is admitted. -/
theorem exists_log2Fits {L : ℝ} (h : LogRange L) (hL : L ≠ ⌊L⌋) : ∃ k, Log2Fits L (decide (L < 0)) k := by
  obtain ⟨h1, h2⟩ := id h
  have hfloor := Int.floor_le L
  have hfloor' := Int.lt_floor_add_one L
  have hlowR : (-149 : ℝ) ≤ ⌊L⌋ := by exact_mod_cast h1
  have hhighR : (⌊L⌋ : ℝ) ≤ 127 := by exact_mod_cast h2
  have habs : |L| < 2 ^ (128 : Int) := (abs_lt.mpr ⟨by linarith, by linarith⟩ : |L| < 150).trans (by norm_num)
  obtain ⟨k, hk, hlow, hhigh⟩ := exists_code_le (abs_nonneg L) habs
  have hhigh' := hhigh
  rw [← magnitude_succ (by omega)] at hhigh'
  have hL0 : L ≠ 0 := by
    rintro rfl
    rw [Int.floor_zero, Int.cast_zero] at hL
    exact hL rfl
  refine ⟨k, hk, ?_, fun hnear => ?_, fun hfar => ?_⟩
  · rcases lt_or_gt_of_ne hL0 with hneg | hpos
    · rw [decide_eq_true hneg]
      rw [abs_of_neg hneg] at hlow hhigh'
      exact between_of_neg h hneg hk hlow hhigh'
    · rw [decide_eq_false hpos.le.not_gt]
      rw [abs_of_pos hpos] at hlow hhigh'
      exact between_of_pos h hpos hk hlow hhigh'
  · obtain ⟨hn1, hn2⟩ := hnear
    have hn1R : (-1 : ℝ) ≤ ⌊L⌋ := by exact_mod_cast hn1
    have hn2R : (⌊L⌋ : ℝ) ≤ 0 := by exact_mod_cast hn2
    have hone : |L| < 1 := by
      rw [abs_lt]
      exact ⟨lt_of_le_of_lt hn1R (lt_of_le_of_ne hfloor hL.symm), by linarith⟩
    have hk1 : k < 1065353216 := (magnitude_lt_iff (by omega) (by decide)).mp (by rw [intCode_one_spec.2]; exact hlow.trans_lt hone)
    have hlast : lastPlace F32 k ≤ -24 := by
      rw [lastPlace_code (by omega), placeAt]
      omega
    have hunit : (2 : ℝ) ^ lastPlace F32 k ≤ 2 ^ (-22 : Int) := zpow_le_zpow_right₀ (by norm_num) (by omega)
    rw [signed_sub_abs, signOf_decide_mul, abs_le]
    constructor <;> linarith
  · have hone : 1 ≤ |L| := by
      rw [NearZero, not_and_or, not_le, not_le] at hfar
      rcases hfar with hneg | hpos
      · have : (⌊L⌋ : ℝ) + 1 ≤ -1 := by exact_mod_cast (by omega : ⌊L⌋ + 1 ≤ -1)
        rw [abs_of_neg (by linarith)]
        linarith
      · have : (1 : ℝ) ≤ ⌊L⌋ := by exact_mod_cast hpos
        rw [abs_of_pos (by linarith)]
        linarith
    have hk1 : 1065353216 < k + 1 := (magnitude_lt_iff (by decide) (by omega)).mp (by rw [intCode_one_spec.2]; exact hone.trans_lt hhigh')
    rw [withinUnits_iff (by omega) (by omega), signOf_decide_mul]
    exact within_of_floor (by decide) hlow hhigh

/-- Away from zero an admitted code has the logarithm's sign, and its bound is in units. -/
theorem log2Fits_far {L : ℝ} (hrange : LogRange L) {neg : Bool} {k : Nat} (h : Log2Fits L neg k) (hfar : ¬ NearZero L) :
    neg = decide (L < 0) ∧ 8388608 ≤ k ∧ Within 2 |L| k := by
  obtain ⟨h1, h2⟩ := hrange
  have hk := h.finite
  obtain ⟨hge, hle⟩ := h.between
  rw [f32Place_signed (by omega)] at hge hle
  have hsign : neg = decide (L < 0) ∧ 8388608 ≤ k := by
    have hone {a : Nat} (ha : a ≤ 2139095039) (hmag : 1 ≤ magnitude a) : 1065353216 ≤ a :=
      (magnitude_le_iff (by decide) (by omega)).mp (by rwa [intCode_one_spec.2])
    rw [NearZero, not_and_or, not_le, not_le] at hfar
    rcases hfar with hneg | hpos
    · obtain ⟨a, ha, hplace, hmag⟩ := place_intCode_neg (show ⌊L⌋ + 1 < 0 by omega) (natAbs_lt (by omega) (by omega))
      have hLneg : L < 0 := (Int.lt_floor_add_one L).trans (by exact_mod_cast (by omega : ⌊L⌋ + 1 < 0))
      have hbig := hone ha (by
        rw [hmag]
        exact_mod_cast (by omega : 1 ≤ -(⌊L⌋ + 1)))
      rw [hplace] at hle
      rw [decide_eq_true hLneg]
      cases neg with
      | true =>
        simp only [if_true] at hle
        exact ⟨rfl, by omega⟩
      | false =>
        simp only [Bool.false_eq_true, if_false] at hle
        omega
    · obtain ⟨a, ha, hplace, hmag⟩ := place_intCode_nonneg (show 0 ≤ ⌊L⌋ by omega) (natAbs_lt h1 (by omega))
      have hLpos : ¬ L < 0 := not_lt.mpr (Int.floor_nonneg.mp (by omega))
      have hbig := hone ha (by
        rw [hmag]
        exact_mod_cast hpos)
      rw [hplace] at hge
      rw [decide_eq_false hLpos]
      cases neg with
      | true =>
        simp only [if_true] at hge
        omega
      | false =>
        simp only [Bool.false_eq_true, if_false] at hge
        exact ⟨rfl, by omega⟩
  obtain ⟨rfl, hbig⟩ := hsign
  have hwithin := h.far hfar
  rw [withinUnits_iff (by omega) hbig, signOf_decide_mul] at hwithin
  exact ⟨rfl, hbig, hwithin⟩

/-- The bound holds. -/
theorem log2Fits_accuracy {L : ℝ} (hrange : LogRange L) {neg : Bool} {k : Nat} (h : Log2Fits L neg k) :
    (NearZero L → |signOf neg * magnitude k - L| ≤ 2 ^ (-22 : Int)) ∧
      (¬ NearZero L → ∀ u, IsUlp L u → |signOf neg * magnitude k - L| ≤ 2 * u) := by
  refine ⟨h.near, fun hfar u hu => ?_⟩
  have hk := h.finite
  obtain ⟨rfl, -, hwithin⟩ := log2Fits_far hrange h hfar
  have hL0 : L ≠ 0 := by
    rintro rfl
    exact hfar ⟨by rw [Int.floor_zero]; decide, by rw [Int.floor_zero]⟩
  have hu' : IsUlp |L| u := by
    unfold IsUlp at hu ⊢
    rwa [abs_abs]
  have := within_error (by decide) le_rfl (by omega) (abs_pos.mpr hL0) hwithin hu'
  rwa [signed_sub_abs, signOf_decide_mul, ← Nat.cast_ofNat (R := ℝ) (n := 2)]

/-- Away from zero, and between the same whole numbers, codes that stand out of order meet each other's bounds. -/
theorem far_shared {L L' : ℝ} (hL : LogRange L) (hL' : LogRange L') (hle : L ≤ L') (hsame : ⌊L⌋ = ⌊L'⌋) {s s' : Bool} {k k' : Nat} (h : Log2Fits L s k)
    (h' : Log2Fits L' s' k') (hlt : f32Place (F32.signed s' k') < f32Place (F32.signed s k)) (hfar : ¬ NearZero L) (hfar' : ¬ NearZero L') :
    WithinUnits s k L' ∧ WithinUnits s' k' L := by
  have hk := h.finite
  have hk' := h'.finite
  obtain ⟨hs, hbig, hwithin⟩ := log2Fits_far hL h hfar
  obtain ⟨hs', hbig', hwithin'⟩ := log2Fits_far hL' h' hfar'
  have hfloor := Int.floor_le L
  have hfloor' := Int.lt_floor_add_one L'
  rw [f32Place_signed (by omega), f32Place_signed (by omega)] at hlt
  rw [withinUnits_iff (by omega) hbig, withinUnits_iff (by omega) hbig']
  by_cases hneg : ⌊L⌋ < 0
  · have hL0' : L' < 0 := hfloor'.trans_le (by rw [← hsame]; exact_mod_cast (by omega : ⌊L⌋ + 1 ≤ 0))
    have hL0 : L < 0 := by linarith
    obtain rfl : s = true := hs.trans (decide_eq_true hL0)
    obtain rfl : s' = true := hs'.trans (decide_eq_true hL0')
    simp only [if_true] at hlt
    rw [abs_of_neg hL0] at hwithin
    rw [abs_of_neg hL0'] at hwithin'
    simp only [signOf, if_true, neg_one_mul]
    obtain ⟨h1, h2⟩ := within_shared (by decide) le_rfl (neg_le_neg hle) hwithin' hwithin (show k ≤ k' by omega) (by omega)
    exact ⟨h2, h1⟩
  · have hL0 : 0 ≤ L := Int.floor_nonneg.mp (by omega)
    have hL0' : 0 ≤ L' := by linarith
    obtain rfl : s = false := hs.trans (decide_eq_false hL0.not_gt)
    obtain rfl : s' = false := hs'.trans (decide_eq_false hL0'.not_gt)
    simp only [Bool.false_eq_true, if_false] at hlt
    rw [abs_of_nonneg hL0] at hwithin
    rw [abs_of_nonneg hL0'] at hwithin'
    rw [signOf_false_mul, signOf_false_mul]
    exact within_shared (by decide) le_rfl hle hwithin hwithin' (show k' ≤ k by omega) (by omega)

/-- What is admitted rises with the logarithm. -/
theorem log2Fits_shared {L L' : ℝ} (hL : LogRange L) (hL' : LogRange L') (hle : L ≤ L') {s s' : Bool} {k k' : Nat} (h : Log2Fits L s k)
    (h' : Log2Fits L' s' k') (hlt : f32Place (F32.signed s' k') < f32Place (F32.signed s k)) : Log2Fits L' s k ∧ Log2Fits L s' k' := by
  have hk := h.finite
  have hk' := h'.finite
  have hfloor : ⌊L⌋ ≤ ⌊L'⌋ := Int.floor_le_floor hle
  obtain ⟨hlow, hhigh⟩ := id hL
  obtain ⟨hlow', hhigh'⟩ := id hL'
  obtain ⟨hge, hle1⟩ := h.between
  obtain ⟨hge', hle1'⟩ := h'.between
  have hsame : ⌊L⌋ = ⌊L'⌋ := by
    by_contra hne
    have := place_intCode_mono (natAbs_lt (show -149 ≤ ⌊L⌋ + 1 by omega) (by omega)) (natAbs_lt hlow' (by omega)) (show ⌊L⌋ + 1 ≤ ⌊L'⌋ by omega)
    omega
  have hbetween : BetweenWholes L' (F32.signed s k) ∧ BetweenWholes L (F32.signed s' k') := by
    unfold BetweenWholes
    rw [hsame] at hge hle1 ⊢
    omega
  have hnearIff : NearZero L ↔ NearZero L' := by rw [NearZero, NearZero, hsame]
  have hvalue := valueOf_le_of_place (signed_lt (by omega) s') (signed_lt (by omega) s) hlt.le
  rw [valueOf_signed (by omega), valueOf_signed (by omega)] at hvalue
  refine ⟨⟨hk, hbetween.1, fun hnear => ?_, fun hfar => ?_⟩, ⟨hk', hbetween.2, fun hnear => ?_, fun hfar => ?_⟩⟩
  · have h1 := abs_le.mp (h.near (hnearIff.mpr hnear))
    have h2 := abs_le.mp (h'.near hnear)
    exact abs_le.mpr ⟨by linarith, by linarith⟩
  · exact (far_shared hL hL' hle hsame h h' hlt (mt hnearIff.mp hfar) hfar).1
  · have h1 := abs_le.mp (h.near hnear)
    have h2 := abs_le.mp (h'.near (hnearIff.mp hnear))
    exact abs_le.mpr ⟨by linarith, by linarith⟩
  · exact (far_shared hL hL' hle hsame h h' hlt hfar (mt hnearIff.mpr hfar)).2

/-! ### The result -/

/-- The code of the result before flushing, for the operand `w` of logarithm `L`. -/
structure Log2Gives (ftz : Bool) (w : Word) (L : ℝ) (c : Nat) : Prop where
  result  : sfuLog2 ftz w = word32 (sfuFlush ftz c, 0)
  word    : c < 4294967296
  between : BetweenWholes L c
  whole   : L = ⌊L⌋ → c = intCode ⌊L⌋
  free    : L ≠ ⌊L⌋ → ∃ (m : Nat) (e : Int), m ≠ 0 ∧ L = Real.logb 2 (m * 2 ^ e) ∧ c = chosen 4 w.toNat (log2Ok m e)

theorem logRange_magnitude {k : Nat} (h0 : k ≠ 0) (hk : k ≤ 2139095039) : LogRange (Real.logb 2 (magnitude k)) := by
  have hm := significand_ne_zero h0 (by omega)
  obtain ⟨hlow, hhigh⟩ := exponent_bounds h0 hk
  have hfloor := floor_logb (magnitude_pos h0 (by omega)) hm
  exact ⟨hlow.trans_eq hfloor.symm, hfloor.trans_le hhigh⟩

theorem log2Ok_admits {m : Nat} {e : Int} (hm : m ≠ 0) (hrange : LogRange (Real.logb 2 (m * 2 ^ e)))
    (hfree : Real.logb 2 (m * 2 ^ e) ≠ ⌊Real.logb 2 (m * 2 ^ e)⌋) : Admits (log2Ok m e) := by
  obtain ⟨k, hfits⟩ := exists_log2Fits hrange hfree
  have hk := hfits.finite
  exact ⟨_, signed_lt (by omega) _, (log2Ok_iff hm _ (by omega)).mpr hfits⟩

theorem exists_log2Gives {ftz : Bool} {w : Word} {x : ℝ} (h : IsOperand F32 ftz w.toNat x) (hpos : 0 < x) :
    LogRange (Real.logb 2 x) ∧ ∃ c, Log2Gives ftz w (Real.logb 2 x) c := by
  have hoperand := h
  obtain ⟨hk, h0, rfl, hread⟩ := positive_operand h hpos
  have hrange := logRange_magnitude h0 hk
  have hm := significand_ne_zero h0 (by omega)
  refine ⟨hrange, ?_⟩
  by_cases hwhole : Real.logb 2 (magnitude w.toNat) = ⌊Real.logb 2 (magnitude w.toNat)⌋
  · obtain ⟨h1, h2⟩ := hrange
    have hpower : magnitude w.toNat = 2 ^ ⌊Real.logb 2 (magnitude w.toNat)⌋ := by
      rw [← Real.rpow_intCast, ← hwhole, Real.rpow_logb (by norm_num) (by norm_num) hpos]
    rw [hpower] at hoperand
    obtain ⟨hresult, hsmall⟩ := sfuLog2_power hoperand
    refine ⟨_, by rw [hresult, sfuFlush_intCode ftz hsmall], (isValue_intCode hsmall).2, ⟨le_rfl, ?_⟩, fun _ => rfl, fun hne => absurd hwhole hne⟩
    exact place_intCode_mono hsmall (natAbs_lt (by omega) (by omega)) (by omega)
  · obtain ⟨hlt, hok⟩ := chosen_ok (log2Ok_admits hm hrange hwhole) 4 w.toNat
    have hnot : ¬ significand F32 w.toNat = 2 ^ Nat.log2 (significand F32 w.toNat) := by
      intro hpow
      refine hwhole ?_
      have hpower : magnitude w.toNat = 2 ^ topOf (significand F32 w.toNat) (lastPlace F32 w.toNat) := by
        have hcast : (significand F32 w.toNat : ℝ) = 2 ^ Nat.log2 (significand F32 w.toNat) := by exact_mod_cast hpow
        rw [magnitude, topOf, zpow_add₀ (by norm_num), zpow_natCast, ← hcast, mul_comm]
      rw [hpower, ← Real.rpow_intCast, Real.logb_rpow (by norm_num) (by norm_num), Int.floor_intCast]
    obtain ⟨s, k, hk', hcode⟩ := exists_signed hlt
    refine ⟨chosen 4 w.toNat (log2Ok (significand F32 w.toNat) (lastPlace F32 w.toNat)), ?_, hlt, ?_, fun heq => absurd heq hwhole,
      fun _ => ⟨_, _, hm, rfl, rfl⟩⟩
    · rw [sfuLog2_fin hread hm, if_neg (by simpa using hnot)]
    · rw [hcode] at hok ⊢
      exact ((log2Ok_iff hm s hk').mp hok).between

/-- The absolute bound holds about 1, and that in units elsewhere. -/
theorem nearZero_logb_iff {x : ℝ} (hx : 0 < x) : NearZero (Real.logb 2 x) ↔ 1 / 2 ≤ x ∧ x < 2 := by
  have hhalf : (2 : ℝ) ^ (-1 : ℝ) = 1 / 2 := by rw [Real.rpow_neg_one]; norm_num
  have hlow : -1 ≤ ⌊Real.logb 2 x⌋ ↔ 1 / 2 ≤ x := by
    rw [Int.le_floor, Int.cast_neg, Int.cast_one, ← two_rpow_le_iff hx, hhalf]
  have hhigh : ⌊Real.logb 2 x⌋ ≤ 0 ↔ x < 2 := by
    rw [← Int.lt_add_one_iff, Int.floor_lt, zero_add, Int.cast_one, Real.logb_lt_iff_lt_rpow (by norm_num) hx, Real.rpow_one]
  rw [NearZero, hlow, hhigh]

/-- What `Claims.SpecialFunctionAccuracy` asks of a result of `LOG2`. -/
def Log2Good (x y : ℝ) : Prop :=
  (1 / 2 ≤ x → x ≤ 2 → |y - Real.logb 2 x| ≤ 2 ^ (-22 : Int)) ∧
    (¬ (1 / 2 ≤ x ∧ x ≤ 2) → ∀ u, IsUlp (Real.logb 2 x) u → |y - Real.logb 2 x| ≤ 2 * u)

theorem sfuLog2_accuracy {ftz : Bool} {w : Word} {x : ℝ} (h : IsOperand F32 ftz w.toNat x) (hpos : 0 < x) :
    GivesCode ftz (sfuLog2 ftz w) (Log2Good x) := by
  obtain ⟨hrange, c, hgives⟩ := exists_log2Gives h hpos
  obtain ⟨h1, h2⟩ := id hrange
  rw [hgives.result]
  by_cases hwhole : Real.logb 2 x = ⌊Real.logb 2 x⌋
  · have hsmall := natAbs_lt h1 (by omega)
    have hexact : |(⌊Real.logb 2 x⌋ : ℝ) - Real.logb 2 x| = 0 := by rw [← hwhole, sub_self, abs_zero]
    rw [hgives.whole hwhole]
    refine givesCode_flush ftz (isValue_intCode hsmall).1 (isValue_intCode hsmall).2 ⟨fun _ _ => ?_, fun _ u hu => ?_⟩
    · rw [hexact]
      positivity
    · obtain ⟨k, rfl, -⟩ := hu
      rw [hexact]
      positivity
  · obtain ⟨m, e, hm, hL, hc⟩ := hgives.free hwhole
    rw [hL] at hrange hwhole
    obtain ⟨hlt, hok⟩ := chosen_ok (log2Ok_admits hm hrange hwhole) 4 w.toNat
    rw [← hc] at hlt hok
    obtain ⟨s, k, hk, rfl⟩ := exists_signed hlt
    have hfits := (log2Ok_iff hm s hk).mp hok
    obtain ⟨hnear, hfar⟩ := log2Fits_accuracy hrange hfits
    rw [← hL] at hnear hfar hwhole
    have hne : x ≠ 2 := by
      rintro rfl
      exact hwhole (by rw [Real.logb_self_eq_one (by norm_num), Int.floor_one, Int.cast_one])
    refine givesCode_flush ftz (isValue_signed hfits.finite s) hlt ⟨fun hlow hhigh => ?_, fun hout u hu => ?_⟩
    · exact hnear ((nearZero_logb_iff hpos).mpr ⟨hlow, lt_of_le_of_ne hhigh hne⟩)
    · exact hfar (fun hn => hout (((nearZero_logb_iff hpos).mp hn).imp_right le_of_lt)) u hu

/-- Of two positive operands the greater has no less a result. -/
theorem sfuLog2_rises_pos {ftz : Bool} {v w : Word} {x y p q : ℝ} (hv : IsOperand F32 ftz v.toNat x) (hw : IsOperand F32 ftz w.toNat y) (hx : 0 < x)
    (hxy : x < y) (hp : IsValue F32 (sfuLog2 ftz v).1.toNat p) (hq : IsValue F32 (sfuLog2 ftz w).1.toNat q) : p ≤ q := by
  obtain ⟨hrange, c, hc⟩ := exists_log2Gives hv hx
  obtain ⟨hrange', c', hc'⟩ := exists_log2Gives hw (hx.trans hxy)
  have hlog : Real.logb 2 x < Real.logb 2 y := Real.logb_lt_logb (by norm_num) hx hxy
  have hkey : v.toNat ≤ w.toNat := by
    obtain ⟨hk, -, hxk, -⟩ := positive_operand hv hx
    obtain ⟨hk', -, hyk, -⟩ := positive_operand hw (hx.trans hxy)
    rw [hxk, hyk, magnitude_lt_iff (by omega) (by omega)] at hxy
    exact hxy.le
  rw [hc.result] at hp
  rw [hc'.result] at hq
  refine flushed_values_le hc.word hc'.word ?_ hp hq
  generalize Real.logb 2 x = L at *
  generalize Real.logb 2 y = L' at *
  obtain ⟨hlow, hhigh⟩ := id hrange
  obtain ⟨hlow', hhigh'⟩ := id hrange'
  have hfloor : ⌊L⌋ ≤ ⌊L'⌋ := Int.floor_le_floor hlog.le
  by_cases hnext : ⌊L⌋ < ⌊L'⌋
  · calc f32Place c ≤ f32Place (intCode (⌊L⌋ + 1)) := hc.between.2
      _ ≤ f32Place (intCode ⌊L'⌋) := place_intCode_mono (natAbs_lt (by omega) (by omega)) (natAbs_lt hlow' (by omega)) (by omega)
      _ ≤ f32Place c' := hc'.between.1
  have hsame : ⌊L⌋ = ⌊L'⌋ := by omega
  have hfree' : L' ≠ ⌊L'⌋ := by
    intro heq
    rw [heq, ← hsame] at hlog
    exact absurd (Int.floor_le L) (not_le.mpr hlog)
  by_cases hwhole : L = ⌊L⌋
  · rw [hc.whole hwhole, hsame]
    exact hc'.between.1
  obtain ⟨m, e, hm, rfl, hcx⟩ := hc.free hwhole
  obtain ⟨m', e', hm', rfl, hcy⟩ := hc'.free hfree'
  have hrises : Rises (log2Ok m e) (log2Ok m' e') := by
    intro d d' hd hd' hok hok' hlt
    obtain ⟨s, k, hk, rfl⟩ := exists_signed hd
    obtain ⟨s', k', hk', rfl⟩ := exists_signed hd'
    obtain ⟨h1, h2⟩ := log2Fits_shared hrange hrange' hlog.le ((log2Ok_iff hm s hk).mp hok) ((log2Ok_iff hm' s' hk').mp hok') hlt
    exact ⟨(log2Ok_iff hm' s hk).mpr h1, (log2Ok_iff hm s' hk').mpr h2⟩
  rw [hcx, hcy]
  exact chosen_place_le hrises (log2Ok_admits hm hrange hwhole) (log2Ok_admits hm' hrange' hfree') 4 hkey

/-- A zero has no logarithm. -/
theorem sfuLog2_zero {ftz : Bool} {w : Word} (h : IsOperand F32 ftz w.toNat 0) : sfuLog2 ftz w = word32 (F32.signed true F32.top, fDZ) := by
  obtain ⟨neg, k, hk, hw, ⟨-, e, hread⟩ | ⟨h0, hx, -⟩⟩ := operand_code h
  · rw [sfuLog2, hread]
    rfl
  · exact absurd hx.symm (mul_ne_zero (signOf_ne_zero neg) (magnitude_pos h0 (by omega)).ne')

theorem sfuLog2_rises {ftz : Bool} {v w : Word} {x y p q : ℝ} (hv : IsOperand F32 ftz v.toNat x) (hw : IsOperand F32 ftz w.toNat y) (hx : 0 ≤ x)
    (hxy : x < y) (hp : IsValue F32 (sfuLog2 ftz v).1.toNat p) (hq : IsValue F32 (sfuLog2 ftz w).1.toNat q) : p ≤ q := by
  rcases hx.eq_or_lt with rfl | hx
  · rw [sfuLog2_zero hv, word32_toNat (by decide)] at hp
    exact absurd ⟨rfl, by decide, by decide⟩ hp.2.1
  · exact sfuLog2_rises_pos hv hw hx hxy hp hq

end Sys2Proof.Proofs
end

