-- ==== Sys2Proof/Proofs/RootOrder.lean ====
section
/-! The order of the results of `RCP`, `SQRT` and `RSQ` (R109): a number rounded once does not pass a greater one that is. -/

namespace Sys2Proof.Proofs

open Sys2Proof.Machine Sys2Proof.Says Sys2Proof.Laws

/-! ### Rounding to nearest keeps the order -/

/-- The values nearest to two numbers are in their order: else the middle between them would part the numbers the other way. -/
theorem nearest_le {v v' w w' : ℝ} (hv : v < v') (h : |v - w| ≤ |v - w'|) (h' : |v' - w'| ≤ |v' - w|) : w ≤ w' := by
  by_contra hlt
  rw [not_le] at hlt
  rw [← sq_le_sq] at h h'
  have hmiddle : (w - w') * (w + w' - 2 * v) ≤ 0 := by linarith
  have hmiddle' : 0 ≤ (w - w') * (w + w' - 2 * v') := by linarith
  have hlow : w + w' - 2 * v ≤ 0 := by
    by_contra hpos
    exact absurd (mul_pos (sub_pos.mpr hlt) (not_le.mp hpos)) (not_lt.mpr hmiddle)
  have hhigh : 0 ≤ w + w' - 2 * v' := nonneg_of_mul_nonneg_right hmiddle' (sub_pos.mpr hlt)
  linarith

/-- The codes of two rounded numbers are in their order, zeros by their signs. -/
theorem rounding_place_le {v v' : ℝ} (hv : v < v') {c c' : Nat} (h : IsRounding F32 0 v c) (h' : IsRounding F32 0 v' c') : f32Place c ≤ f32Place c' := by
  have htwo : 2 * 2 ^ (F32.ebits + F32.mbits) = 4294967296 := by decide
  obtain ⟨hc, hsign, w, hw, hnear⟩ := h
  obtain ⟨hc', hsign', w', hw', hnear'⟩ := h'
  rw [htwo] at hc hc'
  have hle : w ≤ w' := nearest_le hv (hnear c' w' hw').1 (hnear' c w hw).1
  by_contra hlt
  have hge := valueOf_le_of_place hc' hc (Nat.not_le.mp hlt).le
  rw [← eq_valueOf hw, ← eq_valueOf hw'] at hge
  obtain rfl := le_antisymm hle hge
  obtain ⟨s, k, hk, rfl, hvalue⟩ := isValue_code hc hw
  obtain ⟨s', k', hk', rfl, hvalue'⟩ := isValue_code hc' hw'
  rw [(signed_code (by omega) s).1] at hsign
  rw [(signed_code (by omega) s').1] at hsign'
  rw [f32Place_signed (by omega), f32Place_signed (by omega)] at hlt
  have hsame (heq : magnitude k = magnitude k') : k = k' :=
    le_antisymm ((magnitude_le_iff (by omega) (by omega)).mp heq.le) ((magnitude_le_iff (by omega) (by omega)).mp heq.ge)
  rw [hvalue] at hvalue'
  cases s with
  | true =>
    cases s' with
    | true =>
      obtain rfl := hsame (mul_left_cancel₀ (signOf_ne_zero true) hvalue')
      exact hlt le_rfl
    | false =>
      simp only [if_true, Bool.false_eq_true, if_false] at hlt
      omega
  | false =>
    cases s' with
    | true => exact of_decide_eq_false hsign.symm (hv.trans (of_decide_eq_true hsign'.symm))
    | false =>
      obtain rfl := hsame (mul_left_cancel₀ (signOf_ne_zero false) hvalue')
      exact hlt le_rfl

/-- A rounded result that has a value is a flushed code. -/
theorem roundsTo_flushed {ftz : Bool} {v : ℝ} {r : Nat × BitVec 6} (h : RoundsTo F32 0 ftz v r) {p : ℝ}
    (hp : IsValue F32 (BitVec.ofNat 32 r.1).toNat p) : ∃ c, IsRounding F32 0 v c ∧ c < 4294967296 ∧ p = valueOf (sfuFlush ftz c) := by
  obtain ⟨hover, hfits⟩ := h
  by_cases ho : Overflows F32 0 v
  · exfalso
    have hinf : isInf F32 (BitVec.ofNat 32 (infOf F32 (decide (v < 0)))).toNat := by
      cases decide (v < 0) <;> exact ⟨rfl, by decide, by decide⟩
    rw [hover ho] at hp
    exact hp.2.1 hinf
  · obtain ⟨c, hround, hflush, hkeep⟩ := hfits ho
    obtain ⟨hc, hsign, -⟩ := id hround
    rw [show 2 * 2 ^ (F32.ebits + F32.mbits) = 4294967296 by decide] at hc
    refine ⟨c, hround, hc, ?_⟩
    have hcode : r.1 = sfuFlush ftz c := by
      unfold sfuFlush
      by_cases hsub : ftz = true ∧ isSubnormal F32 c
      · rw [if_pos (by rw [Bool.and_eq_true, subnormal_iff]; exact hsub), hflush hsub, negative_eq, hsign]
        rfl
      · rw [if_neg (by rw [Bool.and_eq_true, subnormal_iff]; exact hsub), (hkeep hsub).1]
    rw [hcode, BitVec.toNat_ofNat, Nat.mod_eq_of_lt (sfuFlush_lt ftz hc)] at hp
    exact eq_valueOf hp

/-- Results rounded once are in the order of the exact ones. -/
theorem roundsTo_le {ftz : Bool} {v v' : ℝ} (hv : v < v') {r r' : Nat × BitVec 6} (h : RoundsTo F32 0 ftz v r) (h' : RoundsTo F32 0 ftz v' r') {p q : ℝ}
    (hp : IsValue F32 (BitVec.ofNat 32 r.1).toNat p) (hq : IsValue F32 (BitVec.ofNat 32 r'.1).toNat q) : p ≤ q := by
  obtain ⟨c, hround, hc, rfl⟩ := roundsTo_flushed h hp
  obtain ⟨c', hround', hc', rfl⟩ := roundsTo_flushed h' hq
  exact valueOf_le_of_place (sfuFlush_lt ftz hc) (sfuFlush_lt ftz hc') (f32Place_sfuFlush_mono ftz hc hc' (rounding_place_le hv hround hround'))

/-- A positive number rounds to one that is not negative. -/
theorem roundsTo_nonneg {ftz : Bool} {v : ℝ} (hv : 0 < v) {r : Nat × BitVec 6} (h : RoundsTo F32 0 ftz v r) {p : ℝ}
    (hp : IsValue F32 (BitVec.ofNat 32 r.1).toNat p) : 0 ≤ p := by
  obtain ⟨c, ⟨-, hsign, -⟩, hc, rfl⟩ := roundsTo_flushed h hp
  obtain ⟨s, k, hk, rfl⟩ := exists_signed hc
  rw [(signed_code hk s).1, decide_eq_false hv.le.not_gt] at hsign
  rw [hsign, sfuFlush_signed ftz hk, valueOf_signed (flushed_lt ftz hk), signOf_false_mul]
  exact magnitude_nonneg _

/-! ### The functions -/

section
variable {ftz : Bool} {v w : Word} {x y p q : ℝ} (hv : IsOperand F32 ftz v.toNat x) (hw : IsOperand F32 ftz w.toNat y) (hxy : x < y)
include hv hw hxy

theorem sfuRcp_falls (hsame : 0 < x * y) (hp : IsValue F32 (sfuRcp ftz v).1.toNat p) (hq : IsValue F32 (sfuRcp ftz w).1.toNat q) : q ≤ p := by
  have hx0 : x ≠ 0 := left_ne_zero_of_mul hsame.ne'
  have hy0 : y ≠ 0 := right_ne_zero_of_mul hsame.ne'
  obtain ⟨⟨r, hr, hresult⟩, -⟩ := claims_rootsAndReciprocals ftz v x hv hx0
  obtain ⟨⟨r', hr', hresult'⟩, -⟩ := claims_rootsAndReciprocals ftz w y hw hy0
  rw [hresult] at hp
  rw [hresult'] at hq
  have hfalls : 1 / y < 1 / x := by
    rw [← sub_pos, div_sub_div _ _ hx0 hy0, one_mul, mul_one]
    exact div_pos (sub_pos.mpr hxy) hsame
  exact roundsTo_le hfalls hr' hr hq hp

theorem sfuSqrt_rises (hx : 0 ≤ x) (hp : IsValue F32 (sfuSqrt ftz v).1.toNat p) (hq : IsValue F32 (sfuSqrt ftz w).1.toNat q) : p ≤ q := by
  have hy : 0 < y := hx.trans_lt hxy
  obtain ⟨r', hr', hresult'⟩ := (claims_rootsAndReciprocals ftz w y hw hy.ne').2.1 hy
  rw [hresult'] at hq
  rcases hx.eq_or_lt with rfl | hpos
  · obtain ⟨neg, k, hk, hvc, ⟨-, e, hread⟩ | ⟨h0, hzero, -⟩⟩ := operand_code hv
    · have hresult : sfuSqrt ftz v = word32 (F32.zero neg, 0) := by
        rw [sfuSqrt, hread]
        rfl
      have hcode : F32.zero neg = F32.signed neg 0 := rfl
      rw [hresult, hcode, word32_toNat (signed_lt (by decide) neg)] at hp
      have hp0 : p = 0 := by rw [eq_valueOf hp, valueOf_signed (by decide), magnitude_zero, mul_zero]
      rw [hp0]
      exact roundsTo_nonneg (Real.sqrt_pos.mpr hy) hr' hq
    · exact absurd hzero.symm (mul_ne_zero (signOf_ne_zero neg) (magnitude_pos h0 (by omega)).ne')
  · obtain ⟨r, hr, hresult⟩ := (claims_rootsAndReciprocals ftz v x hv hpos.ne').2.1 hpos
    rw [hresult] at hp
    exact roundsTo_le (Real.sqrt_lt_sqrt hx hxy) hr hr' hp hq

theorem sfuRsq_falls (hx : 0 ≤ x) (hp : IsValue F32 (sfuRsq ftz v).1.toNat p) (hq : IsValue F32 (sfuRsq ftz w).1.toNat q) : q ≤ p := by
  rcases hx.eq_or_lt with rfl | hpos
  · obtain ⟨neg, k, hk, hvc, ⟨-, e, hread⟩ | ⟨h0, hzero, -⟩⟩ := operand_code hv
    · have hresult : sfuRsq ftz v = word32 (F32.signed neg F32.top, fDZ) := by
        rw [sfuRsq, hread]
        rfl
      have hinf : isInf F32 (word32 (F32.signed neg F32.top, fDZ)).1.toNat := by
        cases neg <;> exact ⟨rfl, by decide, by decide⟩
      rw [hresult] at hp
      exact absurd hinf hp.2.1
    · exact absurd hzero.symm (mul_ne_zero (signOf_ne_zero neg) (magnitude_pos h0 (by omega)).ne')
  obtain ⟨hk, h0, rfl, hread⟩ := positive_operand hv hpos
  obtain ⟨hk', h0', rfl, hread'⟩ := positive_operand hw (hpos.trans hxy)
  have hm := significand_ne_zero h0 (by omega)
  have hm' := significand_ne_zero h0' (by omega)
  have hroots : 1 / Real.sqrt (magnitude w.toNat) ≤ 1 / Real.sqrt (magnitude v.toNat) :=
    one_div_le_one_div_of_le (Real.sqrt_pos.mpr hpos) (Real.sqrt_le_sqrt hxy.le)
  have hrises : Rises (rsqOk (significand F32 w.toNat) (lastPlace F32 w.toNat)) (rsqOk (significand F32 v.toNat) (lastPlace F32 v.toNat)) := by
    intro c c' hc hc' hok hok' hlt
    obtain ⟨hle, hne, hwithin⟩ := (rsqOk_iff hm' _ hc).mp hok
    obtain ⟨hle', hne', hwithin'⟩ := (rsqOk_iff hm _ hc').mp hok'
    rw [f32Place_of_lt (by omega), f32Place_of_lt (by omega)] at hlt
    obtain ⟨h1, h2⟩ := within_shared le_rfl (by decide) hroots hwithin hwithin' (show c' ≤ c by omega) (by omega)
    exact ⟨(rsqOk_iff hm _ hc).mpr ⟨hle, hne, h1⟩, (rsqOk_iff hm' _ hc').mpr ⟨hle', hne', h2⟩⟩
  have hkey : F32.signBit - w.toNat ≤ F32.signBit - v.toNat := by
    have := (magnitude_lt_iff (show v.toNat < 2147483648 by omega) (show w.toNat < 2147483648 by omega)).mp hxy
    omega
  have hplace := chosen_place_le hrises (rsqOk_admits h0' hk') (rsqOk_admits h0 hk) 1 hkey
  obtain ⟨hlt, -⟩ := chosen_ok (rsqOk_admits h0 hk) 1 (F32.signBit - v.toNat)
  obtain ⟨hlt', -⟩ := chosen_ok (rsqOk_admits h0' hk') 1 (F32.signBit - w.toNat)
  rw [sfuRsq_fin hread hm, word32_toNat hlt] at hp
  rw [sfuRsq_fin hread' hm', word32_toNat hlt'] at hq
  rw [eq_valueOf hp, eq_valueOf hq]
  exact valueOf_le_of_place hlt' hlt hplace

end

end Sys2Proof.Proofs
end

