-- ==== Sys2Proof/Proofs/ExpSeries.lean ====
section
/-! The model's series of the exponential in whole units (R109, assumption 10): how little it falls short of the real one, and that it rises. -/

namespace Sys2Proof.Proofs

open Sys2Proof.Machine Sys2Proof.Says Sys2Proof.Laws

/-! ### The series without cutting -/

/-- The terms of the exponential series from the k-th on, which is `t`. -/
noncomputable def expSum (z : ℝ) : Nat → Nat → ℝ → ℝ
  | 0, _, _ => 0
  | n + 1, k, t => t + expSum z n (k + 1) (t * z / (k + 1 : Nat))

theorem expSum_eq (z c : ℝ) (n k : Nat) :
    expSum z n k (c * (z ^ k / (k.factorial : ℝ))) = c * ∑ i ∈ Finset.range n, z ^ (k + i) / ((k + i).factorial : ℝ) := by
  induction n generalizing k with
  | zero => rw [expSum, Finset.sum_range_zero, mul_zero]
  | succ n ih =>
    have hnext : c * (z ^ k / (k.factorial : ℝ)) * z / (k + 1 : Nat) = c * (z ^ (k + 1) / ((k + 1).factorial : ℝ)) := by
      have hk : ((k + 1 : Nat) : ℝ) ≠ 0 := by positivity
      rw [Nat.factorial_succ, Nat.cast_mul, pow_succ]
      field_simp
    rw [expSum, hnext, ih, Finset.sum_range_succ', add_zero, mul_add, add_comm]
    congr 2
    refine Finset.sum_congr rfl fun i _ => ?_
    rw [Nat.add_right_comm, Nat.add_assoc]

/-! ### Cutting each term -/

/-- How far the cut terms can fall short in sum, the k-th by `a`, for an exponent up to 20. -/
def lagSum : Nat → Nat → Nat → Nat
  | 0, _, _ => 0
  | n + 1, k, a => a + lagSum n (k + 1) (20 * a / (k + 1) + 2)

theorem lagSum_le : lagSum 200 0 0 ≤ 2 ^ 40 := by decide +kernel

/-- A quotient lies less than one above its whole part. -/
theorem div_lt_nat_div (a : Nat) {b : Nat} (hb : 0 < b) : (a : ℝ) / b < (a / b : Nat) + 1 := by
  have hpos : (0 : ℝ) < b := by exact_mod_cast hb
  rw [div_lt_iff₀ hpos]
  have h := Nat.lt_mul_div_succ a hb
  rw [Nat.mul_comm] at h
  exact_mod_cast h

section
variable {F y : Nat} (hF : 0 < F) (hy : y ≤ 20 * F)
include hF hy

/-- The next term, cut. -/
theorem cut_term {term a : Nat} {t : ℝ} (hlow : t - a ≤ term) (hhigh : (term : ℝ) ≤ t) (k : Nat) :
    t * (y / F) / (k + 1 : Nat) - (20 * a / (k + 1) + 2 : Nat) ≤ (term * y / ((k + 1) * F) : Nat) ∧
      ((term * y / ((k + 1) * F) : Nat) : ℝ) ≤ t * (y / F) / (k + 1 : Nat) := by
  have hFR : (0 : ℝ) < F := by exact_mod_cast hF
  have hk : (0 : ℝ) < (k + 1 : Nat) := by positivity
  have hz : (y : ℝ) / F ≤ 20 := by
    rw [div_le_iff₀ hFR]
    exact_mod_cast hy
  have hz0 : (0 : ℝ) ≤ (y : ℝ) / F := by positivity
  have hexact : (term : ℝ) * (y / F) / (k + 1 : Nat) = ((term * y : Nat) : ℝ) / (((k + 1) * F : Nat) : ℝ) := by
    rw [Nat.cast_mul, Nat.cast_mul]
    field_simp
  have hcut : ((term * y / ((k + 1) * F) : Nat) : ℝ) ≤ (term : ℝ) * (y / F) / (k + 1 : Nat) := hexact ▸ Nat.cast_div_le
  have hcut' : (term : ℝ) * (y / F) / (k + 1 : Nat) < (term * y / ((k + 1) * F) : Nat) + 1 := by
    rw [hexact]
    exact div_lt_nat_div _ (Nat.mul_pos (Nat.succ_pos k) hF)
  have hlag : (a : ℝ) * (y / F) / (k + 1 : Nat) < (20 * a / (k + 1) : Nat) + 1 := by
    refine lt_of_le_of_lt ?_ (div_lt_nat_div (20 * a) (Nat.succ_pos k))
    rw [Nat.cast_mul, Nat.cast_ofNat, mul_comm (20 : ℝ)]
    exact div_le_div_of_nonneg_right (mul_le_mul_of_nonneg_left hz (Nat.cast_nonneg a)) hk.le
  have hshort : t * (y / F) / (k + 1 : Nat) - (a : ℝ) * (y / F) / (k + 1 : Nat) ≤ (term : ℝ) * (y / F) / (k + 1 : Nat) := by
    rw [← sub_div, ← sub_mul]
    exact div_le_div_of_nonneg_right (mul_le_mul_of_nonneg_right hlow hz0) hk.le
  refine ⟨?_, hcut.trans (div_le_div_of_nonneg_right (mul_le_mul_of_nonneg_right hhigh hz0) hk.le)⟩
  rw [Nat.cast_add (20 * a / (k + 1)) 2, Nat.cast_ofNat]
  linarith

/-- The cut series against the real one. -/
theorem expSeries_near (n k : Nat) {term a : Nat} {t : ℝ} (hlow : t - a ≤ term) (hhigh : (term : ℝ) ≤ t) :
    expSum (y / F) n k t - lagSum n k a ≤ expSeries F y n k term ∧ (expSeries F y n k term : ℝ) ≤ expSum (y / F) n k t := by
  induction n generalizing k term a t with
  | zero => simp [expSum, lagSum, expSeries]
  | succ n ih =>
    obtain ⟨hcut, hcut'⟩ := cut_term hF hy hlow hhigh k
    obtain ⟨hrest, hrest'⟩ := ih (k + 1) hcut hcut'
    rw [expSum, lagSum, expSeries, Nat.cast_add a, Nat.cast_add term]
    constructor <;> linarith

/-- The cut series in units against the terms of the exponential. -/
theorem expSeries_ratio (n : Nat) :
    ∑ i ∈ Finset.range n, ((y : ℝ) / F) ^ i / (i.factorial : ℝ) - (lagSum n 0 0 : ℝ) / F ≤ (expSeries F y n 0 F : ℝ) / F ∧
      (expSeries F y n 0 F : ℝ) / F ≤ ∑ i ∈ Finset.range n, ((y : ℝ) / F) ^ i / (i.factorial : ℝ) := by
  have hFR : (0 : ℝ) < F := by exact_mod_cast hF
  obtain ⟨hlow, hhigh⟩ := expSeries_near hF hy n 0 (term := F) (a := 0) (t := F) (by simp) le_rfl
  have hsum := expSum_eq (y / F) F n 0
  simp only [pow_zero, Nat.factorial_zero, Nat.cast_one, div_one, mul_one, Nat.zero_add] at hsum
  rw [hsum] at hlow hhigh
  rw [div_le_iff₀ hFR, le_div_iff₀ hFR, sub_mul, div_mul_cancel₀ _ hFR.ne']
  constructor <;> linarith

end

/-! ### The exponential -/

/-- The terms from the 200th on are next to nothing. -/
theorem exp_tail_le {z : ℝ} (h0 : 0 ≤ z) (hz : z ≤ 20) : Real.exp z - ∑ i ∈ Finset.range 200, z ^ i / (i.factorial : ℝ) ≤ 1 / 2 ^ 250 * 2 := by
  have hnorm : ‖(z : ℂ)‖ = z := by rw [Complex.norm_real, Real.norm_of_nonneg h0]
  have hsmall : ‖(z : ℂ)‖ / (Nat.succ 200 : Nat) ≤ 1 / 2 := by
    rw [hnorm, div_le_iff₀ (by positivity)]
    norm_num
    linarith
  have hbound := Complex.exp_bound' hsmall
  have hcast : Complex.exp z - ∑ m ∈ Finset.range 200, (z : ℂ) ^ m / (m.factorial : ℂ) =
      ((Real.exp z - ∑ i ∈ Finset.range 200, z ^ i / (i.factorial : ℝ) : ℝ) : ℂ) := by push_cast; rfl
  rw [hcast, Complex.norm_real, hnorm] at hbound
  have hterm : z ^ 200 / ((Nat.factorial 200 : Nat) : ℝ) ≤ 1 / 2 ^ 250 := by
    have hfact : 20 ^ 200 * 2 ^ 250 ≤ Nat.factorial 200 := by decide +kernel
    have hfactR : (20 : ℝ) ^ 200 * 2 ^ 250 ≤ (Nat.factorial 200 : Nat) := by exact_mod_cast hfact
    have hpow : z ^ 200 ≤ 20 ^ 200 := pow_le_pow_left₀ h0 hz 200
    rw [div_le_div_iff₀ (by positivity) (by positivity), one_mul]
    exact (mul_le_mul_of_nonneg_right hpow (by positivity)).trans hfactR
  calc Real.exp z - ∑ i ∈ Finset.range 200, z ^ i / (i.factorial : ℝ) ≤ z ^ 200 / (Nat.factorial 200 : Nat) * 2 := (le_abs_self _).trans hbound
    _ ≤ 1 / 2 ^ 250 * 2 := mul_le_mul_of_nonneg_right hterm (by norm_num)

/-- The model's series, of 200 terms in units of 2^-256, against the exponential. -/
theorem expSeries_exp {y : Nat} (hy : y ≤ 20 * 2 ^ 256) :
    Real.exp (y / (2 ^ 256 : Nat)) - 1 / 2 ^ 200 ≤ (expSeries (2 ^ 256) y 200 0 (2 ^ 256) : ℝ) / (2 ^ 256 : Nat) ∧
      (expSeries (2 ^ 256) y 200 0 (2 ^ 256) : ℝ) / (2 ^ 256 : Nat) ≤ Real.exp (y / (2 ^ 256 : Nat)) := by
  have hF : 0 < 2 ^ 256 := by positivity
  have hlag : (lagSum 200 0 0 : ℝ) ≤ 2 ^ 40 := by exact_mod_cast lagSum_le
  have hz0 : (0 : ℝ) ≤ y / (2 ^ 256 : Nat) := by positivity
  have hz : (y : ℝ) / (2 ^ 256 : Nat) ≤ 20 := by
    rw [div_le_iff₀ (by positivity)]
    exact_mod_cast hy
  have hunit : (lagSum 200 0 0 : ℝ) / (2 ^ 256 : Nat) ≤ 1 / 2 ^ 201 := by
    rw [div_le_div_iff₀ (by positivity) (by positivity)]
    calc (lagSum 200 0 0 : ℝ) * 2 ^ 201 ≤ 2 ^ 40 * 2 ^ 201 := mul_le_mul_of_nonneg_right hlag (by positivity)
      _ ≤ 1 * (2 ^ 256 : Nat) := by norm_num
  have hsplit : (1 : ℝ) / 2 ^ 250 * 2 + 1 / 2 ^ 201 ≤ 1 / 2 ^ 200 := by norm_num
  obtain ⟨hlow, hhigh⟩ := expSeries_ratio hF hy 200
  have htail := exp_tail_le hz0 hz
  have hle := Real.sum_le_exp_of_nonneg hz0 200
  exact ⟨by linarith, hhigh.trans hle⟩

/-! ### Order -/

theorem expSeries_mono (F : Nat) {y y' : Nat} (h : y ≤ y') (n k : Nat) {term term' : Nat} (ht : term ≤ term') :
    expSeries F y n k term ≤ expSeries F y' n k term' := by
  induction n generalizing k term term' with
  | zero => exact le_rfl
  | succ n ih =>
    rw [expSeries, expSeries]
    exact Nat.add_le_add ht (ih _ (Nat.div_le_div_right (Nat.mul_le_mul ht h)))

/-- The first term is one. -/
theorem le_expSeries (F y n : Nat) : F ≤ expSeries F y (n + 1) 0 F := by
  rw [expSeries]
  exact Nat.le_add_right _ _

end Sys2Proof.Proofs
end

