-- ==== Sys2Proof/Proofs/TanhQuotient.lean ====
section
/-! The fraction with which the model compares the results of `TANH` (R109, assumption 10): its two forms, how near it lies to the real function,
and that it rises. -/

namespace Sys2Proof.Proofs

open Sys2Proof.Machine Sys2Proof.Says Sys2Proof.Laws

/-- The value of a fraction of the model. -/
noncomputable def ratio (r : Nat × Nat) : ℝ := (r.1 : ℝ) / r.2

/-- The model's fraction for tanh of a code's magnitude. -/
def tanhQuotient (k : Nat) : Nat × Nat := tanhFrac (significand F32 k) (lastPlace F32 k)

/-- Its value. -/
noncomputable def nearTanh (k : Nat) : ℝ := ratio (tanhQuotient k)

/-! ### The operands by their codes -/

theorem magnitude_ten : magnitude 1092616192 = 10 := by
  have h : codeOf F32 129 10485760 = 1092616192 := by decide
  rw [← h, magnitude_codeOf ⟨by decide, by decide⟩ (by decide)]
  norm_num

theorem magnitude_eighth : magnitude 1040187392 = 2 ^ (-3 : Int) := by
  have h : codeOf F32 123 8388608 = 1040187392 := by decide
  rw [← h, magnitude_codeOf ⟨by decide, by decide⟩ (by decide)]
  norm_num

/-- The least operand of the fraction's second form. -/
theorem magnitude_series : magnitude 931135488 = 2 ^ (-16 : Int) := by
  have h : codeOf F32 110 8388608 = 931135488 := by decide
  rw [← h, magnitude_codeOf ⟨by decide, by decide⟩ (by decide)]
  norm_num

theorem magnitude_lt_series {k : Nat} (hk : k < 931135488) : magnitude k < 2 ^ (-16 : Int) := by
  rwa [← magnitude_series, magnitude_lt_iff (by omega) (by decide)]

theorem topOf_lt_iff {k : Nat} (h0 : k ≠ 0) (hk : k < 2147483648) (j : Int) :
    topOf (significand F32 k) (lastPlace F32 k) < j ↔ magnitude k < 2 ^ j := by
  obtain ⟨hlow, hhigh⟩ := topOf_bounds (significand_ne_zero h0 hk) (lastPlace F32 k)
  rw [← magnitude] at hlow hhigh
  refine ⟨fun h => hhigh.trans_le (zpow_le_zpow_right₀ (by norm_num) (by omega)), fun h => ?_⟩
  exact (zpow_lt_zpow_iff_right₀ (by norm_num : (1 : ℝ) < 2)).mp (hlow.trans_lt h)

theorem topOf_lt_series_iff {k : Nat} (h0 : k ≠ 0) (hk : k < 2147483648) :
    topOf (significand F32 k) (lastPlace F32 k) < -16 ↔ k < 931135488 := by
  rw [topOf_lt_iff h0 hk, ← magnitude_series, magnitude_lt_iff hk (by decide)]

theorem topOf_lt_eighth_iff {k : Nat} (h0 : k ≠ 0) (hk : k < 2147483648) :
    topOf (significand F32 k) (lastPlace F32 k) < -3 ↔ k < 1040187392 := by
  rw [topOf_lt_iff h0 hk, ← magnitude_eighth, magnitude_lt_iff hk (by decide)]

/-! ### The first form -/

/-- Below 2^-16 the fraction is x - x³/3. -/
theorem tanhQuotient_cubic {k : Nat} (h0 : k ≠ 0) (hk : k < 931135488) :
    nearTanh k = magnitude k - magnitude k ^ 3 / 3 ∧ 0 < (tanhQuotient k).2 := by
  have htop := (topOf_lt_series_iff h0 (by omega)).mpr hk
  have hlt : magnitude k < 2 ^ (-16 : Int) := (topOf_lt_iff h0 (by omega) _).mp htop
  rw [topOf] at htop
  rw [nearTanh, tanhQuotient, tanhFrac, if_pos htop, ratio]
  rw [magnitude] at hlt ⊢
  generalize significand F32 k = m at *
  generalize hq : (-lastPlace F32 k).toNat = q at *
  have hplace : (2 : ℝ) ^ lastPlace F32 k = 1 / 2 ^ q := by
    rw [← zpow_natCast, ← hq, Int.toNat_of_nonneg (by omega), zpow_neg, one_div, inv_inv]
  rw [hplace] at hlt ⊢
  generalize hQ : 2 ^ q = Q at *
  have hQR : (2 : ℝ) ^ q = Q := by
    rw [← hQ]
    push_cast
    rfl
  rw [hQR] at hlt ⊢
  have hpos : 0 < Q := hQ ▸ Nat.two_pow_pos q
  have hposR : (0 : ℝ) < Q := by exact_mod_cast hpos
  have hle : m ≤ Q := by
    rw [mul_one_div, div_lt_iff₀ hposR] at hlt
    have : (m : ℝ) ≤ Q := by norm_num at hlt; linarith
    exact_mod_cast this
  have hsub : m * m ≤ 3 * Q * Q := by nlinarith
  dsimp only
  refine ⟨?_, by positivity⟩
  rw [Nat.cast_mul, Nat.cast_sub hsub]
  push_cast
  field_simp

/-! ### The second form -/

/-- Twice the operand in units of 2^-256. -/
def doubledOperand (k : Nat) : Nat := significand F32 k * 2 ^ (257 + lastPlace F32 k).toNat

/-- The model's e^(2x). -/
noncomputable def nearExp (k : Nat) : ℝ := (expSeries (2 ^ 256) (doubledOperand k) 200 0 (2 ^ 256) : ℝ) / (2 ^ 256 : Nat)

theorem doubledOperand_eq {k : Nat} (hlt : k < 2147483648) : (doubledOperand k : ℝ) / (2 ^ 256 : Nat) = 2 * magnitude k := by
  have hplace : -257 ≤ lastPlace F32 k := by
    rw [lastPlace_code hlt]
    omega
  rw [doubledOperand, magnitude, Nat.cast_mul, Nat.cast_pow, Nat.cast_pow, Nat.cast_ofNat, ← zpow_natCast, ← zpow_natCast,
    Int.toNat_of_nonneg (by omega), zpow_add₀ (by norm_num), div_eq_iff (by positivity)]
  have hunit : (2 : ℝ) ^ (257 : Int) = 2 * 2 ^ ((256 : Nat) : Int) := by
    rw [← zpow_one_add₀ (by norm_num)]
    rfl
  rw [hunit]
  ring

/-- From 2^-16 on the fraction is that of the series of e^(2x). -/
theorem tanhQuotient_series {k : Nat} (hk : 931135488 ≤ k) (hlt : k < 2147483648) :
    nearTanh k = (nearExp k - 1) / (nearExp k + 1) ∧ 0 < (tanhQuotient k).2 ∧ 1 ≤ nearExp k := by
  have htop := mt (topOf_lt_series_iff (by omega) hlt).mp (by omega)
  rw [topOf] at htop
  rw [nearTanh, tanhQuotient, tanhFrac, if_neg htop, ratio, nearExp]
  change ((expSeries (2 ^ 256) (doubledOperand k) 200 0 (2 ^ 256) - 2 ^ 256 : Nat) : ℝ) /
    (expSeries (2 ^ 256) (doubledOperand k) 200 0 (2 ^ 256) + 2 ^ 256 : Nat) = _ ∧ 0 < expSeries (2 ^ 256) (doubledOperand k) 200 0 (2 ^ 256) + 2 ^ 256 ∧ _
  have hge := le_expSeries (2 ^ 256) (doubledOperand k) 199
  rw [show 199 + 1 = 200 from rfl] at hge
  generalize expSeries (2 ^ 256) (doubledOperand k) 200 0 (2 ^ 256) = E at *
  have hF : 0 < 2 ^ 256 := Nat.two_pow_pos 256
  generalize 2 ^ 256 = F at *
  have hFR : (0 : ℝ) < F := by exact_mod_cast hF
  have hgeR : (F : ℝ) ≤ E := by exact_mod_cast hge
  refine ⟨?_, by omega, by rwa [le_div_iff₀ hFR, one_mul]⟩
  rw [Nat.cast_sub hge, Nat.cast_add]
  field_simp

/-- The model's e^(2x) falls short of the real one by next to nothing. -/
theorem nearExp_bounds {k : Nat} (hk : 931135488 ≤ k) (hlt : k < 1092616192) :
    Real.exp (2 * magnitude k) - 1 / 2 ^ 200 ≤ nearExp k ∧ nearExp k ≤ Real.exp (2 * magnitude k) := by
  have hten : magnitude k < 10 := by rwa [← magnitude_ten, magnitude_lt_iff (by omega) (by decide)]
  have hdouble := doubledOperand_eq (show k < 2147483648 by omega)
  have hle : doubledOperand k ≤ 20 * 2 ^ 256 := by
    have hF : (0 : ℝ) < (2 ^ 256 : Nat) := by positivity
    rw [div_eq_iff hF.ne'] at hdouble
    generalize 2 ^ 256 = F at *
    have : (doubledOperand k : ℝ) ≤ (20 * F : Nat) := by
      rw [hdouble]
      push_cast
      nlinarith
    exact_mod_cast this
  have hexp := expSeries_exp hle
  rwa [hdouble] at hexp

theorem nearExp_mono {k k' : Nat} (hle : k ≤ k') (hlt : k' < 2147483648) : nearExp k ≤ nearExp k' := by
  have hmag := (magnitude_le_iff (show k < 2147483648 by omega) hlt).mpr hle
  have hF : (0 : ℝ) < (2 ^ 256 : Nat) := by positivity
  have hdouble : (doubledOperand k : ℝ) / (2 ^ 256 : Nat) ≤ doubledOperand k' / (2 ^ 256 : Nat) := by
    rw [doubledOperand_eq (show k < 2147483648 by omega), doubledOperand_eq hlt]
    linarith
  rw [div_le_div_iff_of_pos_right hF, Nat.cast_le] at hdouble
  have hseries := expSeries_mono (2 ^ 256) hdouble 200 0 (le_refl (2 ^ 256))
  rw [nearExp, nearExp, div_le_div_iff_of_pos_right hF, Nat.cast_le]
  exact hseries

theorem sub_one_div_add_one_mono {a b : ℝ} (ha : 1 ≤ a) (hab : a ≤ b) : (a - 1) / (a + 1) ≤ (b - 1) / (b + 1) := by
  rw [div_le_div_iff₀ (by linarith) (by linarith)]
  nlinarith

/-! ### Order -/

theorem tanhQuotient_den_pos {k : Nat} (h0 : k ≠ 0) (hlt : k < 2147483648) : 0 < (tanhQuotient k).2 := by
  by_cases hk : k < 931135488
  · exact (tanhQuotient_cubic h0 hk).2
  · exact (tanhQuotient_series (by omega) hlt).2.1

/-- Fractions compared without dividing. -/
theorem ratio_le_ratio {r r' : Nat × Nat} (hr : 0 < r.2) (hr' : 0 < r'.2) (h : r.1 * r'.2 ≤ r'.1 * r.2) : ratio r ≤ ratio r' := by
  have hpos : (0 : ℝ) < r.2 := by exact_mod_cast hr
  have hpos' : (0 : ℝ) < r'.2 := by exact_mod_cast hr'
  rw [ratio, ratio, div_le_div_iff₀ hpos hpos']
  exact_mod_cast h

/-- Where the forms meet. -/
theorem nearTanh_meet : nearTanh 931135487 ≤ nearTanh 931135488 :=
  ratio_le_ratio (tanhQuotient_den_pos (by decide) (by decide)) (tanhQuotient_den_pos (by decide) (by decide)) (by decide +kernel)

theorem nearTanh_mono_cubic {k k' : Nat} (h0 : k ≠ 0) (hle : k ≤ k') (hlt : k' < 931135488) : nearTanh k ≤ nearTanh k' := by
  rw [(tanhQuotient_cubic h0 (by omega)).1, (tanhQuotient_cubic (by omega) hlt).1]
  have hmag := (magnitude_le_iff (show k < 2147483648 by omega) (show k' < 2147483648 by omega)).mpr hle
  have hsmall := magnitude_lt_series hlt
  have hpos := magnitude_nonneg k
  norm_num at hsmall
  generalize magnitude k = x at *
  generalize magnitude k' = y at *
  have hcube : y ^ 3 - x ^ 3 = (y - x) * (y ^ 2 + y * x + x ^ 2) := by ring
  have hsum : y ^ 2 + y * x + x ^ 2 ≤ 3 := by nlinarith
  have := mul_le_mul_of_nonneg_left hsum (sub_nonneg.mpr hmag)
  linarith

theorem nearTanh_mono_series {k k' : Nat} (hk : 931135488 ≤ k) (hle : k ≤ k') (hlt : k' < 2147483648) : nearTanh k ≤ nearTanh k' := by
  obtain ⟨heq, -, hge⟩ := tanhQuotient_series hk (by omega)
  rw [heq, (tanhQuotient_series (by omega) hlt).1]
  exact sub_one_div_add_one_mono hge (nearExp_mono hle hlt)

/-- The fraction rises with the operand. -/
theorem nearTanh_mono {k k' : Nat} (h0 : k ≠ 0) (hle : k ≤ k') (hlt : k' < 2147483648) : nearTanh k ≤ nearTanh k' := by
  by_cases hk' : k' < 931135488
  · exact nearTanh_mono_cubic h0 hle hk'
  by_cases hk : k < 931135488
  · calc nearTanh k ≤ nearTanh 931135487 := nearTanh_mono_cubic h0 (by omega) (by decide)
      _ ≤ nearTanh 931135488 := nearTanh_meet
      _ ≤ nearTanh k' := nearTanh_mono_series le_rfl (by omega) hlt
  · exact nearTanh_mono_series (by omega) hle hlt

/-! ### Nearness -/

theorem tanh_eq_exp (x : ℝ) : Real.tanh x = (Real.exp (2 * x) - 1) / (Real.exp (2 * x) + 1) := by
  have hsplit : Real.exp (2 * x) = Real.exp x * Real.exp x := by rw [← Real.exp_add, two_mul]
  have hinv : Real.exp (-x) * Real.exp x = 1 := by rw [← Real.exp_add, neg_add_cancel, Real.exp_zero]
  have hpos := Real.exp_pos x
  have hpos' := Real.exp_pos (-x)
  rw [Real.tanh_eq, hsplit, div_eq_div_iff (by positivity) (by positivity)]
  linear_combination (-2 * Real.exp x) * hinv

/-- The second form does not pass the real function and falls short of it by next to nothing. -/
theorem nearTanh_series_bounds {k : Nat} (hk : 931135488 ≤ k) (hlt : k < 1092616192) :
    nearTanh k ≤ Real.tanh (magnitude k) ∧ Real.tanh (magnitude k) ≤ nearTanh k + 1 / 2 ^ 200 := by
  obtain ⟨heq, -, hge⟩ := tanhQuotient_series hk (by omega)
  obtain ⟨hlow, hhigh⟩ := nearExp_bounds hk hlt
  rw [heq, tanh_eq_exp]
  refine ⟨sub_one_div_add_one_mono hge hhigh, ?_⟩
  generalize nearExp k = w at *
  generalize Real.exp (2 * magnitude k) = W at *
  generalize (1 : ℝ) / 2 ^ 200 = ε at *
  have hw : 0 < w + 1 := by linarith
  have hW : 0 < W + 1 := by linarith
  have hdiff : (W - 1) / (W + 1) - (w - 1) / (w + 1) = 2 * (W - w) / ((W + 1) * (w + 1)) := by
    field_simp
    ring
  have hbound : 2 * (W - w) / ((W + 1) * (w + 1)) ≤ ε := by
    have hε : 0 ≤ ε := by linarith
    have hfour : 4 ≤ (W + 1) * (w + 1) := by nlinarith
    rw [div_le_iff₀ (by positivity)]
    nlinarith [mul_le_mul_of_nonneg_left hfour hε]
  linarith

/-- The terms of the exponential of an operand of the first form. -/
theorem exp_five_terms {z : ℝ} (h0 : 0 ≤ z) (h1 : z ≤ 1) :
    |Real.exp z - (1 + z + z ^ 2 / 2 + z ^ 3 / 6 + z ^ 4 / 24)| ≤ z ^ 5 / 100 := by
  have h := Real.exp_bound (by rwa [abs_of_nonneg h0]) (show 0 < 5 by decide)
  rw [abs_of_nonneg h0] at h
  simp only [Finset.sum_range_succ, Finset.sum_range_zero, Nat.factorial] at h
  norm_num at h
  calc _ = |Real.exp z - (1 + z + z ^ 2 / 2 + z ^ 3 / 6 + z ^ 4 / 24)| := rfl
    _ ≤ z ^ 5 * (1 / 100) := h
    _ = z ^ 5 / 100 := by ring

/-- The first form is off by less than x⁵. -/
theorem tanh_cubic_bound {x : ℝ} (h0 : 0 ≤ x) (h1 : x ≤ 1 / 2) : |Real.tanh x - (x - x ^ 3 / 3)| ≤ x ^ 5 := by
  have hexp := exp_five_terms (z := 2 * x) (by linarith) (by linarith)
  have hge : 1 ≤ Real.exp (2 * x) := Real.one_le_exp (by linarith)
  rw [tanh_eq_exp]
  generalize Real.exp (2 * x) = W at *
  have hW : 0 < W + 1 := by linarith
  have hdiff : (W - 1) / (W + 1) - (x - x ^ 3 / 3) = (W - 1 - (x - x ^ 3 / 3) * (W + 1)) / (W + 1) := by field_simp
  have hnum : W - 1 - (x - x ^ 3 / 3) * (W + 1) = (4 / 9 * x ^ 6 + 2 / 9 * x ^ 7) +
      (W - (1 + 2 * x + (2 * x) ^ 2 / 2 + (2 * x) ^ 3 / 6 + (2 * x) ^ 4 / 24)) * (1 - (x - x ^ 3 / 3)) := by ring
  generalize W - (1 + 2 * x + (2 * x) ^ 2 / 2 + (2 * x) ^ 3 / 6 + (2 * x) ^ 4 / 24) = ρ at *
  have hfactor : |1 - (x - x ^ 3 / 3)| ≤ 1 := by
    have hcube : x ^ 3 ≤ x := pow_le_of_le_one h0 (by linarith) (by decide)
    have hcube0 : 0 ≤ x ^ 3 := by positivity
    rw [abs_le]
    constructor <;> linarith
  have hρ : |ρ * (1 - (x - x ^ 3 / 3))| ≤ (2 * x) ^ 5 / 100 := by
    rw [abs_mul]
    calc |ρ| * |1 - (x - x ^ 3 / 3)| ≤ |ρ| * 1 := mul_le_mul_of_nonneg_left hfactor (abs_nonneg ρ)
      _ ≤ (2 * x) ^ 5 / 100 := by rwa [mul_one]
  have hhigh : 4 / 9 * x ^ 6 + 2 / 9 * x ^ 7 ≤ x ^ 5 := by
    have h6 : x ^ 6 ≤ x ^ 5 := pow_le_pow_of_le_one h0 (by linarith) (by decide)
    have h7 : x ^ 7 ≤ x ^ 5 := pow_le_pow_of_le_one h0 (by linarith) (by decide)
    linarith [show 0 ≤ x ^ 5 by positivity]
  have hhigh0 : 0 ≤ 4 / 9 * x ^ 6 + 2 / 9 * x ^ 7 := by positivity
  have hfive : (2 * x) ^ 5 / 100 ≤ x ^ 5 := by
    have : 0 ≤ x ^ 5 := by positivity
    linarith [show (2 * x) ^ 5 / 100 = 32 / 100 * x ^ 5 by ring]
  rw [hdiff, abs_div, abs_of_pos hW, div_le_iff₀ hW, hnum]
  calc |4 / 9 * x ^ 6 + 2 / 9 * x ^ 7 + ρ * (1 - (x - x ^ 3 / 3))|
      ≤ |4 / 9 * x ^ 6 + 2 / 9 * x ^ 7| + |ρ * (1 - (x - x ^ 3 / 3))| := abs_add_le _ _
    _ ≤ x ^ 5 + x ^ 5 := add_le_add (by rwa [abs_of_nonneg hhigh0]) (hρ.trans hfive)
    _ ≤ x ^ 5 * (W + 1) := by nlinarith [show 0 ≤ x ^ 5 by positivity]

/-- Below 2^-16 the fraction is at least half the operand. -/
theorem half_le_nearTanh {k : Nat} (h0 : k ≠ 0) (hk : k < 931135488) : magnitude k / 2 ≤ nearTanh k := by
  have hsmall := magnitude_lt_series hk
  have hpos := magnitude_nonneg k
  rw [(tanhQuotient_cubic h0 hk).1]
  norm_num at hsmall
  generalize magnitude k = x at *
  have hcube : x ^ 3 ≤ x := pow_le_of_le_one hpos (by linarith) (by decide)
  linarith

/-- The second form begins above 2^-17. -/
theorem nearTanh_series_ge {k : Nat} (hk : 931135488 ≤ k) (hlt : k < 2147483648) : 1 / 2 ^ 17 ≤ nearTanh k := by
  have hfirst : ratio (1, 2 ^ 17) ≤ nearTanh 931135488 :=
    ratio_le_ratio (by decide) (tanhQuotient_den_pos (by decide) (by decide)) (by decide +kernel)
  have hvalue : ratio (1, 2 ^ 17) = 1 / 2 ^ 17 := by
    rw [ratio]
    norm_num
  rw [← hvalue]
  exact hfirst.trans (nearTanh_mono (by decide) hk hlt)

theorem nearTanh_pos {k : Nat} (h0 : k ≠ 0) (hlt : k < 2147483648) : 0 < nearTanh k := by
  by_cases hk : k < 931135488
  · have := half_le_nearTanh h0 hk
    have := magnitude_pos h0 hlt
    linarith
  · exact lt_of_lt_of_le (by positivity) (nearTanh_series_ge (by omega) hlt)

theorem nearTanh_lt_one {k : Nat} (h0 : k ≠ 0) (hlt : k < 1092616192) : nearTanh k < 1 := by
  by_cases hk : k < 931135488
  · have hsmall := magnitude_lt_series hk
    have hpos := magnitude_nonneg k
    rw [(tanhQuotient_cubic h0 hk).1]
    norm_num at hsmall
    have : 0 ≤ magnitude k ^ 3 := by positivity
    linarith
  · exact (nearTanh_series_bounds (by omega) hlt).1.trans_lt (Real.tanh_lt_one _)

/-- The fraction is off by less than one part in 2^60. -/
theorem nearTanh_error {k : Nat} (h0 : k ≠ 0) (hlt : k < 1092616192) : |nearTanh k - Real.tanh (magnitude k)| ≤ nearTanh k / 2 ^ 60 := by
  by_cases hk : k < 931135488
  · have hsmall := magnitude_lt_series hk
    have hpos := magnitude_nonneg k
    have hhalf := half_le_nearTanh h0 hk
    have hfourth : magnitude k ^ 4 ≤ (2 ^ (-16 : Int)) ^ 4 := pow_le_pow_left₀ hpos hsmall.le 4
    norm_num at hsmall hfourth
    have hbound := tanh_cubic_bound hpos (by linarith)
    rw [← (tanhQuotient_cubic h0 hk).1] at hbound
    rw [abs_sub_comm]
    refine hbound.trans ?_
    have hfive : magnitude k ^ 5 = magnitude k * magnitude k ^ 4 := by ring
    rw [hfive, le_div_iff₀ (by positivity)]
    generalize magnitude k = x at *
    nlinarith [mul_le_mul_of_nonneg_left hfourth hpos]
  · obtain ⟨hlow, hhigh⟩ := nearTanh_series_bounds (by omega) hlt
    have hge := nearTanh_series_ge (k := k) (by omega) (by omega)
    have hsplit : (1 : ℝ) / 2 ^ 200 ≤ 1 / 2 ^ 17 / 2 ^ 60 := by norm_num
    have := div_le_div_of_nonneg_right hge (show (0 : ℝ) ≤ 2 ^ 60 by positivity)
    rw [abs_of_nonpos (by linarith)]
    linarith

end Sys2Proof.Proofs
end

