-- ==== Sys2Proof/Proofs/TanhBound.lean ====
section
/-! The bound on the results of `TANH` as an interval about the model's fraction, which rises with the operand and holds a code (R109,
assumption 10). -/

namespace Sys2Proof.Proofs

open Sys2Proof.Machine Sys2Proof.Says Sys2Proof.Laws

/-! ### Where the unit of the result doubles -/

/-- The step of a result, which lies from 2^-b up to twice that, or below 1/8 for 4. -/
noncomputable def unitStep (T : ℝ) : Nat := if 1 / 2 ≤ T then 1 else if 1 / 4 ≤ T then 2 else if 1 / 8 ≤ T then 3 else 4

theorem unitStep_mem (T : ℝ) : unitStep T = 4 ∨ unitStep T ∈ [1, 2, 3] := by
  unfold unitStep
  split
  · exact .inr (by decide)
  split
  · exact .inr (by decide)
  split
  · exact .inr (by decide)
  · exact .inl rfl

theorem unitStep_le (T : ℝ) : unitStep T ≤ 4 := by
  unfold unitStep
  split_ifs <;> decide

theorem unitStep_bounds {T : ℝ} (hT : T < 1) : T < 2 * (1 / 2 ^ unitStep T) ∧ (unitStep T ≠ 4 → 1 / 2 ^ unitStep T ≤ T) := by
  unfold unitStep
  split
  · next h => exact ⟨by linarith, fun _ => by linarith⟩
  split
  · next h _ => exact ⟨by linarith, fun _ => by linarith⟩
  split
  · next h _ _ => exact ⟨by linarith, fun _ => by linarith⟩
  · next h => exact ⟨by linarith, fun hne => absurd rfl hne⟩

theorem unitStep_antitone {T T' : ℝ} (h : T ≤ T') : unitStep T' ≤ unitStep T := by
  unfold unitStep
  split_ifs <;> linarith

/-- The codes at which the unit doubles. -/
def turnCode : Nat → Nat
  | 1 => 1057791827
  | 2 => 1048757623
  | _ => 1040231496

/-- The fraction at the model's last operand before the unit doubles. -/
noncomputable def turnTanh (b : Nat) : ℝ := ratio (tanhFrac (tanhTurn b).1 (tanhTurn b).2)

theorem turnTanh_eq {b : Nat} (hb : b ∈ [1, 2, 3]) : turnTanh b = nearTanh (turnCode b) := by
  have hcodes : ∀ b ∈ [1, 2, 3], tanhTurn b = (significand F32 (turnCode b), lastPlace F32 (turnCode b)) := by decide
  rw [turnTanh, hcodes b hb]
  rfl

theorem turnTanh_den_pos {b : Nat} (hb : b ∈ [1, 2, 3]) : 0 < (tanhFrac (tanhTurn b).1 (tanhTurn b).2).2 := by
  have hpos : ∀ b ∈ [1, 2, 3], 0 < (tanhFrac (tanhTurn b).1 (tanhTurn b).2).2 := by decide +kernel
  exact hpos b hb

theorem turnCode_bounds (b : Nat) : 931135488 ≤ turnCode b ∧ turnCode b < 1092616191 := by
  unfold turnCode
  split <;> decide

/-- The fractions at the model's turns lie below the powers of two and those at the next operands do not. -/
theorem tanhQuotient_turn : ∀ b ∈ [1, 2, 3], (tanhQuotient (turnCode b)).1 * 2 ^ b ≤ 1 * (tanhQuotient (turnCode b)).2 ∧
    1 * (tanhQuotient (turnCode b + 1)).2 ≤ (tanhQuotient (turnCode b + 1)).1 * 2 ^ b := by decide +kernel

theorem ratio_one_two_pow (b : Nat) : ratio (1, 2 ^ b) = 1 / 2 ^ b := by
  rw [ratio]
  push_cast
  rfl

theorem turnTanh_le {b : Nat} (hb : b ∈ [1, 2, 3]) : turnTanh b ≤ 1 / 2 ^ b := by
  obtain ⟨hlow, hhigh⟩ := turnCode_bounds b
  rw [turnTanh_eq hb, ← ratio_one_two_pow]
  exact ratio_le_ratio (tanhQuotient_den_pos (by omega) (by omega)) (Nat.two_pow_pos b) (tanhQuotient_turn b hb).1

/-- A fraction below the power of two does not pass that of its turn. -/
theorem nearTanh_le_turn {b k : Nat} (hb : b ∈ [1, 2, 3]) (h0 : k ≠ 0) (hk : k < 2147483648) (h : nearTanh k < 1 / 2 ^ b) : nearTanh k ≤ turnTanh b := by
  obtain ⟨hlow, hhigh⟩ := turnCode_bounds b
  have hnext := ratio_le_ratio (r := (1, 2 ^ b)) (Nat.two_pow_pos b) (tanhQuotient_den_pos (by omega) (by omega)) (tanhQuotient_turn b hb).2
  rw [ratio_one_two_pow] at hnext
  rw [turnTanh_eq hb]
  by_contra hgt
  refine absurd (hnext.trans (nearTanh_mono (by omega) (?_ : turnCode b + 1 ≤ k) hk)) (not_le.mpr h)
  by_contra hle
  exact hgt (nearTanh_mono h0 (by omega) (by omega))

/-! ### The interval -/

/-- The fraction at 1/8. -/
noncomputable def eighthTanh : ℝ := ratio (tanhFrac 1 (-3))

theorem eighthTanh_eq : eighthTanh = nearTanh 1040187392 := by
  have h : tanhFrac 1 (-3) = tanhQuotient 1040187392 := by decide +kernel
  rw [eighthTanh, h]
  rfl

theorem eighthTanh_bounds : 1 / 16 ≤ eighthTanh ∧ eighthTanh ≤ 1 / 8 - 1 / 2 ^ 20 := by
  have hpos := tanhQuotient_den_pos (k := 1040187392) (by decide) (by decide)
  have hlow := ratio_le_ratio (r := (1, 16)) (r' := tanhQuotient 1040187392) (by decide) hpos (by decide +kernel)
  have hhigh := ratio_le_ratio (r := tanhQuotient 1040187392) (r' := (2 ^ 17 - 1, 2 ^ 20)) hpos (by decide) (by decide +kernel)
  rw [eighthTanh_eq]
  change _ ≤ nearTanh 1040187392 at hlow
  change nearTanh 1040187392 ≤ _ at hhigh
  rw [ratio] at hlow hhigh
  norm_num at hlow hhigh ⊢
  exact ⟨hlow, hhigh⟩

/-- The least value admitted from 1/8 on, by the fraction. -/
noncomputable def farLow (T : ℝ) : ℝ :=
  max (T - 1 / 2 ^ (22 + unitStep T)) (if unitStep T = 4 then 0 else turnTanh (unitStep T) - 1 / 2 ^ (23 + unitStep T))

/-- The ends of the interval of the values admitted. -/
noncomputable def tanhLow (k : Nat) : ℝ := if k < 1040187392 then nearTanh k - nearTanh k / 2 ^ 21 else farLow (nearTanh k)

noncomputable def tanhHigh (k : Nat) : ℝ :=
  if k < 1040187392 then min (nearTanh k + nearTanh k / 2 ^ 21) (eighthTanh + 1 / 2 ^ 26) else nearTanh k + 1 / 2 ^ (22 + unitStep (nearTanh k))

/-- A code that the model admits for tanh of a code's magnitude. -/
structure TanhFits (k c : Nat) : Prop where
  le_one : c ≤ 1065353216
  low    : tanhLow k ≤ magnitude c
  high   : magnitude c ≤ tanhHigh k

/-! ### The model's comparisons -/

theorem natDist_cast (a b : Nat) : (natDist a b : ℝ) = |(a : ℝ) - b| := by
  rw [natDist, Nat.cast_sub (min_le_max), Nat.cast_max, Nat.cast_min, max_sub_min_eq_abs']

section
variable {n p q s : Nat} (hq : 0 < q) (hs : 0 < s)
include hq hs

theorem natDist_eq : (natDist (n * q) (p * s) : ℝ) = |(n : ℝ) / s - ratio (p, q)| * (q * s) := by
  have hqR : (0 : ℝ) < q := by exact_mod_cast hq
  have hsR : (0 : ℝ) < s := by exact_mod_cast hs
  have hscale : |((n * q : Nat) : ℝ) - (p * s : Nat)| = |((n : ℝ) / s - ratio (p, q)) * (q * s)| := by
    rw [ratio]
    congr 1
    push_cast
    field_simp
  rw [natDist_cast, hscale, abs_mul, abs_of_pos (mul_pos hqR hsR)]

theorem natDist_le_iff (K : Nat) : natDist (n * q) (p * s) * 2 ^ K ≤ q * s ↔ |(n : ℝ) / s - ratio (p, q)| ≤ 1 / 2 ^ K := by
  have hqs : (0 : ℝ) < q * s := by exact_mod_cast Nat.mul_pos hq hs
  rw [← Nat.cast_le (α := ℝ), Nat.cast_mul, natDist_eq hq hs, le_div_iff₀ (by positivity)]
  push_cast
  rw [mul_right_comm]
  exact mul_le_iff_le_one_left hqs

theorem natDist_le_ratio_iff (K : Nat) : natDist (n * q) (p * s) * 2 ^ K ≤ p * s ↔ |(n : ℝ) / s - ratio (p, q)| ≤ ratio (p, q) / 2 ^ K := by
  have hqR : (0 : ℝ) < q := by exact_mod_cast hq
  have hqs : (0 : ℝ) < q * s := by exact_mod_cast Nat.mul_pos hq hs
  have hnum : ((p * s : Nat) : ℝ) = ratio (p, q) * (q * s) := by
    rw [ratio]
    push_cast
    field_simp
  rw [← Nat.cast_le (α := ℝ), Nat.cast_mul, natDist_eq hq hs, hnum, le_div_iff₀ (by positivity)]
  push_cast
  rw [mul_right_comm]
  exact mul_le_mul_iff_left₀ hqs

theorem turn_le_iff (K : Nat) : p * s * 2 ^ K ≤ n * q * 2 ^ K + s * q ↔ ratio (p, q) - 1 / 2 ^ K ≤ (n : ℝ) / s := by
  have hqR : (0 : ℝ) < q := by exact_mod_cast hq
  have hsR : (0 : ℝ) < s := by exact_mod_cast hs
  have hscale : ((n : ℝ) / s - (ratio (p, q) - 1 / 2 ^ K)) * (s * q * 2 ^ K) = n * q * 2 ^ K + s * q - p * s * 2 ^ K := by
    rw [ratio]
    field_simp
    ring
  rw [← sub_nonneg (a := (n : ℝ) / s), ← mul_nonneg_iff_of_pos_right (show (0 : ℝ) < s * q * 2 ^ K by positivity), hscale, sub_nonneg, ← Nat.cast_le (α := ℝ)]
  push_cast
  rfl

theorem le_eighth_iff (K : Nat) : n * q * 2 ^ K ≤ s * (p * 2 ^ K + q) ↔ (n : ℝ) / s ≤ ratio (p, q) + 1 / 2 ^ K := by
  have hqR : (0 : ℝ) < q := by exact_mod_cast hq
  have hsR : (0 : ℝ) < s := by exact_mod_cast hs
  have hscale : (ratio (p, q) + 1 / 2 ^ K - (n : ℝ) / s) * (s * q * 2 ^ K) = s * (p * 2 ^ K + q) - n * q * 2 ^ K := by
    rw [ratio]
    field_simp
  rw [← sub_nonneg (b := (n : ℝ) / s), ← mul_nonneg_iff_of_pos_right (show (0 : ℝ) < s * q * 2 ^ K by positivity), hscale, sub_nonneg, ← Nat.cast_le (α := ℝ)]
  push_cast
  rfl

end

/-- The model's step of a fraction. -/
theorem unitStep_ratio {p q : Nat} (hq : 0 < q) :
    unitStep (ratio (p, q)) = if q ≤ 2 * p then 1 else if q ≤ 4 * p then 2 else if q ≤ 8 * p then 3 else 4 := by
  have hqR : (0 : ℝ) < q := by exact_mod_cast hq
  have hstep (j : Nat) (hj : 0 < j) : 1 / (j : ℝ) ≤ ratio (p, q) ↔ q ≤ j * p := by
    have hjR : (0 : ℝ) < j := by exact_mod_cast hj
    rw [ratio, div_le_div_iff₀ hjR hqR, one_mul, ← Nat.cast_le (α := ℝ), Nat.cast_mul, mul_comm (p : ℝ)]
  have h2 := hstep 2 (by decide)
  have h4 := hstep 4 (by decide)
  have h8 := hstep 8 (by decide)
  push_cast at h2 h4 h8
  simp only [unitStep, h2, h4, h8]

/-- A code up to that of 1 as a fraction. -/
theorem magnitude_eq_div {c : Nat} (hc : c ≤ 1065353216) : magnitude c = (significand F32 c : ℝ) / (2 ^ (-lastPlace F32 c).toNat : Nat) := by
  have hplace : lastPlace F32 c ≤ 0 := by
    rw [lastPlace_code (by omega), placeAt]
    omega
  rw [magnitude, Nat.cast_pow, Nat.cast_ofNat, ← zpow_natCast, Int.toNat_of_nonneg (by omega), zpow_neg, div_inv_eq_mul]

/-- What the model admits. -/
theorem tanhOk_iff {k : Nat} (h0 : k ≠ 0) (hk : k < 2147483648) (c : Nat) :
    tanhOk (significand F32 k) (lastPlace F32 k) c = true ↔ TanhFits k c := by
  have hfits {c : Nat} (hc : c ≤ 1065353216) : tanhOk (significand F32 k) (lastPlace F32 k) c = true ↔ TanhFits k c := by
    have hq := tanhQuotient_den_pos h0 hk
    have hs : 0 < 2 ^ (-lastPlace F32 c).toNat := Nat.two_pow_pos _
    have hV := magnitude_nonneg c
    have hread := read_code (show c ≤ 2139095039 by omega)
    have hone := intCode_one_spec.1
    have htop : ¬ -3 ≤ lastPlace F32 k + ((significand F32 k).log2 : Nat) ↔ k < 1040187392 := by
      rw [← topOf_lt_eighth_iff h0 hk, topOf, not_le]
    have hstruct : TanhFits k c ↔ tanhLow k ≤ magnitude c ∧ magnitude c ≤ tanhHigh k := ⟨fun h => ⟨h.low, h.high⟩, fun h => ⟨hc, h.1, h.2⟩⟩
    have hinterval (V r t : ℝ) : |V - r| ≤ t ↔ r - t ≤ V ∧ V ≤ r + t := by
      rw [abs_sub_le_iff]
      constructor <;> rintro ⟨h1, h2⟩ <;> constructor <;> linarith
    unfold tanhOk
    rw [hread, hstruct, tanhLow, tanhHigh]
    rw [magnitude_eq_div hc] at hV ⊢
    dsimp only
    generalize significand F32 c = n at *
    generalize 2 ^ (-lastPlace F32 c).toNat = s at *
    rw [nearTanh]
    rw [tanhQuotient] at hq ⊢
    generalize tanhFrac (significand F32 k) (lastPlace F32 k) = r at *
    obtain ⟨p, q⟩ := r
    dsimp only at hq ⊢
    rw [← unitStep_ratio hq]
    by_cases hnear : k < 1040187392
    · have ht : 0 < (tanhFrac 1 (-3)).2 := by decide +kernel
      rw [if_pos hnear, if_pos hnear, if_neg (htop.mpr hnear)]
      simp only [Bool.and_eq_true, decide_eq_true_eq, natDist_le_ratio_iff hq hs, le_eighth_iff ht hs, hinterval, hone, hc, true_and, le_min_iff, and_assoc]
      rfl
    · rw [if_neg hnear, if_neg hnear, if_pos (not_not.mp (mt htop.mp hnear))]
      simp only [Bool.and_eq_true, Bool.or_eq_true, decide_eq_true_eq, beq_iff_eq, natDist_le_iff hq hs, hinterval, hone, hc, true_and, farLow, max_le_iff]
      rcases unitStep_mem (ratio (p, q)) with hstep | hstep
      · simp only [hstep, if_true, true_or, and_true, hV]
      · have ht := turnTanh_den_pos hstep
        have hne : unitStep (ratio (p, q)) ≠ 4 := by
          intro h
          rw [h] at hstep
          exact absurd hstep (by decide)
        simp only [hne, false_or, if_false, turn_le_iff ht hs]
        rw [and_right_comm]
        rfl
  refine ⟨fun h => ?_, fun h => (hfits h.le_one).mpr h⟩
  exact (hfits (tanhOk_le_one h)).mp h

/-! ### The interval rises -/

theorem one_div_pow_add (a b : Nat) : (1 : ℝ) / 2 ^ (a + b) = 1 / 2 ^ b / 2 ^ a := by
  rw [pow_add, mul_comm, div_mul_eq_div_div]

/-- The powers of two of two steps. -/
theorem step_unit_le {b b' : Nat} (h : b' < b) : 1 / 2 ^ b ≤ (1 : ℝ) / 2 ^ b' / 2 ∧ (b ≠ b' + 1 → 1 / 2 ^ b ≤ (1 : ℝ) / 2 ^ b' / 4) := by
  have hmono (i : Nat) (hi : b' + i ≤ b) : (1 : ℝ) / 2 ^ b ≤ 1 / 2 ^ b' / 2 ^ i := by
    rw [← one_div_pow_add i b', add_comm i]
    exact one_div_le_one_div_of_le (by positivity) (pow_le_pow_right₀ (by norm_num) hi)
  have h1 := hmono 1 h
  refine ⟨by rwa [pow_one] at h1, fun hne => ?_⟩
  have h2 := hmono 2 (by omega)
  norm_num at h2 ⊢
  exact h2

/-- The least value admitted rises with the fraction, from 1/8 on. -/
theorem farLow_mono {T T' : ℝ} (hle : T ≤ T') (hT' : T' < 1) (hturn : ∀ b ∈ [1, 2, 3], T < 1 / 2 ^ b → T ≤ turnTanh b) : farLow T ≤ farLow T' := by
  obtain ⟨hT, -⟩ := unitStep_bounds (hle.trans_lt hT')
  obtain ⟨-, hT1'⟩ := unitStep_bounds hT'
  have hstep := unitStep_antitone hle
  have hfour := unitStep_le T
  have hmem := unitStep_mem T
  have hmem' := unitStep_mem T'
  unfold farLow
  rw [one_div_pow_add, one_div_pow_add, one_div_pow_add, one_div_pow_add]
  generalize unitStep T = b at *
  generalize unitStep T' = b' at *
  rcases hstep.eq_or_lt with rfl | hlt
  · exact max_le_max (by linarith) le_rfl
  obtain ⟨hhalf, hfourth⟩ := step_unit_le hlt
  have hne' : b' ≠ 4 := by omega
  have hb' := hmem'.resolve_left hne'
  have hlow := hT1' hne'
  have hpos : (0 : ℝ) < 1 / 2 ^ b' := by positivity
  have hpos' : (0 : ℝ) < 1 / 2 ^ b := by positivity
  rw [if_neg hne']
  refine max_le ?_ (le_max_of_le_left ?_)
  · by_cases hnext : b = b' + 1
    · refine le_max_of_le_right ?_
      have heq : (1 : ℝ) / 2 ^ b = 1 / 2 ^ b' / 2 := by rw [hnext, add_comm, one_div_pow_add, pow_one]
      have := hturn b' hb' (by rw [heq] at hT; linarith)
      rw [heq]
      linarith
    · have := hfourth hnext
      exact le_max_of_le_left (by linarith)
  · split
    · linarith
    · next hne =>
      have := turnTanh_le (hmem.resolve_left hne)
      linarith

/-- Every value admitted from 1/8 on lies near the fraction at 1/8. -/
theorem eighth_le_farLow {T : ℝ} (hT : T < 1) (h : eighthTanh ≤ T) : eighthTanh - 1 / 2 ^ 26 ≤ farLow T := by
  obtain ⟨-, hlow⟩ := unitStep_bounds hT
  obtain ⟨-, heighth⟩ := eighthTanh_bounds
  refine le_max_of_le_left ?_
  rw [one_div_pow_add]
  rcases unitStep_mem T with hstep | hstep
  · rw [hstep]
    norm_num
    linarith
  · have hunits : ∀ b ∈ [1, 2, 3], 2 ^ b ≤ 8 := by decide
    have hunit : (2 : ℝ) ^ unitStep T ≤ 8 := by exact_mod_cast hunits _ hstep
    have hge : (1 : ℝ) / 8 ≤ 1 / 2 ^ unitStep T := one_div_le_one_div_of_le (by positivity) hunit
    have hne : unitStep T ≠ 4 := by
      intro h4
      rw [h4] at hstep
      exact absurd hstep (by decide)
    have := hlow hne
    norm_num at heighth ⊢
    norm_num at this hge
    linarith

section
variable {k k' : Nat} (h0 : k ≠ 0) (hle : k ≤ k') (hlt : k' < 1092616192)
include h0 hle hlt

theorem tanhLow_mono : tanhLow k ≤ tanhLow k' := by
  have hT := nearTanh_mono h0 hle (by omega)
  have hone' := nearTanh_lt_one (by omega) hlt
  rw [tanhLow, tanhLow]
  by_cases hk' : k' < 1040187392
  · rw [if_pos hk', if_pos (by omega)]
    linarith
  rw [if_neg hk']
  by_cases hk : k < 1040187392
  · have heighth := nearTanh_mono (k := k) (k' := 1040187392) h0 (by omega) (by decide)
    have heighth' := nearTanh_mono (k := 1040187392) (k' := k') (by decide) (by omega) (by omega)
    rw [← eighthTanh_eq] at heighth heighth'
    obtain ⟨hge, -⟩ := eighthTanh_bounds
    rw [if_pos hk]
    refine le_trans ?_ (eighth_le_farLow hone' heighth')
    linarith
  · rw [if_neg hk]
    exact farLow_mono hT hone' fun b hb h => nearTanh_le_turn hb h0 (by omega) h

theorem tanhHigh_mono : tanhHigh k ≤ tanhHigh k' := by
  have hT := nearTanh_mono h0 hle (by omega)
  rw [tanhHigh, tanhHigh]
  by_cases hk' : k' < 1040187392
  · rw [if_pos hk', if_pos (by omega)]
    exact min_le_min (by linarith) le_rfl
  rw [if_neg hk']
  by_cases hk : k < 1040187392
  · have heighth := nearTanh_mono (k := 1040187392) (k' := k') (by decide) (by omega) (by omega)
    rw [← eighthTanh_eq] at heighth
    have hunit : (1 : ℝ) / 2 ^ 26 ≤ 1 / 2 ^ (22 + unitStep (nearTanh k')) := by
      have := unitStep_le (nearTanh k')
      exact one_div_le_one_div_of_le (by positivity) (pow_le_pow_right₀ (by norm_num) (by omega))
    rw [if_pos hk]
    exact (min_le_right _ _).trans (add_le_add heighth hunit)
  · have hunit : (1 : ℝ) / 2 ^ (22 + unitStep (nearTanh k)) ≤ 1 / 2 ^ (22 + unitStep (nearTanh k')) :=
      one_div_le_one_div_of_le (by positivity) (pow_le_pow_right₀ (by norm_num) (Nat.add_le_add_left (unitStep_antitone hT) 22))
    rw [if_neg hk]
    linarith

/-- Codes that stand out of order are admitted for both operands. -/
theorem tanhOk_rises : Rises (tanhOk (significand F32 k) (lastPlace F32 k)) (tanhOk (significand F32 k') (lastPlace F32 k')) := by
  intro c c' _ _ hok hok' hplace
  rw [tanhOk_iff h0 (by omega)] at hok ⊢
  rw [tanhOk_iff (by omega) (by omega)] at hok' ⊢
  obtain ⟨hone, hlow, hhigh⟩ := hok
  obtain ⟨hone', hlow', hhigh'⟩ := hok'
  rw [f32Place_of_lt (by omega), f32Place_of_lt (by omega)] at hplace
  have hmag := (magnitude_le_iff (show c' < 2147483648 by omega) (show c < 2147483648 by omega)).mpr (by omega)
  have hlows := tanhLow_mono h0 hle hlt
  have hhighs := tanhHigh_mono h0 hle hlt
  exact ⟨⟨hone, hlow'.trans hmag, hhigh.trans hhighs⟩, ⟨hone', hlows.trans hlow', hmag.trans hhigh⟩⟩

end

/-! ### A code within it -/

/-- Codes at the fraction, from below. -/
theorem exists_code_near {T : ℝ} (h0 : 0 ≤ T) (h1 : T < 1) : ∃ c, c ≤ 1065353216 ∧ magnitude c ≤ T ∧ T < magnitude c + 2 ^ lastPlace F32 c := by
  obtain ⟨c, hc, hlow, hhigh⟩ := exists_code_le h0 (h1.trans (by norm_num))
  refine ⟨c, ?_, hlow, hhigh⟩
  have hlt := hlow.trans_lt h1
  rw [← intCode_one_spec.2, magnitude_lt_iff (by omega) (by decide)] at hlt
  omega

/-- The unit of a code is small against it. -/
theorem unit_le_magnitude {c : Nat} (hc : c < 2147483648) (h : lastPlace F32 c ≠ -149) : (2 : ℝ) ^ lastPlace F32 c ≤ magnitude c / 2 ^ 23 := by
  rw [lastPlace_code hc] at h
  have hge := (onPlace_code hc).ge (by omega)
  rw [mbits_F32] at hge
  have hgeR : (8388608 : ℝ) ≤ significand F32 c := by exact_mod_cast hge
  have hpos : (0 : ℝ) < 2 ^ lastPlace F32 c := by positivity
  rw [magnitude, le_div_iff₀ (by positivity)]
  nlinarith

/-- Below 2^-16 the operand is itself admitted. -/
theorem tanhFits_self {k : Nat} (h0 : k ≠ 0) (hk : k < 931135488) : TanhFits k k := by
  have hpos := magnitude_nonneg k
  have hsmall := magnitude_lt_series hk
  have hhalf := half_le_nearTanh h0 hk
  obtain ⟨heighth, -⟩ := eighthTanh_bounds
  have hcubic := (tanhQuotient_cubic h0 hk).1
  have hsq : magnitude k ^ 2 ≤ (2 ^ (-16 : Int)) ^ 2 := pow_le_pow_left₀ hpos hsmall.le 2
  have hcube : magnitude k ^ 3 = magnitude k * magnitude k ^ 2 := by ring
  norm_num at hsmall hsq
  have hcube' := mul_le_mul_of_nonneg_left hsq hpos
  have hcube0 : 0 ≤ magnitude k ^ 3 := pow_nonneg hpos 3
  refine ⟨by omega, ?_, ?_⟩
  · rw [tanhLow, if_pos (by omega)]
    linarith
  · rw [tanhHigh, if_pos (by omega)]
    exact le_min (by linarith) (by linarith)

/-- From there to 1/8 the greatest code that does not pass the fraction is admitted. -/
theorem tanhFits_near {k c : Nat} (hk : 931135488 ≤ k) (hlt : k < 1040187392) (hc : c ≤ 1065353216) (hlow : magnitude c ≤ nearTanh k)
    (hhigh : nearTanh k < magnitude c + 2 ^ lastPlace F32 c) : TanhFits k c := by
  have hge := nearTanh_series_ge hk (by omega)
  have heighth := nearTanh_mono (k := k) (k' := 1040187392) (by omega) (by omega) (by decide)
  have hunit : (2 : ℝ) ^ lastPlace F32 c ≤ nearTanh k / 2 ^ 23 := by
    by_cases hlast : lastPlace F32 c = -149
    · have hleast : (2 : ℝ) ^ (-149 : Int) ≤ 1 / 2 ^ 17 / 2 ^ 23 := by norm_num
      rw [hlast]
      linarith
    · have := unit_le_magnitude (by omega) hlast
      linarith
  rw [← eighthTanh_eq] at heighth
  refine ⟨hc, ?_, ?_⟩
  · rw [tanhLow, if_pos hlt]
    linarith
  · rw [tanhHigh, if_pos hlt]
    exact le_min (by linarith) (by linarith)

/-- From 1/8 on it is admitted too. -/
theorem tanhFits_far {k c : Nat} (hk : 1040187392 ≤ k) (hlt : k < 1092616192) (hc : c ≤ 1065353216) (hlow : magnitude c ≤ nearTanh k)
    (hhigh : nearTanh k < magnitude c + 2 ^ lastPlace F32 c) : TanhFits k c := by
  obtain ⟨hT, hT'⟩ := unitStep_bounds (nearTanh_lt_one (by omega) hlt)
  have hpos := magnitude_nonneg c
  have hbound : unitStep (nearTanh k) ≤ 4 := unitStep_le _
  have hunit : (2 : ℝ) ^ lastPlace F32 c ≤ 1 / 2 ^ unitStep (nearTanh k) / 2 ^ 23 := by
    have hstep (j b : Nat) : (2 : ℝ) ^ (-(j + b : Nat) : Int) = 1 / 2 ^ b / 2 ^ j := by
      rw [zpow_neg, zpow_natCast, ← one_div, one_div_pow_add]
    rw [← hstep]
    refine zpow_le_zpow_right₀ (by norm_num) ?_
    by_cases hlast : lastPlace F32 c = -149
    · omega
    · have hlt : (2 : ℝ) ^ lastPlace F32 c < 2 ^ (-(22 + unitStep (nearTanh k) : Nat) : Int) := by
        have := unit_le_magnitude (by omega) hlast
        rw [hstep]
        linarith
      have := (zpow_lt_zpow_iff_right₀ (by norm_num : (1 : ℝ) < 2)).mp hlt
      omega
  have hpow : (0 : ℝ) < 1 / 2 ^ unitStep (nearTanh k) := by positivity
  refine ⟨hc, ?_, ?_⟩
  · rw [tanhLow, if_neg (by omega), farLow, one_div_pow_add, one_div_pow_add]
    refine max_le (by linarith) ?_
    split
    · exact hpos
    · next hne =>
      have := turnTanh_le ((unitStep_mem _).resolve_left hne)
      have := hT' hne
      linarith
  · rw [tanhHigh, if_neg (by omega), one_div_pow_add]
    linarith

theorem exists_tanhFits {k : Nat} (h0 : k ≠ 0) (hlt : k < 1092616192) : ∃ c, TanhFits k c := by
  by_cases hsmall : k < 931135488
  · exact ⟨k, tanhFits_self h0 hsmall⟩
  obtain ⟨c, hc, hlow, hhigh⟩ := exists_code_near (nearTanh_pos h0 (by omega)).le (nearTanh_lt_one h0 hlt)
  by_cases hnear : k < 1040187392
  · exact ⟨c, tanhFits_near (by omega) hnear hc hlow hhigh⟩
  · exact ⟨c, tanhFits_far (by omega) hlt hc hlow hhigh⟩

theorem tanhOk_admits {k : Nat} (h0 : k ≠ 0) (hlt : k < 1092616192) : Admits (tanhOk (significand F32 k) (lastPlace F32 k)) := by
  obtain ⟨c, hc⟩ := exists_tanhFits h0 hlt
  have hone := hc.le_one
  exact ⟨c, by omega, (tanhOk_iff h0 (by omega) c).mpr hc⟩

/-! ### Accuracy -/

/-- Below 1/8 an admitted value has the relative error of the bound. -/
theorem tanhFits_relative {k c : Nat} (h0 : k ≠ 0) (hk : k < 1040187392) (h : TanhFits k c) :
    |magnitude c - Real.tanh (magnitude k)| ≤ (2 ^ (-21 : Int) + 2 ^ (-50 : Int)) * Real.tanh (magnitude k) := by
  obtain ⟨-, hlow, hhigh⟩ := h
  have hpos := nearTanh_pos h0 (show k < 2147483648 by omega)
  have herror := nearTanh_error h0 (show k < 1092616192 by omega)
  rw [tanhLow, if_pos hk] at hlow
  rw [tanhHigh, if_pos hk] at hhigh
  have hhigh' := hhigh.trans (min_le_left _ _)
  rw [abs_le] at herror ⊢
  obtain ⟨h1, h2⟩ := herror
  generalize nearTanh k = T at *
  generalize Real.tanh (magnitude k) = t at *
  norm_num at *
  constructor <;> linarith

/-- From 1/8 on tanh is not below its step's power of two. -/
theorem tanh_ge_unitStep {k : Nat} (hk : 1040187392 ≤ k) (hlt : k < 1092616192) : 1 / 2 ^ unitStep (nearTanh k) ≤ Real.tanh (magnitude k) := by
  refine le_trans ?_ (nearTanh_series_bounds (by omega) hlt).1
  by_cases hne : unitStep (nearTanh k) = 4
  · have heighth := nearTanh_mono (k := 1040187392) (k' := k) (by decide) hk (by omega)
    rw [← eighthTanh_eq] at heighth
    rw [hne]
    have := eighthTanh_bounds.1
    norm_num
    linarith
  · exact (unitStep_bounds (nearTanh_lt_one (by omega) hlt)).2 hne

/-- From 1/8 on it is within two units and next to nothing. -/
theorem tanhFits_units {k c : Nat} (hk : 1040187392 ≤ k) (hlt : k < 1092616192) (h : TanhFits k c) {u : ℝ} (hu : IsUlp (Real.tanh (magnitude k)) u) :
    |magnitude c - Real.tanh (magnitude k)| ≤ (2 + 2 ^ (-30 : Int)) * u := by
  obtain ⟨-, hlow, hhigh⟩ := h
  obtain ⟨htanh, htanh'⟩ := nearTanh_series_bounds (k := k) (by omega) hlt
  have hge := tanh_ge_unitStep hk hlt
  have hfour := unitStep_le (nearTanh k)
  rw [tanhLow, if_neg (by omega), farLow] at hlow
  rw [tanhHigh, if_neg (by omega)] at hhigh
  have hlow' := (le_max_left _ _).trans hlow
  have hunit : (1 : ℝ) / 2 ^ (23 + unitStep (nearTanh k)) ≤ u := by
    obtain ⟨j, rfl, -, hj, -⟩ := hu
    rw [abs_of_nonneg (le_trans (by positivity) hge)] at hj
    have hlt := hge.trans_lt hj
    rw [one_div, ← zpow_natCast, ← zpow_neg] at hlt ⊢
    have := (zpow_lt_zpow_iff_right₀ (by norm_num : (1 : ℝ) < 2)).mp hlt
    exact zpow_le_zpow_right₀ (by norm_num) (by omega)
  have hslack : (1 : ℝ) / 2 ^ 200 ≤ 2 ^ (-30 : Int) * u := by
    have hleast : (1 : ℝ) / 2 ^ 27 ≤ 1 / 2 ^ (23 + unitStep (nearTanh k)) :=
      one_div_le_one_div_of_le (by positivity) (pow_le_pow_right₀ (by norm_num) (by omega))
    norm_num at hleast hunit ⊢
    linarith
  have htwo : (1 : ℝ) / 2 ^ (22 + unitStep (nearTanh k)) = 2 * (1 / 2 ^ (23 + unitStep (nearTanh k))) := by
    rw [one_div_pow_add, one_div_pow_add]
    ring
  have hε : (0 : ℝ) ≤ 1 / 2 ^ 200 := by positivity
  rw [htwo] at hlow' hhigh
  rw [abs_le, add_mul]
  generalize (1 : ℝ) / 2 ^ 200 = ε at *
  generalize (2 : ℝ) ^ (-30 : Int) * u = δ at *
  constructor <;> linarith

end Sys2Proof.Proofs
end

