-- ==== Sys2Proof/Proofs/Tanh.lean ====
section
/-! `TANH`: the accuracy of the result and its order (R109, Table 5.9), and with them the six special functions. -/

namespace Sys2Proof.Proofs

open Sys2Proof.Machine Sys2Proof.Says Sys2Proof.Laws

/-! ### The magnitude of the result -/

theorem tanhCode_saturated {k : Nat} (hk : 1092616192 ≤ k) (hlt : k < 2147483648) : tanhCode k = 1065353216 := by
  have hten : 10 ≤ magnitude k := by rwa [← magnitude_ten, magnitude_le_iff (by decide) hlt]
  rw [tanhCode, if_pos ((cut_ge_ten_iff _ _).mpr hten), intCode_one_spec.1]

theorem tanhCode_chosen {k : Nat} (hlt : k < 1092616192) : tanhCode k = chosen 5 k (tanhOk (significand F32 k) (lastPlace F32 k)) := by
  have hten : ¬ 10 ≤ magnitude k := by
    rw [← magnitude_ten, magnitude_le_iff (by decide) (by omega)]
    omega
  rw [tanhCode, if_neg (mt (cut_ge_ten_iff _ _).mp hten)]

theorem tanhCode_fits {k : Nat} (h0 : k ≠ 0) (hlt : k < 1092616192) : TanhFits k (tanhCode k) := by
  rw [tanhCode_chosen hlt]
  exact (tanhOk_iff h0 (by omega) _).mp (chosen_ok (tanhOk_admits h0 hlt) 5 k).2

theorem tanhCode_mono {k k' : Nat} (h0 : k ≠ 0) (hle : k ≤ k') (hlt : k' < 2147483648) : tanhCode k ≤ tanhCode k' := by
  by_cases hk' : k' < 1092616192
  · have hplace := chosen_place_le (tanhOk_rises h0 hle hk') (tanhOk_admits h0 (by omega)) (tanhOk_admits (by omega) hk') 5 hle
    have hone := tanhCode_le k
    have hone' := tanhCode_le k'
    rw [← tanhCode_chosen (by omega), ← tanhCode_chosen hk', f32Place_of_lt (by omega), f32Place_of_lt (by omega)] at hplace
    omega
  · rw [tanhCode_saturated (by omega) hlt]
    exact tanhCode_le k

/-- The magnitude of the result for a flushed operand, zero included. -/
def tanhMagnitude (k : Nat) : Nat := if k = 0 then 0 else tanhCode k

theorem tanhMagnitude_le (k : Nat) : tanhMagnitude k ≤ 1065353216 := by
  unfold tanhMagnitude
  split
  · decide
  · exact tanhCode_le k

theorem tanhMagnitude_mono {k k' : Nat} (hle : k ≤ k') (hlt : k' < 2147483648) : tanhMagnitude k ≤ tanhMagnitude k' := by
  unfold tanhMagnitude
  by_cases h0 : k = 0
  · rw [if_pos h0]
    exact Nat.zero_le _
  · rw [if_neg h0, if_neg (by omega)]
    exact tanhCode_mono h0 hle hlt

/-- An operand and its result by the magnitudes of their codes. -/
theorem tanh_operand {ftz : Bool} {w : Word} {x : ℝ} (h : IsOperand F32 ftz w.toNat x) : ∃ neg k, k < 2147483648 ∧ x = signOf neg * magnitude k ∧
    sfuTanh ftz w = word32 (sfuFlush ftz (F32.signed neg (tanhMagnitude k)), 0) := by
  obtain ⟨neg, k, hk, hw, hcase⟩ := operand_code h
  have hlt := flushed_lt ftz (show k < 2147483648 by omega)
  refine ⟨neg, flushed ftz k, hlt, ?_, ?_⟩
  · have hread := readFtz_signed ftz neg hk
    rw [← hw] at hread
    rcases hcase with ⟨hx, e, hzero⟩ | ⟨h0, hx, hfin⟩
    · rw [hread] at hzero
      injection hzero with _ hsig _
      rw [hx, magnitude, hsig, Nat.cast_zero, zero_mul, mul_zero]
    · rw [hread] at hfin
      injection hfin with _ hsig hlast
      rw [hx, magnitude, magnitude, hsig, hlast]
  · have hone := tanhMagnitude_le (flushed ftz k)
    rw [sfuTanh_signed hk hw, sfuFlush_signed ftz (by omega)]
    by_cases h0 : flushed ftz k = 0
    · rw [if_pos h0, h0]
      cases ftz <;> rfl
    · have hsame := flushed_eq_self h0
      rw [if_neg h0, hsame, tanhMagnitude, if_neg (hsame ▸ h0)]

/-! ### Accuracy -/

/-- What `Claims.SpecialFunctionAccuracy` asks of a result of `TANH`. -/
def TanhGood (x y : ℝ) : Prop :=
  (2 ^ (-3 : Int) ≤ |x| → ∀ u, IsUlp (Real.tanh x) u → |y - Real.tanh x| ≤ (2 + 2 ^ (-30 : Int)) * u) ∧
    (|x| < 2 ^ (-3 : Int) → |y - Real.tanh x| ≤ (2 ^ (-21 : Int) + 2 ^ (-50 : Int)) * |Real.tanh x|)

theorem tanh_signOf_mul (neg : Bool) (x : ℝ) : Real.tanh (signOf neg * x) = signOf neg * Real.tanh x := by
  cases neg with
  | false => rw [signOf_false_mul, signOf_false_mul]
  | true => simp only [signOf, if_true, neg_one_mul, Real.tanh_neg]

theorem isUlp_signOf_mul {neg : Bool} {y u : ℝ} (h : IsUlp (signOf neg * y) u) : IsUlp y u := by
  unfold IsUlp at h ⊢
  rwa [abs_signOf_mul] at h

theorem tanhGood_signed {k c : Nat} (h0 : k ≠ 0) (hlt : k < 1092616192) (h : TanhFits k c) (neg : Bool) :
    TanhGood (signOf neg * magnitude k) (signOf neg * magnitude c) := by
  have hpos : 0 < Real.tanh (magnitude k) := by
    have hnear := nearTanh_pos h0 (show k < 2147483648 by omega)
    have herror := (le_abs_self _).trans (nearTanh_error h0 hlt)
    norm_num at herror
    linarith
  unfold TanhGood
  rw [tanh_signOf_mul, ← mul_sub, abs_signOf_mul, abs_signOf_mul, abs_signOf_mul, abs_of_nonneg (magnitude_nonneg k), abs_of_pos hpos, ← magnitude_eighth]
  refine ⟨fun hfar u hu => ?_, fun hnear => ?_⟩
  · exact tanhFits_units ((magnitude_le_iff (by decide) (by omega)).mp hfar) hlt h (isUlp_signOf_mul hu)
  · exact tanhFits_relative h0 ((magnitude_lt_iff (by omega) (by decide)).mp hnear) h

theorem sfuTanh_accuracy {ftz : Bool} {w : Word} {x : ℝ} (h : IsOperand F32 ftz w.toNat x) (hx : x ≠ 0) (hlt : |x| < 10) :
    GivesCode ftz (sfuTanh ftz w) (TanhGood x) := by
  obtain ⟨neg, k, hk, rfl, hresult⟩ := tanh_operand h
  have h0 : k ≠ 0 := by
    rintro rfl
    exact hx (by rw [magnitude_zero, mul_zero])
  rw [abs_signOf_mul, abs_of_nonneg (magnitude_nonneg k), ← magnitude_ten, magnitude_lt_iff hk (by decide)] at hlt
  have hfits := tanhCode_fits h0 hlt
  have hone := hfits.le_one
  rw [hresult, tanhMagnitude, if_neg h0]
  exact givesCode_flush ftz (isValue_signed (by omega) neg) (signed_lt (by omega) neg) (tanhGood_signed h0 hlt hfits neg)

/-! ### Order -/

/-- The places of signed codes by those of other signed codes of greater values. -/
theorem place_tanhMagnitude_le {s s' : Bool} {k k' : Nat} (hk : k < 2147483648) (hk' : k' < 2147483648)
    (hlt : signOf s * magnitude k < signOf s' * magnitude k') :
    f32Place (F32.signed s (tanhMagnitude k)) ≤ f32Place (F32.signed s' (tanhMagnitude k')) := by
  have hone := tanhMagnitude_le k
  have hone' := tanhMagnitude_le k'
  have hpos := magnitude_nonneg k
  have hpos' := magnitude_nonneg k'
  rw [f32Place_signed (by omega), f32Place_signed (by omega)]
  cases s with
  | true =>
    cases s' with
    | true =>
      have hmag : magnitude k' < magnitude k := by simpa [signOf] using hlt
      have := tanhMagnitude_mono ((magnitude_lt_iff hk' hk).mp hmag).le hk
      rw [if_pos rfl, if_pos rfl]
      omega
    | false =>
      rw [if_pos rfl, if_neg Bool.false_ne_true]
      omega
  | false =>
    cases s' with
    | true =>
      simp only [signOf, if_true, Bool.false_eq_true, if_false] at hlt
      linarith
    | false =>
      rw [signOf_false_mul, signOf_false_mul, magnitude_lt_iff hk hk'] at hlt
      have := tanhMagnitude_mono hlt.le hk'
      rw [if_neg Bool.false_ne_true, if_neg Bool.false_ne_true]
      omega

theorem sfuTanh_rises {ftz : Bool} {v w : Word} {x y p q : ℝ} (hv : IsOperand F32 ftz v.toNat x) (hw : IsOperand F32 ftz w.toNat y) (hxy : x < y)
    (hp : IsValue F32 (sfuTanh ftz v).1.toNat p) (hq : IsValue F32 (sfuTanh ftz w).1.toNat q) : p ≤ q := by
  obtain ⟨s, k, hk, rfl, hresult⟩ := tanh_operand hv
  obtain ⟨s', k', hk', rfl, hresult'⟩ := tanh_operand hw
  have hone := tanhMagnitude_le k
  have hone' := tanhMagnitude_le k'
  rw [hresult] at hp
  rw [hresult'] at hq
  exact flushed_values_le (signed_lt (by omega) s) (signed_lt (by omega) s') (place_tanhMagnitude_le hk hk' hxy) hp hq

/-! ### The six functions -/

theorem claims_specialFunctionAccuracy : Claims.SpecialFunctionAccuracy := by
  intro ftz w x h
  exact ⟨fun _ hlow hhigh => sfuExp2_accuracy h ⟨hlow, hhigh⟩, fun hpos => sfuLog2_accuracy h hpos, fun hx hlt => sfuTanh_accuracy h hx hlt⟩

theorem claims_specialFunctionOrder : Claims.SpecialFunctionOrder := by
  intro ftz v w x y p q hv hw hxy
  exact ⟨sfuExp2_rises hv hw hxy, sfuTanh_rises hv hw hxy,
    fun hx => ⟨sfuSqrt_rises hv hw hxy hx, sfuLog2_rises hv hw hx hxy, sfuRsq_falls hv hw hxy hx⟩, sfuRcp_falls hv hw hxy⟩

/-- Settles O60: each bound of the model is an interval of codes that rises with the real function and holds a code, so that the choice among its
codes is near the function and in the operands' order; for `TANH` the interval stands about a fraction that is near the function and rises. -/
theorem specialFunctionAccuracy : Obligations.SpecialFunctionAccuracy := by
  unfold Obligations.SpecialFunctionAccuracy
  exact ⟨claims_specialFunctionAccuracy, claims_specialFunctionOrder⟩

end Sys2Proof.Proofs
end
